-- ==== Sys2Proof/Word.lean ====
section
/-! DEFINITION. The word types of the AQ880-M and their plainest arithmetic. -/

namespace Sys2Proof

/-- A register-file word (R249). -/
abbrev Word := BitVec 32
/-- One byte of any memory. -/
abbrev Byte := BitVec 8
/-- An instruction word, a pair, or a 64-bit CSR (R67, R47). -/
abbrev DWord := BitVec 64

end Sys2Proof
end

