-- ==== Sys2Proof/Syntax.lean ====
section
/-! DEFINITION. The instructions and events of spec/opcode_table.json, one constructor of `Instr` per row. -/

namespace Sys2Proof

/-- The operand types of R84. -/
inductive Ty where
  | i32 | n32 | i16x2 | n16x2 | i8x4 | n8x4 | f32 | h16x2 | b16x2 | e4x4 | e5x4 | q4x8 | i64 | n64
  deriving DecidableEq, Repr, Inhabited

/-- The rounding modes of R55. -/
inductive Rm where
  | rn | rz | ru | rd
  deriving DecidableEq, Repr, Inhabited

/-- The twelve specials of R78. -/
inductive Special where
  | lane | hidx | tid | team | role | ridx | gsz | nteam | core | die | clk32 | launch
  deriving DecidableEq, Repr, Inhabited

/-- An operand specifier of R78: a V or S register, a special, one of the 96 integer constants
(code k below 64 is k, code k from 64 is 63 - k), one of the 16 F32 constants, or NONE. -/
inductive Operand where
  | v (n : Fin 255)
  | s (n : Fin 64)
  | special (x : Special)
  | int (k : Fin 96)
  | flt (k : Fin 16)
  | none
  deriving DecidableEq, Repr, Inhabited

/-- The common head of R75: uniform bit, guard negation and guard predicate. -/
structure Head where
  u : Bool
  pn : Bool
  pi : Fin 8
  deriving DecidableEq, Repr, Inhabited

/-- The default MOD of R83 as the integer instructions of R101 use it. -/
structure IntMods where
  ty : Ty
  sat : Bool
  na : Bool
  nb : Bool
  aa : Bool
  ab : Bool
  deriving DecidableEq, Repr, Inhabited

/-- The default MOD of R83 as the floating-point instructions of R112 to R118 use it. -/
structure FltMods where
  ty : Ty
  rm : Rm
  sat : Bool
  na : Bool
  nb : Bool
  aa : Bool
  ab : Bool
  nc : Bool
  deriving DecidableEq, Repr, Inhabited

/-- The MOD of the compares (R107). -/
structure CmpMods where
  ty : Ty
  cmp : Fin 8
  bor : Bool
  pd : Fin 8
  deriving DecidableEq, Repr, Inhabited

/-- The MOD of CVT (R119). -/
structure CvtMods where
  tys : Ty
  rm : Rm
  sat : Bool
  tyd : Ty
  ei : Fin 8
  deriving DecidableEq, Repr, Inhabited

/-- The MOD of XRED and XSCAN (R130, R131). -/
structure RedMods where
  ty : Ty
  rm : Rm
  sat : Bool
  exc : Bool
  op : Fin 6
  deriving DecidableEq, Repr, Inhabited

/-- The ORD field of R86. -/
inductive Ord where
  | relaxed | acquire | release | acqRel
  deriving DecidableEq, Repr, Inhabited

/-- The scopes of R180, narrowest first. -/
inductive Scope where
  | team | core | die | device | system
  deriving DecidableEq, Repr, Inhabited

/-- The access sizes of R86: SZ 0 to 4. -/
inductive Sz where
  | b8 | b16 | b32 | b64 | b128
  deriving DecidableEq, Repr, Inhabited

/-- The atomic operations of R175, in AOP order. -/
inductive Aop where
  | addN32 | addF32 | minI32 | minN32 | maxI32 | maxN32 | fmin | fmax | and | or | xor | exch32
  | addN64 | exch64 | addB16x2
  deriving DecidableEq, Repr, Inhabited

/-- The KINDs of FENCE (R178). -/
inductive FenceKind where
  | mem | engine | all
  deriving DecidableEq, Repr, Inhabited

/-- The DIR of CPY (R86): 0 to 4. -/
inductive Dir where
  | m2s | s2m | s2s | sys2s | s2sys
  deriving DecidableEq, Repr, Inhabited

/-- The TY of NMADD and NMMAX (R192). -/
inductive NmTy where
  | f32 | i32 | b16x2 | n32
  deriving DecidableEq, Repr, Inhabited

/-- The tile formats of R206. -/
inductive Fmt where
  | e4 | e5 | int8 | nat8 | q4 | b16 | h16 | f32
  deriving DecidableEq, Repr, Inhabited

/-- The PART of TLD (R207). -/
inductive TilePart where
  | data | qs | super | affine
  deriving DecidableEq, Repr, Inhabited

/-- The mode of TRET (R157). -/
inductive TretMode where
  | retry | skip | kill
  deriving DecidableEq, Repr, Inhabited

/-- The kind of TLBINV (R162). -/
inductive TlbKind where
  | all | asid | page
  deriving DecidableEq, Repr, Inhabited

/-- The mode of XCHG (R127). -/
inductive XchgMode where
  | xor | up | down | tr
  deriving DecidableEq, Repr, Inhabited

/-- A barrier field: B0 to B15, or none (31) (R86). -/
abbrev BarSel := Option (Fin 16)

/-- The M-format fields shared by LD, ST and the atomics (R86, R171). -/
structure MemMods where
  la : Fin 16
  ord : Ord
  sc : Scope
  rmt : Bool
  deriving DecidableEq, Repr, Inhabited

/-- Where a quorum contribution comes from (R226): an outstanding QPOST of this device, a QPOST of another by the fabric, or a
parity update of the bank units of another (R198, R299). -/
inductive ContribSrc where
  | own (op : Nat) (tid : Nat)
  | remote (group member tag prio : Nat) (node : Nat) (data : List Byte)
  | parity (group member node : Nat) (data : List Byte)
  deriving DecidableEq, Repr, Inhabited

/-- An active message that arrives from the fabric (R230, R231). -/
structure RemoteMsg where
  core : Nat
  handler : Nat
  node : Nat
  srcCore : Nat
  asid : Nat
  words : List Word
  deriving DecidableEq, Repr, Inhabited

/-- A local endpoint of the on-die network (R11): a core, a DSM slice, an HBM4E channel, a
die-link gateway, a fabric port, the host link or the mailbox engine. -/
inductive Endpoint where
  | core (c : Nat)
  | slice (die : Nat) (s : Nat)
  | channel (c : Nat)
  | port (p : Nat)
  | host
  | mailbox
  deriving DecidableEq, Repr, Inhabited

/-- What a local endpoint offers its router for one packet (R15, R22): its destinations and its payload. -/
structure Offer where
  dests : List Endpoint
  payload : List Byte
  deriving DecidableEq, Repr, Inhabited

/-- Where a device wishes to place a team on its core (R250, R257, R258): the first line of its LSM allotment, the first
of its accumulator blocks and the first granule of its operand-buffer area. -/
structure Areas where
  lsm : Nat
  acc : Nat
  tile : Nat
  deriving DecidableEq, Repr, Inhabited

/-- The readings of one pace evaluation (R383): module power in W over the last millisecond and
whether 10 ms below 3,400 W have passed, die and base-die temperatures in 1/16 degree C, whether
stretching acted in every microsecond of the last millisecond, and whether 10 ms passed without. -/
structure PaceReadings where
  powerAbove : Bool
  powerBelow : Bool
  dieTemp : Nat
  baseTemp : Nat
  stretchedMs : Bool
  unstretched : Bool
  deriving DecidableEq, Repr, Inhabited

/-- Where an uncorrectable soft error lies (R247, R352, R390). -/
inductive ErrorPlace where
  | core (c : Nat) (team : Nat) (row : Nat)
  | dsm (addr : Nat)
  | main (addr : Nat)
  | round (group : Nat)
  deriving DecidableEq, Repr, Inhabited

/-- One instruction or event of spec/opcode_table.json; a row each, in the table's order. The
events carry as arguments what the spec leaves to the surroundings or to timing. -/
inductive Instr where
  | iadd (h : Head) (m : IntMods) (d a b : Operand)
  | iaddVl (h : Head) (d a : Operand) (lit : Word)
  | isub (h : Head) (m : IntMods) (d a b : Operand)
  | isubVl (h : Head) (d a : Operand) (lit : Word)
  | imul (h : Head) (m : IntMods) (d a b : Operand)
  | imulVl (h : Head) (d a : Operand) (lit : Word)
  | imulhi (h : Head) (m : IntMods) (d a b : Operand)
  | imulhiVl (h : Head) (d a : Operand) (lit : Word)
  | imad (h : Head) (m : IntMods) (d a b c : Operand)
  | imin (h : Head) (m : IntMods) (d a b : Operand)
  | iminVl (h : Head) (d a : Operand) (lit : Word)
  | imax (h : Head) (m : IntMods) (d a b : Operand)
  | imaxVl (h : Head) (d a : Operand) (lit : Word)
  | iabs (h : Head) (ty : Ty) (sat : Bool) (d a : Operand)
  | shl (h : Head) (ty : Ty) (d a n : Operand)
  | shlVl (h : Head) (d a : Operand) (lit : Word)
  | shr (h : Head) (ty : Ty) (d a n : Operand)
  | shrVl (h : Head) (d a : Operand) (lit : Word)
  | sar (h : Head) (ty : Ty) (d a n : Operand)
  | sarVl (h : Head) (d a : Operand) (lit : Word)
  | and (h : Head) (ty : Ty) (na nb : Bool) (d a b : Operand)
  | andVl (h : Head) (d a : Operand) (lit : Word)
  | or (h : Head) (ty : Ty) (na nb : Bool) (d a b : Operand)
  | orVl (h : Head) (d a : Operand) (lit : Word)
  | xor (h : Head) (ty : Ty) (na nb : Bool) (d a b : Operand)
  | xorVl (h : Head) (d a : Operand) (lit : Word)
  | lut3 (h : Head) (lut : Byte) (d a b c : Operand)
  | popc (h : Head) (ty : Ty) (d a : Operand)
  | clz (h : Head) (ty : Ty) (d a : Operand)
  | brev (h : Head) (ty : Ty) (d a : Operand)
  | bfe (h : Head) (ty : Ty) (d a f : Operand)
  | bfeVl (h : Head) (d a : Operand) (lit : Word)
  | bfi (h : Head) (d a b f : Operand)
  | iaddc (h : Head) (pd : Fin 8) (d a b c : Operand)
  | icmp (h : Head) (m : CmpMods) (d a b c : Operand)
  | sel (h : Head) (ty : Ty) (d a b c : Operand)
  | mov (h : Head) (d a : Operand)
  | lea (h : Head) (ty : Ty) (sh : Fin 8) (d a b : Operand)
  | leaVl (h : Head) (d a : Operand) (lit : Word)
  | iadd64 (h : Head) (m : IntMods) (d a b : Operand)
  | iadd64Vl (h : Head) (d a : Operand) (lit : Word)
  | icmp64 (h : Head) (m : CmpMods) (d a b c : Operand)
  | mov64 (h : Head) (d a : Operand)
  | fadd (h : Head) (m : FltMods) (d a b : Operand)
  | faddVl (h : Head) (d a : Operand) (lit : Word)
  | fsub (h : Head) (m : FltMods) (d a b : Operand)
  | fsubVl (h : Head) (d a : Operand) (lit : Word)
  | fmul (h : Head) (m : FltMods) (d a b : Operand)
  | fmulVl (h : Head) (d a : Operand) (lit : Word)
  | fmac (h : Head) (m : FltMods) (d a b c : Operand)
  | fmin (h : Head) (m : FltMods) (d a b : Operand)
  | fminVl (h : Head) (d a : Operand) (lit : Word)
  | fmax (h : Head) (m : FltMods) (d a b : Operand)
  | fmaxVl (h : Head) (d a : Operand) (lit : Word)
  | fcmp (h : Head) (m : CmpMods) (d a b c : Operand)
  | fclass (h : Head) (d a : Operand)
  | frcp (h : Head) (rm : Rm) (na aa : Bool) (d a : Operand)
  | frsq (h : Head) (rm : Rm) (na aa : Bool) (d a : Operand)
  | fsqrt (h : Head) (rm : Rm) (na aa : Bool) (d a : Operand)
  | fexp2 (h : Head) (rm : Rm) (na aa : Bool) (d a : Operand)
  | flog2 (h : Head) (rm : Rm) (na aa : Bool) (d a : Operand)
  | ftanh (h : Head) (rm : Rm) (na aa : Bool) (d a : Operand)
  | fdot2 (h : Head) (m : FltMods) (d a b c : Operand)
  | fscale (h : Head) (rm : Rm) (sat na aa : Bool) (d a n : Operand)
  | fscaleVl (h : Head) (d a : Operand) (lit : Word)
  | cvt (h : Head) (m : CvtMods) (d a sc mg : Operand)
  | cvtpk (h : Head) (tyd : Ty) (rm : Rm) (sat hi : Bool) (d a b mg : Operand)
  | cvtx (h : Head) (tys : Ty) (rm : Rm) (sat : Bool) (tyd : Ty) (hi : Bool) (d a : Operand)
  | qdec (h : Head) (tyd : Ty) (rm : Rm) (j : Fin 8) (d a sc : Operand)
  | qdecVl (h : Head) (d a : Operand) (lit : Word)
  | qenc (h : Head) (j : Fin 8) (d a sg mg : Operand)
  | plut (h : Head) (lut : Byte) (pd pa pb pc : Fin 8)
  | pmov (h : Head) (d : Operand)
  | pmovW (h : Head) (mask : BitVec 7) (a : Operand)
  | xchg (h : Head) (ty : Ty) (mode : XchgMode) (d a m : Operand)
  | xchgVl (h : Head) (d a : Operand) (lit : Word)
  | xperm (h : Head) (ty : Ty) (d a e : Operand)
  | xpermVl (h : Head) (d a : Operand) (lit : Word)
  | xbcast (h : Head) (ty : Ty) (d a q : Operand)
  | xbcastVl (h : Head) (d a : Operand) (lit : Word)
  | xred (h : Head) (m : RedMods) (d a : Operand)
  | xscan (h : Head) (m : RedMods) (d a f : Operand)
  | xscanVl (h : Head) (d a : Operand) (lit : Word)
  | xballot (h : Head) (count : Bool) (d a : Operand)
  | xmatch (h : Head) (ty : Ty) (low : Bool) (d a : Operand)
  | xread (h : Head) (d a q : Operand)
  | xreadVl (h : Head) (d a : Operand) (lit : Word)
  | xwrite (h : Head) (d b q : Operand)
  | xwriteVl (h : Head) (d b : Operand) (lit : Word)
  | ld (h : Head) (m : MemMods) (sz : Sz) (d base : Operand) (ofs : BitVec 9)
  | st (h : Head) (m : MemMods) (sz : Sz) (base data : Operand) (ofs : BitVec 9)
  | ldk (h : Head) (la : Fin 16) (sz : Sz) (d base : Operand) (ofs : BitVec 9)
  | stk (h : Head) (sz : Sz) (base data : Operand) (ofs : BitVec 9)
  | atom (h : Head) (m : MemMods) (op : Aop) (d base data : Operand) (ofs : BitVec 9)
  | red (h : Head) (m : MemMods) (op : Aop) (base data : Operand) (ofs : BitVec 9)
  | cas (h : Head) (m : MemMods) (sz : Sz) (d base data cmp : Operand)
  | fence (h : Head) (kind : FenceKind) (ord : Ord) (sc : Scope)
  | probe (h : Head) (m : MemMods) (d base : Operand) (ofs : BitVec 9)
  | cpy (h : Head) (sz : Fin 3) (dir : Dir) (rel : Bool) (d sr : Operand) (bar : BarSel)
  | cpymc (h : Head) (sz : Fin 3) (rel : Bool) (d sr g : Operand) (bar : BarSel)
  | nmadd (h : Head) (ty : NmTy) (len : Fin 7) (rel : Bool) (y sr : Operand)
  | nmmax (h : Head) (ty : NmTy) (len : Fin 7) (rel : Bool) (y sr : Operand)
  | nmaxpy (h : Head) (y x a n : Operand)
  | nmstep (h : Head) (zg rel : Bool) (w p : Operand)
  | nmfence (h : Head) (bar : BarSel)
  | rstripe (h : Head) (gathered : Bool) (g : Fin 4) (base len nb : Operand) (bar : Fin 16)
  | qpost (h : Head) (rel : Bool) (r c w m : Operand) (bar : BarSel)
  | qsync (h : Head) (la : Fin 16) (d g m : Operand) (bar : BarSel)
  | amsg (h : Head) (rel : Bool) (n : Fin 17) (t sr hd : Operand) (bar : BarSel)
  | tcfg (h : Head) (t : Fin 16) (fmt : Fmt) (sc r c : Operand)
  | trel (h : Head) (t : Fin 16)
  | tld (h : Head) (t : Fin 16) (bar : BarSel) (part : TilePart) (ch : Fin 6) (a o : Operand)
  | tst (h : Head) (t : Fin 16) (bar : BarSel) (ch : Fin 6) (a o : Operand)
  | tzero (h : Head) (t : Fin 16)
  | mma (h : Head) (ta tb : Fin 16) (tra trb : Bool) (n x y : Operand)
  | accld (h : Head) (la : Fin 16) (w : Fin 6) (d n r c : Operand)
  | accst (h : Head) (w : Fin 6) (v n r c : Operand)
  | accz (h : Head) (n cnt : Operand)
  | acccvt (h : Head) (fmt : Fmt) (rm : Rm) (sat : Bool) (bar : BarSel) (n a sc : Operand)
  | bra (h : Head) (off : BitVec 24)
  | brx (h : Head) (a : Operand)
  | call (h : Head) (d : Operand) (off : BitVec 24)
  | ret (h : Head) (a : Operand)
  | join (h : Head) (k : Fin 32) (off : BitVec 24)
  | waitj (h : Head) (k : Fin 32)
  | exit (h : Head)
  | yield (h : Head)
  | elect (h : Head) (pd : Fin 8) (d : Operand)
  | syncm (h : Head) (a : Operand)
  | binit (h : Head) (b : Fin 16) (e : Operand)
  | barv (h : Head) (b : Fin 16) (c : Operand)
  | bwait (h : Head) (b : Fin 16) (pd : Fin 8) (p : Operand)
  | bexp (h : Head) (b : Fin 16) (n : Operand)
  | binv (h : Head) (b : Fin 16) (force : Bool)
  | gsize (h : Head) (code : Fin 4)
  | spawn (h : Head) (role : Fin 4) (a b : Operand) (off : BitVec 24)
  | launch (h : Head) (a q : Operand)
  | trap (h : Head) (code : BitVec 24)
  | bkpt (h : Head) (code : BitVec 24)
  | nop (h : Head)
  | tret (h : Head) (mode : TretMode)
  | csrrd (h : Head) (d : Operand) (csr : BitVec 12)
  | csrwr (h : Head) (a : Operand) (csr : BitVec 12)
  | cdstart (h : Head) (a w : Operand)
  | cdstop (h : Head)
  | replay (h : Head) (a : Operand)
  | cancel (h : Head) (asid : Bool) (a : Operand)
  | tlbinv (h : Head) (kind : TlbKind) (a v : Operand)
  | preempt (h : Head) (a : Operand)
  | trace (h : Head) (a b : Operand)
  | mcgset (h : Head) (hi : Bool) (g m : Operand)
  | schedulerChoice (core port : Nat)
  | loadResultArrival (id : Nat)
  | storePerformed (id : Nat) (level : Scope)
  | fenceCompletion (team tid : Nat)
  | tlbinvCompletion (id : Nat)
  | packetInjection (router : Nat) (offer : Offer)
  | routerArbitration (router : Nat)
  | starvationSignal (router : Nat)
  | goldenEpoch (die : Nat)
  | sublinkCrossing (die quad other : Nat)
  | gatewayInjection (die quad other : Nat)
  | copyLineCompletion (op line : Nat)
  | spawnBinTimerExpiry (core bin : Nat)
  | spawnGroupPlacement (core bin : Nat)
  | commandAcceptance (op tid : Nat)
  | nmwinWindowEnd (nb : Nat)
  | bankCommandSuspend (nb : Nat)
  | bankCommandResume (nb : Nat)
  | bankCommandCompletion (nb : Nat)
  | buddyAcknowledge (cmd : Nat)
  | parityFold (cmd : Nat)
  | nmfenceCompletion (op : Nat)
  | restripeLineMove
  | tileAcceptance (core port : Nat)
  | mmaStart (op : Nat)
  | mmaCompletion (op : Nat)
  | tldCompletion (op : Nat)
  | tstCompletion (op : Nat)
  | tzeroCompletion (op : Nat)
  | accldResultArrival (op : Nat)
  | tileCompletion (op : Nat)
  | acccvtCompletion (op : Nat)
  | quorumContributionArrival (src : ContribSrc)
  | qpostResultArrival (op tid : Nat) (remote : Option (List Byte))
  | closureMessageArrival (group : Nat) (round : BitVec 16)
  | qsyncReplyArrival (op tid : Nat) (remote : Option (BitVec 16 × BitVec 8))
  | amsgArrival (op tid : Nat) (remote : Option RemoteMsg)
  | amsgAppend (core : Nat)
  | fabricPieceSend (port : Nat)
  | fabricPortFailure (port : Nat)
  | fabricTransferDrop (id : Nat)
  | dispatcherChoice (ident : Word)
  | launchRangesResolved (launch : Nat)
  | teamPlacement (wish : Areas)
  | quadrantResumed (quad : Nat)
  | quadrantPowerGate (quad : Nat)
  | teamSave (team : Nat)
  | faultRecordEntered
  | replayWalk (id : Nat)
  | watchdogExpiry (team : Nat)
  | cadenceImageLoaded
  | cadenceCycle (ident : Word)
  | cadenceGridCompletion
  | cadenceArrival (down : Bool) (mb : Nat) (data : List Byte)
  | cadenceGrant (down : Bool)
  | traceFrameTimeout (core : Nat)
  | traceFrameDrain (core : Nat)
  | paceEvaluation (r : PaceReadings)
  | paceDomainUpdate (others : Nat)
  | clockStretch (cycles : Nat)
  | refreshRateUpdate (stack temp : Nat)
  | thermalTrip (base : Bool) (place temp : Nat)
  | uncorrectableError (place : ErrorPlace)
  | deviceStart
  | bringUpStagePass (ok : Bool)
  | tailDoorbell (tail : Byte)
  | mailboxWrite
  | mailboxCopyToDevice
  | mailboxCopyToHost (responds : Bool)
  | mailboxLaunch
  | mailboxReplay
  | mailboxCancel
  | mailboxCancelAsid
  | mailboxTlbinvAll
  | mailboxTlbinvAsid
  | mailboxTlbinvPage
  | mailboxRead
  | qsyncRequestArrival (op tid : Nat) (remote : Option (Nat × Nat × Nat))
  | buddyMirrorWrite (addr : Nat) (data : List Byte)
  | perBankRefresh (nb : Nat)
  | gatingTraceDrain (core : Nat)
  | contributionRead (op tid : Nat)
  | firmwareWatchdogExpiry
  | moduleUnpowered
  | linkLevelRetry (port : Nat)
  deriving DecidableEq, Repr, Inhabited

end Sys2Proof
end

