-- ==== Sys2Proof/WellFormed.lean ====
section
/-! DEFINITION. Which instructions are well formed: the operand limits of R81, the modifiers each entry
accepts, and the CSR table of R158. `Decode` refuses a word whose instruction is not well formed. -/

namespace Sys2Proof

/-- A legal 32-bit source: any operand but NONE (R78, R81). -/
def Operand.isSrc : Operand → Bool
  | .none => false
  | _ => true

/-- A legal 64-bit source: an even register pair or a constant; a special is refused (R81). -/
def Operand.isSrc64 : Operand → Bool
  | .v n => n.val % 2 == 0
  | .s n => n.val % 2 == 0
  | .special _ => false
  | .int _ => true
  | .flt _ => true
  | .none => false

/-- A legal 128-bit source: a quad or a constant (R171). -/
def Operand.isSrc128 : Operand → Bool
  | .v n => n.val % 4 == 0
  | .s n => n.val % 4 == 0
  | .special _ => false
  | .int _ => true
  | .flt _ => true
  | .none => false

/-- A legal destination of `w` words: V, or S with U = 1, at a multiple of `w` (R77, R81, R171). -/
def Operand.isDst (o : Operand) (u : Bool) (w : Nat) : Bool :=
  match o with
  | .v n => n.val % w == 0
  | .s n => u && n.val % w == 0
  | _ => false

/-- A V register (R134, R135, R221). -/
def Operand.isV : Operand → Bool
  | .v _ => true
  | _ => false

/-- The operand is NONE (R81: unused fields hold NONE). -/
def Operand.isNone : Operand → Bool
  | .none => true
  | _ => false

/-- PG = 1111 is refused, and so is U = 1 where the entry gives no `.uni` form (R75, R77). -/
def Head.ok (h : Head) (uni : Bool) : Bool :=
  !(h.pn && h.pi == 7) && (!h.u || uni)

/-- The integer types of R101. -/
def Ty.isInt : Ty → Bool
  | .i32 | .n32 | .i16x2 | .n16x2 | .i8x4 | .n8x4 => true
  | _ => false

/-- The signed integer types. -/
def Ty.isSigned : Ty → Bool
  | .i32 | .i16x2 | .i8x4 | .i64 => true
  | _ => false

/-- i64 or n64: pairs (R47). -/
def Ty.is64 : Ty → Bool
  | .i64 | .n64 => true
  | _ => false

/-- i32 or n32. -/
def Ty.is32 : Ty → Bool
  | .i32 | .n32 => true
  | _ => false

/-- f32, h16x2 or b16x2: the types of R112. -/
def Ty.isFlt : Ty → Bool
  | .f32 | .h16x2 | .b16x2 => true
  | _ => false

/-- Elements in a word (R47). -/
def Ty.count : Ty → Nat
  | .i16x2 | .n16x2 | .h16x2 | .b16x2 => 2
  | .i8x4 | .n8x4 | .e4x4 | .e5x4 => 4
  | .q4x8 => 8
  | _ => 1

/-- Width of one element in bits (R46, R47). -/
def Ty.width : Ty → Nat
  | .i16x2 | .n16x2 | .h16x2 | .b16x2 => 16
  | .i8x4 | .n8x4 | .e4x4 | .e5x4 => 8
  | .q4x8 => 4
  | .i64 | .n64 => 64
  | _ => 32

/-- A packed type (R47). -/
def Ty.isPacked (t : Ty) : Bool := t.count != 1

/-- Words of one access of R86's SZ. -/
def Sz.bytes : Sz → Nat
  | .b8 => 1 | .b16 => 2 | .b32 => 4 | .b64 => 8 | .b128 => 16

/-- Registers that an access of this size moves (R171). -/
def Sz.words : Sz → Nat
  | .b8 | .b16 | .b32 => 1
  | .b64 => 2
  | .b128 => 4

/-- A data source of this access size (R171). -/
def Operand.isData (o : Operand) (z : Sz) : Bool :=
  match z with
  | .b64 => o.isSrc64
  | .b128 => o.isSrc128
  | _ => o.isSrc

/-- The 64-bit atomic operations (R175). -/
def Aop.is64 : Aop → Bool
  | .addN64 | .exch64 => true
  | _ => false

def Ord.isAcquire : Ord → Bool
  | .acquire | .acqRel => true
  | _ => false

def Ord.isRelease : Ord → Bool
  | .release | .acqRel => true
  | _ => false

/-- RMT = 1 only with an acquire (R171). -/
def MemMods.rmtOk (m : MemMods) : Bool := !m.rmt || m.ord.isAcquire

/-- Access column of R158. -/
inductive CsrAccess where
  | ro | rw | pw
  deriving DecidableEq, Repr, Inhabited

/-- The CSRs of R158. -/
inductive Csr where
  | mode | ready | bootwhy | bootcnt | pace | pacedom | tvec | tcause | tpc | taddr | tlanes | asid
  | cvcsat | cvcftz | cvcnan | cvclim | wdog | resil | nmwin | faultRetryMax | bktpri
  | cdhead | cdstate | cdbubu | cdbubd | cdbubs | cdbubx | qgstate | trctl | psig | clk64 | rgnwm
  deriving DecidableEq, Repr, Inhabited

/-- The numbers of R158. -/
def Csr.ofNum (n : Nat) : Option Csr :=
  match n with
  | 0x000 => some .mode | 0x001 => some .ready | 0x002 => some .bootwhy | 0x003 => some .bootcnt
  | 0x004 => some .pace | 0x005 => some .pacedom | 0x010 => some .tvec | 0x011 => some .tcause
  | 0x012 => some .tpc | 0x013 => some .taddr | 0x014 => some .tlanes | 0x015 => some .asid
  | 0x020 => some .cvcsat | 0x021 => some .cvcftz | 0x022 => some .cvcnan | 0x023 => some .cvclim
  | 0x024 => some .wdog | 0x030 => some .resil | 0x031 => some .nmwin
  | 0x032 => some .faultRetryMax | 0x033 => some .bktpri | 0x040 => some .cdhead
  | 0x041 => some .cdstate | 0x042 => some .cdbubu | 0x043 => some .cdbubd | 0x044 => some .cdbubs
  | 0x045 => some .cdbubx | 0x050 => some .qgstate | 0x060 => some .trctl | 0x061 => some .psig
  | 0x062 => some .clk64 | 0x070 => some .rgnwm
  | _ => none

/-- The 64-bit CSRs of R158. -/
def Csr.is64 : Csr → Bool
  | .tvec | .tpc | .taddr | .tlanes | .cdbubu | .cdbubd | .cdbubs | .cdbubx | .psig | .clk64 => true
  | _ => false

/-- The access of R158. -/
def Csr.access : Csr → CsrAccess
  | .mode | .tpc | .bktpri => .rw
  | .pace | .pacedom | .tvec | .cvcsat | .cvcftz | .cvcnan | .cvclim | .wdog | .resil | .nmwin
  | .faultRetryMax | .cdbubu | .cdbubd | .cdbubs | .cdbubx | .trctl => .pw
  | _ => .ro

/-- The MOD of the two-source integer instructions: accepted types, SAT and signs (R101). -/
def IntMods.ok (m : IntMods) (tyOk sat signs : Bool) : Bool :=
  tyOk && (!m.sat || sat) && (!(m.na || m.nb || m.aa || m.ab) || signs)

/-- A two-source V3 instruction of 32-bit words. -/
def wf2 (h : Head) (d a b : Operand) : Bool := h.ok true && d.isDst h.u 1 && a.isSrc && b.isSrc

/-- A two-source VL instruction of 32-bit words. -/
def wfVl (h : Head) (d a : Operand) : Bool := h.ok true && d.isDst h.u 1 && a.isSrc

/-- A source or destination that is a pair when `p` is set. -/
def Operand.isSrcP (o : Operand) (p : Bool) : Bool := if p then o.isSrc64 else o.isSrc
def Operand.isDstP (o : Operand) (u p : Bool) : Bool := o.isDst u (if p then 2 else 1)

/-- The MOD of the compares: sign of TY, CMP codes, and BOP zero without SC (R107). -/
def wfCmp (h : Head) (m : CmpMods) (tyOk : Bool) (maxCmp : Nat) (pair : Bool) (d a b c : Operand) : Bool :=
  h.ok true && tyOk && decide (m.cmp.val ≤ maxCmp) && (!m.bor || c.isSrc) &&
    (d.isNone || d.isDst h.u 1) && a.isSrcP pair && b.isSrcP pair

/-- A shift or logic type: 32-bit or pairs (R104, R105). -/
def Ty.isLogic (t : Ty) : Bool := t.is32 || t.is64

/-- The MOD of the reductions of R130: types per operation, RM for f32 add only, SAT for add only. -/
def RedMods.ok (m : RedMods) : Bool :=
  (m.ty.is32 || (m.ty == .f32 && decide (m.op.val ≤ 2))) &&
  (m.rm == .rn || (m.ty == .f32 && m.op == 0)) && (!m.sat || m.op == 0)

/-- TY of the data-moving cross-lane instructions: i32, or i64 for pairs (R126). -/
def Ty.isMove (t : Ty) : Bool := t == .i32 || t == .i64

/-- The well-formed instructions. An event has no encoding and is always well formed. -/
def Instr.wf : Instr → Bool
  | .iadd h m d a b | .isub h m d a b | .imul h m d a b =>
      wf2 h d a b && m.ok m.ty.isInt true m.ty.isSigned
  | .imulhi h m d a b => wf2 h d a b && m.ok m.ty.is32 false (m.ty == .i32)
  | .imad h m d a b c =>
      wf2 h d a b && c.isSrc && m.ok (m.ty.isInt && decide (m.ty.width ≥ 16)) true m.ty.isSigned
  | .imin h m d a b | .imax h m d a b => wf2 h d a b && m.ok m.ty.isInt false m.ty.isSigned
  | .iabs h ty _ d a => wfVl h d a && ty.isInt && ty.isSigned
  | .iaddVl h d a _ | .isubVl h d a _ | .imulVl h d a _ | .imulhiVl h d a _ | .iminVl h d a _
  | .imaxVl h d a _ | .shlVl h d a _ | .shrVl h d a _ | .sarVl h d a _ | .andVl h d a _
  | .orVl h d a _ | .xorVl h d a _ | .bfeVl h d a _ | .faddVl h d a _ | .fsubVl h d a _
  | .fmulVl h d a _ | .fminVl h d a _ | .fmaxVl h d a _ | .fscaleVl h d a _ | .qdecVl h d a _ =>
      wfVl h d a
  | .shl h ty d a n | .shr h ty d a n | .sar h ty d a n =>
      h.ok true && (ty.isInt || ty.is64) && d.isDstP h.u ty.is64 && a.isSrcP ty.is64 && n.isSrc
  | .and h ty _ _ d a b | .or h ty _ _ d a b | .xor h ty _ _ d a b =>
      h.ok true && ty.isLogic && d.isDstP h.u ty.is64 && a.isSrcP ty.is64 && b.isSrcP ty.is64
  | .lut3 h _ d a b c => wf2 h d a b && c.isSrc
  | .popc h ty d a | .clz h ty d a =>
      h.ok true && ty.isLogic && d.isDst h.u 1 && a.isSrcP ty.is64
  | .brev h ty d a => h.ok true && ty.isLogic && d.isDstP h.u ty.is64 && a.isSrcP ty.is64
  | .bfe h ty d a f => wf2 h d a f && ty.is32
  | .bfi h d a b f => wf2 h d a b && f.isSrc
  | .iaddc h _ d a b c => wf2 h d a b && c.isSrc
  | .icmp h m d a b c => wfCmp h m m.ty.is32 5 false d a b c
  | .icmp64 h m d a b c => wfCmp h m m.ty.is64 5 true d a b c
  | .fcmp h m d a b c => wfCmp h m (m.ty == .f32) 7 false d a b c
  | .sel h ty d a b c =>
      h.ok true && ty.isMove && d.isDstP h.u ty.is64 && a.isSrcP ty.is64 && b.isSrcP ty.is64 &&
        c.isSrc
  | .mov h d a => wfVl h d a
  | .mov64 h d a => h.ok true && d.isDst h.u 2 && a.isSrc64
  | .lea h ty _ d a b => h.ok true && ty.is32 && d.isDst h.u 2 && a.isSrc64 && b.isSrc
  | .leaVl h d a _ | .iadd64Vl h d a _ => h.ok true && d.isDst h.u 2 && a.isSrc64
  | .iadd64 h m d a b =>
      h.ok true && m.ok m.ty.is64 true m.ty.isSigned && d.isDst h.u 2 && a.isSrc64 && b.isSrc64
  | .fadd h m d a b | .fsub h m d a b | .fmul h m d a b =>
      wf2 h d a b && m.ty.isFlt && !m.nc
  | .fmac h m d a b c => wf2 h d a b && c.isSrc && m.ty.isFlt
  | .fmin h m d a b | .fmax h m d a b =>
      wf2 h d a b && m.ty.isFlt && !m.nc && m.rm == .rn && !m.sat
  | .fclass h d a => wfVl h d a
  | .frcp h _ _ _ d a | .frsq h _ _ _ d a | .fsqrt h _ _ _ d a | .fexp2 h _ _ _ d a
  | .flog2 h _ _ _ d a | .ftanh h _ _ _ d a => wfVl h d a
  | .fdot2 h m d a b c =>
      wf2 h d a b && c.isSrc && m.ty.isFlt && m.ty != .f32 && !m.nc
  | .fscale h _ _ _ _ d a n => wf2 h d a n
  | .cvt h m d a sc mg =>
      h.ok true && m.tys != .q4x8 && m.tyd != .q4x8 &&
        decide (m.ei.val < (if m.tys.isPacked then m.tys.count else if m.tyd.isPacked then 8 else 1)) &&
        decide (m.ei.val < (if m.tyd.isPacked then m.tyd.count else if m.tys.isPacked then 8 else 1)) &&
        d.isDstP h.u m.tyd.is64 && a.isSrcP m.tys.is64 && (sc.isNone || sc.isSrc) &&
        (if m.tyd.isPacked then mg.isSrc else mg.isNone)
  | .cvtpk h tyd _ _ hi d a b mg =>
      wf2 h d a b && tyd.isPacked && tyd != .q4x8 &&
        (if tyd.count == 2 then !hi && mg.isNone else mg.isSrc)
  | .cvtx h tys _ _ tyd _ d a => wfVl h d a && tys.count == 4 && tyd.count == 2
  | .qdec h tyd _ j d a sc =>
      wfVl h d a && (tyd == .f32 || (tyd == .b16x2 && decide (j.val ≤ 3))) && (sc.isNone || sc.isSrc)
  | .qenc h _ d a sg mg => wf2 h d a sg && mg.isSrc
  | .plut h _ _ _ _ _ => h.ok true
  | .pmov h d => h.ok true && d.isDst h.u 1
  | .pmovW h _ a => h.ok true && a.isSrc
  | .xchg h ty mode d a m =>
      h.ok false && ty.isMove && (mode != .tr || ty == .i64) && d.isDstP h.u ty.is64 &&
        a.isSrcP ty.is64 && m.isSrc
  | .xperm h ty d a e | .xbcast h ty d a e =>
      h.ok false && ty.isMove && d.isDstP h.u ty.is64 && a.isSrcP ty.is64 && e.isSrc
  | .xchgVl h d a _ | .xpermVl h d a _ | .xbcastVl h d a _ | .xscanVl h d a _ =>
      h.ok false && d.isDst h.u 1 && a.isSrc
  | .xred h m d a => h.ok false && m.ok && !m.exc && d.isDst h.u 1 && a.isSrc
  | .xscan h m d a f => h.ok false && m.ok && d.isDst h.u 1 && a.isSrc && (f.isNone || f.isSrc)
  | .xballot h count d a => h.ok false && d.isDstP h.u (!count) && a.isSrc
  | .xmatch h ty low d a => h.ok false && ty.isMove && d.isDstP h.u (!low) && a.isSrcP ty.is64
  | .xread h d a q => h.ok false && d.isDst h.u 1 && a.isV && q.isSrc
  | .xreadVl h d a _ => h.ok false && d.isDst h.u 1 && a.isV
  | .xwrite h d b q => h.ok false && d.isV && b.isSrc && q.isSrc
  | .xwriteVl h d b _ => h.ok false && d.isV && b.isSrc
  | .ld h m sz d base _ =>
      h.ok true && (m.ord == .relaxed || m.ord == .acquire) && m.rmtOk && d.isDst h.u sz.words && base.isSrc
  | .st h m sz base data _ =>
      h.ok true && m.la == 0 && (m.ord == .relaxed || m.ord == .release) && !m.rmt && base.isSrc &&
        data.isData sz
  | .ldk h _ sz d base _ => h.ok false && d.isDst h.u sz.words && base.isSrc
  | .stk h sz base data _ => h.ok false && base.isSrc && data.isData sz
  | .atom h m op d base data _ =>
      h.ok true && m.rmtOk && d.isDstP h.u op.is64 && base.isSrc && data.isSrcP op.is64
  | .red h m op base data _ =>
      h.ok true && m.la == 0 && (m.ord == .relaxed || m.ord == .release) && !m.rmt && base.isSrc &&
        data.isSrcP op.is64
  | .cas h m sz d base data cmp =>
      h.ok true && m.rmtOk && (sz == .b32 || sz == .b64) && d.isDstP h.u (sz == .b64) && base.isSrc &&
        data.isData sz && cmp.isData sz
  | .fence h kind ord _ =>
      h.ok false && (match kind with
        | .mem => ord != .relaxed
        | .engine => ord == .release
        | .all => ord.isRelease)
  | .probe h m d base _ =>
      h.ok true && (m.ord == .relaxed || m.ord == .acquire) && !m.rmt && d.isDst h.u 1 && base.isSrc
  | .cpy h _ dir _ d sr _ =>
      h.ok true && d.isSrcP (dir == .s2m || dir == .s2sys) && sr.isSrcP (dir == .m2s || dir == .sys2s)
  | .cpymc h _ _ d sr g _ => h.ok true && d.isSrc && sr.isSrc64 && g.isSrc
  | .nmadd h ty _ _ y sr => h.ok true && ty != .n32 && y.isSrc64 && sr.isSrc
  | .nmmax h _ _ _ y sr => h.ok true && y.isSrc64 && sr.isSrc
  | .nmaxpy h y x a n => h.ok true && y.isSrc64 && x.isSrc64 && a.isSrc && n.isSrc
  | .nmstep h _ _ w p => h.ok true && w.isSrc64 && p.isSrc
  | .nmfence h _ => h.ok false
  | .rstripe h gathered g base len nb _ =>
      h.ok true && (gathered || g == 0) && base.isSrc64 && len.isSrc &&
        (nb.isNone || nb.isSrc)
  | .qpost h _ r c w m _ => h.ok true && r.isSrc && c.isSrc && w.isSrc && m.isSrc
  | .qsync h _ d g m _ => h.ok true && d.isDst h.u 1 && g.isSrc && m.isSrc
  | .amsg h _ n t sr hd _ =>
      h.ok true && t.isSrc && hd.isSrc && (if n.val = 0 then sr.isNone else sr.isSrc)
  | .tcfg h _ fmt sc r c => h.ok true && fmt != .f32 && (sc.isNone || sc.isSrc) && r.isSrc && c.isSrc
  | .trel h _ | .tzero h _ => h.ok true
  | .tld h _ _ _ _ a o => h.ok false && a.isSrc && (o.isNone || o.isSrc)
  | .tst h _ _ _ a o => h.ok false && a.isSrc && (o.isNone || o.isSrc)
  | .mma h _ _ _ _ n x y => h.ok true && n.isSrc && (x.isNone || x.isSrc) && (y.isNone || y.isSrc)
  | .accld h _ w d n r c =>
      h.ok true && n.isSrc && r.isSrc && c.isSrc && d.isDst h.u 1 &&
        (match d with
          | .s k => decide (k.val + 2 ^ w.val ≤ 64)
          | _ => true)
  | .accst h _ v n r c => h.ok true && v.isV && n.isSrc && r.isSrc && c.isSrc
  | .accz h n cnt => h.ok true && n.isSrc && (cnt.isNone || cnt.isSrc)
  | .acccvt h fmt _ _ _ n a sc =>
      h.ok true && (fmt == .e4 || fmt == .e5 || fmt == .b16 || fmt == .h16 || fmt == .f32) && n.isSrc &&
        a.isSrc && (sc.isNone || sc.isSrc)
  | .bra h _ | .join h _ _ | .waitj h _ | .exit h | .yield h | .trap h _ | .bkpt h _ | .nop h
  | .tret h _ => h.ok false
  | .brx h a => h.ok true && a.isSrc64
  | .call h d _ => h.ok false && d.isDst h.u 2
  | .ret h a => h.ok false && a.isSrc64
  | .elect h _ d => h.ok false && (d.isNone || d.isDst h.u 1)
  | .syncm h a => h.ok false && a.isSrc64
  | .binit h _ e | .bexp h _ e => h.ok true && e.isSrc
  | .barv h _ c => h.ok true && (c.isNone || c.isSrc)
  | .bwait h _ _ p => h.ok false && p.isSrc
  | .binv h _ _ | .gsize h _ | .cdstop h => h.ok true
  | .spawn h _ a b _ => h.ok false && a.isSrc && (b.isNone || b.isSrc)
  | .launch h a q => h.ok true && a.isSrc64 && q.isSrc
  | .csrrd h d n =>
      h.ok true && (match Csr.ofNum n.toNat with
        | some c => d.isDstP h.u c.is64
        | none => false)
  | .csrwr h a n =>
      h.ok true && (match Csr.ofNum n.toNat with
        | some c => c.access != .ro && a.isSrcP c.is64
        | none => false)
  | .cdstart h a w => h.ok true && a.isSrc64 && w.isSrc
  | .replay h a => h.ok true && (a.isNone || a.isSrc)
  | .cancel h _ a | .preempt h a => h.ok true && a.isSrc
  | .tlbinv h kind a v =>
      h.ok true && (match kind with
        | .all => a.isNone && v.isNone
        | .asid => a.isSrc && v.isNone
        | .page => a.isSrc && v.isSrc64)
  | .trace h a b => h.ok true && a.isSrc && (b.isNone || b.isSrc)
  | .mcgset h _ g m => h.ok true && g.isSrc && m.isSrc64
  | .schedulerChoice .. | .loadResultArrival .. | .storePerformed .. | .fenceCompletion ..
  | .tlbinvCompletion .. | .packetInjection .. | .routerArbitration .. | .starvationSignal ..
  | .goldenEpoch .. | .sublinkCrossing .. | .gatewayInjection .. | .copyLineCompletion ..
  | .spawnBinTimerExpiry .. | .spawnGroupPlacement .. | .commandAcceptance .. | .nmwinWindowEnd ..
  | .bankCommandSuspend .. | .bankCommandResume .. | .bankCommandCompletion .. | .buddyAcknowledge ..
  | .parityFold .. | .nmfenceCompletion .. | .restripeLineMove | .tileAcceptance .. | .mmaStart ..
  | .mmaCompletion .. | .tldCompletion .. | .tstCompletion .. | .tzeroCompletion ..
  | .accldResultArrival .. | .tileCompletion .. | .acccvtCompletion .. | .quorumContributionArrival ..
  | .qpostResultArrival .. | .closureMessageArrival .. | .qsyncReplyArrival .. | .amsgArrival ..
  | .amsgAppend .. | .fabricPieceSend .. | .fabricPortFailure .. | .fabricTransferDrop ..
  | .dispatcherChoice .. | .launchRangesResolved .. | .teamPlacement .. | .quadrantResumed ..
  | .quadrantPowerGate .. | .teamSave .. | .faultRecordEntered | .replayWalk .. | .watchdogExpiry ..
  | .cadenceImageLoaded | .cadenceCycle .. | .cadenceGridCompletion | .cadenceArrival .. | .cadenceGrant ..
  | .traceFrameTimeout .. | .traceFrameDrain .. | .paceEvaluation .. | .paceDomainUpdate ..
  | .clockStretch .. | .refreshRateUpdate .. | .thermalTrip .. | .uncorrectableError .. | .deviceStart
  | .bringUpStagePass .. | .tailDoorbell .. | .mailboxWrite | .mailboxCopyToDevice
  | .mailboxCopyToHost .. | .mailboxLaunch | .mailboxReplay | .mailboxCancel | .mailboxCancelAsid
  | .mailboxTlbinvAll | .mailboxTlbinvAsid | .mailboxTlbinvPage | .mailboxRead
  | .qsyncRequestArrival .. | .buddyMirrorWrite .. | .perBankRefresh .. | .gatingTraceDrain ..
  | .contributionRead .. | .firmwareWatchdogExpiry | .moduleUnpowered | .linkLevelRetry .. => true

/-- The rows with an encoding (R93); the events have none. -/
def Instr.isEvent : Instr → Bool
  | .schedulerChoice .. | .loadResultArrival .. | .storePerformed .. | .fenceCompletion ..
  | .tlbinvCompletion .. | .packetInjection .. | .routerArbitration .. | .starvationSignal ..
  | .goldenEpoch .. | .sublinkCrossing .. | .gatewayInjection .. | .copyLineCompletion ..
  | .spawnBinTimerExpiry .. | .spawnGroupPlacement .. | .commandAcceptance .. | .nmwinWindowEnd ..
  | .bankCommandSuspend .. | .bankCommandResume .. | .bankCommandCompletion .. | .buddyAcknowledge ..
  | .parityFold .. | .nmfenceCompletion .. | .restripeLineMove | .tileAcceptance .. | .mmaStart ..
  | .mmaCompletion .. | .tldCompletion .. | .tstCompletion .. | .tzeroCompletion ..
  | .accldResultArrival .. | .tileCompletion .. | .acccvtCompletion .. | .quorumContributionArrival ..
  | .qpostResultArrival .. | .closureMessageArrival .. | .qsyncReplyArrival .. | .amsgArrival ..
  | .amsgAppend .. | .fabricPieceSend .. | .fabricPortFailure .. | .fabricTransferDrop ..
  | .dispatcherChoice .. | .launchRangesResolved .. | .teamPlacement .. | .quadrantResumed ..
  | .quadrantPowerGate .. | .teamSave .. | .faultRecordEntered | .replayWalk .. | .watchdogExpiry ..
  | .cadenceImageLoaded | .cadenceCycle .. | .cadenceGridCompletion | .cadenceArrival .. | .cadenceGrant ..
  | .traceFrameTimeout .. | .traceFrameDrain .. | .paceEvaluation .. | .paceDomainUpdate ..
  | .clockStretch .. | .refreshRateUpdate .. | .thermalTrip .. | .uncorrectableError .. | .deviceStart
  | .bringUpStagePass .. | .tailDoorbell .. | .mailboxWrite | .mailboxCopyToDevice
  | .mailboxCopyToHost .. | .mailboxLaunch | .mailboxReplay | .mailboxCancel | .mailboxCancelAsid
  | .mailboxTlbinvAll | .mailboxTlbinvAsid | .mailboxTlbinvPage | .mailboxRead
  | .qsyncRequestArrival .. | .buddyMirrorWrite .. | .perBankRefresh .. | .gatingTraceDrain ..
  | .contributionRead .. | .firmwareWatchdogExpiry | .moduleUnpowered | .linkLevelRetry .. => true
  | _ => false

end Sys2Proof
end

