-- ==== Sys2Proof/Machine/Num.lean ====
section
/-! DEFINITION. Number formats and exact arithmetic (03_formats.md): values, the one rounding of R55 and R56,
exact sums, products, quotients and roots, and conversion to integers. -/

namespace Sys2Proof.Machine

/-- A floating-point format of R41: exponent and fraction bits. -/
structure Format where
  eb : Nat
  fb : Nat
  deriving DecidableEq, Repr, Inhabited

def fmtF32 : Format := { eb := 8, fb := 23 }
def fmtB16 : Format := { eb := 8, fb := 7 }
def fmtH16 : Format := { eb := 5, fb := 10 }
def fmtE4 : Format := { eb := 4, fb := 3 }
def fmtE5 : Format := { eb := 5, fb := 2 }

/-- The bias of R41. -/
def Format.bias (f : Format) : Nat := 2 ^ (f.eb - 1) - 1
/-- The all-ones exponent of R42. -/
def Format.emax (f : Format) : Nat := 2 ^ f.eb - 1
/-- Width in bits. -/
def Format.width (f : Format) : Nat := 1 + f.eb + f.fb
/-- The sign bit. -/
def Format.sign (f : Format) (neg : Bool) : Nat := if neg then 2 ^ (f.eb + f.fb) else 0
/-- ±infinity (R43). -/
def Format.infBits (f : Format) (neg : Bool) : Nat := f.sign neg + f.emax * 2 ^ f.fb
/-- ±largest finite (R43). -/
def Format.maxBits (f : Format) (neg : Bool) : Nat := f.sign neg + (f.emax * 2 ^ f.fb - 1)
/-- The canonical NaN (R43): a set top fraction bit. -/
def Format.nanBits (f : Format) : Nat := f.emax * 2 ^ f.fb + 2 ^ (f.fb - 1)

/-- A value of R42: NaN, an infinity, or (-1)^neg * m * 2^e; m = 0 is a signed zero. -/
inductive Val where
  | nan
  | inf (neg : Bool)
  | fin (neg : Bool) (m : Nat) (e : Int)
  deriving DecidableEq, Repr, Inhabited

/-- The value of a bit pattern (R42). -/
def Format.val (f : Format) (bits : Nat) : Val :=
  let neg := bits / 2 ^ (f.eb + f.fb) % 2 == 1
  let e := bits / 2 ^ f.fb % 2 ^ f.eb
  let fr := bits % 2 ^ f.fb
  if e = f.emax then (if fr = 0 then .inf neg else .nan)
  else if e = 0 then .fin neg fr (1 - (f.bias : Int) - f.fb)
  else .fin neg (2 ^ f.fb + fr) ((e : Int) - f.bias - f.fb)

/-- A subnormal pattern (R42). -/
def Format.isSubnormal (f : Format) (bits : Nat) : Bool :=
  bits / 2 ^ f.fb % 2 ^ f.eb == 0 && bits % 2 ^ f.fb != 0

/-- A subnormal replaced by the zero of its sign when `ftz` (R57). -/
def Format.flush (f : Format) (ftz : Bool) (bits : Nat) : Nat :=
  if ftz && f.isSubnormal bits then bits / 2 ^ (f.eb + f.fb) % 2 * 2 ^ (f.eb + f.fb) else bits

/-- Number of bits of a natural number. -/
def bitLen (n : Nat) : Nat := if n = 0 then 0 else Nat.log2 n + 1

/-- The increment of the rounding modes (R55) for a truncated magnitude `n`. -/
def roundInc (rm : Rm) (neg : Bool) (n : Nat) (half sticky : Bool) : Bool :=
  match rm with
  | .rn => half && (sticky || n % 2 == 1)
  | .rz => false
  | .ru => !neg && (half || sticky)
  | .rd => neg && (half || sticky)

/-- m * 2^e (plus a part below one unit of m when `st`) rounded to a multiple of 2^q: the multiple. -/
def roundAt (rm : Rm) (neg : Bool) (m : Nat) (e q : Int) (st : Bool) : Nat :=
  if q ≤ e then m * 2 ^ (e - q).toNat
  else
    let sh := (q - e).toNat
    if bitLen m + 1 < sh then (if roundInc rm neg 0 false (m != 0 || st) then 1 else 0)
    else
      let n := m / 2 ^ sh
      let half := m / 2 ^ (sh - 1) % 2 == 1
      let sticky := m % 2 ^ (sh - 1) != 0 || st
      if roundInc rm neg n half sticky then n + 1 else n

/-- The magnitude exceeds the largest finite one (R55, first test). -/
def Format.beyond (f : Format) (m : Nat) (e : Int) (st : Bool) : Bool :=
  let top : Int := (bitLen m : Int) - 1 + e
  if m = 0 then false
  else if top > f.bias then true
  else if top < f.bias then false
  else
    let mx := 2 ^ (f.fb + 1) - 1
    let d := e - ((f.bias : Int) - f.fb)
    if 0 ≤ d then (m * 2 ^ d.toNat > mx || (m * 2 ^ d.toNat == mx && st))
    else (m > mx * 2 ^ (-d).toNat || (m == mx * 2 ^ (-d).toNat && st))

/-- An overflow with saturation clear (R56). -/
def Format.overflow (f : Format) (neg : Bool) (rm : Rm) : Nat :=
  match rm with
  | .rn => f.infBits neg
  | .rz => f.maxBits neg
  | .ru => if neg then f.maxBits true else f.infBits false
  | .rd => if neg then f.infBits true else f.maxBits false

/-- The result of a rounding or conversion with the events of R61. -/
structure Cv where
  bits : Nat
  sat : Bool
  ftz : Bool
  nan : Bool
  deriving DecidableEq, Repr, Inhabited

/-- A result without events. -/
def Cv.plain (b : Nat) : Cv := { bits := b, sat := false, ftz := false, nan := false }

/-- `round_to` of R55 for an exact finite value that is not zero. -/
def Format.roundTo (f : Format) (rm : Rm) (sat ftz neg : Bool) (m : Nat) (e : Int) (st : Bool) : Cv :=
  if sat && f.beyond m e st then { bits := f.maxBits neg, sat := true, ftz := false, nan := false }
  else if (bitLen m : Int) - 1 + e > f.bias + 1 then Cv.plain (f.overflow neg rm)
  else
    let top : Int := (bitLen m : Int) - 1 + e
    let lo : Int := 1 - (f.bias : Int) - f.fb
    let q := if top - f.fb < lo then lo else top - f.fb
    let n := roundAt rm neg m e q st
    let (n, q) := if n ≥ 2 ^ (f.fb + 1) then (n / 2, q + 1) else (n, q)
    if n < 2 ^ f.fb then
      let n := if ftz then 0 else n
      { bits := f.sign neg + n, sat := false, ftz := n == 0, nan := false }
    else
      let ef := (q + f.fb + f.bias).toNat
      if ef ≥ f.emax then Cv.plain (f.overflow neg rm)
      else Cv.plain (f.sign neg + ef * 2 ^ f.fb + (n - 2 ^ f.fb))

/-- Any value rounded into a format, with the specials of R44, R56 and R58. -/
def Format.ofVal (f : Format) (rm : Rm) (sat ftz : Bool) (x : Val) : Cv :=
  match x with
  | .nan => { bits := f.nanBits, sat := false, ftz := false, nan := true }
  | .inf neg =>
      if sat then { bits := f.maxBits neg, sat := true, ftz := false, nan := false }
      else Cv.plain (f.infBits neg)
  | .fin neg m e => if m = 0 then Cv.plain (f.sign neg) else f.roundTo rm sat ftz neg m e false

namespace Val

/-- Sign changed (R112: sign only). -/
def neg : Val → Val
  | .nan => .nan
  | .inf s => .inf (!s)
  | .fin s m e => .fin (!s) m e

/-- Sign cleared. -/
def abs : Val → Val
  | .nan => .nan
  | .inf _ => .inf false
  | .fin _ m e => .fin false m e

def isNan : Val → Bool
  | .nan => true
  | _ => false

def isZero : Val → Bool
  | .fin _ 0 _ => true
  | _ => false

def isFinite : Val → Bool
  | .fin .. => true
  | _ => false

/-- The sign of a value (false for NaN). -/
def isNeg : Val → Bool
  | .nan => false
  | .inf s => s
  | .fin s _ _ => s

/-- The exact value of an integer. -/
def ofInt (i : Int) : Val := .fin (decide (i < 0)) i.natAbs 0

/-- The exact product (R58). -/
def mul (a b : Val) : Val :=
  match a, b with
  | .nan, _ => .nan
  | _, .nan => .nan
  | .inf s, .inf t => .inf (s != t)
  | .inf s, .fin t m _ => if m = 0 then .nan else .inf (s != t)
  | .fin s m _, .inf t => if m = 0 then .nan else .inf (s != t)
  | .fin s m e, .fin t n f => .fin (s != t) (m * n) (e + f)

/-- The signed magnitude of a finite value in units of 2^q, for q at most its exponent. -/
def scaled (neg : Bool) (m : Nat) (e q : Int) : Int :=
  let x : Int := ((m * 2 ^ (e - q).toNat : Nat) : Int)
  if neg then -x else x

/-- The exact sum (R58); a zero sum of opposite signs is -0 only in RD. -/
def add (rm : Rm) (a b : Val) : Val :=
  match a, b with
  | .nan, _ => .nan
  | _, .nan => .nan
  | .inf s, .inf t => if s = t then .inf s else .nan
  | .inf s, .fin .. => .inf s
  | .fin .., .inf t => .inf t
  | .fin s m e, .fin t n f =>
    if m = 0 && n = 0 then (if s = t then .fin s 0 0 else .fin (rm == .rd) 0 0)
    else if m = 0 then .fin t n f
    else if n = 0 then .fin s m e
    else
      let q := if e ≤ f then e else f
      let x := scaled s m e q + scaled t n f q
      if x = 0 then .fin (rm == .rd) 0 0 else .fin (decide (x < 0)) x.natAbs q

/-- Numerical order of two values that are not NaN; the zeros are equal. -/
def lt (a b : Val) : Bool :=
  match a, b with
  | .nan, _ => false
  | _, .nan => false
  | .inf s, .inf t => s && !t
  | .inf s, .fin .. => s
  | .fin .., .inf t => !t
  | .fin s m e, .fin t n f =>
    let q := if e ≤ f then e else f
    decide (scaled s m e q < scaled t n f q)

/-- Numerical equality; NaN equals nothing and the zeros are equal (R114). -/
def eq (a b : Val) : Bool := !a.isNan && !b.isNan && !(a.lt b) && !(b.lt a)

end Val

/-- floor of the square root, bit by bit. -/
def isqrtGo (n : Nat) : Nat → Nat → Nat
  | 0, r => r
  | k + 1, r =>
    let c := r + 2 ^ k
    isqrtGo n k (if c * c ≤ n then c else r)

/-- floor of the square root of n. -/
def isqrt (n : Nat) : Nat := isqrtGo n (bitLen n / 2 + 1) 0

/-- The exact quotient of two finite values, n not zero, rounded once (R197, R226, R116). -/
def Format.divTo (f : Format) (rm : Rm) (ftz : Bool) (a b : Val) : Cv :=
  match a, b with
  | .nan, _ => f.ofVal rm false ftz .nan
  | _, .nan => f.ofVal rm false ftz .nan
  | .inf _, .inf _ => f.ofVal rm false ftz .nan
  | .inf s, .fin t _ _ => f.ofVal rm false ftz (.inf (s != t))
  | .fin s _ _, .inf t => f.ofVal rm false ftz (.fin (s != t) 0 0)
  | .fin s m e, .fin t n g =>
    if n = 0 then (if m = 0 then f.ofVal rm false ftz .nan else f.ofVal rm false ftz (.inf (s != t)))
    else if m = 0 then f.ofVal rm false ftz (.fin (s != t) 0 0)
    else
      let k := 64 + bitLen n
      f.roundTo rm false ftz (s != t) (m * 2 ^ k / n) (e - g - k) (m * 2 ^ k % n != 0)

/-- The root of a value, rounded once; a negative operand gives NaN and ±0 keeps its sign (R116, R197). -/
def Format.sqrtTo (f : Format) (rm : Rm) (ftz : Bool) (a : Val) : Cv :=
  match a with
  | .nan => f.ofVal rm false ftz .nan
  | .inf s => f.ofVal rm false ftz (if s then .nan else .inf false)
  | .fin s m e =>
    if m = 0 then f.ofVal rm false ftz (.fin s 0 0)
    else if s then f.ofVal rm false ftz .nan
    else
      let (m, e) := if e % 2 = 0 then (m, e) else (2 * m, e - 1)
      let n := m * 2 ^ 128
      let r := isqrt n
      f.roundTo rm false ftz false r (e / 2 - 64) (r * r != n)

/-- 1/√a, rounded once (R116). -/
def Format.rsqrtTo (f : Format) (rm : Rm) (ftz : Bool) (a : Val) : Cv :=
  match a with
  | .nan => f.ofVal rm false ftz .nan
  | .inf s => f.ofVal rm false ftz (if s then .nan else .fin false 0 0)
  | .fin s m e =>
    if m = 0 then f.ofVal rm false ftz (.inf s)
    else if s then f.ofVal rm false ftz .nan
    else
      let (m, e) := if e % 2 = 0 then (m, e) else (2 * m, e - 1)
      let k := 128 + bitLen m + bitLen m % 2
      let r := isqrt (2 ^ k / m)
      f.roundTo rm false ftz false r (-(e / 2) - (k / 2 : Nat)) (r * r * m != 2 ^ k)

/-- A finite value rounded to an integer (R60). -/
def roundInt (rm : Rm) (neg : Bool) (m : Nat) (e : Int) : Int :=
  let n : Int := ((roundAt rm neg m e 0 false : Nat) : Int)
  if neg then -n else n

/-- Smallest and largest value of an integer type's element (R46). -/
def Ty.minInt (t : Ty) : Int := if t.isSigned then -(2 ^ (t.width - 1) : Int) else 0
def Ty.maxInt (t : Ty) : Int := if t.isSigned then 2 ^ (t.width - 1) - 1 else 2 ^ t.width - 1

/-- Clamped to a type (R46). -/
def Ty.clamp (t : Ty) (r : Int) : Int := if r < Ty.minInt t then Ty.minInt t else if Ty.maxInt t < r then Ty.maxInt t else r

/-- The element bits of an integer, modulo 2^width (R46). -/
def Ty.wrapBits (t : Ty) (r : Int) : Nat := (r % (2 ^ t.width : Int)).toNat

/-- An element's bits read as an integer of the type's signedness (R46, R101). -/
def Ty.toInt (t : Ty) (bits : Nat) : Int :=
  if t.isSigned && bits ≥ 2 ^ (t.width - 1) then (bits : Int) - 2 ^ t.width else bits

/-- The floating-point format of a type's element (R84, R41). -/
def Ty.format? : Ty → Option Format
  | .f32 => some fmtF32
  | .h16x2 => some fmtH16
  | .b16x2 => some fmtB16
  | .e4x4 => some fmtE4
  | .e5x4 => some fmtE5
  | _ => none

/-- MODE.FTZ applies to F32, B16 and H16 only (R57). -/
def Ty.ftzApplies : Ty → Bool
  | .f32 | .h16x2 | .b16x2 => true
  | _ => false

/-- Element `i` of a packed word (R47). -/
def elemOf (t : Ty) (w : Nat) (i : Nat) : Nat := w / 2 ^ (t.width * i) % 2 ^ t.width

/-- A word or pair from its elements, element 0 lowest (R47). -/
def packElems (width : Nat) (es : List Nat) : Nat :=
  es.foldr (fun x acc => x % 2 ^ width + 2 ^ width * acc) 0

/-- Element `i` of a word replaced (R119, R123). -/
def setElem (width : Nat) (w i x : Nat) : Nat :=
  w - (w / 2 ^ (width * i) % 2 ^ width) * 2 ^ (width * i) + (x % 2 ^ width) * 2 ^ (width * i)

/-- Conversion into an integer type (R60); clamping and flushing are events of R61. -/
def Ty.intOfVal (t : Ty) (rm : Rm) (x : Val) : Cv :=
  match x with
  | .nan => { bits := 0, sat := false, ftz := false, nan := true }
  | .inf neg => { bits := Ty.wrapBits t (if neg then Ty.minInt t else Ty.maxInt t), sat := true, ftz := false, nan := false }
  | .fin neg m e =>
    if m = 0 then Cv.plain 0
    else if (bitLen m : Int) + e > 66 then
      { bits := Ty.wrapBits t (if neg then Ty.minInt t else Ty.maxInt t), sat := true, ftz := false, nan := false }
    else
      let r := roundInt rm neg m e
      { bits := Ty.wrapBits t (Ty.clamp t r), sat := Ty.clamp t r != r, ftz := r == 0, nan := false }

/-- `convert` of R59 and R60 into the element format of a type. -/
def Ty.convert (t : Ty) (rm : Rm) (sat ftz : Bool) (x : Val) : Cv :=
  match Ty.format? t with
  | some f => f.ofVal rm sat (ftz && Ty.ftzApplies t) x
  | none => Ty.intOfVal t rm x

/-- The exact value of an element (R42, R46). -/
def Ty.elemVal (t : Ty) (bits : Nat) : Val :=
  match Ty.format? t with
  | some f => f.val bits
  | none => Val.ofInt (Ty.toInt t bits)

end Sys2Proof.Machine
end

