-- ==== Sys2Proof/Config.lean ====
section
/-! DEFINITION. What an AQ880-M fixes (R1, R2, R166, R250, R259) and the free values the manual leaves open. -/

namespace Sys2Proof

/-- A turn of the agenda (log entry 1). Each is one indivisible act of one agent. -/
inductive Turn where
  /-- The issue port `port` of core `core` acts once: it issues the next instruction of its group (R27). -/
  | issue (core port : Nat)
  /-- Both ports of a core act in one cycle: port 0's writes come first and neither sees them (R100). -/
  | issueBoth (core : Nat)
  /-- The end of one main-clock cycle: CLK64, watchdogs and spawn timers count (R302, R305, R153). -/
  | cycle
  /-- One event row of the opcode table. -/
  | event (e : Instr)
  /-- A bank unit writes back one 32-byte sector of its running command (R265). -/
  | bankSector (nb : Nat) (sector : Nat)
  /-- A copy, tile or bank operation reads one source word before its completion (R190). -/
  | sampleWord (op : Nat) (word : Nat)
  /-- A translation cache of a core drops one cached entry by itself (R285 requires none to be kept). -/
  | evict (core : Nat) (entry : Nat)
  /-- The host writes bytes of BAR0 other than the TAIL doorbell (R376). -/
  | hostBar (offset : Nat) (data : List Byte)
  /-- An all-core write of the crossbar pattern table takes effect on one core (R291). -/
  | pattern (core : Nat)
  /-- The host, or another device of it, writes bytes of its own memory (R266). -/
  | hostMem (addr : Nat) (data : List Byte)
  deriving DecidableEq, Repr, Inhabited

namespace Config

/-- Cores of the module, and per die and quadrant (R1, R10). -/
def cores : Nat := 128
/-- Issue ports of a core (R26). -/
def ports : Nat := 2
/-- Lanes of a core, words of a lane and threads of a lane (R1, R33). -/
def lanes : Nat := 64
def laneWords : Nat := 1024
def laneThreads : Nat := 32
/-- Resident teams of a core (R33). -/
def teamSlots : Nat := 16
/-- LSM, operand buffer and accumulator blocks of a core (R1). -/
def lsmBytes : Nat := 393216
def tileBytes : Nat := 524288
def accBlocks : Nat := 1024
/-- Main memory ends here (R259). -/
def mainBytes : Nat := 0x9000000000
/-- DSM of die d: base and size (R166). -/
def dsmBase (d : Nat) : Nat := 0x10000000 + d * 0x08000000
def dsmBytes : Nat := 0x05800000
/-- Outstanding-request slots (R275), range locks (R169), spawn bins and their depth (R153). -/
def requestSlots : Nat := 1024
def rangeLocks : Nat := 32
def spawnBins : Nat := 32
def binDepth : Nat := 256
def spawnTimer : Nat := 2048
/-- Store-buffer entries of a thread (R173). -/
def storeBuffer : Nat := 32
/-- Bank units and their queue (R276), the fault queue (R277), a core's message queue (R278), the
fabric transmit queue (R279), a launch queue (R267), the launches being prepared (R270). -/
def neighbourhoods : Nat := 1536
def bankQueue : Nat := 32
/-- Rows of 2 KiB of a neighbourhood (R259). -/
def bankRows : Nat := 196608
def faultRecords : Nat := 1024
def messages : Nat := 64
def fabricTransfers : Nat := 1024
def launchEntries : Nat := 64
def launchesPreparing : Nat := 32
/-- Conversions accepted at once (R203), region entries (R287), gathered lines of the placement map (R261). -/
def conversions : Nat := 16
def regions : Nat := 4096
def gatheredLines : Nat := 8388608
/-- A save slot (R347). -/
def saveSlot : Nat := 0x1000000
/-- What a byte of memory that nothing has written reads as: DESIGN CHOICE (log entry 2). -/
def memFill : Byte := 0#8

/-- FREE VALUE (log entry 1): the turn taken when the agenda is empty. -/
opaque freeTurn : Nat → Turn
/-- FREE VALUE (log entry 7): TADDR of a trap whose rule names no address. -/
opaque freeTaddr : Nat → DWord
/-- FREE VALUE (log entry 11): the four waiting times of a MEMS record (R310). -/
opaque freeWait : Nat → DWord
/-- FREE VALUE (log entry 12): which of the writes that R323 allows access `id` of thread `tid` returns at a word. -/
opaque freeRead : (id tid addr : Nat) → Nat
/-- FREE VALUE (log entry 14): whether another node's handler table has the entry that an AMSG names (R231). -/
opaque freeHandler : Nat → Bool
/-- FREE VALUE (log entry 15): the cause code in a team-killed event of a thermal trip (R381, R387). -/
opaque freeCode : Nat → Byte
/-- FREE VALUE (log entry 8): byte i of the n-th attestation report and its signature (R393), for a nonce. -/
opaque freeReport : List Byte → Nat → Nat → Byte
/-- FREE VALUE (log entry 16): byte i of the save slot that the n-th use of the counter writes (R347). -/
opaque freeSave : Nat → Nat → Byte

end Config

end Sys2Proof
end

