-- ==== Sys2Proof/Machine/Memory.lean ====
section
/-! DEFINITION. A byte memory as a sorted list of cells in one canonical form, and the byte-order helpers (R9). -/

namespace Sys2Proof.Machine

/-- The cells that differ from the fill byte, at strictly rising addresses. -/
abbrev Memory := List Host.Cell

/-- The canonical form: addresses strictly rising, no cell equal to what an unlisted address reads as. -/
def Memory.wf (m : Memory) : Bool :=
  m.Pairwise (fun a b => a.1 < b.1) && m.all (fun c => c.2 != Config.memFill)

/-- The byte at `a`; an unlisted address reads as `Config.memFill`. -/
def Memory.read (m : Memory) (a : Nat) : Byte :=
  match m with
  | [] => Config.memFill
  | (b, x) :: r => if b = a then x else if a < b then Config.memFill else Memory.read r a

/-- The memory with `x` at `a`; writing the fill byte removes the cell. -/
def Memory.write (m : Memory) (a : Nat) (x : Byte) : Memory :=
  match m with
  | [] => if x = Config.memFill then [] else [(a, x)]
  | (b, y) :: r =>
    if a < b then (if x = Config.memFill then (b, y) :: r else (a, x) :: (b, y) :: r)
    else if a = b then (if x = Config.memFill then r else (a, x) :: r)
    else (b, y) :: Memory.write r a x

/-- `n` bytes from `a` upward. -/
def Memory.readBytes (m : Memory) (a n : Nat) : List Byte := (List.range n).map (fun i => m.read (a + i))

/-- The bytes `bs` stored from `a` upward. -/
def Memory.writeBytes (m : Memory) (a : Nat) (bs : List Byte) : Memory :=
  match bs with
  | [] => m
  | b :: r => Memory.writeBytes (m.write a b) (a + 1) r

/-- A little-endian number (R9). -/
def leNat (bs : List Byte) : Nat := bs.foldr (fun b acc => b.toNat + 256 * acc) 0

/-- The `n` little-endian bytes of a number (R9). -/
def leBytes (n x : Nat) : List Byte :=
  match n with
  | 0 => []
  | k + 1 => BitVec.ofNat 8 (x % 256) :: leBytes k (x / 256)

/-- An aligned 32-bit word of memory (R314). -/
def Memory.readWord (m : Memory) (a : Nat) : Word := BitVec.ofNat 32 (leNat (m.readBytes a 4))

/-- A 32-bit word stored. -/
def Memory.writeWord (m : Memory) (a : Nat) (w : Word) : Memory := m.writeBytes a (leBytes 4 w.toNat)

/-- A 64-bit word of memory (R282). -/
def Memory.readDWord (m : Memory) (a : Nat) : DWord := BitVec.ofNat 64 (leNat (m.readBytes a 8))

end Sys2Proof.Machine
end

