-- ==== Sys2Proof/Machine/State.lean ====
section
/-! DEFINITION. The state of the AQ880-M: everything the spec gives the machine, as plain data, and its reset. -/

namespace Sys2Proof.Machine

/-- Why a step stops the machine. -/
inductive Fault where
  /-- Raised by `step` alone, when the module is unpowered and the turn is no start: "when the module
  is unpowered, nothing of it runs" (R393). Safe: the hardware does nothing either. -/
  | unpowered
  deriving DecidableEq, Repr, Inhabited

/-- Why an instruction has no meaning. -/
inductive Refusal where
  /-- Raised by an arm of `exec` whose row has no meaning yet. Safe: the model stops where the hardware
  would go on. -/
  | notModelled (mnemonic : String)
  deriving DecidableEq, Repr, Inhabited

/-- The cause codes of R332. -/
inductive Cause where
  | illegalOp | illegalOperand | illegalClause | priv | misalign | scratchRange | rangeLock | pageFatal
  | protection | regionState | nmUnaligned | barrierBusy | barrierState | syncMask | joinDepth
  | tileConfig | tileBusy | accRange | convertLimit | watchdog | stackOverflow | launchError
  | spawnFull | quorumStale | cadenceError | multicastState | watchpoint | breakpoint | trap
  deriving DecidableEq, Repr, Inhabited

/-- The place a memory access or copy names. -/
inductive Space where
  /-- LSM of a team, addressed from the team's allotment (R166). -/
  | lsm (team : Nat)
  /-- DSM, addressed by its scratch address (R166). -/
  | dsm
  /-- Main memory by physical address (R259). -/
  | main
  /-- System memory by host address (R266). -/
  | sys
  deriving DecidableEq, Repr, Inhabited

/-- A byte address in a space. -/
structure Loc where
  space : Space
  addr : Nat
  deriving DecidableEq, Repr, Inhabited

/-- What an order carries (R323): words with the stamp of the write that a read there must not fall behind. -/
abbrev View : Type := List (Loc × Nat)

/-- A release that travels with the value it wrote (R317): its party and scope, and what is ordered before it. -/
structure Sync where
  team : Nat
  core : Option Nat
  scope : Scope
  /-- A release access, which may tag a line (R181); otherwise a write after a release fence. -/
  access : Bool
  /-- Made by the mailbox engine, or the DONE write of a grid (R321, R322). -/
  host : Bool
  isDone : Bool
  view : View
  deriving DecidableEq, Repr, Inhabited

/-- A write of a word that some read may still return (R323). -/
structure Wr where
  loc : Loc
  /-- Its place in the modification order of the word. -/
  stamp : Nat
  val : Word
  /-- The party and scope of a synchronising access (R324). -/
  who : Option Sync
  /-- The releases that a read of this value may synchronise with (R317). -/
  syncs : List Sync
  deriving DecidableEq, Repr, Inhabited

/-- A write ordered before the accesses of a thread from identifier `start` on, and before the scratch reads of its
engine operations from `engine` on (R190, R318). -/
structure Know where
  loc : Loc
  stamp : Nat
  start : Nat
  engine : Option Nat
  deriving DecidableEq, Repr, Inhabited

/-- A read that access `id` of a thread made: the word and the stamp of the write that it returned (R323). -/
structure Seen where
  loc : Loc
  stamp : Nat
  id : Nat
  deriving DecidableEq, Repr, Inhabited

/-- A completed release fence (R317): it stands before every write from `start` on. -/
structure FenceMark where
  start : Nat
  scope : Scope
  view : View
  deriving DecidableEq, Repr, Inhabited

/-- A register destination (R87): V registers of the thread or S registers of its home group. -/
inductive Dest where
  | v (n : Nat)
  | s (n : Nat)
  deriving DecidableEq, Repr, Inhabited

/-- A pending long-latency result with its window (R87); `value` is there once it has arrived (R348). -/
structure Pending where
  id : Nat
  dest : Dest
  words : Nat
  left : Nat
  value : Option (List Word)
  deriving DecidableEq, Repr, Inhabited

/-- One store-buffer entry (R173). `level` is the widest scope at which it has been performed; from the first on, its
write stands in the modification order of its word (R323). -/
structure StoreEntry where
  id : Nat
  /-- The store instruction's own identifier: a 64- or 128-bit store is one entry a word (R183). -/
  sid : Nat
  loc : Loc
  data : List Byte
  release : Bool
  scope : Scope
  level : Option Scope
  stk : Bool
  /-- The threads whose store it is: several with U = 1 (R77). -/
  takers : List Nat
  deriving DecidableEq, Repr, Inhabited

/-- What TPC names (R336). -/
inductive TpcKind where
  | instruction | failedHeader | resumeHeader
  deriving DecidableEq, Repr, Inhabited

/-- Where a parked thread waits (R27, R36, R338, R341, R343). -/
inductive Park where
  | waitj (k : Nat)
  | syncm
  | bwait (b : Nat) (pd : Nat)
  /-- Held lane of operation `op`, to resume at the saved word (R338). -/
  | held (op : Nat)
  /-- A clause of which the word at `va` cannot be fetched (R341). -/
  | fetch (va : Nat)
  /-- The whole group left its port for a result on an absent line (R88). -/
  | result
  /-- Waiting to enter the handler until its pending results arrive (R334). -/
  | entering
  deriving DecidableEq, Repr, Inhabited

/-- Whether a thread can be chosen (R36). -/
inductive Status where
  | ready
  | inGroup
  | parked (p : Park)
  | exited
  deriving DecidableEq, Repr, Inhabited

/-- The trap that a thread takes once its pending results have arrived (R334). -/
structure TrapInfo where
  cause : Cause
  tpc : BitVec 57
  kind : TpcKind
  taddr : DWord
  lanes : DWord
  deriving DecidableEq, Repr, Inhabited

/-- The clause a thread stands in (R67, R73): its header word and address. -/
structure ClauseCtx where
  hdrAddr : BitVec 57
  hdr : DWord
  deriving DecidableEq, Repr, Inhabited

/-- An outstanding FENCE of a thread (R178): the ids it waits for. -/
structure FenceReq where
  kind : FenceKind
  ord : Ord
  scope : Scope
  /-- Stores, loads, XFER operations and TLBINVs issued earlier. -/
  before : Nat
  deriving DecidableEq, Repr, Inhabited

/-- A thread (R4, R30, R31). Its key is (team, tid). -/
structure Thread where
  team : Nat
  tid : Nat
  role : Nat
  hg : Nat
  hidx : Nat
  lane : Nat
  v : List Word
  p : BitVec 8
  pc : BitVec 57
  clause : Option ClauseCtx
  status : Status
  since : Nat
  yield0 : Bool
  yield1 : Bool
  ldcnt : Nat
  stcnt : Nat
  xfcnt : Nat
  tlcnt : Nat
  pend : List Pending
  stores : List StoreEntry
  fence : Option FenceReq
  tcause : Nat
  tpc : BitVec 57
  tpcKind : TpcKind
  taddr : DWord
  tlanes : DWord
  inHandler : Bool
  /-- The clause in which the thread trapped, which governs its resumption (R336). -/
  trapClause : Option ClauseCtx
  /-- A trap decided but not yet entered (R334, R345). -/
  entering : Option TrapInfo
  /-- A watchdog trap waiting for the end of a park (R345). -/
  wdogDue : Bool
  path : DWord
  stackIdx : Nat
  /-- Watch checks are suppressed for the next issue (R343). -/
  noWatch : Bool
  /-- The operation whose watch-held part TRET decides (R343). -/
  watchOp : Option Nat
  /-- CONVERT_LIMIT of an ACCCVT, due at the next header: address of the ACCCVT (R222). -/
  convDue : Option (BitVec 57)
  /-- Released from a hold inside a clause whose waits were met: they are not tested again (R36). -/
  waitsMet : Bool
  /-- What is ordered before the thread's accesses (R323), and the writes that its own reads returned. -/
  know : List Know
  seen : List Seen
  /-- Releases whose values relaxed reads returned, for a later acquire fence; completed release fences (R317). -/
  reads : List (Loc × Sync)
  fences : List FenceMark
  /-- Accesses of other threads, not yet made, that come before its accesses from an identifier on (R145, R151). -/
  after : List (Nat × Nat)
  /-- What completed XFER operations of the thread order before a header that waits for them (R318, R321). -/
  xfView : View
  deriving DecidableEq, Repr, Inhabited

/-- A rejoin entry (R141, R236). -/
structure Rejoin where
  expected : DWord
  arrived : DWord
  deriving DecidableEq, Repr, Inhabited

/-- A home group (R4). Its key is (team, role, idx). -/
structure HomeGroup where
  team : Nat
  role : Nat
  idx : Nat
  g : Nat
  block : Nat
  absent : DWord
  s : List Word
  rejoin : List Rejoin
  syncM : DWord
  syncA : DWord
  psig : DWord
  retired : Bool
  deriving DecidableEq, Repr, Inhabited

/-- A barrier register (R146, R239). -/
structure Barrier where
  valid : Bool
  ph : Bool
  exp : Nat
  pend : Nat
  cpend : Nat
  wait : Nat
  /-- The arrivals of the open phase: thread and the identifier its later accesses start at (R151). -/
  arr : List (Nat × Nat)
  /-- What the operations that arrived in the open phase order (R318, R321). -/
  view : View
  /-- What the last completed phase orders before later accesses: writes, and accesses not yet made (R151). -/
  lastView : View
  lastAfter : List Nat
  deriving DecidableEq, Repr, Inhabited

/-- An image of a reservation (R213): the pattern an unwritten byte reads as, and the written bytes. -/
structure Image where
  fill : List Byte
  cells : List (Nat × Byte)
  deriving DecidableEq, Repr, Inhabited

/-- A tile reservation: its record (R238) and its four images (R213). -/
structure Tile where
  conf : Bool
  nf : Bool
  fmt : Fmt
  rows : Nat
  cols : Nat
  tscale : Word
  data : Image
  qs : Image
  super : Image
  affine : Image
  deriving DecidableEq, Repr, Inhabited

/-- A role of a kernel header (R30, R370). -/
structure Role where
  entry : BitVec 57
  regs : Nat
  gsize : Nat
  groups : Nat
  deriving DecidableEq, Repr, Inhabited

/-- A kernel header (R30, R370). -/
structure Kernel where
  roles : List Role
  join : Nat
  lsm : Nat
  acc : Nat
  tiles : Nat
  stack : Nat
  deriving DecidableEq, Repr, Inhabited

/-- Where a team is (R33, R35, R347): a pending team has no record, and a retired one leaves the list. -/
inductive Place where
  | resident (core slot : Nat)
  | saved (slot : Nat)
  deriving DecidableEq, Repr, Inhabited

/-- A spawn bin (R153, R274). -/
structure Bin where
  team : Nat
  role : Nat
  entry : BitVec 57
  /-- Pending threads: V0, V1 and further payload words (R231); and what each sender has ordered before them. -/
  items : List (List Word)
  views : List View
  timer : Nat
  deriving DecidableEq, Repr, Inhabited

/-- A range-lock entry (R169, R288) with the operation that registered it. -/
structure Lock where
  op : Nat
  dsm : Bool
  dest : Bool
  team : Nat
  lo : Nat
  hi : Nat
  /-- Ranges between `lo` and `hi` that are no longer locked: base and length (R194). -/
  freed : List (Nat × Nat)
  deriving DecidableEq, Repr, Inhabited

/-- RGNWM's reference (R242): the region entry of the team's last RSTRIPE, or a state and length. -/
inductive RgnRef where
  | none
  | entry (id : Nat)
  | fixed (gathered : Bool) (len : Nat)
  deriving DecidableEq, Repr, Inhabited

/-- A team (R4). `key` is the model's own name of it. -/
structure Team where
  key : Nat
  launch : Nat
  index : Nat
  place : Place
  /-- The core on which it was placed last. -/
  lastCore : Nat
  prio : Nat
  since : Nat
  limits : List Nat
  mode : Word
  bktpri : Word
  rgn : RgnRef
  wdog : Nat
  /-- The counter has expired in the cycle that has ended, and no reset of that cycle has won (R302). -/
  wdogHit : Bool
  /-- A thread was in the watchdog's handler in that cycle (R303). -/
  wdogAgain : Bool
  wdogHandling : Bool
  stackSlot : Option Nat
  nextTid : Nat
  /-- Home groups made so far in each role, and role-local stack. -/
  nextIdx : List Nat
  lsm : Memory
  acc : Memory
  /-- Where its LSM allotment, its accumulator blocks and its operand-buffer area begin in the core: bytes, blocks and
  bytes (R250, R257, R258). -/
  lsmBase : Nat
  accBase : Nat
  tileBase : Nat
  tiles : List Tile
  bars : List Barrier
  saveReq : Bool
  killed : Bool
  /-- The identifier of the team's last CORE-scope release that tagged a line (R182). -/
  tagged : Nat
  savedBins : List Bin
  savedLocks : List Lock
  /-- The counter value that names the bytes of its save slot (R347). -/
  image : Nat
  deriving DecidableEq, Repr, Inhabited

/-- A DSM window (R254). -/
structure Window where
  base : Nat
  len : Nat
  deriving DecidableEq, Repr, Inhabited

/-- A main-memory range of a launch record (R269, R272). -/
structure MemRange where
  va : Nat
  len : Nat
  migrate : Bool
  deriving DecidableEq, Repr, Inhabited

/-- How far a launch has come (R270, R272). -/
inductive LaunchPhase where
  | ranges | running | done
  deriving DecidableEq, Repr, Inhabited

/-- A distributed launch (R269 to R271). -/
structure Launch where
  key : Nat
  ident : Word
  queue : Nat
  record : DWord
  parent : Word
  asid : Nat
  priv : Bool
  kernel : Kernel
  args : DWord
  nteam : Nat
  ftz : Bool
  stkBase : Nat
  stkSlots : Nat
  windows : List Window
  ranges : List MemRange
  doneVa : DWord
  cvcsat : Nat
  cvcftz : Nat
  cvcnan : Nat
  cvclim : Word
  phase : LaunchPhase
  /-- TEAM indices not yet placed for the first time. -/
  pending : List Nat
  /-- Teams that have retired. -/
  retired : Nat
  /-- Cadence entry whose grid this is (R296), and its own priority. -/
  cadence : Option (Nat × Nat)
  /-- Stopped by an uncorrectable error (R247). -/
  stopped : Bool
  order : Nat
  /-- What is ordered before every access of the grid, and what its accesses have ordered (R321). -/
  view : View
  ended : View
  deriving DecidableEq, Repr, Inhabited

/-- An issue group on a port (R27, R38): the clause, the next slot and the members in position order. -/
structure Group where
  team : Nat
  role : Nat
  hdrAddr : BitVec 57
  hdr : DWord
  /-- Words of the clause after the header as they were checked (R73). -/
  words : List DWord
  slot : Nat
  limit : Nat
  /-- TIDs of the members, ascending position (R39). -/
  members : List Nat
  deriving DecidableEq, Repr, Inhabited

/-- An issue port (R26). -/
structure Port where
  group : Option Group
  /-- A TILE instruction that waits for acceptance (R90). -/
  tile : Option Instr
  /-- The participants of the RSTRIPE in its slot whose conversions have been accepted, while another stalls (R203). -/
  stripe : List Nat
  deriving DecidableEq, Repr, Inhabited

/-- A cached translation entry (R285): leaf or non-leaf, keyed by ASID, level and index path. -/
structure TlbEntry where
  asid : Nat
  level : Nat
  vpath : Nat
  pte : DWord
  deriving DecidableEq, Repr, Inhabited

/-- A message waiting at a core (R278). -/
structure Msg where
  handler : Nat
  node : Nat
  srcCore : Nat
  asid : Nat
  words : List Word
  /-- The AMSG of this device that waits for it, or none for a remote sender. -/
  op : Option (Nat × Nat)
  /-- What its sender has ordered before the handler (R231). -/
  view : View
  deriving DecidableEq, Repr, Inhabited

/-- A trace frame (R307, R308). -/
structure Frame where
  seq : Nat
  base : Nat
  last : Nat
  bytes : List Byte
  records : Nat
  gated : Bool
  closed : Bool
  first : Nat
  deriving DecidableEq, Repr, Inhabited

/-- The trace buffer of a core (R307 to R312). -/
structure TraceBuf where
  frames : List Frame
  nextSeq : Nat
  dropped : Nat
  gateDropped : Nat
  /-- Whether the next frame begins with a reason-1 LOST record (R312). -/
  resumed : Bool
  issues : Nat
  /-- Records of engines that came after the ports' of a cycle: type and body, written first in the next (R308). -/
  later : List (Nat × List Byte)
  /-- Where the last frame drained since the start of a gating lies (R312). -/
  lastDrain : Option Nat
  deriving DecidableEq, Repr, Inhabited

/-- A sampled memory instruction whose MEMS record is due (R310): its outstanding parts with their lanes. -/
structure Sample where
  ids : List (Nat × Nat)
  team : Nat
  tid : Nat
  pc : BitVec 57
  parts : Nat
  lines : Nat
  replays : Nat
  last : Nat
  returns : Bool
  deriving DecidableEq, Repr, Inhabited

/-- A core (R26). -/
structure Core where
  id : Nat
  port0 : Port
  port1 : Port
  /-- Groups that left their port whole (R27, R88). -/
  waiting : List Group
  locks : List Lock
  tlb : List TlbEntry
  /-- Crossbar pattern entries the host has written (R291); the others are butterflies. -/
  xbar : List (Nat × BitVec 512)
  /-- The entry of an all-core write that has not yet taken effect on this core (R291). -/
  xbarNew : Option (Nat × BitVec 512)
  handlers : List (Nat × BitVec 128)
  /-- Messages in order of arrival: 64 in its queue, and behind them those that the network holds back (R278). -/
  msgs : List Msg
  bins : List Bin
  /-- The array is busy up to this cycle (R219). -/
  arrayFree : Nat
  /-- One more than the cycle in which its ports last acted (R27, R308). -/
  issuedAt : Nat
  trace : TraceBuf
  samples : List Sample
  deriving DecidableEq, Repr, Inhabited

/-- A load, atomic or probe in flight (R172, R175, R177, R179), one per access. -/
structure LoadOp where
  id : Nat
  core : Nat
  team : Nat
  tid : Nat
  /-- The threads that take the result (several under U = 1). -/
  dests : List Nat
  pos : Nat
  op : Option Aop
  cas : Bool
  probe : Bool
  stk : Bool
  red : Bool
  loc : Loc
  size : Nat
  data : List Word
  cmp : List Word
  ord : Ord
  scope : Scope
  rmt : Bool
  uni : Bool
  /-- The instruction, as the identifier of its first access: its accesses follow position (R175, R177). -/
  instr : Nat
  /-- A line of it was absent when it issued (R168, R318). -/
  waited : Bool
  deriving DecidableEq, Repr, Inhabited

/-- One 32-bit word that a copy moves (R186). -/
structure Move where
  tid : Nat
  src : Loc
  dst : Loc
  line : Nat
  /-- False for a word that a higher-positioned participant overwrites (R186). -/
  writes : Bool
  early : Option Word
  landed : Bool
  /-- The leaf translations that the lane used, as level and page number (R162, R282). -/
  used : List (Nat × Nat)
  deriving DecidableEq, Repr, Inhabited

/-- The arithmetic of a bank-unit command (R195 to R197). -/
inductive BankKind where
  | add (ty : NmTy)
  | max (ty : NmTy)
  | axpy (a : Word)
  | step (zg : Bool)
  deriving DecidableEq, Repr, Inhabited

/-- A bank-unit command (R192 to R200). -/
structure BankCmd where
  id : Nat
  op : Nat
  team : Nat
  tid : Nat
  /-- The participants whose command it is: several with U = 1 (R77, R200). -/
  tids : List Nat
  /-- The core that issued it (R386). -/
  core : Nat
  asid : Nat
  /-- The leaf translations that it used, as level and page number (R162, R282). -/
  used : List (Nat × Nat)
  kind : BankKind
  nb : Nat
  /-- Physical addresses of the operands: y, or y and x, or w. -/
  y : Nat
  x : Nat
  bytes : Nat
  /-- The scratch source, and its bytes once they have been read into the command (R194). -/
  srcLoc : Option Loc
  early : List (Nat × Word)
  src : Option (List Byte)
  rel : Bool
  /-- Sectors already written back (R265). -/
  sectors : List Nat
  /-- The buddy's writes are acknowledged or the parity is folded (R198). -/
  acked : Bool
  folded : Bool
  /-- The old LW, LM and LV of an NMSTEP, and whether R198's transfers have been enqueued, or its contributions taken by the
  Huddle of this device (R299). -/
  old : List Byte
  mirrored : Bool
  posted : Bool
  deriving DecidableEq, Repr, Inhabited

/-- A held lane of a copy, command or conversion (R338, R343): its addresses as the instruction gave them. -/
structure Held where
  tid : Nat
  lane : Nat
  /-- The addresses that the operands give: virtual, or a scratch address. -/
  srcVa : Option Nat
  dstVa : Option Nat
  src : Option Loc
  dst : Option Loc
  watch : Bool
  /-- The command of a held participant of a bank-unit instruction, without its physical addresses (R357). -/
  cmd : Option BankCmd
  deriving DecidableEq, Repr, Inhabited

/-- The kind of an outstanding XFER operation. -/
inductive XferKind where
  | cpy (n : Nat) (dir : Dir) | cpymc (n group : Nat) (teams : List Nat) | bank | nmfence | rstripe | qpost | qsync | amsg
  deriving DecidableEq, Repr, Inhabited

/-- A participant's own part of QPOST, QSYNC or AMSG (R225, R229, R231). -/
structure Part where
  tid : Nat
  pos : Nat
  group : Nat
  member : Nat
  tag : Nat
  prio : Nat
  src : Nat
  dst : Nat
  len : Nat
  /-- Target core, node and handler of AMSG. -/
  core : Nat
  node : Nat
  handler : Nat
  early : List (Nat × Word)
  /-- The payload or contribution once read. -/
  data : Option (List Byte)
  cleared : List Loc
  sent : Bool
  done : Bool
  deriving DecidableEq, Repr, Inhabited

/-- A conversion request of one participant (R201, R202). -/
structure RsPart where
  tid : Nat
  lane : Nat
  va : Nat
  len : Nat
  gathered : Bool
  gc : Nat
  nb : Option Nat
  bar : Nat
  /-- Held by a page fault; otherwise it waits for the restripe unit to accept it (R203). -/
  held : Bool
  /-- The physical base, once the range has translated. -/
  pa : Nat
  deriving DecidableEq, Repr, Inhabited

/-- An outstanding XFER operation (R184 to R231). -/
structure XferOp where
  id : Nat
  core : Nat
  team : Nat
  role : Nat
  asid : Nat
  pc : BitVec 57
  /-- The clause that holds the instruction: a held thread that traps resumes in it (R340). -/
  clause : ClauseCtx
  kind : XferKind
  rel : Bool
  uni : Bool
  bar : Option Nat
  /-- False once BINV.force has detached the arrival, or the team is killed (R148, R337). -/
  arrives : Bool
  /-- All participants, and those whose XFCNT still counts it. -/
  tids : List Nat
  counted : List Nat
  /-- Lines whose presence bit this operation cleared and has not yet released (R187, R189). -/
  cleared : List Loc
  moves : List Move
  held : List Held
  parts : List Part
  rsParts : List RsPart
  /-- Commands an NMFENCE waits for (R200). -/
  waits : List Nat
  /-- What the DONE words that it read order (R321). -/
  view : View
  deriving DecidableEq, Repr, Inhabited

/-- What a TILE operation does (R206 to R222). -/
inductive TileAct where
  | tcfg (t : Nat)
  | trel (t : Nat)
  /-- The chunks: thread, scratch place and image offset. -/
  | tld (t : Nat) (part : TilePart) (chunks : List (Nat × Loc × Nat)) (ch : Nat)
  | tst (t : Nat) (chunks : List (Nat × Loc × Nat)) (ch : Nat)
  | tzero (t : Nat)
  | mma (ta tb : Nat) (tra trb : Bool) (n x y : Nat)
  | accld (n r c w : Nat)
  | accst (n r c : Nat) (vals : List Word)
  | accz (n cnt : Nat)
  | acccvt (fmt : Fmt) (rm : Rm) (sat : Bool) (n : Nat) (dst : Loc) (scale : Option Word)
  deriving DecidableEq, Repr, Inhabited

/-- A TILE operation in flight (R90, R208). -/
structure TileOp where
  id : Nat
  /-- The instruction, as the identifier of its first action: its lock entries stand under it. -/
  instr : Nat
  core : Nat
  team : Nat
  tid : Nat
  role : Nat
  pc : BitVec 57
  act : TileAct
  bar : Option Nat
  arrives : Bool
  counted : List Nat
  cleared : List Loc
  /-- The earliest cycle in which it completes, once that is known. -/
  due : Option Nat
  /-- Words of a TLD's source read before its completion (R214). -/
  early : List (Nat × Word)
  deriving DecidableEq, Repr, Inhabited

/-- An outstanding TLBINV (R162): the line operations, as operation and line, and the commands that used a
translation that it dropped, and the held lanes, as operation and thread, for which a walk in progress has. -/
structure TlbInv where
  id : Nat
  team : Nat
  tids : List Nat
  lines : List (Nat × Nat)
  cmds : List Nat
  lanes : List (Nat × Nat)
  deriving DecidableEq, Repr, Inhabited

/-- A launch-queue entry (R267). -/
structure QEntry where
  record : DWord
  priv : Bool
  parent : Word
  /-- What is ordered before the launch (R321, R322). -/
  view : View
  deriving DecidableEq, Repr, Inhabited

/-- A launch queue (R267). COUNT is the length of `entries`. -/
structure Queue where
  id : Nat
  errrec : DWord
  en : Bool
  prio : Nat
  asid : Nat
  entries : List QEntry
  errcode : Nat
  errcnt : Nat
  deriving DecidableEq, Repr, Inhabited

/-- An ASID entry (R286) with its TVEC and WDOG (R241). -/
structure AsidEntry where
  id : Nat
  valid : Bool
  root : Nat
  tvec : DWord
  wdog : Word
  deriving DecidableEq, Repr, Inhabited

/-- A region entry (R287) with the rows of its gathered lines left to the restripe unit (R261). -/
structure Region where
  id : Nat
  state : Nat
  tgt : Bool
  gc : Nat
  first : Nat
  asid : Nat
  wm : Nat
  len : Nat
  pbase : Nat
  /-- Placement below the watermark while converting: gathered before, with its G code and first. -/
  oldGathered : Bool
  oldGc : Nat
  oldFirst : Nat
  deriving DecidableEq, Repr, Inhabited

/-- An accepted conversion (R203). -/
structure Conversion where
  region : Nat
  team : Nat
  /-- The issuing threads and the identifier of their RSTRIPE (R77, R178). -/
  tids : List Nat
  issue : Nat
  bar : Nat
  arrives : Bool
  /-- Commands that must complete before the first line moves. -/
  waits : List Nat
  deriving DecidableEq, Repr, Inhabited

/-- A multicast group (R289). -/
structure McGroup where
  id : Nat
  mlo : DWord
  mhi : DWord
  outst : Nat
  deriving DecidableEq, Repr, Inhabited

/-- An arrival buffer of the Cadence engine (R295). -/
structure CdBuf where
  full : Bool
  held : Bool
  mb : Nat
  data : List Byte
  stamp : Nat
  deriving DecidableEq, Repr, Inhabited

/-- The running grid of the table (R295). -/
structure CdRun where
  launch : Nat
  entry : Nat
  buf : Option Nat
  /-- The table has entered ERROR while it ran: its completion only ends it (R297, R351). -/
  muted : Bool
  deriving DecidableEq, Repr, Inhabited

/-- The Cadence engine (R293 to R297, R394). -/
structure Cadence where
  state : Nat
  /-- STATE as it stood at the start of the cycle, on which the action of the cycle is taken (R358). -/
  start : Nat
  wait : Nat
  refuse : Nat
  cause : Nat
  errEntry : Nat
  head : Nat
  bubu : Nat
  bubd : Nat
  bubs : Nat
  bubx : Nat
  entries : List (BitVec 256)
  recBase : Nat
  binding : Word
  asid : Nat
  loading : Option Nat
  freeUp : Nat
  freeDown : Nat
  occ : DWord
  loopLeft : Nat
  loopOwn : Nat
  running : Option CdRun
  bufs : List CdBuf
  /-- The engine has taken its action of this main-clock cycle (R296, R358). -/
  acted : Bool
  /-- The running grid as the cycle found it: whether it had a resident team (R358). -/
  grid : Option Bool
  /-- What the grids of the table have ordered (R321). -/
  view : View
  deriving DecidableEq, Repr, Inhabited

/-- A contribution held at the owner (R226). -/
structure Contrib where
  member : Nat
  tag : Nat
  node : Nat
  op : Option (Nat × Nat)
  /-- The parity update of a bank unit, and its command on this device (R198, R299). -/
  parity : Bool
  cmd : Option Nat
  prio : Nat
  order : Nat
  data : List Byte
  deriving DecidableEq, Repr, Inhabited

/-- A quorum group (R298, R299): declaration and, at the owner, the round state. -/
structure QGroup where
  id : Nat
  op : Nat
  rule : Nat
  lag : Nat
  n : Nat
  k : Nat
  asid : Nat
  owner : Nat
  lenl : Nat
  members : List Nat
  round : BitVec 16
  replica : BitVec 16
  cur : List Contrib
  ahead : List Contrib
  late : List Contrib
  /-- One more than the cycle in which the owner last took a contribution, with its member and tag (R226). -/
  taken : Nat × Nat × Nat
  /-- The parity shard, of a group that RESIL names for PARITY8 (R198, R299). -/
  shard : List Byte
  deriving DecidableEq, Repr, Inhabited

/-- A result held for a QPOST part (R227, R349). -/
structure QResult where
  op : Nat
  tid : Nat
  data : List Byte
  deriving DecidableEq, Repr, Inhabited

/-- A QSYNC reply on its way (R229). -/
structure QReply where
  op : Nat
  tid : Nat
  round : BitVec 16
  count : Nat
  deriving DecidableEq, Repr, Inhabited

/-- What a replay's walk found for one held thread (R339): its physical addresses, or that it has no translation
(at `va`) or meets PROTECTION. -/
structure HeldWalk where
  tid : Nat
  pas : List Nat
  /-- The leaf translations that it used, as level and page number (R162). -/
  used : List (Nat × Nat)
  miss : Bool
  prot : Bool
  va : Nat
  deriving DecidableEq, Repr, Inhabited

/-- A fault record (R277). -/
structure FaultRec where
  id : Nat
  refault : Bool
  retry : Nat
  kind : Nat
  asid : Nat
  va : Nat
  launch : Nat
  core : Nat
  team : Nat
  lanes : DWord
  /-- The threads that a FETCH record parks, whatever lanes they have later (R341, R347). -/
  tids : List Nat
  op : Option Nat
  /-- The walks in progress, oldest first: what each found for every held thread when it started (R322, R339). -/
  walks : List (List HeldWalk)
  /-- The range of a launch that a record of KIND 4 or 5 belongs to (R272). -/
  range : Option Nat
  deriving DecidableEq, Repr, Inhabited

/-- A fabric transfer (R279). -/
inductive XferWhat where
  | contribution (group member tag : Nat) (data : List Byte)
  | result (group : Nat) (member tag : Nat) (data : List Byte)
  | closure (group : Nat) (round : BitVec 16)
  | qsyncRequest (group member : Nat)
  | qsyncReply (group member : Nat) (round : BitVec 16) (count : Nat)
  | message (core handler srcCore asid : Nat) (words : List Word)
  | cadenceSend (down : Bool) (mb : Nat) (data : List Byte)
  | cadenceGrant (down : Bool)
  | mirror (addr : Nat) (data : List Byte)
  | parity (group : Nat) (data : List Byte)
  deriving DecidableEq, Repr, Inhabited

/-- An entry of the fabric transmit queue (R279). -/
structure Transfer where
  id : Nat
  node : Nat
  prio : Nat
  len : Nat
  sentBytes : Nat
  what : XferWhat
  op : Option (Nat × Nat)
  cmd : Option Nat
  entry : Nat
  deriving DecidableEq, Repr, Inhabited

/-- A bank unit (R263, R264). -/
structure BankUnit where
  nb : Nat
  queue : List BankCmd
  running : Bool
  windowOpen : Bool
  suspended : Bool
  /-- Copy line operations that have arrived and wait, in order of arrival: operation and line (R264). -/
  waits : List (Nat × Nat)
  /-- The microprogram counter: rows of the head command that have been written back (R263). -/
  mpc : Nat
  /-- Its row is open; the accumulators then hold the results, with their addresses, of at most eight lines (R263). -/
  rowOpen : Bool
  acc : List (Nat × Word)
  refreshes : Nat
  deriving DecidableEq, Repr, Inhabited

/-- A gathered line in the placement map (R261): its physical line number, and its neighbourhood and row. -/
structure Placed where
  line : Nat
  nb : Nat
  row : Nat
  /-- The rows that it has left since it was gathered, newest first: neighbourhood and row (R202, R261). -/
  rowsLeft : List (Nat × Nat)
  deriving DecidableEq, Repr, Inhabited

/-- The line in transit (R204, R262): its region and physical line, and the row that it moves into or leaves. -/
structure LineMove where
  region : Nat
  line : Nat
  gathered : Bool
  nb : Nat
  row : Nat
  deriving DecidableEq, Repr, Inhabited

/-- A completion word on its way to memory (R269): its bytes with their places, the core whose slot it takes (R275) and
whether it has one. -/
structure DoneWrite where
  id : Nat
  core : Nat
  slot : Bool
  bytes : List (Loc × Byte)
  view : View
  /-- The leaf translations that it used, as level and page number, and their ASID (R162, R282). -/
  asid : Nat
  used : List (Nat × Nat)
  deriving DecidableEq, Repr, Inhabited

/-- A packet of the on-die network (R15, R22). -/
structure Packet where
  router : Nat
  seq : Nat
  time : Nat
  dests : List Endpoint
  crossed : Bool
  /-- Up to 128 bytes of payload (R15). -/
  payload : List Byte
  deriving DecidableEq, Repr, Inhabited

/-- A packet in a router's pipeline or on a link towards a router, with its arrival cycle. -/
structure Transit where
  at_ : Nat
  due : Nat
  pkt : Packet
  deriving DecidableEq, Repr, Inhabited

/-- A router (R16 to R19). -/
structure Router where
  id : Nat
  nextSeq : Nat
  /-- Undelivered packets that it injected, oldest first, with the destinations still to be reached (R18, R22). -/
  outstanding : List (Nat × List Endpoint)
  /-- The packet that waits to be injected, and the cycle from which it has waited. -/
  wait : Option (Packet × Nat)
  /-- One more than the cycle in which it raised its starvation signal; 0 for none. -/
  starved : Nat
  /-- One more than the cycle of its last arbitration. -/
  last : Nat
  deriving DecidableEq, Repr, Inhabited

/-- A die-link gateway of one sublink end (R23). -/
structure Gateway where
  die : Nat
  quad : Nat
  other : Nat
  tx : List Packet
  rx : List Packet
  /-- One more than the cycle in which its sublink last carried a flit (R12). -/
  sent : Nat
  deriving DecidableEq, Repr, Inhabited

/-- The golden identifier of a die (R19): its source router in the epoch, numbered on the die; the sequence number is
that of the router's oldest undelivered packet. -/
structure Golden where
  die : Nat
  router : Nat
  deriving DecidableEq, Repr, Inhabited

/-- The mailbox (R280, R376). -/
structure Mailbox where
  slots : Memory
  head : Byte
  tail : Byte
  rspBase : Nat
  evBase : Nat
  evIdx : Nat
  /-- What a TLBINV command at HEAD waits for (R377): line operations, commands and held lanes. -/
  inv : Option (List (Nat × Nat) × List Nat × List (Nat × Nat))
  /-- What is ordered before its next command (R322). -/
  view : View
  /-- An all-core write of its command has begun to take effect on the cores (R291). -/
  spread : Bool
  /-- Signals of the MSI-X vector (R381). -/
  signals : Nat
  deriving DecidableEq, Repr, Inhabited

/-- The host control area (R380). -/
structure HostCtl where
  fabNode : Nat
  saveBase : Nat
  saveLen : Nat
  trcBase : Nat
  trcLen : Nat
  bootClr : Bool
  gateCtl : BitVec 16
  nonce : List Byte
  report : List Byte
  reports : Nat
  trcIdx : List (Nat × Nat)
  trcRd : List (Nat × Nat)
  deriving DecidableEq, Repr, Inhabited

/-- Power, pace, refresh and start (R383 to R393). -/
structure Power where
  powered : Bool
  stage : Nat
  failed : Bool
  minimal : Bool
  tripped : Bool
  tripLatch : Bool
  ready : BitVec 22
  why : Nat
  whyStage : Nat
  fails : Nat
  req : Nat
  level : Nat
  pTerm : Nat
  sTerm : Nat
  e : Nat
  stretches : Nat
  pacedom : Word
  refresh : List Nat
  /-- Stacks whose base die was above 95 °C at its last reading (R389). -/
  hot : List Nat
  half : Bool
  gated : List Nat
  gating : List Nat
  resuming : List Nat
  retries : Nat
  deriving DecidableEq, Repr, Inhabited

/-- The issue in progress: core and port (the model's own). -/
structure Cur where
  core : Nat
  port : Nat
  deriving DecidableEq, Repr, Inhabited

/-- What both ports' reads see in a cycle in which both issue (R100): the registers and CSRs before it. -/
structure Shadow where
  threads : List Thread
  groups : List HomeGroup
  teams : List Team
  launches : List Launch
  asids : List AsidEntry
  resil : Word
  nmwin : Nat
  faultRetryMax : Word
  trctl : Word
  power : Power
  cadence : Cadence
  deriving DecidableEq, Repr, Inhabited

/-- The whole machine. -/
structure State where
  clk : Nat
  power : Power
  resil : Word
  nmwin : Nat
  faultRetryMax : Word
  trctl : Word
  launches : List Launch
  teams : List Team
  groups : List HomeGroup
  threads : List Thread
  cores : List Core
  main : Memory
  dsm : Memory
  sys : Memory
  /-- LSM and DSM lines whose presence bit is clear (R168; set at reset, R255). -/
  absent : List Loc
  /-- DSM lines tagged by a core-scope release, with the core (R181, R253). -/
  dsmTags : List (Nat × Nat)
  /-- Writes that reads may still return, newest first at each word (R323); the memories hold the last of each word. -/
  hist : List Wr
  /-- What the landing of DONE words in a line orders (R318, R321). -/
  lineViews : List (Loc × View)
  loads : List LoadOp
  xfers : List XferOp
  tileOps : List TileOp
  tlbinvs : List TlbInv
  queues : List Queue
  lastQueue : Option Nat
  asids : List AsidEntry
  regions : List Region
  conversions : List Conversion
  /-- The gathered lines that the restripe unit has placed (R261), and the line in its transit buffer (R262). -/
  placement : List Placed
  transit : Option LineMove
  /-- DONE words still to be written (R269). -/
  dones : List DoneWrite
  mcast : List McGroup
  cadence : Cadence
  quorum : List QGroup
  /-- The 136 bytes of each group's declaration as the host has written them (R298). -/
  decls : List (Nat × List Byte)
  huddleStop : Bool
  stopGrp : Nat
  qresults : List QResult
  qreplies : List QReply
  faults : List FaultRec
  faultsWaiting : List FaultRec
  watch : List (BitVec 128)
  fabric : List Transfer
  /-- Whole transfers handed to the fabric, oldest first. -/
  outbox : List Transfer
  routes : List (Nat × BitVec 16)
  failedPorts : List Nat
  bankUnits : List BankUnit
  waitingCmds : List BankCmd
  mailbox : Mailbox
  hostCtl : HostCtl
  badWords : List Loc
  routers : List Router
  transits : List Transit
  gateways : List Gateway
  golden : List Golden
  /-- The model's own: identifiers and order stamps, the free-value counter, turns to come, current issue. -/
  nextId : Nat
  freeCount : Nat
  agenda : List Turn
  cur : Cur
  shadow : Option Shadow
  deriving DecidableEq, Repr, Inhabited

/-- A tile reservation that is not configured (R238). -/
def Tile.empty : Tile :=
  { conf := false, nf := false, fmt := .e4, rows := 0, cols := 0, tscale := 0#32,
    data := { fill := [], cells := [] }, qs := { fill := [], cells := [] },
    super := { fill := [], cells := [] }, affine := { fill := [], cells := [] } }

/-- A barrier register at placement (R239). -/
def Barrier.zero : Barrier :=
  { valid := false, ph := false, exp := 0, pend := 0, cpend := 0, wait := 0, arr := [],
    view := [], lastView := [], lastAfter := [] }

/-- A free port. -/
def Port.free : Port := { group := none, tile := none, stripe := [] }

/-- An empty trace buffer. -/
def TraceBuf.empty : TraceBuf :=
  { frames := [], nextSeq := 0, dropped := 0, gateDropped := 0, resumed := false, issues := 0,
    later := [], lastDrain := none }

/-- A core at power-on. -/
def Core.reset (c : Nat) : Core :=
  { id := c, port0 := .free, port1 := .free, waiting := [], locks := [], tlb := [], xbar := [],
    xbarNew := none, handlers := [], msgs := [], bins := [], arrayFree := 0, issuedAt := 0, trace := .empty, samples := [] }

/-- An empty arrival buffer. -/
def CdBuf.empty : CdBuf := { full := false, held := false, mb := 0, data := [], stamp := 0 }

/-- The Cadence engine at power-on (R241, R295; FREE at power-on by log entry 3). -/
def Cadence.reset : Cadence :=
  { state := 0, start := 0, wait := 0, refuse := 0, cause := 0, errEntry := 0, head := 0, bubu := 0, bubd := 0,
    bubs := 0, bubx := 0, entries := [], recBase := 0, binding := 0xFFFFFFFF#32, asid := 0,
    loading := none, freeUp := 0, freeDown := 0, occ := 0#64, loopLeft := 0, loopOwn := 0,
    running := none, bufs := List.replicate 16 .empty, acted := false, grid := none, view := [] }

/-- A launch queue at reset (R267). -/
def Queue.reset (q : Nat) : Queue :=
  { id := q, errrec := 0#64, en := false, prio := 0, asid := 0, entries := [], errcode := 0, errcnt := 0 }

/-- The mailbox at reset (R280; its slots by log entry 3). -/
def Mailbox.reset : Mailbox :=
  { slots := [], head := 0#8, tail := 0#8, rspBase := 0, evBase := 0, evIdx := 0, inv := none, view := [], spread := false,
    signals := 0 }

/-- The host control area at reset (R380; log entry 3). -/
def HostCtl.reset : HostCtl :=
  { fabNode := 0, saveBase := 0, saveLen := 0, trcBase := 0, trcLen := 0, bootClr := false,
    gateCtl := 0xFFFF#16, nonce := List.replicate 32 0#8, report := List.replicate 314 0#8, reports := 0,
    trcIdx := [], trcRd := [] }

/-- Power at a start, before stage 1 (R390). -/
def Power.reset : Power :=
  { powered := true, stage := 0, failed := false, minimal := false, tripped := false, tripLatch := false,
    ready := 0#22, why := 0, whyStage := 0, fails := 0, req := 0, level := 0, pTerm := 0, sTerm := 0,
    e := 0, stretches := 0, pacedom := 0#32, refresh := List.replicate 12 1, hot := [], half := false, gated := [],
    gating := [], resuming := [], retries := 0 }

/-- The machine right after power-on: every field at the value the spec states, or at the value that
log entries 2 and 3 name; no thread, team or launch exists and the agenda is empty. -/
def State.reset : State :=
  { clk := 0, power := .reset, resil := 0#32, nmwin := 256, faultRetryMax := 16#32, trctl := 0#32,
    launches := [], teams := [], groups := [], threads := [], cores := (List.range 128).map Core.reset,
    main := [], dsm := [], sys := [], absent := [], dsmTags := [], hist := [], lineViews := [], loads := [], xfers := [],
    tileOps := [], tlbinvs := [], queues := [], lastQueue := none, asids := [], regions := [],
    conversions := [], placement := [], transit := none, dones := [], mcast := [], cadence := .reset, quorum := [], decls := [],
    huddleStop := false, stopGrp := 0, qresults := [], qreplies := [], faults := [],
    faultsWaiting := [], watch := List.replicate 8 0#128, fabric := [], outbox := [], routes := [],
    failedPorts := [], bankUnits := [], waitingCmds := [], mailbox := .reset, hostCtl := .reset,
    badWords := [], routers := [], transits := [], gateways := [], golden := [], nextId := 1,
    freeCount := 0, agenda := [], cur := { core := 0, port := 0 }, shadow := none }

end Sys2Proof.Machine
end

