-- ==== Sys2Proof/Machine/Ops.lean ====
section
/-! DEFINITION. The named operations over the state that every family shares: lookups and updates, bits and
masks, register reads and writes, translation, trace records, host events, parks and releases, completion of
operations, retirement, killing a team, and taking a trap. -/

namespace Sys2Proof.Machine

/-- The outcome of an instruction. -/
abbrev Out := Host.Outcome State Fault Refusal

/-! ### Lists as tables -/

/-- `f` applied where `p` holds. -/
def updWhere {α : Type} (p : α → Bool) (f : α → α) (l : List α) : List α :=
  l.map (fun x => if p x then f x else x)

/-- Entry `i` replaced by `f` of it. -/
def updAt {α : Type} (i : Nat) (f : α → α) (l : List α) : List α :=
  match l, i with
  | [], _ => []
  | x :: r, 0 => f x :: r
  | x :: r, i + 1 => x :: updAt i f r

/-- A pair list as a map with a default. -/
def assocGet {α : Type} (l : List (Nat × α)) (k : Nat) : Option α := (l.find? (fun p => p.1 == k)).map (·.2)

/-- The map with `k` set to `v`. -/
def assocSet {α : Type} (l : List (Nat × α)) (k : Nat) (v : α) : List (Nat × α) :=
  (k, v) :: l.filter (fun p => p.1 != k)

/-! ### Bits -/

/-- Bit `i` of a 64-bit mask. -/
def bit64 (i : Nat) : DWord := BitVec.ofNat 64 (2 ^ i)

/-- The mask of a list of bit numbers. -/
def maskOf (l : List Nat) : DWord := l.foldl (fun m i => m ||| bit64 i) 0#64

/-- A 64-bit value from two words, low word first (R47). -/
def pair (lo hi : Word) : DWord := hi ++ lo

/-- The words of a 64-bit value, low word first. -/
def unpair (x : DWord) : List Word := [x.setWidth 32, (x >>> 32).setWidth 32]

/-- Rotation to the left (R306). -/
def rotl64 (x : DWord) (n : Nat) : DWord := x.rotateLeft n

/-- Sign-extension of a branch offset (R74). -/
def wordOffset (hdr : BitVec 57) (off : BitVec 24) : BitVec 57 := hdr + (off.signExtend 57 <<< 3)

/-! ### Lookups and updates -/

def State.thread? (s : State) (team tid : Nat) : Option Thread :=
  s.threads.find? (fun t => t.team == team && t.tid == tid)

def State.modThread (s : State) (team tid : Nat) (f : Thread → Thread) : State :=
  { s with threads := updWhere (fun t => t.team == team && t.tid == tid) f s.threads }

/-- `f` on every thread of a team whose TID is listed. -/
def State.modThreads (s : State) (team : Nat) (tids : List Nat) (f : Thread → Thread) : State :=
  { s with threads := updWhere (fun t => t.team == team && tids.contains t.tid) f s.threads }

def State.hg? (s : State) (team role idx : Nat) : Option HomeGroup :=
  s.groups.find? (fun g => g.team == team && g.role == role && g.idx == idx)

def State.modHg (s : State) (team role idx : Nat) (f : HomeGroup → HomeGroup) : State :=
  { s with groups := updWhere (fun g => g.team == team && g.role == role && g.idx == idx) f s.groups }

def State.team? (s : State) (key : Nat) : Option Team := s.teams.find? (fun t => t.key == key)

def State.modTeam (s : State) (key : Nat) (f : Team → Team) : State :=
  { s with teams := updWhere (fun t => t.key == key) f s.teams }

def State.launch? (s : State) (key : Nat) : Option Launch := s.launches.find? (fun l => l.key == key)

def State.modLaunch (s : State) (key : Nat) (f : Launch → Launch) : State :=
  { s with launches := updWhere (fun l => l.key == key) f s.launches }

def State.core? (s : State) (c : Nat) : Option Core := s.cores.find? (fun k => k.id == c)

def State.modCore (s : State) (c : Nat) (f : Core → Core) : State :=
  { s with cores := updWhere (fun k => k.id == c) f s.cores }

def State.asid? (s : State) (a : Nat) : Option AsidEntry := s.asids.find? (fun e => e.id == a)

/-- The ASID entry, or the reset entry of R286 with the resets of R242. -/
def State.asidOf (s : State) (a : Nat) : AsidEntry :=
  (s.asid? a).getD { id := a, valid := false, root := 0, tvec := 0#64, wdog := 26#32 }

def State.modAsid (s : State) (a : Nat) (f : AsidEntry → AsidEntry) : State :=
  { s with asids := f (s.asidOf a) :: s.asids.filter (fun e => e.id != a) }

def State.xfer? (s : State) (id : Nat) : Option XferOp := s.xfers.find? (fun o => o.id == id)

def State.modXfer (s : State) (id : Nat) (f : XferOp → XferOp) : State :=
  { s with xfers := updWhere (fun o => o.id == id) f s.xfers }

def State.tileOp? (s : State) (id : Nat) : Option TileOp := s.tileOps.find? (fun o => o.id == id)

def State.queue (s : State) (q : Nat) : Queue := (s.queues.find? (fun e => e.id == q)).getD (.reset q)

def State.modQueue (s : State) (q : Nat) (f : Queue → Queue) : State :=
  { s with queues := f (s.queue q) :: s.queues.filter (fun e => e.id != q) }

/-- The core on which a team is resident. -/
def Team.core? (t : Team) : Option Nat :=
  match t.place with
  | .resident c _ => some c
  | _ => none

/-- The team is resident. -/
def Team.isResident (t : Team) : Bool := t.core?.isSome

/-- Barrier register `b` of a team (R239). -/
def Team.bar (t : Team) (b : Nat) : Barrier := t.bars.getD b .zero

def Team.modBar (t : Team) (b : Nat) (f : Barrier → Barrier) : Team := { t with bars := updAt b f t.bars }

def Core.port (c : Core) (p : Nat) : Port := if p = 0 then c.port0 else c.port1

def Core.setPort (c : Core) (p : Nat) (x : Port) : Core :=
  if p = 0 then { c with port0 := x } else { c with port1 := x }

def Thread.hasExited (t : Thread) : Bool := t.status == .exited

/-- The thread's role in the kernel header (R30). -/
def Kernel.role (k : Kernel) (r : Nat) : Role :=
  k.roles.getD r { entry := 0#57, regs := 0, gsize := 0, groups := 0 }

/-- The group-size limit of a role in a team (R40). -/
def Team.limit (t : Team) (r : Nat) : Nat := t.limits.getD r 64

/-- The die of a core (R10). -/
def dieOf (c : Nat) : Nat := c / 32

/-- MODE.FTZ of a team (R242). -/
def Team.ftz (t : Team) : Bool := t.mode.getLsbD 0

/-- A fresh identifier; identifiers rise in the order of issue. -/
def State.bumpId (s : State) (n : Nat := 1) : State := { s with nextId := s.nextId + n }

/-- The state whose registers and CSRs a read in this cycle sees (R100). -/
def State.seen (s : State) : State :=
  match s.shadow with
  | none => s
  | some h => { s with threads := h.threads, groups := h.groups, teams := h.teams,
                       launches := h.launches, asids := h.asids, resil := h.resil, nmwin := h.nmwin,
                       faultRetryMax := h.faultRetryMax, trctl := h.trctl, power := h.power,
                       cadence := h.cadence }

/-- The snapshot that `State.seen` reads. -/
def State.snapshot (s : State) : Shadow :=
  { threads := s.threads, groups := s.groups, teams := s.teams, launches := s.launches,
    asids := s.asids, resil := s.resil, nmwin := s.nmwin, faultRetryMax := s.faultRetryMax,
    trctl := s.trctl, power := s.power, cadence := s.cadence }

/-! ### Registers -/

/-- V register `n` of a thread. -/
def Thread.reg (t : Thread) (n : Nat) : Word := t.v.getD n 0#32

/-- Words written to V registers from `n` upward. -/
def Thread.setRegs (t : Thread) (n : Nat) (ws : List Word) : Thread :=
  match ws with
  | [] => t
  | w :: r => Thread.setRegs { t with v := t.v.set n w } (n + 1) r

/-- Words written to S registers from `n` upward (R234). -/
def HomeGroup.setS (g : HomeGroup) (n : Nat) (ws : List Word) : HomeGroup :=
  match ws with
  | [] => g
  | w :: r => HomeGroup.setS { g with s := g.s.set n w } (n + 1) r

/-- Predicate `i` of a thread; P7 reads as true (R235). -/
def Thread.pred (t : Thread) (i : Nat) : Bool := i == 7 || t.p.getLsbD i

/-- The guard of R76. -/
def Thread.guard (t : Thread) (h : Head) : Bool := t.pred h.pi.val != h.pn

/-- Bit `i` of an 8-bit register file of predicates set to `b`. -/
def setBit8 (p : BitVec 8) (i : Nat) (b : Bool) : BitVec 8 :=
  if b then p ||| BitVec.ofNat 8 (2 ^ i) else p &&& ~~~(BitVec.ofNat 8 (2 ^ i))

/-- A predicate write; a write to P7 is discarded (R235). -/
def Thread.setPred (t : Thread) (i : Nat) (b : Bool) : Thread :=
  if i < 7 then { t with p := setBit8 t.p i b } else t

/-- Words written to the destination of a thread: its V registers, or the S row of its home group (R77). -/
def State.writeDest (s : State) (t : Thread) (d : Dest) (ws : List Word) : State :=
  match d with
  | .v n => s.modThread t.team t.tid (fun t => t.setRegs n ws)
  | .s n => s.modHg t.team t.role t.hg (fun g => g.setS n ws)

/-- The destination that an operand field names (R81). -/
def Operand.dest? : Operand → Option Dest
  | .v n => some (.v n.val)
  | .s n => some (.s n.val)
  | _ => none

/-! ### Translation (R282 to R286) -/

/-- Bits below the index of a level (R282). -/
def levelShift : Nat → Nat
  | 0 => 16
  | 1 => 21
  | 2 => 30
  | _ => 43

/-- Bits of the index of a level (R282). -/
def levelBits : Nat → Nat
  | 0 => 5
  | 1 => 9
  | 2 => 13
  | _ => 14

/-- What a walk finds (R284). -/
inductive Walk where
  | missing
  | protection
  | page (sys w x : Bool) (pa : Nat)
  deriving DecidableEq, Repr, Inhabited

/-- A malformed entry met at a level (R284); `minimal` is the start of R391. -/
def pteBad (minimal : Bool) (level : Nat) (e : DWord) : Bool :=
  let leaf := e.getLsbD 1
  let addr := e.toNat / 4096 % 2 ^ 40 * 4096
  e.toNat / 2 ^ 52 != 0 || e.toNat / 32 % 128 != 0 ||
  (if leaf then
    level == 3 || addr % 2 ^ levelShift level != 0 ||
      (!e.getLsbD 4 && (minimal || decide (addr + 2 ^ levelShift level > Config.mainBytes)))
   else
    level == 0 || e.getLsbD 4 || decide (addr + 8 * 2 ^ levelBits (level - 1) > Config.mainBytes))

/-- One walk from an entry address downward; gives the result and the entries read with V = 1 (R285). -/
def walkFrom (mem : Memory) (minimal : Bool) (asid va : Nat) : Nat → Option DWord → Nat → Walk × List TlbEntry
  | 0, cached, table =>
    let e := cached.getD (mem.readDWord (table + 8 * (va / 2 ^ levelShift 0 % 2 ^ levelBits 0)))
    let new := if cached.isNone then [{ asid := asid, level := 0, vpath := va / 2 ^ 16, pte := e }] else []
    if !e.getLsbD 0 then (.missing, [])
    else if pteBad minimal 0 e then (.protection, new)
    else (.page (e.getLsbD 4) (e.getLsbD 2) (e.getLsbD 3)
      (e.toNat / 4096 % 2 ^ 40 * 4096 + va % 2 ^ 16), new)
  | l + 1, cached, table =>
    let e := cached.getD (mem.readDWord (table + 8 * (va / 2 ^ levelShift (l + 1) % 2 ^ levelBits (l + 1))))
    let new := if cached.isNone then
      [{ asid := asid, level := l + 1, vpath := va / 2 ^ levelShift (l + 1), pte := e }] else []
    if !e.getLsbD 0 then (.missing, [])
    else if pteBad minimal (l + 1) e then (.protection, new)
    else if e.getLsbD 1 then
      (.page (e.getLsbD 4) (e.getLsbD 2) (e.getLsbD 3)
        (e.toNat / 4096 % 2 ^ 40 * 4096 + va % 2 ^ levelShift (l + 1)), new)
    else
      let (w, more) := walkFrom mem minimal asid va l none (e.toNat / 4096 % 2 ^ 40 * 4096)
      (w, new ++ more)

/-- The cached entry of a level for an address (R285). -/
def tlbFind (tlb : List TlbEntry) (asid va level : Nat) : Option DWord :=
  (tlb.find? (fun e => e.asid == asid && e.level == level && e.vpath == va / 2 ^ levelShift level)).map (·.pte)

/-- A walk of the address through a translation cache: from the lowest cached level, else from the root
of the ASID; an ASID with VALID = 0 has no root (R286). -/
def walkWith (mem : Memory) (minimal : Bool) (a : AsidEntry) (tlb : List TlbEntry) (va : Nat) :
    Walk × List TlbEntry :=
  match tlbFind tlb a.id va 0, tlbFind tlb a.id va 1, tlbFind tlb a.id va 2, tlbFind tlb a.id va 3 with
  | some e, _, _, _ => walkFrom mem minimal a.id va 0 (some e) 0
  | none, some e, _, _ => walkFrom mem minimal a.id va 1 (some e) 0
  | none, none, some e, _ => walkFrom mem minimal a.id va 2 (some e) 0
  | none, none, none, some e => walkFrom mem minimal a.id va 3 (some e) 0
  | none, none, none, none =>
    if !a.valid then (.missing, [])
    else if a.root + 8 * 2 ^ levelBits 3 > Config.mainBytes then (.protection, [])
    else walkFrom mem minimal a.id va 3 none a.root

/-- Translation on a core: the result, and the state with the entries it cached. -/
def State.translate (s : State) (core asid va : Nat) : Walk × State :=
  let tlb := match s.core? core with
    | some c => c.tlb
    | none => []
  let (w, new) := walkWith s.main s.power.minimal (s.asidOf asid) tlb va
  (w, if new.isEmpty then s else s.modCore core (fun c => { c with tlb := new ++ c.tlb }))

/-- A walk that uses no cache (replays, range walks, record reads). -/
def State.walk (s : State) (asid va : Nat) : Walk :=
  (walkWith s.main s.power.minimal (s.asidOf asid) [] va).1

/-- Where a walk from a level downward reads the entries that it has not cached (R282, R285). -/
def walkPlaces (mem : Memory) (minimal : Bool) (va : Nat) : Nat → Option DWord → Nat → List Nat
  | 0, cached, table => if cached.isNone then [table + 8 * (va / 2 ^ levelShift 0 % 2 ^ levelBits 0)] else []
  | l + 1, cached, table =>
    let at_ := table + 8 * (va / 2 ^ levelShift (l + 1) % 2 ^ levelBits (l + 1))
    let e := cached.getD (mem.readDWord at_)
    (if cached.isNone then [at_] else []) ++
      (if !e.getLsbD 0 || pteBad minimal (l + 1) e || e.getLsbD 1 then []
       else walkPlaces mem minimal va l none (e.toNat / 4096 % 2 ^ 40 * 4096))

/-- Where the walks of some addresses read main memory, through a core's translation cache or from the root. -/
def State.walkReads (s : State) (core : Option Nat) (asid : Nat) (vas : List Nat) : List Nat :=
  let tlb := match core.bind s.core? with
    | some c => c.tlb
    | none => []
  let a := s.asidOf asid
  (vas.filter (fun va => decide (va < 2 ^ 57))).flatMap (fun va =>
    match ([0, 1, 2, 3].filterMap (fun l => (tlbFind tlb asid va l).map (fun e => (l, e)))).head? with
    | some (l, e) => walkPlaces s.main s.power.minimal va l (some e) 0
    | none => if a.valid && decide (a.root + 8 * 2 ^ levelBits 3 ≤ Config.mainBytes) then
        walkPlaces s.main s.power.minimal va 3 none a.root else [])

/-- The leaf translation of an address among cached entries, as level and page number (R282). -/
def leafKey (tlb : List TlbEntry) (asid va : Nat) : Option (Nat × Nat) :=
  ([0, 1, 2].find? (fun l => match tlbFind tlb asid va l with
    | some e => e.getLsbD 1
    | none => false)).map (fun l => (l, va / 2 ^ levelShift l))

/-- The leaf translations of some addresses, as a core has cached them or as a fresh walk finds them (R162). -/
def State.leafKeys (s : State) (core : Option Nat) (asid : Nat) (vas : List Nat) : List (Nat × Nat) :=
  vas.filterMap (fun va =>
    match core with
    | some k => leafKey (match s.core? k with
      | some c => c.tlb
      | none => []) asid va
    | none => leafKey (walkWith s.main s.power.minimal (s.asidOf asid) [] va).2 asid va)

/-- Bytes read through an ASID in main memory; none where a page is missing or not permitted. -/
def State.readVirt (s : State) (asid va n : Nat) : Option (List Byte) :=
  match n with
  | 0 => some []
  | k + 1 =>
    match s.walk asid va with
    | .page false _ _ pa => (s.readVirt asid (va + 1) k).map (fun r => s.main.read pa :: r)
    | _ => none

/-! ### Host events (R381) and trace (R307 to R311) -/

/-- One 32-byte event at EVBASE + 32 EVIDX: byte 0 the type, the detail from byte 8 (log entry 10). The MSI-X vector is
signalled. -/
def State.postEvent (s : State) (ty : Nat) (detail : List Byte) : State :=
  let ev := (leBytes 8 ty ++ detail ++ List.replicate 24 0#8).take 32
  { s with sys := s.sys.writeBytes (s.mailbox.evBase + 32 * s.mailbox.evIdx) ev,
           mailbox := { s.mailbox with evIdx := (s.mailbox.evIdx + 1) % 1024, signals := s.mailbox.signals + 1 } }

/-- The fewest bytes that hold a delta, and the DL code (R308). -/
def stampBytes (delta clk : Nat) : Nat × List Byte :=
  if delta < 256 then (1, leBytes 1 delta)
  else if delta < 65536 then (2, leBytes 2 delta)
  else if delta < 16777216 then (3, leBytes 3 delta)
  else (0, leBytes 8 clk)

/-- A record's bytes at a cycle, after a previous stamp. -/
def recordBytes (ty prev clk : Nat) (body : List Byte) : List Byte :=
  let (dl, st) := stampBytes (clk - prev) clk
  BitVec.ofNat 8 (ty * 16 + dl * 4) :: BitVec.ofNat 8 (2 + st.length + body.length) :: (st ++ body)

/-- A new frame (R308). -/
def Frame.open_ (seq core clk : Nat) : Frame :=
  { seq := seq, base := clk, last := clk,
    bytes := leBytes 2 seq ++ leBytes 1 core ++ [0#8] ++ leBytes 4 0 ++ leBytes 8 clk,
    records := 0, gated := false, closed := false, first := clk }

/-- A frame whose first record was written 65,536 cycles ago takes no more (R307). -/
def Frame.old (f : Frame) (clk : Nat) : Bool := f.records != 0 && decide (f.first + 65536 ≤ clk)

/-- A record appended to a frame, where it fits. -/
def Frame.put (f : Frame) (ty clk : Nat) (body : List Byte) : Option Frame :=
  let r := recordBytes ty f.last clk body
  if f.closed || f.old clk || decide (f.bytes.length + r.length > 4096) then none
  else some { f with bytes := f.bytes ++ r, last := clk, records := f.records + 1 }

/-- A frame closed: padded to 4,096 bytes (R307, R308). -/
def Frame.close (f : Frame) (gated : Bool) : Frame :=
  { f with closed := true, gated := gated,
           bytes := ((f.bytes.set 3 (if gated then 1#8 else 0#8)) ++ List.replicate 4096 0#8).take 4096 }

/-- The body of a LOST record (R309). -/
def lostBody (count reason : Nat) : List Byte := leBytes 4 count ++ leBytes 1 reason ++ [0#8]

/-- A record into the last frame, or into a new one while the 64 KiB hold fewer than 16 frames. A new frame
begins with the LOST records that are due (R311, R312). None when the buffer is full. -/
def TraceBuf.tryPut (b : TraceBuf) (core ty clk : Nat) (body : List Byte) : Option TraceBuf :=
  match b.frames.getLast? with
  | some f =>
    match f.put ty clk body with
    | some g => some { b with frames := b.frames.dropLast ++ [g] }
    | none =>
      if b.frames.length ≥ 16 then none
      else
        match (Frame.open_ b.nextSeq core clk).put ty clk body with
        | none => none
        | some g => some { b with frames := updAt (b.frames.length - 1) (fun f => if f.closed then f else f.close false) b.frames ++ [g],
                                  nextSeq := (b.nextSeq + 1) % 65536 }
  | none =>
    match (Frame.open_ b.nextSeq core clk).put ty clk body with
    | none => none
    | some g => some { b with frames := [g], nextSeq := (b.nextSeq + 1) % 65536 }

/-- The LOST records that are due are written before any other record (R311, R312). -/
def TraceBuf.putLost (b : TraceBuf) (core clk : Nat) : TraceBuf :=
  let b := if b.resumed && b.gateDropped != 0 then
      match b.tryPut core 5 clk (lostBody b.gateDropped 1) with
      | some b => { b with gateDropped := 0, resumed := false }
      | none => b
    else b
  if b.dropped != 0 then
    match b.tryPut core 5 clk (lostBody b.dropped 0) with
    | some b => { b with dropped := 0 }
    | none => b
  else b

/-- A count that stops at 2^32 - 1 (R311). -/
def stop32 (n : Nat) : Nat := if n > 0xFFFFFFFF then 0xFFFFFFFF else n

/-- A record that finds the buffer full is dropped and counted (R311); its frame, which it did not fit, is closed (R307). -/
def TraceBuf.drop (b : TraceBuf) : TraceBuf :=
  { b with frames := updAt (b.frames.length - 1) (fun f => if f.closed then f else f.close false) b.frames,
           dropped := stop32 (b.dropped + 1) }

/-- A record written by a core, or dropped and counted (R311). -/
def TraceBuf.put (b : TraceBuf) (core ty clk : Nat) (body : List Byte) : TraceBuf :=
  let b := b.putLost core clk
  if b.dropped != 0 then b.drop
  else
    match b.tryPut core ty clk body with
    | some b => b
    | none => b.drop

/-- The quadrant of a core: 4d + q (R10). -/
def quadOf (c : Nat) : Nat := c / 8

/-- A record of a core, while TRCTL.EN is set (R307); from the start of a gating until the quadrant resumes it is dropped
(R312). In a cycle in which the core's ports have acted, an engine's record is written first in the next cycle (R308;
DEDUCED, log entry 11). -/
def State.trace (s : State) (core ty : Nat) (body : List Byte) : State :=
  if !s.trctl.getLsbD 0 then s
  else if s.power.gating.contains (quadOf core) || s.power.gated.contains (quadOf core) then
    s.modCore core (fun c => { c with trace := { c.trace with gateDropped := stop32 (c.trace.gateDropped + 1) } })
  else s.modCore core (fun c =>
    if c.issuedAt = s.clk + 1 then { c with trace := { c.trace with later := c.trace.later ++ [(ty, body)] } }
    else { c with trace := c.trace.put core ty s.clk body })

/-- The records that wait for the next cycle are written at its beginning (R308). -/
def TraceBuf.flush (b : TraceBuf) (core clk : Nat) : TraceBuf :=
  b.later.foldl (fun b r => b.put core r.1 clk r.2) { b with later := [] }

/-- The records of a core that wait, a core without them whose ports count as not having acted, and such records written now:
port 1's, made before port 0's of the same cycle (R308). -/
def State.laterOf (s : State) (core : Nat) : List (Nat × List Byte) := ((s.core? core).map (fun c => c.trace.later)).getD []
def State.takeLater (s : State) (core : Nat) : State :=
  s.modCore core (fun c => { c with issuedAt := 0, trace := { c.trace with later := [] } })
def State.putLater (s : State) (core : Nat) (rs : List (Nat × List Byte)) : State :=
  s.modCore core (fun c => { c with trace := rs.foldl (fun b r => b.put core r.1 s.clk r.2) c.trace })

/-- LOST records are written as soon as there is room for them, while TRCTL.EN is set and the quadrant is not gated or about to
be (R311, R312). -/
def State.traceRoom (s : State) (core : Nat) : State :=
  if s.trctl.getLsbD 0 && !s.power.gating.contains (quadOf core) && !s.power.gated.contains (quadOf core) then s.modCore core (fun c => { c with trace := c.trace.putLost core s.clk }) else s

/-- The cores of a quadrant produce records again: the first new frame of each begins with what gating has cost (R312). -/
def State.wakeTrace (s : State) (quad : Nat) : State :=
  let f := fun (c : Core) =>
    let b := { c.trace with resumed := c.trace.gateDropped != 0 }
    { c with trace := if s.trctl.getLsbD 0 then b.putLost c.id s.clk else b }
  { s with cores := updWhere (fun c => quadOf c.id == quad) f s.cores }

/-- The logical-thread name of R309. -/
def State.threadName (s : State) (t : Team) (tid : Nat) : List Byte :=
  let id := match s.launch? t.launch with
    | some l => l.ident.toNat
    | none => 0
  leBytes 4 id ++ leBytes 4 t.index ++ leBytes 4 tid

/-! ### Leaving a clause, parking and release -/

/-- Words of a clause (R69). -/
def hdrWords (h : DWord) : Nat := (h >>> 56).toNat % 16 + 1

/-- The address after the last slot of a clause. -/
def ClauseCtx.next (c : ClauseCtx) : BitVec 57 := c.hdrAddr + BitVec.ofNat 57 (8 * (hdrWords c.hdr + 1))

/-- A thread becomes ready at an address between clauses (R36). -/
def Thread.readyAt (t : Thread) (pc : BitVec 57) (clk : Nat) : Thread :=
  { t with pc := pc, clause := none, status := .ready, since := clk }

/-- A thread leaves its clause by falling through (R74). -/
def Thread.fallThrough (t : Thread) (clk : Nat) : Thread :=
  match t.clause with
  | some c => t.readyAt c.next clk
  | none => { t with status := .ready, since := clk }

/-- The watchdog counter reset by progress of the team, not while it is in the handler (R302, R303). -/
def Team.progress (t : Team) : Team := if t.wdogHandling then t else { t with wdog := 0 }

/-- The rejoin entry a thread is parked on. -/
def Thread.waitsJ (t : Thread) (ks : List Nat) : Bool :=
  match t.status with
  | .parked (.waitj k) => ks.contains k
  | _ => false

/-- The thread is parked in BWAIT on barrier `b`. -/
def Thread.waitsB (t : Thread) (b : Nat) : Bool :=
  match t.status with
  | .parked (.bwait k _) => k == b
  | _ => false

/-- The thread belongs to a home group. -/
def Thread.inHg (t : Thread) (team role idx : Nat) : Bool := t.team == team && t.role == role && t.hg == idx

/-- `f` on the threads that satisfy `p`. -/
def State.mapThreads (s : State) (p : Thread → Bool) (f : Thread → Thread) : State :=
  { s with threads := updWhere p f s.threads }

/-- A rejoin entry whose expected threads have all arrived (R142). -/
def Rejoin.complete (r : Rejoin) : Bool := r.expected != 0#64 && (r.expected &&& ~~~r.arrived) == 0#64

/-- Rejoin entries that are complete release their threads (R142). -/
def State.checkRejoin (s : State) (team role idx : Nat) : State :=
  match s.hg? team role idx with
  | none => s
  | some g =>
    let done := (List.range g.rejoin.length).filter (fun k => (g.rejoin.getD k default).complete)
    if done.isEmpty then s
    else
      let s := s.modHg team role idx (fun g => { g with rejoin := g.rejoin.map (fun r =>
        if r.complete then { expected := 0#64, arrived := 0#64 } else r) })
      let s := s.mapThreads (fun t => t.inHg team role idx && t.waitsJ done) (fun t => t.fallThrough s.clk)
      s.modTeam team Team.progress

/-- Every waiter of a barrier is released with a result (R147, R148). -/
def State.releaseBar (s : State) (team b : Nat) (result : Bool) : State :=
  let s := s.mapThreads (fun t => t.team == team && t.waitsB b) (fun t =>
    match t.status with
    | .parked (.bwait _ pd) => (t.setPred pd result).fallThrough s.clk
    | _ => t)
  s.modTeam team (fun t => t.modBar b (fun x => { x with wait := 0 }))

end Sys2Proof.Machine
end

