-- ==== Sys2Proof/Machine/Scratch.lean ====
section
/-! DEFINITION. Scratch memory as threads see it (R166, R172 to R183, R314 to R325; log entry 12): the memories hold
the last write of every word, `State.hist` the earlier ones that a read may still return; each thread knows which writes
are ordered before its accesses. Here: store-buffer entries and the scope they have been performed at, when a store or a
load may be made, what a read returns and what it orders, and the promotion of R181. -/

namespace Sys2Proof.Machine

/-- The scopes in order of width (R180). -/
def scopeRank : Scope → Nat
  | .team => 0
  | .core => 1
  | .die => 2
  | .device => 3
  | .system => 4

/-- The wider of two scopes. -/
def widest (a b : Scope) : Scope := if scopeRank a ≤ scopeRank b then b else a

/-- The bytes of a space. -/
def State.memOf (s : State) (x : Space) : Memory :=
  match x with
  | .lsm team => match s.team? team with
    | some t => t.lsm
    | none => []
  | .dsm => s.dsm
  | .main => s.main
  | .sys => s.sys

/-- Bytes read from a place, store buffers aside. -/
def State.memRead (s : State) (l : Loc) (n : Nat) : List Byte := (s.memOf l.space).readBytes l.addr n

/-- Bytes stored to a place; a bad word wholly rewritten is good again (R247). -/
def State.memStore (s : State) (l : Loc) (bs : List Byte) : State :=
  let s := match l.space with
    | .lsm team => s.modTeam team (fun t => { t with lsm := t.lsm.writeBytes l.addr bs })
    | .dsm => { s with dsm := s.dsm.writeBytes l.addr bs }
    | .main => { s with main := s.main.writeBytes l.addr bs }
    | .sys => { s with sys := s.sys.writeBytes l.addr bs }
  if s.badWords.isEmpty then s
  else { s with badWords := s.badWords.filter (fun w =>
    !(w.space == l.space && decide (l.addr ≤ w.addr ∧ w.addr + 4 ≤ l.addr + bs.length))) }

/-- A write that every later read of those bytes returns, or a later one: a copy's to lines that were absent until it
landed (R187), a bank unit's sector (R265), a write to main or system memory performed at DEVICE or SYSTEM scope (R189). -/
def State.memWrite (s : State) (l : Loc) (bs : List Byte) : State :=
  let s := s.memStore l bs
  if s.hist.isEmpty then s
  else { s with hist := s.hist.filter (fun w =>
    !(w.loc.space == l.space && decide (w.loc.addr < l.addr + bs.length ∧ l.addr < w.loc.addr + 4))) }

/-- Two byte ranges of one space share a byte. -/
def overlaps (a : Loc) (n : Nat) (b : Loc) (m : Nat) : Bool :=
  a.space == b.space && decide (a.addr < b.addr + m ∧ b.addr < a.addr + n)

/-- The 128-byte line of a scratch place (R168). -/
def lineOf (l : Loc) : Loc := { l with addr := l.addr / 128 * 128 }

/-- The lines that a byte range touches. -/
def linesOf (l : Loc) (n : Nat) : List Loc :=
  (List.range ((l.addr + n - 1) / 128 + 1 - l.addr / 128)).map
    (fun i => { l with addr := (l.addr / 128 + i) * 128 })

/-- Every line that the range touches is present (R168). -/
def State.present (s : State) (l : Loc) (n : Nat) : Bool := (linesOf l n).all (fun x => !s.absent.contains x)

/-- The core of a team, while resident. -/
def State.coreOf (s : State) (team : Nat) : Option Nat := (s.team? team).bind Team.core?

/-- A scope at a place: on LSM every scope wider than CORE acts as CORE (R180). -/
def Loc.scope (l : Loc) (sc : Scope) : Scope :=
  match l.space with
  | .lsm _ => if scopeRank sc > 1 then .core else sc
  | _ => sc

/-- A scope of a thread of team `a` on core `ca` includes a thread of team `b` on core `cb` (R180). -/
def includes (sc : Scope) (a : Nat) (ca : Option Nat) (b : Nat) (cb : Option Nat) : Bool :=
  a == b ||
  (match sc with
    | .team => false
    | .core => ca.isSome && ca == cb
    | .die => (match ca, cb with
      | some x, some y => dieOf x == dieOf y
      | _, _ => false)
    | _ => true)

/-- A release is scope-matched with an acquire at scope `sc` of a team on a core, or the promotion of R181 stands in for
the match (R316, R317); a mailbox command counts as made at SYSTEM scope (R322). -/
def Sync.matched (y : Sync) (l : Loc) (sc : Scope) (rmt : Bool) (team : Nat) (core : Option Nat) : Bool :=
  if y.host then !y.isDone && decide (scopeRank sc ≥ 3)
  else
    (includes (l.scope y.scope) y.team y.core team core && includes (l.scope sc) team core y.team y.core) ||
    (rmt && y.access && y.scope == .core && l.space == .dsm && core != y.core && includes sc team core y.team y.core)

/-- Insertion by a key, stable. -/
def insertBy {α : Type} (key : α → Nat) (x : α) : List α → List α
  | [] => [x]
  | y :: r => if key x ≤ key y then x :: y :: r else y :: insertBy key x r

/-- A list in ascending order of a key, stable. -/
def sortBy {α : Type} (key : α → Nat) (l : List α) : List α := l.foldr (fun x acc => insertBy key x acc) []

/-! ### What an order carries (R315, R323) -/

/-- A write added to a view: at each word the last one counts. -/
def addView (v : View) (p : Loc × Nat) : View :=
  match v with
  | [] => [p]
  | q :: r => if q.1 == p.1 then (q.1, Nat.max q.2 p.2) :: r else q :: addView r p

/-- Two views together. -/
def joinViews (a b : View) : View := b.foldl addView a

/-- The stamp of a view at a word. -/
def stampAt (v : View) (w : Loc) : Nat := ((v.find? (fun p => p.1 == w)).map (·.2)).getD 0

/-- The writes of a view are ordered before the thread's accesses from `start` on. -/
def Thread.learn (t : Thread) (v : View) (start : Nat) : Thread :=
  let new := v.filter (fun p => !t.know.any (fun k => k.loc == p.1 && k.stamp == p.2 && decide (k.start ≤ start)))
  { t with know := t.know ++ new.map (fun p => { loc := p.1, stamp := p.2, start := start, engine := some start }) }

/-- The thread's own write, ordered before its later accesses; before the scratch reads of its engine operations only
where it is an acquire too (R190, R318). -/
def Thread.wrote (t : Thread) (v : View) (start : Nat) (acq : Bool) : Thread :=
  { t with know := t.know ++ v.map (fun p => { loc := p.1, stamp := p.2, start := start, engine := if acq then some start else none }) }

/-- Access `id` of the thread has read some writes: its later reads do not fall behind them, and earlier ones that are
still to be made do not get ahead of them (R323); a later acquire fence finds their releases (R317). Where no access of the
thread is outstanding that could still be made out of order, `quiet`, the last read of a word stands for all. -/
def Thread.saw (t : Thread) (ws : List Wr) (id : Nat) (quiet : Bool) : Thread :=
  let old := if quiet then t.seen.filter (fun x => !ws.any (fun w => w.loc == x.loc)) else t.seen
  { t with seen := old ++ ws.map (fun w => { loc := w.loc, stamp := w.stamp, id := id }),
           reads := t.reads ++ ws.flatMap (fun (w : Wr) => w.syncs.map (fun y => (w.loc, y))) }

/-- The stamps that access `id` of the thread must not fall behind at a word, and must not get ahead of, for the sake of
the thread's other reads in program order (R323). -/
def Thread.readBefore (t : Thread) (w : Loc) (id : Nat) : Nat :=
  ((t.seen.filter (fun x => x.loc == w && decide (x.id ≤ id))).map (·.stamp)).foldl Nat.max 0
def Thread.readAfter (t : Thread) (w : Loc) (id : Nat) : List Nat :=
  (t.seen.filter (fun x => x.loc == w && decide (id < x.id))).map (·.stamp)

/-- What is ordered before access `id` of the thread. -/
def Thread.viewAt (t : Thread) (id : Nat) : View :=
  joinViews [] ((t.know.filter (fun k => decide (k.start ≤ id))).map (fun k => (k.loc, k.stamp)))

/-- The least stamp that access `id` of the thread may return at a word (R323). -/
def Thread.bound (t : Thread) (w : Loc) (id : Nat) : Nat :=
  Nat.max (stampAt (t.viewAt id) w) (t.readBefore w id)

/-- The same for a scratch read of its engine operation `op`, with or without REL (R190, R318). -/
def Thread.engineBound (t : Thread) (w : Loc) (op : Nat) (rel : Bool) : Nat :=
  Nat.max (t.readBefore w op) (((t.know.filter (fun k => k.loc == w &&
    (if rel then decide (k.start ≤ op) else match k.engine with
      | some e => decide (e ≤ op)
      | none => false))).map (·.stamp)).foldl Nat.max 0)

/-- The threads of a team that are listed. -/
def State.threadsOf (s : State) (team : Nat) (tids : List Nat) : List Thread :=
  s.threads.filter (fun t => t.team == team && tids.contains t.tid)

/-- The store-buffer entries that are a thread's stores, its own and those that it shares (R77). -/
def State.storesOf (s : State) (t : Thread) : List StoreEntry :=
  (s.threads.filter (fun x => x.team == t.team)).flatMap (fun x => x.stores.filter (fun e => e.takers.contains t.tid))

/-- An outstanding load, atomic or probe of the thread older than `id` that satisfies `p`. -/
def State.olderLoad (s : State) (team tid id : Nat) (p : LoadOp → Bool) : Bool :=
  s.loads.any (fun o => o.team == team && o.dests.contains tid && decide (o.id < id) && p o)

/-- A store of the thread older than `id` that is not yet made and satisfies `p`. -/
def State.olderStore (s : State) (t : Thread) (id : Nat) (p : StoreEntry → Bool) : Bool :=
  (s.storesOf t).any (fun e => e.level.isNone && decide (e.id < id) && p e)

/-- An acquire of the thread older than `id` is outstanding (R315). -/
def State.acquirePending (s : State) (team tid id : Nat) : Bool :=
  s.olderLoad team tid id (fun o => o.ord.isAcquire)

/-- The access may yet synchronise with a release: an acquire, or a load before an acquire fence (R317). -/
def LoadOp.mayAcquire (o : LoadOp) : Bool := o.ord.isAcquire || !(o.red || o.stk || o.probe)

/-- An access of one of these threads, or one that a barrier or SYNCM has put before theirs, may yet synchronise with a
release: an instruction that looks at a barrier register stalls, so that it finds the register as what comes before that
release has left it (R145, R151, R353). -/
def State.acquiring (s : State) (ts : List Thread) : Bool :=
  ts.any (fun t => s.olderLoad t.team t.tid s.nextId LoadOp.mayAcquire ||
    t.after.any (fun a => decide (a.2 ≤ s.nextId) && s.loads.any (fun o => o.id == a.1 && o.mayAcquire)))

/-- Something ordered before access `id` of the thread is not yet made: an acquire of it, or an access of a thread that
arrived at a barrier or SYNCM before it was released (R145, R151, R315). -/
def State.orderPending (s : State) (t : Thread) (id : Nat) : Bool :=
  s.acquirePending t.team t.tid id || t.after.any (fun a => decide (a.2 ≤ id))

/-- What a thread has ordered before its accesses from `id` on: writes made, and accesses not yet made. -/
def State.orderedBefore (s : State) (team tid id : Nat) : View × List Nat :=
  match s.thread? team tid with
  | none => ([], [])
  | some t =>
    (t.viewAt id,
     ((s.storesOf t).filter (fun e => e.level.isNone && !e.stk && decide (e.id < id))).map (·.id) ++
     (s.loads.filter (fun o => o.team == team && o.dests.contains tid && !o.stk && decide (o.id < id))).map (·.id) ++
     (t.after.filter (fun a => decide (a.2 ≤ id))).map (·.1))

/-- Writes and accesses that come before the thread's accesses from `start` on. -/
def Thread.follow (t : Thread) (v : View) (ids : List Nat) (start : Nat) : Thread :=
  { t.learn v start with after := t.after ++ ids.map (fun i => (i, start)) }

/-- An access has been made, with what it orders: whoever waits for it goes on with that (R145, R151). -/
def State.accessMade (s : State) (id : Nat) (v : View) : State :=
  let s := s.mapThreads (fun t => t.after.any (fun a => a.1 == id)) (fun t =>
    (t.after.filter (fun a => a.1 == id)).foldl (fun t a => t.learn v a.2)
      { t with after := t.after.filter (fun a => a.1 != id) })
  let bar := fun (b : Barrier) =>
    if b.lastAfter.contains id then
      { b with lastView := joinViews b.lastView v, lastAfter := b.lastAfter.filter (fun i => i != id) }
    else b
  let f := fun (t : Team) => { t with bars := t.bars.map bar }
  { s with teams := updWhere (fun t => t.bars.any (fun b => b.lastAfter.contains id)) f s.teams }

/-! ### Versions of a word (R314, R323) -/

/-- The location of a byte: the aligned word that holds it (R314). -/
def wordAt (l : Loc) : Loc := { l with addr := l.addr / 4 * 4 }

/-- The locations of a byte range. -/
def wordsAt (l : Loc) (n : Nat) : List Loc :=
  (List.range ((l.addr + n - 1) / 4 + 1 - l.addr / 4)).map (fun i => { l with addr := (l.addr / 4 + i) * 4 })

/-- The last write of a word, as its memory holds it. -/
def State.lastWord (s : State) (w : Loc) : Word := BitVec.ofNat 32 (leNat (s.memRead w 4))

/-- The last write of a word. -/
def State.lastWr (s : State) (w : Loc) : Wr :=
  (s.hist.find? (fun x => x.loc == w)).getD { loc := w, stamp := 0, val := s.lastWord w, who := none, syncs := [] }

/-- A write of bytes of one word, the last in its modification order. `who` is its party where it is a synchronising
access; `syncs` are the releases it carries, to which an atomic operation adds those of the write before it (R317). Its
stamp is one more than `nextId`. -/
def State.pushWord (s : State) (l : Loc) (bs : List Byte) (who : Option Sync) (syncs : List Sync) (chain : Bool) : State :=
  let w := wordAt l
  let older := s.hist.any (fun x => x.loc == w)
  let last := s.lastWr w
  let s := s.memStore l bs
  let new : Wr := { loc := w, stamp := s.nextId + 1, val := s.lastWord w, who := who,
                    syncs := syncs ++ (if chain then last.syncs else []) }
  { s with hist := new :: ((if older then [] else [{ last with stamp := s.nextId }]) ++ s.hist), nextId := s.nextId + 2 }

/-- Words that `n` bytes at a place touch. -/
def wordSpan (l : Loc) (n : Nat) : Nat := (l.addr % 4 + n + 3) / 4

/-- Where the part of those bytes that lies in the `i`-th of the words begins, as an index into them. -/
def wordStart (l : Loc) (i : Nat) : Nat := 4 * i - l.addr % 4

/-- A write of some bytes, word by word; the `i`-th word's stamp is `nextId + 2 i + 1`. -/
def State.pushBytes (s : State) (l : Loc) (bs : List Byte) (who : Option Sync) (syncs : List Sync) (chain : Bool) : State :=
  (List.range (wordSpan l bs.length)).foldl (fun s i =>
    s.pushWord { l with addr := l.addr + wordStart l i } ((bs.drop (wordStart l i)).take (wordStart l (i + 1) - wordStart l i)) who syncs chain) s

/-- The writes that `pushBytes` makes next. -/
def State.pushView (s : State) (l : Loc) (n : Nat) : View :=
  (List.range (wordSpan l n)).map (fun i => (wordAt { l with addr := l.addr + wordStart l i }, s.nextId + 2 * i + 1))

/-- The writes that a read may return at a word: those not behind `bound`, and of these the ones that are not ahead of any of
`tops` (R323); a word whose writes have all been made since then is read as its oldest. -/
def State.choices (s : State) (w : Loc) (bound : Nat) (tops : List Nat) : List Wr :=
  let ws := s.hist.filter (fun x => x.loc == w && decide (bound ≤ x.stamp))
  match ws.filter (fun x => tops.all (fun m => decide (x.stamp ≤ m))) with
  | [] => ws.drop (ws.length - 1)
  | r => r

/-- The write that a read returns at a word: any one of those that it may return (R323), by a free value. -/
def State.readWr (s : State) (w : Loc) (bound : Nat) (tops : List Nat) (id tid : Nat) : Wr :=
  match s.choices w bound tops with
  | [] => s.lastWr w
  | [x] => x
  | x :: r => (x :: r).getD (Config.freeRead id tid w.addr % (r.length + 1)) x

/-- The last synchronising write of a word that an acquire must not fall behind (R324). -/
def State.syncBound (s : State) (w : Loc) (sc : Scope) (rmt : Bool) (team : Nat) (core : Option Nat) : Nat :=
  ((s.hist.find? (fun x => x.loc == w && (match x.who with
    | some y => y.matched w sc rmt team core
    | none => false))).map (·.stamp)).getD 0

/-! ### Stores (R173, R315) -/

/-- The entry has been performed at least at `lv`. -/
def StoreEntry.atLeast (e : StoreEntry) (lv : Scope) : Bool :=
  match e.level with
  | some x => scopeRank lv ≤ scopeRank x
  | none => false

/-- The scope at which STCNT falls (R173, R180). -/
def StoreEntry.target (e : StoreEntry) : Scope := e.loc.scope e.scope

/-- An entry may be made: its threads' older overlapping stores and loads and their older acquires have been made, all
that other threads put before it too, and a release follows every older access (R145, R151, R173, R315). -/
def State.canPerform (s : State) (t : Thread) (e : StoreEntry) : Bool :=
  (s.threadsOf t.team e.takers).all (fun x =>
    !s.olderStore x e.id (fun y => y.stk == e.stk && (e.release || overlaps y.loc y.data.length e.loc e.data.length)) &&
    !s.olderLoad x.team x.tid e.id (fun o => o.stk == e.stk &&
      (e.release || (o.ord.isAcquire && !e.stk) || overlaps o.loc o.size e.loc e.data.length)) &&
    (e.stk || x.after.all (fun a => !decide (a.2 ≤ e.id))))

/-- The releases that a write of some threads carries (R317): its own, where it is a release, and those of their earlier
release fences; `v` is the write itself. -/
def syncsOf (ts : List Thread) (id : Nat) (y : Sync) (release : Bool) (v : View) : List Sync :=
  (if release then [{ y with view := joinViews (ts.foldl (fun u t => joinViews u (t.viewAt id)) []) v }] else []) ++
  ts.flatMap (fun t => (t.fences.filter (fun f => decide (f.start ≤ id))).map (fun f =>
    { y with access := false, scope := f.scope, view := joinViews f.view v }))

/-- STCNT of a thread falls by one (R300). -/
def Thread.stDown (t : Thread) : Thread := { t with stcnt := t.stcnt - 1 }
def Thread.ldDown (t : Thread) : Thread := { t with ldcnt := t.ldcnt - 1 }
def Thread.xfDown (t : Thread) : Thread := { t with xfcnt := t.xfcnt - 1 }
def Thread.tlDown (t : Thread) : Thread := { t with tlcnt := t.tlcnt - 1 }

/-- The line of a CORE-scope release `id` of a team to DSM is tagged with the releasing core (R181, R182). -/
def State.tag (s : State) (l : Loc) (team id : Nat) (rel : Bool) (sc : Scope) : State :=
  match l.space, s.coreOf team with
  | .dsm, some c =>
    if rel && sc == .core then
      { s with dsmTags := assocSet s.dsmTags (l.addr / 128 * 128) c }.modTeam team (fun t =>
        { t with tagged := Nat.max t.tagged id })
    else s
  | _, _ => s

/-- A store's write takes its place in memory and in its word's modification order (R323). -/
def State.makeStore (s : State) (t : Thread) (e : StoreEntry) : State :=
  if e.stk then s.memWrite e.loc e.data
  else
    let v := s.pushView e.loc e.data.length
    let y : Sync := { team := t.team, core := s.coreOf t.team, scope := e.scope, access := true, host := false,
                      isDone := false, view := [] }
    let syncs := syncsOf (s.threadsOf t.team e.takers) e.id y e.release v
    let s := s.pushBytes e.loc e.data (if e.release then some y else none) syncs false
    (s.modThreads t.team e.takers (fun t => t.wrote v (e.id + 1) false)).accessMade e.id v

/-- An entry performed at `lv`. It leaves the buffer once every party within its widest scope has it: at once on LSM and
the stack, at DEVICE scope on DSM. STCNT of its threads falls when all words of the store have been performed at its
scope (R77, R173); a release tags its line then (R181). -/
def State.perform (s : State) (t : Thread) (e : StoreEntry) (lv : Scope) : State :=
  let gone := e.stk || e.loc.space != .dsm || scopeRank lv ≥ 3
  let wide := match e.level with
    | some x => widest x lv
    | none => lv
  let done := (gone || scopeRank e.target ≤ scopeRank wide) && !e.atLeast e.target
  let others := t.stores.any (fun x => x.sid == e.sid && x.id != e.id && !x.atLeast x.target)
  let s := if e.level.isNone then s.makeStore t e else s
  let s := s.tag e.loc t.team e.id (e.release && done) e.scope
  let s := s.modThread t.team t.tid (fun t =>
    if gone then { t with stores := t.stores.filter (fun x => x.id != e.id) }
    else { t with stores := updWhere (fun x => x.id == e.id) (fun x => { x with level := some wide }) t.stores })
  if done && !others then s.modThreads t.team e.takers Thread.stDown else s

/-- An entry performed at `lv` where it may be. -/
def State.tryPerform (s : State) (team tid id : Nat) (lv : Scope) : State :=
  match s.thread? team tid with
  | none => s
  | some t =>
    match t.stores.find? (fun e => e.id == id) with
    | none => s
    | some e => if e.atLeast lv || (e.level.isNone && !s.canPerform t e) then s else s.perform t e lv

/-- Stores of some threads performed at DEVICE scope, in the order of issue, where they may be (R181, R182). -/
def State.performCore (s : State) (p : Thread → Bool) (before : Nat) : State :=
  let ids := sortBy (fun x : Nat × Nat × Nat => x.2.2)
    ((s.threads.filter p).flatMap (fun t =>
      (t.stores.filter (fun e => decide (e.id < before))).map (fun e => (t.team, t.tid, e.id))))
  ids.foldl (fun s x => s.tryPerform x.1 x.2.1 x.2.2 .device) s

/-- The core that tags a DSM line (R181). -/
def State.tagOf (s : State) (l : Loc) : Option Nat :=
  match l.space with
  | .dsm => assocGet s.dsmTags (l.addr / 128 * 128)
  | _ => none

/-- A promotion can be carried out for an acquire (R181): each store that the owner core holds can be performed at DEVICE
scope, but for one that waits behind an acquire of its own threads, since two acquires must not wait for each other (R325;
DEDUCED, log entry 12). -/
def State.canPromote (s : State) (core : Option Nat) (l : Loc) : Bool :=
  match s.tagOf l, core with
  | some c, some me =>
    let mine := fun (t : Thread) => s.coreOf t.team == some c
    let after := s.performCore mine s.nextId
    c == me || after.threads.all (fun t => !mine t || t.stores.all (fun e =>
      e.atLeast .device || (after.threadsOf t.team e.takers).any (fun x => after.orderPending x e.id)))
  | _, _ => true

/-- The promotion of R181 before an acquire with RMT from another core: the owner core's stores are performed
at DEVICE scope and the tag is cleared. -/
def State.promote (s : State) (core : Option Nat) (l : Loc) : State :=
  match s.tagOf l, core with
  | some c, some me =>
    if c == me then s
    else
      let s := s.performCore (fun t => s.coreOf t.team == some c) s.nextId
      { s with dsmTags := s.dsmTags.filter (fun p => p.1 != l.addr / 128 * 128) }
  | _, _ => s

/-- Words of a byte list, low word first. -/
def wordsOf (bs : List Byte) : List Word :=
  match bs with
  | a :: b :: c :: d :: r => BitVec.ofNat 32 (leNat [a, b, c, d]) :: wordsOf r
  | [] => []
  | l => [BitVec.ofNat 32 (leNat l)]

/-- The bytes of words, low word first. -/
def bytesOfWords (ws : List Word) : List Byte := ws.flatMap (fun w => leBytes 4 w.toNat)

/-- FMIN and FMAX of R113 on two bit patterns of a format. -/
def Format.minMax (f : Format) (isMax : Bool) (a b : Nat) : Nat :=
  let x := f.val a
  let y := f.val b
  if x.isNan && y.isNan then f.nanBits
  else if x.isNan then b
  else if y.isNan then a
  else if x.isZero && y.isZero then
    -- -0 is ordered below +0
    (if isMax then (if x.isNeg then b else a) else (if x.isNeg then a else b))
  else if x.lt y then (if isMax then b else a) else (if isMax then a else b)

/-- A sum rounded once to nearest, subnormals kept (R175, R195). -/
def Format.sumRn (f : Format) (a b : Nat) : Nat :=
  (f.ofVal .rn false false (Val.add .rn (f.val a) (f.val b))).bits

/-- The new value of an atomic operation at its address (R175). -/
def aopNew (op : Aop) (old data : List Word) : List Word :=
  let o := old.getD 0 0#32
  let d := data.getD 0 0#32
  match op with
  | .addN32 => [o + d]
  | .addF32 => [BitVec.ofNat 32 (fmtF32.sumRn o.toNat d.toNat)]
  | .minI32 => [if o.slt d then o else d]
  | .minN32 => [if o.ult d then o else d]
  | .maxI32 => [if o.slt d then d else o]
  | .maxN32 => [if o.ult d then d else o]
  | .fmin => [BitVec.ofNat 32 (fmtF32.minMax false o.toNat d.toNat)]
  | .fmax => [BitVec.ofNat 32 (fmtF32.minMax true o.toNat d.toNat)]
  | .and => [o &&& d]
  | .or => [o ||| d]
  | .xor => [o ^^^ d]
  | .exch32 => [d]
  | .addN64 => unpair (pair o (old.getD 1 0#32) + pair d (data.getD 1 0#32))
  | .exch64 => [d, data.getD 1 0#32]
  | .addB16x2 =>
    [BitVec.ofNat 32 (packElems 16 [fmtB16.sumRn (o.toNat % 65536) (d.toNat % 65536),
      fmtB16.sumRn (o.toNat / 65536) (d.toNat / 65536)])]

/-- The operation writes at its address. -/
def LoadOp.writes (o : LoadOp) : Bool := o.op.isSome || o.cas

/-! ### Addresses (R166) -/

/-- The die whose DSM holds a scratch address. -/
def dsmDie (a : Nat) : Option Nat :=
  let o := a - 0x10000000
  if 0x10000000 ≤ a ∧ o / 0x08000000 < 4 ∧ o % 0x08000000 < Config.dsmBytes then some (o / 0x08000000) else none

/-- The scratch address lies in some launch's spill-stack reservation (R166, R256); one of no bytes holds none. -/
def State.inStack (s : State) (a n : Nat) : Bool :=
  s.launches.any (fun l => l.phase != .done && decide (0 < l.stkSlots * l.kernel.stack) &&
    decide (a < l.stkBase + l.stkSlots * 1024 * l.kernel.stack ∧ l.stkBase < a + n))

/-- Every byte from `a` to below `z` lies in some window, one after another (R166, R254). -/
def windowsCover (ws : List Window) (a z : Nat) : Nat → Bool
  | 0 => decide (z ≤ a)
  | k + 1 =>
    decide (z ≤ a) ||
    (match ws.filter (fun w => decide (w.base ≤ a ∧ a < w.base + w.len)) with
      | [] => false
      | w :: r => windowsCover ws (r.foldl (fun m x => Nat.max m (x.base + x.len)) (w.base + w.len)) z k)

/-- A scratch address decoded, or the cause of R166 after MISALIGN: SCRATCH_RANGE, then PROTECTION. -/
def State.scratch (s : State) (l : Launch) (team a n : Nat) : Except Cause Loc :=
  if a < 0x10000000 then
    if a + n ≤ l.kernel.lsm then .ok { space := .lsm team, addr := a } else .error .scratchRange
  else
    match dsmDie a, dsmDie (a + n - 1) with
    | some _, some _ =>
      if windowsCover l.windows a (a + n) l.windows.length && !s.inStack a n then
        .ok { space := .dsm, addr := a }
      else .error .protection
    | _, _ => .error .scratchRange

/-! ### Loads, atomics and probes -/

/-- A load, atomic or probe may be made now: its line is present (R168); older acquires and older overlapping accesses
of its threads have been made, all that other threads put before it too, and every older access where it releases
(R145, R151, R315); a promotion that it starts can be carried out (R181); and the same instruction's accesses of lower
positions to those bytes have been made, of an atomic (R175, R177). -/
def State.loadReady (s : State) (o : LoadOp) : Bool :=
  (o.stk || o.probe || s.present o.loc o.size) &&
  (s.threadsOf o.team o.dests).all (fun x =>
    !s.olderLoad x.team x.tid o.id (fun y => y.stk == o.stk &&
      ((y.ord.isAcquire && !o.stk) || (o.writes && o.ord.isRelease) || overlaps y.loc y.size o.loc o.size)) &&
    !s.olderStore x o.id (fun e => e.stk == o.stk &&
      ((o.writes && o.ord.isRelease) || overlaps e.loc e.data.length o.loc o.size)) &&
    (o.stk || x.after.all (fun a => !decide (a.2 ≤ o.id)))) &&
  (!(o.rmt && o.ord.isAcquire) || s.canPromote (s.coreOf o.team) o.loc) &&
  (!o.writes || s.loads.all (fun y => !(y.instr == o.instr && decide (y.pos < o.pos) && overlaps y.loc y.size o.loc o.size)))

/-- The write that an access returns at one word: an atomic the last (R323), another read one that neither its threads'
order nor, for an acquire, the last scope-matched synchronising write leaves behind (R323, R324). -/
def State.loadWr (s : State) (o : LoadOp) (w : Loc) : Wr :=
  if o.writes || o.stk then s.lastWr w
  else
    let ts := s.threadsOf o.team o.dests
    let b := (ts.map (fun t => t.bound w o.id)).foldl Nat.max 0
    s.readWr w (if o.ord.isAcquire then Nat.max b (s.syncBound w o.scope o.rmt o.team (s.coreOf o.team)) else b)
      (ts.flatMap (fun t => t.readAfter w o.id)) o.id o.tid

/-- The writes that an access returns, word by word (R183). -/
def State.loadWrs (s : State) (o : LoadOp) : List Wr := (wordsAt o.loc o.size).map (s.loadWr o)

/-- The bytes that an access returns, as words. -/
def State.loadWords (s : State) (o : LoadOp) : List Word :=
  wordsOf ((((s.loadWrs o).flatMap (fun x => leBytes 4 x.val.toNat)).drop (o.loc.addr % 4)).take o.size)

/-- The 32 presence bits of PROBE from a line upward; a line that R166 refuses reports 1 (R179). -/
def State.probeWord (s : State) (l : Launch) (team a : Nat) : Word :=
  (List.range 32).foldl (fun w i =>
    let here := match s.scratch l team (a + 128 * i) 1 with
      | .ok x => !s.absent.contains x
      | .error _ => true
    if here then w ||| BitVec.ofNat 32 (2 ^ i) else w) 0#32

/-- What PROBE returns. -/
def State.probeValue (s : State) (o : LoadOp) : Word :=
  match (s.team? o.team).bind (fun t => s.launch? t.launch) with
  | some l => s.probeWord l o.team o.loc.addr
  | none => 0xFFFFFFFF#32

/-- A value set into the pending results that await it (R87). -/
def Thread.arrive (t : Thread) (id : Nat) (ws : List Word) : Thread :=
  { t with pend := updWhere (fun p => p.id == id) (fun p => { p with value := some (ws.take p.words) }) t.pend }

/-- What the landings in some lines order (R318, R321). -/
def State.lineView (s : State) (p : Loc → Bool) : View :=
  (s.lineViews.filter (fun x => p x.1)).foldl (fun v x => joinViews v x.2) []

/-- What a DONE word that has been copied into a line orders (R318, R321). -/
def State.noteLine (s : State) (l : Loc) (v : View) : State := { s with lineViews := (l, v) :: s.lineViews }

/-- What an access orders before the later accesses of its threads (R317, R318): an acquire the releases that it
synchronises with, a probe with acquire and a load that waited on an absent line what landed there. -/
def State.acquired (s : State) (o : LoadOp) (ws : List Wr) : View :=
  let syn := ws.flatMap (fun x => x.syncs.filter (fun y => y.matched x.loc o.scope o.rmt o.team (s.coreOf o.team)))
  let v := if o.ord.isAcquire && !o.probe then syn.foldl (fun v y => joinViews v y.view) [] else []
  if o.probe && o.ord.isAcquire then
    s.lineView (fun l => l.space == o.loc.space && decide (o.loc.addr ≤ l.addr ∧ l.addr < o.loc.addr + 4096) && !s.absent.contains l)
  else if o.waited then joinViews v (s.lineView (fun l => (linesOf o.loc o.size).contains l))
  else v

/-- The bytes that an atomic operation writes, from the words that it read (R175, R177). -/
def LoadOp.newBytes (o : LoadOp) (old : List Word) : Option (List Byte) :=
  match o.op with
  | some op => some ((bytesOfWords (aopNew op old o.data)).take o.size)
  | none => if o.cas && old == o.cmp then some ((bytesOfWords o.data).take o.size) else none

/-- An atomic's write, in memory and in the modification orders of its words. -/
def State.atomicWrite (s : State) (o : LoadOp) (bs : List Byte) : State :=
  let v := s.pushView o.loc bs.length
  let y : Sync := { team := o.team, core := s.coreOf o.team, scope := o.scope, access := o.ord.isRelease, host := false,
                    isDone := false, view := [] }
  let syncs := syncsOf (s.threadsOf o.team o.dests) o.id y o.ord.isRelease v
  let s := s.pushBytes o.loc bs (some y) syncs true
  s.modThreads o.team o.dests (fun t => t.wrote v (o.id + 1) true)

/-- The writes that access `id` of some threads has read are noted (R317, R323). -/
def State.noteRead (s : State) (team : Nat) (tids : List Nat) (id : Nat) (ws : List Wr) : State :=
  if ws.isEmpty then s
  else s.modThreads team tids (fun t =>
    t.saw ws id (t.xfcnt == 0 && t.tlcnt == 0 && !s.loads.any (fun o => o.team == team && o.dests.contains t.tid)))

/-- The access made: an atomic writes memory, a release of it tags its line even where CAS writes nothing (R181), what the
access orders is noted, the result arrives in the threads that take it, and the counter falls (R70, R168, R172 to R179, R317,
R323). -/
def State.loadMake (s : State) (o : LoadOp) : State :=
  let s := if o.rmt && o.ord.isAcquire then s.promote (s.coreOf o.team) o.loc else s
  let ws := if o.probe || o.stk then [] else s.loadWrs o
  let old := if o.probe then [s.probeValue o] else s.loadWords o
  let got := s.acquired o ws
  let own := match o.newBytes old with
    | some bs => s.pushView o.loc bs.length
    | none => []
  let s := match o.newBytes old with
    | some bs => s.atomicWrite o bs
    | none => s
  let s := s.tag o.loc o.team o.id (o.writes && o.ord.isRelease) o.scope
  let s : State := { s with loads := s.loads.filter (fun x => x.id != o.id) }
  let s := (s.noteRead o.team o.dests o.id ws).modThreads o.team o.dests (fun t =>
    let t := t.learn got (o.id + 1)
    if o.red then t.stDown else (t.arrive o.id old).ldDown)
  s.accessMade o.id (joinViews got own)

/-! ### Engine accesses (R187, R190, R314 to R318) -/

/-- The writes that an engine reads for operation `op` of some threads, as a relaxed access of them at DEVICE scope (R77,
R316): of scratch memory any writes that the order before the issue does not put behind others (R318, R323), the threads'
own stores binding them only under REL or a fence (R190); of other memory the last. -/
def State.engineWrs (s : State) (team : Nat) (tids : List Nat) (op : Nat) (rel : Bool) (l : Loc) (n : Nat) : List Wr :=
  let ts := s.threadsOf team tids
  (wordsAt l n).map (fun w => match l.space with
    | .main | .sys => s.lastWr w
    | _ => s.readWr w ((ts.map (fun t => t.engineBound w op rel)).foldl Nat.max 0)
        (ts.flatMap (fun t => t.readAfter w op)) op (tids.headD 0))

/-- The bytes that an engine reads. -/
def State.engineView (s : State) (team : Nat) (tids : List Nat) (op : Nat) (rel : Bool) (l : Loc) (n : Nat) : List Byte :=
  (((s.engineWrs team tids op rel l n).flatMap (fun x => leBytes 4 x.val.toNat)).drop (l.addr % 4)).take n

/-- An engine's read of some bytes is noted: of main and system memory only where the word has other writes that a read
may return, or releases that it carries (R317, R323). -/
def State.noteEngine (s : State) (team : Nat) (tids : List Nat) (op : Nat) (rel : Bool) (l : Loc) (n : Nat) : State :=
  s.noteRead team tids op ((s.engineWrs team tids op rel l n).filter (fun w => match l.space with
    | .main | .sys => !w.syncs.isEmpty
    | _ => true))

/-- A write that an engine makes for operation `op` of some threads: it stands after their earlier release fences (R316,
R317), and no later read returns an older write. -/
def State.engineWrite (s : State) (team : Nat) (tids : List Nat) (op : Nat) (l : Loc) (bs : List Byte) : State :=
  let v := s.pushView l bs.length
  let y : Sync := { team := team, core := s.coreOf team, scope := .device, access := false, host := false, isDone := false,
                    view := [] }
  match syncsOf (s.threadsOf team tids) op y false v with
  | [] => s.memWrite l bs
  | ys =>
    let s := s.pushBytes l bs none ys false
    { s with hist := s.hist.filter (fun w => !overlaps w.loc 4 l bs.length || v.contains (w.loc, w.stamp)) }

/-! ### Fences (R178, R317) -/

/-- A completed fence: a release stands before every later write, an acquire joins what its thread has read, and ENGINE
and ALL put the thread's stores before its later engine operations (R178, R190, R317). Earlier fences of its scope still
stand before the writes of engine operations that are outstanding. -/
def Thread.fenced (t : Thread) (r : FenceReq) (team : Nat) (core : Option Nat) : Thread :=
  let mem := r.kind != .engine
  let t := if mem && r.ord.isAcquire then
      (t.reads.filter (fun p => p.2.matched p.1 r.scope false team core)).foldl (fun t p => t.learn p.2.view r.before) t
    else t
  let idle := t.xfcnt == 0 && t.tlcnt == 0
  let t := if mem && r.ord.isRelease then
      { t with fences := { start := r.before, scope := r.scope, view := t.viewAt r.before } ::
          t.fences.filter (fun f => !idle || f.scope != r.scope) }
    else t
  if r.kind == .mem then t
  else { t with know := t.know.map (fun k =>
    if decide (k.start ≤ r.before) && k.engine.isNone then { k with engine := some r.before } else k) }

/-- An entry locks some byte from `lo` to `hi` (R169, R194). -/
def Lock.covers (k : Lock) (lo hi : Nat) : Bool :=
  decide (lo ≤ k.hi ∧ k.lo ≤ hi) &&
    !windowsCover (k.freed.map (fun r => { base := r.1, len := r.2 })) (Nat.max k.lo lo) (Nat.min k.hi hi + 1) k.freed.length

/-- The bytes overlap a range locked in the table of a core (R170, R288). -/
def State.locked (s : State) (core : Nat) (l : Loc) (n : Nat) : Bool :=
  match s.core? core with
  | none => false
  | some c => c.locks.any (fun k =>
      (match l.space with
        | .lsm team => !k.dsm && k.team == team
        | .dsm => k.dsm
        | _ => false) && k.covers l.addr (l.addr + n - 1))

end Sys2Proof.Machine
end

