-- ==== Sys2Proof/Machine/Rows.lean ====
section
/-! DEFINITION. The rows of main memory and who holds them (R253, R259 to R265): the place of every 256-byte unit, the
placement map of the restripe unit, the row that a bank unit works on, and the copies that wait at a neighbourhood. -/

namespace Sys2Proof.Machine

/-! ### Places (R250, R253, R260, R261) -/

/-- The bank, of 32, and the bank word of a byte of the physical LSM (R250). -/
def lsmBank (b : Nat) : Nat := b / 4 % 32
def lsmBankWord (b : Nat) : Nat := b / 128

/-- The slice, of 16, the bank in the slice and the line within the bank of an offset in a die's DSM (R253). -/
def dsmSlice (offset : Nat) : Nat := offset / 128 % 16
def dsmBank (offset : Nat) : Nat := offset / 128 / 16 % 22
def dsmBankLine (offset : Nat) : Nat := offset / 128 / 352

/-- The slice of the device that holds a DSM address (R11, R253). -/
def sliceOf (a : Nat) : Option Nat := (dsmDie a).map (fun d => 16 * d + dsmSlice (a - Config.dsmBase d))

/-- Where a 256-byte unit lies: neighbourhood, row and slot in the row (R259, R260). -/
structure UnitPlace where
  nb : Nat
  row : Nat
  slot : Nat
  deriving DecidableEq, Repr, Inhabited

/-- The place of a STRIPED byte's unit (R260). -/
def stripedPlace (pa : Nat) : UnitPlace :=
  let u := pa / 256
  let s := u / 384
  { nb := 4 * ((u % 384 + (149 * s) % 384) % 384) + s % 4, row := s / 32, slot := s / 4 % 8 }

/-- The neighbourhood of a STRIPED byte (R260). -/
def stripedNb (pa : Nat) : Nat := (stripedPlace pa).nb

/-- What follows the first element that satisfies `p`. -/
def afterFirst {α : Type} (p : α → Bool) : List α → List α
  | [] => []
  | x :: r => if p x then r else afterFirst p r

/-- Where a unit lies whose place of R260 is `p`, and the gathered lines whose exchanges have moved it: a row taken by a
gathered line gave its eight units to the eight slots that the line left (R261). A line gathered again with another G leaves
its old row to the units of the new one, while those of the old row stay in the slots that the line left before (R202; DESIGN
CHOICE, log entry 21). -/
def displaced (map : List Placed) (p : UnitPlace) : Nat → UnitPlace × List Nat
  | 0 => (p, [])
  | k + 1 =>
    match map.find? (fun e => ((e.nb, e.row) :: e.rowsLeft).contains (p.nb, p.row)) with
    | some e =>
      (match afterFirst (fun r => r == (p.nb, p.row)) ((e.nb, e.row) :: e.rowsLeft) with
        | r :: _ => ({ nb := r.1, row := r.2, slot := p.slot }, [e.line])
        | [] =>
          let q := displaced map (stripedPlace (e.line * 2048 + 256 * p.slot)) k
          (q.1, e.line :: q.2))
    | none => (p, [])

/-- The place of the unit that holds a byte of main memory, and the gathered lines whose exchanges have moved it (R260,
R261). -/
def State.unitMoved (s : State) (pa : Nat) : UnitPlace × List Nat :=
  match s.placement.find? (fun e => e.line == pa / 2048) with
  | some e => ({ nb := e.nb, row := e.row, slot := pa / 256 % 8 }, [])
  | none => displaced s.placement (stripedPlace pa) (s.placement.length + 1)
def State.unitPlace (s : State) (pa : Nat) : UnitPlace := (s.unitMoved pa).1

/-- The neighbourhood that holds a byte of main memory. -/
def State.nbOf (s : State) (pa : Nat) : Nat := (s.unitPlace pa).nb

/-- The lowest row of a neighbourhood that no gathered line has or has left (R261, R262: which row is the unit's choice, log
entry 22). -/
def State.freeRow (s : State) (nb : Nat) : Nat :=
  let used := s.placement.flatMap (fun e => (e.nb, e.row) :: e.rowsLeft)
  ((List.range (used.length + 1)).find? (fun r => !used.contains (nb, r))).getD 0

/-- The valid region entry that covers a physical address (R287). -/
def State.regionAt (s : State) (pa : Nat) : Option Region :=
  s.regions.find? (fun r => decide (r.pbase ≤ pa ∧ pa < r.pbase + 2048 * r.len))

/-- G of a G code (R201). -/
def gOf (code : Nat) : Nat := 2 ^ code

/-- The neighbourhood of line `j` of a gathered region (R261). -/
def gatheredNb (first gc j : Nat) : Nat := (first + j / gOf gc) % 1536

/-- The byte lies in the transit buffer: in the line in transit, or in a unit that its exchange moves, which lies in the row
that the line takes, or which the exchanges undone had moved (R262). -/
def State.buffered (s : State) (pa : Nat) : Bool :=
  match s.transit with
  | none => false
  | some m =>
    pa / 2048 == m.line ||
    (let u := s.unitMoved pa
     if m.gathered then u.1.nb == m.nb && u.1.row == m.row else u.2.contains m.line)

/-! ### The row of a command (R199, R263) -/

/-- The ranges of main memory that a command reads or writes. -/
def BankCmd.ranges (b : BankCmd) : List (Nat × Nat) :=
  match b.kind with
  | .add _ | .max _ => [(b.y, b.bytes)]
  | .axpy _ => [(b.y, b.bytes), (b.x, b.bytes)]
  | .step _ => [(b.y, 8192)]

/-- Address of the `i`-th aligned 32-byte sector that the command writes back (R265). -/
def BankCmd.sectorAddr (b : BankCmd) (i : Nat) : Nat := b.y / 32 * 32 + 32 * i

/-- Sectors that the command writes back: of its element operand, of its n lines, or of LW, LM and LV, and of LG
where it is cleared (R197). -/
def BankCmd.sectorCount (b : BankCmd) : Nat :=
  match b.kind with
  | .add _ | .max _ => (b.bytes + 31) / 32
  | .axpy _ => b.bytes / 32
  | .step zg => if zg then 256 else 192

/-- Sector `i` lies in row `r` of the rows that the command writes back. -/
def BankCmd.inRow (b : BankCmd) (r i : Nat) : Bool := b.sectorAddr i / 2048 == b.y / 2048 + r

/-- The rows that the command writes back. -/
def BankCmd.rowCount (b : BankCmd) : Nat :=
  (List.range b.sectorCount).foldl (fun m i => Nat.max m (b.sectorAddr i / 2048 - b.y / 2048 + 1)) 0

/-- Every sector of row `r` has been written back. -/
def BankCmd.rowDone (b : BankCmd) (r : Nat) : Bool :=
  (List.range b.sectorCount).all (fun i => !b.inRow r i || b.sectors.contains i)

/-- The lines whose contents the open row `r` of a command works on: of NMSTEP all four, whose elements are each written
as one update (R197), of NMAXPY the line of y and the line of x. -/
def BankCmd.workLines (b : BankCmd) (r : Nat) : List Nat :=
  match b.kind with
  | .add _ | .max _ => [b.y / 2048]
  | .axpy _ => [b.y / 2048 + r, b.x / 2048 + r]
  | .step _ => (List.range 4).map (fun i => b.y / 2048 + i)

/-- The command that runs in a unit. -/
def BankUnit.head (u : BankUnit) : Option BankCmd := if u.running then u.queue.head? else none

/-- The line of an address is one that the command writes back. -/
def BankCmd.writesLine (b : BankCmd) (pa : Nat) : Bool :=
  decide (b.y / 2048 ≤ pa / 2048) && decide (pa / 2048 - b.y / 2048 < b.rowCount)

/-- The command has computed what all its rows take: an NMSTEP, once it has opened the first (R197). -/
def BankUnit.computed (u : BankUnit) (b : BankCmd) : Bool :=
  match b.kind with
  | .step _ => decide (0 < u.mpc)
  | _ => false

/-- A command in progress works on the row of an address, or keeps the results for it, and has not yet written it back (R199,
R264). -/
def State.rowBusy (s : State) (pa : Nat) : Bool :=
  s.bankUnits.any (fun u =>
    match u.head with
    | none => false
    | some b =>
      (u.rowOpen && (b.workLines u.mpc).contains (pa / 2048) && !(b.writesLine pa && b.rowDone (pa / 2048 - b.y / 2048))) ||
      (u.computed b && b.writesLine pa && !b.rowDone (pa / 2048 - b.y / 2048)))

/-! ### Copies that wait at a neighbourhood (R263, R264) -/

/-- The unit of a neighbourhood. -/
def State.unit (s : State) (nb : Nat) : BankUnit :=
  (s.bankUnits.find? (fun u => u.nb == nb)).getD
    { nb := nb, queue := [], running := false, windowOpen := false, suspended := false, waits := [], mpc := 0,
      rowOpen := false, acc := [], refreshes := 0 }

def State.modUnit (s : State) (nb : Nat) (f : BankUnit → BankUnit) : State :=
  { s with bankUnits := f (s.unit nb) :: s.bankUnits.filter (fun u => u.nb != nb) }

/-- A copy line operation that has arrived is still to be served. -/
def State.lineLives (s : State) (w : Nat × Nat) : Bool :=
  s.dones.any (fun d => d.id == w.1) ||
  s.xfers.any (fun o => o.id == w.1 && o.moves.any (fun m => m.line == w.2 && !m.landed))

/-- The copies that wait at a neighbourhood, in order of arrival. -/
def State.waitsAt (s : State) (nb : Nat) : List (Nat × Nat) := (s.unit nb).waits.filter s.lineLives

/-- A copy line operation that is ready has to wait at the neighbourhood: a command runs there, or another copy has
arrived before it (R263, R264). -/
def State.copyHeld (s : State) (nb : Nat) (w : Nat × Nat) : Bool :=
  ((s.unit nb).running && !(s.unit nb).suspended) ||
  (match s.waitsAt nb with
    | [] => false
    | x :: _ => x != w)

/-- A copy line operation arrives at a neighbourhood where it has to wait (R264). -/
def State.copyArrives (s : State) (nb : Nat) (w : Nat × Nat) : State :=
  if (s.unit nb).waits.contains w then s else s.modUnit nb (fun u => { u with waits := u.waits ++ [w] })

/-- The head command of an idle unit starts, unless copies wait there: its window opens (R263, R264). -/
def State.startUnit (s : State) (nb : Nat) : State :=
  let u := s.unit nb
  if u.running || u.queue.isEmpty || !(s.waitsAt nb).isEmpty then s
  else s.modUnit nb (fun u => { u with running := true, windowOpen := true, suspended := false, mpc := 0, rowOpen := false, acc := [] })

/-- A copy line operation has been served at a neighbourhood (R264). -/
def State.copyServed (s : State) (nb : Nat) (w : Nat × Nat) : State :=
  if s.bankUnits.all (fun u => u.nb != nb) then s
  else (s.modUnit nb (fun u => { u with waits := u.waits.filter (fun x => x != w) })).startUnit nb

/-- The neighbourhoods among whose copies a line operation counts. -/
def State.waitedAt (s : State) (w : Nat × Nat) : List Nat := (s.bankUnits.filter (fun u => u.waits.contains w)).map (·.nb)

/-- A bank unit runs a command and holds a neighbourhood with its window (R263). -/
def State.windowHolds (s : State) (nb : Nat) : Bool :=
  s.bankUnits.any (fun u => u.nb == nb && u.running && u.windowOpen && !u.suspended)

/-! ### Request slots (R275) -/

/-- The 256-byte unit of a move's main or system side (R186). -/
def Move.unit (m : Move) : Option Loc :=
  match m.src.space, m.dst.space with
  | .main, _ | .sys, _ => some { m.src with addr := m.src.addr / 256 }
  | _, .main | _, .sys => some { m.dst with addr := m.dst.addr / 256 }
  | _, _ => none

/-- A watchpoint holds the lane of the thread in an operation (R343). -/
def XferOp.watchHeld (o : XferOp) (tid : Nat) : Bool := o.held.any (fun h => h.watch && h.tid == tid)

/-- Slots of the lanes of a copy that wait for a translation: one for each 256-byte unit of its main or system side, whose
virtual address lies in `va` of a held lane (R186, R275). -/
def heldVas (va : Held → Nat) (hs : List Held) : Nat :=
  (((hs.filter (fun h => !h.watch)).map (fun h => va h / 256)).dedup).length

/-- Slots that the held lanes of an operation took at issue and keep until their fault record is entered (R275). -/
def XferOp.heldSlots (o : XferOp) : Nat :=
  match o.kind with
  | .cpy _ d => heldVas (fun h => if d == .m2s || d == .sys2s then h.srcVa.getD 0 else h.dstVa.getD 0) o.held
  | .cpymc _ _ _ => heldVas (fun h => h.srcVa.getD 0) o.held
  | .bank => (o.held.filter (fun h => !h.watch)).length
  | _ => (o.rsParts.filter (·.held)).length

/-- Slots that an operation holds: a line operation, a command or a conversion each; a held lane holds none once its
fault record has been entered (R275, R338). -/
def State.slotsOf (s : State) (o : XferOp) : Nat :=
  (if s.faultsWaiting.any (fun f => f.op == some o.id) then o.heldSlots else 0) +
  ((o.moves.filter (fun m => !m.landed && !o.watchHeld m.tid)).filterMap Move.unit).dedup.length +
  (s.waitingCmds.filter (fun b => b.op == o.id && !o.watchHeld b.tid)).length +
  (o.rsParts.filter (fun r => !r.held)).length

/-- Free slots of a core, of 1,024. -/
def State.freeSlots (s : State) (core : Nat) : Nat :=
  Config.requestSlots - ((s.xfers.filter (fun o => o.core == core)).map (fun o => s.slotsOf o)).sum -
    (s.dones.filter (fun d => d.core == core && d.slot)).length

end Sys2Proof.Machine
end

