-- ==== Sys2Proof/Machine/Life.lean ====
section
/-! DEFINITION. The life of threads, operations and teams: barrier arrivals and releases, completion of an
operation, exit and retirement, killing a team, and taking a trap (R139 to R151, R168, R189, R334 to R337). -/

namespace Sys2Proof.Machine

/-- The numbers of R332. -/
def Cause.code : Cause → Nat
  | .illegalOp => 0x01 | .illegalOperand => 0x02 | .illegalClause => 0x03 | .priv => 0x04
  | .misalign => 0x05 | .scratchRange => 0x06 | .rangeLock => 0x07 | .pageFatal => 0x09
  | .protection => 0x0A | .regionState => 0x0B | .nmUnaligned => 0x0C | .barrierBusy => 0x0D
  | .barrierState => 0x0E | .syncMask => 0x0F | .joinDepth => 0x10 | .tileConfig => 0x11
  | .tileBusy => 0x12 | .accRange => 0x13 | .convertLimit => 0x14 | .watchdog => 0x15
  | .stackOverflow => 0x16 | .launchError => 0x17 | .spawnFull => 0x18 | .quorumStale => 0x19
  | .cadenceError => 0x1A | .multicastState => 0x1B | .watchpoint => 0x1C | .breakpoint => 0x1D
  | .trap => 0x1E

/-! ### Presence, locks and barriers -/

/-- Some outstanding operation still holds the line absent (R168). -/
def State.lineHeld (s : State) (l : Loc) : Bool :=
  s.xfers.any (fun o => o.cleared.contains l || o.parts.any (fun p => p.cleared.contains l)) ||
  s.tileOps.any (fun o => o.cleared.contains l)

/-- Presence bits set again on the lines that no outstanding operation holds (R168, R189). -/
def State.freeLines (s : State) (ls : List Loc) : State :=
  { s with absent := s.absent.filter (fun l => !ls.contains l || s.lineHeld l) }

/-- Presence bits cleared (R187). -/
def State.clearLines (s : State) (ls : List Loc) : State :=
  { s with absent := s.absent ++ (ls.filter (fun l => !s.absent.contains l)).dedup }

/-- The lock entries of an operation are freed, on every core and in saved teams (R169, R288). -/
def State.freeLocks (s : State) (op : Nat) : State :=
  { s with cores := updWhere (fun c => c.locks.any (fun k => k.op == op))
             (fun c => { c with locks := c.locks.filter (fun k => k.op != op) }) s.cores,
           teams := updWhere (fun t => t.savedLocks.any (fun k => k.op == op))
             (fun t => { t with savedLocks := t.savedLocks.filter (fun k => k.op != op) }) s.teams }

/-- PEND has reached 0: the phase completes in one step (R147). What the arrived threads had ordered before their BARV,
and what the arrived operations order, comes before the accesses of the threads released now, and of those that pass
later (R151, R318, R319). -/
def State.completePhase (s : State) (team b : Nat) : State :=
  match s.team? team with
  | none => s
  | some t =>
    let ord := (t.bar b).arr.map (fun a => s.orderedBefore team a.1 a.2)
    let v := ord.foldl (fun v o => joinViews v o.1) (t.bar b).view
    let ids := (ord.flatMap (·.2)).dedup
    let s := s.modTeam team (fun t => t.modBar b (fun x =>
      { x with ph := !x.ph, pend := x.exp, arr := [], view := [], lastView := v, lastAfter := ids }))
    let s := s.mapThreads (fun t => t.team == team && t.waitsB b) (fun t => t.follow v ids s.nextId)
    s.releaseBar team b true

/-- `n` arrivals in one step, at most PEND (R147). -/
def State.arriveBar (s : State) (team b n : Nat) : State :=
  match s.team? team with
  | none => s
  | some t =>
    if !(t.bar b).valid then s
    else
      let s := s.modTeam team (fun t => t.modBar b (fun x => { x with pend := x.pend - n }))
      if (t.bar b).pend ≤ n then s.completePhase team b else s

/-- The arrival of a completed operation: CPEND falls with it, unless it has been detached (R147, R148). -/
def State.arriveOp (s : State) (team : Nat) (bar : Option Nat) (arrives : Bool) (v : View := []) : State :=
  match bar with
  | some b =>
    if arrives then
      (s.modTeam team (fun t => t.modBar b (fun x =>
        { x with cpend := x.cpend - 1, view := joinViews x.view v }))).arriveBar team b 1
    else s
  | none => s

/-- An XFER operation has nothing left to do (R189, R194, R203). -/
def XferOp.finished (o : XferOp) : Bool :=
  o.moves.all (fun m => m.landed) && o.held.isEmpty && o.parts.all (fun p => p.done) &&
    o.rsParts.isEmpty && o.waits.isEmpty

/-- QPOST, QSYNC and AMSG arrive once for each part, as their parts complete (R227, R229, R231). -/
def XferKind.perPart : XferKind → Bool
  | .qpost | .qsync | .amsg => true
  | _ => false

/-- What a completed operation orders before a header that waits for it (R318, R321). -/
def Thread.ended (t : Thread) (v : View) : Thread := { t with xfView := joinViews t.xfView v }

/-- What an access of a grid orders before its DONE write (R321). -/
def State.gridEnded (s : State) (team : Nat) (v : View) : State :=
  if v.isEmpty then s
  else
    match s.team? team with
    | some t => s.modLaunch t.launch (fun l => { l with ended := joinViews l.ended v })
    | none => s

/-- Completion of an XFER operation in one step (R189): XFCNT, presence bits, locks and the arrival. -/
def State.finishXfer (s : State) (o : XferOp) : State :=
  let s : State := { s with xfers := s.xfers.filter (fun x => x.id != o.id) }
  let s := s.modThreads o.team o.counted (fun t => t.xfDown.ended o.view)
  let s := s.freeLines o.cleared
  let s := s.freeLocks o.id
  let s := s.gridEnded o.team o.view
  let s := match o.kind with
    | .cpymc _ g _ => { s with mcast := updWhere (fun m => m.id == g) (fun m => { m with outst := m.outst - 1 }) s.mcast }
    | _ => s
  if o.kind.perPart then s else s.arriveOp o.team o.bar o.arrives o.view

/-- The operation completes if nothing of it is left; NMFENCE completes by its own event (R200). -/
def State.checkXfer (s : State) (id : Nat) : State :=
  match s.xfer? id with
  | none => s
  | some o => if o.kind != .nmfence && o.finished then s.finishXfer o else s

/-- The scratch places among some ranges. -/
def scratchOnly (ls : List (Loc × Nat)) : List (Loc × Nat) :=
  ls.filter (fun p => match p.1.space with
    | .lsm _ | .dsm => true
    | _ => false)

/-- The hull of one memory's ranges as a lock entry. -/
def hullLock (op team : Nat) (dsm dest : Bool) (ls : List (Loc × Nat)) : Option Lock :=
  match ls.filter (fun p => (p.1.space == .dsm) == dsm) with
  | [] => none
  | p :: r => some {
      op := op, dsm := dsm, dest := dest, team := team,
      lo := r.foldl (fun m q => Nat.min m q.1.addr) p.1.addr,
      hi := r.foldl (fun m q => Nat.max m (q.1.addr + q.2 - 1)) (p.1.addr + p.2 - 1), freed := [] }

/-- A byte range without another, as bases and lengths. -/
def cutRange (x w : Nat × Nat) : List (Nat × Nat) :=
  [(w.1, Nat.min (w.1 + w.2) x.1 - w.1), (Nat.max w.1 (x.1 + x.2), w.1 + w.2 - Nat.max w.1 (x.1 + x.2))].filter (fun r => r.2 != 0)

/-- The lock entries of an operation for one side once the ranges `read` are given up: an entry spans those in `left`, and no
longer locks the bytes of the others. -/
def shrinkLocks (op team : Nat) (dest : Bool) (left read : List (Loc × Nat)) (ks : List Lock) : List Lock :=
  ks.filterMap (fun k =>
    if k.op != op then some k
    else
      let here := fun (ls : List (Loc × Nat)) =>
        ((scratchOnly ls).filter (fun p => (p.1.space == .dsm) == k.dsm)).map (fun p => (p.1.addr, p.2))
      (hullLock op team k.dsm dest (scratchOnly left)).map (fun h =>
        { h with freed := (here left).foldl (fun fs x => fs.flatMap (cutRange x)) (k.freed ++ here read) }))

/-- The same in the tables of the cores and of saved teams (R288). -/
def State.shrinkOp (s : State) (op team : Nat) (dest : Bool) (left read : List (Loc × Nat)) : State :=
  { s with
    cores := updWhere (fun c => c.locks.any (fun k => k.op == op))
      (fun c => { c with locks := shrinkLocks op team dest left read c.locks }) s.cores,
    teams := updWhere (fun t => t.savedLocks.any (fun k => k.op == op))
      (fun t => { t with savedLocks := shrinkLocks op team dest left read t.savedLocks }) s.teams }

/-- Twice the bytes of an element (R206). -/
def Fmt.halfBytes : Fmt → Nat
  | .q4 => 1
  | .e4 | .e5 | .int8 | .nat8 => 2
  | .b16 | .h16 => 4
  | .f32 => 8

/-- Bytes of the converted block of ACCCVT (R222). -/
def cvtBytes (f : Fmt) : Nat := 512 * Fmt.halfBytes f

/-- The destination of an action that is one of several under the locks of one instruction (R222). -/
def TileAct.dest (a : TileAct) : List (Loc × Nat) :=
  match a with
  | .acccvt f _ _ _ dst _ => [(dst, cvtBytes f)]
  | _ => []

/-- Completion of a TILE operation in one step: TLCNT, presence bits, its locks and the arrival (R189, R208, R214 to R222). An
action of an instruction of which others are left frees its own destination. -/
def State.finishTile (s : State) (o : TileOp) : State :=
  let s : State := { s with tileOps := s.tileOps.filter (fun x => x.id != o.id) }
  let s := s.modThreads o.team o.counted Thread.tlDown
  let s := s.freeLines o.cleared
  let left := s.tileOps.filter (fun x => x.instr == o.instr)
  let s := if left.isEmpty then s.freeLocks o.instr
    else s.shrinkOp o.instr o.team true (left.flatMap (fun x => x.act.dest)) o.act.dest
  s.arriveOp o.team o.bar o.arrives

/-- A complete SYNCM record releases its threads; what they had ordered before it comes before their later accesses
(R145, R319). -/
def State.checkSyncm (s : State) (team role idx : Nat) : State :=
  match s.hg? team role idx with
  | none => s
  | some g =>
    if g.syncM != 0#64 && (g.syncM &&& ~~~g.syncA) == 0#64 then
      let waits := fun (t : Thread) => t.inHg team role idx && t.status == .parked .syncm
      let ord := (s.threads.filter waits).map (fun t => s.orderedBefore team t.tid s.nextId)
      let v := ord.foldl (fun v o => joinViews v o.1) []
      let s := s.mapThreads waits (fun t => t.follow v (ord.flatMap (·.2)).dedup s.nextId)
      let s := s.modHg team role idx (fun g => { g with syncM := 0#64, syncA := 0#64 })
      let s := s.mapThreads waits (fun t => t.fallThrough s.clk)
      s.modTeam team Team.progress
    else s

/-! ### Leaving a port -/

/-- Threads leave the groups that hold them; an empty group frees its port (R27). -/
def Group.without (g : Group) (team : Nat) (tids : List Nat) : Option Group :=
  if g.team == team then
    let m := g.members.filter (fun t => !tids.contains t)
    if m.isEmpty then none else some { g with members := m }
  else some g

def Port.without (p : Port) (team : Nat) (tids : List Nat) : Port :=
  match p.group with
  | none => p
  | some g =>
    match g.without team tids with
    | none => { p with group := none, tile := none, stripe := [] }
    | some g => { p with group := some g }

/-- The threads leave every port and every group that waits as a whole. -/
def State.unseat (s : State) (team : Nat) (tids : List Nat) : State :=
  { s with cores := s.cores.map (fun c => { c with
      port0 := c.port0.without team tids, port1 := c.port1.without team tids,
      waiting := c.waiting.filterMap (fun g => g.without team tids) }) }

/-! ### Retirement -/

/-- Something of the thread is outstanding (R139), an accepted command too: a grid's accesses come before its DONE write
(R321). -/
def State.threadBusy (s : State) (t : Thread) : Bool :=
  !(s.storesOf t).isEmpty || s.loads.any (fun o => o.team == t.team && o.dests.contains t.tid) ||
  s.bankUnits.any (fun u => u.queue.any (fun b => b.team == t.team && b.tids.contains t.tid)) ||
  s.xfers.any (fun o => o.team == t.team && o.tids.contains t.tid) ||
  s.tileOps.any (fun o => o.team == t.team && (o.tid == t.tid || o.counted.contains t.tid)) ||
  s.tlbinvs.any (fun o => o.team == t.team && o.tids.contains t.tid)

/-- A part of a sampled instruction is outstanding. -/
def State.partOpen (s : State) (id : Nat) : Bool :=
  s.loads.any (fun o => o.id == id) || s.xfers.any (fun o => o.id == id) ||
  s.tileOps.any (fun o => o.id == id) ||
  s.threads.any (fun t => t.stores.any (fun e => e.sid == id && !e.atLeast e.target))

/-- Sampled instructions whose last participant has completed write their MEMS record (R310). -/
def State.flushSamples (s : State) : State :=
  if s.cores.all (fun c => c.samples.isEmpty) then s
  else s.cores.foldl (fun (s : State) (c : Core) =>
    let upd := c.samples.map (fun x =>
      match x.ids.filter (fun p => !s.partOpen p.1) with
      | [] => x
      | gone => { x with ids := x.ids.filter (fun p => s.partOpen p.1),
                         last := if x.returns then (gone.getLast?.map (·.2)).getD x.last else 0xFF })
    let s := s.modCore c.id (fun c => { c with samples := upd.filter (fun x => !x.ids.isEmpty) })
    (upd.filter (fun x => x.ids.isEmpty)).foldl (fun (s : State) (x : Sample) =>
      match s.team? x.team with
      | none => s
      | some t =>
        let s' := s.trace c.id 4 (s.threadName t x.tid ++ leBytes 8 x.pc.toNat ++ leBytes 1 x.parts ++
          leBytes 2 x.lines ++ leBytes 1 x.replays ++ leBytes 8 (Config.freeWait s.freeCount).toNat ++
          leBytes 1 x.last ++ [0#8])
        { s' with freeCount := s.freeCount + 1 }) s) s

/-- Home groups whose threads have all exited, with nothing outstanding, retire (R139): PATH is written, of a saved team by
the core that it was placed on last (log entry 11), and the watchdog counter is reset (R302, R306, R309). -/
def State.retireGroups (s : State) : State :=
  (s.groups.filter (fun g => !g.retired)).foldl (fun s g =>
    let ts := s.threads.filter (fun t => t.inHg g.team g.role g.idx)
    if ts.all (fun t => t.hasExited && !s.threadBusy t) then
      let s := s.modHg g.team g.role g.idx (fun g => { g with retired := true })
      let s := s.modTeam g.team Team.progress
      match s.team? g.team with
      | none => s
      | some t =>
        s.trace (t.core?.getD t.lastCore) 3 (s.threadName t ((ts.map (·.tid)).foldl Nat.min ((ts.map (·.tid)).headD 0)) ++
          leBytes 8 g.psig.toNat)
    else s) s

/-- The places of some bytes through an ASID in writable pages of either memory, or none (R269). -/
def State.virtPlaces (s : State) (asid va : Nat) : Nat → Option (List Loc)
  | 0 => some []
  | n + 1 =>
    if va ≥ 2 ^ 57 then none
    else
      match s.walk asid va with
      | .page sys true _ pa => (s.virtPlaces asid (va + 1) n).map (fun r => ⟨if sys then .sys else .main, pa⟩ :: r)
      | _ => none

/-- The launch is the running grid of the Cadence table (R295). -/
def State.isRunningGrid (s : State) (key : Nat) : Bool :=
  match s.cadence.running with
  | some r => r.launch == key
  | none => false

/-- The DONE write of a launch leaves as a copy line operation with a slot of the core that its last team ran on
(R269, R275), or is dropped with a type-10 event. Its line operation completes as any other. -/
def State.queueDone (s : State) (l : Launch) (core : Nat) : State :=
  if l.doneVa == 0#64 then s
  else
    match s.virtPlaces l.asid l.doneVa.toNat 4 with
    | some ps =>
      let used := (s.leafKeys none l.asid ((List.range 4).map (fun i => l.doneVa.toNat + i))).dedup
      let d : DoneWrite := { id := s.nextId, core := core, slot := decide (0 < s.freeSlots core),
                             bytes := ps.zip (leBytes 4 l.ident.toNat), view := joinViews l.view l.ended,
                             asid := l.asid, used := used }
      { s.bumpId with dones := s.dones ++ [d] }
    | none => s.postEvent 10 (leBytes 4 l.ident.toNat ++ leBytes 8 l.doneVa.toNat)

/-- The neighbourhoods of main memory among a DONE write's bytes. -/
def State.doneNbs (s : State) (d : DoneWrite) : List Nat :=
  ((d.bytes.filter (fun p => p.1.space == .main && !s.buffered p.1.addr)).map (fun p => s.nbOf p.1.addr)).dedup

/-- Bytes with their places as runs of adjoining places. -/
def byteRuns (bs : List (Loc × Byte)) : List (Loc × List Byte) :=
  bs.foldr (fun p rs => match rs with
    | r :: q => if r.1 == { p.1 with addr := p.1.addr + 1 } then (p.1, p.2 :: r.2) :: q else (p.1, [p.2]) :: rs
    | [] => [(p.1, [p.2])]) []

/-- A DONE write's line operation (R269): it takes a slot where it has none, waits for the rows of its bytes (R199, R263,
R264), and then writes, which a later observer of the identifier has behind it (R321). -/
def State.doneLine (s : State) (id : Nat) : State :=
  match s.dones.find? (fun d => d.id == id) with
  | none => s
  | some d =>
    let held := (s.doneNbs d).filter (fun nb => s.copyHeld nb (id, 0))
    if !d.slot then
      if 0 < s.freeSlots d.core then { s with dones := updWhere (fun x => x.id == id) (fun x => { x with slot := true }) s.dones } else s
    else if !held.isEmpty then held.foldl (fun (s : State) nb => s.copyArrives nb (id, 0)) s
    else if d.bytes.any (fun p => p.1.space == .main && s.rowBusy p.1.addr && !s.buffered p.1.addr) then s
    else
      let nbs := s.doneNbs d
      let y : Sync := { team := 0, core := none, scope := .system, access := true, host := true, isDone := true, view := d.view }
      let s : State := { s with dones := s.dones.filter (fun x => x.id != id) }
      let s := (byteRuns d.bytes).foldl (fun (s : State) p => s.pushBytes p.1 p.2 (some y) [y] false) s
      nbs.foldl (fun (s : State) nb => s.copyServed nb (id, 0)) s

/-- A launch of which nothing is left completes (R139, R269); `core` is that of its last team. -/
def State.completeLaunch (s : State) (l : Launch) (core : Nat) : State :=
  let s := s.queueDone l core
  if s.isRunningGrid l.key then s.modLaunch l.key (fun l => { l with phase := .done })
  else { s with launches := s.launches.filter (fun x => x.key != l.key) }

/-- Teams of which nothing is left retire and free what they held; grids whose teams have all retired
complete (R139). -/
def State.retireTeams (s : State) : State :=
  let gone := s.teams.filter (fun t =>
    s.groups.all (fun g => g.team != t.key || g.retired) &&
    t.savedBins.all (fun b => b.items.isEmpty) &&
    s.cores.all (fun c => c.bins.all (fun b => b.team != t.key || b.items.isEmpty)) &&
    s.xfers.all (fun o => o.team != t.key) && s.tileOps.all (fun o => o.team != t.key))
  if gone.isEmpty then s
  else
    let keys := gone.map (·.key)
    let ended := fun (k : Nat) => (s.threads.filter (fun x => gone.any (fun t => t.key == x.team && t.launch == k))).foldl
      (fun v x => joinViews v (x.viewAt s.nextId)) []
    let s : State := { s with
      teams := s.teams.filter (fun t => !keys.contains t.key),
      groups := s.groups.filter (fun g => !keys.contains g.team),
      threads := s.threads.filter (fun t => !keys.contains t.team),
      launches := s.launches.map (fun l => { l with
        retired := l.retired + (gone.filter (fun t => t.launch == l.key)).length, ended := joinViews l.ended (ended l.key) }) }
    (s.launches.filter (fun l => l.phase == .running && l.pending.isEmpty &&
      s.teams.all (fun t => t.launch != l.key))).foldl (fun s l =>
        s.completeLaunch l (((gone.filter (fun t => t.launch == l.key)).getLast?.map (·.lastCore)).getD 0)) s

/-- Whatever has nothing left retires (R139), and the trace records that this makes are written. -/
def State.settle (s : State) : State := s.flushSamples.retireGroups.retireTeams

/-- The watchdog's handler has ended for the last thread of the team (R303). -/
def State.endWdog (s : State) (team : Nat) : State :=
  match s.team? team with
  | none => s
  | some t =>
    if t.wdogHandling && s.threads.all (fun x => x.team != team || x.hasExited ||
        !((x.inHandler && x.tcause == 0x15) || x.wdogDue ||
          (match x.entering with
            | some i => i.cause == .watchdog
            | none => false))) then
      s.modTeam team (fun t => { t with wdogHandling := false, wdog := 0 })
    else s

/-- The entries of one side of an instruction: one for its LSM bytes and one for its DSM bytes (R169). -/
def sideLocks (op team : Nat) (dest : Bool) (ls : List (Loc × Nat)) : List Lock :=
  [false, true].filterMap (fun d => hullLock op team d dest (scratchOnly ls))

/-- Bytes of a command's scratch source (R194). -/
def BankCmd.srcLen (b : BankCmd) : Nat :=
  match b.kind with
  | .add _ | .max _ => b.bytes
  | .axpy _ => 0
  | .step _ => 64

/-- The scratch sources that a bank-unit instruction has still to read, held participants' among them. -/
def State.unreadSources (s : State) (o : XferOp) : List (Loc × Nat) :=
  (s.waitingCmds.filter (fun b => b.op == o.id && decide (4 * b.early.length < b.srcLen))).filterMap (fun b => b.srcLoc.map (fun l => (l, b.srcLen))) ++
  (o.held.filter (fun h => !h.watch)).filterMap (fun h => h.cmd.bind (fun b => h.src.map (fun l => (l, b.srcLen))))

/-- The source locks of a bank-unit instruction once the sources `read` are read or given up: the entry spans those still
to be read, and no longer locks the bytes of the others (R194, R357). -/
def State.bankLocks (s : State) (op : Nat) (read : List (Loc × Nat)) : State :=
  match s.xfer? op with
  | none => s
  | some o =>
    match o.kind with
    | .bank => s.shrinkOp op o.team false (s.unreadSources o) read
    | _ => s

/-- The operation holds a lane of the thread (R338, R343). -/
def XferOp.holds (o : XferOp) (tid : Nat) : Bool :=
  o.held.any (fun h => h.tid == tid) || o.rsParts.any (fun r => r.held && r.tid == tid)

/-- Bytes of a lane of a copy (R184). -/
def XferKind.laneBytes : XferKind → Nat
  | .cpy n _ | .cpymc n _ _ => n
  | _ => 4

/-- Lines that an operation has nothing more to write to become present (R168). -/
def State.landLines (s : State) (op : Nat) : State :=
  match s.xfer? op with
  | none => s
  | some o =>
    let open_ := fun (l : Loc) => o.moves.any (fun m => !m.landed && lineOf m.dst == l) ||
      o.held.any (fun h => match h.dst with
        | some d => (match o.kind with
          | .cpymc _ _ ts => ts.any (fun t => (linesOf { space := .lsm t, addr := d.addr } o.kind.laneBytes).contains l)
          | _ => (linesOf d o.kind.laneBytes).contains l)
        | none => false)
    let done := o.cleared.filter (fun l => !open_ l)
    (s.modXfer op (fun o => { o with cleared := o.cleared.filter open_ })).freeLines done

/-- XFCNT falls for the participants whose own bytes have all landed (R189). -/
def State.landCounts (s : State) (op : Nat) : State :=
  match s.xfer? op with
  | none => s
  | some o =>
    let copies := match o.kind with
      | .cpy _ _ | .cpymc _ _ _ => true
      | _ => false
    let busy := fun t => !copies || o.moves.any (fun m => !m.landed && (m.tid == t || o.uni)) || o.holds t || (o.uni && !o.held.isEmpty)
    let done := o.counted.filter (fun t => !busy t)
    (s.modThreads o.team done (fun t => t.xfDown.ended o.view)).modXfer op (fun o => { o with counted := o.counted.filter busy })

/-- A receiver's lock entry is freed when its own bytes have landed (R191). -/
def State.landLocks (s : State) (op : Nat) : State :=
  match s.xfer? op with
  | none => s
  | some o =>
    match o.kind with
    | .cpymc _ _ ts =>
      let done := ts.filter (fun t => o.held.isEmpty && !o.moves.any (fun m => !m.landed && m.dst.space == .lsm t))
      { s with cores := s.cores.map (fun c => if c.locks.any (fun k => k.op == op && k.dest && done.contains k.team) then
          { c with locks := c.locks.filter (fun k => !(k.op == op && k.dest && done.contains k.team)) } else c) }
    | _ => s

/-- What follows the landing of some bytes of a copy. -/
def State.afterLanding (s : State) (op : Nat) : State :=
  (((s.landLines op).landCounts op).landLocks op).checkXfer op

/-- The lanes that an operation still holds for these threads are abandoned (R189): their bytes are never
written, their commands are not sent, and their XFCNT falls. With U = 1 the one lane is every thread's. -/
def State.abandonHeld (s : State) (op : Nat) (tids : List Nat) : State :=
  match s.xfer? op with
  | none => s
  | some o =>
    let mine := if o.uni && tids.any (fun t => o.holds t) then o.tids else tids.filter (fun t => o.holds t)
    let cmds := (s.waitingCmds.filter (fun c => c.op == op && mine.contains c.tid)).map (·.id)
    let given := (s.waitingCmds.filter (fun c => cmds.contains c.id)).filterMap (fun b => b.srcLoc.map (fun l => (l, b.srcLen))) ++
      (o.held.filter (fun h => mine.contains h.tid)).filterMap (fun h => h.cmd.bind (fun b => h.src.map (fun l => (l, b.srcLen))))
    let s := s.modThreads o.team (mine.filter (fun t => o.counted.contains t)) Thread.xfDown
    let s : State := { s with waitingCmds := s.waitingCmds.filter (fun c => !cmds.contains c.id) }
    let s := s.modXfer op (fun o => { o with
      held := o.held.filter (fun h => !mine.contains h.tid),
      rsParts := o.rsParts.filter (fun r => !(r.held && mine.contains r.tid)),
      moves := o.moves.filter (fun m => m.landed || !mine.contains m.tid),
      waits := o.waits.filter (fun i => !cmds.contains i),
      counted := o.counted.filter (fun t => !mine.contains t) })
    (s.bankLocks op given).afterLanding op

/-- EXIT's effects on one thread (R139): pending results discarded, arrivals at rejoin entries and the SYNCM
record, no further fetch. One that exits in its WATCHPOINT handler abandons the lane held there, of which R139 and R343 say
nothing (DESIGN CHOICE, log entry 21). -/
def State.exitThread (s : State) (team tid : Nat) : State :=
  match s.thread? team tid with
  | none => s
  | some t =>
    if t.hasExited then s
    else
      let b := bit64 t.hidx
      let s := s.unseat team [tid]
      let s := s.modThread team tid (fun t => { t with
        status := .exited, pend := [], entering := none, fence := none, clause := none, trapClause := none,
        inHandler := false, wdogDue := false, convDue := none, watchOp := none })
      let s := s.modHg team t.role t.hg (fun g => { g with
        rejoin := g.rejoin.map (fun r => if r.expected &&& b != 0#64 then { r with arrived := r.arrived ||| b } else r),
        syncA := if g.syncM &&& b != 0#64 then g.syncA ||| b else g.syncA })
      let s := match t.watchOp with
        | some o => s.abandonHeld o [tid]
        | none => s
      ((s.checkRejoin team t.role t.hg).checkSyncm team t.role t.hg).endWdog team

/-- A team that its grid's table launched stops the Cadence table (R351). -/
def State.cadenceTrap (s : State) (team code : Nat) : State :=
  match s.team? team with
  | none => s
  | some t =>
    match (s.launch? t.launch).bind (·.cadence) with
    | none => s
    | some (entry, _) =>
      if !s.isRunningGrid t.launch || (s.cadence.state != 2 && s.cadence.state != 3) then s
      else
        let s : State := { s with cadence := { s.cadence with
          state := 5, cause := code, errEntry := entry, refuse := 0, wait := 0,
          running := s.cadence.running.map (fun r => { r with muted := true }) } }
        s.postEvent 5 (leBytes 4 (entry * 2 ^ 24 + code * 2 ^ 16 + 5))

/-- Killing a team (R337). -/
def State.killTeam (s : State) (team code : Nat) : State :=
  match s.team? team with
  | none => s
  | some t =>
    let ident := match s.launch? t.launch with
      | some l => l.ident.toNat
      | none => 0
    let s := s.cadenceTrap team code
    let s : State := { s with
      faults := s.faults.filter (fun f => !(f.launch == ident && f.team == t.index && decide (f.kind < 4))),
      faultsWaiting := s.faultsWaiting.filter (fun f => !(f.launch == ident && f.team == t.index && decide (f.kind < 4))) }
    let tids := (s.threads.filter (fun x => x.team == team)).map (·.tid)
    -- the arrivals of operations already issued are discarded
    let s : State := { s with
      xfers := updWhere (fun o => o.team == team) (fun o => { o with arrives := false }) s.xfers,
      tileOps := updWhere (fun o => o.team == team) (fun o => { o with arrives := false }) s.tileOps,
      conversions := updWhere (fun c => c.team == team) (fun c => { c with arrives := false }) s.conversions }
    let s := tids.foldl (fun s i => s.exitThread team i) s
    let s := (s.xfers.filter (fun o => o.team == team)).foldl (fun s o => s.abandonHeld o.id tids) s
    let s : State := { s with cores := s.cores.map (fun c => { c with bins := c.bins.filter (fun b => b.team != team) }) }
    let s := s.modTeam team (fun t => { t with killed := true, saveReq := false, savedBins := [] })
    let s := s.postEvent 2 (leBytes 4 ident ++ leBytes 4 t.index ++ leBytes 4 code)
    (s.mapThreads (fun x => x.team == team) (fun x => { x with status := .exited })).settle

/-- An uncorrectable error in DSM or main memory stops the launch that read the word (R247): no further team of
it is placed and every team of it is killed with code 0. -/
def State.stopLaunch (s : State) (key : Nat) : State :=
  match s.launch? key with
  | none => s
  | some l =>
    if l.stopped || l.phase == .done then s
    else
      let core := ((s.teams.find? (fun t => t.launch == key)).map (·.lastCore)).getD 0
      let s := s.modLaunch key (fun l => { l with stopped := true, pending := [] })
      let s := (s.teams.filter (fun t => t.launch == key)).foldl (fun (s : State) (t : Team) => s.killTeam t.key 0) s
      match s.launch? key with
      | some l => if l.phase == .running && s.teams.all (fun t => t.launch != key) then s.completeLaunch l core else s
      | none => s

/-- A word of the range that holds an uncorrectable error (R247). -/
def State.badAt (s : State) (l : Loc) (n : Nat) : Option Loc := s.badWords.find? (fun w => overlaps w 4 l n)
def State.badIn (s : State) (l : Loc) (n : Nat) : Bool := (s.badAt l n).isSome

/-- Kinds of memory in a type-3 event: 0 team storage, 1 DSM, 2 main memory, 3 round state (log entry 10). -/
def State.errorEvent (s : State) (kind addr : Nat) : State := s.postEvent 3 (leBytes 8 kind ++ leBytes 8 addr)

/-- A launch has read the bad word at a place, which the event reports: it stops (R247). -/
def State.badLaunch (s : State) (key : Nat) (l : Loc) : State :=
  (s.errorEvent (if l.space == .main then 2 else 1) l.addr).stopLaunch key

/-- An access of a team has read a bad word. -/
def State.readBad (s : State) (team : Nat) (l : Loc) : State :=
  match s.team? team with
  | some t => s.badLaunch t.launch l
  | none => s

/-- A bad word among those of the page tables that the walks of some addresses read (R247, R314). -/
def State.walkBad (s : State) (core : Option Nat) (asid : Nat) (vas : List Nat) : Option Loc :=
  if s.badWords.isEmpty then none else (s.walkReads core asid vas).findSome? (fun a => s.badAt ⟨.main, a⟩ 8)

/-- What the walks of a team have read stops its launch where a word of it is bad (R247). -/
def State.stopBad (s : State) (team : Nat) (bad : Option Loc) : State :=
  match bad with
  | some l => (s.readBad team l).settle
  | none => s

/-! ### Pending results and traps -/

/-- The value of one pending result written to its register (R87). -/
def State.commit (s : State) (team tid : Nat) (p : Pending) : State :=
  match s.thread? team tid with
  | none => s
  | some t =>
    let s := s.writeDest t p.dest ((p.value.getD []).take p.words)
    s.modThread team tid (fun t => { t with pend := t.pend.filter (fun q => q.id != p.id) })

/-- Every pending result of a thread has arrived. -/
def Thread.allArrived (t : Thread) : Bool := t.pend.all (fun p => p.value.isSome)

/-- TVEC of a team's ASID (R242). -/
def State.tvecOf (s : State) (team : Nat) : DWord :=
  match (s.team? team).bind (fun t => s.launch? t.launch) with
  | some l => (s.asidOf l.asid).tvec
  | none => 0#64

/-- A trapping set enters the handler in one step once every pending result of it has arrived (R334);
TVEC = 0 kills the team (R245). -/
def State.tryEnter (s : State) (team : Nat) (i : TrapInfo) : State :=
  let ts := s.threads.filter (fun t => t.team == team && t.entering == some i)
  if ts.isEmpty || !ts.all Thread.allArrived then s
  else
    let tvec := s.tvecOf team
    if tvec == 0#64 then s.killTeam team i.cause.code
    else
      let s := ts.foldl (fun s t => t.pend.foldl (fun s p => s.commit team t.tid p) s) s
      s.mapThreads (fun t => t.team == team && t.entering == some i) (fun t => { t with
        tcause := i.cause.code, tpc := i.tpc, tpcKind := i.kind, taddr := i.taddr, tlanes := i.lanes,
        inHandler := true, entering := none, clause := none, status := .ready, since := s.clk,
        pc := tvec.setWidth 57 })

/-- The threads of a team that wait to enter their handler do so where they can (R334). -/
def State.enterAll (s : State) (team : Nat) : State :=
  ((s.threads.filter (fun t => t.team == team)).filterMap (·.entering)).foldl (fun s i => s.tryEnter team i) s

/-- Taking a trap, for a trapping set of one team (R332, R334): the set leaves its ports; a thread already in a
handler kills the team (R335); TLANES holds the set's lanes. Threads for which the watchdog expired while they were held
enter with WATCHDOG instead (R303, R345), but for a lane that a watchpoint goes on holding. -/
def State.takeTrap (s : State) (team : Nat) (tids : List Nat) (cause : Cause) (kind : TpcKind)
    (tpc : BitVec 57) (taddr : DWord) : State :=
  let ts := s.threads.filter (fun t => t.team == team && tids.contains t.tid && !t.hasExited)
  if ts.isEmpty then s
  else
    let cause := if ts.any (·.wdogDue) && cause != .watchpoint then .watchdog else cause
    let s := s.cadenceTrap team cause.code
    if ts.any (fun t => t.inHandler || t.entering.isSome) then s.killTeam team cause.code
    else
      let i : TrapInfo := { cause := cause, tpc := tpc, kind := kind, taddr := taddr, lanes := maskOf (ts.map (·.lane)) }
      let s := s.unseat team tids
      let s := s.modThreads team (ts.map (·.tid)) (fun t => { t with
        trapClause := t.clause, status := .parked .entering, entering := some i, noWatch := false,
        wdogDue := t.wdogDue && cause == .watchpoint })
      s.tryEnter team i

/-- TADDR where the rule of a trap names no address: a free value (log entry 7). -/
def State.freeAddr (s : State) : DWord × State :=
  (Config.freeTaddr s.freeCount, { s with freeCount := s.freeCount + 1 })

/-- A trap whose rule names no address. -/
def State.trapNoAddr (s : State) (team : Nat) (tids : List Nat) (cause : Cause) (kind : TpcKind)
    (tpc : BitVec 57) : State :=
  let (a, s) := s.freeAddr
  s.takeTrap team tids cause kind tpc a

/-- Where the watchdog's trap says a thread stood (R345). -/
def Thread.wdogKind (t : Thread) : TpcKind := if t.clause.isSome then .instruction else .resumeHeader

/-- Threads enter the watchdog's handler: those of one TPC are one trapping set (R303; DEDUCED, log entry 12). -/
def State.wdogSets (s : State) (team : Nat) (ts : List Thread) : State :=
  ((ts.map (fun x => (x.pc, x.wdogKind))).dedup).foldl (fun (s : State) k =>
    s.trapNoAddr team ((ts.filter (fun x => x.pc == k.1 && x.wdogKind == k.2)).map (·.tid)) .watchdog k.2 k.1) s

/-- Threads whose park has ended and for which the watchdog expired meanwhile enter its handler (R345). -/
def State.lateWdog (s : State) (team : Nat) (tids : List Nat) : State :=
  match s.threads.filter (fun t => t.team == team && tids.contains t.tid && t.wdogDue && !t.hasExited) with
  | [] => s
  | ts => (s.modThreads team (ts.map (·.tid)) (fun t => { t with wdogDue := false })).wdogSets team ts

end Sys2Proof.Machine
end

