-- ==== Sys2Proof/Machine/Operands.lean ====
section
/-! DEFINITION. The issuing group and its operands (R75 to R81): who takes part, what a source supplies in every
type, and which registers are legal. -/

namespace Sys2Proof.Machine

/-- What an instruction sees of the group that issues it. -/
structure Ctx where
  core : Nat
  port : Nat
  clk : Nat
  grp : Group
  team : Team
  launch : Launch
  /-- The members in ascending position, with the registers that reads of this cycle see (R100). -/
  ths : List Thread
  groups : List HomeGroup
  /-- MODE.FTZ of the team, as a read of this cycle sees it (R57, R100). -/
  ftz : Bool

/-- The group that issues now. -/
def State.ctx? (s : State) : Option Ctx :=
  match (s.core? s.cur.core).bind (fun c => (c.port s.cur.port).group) with
  | none => none
  | some g =>
    match s.team? g.team with
    | none => none
    | some t =>
      match s.launch? t.launch with
      | none => none
      | some l => some {
          core := s.cur.core, port := s.cur.port, clk := s.clk, grp := g, team := t, launch := l,
          ths := g.members.filterMap (fun tid => s.seen.thread? g.team tid),
          groups := s.seen.groups.filter (fun h => h.team == g.team),
          ftz := ((s.seen.team? g.team).getD t).ftz }

namespace Ctx

/-- Address of the instruction being issued (R67). -/
def pc (c : Ctx) : BitVec 57 := c.grp.hdrAddr + BitVec.ofNat 57 (8 * (c.grp.slot + 1))

/-- The role in the kernel header. -/
def role (c : Ctx) : Role := c.launch.kernel.role c.grp.role

/-- The threads whose guard is true (R76). -/
def parts (c : Ctx) (h : Head) : List Thread := c.ths.filter (fun t => t.guard h)

/-- The threads that act: all participants, or with U = 1 the lowest-positioned one (R77, R137). -/
def actors (c : Ctx) (h : Head) : List Thread := if h.u then (c.parts h).take 1 else c.parts h

/-- The position of a thread (R39). -/
def pos (c : Ctx) (t : Thread) : Nat := t.lane % c.grp.limit

/-- The S row of a thread's home group. -/
def sreg (c : Ctx) (t : Thread) (n : Nat) : Word :=
  match c.groups.find? (fun g => g.role == t.role && g.idx == t.hg) with
  | some g => g.s.getD n 0#32
  | none => 0#32

/-- The specials of R78 and R240. -/
def special (c : Ctx) (t : Thread) (x : Special) : Word :=
  let n := match x with
    | .lane => t.lane
    | .hidx => t.hidx
    | .tid => t.tid
    | .team => c.team.index
    | .role => t.role
    | .ridx => t.hg * (c.launch.kernel.role t.role).gsize + t.hidx
    | .gsz => (c.launch.kernel.role t.role).gsize
    | .nteam => c.launch.nteam
    | .core => c.core
    | .die => dieOf c.core
    | .clk32 => c.clk
    | .launch => c.launch.ident.toNat
  BitVec.ofNat 32 n

end Ctx

/-- The value of an integer constant of R78. -/
def intConst (k : Nat) : Int := if k < 64 then (k : Int) else 63 - (k : Int)

/-- The F32 constants of R79. -/
def fltConst (k : Nat) : Nat :=
  match k with
  | 0 => 0x3F000000 | 1 => 0x3F800000 | 2 => 0x40000000 | 3 => 0x40800000 | 4 => 0x41000000
  | 5 => 0x41800000 | 6 => 0x3E800000 | 7 => 0x3E000000 | 8 => 0xBF000000 | 9 => 0xBF800000
  | 10 => 0xC0000000 | 11 => 0xC0800000 | 12 => 0xC1000000 | 13 => 0xC1800000 | 14 => 0x3F317218
  | _ => 0x3FB8AA3B

/-- `n` equal elements of a width. -/
def splat (width n x : Nat) : Nat := packElems width (List.replicate n x)

/-- An integer constant in an operand type (R80). -/
def intConstBits (ty : Ty) (k : Nat) : Nat :=
  match Ty.format? ty with
  | some f => splat f.width ty.count (f.ofVal .rn false false (Val.ofInt (intConst k))).bits
  | none => splat ty.width ty.count (Ty.wrapBits ty (intConst k))

/-- An F32 constant in an operand type (R80): its value in the floating-point types, else its bit pattern. -/
def fltConstBits (ty : Ty) (k : Nat) : Nat :=
  match Ty.format? ty with
  | some f => splat f.width ty.count (f.ofVal .rn false false (fmtF32.val (fltConst k))).bits
  | none => fltConst k

namespace Ctx

/-- A 32-bit or, for i64 and n64, 64-bit source as a bit pattern (R78 to R80). -/
def src (c : Ctx) (t : Thread) (ty : Ty) (o : Operand) : Nat :=
  match o with
  | .v n => if ty.is64 then (t.reg n.val).toNat + 2 ^ 32 * (t.reg (n.val + 1)).toNat else (t.reg n.val).toNat
  | .s n => if ty.is64 then (c.sreg t n.val).toNat + 2 ^ 32 * (c.sreg t (n.val + 1)).toNat
            else (c.sreg t n.val).toNat
  | .special x => (c.special t x).toNat
  | .int k => intConstBits ty k.val
  | .flt k => fltConstBits ty k.val
  | .none => 0

/-- A 32-bit value operand. -/
def val (c : Ctx) (t : Thread) (o : Operand) : Word := BitVec.ofNat 32 (c.src t .i32 o)

/-- A pair operand: an address, a mask or a 64-bit value. -/
def val64 (c : Ctx) (t : Thread) (o : Operand) : DWord := BitVec.ofNat 64 (c.src t .i64 o)

/-- A value operand that may be NONE, with its default. -/
def valOr (c : Ctx) (t : Thread) (o : Operand) (d : Word) : Word :=
  match o with
  | .none => d
  | _ => c.val t o

/-- The words of a data operand of one, two or four words (R171); constants are extended (R80). -/
def data (c : Ctx) (t : Thread) (n : Nat) (o : Operand) : List Word :=
  match o with
  | .v k => (List.range n).map (fun i => t.reg (k.val + i))
  | .s k => (List.range n).map (fun i => c.sreg t (k.val + i))
  | .special x => [c.special t x]
  | .int k => (List.range n).map (fun i =>
      BitVec.ofNat 32 (if i = 0 then Ty.wrapBits .i32 (intConst k.val) else if intConst k.val < 0 then 0xFFFFFFFF else 0))
  | .flt k => (List.range n).map (fun i => if i = 0 then BitVec.ofNat 32 (fltConst k.val) else 0#32)
  | .none => List.replicate n 0#32

end Ctx

/-- A V register of `w` words lies below the allotment (R81). -/
def Operand.fits (o : Operand) (regs w : Nat) : Bool :=
  match o with
  | .v n => decide (n.val + w ≤ regs)
  | _ => true

/-- Words of an operand of a type. -/
def Ty.words (t : Ty) : Nat := if t.is64 then 2 else 1

/-- A trap of the whole issue group, precise under R96, with TADDR where the rule names it. -/
def State.trapGroup (s : State) (c : Ctx) (cause : Cause) (addr : Option DWord) : State :=
  match addr with
  | some a => s.takeTrap c.grp.team c.grp.members cause .instruction c.pc a
  | none => s.trapNoAddr c.grp.team c.grp.members cause .instruction c.pc

/-- The group issues its next instruction, or leaves the clause after its last slot (R27, R74): every member
counts one more executed instruction in its windows (R87). -/
def State.advance (s : State) : State :=
  match (s.core? s.cur.core).bind (fun c => (c.port s.cur.port).group) with
  | none => s
  | some g =>
    let last := decide (g.slot + 1 ≥ hdrWords g.hdr)
    let yh := g.hdr.getLsbD 52
    let port := s.cur.port
    let s := s.modThreads g.team g.members (fun t =>
      let t : Thread := { t with pend := t.pend.map (fun p => { p with left := p.left - 1 }), noWatch := false }
      if last then
        let t := t.fallThrough s.clk
        if yh then (if port = 0 then { t with yield0 := true } else { t with yield1 := true }) else t
      else { t with pc := t.pc + 8#57 })
    s.modCore s.cur.core (fun c =>
      if last then c.setPort port .free
      else c.setPort port { group := some { g with slot := g.slot + 1 }, tile := none, stripe := [] })

/-- An instruction of the current group: the operands below the allotment, otherwise ILLEGAL_OPERAND for the
whole group (R81, R95). An instruction that no group issues changes nothing. -/
def run (s : State) (ops : List (Operand × Nat)) (k : Ctx → State) : Out :=
  match s.ctx? with
  | none => .next s
  | some c =>
    if ops.all (fun o => Operand.fits o.1 c.role.regs o.2) then .next (k c)
    else .next (s.trapGroup c .illegalOperand none)

/-- An instruction that only a privileged launch may use (R94): PRIV for the group otherwise, unless every guard is
false (R76). -/
def runPriv (h : Head) (s : State) (ops : List (Operand × Nat)) (k : Ctx → State) : Out :=
  run s ops (fun c => if c.launch.priv || (c.parts h).isEmpty then k c else s.trapGroup c .priv none)

/-- The lane faults of one instruction: each cause's threads form one trapping set, with TADDR the address of
its lowest-positioned thread (R167, R332). The list is in ascending position. -/
def State.laneFaults (s : State) (c : Ctx) (fs : List (Nat × Cause × DWord)) : State :=
  ((fs.map (fun f => f.2.1)).dedup).foldl (fun s cause =>
    let mine := fs.filter (fun f => f.2.1 == cause)
    match mine with
    | [] => s
    | f :: _ => s.takeTrap c.grp.team (mine.map (·.1)) cause .instruction c.pc f.2.2) s

/-- An instruction of which some lanes fault: the others take their effect and run on, then the faulting threads
enter their handlers as trapping sets (R167). -/
def State.laneSplit (s : State) (c : Ctx) (bad : List (Nat × Cause × DWord)) (k : State → State) : State :=
  (k ((s.unseat c.grp.team (bad.map (·.1))).advance)).laneFaults c bad

end Sys2Proof.Machine
end

