-- ==== Sys2Proof/Machine/Flags.lean ====
section
/-! DEFINITION. Predicate computations (R102, R107, R114, R124, R125) and the one way a VEC instruction writes its
results (R77, R98, R99). -/

namespace Sys2Proof.Machine

/-- The integer comparisons of R107: codes 0 to 5. -/
def icmpHolds (code : Nat) (a b : Int) : Bool :=
  match code with
  | 0 => decide (a = b)
  | 1 => decide (a ≠ b)
  | 2 => decide (a < b)
  | 3 => decide (a ≤ b)
  | 4 => decide (a > b)
  | _ => decide (a ≥ b)

/-- The floating-point comparisons of R114. -/
def fcmpHolds (code : Nat) (a b : Val) : Bool :=
  let num := !a.isNan && !b.isNan
  match code with
  | 0 => a.eq b
  | 1 => !(a.eq b)
  | 2 => a.lt b
  | 3 => num && !(b.lt a)
  | 4 => b.lt a
  | 5 => num && !(a.lt b)
  | 6 => num
  | _ => !num

/-- The combination with the third source of R107. -/
def combine (bor : Bool) (t : Bool) (c : Option Word) : Bool :=
  match c with
  | none => t
  | some w => if bor then t || w != 0#32 else t && w != 0#32

/-- The mask form of a truth value (R107). -/
def maskWord (t : Bool) : Word := if t then 0xFFFFFFFF#32 else 0#32

/-- The carry of R102. -/
def carry (a b c : Word) : Bool := decide (a.toNat + b.toNat + c.toNat % 2 ≥ 2 ^ 32)

/-- A truth table of three inputs (R104, R124). -/
def lut3Bit (lut : Byte) (a b c : Bool) : Bool := lut.getLsbD (a.toNat + 2 * b.toNat + 4 * c.toNat)

/-- What one thread's execution writes: destination words and predicates. -/
structure VecEff where
  words : List Word
  preds : List (Nat × Bool)

/-- One word and no predicate. -/
def VecEff.word (n : Nat) : VecEff := { words := [BitVec.ofNat 32 n], preds := [] }

/-- A value of the type's width. -/
def VecEff.ofTy (ty : Ty) (n : Nat) : VecEff :=
  { words := if ty.is64 then unpair (BitVec.ofNat 64 n) else [BitVec.ofNat 32 n], preds := [] }

/-- The result of one thread written. -/
def State.writeEff (s : State) (t : Thread) (d : Operand) (e : VecEff) : State :=
  let s := match Operand.dest? d with
    | some d => s.writeDest t d e.words
    | none => s
  match e.preds with
  | [] => s
  | ps => s.modThread t.team t.tid (fun t => ps.foldl (fun t p => t.setPred p.1 p.2) t)

/-- The writes of a VEC instruction: each participant's own result, or with U = 1 the result of the
lowest-positioned participant in all of them (R77, R98). -/
def Ctx.vecWrites (c : Ctx) (s : State) (h : Head) (d : Operand) (f : Thread → VecEff) : State :=
  match c.parts h with
  | [] => s
  | lead :: _ => (c.parts h).foldl (fun s t => s.writeEff t d (f (if h.u then lead else t))) s

/-- A VEC instruction that works thread by thread (R97 to R99). -/
def vec (s : State) (h : Head) (ops : List (Operand × Nat)) (d : Operand) (f : Ctx → Thread → VecEff) : Out :=
  run s ops (fun c => (c.vecWrites s h d (f c)).advance)

end Sys2Proof.Machine
end

