-- ==== Sys2Proof/Machine/Engine.lean ====
section
/-! DEFINITION. What every asynchronous engine operation shares (R169, R185 to R190, R277, R338): range locks, barrier
counts, the reads and writes an engine makes, fault records, and the parking and release of held threads. -/

namespace Sys2Proof.Machine

/-! ### Range locks (R169, R188, R288) -/

/-- Two entries lock a common byte. -/
def Lock.hits (a b : Lock) : Bool :=
  a.dsm == b.dsm && (a.dsm || a.team == b.team) && a.covers b.lo b.hi

/-- The entries taken in one step, or none: too few are free (R169), or a destination overlaps a locked source
range of an earlier operation (R188). -/
def State.takeLocks (s : State) (core : Nat) (ks : List Lock) : Option State :=
  match s.core? core with
  | none => none
  | some c =>
    if c.locks.length + ks.length > Config.rangeLocks then none
    else if ks.any (fun k => k.dest && c.locks.any (fun x => !x.dest && x.hits k)) then none
    else some (s.modCore core (fun c => { c with locks := c.locks ++ ks }))

/-! ### Barriers named by operations (R147, R189, R239) -/

/-- The barrier that an operation names is initialised. -/
def State.barValid (s : State) (team : Nat) (b : Option Nat) : Bool :=
  match b with
  | none => true
  | some b => match s.team? team with
    | some t => (t.bar b).valid
    | none => false

/-- CPEND can rise by `n`. -/
def State.barRoom (s : State) (team : Nat) (b : Option Nat) (n : Nat) : Bool :=
  match b with
  | none => true
  | some b => match s.team? team with
    | some t => decide ((t.bar b).cpend + n ≤ 65535)
    | none => false

/-- CPEND raised by `n`. -/
def State.barIssue (s : State) (team : Nat) (b : Option Nat) (n : Nat) : State :=
  match b with
  | none => s
  | some b => s.modTeam team (fun t => t.modBar b (fun x => { x with cpend := x.cpend + n }))

/-- The barrier number of a BAR field. -/
def barNum (b : BarSel) : Option Nat := b.map (·.val)

/-! ### Engine accesses (R187, R190, R314 to R318) -/

/-- A read of an operation of some threads may be made now: its line is present (R187), and with REL their earlier stores
have been performed at TEAM scope (R190). -/
def State.engineReady (s : State) (team : Nat) (tids : List Nat) (op : Nat) (l : Loc) (n : Nat) (rel : Bool) : Bool :=
  s.present l n && (!rel || (s.threadsOf team tids).all (fun t => !s.olderStore t op (fun e => !e.stk)))

/-- A write of an operation may be made now: no earlier store of the thread to these bytes has still to be made (R315),
and no bank unit holds the row (R199). -/
def State.landReady (s : State) (team tid op : Nat) (l : Loc) (n : Nat) : Bool :=
  (match s.thread? team tid with
    | some t => !s.olderStore t op (fun e => !e.stk && overlaps e.loc e.data.length l n)
    | none => true) &&
    !(l.space == .main && s.rowBusy l.addr && !s.buffered l.addr)

/-- An outstanding access of these threads must be made before the operation: a load that its destinations `dst` would
overtake, or an atomic operation on its sources `src`, with REL on any place. The operation stalls at issue until then
(R168, R190, R315; DEDUCED, log entry 12). -/
def State.loadsStuck (s : State) (team : Nat) (tids : List Nat) (dst src : List (Loc × Nat)) (rel : Bool) : Bool :=
  s.loads.any (fun o => o.team == team && tids.any (fun t => o.dests.contains t) && !o.probe &&
    (dst.any (fun p => overlaps p.1 p.2 o.loc o.size) ||
      (o.writes && (rel || src.any (fun p => overlaps p.1 p.2 o.loc o.size)))))

/-- Something ordered before the next engine operation of some threads is not yet made, their own stores aside: the
instruction stalls at issue (R315, R318, R322; log entry 12). -/
def State.orderWait (s : State) (ts : List Thread) : Bool :=
  ts.any (fun t => s.acquirePending t.team t.tid s.nextId ||
    t.after.any (fun a => decide (a.2 ≤ s.nextId) && !(s.storesOf t).any (fun e => e.id == a.1)))

/-- The threads whose access an engine makes for one lane of an operation: with U = 1 every participant's (R77). -/
def XferOp.takers (o : XferOp) (tid : Nat) : List Nat := if o.uni then o.tids else [tid]

/-! ### Held threads and fault records (R277, R338, R339, R345) -/

/-- A record enters the fault queue with its event, or waits for room (R277, R381). -/
def State.enterFault (s : State) (f : FaultRec) : State :=
  if s.faults.length < Config.faultRecords && s.faultsWaiting.isEmpty then
    { s with faults := s.faults ++ [f] }.postEvent 1 (leBytes 4 f.id ++ leBytes 4 f.kind ++ leBytes 4 8)
  else { s with faultsWaiting := s.faultsWaiting ++ [f] }

/-- An identifier for a record that no record of the queue has, nor one that waits for room (R277). -/
def State.faultId (s : State) : Nat :=
  let ids := (s.faults ++ s.faultsWaiting).map (·.id)
  (((List.range (ids.length + 1)).map (fun i => (s.nextId + i) % 2 ^ 32)).find? (fun i => !ids.contains i)).getD 0

/-- A record of a core's instruction, for the lanes of a mask (R277). -/
def Ctx.faultRec (c : Ctx) (id kind va : Nat) (lanes : DWord) (op : Option Nat) : FaultRec :=
  { id := id, refault := false, retry := 0, kind := kind, asid := c.launch.asid, va := va,
    launch := c.launch.ident.toNat, core := c.core, team := c.team.index, lanes := lanes, tids := [], op := op,
    walks := [], range := none }

/-- Threads held by an operation leave the group and park at their word (R338). -/
def State.parkHeld (s : State) (team : Nat) (tids : List Nat) (op : Nat) : State :=
  (s.unseat team tids).modThreads team tids (fun t => { t with status := .parked (.held op) })

/-- Threads leave a hold and run on; those for which the watchdog has expired meanwhile enter its handler (R345). Inside a
clause they are grouped anew with any ready thread at the same word (R36 leaves open whether they stay one group; DESIGN
CHOICE, log entry 21). -/
def State.releaseHeld (s : State) (team : Nat) (tids : List Nat) : State :=
  let ts := s.threads.filter (fun t => t.team == team && tids.contains t.tid && !t.hasExited)
  let s := s.modThreads team (ts.map (·.tid)) (fun t =>
    { t with status := .ready, since := s.clk, waitsMet := t.clause.isSome })
  s.lateWdog team (ts.map (·.tid))

/-- Threads trap at an earlier instruction that held them (R193, R340, R343): they resume inside its clause. -/
def State.trapHeld (s : State) (team : Nat) (tids : List Nat) (op : XferOp) (cause : Cause) (taddr : DWord) : State :=
  (s.modThreads team tids (fun t => { t with clause := some op.clause })).takeTrap team tids cause .instruction op.pc taddr

end Sys2Proof.Machine
end

