-- ==== Sys2Proof/Machine/MemOps.lean ====
section
/-! DEFINITION. The MEM class (R166 to R183, R310): LD, ST, LDK, STK, ATOM, RED, CAS, FENCE and PROBE, with the
events that complete them. -/

namespace Sys2Proof.Machine

/-! ### Checks of one lane -/

/-- A watch slot matches a byte range (R342, R343). -/
def watchMatches (w : BitVec 128) (asid : Nat) (virt : Bool) (addr n : Nat) (rd wr : Bool) : Bool :=
  let kind := w.toNat / 2 ^ 124 % 4
  let line := w.toNat % 2 ^ 57 / 128 * 128
  w.getLsbD 127 && w.getLsbD 126 == virt && w.toNat / 2 ^ 115 % 512 == asid &&
    ((rd && kind != 1) || (wr && kind != 0)) && decide (addr < line + 128 ∧ line < addr + n)

/-- An access hits a watch slot (R343). -/
def State.watched (s : State) (asid : Nat) (virt : Bool) (addr n : Nat) (rd wr : Bool) : Bool :=
  s.watch.any (fun w => watchMatches w asid virt addr n rd wr)

/-- The checks of R166 to R170 and R343 on one scratch access, in their order. -/
def State.checkScratch (s : State) (c : Ctx) (t : Thread) (addr n align : Nat) (rd wr : Bool) : Except Cause Loc :=
  if addr % align != 0 then .error .misalign
  else
    match s.scratch c.launch c.grp.team addr n with
    | .error e => .error e
    | .ok l =>
      if wr && s.locked c.core l n then .error .rangeLock
      else if !t.noWatch && s.watched c.launch.asid false addr n rd wr then .error .watchpoint
      else .ok l

/-- The checks of a spill-stack access (R174, R256): the place of the byte at a stack offset. -/
def State.checkStack (_s : State) (c : Ctx) (t : Thread) (ofs n : Nat) : Except Cause Loc :=
  let size := c.launch.kernel.stack
  if ofs % n != 0 then .error .misalign
  else if ofs ≥ size then .error .stackOverflow
  else .ok { space := .dsm, addr := c.launch.stkBase + (c.team.stackSlot.getD 0) * (1024 * size) +
               t.stackIdx * size + ofs }

/-- The lanes of an access: those whose checks pass, with their places, and those that trap (R167). With U = 1
there is one access, and its failure is every participant's. -/
structure Lanes where
  good : List (Thread × Loc)
  bad : List (Nat × Cause × DWord)

def Ctx.lanes (c : Ctx) (h : Head) (addr : Thread → Nat) (chk : Thread → Except Cause Loc) : Lanes :=
  (c.actors h).foldl (fun r t =>
    match chk t with
    | .ok l => { r with good := r.good ++ [(t, l)] }
    | .error e =>
      let who := if h.u then (c.parts h).map (·.tid) else [t.tid]
      { r with bad := r.bad ++ who.map (fun i => (i, e, BitVec.ofNat 64 (addr t))) }) { good := [], bad := [] }

/-- The threads that one lane's access counts and writes: itself, or with U = 1 every participant (R77). -/
def Ctx.takers (c : Ctx) (h : Head) (t : Thread) : List Nat := if h.u then (c.parts h).map (·.tid) else [t.tid]

/-- (base + OFS × size) mod 2^32 (R172). -/
def effAddr (base : Word) (ofs : BitVec 9) (size : Nat) : Nat := (base + (ofs.signExtend 32) * BitVec.ofNat 32 size).toNat

/-- A counter of some taker would pass 255 (R300). -/
def Ctx.full (c : Ctx) (h : Head) (good : List (Thread × Loc)) (cnt : Thread → Nat) : Bool :=
  let who := good.flatMap (fun p => c.takers h p.1)
  c.ths.any (fun t => who.contains t.tid && decide (cnt t ≥ 255))

/-- An earlier NMFENCE of the thread is outstanding (R178). -/
def State.nmfencePending (s : State) (team tid before : Nat) : Bool :=
  s.xfers.any (fun o => o.kind == .nmfence && o.team == team && o.tids.contains tid && decide (o.id < before))

/-- A release at DEVICE or SYSTEM scope waits for the earlier NMFENCEs of its threads (R178). -/
def State.nmWait (s : State) (c : Ctx) (h : Head) (ord : Ord) (sc : Scope) : Bool :=
  ord.isRelease && decide (scopeRank sc ≥ 3) &&
    (c.parts h).any (fun t => s.nmfencePending t.team t.tid s.nextId)

/-- The issue of a memory instruction counted for sampling, and a sample opened when its turn has come (R310). -/
def State.sample (s : State) (c : Ctx) (h : Head) (ids : List (Nat × Nat)) (lines : Nat) (returns : Bool) : State :=
  if !s.trctl.getLsbD 2 then s
  else
    let n := (match s.core? c.core with
      | some k => k.trace.issues
      | none => 0) + 1
    let s := s.modCore c.core (fun k => { k with trace := { k.trace with issues := n } })
    if n % 2 ^ (s.trctl.toNat / 2 ^ 12 + 6) != 0 then s
    else
      let x : Sample := {
        ids := ids, team := c.grp.team, tid := (((c.parts h).map (·.tid)).headD 0), pc := c.pc,
        parts := (c.parts h).length, lines := lines, replays := 0, last := 0xFF, returns := returns }
      let s := s.modCore c.core (fun k => { k with samples := k.samples ++ [x] })
      if ids.isEmpty then s.flushSamples else s

/-- The distinct scratch lines of some accesses. -/
def countLines (ps : List (Loc × Nat)) : Nat := ((ps.flatMap (fun p => linesOf p.1 p.2)).dedup).length

/-! ### Loads and atomics -/

/-- What every lane of a load or atomic has in common. -/
structure LoadForm where
  size : Nat
  words : Nat
  la : Nat
  op : Option Aop
  cas : Bool
  probe : Bool
  stk : Bool
  red : Bool
  ord : Ord
  scope : Scope
  rmt : Bool

/-- The pending result of a long-latency instruction (R87). -/
def Thread.addPending (t : Thread) (id : Nat) (d : Option Dest) (words la : Nat) : Thread :=
  match d with
  | some d => { t with pend := t.pend ++ [{ id := id, dest := d, words := words, left := la, value := none }] }
  | none => t

/-- One lane's access enters the scratch pipeline: LDCNT rises and the result is awaited (R70, R87); a RED is
counted by STCNT instead. -/
def State.issueLoad (s : State) (c : Ctx) (h : Head) (f : LoadForm) (d : Option Dest) (instr : Nat) (t : Thread) (l : Loc)
    (data cmp : List Word) : State :=
  let id := s.nextId
  let o : LoadOp := {
    id := id, core := c.core, team := t.team, tid := t.tid, dests := c.takers h t, pos := c.pos t,
    op := f.op, cas := f.cas, probe := f.probe, stk := f.stk, red := f.red, loc := l, size := f.size,
    data := data, cmp := cmp, ord := f.ord, scope := f.scope, rmt := f.rmt, uni := h.u, instr := instr,
    waited := !f.probe && !f.stk && !s.present l f.size }
  let s := { s.bumpId with loads := s.loads ++ [o] }
  s.modThreads t.team (c.takers h t) (fun t =>
    if f.red then { t with stcnt := t.stcnt + 1 }
    else { t.addPending id d f.words f.la with ldcnt := t.ldcnt + 1 })

/-- A load, atomic or probe: lanes checked, the failing ones trap, the others' accesses issue. -/
def loadForm (s : State) (h : Head) (ops : List (Operand × Nat)) (f : LoadForm) (d : Operand)
    (addr : Ctx → Thread → Nat) (chk : Ctx → Thread → Except Cause Loc)
    (data cmp : Ctx → Thread → List Word) : Out :=
  run s ops (fun c =>
    let ls := c.lanes h (addr c) (chk c)
    if c.full h ls.good (fun t => if f.red then t.stcnt else t.ldcnt) || s.nmWait c h f.ord f.scope then s
    else
      s.laneSplit c ls.bad (fun s =>
        let ids := ls.good.mapIdx (fun i p => (s.nextId + i, p.1.lane))
        let first := s.nextId
        let s := ls.good.foldl (fun s p =>
          s.issueLoad c h f (Operand.dest? d) first p.1 p.2 (data c p.1) (cmp c p.1)) s
        s.sample c h ids (countLines (ls.good.map (fun p => (p.2, f.size)))) (!f.red)))

def execLd (h : Head) (m : MemMods) (sz : Sz) (d base : Operand) (ofs : BitVec 9) (s : State) : Out :=
  let addr := fun (c : Ctx) t => effAddr (c.val t base) ofs sz.bytes
  loadForm s h [(d, sz.words), (base, 1)]
    { size := sz.bytes, words := sz.words, la := m.la.val, op := none, cas := false, probe := false, stk := false,
      red := false, ord := m.ord, scope := m.sc, rmt := m.rmt }
    d addr (fun c t => s.checkScratch c t (addr c t) sz.bytes sz.bytes true false) (fun _ _ => []) (fun _ _ => [])

/-- LDK (R174). -/
def execLdk (h : Head) (la : Fin 16) (sz : Sz) (d base : Operand) (ofs : BitVec 9) (s : State) : Out :=
  let addr := fun (c : Ctx) t => effAddr (c.val t base) ofs sz.bytes
  loadForm s h [(d, sz.words), (base, 1)]
    { size := sz.bytes, words := sz.words, la := la.val, op := none, cas := false, probe := false, stk := true,
      red := false, ord := .relaxed, scope := .team, rmt := false }
    d addr (fun c t => s.checkStack c t (addr c t) sz.bytes) (fun _ _ => []) (fun _ _ => [])

/-- Bytes of an atomic operation (R175). -/
def Aop.bytes (op : Aop) : Nat := if op.is64 then 8 else 4
def Aop.nwords (op : Aop) : Nat := if op.is64 then 2 else 1

/-- The operand type under which an atomic's constant data is supplied (R80, R175). -/
def Aop.ty (op : Aop) : Ty :=
  match op with
  | .addF32 | .fmin | .fmax => .f32
  | .addB16x2 => .b16x2
  | .addN64 | .exch64 => .n64
  | _ => .n32

/-- The data words of an atomic. -/
def Ctx.aopData (c : Ctx) (t : Thread) (op : Aop) (o : Operand) : List Word :=
  if op.is64 then unpair (BitVec.ofNat 64 (c.src t .n64 o)) else [BitVec.ofNat 32 (c.src t (Aop.ty op) o)]

def execAtom (h : Head) (m : MemMods) (op : Aop) (d base data : Operand) (ofs : BitVec 9) (s : State) : Out :=
  let n := Aop.bytes op
  let addr := fun (c : Ctx) t => effAddr (c.val t base) ofs n
  loadForm s h [(d, Aop.nwords op), (base, 1), (data, Aop.nwords op)]
    { size := n, words := Aop.nwords op, la := m.la.val, op := some op, cas := false, probe := false, stk := false,
      red := false, ord := m.ord, scope := m.sc, rmt := m.rmt }
    d addr (fun c t => s.checkScratch c t (addr c t) n n true true) (fun c t => c.aopData t op data) (fun _ _ => [])

def execRed (h : Head) (m : MemMods) (op : Aop) (base data : Operand) (ofs : BitVec 9) (s : State) : Out :=
  let n := Aop.bytes op
  let addr := fun (c : Ctx) t => effAddr (c.val t base) ofs n
  loadForm s h [(base, 1), (data, Aop.nwords op)]
    { size := n, words := 0, la := 0, op := some op, cas := false, probe := false, stk := false,
      red := true, ord := m.ord, scope := m.sc, rmt := false }
    .none addr (fun c t => s.checkScratch c t (addr c t) n n true true) (fun c t => c.aopData t op data) (fun _ _ => [])

/-- CAS (R177): base alone is the address. -/
def execCas (h : Head) (m : MemMods) (sz : Sz) (d base data cmp : Operand) (s : State) : Out :=
  let addr := fun (c : Ctx) t => (c.val t base).toNat
  loadForm s h [(d, sz.words), (base, 1), (data, sz.words), (cmp, sz.words)]
    { size := sz.bytes, words := sz.words, la := m.la.val, op := none, cas := true, probe := false, stk := false,
      red := false, ord := m.ord, scope := m.sc, rmt := m.rmt }
    d addr (fun c t => s.checkScratch c t (addr c t) sz.bytes sz.bytes true true)
    (fun c t => c.data t sz.words data) (fun c t => c.data t sz.words cmp)

/-- PROBE (R179): only the first line is checked. -/
def execProbe (h : Head) (m : MemMods) (d base : Operand) (ofs : BitVec 9) (s : State) : Out :=
  let addr := fun (c : Ctx) t => effAddr (c.val t base) ofs 128
  loadForm s h [(d, 1), (base, 1)]
    { size := 0, words := 1, la := m.la.val, op := none, cas := false, probe := true, stk := false,
      red := false, ord := m.ord, scope := m.sc, rmt := false }
    d addr (fun c t => if addr c t % 128 != 0 then .error .misalign else s.scratch c.launch t.team (addr c t) 1)
    (fun _ _ => []) (fun _ _ => [])

/-! ### Stores -/

/-- Distinct stores in a thread's store buffer (R173). -/
def Thread.bufferUse (t : Thread) : Nat := ((t.stores.map (·.sid)).dedup).length

/-- A store cut into the parts that are performed as wholes (R183). -/
def storeParts (sid : Nat) (l : Loc) (bs : List Byte) (rel stk : Bool) (sc : Scope) (takers : List Nat) : List StoreEntry :=
  let w := if bs.length > 4 then 4 else bs.length
  (List.range (bs.length / w)).map (fun i =>
    { id := sid + i, sid := sid, loc := { l with addr := l.addr + w * i }, data := (bs.drop (w * i)).take w,
      release := rel, scope := sc, level := none, stk := stk, takers := takers })

/-- One lane's store enters the thread's store buffer (R173). With U = 1 the one store is in the buffer of the
lowest participant, and every participant counts it (R77). -/
def State.issueStore (s : State) (c : Ctx) (h : Head) (rel stk : Bool) (sc : Scope) (t : Thread) (l : Loc)
    (bs : List Byte) : State :=
  let es := storeParts s.nextId l bs rel stk sc (c.takers h t)
  let s := s.bumpId es.length
  let s := s.modThread t.team t.tid (fun t => { t with stores := t.stores ++ es })
  s.modThreads t.team (c.takers h t) (fun t => { t with stcnt := t.stcnt + 1 })

def storeForm (s : State) (h : Head) (ops : List (Operand × Nat)) (ord : Ord) (sc : Scope) (stk : Bool) (size : Nat)
    (addr : Ctx → Thread → Nat) (chk : Ctx → Thread → Except Cause Loc) (data : Ctx → Thread → List Word) : Out :=
  run s ops (fun c =>
    let ls := c.lanes h (addr c) (chk c)
    if c.full h ls.good (·.stcnt) || s.nmWait c h ord sc || ls.good.any (fun p => decide (p.1.bufferUse ≥ Config.storeBuffer)) then s
    else
      s.laneSplit c ls.bad (fun s =>
        let before := s.nextId
        let s := ls.good.foldl (fun s p =>
          s.issueStore c h ord.isRelease stk sc p.1 p.2 ((bytesOfWords (data c p.1)).take size)) s
        let step := if size > 4 then size / 4 else 1
        s.sample c h (ls.good.mapIdx (fun i p => (before + step * i, p.1.lane)))
          (countLines (ls.good.map (fun p => (p.2, size)))) false))

def execSt (h : Head) (m : MemMods) (sz : Sz) (base data : Operand) (ofs : BitVec 9) (s : State) : Out :=
  let addr := fun (c : Ctx) t => effAddr (c.val t base) ofs sz.bytes
  storeForm s h [(base, 1), (data, sz.words)] m.ord m.sc false sz.bytes addr
    (fun c t => s.checkScratch c t (addr c t) sz.bytes sz.bytes false true) (fun c t => c.data t sz.words data)

/-- STK (R174). -/
def execStk (h : Head) (sz : Sz) (base data : Operand) (ofs : BitVec 9) (s : State) : Out :=
  let addr := fun (c : Ctx) t => effAddr (c.val t base) ofs sz.bytes
  storeForm s h [(base, 1), (data, sz.words)] .relaxed .team true sz.bytes addr
    (fun c t => s.checkStack c t (addr c t) sz.bytes) (fun c t => c.data t sz.words data)

/-! ### Fences -/

/-- FENCE (R178): it occupies each participant until it completes. -/
def execFence (h : Head) (kind : FenceKind) (ord : Ord) (sc : Scope) (s : State) : Out :=
  run s [] (fun c =>
    let ps := (c.parts h).map (·.tid)
    let r : FenceReq := { kind := kind, ord := ord, scope := sc, before := s.nextId }
    (s.advance).modThreads c.grp.team ps (fun t => { t with fence := some r }))

/-- What a fence waits for has happened (R178): of ENGINE and ALL the thread's atomic operations are stores too (DEDUCED,
log entry 12). -/
def State.fenceDone (s : State) (t : Thread) (r : FenceReq) : Bool :=
  let loads := fun (p : LoadOp → Bool) => s.olderLoad t.team t.tid r.before p
  let stores := fun (lv : Scope) => (s.storesOf t).all (fun e => e.stk || !decide (e.id < r.before) || e.atLeast lv)
  let mem := r.kind != .engine
  (!(mem && r.ord.isRelease) || (stores r.scope && !loads (fun _ => true))) &&
  (!(mem && r.ord.isAcquire) || !loads (fun o => !o.red)) &&
  (r.kind == .mem || (stores .team && !loads LoadOp.writes)) &&
  (!mem || t.after.all (fun a => !decide (a.2 ≤ r.before))) &&
  (!(r.ord.isRelease && decide (scopeRank r.scope ≥ 3)) || !s.nmfencePending t.team t.tid r.before) &&
  (r.scope != .system ||
    (!s.xfers.any (fun o => o.team == t.team && o.tids.contains t.tid && decide (o.id < r.before)) &&
     !s.conversions.any (fun k => k.team == t.team && k.tids.contains t.tid && decide (k.issue < r.before)) &&
     !s.tlbinvs.any (fun o => o.team == t.team && o.tids.contains t.tid && decide (o.id < r.before))))

/-- FENCE_COMPLETION (R178): the thread goes on, with what the fence orders (R190, R317); not after a trip (R387). -/
def execFenceCompletion (team tid : Nat) (s : State) : Out :=
  if s.power.tripped then .next s else
  match s.thread? team tid with
  | none => .next s
  | some t =>
    match t.fence with
    | none => .next s
    | some r =>
      .next (if s.fenceDone t r then
        s.modThread team tid (fun t => { (t.fenced r team (s.coreOf team)) with fence := none }) else s)

/-! ### Completion events -/

/-- LOAD_RESULT_ARRIVAL (R168, R172): the access is made, where it may be; a read of a bad word stops the launch
(R247). Not after a trip, which stops every core (R387). -/
def execLoadResultArrival (id : Nat) (s : State) : Out :=
  if s.power.tripped then .next s else
  match s.loads.find? (fun o => o.id == id) with
  | none => .next s
  | some o =>
    if s.loadReady o then
      let bad := if o.probe then none else s.badAt o.loc o.size
      .next (((s.loadMake o).enterAll o.team).stopBad o.team bad).settle
    else .next s

/-- STORE_PERFORMED (R173, R180): an entry of some store buffer is performed at a scope; those of a saved team wait for
its restoration (R348). Not after a trip (R387). -/
def execStorePerformed (id : Nat) (level : Scope) (s : State) : Out :=
  if s.power.tripped then .next s else
  match s.threads.find? (fun t => t.stores.any (fun e => e.id == id)) with
  | none => .next s
  | some t =>
    match s.coreOf t.team with
    | none => .next s
    | some _ => .next ((s.tryPerform t.team t.tid id level).settle)

end Sys2Proof.Machine
end

