-- ==== Sys2Proof/Machine/Copies.lean ====
section
/-! DEFINITION. Copies (R184 to R191): CPY and CPYMC, their line operations, and the release of held lanes. -/

namespace Sys2Proof.Machine

/-! ### The sides of a lane (R184, R185) -/

/-- What a side of a copy names. -/
inductive Side where
  | scratch | main | sys
  deriving DecidableEq, Repr, Inhabited

/-- The source and destination sides of DIR 0 to 4 (R184). -/
def dirSides (d : Dir) : Side × Side :=
  match d with
  | .m2s => (.main, .scratch)
  | .s2m => (.scratch, .main)
  | .s2s => (.scratch, .scratch)
  | .sys2s => (.sys, .scratch)
  | .s2sys => (.scratch, .sys)

/-- Words of the operand that names a side: a scratch address or a pair (R184). -/
def Side.words : Side → Nat
  | .scratch => 1
  | _ => 2

/-- The address that an operand gives for a side. -/
def Ctx.sideAddr (c : Ctx) (t : Thread) (k : Side) (o : Operand) : Nat :=
  match k with
  | .scratch => (c.val t o).toNat
  | _ => (c.val64 t o).toNat

/-- What the checks of one side give. -/
inductive SideRes where
  | ok (l : Loc)
  | miss
  | err (e : Cause)

/-- A main or system address through the page tables (R185, R284). -/
def State.sideWalk (s : State) (core asid : Nat) (sys wr : Bool) (va : Nat) : SideRes × State :=
  if va ≥ 2 ^ 57 then (.err .protection, s)
  else
    match s.translate core asid va with
    | (.missing, s) => (.miss, s)
    | (.protection, s) => (.err .protection, s)
    | (.page y w _ pa, s) =>
      if y != sys || (wr && !w) then (.err .protection, s)
      else (.ok { space := if sys then .sys else .main, addr := pa }, s)

/-- The checks of one side: alignment, then the decode of R166 or the translation of R185. -/
def State.sideCheck (s : State) (core asid : Nat) (l : Launch) (team : Nat) (k : Side) (wr : Bool) (addr n align : Nat) :
    SideRes × State :=
  if addr % align != 0 then (.err .misalign, s)
  else
    match k with
    | .scratch =>
      (match s.scratch l team addr n with
        | .ok x => .ok x
        | .error e => .err e, s)
    | .main => s.sideWalk core asid false wr addr
    | .sys => s.sideWalk core asid true wr addr

/-- The order in which lane causes are taken (R167). -/
def causeRank : Cause → Nat
  | .misalign => 0
  | .scratchRange => 1
  | .protection => 2
  | .rangeLock => 3
  | _ => 4

/-- A lane's fate at issue (R185, R343). -/
inductive LaneRes where
  | good (src dst : Loc)
  | held (src dst : Option Loc) (va : Nat)
  | hit (src dst : Loc) (addr : Nat)
  | bad (e : Cause) (addr : Nat)

/-- The place of a side, where it has one. -/
def SideRes.loc : SideRes → Option Loc
  | .ok l => some l
  | _ => none

/-- The cause of a side that traps, with its address. -/
def SideRes.err? (r : SideRes) (addr : Nat) : Option (Cause × Nat) :=
  match r with
  | .err e => some (e, addr)
  | _ => none

/-- Both sides together: a check that traps decides first, then a missing translation, then a watch slot. -/
def joinSides (a b : SideRes) (sa da : Nat) (watch : Option Nat) : LaneRes :=
  match a.err? sa, b.err? da with
  | some x, some y => if causeRank x.1 ≤ causeRank y.1 then .bad x.1 x.2 else .bad y.1 y.2
  | some x, none => .bad x.1 x.2
  | none, some y => .bad y.1 y.2
  | none, none =>
    match a.loc, b.loc with
    | some s, some d =>
      (match watch with
        | some w => .hit s d w
        | none => .good s d)
    | sl, dl => .held sl dl (if sl.isNone then sa else da)

/-- The address of a lane's side that hits a watch slot: source first (R343). -/
def State.copyWatch (s : State) (asid n : Nat) (ks : Side × Side) (sa da : Nat) : Option Nat :=
  if s.watched asid (ks.1 != .scratch) sa n true false then some sa
  else if s.watched asid (ks.2 != .scratch) da n false true then some da
  else none

/-- One lane of a copy. -/
def State.copyLane (s : State) (c : Ctx) (ks : Side × Side) (n : Nat) (sa da : Nat) : LaneRes × State :=
  let (a, s) := s.sideCheck c.core c.launch.asid c.launch c.grp.team ks.1 false sa n n
  let (b, s) := s.sideCheck c.core c.launch.asid c.launch c.grp.team ks.2 true da n n
  (joinSides a b sa da (s.copyWatch c.launch.asid n ks sa da), s)

/-! ### Moves and line operations (R186) -/

/-- The key of the line operation that a word belongs to: the 256-byte unit of the main or system side, or the
128-byte source line of a scratch-to-scratch copy. -/
def lineKey (src dst : Loc) : Loc :=
  match src.space, dst.space with
  | .main, _ | .sys, _ => { src with addr := src.addr / 256 }
  | _, .main | _, .sys => { dst with addr := dst.addr / 256 }
  | _, _ => { src with addr := src.addr / 128 }

/-- The words of one lane, with line 0. -/
def laneMoves (tid n : Nat) (used : List (Nat × Nat)) (src dst : Loc) : List Move :=
  (List.range (n / 4)).map (fun i =>
    { tid := tid, src := { src with addr := src.addr + 4 * i }, dst := { dst with addr := dst.addr + 4 * i },
      line := 0, writes := true, early := none, landed := false, used := used })

/-- Line numbers from `base` upward, one for each key; a multicast word belongs to a line of its own receiver. -/
def numberLines (base : Nat) (ms : List Move) : List Move :=
  let key := fun (m : Move) => (lineKey m.src m.dst, match m.dst.space with
    | .lsm t => t
    | _ => 0)
  let ks := (ms.map key).dedup
  ms.map (fun m => { m with line := base + ks.findIdx (fun k => k == key m) })

/-- Where two participants name one destination word the higher-positioned one writes it (R186). The moves stand
in ascending position; `later` are the destinations of held lanes with their positions. -/
def markWrites (pos : Nat → Nat) (later : List (Nat × Loc × Nat)) (ms : List Move) : List Move :=
  ms.map (fun m =>
    let beaten := ms.any (fun x => x.dst == m.dst && decide (pos m.tid < pos x.tid)) ||
      later.any (fun x => decide (pos m.tid < pos x.1) && overlaps m.dst 4 x.2.1 x.2.2)
    { m with writes := m.writes && !beaten })

/-- The destinations of a lane: its own, or the LSM of every receiving team at that address (R191). -/
def copyDests (teams : Option (List Nat)) (d : Loc) : List Loc :=
  match teams with
  | none => [d]
  | some ts => ts.map (fun t => { space := .lsm t, addr := d.addr })

/-- Bytes of a lane and its sides, for the kinds that copy. -/
def XferKind.copyForm : XferKind → Option (Nat × (Side × Side))
  | .cpy n d => some (n, dirSides d)
  | .cpymc n _ _ => some (n, (.main, .scratch))
  | _ => none

/-- The virtual addresses among the two sides of a lane. -/
def vaSides (ks : Side × Side) (sa da : Nat) : List Nat :=
  (if ks.1 == .scratch then [] else [sa]) ++ (if ks.2 == .scratch then [] else [da])

/-! ### Issue -/

/-- The lanes of a copy with their fates, in ascending position. -/
structure CopyLane where
  tid : Nat
  lane : Nat
  sa : Nat
  da : Nat
  res : LaneRes

/-- The lanes checked one after another, with the translations they cached. -/
def State.copyLanes (s : State) (c : Ctx) (h : Head) (f : Thread → State → LaneRes × State) (sa da : Thread → Nat) :
    List CopyLane × State :=
  (c.actors h).foldl (fun (acc : List CopyLane × State) t =>
    let (r, s) := f t acc.2
    (acc.1 ++ [{ tid := t.tid, lane := t.lane, sa := sa t, da := da t, res := r }], s)) ([], s)

/-- The faults among the lanes; with U = 1 every participant takes the one lane's fault (R77). -/
def laneBad (who : Nat → List Nat) (ls : List CopyLane) : List (Nat × Cause × DWord) :=
  ls.flatMap (fun l => match l.res with
    | .bad e a => (who l.tid).map (fun i => (i, e, BitVec.ofNat 64 a))
    | _ => [])

/-- The watch hits among the lanes (R343). -/
def laneHits (who : Nat → List Nat) (ls : List CopyLane) : List (Nat × Cause × DWord) :=
  ls.flatMap (fun l => match l.res with
    | .hit _ _ a => (who l.tid).map (fun i => (i, Cause.watchpoint, BitVec.ofNat 64 a))
    | _ => [])

/-- The held entry of a lane. -/
def CopyLane.held? (l : CopyLane) : Option Held :=
  match l.res with
  | .held s d _ => some { tid := l.tid, lane := l.lane, srcVa := some l.sa, dstVa := some l.da, src := s, dst := d, watch := false, cmd := none }
  | .hit s d _ => some { tid := l.tid, lane := l.lane, srcVa := some l.sa, dstVa := some l.da, src := some s, dst := some d, watch := true, cmd := none }
  | _ => none

/-- The source place of a lane, where it is known. -/
def CopyLane.src? (l : CopyLane) : Option Loc :=
  match l.res with
  | .good s _ | .hit s _ _ => some s
  | .held s _ _ => s
  | .bad _ _ => none

def CopyLane.dst? (l : CopyLane) : Option Loc :=
  match l.res with
  | .good _ d | .hit _ d _ => some d
  | .held _ d _ => d
  | .bad _ _ => none

/-- The lane is part of the copy (R189). -/
def CopyLane.made (l : CopyLane) : Bool :=
  match l.res with
  | .bad _ _ => false
  | _ => true

/-- The lane waits for a translation. -/
def CopyLane.miss? (l : CopyLane) : Option Nat :=
  match l.res with
  | .held _ _ va => some va
  | _ => none

/-- The position of a thread among the participants of an operation, which stand in ascending position. -/
def tidPos (tids : List Nat) (tid : Nat) : Nat := tids.findIdx (fun x => x == tid)

/-- The record that an instruction's page-held lanes make (R277, R338). -/
def State.faultHeld (s : State) (c : Ctx) (kind op : Nat) (ls : List CopyLane) : State :=
  match ls.filterMap (fun l => l.miss?.map (fun va => (l.lane, va))) with
  | [] => s
  | p :: r => (s.bumpId).enterFault (c.faultRec s.faultId kind p.2 (maskOf ((p :: r).map (·.1))) (some op))

/-- One more copy of a multicast group is outstanding (R191). -/
def State.mcastUp (s : State) (kind : XferKind) : State :=
  match kind with
  | .cpymc _ g _ => { s with mcast := updWhere (fun m => m.id == g) (fun m => { m with outst := m.outst + 1 }) s.mcast }
  | _ => s

/-- A copy whose lanes have been checked: it stalls, is not made, or issues (R186 to R189). `teams` are the receivers
of a multicast with their cores. -/
def State.copyIssue (s0 : State) (c : Ctx) (h : Head) (kind : XferKind) (n : Nat) (rel : Bool) (bar : Option Nat)
    (teams : Option (List (Nat × Nat))) (ls : List CopyLane) (s : State) : State :=
  let ks := ((kind.copyForm).getD (0, (.scratch, .scratch))).2
  let who := fun i => if h.u then (c.parts h).map (·.tid) else [i]
  let made := ls.filter CopyLane.made
  let bad := laneBad who ls
  let hits := laneHits who ls
  if made.isEmpty then s.laneSplit c bad (fun s => s.sample c h [] 0 false)
  else
    let id := s.nextId
    let tids := made.flatMap (fun l => who l.tid)
    let rx := teams.map (fun ts => ts.map (·.1))
    let dsts : CopyLane → List (Loc × Nat) := fun l => match l.dst? with
      | some d => (copyDests rx d).map (fun x => (x, n))
      | none => []
    let srcs := made.filterMap (fun l => l.src?.map (fun x => (x, n)))
    let srcLocks := sideLocks id c.grp.team false srcs
    let dstLocks : List (Nat × List Lock) := match teams with
      | none => [(c.core, sideLocks id c.grp.team true (made.flatMap dsts))]
      | some ts => ts.map (fun (t : Nat × Nat) => (t.2, sideLocks id t.1 true ((made.flatMap dsts).filter (fun p => p.1.space == .lsm t.1))))
    -- the lock tables are asked in one step (R288)
    let locked := (s.takeLocks c.core (srcLocks ++ (dstLocks.filter (fun p => p.1 == c.core)).flatMap (·.2))).bind (fun s =>
      (dstLocks.filter (fun p => p.1 != c.core)).foldlM (fun (s : State) p => s.takeLocks p.1 p.2) s)
    let moves : List Move := made.flatMap (fun l => match l.res with
      | .good a b | .hit a b _ =>
        (copyDests rx b).flatMap (fun d => laneMoves l.tid n (s.leafKeys (some c.core) c.launch.asid (vaSides ks l.sa l.da)) a d)
      | _ => [])
    let later : List (Nat × Loc × Nat) := made.flatMap (fun l => match l.res with
      | .held _ _ _ => (dsts l).map (fun p => (l.tid, p.1, p.2))
      | _ => [])
    let moves := numberLines 0 (markWrites (tidPos tids) later moves)
    let held := made.filterMap CopyLane.held?
    let room := ((moves.filter (fun m => !held.any (fun x => x.tid == m.tid))).filterMap Move.unit).dedup.length +
      heldVas (fun h => if ks.1 == .scratch then h.dstVa.getD 0 else h.srcVa.getD 0) held
    if !s.barRoom c.grp.team bar 1 || c.ths.any (fun t => tids.contains t.tid && decide (t.xfcnt ≥ 255)) ||
        decide (s.freeSlots c.core < room) || s.loadsStuck c.grp.team tids (made.flatMap dsts) srcs rel || s.orderWait (c.parts h) then s0
    else
      match locked with
      | none => s0
      | some sl =>
        let touched := (made.flatMap dsts)
        let lines := (scratchOnly touched).flatMap (fun p => linesOf p.1 p.2)
        let op : XferOp := {
          id := id, core := c.core, team := c.grp.team, role := c.grp.role, asid := c.launch.asid, pc := c.pc,
          clause := { hdrAddr := c.grp.hdrAddr, hdr := c.grp.hdr }, kind := kind, rel := rel, uni := h.u, bar := bar,
          arrives := true, tids := tids, counted := tids, cleared := lines.dedup, moves := moves, held := held,
          parts := [], rsParts := [], waits := [], view := [] }
        let s := sl.laneSplit c (bad ++ hits) (fun s =>
          let s := s.bumpId
          let s : State := { s.clearLines lines with xfers := s.xfers ++ [op] }
          let s := s.barIssue c.grp.team bar 1
          let s := s.mcastUp kind
          let s := s.modThreads c.grp.team tids (fun t => { t with xfcnt := t.xfcnt + 1 })
          let s := s.modThreads c.grp.team (hits.map (·.1)) (fun t => { t with watchOp := some id })
          let s := s.parkHeld c.grp.team ((made.filter (fun l => l.miss?.isSome)).flatMap (fun l => who l.tid)) id
          let s := s.faultHeld c 0 id made
          s.sample c h [(id, 0)] ((moves.map (·.line)).dedup.length) false)
        (s.checkXfer id).settle

/-- A bad word that the walks of some lanes read (R185, R247). -/
def State.laneWalkBad (s : State) (c : Ctx) (ks : Side × Side) (n : Nat) (ls : List CopyLane) : Option Loc :=
  s.walkBad (some c.core) c.launch.asid ((ls.flatMap (fun l => vaSides ks l.sa l.da)).filter (fun a => a % n == 0))

/-- The lanes of a CPY. -/
def State.cpyLanes (s : State) (c : Ctx) (h : Head) (n : Nat) (ks : Side × Side) (d sr : Operand) : List CopyLane × State :=
  s.copyLanes c h (fun t s => s.copyLane c ks n (c.sideAddr t ks.1 sr) (c.sideAddr t ks.2 d))
    (fun t => c.sideAddr t ks.1 sr) (fun t => c.sideAddr t ks.2 d)

/-- CPY (R184 to R189). -/
def execCpy (h : Head) (sz : Fin 3) (dir : Dir) (rel : Bool) (d sr : Operand) (bar : BarSel) (s : State) : Out :=
  let ks := dirSides dir
  let n := 4 * 2 ^ sz.val
  run s [(d, ks.2.words), (sr, ks.1.words)] (fun c =>
    if (c.parts h).isEmpty then (s.sample c h [] 0 false).advance
    else if bar.isSome && s.acquiring (c.parts h) then s
    else if !s.barValid c.grp.team (barNum bar) then s.trapGroup c .barrierState none
    else
      let (ls, s') := s.cpyLanes c h n ks d sr
      (s.copyIssue c h (.cpy n dir) n rel (barNum bar) none ls s').stopBad c.grp.team (s.laneWalkBad c ks n ls))

/-- The teams of the grid that are resident on the member cores of a multicast group, with their cores (R191). -/
def State.receivers (s : State) (launch : Nat) (g : McGroup) : List (Nat × Nat) :=
  s.teams.filterMap (fun t =>
    match t.core? with
    | some k =>
      if t.launch == launch && (if k < 64 then g.mlo.getLsbD k else g.mhi.getLsbD (k - 64)) then some (t.key, k) else none
    | none => none)

/-- The group that every participant of a CPYMC names, with members (R191). -/
def State.mcGroup? (s : State) (g : Nat) : Option McGroup :=
  if g ≥ 64 then none
  else
    match s.mcast.find? (fun m => m.id == g) with
    | some m => if m.mlo == 0#64 && m.mhi == 0#64 then none else some m
    | none => none

/-- The lanes of a CPYMC: a DSM address has no place in an allotment. -/
def State.mcLanes (s : State) (c : Ctx) (h : Head) (n : Nat) (d sr : Operand) : List CopyLane × State :=
  let sa := fun t => c.sideAddr t .main sr
  let da := fun t => c.sideAddr t .scratch d
  s.copyLanes c h (fun t s =>
    if da t ≥ 0x10000000 && da t % n == 0 && sa t % n == 0 then (.bad .scratchRange (da t), s)
    else s.copyLane c (.main, .scratch) n (sa t) (da t)) sa da

/-- CPYMC (R191): a DSM destination has no place in an allotment. The group number is that of the lowest-positioned
participant (DEDUCED, log entry 12). -/
def execCpymc (h : Head) (sz : Fin 3) (rel : Bool) (d sr g : Operand) (bar : BarSel) (s : State) : Out :=
  let n := 4 * 2 ^ sz.val
  run s [(d, 1), (sr, 2), (g, 1)] (fun c =>
    match c.parts h with
    | [] => (s.sample c h [] 0 false).advance
    | lead :: _ =>
      match s.mcGroup? (c.val lead g).toNat with
      | none => s.trapGroup c .multicastState none
      | some mg =>
        if bar.isSome && s.acquiring (c.parts h) then s
        else if !s.barValid c.grp.team (barNum bar) then s.trapGroup c .barrierState none
        else
          let (ls, s') := s.mcLanes c h n d sr
          let ts := s.receivers c.launch.key mg
          (s.copyIssue c h (.cpymc n mg.id (ts.map (·.1))) n rel (barNum bar) (some ts) ls s').stopBad c.grp.team
            (s.laneWalkBad c (.main, .scratch) n ls))

/-! ### Line completion (R187 to R191) -/

/-- The moves of a line that are still to land and that nothing holds. -/
def XferOp.lineMoves (o : XferOp) (line : Nat) : List Move :=
  o.moves.filter (fun m => m.line == line && !m.landed && !o.watchHeld m.tid)

/-- The word that a move carries: read earlier, or now. -/
def State.moveWord (s : State) (o : XferOp) (m : Move) : Word :=
  m.early.getD (BitVec.ofNat 32 (leNat (s.engineView o.team (o.takers m.tid) o.id o.rel m.src 4)))

/-- The reads of some moves are noted, of those that have not been read earlier (R316). -/
def State.noteMoves (s : State) (o : XferOp) (ms : List Move) : State :=
  (ms.filter (fun m => m.early.isNone)).foldl (fun (s : State) m => s.noteEngine o.team (o.takers m.tid) o.id o.rel m.src 4) s

/-- A move can be carried out now, but for the neighbourhood of its main side. -/
def State.moveReady (s : State) (o : XferOp) (m : Move) : Bool :=
  (m.early.isSome || s.engineReady o.team (o.takers m.tid) o.id m.src 4 o.rel) && s.landReady o.team m.tid o.id m.dst 4

/-- The neighbourhood that a move needs: of its main side, unless that lies in the transit buffer (R262) or has been read. -/
def State.moveNb (s : State) (m : Move) : Option Nat :=
  let nb := fun (l : Loc) => if l.space == .main && !s.buffered l.addr then some (s.nbOf l.addr) else none
  if m.dst.space == .main then nb m.dst else if m.early.isNone then nb m.src else none

/-- The grids whose DONE words a move reads have ended before what observes the copy (R321). -/
def State.doneView (s : State) (l : Loc) : View :=
  if l.space != .main && l.space != .sys then []
  else ((s.lastWr (wordAt l)).syncs.filter (·.isDone)).foldl (fun v y => joinViews v y.view) []

/-- What a line operation's reads of DONE words order, by operation and by destination line (R318, R321). -/
def State.noteDone (s : State) (o : XferOp) (ms : List Move) : State :=
  ms.foldl (fun (s : State) m =>
    let v := s.doneView m.src
    if v.isEmpty then s
    else (s.modXfer o.id (fun o => { o with view := joinViews o.view v })).noteLine (lineOf m.dst) v) s

/-- COPY_LINE_COMPLETION (R186, R189): a line operation reads its words and lands them, once its neighbourhood serves it
(R199, R263, R264). A multicast reads each word once for all receivers (R191). The identifier may be that of a DONE
write (R269). No core's copy engine goes on after a trip (R387). -/
def execCopyLineCompletion (op line : Nat) (s : State) : Out :=
  if s.power.tripped then .next s else
  match s.xfer? op with
  | none => .next (s.doneLine op)
  | some o =>
    let ms := o.lineMoves line
    if ms.isEmpty || !ms.all (fun m => s.moveReady o m) then .next s
    else
      let nbs := (ms.filterMap s.moveNb).dedup
      match nbs.filter (fun nb => s.copyHeld nb (op, line)) with
      | nb :: r => .next ((nb :: r).foldl (fun (s : State) nb => s.copyArrives nb (op, line)) s)
      | [] =>
        let vals := ms.map (fun m => (m, s.moveWord o m))
        let bad := (ms.filter (fun m => m.early.isNone)).findSome? (fun m => s.badAt m.src 4)
        let s := (s.noteDone o ms).noteMoves o ms
        let s := vals.foldl (fun (s : State) p =>
          if p.1.writes then s.engineWrite o.team (o.takers p.1.tid) o.id p.1.dst (leBytes 4 p.2.toNat) else s) s
        let s := s.modXfer op (fun o => { o with moves := o.moves.map (fun m =>
          if ms.contains m then { m with landed := true, early := none }
          else
            match o.kind, vals.find? (fun p => p.1.tid == m.tid && p.1.src == m.src) with
            | .cpymc _ _ _, some p => if m.landed then m else { m with early := some p.2 }
            | _, _ => m) })
        let s := (nbs ++ s.waitedAt (op, line)).dedup.foldl (fun (s : State) nb => s.copyServed nb (op, line)) s
        .next ((s.afterLanding op).stopBad o.team bad).settle

/-- A copy's line operation reads a source word before it lands (R190): of main memory the whole 32-byte sector
(R265), where the neighbourhood serves it; it counts among the copies there until it has landed, so that no later command
changes what is left to read (R264, R265). A bad word stops the launch (R247). -/
def State.sampleCopy (s : State) (o : XferOp) (word : Nat) : State :=
  match o.moves[word]? with
  | none => s
  | some m =>
    let same := fun (x : Move) => x.line == m.line && !x.landed && x.early.isNone && !o.watchHeld x.tid &&
      (if m.src.space == .main then x.src.space == .main && x.src.addr / 32 == m.src.addr / 32 else x == m)
    let ms := o.moves.filter same
    let serves := m.src.space == .main && !s.buffered m.src.addr
    if ms.isEmpty || !ms.all (fun x => s.engineReady o.team (o.takers x.tid) o.id x.src 4 o.rel) then s
    else if serves && s.copyHeld (s.nbOf m.src.addr) (o.id, m.line) then
      s.copyArrives (s.nbOf m.src.addr) (o.id, m.line)
    else
      let bad := ms.findSome? (fun x => s.badAt x.src 4)
      let s := ((s.noteDone o ms).noteMoves o ms).modXfer o.id (fun p => { p with moves := p.moves.map (fun x =>
        if same x then { x with early := some (s.moveWord o x) } else x) })
      let s := if serves then s.copyArrives (s.nbOf m.src.addr) (o.id, m.line) else s
      s.stopBad o.team bad

/-! ### Release of held lanes (R338, R339, R343) -/

/-- A page that a lane needs: its address, its kind and whether it is written. -/
structure Piece where
  va : Nat
  sys : Bool
  wr : Bool

/-- The pages of a held copy lane. -/
def copyPieces (ks : Side × Side) (sa da : Nat) : List Piece :=
  (if ks.1 == .scratch then [] else [{ va := sa, sys := ks.1 == .sys, wr := false }]) ++
  (if ks.2 == .scratch then [] else [{ va := da, sys := ks.2 == .sys, wr := true }])

/-- What one walk from the tables finds for a piece. -/
def State.walkPiece (s : State) (asid : Nat) (p : Piece) : SideRes :=
  if p.va ≥ 2 ^ 57 then .err .protection
  else
    match s.walk asid p.va with
    | .missing => .miss
    | .protection => .err .protection
    | .page y w _ pa =>
      if y != p.sys || (p.wr && !w) then .err .protection else .ok { space := if p.sys then .sys else .main, addr := pa }

/-- The walk of every page of a held lane (R339): PROTECTION anywhere decides, then a missing translation. -/
def State.walkHeld (s : State) (asid tid : Nat) (ps : List Piece) : HeldWalk :=
  let rs := ps.map (fun p => (p, s.walkPiece asid p))
  let prot := rs.find? (fun r => match r.2 with
    | .err _ => true
    | _ => false)
  let miss := rs.find? (fun r => match r.2 with
    | .miss => true
    | _ => false)
  { tid := tid, pas := rs.filterMap (fun r => r.2.loc.map (·.addr)), used := s.leafKeys none asid (ps.map (·.va)), miss := prot.isNone && miss.isSome,
    prot := prot.isSome, va := ((prot.orElse (fun _ => miss)).map (·.1.va)).getD 0 }

/-- The places of a held copy lane once its pages have translated. -/
def heldPlaces (ks : Side × Side) (h : Held) (pas : List Nat) : Option (Loc × Loc) :=
  let place := fun (k : Side) (l : Option Loc) (pa : Option Nat) =>
    match k with
    | .scratch => l
    | .main => pa.map (fun a => ({ space := .main, addr := a } : Loc))
    | .sys => pa.map (fun a => ({ space := .sys, addr := a } : Loc))
  match place ks.1 h.src pas[0]?, place ks.2 h.dst (if ks.1 == .scratch then pas[0]? else pas[1]?) with
  | some a, some b => some (a, b)
  | _, _ => none

/-- Request slots that some translated lanes of a copy need (R275). -/
def XferOp.laneSlots (o : XferOp) (ws : List HeldWalk) : Nat :=
  match o.kind.copyForm with
  | none => 0
  | some (n, ks) =>
    (((o.held.filter (fun h => !h.watch)).filterMap (fun h =>
      (ws.find? (fun w => w.tid == h.tid)).bind (fun w => heldPlaces ks h w.pas))).flatMap (fun p =>
        (laneMoves 0 n [] p.1 p.2).filterMap Move.unit)).dedup.length

/-- A sampled copy counts the line operations that a replay adds (R310). -/
def State.countSampleLines (s : State) (op : Nat) (ms : List Move) : State :=
  { s with cores := s.cores.map (fun c => if c.samples.any (fun x => x.ids.any (fun p => p.1 == op)) then
      { c with samples := updWhere (fun x => x.ids.any (fun p => p.1 == op)) (fun x =>
          { x with lines := x.lines + (ms.map (·.line)).dedup.length }) c.samples }
    else c) }

/-- The lanes of a copy that a replay found translating proceed within it, unless a watch slot holds them now
(R343): the state, and the threads that trap with the addresses they hit. -/
def State.copyRelease (s : State) (o : XferOp) (ws : List HeldWalk) : State × List (Nat × Nat) :=
  match o.kind.copyForm with
  | none => (s, [])
  | some (n, ks) =>
    let ok := (o.held.filter (fun h => !h.watch)).filterMap (fun h =>
      (ws.find? (fun w => w.tid == h.tid)).bind (fun w => (heldPlaces ks h w.pas).map (fun p => (h, w.used, p))))
    let hit := ok.filterMap (fun p =>
      (s.copyWatch o.asid n ks (p.1.srcVa.getD 0) (p.1.dstVa.getD 0)).map (fun a => (p.1.tid, a)))
    let rx := match o.kind with
      | .cpymc _ _ ts => some ts
      | _ => none
    let new : List Move := ok.flatMap (fun p => (copyDests rx p.2.2.2).flatMap (fun d => laneMoves p.1.tid n p.2.1 p.2.2.1 d))
    let base := o.moves.foldl (fun m x => Nat.max m (x.line + 1)) 0
    let gone := ok.map (·.1.tid)
    let stays := (ok.filter (fun p => hit.any (fun q => q.1 == p.1.tid))).map (fun p =>
      { p.1 with src := some p.2.2.1, dst := some p.2.2.2, watch := true })
    ((s.countSampleLines o.id (numberLines base new)).modXfer o.id (fun o => { o with
      moves := markWrites (tidPos o.tids) [] (o.moves ++ numberLines base new),
      held := o.held.filter (fun x => x.watch || !gone.contains x.tid) ++ stays }), hit)

end Sys2Proof.Machine
end

