-- ==== Sys2Proof/Machine/BankUnits.lean ====
section
/-! DEFINITION. Bank-unit commands (R192 to R200, R263 to R265, R276): NMADD, NMMAX, NMAXPY, NMSTEP and NMFENCE, the
command queues and the events of the bank units. -/

namespace Sys2Proof.Machine

/-! ### Arithmetic (R195 to R197) -/

/-- A B16 operation on both halves of a word. -/
def onHalves (f : Nat → Nat → Nat) (a b : Word) : Word :=
  BitVec.ofNat 32 (packElems 16 [f (a.toNat % 65536) (b.toNat % 65536), f (a.toNat / 65536) (b.toNat / 65536)])

/-- NMADD on one 32-bit element (R195). -/
def nmAddWord (ty : NmTy) (y x : Word) : Word :=
  match ty with
  | .f32 => BitVec.ofNat 32 (fmtF32.sumRn y.toNat x.toNat)
  | .b16x2 => onHalves fmtB16.sumRn y x
  | .i32 | .n32 => y + x

/-- NMMAX on one 32-bit element (R195). -/
def nmMaxWord (ty : NmTy) (y x : Word) : Word :=
  match ty with
  | .f32 => BitVec.ofNat 32 (fmtF32.minMax true y.toNat x.toNat)
  | .b16x2 => onHalves (fmtB16.minMax true) y x
  | .i32 => if y.slt x then x else y
  | .n32 => if y.ult x then x else y

/-- The F32 value of a word, and the rounding of R197: to nearest, subnormals kept. -/
def f32v (w : Word) : Val := fmtF32.val w.toNat
def f32r (x : Val) : Word := BitVec.ofNat 32 (fmtF32.ofVal .rn false false x).bits

/-- NMAXPY on one element (R196). -/
def nmAxpyWord (a x y : Word) : Word := f32r (Val.add .rn (Val.mul (f32v a) (f32v x)) (f32v y))

/-- NMSTEP on one element (R197): the new w, m and v, from the nine parameters. -/
def nmStepWords (p : List Word) (w m v g : Word) : Word × Word × Word :=
  let q := fun i => f32v (p.getD i 0#32)
  let m1 := f32r (Val.add .rn (Val.mul (q 0) (f32v m)) (Val.mul (q 1) (f32v g)))
  let v1 := f32r (Val.add .rn (Val.mul (q 2) (f32v v)) (Val.mul (Val.mul (q 3) (f32v g)) (f32v g)))
  let h := BitVec.ofNat 32 (fmtF32.sqrtTo .rn false (Val.mul (q 5) (f32v v1))).bits
  let d := f32r (Val.add .rn (f32v h) (q 6))
  let r := BitVec.ofNat 32 (fmtF32.divTo .rn false (Val.mul (q 4) (f32v m1)) (f32v d)).bits
  let step := Val.mul (q 7) (Val.add .rn (f32v r) (Val.mul (q 8) (f32v w)))
  (f32r (Val.add .rn (f32v w) step.neg), m1, v1)

/-- The words that row `r` of a command writes, with their addresses, from memory as it stands when the row is opened; of
NMSTEP every row comes from one computation of the four lines (R197). -/
def BankCmd.compute (b : BankCmd) (mem : Memory) (r : Nat) : List (Nat × Word) :=
  let src := wordsOf (b.src.getD [])
  let lo := 2048 * r
  match b.kind with
  | .add ty => (List.range (b.bytes / 4)).map (fun i =>
      (b.y + 4 * i, nmAddWord ty (mem.readWord (b.y + 4 * i)) (src.getD i 0#32)))
  | .max ty => (List.range (b.bytes / 4)).map (fun i =>
      (b.y + 4 * i, nmMaxWord ty (mem.readWord (b.y + 4 * i)) (src.getD i 0#32)))
  | .axpy a => (List.range 512).map (fun i =>
      (b.y + lo + 4 * i, nmAxpyWord a (mem.readWord (b.x + lo + 4 * i)) (mem.readWord (b.y + lo + 4 * i))))
  | .step zg =>
    let el := (List.range 512).map (fun i => nmStepWords src (mem.readWord (b.y + 4 * i))
      (mem.readWord (b.y + 2048 + 4 * i)) (mem.readWord (b.y + 4096 + 4 * i)) (mem.readWord (b.y + 6144 + 4 * i)))
    el.mapIdx (fun i e => (b.y + 4 * i, e.1)) ++ el.mapIdx (fun i e => (b.y + 2048 + 4 * i, e.2.1)) ++
      el.mapIdx (fun i e => (b.y + 4096 + 4 * i, e.2.2)) ++
      (if zg then (List.range 512).map (fun i => (b.y + 6144 + 4 * i, 0#32)) else [])

/-! ### Checks (R193) -/

/-- Lines of an NMAXPY whose pages are walked: a count out of range names at least the first (DEDUCED, log entry 12). -/
def axpyLines (n : Nat) : Nat := if n < 1 then 1 else if n > 8 then 8 else n

/-- The 2 KiB lines that some bytes touch, at their first byte in each. -/
def linePieces (va len : Nat) (wr : Nat → Bool) : List Piece :=
  (List.range ((va + len - 1) / 2048 + 1 - va / 2048)).map (fun i =>
    let a := if i = 0 then va else (va / 2048 + i) * 2048
    { va := a, sys := false, wr := wr a })

/-- The main operands of a command by virtual address, line by line: y, or w, and x. LG is written only under ZG (R197). -/
def BankCmd.pieces (b : BankCmd) (y x : Nat) : List Piece :=
  match b.kind with
  | .add _ | .max _ => linePieces y b.bytes (fun _ => true)
  | .axpy _ =>
    linePieces y (2048 * axpyLines (b.bytes / 2048)) (fun _ => true) ++
    linePieces x (2048 * axpyLines (b.bytes / 2048)) (fun _ => false)
  | .step zg => linePieces y 8192 (fun a => zg || decide (a < y + 6144))

/-- The region and operand group that a physical address lies in, when it is GATHERED (R193). -/
def State.groupOf (s : State) (pa : Nat) : Option (Nat × Nat) :=
  match s.regionAt pa with
  | some r => if r.state = 1 then some (r.id, (pa - r.pbase) / 2048 / gOf r.gc) else none
  | none => none

/-- The placement that NM_UNALIGNED asks for (R193). -/
def BankCmd.placed (b : BankCmd) (y x : Nat) (groups : List (Nat × Nat)) : Bool :=
  let one := groups.dedup.length ≤ 1
  match b.kind with
  | .add _ | .max _ => y % b.bytes == 0
  | .axpy _ => y % 2048 == 0 && x % 2048 == 0 && one && decide (1 ≤ b.bytes / 2048 ∧ b.bytes / 2048 ≤ 8)
  | .step _ => y % 2048 == 0 && one

/-- The address that NM_UNALIGNED reports: x where it alone is misaligned. -/
def BankCmd.misplaced (b : BankCmd) (y x : Nat) : Nat :=
  match b.kind with
  | .axpy _ => if y % 2048 == 0 && x % 2048 != 0 then x else y
  | _ => y

/-- Checks 2 to 4 of R193 on a command whose pages have translated: the command ready to be sent. -/
def State.bankCheck (s : State) (l : Launch) (team : Nat) (b : BankCmd) (y x : Nat) (src : Option Nat) (pas : List Nat) :
    Except (Cause × Nat) BankCmd :=
  let ps := b.pieces y x
  let groups := pas.map (fun pa => s.groupOf pa)
  match (ps.zip groups).find? (fun p => p.2.isNone) with
  | some p => .error (.regionState, p.1.va)
  | none =>
    if !b.placed y x (groups.filterMap id) then .error (.nmUnaligned, b.misplaced y x)
    else
      let b := { b with y := pas.headD 0, x := pas.getD (ps.length / 2) 0, nb := s.nbOf (pas.headD 0) }
      match src with
      | none => .ok b
      | some a =>
        if a % b.srcLen != 0 then .error (.misalign, a)
        else
          match s.scratch l team a b.srcLen with
          | .error e => .error (e, a)
          | .ok loc => .ok { b with srcLoc := some loc }

/-- The address of a command that hits a watch slot (R343): its main operands, then its scratch source. -/
def State.bankWatch (s : State) (asid : Nat) (b : BankCmd) (y x : Nat) (src : Option Nat) : Option Nat :=
  let len := match b.kind with
    | .add _ | .max _ => b.bytes
    | _ => 2048
  match (b.pieces y x).find? (fun p => s.watched asid true p.va len true p.wr) with
  | some p => some p.va
  | none =>
    match src with
    | some a => if s.watched asid false a b.srcLen true false then some a else none
    | none => none

/-! ### Issue (R192 to R194) -/

/-- A participant's command as its operands give it. -/
structure BankLane where
  cmd : BankCmd
  y : Nat
  x : Nat
  src : Option Nat

/-- The fate of a participant's command at issue. -/
inductive BankRes where
  | ready (b : BankCmd) (hit : Option Nat)
  | held (va : Nat)
  | bad (e : Cause) (addr : Nat)

/-- The pages of a command walked through the core's translation cache. -/
def State.bankWalk (s : State) (core asid : Nat) (ps : List Piece) : List (Piece × SideRes) × State :=
  ps.foldl (fun (acc : List (Piece × SideRes) × State) p =>
    let (r, s) := acc.2.sideWalk core asid p.sys p.wr p.va
    (acc.1 ++ [(p, r)], s)) ([], s)

/-- One participant checked (R193). -/
def State.bankLane (s : State) (c : Ctx) (l : BankLane) : BankRes × State :=
  let (rs, s) := s.bankWalk c.core c.launch.asid (l.cmd.pieces l.y l.x)
  match rs.findSome? (fun r => r.2.err? r.1.va) with
  | some e => (.bad e.1 e.2, s)
  | none =>
    match rs.find? (fun r => r.2.loc.isNone) with
    | some r => (.held r.1.va, s)
    | none =>
      match s.bankCheck c.launch c.grp.team l.cmd l.y l.x l.src (rs.filterMap (fun r => r.2.loc.map (·.addr))) with
      | .error e => (.bad e.1 e.2, s)
      | .ok b => (.ready { b with used := s.leafKeys (some c.core) c.launch.asid ((l.cmd.pieces l.y l.x).map (·.va)) } (s.bankWatch c.launch.asid b l.y l.x l.src), s)

/-- A blank command of a kind. -/
def BankCmd.new (op team tid core asid : Nat) (tids : List Nat) (kind : BankKind) (bytes : Nat) (rel : Bool) : BankCmd :=
  { id := 0, op := op, team := team, tid := tid, tids := tids, core := core, asid := asid, used := [], kind := kind, nb := 0, y := 0, x := 0, bytes := bytes,
    srcLoc := none, early := [], src := none, rel := rel, sectors := [],
    acked := false, folded := false, old := [], mirrored := false, posted := false }

/-- The place of a held participant's source, as its operand names it: it is checked only at the release (R193). -/
def State.heldSource (_s : State) (c : Ctx) (l : BankLane) : Option Loc :=
  l.src.map (fun a => { space := if a < 0x10000000 then .lsm c.grp.team else .dsm, addr := a })

/-- The held entry of a participant. -/
def BankLane.held (l : BankLane) (t : Thread) (src : Option Loc) (watch : Bool) : Held :=
  { tid := t.tid, lane := t.lane, srcVa := l.src.orElse (fun _ => some l.x), dstVa := some l.y, src := src, dst := none,
    watch := watch, cmd := some l.cmd }

/-- The participants checked one after another, with the translations they cached. -/
def State.bankLanes (s : State) (c : Ctx) (h : Head) (mk : Thread → BankLane) : List (Thread × BankLane × BankRes) × State :=
  (c.actors h).foldl (fun (acc : List (Thread × BankLane × BankRes) × State) t =>
    let (r, s) := acc.2.bankLane c (mk t)
    (acc.1 ++ [(t, mk t, r)], s)) ([], s)

/-- A bank-unit instruction: each participant's command checked and sent, held or refused (R193, R194). -/
def bankForm (s0 : State) (h : Head) (ops : List (Operand × Nat))
    (mk : Ctx → Thread → Nat → List Nat → BankLane) : Out :=
  run s0 ops (fun c =>
    let who := fun i => if h.u then (c.parts h).map (·.tid) else [i]
    let id := s0.nextId
    let (ls, s) := s0.bankLanes c h (fun t => mk c t id (who t.tid))
    let walked := s0.walkBad (some c.core) c.launch.asid (ls.flatMap (fun p => (p.2.1.cmd.pieces p.2.1.y p.2.1.x).map (·.va)))
    let bad := ls.flatMap (fun p => match p.2.2 with
      | .bad e a => (who p.1.tid).map (fun i => (i, e, BitVec.ofNat 64 a))
      | _ => [])
    let hits := ls.flatMap (fun p => match p.2.2 with
      | .ready _ (some a) => (who p.1.tid).map (fun i => (i, Cause.watchpoint, BitVec.ofNat 64 a))
      | _ => [])
    let cmds : List BankCmd := (ls.filterMap (fun p => match p.2.2 with
      | .ready b _ => some b
      | _ => none)).mapIdx (fun i b => { b with id := id + 1 + i })
    let held : List Held := ls.filterMap (fun p => match p.2.2 with
      | .held _ => some (p.2.1.held p.1 (s.heldSource c p.2.1) false)
      | .ready b (some _) => some (p.2.1.held p.1 b.srcLoc true)
      | _ => none)
    let made := (ls.filter (fun p => match p.2.2 with
      | .bad _ _ => false
      | _ => true)).map (·.1)
    let misses := ls.filterMap (fun p => match p.2.2 with
      | .held va => some (p.1, va)
      | _ => none)
    if made.isEmpty then (s.laneSplit c bad (fun s => s.sample c h [] 0 false)).stopBad c.grp.team walked
    else
      let tids := made.flatMap (fun t => who t.tid)
      let srcs := cmds.filterMap (fun b => b.srcLoc.map (fun l => (l, b.srcLen))) ++
        held.filterMap (fun x => if x.watch then none else x.cmd.bind (fun b => x.src.map (fun l => (l, b.srcLen))))
      let room := (cmds.filter (fun b => !hits.any (fun x => x.1 == b.tid))).length + misses.length
      if c.ths.any (fun t => tids.contains t.tid && decide (t.xfcnt ≥ 255)) || decide (s.freeSlots c.core < room) ||
          cmds.any (fun b => s.loadsStuck c.grp.team b.tids [] (b.srcLoc.map (fun l => (l, b.srcLen))).toList b.rel) || s.orderWait (c.parts h) then s0
      else
        match s.takeLocks c.core (sideLocks id c.grp.team false srcs) with
        | none => s0
        | some sl =>
          let op : XferOp := {
            id := id, core := c.core, team := c.grp.team, role := c.grp.role, asid := c.launch.asid, pc := c.pc,
            clause := { hdrAddr := c.grp.hdrAddr, hdr := c.grp.hdr }, kind := .bank, rel := false, uni := h.u,
            bar := none, arrives := true, tids := tids, counted := tids, cleared := [], moves := [], held := held,
            parts := [], rsParts := [], waits := cmds.map (·.id), view := [] }
          let s := sl.laneSplit c (bad ++ hits) (fun s =>
            let s := s.bumpId (1 + cmds.length)
            let s : State := { s with xfers := s.xfers ++ [op], waitingCmds := s.waitingCmds ++ cmds }
            let s := s.modThreads c.grp.team tids (fun t => { t with xfcnt := t.xfcnt + 1 })
            let s := s.modThreads c.grp.team (hits.map (·.1)) (fun t => { t with watchOp := some id })
            let s := s.parkHeld c.grp.team (misses.flatMap (fun p => who p.1.tid)) id
            let s := match misses with
              | [] => s
              | p :: _ => (s.bumpId).enterFault (c.faultRec s.faultId 1 p.2 (maskOf (misses.map (fun (p : Thread × Nat) => p.1.lane))) (some id))
            s.sample c h [(id, 0)] (cmds.flatMap (fun b => b.ranges.flatMap (fun r =>
              (List.range ((r.1 + r.2 - 1) / 2048 + 1 - r.1 / 2048)).map (fun i => r.1 / 2048 + i)))).dedup.length false)
          s.settle.stopBad c.grp.team walked)

/-- Bytes of a LEN code (R192). -/
def lenBytes (len : Nat) : Nat := 4 * 2 ^ len

/-- A participant's command with a scratch source, as its operands give it (R192). -/
def bankLaneOf (kind : BankKind) (bytes : Nat) (rel : Bool) (y sr : Operand) (c : Ctx) (t : Thread) (op : Nat) (who : List Nat) : BankLane :=
  { cmd := .new op c.grp.team t.tid c.core c.launch.asid who kind bytes rel, y := (c.val64 t y).toNat, x := 0,
    src := some (c.val t sr).toNat }

/-- A participant's NMAXPY as its operands give it (R192, R196). -/
def axpyLaneOf (y x a n : Operand) (c : Ctx) (t : Thread) (op : Nat) (who : List Nat) : BankLane :=
  { cmd := .new op c.grp.team t.tid c.core c.launch.asid who (.axpy (BitVec.ofNat 32 (c.src t .f32 a))) (2048 * (c.val t n).toNat) false,
    y := (c.val64 t y).toNat, x := (c.val64 t x).toNat, src := none }

/-- NMADD (R192 to R195). -/
def execNmadd (h : Head) (ty : NmTy) (len : Fin 7) (rel : Bool) (y sr : Operand) (s : State) : Out :=
  bankForm s h [(y, 2), (sr, 1)] (bankLaneOf (.add ty) (lenBytes len.val) rel y sr)

/-- NMMAX (R192 to R195). -/
def execNmmax (h : Head) (ty : NmTy) (len : Fin 7) (rel : Bool) (y sr : Operand) (s : State) : Out :=
  bankForm s h [(y, 2), (sr, 1)] (bankLaneOf (.max ty) (lenBytes len.val) rel y sr)

/-- NMAXPY (R192, R196). -/
def execNmaxpy (h : Head) (y x a n : Operand) (s : State) : Out :=
  bankForm s h [(y, 2), (x, 2), (a, 1), (n, 1)] (axpyLaneOf y x a n)

/-- NMSTEP (R192, R197). -/
def execNmstep (h : Head) (zg rel : Bool) (w p : Operand) (s : State) : Out :=
  bankForm s h [(w, 2), (p, 1)] (bankLaneOf (.step zg) 8192 rel w p)

/-! ### Acceptance (R194, R276) -/

/-- The command has been sent: no watchpoint holds it. -/
def State.sent (s : State) (b : BankCmd) : Bool :=
  match s.xfer? b.op with
  | some o => !o.watchHeld b.tid
  | none => true

/-- An earlier command of the same thread or instruction to the neighbourhood has still to arrive (R195, R276). -/
def State.cmdBehind (s : State) (b : BankCmd) : Bool :=
  s.waitingCmds.any (fun x => decide (x.id < b.id) && x.nb == b.nb && x.team == b.team &&
    (x.op == b.op || x.tids.any (fun t => b.tids.contains t)) && s.sent x)

/-- The source read into the command (R194): words read earlier keep their values. -/
def State.readSource (s : State) (b : BankCmd) : List Byte :=
  match b.srcLoc with
  | none => []
  | some l => bytesOfWords ((wordsOf (s.engineView b.team b.tids b.op b.rel l b.srcLen)).mapIdx (fun i w => (assocGet b.early i).getD w))

/-- The read of the source is noted, of the words that have not been read earlier (R316). -/
def State.noteSource (s : State) (b : BankCmd) : State :=
  match b.srcLoc with
  | none => s
  | some l => (List.range (b.srcLen / 4)).foldl (fun (s : State) i =>
      if (assocGet b.early i).isSome then s
      else s.noteEngine b.team b.tids b.op b.rel { l with addr := l.addr + 4 * i } 4) s

/-- The source can be read now (R187, R190, R194). -/
def State.sourceReady (s : State) (b : BankCmd) : Bool :=
  match b.srcLoc with
  | none => true
  | some l => s.engineReady b.team b.tids b.op l b.srcLen b.rel

/-- COMMAND_ACCEPTANCE (R194, R276): the command enters its neighbourhood's queue and XFCNT falls; not after a trip
(R387). -/
def execCommandAcceptance (op tid : Nat) (s : State) : Out :=
  if s.power.tripped then .next s else
  match s.waitingCmds.find? (fun b => b.op == op && b.tid == tid) with
  | none => .next s
  | some b =>
    if !s.sent b || s.cmdBehind b || !s.sourceReady b || decide ((s.unit b.nb).queue.length ≥ Config.bankQueue) then .next s
    else
      let bad := b.srcLoc.bind (fun l => s.badAt l b.srcLen)
      let new := { b with src := some (s.readSource b), early := [] }
      let s := s.noteSource b
      let b := new
      let s : State := { s with waitingCmds := s.waitingCmds.filter (fun x => x.id != b.id) }
      let s := (s.modUnit b.nb (fun u => { u with queue := u.queue ++ [b] })).startUnit b.nb
      let s := match s.xfer? op with
        | none => s
        | some o =>
          let done := o.counted.filter (fun t => b.tids.contains t)
          (s.modThreads o.team done Thread.xfDown).modXfer op (fun o => { o with
            waits := o.waits.filter (fun i => i != b.id), counted := o.counted.filter (fun t => !b.tids.contains t) })
      let s := (s.bankLocks op ((b.srcLoc.map (fun l => (l, b.srcLen))).toList)).checkXfer op
      .next (s.stopBad b.team bad).settle

/-- A waiting command reads one word of its source before it is accepted (R190, R194). -/
def State.sampleBank (s : State) (b : BankCmd) (word : Nat) : State :=
  match b.srcLoc with
  | none => s
  | some l =>
    if word ≥ b.srcLen / 4 || (assocGet b.early word).isSome || !s.sent b || !s.sourceReady b then s
    else
      let at_ : Loc := { l with addr := l.addr + 4 * word }
      let w : Word := BitVec.ofNat 32 (leNat (s.engineView b.team b.tids b.op b.rel at_ 4))
      let bad := s.badAt at_ 4
      let s := s.noteEngine b.team b.tids b.op b.rel at_ 4
      let s : State :=
        { s with waitingCmds := updWhere (fun x => x.id == b.id) (fun x => { x with early := assocSet x.early word w }) s.waitingCmds }
      let all := decide (b.srcLen ≤ 4 * (b.early.length + 1))
      let s := s.bankLocks b.op (if all then [(l, b.srcLen)] else [])
      s.stopBad b.team bad

/-! ### Running commands (R198, R199, R263 to R265) -/

/-- A waiting copy keeps the head command from opening another row: its window has ended, and it is to suspend (R264). -/
def State.rowYields (s : State) (nb : Nat) : Bool := !(s.unit nb).windowOpen && !(s.waitsAt nb).isEmpty

/-- The bytes of main memory that the command reads as it opens row `r`: of NMSTEP all its operands with the first row
(R197). -/
def BankCmd.rowReads (b : BankCmd) (r : Nat) : List (Nat × Nat) :=
  match b.kind with
  | .add _ | .max _ => [(b.y, b.bytes)]
  | .axpy _ => [(b.y + 2048 * r, 2048), (b.x + 2048 * r, 2048)]
  | .step _ => if r = 0 then [(b.y, 8192)] else []

/-- The head command opens its next row: the accumulators take the results (R263). A bad word among those that it reads
stops the launch (R247). -/
def State.openRow (s : State) (nb : Nat) : State :=
  let u := s.unit nb
  match u.head with
  | none => s
  | some b =>
    if u.suspended || u.rowOpen || s.rowYields nb || decide (b.rowCount ≤ u.mpc) then s
    else
      let new := if u.mpc = 0 || (match b.kind with
          | .step _ => false
          | _ => true) then b.compute s.main u.mpc else u.acc
      let old := match b.kind with
        | .step _ => if u.mpc = 0 then s.main.readBytes b.y 6144 else b.old
        | _ => []
      let bad := (b.rowReads u.mpc).findSome? (fun r => s.badAt ⟨.main, r.1⟩ r.2)
      let s := (b.rowReads u.mpc).foldl (fun (s : State) r => s.noteEngine b.team b.tids b.op false ⟨.main, r.1⟩ r.2) s
      let s := s.modUnit nb (fun u => { u with rowOpen := true, acc := new, queue := updAt 0 (fun b => { b with old := old }) u.queue })
      match bad with
      | some l => s.readBad b.team l
      | none => s

/-- The row has been written back: the microprogram counter goes on (R263). -/
def State.closeRow (s : State) (nb : Nat) : State :=
  let u := s.unit nb
  match u.head with
  | none => s
  | some b =>
    if u.rowOpen && b.rowDone u.mpc then s.modUnit nb (fun u => { u with mpc := u.mpc + 1, rowOpen := false }) else s

/-- The protection that RESIL selects for NMSTEP (R198, R242): SEL 3 acts as 0. -/
def State.resilSel (s : State) : Nat := if s.resil.toNat % 4 = 3 then 0 else s.resil.toNat % 4

/-- Every sector of the command has been written back. -/
def BankCmd.allWritten (b : BankCmd) : Bool := (List.range b.sectorCount).all (fun i => b.sectors.contains i)

/-- The lines of an NMSTEP that R198 sends: LW, LM and LV. -/
def stepLines (y : Nat) : List Nat := [y, y + 2048, y + 4096]

/-- A transfer at the end of the fabric transmit queue (R279). -/
def State.enqueue (s : State) (node prio len : Nat) (what : XferWhat) (op : Option (Nat × Nat)) (cmd : Option Nat) (entry : Nat) :
    State :=
  let x : Transfer := { id := s.nextId, node := node, prio := prio, len := len, sentBytes := 0, what := what,
                        op := op, cmd := cmd, entry := entry }
  { s.bumpId with fabric := s.fabric ++ [x] }

/-- Parts of QPOST and AMSG that have still to enqueue their transfer: an instruction stalls at issue rather than find
the queue full (R279). -/
def State.fabricDue (s : State) : Nat :=
  ((s.xfers.filter (fun o => o.kind == .qpost || o.kind == .amsg)).map (fun o =>
    (o.parts.filter (fun p => p.node != s.hostCtl.fabNode && !p.sent && !p.done)).length)).sum

/-- The fabric transmit queue has room for `n` more transfers (R279). -/
def State.fabricRoom (s : State) (n : Nat) : Bool := decide (s.fabric.length + s.fabricDue + n ≤ Config.fabricTransfers)

/-- The exclusive OR of two byte lists. -/
def xorBytes (a b : List Byte) : List Byte := List.zipWith (fun x y => x ^^^ y) a b

/-- The Huddle stops for a group, with its event, unless it has stopped already (R352, R381). -/
def State.stopHuddle (s : State) (g : Nat) : State :=
  if s.huddleStop then s else { s with huddleStop := true, stopGrp := g }.postEvent 4 (leBytes 8 g)

def State.modQuorum (s : State) (g : Nat) (f : QGroup → QGroup) : State :=
  { s with quorum := updWhere (fun q => q.id == g) f s.quorum }

/-- A parity update folded into a group's shard, byte by byte from its start, as R226 combines an XOR group (R198, R299;
DESIGN CHOICE, log entry 23). -/
def QGroup.fold (q : QGroup) (data : List Byte) : QGroup :=
  let n := Nat.max q.shard.length data.length
  { q with shard := xorBytes ((q.shard ++ List.replicate n 0#8).take n) ((data ++ List.replicate n 0#8).take n) }

/-- The group that RESIL names for PARITY8 (R242). -/
def State.parityGroup (s : State) : Nat := s.resil.toNat / 65536 % 64

/-- A command found by its identifier is changed. -/
def State.modCmd (s : State) (cmd : Nat) (f : BankCmd → BankCmd) : State :=
  { s with bankUnits := s.bankUnits.map (fun u => { u with queue := updWhere (fun b => b.id == cmd) f u.queue }) }

/-- The contents of a line that an NMSTEP has written, as its accumulators keep them (R263): a copy's write served in between
is no write of it (R198). -/
def State.newLine (s : State) (b : BankCmd) (a : Nat) : List Byte :=
  bytesOfWords (((s.unit b.nb).acc.filter (fun p => decide (a ≤ p.1 ∧ p.1 < a + 2048))).map (·.2))

/-- The parity updates of an NMSTEP: the exclusive OR of the old and new contents of each line (R198). -/
def State.parityOf (s : State) (b : BankCmd) : List (List Byte) :=
  (stepLines b.y).map (fun a => xorBytes ((b.old.drop (a - b.y)).take 2048) (s.newLine b a))

/-- The group takes parity updates from a device: its contributions follow R226 with OP XOR and RULE SUM, and their posters are
the bank units of its members (R299). -/
def QGroup.takesParity (q : QGroup) (node : Nat) : Bool := q.op == 3 && q.rule == 1 && q.members.contains node

/-- The parity updates of a command sent to the owner of the group on another node (R198, R279). -/
def State.sendParity (s : State) (q : QGroup) (b : BankCmd) : State :=
  ((s.parityOf b).foldl (fun (s : State) x => s.enqueue q.owner 255 2048 (.parity q.id x) none (some b.id) 0) s).modCmd b.id
    (fun b => { b with posted := true })

/-- R198's transfers for an NMSTEP that has written its rows: the lines to the buddy, or the exclusive OR of their
old and new contents to the owner of the parity group; the Huddle of this device, where it is the owner, takes them by
PARITY_FOLD. A group that is not declared or takes no such contribution of this device cannot complete the update: the Huddle
stops (R299, R352). -/
def State.protect (s : State) (b : BankCmd) : State :=
  match b.kind with
  | .step _ =>
    if s.resilSel = 1 then
      (stepLines b.y).foldl (fun (s : State) a =>
        s.enqueue (s.resil.toNat / 65536) 255 2048 (.mirror a (s.newLine b a)) none (some b.id) 0) s
    else if s.resilSel = 2 then
      match s.quorum.find? (fun q => q.id == s.parityGroup) with
      | some q =>
        if !q.takesParity s.hostCtl.fabNode then s.stopHuddle s.parityGroup
        else if q.owner == s.hostCtl.fabNode then s
        else s.sendParity q b
      | none => s.stopHuddle s.parityGroup
    else s
  | _ => s

/-- The words of one sector of the open row written back in one indivisible step (R265), after the release fences of the
command's threads (R316, R317). -/
def State.writeSector (s : State) (nb i : Nat) : State :=
  let u := s.unit nb
  match u.head with
  | none => s
  | some b =>
    if !u.rowOpen || u.suspended || decide (i ≥ b.sectorCount) || !b.inRow u.mpc i || b.sectors.contains i then s
    else
      let a := b.sectorAddr i
      let mine := u.acc.filter (fun p => decide (a ≤ p.1 ∧ p.1 < a + 32))
      let s := mine.foldl (fun (s : State) p => s.engineWrite b.team b.tids b.op ⟨.main, p.1⟩ (leBytes 4 p.2.toNat)) s
      (s.modUnit nb (fun u => { u with queue := updAt 0 (fun b => { b with sectors := b.sectors ++ [i] }) u.queue })).closeRow nb

/-- A bank unit writes back one sector of the row of its running command (a turn of the agenda, R265). -/
def State.bankSector (s : State) (nb i : Nat) : State :=
  let u := s.unit nb
  if !u.running || u.suspended then s
  else ((s.openRow nb).writeSector nb i).settle

/-- NMWIN_WINDOW_END (R264). -/
def execNmwinWindowEnd (nb : Nat) (s : State) : Out :=
  .next (if (s.unit nb).running then s.modUnit nb (fun u => { u with windowOpen := false }) else s)

/-- BANK_COMMAND_SUSPEND (R264): at the end of its row, with the window ended and a copy waiting; the microprogram counter
and the accumulators are kept. -/
def execBankCommandSuspend (nb : Nat) (s : State) : Out :=
  let u := s.unit nb
  match u.head with
  | none => .next s
  | some _ =>
    if u.suspended || !s.rowYields nb || u.rowOpen then .next s
    else .next (s.modUnit nb (fun u => { u with suspended := true }))

/-- BANK_COMMAND_RESUME (R264): the row is reactivated and a new window opens. -/
def execBankCommandResume (nb : Nat) (s : State) : Out :=
  let u := s.unit nb
  .next (if u.running && u.suspended then s.modUnit nb (fun u => { u with suspended := false, windowOpen := true }) else s)

/-- The head command leaves the queue; waiting copies are served before the next one starts (R264). A conversion that
waited for it may begin (R203). -/
def State.popCmd (s : State) (nb : Nat) : State :=
  ((s.modUnit nb (fun u => { u with queue := u.queue.drop 1, running := false, windowOpen := false, suspended := false,
                                    mpc := 0, rowOpen := false, acc := [] })).startUnit nb)

/-- One row of the head command opened and written back. -/
def State.runRow (s : State) (nb : Nat) : State :=
  let s := s.openRow nb
  match (s.unit nb).head with
  | none => s
  | some b => (List.range b.sectorCount).foldl (fun (s : State) i => s.writeSector nb i) s

/-- BANK_COMMAND_COMPLETION (R198, R263): the remaining rows are written back, one after another, as far as no waiting copy
makes the command suspend (R264); under RESIL the command leaves the queue only when its writes are acknowledged or
folded. -/
def execBankCommandCompletion (nb : Nat) (s : State) : Out :=
  let u := s.unit nb
  match u.head with
  | none => .next s
  | some b =>
    let guarded := match b.kind with
      | .step _ => s.resilSel != 0
      | _ => false
    if u.suspended || (guarded && !b.mirrored && !s.fabricRoom 3) then .next s
    else
      let s := (List.range b.rowCount).foldl (fun (s : State) _ => s.runRow nb) s
      match (s.unit nb).head with
      | none => .next s.settle
      | some b =>
        if b.rowCount > (s.unit nb).mpc then .next s.settle
        else if !guarded then .next ((s.popCmd nb).settle)
        else if !b.mirrored then
          .next (((s.protect b).modUnit nb (fun u => { u with queue := updAt 0 (fun b => { b with mirrored := true }) u.queue })).settle)
        else if (if s.resilSel = 1 then b.acked else b.folded) then .next ((s.popCmd nb).settle)
        else .next s.settle

/-- The transfers of a command have left the device. -/
def State.cmdSent (s : State) (cmd : Nat) : Bool := s.fabric.all (fun x => x.cmd != some cmd)

/-- The command has written its rows and has nothing left to send. -/
def State.cmdWaits (s : State) (cmd : Nat) : Bool :=
  s.cmdSent cmd && s.bankUnits.any (fun u => match u.head with
    | some b => b.id == cmd && b.mirrored
    | none => false)

/-- BUDDY_ACKNOWLEDGE (R198). -/
def execBuddyAcknowledge (cmd : Nat) (s : State) : Out :=
  .next (if s.cmdWaits cmd then s.modCmd cmd (fun b => { b with acked := true }) else s)

/-- PER_BANK_REFRESH (R264): the neighbourhood's rows are held for a while; only timing changes. -/
def execPerBankRefresh (nb : Nat) (s : State) : Out :=
  .next (s.modUnit nb (fun u => { u with refreshes := u.refreshes + 1 }))

/-- BUDDY_MIRROR_WRITE (R198): the buddy device writes the line; its acknowledgement leaves with the response of
the fabric (log entry 13). In minimal mode the fabric is off (R391). -/
def execBuddyMirrorWrite (addr : Nat) (data : List Byte) (s : State) : Out :=
  .next (if addr + data.length > Config.mainBytes || s.rowBusy addr || s.power.minimal then s else s.memWrite ⟨.main, addr⟩ data)

/-! ### NMFENCE (R200) -/

def execNmfence (h : Head) (bar : BarSel) (s : State) : Out :=
  run s [] (fun c =>
    let tids := (c.parts h).map (·.tid)
    if tids.isEmpty then s.advance
    else if bar.isSome && s.acquiring (c.parts h) then s
    else if !s.barValid c.grp.team (barNum bar) then s.trapGroup c .barrierState none
    else if !s.barRoom c.grp.team (barNum bar) 1 || (c.parts h).any (fun t => decide (t.xfcnt ≥ 255)) || s.orderWait (c.parts h) then s
    else
      let op : XferOp := {
        id := s.nextId, core := c.core, team := c.grp.team, role := c.grp.role, asid := c.launch.asid, pc := c.pc,
        clause := { hdrAddr := c.grp.hdrAddr, hdr := c.grp.hdr }, kind := .nmfence, rel := false, uni := false,
        bar := barNum bar, arrives := true, tids := tids, counted := tids, cleared := [], moves := [], held := [],
        parts := [], rsParts := [], waits := [], view := [] }
      let s : State := { s.bumpId.advance with xfers := s.xfers ++ [op] }
      (s.barIssue c.grp.team (barNum bar) 1).modThreads c.grp.team tids (fun t => { t with xfcnt := t.xfcnt + 1 }))

/-- A command issued earlier by a participant is outstanding, a held one among them (R200). -/
def State.cmdsBefore (s : State) (o : XferOp) : Bool :=
  let mine := fun (b : BankCmd) => b.team == o.team && decide (b.op < o.id) && b.tids.any (fun t => o.tids.contains t)
  s.waitingCmds.any mine || s.bankUnits.any (fun u => u.queue.any mine) ||
  s.xfers.any (fun x => x.team == o.team && decide (x.id < o.id) &&
    (match x.kind with
      | .bank => x.held.any (fun h => o.tids.contains h.tid || (x.uni && x.tids.any (fun t => o.tids.contains t)))
      | _ => false))

/-- NMFENCE_COMPLETION (R200): XFCNT falls and the arrival is applied; not after a trip (R387). -/
def execNmfenceCompletion (op : Nat) (s : State) : Out :=
  if s.power.tripped then .next s else
  match s.xfer? op with
  | none => .next s
  | some o => if o.kind == .nmfence && !s.cmdsBefore o then .next (s.finishXfer o).settle else .next s

/-! ### Release of held participants (R193, R357) -/

/-- One held participant released: its checks are made afresh, and its command is sent (R357); the watch hit of it, or the
cause for which it is refused. -/
def State.bankReleaseOne (s : State) (o : XferOp) (h : Held) (w : HeldWalk) : State × Option Nat × Option (Cause × Nat) :=
  match h.cmd, (s.team? o.team).bind (fun t => s.launch? t.launch) with
  | some b, some l =>
    let y := h.dstVa.getD 0
    let src := match b.kind with
      | .axpy _ => none
      | _ => h.srcVa
    let x := match b.kind with
      | .axpy _ => h.srcVa.getD 0
      | _ => 0
    match s.bankCheck l o.team b y x src w.pas with
    | .error e => (s, none, some e)
    | .ok b =>
      let b := { b with id := s.nextId, used := w.used }
      let hit := s.bankWatch o.asid b y x src
      let s : State := { s.bumpId with waitingCmds := s.waitingCmds ++ [b] }
      let stays := if hit.isSome then [{ h with watch := true, src := b.srcLoc }] else []
      let s := s.modXfer o.id (fun o => { o with
        waits := o.waits ++ [b.id], held := o.held.filter (fun z => z.watch || z.tid != h.tid) ++ stays })
      (s.bankLocks o.id [], hit, none)
  | _, _ => (s, none, none)

/-- The participants whose checks fail at their release: their commands are not sent and their threads trap, those of each
cause as one set with the address of the lowest (R167, R193, R332). -/
def State.bankRefuse (s : State) (o : XferOp) (bad : List (Nat × Cause × Nat)) : State :=
  let s := s.abandonHeld o.id (bad.map (·.1))
  ((bad.map (·.2.1)).dedup).foldl (fun (s : State) e =>
    match bad.filter (fun b => b.2.1 == e) with
    | [] => s
    | b :: r => s.trapHeld o.team (if o.uni then o.tids else (b :: r).map (·.1)) o e (BitVec.ofNat 64 b.2.2)) s

/-- The participants of a bank-unit instruction that a replay found translating are released in order. -/
def State.bankRelease (s : State) (o : XferOp) (ws : List HeldWalk) : State × List (Nat × Nat) :=
  let (s, hits, bad) := (o.held.filter (fun h => !h.watch)).foldl
    (fun (acc : State × List (Nat × Nat) × List (Nat × Cause × Nat)) h =>
      match ws.find? (fun w => w.tid == h.tid) with
      | some w =>
        let (s, hit, e) := acc.1.bankReleaseOne o h w
        (s, acc.2.1 ++ (hit.map (fun a => (h.tid, a))).toList, acc.2.2 ++ (e.map (fun x => (h.tid, x.1, x.2))).toList)
      | none => acc) (s, [], [])
  (if bad.isEmpty then s else s.bankRefuse o bad, hits)

end Sys2Proof.Machine
end

