-- ==== Sys2Proof/Machine/Control.lean ====
section
/-! DEFINITION. Control instructions (R136 to R145, R152, R156, R157): branches, rejoin, exit, elect, SYNCM, GSIZE,
traps and the return from a trap. -/

namespace Sys2Proof.Machine

/-- A last instruction executes: every member counts it in its windows (R87), and with YH = 1 the members yield at
this port's next choice (R71). -/
def State.tickLast (s : State) (c : Ctx) : State :=
  s.modThreads c.grp.team c.grp.members (fun t =>
    let t : Thread := { t with pend := t.pend.map (fun p => { p with left := p.left - 1 }), noWatch := false }
    if c.grp.hdr.getLsbD 52 then (if c.port = 0 then { t with yield0 := true } else { t with yield1 := true }) else t)

/-- A thread leaves the group in a way of its own. -/
def State.depart (s : State) (team tid : Nat) (f : Thread → Thread) : State :=
  (s.unseat team [tid]).modThread team tid f

/-- The members that are left fall through to the next header, and the port is free (R74). -/
def State.leaveRest (s : State) (c : Ctx) : State :=
  match (s.core? c.core).bind (fun k => (k.port c.port).group) with
  | none => s
  | some g =>
    let s := s.modThreads g.team g.members (fun t => t.fallThrough s.clk)
    s.modCore c.core (fun k => k.setPort c.port .free)

/-! ### Branches -/

/-- The path hash of a thread after a taken branch (R306). -/
def pathHash (x : DWord) (target : BitVec 57) (kind hidx : Nat) : DWord :=
  rotl64 x 1 ^^^ rotl64 (BitVec.ofNat 64 (target.toNat / 8 + kind * 2 ^ 54)) hidx

/-- The hash of a thread and the signature of its home group updated in one step (R306). -/
def State.foldPath (s : State) (t : Thread) (target : BitVec 57) (kind : Nat) : State :=
  let h' := pathHash t.path target kind t.hidx
  (s.modHg t.team t.role t.hg (fun g => { g with psig := g.psig ^^^ t.path ^^^ h' })).modThread t.team t.tid
    (fun t => { t with path := h' })

/-- The lowest TID of a home group (R309). -/
def State.lowestTid (s : State) (team role idx : Nat) : Nat :=
  let ids := (s.threads.filter (fun t => t.inHg team role idx)).map (·.tid)
  ids.foldl Nat.min (ids.headD 0)

/-- Full branch trace is armed (R307, R313): the device never arms it, since TRCTL is written by CSRWR and reset alone. -/
def State.branchArmed (s : State) : Bool := s.trctl.getLsbD 3

/-- BRANCH records: one for each home group and target, while full branch trace is armed (R309, R313). -/
def State.traceBranch (s : State) (c : Ctx) (kind : Nat) (ts : List (Thread × BitVec 57)) : State :=
  if !s.branchArmed then s
  else ((ts.map (fun p => (p.1.hg, p.2))).dedup).foldl (fun s k =>
    let mine := ts.filter (fun p => p.1.hg == k.1 && p.2 == k.2)
    s.trace c.core 2 (s.threadName c.team (s.lowestTid c.grp.team c.grp.role k.1) ++
      leBytes 8 (k.2.toNat + kind * 2 ^ 57) ++ leBytes 8 (maskOf (mine.map (fun p => p.1.hidx))).toNat)) s

/-- The threads whose guard is true branch; a misaligned target traps its threads alone (R138). `link` writes
the return address of CALL first. -/
def branch (s : State) (h : Head) (ops : List (Operand × Nat)) (kind : Nat) (link : Operand)
    (target : Ctx → Thread → BitVec 57) : Out :=
  run s ops (fun c =>
    let ps := c.parts h
    let tg := fun (t : Thread) => target c (if h.u then ps.headD t else t)
    let good := ps.filter (fun t => (tg t).toNat % 8 == 0)
    let bad := ps.filter (fun t => (tg t).toNat % 8 != 0)
    let s := s.tickLast c
    let ret : ClauseCtx := { hdrAddr := c.grp.hdrAddr, hdr := c.grp.hdr }
    let s := good.foldl (fun s t => s.writeEff t link { words := unpair (ret.next.setWidth 64), preds := [] }) s
    let s := good.foldl (fun s t => s.foldPath t (tg t) kind) s
    let s := s.traceBranch c kind (good.map (fun t => (t, tg t)))
    let s := good.foldl (fun s t => s.depart t.team t.tid (fun x => x.readyAt (tg t) s.clk)) s
    let s := s.laneFaults c (bad.map (fun t => (t.tid, .misalign, (tg t).setWidth 64)))
    s.leaveRest c)

def execBra (h : Head) (off : BitVec 24) (s : State) : Out :=
  branch s h [] 0 .none (fun c _ => wordOffset c.grp.hdrAddr off)
def execBrx (h : Head) (a : Operand) (s : State) : Out :=
  branch s h [(a, 2)] 1 .none (fun c t => (c.val64 t a).setWidth 57)
def execCall (h : Head) (d : Operand) (off : BitVec 24) (s : State) : Out :=
  branch s h [(d, 2)] 2 d (fun c _ => wordOffset c.grp.hdrAddr off)
def execRet (h : Head) (a : Operand) (s : State) : Out :=
  branch s h [(a, 2)] 3 .none (fun c t => (c.val64 t a).setWidth 57)

/-- EXIT (R139). -/
def execExit (h : Head) (s : State) : Out :=
  run s [] (fun c =>
    let s := s.tickLast c
    let s := (c.parts h).foldl (fun s t => s.exitThread t.team t.tid) s
    (s.leaveRest c).settle)

/-- YIELD (R140): the threads whose guard is true yield at each port's next choice. -/
def execYield (h : Head) (s : State) : Out :=
  run s [] (fun c =>
    let s := s.tickLast c
    let s := s.modThreads c.grp.team ((c.parts h).map (·.tid)) (fun t => { t with yield0 := true, yield1 := true })
    s.leaveRest c)

/-- NOP (R140). -/
def execNop (_h : Head) (s : State) : Out := run s [] (fun _ => s.advance)

/-! ### Rejoin, elect and SYNCM -/

/-- The home groups of a set of threads. -/
def hgsOf (ts : List Thread) : List Nat := (ts.map (·.hg)).dedup

/-- JOIN (R141). -/
def execJoin (h : Head) (k : Fin 32) (off : BitVec 24) (s : State) : Out :=
  run s [] (fun c =>
    if k.val ≥ c.launch.kernel.join && !(c.parts h).isEmpty then s.trapGroup c .joinDepth none
    else
      let ps := c.parts h
      let s := (hgsOf ps).foldl (fun s i =>
        let j := maskOf ((ps.filter (fun t => t.hg == i)).map (·.hidx))
        s.modHg c.grp.team c.grp.role i (fun g => { g with rejoin := updAt k.val (fun r =>
          { expected := r.expected ||| j, arrived := r.arrived &&& ~~~j }) g.rejoin })) s
      let s := s.traceBranch c 4 (ps.map (fun t => (t, wordOffset c.grp.hdrAddr off)))
      s.advance)

/-- The rejoin entry `k` of a thread's home group expects it (R142). -/
def State.expects (s : State) (t : Thread) (k : Nat) : Bool :=
  match s.hg? t.team t.role t.hg with
  | some g => (g.rejoin.getD k default).expected &&& bit64 t.hidx != 0#64
  | none => false

/-- WAITJ (R142). -/
def execWaitj (h : Head) (k : Fin 32) (s : State) : Out :=
  run s [] (fun c =>
    if k.val ≥ c.launch.kernel.join && !(c.parts h).isEmpty then s.trapGroup c .joinDepth none
    else
      let ps := (c.parts h).filter (fun t => s.expects t k.val)
      let s := s.tickLast c
      let s := ps.foldl (fun s t =>
        (s.depart t.team t.tid (fun t => { t with status := .parked (.waitj k.val) })).modHg t.team t.role t.hg
          (fun g => { g with rejoin := updAt k.val (fun r => { r with arrived := r.arrived ||| bit64 t.hidx }) g.rejoin })) s
      let s := (hgsOf ps).foldl (fun s i => s.checkRejoin c.grp.team c.grp.role i) s
      s.leaveRest c)

/-- ELECT (R144). -/
def execElect (h : Head) (pd : Fin 8) (d : Operand) (s : State) : Out :=
  run s [(d, 1)] (fun c =>
    match c.parts h with
    | [] => s.advance
    | lead :: _ =>
      ((c.parts h).foldl (fun s t => s.writeEff t d
        { words := [BitVec.ofNat 32 (c.pos lead)], preds := [(pd.val, t.tid == lead.tid)] }) s).advance)

/-- Members of a home group that have exited or are absent, as a mask (R145, R154). -/
def State.exitedMask (s : State) (g : HomeGroup) : DWord :=
  g.absent ||| maskOf ((s.threads.filter (fun t => t.inHg g.team g.role g.idx && t.hasExited)).map (·.hidx))

/-- One thread's SYNCM (R145): true when it traps SYNC_MASK. -/
def State.syncOne (s : State) (t : Thread) (a : DWord) (gsz : Nat) : State × Bool :=
  match s.hg? t.team t.role t.hg with
  | none => (s, false)
  | some g =>
    let m := a &&& BitVec.ofNat 64 (2 ^ gsz - 1)
    let b := bit64 t.hidx
    if m &&& b == 0#64 || (g.syncM != 0#64 && g.syncM != m) then (s, true)
    else
      let arrived := if g.syncM == 0#64 then m &&& s.exitedMask g else g.syncA
      let s := s.modHg t.team t.role t.hg (fun g => { g with syncM := m, syncA := arrived ||| b })
      let s := s.depart t.team t.tid (fun t => { t with status := .parked .syncm })
      (s.checkSyncm t.team t.role t.hg, false)

/-- SYNCM (R145): threads in ascending position; the mismatching ones trap as one set. -/
def execSyncm (h : Head) (a : Operand) (s : State) : Out :=
  run s [(a, 2)] (fun c =>
    let s := s.tickLast c
    let (s, bad) := (c.parts h).foldl (fun (acc : State × List Nat) t =>
      let (s, b) := acc.1.syncOne t (c.val64 t a) c.role.gsize
      (s, if b then acc.2 ++ [t.tid] else acc.2)) (s, [])
    let s := if bad.isEmpty then s else s.trapNoAddr c.grp.team bad .syncMask .instruction c.pc
    s.leaveRest c)

/-- The size that a GSIZE code names (R136). -/
def gsizeOf (code : Nat) : Nat := 8 * 2 ^ code

/-- GSIZE (R152): it takes effect at the role's next clause headers (R40). -/
def execGsize (h : Head) (code : Fin 4) (s : State) : Out :=
  run s [] (fun c =>
    if (c.parts h).isEmpty then s.advance
    else (s.modTeam c.grp.team (fun t => { t with limits := updAt c.grp.role (fun _ => gsizeOf code.val) t.limits })).advance)

/-! ### Traps -/

/-- TRAP and BKPT (R156): the participants trap with the code in TADDR; the others continue. -/
def trapWith (cause : Cause) (h : Head) (code : BitVec 24) (s : State) : Out :=
  run s [] (fun c =>
    (s.takeTrap c.grp.team ((c.parts h).map (·.tid)) cause .instruction c.pc (code.setWidth 64)).advance)

def execTrap (h : Head) (code : BitVec 24) (s : State) : Out := trapWith .trap h code s
def execBkpt (h : Head) (code : BitVec 24) (s : State) : Out := trapWith .breakpoint h code s

/-- Where a thread resumes after the instruction at TPC (R157): the next slot, or the next header. -/
def Thread.resumeAfter (t : Thread) (clk : Nat) : Thread :=
  match t.trapClause with
  | none => t.readyAt (t.tpc + 8#57) clk
  | some k =>
    if t.tpc + 8#57 == k.next then t.readyAt k.next clk
    else { t with pc := t.tpc + 8#57, clause := some k, status := .ready, since := clk }

/-- Where a thread resumes at the instruction at TPC (R157). -/
def Thread.resumeAt (t : Thread) (clk : Nat) : Thread :=
  { t with pc := t.tpc, clause := t.trapClause, status := .ready, since := clk,
           noWatch := t.tcause == 0x1C && t.watchOp.isNone }

/-- The handler of a thread has ended (R336); one that a watchpoint held may still have the watchdog's to enter (R345). -/
def Thread.leaveHandler (t : Thread) : Thread :=
  { t with inHandler := false, trapClause := none, watchOp := none, wdogDue := t.wdogDue && t.watchOp.isSome }

/-- The word at an address, as a fetch reads it; none where it cannot be fetched. -/
def State.codeWord (s : State) (core asid : Nat) (pc : BitVec 57) : Option DWord :=
  match (s.translate core asid pc.toNat).1 with
  | .page false _ true pa => some (s.main.readDWord pa)
  | _ => none

/-- The address after a failed clause, when its length is known (R157). Where the word at TPC can no longer be translated for
fetch no length is known, and `.skip` acts as `.kill` (DESIGN CHOICE, log entry 21). -/
def State.afterClause (s : State) (c : Ctx) (t : Thread) : Option (BitVec 57) :=
  if t.tcause = 0x03 then
    match s.codeWord c.core c.launch.asid t.tpc with
    | some w => if w.toNat / 2 ^ 60 == 12 then some (t.tpc + BitVec.ofNat 57 (8 * (hdrWords w + 1))) else none
    | none => none
  else none

/-- A part that a watchpoint held is let go and proceeds within its instruction (R343). -/
def State.unwatch (s : State) (op tid : Nat) : State :=
  s.modXfer op (fun o => { o with held := o.held.filter (fun x => !(x.watch && (x.tid == tid || o.uni))) })

/-- The threads of a TRET that cannot return take the team down: `.kill`, or `.skip` of a clause whose length is
not known (R157, R336). -/
def State.tretKills (s : State) (c : Ctx) (mode : TretMode) (t : Thread) : Bool :=
  match mode with
  | .kill => true
  | .retry => false
  | .skip => t.tpcKind == .failedHeader && (s.afterClause c t).isNone

/-- The part that a watchpoint held for a thread is abandoned by `.skip` and proceeds otherwise (R343). -/
def State.endWatch (s : State) (mode : TretMode) (t : Thread) : State :=
  match t.watchOp, mode with
  | none, _ => s
  | some o, .skip => s.abandonHeld o [t.tid]
  | some o, _ => s.unwatch o t.tid

/-- One thread's return (R157, R336, R343). -/
def State.tretOne (s : State) (c : Ctx) (mode : TretMode) (t : Thread) : State :=
  let s := s.unseat t.team [t.tid]
  let back := fun (s : State) (f : Thread → Thread) => (s.modThread t.team t.tid (fun t => (f t).leaveHandler)).endWatch mode t
  match t.tpcKind, mode with
  | .instruction, .skip => back s (fun t => t.resumeAfter s.clk)
  | .instruction, _ => back s (fun t => if t.watchOp.isSome then t.resumeAfter s.clk else t.resumeAt s.clk)
  | .failedHeader, .skip =>
    (match s.afterClause c t with
      | some pc => back s (fun t => t.readyAt pc s.clk)
      | none => s)
  | .failedHeader, _ => back s (fun t => t.readyAt t.tpc s.clk)
  | .resumeHeader, _ => back s (fun t => t.readyAt t.tpc s.clk)

/-- TRET (R157): outside a handler it raises ILLEGAL_OP for the group. -/
def execTret (h : Head) (mode : TretMode) (s : State) : Out :=
  run s [] (fun c =>
    let ps := c.parts h
    if ps.any (fun t => !t.inHandler) then s.trapGroup c .illegalOp none
    else
      match ps.find? (fun t => s.tretKills c mode t) with
      | some t => s.killTeam c.grp.team t.tcause
      | none =>
        let s := s.tickLast c
        let s := ps.foldl (fun s t => s.tretOne c mode t) s
        ((s.lateWdog c.grp.team (ps.map (·.tid))).endWdog c.grp.team).leaveRest c)

end Sys2Proof.Machine
end

