-- ==== Sys2Proof/Machine/Barriers.lean ====
section
/-! DEFINITION. Barrier instructions (R146 to R150): BINIT, BARV, BWAIT, BEXP and BINV. -/

namespace Sys2Proof.Machine

/-- Barrier `b` of the issuing team as it stands. -/
def State.bar (s : State) (team b : Nat) : Barrier :=
  match s.team? team with
  | some t => t.bar b
  | none => .zero

/-- An instruction that acts on a barrier register, once for each actor in ascending position; the first action that faults
makes the whole group trap with none of them taken (R137). It stalls behind an acquire that is outstanding (R353). -/
def actAll (s : State) (h : Head) (ops : List (Operand × Nat))
    (f : Ctx → Thread → State → Except Cause State) : Out :=
  run s ops (fun c =>
    if s.acquiring (c.parts h) then s
    else
    match (c.actors h).foldlM (fun s t => f c t s) s with
    | .ok s => s.advance
    | .error e => s.trapGroup c e none)

/-- BINIT's action (R148). -/
def State.binit (s : State) (team b e : Nat) : Except Cause State :=
  let x := s.bar team b
  if x.wait != 0 || x.cpend != 0 then .error .barrierBusy
  else if e = 0 || decide (e > 4095) then .error .barrierState
  else .ok (s.modTeam team (fun t => t.modBar b (fun _ =>
    { valid := true, ph := false, exp := e, pend := e, cpend := 0, wait := 0, arr := [],
      view := [], lastView := [], lastAfter := [] })))

def execBinit (h : Head) (b : Fin 16) (e : Operand) (s : State) : Out :=
  actAll s h [(e, 1)] (fun c t s => s.binit c.grp.team b.val (c.val t e).toNat)

/-- BARV's action (R148): an arrival of count `n`, of the threads `who` (R151). -/
def State.barv (s : State) (team b n : Nat) (who : List Nat) : Except Cause State :=
  let x := s.bar team b
  if !x.valid then .error .barrierState
  else if n > 4095 || n > x.pend then .error .barrierState
  else if n = 0 then .ok s
  else .ok ((s.modTeam team (fun t => t.modBar b (fun x =>
    { x with arr := x.arr ++ who.map (fun i => (i, s.nextId)) }))).arriveBar team b n)

def execBarv (h : Head) (b : Fin 16) (k : Operand) (s : State) : Out :=
  actAll s h [(k, 1)] (fun c t s => s.barv c.grp.team b.val (c.valOr t k 1#32).toNat
    (if h.u then (c.parts h).map (·.tid) else [t.tid]))

/-- BEXP's action (R148). -/
def State.bexp (s : State) (team b n : Nat) : Except Cause State :=
  let x := s.bar team b
  if !x.valid then .error .barrierState
  else if x.pend + n > 4095 then .error .barrierState
  else .ok (s.modTeam team (fun t => t.modBar b (fun x => { x with pend := x.pend + n })))

def execBexp (h : Head) (b : Fin 16) (n : Operand) (s : State) : Out :=
  actAll s h [(n, 1)] (fun c t s => s.bexp c.grp.team b.val (c.val t n).toNat)

/-- Every operation counted in CPEND of a barrier is detached (R148). -/
def State.detach (s : State) (team b : Nat) : State :=
  { s with
    xfers := updWhere (fun o => o.team == team && o.bar == some b) (fun o => { o with arrives := false }) s.xfers,
    tileOps := updWhere (fun o => o.team == team && o.bar == some b) (fun o => { o with arrives := false }) s.tileOps,
    conversions := updWhere (fun o => o.team == team && o.bar == b) (fun o => { o with arrives := false }) s.conversions }

/-- BINV's action (R148). -/
def State.binv (s : State) (team b : Nat) (force : Bool) : Except Cause State :=
  let x := s.bar team b
  if force then
    .ok (((s.releaseBar team b false).detach team b).modTeam team (fun t => t.modBar b (fun x =>
      { x with valid := false, cpend := 0, arr := [], view := [] })))
  else if x.wait != 0 || x.cpend != 0 then .error .barrierBusy
  else .ok (s.modTeam team (fun t => t.modBar b (fun x => { x with valid := false })))

def execBinv (h : Head) (b : Fin 16) (force : Bool) (s : State) : Out :=
  actAll s h [] (fun c _ s => s.binv c.grp.team b.val force)

/-- BWAIT (R149): a thread passes when the phase of its parity has completed, else it parks; one that passes has what the
phase orders before its later accesses (R151). It stalls behind an acquire that is outstanding (R353). -/
def execBwait (h : Head) (b : Fin 16) (pd : Fin 8) (p : Operand) (s : State) : Out :=
  run s [(p, 1)] (fun c =>
    let x := s.bar c.grp.team b.val
    let ps := c.parts h
    if ps.isEmpty then (s.tickLast c).leaveRest c
    else if s.acquiring ps then s
    else if !x.valid then s.trapGroup c .barrierState none
    else
      let s := s.tickLast c
      let passes := fun (t : Thread) => x.ph != (c.val t p).getLsbD 0
      let s := s.modThreads c.grp.team ((ps.filter passes).map (·.tid)) (fun t =>
        (t.setPred pd.val true).follow x.lastView x.lastAfter s.nextId)
      let waits := ps.filter (fun t => !passes t)
      let s := waits.foldl (fun s t =>
        s.depart t.team t.tid (fun t => { t with status := .parked (.bwait b.val pd.val) })) s
      let s := s.modTeam c.grp.team (fun t => t.modBar b.val (fun x => { x with wait := x.wait + waits.length }))
      s.leaveRest c)

end Sys2Proof.Machine
end

