-- ==== Sys2Proof/Machine/Huddle.lean ====
section
/-! DEFINITION. Quorum collectives (R224 to R229, R279, R298, R299, R349, R350, R352): QPOST and QSYNC, the owner's
rounds, and the events of the Huddle. -/

namespace Sys2Proof.Machine

/-! ### Nodes and groups -/

/-- A node can be reached: it is this device, or its route is valid and its port works (R382); not in minimal mode, where
the fabric stays off (R391). -/
def State.reachable (s : State) (node : Nat) : Bool :=
  node == s.hostCtl.fabNode || (!s.power.minimal &&
  match assocGet s.routes node with
    | some r => r.getLsbD 15 && !s.failedPorts.contains (r.toNat % 16)
    | none => false)

/-- The port towards a node (R382). -/
def State.portOf (s : State) (node : Nat) : Nat :=
  match assocGet s.routes node with
  | some r => r.toNat % 16
  | none => 0

/-- A declared group (R298). -/
def State.quorum? (s : State) (g : Nat) : Option QGroup := s.quorum.find? (fun q => q.id == g)

/-- Bytes of a group's buffers (R298). -/
def QGroup.len (q : QGroup) : Nat := 128 * (q.lenl + 1)

/-- Contributions of a member held at the owner (R299). -/
def QGroup.heldOf (q : QGroup) (m : Nat) : Nat := ((q.cur ++ q.ahead ++ q.late).filter (fun e => e.member == m)).length

/-- The Huddle stops when a device that a group names cannot be reached (R352). -/
def State.checkReach (s : State) : State :=
  match s.quorum.find? (fun q => !((q.owner :: q.members).all (fun n => s.reachable n))) with
  | some q => s.stopHuddle q.id
  | none => s

/-! ### Combination (R226) -/

/-- The exact weight of a contribution tagged `t` in round `r`. -/
def qWeight (rule : Nat) (r t : BitVec 16) : Val := if rule = 2 then .fin false 1 (-((r - t).toNat : Int)) else .fin false 1 0

/-- One element of one 32-bit word in a SUM of a format. -/
def qRound (f : Format) (w : Val) (x : Nat) : Nat := (f.ofVal .rn false false (Val.mul w (f.val x))).bits
def qStep (f : Format) (w : Val) (acc x : Nat) : Nat := (f.ofVal .rn false false (Val.add .rn (f.val acc) (Val.mul w (f.val x)))).bits
def qMean (f : Format) (n acc : Nat) : Nat := (f.divTo .rn false (f.val acc) (.fin false n 0)).bits

/-- `f` on both B16 elements of a word. -/
def halves1 (f : Nat → Nat) (x : Word) : Word := BitVec.ofNat 32 (packElems 16 [f (x.toNat % 65536), f (x.toNat / 65536)])

/-- round() of R226; a NaN of a MAX group is canonical from the start (R44, R226). -/
def qFirst (op : Nat) (w : Val) (x : Word) : Word :=
  match op with
  | 0 => BitVec.ofNat 32 (qRound fmtF32 w x.toNat)
  | 1 => halves1 (qRound fmtB16 w) x
  | 2 => if (fmtF32.val x.toNat).isNan then 0x7FC00000#32 else x
  | _ => x

/-- step() of R226. -/
def qNext (op : Nat) (w : Val) (acc x : Word) : Word :=
  match op with
  | 0 => BitVec.ofNat 32 (qStep fmtF32 w acc.toNat x.toNat)
  | 1 => onHalves (qStep fmtB16 w) acc x
  | 2 => BitVec.ofNat 32 (fmtF32.minMax true acc.toNat x.toNat)
  | _ => acc ^^^ x

/-- The final division of MEAN. -/
def qLast (op rule n : Nat) (acc : Word) : Word :=
  if rule = 0 then
    match op with
    | 0 => BitVec.ofNat 32 (qMean fmtF32 n acc.toNat)
    | 1 => halves1 (qMean fmtB16 n) acc
    | _ => acc
  else acc

/-- One element of the result, from the weighted elements in order. -/
def qElem (op rule : Nat) (es : List (Val × Word)) : Word :=
  match es with
  | [] => 0#32
  | (w, x) :: r => qLast op rule es.length (r.foldl (fun acc e => qNext op e.1 acc e.2) (qFirst op w x))

/-- The result of a round over its contributions in order (R226). -/
def QGroup.combine (q : QGroup) (es : List Contrib) : List Byte :=
  let rows := es.map (fun e => (qWeight q.rule q.round (BitVec.ofNat 16 e.tag), wordsOf e.data))
  bytesOfWords ((List.range (q.len / 4)).map (fun i => qElem q.op q.rule (rows.map (fun r => (r.1, r.2.getD i 0#32)))))

/-- The first k distinct members of the open round, in the order in which they were taken (R352). -/
def QGroup.quorumOf (q : QGroup) : List Nat := (((sortBy (·.order) q.cur).map (·.member)).reverse.dedup.reverse).take q.k

/-- The open round holds k distinct members. -/
def QGroup.closes (q : QGroup) : Bool := decide (q.quorumOf.length ≥ q.k) && decide (0 < q.k)

/-- A result delivered to one contribution: held for its QPOST, or sent to its member's device (R227, R228); a parity update
asks for none (R299). -/
def State.deliver (s : State) (q : QGroup) (data : List Byte) (e : Contrib) : State :=
  match e.op with
  | some (op, tid) => { s with qresults := s.qresults ++ [{ op := op, tid := tid, data := data }] }
  | none => if e.parity then s else s.enqueue e.node e.prio data.length (.result q.id e.member e.tag data) none none 0

/-- A command whose updates have been taken, and of which no group holds one any more, has been folded (R198, R299). -/
def State.foldedIf (s : State) (cmd : Nat) : State :=
  if s.bankUnits.any (fun u => u.queue.any (fun b => b.id == cmd && b.posted)) &&
      !s.quorum.any (fun q => (q.cur ++ q.ahead ++ q.late).any (fun e => e.cmd == some cmd)) then
    s.modCmd cmd (fun b => { b with folded := true })
  else s

/-- The parity updates among the contributions of a round are folded into the shard of the group (R198, R299). -/
def State.foldRound (s : State) (g : Nat) (es : List Contrib) : State :=
  let ps := es.filter (·.parity)
  (ps.filterMap (·.cmd)).foldl (fun (s : State) i => s.foldedIf i)
    (s.modQuorum g (fun q => ps.foldl (fun q e => q.fold e.data) q))

/-- A round closes (R226): the result is delivered, ROUND rises, and every other member device is told. It closes only
with room in the transmit queue for what it sends (R279; DEDUCED, log entry 12). -/
def State.closeRound (s : State) (g : Nat) : State :=
  match s.quorum? g with
  | none => s
  | some q =>
    let ms := q.quorumOf
    let es := sortBy (fun (e : Contrib) => e.member * 65536 + e.tag) (q.cur.filter (fun e => ms.contains e.member) ++ q.late)
    let sends := (es.filter (fun e => e.op.isNone && !e.parity)).length + (q.members.dedup.filter (fun n => n != s.hostCtl.fabNode)).length
    if s.huddleStop || !q.closes || !s.fabricRoom sends then s
    else
      let data := q.combine es
      let s := s.modQuorum g (fun q => { q with
        round := q.round + 1, replica := q.round + 1, cur := q.ahead, ahead := [], late := q.cur.filter (fun e => !ms.contains e.member) })
      let s := es.foldl (fun (s : State) e => s.deliver q data e) (s.foldRound g es)
      ((q.members.dedup).filter (fun n => n != s.hostCtl.fabNode)).foldl (fun (s : State) n =>
        s.enqueue n 255 16 (.closure g q.round) none none 0) s

/-- Rounds close as long as contributions allow: at most the open one and the one ahead. -/
def State.closeRounds (s : State) (g : Nat) : State := ((s.closeRound g).closeRound g).closeRound g

/-- Rounds of every group that this device owns close as far as they can (R279, R352). -/
def State.closeAll (s : State) : State :=
  s.quorum.foldl (fun (s : State) x => if x.owner == s.hostCtl.fabNode then s.closeRounds x.id else s) s

/-- The Huddle has room in the fabric transmit queue for what an arrival may send. -/
def State.huddleRoom (s : State) (q : QGroup) : Bool :=
  s.fabricRoom (2 * (q.members.length + (q.cur ++ q.ahead ++ q.late).length + 1))

/-- Arrivals of one cycle are taken in ascending member index, then ascending tag: one that a later one has passed is
taken in the next cycle (R226). -/
def QGroup.inTurn (q : QGroup) (clk m tag : Nat) : Bool :=
  q.taken.1 != clk + 1 || decide (q.taken.2.1 < m ∨ q.taken.2.1 = m ∧ q.taken.2.2 ≤ tag)

/-- The owner takes one contribution (R226). -/
def State.takeContrib (s : State) (g : Nat) (e : Contrib) : State :=
  let s := s.bumpId.modQuorum g (fun q =>
    let e := { e with order := s.nextId }
    let q := { q with taken := (s.clk + 1, e.member, e.tag) }
    if BitVec.ofNat 16 e.tag = q.round then { q with cur := q.cur ++ [e] }
    else if BitVec.ofNat 16 e.tag = q.round + 1 then { q with ahead := q.ahead ++ [e] }
    else { q with late := q.late ++ [e] })
  s.closeRounds g

/-- A parity update as a contribution of a member: it bears the tag of the round that is open when it is taken, as no rule gives
it one (DESIGN CHOICE, log entry 23). -/
def QGroup.parityUpdate (q : QGroup) (m node : Nat) (cmd : Option Nat) (data : List Byte) : Contrib :=
  { member := m, tag := q.round.toNat, node := node, op := none, parity := true, cmd := cmd, prio := 255, order := 0, data := data }

/-- The Huddle of this device takes the updates of a command, while HELD stays within its limit (R225, R226, R299). -/
def State.takeParity (s : State) (q : QGroup) (b : BankCmd) : State :=
  let me := s.hostCtl.fabNode
  let m := q.members.findIdx (fun n => n == me)
  if decide (q.heldOf m > 1) || !s.huddleRoom q || !q.inTurn s.clk m q.round.toNat then s
  else
    ((s.parityOf b).foldl (fun (s : State) x => match s.quorum? q.id with
      | some q => s.takeContrib q.id (q.parityUpdate m me (some b.id) x)
      | none => s) s).modCmd b.id (fun b => { b with posted := true })

/-! ### Parts of QPOST, QSYNC and AMSG -/

/-- The place of a decoded scratch address (R166). -/
def scratchLoc (team a : Nat) : Loc := if a < 0x10000000 then { space := .lsm team, addr := a } else { space := .dsm, addr := a }

/-- A part of an operation. -/
def XferOp.part? (o : XferOp) (tid : Nat) : Option Part := o.parts.find? (fun p => p.tid == tid)

def XferOp.modPart (o : XferOp) (tid : Nat) (f : Part → Part) : XferOp :=
  { o with parts := updWhere (fun p => p.tid == tid) f o.parts }

/-- The threads that a part stands for: its own, or with U = 1 every participant. -/
def XferOp.partTids (o : XferOp) (tid : Nat) : List Nat := if o.uni then o.tids else [tid]

/-- The lock entries of an operation's parts as they stand: sources not yet read and results not yet written. -/
def XferOp.partLocks (o : XferOp) : List Lock :=
  let src := o.parts.filter (fun p => p.data.isNone && decide (p.len ≠ 0) && o.kind != .qsync && !p.done)
  let dst := o.parts.filter (fun p => o.kind == .qpost && !p.done)
  sideLocks o.id o.team false (src.map (fun p => (scratchLoc o.team p.src, p.len))) ++
  sideLocks o.id o.team true (dst.map (fun p => (scratchLoc o.team p.dst, p.len)))

/-- Lock entries follow the parts that are left (R225, R227; DEDUCED, log entry 12): in the table of the team's core,
or with the saved team (R288, R350). -/
def State.relockParts (s : State) (op : Nat) : State :=
  match s.xfer? op with
  | none => s
  | some o =>
    let ks := o.partLocks
    let s := s.freeLocks op
    match s.coreOf o.team with
    | some c => s.modCore c (fun c => { c with locks := c.locks ++ ks })
    | none => s.modTeam o.team (fun t => { t with savedLocks := t.savedLocks ++ ks })

/-- A part completes in one step (R227, R229, R231): its lines are present, its locks freed, its arrival applied, and
XFCNT of its threads falls. -/
def State.finishPart (s : State) (op tid : Nat) : State :=
  match s.xfer? op with
  | none => s
  | some o =>
    match o.part? tid with
    | none => s
    | some p =>
      if p.done then s
      else
        let who := (o.partTids tid).filter (fun t => o.counted.contains t)
        let s := s.modXfer op (fun o => { o.modPart tid (fun p => { p with done := true, cleared := [] }) with
          counted := o.counted.filter (fun t => !who.contains t) })
        let s := (s.freeLines p.cleared).relockParts op
        let s := s.modThreads o.team who Thread.xfDown
        (s.arriveOp o.team o.bar o.arrives).checkXfer op

/-- The team of an operation is saved, so that what falls due to it is held (R349). -/
def State.holdsFor (s : State) (o : XferOp) : Bool :=
  match s.team? o.team with
  | some t => !t.isResident && !t.killed
  | none => false

/-- A source of a part can be read now (R187, R190); that of a saved team lies in its save slot (R347, R349). -/
def State.partReady (s : State) (o : XferOp) (p : Part) : Bool :=
  !s.holdsFor o && (p.len == 0 || s.engineReady o.team (o.partTids p.tid) o.id (scratchLoc o.team p.src) p.len o.rel)

/-- The bytes of a part's source, words read earlier in their places. -/
def State.partBytes (s : State) (o : XferOp) (p : Part) : List Byte :=
  bytesOfWords ((wordsOf (s.engineView o.team (o.partTids p.tid) o.id o.rel (scratchLoc o.team p.src) p.len)).mapIdx (fun i w => (assocGet p.early i).getD w))

/-- The read of a part's source is noted, of the words that have not been read earlier (R316). -/
def State.notePart (s : State) (o : XferOp) (p : Part) : State :=
  let l := scratchLoc o.team p.src
  (List.range (p.len / 4)).foldl (fun (s : State) i =>
    if (assocGet p.early i).isSome then s
    else s.noteEngine o.team (o.partTids p.tid) o.id o.rel { l with addr := l.addr + 4 * i } 4) s

/-- One word of a part's source read before the rest (R190). -/
def State.samplePart (s : State) (o : XferOp) (word : Nat) : State :=
  let find := fun (acc : Nat × Option (Part × Nat)) (p : Part) =>
    match acc.2 with
    | some _ => acc
    | none => if word < acc.1 + p.len / 4 then (acc.1, some (p, word - acc.1)) else (acc.1 + p.len / 4, none)
  match (o.parts.foldl find (0, none)).2 with
  | none => s
  | some (p, i) =>
    if p.data.isSome || p.done || o.kind == .qsync || (assocGet p.early i).isSome || !s.partReady o p then s
    else
      let l := scratchLoc o.team p.src
      let at_ : Loc := { l with addr := l.addr + 4 * i }
      let w : Word := BitVec.ofNat 32 (leNat (s.engineView o.team (o.partTids p.tid) o.id o.rel at_ 4))
      let bad := s.badAt at_ 4
      let s := (s.noteEngine o.team (o.partTids p.tid) o.id o.rel at_ 4).modXfer o.id (fun o => o.modPart p.tid (fun p => { p with early := assocSet p.early i w }))
      s.stopBad o.team bad

/-- A blank part. -/
def Part.new (tid pos : Nat) : Part :=
  { tid := tid, pos := pos, group := 0, member := 0, tag := 0, prio := 0, src := 0, dst := 0, len := 0, core := 0,
    node := 0, handler := 0, early := [], data := none, cleared := [], sent := false, done := false }

/-- An operation made of parts. -/
def Ctx.partOp (c : Ctx) (h : Head) (id : Nat) (kind : XferKind) (rel : Bool) (bar : Option Nat) (ps : List Part) : XferOp :=
  let tids := ps.flatMap (fun p => if h.u then (c.parts h).map (·.tid) else [p.tid])
  { id := id, core := c.core, team := c.grp.team, role := c.grp.role, asid := c.launch.asid, pc := c.pc,
    clause := { hdrAddr := c.grp.hdrAddr, hdr := c.grp.hdr }, kind := kind, rel := rel, uni := h.u, bar := bar,
    arrives := true, tids := tids, counted := tids, cleared := [], moves := [], held := [], parts := ps, rsParts := [],
    waits := [], view := [] }

/-- Lane faults of which some name no address (log entry 7). -/
def State.withAddrs (s : State) (bad : List (Nat × Cause × Option DWord)) : List (Nat × Cause × DWord) × State :=
  if bad.all (fun b => b.2.2.isSome) then (bad.map (fun b => (b.1, b.2.1, b.2.2.getD 0#64)), s)
  else
    let (a, s) := s.freeAddr
    (bad.map (fun b => (b.1, b.2.1, b.2.2.getD a)), s)

/-- An instruction made of parts: it is not made, stalls, or issues with CPEND and XFCNT risen for each part. -/
def State.partIssue (s : State) (c : Ctx) (h : Head) (kind : XferKind) (rel : Bool) (bar : Option Nat)
    (bad : List (Nat × Cause × Option DWord)) (ps : List Part) (stall : Bool) (k : State → State) : State :=
  let (bad', sb) := s.withAddrs bad
  if ps.isEmpty then sb.laneSplit c bad' (fun s => s)
  else
    let op := c.partOp h s.nextId kind rel bar ps
    let dsts : List (Loc × Nat) := if kind == .qpost then ps.map (fun p => (scratchLoc c.grp.team p.dst, p.len)) else []
    let srcs : List (Loc × Nat) := if kind == .qsync then [] else ps.map (fun p => (scratchLoc c.grp.team p.src, p.len))
    if stall || !s.barRoom c.grp.team bar ps.length || s.loadsStuck c.grp.team op.tids dsts srcs rel || s.orderWait (c.parts h) ||
        c.ths.any (fun t => op.tids.contains t.tid && decide (t.xfcnt ≥ 255)) then s
    else
      match sb.takeLocks c.core op.partLocks with
      | none => s
      | some sl => sl.laneSplit c bad' (fun s =>
        let s : State := { s.bumpId.clearLines (dsts.flatMap (fun p => linesOf p.1 p.2)) with xfers := s.xfers ++ [op] }
        let s := s.barIssue c.grp.team bar ps.length
        k (s.modThreads c.grp.team op.tids (fun t => { t with xfcnt := t.xfcnt + 1 })))

/-! ### QPOST (R224 to R227) -/

/-- Outstanding QPOST parts of this device for a member of a group (R225). -/
def State.posts (s : State) (g m : Nat) : List Part :=
  ((s.xfers.filter (fun o => o.kind == .qpost)).flatMap (·.parts)).filter (fun p => !p.done && p.group == g && p.member == m)

/-- BKTPRI.ADD and BKTPRI.AMPRI of a team (R242). -/
def Team.postPri (t : Team) : Nat := t.bktpri.toNat / 256 % 256
def Team.amsgPri (t : Team) : Nat := t.bktpri.toNat % 256

/-- One participant of QPOST checked (R225); `ps` are the parts made before it by the same instruction, which count as
outstanding, so that of two participants of one member and tag the higher takes QUORUM_STALE (DESIGN CHOICE, log entry 21). -/
def State.postCheck (s : State) (c : Ctx) (t : Thread) (r k w m : Nat) (ps : List Part) : Except (Cause × Option Nat) Part :=
  let g := w % 64
  if r % 128 != 0 then .error (.misalign, some r)
  else if k % 128 != 0 then .error (.misalign, some k)
  else
    match (if w / 64 % 4 != 0 then none else s.quorum? g) with
    | none => .error (.protection, none)
    | some q =>
      if q.asid != c.launch.asid then .error (.protection, none)
      else
        match s.scratch c.launch c.grp.team r q.len, s.scratch c.launch c.grp.team k q.len with
        | .error e, .ok _ => .error (e, some r)
        | .ok _, .error e => .error (e, some k)
        | .error e, .error e' => if causeRank e ≤ causeRank e' then .error (e, some r) else .error (e', some k)
        | .ok _, .ok _ =>
          let tag := w / 65536 % 65536
          let d := (q.replica - BitVec.ofNat 16 tag).toNat
          if decide (m ≥ q.n) || q.members.getD m 65536 != s.hostCtl.fabNode || decide (r < k + q.len ∧ k < r + q.len) then
            .error (.protection, none)
          else if !(decide (d ≤ q.lag) || d == 65535) ||
              (s.posts g m ++ ps.filter (fun p => p.group == g && p.member == m)).any (fun p => p.tag == tag) then
            .error (.quorumStale, none)
          else .ok { Part.new t.tid (c.pos t) with
            group := g, member := m, tag := tag, prio := Nat.min 255 (w / 256 % 256 + c.team.postPri), src := k, dst := r,
            len := q.len, node := q.owner,
            cleared := (linesOf (scratchLoc c.grp.team r) q.len) }

/-- The participants checked in ascending position. -/
def Ctx.checkParts (c : Ctx) (h : Head) (f : Thread → List Part → Except (Cause × Option Nat) Part) :
    List Part × List (Nat × Cause × Option DWord) :=
  (c.actors h).foldl (fun acc t =>
    match f t acc.1 with
    | .ok p => (acc.1 ++ [p], acc.2)
    | .error (e, a) =>
      let who := if h.u then (c.parts h).map (·.tid) else [t.tid]
      (acc.1, acc.2 ++ who.map (fun i => (i, e, a.map (BitVec.ofNat 64))))) ([], [])

/-- QPOST (R224, R225). -/
def execQpost (h : Head) (rel : Bool) (r k w m : Operand) (bar : BarSel) (s : State) : Out :=
  run s [(r, 1), (k, 1), (w, 1), (m, 1)] (fun c =>
    if (c.parts h).isEmpty then s.advance
    else if bar.isSome && s.acquiring (c.parts h) then s
    else if !s.barValid c.grp.team (barNum bar) then s.trapGroup c .barrierState none
    else
      let v := fun t (o : Operand) => (c.val t o).toNat
      let (ps, bad) := c.checkParts h (fun t ps => s.postCheck c t (v t r) (v t k) (v t w) (v t m) ps)
      let remote := (ps.filter (fun p => p.node != s.hostCtl.fabNode)).length
      -- a fifth outstanding contribution of a member, or a full transmit queue, stalls
      let stall := ps.any (fun p => decide ((s.posts p.group p.member ++
          ps.filter (fun x => x.group == p.group && x.member == p.member)).length > 4)) ||
        (decide (0 < remote) && !s.fabricRoom remote)
      s.partIssue c h .qpost rel (barNum bar) bad ps stall (fun s => s))

/-- CONTRIBUTION_READ (R225): the contribution is read, its source lock is freed, and it goes on its way; not after a
trip (R387). -/
def execContributionRead (op tid : Nat) (s : State) : Out :=
  if s.power.tripped then .next s else
  match s.xfer? op with
  | none => .next s
  | some o =>
    match o.part? tid with
    | none => .next s
    | some p =>
      let own := p.node == s.hostCtl.fabNode
      if o.kind != .qpost || p.done || p.data.isSome || !s.partReady o p ||
          (!own && decide (s.fabric.length ≥ Config.fabricTransfers)) then .next s
      else
        let bad := s.badAt (scratchLoc o.team p.src) p.len
        let data := s.partBytes o p
        let s := (s.notePart o p).modXfer op (fun o => o.modPart tid (fun p => { p with data := some data, early := [], sent := !own }))
        let s := s.relockParts op
        let s := if own then s
          else s.enqueue p.node p.prio p.len (.contribution p.group p.member p.tag data) (some (op, tid)) none 0
        .next (s.stopBad o.team bad).settle

/-- QUORUM_CONTRIBUTION_ARRIVAL (R226, R228, R299): a contribution of this device, or one from the fabric, of a QPOST or of
another device's bank unit. -/
def execQuorumContributionArrival (src : ContribSrc) (s : State) : Out :=
  match src with
  | .own op tid =>
    (match (s.xfer? op).bind (fun o => o.part? tid) with
      | none => .next s
      | some p =>
        match p.data, s.quorum? p.group with
        | some data, some q =>
          if p.sent || p.done || q.owner != s.hostCtl.fabNode || !s.huddleRoom q || !q.inTurn s.clk p.member p.tag then .next s
          else
            let s := s.modXfer op (fun o => o.modPart tid (fun p => { p with sent := true }))
            .next (s.takeContrib p.group { member := p.member, tag := p.tag, node := s.hostCtl.fabNode, op := some (op, tid),
                                           parity := false, cmd := none, prio := p.prio, order := 0, data := data })
        | _, _ => .next s)
  | .remote g m tag prio node data =>
    (match s.quorum? g with
      | none => .next s
      | some q =>
        if q.owner != s.hostCtl.fabNode || decide (m ≥ q.n) || q.members.getD m 65536 != node || node == s.hostCtl.fabNode ||
            s.power.minimal then .next s
        else if data.length != q.len || decide (q.heldOf m ≥ 4) || !s.huddleRoom q || !q.inTurn s.clk m (tag % 65536) then .next s
        else .next (s.takeContrib g { member := m, tag := tag % 65536, node := node, op := none, parity := false, cmd := none, prio := prio, order := 0, data := data }))
  | .parity g m node data =>
    (match s.quorum? g with
      | none => .next s
      | some q =>
        if q.owner != s.hostCtl.fabNode || decide (m ≥ q.n) || q.members.getD m 65536 != node || node == s.hostCtl.fabNode ||
            s.power.minimal || data.length != 2048 then .next s
        else if !q.takesParity node then .next (s.stopHuddle g)
        else if decide (q.heldOf m ≥ 4) || !s.huddleRoom q || !q.inTurn s.clk m q.round.toNat then .next s
        else .next (s.takeContrib g (q.parityUpdate m node none data)))

/-- PARITY_FOLD (R198, R299, R352): the Huddle takes the updates of a command of this device and folds them as their rounds
close; those of another owner it has folded when it answers (log entry 13). An update that cannot be completed stops the
Huddle. -/
def execParityFold (cmd : Nat) (s : State) : Out :=
  if !s.cmdWaits cmd then .next s
  else
    match s.bankUnits.findSome? (fun u => u.queue.find? (fun b => b.id == cmd)), s.quorum.find? (fun q => q.id == s.parityGroup) with
    | some b, some q =>
      if !q.takesParity s.hostCtl.fabNode then .next (s.stopHuddle s.parityGroup)
      else if q.owner == s.hostCtl.fabNode then .next ((if b.posted then s else s.takeParity q b).foldedIf cmd)
      else if b.posted then .next (s.modCmd cmd (fun b => { b with folded := true }))
      else .next (if s.fabricRoom 3 then s.sendParity q b else s)
    | _, _ => .next (s.stopHuddle s.parityGroup)

/-- A round's result written to the result buffer of a part, which completes (R227). -/
def State.writeResult (s : State) (op tid : Nat) (data : List Byte) : State :=
  match s.xfer? op with
  | none => s
  | some o =>
    match o.part? tid with
    | none => s
    | some p => if p.done then s else (s.engineWrite o.team (o.partTids tid) op (scratchLoc o.team p.dst) (data.take p.len)).finishPart op tid

/-- QPOST_RESULT_ARRIVAL (R227, R349): the result of this device's own Huddle, or of a remote owner. While the team is
saved the Huddle holds it. No core takes it after a trip (R387). -/
def execQpostResultArrival (op tid : Nat) (remote : Option (List Byte)) (s : State) : Out :=
  if s.power.tripped then .next s else
  match s.xfer? op with
  | none => .next s
  | some o =>
    match o.part? tid with
    | none => .next s
    | some p =>
      let here := s.qresults.find? (fun x => x.op == op && x.tid == tid)
      match remote with
      | none =>
        (match here with
          | none => .next s
          | some x =>
            if s.holdsFor o || !s.landReady o.team tid op (scratchLoc o.team p.dst) p.len then .next s
            else
              let s : State := { s with qresults := s.qresults.filter (fun y => !(y.op == op && y.tid == tid)) }
              .next (s.writeResult op tid x.data).settle)
      | some data =>
        let own := match s.quorum? p.group with
          | some q => q.owner == s.hostCtl.fabNode
          | none => true
        if o.kind != .qpost || own || s.power.minimal || p.done || !p.sent || here.isSome || data.length != p.len ||
            s.fabric.any (fun x => x.op == some (op, tid)) then .next s
        else if s.holdsFor o || !s.landReady o.team tid op (scratchLoc o.team p.dst) p.len then
          .next { s with qresults := s.qresults ++ [{ op := op, tid := tid, data := data }] }
        else .next (s.writeResult op tid data).settle

/-- CLOSURE_MESSAGE_ARRIVAL (R226, R299): round `round` of the group has closed at its owner. -/
def execClosureMessageArrival (group : Nat) (round : BitVec 16) (s : State) : Out :=
  match s.quorum? group with
  | none => .next s
  | some q => .next (if q.owner == s.hostCtl.fabNode || s.power.minimal then s else s.modQuorum group (fun q => { q with replica := round + 1 }))

/-! ### QSYNC (R229) -/

/-- One participant of QSYNC checked. -/
def State.syncCheck (s : State) (c : Ctx) (t : Thread) (g m : Nat) : Except (Cause × Option Nat) Part :=
  match s.quorum? g with
  | none => .error (.protection, none)
  | some q =>
    if q.asid != c.launch.asid || decide (m ≥ q.n) || q.members.getD m 65536 != s.hostCtl.fabNode then .error (.protection, none)
    else .ok { Part.new t.tid (c.pos t) with group := g, member := m, node := q.owner }

/-- QSYNC (R229): d is pending under R87 until the reply arrives. -/
def execQsync (h : Head) (la : Fin 16) (d g m : Operand) (bar : BarSel) (s : State) : Out :=
  run s [(d, 1), (g, 1), (m, 1)] (fun c =>
    if (c.parts h).isEmpty then s.advance
    else if bar.isSome && s.acquiring (c.parts h) then s
    else if !s.barValid c.grp.team (barNum bar) then s.trapGroup c .barrierState none
    else
      let (ps, bad) := c.checkParts h (fun t _ => s.syncCheck c t (c.val t g).toNat (c.val t m).toNat)
      let remote := (ps.filter (fun p => p.node != s.hostCtl.fabNode)).length
      let stall := decide (0 < remote) && !s.fabricRoom remote
      let id := (s.withAddrs bad).2.nextId
      s.partIssue c h .qsync false (barNum bar) bad ps stall (fun s =>
        let s := s.modThreads c.grp.team (ps.flatMap (fun p => if h.u then (c.parts h).map (·.tid) else [p.tid]))
          (fun t => t.addPending id (Operand.dest? d) 1 la.val)
        ps.foldl (fun (s : State) p => if p.node == s.hostCtl.fabNode then s
          else s.enqueue p.node 255 16 (.qsyncRequest p.group p.member) (some (id, p.tid)) none 0) s))

/-- The value that QSYNC writes (R229). -/
def syncWord (round : BitVec 16) (count : Nat) : Word := BitVec.ofNat 32 (round.toNat + 65536 * (count % 256))

/-- A QSYNC completes with the owner's answer. -/
def State.writeSync (s : State) (op tid : Nat) (round : BitVec 16) (count : Nat) : State :=
  match s.xfer? op with
  | none => s
  | some o =>
    match o.part? tid with
    | none => s
    | some p =>
      let s := s.modQuorum p.group (fun q => if q.owner == s.hostCtl.fabNode then q else { q with replica := round })
      let s := s.modThreads o.team (o.partTids tid) (fun t => t.arrive op [syncWord round count])
      (s.finishPart op tid).enterAll o.team

/-- QSYNC_REQUEST_ARRIVAL (R229): a request of this device, or one from another node, reaches the owner's Huddle. -/
def execQsyncRequestArrival (op tid : Nat) (remote : Option (Nat × Nat × Nat)) (s : State) : Out :=
  match remote with
  | some (g, m, node) =>
    (match s.quorum? g with
      | none => .next s
      | some q =>
        if q.owner != s.hostCtl.fabNode || decide (m ≥ q.n) || q.members.getD m 65536 != node || node == s.hostCtl.fabNode ||
            !s.fabricRoom 1 || s.power.minimal then .next s
        else .next (s.enqueue node 255 16 (.qsyncReply g m q.round (q.heldOf m)) none none 0))
  | none =>
    (match s.xfer? op with
      | none => .next s
      | some o =>
        match o.part? tid with
        | none => .next s
        | some p =>
          match s.quorum? p.group with
          | none => .next s
          | some q =>
            if o.kind != .qsync || p.done || p.sent || q.owner != s.hostCtl.fabNode then .next s
            else
              let s := s.modXfer op (fun o => o.modPart tid (fun p => { p with sent := true }))
              .next { s with qreplies := s.qreplies ++ [{ op := op, tid := tid, round := q.round, count := q.heldOf p.member }] })

/-- QSYNC_REPLY_ARRIVAL (R229, R349); not after a trip (R387). -/
def execQsyncReplyArrival (op tid : Nat) (remote : Option (BitVec 16 × BitVec 8)) (s : State) : Out :=
  if s.power.tripped then .next s else
  match s.xfer? op with
  | none => .next s
  | some o =>
    match o.part? tid with
    | none => .next s
    | some p =>
      let here := s.qreplies.find? (fun x => x.op == op && x.tid == tid)
      let own := match s.quorum? p.group with
        | some q => q.owner == s.hostCtl.fabNode
        | none => true
      let reply : Option QReply := match remote with
        | none => here
        | some (r, k) =>
          if own || s.power.minimal || here.isSome || s.fabric.any (fun x => x.op == some (op, tid)) then none
          else some { op := op, tid := tid, round := r, count := k.toNat }
      match reply with
      | none => .next s
      | some x =>
        if o.kind != .qsync || p.done then .next s
        else if s.holdsFor o then .next (if here.isSome then s else { s with qreplies := s.qreplies ++ [x] })
        else
          let s : State := { s with qreplies := s.qreplies.filter (fun y => !(y.op == op && y.tid == tid)) }
          .next (s.writeSync op tid x.round x.count).settle

/-! ### Restoration, removal and restart (R350, R352) -/

/-- What the Huddle holds for a restored team is written (R350). -/
def State.huddleRestore (s : State) (team : Nat) : State :=
  let mine := (s.xfers.filter (fun o => o.team == team)).map (·.id)
  let res := s.qresults.filter (fun x => mine.contains x.op)
  let rep := s.qreplies.filter (fun x => mine.contains x.op)
  let s : State := { s with qresults := s.qresults.filter (fun x => !mine.contains x.op),
                            qreplies := s.qreplies.filter (fun x => !mine.contains x.op) }
  let s := res.foldl (fun (s : State) x => s.writeResult x.op x.tid x.data) s
  rep.foldl (fun (s : State) x => s.writeSync x.op x.tid x.round x.count) s

/-- A group removed by the host (R352): its contributions are discarded, and its QPOSTs and QSYNCs complete. -/
def State.removeGroup (s : State) (g : Nat) : State :=
  match s.quorum? g with
  | none => s
  | some q =>
    let mine := (s.xfers.filter (fun o => o.kind == .qpost || o.kind == .qsync)).flatMap (fun o =>
      (o.parts.filter (fun p => p.group == g && !p.done)).map (fun p => (o.id, p.tid, o.kind == .qsync)))
    let gone := fun (op tid : Nat) => mine.any (fun x => x.1 == op && x.2.1 == tid)
    let s : State := { s with
      quorum := s.quorum.filter (fun x => x.id != g),
      qresults := s.qresults.filter (fun x => !gone x.op x.tid),
      qreplies := s.qreplies.filter (fun x => !gone x.op x.tid),
      fabric := s.fabric.filter (fun x => match x.op with
        | some (op, tid) => !gone op tid
        | none => true),
      huddleStop := s.huddleStop && s.stopGrp != g, stopGrp := if s.huddleStop && s.stopGrp != g then s.stopGrp else 0 }
    let s := ((q.cur ++ q.ahead ++ q.late).filterMap (·.cmd)).foldl (fun (s : State) i =>
      s.modCmd i (fun b => { b with posted := false })) s
    let s := mine.foldl (fun (s : State) x =>
      if x.2.2 then s.writeSync x.1 x.2.1 q.replica 0 else s.finishPart x.1 x.2.1) s
    s.closeAll.settle

/-- The host restarts a stopped Huddle: rounds close again as contributions allow (R352). -/
def State.restartHuddle (s : State) : State :=
  { s with huddleStop := false, stopGrp := 0 }.closeAll

end Sys2Proof.Machine
end

