-- ==== Sys2Proof/Machine/Messages.lean ====
section
/-! DEFINITION. Active messages (R230, R231, R278, R292): AMSG, their arrival at a core's message queue, and the
appending of handler threads to spawn bins. -/

namespace Sys2Proof.Machine

/-! ### Spawn bins (R153) -/

/-- The bin of a key holds `k` more pending threads, or a free bin does; none where it is full or no bin is free. -/
def Core.binFor (c : Core) (team role : Nat) (entry : BitVec 57) (k : Nat) : Bool :=
  match c.bins.find? (fun b => b.team == team && b.role == role && b.entry == entry) with
  | some b => decide (b.items.length + k ≤ Config.binDepth)
  | none => decide (c.bins.length < Config.spawnBins ∧ k ≤ Config.binDepth)

/-- Pending threads appended to the bin of a key; the timer of an empty bin is set (R153). `view` is what their sender has
ordered before them (R231). -/
def Core.append (c : Core) (team role : Nat) (entry : BitVec 57) (items : List (List Word)) (view : View := []) : Core :=
  let views := items.map (fun _ => view)
  let mine := fun (b : Bin) => b.team == team && b.role == role && b.entry == entry
  let more := fun (b : Bin) => { b with items := b.items ++ items, views := b.views ++ views, timer := if b.items.isEmpty then Config.spawnTimer else b.timer }
  if items.isEmpty then c
  else if c.bins.any mine then { c with bins := updWhere mine more c.bins }
  else { c with bins := c.bins ++ [{ team := team, role := role, entry := entry, items := items, views := views, timer := Config.spawnTimer }] }

/-! ### The handler table (R292) -/

/-- Fields of a handler entry. -/
def handlerValid (e : BitVec 128) : Bool := e.getLsbD 127
def handlerAsid (e : BitVec 128) : Nat := e.toNat / 2 ^ 117 % 512
def handlerQueue (e : BitVec 128) : Nat := e.toNat / 2 ^ 109 % 256
def handlerRole (e : BitVec 128) : Nat := e.toNat / 2 ^ 107 % 4
def handlerEntry (e : BitVec 128) : BitVec 57 := BitVec.ofNat 57 (e.toNat % 2 ^ 57 / 8 * 8)

/-- Entry `h` of a core's handler table. -/
def State.handler (s : State) (core h : Nat) : BitVec 128 :=
  match s.core? core with
  | some c => (assocGet c.handlers h).getD 0#128
  | none => 0#128

/-! ### AMSG (R230, R231) -/

/-- One participant of AMSG checked (R231). The handler table of another node is not this device's to read: whether
it has the entry is a free value (log entry 14). -/
def State.amsgCheck (s : State) (c : Ctx) (t : Thread) (n : Nat) (tv sv hv : Nat) : Except (Cause × Option Nat) Part :=
  let core := tv % 128
  let node := tv / 65536
  let here := node == 0xFFFF || node == s.hostCtl.fabNode
  let src : Except (Cause × Option Nat) Unit :=
    if n = 0 then .ok ()
    else if sv % 4 != 0 then .error (.misalign, some sv)
    else
      match s.scratch c.launch c.grp.team sv (4 * n) with
      | .ok _ => .ok ()
      | .error e => .error (e, some sv)
  match src with
  | .error e => .error e
  | .ok _ =>
    let e := s.handler core hv
    let ok := if here then handlerValid e && handlerAsid e == c.launch.asid && decide (hv < 256)
      else s.reachable node && decide (hv < 256) && Config.freeHandler (s.freeCount + t.tid)
    if tv / 128 % 512 != 0 || !ok then .error (.protection, none)
    else .ok { Part.new t.tid (c.pos t) with
      core := core, node := if here then s.hostCtl.fabNode else node, handler := hv, src := sv, len := 4 * n,
      prio := c.team.amsgPri }

/-- AMSG (R230, R231). -/
def execAmsg (h : Head) (rel : Bool) (n : Fin 17) (t sr hd : Operand) (bar : BarSel) (s : State) : Out :=
  run s [(t, 1), (sr, 1), (hd, 1)] (fun c =>
    if (c.parts h).isEmpty then s.advance
    else if bar.isSome && s.acquiring (c.parts h) then s
    else if !s.barValid c.grp.team (barNum bar) then s.trapGroup c .barrierState none
    else
      let v := fun x (o : Operand) => (c.val x o).toNat
      let (ps, bad) := c.checkParts h (fun x _ => s.amsgCheck c x n.val (v x t) (v x sr) (v x hd))
      let remote := (ps.filter (fun p => p.node != s.hostCtl.fabNode)).length
      let stall := decide (0 < remote) && !s.fabricRoom remote
      s.partIssue c h .amsg rel (barNum bar) bad ps stall (fun s =>
        if remote = 0 then s else { s with freeCount := s.freeCount + 1024 }))

/-- The sender's earlier stores have been performed for the handler thread (R231): with REL at DEVICE scope, for
another node at SYSTEM scope. -/
def State.amsgOrdered (s : State) (o : XferOp) (p : Part) : Bool :=
  !o.rel || (match s.thread? o.team p.tid with
    | some t => (s.storesOf t).all (fun e => e.stk || !decide (e.id < o.id) || e.atLeast (if p.node == s.hostCtl.fabNode then .device else .system))
    | none => true)

/-- An earlier message of the same sender to the handler of that core has still to be sent (R278). -/
def State.amsgBehind (s : State) (o : XferOp) (p : Part) : Bool :=
  s.xfers.any (fun x => x.kind == .amsg && x.team == o.team && decide (x.id < o.id) && x.parts.any (fun y =>
    !y.sent && !y.done && y.node == p.node && y.core == p.core && y.handler == p.handler &&
      (x.partTids y.tid).any (fun t => (o.partTids p.tid).contains t)))

/-- What the sender of a message with REL has ordered before the handler thread (R231). -/
def State.amsgView (s : State) (o : XferOp) (p : Part) : View :=
  if o.rel then (s.threadsOf o.team (o.partTids p.tid)).foldl (fun v t => joinViews v (t.viewAt o.id)) [] else []

/-- A message arrives at a core's queue: behind 64 others the network holds it back, read and sent as it is, until they leave
it room (R278). -/
def State.pushMsg (s : State) (core : Nat) (m : Msg) : State := s.modCore core (fun c => { c with msgs := c.msgs ++ [m] })

/-- The core's queue has room for a message. -/
def State.msgRoom (s : State) (core : Nat) : Bool :=
  match s.core? core with
  | some c => decide (c.msgs.length < Config.messages)
  | none => false

/-- Stages of a part of AMSG: its payload is read and the message sent; then, for another node, the fabric reports
that it has been appended or discarded there (log entry 13). -/
def State.amsgStep (s : State) (o : XferOp) (p : Part) : State :=
  let here := p.node == s.hostCtl.fabNode
  if p.sent then
    (if here || s.fabric.any (fun x => x.op == some (o.id, p.tid)) then s else (s.finishPart o.id p.tid).settle)
  else if !s.partReady o p || !s.amsgOrdered o p || s.amsgBehind o p then s
  else if !here && decide (s.fabric.length ≥ Config.fabricTransfers) then s
  else
    let bad := if p.len = 0 then none else s.badAt (scratchLoc o.team p.src) p.len
    let data := s.partBytes o p
    let words := (wordsOf data).take (p.len / 4)
    let s := (s.notePart o p).modXfer o.id (fun o => o.modPart p.tid (fun p => { p with data := some data, early := [], sent := true }))
    let s := s.relockParts o.id
    let s := if here then s.pushMsg p.core {
        handler := p.handler, node := s.hostCtl.fabNode, srcCore := o.core, asid := o.asid, words := words, op := some (o.id, p.tid),
        view := s.amsgView o p }
      else s.enqueue p.node p.prio (16 + p.len) (.message p.core p.handler o.core o.asid words) (some (o.id, p.tid)) none 0
    (s.stopBad o.team bad).settle

/-- AMSG_ARRIVAL (R231, R278): a message of this device is read and sent on, or one of another node enters the
queue of its core. -/
def execAmsgArrival (op tid : Nat) (remote : Option RemoteMsg) (s : State) : Out :=
  match remote with
  | some m =>
    let e := s.handler m.core m.handler
    if !s.msgRoom m.core || !handlerValid e || handlerAsid e != m.asid || decide (m.words.length > 16) ||
        m.node == s.hostCtl.fabNode || s.power.minimal then .next s
    else .next (s.pushMsg m.core {
      handler := m.handler, node := m.node, srcCore := m.srcCore, asid := m.asid, words := m.words, op := none, view := [] })
  | none =>
    (match s.xfer? op with
      | none => .next s
      | some o =>
        match o.part? tid with
        | none => .next s
        | some p => .next (if o.kind != .amsg || p.done || s.power.tripped then s else s.amsgStep o p))

/-! ### Appending (R231, R278, R292) -/

/-- The oldest launch taken from a queue that has not completed (R292). -/
def State.queueLaunch (s : State) (q : Nat) : Option Launch :=
  (sortBy (·.order) (s.launches.filter (fun l => l.queue == q && l.cadence.isNone && l.phase != .done))).head?

/-- The resident team of a launch on a core with the lowest TEAM index. -/
def State.lowTeam (s : State) (launch core : Nat) : Option Team :=
  (sortBy (·.index) (s.teams.filter (fun t => t.launch == launch && t.core? == some core && !t.killed))).head?

/-- The fate of a message at the head of its sender's order. -/
inductive MsgFate where
  | waits
  | discard
  | append (team role : Nat) (entry : BitVec 57) (item : List Word)

/-- What the core does with a message (R231, R292). -/
def State.msgFate (s : State) (core : Nat) (m : Msg) : MsgFate :=
  let e := s.handler core m.handler
  if !handlerValid e then .waits
  else
    match s.queueLaunch (handlerQueue e) with
    | none => .waits
    | some l =>
      match s.lowTeam l.key core, s.core? core with
      | some t, some c =>
        let r := handlerRole e
        if decide (r ≥ l.kernel.roles.length) || decide ((l.kernel.role r).regs < m.words.length + 2) then .discard
        else if c.binFor t.key r (handlerEntry e) 1 then
          .append t.key r (handlerEntry e)
            (BitVec.ofNat 32 (m.node * 65536 + m.srcCore) :: BitVec.ofNat 32 (4 * m.words.length) :: m.words)
        else .waits
      | _, _ => .waits

/-- The first message that can leave the queue: one that waits is passed over, with the later ones of its sender to
its handler (R278). -/
def firstMsg (f : Msg → MsgFate) : List Msg → List Msg → Option (Msg × MsgFate)
  | _, [] => none
  | seen, m :: r =>
    if seen.any (fun x => x.node == m.node && x.srcCore == m.srcCore && x.handler == m.handler) then firstMsg f (m :: seen) r
    else
      match f m with
      | .waits => firstMsg f (m :: seen) r
      | x => some (m, x)

/-- One occurrence removed. -/
def dropMsg (m : Msg) : List Msg → List Msg
  | [] => []
  | x :: r => if x == m then r else x :: dropMsg m r

/-- AMSG_APPEND (R231, R278, R292): the oldest message that can leaves the queue of 64, and its sender completes; not after a trip
(R387). -/
def execAmsgAppend (core : Nat) (s : State) : Out :=
  match (if s.power.tripped then none else s.core? core) with
  | none => .next s
  | some c =>
    match firstMsg (s.msgFate core) [] (c.msgs.take Config.messages) with
    | none => .next s
    | some (m, fate) =>
      let s := s.modCore core (fun c => { c with msgs := dropMsg m c.msgs })
      let s := match fate with
        | .append team role entry item => s.modCore core (fun c => c.append team role entry [item] m.view)
        | .discard => s.modCore core (fun c => { c with
            handlers := assocSet c.handlers m.handler ((assocGet c.handlers m.handler).getD 0#128 ||| BitVec.ofNat 128 (2 ^ 126)) })
        | .waits => s
      .next (match m.op with
        | some (op, tid) => s.finishPart op tid
        | none => s).settle

end Sys2Proof.Machine
end

