-- ==== Sys2Proof/Machine/Fabric.lean ====
section
/-! DEFINITION. The fabric transmit queue (R279, R382, R395): pieces, port failures, drops and link-level retries. -/

namespace Sys2Proof.Machine

/-- The Cadence table stops with a cause, unless it has stopped already (R296, R351, R395), and its event is written. -/
def State.stopTable (s : State) (entry cause refuse : Nat) : State :=
  if s.cadence.state == 5 then s
  else
    let s : State := { s with cadence := { s.cadence with
      state := 5, cause := cause, errEntry := entry, refuse := refuse, wait := 0,
      running := s.cadence.running.map (fun r => { r with muted := true }) } }
    s.postEvent 5 (leBytes 4 (entry * 2 ^ 24 + cause * 2 ^ 16 + refuse * 2 ^ 8 + 5))

/-- The transfer that a port sends a piece of: the highest priority, and among equals the oldest (R279). -/
def State.nextTransfer (s : State) (port : Nat) : Option Transfer :=
  (s.fabric.filter (fun x => s.portOf x.node == port && s.reachable x.node)).foldl (fun best x =>
    match best with
    | none => some x
    | some b => if b.prio < x.prio then some x else some b) none

/-- FABRIC_PIECE_SEND (R279): 512 bytes, or the last piece; a whole transfer leaves the queue, and a round that waited for
room closes. -/
def execFabricPieceSend (port : Nat) (s : State) : Out :=
  match s.nextTransfer port with
  | none => .next s
  | some x =>
    let x' := { x with sentBytes := x.sentBytes + 512 }
    if x'.sentBytes ≥ x.len then
      .next { s with fabric := s.fabric.filter (fun y => y.id != x.id), outbox := s.outbox ++ [{ x' with sentBytes := x.len }] }.closeAll
    else .next { s with fabric := updWhere (fun y => y.id == x.id) (fun _ => x') s.fabric }

/-- The kinds of transfer in a type-9 event (log entry 10). -/
def XferWhat.kind : XferWhat → Nat
  | .contribution .. => 0
  | .result .. => 1
  | .closure .. => 2
  | .qsyncRequest .. => 3
  | .qsyncReply .. => 4
  | .message .. => 5
  | .cadenceSend .. => 6
  | .cadenceGrant .. => 7
  | .mirror .. => 8
  | .parity .. => 9

/-- A transfer dropped, with its event, and its sender settled (R395). -/
def State.dropTransfer (s : State) (x : Transfer) : State :=
  let s : State := { s with fabric := s.fabric.filter (fun y => y.id != x.id) }
  let s := s.postEvent 9 (leBytes 8 x.node ++ leBytes 8 x.what.kind)
  match x.what with
  | .contribution g _ _ _ | .result g _ _ _ | .closure g _ | .qsyncRequest g _ | .qsyncReply g _ _ _ | .parity g _ => s.stopHuddle g
  | .message .. => (match x.op with
    | some (op, tid) => (s.finishPart op tid).settle
    | none => s)
  | .cadenceSend .. | .cadenceGrant _ => s.stopTable x.entry 0x1A 0
  | .mirror .. => (match x.cmd with
    | some k => s.modCmd k (fun b => { b with acked := true })
    | none => s)

/-- FABRIC_TRANSFER_DROP (R395): the destination is unreachable. -/
def execFabricTransferDrop (id : Nat) (s : State) : Out :=
  match s.fabric.find? (fun x => x.id == id) with
  | none => .next s
  | some x => .next (if s.reachable x.node then s else (s.dropTransfer x).closeAll)

/-- FABRIC_PORT_FAILURE (R382, R395): its nodes become unreachable, what is queued for it is dropped, and a Huddle with
a group that names one of them stops. -/
def execFabricPortFailure (port : Nat) (s : State) : Out :=
  if port ≥ 16 || s.failedPorts.contains port then .next s
  else
    let gone := s.fabric.filter (fun x => s.portOf x.node == port && x.node != s.hostCtl.fabNode)
    let s : State := { s with failedPorts := s.failedPorts ++ [port] }
    .next (gone.foldl (fun (s : State) x => s.dropTransfer x) s).checkReach.closeAll

/-- LINK_LEVEL_RETRY (R382): no flit is lost or reordered, so only time passes. -/
def execLinkLevelRetry (_port : Nat) (s : State) : Out :=
  .next { s with power := { s.power with retries := s.power.retries + 1 } }

end Sys2Proof.Machine
end

