-- ==== Sys2Proof/Machine/Placement.lean ====
section
/-! DEFINITION. The placement of home groups and teams (R31 to R35, R139, R153, R154, R233, R250, R256 to R258, R271,
R274, R350): lanes, words, stack slots and bins, and the threads that placement makes; SPAWN and the events of the
spawn bins. -/

namespace Sys2Proof.Machine

/-! ### Lanes (R32 to R34) -/

/-- Rows of a home group: its S row and its rejoin rows (R32). -/
def Kernel.rows (k : Kernel) : Nat := 1 + (k.join + 15) / 16

/-- Threads and words that each of the 64 lanes of a core holds (R32, R33): a home group holds its whole block until
it retires (R139). -/
abbrev LaneLoad := List (Nat × Nat)

/-- A home group added to the lanes of its block. -/
def addGroup (ls : LaneLoad) (block g regs : Nat) : LaneLoad :=
  ls.mapIdx (fun x l => if block * g ≤ x ∧ x < block * g + g then (l.1 + 1, l.2 + regs) else l)

/-- Rows added to every lane. -/
def addRows (ls : LaneLoad) (n : Nat) : LaneLoad := ls.map (fun l => (l.1, l.2 + n))

/-- The load of a core's lanes. -/
def State.laneLoad (s : State) (core : Nat) : LaneLoad :=
  (s.groups.filter (fun g => !g.retired)).foldl (fun (ls : LaneLoad) g =>
    match s.team? g.team with
    | none => ls
    | some t =>
      if t.core? != some core then ls
      else
        match s.launch? t.launch with
        | none => ls
        | some l => addGroup (addRows ls l.kernel.rows) g.block g.g (l.kernel.role g.role).regs) (List.replicate 64 (0, 0))

/-- The block of a home group: the first of b = (i + k) mod (64 / g) whose lanes all have room (R34). -/
def findBlock (ls : LaneLoad) (g regs i : Nat) : Option Nat :=
  ((List.range (64 / g)).map (fun k => (i + k) % (64 / g))).find? (fun b =>
    (List.range g).all (fun h => match ls[b * g + h]? with
      | some l => decide (l.1 + 1 ≤ Config.laneThreads ∧ l.2 + regs ≤ Config.laneWords)
      | none => false))

/-- Home groups of a team in order, as role, index, home-group size and allotment. -/
structure HgSpec where
  role : Nat
  idx : Nat
  g : Nat
  regs : Nat

/-- Home groups that a kernel declares (R31). -/
def Kernel.hgs (k : Kernel) : List HgSpec :=
  (k.roles.mapIdx (fun r x => (List.range x.groups).map (fun i => ({ role := r, idx := i, g := x.gsize, regs := x.regs } : HgSpec)))).flatten

/-- Blocks for home groups in order, all their rows counted first (R33, R34; DEDUCED, log entry 12). -/
def placeHgs (ls : LaneLoad) (rows : Nat) (hs : List HgSpec) : Option (List Nat) :=
  let ls := addRows ls (rows * hs.length)
  if ls.any (fun l => decide (l.2 > Config.laneWords)) then none
  else (hs.foldlM (fun (acc : List Nat × LaneLoad) h =>
    (findBlock acc.2 h.g h.regs h.idx).map (fun b => (acc.1 ++ [b], addGroup acc.2 b h.g h.regs))) ([], ls)).map (·.1)

/-- The runs of a core that its teams hold, as base and length: of LSM bytes, accumulator blocks, or bytes of the operand
buffer (R250, R257, R258). -/
def State.runsOf (s : State) (core : Nat) (f : Team → Kernel → Nat × Nat) : List (Nat × Nat) :=
  (s.teams.filter (fun t => t.core? == some core)).filterMap (fun t => (s.launch? t.launch).map (fun l => f t l.kernel))

/-- A base at which a run of `size` is free among `total`, beside runs in use of at least one unit: the wished one, or else the lowest (R250,
R257, R258: the device chooses where, log entry 22). -/
def freeRun (used : List (Nat × Nat)) (total size wish : Nat) : Option Nat :=
  let used := used.filter (fun u => u.2 != 0)
  (wish :: sortBy id (0 :: used.map (fun u => u.1 + u.2))).find? (fun b =>
    decide (b + size ≤ total) && used.all (fun u => decide (b + size ≤ u.1 ∨ u.1 + u.2 ≤ b ∨ size = 0)))

/-- Where a core has room for the LSM allotment, the accumulator blocks and the tile-reservation space of a kernel: the
wished line, block and granule where they are free (the answer counts bytes, blocks and bytes). -/
def State.areasFor (s : State) (core : Nat) (k : Kernel) (wish : Areas) : Option Areas :=
  match freeRun (s.runsOf core (fun t k => (t.lsmBase, k.lsm))) Config.lsmBytes k.lsm (128 * wish.lsm),
      freeRun (s.runsOf core (fun t k => (t.accBase, k.acc))) Config.accBlocks k.acc wish.acc,
      freeRun (s.runsOf core (fun t k => (t.tileBase, k.tiles))) Config.tileBytes k.tiles (2048 * wish.tile) with
  | some l, some a, some t => some { lsm := l, acc := a, tile := t }
  | _, _, _ => none

/-- Team slots in use on a core. -/
def State.slotsUsed (s : State) (core : Nat) : List Nat :=
  s.teams.filterMap (fun t => match t.place with
    | .resident c k => if c = core then some k else none
    | _ => none)

/-- A core holds the resources of R33 for home groups of a kernel: their blocks. -/
def State.coreFits (s : State) (core : Nat) (k : Kernel) (hs : List HgSpec) : Option (List Nat) :=
  if decide ((s.slotsUsed core).length ≥ Config.teamSlots) || (s.areasFor core k default).isNone then none
  else placeHgs (s.laneLoad core) k.rows hs

/-- One team of the kernel fits on an empty core (R30). -/
def Kernel.fitsEmpty (k : Kernel) : Bool := (placeHgs (List.replicate 64 (0, 0)) k.rows k.hgs).isSome

/-- The lowest number that a list does not hold. -/
def lowestFree (used : List Nat) (n : Nat) : Option Nat := (List.range n).find? (fun i => !used.contains i)

/-- Stack indices that the living threads of a team hold (R256). -/
def State.stackUsed (s : State) (team : Nat) : List Nat :=
  (s.threads.filter (fun t => t.team == team && !t.hasExited)).map (·.stackIdx)

/-! ### Threads (R31, R36, R154, R233 to R237) -/

/-- A thread at its start. -/
def Thread.fresh (team tid role hg hidx lane regs : Nat) (v : List Word) (pc : BitVec 57) (clk stack : Nat) : Thread :=
  { team := team, tid := tid, role := role, hg := hg, hidx := hidx, lane := lane,
    v := (v ++ List.replicate regs 0#32).take regs, p := 0#8, pc := pc, clause := none, status := .ready, since := clk,
    yield0 := false, yield1 := false, ldcnt := 0, stcnt := 0, xfcnt := 0, tlcnt := 0, pend := [], stores := [],
    fence := none, tcause := 0, tpc := 0#57, tpcKind := .instruction, taddr := 0#64, tlanes := 0#64, inHandler := false,
    trapClause := none, entering := none, wdogDue := false, path := 0#64, stackIdx := stack, noWatch := false,
    watchOp := none, convDue := none, waitsMet := false, know := [], seen := [], reads := [], fences := [], after := [],
    xfView := [] }

/-- A home group at its start. -/
def HomeGroup.fresh (team role idx g block join : Nat) (absent : DWord) : HomeGroup :=
  { team := team, role := role, idx := idx, g := g, block := block, absent := absent, s := List.replicate 64 0#32,
    rejoin := List.replicate join { expected := 0#64, arrived := 0#64 }, syncM := 0#64, syncA := 0#64, psig := 0#64,
    retired := false }

/-- One home group made on a block, with threads of the given first words (R31, R34): the lowest free stack indices
go to its threads in order (R256). `base` is ordered before all their accesses, and `views` before each one's (R231, R321). -/
def State.makeGroup (s : State) (team : Nat) (k : Kernel) (role idx block tid0 : Nat) (entry : BitVec 57)
    (items : List (List Word)) (base : View) (views : List View) : State :=
  let r := k.role role
  let used := s.stackUsed team
  let free := (List.range (1024 + items.length)).filter (fun i => !used.contains i)
  let absent := maskOf ((List.range r.gsize).filter (fun i => decide (i ≥ items.length)))
  let ts := items.mapIdx (fun h v =>
    (Thread.fresh team (tid0 + h) role idx h (block * r.gsize + h) r.regs v entry s.clk (free.getD h 0)).learn
      (joinViews base (views.getD h [])) 0)
  { s with groups := s.groups ++ [HomeGroup.fresh team role idx r.gsize block k.join absent], threads := s.threads ++ ts }

/-! ### SPAWN and its bins (R153, R154, R274) -/

/-- SPAWN (R153); a role that the kernel header does not declare is an illegal operand (R136's further limits). -/
def execSpawn (h : Head) (role : Fin 4) (a b : Operand) (off : BitVec 24) (s : State) : Out :=
  run s [(a, 1), (b, 1)] (fun c =>
    let ps := c.parts h
    let entry := wordOffset c.grp.hdrAddr off
    match s.core? c.core with
    | none => s
    | some k =>
      if c.launch.kernel.roles.length ≤ role.val then s.trapGroup c .illegalOperand none
      else if ps.isEmpty then s.advance
      else if !k.binFor c.grp.team role.val entry ps.length then s.trapGroup c .spawnFull none
      else
        let items := ps.map (fun t => [c.val t a, c.valOr t b 0#32])
        (s.modCore c.core (fun k => k.append c.grp.team role.val entry items)).advance)

/-- SPAWN_BIN_TIMER_EXPIRY (R154): the 2,048 cycles of a bin have passed. -/
def execSpawnBinTimerExpiry (core bin : Nat) (s : State) : Out :=
  .next (s.modCore core (fun c => { c with bins := updAt bin (fun b => if b.timer = 1 then { b with timer := 0 } else b) c.bins }))

/-- The pending threads that a bin gives to a new home group of size g (R154). -/
def Bin.ripe (b : Bin) (g : Nat) : List (List Word) :=
  if g = 0 then []
  else if b.items.length ≥ g then b.items.take g
  else if b.timer = 0 then b.items
  else []

/-- A bin after a home group has left it. -/
def Bin.rest (b : Bin) (n : Nat) : Option Bin :=
  if b.items.length ≤ n then none else some { b with items := b.items.drop n, views := b.views.drop n, timer := Config.spawnTimer }

/-- SPAWN_GROUP_PLACEMENT (R154): a bin makes a home group where lanes, words and the thread count allow it, and no trip has
stopped the cores (R387). -/
def execSpawnGroupPlacement (core bin : Nat) (s : State) : Out :=
  match s.core? core with
  | none => .next s
  | some c =>
    match c.bins[bin]? with
    | none => .next s
    | some b =>
      match s.team? b.team with
      | none => .next s
      | some t =>
        match s.launch? t.launch with
        | none => .next s
        | some l =>
          let r := l.kernel.role b.role
          let items := b.ripe r.gsize
          let idx := t.nextIdx.getD b.role 0
          let live := (s.threads.filter (fun x => x.team == t.key && (match s.hg? t.key x.role x.hg with
            | some g => !g.retired
            | none => false))).length
          if items.isEmpty || t.killed || decide (b.role ≥ l.kernel.roles.length) || decide (live + items.length > 1024) ||
              s.power.tripped then .next s
          else
            match placeHgs (s.laneLoad core) l.kernel.rows [{ role := b.role, idx := idx, g := r.gsize, regs := r.regs }] with
            | some [block] =>
              let s := s.makeGroup t.key l.kernel b.role idx block t.nextTid b.entry items l.view b.views
              let s := s.modTeam t.key (fun t => { t with
                nextTid := t.nextTid + items.length, nextIdx := updAt b.role (fun _ => idx + 1) t.nextIdx })
              .next (s.modCore core (fun c => { c with bins := (c.bins.mapIdx (fun i x => if i = bin then x.rest items.length else some x)).filterMap id }))
            | _ => .next s

/-! ### Placing a team (R33, R35, R271, R350) -/

/-- The device's cores that have passed bring-up (R390, R391). -/
def State.coreReady (s : State) (core : Nat) : Bool := s.power.ready.getLsbD (dieOf core) && !s.power.tripped

/-- A free stack slot of a launch (R256); none is needed without a stack. -/
def State.stackSlotFor (s : State) (l : Launch) : Option (Option Nat) :=
  if l.kernel.stack = 0 then some none
  else
    let used := (s.teams.filter (fun t => t.launch == l.key)).filterMap (·.stackSlot)
    (lowestFree used (Nat.min l.stkSlots (used.length + 1))).map some

/-- A new team placed on a core: everything of it at its value at placement (R33, R233 to R242, R252, R258). -/
def State.placeNew (s : State) (l : Launch) (index core slot prio : Nat) (stack : Option Nat) (blocks : List Nat) (wish : Areas) : State :=
  let at_ := (s.areasFor core l.kernel wish).getD default
  let key := s.nextId
  let k := l.kernel
  let team : Team := {
    key := key, launch := l.key, index := index, place := .resident core slot, lastCore := core, prio := prio, since := s.clk,
    limits := k.roles.map (·.gsize), mode := if l.ftz then 1#32 else 0#32, bktpri := 0#32, rgn := .none, wdog := 0,
    wdogHit := false, wdogAgain := false, wdogHandling := false, stackSlot := stack, nextTid := (k.hgs.map (·.g)).sum, nextIdx := k.roles.map (·.groups),
    lsm := [], acc := [], lsmBase := at_.lsm, accBase := at_.acc, tileBase := at_.tile, tiles := List.replicate 16 .empty, bars := List.replicate 16 .zero, saveReq := false,
    killed := false, savedBins := [], savedLocks := [], image := 0, tagged := 0 }
  let s : State := { s.bumpId with teams := s.teams ++ [team] }
  ((k.hgs.zip blocks).foldl (fun (acc : State × Nat) (p : HgSpec × Nat) =>
    let items := List.replicate p.1.g (unpair l.args)
    (acc.1.makeGroup key k p.1.role p.1.idx p.2 acc.2 (k.role p.1.role).entry items l.view [], acc.2 + p.1.g)) (s, 0)).1

/-- Home groups of a saved team that have not retired, in order. -/
def State.savedHgs (s : State) (t : Team) (k : Kernel) : List HgSpec :=
  (s.groups.filter (fun g => g.team == t.key && !g.retired)).map (fun g =>
    { role := g.role, idx := g.idx, g := g.g, regs := (k.role g.role).regs })

/-- A saved team restored on a core (R350): blocks and lanes anew, lines present but for results still to come, locks
and bins in the tables of the core, and what the Huddle holds for it written. Its threads are ready from now on (R36,
R37). -/
def State.placeSaved (s : State) (t : Team) (core slot prio : Nat) (hs : List HgSpec) (blocks : List Nat) (wish : Areas) : State :=
  let at_ := (match s.launch? t.launch with
    | some l => s.areasFor core l.kernel wish
    | none => none).getD default
  let place := hs.zip blocks
  let blockOf := fun (r i : Nat) => (place.find? (fun (p : HgSpec × Nat) => p.1.role == r && p.1.idx == i)).map (·.2)
  let keep := ((s.xfers.filter (fun o => o.team == t.key)).flatMap (·.parts)).flatMap (·.cleared)
  let s : State := { s with
    groups := updWhere (fun g => g.team == t.key) (fun g => { g with block := (blockOf g.role g.idx).getD g.block }) s.groups,
    threads := updWhere (fun x => x.team == t.key) (fun x => match blockOf x.role x.hg, s.hg? t.key x.role x.hg with
      | some b, some g => { x with lane := b * g.g + x.hidx, since := s.clk }
      | _, _ => { x with since := s.clk }) s.threads,
    absent := s.absent.filter (fun a => a.space != .lsm t.key || keep.contains a) }
  let s := s.modCore core (fun c => { c with locks := c.locks ++ t.savedLocks, bins := c.bins ++ t.savedBins })
  let s := s.modTeam t.key (fun t => { t with
    place := .resident core slot, lastCore := core, lsmBase := at_.lsm, accBase := at_.acc, tileBase := at_.tile,
    prio := prio, since := s.clk, savedLocks := [], savedBins := [] })
  (s.huddleRestore t.key).settle

/-- A team that waits for a core: new or saved. -/
structure Waiting where
  launch : Launch
  index : Nat
  saved : Option Team

/-- The priority under which a launch's teams are pending (R273, R294). -/
def State.launchPrio (s : State) (l : Launch) : Nat :=
  match l.cadence with
  | some (_, p) => p
  | none => (s.queue l.queue).prio

/-- The pending teams in the order of R271. -/
def State.waitingTeams (s : State) : List Waiting :=
  let new : List Waiting := (s.launches.filter (fun l => l.phase == .running)).flatMap (fun l =>
    l.pending.map (fun i => { launch := l, index := i, saved := none }))
  let old : List Waiting := s.teams.filterMap (fun t => match t.place, s.launch? t.launch with
    | .saved _, some l => if t.killed then none else some { launch := l, index := t.index, saved := some t }
    | _, _ => none)
  sortBy (fun (w : Waiting) => (7 - s.launchPrio w.launch) * 2 ^ 80 + w.launch.order * 2 ^ 24 + w.index) (new ++ old)

/-- What a team finds on a core: its home groups' blocks, and its stack slot where it is new. -/
def State.fitsOn (s : State) (w : Waiting) (core : Nat) : Option (List HgSpec × List Nat × Option Nat) :=
  match w.saved with
  | none =>
    (match s.stackSlotFor w.launch, s.coreFits core w.launch.kernel w.launch.kernel.hgs with
      | some st, some bs => some (w.launch.kernel.hgs, bs, st)
      | _, _ => none)
  | some t =>
    let hs := s.savedHgs t w.launch.kernel
    match s.core? core, s.coreFits core w.launch.kernel hs with
    | some c, some bs =>
      if c.bins.length + t.savedBins.length > Config.spawnBins || c.locks.length + t.savedLocks.length > Config.rangeLocks then none
      else some (hs, bs, t.stackSlot)
    | _, _ => none

/-- The core that a team goes to: the lowest that fits, those of gated quadrants last (R271). -/
def State.coreFor (s : State) (w : Waiting) : Option Nat :=
  let gated := fun c => s.power.gated.contains (quadOf c)
  let fits := (List.range Config.cores).filter (fun c => s.coreReady c)
  match (fits.filter (fun c => !gated c)).find? (fun c => (s.fitsOn w c).isSome) with
  | some c => some c
  | none => (fits.filter gated).find? (fun c => (s.fitsOn w c).isSome)

/-- The first team in order that fits somewhere. While it waits for its gated quadrant to resume, none behind it is placed
(DESIGN CHOICE, log entry 21). -/
def State.nextPlaced (s : State) : Option (Waiting × Nat) :=
  s.waitingTeams.findSome? (fun w => (s.coreFor w).map (fun c => (w, c)))

/-- The save slot of a team still holds what the save wrote, and no word of it is bad: its digest matches (R247, R347; log
entry 16). -/
def State.slotIntact (s : State) (t : Team) : Bool :=
  match t.place with
  | .saved slot =>
    let base := s.hostCtl.saveBase + slot * Config.saveSlot
    (List.range Config.saveSlot).all (fun i => s.main.read (base + i) == Config.freeSave t.image i) &&
      !s.badIn ⟨.main, base⟩ Config.saveSlot
  | _ => true

/-- TEAM_PLACEMENT (R271, R347, R386): a team is placed, or its gated quadrant begins to resume; a saved team whose
slot does not match its digest is killed. The device chooses where its areas stand (R250, R257, R258). -/
def execTeamPlacement (wish : Areas) (s : State) : Out :=
  match s.nextPlaced with
  | none => .next s
  | some (w, core) =>
    let q := quadOf core
    if s.power.gating.contains q then
      .next ({ s with power := { s.power with gating := s.power.gating.filter (fun x => x != q) } }.wakeTrace q)
    else if s.power.gated.contains q then
      .next (if s.power.resuming.contains q then s else { s with power := { s.power with resuming := s.power.resuming ++ [q] } })
    else
      match s.fitsOn w core, lowestFree (s.slotsUsed core) Config.teamSlots with
      | some (hs, bs, st), some slot =>
        (match w.saved with
          | none =>
            let s := s.placeNew w.launch w.index core slot (s.launchPrio w.launch) st bs wish
            .next (s.modLaunch w.launch.key (fun l => { l with pending := l.pending.filter (fun i => i != w.index) }))
          | some t =>
            if s.slotIntact t then .next (s.placeSaved t core slot (s.launchPrio w.launch) hs bs wish)
            else .next (s.killTeam t.key 0))
      | _, _ => .next s

end Sys2Proof.Machine
end

