-- ==== Sys2Proof/Machine/Launch.lean ====
section
/-! DEFINITION. Launches (R155, R267 to R273, R370): LAUNCH, the record and kernel header with their checks, the
dispatcher, and the resolution of range records. -/

namespace Sys2Proof.Machine

/-! ### Queues and LAUNCH (R155, R267, R268) -/

/-- Entries appended to a queue (R268). -/
def State.append (s : State) (q : Nat) (es : List QEntry) : State :=
  s.modQueue q (fun x => { x with entries := x.entries ++ es })

/-- A queue takes `n` more entries (R268). -/
def Queue.takes (q : Queue) (n : Nat) : Bool := q.en && decide (q.entries.length + n ≤ Config.launchEntries)

/-- Everything that a LAUNCH releases is done (R155, R321): the earlier scratch stores of its threads have been performed at
DEVICE scope, their earlier loads made, what other threads have put before them too, and their earlier NMFENCEs have
completed. -/
def State.launchReady (s : State) (ts : List Thread) : Bool :=
  ts.all (fun t =>
    (s.storesOf t).all (fun e => e.stk || e.atLeast .device) &&
    !s.olderLoad t.team t.tid s.nextId (fun o => !o.stk) && t.after.isEmpty &&
    s.xfers.all (fun o => !(o.kind == .nmfence && o.team == t.team && o.tids.contains t.tid)))

/-- LAUNCH (R155). Children of one LAUNCH may name different queues: each queue must have room for those that name it
(the rule speaks of one queue; DESIGN CHOICE, log entry 21). It acts as a release at DEVICE scope (R321). -/
def execLaunch (h : Head) (a q : Operand) (s : State) : Out :=
  run s [(a, 2), (q, 1)] (fun c =>
    let view := fun (ts : List Thread) => ts.foldl (fun v t => joinViews v (t.viewAt s.nextId)) []
    let kids := (c.actors h).map (fun t => ((c.val64 t a), (c.val t q).toNat, view (if h.u then c.parts h else [t])))
    match kids.find? (fun k => k.1.toNat % 64 != 0) with
    | some k => s.trapGroup c .misalign (some k.1)
    | none =>
      if kids.any (fun k => decide (k.2.1 > 255) || (s.queue k.2.1).asid != c.launch.asid ||
          !(s.queue k.2.1).takes (kids.filter (fun x => x.2.1 == k.2.1)).length) then s.trapGroup c .launchError none
      else if !s.launchReady (c.parts h) then s
      else
        (kids.foldl (fun (s : State) k =>
          s.append k.2.1 [{ record := k.1, priv := c.launch.priv, parent := c.launch.ident, view := k.2.2 }]) s).advance)

/-! ### The kernel header (R30, R250, R370) -/

/-- A little-endian field of a byte list. -/
def field (bs : List Byte) (at_ n : Nat) : Nat := leNat ((bs.drop at_).take n)

/-- Role k of a header. -/
def headerRole (b : List Byte) (k : Nat) : Role :=
  { entry := BitVec.ofNat 57 (field b (32 + 16 * k) 8), regs := field b (40 + 16 * k) 1, gsize := field b (41 + 16 * k) 1,
    groups := field b (42 + 16 * k) 2 }

/-- The kernel that a 128-byte header declares. -/
def headerKernel (b : List Byte) : Kernel :=
  { roles := (List.range (field b 0 1)).map (headerRole b), join := field b 1 1, lsm := field b 4 4, acc := field b 8 2,
    tiles := field b 12 4, stack := field b 16 4 }

/-- Threads of a team (R30). -/
def Kernel.threads (k : Kernel) : Nat := (k.roles.map (fun r => r.gsize * r.groups)).sum

/-- A role within the limits of R30. -/
def Role.ok (r : Role) : Bool :=
  r.entry.toNat % 8 == 0 && r.regs % 8 == 0 && decide (8 ≤ r.regs ∧ r.regs ≤ 248) &&
    [8, 16, 32, 64].contains r.gsize && decide (1 ≤ r.groups) && decide (r.gsize * r.groups ≤ 1024)

/-- The header keeps R30, R250 and R370. -/
def headerOk (b : List Byte) : Bool :=
  let k := headerKernel b
  let n := field b 0 1
  decide (1 ≤ n ∧ n ≤ 4) && decide (k.join ≤ 32) && field b 2 2 == 0 && k.lsm % 128 == 0 && decide (k.lsm ≤ Config.lsmBytes) &&
  decide (k.acc ≤ Config.accBlocks) && field b 10 2 == 0 && k.tiles % 2048 == 0 && decide (k.tiles ≤ Config.tileBytes) &&
  k.stack % 16 == 0 && decide (k.stack ≤ 65536) && field b 20 12 == 0 && field b 96 32 == 0 &&
  (List.range 4).all (fun i => if i < n then decide (field b (32 + 16 * i) 8 < 2 ^ 57) && field b (44 + 16 * i) 4 == 0
    else field b (32 + 16 * i) 16 == 0) &&
  k.roles.all Role.ok && decide (8 ≤ k.threads ∧ k.threads ≤ 1024) && k.fitsEmpty

/-! ### The launch record (R254, R256, R269, R270) -/

/-- A range lies within the DSM of one die. -/
def inOneDie (base len : Nat) : Bool :=
  (List.range 4).any (fun d => decide (Config.dsmBase d ≤ base ∧ base + len ≤ Config.dsmBase d + Config.dsmBytes))

/-- Windows of a record that are in use. -/
def recordWindows (b : List Byte) : List Window :=
  ((List.range 4).map (fun i => ({ base := field b (40 + 8 * i) 4, len := field b (44 + 8 * i) 4 } : Window))).filter (fun w => w.len != 0)

/-- Ranges of a record that are walked: kinds 1 and 2, in use. -/
def recordRanges (b : List Byte) : List MemRange :=
  (List.range 8).filterMap (fun i =>
    let k := field b (84 + 16 * i) 4
    let n := field b (80 + 16 * i) 4
    if k = 0 || n = 0 then none else some { va := field b (72 + 16 * i) 8, len := n, migrate := k == 2 })

/-- Check 3 of R270: zero fields, NTEAM, and the other fields of R269 with a range (DEDUCED, log entry 12). -/
def recordFields (b : List Byte) : Bool :=
  decide (1 ≤ field b 16 4 ∧ field b 16 4 ≤ 2 ^ 24) && decide (field b 20 4 < 4) && field b 28 4 == 0 && field b 208 48 == 0 &&
  decide (field b 36 4 ≤ 65535) && (List.range 8).all (fun i => decide (field b (84 + 16 * i) 4 ≤ 2))

/-- A window keeps R254, and in minimal mode R391. -/
def State.windowOk (s : State) (asid : Nat) (w : Window) : Bool :=
  w.base % 65536 == 0 && w.len % 65536 == 0 && inOneDie w.base w.len &&
  (!s.power.minimal || decide (w.base < Config.dsmBase 1)) &&
  s.launches.all (fun l => l.phase == .done || l.asid == asid ||
    l.windows.all (fun x => !decide (x.base < w.base + w.len ∧ w.base < x.base + x.len)))

/-- The stack reservation keeps R256, and in minimal mode R391. With STKSLOTS 0 and a stack size of 0 there is none, and
STKBASE may hold anything (DESIGN CHOICE, log entry 21). -/
def State.stackOk (s : State) (base z size : Nat) : Bool :=
  !(size != 0 && z == 0) &&
  (z == 0 || (base % 65536 == 0 && inOneDie base (z * 1024 * size) && (!s.power.minimal || decide (base < Config.dsmBase 1))))

/-- What a launch is made of: the record, the header, and the checks of R270 up to code 5. -/
def State.readRecord (s : State) (asid : Nat) (record : Nat) : Except Nat (List Byte × Kernel) :=
  if record % 64 != 0 then .error 1
  else
    match s.readVirt asid record 256 with
    | none => .error 2
    | some b =>
      match s.readVirt asid (field b 0 8) 128 with
      | none => .error 2
      | some hb =>
        if !recordFields b then .error 3
        else if field b 0 8 % 64 != 0 || !headerOk hb then .error 4
        else
          let k := headerKernel hb
          if !(recordWindows b).all (fun w => s.windowOk asid w) || !s.stackOk (field b 32 4) (field b 36 4) k.stack then .error 5
          else .ok (b, k)

/-! ### Range pages (R272) -/

/-- The bytes of the page that a walk ends in, at least the smallest page. -/
def State.pageSize (s : State) (asid va : Nat) : Nat :=
  match (walkWith s.main s.power.minimal (s.asidOf asid) [] va).2.getLast? with
  | some e => 2 ^ levelShift e.level
  | none => 65536

/-- A page of a range: it is as the range asks, it needs a record of a kind, or it meets PROTECTION. -/
inductive RangePage where
  | good
  | record (kind : Nat)
  | prot
  deriving DecidableEq

def State.rangePage (s : State) (asid va : Nat) (migrate : Bool) : RangePage :=
  if va ≥ 2 ^ 57 then .prot
  else
    match s.walk asid va with
    | .missing => .record (if migrate then 5 else 4)
    | .protection => .prot
    | .page sys _ _ _ => if sys && migrate then .record 5 else .good

/-- Addresses at which the pages of a range begin within it; `n` bounds the count of smallest pages. -/
def State.rangeStarts (s : State) (asid lo hi : Nat) : Nat → List Nat
  | 0 => []
  | n + 1 =>
    if lo ≥ hi then []
    else
      let step := match s.walk asid lo with
        | .page .. => s.pageSize asid lo
        | _ => 65536
      lo :: s.rangeStarts asid ((lo / step + 1) * step) hi n

/-- The pages of a launch's ranges with what their walk finds. -/
def State.rangePages (s : State) (asid : Nat) (rs : List MemRange) : List (Nat × Nat × RangePage) :=
  (rs.mapIdx (fun i r => (s.rangeStarts asid r.va (r.va + r.len) (r.len / 65536 + 2)).map (fun a =>
    (i, a, s.rangePage asid a r.migrate)))).flatten

/-! ### Distribution and refusal (R270, R272, R296) -/

/-- A launch refused (R270): its queue records it, with an event; a table grid stops the table (R297). -/
def State.refuse (s : State) (queue : Nat) (cadence : Option (Nat × Nat)) (record : DWord) (code : Nat) : State :=
  match cadence with
  | some (entry, _) => s.stopTable entry 0x1A code
  | none =>
    (s.modQueue queue (fun q => { q with
      errrec := record, errcode := code, errcnt := Nat.min (q.errcnt + 1) 0xFFFFFF })).postEvent 7 (leBytes 8 queue ++ leBytes 8 code)

/-- A launch distributed from its record: refused, or waiting on its ranges (R269, R270, R272). `view` is ordered before
every access of the grid (R321). A bad word that its walks read stops it (R247). -/
def State.distribute (s : State) (ident : Word) (queue asid : Nat) (record : DWord) (parentPriv : Bool) (parent : Word)
    (cadence : Option (Nat × Nat)) (view : View) : State :=
  match s.readRecord asid record.toNat with
  | .error e => s.refuse queue cadence record e
  | .ok (b, k) =>
    let rs := recordRanges b
    let pages := s.rangePages asid rs
    if pages.any (fun p => p.2.2 == .prot) then s.refuse queue cadence record 6
    else
      let l : Launch := {
        key := s.nextId, ident := ident, queue := queue, record := record, parent := parent, asid := asid,
        priv := (BitVec.ofNat 32 (field b 20 4)).getLsbD 0 && parentPriv, kernel := k, args := BitVec.ofNat 64 (field b 8 8),
        nteam := field b 16 4, ftz := (BitVec.ofNat 32 (field b 20 4)).getLsbD 1, stkBase := field b 32 4,
        stkSlots := field b 36 4, windows := recordWindows b, ranges := rs, doneVa := BitVec.ofNat 64 (field b 200 8),
        cvcsat := 0, cvcftz := 0, cvcnan := 0, cvclim := BitVec.ofNat 32 (field b 24 4), phase := .ranges, pending := [],
        retired := 0, cadence := cadence, stopped := false, order := s.nextId,
        view := view, ended := [] }
      let s : State := { s.bumpId with launches := s.launches ++ [l] }
      let bad := s.walkBad none asid (record.toNat :: field b 0 8 :: pages.map (fun p => p.2.1))
      let s := pages.foldl (fun (s : State) p =>
        match p.2.2 with
        | .record kind => (s.bumpId).enterFault {
            id := s.faultId, refault := false, retry := 0, kind := kind, asid := asid, va := p.2.1,
            launch := ident.toNat, core := 0xFF, team := 0, lanes := 0#64, tids := [], op := none, walks := [], range := some p.1 }
        | _ => s) s
      match bad with
      | some w => s.badLaunch l.key w
      | none => s

/-- A launch whose range has failed is refused with code 6 (R272). -/
def State.failRange (s : State) (key : Nat) : State :=
  match s.launch? key with
  | none => s
  | some l =>
    let id := l.ident.toNat
    let s : State := { s with
      launches := s.launches.filter (fun x => x.key != key),
      faults := s.faults.filter (fun f => !(f.launch == id && decide (f.kind ≥ 4))),
      faultsWaiting := s.faultsWaiting.filter (fun f => !(f.launch == id && decide (f.kind ≥ 4))) }
    if s.isRunningGrid key then
      { s with cadence := { s.cadence with running := none } }.refuse l.queue l.cadence l.record 6
    else if l.cadence.isSome then s
    else s.refuse l.queue none l.record 6

/-- Launches distributed and not yet fully placed (R270). -/
def State.preparing (s : State) : Nat :=
  (s.launches.filter (fun l => l.phase == .ranges || (l.phase == .running && !l.pending.isEmpty))).length

/-- The queue that the dispatcher chooses (R270): highest PRIO, round-robin from the one it took last. -/
def State.chooseQueue (s : State) : Option Queue :=
  let from_ := match s.lastQueue with
    | some q => q + 1
    | none => 0
  (sortBy (fun (q : Queue) => (7 - q.prio) * 256 + (q.id + 256 - from_ % 256) % 256) (s.queues.filter (fun q => !q.entries.isEmpty))).head?

/-- The identifier is free: no launch that has not completed has it (R240). -/
def State.identFree (s : State) (ident : Word) : Bool := s.launches.all (fun l => l.ident != ident)

/-- DISPATCHER_CHOICE (R270): the head entry of the chosen queue is taken and its record read. The identifier that the
launch is given is the event's (log entry 1). -/
def execDispatcherChoice (ident : Word) (s : State) : Out :=
  match s.chooseQueue with
  | none => .next s
  | some q =>
    match q.entries with
    | [] => .next s
    | e :: r =>
      if s.preparing ≥ Config.launchesPreparing || !s.identFree ident || s.power.tripped then .next s
      else
        let s := (s.modQueue q.id (fun x => { x with entries := r }))
        .next ({ s with lastQueue := some q.id }.distribute ident q.id q.asid e.record e.priv e.parent none e.view)

/-- LAUNCH_RANGES_RESOLVED (R270, R272): no record of the launch's ranges is left, and its teams become pending; one that a
bad word has stopped completes (R247). -/
def execLaunchRangesResolved (launch : Nat) (s : State) : Out :=
  match s.launch? launch with
  | none => .next s
  | some l =>
    let open_ := (s.faults ++ s.faultsWaiting).any (fun f => f.launch == l.ident.toNat && decide (f.kind ≥ 4))
    if l.phase != .ranges || open_ then .next s
    else if l.stopped then .next ((s.modLaunch launch (fun l => { l with phase := .running })).completeLaunch l 0)
    else .next (s.modLaunch launch (fun l => { l with phase := .running, pending := List.range l.nteam }))

end Sys2Proof.Machine
end

