-- ==== Sys2Proof/Machine/Restripe.lean ====
section
/-! DEFINITION. Region conversion (R201 to R205, R261, R262, R287): RSTRIPE, its acceptance by the restripe unit, and
the movement of lines. -/

namespace Sys2Proof.Machine

/-- The pages of a range, at the starts of its 64 KiB pieces (R282). -/
def rangePieces (va lines : Nat) : List Piece :=
  (List.range ((va + 2048 * lines - 1) / 65536 + 1 - va / 65536)).map (fun i =>
    { va := if i = 0 then va else (va / 65536 + i) * 65536, sys := false, wr := false })

/-- A walk of the range maps one physically contiguous range (R202). -/
def contiguous (ps : List Piece) (pas : List Nat) : Bool :=
  (ps.zip pas).all (fun p => p.2 + (ps.headD ⟨0, false, false⟩).va == pas.headD 0 + p.1.va)

/-- Lines of gathered regions in the placement map, those on their way into it among them; a conversion back frees its
entries line by line (R261). -/
def State.gatheredLines (s : State) : Nat :=
  ((s.regions.filter (fun r => r.state == 1 || (r.state == 2 && (r.tgt || r.oldGathered)))).map (fun r =>
    if r.state == 2 && !r.tgt then r.len - r.wm else r.len)).sum

/-- What the region table does with a request (R202). -/
inductive RsMatch where
  | refuse
  /-- The barrier receives its arrival at once; the entry that RGNWM then names, if there is one. -/
  | atOnce (entry : Option Nat)
  | convert (entry : Option Nat)

/-- The two ranges share a byte. -/
def Region.meets (r : Region) (pa len : Nat) : Bool :=
  decide (r.pbase < pa + 2048 * len ∧ pa < r.pbase + 2048 * r.len)

/-- The region table's answer (R202, R287). -/
def State.rsMatch (s : State) (asid : Nat) (p : RsPart) : RsMatch :=
  match s.regions.find? (fun r => r.meets p.pa p.len) with
  | some r =>
    if r.pbase == p.pa && r.len == p.len && r.asid == asid then
      if r.state == 2 then .refuse
      else if r.state == (if p.gathered then 1 else 0) && (!p.gathered || r.gc == p.gc) then .atOnce (some r.id)
      else if p.gathered && r.state == 0 && decide (s.gatheredLines + p.len > Config.gatheredLines) then .refuse
      else .convert (some r.id)
    else .refuse
  | none =>
    if p.gathered then
      if s.regions.length ≥ Config.regions || s.gatheredLines + p.len > Config.gatheredLines then .refuse
      else .convert none
    else .atOnce none

/-- Checks 4 to 6 of R202: the cause, if one fails. -/
def State.rsCheck (s : State) (team asid : Nat) (p : RsPart) : Option Cause :=
  if p.gathered && p.len % gOf p.gc != 0 then some .nmUnaligned
  else if (match p.nb with
    | some n => decide (n > 1535)
    | none => false) then some .nmUnaligned
  else
    match s.rsMatch asid p with
    | .refuse => some .regionState
    | _ => if s.barValid team (some p.bar) then none else some .barrierState

/-- The lowest free entry of the region table: the spec does not say which one a conversion takes (DESIGN CHOICE, log
entry 21). -/
def State.freeRegion (s : State) : Nat :=
  ((List.range Config.regions).find? (fun i => s.regions.all (fun r => r.id != i))).getD 0

/-- Commands that have passed the checks of R193 on a region (R203). -/
def State.cmdsOn (s : State) (pa len : Nat) : List Nat :=
  ((s.waitingCmds ++ s.bankUnits.flatMap (·.queue)).filter (fun b =>
    b.ranges.any (fun r => decide (r.1 < pa + 2048 * len ∧ pa < r.1 + r.2)))).map (·.id)

/-- A bank-unit command is outstanding. -/
def State.cmdLive (s : State) (id : Nat) : Bool :=
  s.waitingCmds.any (fun b => b.id == id) || s.bankUnits.any (fun u => u.queue.any (fun b => b.id == id))

/-- The next line of the oldest conversion enters the transit buffer once the commands before it have completed (R203,
R204, R262): a line that moves into a row of its operand group's neighbourhood takes the lowest that no gathered line
has or has left. -/
def State.rsBegin (s : State) : State :=
  match s.transit, s.conversions with
  | none, k :: _ =>
    if k.waits.any (fun i => s.cmdLive i) then s
    else
      match s.regions.find? (fun r => r.id == k.region) with
      | none => s
      | some r =>
        let line := r.pbase / 2048 + r.wm
        let nb := gatheredNb r.first r.gc r.wm
        { s with transit := some { region := r.id, line := line, gathered := r.tgt, nb := nb, row := s.freeRow nb } }
  | _, _ => s

/-- Acceptance in one step (R203): the entry is CONVERTING with watermark 0, and CPEND rises. -/
def State.rsConvert (s : State) (team asid : Nat) (tids : List Nat) (issue : Nat) (p : RsPart) (entry : Option Nat) : State :=
  let first := p.nb.getD (p.pa / 2048 % 1536)
  let id := entry.getD s.freeRegion
  let conv : Conversion := { region := id, team := team, tids := tids, issue := issue, bar := p.bar, arrives := true,
                             waits := s.cmdsOn p.pa p.len }
  let s : State := match entry with
    | some i => { s with regions := updWhere (fun r => r.id == i) (fun r => { r with
        state := 2, tgt := p.gathered, wm := 0, oldGathered := r.state == 1, oldGc := r.gc, oldFirst := r.first,
        gc := if p.gathered then p.gc else r.gc, first := if p.gathered then first else r.first }) s.regions }
    | none => { s with regions := s.regions ++ [{
        id := id, state := 2, tgt := p.gathered, gc := p.gc, first := first, asid := asid, wm := 0, len := p.len,
        pbase := p.pa, oldGathered := false, oldGc := 0, oldFirst := 0 }] }
  let s : State := { s with conversions := s.conversions ++ [conv] }
  ((s.barIssue team (some p.bar) 1).modTeam team (fun t => { t with rgn := .entry id })).rsBegin

/-- A request taken by the restripe unit: false when it finds 16 conversions, or CPEND full, and has to wait. -/
def State.rsTake (s : State) (team asid : Nat) (tids : List Nat) (issue : Nat) (p : RsPart) : State × Bool :=
  match s.rsMatch asid p with
  | .refuse => (s, true)
  | .atOnce e =>
    if !s.barRoom team (some p.bar) 1 then (s, false)
    else
      let s := s.modTeam team (fun t => { t with rgn := match e with
        | some i => .entry i
        | none => .fixed false p.len })
      (s.arriveBar team p.bar 1, true)
  | .convert e =>
    if s.conversions.length ≥ Config.conversions || !s.barRoom team (some p.bar) 1 then (s, false)
    else (s.rsConvert team asid tids issue p e, true)

/-- The addresses that a request's walks take, once its own checks are passed (R202). -/
def RsPart.vas (p : RsPart) : List Nat :=
  if p.va % 2048 != 0 || p.len = 0 || p.len > 2 ^ 24 then [] else (rangePieces p.va p.len).map (·.va)

/-- The fate of one participant at issue. -/
inductive RsRes where
  | taken
  | waits (p : RsPart)
  | held (p : RsPart) (va : Nat)
  | bad (e : Cause) (addr : Nat)

/-- One participant of RSTRIPE (R202). -/
def State.rsOne (s : State) (c : Ctx) (issue : Nat) (tids : List Nat) (p : RsPart) : RsRes × State :=
  if p.va % 2048 != 0 then (.bad .misalign p.va, s)
  else if p.len = 0 || p.len > 2 ^ 24 then (.bad .nmUnaligned p.va, s)
  else
    let ps := rangePieces p.va p.len
    let (rs, s) := s.bankWalk c.core c.launch.asid ps
    match rs.findSome? (fun r => r.2.err? r.1.va) with
    | some e => (.bad e.1 e.2, s)
    | none =>
      match rs.find? (fun r => r.2.loc.isNone) with
      | some r => (.held { p with held := true } r.1.va, s)
      | none =>
        let pas := rs.filterMap (fun r => r.2.loc.map (·.addr))
        if !contiguous ps pas then (.bad .regionState p.va, s)
        else
          let p := { p with pa := pas.headD 0 }
          match s.rsCheck c.grp.team c.launch.asid p with
          | some e => (.bad e p.va, s)
          | none =>
            match s.rsTake c.grp.team c.launch.asid tids issue p with
            | (s, true) => (.taken, s)
            | (s, false) => (.waits p, s)

/-- The participants of an RSTRIPE that are asked in one go, in order: their fates, up to the first that has to wait, the
state with the accepted conversions, and whether one waits. -/
def State.rsAll (s : State) (c : Ctx) (h : Head) (issue : Nat) (ps : List (Thread × RsPart)) :
    List (Thread × RsRes) × State × Bool :=
  ps.foldl (fun (acc : List (Thread × RsRes) × State × Bool) p =>
    if acc.2.2 then acc
    else
      match acc.2.1.rsOne c issue (c.takers h p.1) p.2 with
      | (.waits _, s) => (acc.1, s, true)
      | (r, s) => (acc.1 ++ [(p.1, r)], s, false)) ([], s, false)

/-- A participant's request as its operands give it (R201). -/
def rsPartOf (c : Ctx) (gathered : Bool) (g : Fin 4) (base len nb : Operand) (bar : Fin 16) (t : Thread) : RsPart :=
  { tid := t.tid, lane := t.lane, va := (c.val64 t base).toNat, len := (c.val t len).toNat, gathered := gathered,
    gc := g.val, nb := (match nb with
      | .none => none
      | _ => some (c.val t nb).toNat), bar := bar.val, held := false, pa := 0 }

/-- RSTRIPE (R201 to R203): each participant needs a free request slot until its conversion is accepted (R275). A 17th
conversion stalls at issue, while those accepted before it go on. -/
def execRstripe (h : Head) (gathered : Bool) (g : Fin 4) (base len nb : Operand) (bar : Fin 16) (s : State) : Out :=
  run s [(base, 2), (len, 1), (nb, 1)] (fun c =>
    let who := fun i => if h.u then (c.parts h).map (·.tid) else [i]
    let done := match s.core? c.core with
      | some k => (k.port c.port).stripe
      | none => []
    let ps := ((c.actors h).filter (fun t => !done.contains t.tid)).map (fun t => (t, rsPartOf c gathered g base len nb bar t))
    if decide (s.freeSlots c.core < ps.length) || s.orderWait (c.parts h) ||
        c.ths.any (fun t => (c.parts h).any (fun x => x.tid == t.tid) && decide (t.xfcnt ≥ 255)) then s
    else
      let (ls, s1, stall) := s.bumpId.rsAll c h s.nextId ps
      if stall then
        let taken := (ls.filter (fun p => match p.2 with
          | .taken => true
          | _ => false)).map (·.1.tid)
        if taken.isEmpty then s
        else s1.modCore c.core (fun k => k.setPort c.port { k.port c.port with stripe := done ++ taken })
      else
        let bad := ls.flatMap (fun p => match p.2 with
          | .bad e a => (who p.1.tid).map (fun i => (i, e, BitVec.ofNat 64 a))
          | _ => [])
        let misses := ls.filterMap (fun p => match p.2 with
          | .held q va => some (p.1, q, va)
          | _ => none)
        let tids := misses.flatMap (fun p => who p.1.tid)
        let op : XferOp := {
          id := s.nextId, core := c.core, team := c.grp.team, role := c.grp.role, asid := c.launch.asid, pc := c.pc,
          clause := { hdrAddr := c.grp.hdrAddr, hdr := c.grp.hdr }, kind := .rstripe, rel := false, uni := h.u, bar := none,
          arrives := true, tids := tids, counted := tids, cleared := [], moves := [], held := [], parts := [],
          rsParts := misses.map (·.2.1), waits := [], view := [] }
        (s1.laneSplit c bad (fun s =>
          match misses with
          | [] => s
          | p :: _ =>
            let s : State := { s with xfers := s.xfers ++ [op] }
            let s := s.modThreads c.grp.team tids (fun t => { t with xfcnt := t.xfcnt + 1 })
            let s := s.parkHeld c.grp.team tids op.id
            (s.bumpId).enterFault (c.faultRec s.faultId 2 p.2.2
              (maskOf (misses.map (fun (q : Thread × RsPart × Nat) => q.1.lane))) (some op.id)))).settle.stopBad c.grp.team
          (s.walkBad (some c.core) c.launch.asid (ps.flatMap (fun p => p.2.vas))))

/-- A released or waiting request of an instruction is asked again: taken, refused with its cause, or waiting
still (R193, R203); it has its request slot (R275). -/
def State.rsAsk (s : State) (op : Nat) (p : RsPart) : State :=
  match s.xfer? op with
  | none => s
  | some o =>
    let who := if o.uni then o.tids else [p.tid]
    let drop := fun (s : State) =>
      ((s.modThreads o.team (who.filter (fun t => o.counted.contains t)) Thread.xfDown).modXfer op (fun o => { o with
        rsParts := o.rsParts.filter (fun q => q.tid != p.tid), counted := o.counted.filter (fun t => !who.contains t) })).checkXfer op
    let wait := fun (s : State) => s.modXfer op (fun o => { o with
      rsParts := updWhere (fun q => q.tid == p.tid) (fun _ => { p with held := false }) o.rsParts })
    match s.rsCheck o.team o.asid p with
    | some e => (drop s).trapHeld o.team who o e (BitVec.ofNat 64 p.va)
    | none =>
      match s.rsTake o.team o.asid who op p with
      | (s, true) => drop s
      | (s, false) => wait s

/-- Requests that wait for the restripe unit are taken in order of issue while it has room. -/
def State.rsPending (s : State) : State :=
  ((s.xfers.filter (fun o => o.kind == .rstripe)).flatMap (fun o =>
    (o.rsParts.filter (fun p => !p.held)).map (fun p => (o.id, p)))).foldl (fun (s : State) p => s.rsAsk p.1 p.2) s

/-- The participants of RSTRIPE that a replay found translating are released (R202, R338). -/
def State.rsRelease (s : State) (o : XferOp) (ws : List HeldWalk) : State :=
  (o.rsParts.filter (·.held)).foldl (fun (s : State) p =>
    match ws.find? (fun w => w.tid == p.tid) with
    | none => s
    | some w =>
      if contiguous (rangePieces p.va p.len) w.pas then s.rsAsk o.id { p with pa := w.pas.headD 0 }
      else
        let who := if o.uni then o.tids else [p.tid]
        (s.abandonHeld o.id [p.tid]).trapHeld o.team who o .regionState (BitVec.ofNat 64 p.va)) s

/-- The last line has moved: the entry takes its target state and the barrier its arrival (R204). An entry that is removed
reads as 0 in all its fields, of which R287 names VALID (DESIGN CHOICE, log entry 21). -/
def State.rsFinish (s : State) (k : Conversion) (r : Region) : State :=
  let s : State := { s with conversions := s.conversions.drop 1 }
  let s : State :=
    if r.tgt then
      { s with regions := updWhere (fun x => x.id == r.id) (fun x => { x with state := 1, wm := r.len }) s.regions }
    else
      { s with regions := s.regions.filter (fun x => x.id != r.id),
               teams := updWhere (fun t => t.rgn == .entry r.id) (fun t => { t with rgn := .fixed false r.len }) s.teams }
  ((s.arriveOp k.team (some k.bar) k.arrives).rsPending.rsBegin).settle

/-- The entry of the placement map for a line that has moved into its row (R261): gathered before, with another G, it leaves
the row that it had (R202). -/
def State.placed (s : State) (m : LineMove) : Placed :=
  { line := m.line, nb := m.nb, row := m.row,
    rowsLeft := match s.placement.find? (fun e => e.line == m.line) with
      | some e => (e.nb, e.row) :: e.rowsLeft
      | none => [] }

/-- RESTRIPE_LINE_MOVE (R203, R204, R261): the oldest conversion's line in transit reaches its new place, once the commands
before the conversion have completed: its exchange enters the placement map or leaves it, and the watermark advances.
Values do not move: every byte keeps its physical address. -/
def execRestripeLineMove (s : State) : Out :=
  match s.conversions with
  | [] => .next s
  | k :: _ =>
    if k.waits.any (fun i => s.cmdLive i) then .next s
    else
      let s := s.rsBegin
      match s.regions.find? (fun r => r.id == k.region), s.transit with
      | some r, some m =>
        let s : State := { s with
          regions := updWhere (fun x => x.id == r.id) (fun x => { x with wm := x.wm + 1 }) s.regions,
          placement := (if m.gathered then [s.placed m] else []) ++
            s.placement.filter (fun e => e.line != m.line),
          transit := none }
        if r.wm + 1 ≥ r.len then .next (s.rsFinish k r) else .next s.rsBegin
      | _, _ => .next s

end Sys2Proof.Machine
end

