-- ==== Sys2Proof/Machine/FaultOps.lean ====
section
/-! DEFINITION. Page faults, translations, pre-emption requests and multicast membership (R161 to R163, R165, R289,
R290, R302 to R304, R337 to R345): REPLAY, CANCEL, TLBINV, PREEMPT, MCGSET and their events. -/

namespace Sys2Proof.Machine

/-! ### Records and the lanes they name (R277, R338, R341) -/

/-- The team that a record belongs to. -/
def State.recTeam (s : State) (f : FaultRec) : Option Team :=
  s.teams.find? (fun t => t.index == f.team && (match s.launch? t.launch with
    | some l => l.ident.toNat == f.launch
    | none => false))

/-- The threads that a FETCH record parks (R341). -/
def State.fetchThreads (s : State) (f : FaultRec) : List Thread :=
  match s.recTeam f with
  | none => []
  | some t => s.threads.filter (fun x => x.team == t.key && x.status == .parked (.fetch f.va) && f.tids.contains x.tid)

/-- The lanes of an operation that wait for a translation, with their threads. -/
def XferOp.heldLanes (o : XferOp) : List (Nat × Nat) :=
  (o.held.filter (fun h => !h.watch)).map (fun h => (h.lane, h.tid)) ++
  (o.rsParts.filter (·.held)).map (fun p => (p.lane, p.tid))

/-- The pages that the held lanes of an operation need, lane by lane. -/
def XferOp.heldPieces (o : XferOp) : List (Nat × List Piece) :=
  (o.held.filter (fun h => !h.watch)).map (fun h =>
    (h.tid, match h.cmd, o.kind.copyForm with
      | some b, _ => (match b.kind with
        | .axpy _ => b.pieces (h.dstVa.getD 0) (h.srcVa.getD 0)
        | _ => b.pieces (h.dstVa.getD 0) 0)
      | none, some (_, ks) => copyPieces ks (h.srcVa.getD 0) (h.dstVa.getD 0)
      | none, none => [])) ++
  (o.rsParts.filter (·.held)).map (fun p => (p.tid, rangePieces p.va p.len))

/-- What a walk of an instruction word finds (R341). -/
def State.walkFetch (s : State) (asid va : Nat) : HeldWalk :=
  match s.walk asid va with
  | .missing => { tid := 0, pas := [], used := [], miss := true, prot := false, va := va }
  | .page false _ true pa => { tid := 0, pas := [pa], used := [], miss := false, prot := false, va := va }
  | _ => { tid := 0, pas := [], used := [], miss := false, prot := true, va := va }

/-- What a walk of a range page finds (R272). -/
def State.walkRange (s : State) (f : FaultRec) : HeldWalk :=
  let migrate := match s.launches.find? (fun l => l.ident.toNat == f.launch), f.range with
    | some l, some i => (l.ranges[i]?.map (·.migrate)).getD false
    | _, _ => false
  match s.rangePage f.asid f.va migrate with
  | .good => { tid := 0, pas := [], used := [], miss := false, prot := false, va := f.va }
  | .record _ => { tid := 0, pas := [], used := [], miss := true, prot := false, va := f.va }
  | .prot => { tid := 0, pas := [], used := [], miss := false, prot := true, va := f.va }

/-- One walk of every page that a record names, as the tables stand now (R322, R339). -/
def State.walkRec (s : State) (f : FaultRec) : List HeldWalk :=
  if f.kind = 3 then [s.walkFetch f.asid f.va]
  else if f.kind ≥ 4 then [s.walkRange f]
  else
    match f.op.bind (fun i => s.xfer? i) with
    | some o => o.heldPieces.map (fun p => s.walkHeld o.asid p.1 p.2)
    | none => []

/-! ### Fatal records (R339, R340) -/

/-- Lanes of an operation that become PAGE_FATAL: abandoned, and their threads trap as one set (R340). -/
def State.fatalLanes (s : State) (op : Nat) (tids : List Nat) (va : Nat) : State :=
  match s.xfer? op with
  | none => s
  | some o =>
    if tids.isEmpty then s
    else
      let who := if o.uni then o.tids else tids
      (s.abandonHeld op tids).trapHeld o.team who o .pageFatal (BitVec.ofNat 64 va)

/-- A record leaves the fault queue (R277). -/
def State.dropFault (s : State) (id : Nat) : State := { s with faults := s.faults.filter (fun f => f.id != id) }

/-- Threads parked for a word that cannot be fetched trap with TPC at that word (R336, R341); those for which the watchdog
expired meanwhile enter its handler where they stood (R345). -/
def State.fatalFetch (s : State) (f : FaultRec) : State :=
  match s.recTeam f with
  | none => s
  | some t =>
    match s.fetchThreads f with
    | [] => s
    | ts =>
      let due := ts.filter (·.wdogDue)
      (s.lateWdog t.key (due.map (·.tid))).takeTrap t.key ((ts.filter (fun x => !x.wdogDue)).map (·.tid)) .pageFatal .failedHeader
        (BitVec.ofNat 57 f.va) (BitVec.ofNat 64 f.va)

/-- The whole record becomes PAGE_FATAL: of a range, its launch is refused (R272, R339). -/
def State.fatalRec (s : State) (f : FaultRec) : State :=
  let s := s.dropFault f.id
  (if f.kind = 3 then s.fatalFetch f
  else if f.kind ≥ 4 then
    match s.launches.find? (fun l => l.ident.toNat == f.launch) with
    | some l => s.failRange l.key
    | none => s
  else
    match f.op with
    | some i => s.fatalLanes i (((s.xfer? i).map (fun o => o.heldLanes.map (·.2))).getD []) f.va
    | none => s).settle

/-! ### Replays (R161, R339) -/

/-- The addresses that the walks of a record take. -/
def State.recVas (s : State) (f : FaultRec) : List Nat :=
  if f.kind ≥ 3 then [f.va]
  else
    match f.op.bind (fun i => s.xfer? i) with
    | some o => o.heldPieces.flatMap (fun p => p.2.map (·.va))
    | none => []

/-- The launches whose walks by a replay of some records read a bad word, with the word (R247). -/
def State.replayBad (s : State) (fs : List FaultRec) : List (Nat × Loc) :=
  if s.badWords.isEmpty then []
  else fs.filterMap (fun f =>
    match s.launches.find? (fun l => l.ident.toNat == f.launch && l.phase != .done), s.walkBad none f.asid (s.recVas f) with
    | some l, some w => some (l.key, w)
    | _, _ => none)

/-- Records of an ASID, or all of them, are walked as the tables stand (R161); a bad word that a walk reads stops the launch
(R247). -/
def State.replayAll (s : State) (a : Option Nat) : State :=
  let named := fun (f : FaultRec) => a.isNone || a == some f.asid
  let s' : State := { s with faults := s.faults.map (fun f => if named f then { f with walks := f.walks ++ [s.walkRec f] } else f) }
  (s.replayBad (s.faults.filter named)).foldl (fun (s : State) p => (s.badLaunch p.1 p.2).settle) s'

/-- Record `id` becomes PAGE_FATAL (R161). -/
def State.cancelId (s : State) (id : Nat) : State :=
  match s.faults.find? (fun f => f.id == id) with
  | some f => s.fatalRec f
  | none => s

/-- Every record of an ASID becomes PAGE_FATAL (R161). -/
def State.cancelAsid (s : State) (a : Nat) : State :=
  ((s.faults.filter (fun f => f.asid == a)).map (·.id)).foldl (fun (s : State) i => s.cancelId i) s

/-- The head record is popped by the host, which acts as CANCEL (R277, R379). -/
def State.popFault (s : State) : State :=
  match s.faults with
  | [] => s
  | f :: _ => s.fatalRec f

/-- FAULT_RETRY_MAX in force: a MAX of 0 acts as 1 (R242). -/
def State.retryMax (s : State) : Nat := if s.faultRetryMax.toNat % 256 = 0 then 1 else s.faultRetryMax.toNat % 256

/-- A sampled instruction counts the replays of its lanes (R310). -/
def State.countReplay (s : State) (op : Nat) : State :=
  { s with cores := s.cores.map (fun c => if c.samples.any (fun x => x.ids.any (fun p => p.1 == op)) then
      { c with samples := updWhere (fun x => x.ids.any (fun p => p.1 == op)) (fun x => { x with replays := Nat.min 255 (x.replays + 1) }) c.samples }
    else c) }

/-- The lanes of an operation that translate proceed; the threads of those that a watch slot holds trap (R343), and the
others leave their park (R339). -/
def State.releaseLanes (s : State) (op : Nat) (ok : List HeldWalk) : State :=
  match s.xfer? op with
  | none => s
  | some o =>
    if ok.isEmpty then s
    else
      let (s, hits) := match o.kind with
        | .bank => s.bankRelease o ok
        | .rstripe => (s.rsRelease o ok, [])
        | _ => s.copyRelease o ok
      let who := if o.uni then o.tids else ok.map (·.tid)
      let hitTids := if o.uni && !hits.isEmpty then o.tids else hits.map (·.1)
      let s := match hits with
        | [] => s
        | p :: _ => (s.modThreads o.team hitTids (fun t => { t with watchOp := some op })).trapHeld o.team hitTids o .watchpoint (BitVec.ofNat 64 p.2)
      let free := (s.threads.filter (fun t => t.team == o.team && who.contains t.tid && t.status == .parked (.held op))).map (·.tid)
      (s.releaseHeld o.team free).afterLanding op

/-- A record that a walk has left with lanes still to translate: REFAULT and one more retry, or fatal (R304). -/
def State.refault (s : State) (f : FaultRec) : State :=
  let f' : FaultRec := { f with refault := true, retry := Nat.min 255 (f.retry + 1) }
  if f.retry + 1 ≥ s.retryMax then { s with faults := updWhere (fun x => x.id == f.id) (fun _ => f') s.faults }.fatalRec f'
  else { s with faults := updWhere (fun x => x.id == f.id) (fun _ => f') s.faults }

/-- A walk of an operation's record ends (R339). -/
def State.walkEnds (s : State) (f : FaultRec) (op : Nat) (o : XferOp) (ws : List HeldWalk) : State :=
  let lanes := sortBy (fun (p : Nat × Nat) => p.1) o.heldLanes
  let now := lanes.filterMap (fun p => (ws.find? (fun w => w.tid == p.2)).map (fun w => (p.1, w)))
  let ok := (now.filter (fun p => !p.2.miss && !p.2.prot)).map (·.2)
  let fatal := (now.filter (fun p => p.2.prot)).map (fun p => p.2.tid)
  let miss := now.filter (fun p => p.2.miss)
  let s := s.countReplay op
  match miss with
  | [] => ((s.dropFault f.id).releaseLanes op ok).fatalLanes op fatal f.va
  | p :: _ =>
    let s := (s.releaseLanes op ok).fatalLanes op fatal f.va
    if s.faults.any (fun x => x.id == f.id) then s.refault { f with lanes := maskOf (miss.map (·.1)), va := p.2.va } else s

/-- Threads parked at an instruction word run on from it (R341). -/
def State.releaseFetch (s : State) (f : FaultRec) : State :=
  match s.recTeam f with
  | none => s
  | some t => s.releaseHeld t.key ((s.fetchThreads f).map (·.tid))

/-- Request slots that the lanes which a walk found translating need again (R275). -/
def XferOp.slotsNeeded (o : XferOp) (ws : List HeldWalk) : Nat :=
  let ok := ws.filter (fun w => !w.miss && !w.prot)
  match o.kind with
  | .bank => (o.held.filter (fun h => !h.watch && ok.any (fun w => w.tid == h.tid))).length
  | .rstripe => (o.rsParts.filter (fun p => p.held && ok.any (fun w => w.tid == p.tid))).length
  | _ => o.laneSlots ok

/-- REPLAY_WALK (R339): the oldest walk of a record ends; it waits where too few request slots are free (R275). -/
def execReplayWalk (id : Nat) (s0 : State) : Out :=
  let s := s0
  match s.faults.find? (fun f => f.id == id) with
  | none => .next s
  | some f =>
    match f.walks with
    | [] => .next s
    | ws :: rest =>
      let f : FaultRec := { f with walks := rest }
      let s : State := { s with faults := updWhere (fun x => x.id == id) (fun _ => f) s.faults }
      match f.op.bind (fun i => (s.xfer? i).map (fun o => (i, o))) with
      | some (i, o) => .next (if s.freeSlots o.core < o.slotsNeeded ws then s0 else (s.walkEnds f i o ws).settle)
      | none =>
        match ws with
        | [] => .next (s.dropFault id)
        | w :: _ =>
          if w.prot then .next (s.fatalRec f)
          else if w.miss then .next (s.refault f).settle
          else if f.kind = 3 then .next ((s.dropFault id).releaseFetch f)
          else .next (s.dropFault id)

/-- FAULT_RECORD_ENTERED (R277): the oldest waiting record finds room. -/
def execFaultRecordEntered (s : State) : Out :=
  match s.faultsWaiting with
  | [] => .next s
  | f :: r =>
    if s.faults.length ≥ Config.faultRecords then .next s
    else .next ({ s with faults := s.faults ++ [f], faultsWaiting := r }.postEvent 1 (leBytes 4 f.id ++ leBytes 4 f.kind ++ leBytes 4 8))

/-- REPLAY (R161): once for each actor (R137). Its walks start when it issues, after all that is ordered before them
(R322): it stalls until an older acquire of a participant has been made. -/
def execReplay (h : Head) (a : Operand) (s : State) : Out :=
  runPriv h s [(a, 1)] (fun c =>
    if s.orderWait (c.parts h) then s
    else (c.actors h).foldl (fun (s : State) t => s.replayAll (match a with
      | .none => none
      | _ => some (c.val t a).toNat)) s.advance)

/-- CANCEL (R161): once for each actor. The group leaves the slot first, since the cancelled lanes may be its own
team's. -/
def execCancel (h : Head) (asid : Bool) (a : Operand) (s : State) : Out :=
  runPriv h s [(a, 1)] (fun c =>
    (c.actors h).foldl (fun (s : State) t => if asid then s.cancelAsid (c.val t a).toNat else s.cancelId (c.val t a).toNat) s.advance)

/-! ### Translations (R162, R285) -/

/-- A cached entry that a TLBINV drops. -/
def TlbEntry.dropped (e : TlbEntry) (kind : TlbKind) (a v : Nat) : Bool :=
  match kind with
  | .all => true
  | .asid => e.asid == a
  | .page => e.asid == a && (!e.pte.getLsbD 1 || e.vpath == v / 2 ^ levelShift e.level)

/-- A leaf translation of an ASID is one that a TLBINV names. -/
def keyDropped (kind : TlbKind) (a v : Nat) (asid : Nat) (k : Nat × Nat) : Bool :=
  match kind with
  | .all => true
  | .asid => asid == a
  | .page => asid == a && k.2 == v / 2 ^ levelShift k.1

/-- Every translation cache drops what a TLBINV names (R162, R285). -/
def State.tlbDrop (s : State) (kind : TlbKind) (a v : Nat) : State :=
  { s with cores := s.cores.map (fun c => { c with tlb := c.tlb.filter (fun e => !e.dropped kind a v) }) }

/-- The line operations that use a translation which a TLBINV names, DONE writes among them (R269). -/
def State.tlbLines (s : State) (kind : TlbKind) (a v : Nat) : List (Nat × Nat) :=
  (s.dones.filter (fun d => d.used.any (fun k => keyDropped kind a v d.asid k))).map (fun d => (d.id, 0)) ++
  s.xfers.flatMap (fun o => ((o.moves.filter (fun m => !m.landed && m.used.any (fun k => keyDropped kind a v o.asid k))).map (fun m =>
    (o.id, m.line))).dedup)

/-- The commands that use a translation which a TLBINV names. -/
def State.tlbCmds (s : State) (kind : TlbKind) (a v : Nat) : List Nat :=
  ((s.waitingCmds ++ s.bankUnits.flatMap (·.queue)).filter (fun b => b.used.any (fun k => keyDropped kind a v b.asid k))).map (·.id)

/-- A walk in progress for a held lane has found where it lies. -/
def State.walking (s : State) (op : Nat) (p : HeldWalk → Bool) : Bool :=
  s.faults.any (fun f => f.op == some op && f.walks.any (fun ws => ws.any (fun w => !w.miss && !w.prot && p w)))

/-- The held lanes, as operation and thread, for which a REPLAY's walk has used a translation which a TLBINV names (R162,
R322). -/
def State.tlbLanes (s : State) (kind : TlbKind) (a v : Nat) : List (Nat × Nat) :=
  s.xfers.flatMap (fun o => (o.heldLanes.filter (fun p => s.walking o.id (fun w =>
    w.tid == p.2 && w.used.any (fun k => keyDropped kind a v o.asid k)))).map (fun p => (o.id, p.2)))

/-- A lane that a walk has found has not yet been carried out. -/
def State.laneOpen (s : State) (op tid : Nat) : Bool :=
  s.walking op (fun w => w.tid == tid) ||
  s.xfers.any (fun o => o.id == op && o.moves.any (fun m => m.tid == tid && !m.landed)) ||
  (s.waitingCmds ++ s.bankUnits.flatMap (·.queue)).any (fun b => b.op == op && b.tid == tid)

/-- What a TLBINV waits for has completed. -/
def State.tlbDone (s : State) (lines : List (Nat × Nat)) (cmds : List Nat) (lanes : List (Nat × Nat)) : Bool :=
  lanes.all (fun p => !s.laneOpen p.1 p.2) && lines.all (fun p => s.dones.all (fun d => d.id != p.1)) &&
  lines.all (fun p => s.xfers.all (fun o => o.id != p.1 || o.moves.all (fun m => m.line != p.2 || m.landed))) &&
  cmds.all (fun i => !s.cmdLive i)

/-- TLBINV (R162): it issues at once; with U = 1 the one action is every participant's. Bits 63:57 of the address are not
looked at: `.page` names the page of v modulo 2^57 (DESIGN CHOICE, log entry 21). -/
def execTlbinv (h : Head) (kind : TlbKind) (a v : Operand) (s : State) : Out :=
  runPriv h s [(a, 1), (v, 2)] (fun c =>
    ((c.actors h).foldl (fun (s : State) t =>
      let x := (c.val t a).toNat
      let va := (c.val64 t v).toNat % 2 ^ 57
      let inv : TlbInv := { id := s.nextId, team := c.grp.team, tids := c.takers h t, lines := s.tlbLines kind x va,
                            cmds := s.tlbCmds kind x va, lanes := s.tlbLanes kind x va }
      { (s.tlbDrop kind x va).bumpId with tlbinvs := s.tlbinvs ++ [inv] }) s).advance)

/-- TLBINV_COMPLETION (R162); not after a trip (R387). -/
def execTlbinvCompletion (id : Nat) (s : State) : Out :=
  if s.power.tripped then .next s else
  match s.tlbinvs.find? (fun t => t.id == id) with
  | none => .next s
  | some t => if s.tlbDone t.lines t.cmds t.lanes then .next ({ s with tlbinvs := s.tlbinvs.filter (fun x => x.id != id) }.settle) else .next s

/-! ### Pre-emption requests and multicast membership (R163, R165, R346) -/

/-- Every resident team of the launch is asked to be saved (R163, R346). -/
def State.preemptLaunch (s : State) (ident : Nat) : State :=
  match s.launches.find? (fun l => l.ident.toNat == ident && l.phase == .running) with
  | none => s
  | some l => { s with teams := updWhere (fun t => t.launch == l.key && t.isResident && !t.killed) (fun t => { t with saveReq := true }) s.teams }

/-- PREEMPT (R163). -/
def execPreempt (h : Head) (a : Operand) (s : State) : Out :=
  runPriv h s [(a, 1)] (fun c =>
    ((c.actors h).foldl (fun (s : State) t => s.preemptLaunch (c.val t a).toNat) s).advance)

/-- Half of a group's membership written (R165, R289): refused under an outstanding copy. -/
def State.mcgset (s : State) (g : Nat) (hi : Bool) (m : DWord) : Except Cause State :=
  let cur := (s.mcast.find? (fun x => x.id == g)).getD { id := g, mlo := 0#64, mhi := 0#64, outst := 0 }
  if g ≥ 64 || cur.outst != 0 then .error .multicastState
  else .ok { s with mcast := (if hi then { cur with mhi := m } else { cur with mlo := m }) :: s.mcast.filter (fun x => x.id != g) }

/-- MCGSET (R165). -/
def execMcgset (h : Head) (hi : Bool) (g m : Operand) (s : State) : Out :=
  runPriv h s [(g, 1), (m, 2)] (fun c =>
    match (c.actors h).foldlM (fun (s : State) t => s.mcgset (c.val t g).toNat hi (c.val64 t m)) s with
    | .ok s => s.advance
    | .error e => s.trapGroup c e none)

/-! ### The watchdog (R302, R303, R345) -/

/-- The count at which a team's watchdog expires; none where expiry is disabled (R302). -/
def State.wdogLimit (s : State) (t : Team) : Option Nat :=
  match s.launch? t.launch with
  | none => none
  | some l =>
    let per := (s.asidOf l.asid).wdog.toNat % 32
    if per = 0 then none else some (2 ^ (if per < 16 then 16 else per))

/-- The count of a resident team stands at its limit (R302). -/
def State.wdogFull (s : State) (t : Team) : Bool :=
  t.isResident && !t.killed && (match s.wdogLimit t with
    | some n => decide (t.wdog ≥ n)
    | none => false)

/-- The watchdog of a resident team has expired: its count stood at the limit when a cycle ended, so no reset of that
cycle has won (R302). -/
def State.wdogExpired (_s : State) (t : Team) : Bool := t.isResident && !t.killed && t.wdogHit

/-- A thread that stays in its park when the watchdog expires (R345): held by a page fault or a watchpoint, parked for a
word or on a result. -/
def Thread.staysParked (t : Thread) : Bool :=
  t.watchOp.isSome || (match t.status with
    | .parked (.held _) | .parked (.fetch _) | .parked .result => true
    | _ => false)

/-- A thread leaves its park for the handler (R345): a wait at a barrier is counted off. -/
def State.leavePark (s : State) (t : Thread) : State :=
  match t.status with
  | .parked (.bwait b _) => s.modTeam t.team (fun x => x.modBar b (fun y => { y with wait := y.wait - 1 }))
  | _ => s

/-- A trap that is decided but not entered gives way to the watchdog's, at the same place (R303); that of a lane which a
watchpoint holds does not (R345). -/
def State.turnWdog (s : State) (team : Nat) : State :=
  let (a, s) := s.freeAddr
  (s.mapThreads (fun x => x.team == team && x.entering.isSome && x.watchOp.isNone) (fun x =>
    { x with entering := x.entering.map (fun i => { i with cause := .watchdog, taddr := a }) })).enterAll team

/-- WATCHDOG_EXPIRY (R303): every thread of the team enters the handler, those held or parked on a result when their
park ends; threads of one TPC are one trapping set (DEDUCED, log entry 12). An expiry in a cycle in which a thread was in
that handler kills the team, and so does
one that finds a thread in a handler (R335), unless a watchpoint holds it there (R345). -/
def execWatchdogExpiry (team : Nat) (s : State) : Out :=
  match s.team? team with
  | none => .next s
  | some t =>
    if !s.wdogExpired t then .next s
    else
      let ts := s.threads.filter (fun x => x.team == team && !x.hasExited)
      if t.wdogAgain || ts.any (fun x => x.inHandler && x.watchOp.isNone) then .next (s.killTeam team 0x15)
      else
        let s := s.modTeam team (fun t => { t with wdog := 0, wdogHit := false, wdogHandling := !ts.isEmpty })
        let s := s.mapThreads (fun x => x.team == team && !x.hasExited && x.staysParked) (fun x => { x with wdogDue := true })
        let go := ts.filter (fun x => !x.staysParked && x.entering.isNone)
        let s := go.foldl (fun (s : State) x => s.leavePark x) s
        let s := if ts.any (fun x => x.entering.isSome && x.watchOp.isNone) then s.turnWdog team else s
        .next ((s.wdogSets team go).settle)

end Sys2Proof.Machine
end

