-- ==== Sys2Proof/Machine/TraceOps.lean ====
section
/-! DEFINITION. Plinal trace (R164, R307 to R312): TRACE, the closing and draining of frames, and the drain before a
quadrant is power-gated. -/

namespace Sys2Proof.Machine

/-- TRACE (R164): one user record for each actor, while TRCTL.USER is set; the thread never stalls. -/
def execTrace (h : Head) (a b : Operand) (s : State) : Out :=
  run s [(a, 1), (b, 1)] (fun c =>
    if !s.seen.trctl.getLsbD 1 then s.advance
    else
      ((c.actors h).foldl (fun (s : State) t => s.trace c.core 1
        (s.threadName c.team t.tid ++ leBytes 4 (c.val t a).toNat ++ leBytes 4 (c.valOr t b 0#32).toNat)) s).advance)

/-- TRACE_FRAME_TIMEOUT (R307): a frame whose first record is 65,536 cycles old is closed; not after a trip (R387). -/
def execTraceFrameTimeout (core : Nat) (s : State) : Out :=
  if s.power.tripped then .next s else
  match (s.core? core).bind (fun c => c.trace.frames.getLast?) with
  | none => .next s
  | some f =>
    if f.closed || f.records = 0 || decide (s.clk - f.first < 65536) then .next s
    else .next (s.modCore core (fun c => { c with trace := { c.trace with frames := c.trace.frames.dropLast ++ [f.close false] } }))

/-- The trace ring of a core has no place for a frame (R307, R311, R380). -/
def State.ringFull (s : State) (core : Nat) : Bool :=
  let h := s.hostCtl
  let i := (assocGet h.trcIdx core).getD 0
  h.trcLen = 0 || (i + 4096) % h.trcLen == (assocGet h.trcRd core).getD 0 ||
    decide (h.trcBase + core * h.trcLen + i + 4096 > Config.mainBytes)

/-- TRACE_FRAME_DRAIN (R307, R311): the oldest frame, closed, is performed into the core's ring and the write index
advances; a frame that finds the ring full is dropped with its records. Room has returned: what was lost is told. Not after a trip (R387). -/
def execTraceFrameDrain (core : Nat) (s : State) : Out :=
  if s.power.tripped then .next s else
  match (s.core? core).bind (fun c => c.trace.frames.head?) with
  | none => .next s
  | some f =>
    if !f.closed || s.power.gated.contains (quadOf core) then .next s
    else
      let s := s.modCore core (fun c => { c with trace := { c.trace with frames := c.trace.frames.drop 1 } })
      if s.ringFull core then
        .next ((s.modCore core (fun c => { c with trace := { c.trace with dropped := stop32 (c.trace.dropped + f.records) } })).traceRoom core)
      else
        let i := (assocGet s.hostCtl.trcIdx core).getD 0
        let a := s.hostCtl.trcBase + core * s.hostCtl.trcLen + i
        let s := s.memWrite ⟨.main, a⟩ f.bytes
        let s : State := { s with hostCtl := { s.hostCtl with trcIdx := assocSet s.hostCtl.trcIdx core ((i + 4096) % s.hostCtl.trcLen) } }
        let s := if s.power.gating.contains (quadOf core) then
            s.modCore core (fun c => { c with trace := { c.trace with lastDrain := if f.gated then none else some a } })
          else s
        .next (s.traceRoom core)

/-- A quadrant may be power-gated: GATECTL allows it, no team is resident and nothing of its cores is outstanding
(R386). -/
def State.quadIdle (s : State) (quad : Nat) : Bool :=
  s.hostCtl.gateCtl.getLsbD quad && decide (quad < 16) &&
  s.teams.all (fun t => match t.core? with
    | some c => quadOf c != quad
    | none => true) &&
  s.xfers.all (fun o => quadOf o.core != quad || !(match o.kind with
    | .cpy _ _ | .cpymc _ _ _ | .bank => true
    | _ => false)) &&
  s.tileOps.all (fun o => quadOf o.core != quad) &&
  (s.waitingCmds ++ s.bankUnits.flatMap (·.queue)).all (fun b => quadOf b.core != quad)

/-- The frame that a gating closes last carries FLAGS bit 0 (R308, R312); if the drain does not come that far, the last
frame that it did drain carries it from the gating on (`State.flagDrained`). -/
def TraceBuf.closeGated (b : TraceBuf) : TraceBuf :=
  match b.frames.getLast? with
  | none => { b with lastDrain := none }
  | some f => { b with lastDrain := none, frames := b.frames.dropLast ++ [f.close true] }

/-- GATING_TRACE_DRAIN (R312, R386): the quadrant of the core starts its drain; its cores close their frames and drop
their records from then on. That 100 µs have passed is the event's (log entry 9). Not after a trip (R387). -/
def execGatingTraceDrain (core : Nat) (s : State) : Out :=
  if s.power.tripped then .next s else
  let q := quadOf core
  if !s.quadIdle q || s.power.gating.contains q || s.power.gated.contains q then .next s
  else .next { s with
    power := { s.power with gating := s.power.gating ++ [q] },
    cores := updWhere (fun c => quadOf c.id == q) (fun c => { c with trace := c.trace.closeGated }) s.cores }

/-- The last frame that each core of a quadrant drained before the gating has FLAGS bit 0 set (R312). -/
def State.flagDrained (s : State) (quad : Nat) : State :=
  (s.cores.filter (fun c => quadOf c.id == quad)).foldl (fun (s : State) c =>
    match c.trace.lastDrain with
    | some a => s.memWrite ⟨.main, a + 3⟩ [1#8]
    | none => s) s

end Sys2Proof.Machine
end

