-- ==== Sys2Proof/Machine/Power.lean ====
section
/-! DEFINITION. Power, pace, clock, refresh and heat (R247, R383 to R389): the pace request, the domain's level, gating
and resumption of quadrants, the thermal trip, uncorrectable errors, a failed start, and loss of supply. -/

namespace Sys2Proof.Machine

/-! ### A failed start (R390, R391) -/

/-- A start is in progress: its stages have neither all passed nor failed. -/
def Power.starting (p : Power) : Bool := p.powered && !p.failed && decide (p.stage < 8)

/-- A start fails with a reason: the device holds. A minimal start changes neither BOOTWHY nor BOOTCNT (R391). -/
def Power.failStart (p : Power) (reason : Nat) : Power :=
  if p.minimal then { p with failed := true }
  else { p with failed := true, why := reason, whyStage := p.stage + 1, fails := Nat.min 3 (p.fails + 1) }

/-! ### Pace (R383 to R385) -/

/-- Degrees and parts of a degree above a limit, for a temperature in 1/16 °C (R383). -/
def degreesAbove (temp limit : Nat) : Nat := (temp - 16 * limit + 15) / 16

/-- A source that is raised by 1 or lowered by 1 (R383). -/
def moveTerm (up down : Bool) (x : Nat) : Nat := if up then x + 1 else if down then x - 1 else x

/-- The effective request: the highest of the sources, at most 15 (R383). -/
def Power.request (p : Power) (dieTemp baseTemp : Nat) : Nat :=
  Nat.min 15 (Nat.max p.req (Nat.max p.pTerm (Nat.max (degreesAbove dieTemp 100)
    (Nat.max (2 * degreesAbove baseTemp 105) p.sTerm))))

/-- PACE_EVALUATION (R383, R384): E is formed anew, and with PACEDOM.EN clear it is the level. The readings of power,
temperature and stretching are the event's (log entry 9). -/
def execPaceEvaluation (r : PaceReadings) (s : State) : Out :=
  let p : Power := { s.power with
    pTerm := moveTerm r.powerAbove r.powerBelow s.power.pTerm, sTerm := moveTerm r.stretchedMs r.unstretched s.power.sTerm }
  let p : Power := { p with e := p.request r.dieTemp r.baseTemp }
  .next { s with power := if p.minimal || p.pacedom.getLsbD 31 then p else { p with level := p.e } }

/-- PACE_DOMAIN_UPDATE (R384): the level is the highest E of the domain; `others` is the highest of the other reachable
members. -/
def execPaceDomainUpdate (others : Nat) (s : State) : Out :=
  let p := s.power
  .next (if p.minimal || !p.pacedom.getLsbD 31 then s
    else { s with power := { p with level := Nat.max p.e (Nat.min 15 others) } })

/-- CLOCK_STRETCH (R385): time alone changes, which the model counts. -/
def execClockStretch (cycles : Nat) (s : State) : Out :=
  .next (if 1 ≤ cycles ∧ cycles ≤ 8 then { s with power := { s.power with stretches := s.power.stretches + 1 } } else s)

/-! ### Refresh and heat (R387, R389) -/

/-- The refresh rate that a base-die temperature in 1/16 °C asks for (R389). -/
def refreshAt (temp : Nat) : Nat := if temp ≤ 85 * 16 then 1 else if temp ≤ 95 * 16 then 2 else 4

/-- The rate after a reading: it rises at once and falls 2 °C below the boundary (R389). -/
def refreshNext (cur temp : Nat) : Nat := Nat.max (refreshAt temp) (Nat.min cur (refreshAt (temp + 32)))

/-- REFRESH_RATE_UPDATE (R389). -/
def execRefreshRateUpdate (stack temp : Nat) (s : State) : Out :=
  let p := s.power
  let cool := p.hot.filter (fun x => x != stack)
  let hot := if temp > 95 * 16 then stack :: cool else cool
  .next (if stack ≥ 12 then s
    else { s with power := { p with refresh := updAt stack (fun r => refreshNext r temp) p.refresh, hot := hot, half := !hot.isEmpty } })

/-- THERMAL_TRIP (R387): every core stops (what of a core that is, log entry 15 says); a type-6 and a type-2 event tell of every resident team. The code that the
type-2 event carries is free (log entry 15). -/
def execThermalTrip (base : Bool) (place temp : Nat) (s : State) : Out :=
  if s.power.tripped || decide (temp < (if base then 120 * 16 else 115 * 16)) then .next s
  else
    let s : State := { s with power := { s.power with tripped := true, tripLatch := true } }
    .next ((s.teams.filter Team.isResident).foldl (fun (s : State) t =>
      let ident := match s.launch? t.launch with
        | some l => l.ident.toNat
        | none => 0
      let s := s.postEvent 6 (leBytes 4 (place + (if base then 2 ^ 31 else 0)) ++ leBytes 4 temp)
      let code := (Config.freeCode s.freeCount).toNat
      { s with freeCount := s.freeCount + 1 }.postEvent 2 (leBytes 4 ident ++ leBytes 4 t.index ++ leBytes 4 code)) s)

/-! ### Quadrants (R312, R386) -/

/-- QUADRANT_RESUMED (R386): the quadrant works again; the first frame of its cores begins as R312 states. -/
def execQuadrantResumed (quad : Nat) (s : State) : Out :=
  if !s.power.resuming.contains quad then .next s
  else .next ({ s with power := { s.power with
    resuming := s.power.resuming.filter (fun q => q != quad), gated := s.power.gated.filter (fun q => q != quad) } }.wakeTrace quad)

/-- Frames that have not been drained are dropped whole, and their records counted (R312). -/
def TraceBuf.gate (b : TraceBuf) : TraceBuf :=
  { b with frames := [], gateDropped := stop32 (b.gateDropped + (b.frames.map (·.records)).sum) }

/-- QUADRANT_POWER_GATE (R386): a quadrant that has begun its drain is still idle and is turned off; what its cores hold
is lost, but for the pattern and handler tables and the message queue. The last frame drained before is marked (R312). -/
def execQuadrantPowerGate (quad : Nat) (s : State) : Out :=
  if !s.power.gating.contains quad || !s.quadIdle quad then .next s
  else
    let s := s.flagDrained quad
    .next { s with
    power := { s.power with gating := s.power.gating.filter (fun q => q != quad), gated := s.power.gated ++ [quad] },
    cores := updWhere (fun c => quadOf c.id == quad) (fun c => { c with tlb := [], arrayFree := 0, trace := c.trace.gate }) s.cores }

/-! ### Errors (R247, R352, R390) -/

/-- UNCORRECTABLE_ERROR (R247, R352, R390): in storage that a team owns it kills the team, in DSM or main memory it makes
the word bad for those that read it, in round state it stops the Huddle, and during a start the start fails. -/
def execUncorrectableError (place : ErrorPlace) (s : State) : Out :=
  if s.power.starting then .next { s with power := s.power.failStart 9 }
  else
    match place with
    | .core c team row =>
      (match s.team? team with
        | some t => .next (if t.core? == some c && !t.killed then (s.errorEvent 0 (c + row * 2 ^ 32)).killTeam team 0 else s)
        | none => .next s)
    | .dsm a => .next (if (dsmDie a).isSome then { s with badWords := ⟨.dsm, a / 4 * 4⟩ :: s.badWords } else s)
    | .main a => .next (if a < Config.mainBytes then { s with badWords := ⟨.main, a / 4 * 4⟩ :: s.badWords } else s)
    | .round g => .next (if s.quorum.any (fun q => q.id == g) then (s.errorEvent 3 g).stopHuddle g else s)

/-! ### Supply (R393) -/

/-- MODULE_UNPOWERED (R393): nothing runs until the next start. -/
def execModuleUnpowered (s : State) : Out := .next { s with power := { s.power with powered := false } }

end Sys2Proof.Machine
end

