-- ==== Sys2Proof/Machine/BringUp.lean ====
section
/-! DEFINITION. Bring-up (R246, R390, R391): the start of the device, its eight stages and the firmware watchdog. -/

namespace Sys2Proof.Machine

/-- The machine as a start finds it: everything at its reset value, but for what a start keeps (log entry 3). Across a PCI
Express reset of a powered device CLK64 counts on, since it counts from power-on (R305), and DSM keeps its bytes, presence
bits and tags, which power-on alone sets (R255). -/
def State.atStart (s : State) : State :=
  let p := s.power
  let fails := if s.hostCtl.bootClr then 0 else p.fails
  let minimal := fails == 3
  let power : Power := { Power.reset with
    minimal := minimal, fails := fails, whyStage := p.whyStage, level := if minimal then 15 else 0,
    why := if minimal then p.why else if p.tripLatch then 7 else 0 }
  { State.reset with
    clk := if p.powered then s.clk else 0, dsm := if p.powered then s.dsm else [],
    absent := if p.powered then s.absent.filter (fun l => l.space == .dsm) else [],
    dsmTags := if p.powered then s.dsmTags else [],
    badWords := if p.powered then s.badWords.filter (fun w => w.space == .dsm) else [], power := power, sys := s.sys, nextId := s.nextId, freeCount := s.freeCount,
    agenda := s.agenda }

/-- DEVICE_START (R390, R391): power-on, or a PCI Express reset of a powered device. -/
def execDeviceStart (s : State) : Out := .next s.atStart

/-- READY bits that a stage sets (R390); a minimal start sets those of the functions in use (R391). -/
def stageReady (minimal : Bool) (stage : Nat) : BitVec 22 :=
  match stage with
  | 1 => 0x020000#22
  | 3 => 0x200000#22
  | 4 => if minimal then 0x000001#22 else 0x00000F#22
  | 6 => if minimal then 0x000070#22 else 0x00FFF0#22
  | 7 => 0x1C0000#22
  | 8 => if minimal then 0x000000#22 else 0x010000#22
  | _ => 0x000000#22

/-- REASON of a stage that fails (R390). -/
def stageReason (stage : Nat) : Nat :=
  match stage with
  | 1 => 5 | 2 => 1 | 4 => 2 | 5 => 3 | 6 => 4 | _ => 6

/-- BRING_UP_STAGE_PASS (R390): the next stage of the start ends, and passes unless its work has failed. Stage 8 never
fails: a port that fails is left down by FABRIC_PORT_FAILURE. The last stage of a full start sets FAILS to 0 (R246). -/
def execBringUpStagePass (ok : Bool) (s : State) : Out :=
  let p := s.power
  let n := p.stage + 1
  if !p.starting then .next s
  else if !ok && n != 8 then .next { s with power := p.failStart (stageReason n) }
  else
    let fails := if n = 8 && !p.minimal then 0 else p.fails
    .next { s with power := { p with stage := n, ready := p.ready ||| stageReady p.minimal n, fails := fails } }

/-- FIRMWARE_WATCHDOG_EXPIRY (R390): the start fails with REASON 8. -/
def execFirmwareWatchdogExpiry (s : State) : Out :=
  .next (if s.power.starting then { s with power := s.power.failStart 8 } else s)

end Sys2Proof.Machine
end

