-- ==== Sys2Proof/Machine/Cadence.lean ====
section
/-! DEFINITION. The Cadence engine (R159, R160, R293 to R297, R301, R351, R358, R359, R394): CDSTART, CDSTOP and the
engine's events. -/

namespace Sys2Proof.Machine

/-! ### Entries (R294, R359) -/

/-- `w` bits of an entry from bit `lo`. -/
def cdField (e : BitVec 256) (lo w : Nat) : Nat := e.toNat / 2 ^ lo % 2 ^ w

/-- An entry of the table (R294). -/
structure CdEntry where
  zero : Bool
  target : Nat
  count : Nat
  len : Nat
  outSrc : Nat
  inDst : Nat
  prio : Nat
  slot : Nat
  stash : Nat
  oport : Nat
  iport : Nat
  rec_ : Nat
  mb : Nat
  kind : Nat
  deriving DecidableEq, Repr, Inhabited

/-- The fields of an entry; `zero` says that its reserved bits are zero. -/
def cdEntry (e : BitVec 256) : CdEntry :=
  { zero := cdField e 216 40 == 0 && cdField e 67 29 == 0 && cdField e 28 4 == 0, target := cdField e 208 8,
    count := cdField e 192 16, len := cdField e 160 32, outSrc := cdField e 128 32, inDst := cdField e 96 32,
    prio := cdField e 64 3, slot := cdField e 56 8, stash := cdField e 48 8, oport := cdField e 40 8,
    iport := cdField e 32 8, rec_ := cdField e 16 12, mb := cdField e 8 8, kind := cdField e 0 8 }

/-- Node of a port, 1 UP and 2 DOWN; 0xFFFF is none (R293). -/
def Cadence.node (k : Cadence) (port : Nat) : Nat :=
  if port = 1 then k.binding.toNat % 65536 else k.binding.toNat / 65536

/-- FREE of a port (R295). -/
def Cadence.free (k : Cadence) (port : Nat) : Nat := if port = 1 then k.freeUp else k.freeDown

def Cadence.setFree (k : Cadence) (port n : Nat) : Cadence :=
  if port = 1 then { k with freeUp := n } else { k with freeDown := n }

/-- A port of an entry is none, or one that is bound (R294). -/
def Cadence.portOk (k : Cadence) (port : Nat) : Bool := port = 0 || (decide (port ≤ 2) && k.node port != 0xFFFF)

/-- The fields of an entry at the head are in range, and those that its kind does not use are zero (R294, R359). -/
def Cadence.entryOk (k : Cadence) (e : CdEntry) : Bool :=
  let unusedIo := e.len = 0 && e.outSrc = 0 && e.inDst = 0 && e.prio = 0 && e.slot = 0 && e.stash = 0 && e.oport = 0 &&
    e.iport = 0 && e.rec_ = 0 && e.mb = 0
  e.zero &&
  (match e.kind with
    | 0 | 1 | 2 =>
      e.count = 0 && e.target = 0 && k.portOk e.iport && k.portOk e.oport && decide (e.stash ≤ 3) && decide (e.slot < 64) &&
      (if e.iport = 0 then e.inDst = 0 else e.inDst % 128 = 0) &&
      (if e.oport = 0 then e.outSrc = 0 && e.len = 0
       else e.outSrc % 128 = 0 && e.len % 128 = 0 && decide (128 ≤ e.len) && decide (e.len ≤ 65536)) &&
      (if e.stash = 0 then e.slot = 0 else e.stash = 1 || k.occ.getLsbD e.slot)
    | 3 | 5 => unusedIo && e.count = 0 && e.target = 0
    | 4 => unusedIo && decide (e.target ≤ k.head)
    | _ => false)

/-! ### Start and stop (R159, R160, R295, R297) -/

/-- One CDSTART (R159): the engine's state is reset as R295 says and the image load begins. -/
def State.cdstart (s : State) (asid : Nat) (a : DWord) (w : Word) : Except (Cause × DWord) State :=
  let k := s.cadence
  if k.state != 0 && k.state != 4 then .error (.cadenceError, a)
  else if a.toNat % 64 != 0 then .error (.misalign, a)
  else .ok { s with cadence := { k with
    state := 1, wait := 0, refuse := 0, cause := 0, errEntry := 0, head := 0, bubu := 0, bubd := 0, bubs := 0, bubx := 0,
    entries := [], recBase := a.toNat + 8192, binding := w, asid := asid, loading := some a.toNat, freeUp := 8, freeDown := 8,
    occ := 0#64, loopLeft := 0, loopOwn := 0, running := none,
    bufs := k.bufs.map (fun b => if b.held then .empty else b) } }

/-- A launch that a CDSTART leaves behind completes as any other (R297); one that has completed leaves the list. -/
def State.dropDone (s : State) : State :=
  { s with launches := s.launches.filter (fun l => l.phase != .done || s.isRunningGrid l.key) }

/-- CDSTART (R159). TADDR of CADENCE_ERROR is open; MISALIGN names the address. -/
def execCdstart (h : Head) (a w : Operand) (s : State) : Out :=
  runPriv h s [(a, 2), (w, 1)] (fun c =>
    match (c.actors h).foldlM (fun (s : State) t => s.cdstart c.launch.asid (c.val64 t a) (c.val t w)) s with
    | .ok s => s.dropDone.advance
    | .error (.misalign, x) => s.trapGroup c .misalign (some x)
    | .error (e, _) => s.trapGroup c e none)

/-- RUNNING becomes STOPPING (R160). -/
def State.cdstop (s : State) : State :=
  if s.cadence.state = 2 then { s with cadence := { s.cadence with state := 3, wait := 0 } } else s

/-- CDSTOP (R160). -/
def execCdstop (h : Head) (s : State) : Out :=
  runPriv h s [] (fun c => (if (c.actors h).isEmpty then s else s.cdstop).advance)

/-- CADENCE_IMAGE_LOADED (R159): the 256 entries are read through the ASID; a read fault stops the table. -/
def execCadenceImageLoaded (s : State) : Out :=
  match s.cadence.loading with
  | none => .next s
  | some a =>
    if s.cadence.state != 1 then .next s
    else
      match if a + 8192 ≤ 2 ^ 57 then s.readVirt s.cadence.asid a 8192 else none with
      | none => .next ({ s with cadence := { s.cadence with loading := none } }.stopTable 0 0x1A 0)
      | some bs =>
        let es := (List.range 256).map (fun i => BitVec.ofNat 256 (leNat ((bs.drop (32 * i)).take 32)))
        .next { s with cadence := { s.cadence with state := 2, wait := 0, entries := es, loading := none } }

/-! ### The action of a cycle (R296, R358) -/

/-- A counter that stops at its highest value (R301). -/
def stop64 (n : Nat) : Nat := if n > 0xFFFFFFFFFFFFFFFF then 0xFFFFFFFFFFFFFFFF else n

/-- A cycle of waiting: WAIT, and one bubble in the matching counter (R296, R301). A table that no longer is RUNNING waits for
nothing (DEDUCED from 20_program_cadence.md, log entry 20). -/
def Cadence.bubble (k : Cadence) (w : Nat) : Cadence :=
  let k := { k with wait := if k.state = 2 then w else 0 }
  match w with
  | 1 => { k with bubu := stop64 (k.bubu + 1) }
  | 2 => { k with bubd := stop64 (k.bubd + 1) }
  | 3 => { k with bubs := stop64 (k.bubs + 1) }
  | 4 => { k with bubx := stop64 (k.bubx + 1) }
  | _ => k

/-- HEAD goes to an entry; past entry 255 the table stops (R296). -/
def State.cdGo (s : State) (head : Nat) : State :=
  if head > 255 then s.stopTable 255 0x1A 0
  else { s with cadence := { s.cadence with head := head, wait := 0 } }

/-- The oldest arrival on a port that is tagged with a micro-batch and held by no grid. -/
def Cadence.arrival (k : Cadence) (port mb : Nat) : Option (Nat × CdBuf) :=
  ((sortBy (fun (p : Nat × CdBuf) => p.2.stamp) ((k.bufs.mapIdx (fun i b => (i, b))).filter (fun p =>
    p.1 / 8 + 1 == port && p.2.full && !p.2.held && p.2.mb == mb)))).head?

/-- An F, B or W entry that waits for nothing (R296): the arrival is copied, the slot taken, the record distributed. -/
def State.cdLaunch (s : State) (e : CdEntry) (buf : Option (Nat × CdBuf)) (ident : Word) : State :=
  let head := s.cadence.head
  match buf with
  | some (_, b) =>
    if !inOneDie e.inDst b.data.length then s.stopTable head 0x1A 0
    else go (s.memWrite ⟨.dsm, e.inDst⟩ b.data) head
  | none => go s head
where
  /-- The distribution once the data has landed. -/
  go (s : State) (head : Nat) : State :=
    let bufs := match buf with
      | some (i, _) => updAt i (fun b => { b with held := true }) s.cadence.bufs
      | none => s.cadence.bufs
    let occ := if e.stash = 1 then s.cadence.occ ||| bit64 e.slot else s.cadence.occ
    let s : State := { s with cadence := { s.cadence with bufs := bufs, occ := occ } }
    let key := s.nextId
    let s := s.distribute ident 256 s.cadence.asid (BitVec.ofNat 64 (s.cadence.recBase + 256 * e.rec_)) false 0#32
      (some (head, e.prio)) s.cadence.view
    if s.launches.any (fun l => l.key == key) then
      { s with cadence := { s.cadence with running := some {
        launch := key, entry := head, buf := buf.map (fun (p : Nat × CdBuf) => p.1), muted := s.cadence.state == 5 } } }.cdGo (head + 1)
    else s

/-- The running grid has a resident team; a grid that has just completed counts as having one (R296, R358). -/
def State.gridResident (s : State) (key : Nat) : Bool :=
  s.teams.any (fun t => t.launch == key && t.isResident) || s.launches.any (fun l => l.key == key && l.phase == .done)

/-- The action of R296 on the head entry. -/
def State.cdHead (s : State) (ident : Word) : State :=
  let k := s.cadence
  let e := cdEntry (k.entries.getD k.head 0#256)
  if !k.entryOk e then s.stopTable k.head 0x1A 0
  else
    match e.kind with
    | 5 => { s with cadence := { k with state := if k.state = 5 then 5 else 4, wait := 0 } }
    | 3 =>
      if [1, 2].all (fun p => k.node p == 0xFFFF || k.free p == 8) then s.cdGo (k.head + 1)
      else { s with cadence := k.bubble 2 }
    | 4 =>
      if k.loopLeft != 0 && k.loopOwn != k.head then s.stopTable k.head 0x1A 0
      else
        let left := if k.loopLeft = 0 then Nat.max e.count 1 else k.loopLeft
        { s with cadence := { k with loopLeft := left - 1, loopOwn := k.head } }.cdGo (if left - 1 > 0 then e.target else k.head + 1)
    | _ =>
      let buf := if e.iport = 0 then none else k.arrival e.iport e.mb
      if e.iport != 0 && buf.isNone then { s with cadence := k.bubble 1 }
      else if e.oport != 0 && k.free e.oport == 0 then { s with cadence := k.bubble 2 }
      else if e.stash = 1 && k.occ.getLsbD e.slot then { s with cadence := k.bubble 3 }
      else s.cdLaunch e buf ident

/-- STATE as the action of the cycle finds it (R358): as it stood at the start of the cycle, while no CDSTART, END or host has
put another in its place. The running grid and its teams are as they stood then too. -/
def Cadence.acting (k : Cadence) : Nat := if k.state = 3 || (k.state = 5 && k.start = 2) then k.start else k.state

/-- CADENCE_CYCLE (R296, R358): the engine's one action of this main-clock cycle. The identifier that a launch would be
given is the event's (log entry 1). -/
def execCadenceCycle (ident : Word) (s : State) : Out :=
  let k := s.cadence
  if k.acted then .next s
  else
    let s : State := { s with cadence := { k with acted := true } }
    match (if k.start = 2 || k.start = 3 then k.acting else 0), k.grid with
    | 2, some r => .next { s with cadence := s.cadence.bubble (if r then 0 else 4) }
    | 2, none => if s.identFree ident then .next (s.cdHead ident) else .next { s with cadence := k }
    | 3, none => .next { s with cadence := { s.cadence with state := 4, wait := 0 } }
    | _, _ => .next s

/-- What falls due in a cycle takes effect after the engine's action of that cycle (R358). -/
def Cadence.due (k : Cadence) : Bool := k.acted || k.start != 2

/-! ### Completion, arrivals and grants (R295, R297, R358) -/

/-- The completion step of R297 for a grid of an entry: of one that ran when the table entered ERROR, that it ends. What it
has ordered comes before the next entry (R321). -/
def State.cdComplete (s : State) (r : CdRun) (e : CdEntry) : State :=
  let k := s.cadence
  let ended := match s.launch? r.launch with
    | some l => joinViews l.view l.ended
    | none => []
  let s : State := { s with cadence := { k with running := none, view := joinViews k.view ended } }
  if r.muted then s
  else if e.oport != 0 && !inOneDie e.outSrc e.len then s.stopTable r.entry 0x1A 0
  else
    let s := if e.oport = 0 then s
      else
        let s : State := { s with cadence := s.cadence.setFree e.oport (s.cadence.free e.oport - 1) }
        s.enqueue (k.node e.oport) 255 e.len (.cadenceSend (e.oport == 2) e.mb (s.memRead ⟨.dsm, e.outSrc⟩ e.len)) none none r.entry
    let s := match r.buf with
      | none => s
      | some i =>
        let s : State := { s with cadence := { s.cadence with bufs := updAt i (fun _ => .empty) s.cadence.bufs } }
        s.enqueue (k.node e.iport) 255 16 (.cadenceGrant (e.iport == 2)) none none r.entry
    let occ := if e.stash = 3 then s.cadence.occ &&& ~~~(bit64 e.slot) else s.cadence.occ
    let state := if k.state = 3 then 4 else s.cadence.state
    { s with cadence := { s.cadence with occ := occ, state := state } }

/-- Transfers that the completion step of a grid enqueues (R297). -/
def CdRun.sends (r : CdRun) (e : CdEntry) : Nat :=
  if r.muted then 0 else (if e.oport != 0 then 1 else 0) + (if r.buf.isSome then 1 else 0)

/-- The running grid has completed and waits for its completion step. -/
def State.gridDone (s : State) : Bool :=
  match s.cadence.running with
  | some r => s.launches.any (fun l => l.key == r.launch && l.phase == .done)
  | none => false

/-- The completion step of the running grid can be taken. -/
def State.gridStep (s : State) : Bool :=
  match s.cadence.running with
  | some r => s.gridDone && (let n := r.sends (cdEntry (s.cadence.entries.getD r.entry 0#256)); n == 0 || s.fabricRoom n)
  | none => false

/-- CADENCE_GRID_COMPLETION (R297): once the fabric transmit queue has room for what it sends (R279). -/
def execCadenceGridCompletion (s : State) : Out :=
  match s.cadence.running with
  | none => .next s
  | some r =>
    if !s.gridStep || !s.cadence.due then .next s
    else .next (s.cdComplete r (cdEntry (s.cadence.entries.getD r.entry 0#256))).dropDone

/-- CADENCE_ARRIVAL (R295): data from a neighbour fills a free buffer of the port; a neighbour sends only against a
grant, so one is free. Which free buffer it fills is the engine's choice (the lowest; DESIGN CHOICE, log entry 20). In
minimal mode the fabric is off (R391). -/
def execCadenceArrival (down : Bool) (mb : Nat) (data : List Byte) (s : State) : Out :=
  let k := s.cadence
  let base := if down then 8 else 0
  match (List.range 8).find? (fun i => !(k.bufs.getD (base + i) .empty).full) with
  | none => .next s
  | some i =>
    if !k.due || decide (data.length > 65536) || s.power.minimal then .next s
    else .next { s.bumpId with cadence := { k with
      bufs := updAt (base + i) (fun _ => { full := true, held := false, mb := mb % 256, data := data, stamp := s.nextId }) k.bufs } }

/-- CADENCE_GRANT (R297): FREE rises by one, to at most 8. -/
def execCadenceGrant (down : Bool) (s : State) : Out :=
  let k := s.cadence
  let p := if down then 2 else 1
  .next (if k.due && !s.power.minimal then { s with cadence := k.setFree p (Nat.min 8 (k.free p + 1)) } else s)

/-- The control word (R297): STOPPED clears ERROR or stops a running table; anything else is refused. -/
def State.cdControl (s : State) (value : Nat) : Option State :=
  if value % 8 != 4 then none
  else if s.cadence.state = 5 then
    some { s with cadence := { s.cadence with state := 4, cause := 0, errEntry := 0, wait := 0 } }
  else if s.cadence.state = 2 then some s.cdstop
  else none

end Sys2Proof.Machine
end

