-- ==== Sys2Proof/Decode.lean ====
section
/-! DEFINITION. The decoder and the encoder of the 64-bit instruction words (R75 to R96, R136, R171, R184,
R192, R201, R207, R224, R229, R230). `parse` makes the ILLEGAL_OP checks of R95 first and then reads the
fields; `decodeWord` refuses with ILLEGAL_OPERAND what is not well formed. `encode` is its inverse, written
from the same tables. -/

namespace Sys2Proof

/-- The two decode faults of R95. -/
inductive DecodeError where
  | illegalOp
  | illegalOperand
  deriving DecidableEq, Repr, Inhabited

/-- The result of decoding. -/
abbrev Dec (α : Type) := Except DecodeError α

/-- A check of R95 whose failure is ILLEGAL_OP. -/
def opCheck (b : Bool) : Dec Unit := if b then .ok () else .error .illegalOp

/-- A check of R95 whose failure is ILLEGAL_OPERAND. -/
def operandCheck (b : Bool) : Dec Unit := if b then .ok () else .error .illegalOperand

/-- An enumerated field: a value outside the list is ILLEGAL_OPERAND (R95). -/
def enumField {α : Type} (o : Option α) : Dec α :=
  match o with
  | some x => .ok x
  | none => .error .illegalOperand

/-- The TY codes of R84. -/
def Ty.code : Ty → BitVec 4
  | .i32 => 0#4
  | .n32 => 1#4
  | .i16x2 => 2#4
  | .n16x2 => 3#4
  | .i8x4 => 4#4
  | .n8x4 => 5#4
  | .f32 => 6#4
  | .h16x2 => 7#4
  | .b16x2 => 8#4
  | .e4x4 => 9#4
  | .e5x4 => 10#4
  | .q4x8 => 11#4
  | .i64 => 12#4
  | .n64 => 13#4

/-- The inverse of `Ty.code`; every other code is illegal. -/
def Ty.ofCode (c : BitVec 4) : Option Ty :=
  match c.toNat with
  | 0 => some .i32
  | 1 => some .n32
  | 2 => some .i16x2
  | 3 => some .n16x2
  | 4 => some .i8x4
  | 5 => some .n8x4
  | 6 => some .f32
  | 7 => some .h16x2
  | 8 => some .b16x2
  | 9 => some .e4x4
  | 10 => some .e5x4
  | 11 => some .q4x8
  | 12 => some .i64
  | 13 => some .n64
  | _ => none

/-- The RM codes of R55. -/
def Rm.code : Rm → BitVec 2
  | .rn => 0#2
  | .rz => 1#2
  | .ru => 2#2
  | .rd => 3#2

/-- The inverse of `Rm.code`; every other code is illegal. -/
def Rm.ofCode (c : BitVec 2) : Option Rm :=
  match c.toNat with
  | 0 => some .rn
  | 1 => some .rz
  | 2 => some .ru
  | _ => some .rd

/-- The ORD codes of R86. -/
def Ord.code : Ord → BitVec 2
  | .relaxed => 0#2
  | .acquire => 1#2
  | .release => 2#2
  | .acqRel => 3#2

/-- The inverse of `Ord.code`; every other code is illegal. -/
def Ord.ofCode (c : BitVec 2) : Option Ord :=
  match c.toNat with
  | 0 => some .relaxed
  | 1 => some .acquire
  | 2 => some .release
  | _ => some .acqRel

/-- The SC codes of R86. -/
def Scope.code : Scope → BitVec 3
  | .team => 0#3
  | .core => 1#3
  | .die => 2#3
  | .device => 3#3
  | .system => 4#3

/-- The inverse of `Scope.code`; every other code is illegal. -/
def Scope.ofCode (c : BitVec 3) : Option Scope :=
  match c.toNat with
  | 0 => some .team
  | 1 => some .core
  | 2 => some .die
  | 3 => some .device
  | 4 => some .system
  | _ => none

/-- The SZ codes of R86. -/
def Sz.code : Sz → BitVec 3
  | .b8 => 0#3
  | .b16 => 1#3
  | .b32 => 2#3
  | .b64 => 3#3
  | .b128 => 4#3

/-- The inverse of `Sz.code`; every other code is illegal. -/
def Sz.ofCode (c : BitVec 3) : Option Sz :=
  match c.toNat with
  | 0 => some .b8
  | 1 => some .b16
  | 2 => some .b32
  | 3 => some .b64
  | 4 => some .b128
  | _ => none

/-- The AOP codes of R175. -/
def Aop.code : Aop → BitVec 5
  | .addN32 => 0#5
  | .addF32 => 1#5
  | .minI32 => 2#5
  | .minN32 => 3#5
  | .maxI32 => 4#5
  | .maxN32 => 5#5
  | .fmin => 6#5
  | .fmax => 7#5
  | .and => 8#5
  | .or => 9#5
  | .xor => 10#5
  | .exch32 => 11#5
  | .addN64 => 12#5
  | .exch64 => 13#5
  | .addB16x2 => 14#5

/-- The inverse of `Aop.code`; every other code is illegal. -/
def Aop.ofCode (c : BitVec 5) : Option Aop :=
  match c.toNat with
  | 0 => some .addN32
  | 1 => some .addF32
  | 2 => some .minI32
  | 3 => some .minN32
  | 4 => some .maxI32
  | 5 => some .maxN32
  | 6 => some .fmin
  | 7 => some .fmax
  | 8 => some .and
  | 9 => some .or
  | 10 => some .xor
  | 11 => some .exch32
  | 12 => some .addN64
  | 13 => some .exch64
  | 14 => some .addB16x2
  | _ => none

/-- The KIND codes of FENCE (R178). -/
def FenceKind.code : FenceKind → BitVec 3
  | .mem => 0#3
  | .engine => 1#3
  | .all => 2#3

/-- The inverse of `FenceKind.code`; every other code is illegal. -/
def FenceKind.ofCode (c : BitVec 3) : Option FenceKind :=
  match c.toNat with
  | 0 => some .mem
  | 1 => some .engine
  | 2 => some .all
  | _ => none

/-- The DIR codes of CPY (R86). -/
def Dir.code : Dir → BitVec 3
  | .m2s => 0#3
  | .s2m => 1#3
  | .s2s => 2#3
  | .sys2s => 3#3
  | .s2sys => 4#3

/-- The inverse of `Dir.code`; every other code is illegal. -/
def Dir.ofCode (c : BitVec 3) : Option Dir :=
  match c.toNat with
  | 0 => some .m2s
  | 1 => some .s2m
  | 2 => some .s2s
  | 3 => some .sys2s
  | 4 => some .s2sys
  | _ => none

/-- The TY codes of NMADD and NMMAX (R192). -/
def NmTy.code : NmTy → BitVec 2
  | .f32 => 0#2
  | .i32 => 1#2
  | .b16x2 => 2#2
  | .n32 => 3#2

/-- The inverse of `NmTy.code`; every other code is illegal. -/
def NmTy.ofCode (c : BitVec 2) : Option NmTy :=
  match c.toNat with
  | 0 => some .f32
  | 1 => some .i32
  | 2 => some .b16x2
  | _ => some .n32

/-- The FMT codes of R206. -/
def Fmt.code : Fmt → BitVec 4
  | .e4 => 0#4
  | .e5 => 1#4
  | .int8 => 2#4
  | .nat8 => 3#4
  | .q4 => 4#4
  | .b16 => 5#4
  | .h16 => 6#4
  | .f32 => 7#4

/-- The inverse of `Fmt.code`; every other code is illegal. -/
def Fmt.ofCode (c : BitVec 4) : Option Fmt :=
  match c.toNat with
  | 0 => some .e4
  | 1 => some .e5
  | 2 => some .int8
  | 3 => some .nat8
  | 4 => some .q4
  | 5 => some .b16
  | 6 => some .h16
  | 7 => some .f32
  | _ => none

/-- The PART codes of TLD (R207). -/
def TilePart.code : TilePart → BitVec 2
  | .data => 0#2
  | .qs => 1#2
  | .super => 2#2
  | .affine => 3#2

/-- The inverse of `TilePart.code`; every other code is illegal. -/
def TilePart.ofCode (c : BitVec 2) : Option TilePart :=
  match c.toNat with
  | 0 => some .data
  | 1 => some .qs
  | 2 => some .super
  | _ => some .affine

/-- The mode codes of TRET (R157). -/
def TretMode.code : TretMode → BitVec 2
  | .retry => 0#2
  | .skip => 1#2
  | .kill => 2#2

/-- The inverse of `TretMode.code`; every other code is illegal. -/
def TretMode.ofCode (c : BitVec 2) : Option TretMode :=
  match c.toNat with
  | 0 => some .retry
  | 1 => some .skip
  | 2 => some .kill
  | _ => none

/-- The kind codes of TLBINV (R136). -/
def TlbKind.code : TlbKind → BitVec 2
  | .all => 0#2
  | .asid => 1#2
  | .page => 2#2

/-- The inverse of `TlbKind.code`; every other code is illegal. -/
def TlbKind.ofCode (c : BitVec 2) : Option TlbKind :=
  match c.toNat with
  | 0 => some .all
  | 1 => some .asid
  | 2 => some .page
  | _ => none

/-- The X codes of XCHG (R127). -/
def XchgMode.code : XchgMode → BitVec 3
  | .xor => 0#3
  | .up => 1#3
  | .down => 2#3
  | .tr => 3#3

/-- The inverse of `XchgMode.code`; every other code is illegal. -/
def XchgMode.ofCode (c : BitVec 3) : Option XchgMode :=
  match c.toNat with
  | 0 => some .xor
  | 1 => some .up
  | 2 => some .down
  | 3 => some .tr
  | _ => none

/-- The specials in the order of R78, counted from 320. -/
def Special.code : Special → BitVec 4
  | .lane => 0#4
  | .hidx => 1#4
  | .tid => 2#4
  | .team => 3#4
  | .role => 4#4
  | .ridx => 5#4
  | .gsz => 6#4
  | .nteam => 7#4
  | .core => 8#4
  | .die => 9#4
  | .clk32 => 10#4
  | .launch => 11#4

/-- The inverse of `Special.code`; every other code is illegal. -/
def Special.ofCode (c : BitVec 4) : Option Special :=
  match c.toNat with
  | 0 => some .lane
  | 1 => some .hidx
  | 2 => some .tid
  | 3 => some .team
  | 4 => some .role
  | 5 => some .ridx
  | 6 => some .gsz
  | 7 => some .nteam
  | 8 => some .core
  | 9 => some .die
  | 10 => some .clk32
  | 11 => some .launch
  | _ => none

/-- The specifier of an operand (R78). -/
def Operand.code : Operand → BitVec 9
  | .v n => BitVec.ofNat 9 n.val
  | .s n => BitVec.ofNat 9 (256 + n.val)
  | .special x => BitVec.ofNat 9 (320 + x.code.toNat)
  | .int k => BitVec.ofNat 9 (336 + k.val)
  | .flt k => BitVec.ofNat 9 (432 + k.val)
  | .none => 511#9

/-- The operand of a specifier; none where R78 says illegal. -/
def Operand.ofCode (c : BitVec 9) : Option Operand :=
  let n := c.toNat
  if h : n < 255 then some (.v ⟨n, h⟩)
  else if n < 256 then Option.none
  else if h : n - 256 < 64 then some (.s ⟨n - 256, h⟩)
  else if n < 336 then (Special.ofCode (BitVec.ofNat 4 (n - 320))).map .special
  else if h : n - 336 < 96 then some (.int ⟨n - 336, h⟩)
  else if h : n - 432 < 16 then some (.flt ⟨n - 432, h⟩)
  else if n = 511 then some .none
  else Option.none

/-- An operand field (R81: 255, 332 to 335 and 448 to 510 are illegal everywhere). -/
def opnd (c : BitVec 9) : Dec Operand := enumField (Operand.ofCode c)

/-- The BAR code: 0 to 15, or 31 for none (R86). -/
def barCode : BarSel → BitVec 5
  | some b => BitVec.ofNat 5 b.val
  | none => 31#5

/-- A BAR field: 16 to 30 are illegal (R86). -/
def barField (c : BitVec 5) : Dec BarSel :=
  if h : c.toNat < 16 then .ok (some ⟨c.toNat, h⟩)
  else if c = 31#5 then .ok none else .error .illegalOperand

/-- A field of `n` bits all of whose values are legal. -/
def finField (n : Nat) (c : BitVec n) : Fin (2 ^ n) := c.toFin

/-- A field whose legal values lie below `m`. -/
def finBelow (m : Nat) {n : Nat} (c : BitVec n) : Dec (Fin m) :=
  if h : c.toNat < m then .ok ⟨c.toNat, h⟩ else .error .illegalOperand

/-- One bit as a Bool and back. -/
def bit1 (b : Bool) : BitVec 1 := if b then 1#1 else 0#1

/-- The head bits 55:51 (R75). -/
def Head.bits (h : Head) : BitVec 5 := bit1 h.u ++ bit1 h.pn ++ BitVec.ofNat 3 h.pi.val

/-- Bits 55:51 read as the common head (R75). -/
def Head.ofBits (b : BitVec 5) : Head :=
  { u := b.getLsbD 4, pn := b.getLsbD 3, pi := (b.extractLsb' 0 3).toFin }

/-- A V3 word (R82). -/
def packV3 (op : BitVec 8) (h : Head) (mod : BitVec 14) (d a b c : BitVec 9) : DWord :=
  op ++ (h.bits ++ (0#1 ++ (mod ++ (d ++ (a ++ (b ++ c))))))

/-- A VL word (R85). -/
def packVl (op : BitVec 8) (h : Head) (d a : BitVec 9) (lit : Word) : DWord :=
  op ++ (h.bits ++ (1#1 ++ (d ++ (a ++ lit))))

/-- An M word (R86): LA, bits 46:42, ORD, SC, RMT and the four operand fields. -/
def packM (op : BitVec 8) (h : Head) (la : BitVec 4) (spsz : BitVec 5) (ord : BitVec 2) (sc : BitVec 3)
    (rmt : BitVec 1) (d base data ofs : BitVec 9) : DWord :=
  op ++ (h.bits ++ (la ++ (spsz ++ (ord ++ (sc ++ (rmt ++ (d ++ (base ++ (data ++ ofs)))))))))

/-- An X word (R86). -/
def packX (op : BitVec 8) (h : Head) (la : BitVec 4) (bar : BitVec 5) (kind : BitVec 6)
    (d sr aux aux2 : BitVec 9) : DWord :=
  op ++ (h.bits ++ (la ++ (bar ++ (kind ++ (d ++ (sr ++ (aux ++ aux2)))))))

/-- A T word (R86, R207). -/
def packT (op : BitVec 8) (h : Head) (la ta tb : BitVec 4) (fl : BitVec 12) (ab x y : BitVec 9) : DWord :=
  op ++ (h.bits ++ (la ++ (ta ++ (tb ++ (fl ++ (ab ++ (x ++ y)))))))

/-- A C or S word (R86, R136). -/
def packC (op : BitVec 8) (h : Head) (kx : BitVec 5) (fl : BitVec 4) (sa sb : BitVec 9)
    (imm : BitVec 24) : DWord :=
  op ++ (h.bits ++ (kx ++ (fl ++ (sa ++ (sb ++ imm)))))

/-- The default MOD of R83. -/
def packMod (ty : BitVec 4) (rm : BitVec 2) (sat na nb aa ab : Bool) (x : BitVec 3) : BitVec 14 :=
  ty ++ (rm ++ (bit1 sat ++ (bit1 na ++ (bit1 nb ++ (bit1 aa ++ (bit1 ab ++ x))))))

/-- The MOD of R107. -/
def packCmp (m : CmpMods) : BitVec 14 :=
  m.ty.code ++ (BitVec.ofNat 3 m.cmp.val ++ (bit1 m.bor ++ (BitVec.ofNat 3 m.pd.val ++ 0#3)))

def IntMods.bits (m : IntMods) : BitVec 14 := packMod m.ty.code 0#2 m.sat m.na m.nb m.aa m.ab 0#3

def FltMods.bits (m : FltMods) : BitVec 14 :=
  packMod m.ty.code m.rm.code m.sat m.na m.nb m.aa m.ab (0#2 ++ bit1 m.nc)

def RedMods.bits (m : RedMods) : BitVec 14 :=
  packMod m.ty.code m.rm.code m.sat m.exc false false false (BitVec.ofNat 3 m.op.val)

/-- MOD with only TY used. -/
def tyMod (t : Ty) : BitVec 14 := packMod t.code 0#2 false false false false false 0#3

/-- 511, the NONE specifier. -/
def noneCode : BitVec 9 := 511#9

/-- The operand fields and MOD of a V3 word. -/
structure V3 where
  h : Head
  mod : BitVec 14
  d : BitVec 9
  a : BitVec 9
  b : BitVec 9
  c : BitVec 9
  deriving DecidableEq, Repr, Inhabited

/-- MOD bits that the entry requires to be zero (R83, R95). -/
def V3.zero (f : V3) (mask : BitVec 14) : Dec Unit := opCheck (f.mod &&& mask == 0#14)

/-- The bits of a multi-bit MOD field that the entry names and accepts only as zero, such as RM and X of
R101: a set bit is an operand value the entry does not accept, ILLEGAL_OPERAND (R97). DEDUCED: a field that
the entry names in a sentence that makes it zero counts as named (log 24). -/
def V3.named (f : V3) (mask : BitVec 14) : Dec Unit := operandCheck (f.mod &&& mask == 0#14)

/-- The TY field (R84). -/
def V3.ty (f : V3) : Dec Ty := enumField (Ty.ofCode (f.mod.extractLsb' 10 4))

/-- The RM field. -/
def V3.rm (f : V3) : Dec Rm := enumField (Rm.ofCode (f.mod.extractLsb' 8 2))

/-- A sign modifier on an unsigned TY is a non-zero bit that must be zero (R97, R101). -/
def V3.signsOk (f : V3) : Dec Unit :=
  opCheck (!(f.mod.extractLsb' 3 4 != 0#4 &&
    (match Ty.ofCode (f.mod.extractLsb' 10 4) with
      | some .n32 | some .n16x2 | some .n8x4 | some .n64 => true
      | _ => false)))

def V3.intMods (f : V3) (ty : Ty) : IntMods :=
  { ty := ty, sat := f.mod.getLsbD 7, na := f.mod.getLsbD 6, nb := f.mod.getLsbD 5,
    aa := f.mod.getLsbD 4, ab := f.mod.getLsbD 3 }

def V3.fltMods (f : V3) (ty : Ty) (rm : Rm) : FltMods :=
  { ty := ty, rm := rm, sat := f.mod.getLsbD 7, na := f.mod.getLsbD 6, nb := f.mod.getLsbD 5,
    aa := f.mod.getLsbD 4, ab := f.mod.getLsbD 3, nc := f.mod.getLsbD 0 }

def V3.cmpMods (f : V3) (ty : Ty) : CmpMods :=
  { ty := ty, cmp := (f.mod.extractLsb' 7 3).toFin, bor := f.mod.getLsbD 6,
    pd := (f.mod.extractLsb' 3 3).toFin }

/-- The three bits of X. -/
def V3.x (f : V3) : BitVec 3 := f.mod.extractLsb' 0 3

/-- An operand field that the entry leaves unused holds NONE (R81). -/
def noneField (c : BitVec 9) : Dec Unit := operandCheck (c == noneCode)

/-- DST, SA with SB and SC unused. -/
def V3.one (f : V3) (k : Operand → Operand → Instr) : Dec Instr := do
  let d ← opnd f.d
  let a ← opnd f.a
  noneField f.b
  noneField f.c
  .ok (k d a)

/-- DST, SA, SB with SC unused. -/
def V3.two (f : V3) (k : Operand → Operand → Operand → Instr) : Dec Instr := do
  let d ← opnd f.d
  let a ← opnd f.a
  let b ← opnd f.b
  noneField f.c
  .ok (k d a b)

/-- DST and the three sources. -/
def V3.three (f : V3) (k : Operand → Operand → Operand → Operand → Instr) : Dec Instr := do
  let d ← opnd f.d
  let a ← opnd f.a
  let b ← opnd f.b
  let c ← opnd f.c
  .ok (k d a b c)

/-- A predicate operand of PLUT: specifiers 336 to 343 (R124). -/
def predField (c : BitVec 9) : Dec (Fin 8) :=
  if h : 336 ≤ c.toNat ∧ c.toNat - 336 < 8 then .ok ⟨c.toNat - 336, h.2⟩ else .error .illegalOperand

/-- The specifier of a PLUT predicate. -/
def predCode (q : Fin 8) : BitVec 9 := BitVec.ofNat 9 (336 + q.val)

/-- The V3 words (R93, 05_vector_instructions.md). -/
def parseV3 (op : Nat) (f : V3) : Dec Instr :=
  match op with
  | 0x00 => do
    f.signsOk
    f.named 0x0307#14
    let ty ← f.ty
    f.two (fun d a b => .iadd f.h (f.intMods ty) d a b)
  | 0x01 => do
    f.signsOk
    f.named 0x0307#14
    let ty ← f.ty
    f.two (fun d a b => .isub f.h (f.intMods ty) d a b)
  | 0x02 => do
    f.signsOk
    f.named 0x0307#14
    let ty ← f.ty
    f.two (fun d a b => .imul f.h (f.intMods ty) d a b)
  | 0x03 => do
    f.zero 0x0080#14
    f.signsOk
    f.named 0x0307#14
    let ty ← f.ty
    f.two (fun d a b => .imulhi f.h (f.intMods ty) d a b)
  | 0x04 => do
    f.signsOk
    f.named 0x0307#14
    let ty ← f.ty
    f.three (fun d a b c => .imad f.h (f.intMods ty) d a b c)
  | 0x05 => do
    f.zero 0x0080#14
    f.signsOk
    f.named 0x0307#14
    let ty ← f.ty
    f.two (fun d a b => .imin f.h (f.intMods ty) d a b)
  | 0x06 => do
    f.zero 0x0080#14
    f.signsOk
    f.named 0x0307#14
    let ty ← f.ty
    f.two (fun d a b => .imax f.h (f.intMods ty) d a b)
  | 0x07 => do
    f.zero 0x0078#14
    f.named 0x0307#14
    let ty ← f.ty
    f.one (fun d a => .iabs f.h ty (f.mod.getLsbD 7) d a)
  | 0x08 => do
    f.zero 0x00f8#14
    f.named 0x0307#14
    let ty ← f.ty
    f.two (fun d a b => .shl f.h ty d a b)
  | 0x09 => do
    f.zero 0x00f8#14
    f.named 0x0307#14
    let ty ← f.ty
    f.two (fun d a b => .shr f.h ty d a b)
  | 0x0a => do
    f.zero 0x00f8#14
    f.named 0x0307#14
    let ty ← f.ty
    f.two (fun d a b => .sar f.h ty d a b)
  | 0x0b => do
    f.zero 0x039f#14
    let ty ← f.ty
    f.two (fun d a b => .and f.h ty (f.mod.getLsbD 6) (f.mod.getLsbD 5) d a b)
  | 0x0c => do
    f.zero 0x039f#14
    let ty ← f.ty
    f.two (fun d a b => .or f.h ty (f.mod.getLsbD 6) (f.mod.getLsbD 5) d a b)
  | 0x0d => do
    f.zero 0x039f#14
    let ty ← f.ty
    f.two (fun d a b => .xor f.h ty (f.mod.getLsbD 6) (f.mod.getLsbD 5) d a b)
  | 0x0e => do
    f.zero 0x003f#14
    f.three (fun d a b c => .lut3 f.h (f.mod.extractLsb' 6 8) d a b c)
  | 0x0f => do
    f.zero 0x03ff#14
    let ty ← f.ty
    f.one (fun d a => .popc f.h ty d a)
  | 0x10 => do
    f.zero 0x03ff#14
    let ty ← f.ty
    f.one (fun d a => .clz f.h ty d a)
  | 0x11 => do
    f.zero 0x03ff#14
    let ty ← f.ty
    f.one (fun d a => .brev f.h ty d a)
  | 0x12 => do
    f.zero 0x03ff#14
    let ty ← f.ty
    f.two (fun d a b => .bfe f.h ty d a b)
  | 0x13 => do
    f.zero 0x03ff#14
    let ty ← f.ty
    operandCheck (ty == .i32)
    f.three (fun d a b c => .bfi f.h d a b c)
  | 0x14 => do
    f.zero 0x03c7#14
    let ty ← f.ty
    operandCheck (ty == .n32)
    f.three (fun d a b c => .iaddc f.h (f.mod.extractLsb' 3 3).toFin d a b c)
  | 0x15 => do
    f.zero 0x0007#14
    opCheck (!(f.mod.getLsbD 6 && f.c == noneCode))
    let ty ← f.ty
    f.three (fun d a b c => .icmp f.h (f.cmpMods ty) d a b c)
  | 0x16 => do
    f.zero 0x03ff#14
    let ty ← f.ty
    f.three (fun d a b c => .sel f.h ty d a b c)
  | 0x17 => do
    f.zero 0x3fff#14
    f.one (fun d a => .mov f.h d a)
  | 0x18 => do
    f.zero 0x00f8#14
    f.named 0x0300#14
    let ty ← f.ty
    f.two (fun d a b => .lea f.h ty f.x.toFin d a b)
  | 0x19 => do
    f.signsOk
    f.named 0x0307#14
    let ty ← f.ty
    f.two (fun d a b => .iadd64 f.h (f.intMods ty) d a b)
  | 0x1a => do
    f.zero 0x0007#14
    opCheck (!(f.mod.getLsbD 6 && f.c == noneCode))
    let ty ← f.ty
    f.three (fun d a b c => .icmp64 f.h (f.cmpMods ty) d a b c)
  | 0x1b => do
    f.zero 0x03ff#14
    let ty ← f.ty
    operandCheck (ty == .i64)
    f.one (fun d a => .mov64 f.h d a)
  | 0x20 => do
    f.named 0x0007#14
    let ty ← f.ty
    let rm ← f.rm
    f.two (fun d a b => .fadd f.h (f.fltMods ty rm) d a b)
  | 0x21 => do
    f.named 0x0007#14
    let ty ← f.ty
    let rm ← f.rm
    f.two (fun d a b => .fsub f.h (f.fltMods ty rm) d a b)
  | 0x22 => do
    f.named 0x0007#14
    let ty ← f.ty
    let rm ← f.rm
    f.two (fun d a b => .fmul f.h (f.fltMods ty rm) d a b)
  | 0x23 => do
    f.named 0x0006#14
    let ty ← f.ty
    let rm ← f.rm
    f.three (fun d a b c => .fmac f.h (f.fltMods ty rm) d a b c)
  | 0x24 => do
    f.zero 0x0087#14
    f.named 0x0300#14
    let ty ← f.ty
    let rm ← f.rm
    f.two (fun d a b => .fmin f.h (f.fltMods ty rm) d a b)
  | 0x25 => do
    f.zero 0x0087#14
    f.named 0x0300#14
    let ty ← f.ty
    let rm ← f.rm
    f.two (fun d a b => .fmax f.h (f.fltMods ty rm) d a b)
  | 0x26 => do
    f.zero 0x0007#14
    opCheck (!(f.mod.getLsbD 6 && f.c == noneCode))
    let ty ← f.ty
    f.three (fun d a b c => .fcmp f.h (f.cmpMods ty) d a b c)
  | 0x27 => do
    f.zero 0x03ff#14
    let ty ← f.ty
    operandCheck (ty == .f32)
    f.one (fun d a => .fclass f.h d a)
  | 0x28 => do
    f.zero 0x00a8#14
    f.named 0x0007#14
    let ty ← f.ty
    let rm ← f.rm
    operandCheck (ty == .f32)
    f.one (fun d a => .frcp f.h rm (f.mod.getLsbD 6) (f.mod.getLsbD 4) d a)
  | 0x29 => do
    f.zero 0x00a8#14
    f.named 0x0007#14
    let ty ← f.ty
    let rm ← f.rm
    operandCheck (ty == .f32)
    f.one (fun d a => .frsq f.h rm (f.mod.getLsbD 6) (f.mod.getLsbD 4) d a)
  | 0x2a => do
    f.zero 0x00a8#14
    f.named 0x0007#14
    let ty ← f.ty
    let rm ← f.rm
    operandCheck (ty == .f32)
    f.one (fun d a => .fsqrt f.h rm (f.mod.getLsbD 6) (f.mod.getLsbD 4) d a)
  | 0x2b => do
    f.zero 0x00a8#14
    f.named 0x0007#14
    let ty ← f.ty
    let rm ← f.rm
    operandCheck (ty == .f32)
    f.one (fun d a => .fexp2 f.h rm (f.mod.getLsbD 6) (f.mod.getLsbD 4) d a)
  | 0x2c => do
    f.zero 0x00a8#14
    f.named 0x0007#14
    let ty ← f.ty
    let rm ← f.rm
    operandCheck (ty == .f32)
    f.one (fun d a => .flog2 f.h rm (f.mod.getLsbD 6) (f.mod.getLsbD 4) d a)
  | 0x2d => do
    f.zero 0x00a8#14
    f.named 0x0007#14
    let ty ← f.ty
    let rm ← f.rm
    operandCheck (ty == .f32)
    f.one (fun d a => .ftanh f.h rm (f.mod.getLsbD 6) (f.mod.getLsbD 4) d a)
  | 0x2e => do
    f.named 0x0007#14
    let ty ← f.ty
    let rm ← f.rm
    f.three (fun d a b c => .fdot2 f.h (f.fltMods ty rm) d a b c)
  | 0x2f => do
    f.zero 0x002f#14
    let ty ← f.ty
    let rm ← f.rm
    operandCheck (ty == .f32)
    f.two (fun d a b => .fscale f.h rm (f.mod.getLsbD 7) (f.mod.getLsbD 6) (f.mod.getLsbD 4) d a b)
  | 0x30 => do
    let ty ← f.ty
    let rm ← f.rm
    let tyd ← enumField (Ty.ofCode (f.mod.extractLsb' 3 4))
    f.three (fun d a b c => .cvt f.h { tys := ty, rm := rm, sat := f.mod.getLsbD 7, tyd := tyd, ei := f.x.toFin } d a b c)
  | 0x31 => do
    f.zero 0x007e#14
    opCheck (!(f.mod.getLsbD 0 && (match Ty.ofCode (f.mod.extractLsb' 10 4) with | some t => t.count == 2 | none => false)))
    let ty ← f.ty
    let rm ← f.rm
    f.three (fun d a b c => .cvtpk f.h ty rm (f.mod.getLsbD 7) (f.mod.getLsbD 0) d a b c)
  | 0x32 => do
    f.zero 0x0006#14
    let ty ← f.ty
    let rm ← f.rm
    let tyd ← enumField (Ty.ofCode (f.mod.extractLsb' 3 4))
    f.one (fun d a => .cvtx f.h ty rm (f.mod.getLsbD 7) tyd (f.mod.getLsbD 0) d a)
  | 0x33 => do
    f.zero 0x00f8#14
    let ty ← f.ty
    let rm ← f.rm
    f.two (fun d a b => .qdec f.h ty rm f.x.toFin d a b)
  | 0x34 => do
    f.zero 0x00f8#14
    f.named 0x0300#14
    let ty ← f.ty
    operandCheck (ty == .f32)
    f.three (fun d a b c => .qenc f.h f.x.toFin d a b c)
  | 0x35 => do
    f.zero 0x0007#14
    noneField f.d
    let pa ← predField f.a
    let pb ← predField f.b
    let pc ← predField f.c
    .ok (.plut f.h (f.mod.extractLsb' 6 8) (f.mod.extractLsb' 3 3).toFin pa pb pc)
  | 0x36 => do
    f.zero 0x3c06#14
    noneField f.b
    noneField f.c
    if f.mod.getLsbD 0 then do
      noneField f.d
      let a ← opnd f.a
      .ok (.pmovW f.h (f.mod.extractLsb' 3 7) a)
    else do
      operandCheck (f.mod.extractLsb' 3 7 == 0#7)
      noneField f.a
      let d ← opnd f.d
      .ok (.pmov f.h d)
  | 0x38 => do
    f.zero 0x03f8#14
    let ty ← f.ty
    let mode ← enumField (XchgMode.ofCode f.x)
    f.two (fun d a b => .xchg f.h ty mode d a b)
  | 0x39 => do
    f.zero 0x03ff#14
    let ty ← f.ty
    f.two (fun d a b => .xperm f.h ty d a b)
  | 0x3a => do
    f.zero 0x03ff#14
    let ty ← f.ty
    f.two (fun d a b => .xbcast f.h ty d a b)
  | 0x3b => do
    f.zero 0x0078#14
    opCheck (!(f.mod.getLsbD 7 && f.x != 0#3))
    let ty ← f.ty
    let rm ← f.rm
    let op ← finBelow 6 f.x
    f.one (fun d a => .xred f.h { ty := ty, rm := rm, sat := f.mod.getLsbD 7, exc := false, op := op } d a)
  | 0x3c => do
    f.zero 0x0038#14
    opCheck (!(f.mod.getLsbD 7 && f.x != 0#3))
    let ty ← f.ty
    let rm ← f.rm
    let op ← finBelow 6 f.x
    f.two (fun d a b => .xscan f.h { ty := ty, rm := rm, sat := f.mod.getLsbD 7, exc := f.mod.getLsbD 6, op := op } d a b)
  | 0x3d => do
    f.zero 0x03f8#14
    let ty ← f.ty
    operandCheck (ty == .i32)
    let x ← finBelow 2 f.x
    f.one (fun d a => .xballot f.h (x == 1) d a)
  | 0x3e => do
    f.zero 0x03f8#14
    let ty ← f.ty
    let x ← finBelow 2 f.x
    f.one (fun d a => .xmatch f.h ty (x == 1) d a)
  | 0x3f => do
    f.zero 0x3fff#14
    f.two (fun d a b => .xread f.h d a b)
  | 0x40 => do
    f.zero 0x3fff#14
    f.two (fun d a b => .xwrite f.h d a b)
  | _ => .error .illegalOp

/-- The VL words (R85): every instruction with exactly two sources. LF = 1 on any other is ILLEGAL_OP. -/
def parseVl (op : Nat) (h : Head) (dc ac : BitVec 9) (lit : Word) : Dec Instr := do
  let k : Head → Operand → Operand → Word → Instr ← (match op with
    | 0x00 => .ok .iaddVl
    | 0x01 => .ok .isubVl
    | 0x02 => .ok .imulVl
    | 0x03 => .ok .imulhiVl
    | 0x05 => .ok .iminVl
    | 0x06 => .ok .imaxVl
    | 0x08 => .ok .shlVl
    | 0x09 => .ok .shrVl
    | 0x0a => .ok .sarVl
    | 0x0b => .ok .andVl
    | 0x0c => .ok .orVl
    | 0x0d => .ok .xorVl
    | 0x12 => .ok .bfeVl
    | 0x18 => .ok .leaVl
    | 0x19 => .ok .iadd64Vl
    | 0x20 => .ok .faddVl
    | 0x21 => .ok .fsubVl
    | 0x22 => .ok .fmulVl
    | 0x24 => .ok .fminVl
    | 0x25 => .ok .fmaxVl
    | 0x2f => .ok .fscaleVl
    | 0x33 => .ok .qdecVl
    | 0x38 => .ok .xchgVl
    | 0x39 => .ok .xpermVl
    | 0x3a => .ok .xbcastVl
    | 0x3c => .ok .xscanVl
    | 0x3f => .ok .xreadVl
    | 0x40 => .ok .xwriteVl
    | _ => .error .illegalOp)
  let d ← opnd dc
  let a ← opnd ac
  .ok (k h d a lit)

/-- The fields of an M word (R86). -/
structure MW where
  h : Head
  la : BitVec 4
  spsz : BitVec 5
  ord : BitVec 2
  sc : BitVec 3
  rmt : BitVec 1
  d : BitVec 9
  base : BitVec 9
  data : BitVec 9
  ofs : BitVec 9
  deriving DecidableEq, Repr, Inhabited

/-- SP, bits 46:45, which must match the table of R171. -/
def MW.sp (f : MW) (n : BitVec 2) : Dec Unit := operandCheck (f.spsz.extractLsb' 3 2 == n)

/-- SZ, bits 44:42. -/
def MW.sz (f : MW) : Dec Sz := enumField (Sz.ofCode (f.spsz.extractLsb' 0 3))

/-- LA, ORD, SC and RMT. -/
def MW.mods (f : MW) : Dec MemMods := do
  let ord ← enumField (Ord.ofCode f.ord)
  let sc ← enumField (Scope.ofCode f.sc)
  .ok { la := f.la.toFin, ord := ord, sc := sc, rmt := f.rmt == 1#1 }

/-- LA 0, ORD relaxed, SC 0 and RMT 0 (R87, R171, R174). -/
def MW.plain (f : MW) (la : Bool) : Dec Unit :=
  operandCheck ((la || f.la == 0#4) && f.ord == 0#2 && f.sc == 0#3 && f.rmt == 0#1)

/-- The M words (R171). -/
def parseM (op : Nat) (f : MW) : Dec Instr :=
  match op with
  | 0x60 => do
    f.sp 0#2
    let sz ← f.sz
    let m ← f.mods
    noneField f.data
    let d ← opnd f.d
    let base ← opnd f.base
    .ok (.ld f.h m sz d base f.ofs)
  | 0x61 => do
    f.sp 0#2
    let sz ← f.sz
    let m ← f.mods
    noneField f.d
    let base ← opnd f.base
    let data ← opnd f.data
    .ok (.st f.h m sz base data f.ofs)
  | 0x62 => do
    f.sp 1#2
    let sz ← f.sz
    f.plain true
    noneField f.data
    let d ← opnd f.d
    let base ← opnd f.base
    .ok (.ldk f.h f.la.toFin sz d base f.ofs)
  | 0x63 => do
    f.sp 1#2
    let sz ← f.sz
    f.plain false
    noneField f.d
    let base ← opnd f.base
    let data ← opnd f.data
    .ok (.stk f.h sz base data f.ofs)
  | 0x64 => do
    let aop ← enumField (Aop.ofCode f.spsz)
    let m ← f.mods
    let d ← opnd f.d
    let base ← opnd f.base
    let data ← opnd f.data
    .ok (.atom f.h m aop d base data f.ofs)
  | 0x65 => do
    let aop ← enumField (Aop.ofCode f.spsz)
    let m ← f.mods
    noneField f.d
    let base ← opnd f.base
    let data ← opnd f.data
    .ok (.red f.h m aop base data f.ofs)
  | 0x66 => do
    f.sp 0#2
    let sz ← f.sz
    let m ← f.mods
    let d ← opnd f.d
    let base ← opnd f.base
    let data ← opnd f.data
    let cmp ← opnd f.ofs
    .ok (.cas f.h m sz d base data cmp)
  | 0x67 => do
    opCheck (f.ofs == 0#9)
    operandCheck (f.rmt == 0#1)
    f.sp 0#2
    let kind ← enumField (FenceKind.ofCode (f.spsz.extractLsb' 0 3))
    let m ← f.mods
    operandCheck (f.la == 0#4)
    noneField f.d
    noneField f.base
    noneField f.data
    .ok (.fence f.h kind m.ord m.sc)
  | 0x68 => do
    f.sp 0#2
    operandCheck (f.spsz.extractLsb' 0 3 == 0#3)
    let m ← f.mods
    noneField f.data
    let d ← opnd f.d
    let base ← opnd f.base
    .ok (.probe f.h m d base f.ofs)
  | _ => .error .illegalOp

/-- The fields of an X word (R86). -/
structure XW where
  h : Head
  la : BitVec 4
  bar : BitVec 5
  kind : BitVec 6
  d : BitVec 9
  sr : BitVec 9
  aux : BitVec 9
  aux2 : BitVec 9
  deriving DecidableEq, Repr, Inhabited

/-- KIND bits that the entry leaves unused (R86). -/
def XW.zero (f : XW) (mask : BitVec 6) : Dec Unit := opCheck (f.kind &&& mask == 0#6)

/-- LA must be 0 (R184, R192, R201, R224, R230). -/
def XW.la0 (f : XW) : Dec Unit := operandCheck (f.la == 0#4)

/-- The bank-unit commands take no barrier (R192). -/
def XW.bar31 (f : XW) : Dec Unit := operandCheck (f.bar == 31#5)

/-- The X words (R184, R192, R201, R224, R229, R230). -/
def parseX (op : Nat) (f : XW) : Dec Instr :=
  match op with
  | 0x80 => do
    f.la0
    let bar ← barField f.bar
    let sz ← finBelow 3 (f.kind.extractLsb' 4 2)
    let dir ← enumField (Dir.ofCode (f.kind.extractLsb' 1 3))
    noneField f.aux
    noneField f.aux2
    let d ← opnd f.d
    let sr ← opnd f.sr
    .ok (.cpy f.h sz dir (f.kind.getLsbD 0) d sr bar)
  | 0x81 => do
    f.zero 0x0e#6
    f.la0
    let bar ← barField f.bar
    let sz ← finBelow 3 (f.kind.extractLsb' 4 2)
    noneField f.aux2
    let d ← opnd f.d
    let sr ← opnd f.sr
    let g ← opnd f.aux
    .ok (.cpymc f.h sz (f.kind.getLsbD 0) d sr g bar)
  | 0x82 => do
    f.la0
    f.bar31
    let ty ← enumField (NmTy.ofCode (f.kind.extractLsb' 3 2))
    let len ← finBelow 7 (f.kind.extractLsb' 0 3)
    noneField f.aux
    noneField f.aux2
    let y ← opnd f.d
    let sr ← opnd f.sr
    .ok (.nmadd f.h ty len (f.kind.getLsbD 5) y sr)
  | 0x83 => do
    f.la0
    f.bar31
    let ty ← enumField (NmTy.ofCode (f.kind.extractLsb' 3 2))
    let len ← finBelow 7 (f.kind.extractLsb' 0 3)
    noneField f.aux
    noneField f.aux2
    let y ← opnd f.d
    let sr ← opnd f.sr
    .ok (.nmmax f.h ty len (f.kind.getLsbD 5) y sr)
  | 0x84 => do
    f.zero 0x3f#6
    f.la0
    f.bar31
    let y ← opnd f.d
    let x ← opnd f.sr
    let a ← opnd f.aux
    let n ← opnd f.aux2
    .ok (.nmaxpy f.h y x a n)
  | 0x85 => do
    f.zero 0x0f#6
    f.la0
    f.bar31
    noneField f.aux
    noneField f.aux2
    let w ← opnd f.d
    let q ← opnd f.sr
    .ok (.nmstep f.h (f.kind.getLsbD 5) (f.kind.getLsbD 4) w q)
  | 0x86 => do
    f.zero 0x3f#6
    f.la0
    let bar ← barField f.bar
    noneField f.d
    noneField f.sr
    noneField f.aux
    noneField f.aux2
    .ok (.nmfence f.h bar)
  | 0x87 => do
    f.zero 0x07#6
    f.la0
    let bar ← finBelow 16 f.bar
    noneField f.d
    let base ← opnd f.sr
    let len ← opnd f.aux
    let nb ← opnd f.aux2
    .ok (.rstripe f.h (f.kind.getLsbD 5) (f.kind.extractLsb' 3 2).toFin base len nb bar)
  | 0x88 => do
    f.zero 0x1f#6
    f.la0
    let bar ← barField f.bar
    let r ← opnd f.d
    let c ← opnd f.sr
    let w ← opnd f.aux
    let m ← opnd f.aux2
    .ok (.qpost f.h (f.kind.getLsbD 5) r c w m bar)
  | 0x89 => do
    f.zero 0x3f#6
    let bar ← barField f.bar
    noneField f.aux2
    let d ← opnd f.d
    let g ← opnd f.sr
    let m ← opnd f.aux
    .ok (.qsync f.h f.la.toFin d g m bar)
  | 0x8a => do
    f.la0
    let bar ← barField f.bar
    let n ← finBelow 17 (f.kind.extractLsb' 0 5)
    noneField f.aux2
    let t ← opnd f.d
    let sr ← opnd f.sr
    let hd ← opnd f.aux
    .ok (.amsg f.h (f.kind.getLsbD 5) n t sr hd bar)
  | _ => .error .illegalOp

/-- The fields of a T word (R86, R207). -/
structure TW where
  h : Head
  la : BitVec 4
  ta : BitVec 4
  tb : BitVec 4
  fl : BitVec 12
  ab : BitVec 9
  x : BitVec 9
  y : BitVec 9
  deriving DecidableEq, Repr, Inhabited

/-- TA, TB and FL bits shown as 0 in R207. -/
def TW.zero (f : TW) (ta tb : Bool) (mask : BitVec 12) : Dec Unit :=
  opCheck ((ta || f.ta == 0#4) && (tb || f.tb == 0#4) && f.fl &&& mask == 0#12)

/-- Only ACCLD writes a register, so LA is 0 elsewhere (R87, R207). -/
def TW.la0 (f : TW) : Dec Unit := operandCheck (f.la == 0#4)

/-- The T words (R207). -/
def parseT (op : Nat) (f : TW) : Dec Instr :=
  match op with
  | 0xa0 => do
    f.zero true false 0x0ff#12
    f.la0
    let fmt ← enumField (Fmt.ofCode (f.fl.extractLsb' 8 4))
    let sc ← opnd f.ab
    let r ← opnd f.x
    let c ← opnd f.y
    .ok (.tcfg f.h f.ta.toFin fmt sc r c)
  | 0xa1 => do
    f.zero true false 0xfff#12
    f.la0
    noneField f.ab
    noneField f.x
    noneField f.y
    .ok (.trel f.h f.ta.toFin)
  | 0xa2 => do
    f.zero true false 0x003#12
    f.la0
    noneField f.ab
    let bar ← barField (f.fl.extractLsb' 7 5)
    let part ← enumField (TilePart.ofCode (f.fl.extractLsb' 5 2))
    let ch ← finBelow 6 (f.fl.extractLsb' 2 3)
    let a ← opnd f.x
    let o ← opnd f.y
    .ok (.tld f.h f.ta.toFin bar part ch a o)
  | 0xa3 => do
    f.zero true false 0x063#12
    f.la0
    noneField f.ab
    let bar ← barField (f.fl.extractLsb' 7 5)
    let ch ← finBelow 6 (f.fl.extractLsb' 2 3)
    let a ← opnd f.x
    let o ← opnd f.y
    .ok (.tst f.h f.ta.toFin bar ch a o)
  | 0xa4 => do
    f.zero true false 0xfff#12
    f.la0
    noneField f.ab
    noneField f.x
    noneField f.y
    .ok (.tzero f.h f.ta.toFin)
  | 0xa5 => do
    f.zero true true 0x3ff#12
    f.la0
    let n ← opnd f.ab
    let x ← opnd f.x
    let y ← opnd f.y
    .ok (.mma f.h f.ta.toFin f.tb.toFin (f.fl.getLsbD 11) (f.fl.getLsbD 10) n x y)
  | 0xa6 => do
    f.zero false false 0x000#12
    let d ← opnd (f.fl.extractLsb' 3 9)
    let w ← finBelow 6 (f.fl.extractLsb' 0 3)
    let n ← opnd f.ab
    let r ← opnd f.x
    let c ← opnd f.y
    .ok (.accld f.h f.la.toFin w d n r c)
  | 0xa7 => do
    f.zero false false 0x000#12
    f.la0
    let v ← opnd (f.fl.extractLsb' 3 9)
    let w ← finBelow 6 (f.fl.extractLsb' 0 3)
    let n ← opnd f.ab
    let r ← opnd f.x
    let c ← opnd f.y
    .ok (.accst f.h w v n r c)
  | 0xa8 => do
    f.zero false false 0xfff#12
    f.la0
    noneField f.y
    let n ← opnd f.ab
    let cnt ← opnd f.x
    .ok (.accz f.h n cnt)
  | 0xa9 => do
    f.zero false false 0x000#12
    f.la0
    let fmt ← enumField (Fmt.ofCode (f.fl.extractLsb' 8 4))
    let rm ← enumField (Rm.ofCode (f.fl.extractLsb' 6 2))
    let bar ← barField (f.fl.extractLsb' 0 5)
    let n ← opnd f.ab
    let a ← opnd f.x
    let sc ← opnd f.y
    .ok (.acccvt f.h fmt rm (f.fl.getLsbD 5) bar n a sc)
  | _ => .error .illegalOp

/-- The fields of a C or S word (R86, R136). -/
structure CW where
  h : Head
  kx : BitVec 5
  fl : BitVec 4
  sa : BitVec 9
  sb : BitVec 9
  imm : BitVec 24
  deriving DecidableEq, Repr, Inhabited

/-- KX, FL and IMM bits shown as "—" or 0 in R136. -/
def CW.zero (f : CW) (kx : BitVec 5) (fl : BitVec 4) (imm : BitVec 24) : Dec Unit :=
  opCheck (f.kx &&& kx == 0#5 && f.fl &&& fl == 0#4 && f.imm &&& imm == 0#24)

/-- SA and SB both unused. -/
def CW.noOps (f : CW) : Dec Unit := operandCheck (f.sa == noneCode && f.sb == noneCode)

/-- The C and S words (R136). -/
def parseC (op : Nat) (f : CW) : Dec Instr :=
  match op with
  | 0xd0 => do
    f.zero 0x1f#5 0xf#4 0x000000#24
    f.noOps
    .ok (.bra f.h f.imm)
  | 0xd1 => do
    f.zero 0x1f#5 0xf#4 0xffffff#24
    noneField f.sb
    let a ← opnd f.sa
    .ok (.brx f.h a)
  | 0xd2 => do
    f.zero 0x1f#5 0xf#4 0x000000#24
    noneField f.sa
    let b ← opnd f.sb
    .ok (.call f.h b f.imm)
  | 0xd3 => do
    f.zero 0x1f#5 0xf#4 0xffffff#24
    noneField f.sb
    let a ← opnd f.sa
    .ok (.ret f.h a)
  | 0xd4 => do
    f.zero 0x00#5 0xf#4 0x000000#24
    f.noOps
    .ok (.join f.h f.kx.toFin f.imm)
  | 0xd5 => do
    f.zero 0x00#5 0xf#4 0xffffff#24
    f.noOps
    .ok (.waitj f.h f.kx.toFin)
  | 0xd6 => do
    f.zero 0x1f#5 0xf#4 0xffffff#24
    f.noOps
    .ok (.exit f.h)
  | 0xd7 => do
    f.zero 0x1f#5 0xf#4 0xffffff#24
    f.noOps
    .ok (.yield f.h)
  | 0xd8 => do
    f.zero 0x1f#5 0x8#4 0xffffff#24
    noneField f.sa
    let b ← opnd f.sb
    .ok (.elect f.h (f.fl.extractLsb' 0 3).toFin b)
  | 0xd9 => do
    f.zero 0x1f#5 0xf#4 0xffffff#24
    noneField f.sb
    let a ← opnd f.sa
    .ok (.syncm f.h a)
  | 0xda => do
    f.zero 0x00#5 0xf#4 0xffffff#24
    noneField f.sb
    let k ← finBelow 16 f.kx
    let a ← opnd f.sa
    .ok (.binit f.h k a)
  | 0xdb => do
    f.zero 0x00#5 0xf#4 0xffffff#24
    noneField f.sb
    let k ← finBelow 16 f.kx
    let a ← opnd f.sa
    .ok (.barv f.h k a)
  | 0xdc => do
    f.zero 0x00#5 0x8#4 0xffffff#24
    noneField f.sb
    let k ← finBelow 16 f.kx
    let a ← opnd f.sa
    .ok (.bwait f.h k (f.fl.extractLsb' 0 3).toFin a)
  | 0xdd => do
    f.zero 0x00#5 0xf#4 0xffffff#24
    noneField f.sb
    let k ← finBelow 16 f.kx
    let a ← opnd f.sa
    .ok (.bexp f.h k a)
  | 0xde => do
    f.zero 0x00#5 0xe#4 0xffffff#24
    f.noOps
    let k ← finBelow 16 f.kx
    .ok (.binv f.h k (f.fl.getLsbD 0))
  | 0xdf => do
    f.zero 0x1f#5 0xc#4 0xffffff#24
    f.noOps
    .ok (.gsize f.h (f.fl.extractLsb' 0 2).toFin)
  | 0xe0 => do
    f.zero 0x1c#5 0xf#4 0x000000#24
    let a ← opnd f.sa
    let b ← opnd f.sb
    .ok (.spawn f.h (f.kx.extractLsb' 0 2).toFin a b f.imm)
  | 0xe1 => do
    f.zero 0x1f#5 0xf#4 0xffffff#24
    let a ← opnd f.sa
    let b ← opnd f.sb
    .ok (.launch f.h a b)
  | 0xe2 => do
    f.zero 0x1f#5 0xf#4 0x000000#24
    f.noOps
    .ok (.trap f.h f.imm)
  | 0xe3 => do
    f.zero 0x1f#5 0xf#4 0x000000#24
    f.noOps
    .ok (.bkpt f.h f.imm)
  | 0xe4 => do
    f.zero 0x1f#5 0xf#4 0xffffff#24
    f.noOps
    .ok (.nop f.h)
  | 0xe5 => do
    f.zero 0x1f#5 0xc#4 0xffffff#24
    f.noOps
    let m ← enumField (TretMode.ofCode (f.fl.extractLsb' 0 2))
    .ok (.tret f.h m)
  | 0xf0 => do
    f.zero 0x1f#5 0xf#4 0xfff000#24
    noneField f.sa
    let b ← opnd f.sb
    .ok (.csrrd f.h b (f.imm.extractLsb' 0 12))
  | 0xf1 => do
    f.zero 0x1f#5 0xf#4 0xfff000#24
    noneField f.sb
    let a ← opnd f.sa
    .ok (.csrwr f.h a (f.imm.extractLsb' 0 12))
  | 0xf2 => do
    f.zero 0x1f#5 0xf#4 0xffffff#24
    let a ← opnd f.sa
    let b ← opnd f.sb
    .ok (.cdstart f.h a b)
  | 0xf3 => do
    f.zero 0x1f#5 0xf#4 0xffffff#24
    f.noOps
    .ok (.cdstop f.h)
  | 0xf4 => do
    f.zero 0x1f#5 0xf#4 0xffffff#24
    noneField f.sb
    let a ← opnd f.sa
    .ok (.replay f.h a)
  | 0xf5 => do
    f.zero 0x1f#5 0xe#4 0xffffff#24
    noneField f.sb
    let a ← opnd f.sa
    .ok (.cancel f.h (f.fl.getLsbD 0) a)
  | 0xf6 => do
    f.zero 0x1f#5 0xc#4 0xffffff#24
    let k ← enumField (TlbKind.ofCode (f.fl.extractLsb' 0 2))
    let a ← opnd f.sa
    let b ← opnd f.sb
    .ok (.tlbinv f.h k a b)
  | 0xf7 => do
    f.zero 0x1f#5 0xf#4 0xffffff#24
    noneField f.sb
    let a ← opnd f.sa
    .ok (.preempt f.h a)
  | 0xf8 => do
    f.zero 0x1f#5 0xf#4 0xffffff#24
    let a ← opnd f.sa
    let b ← opnd f.sb
    .ok (.trace f.h a b)
  | 0xf9 => do
    f.zero 0x1f#5 0xe#4 0xffffff#24
    let a ← opnd f.sa
    let b ← opnd f.sb
    .ok (.mcgset f.h (f.fl.getLsbD 0) a b)
  | _ => .error .illegalOp

/-- Bits 63:56, the major opcode (R75). -/
def opOf (w : DWord) : Nat := (w.extractLsb' 56 8).toNat

/-- The class of a word by its opcode range (R91). -/
inductive OpClass where
  | vec | mem | xfer | tile | ctrl | sys
  deriving DecidableEq, Repr, Inhabited

/-- The class ranges of R91; 0xC0 to 0xCF belong to none. -/
def classOf (op : Nat) : Option OpClass :=
  if op < 0x60 then some .vec
  else if op < 0x80 then some .mem
  else if op < 0xa0 then some .xfer
  else if op < 0xc0 then some .tile
  else if op < 0xd0 then none
  else if op < 0xf0 then some .ctrl
  else some .sys

/-- A word read field by field, before the limits of R81. -/
def parse (w : DWord) : Dec Instr :=
  let op := opOf w
  let h := Head.ofBits (w.extractLsb' 51 5)
  match classOf op with
  | some .vec =>
      if w.getLsbD 50 then parseVl op h (w.extractLsb' 41 9) (w.extractLsb' 32 9) (w.extractLsb' 0 32)
      else parseV3 op { h := h, mod := w.extractLsb' 36 14, d := w.extractLsb' 27 9,
                        a := w.extractLsb' 18 9, b := w.extractLsb' 9 9, c := w.extractLsb' 0 9 }
  | some .mem =>
      parseM op { h := h, la := w.extractLsb' 47 4, spsz := w.extractLsb' 42 5,
                  ord := w.extractLsb' 40 2, sc := w.extractLsb' 37 3, rmt := w.extractLsb' 36 1,
                  d := w.extractLsb' 27 9, base := w.extractLsb' 18 9, data := w.extractLsb' 9 9,
                  ofs := w.extractLsb' 0 9 }
  | some .xfer =>
      parseX op { h := h, la := w.extractLsb' 47 4, bar := w.extractLsb' 42 5,
                  kind := w.extractLsb' 36 6, d := w.extractLsb' 27 9, sr := w.extractLsb' 18 9,
                  aux := w.extractLsb' 9 9, aux2 := w.extractLsb' 0 9 }
  | some .tile =>
      parseT op { h := h, la := w.extractLsb' 47 4, ta := w.extractLsb' 43 4,
                  tb := w.extractLsb' 39 4, fl := w.extractLsb' 27 12, ab := w.extractLsb' 18 9,
                  x := w.extractLsb' 9 9, y := w.extractLsb' 0 9 }
  | some .ctrl | some .sys =>
      parseC op { h := h, kx := w.extractLsb' 46 5, fl := w.extractLsb' 42 4,
                  sa := w.extractLsb' 33 9, sb := w.extractLsb' 24 9, imm := w.extractLsb' 0 24 }
  | none => .error .illegalOp

/-- The decoder: every 64-bit word is an instruction, ILLEGAL_OP or ILLEGAL_OPERAND (R95, R96). -/
def decodeWord (w : DWord) : Dec Instr :=
  match parse w with
  | .error e => .error e
  | .ok i => if i.wf then .ok i else .error .illegalOperand

/-- A word from its eight bytes, lowest address first (R9, R67). -/
def wordOfBytes (bs : List Byte) : DWord :=
  BitVec.ofNat 64 (bs.foldr (fun b acc => b.toNat + 256 * acc) 0)

/-- The eight bytes of a word, lowest address first (R9, R67). -/
def bytesOfWord (w : DWord) : List Byte :=
  (List.range 8).map (fun i => w.extractLsb' (8 * i) 8)

/-- The decoder on any bytes: fewer than eight are no word (R67). The rest of the bytes is returned. -/
def decodeBytes (bs : List Byte) : Option (Dec Instr × List Byte) :=
  if bs.length < 8 then none else some (decodeWord (wordOfBytes (bs.take 8)), bs.drop 8)

/-- The instruction of a word numbered as spec/opcode_table.json numbers its bits. -/
def decodeTableWord (nbits w : Nat) : Option Instr :=
  match decodeBytes (bytesOfWord (BitVec.ofNat 64 (w % 2 ^ nbits))) with
  | some (.ok i, _) => some i
  | _ => none

/-- An operand as its specifier. -/
abbrev cd (o : Operand) : BitVec 9 := o.code

/-- A small number as a field. -/
abbrev fld {m : Nat} (n : Nat) (x : Fin m) : BitVec n := BitVec.ofNat n x.val

/-- The encoder, one line per row of R93 (zero for an event, which has no word). -/
def encode : Instr → DWord
  | .iadd h m d a b =>
      packV3 0x00#8 h m.bits (cd d) (cd a) (cd b) noneCode
  | .isub h m d a b =>
      packV3 0x01#8 h m.bits (cd d) (cd a) (cd b) noneCode
  | .imul h m d a b =>
      packV3 0x02#8 h m.bits (cd d) (cd a) (cd b) noneCode
  | .imulhi h m d a b =>
      packV3 0x03#8 h m.bits (cd d) (cd a) (cd b) noneCode
  | .imin h m d a b =>
      packV3 0x05#8 h m.bits (cd d) (cd a) (cd b) noneCode
  | .imax h m d a b =>
      packV3 0x06#8 h m.bits (cd d) (cd a) (cd b) noneCode
  | .iadd64 h m d a b =>
      packV3 0x19#8 h m.bits (cd d) (cd a) (cd b) noneCode
  | .imad h m d a b c =>
      packV3 0x04#8 h m.bits (cd d) (cd a) (cd b) (cd c)
  | .iabs h ty sat d a =>
      packV3 0x07#8 h (packMod ty.code 0#2 sat false false false false 0#3) (cd d) (cd a) noneCode noneCode
  | .shl h ty d a n =>
      packV3 0x08#8 h (tyMod ty) (cd d) (cd a) (cd n) noneCode
  | .shr h ty d a n =>
      packV3 0x09#8 h (tyMod ty) (cd d) (cd a) (cd n) noneCode
  | .sar h ty d a n =>
      packV3 0x0a#8 h (tyMod ty) (cd d) (cd a) (cd n) noneCode
  | .bfe h ty d a n =>
      packV3 0x12#8 h (tyMod ty) (cd d) (cd a) (cd n) noneCode
  | .and h ty na nb d a b =>
      packV3 0x0b#8 h (packMod ty.code 0#2 false na nb false false 0#3) (cd d) (cd a) (cd b) noneCode
  | .or h ty na nb d a b =>
      packV3 0x0c#8 h (packMod ty.code 0#2 false na nb false false 0#3) (cd d) (cd a) (cd b) noneCode
  | .xor h ty na nb d a b =>
      packV3 0x0d#8 h (packMod ty.code 0#2 false na nb false false 0#3) (cd d) (cd a) (cd b) noneCode
  | .lut3 h lut d a b c =>
      packV3 0x0e#8 h (lut ++ 0#6) (cd d) (cd a) (cd b) (cd c)
  | .popc h ty d a =>
      packV3 0x0f#8 h (tyMod ty) (cd d) (cd a) noneCode noneCode
  | .clz h ty d a =>
      packV3 0x10#8 h (tyMod ty) (cd d) (cd a) noneCode noneCode
  | .brev h ty d a =>
      packV3 0x11#8 h (tyMod ty) (cd d) (cd a) noneCode noneCode
  | .bfi h d a b f =>
      packV3 0x13#8 h (tyMod .i32) (cd d) (cd a) (cd b) (cd f)
  | .iaddc h pd d a b c =>
      packV3 0x14#8 h (Ty.code .n32 ++ (0#4 ++ (fld 3 pd ++ 0#3))) (cd d) (cd a) (cd b) (cd c)
  | .icmp h m d a b c =>
      packV3 0x15#8 h (packCmp m) (cd d) (cd a) (cd b) (cd c)
  | .icmp64 h m d a b c =>
      packV3 0x1a#8 h (packCmp m) (cd d) (cd a) (cd b) (cd c)
  | .fcmp h m d a b c =>
      packV3 0x26#8 h (packCmp m) (cd d) (cd a) (cd b) (cd c)
  | .sel h ty d a b c =>
      packV3 0x16#8 h (tyMod ty) (cd d) (cd a) (cd b) (cd c)
  | .mov h d a =>
      packV3 0x17#8 h 0#14 (cd d) (cd a) noneCode noneCode
  | .lea h ty sh d a b =>
      packV3 0x18#8 h (packMod ty.code 0#2 false false false false false (fld 3 sh)) (cd d) (cd a) (cd b) noneCode
  | .mov64 h d a =>
      packV3 0x1b#8 h (tyMod .i64) (cd d) (cd a) noneCode noneCode
  | .fadd h m d a b =>
      packV3 0x20#8 h m.bits (cd d) (cd a) (cd b) noneCode
  | .fsub h m d a b =>
      packV3 0x21#8 h m.bits (cd d) (cd a) (cd b) noneCode
  | .fmul h m d a b =>
      packV3 0x22#8 h m.bits (cd d) (cd a) (cd b) noneCode
  | .fmin h m d a b =>
      packV3 0x24#8 h m.bits (cd d) (cd a) (cd b) noneCode
  | .fmax h m d a b =>
      packV3 0x25#8 h m.bits (cd d) (cd a) (cd b) noneCode
  | .fmac h m d a b c =>
      packV3 0x23#8 h m.bits (cd d) (cd a) (cd b) (cd c)
  | .fdot2 h m d a b c =>
      packV3 0x2e#8 h m.bits (cd d) (cd a) (cd b) (cd c)
  | .fclass h d a =>
      packV3 0x27#8 h (tyMod .f32) (cd d) (cd a) noneCode noneCode
  | .frcp h rm na aa d a =>
      packV3 0x28#8 h (packMod (Ty.code .f32) rm.code false na false aa false 0#3) (cd d) (cd a) noneCode noneCode
  | .frsq h rm na aa d a =>
      packV3 0x29#8 h (packMod (Ty.code .f32) rm.code false na false aa false 0#3) (cd d) (cd a) noneCode noneCode
  | .fsqrt h rm na aa d a =>
      packV3 0x2a#8 h (packMod (Ty.code .f32) rm.code false na false aa false 0#3) (cd d) (cd a) noneCode noneCode
  | .fexp2 h rm na aa d a =>
      packV3 0x2b#8 h (packMod (Ty.code .f32) rm.code false na false aa false 0#3) (cd d) (cd a) noneCode noneCode
  | .flog2 h rm na aa d a =>
      packV3 0x2c#8 h (packMod (Ty.code .f32) rm.code false na false aa false 0#3) (cd d) (cd a) noneCode noneCode
  | .ftanh h rm na aa d a =>
      packV3 0x2d#8 h (packMod (Ty.code .f32) rm.code false na false aa false 0#3) (cd d) (cd a) noneCode noneCode
  | .fscale h rm sat na aa d a n =>
      packV3 0x2f#8 h (packMod (Ty.code .f32) rm.code sat na false aa false 0#3) (cd d) (cd a) (cd n) noneCode
  | .cvt h m d a sc mg =>
      packV3 0x30#8 h (m.tys.code ++ (m.rm.code ++ (bit1 m.sat ++ (m.tyd.code ++ fld 3 m.ei)))) (cd d) (cd a) (cd sc) (cd mg)
  | .cvtpk h tyd rm sat hi d a b mg =>
      packV3 0x31#8 h (tyd.code ++ (rm.code ++ (bit1 sat ++ (0#6 ++ bit1 hi)))) (cd d) (cd a) (cd b) (cd mg)
  | .cvtx h tys rm sat tyd hi d a =>
      packV3 0x32#8 h (tys.code ++ (rm.code ++ (bit1 sat ++ (tyd.code ++ (0#2 ++ bit1 hi))))) (cd d) (cd a) noneCode noneCode
  | .qdec h tyd rm j d a sc =>
      packV3 0x33#8 h (tyd.code ++ (rm.code ++ (0#5 ++ fld 3 j))) (cd d) (cd a) (cd sc) noneCode
  | .qenc h j d a sg mg =>
      packV3 0x34#8 h (Ty.code .f32 ++ (0#7 ++ fld 3 j)) (cd d) (cd a) (cd sg) (cd mg)
  | .plut h lut pd pa pb pc =>
      packV3 0x35#8 h (lut ++ (fld 3 pd ++ 0#3)) noneCode (predCode pa) (predCode pb) (predCode pc)
  | .pmov h d =>
      packV3 0x36#8 h 0#14 (cd d) noneCode noneCode noneCode
  | .pmovW h mask a =>
      packV3 0x36#8 h (0#4 ++ (mask ++ 1#3)) noneCode (cd a) noneCode noneCode
  | .xchg h ty mode d a m =>
      packV3 0x38#8 h (packMod ty.code 0#2 false false false false false mode.code) (cd d) (cd a) (cd m) noneCode
  | .xperm h ty d a q =>
      packV3 0x39#8 h (tyMod ty) (cd d) (cd a) (cd q) noneCode
  | .xbcast h ty d a q =>
      packV3 0x3a#8 h (tyMod ty) (cd d) (cd a) (cd q) noneCode
  | .xred h m d a =>
      packV3 0x3b#8 h m.bits (cd d) (cd a) noneCode noneCode
  | .xscan h m d a f =>
      packV3 0x3c#8 h m.bits (cd d) (cd a) (cd f) noneCode
  | .xballot h count d a =>
      packV3 0x3d#8 h (packMod (Ty.code .i32) 0#2 false false false false false (0#2 ++ bit1 count)) (cd d) (cd a) noneCode noneCode
  | .xmatch h ty low d a =>
      packV3 0x3e#8 h (packMod ty.code 0#2 false false false false false (0#2 ++ bit1 low)) (cd d) (cd a) noneCode noneCode
  | .xread h d a q =>
      packV3 0x3f#8 h 0#14 (cd d) (cd a) (cd q) noneCode
  | .xwrite h d b q =>
      packV3 0x40#8 h 0#14 (cd d) (cd b) (cd q) noneCode
  | .iaddVl h d a lit =>
      packVl 0x00#8 h (cd d) (cd a) lit
  | .isubVl h d a lit =>
      packVl 0x01#8 h (cd d) (cd a) lit
  | .imulVl h d a lit =>
      packVl 0x02#8 h (cd d) (cd a) lit
  | .imulhiVl h d a lit =>
      packVl 0x03#8 h (cd d) (cd a) lit
  | .iminVl h d a lit =>
      packVl 0x05#8 h (cd d) (cd a) lit
  | .imaxVl h d a lit =>
      packVl 0x06#8 h (cd d) (cd a) lit
  | .shlVl h d a lit =>
      packVl 0x08#8 h (cd d) (cd a) lit
  | .shrVl h d a lit =>
      packVl 0x09#8 h (cd d) (cd a) lit
  | .sarVl h d a lit =>
      packVl 0x0a#8 h (cd d) (cd a) lit
  | .andVl h d a lit =>
      packVl 0x0b#8 h (cd d) (cd a) lit
  | .orVl h d a lit =>
      packVl 0x0c#8 h (cd d) (cd a) lit
  | .xorVl h d a lit =>
      packVl 0x0d#8 h (cd d) (cd a) lit
  | .bfeVl h d a lit =>
      packVl 0x12#8 h (cd d) (cd a) lit
  | .leaVl h d a lit =>
      packVl 0x18#8 h (cd d) (cd a) lit
  | .iadd64Vl h d a lit =>
      packVl 0x19#8 h (cd d) (cd a) lit
  | .faddVl h d a lit =>
      packVl 0x20#8 h (cd d) (cd a) lit
  | .fsubVl h d a lit =>
      packVl 0x21#8 h (cd d) (cd a) lit
  | .fmulVl h d a lit =>
      packVl 0x22#8 h (cd d) (cd a) lit
  | .fminVl h d a lit =>
      packVl 0x24#8 h (cd d) (cd a) lit
  | .fmaxVl h d a lit =>
      packVl 0x25#8 h (cd d) (cd a) lit
  | .fscaleVl h d a lit =>
      packVl 0x2f#8 h (cd d) (cd a) lit
  | .qdecVl h d a lit =>
      packVl 0x33#8 h (cd d) (cd a) lit
  | .xchgVl h d a lit =>
      packVl 0x38#8 h (cd d) (cd a) lit
  | .xpermVl h d a lit =>
      packVl 0x39#8 h (cd d) (cd a) lit
  | .xbcastVl h d a lit =>
      packVl 0x3a#8 h (cd d) (cd a) lit
  | .xscanVl h d a lit =>
      packVl 0x3c#8 h (cd d) (cd a) lit
  | .xreadVl h d a lit =>
      packVl 0x3f#8 h (cd d) (cd a) lit
  | .xwriteVl h d a lit =>
      packVl 0x40#8 h (cd d) (cd a) lit
  | .ld h m sz d base ofs =>
      packM 0x60#8 h (fld 4 m.la) (0#2 ++ sz.code) m.ord.code m.sc.code (bit1 m.rmt) (cd d) (cd base) noneCode ofs
  | .st h m sz base data ofs =>
      packM 0x61#8 h (fld 4 m.la) (0#2 ++ sz.code) m.ord.code m.sc.code (bit1 m.rmt) noneCode (cd base) (cd data) ofs
  | .ldk h la sz d base ofs =>
      packM 0x62#8 h (fld 4 la) (1#2 ++ sz.code) 0#2 0#3 0#1 (cd d) (cd base) noneCode ofs
  | .stk h sz base data ofs =>
      packM 0x63#8 h 0#4 (1#2 ++ sz.code) 0#2 0#3 0#1 noneCode (cd base) (cd data) ofs
  | .atom h m op d base data ofs =>
      packM 0x64#8 h (fld 4 m.la) op.code m.ord.code m.sc.code (bit1 m.rmt) (cd d) (cd base) (cd data) ofs
  | .red h m op base data ofs =>
      packM 0x65#8 h (fld 4 m.la) op.code m.ord.code m.sc.code (bit1 m.rmt) noneCode (cd base) (cd data) ofs
  | .cas h m sz d base data cmp =>
      packM 0x66#8 h (fld 4 m.la) (0#2 ++ sz.code) m.ord.code m.sc.code (bit1 m.rmt) (cd d) (cd base) (cd data) (cd cmp)
  | .fence h kind ord sc =>
      packM 0x67#8 h 0#4 (0#2 ++ kind.code) ord.code sc.code 0#1 noneCode noneCode noneCode 0#9
  | .probe h m d base ofs =>
      packM 0x68#8 h (fld 4 m.la) 0#5 m.ord.code m.sc.code (bit1 m.rmt) (cd d) (cd base) noneCode ofs
  | .cpy h sz dir rel d sr bar =>
      packX 0x80#8 h 0#4 (barCode bar) (fld 2 sz ++ (dir.code ++ bit1 rel)) (cd d) (cd sr) noneCode noneCode
  | .cpymc h sz rel d sr g bar =>
      packX 0x81#8 h 0#4 (barCode bar) (fld 2 sz ++ (0#3 ++ bit1 rel)) (cd d) (cd sr) (cd g) noneCode
  | .nmadd h ty len rel y sr =>
      packX 0x82#8 h 0#4 31#5 (bit1 rel ++ (ty.code ++ fld 3 len)) (cd y) (cd sr) noneCode noneCode
  | .nmmax h ty len rel y sr =>
      packX 0x83#8 h 0#4 31#5 (bit1 rel ++ (ty.code ++ fld 3 len)) (cd y) (cd sr) noneCode noneCode
  | .nmaxpy h y x a n =>
      packX 0x84#8 h 0#4 31#5 0#6 (cd y) (cd x) (cd a) (cd n)
  | .nmstep h zg rel w q =>
      packX 0x85#8 h 0#4 31#5 (bit1 zg ++ (bit1 rel ++ 0#4)) (cd w) (cd q) noneCode noneCode
  | .nmfence h bar =>
      packX 0x86#8 h 0#4 (barCode bar) 0#6 noneCode noneCode noneCode noneCode
  | .rstripe h gathered g base len nb bar =>
      packX 0x87#8 h 0#4 (fld 5 bar) (bit1 gathered ++ (fld 2 g ++ 0#3)) noneCode (cd base) (cd len) (cd nb)
  | .qpost h rel r c w m bar =>
      packX 0x88#8 h 0#4 (barCode bar) (bit1 rel ++ 0#5) (cd r) (cd c) (cd w) (cd m)
  | .qsync h la d g m bar =>
      packX 0x89#8 h (fld 4 la) (barCode bar) 0#6 (cd d) (cd g) (cd m) noneCode
  | .amsg h rel n t sr hd bar =>
      packX 0x8a#8 h 0#4 (barCode bar) (bit1 rel ++ fld 5 n) (cd t) (cd sr) (cd hd) noneCode
  | .tcfg h t fmt sc r c =>
      packT 0xa0#8 h 0#4 (fld 4 t) 0#4 (fmt.code ++ 0#8) (cd sc) (cd r) (cd c)
  | .trel h t =>
      packT 0xa1#8 h 0#4 (fld 4 t) 0#4 0#12 noneCode noneCode noneCode
  | .tld h t bar part ch a o =>
      packT 0xa2#8 h 0#4 (fld 4 t) 0#4 (barCode bar ++ (part.code ++ (fld 3 ch ++ 0#2))) noneCode (cd a) (cd o)
  | .tst h t bar ch a o =>
      packT 0xa3#8 h 0#4 (fld 4 t) 0#4 (barCode bar ++ (0#2 ++ (fld 3 ch ++ 0#2))) noneCode (cd a) (cd o)
  | .tzero h t =>
      packT 0xa4#8 h 0#4 (fld 4 t) 0#4 0#12 noneCode noneCode noneCode
  | .mma h ta tb tra trb n x y =>
      packT 0xa5#8 h 0#4 (fld 4 ta) (fld 4 tb) (bit1 tra ++ (bit1 trb ++ 0#10)) (cd n) (cd x) (cd y)
  | .accld h la w d n r c =>
      packT 0xa6#8 h (fld 4 la) 0#4 0#4 (cd d ++ fld 3 w) (cd n) (cd r) (cd c)
  | .accst h w v n r c =>
      packT 0xa7#8 h 0#4 0#4 0#4 (cd v ++ fld 3 w) (cd n) (cd r) (cd c)
  | .accz h n cnt =>
      packT 0xa8#8 h 0#4 0#4 0#4 0#12 (cd n) (cd cnt) noneCode
  | .acccvt h fmt rm sat bar n a sc =>
      packT 0xa9#8 h 0#4 0#4 0#4 (fmt.code ++ (rm.code ++ (bit1 sat ++ barCode bar))) (cd n) (cd a) (cd sc)
  | .bra h off =>
      packC 0xd0#8 h 0#5 0#4 noneCode noneCode off
  | .brx h a =>
      packC 0xd1#8 h 0#5 0#4 (cd a) noneCode 0#24
  | .call h d off =>
      packC 0xd2#8 h 0#5 0#4 noneCode (cd d) off
  | .ret h a =>
      packC 0xd3#8 h 0#5 0#4 (cd a) noneCode 0#24
  | .join h k off =>
      packC 0xd4#8 h (fld 5 k) 0#4 noneCode noneCode off
  | .waitj h k =>
      packC 0xd5#8 h (fld 5 k) 0#4 noneCode noneCode 0#24
  | .exit h =>
      packC 0xd6#8 h 0#5 0#4 noneCode noneCode 0#24
  | .yield h =>
      packC 0xd7#8 h 0#5 0#4 noneCode noneCode 0#24
  | .elect h pd d =>
      packC 0xd8#8 h 0#5 (0#1 ++ fld 3 pd) noneCode (cd d) 0#24
  | .syncm h a =>
      packC 0xd9#8 h 0#5 0#4 (cd a) noneCode 0#24
  | .binit h b e =>
      packC 0xda#8 h (fld 5 b) 0#4 (cd e) noneCode 0#24
  | .barv h b c =>
      packC 0xdb#8 h (fld 5 b) 0#4 (cd c) noneCode 0#24
  | .bwait h b pd q =>
      packC 0xdc#8 h (fld 5 b) (0#1 ++ fld 3 pd) (cd q) noneCode 0#24
  | .bexp h b n =>
      packC 0xdd#8 h (fld 5 b) 0#4 (cd n) noneCode 0#24
  | .binv h b force =>
      packC 0xde#8 h (fld 5 b) (0#3 ++ bit1 force) noneCode noneCode 0#24
  | .gsize h code =>
      packC 0xdf#8 h 0#5 (0#2 ++ fld 2 code) noneCode noneCode 0#24
  | .spawn h role a b off =>
      packC 0xe0#8 h (0#3 ++ fld 2 role) 0#4 (cd a) (cd b) off
  | .launch h a q =>
      packC 0xe1#8 h 0#5 0#4 (cd a) (cd q) 0#24
  | .trap h code =>
      packC 0xe2#8 h 0#5 0#4 noneCode noneCode code
  | .bkpt h code =>
      packC 0xe3#8 h 0#5 0#4 noneCode noneCode code
  | .nop h =>
      packC 0xe4#8 h 0#5 0#4 noneCode noneCode 0#24
  | .tret h mode =>
      packC 0xe5#8 h 0#5 (0#2 ++ mode.code) noneCode noneCode 0#24
  | .csrrd h d csr =>
      packC 0xf0#8 h 0#5 0#4 noneCode (cd d) (0#12 ++ csr)
  | .csrwr h a csr =>
      packC 0xf1#8 h 0#5 0#4 (cd a) noneCode (0#12 ++ csr)
  | .cdstart h a w =>
      packC 0xf2#8 h 0#5 0#4 (cd a) (cd w) 0#24
  | .cdstop h =>
      packC 0xf3#8 h 0#5 0#4 noneCode noneCode 0#24
  | .replay h a =>
      packC 0xf4#8 h 0#5 0#4 (cd a) noneCode 0#24
  | .cancel h asid a =>
      packC 0xf5#8 h 0#5 (0#3 ++ bit1 asid) (cd a) noneCode 0#24
  | .tlbinv h kind a v =>
      packC 0xf6#8 h 0#5 (0#2 ++ kind.code) (cd a) (cd v) 0#24
  | .preempt h a =>
      packC 0xf7#8 h 0#5 0#4 (cd a) noneCode 0#24
  | .trace h a b =>
      packC 0xf8#8 h 0#5 0#4 (cd a) (cd b) 0#24
  | .mcgset h hi g m =>
      packC 0xf9#8 h 0#5 (0#3 ++ bit1 hi) (cd g) (cd m) 0#24
  | _ => 0#64

end Sys2Proof
end

