-- ==== Sys2Proof/Machine/Scheduler.lean ====
section
/-! DEFINITION. The thread scheduler (R27, R36 to R40, R67 to R73, R88, R222, R341): which threads are ready, the lead
thread of a free port, its issue group, and the check of its clause. -/

namespace Sys2Proof.Machine

/-! ### The clause check (R69, R72, R73) -/

/-- The major opcodes that R93 assigns. -/
def opAssigned (op : Nat) : Bool :=
  decide (op ≤ 0x1B ∨ (0x20 ≤ op ∧ op ≤ 0x36) ∨ (0x38 ≤ op ∧ op ≤ 0x40) ∨ (0x60 ≤ op ∧ op ≤ 0x68) ∨
    (0x80 ≤ op ∧ op ≤ 0x8A) ∨ (0xA0 ≤ op ∧ op ≤ 0xA9) ∨ (0xD0 ≤ op ∧ op ≤ 0xE5) ∨ (0xF0 ≤ op ∧ op ≤ 0xF9))

/-- The terminators of R72. -/
def opEnds (op : Nat) : Bool := [0xD0, 0xD1, 0xD2, 0xD3, 0xD5, 0xD6, 0xD7, 0xD9, 0xDC, 0xE5].contains op

/-- CLASS of a header. -/
def hdrClass (h : DWord) : Nat := (h >>> 53).toNat % 8

/-- The class of a number of R69. -/
def classNo : Nat → Option OpClass
  | 0 => some .vec | 1 => some .mem | 2 => some .xfer | 3 => some .tile | 4 => some .ctrl | 5 => some .sys
  | _ => none

/-- The word carries TAG 0b1100. -/
def hdrTag (h : DWord) : Bool := h.toNat / 2 ^ 60 == 12

/-- The header's own fields (R69, R95). -/
def hdrOk (h : DWord) : Bool :=
  hdrTag h && decide (hdrClass h < 6) && decide (h.toNat / 2 ^ 48 % 16 = 0) && decide (h.toNat % 2 ^ 16 = 0)

/-- A slot holds what R72 allows; a word of no class is passed over. -/
def slotOk (cls : Option OpClass) (last : Bool) (w : DWord) : Bool :=
  let op := opOf w
  if !opAssigned op then true
  else if opEnds op then last
  else classOf op == some .vec || classOf op == cls

/-- The check of R73 on the words after a header. -/
def clauseOk (h : DWord) (ws : List DWord) : Bool :=
  hdrOk h && (ws.mapIdx (fun i w => slotOk (classNo (hdrClass h)) (i + 1 == ws.length) w)).all id

/-- The wait fields of a header hold a thread back no longer (R69, R70). -/
def waitsOk (h : DWord) (t : Thread) : Bool :=
  let ok := fun (lo n : Nat) => h.toNat / 2 ^ lo % 256 == 255 || decide (n ≤ h.toNat / 2 ^ lo % 256)
  ok 40 t.ldcnt && ok 32 t.stcnt && ok 24 t.xfcnt && ok 16 t.tlcnt

/-! ### Ready threads (R36) -/

/-- Threads whose group waits as a whole. -/
def Core.heldWhole (c : Core) (t : Thread) : Bool := c.waiting.any (fun g => g.team == t.team && g.members.contains t.tid)

/-- The thread's own waits are met: those of the header where it stands, or of the clause it resumes in; a word that
cannot be read as a header holds nobody back, since its fault is taken with the choice (R73, R341). -/
def State.metWaits (s : State) (core : Nat) (t : Thread) : Bool :=
  match t.clause with
  | some k => t.waitsMet || waitsOk k.hdr t
  | none =>
    match (s.team? t.team).bind (fun x => s.launch? x.launch) with
    | none => false
    | some l =>
      match s.codeWord core l.asid t.pc with
      | some w => !hdrTag w || waitsOk w t
      | none => true

/-- The thread can be chosen on a core (R36); one of a team that is to be saved stops at its clause boundary (R346). -/
def State.isReady? (s : State) (c : Core) (t : Thread) : Bool :=
  t.status == .ready &&
  (match s.team? t.team with
    | some x => x.core? == some c.id && (!x.saveReq || t.clause.isSome)
    | none => false) &&
  (c.heldWhole t || s.metWaits c.id t)

/-- Every result that a waiting group needs now has arrived (R88). -/
def State.groupArrived (s : State) (g : Group) : Bool :=
  g.members.all (fun i => match s.thread? g.team i with
    | some t => t.pend.all (fun p => p.left != 0 || p.value.isSome)
    | none => true)

/-- Groups whose park has ended become ready as a whole (R36, R88); threads for which the watchdog has expired meanwhile
enter its handler (R345). -/
def State.wakeGroups (s : State) (core : Nat) : State :=
  match s.core? core with
  | none => s
  | some c => (c.waiting.filter (fun g => s.groupArrived g)).foldl (fun (s : State) g =>
      let asleep := g.members.filter (fun i => match s.thread? g.team i with
        | some t => t.status == .parked .result
        | none => false)
      if asleep.isEmpty then s else s.releaseHeld g.team asleep) s

/-- Threads at a header for which an ACCCVT crossed a threshold trap there (R222). -/
def State.convTraps (s : State) (core : Nat) : State :=
  (s.threads.filter (fun t => t.status == .ready && t.clause.isNone && t.convDue.isSome && s.coreOf t.team == some core)).foldl
    (fun (s : State) t =>
      (s.modThread t.team t.tid (fun t => { t with convDue := none })).takeTrap t.team [t.tid] .convertLimit .resumeHeader t.pc
        ((t.convDue.getD 0#57).setWidth 64)) s

/-! ### The lead thread (R37, R71) -/

/-- Lexicographic order. -/
def lexLt : List Nat → List Nat → Bool
  | _, [] => false
  | [], _ => true
  | a :: x, b :: y => decide (a < b) || (a == b && lexLt x y)

/-- The order of R37; among teams alike in all of it the model's own key decides. -/
def State.leadKey (s : State) (t : Thread) : List Nat :=
  match s.team? t.team with
  | some x =>
    if t.since + 1024 ≤ s.clk then [0, t.since, t.tid, x.key]
    else [1, 255 - x.prio, x.since, x.key, t.since, t.tid]
  | none => [2]

/-- The first of some threads in an order. -/
def firstBy (key : Thread → List Nat) (ts : List Thread) : Option Thread :=
  ts.foldl (fun (best : Option Thread) t => match best with
    | none => some t
    | some b => if lexLt (key t) (key b) then some t else best) none

/-- The thread yields at a port (R71, R140). -/
def Thread.yields (t : Thread) (port : Nat) : Bool := if port = 0 then t.yield0 else t.yield1

/-- The lead thread: a yielding one only where no other is ready (R37, R71). -/
def State.lead (s : State) (port : Nat) (ts : List Thread) : Option Thread :=
  match firstBy s.leadKey (ts.filter (fun t => !t.yields port)) with
  | some t => some t
  | none => firstBy s.leadKey ts

/-! ### The issue group (R38, R39) -/

/-- Threads that share the lead's program counter, in an aligned block of lanes. Threads of one program counter that stand in
different clauses, or of which one stands at a header, are kept apart (DESIGN CHOICE, log entry 21). -/
def sameGroup (limit : Nat) (a t : Thread) : Bool :=
  t.team == a.team && t.role == a.role && t.pc == a.pc && t.clause == a.clause && t.lane / limit == a.lane / limit

/-- The members, in ascending position: of two that share a lane, the one that has been ready longer, of two ready equally
long the lower TID (DESIGN CHOICE, log entry 21). -/
def formGroup (limit : Nat) (a : Thread) (ts : List Thread) : List Thread :=
  let ms := ts.filter (sameGroup limit a)
  (List.range limit).filterMap (fun p =>
    if a.lane % limit = p then some a
    else firstBy (fun t => [t.since, t.tid]) (ms.filter (fun t => t.lane % limit == p)))

/-- A word of a clause as it is fetched (R67, R341). -/
inductive Fetched where
  | word (w : DWord)
  | missing (va : Nat)
  | protection (va : Nat)
  | bad (l : Loc)

/-- One word fetched by a core: what memory holds now. After code has changed R68 allows the old or the new word; the model
takes the new one (DESIGN CHOICE, log entry 21). -/
def State.fetchWord (s : State) (core asid : Nat) (pc : BitVec 57) : Fetched × State :=
  match s.translate core asid pc.toNat with
  | (w, s') =>
    (match s.walkBad (some core) asid [pc.toNat], w with
      | some l, _ => .bad l
      | none, .page false _ true pa => (match s.badAt ⟨.main, pa⟩ 8 with
        | some l => .bad l
        | none => .word (s.main.readDWord pa))
      | none, .missing => .missing pc.toNat
      | none, _ => .protection pc.toNat, s')

/-- `n` words from an address upward, up to the first that cannot be fetched. -/
def State.fetchWords (s : State) (core asid : Nat) (pc : BitVec 57) (n : Nat) : Except Fetched (List DWord) × State :=
  match n with
  | 0 => (.ok [], s)
  | k + 1 =>
    match s.fetchWord core asid pc with
    | (.word w, s) =>
      (match State.fetchWords s core asid (pc + 8#57) k with
        | (.ok ws, s) => (.ok (w :: ws), s)
        | (.error e, s) => (.error e, s))
    | (e, s) => (.error e, s)

/-- A word cannot be fetched (R341): every ready thread of the team that stands there parks with one record, or traps. -/
def State.fetchFault (s : State) (core : Nat) (l : Launch) (a : Thread) (e : Fetched) : State :=
  let mine := fun (t : Thread) => t.team == a.team && t.pc == a.pc && t.clause == a.clause && t.status == .ready
  let ts := s.threads.filter mine
  match e, s.team? a.team with
  | .missing va, some t =>
    let s := s.mapThreads mine (fun t => { t with status := .parked (.fetch va) })
    s.bumpId.enterFault {
      id := s.faultId, refault := false, retry := 0, kind := 3, asid := l.asid, va := va, launch := l.ident.toNat,
      core := core, team := t.index, lanes := maskOf (ts.map (·.lane)), tids := ts.map (·.tid), op := none, walks := [], range := none }
  | .protection va, some _ =>
    s.takeTrap a.team (ts.map (·.tid)) .protection .failedHeader (BitVec.ofNat 57 va) (BitVec.ofNat 64 va)
  | .bad l, _ => s.readBad a.team l
  | _, _ => s

/-- What completed XFER operations order before the instructions after a header that waits XFCNT down to 0 (R315, R318). -/
def Thread.meetsXfw (t : Thread) (h : DWord) (next : Nat) : Thread :=
  if h.toNat / 2 ^ 24 % 256 = 0 then t.learn t.xfView next else t

/-- A group takes a free port: its threads stand at the word of its next slot. -/
def State.seat (s : State) (core port : Nat) (g : Group) : State :=
  let pc := g.hdrAddr + BitVec.ofNat 57 (8 * (g.slot + 1))
  let s := s.modThreads g.team g.members (fun t => { (t.meetsXfw g.hdr s.nextId) with
    status := .inGroup, pc := pc, clause := some { hdrAddr := g.hdrAddr, hdr := g.hdr }, waitsMet := false })
  s.modCore core (fun c => c.setPort port { group := some g, tile := none, stripe := [] })

/-- A group formed under R38 fetches its clause, has it checked as a whole, and takes the port (R73), at its first slot or
inside the clause in which it resumes (R336). A clause that has shrunk below that slot fails the check (log entry 21). -/
def State.startGroup (s : State) (core port limit : Nat) (l : Launch) (a : Thread) (ms : List Thread) : State :=
  let tids := ms.map (·.tid)
  let at_ := (a.clause.map (·.hdrAddr)).getD a.pc
  let slot := if a.clause.isSome then (a.pc - at_).toNat / 8 - 1 else 0
  match s.fetchWord core l.asid at_ with
  | (.word h, s) =>
    if !hdrOk h then s.trapNoAddr a.team tids .illegalClause .failedHeader at_
    else
      (match s.fetchWords core l.asid (at_ + 8#57) (hdrWords h) with
        | (.ok ws, s) =>
          if clauseOk h ws && decide (slot < hdrWords h) then
            s.seat core port { team := a.team, role := a.role, hdrAddr := at_, hdr := h, words := ws, slot := slot,
                               limit := limit, members := tids }
          else s.trapNoAddr a.team tids .illegalClause .failedHeader at_
        | (.error e, s) => s.fetchFault core l a e)
  | (e, s) => s.fetchFault core l a e

/-- The choice of a free port among the ready threads of its core. -/
def State.choose (s : State) (c : Core) (port : Nat) : State :=
  let ts := s.threads.filter (fun t => s.isReady? c t)
  match s.lead port ts with
  | none => s
  | some a =>
    let mine := fun (t : Thread) => s.coreOf t.team == some c.id
    let s := s.mapThreads mine (fun t => if port = 0 then { t with yield0 := false } else { t with yield1 := false })
    match c.waiting.find? (fun g => g.team == a.team && g.members.contains a.tid) with
    | some g => (s.modCore c.id (fun c => { c with waiting := c.waiting.filter (fun x => x != g) })).seat c.id port g
    | none =>
      match s.team? a.team with
      | none => s
      | some t =>
        match s.launch? t.launch with
        | none => s
        | some l =>
          let limit := t.limit a.role
          s.startGroup c.id port limit l a (formGroup limit a (ts.filter (fun t => !c.heldWhole t)))

/-- SCHEDULER_CHOICE (R37, R38): port 1 chooses after port 0 where both are free. -/
def execSchedulerChoice (core port : Nat) (s : State) : Out :=
  if !s.coreReady core then .next s
  else
    let s := (s.wakeGroups core).convTraps core
    match s.core? core with
    | none => .next s
    | some c =>
      let first := port != 0 && c.port0.group.isNone && s.threads.any (fun t => s.isReady? c t)
      if (c.port port).group.isSome || decide (port ≥ 2) || first then .next s.settle
      else .next (s.choose c port).settle

end Sys2Proof.Machine
end

