-- ==== Sys2Proof/Machine/IntArith.lean ====
section
/-! DEFINITION. Integer arithmetic (R101, R102, R111): meanings 0x00 to 0x07, 0x14 and 0x19. -/

namespace Sys2Proof.Machine

/-- Every element of a type computed from its index (R47). -/
def mapElems (ty : Ty) (f : Nat → Nat) : Nat := packElems ty.width ((List.range ty.count).map f)

/-- The exact absolute value and negation of a source (R101). -/
def signMods (neg abs : Bool) (x : Int) : Int :=
  let x := if abs then |x| else x
  if neg then -x else x

/-- A result fitted to its type: clamped with SAT, else wrapped (R101). -/
def fitInt (ty : Ty) (sat : Bool) (r : Int) : Nat := Ty.wrapBits ty (if sat then Ty.clamp ty r else r)

/-- The integer instructions element by element; `op` gives the exact result of R101's table. -/
def intElems (m : IntMods) (op : Int → Int → Int → Int) (a b c : Nat) : Nat :=
  mapElems m.ty (fun i => fitInt m.ty m.sat (op
    (signMods m.na m.aa (Ty.toInt m.ty (elemOf m.ty a i)))
    (signMods m.nb m.ab (Ty.toInt m.ty (elemOf m.ty b i)))
    (Ty.toInt m.ty (elemOf m.ty c i))))

/-- The fixed settings of an integer VL form (R85). -/
def plainInt (ty : Ty) : IntMods := { ty := ty, sat := false, na := false, nb := false, aa := false, ab := false }

/-- A two-source integer instruction. -/
def int2 (op : Int → Int → Int → Int) (h : Head) (m : IntMods) (d a b : Operand) (s : State) : Out :=
  vec s h [(d, Ty.words m.ty), (a, Ty.words m.ty), (b, Ty.words m.ty)] d (fun c t =>
    .ofTy m.ty (intElems m op (c.src t m.ty a) (c.src t m.ty b) 0))

/-- Its VL form: the literal, sign-extended for a pair, is the second source (R85). -/
def int2Vl (op : Int → Int → Int → Int) (ty : Ty) (h : Head) (d a : Operand) (lit : Word) (s : State) : Out :=
  vec s h [(d, Ty.words ty), (a, Ty.words ty)] d (fun c t =>
    .ofTy ty (intElems (plainInt ty) op (c.src t ty a)
      (if ty.is64 then (lit.signExtend 64).toNat else lit.toNat) 0))

/-- floor(a × b / 2^32) (R101). -/
def mulHigh (a b _c : Int) : Int := (a * b) / 4294967296

def execIadd (h : Head) (m : IntMods) (d a b : Operand) (s : State) : Out := int2 (fun x y _ => x + y) h m d a b s
def execIaddVl (h : Head) (d a : Operand) (lit : Word) (s : State) : Out := int2Vl (fun x y _ => x + y) .i32 h d a lit s
def execIsub (h : Head) (m : IntMods) (d a b : Operand) (s : State) : Out := int2 (fun x y _ => x - y) h m d a b s
def execIsubVl (h : Head) (d a : Operand) (lit : Word) (s : State) : Out := int2Vl (fun x y _ => x - y) .i32 h d a lit s
def execImul (h : Head) (m : IntMods) (d a b : Operand) (s : State) : Out := int2 (fun x y _ => x * y) h m d a b s
def execImulVl (h : Head) (d a : Operand) (lit : Word) (s : State) : Out := int2Vl (fun x y _ => x * y) .i32 h d a lit s
def execImulhi (h : Head) (m : IntMods) (d a b : Operand) (s : State) : Out := int2 mulHigh h m d a b s
def execImulhiVl (h : Head) (d a : Operand) (lit : Word) (s : State) : Out := int2Vl mulHigh .i32 h d a lit s

/-- a × b + c (R101). -/
def execImad (h : Head) (m : IntMods) (d a b c : Operand) (s : State) : Out :=
  vec s h [(d, 1), (a, 1), (b, 1), (c, 1)] d (fun x t =>
    .ofTy m.ty (intElems m (fun x y z => x * y + z) (x.src t m.ty a) (x.src t m.ty b) (x.src t m.ty c)))

def execImin (h : Head) (m : IntMods) (d a b : Operand) (s : State) : Out := int2 (fun x y _ => min x y) h m d a b s
def execIminVl (h : Head) (d a : Operand) (lit : Word) (s : State) : Out := int2Vl (fun x y _ => min x y) .i32 h d a lit s
def execImax (h : Head) (m : IntMods) (d a b : Operand) (s : State) : Out := int2 (fun x y _ => max x y) h m d a b s
def execImaxVl (h : Head) (d a : Operand) (lit : Word) (s : State) : Out := int2Vl (fun x y _ => max x y) .i32 h d a lit s

/-- |a| (R101). -/
def execIabs (h : Head) (ty : Ty) (sat : Bool) (d a : Operand) (s : State) : Out :=
  vec s h [(d, 1), (a, 1)] d (fun c t =>
    .ofTy ty (intElems { plainInt ty with sat := sat } (fun x _ _ => |x|) (c.src t ty a) 0 0))

/-- a + b + (c AND 1) with the carry in PD (R102). -/
def execIaddc (h : Head) (pd : Fin 8) (d a b c : Operand) (s : State) : Out :=
  vec s h [(d, 1), (a, 1), (b, 1), (c, 1)] d (fun x t =>
    let a := BitVec.ofNat 32 (x.src t .n32 a)
    let b := BitVec.ofNat 32 (x.src t .n32 b)
    let c := BitVec.ofNat 32 (x.src t .n32 c)
    { words := [a + b + (c &&& 1#32)], preds := [(pd.val, carry a b c)] })

/-- The addition of two pairs (R111). -/
def execIadd64 (h : Head) (m : IntMods) (d a b : Operand) (s : State) : Out := int2 (fun x y _ => x + y) h m d a b s
def execIadd64Vl (h : Head) (d a : Operand) (lit : Word) (s : State) : Out := int2Vl (fun x y _ => x + y) .i64 h d a lit s

end Sys2Proof.Machine
end

