-- ==== Sys2Proof/Machine/Logic.lean ====
section
/-! DEFINITION. Shifts, logic, bit fields, compares, selects, moves and addresses (R103 to R110): meanings 0x08 to
0x13, 0x15 to 0x18, 0x1A and 0x1B. -/

namespace Sys2Proof.Machine

/-- A left shift of a `w`-bit element (R103). -/
def shlBits (w x k : Nat) : Nat := if k ≥ w then 0 else x * 2 ^ k % 2 ^ w
/-- A logical right shift. -/
def shrBits (w x k : Nat) : Nat := if k ≥ w then 0 else x / 2 ^ k
/-- An arithmetic right shift: the top bit fills, for k ≥ w everywhere. -/
def sarBits (w x k : Nat) : Nat :=
  if x < 2 ^ (w - 1) then (if k ≥ w then 0 else x / 2 ^ k)
  else if k ≥ w then 2 ^ w - 1 else x / 2 ^ k + (2 ^ w - 2 ^ (w - k))

/-- A shift element by element; a pair takes one 32-bit count (R103). -/
def shiftElems (f : Nat → Nat → Nat → Nat) (ty : Ty) (a n : Nat) : Nat :=
  mapElems ty (fun i => f ty.width (elemOf ty a i) (if ty.is64 then n else elemOf ty n i))

/-- The type of a shift's count: the shift's own packed type, or one 32-bit count. -/
def countTy (ty : Ty) : Ty := if ty.is64 then .n32 else ty

def shift3 (f : Nat → Nat → Nat → Nat) (h : Head) (ty : Ty) (d a n : Operand) (s : State) : Out :=
  vec s h [(d, Ty.words ty), (a, Ty.words ty), (n, 1)] d (fun c t =>
    .ofTy ty (shiftElems f ty (c.src t ty a) (c.src t (countTy ty) n)))

def shiftVl (f : Nat → Nat → Nat → Nat) (h : Head) (d a : Operand) (lit : Word) (s : State) : Out :=
  vec s h [(d, 1), (a, 1)] d (fun c t => .word (shiftElems f .i32 (c.src t .i32 a) lit.toNat))

def execShl (h : Head) (ty : Ty) (d a n : Operand) (s : State) : Out := shift3 shlBits h ty d a n s
def execShlVl (h : Head) (d a : Operand) (lit : Word) (s : State) : Out := shiftVl shlBits h d a lit s
def execShr (h : Head) (ty : Ty) (d a n : Operand) (s : State) : Out := shift3 shrBits h ty d a n s
def execShrVl (h : Head) (d a : Operand) (lit : Word) (s : State) : Out := shiftVl shrBits h d a lit s
def execSar (h : Head) (ty : Ty) (d a n : Operand) (s : State) : Out := shift3 sarBits h ty d a n s
def execSarVl (h : Head) (d a : Operand) (lit : Word) (s : State) : Out := shiftVl sarBits h d a lit s

/-- A source of the logic instructions, inverted with NA or NB (R104). -/
def logicSrc (inv : Bool) (x : Nat) : DWord := if inv then ~~~(BitVec.ofNat 64 x) else BitVec.ofNat 64 x

/-- AND, OR and XOR on a word or a pair (R104). -/
def logic3 (f : DWord → DWord → DWord) (h : Head) (ty : Ty) (na nb : Bool) (d a b : Operand) (s : State) : Out :=
  vec s h [(d, Ty.words ty), (a, Ty.words ty), (b, Ty.words ty)] d (fun c t =>
    .ofTy ty (f (logicSrc na (c.src t ty a)) (logicSrc nb (c.src t ty b))).toNat)

def logicVl (f : DWord → DWord → DWord) (h : Head) (d a : Operand) (lit : Word) (s : State) : Out :=
  vec s h [(d, 1), (a, 1)] d (fun c t =>
    .word (f (BitVec.ofNat 64 (c.src t .i32 a)) (lit.setWidth 64)).toNat)

def execAnd (h : Head) (ty : Ty) (na nb : Bool) (d a b : Operand) (s : State) : Out := logic3 (· &&& ·) h ty na nb d a b s
def execAndVl (h : Head) (d a : Operand) (lit : Word) (s : State) : Out := logicVl (· &&& ·) h d a lit s
def execOr (h : Head) (ty : Ty) (na nb : Bool) (d a b : Operand) (s : State) : Out := logic3 (· ||| ·) h ty na nb d a b s
def execOrVl (h : Head) (d a : Operand) (lit : Word) (s : State) : Out := logicVl (· ||| ·) h d a lit s
def execXor (h : Head) (ty : Ty) (na nb : Bool) (d a b : Operand) (s : State) : Out := logic3 (· ^^^ ·) h ty na nb d a b s
def execXorVl (h : Head) (d a : Operand) (lit : Word) (s : State) : Out := logicVl (· ^^^ ·) h d a lit s

/-- A word from its bits. -/
def wordOfBits (w : Nat) (f : Nat → Bool) : Nat := ((List.range w).map (fun i => if f i then 2 ^ i else 0)).sum

/-- Each result bit from an 8-bit table (R104). -/
def lut3Word (lut : Byte) (a b c : Word) : Nat :=
  wordOfBits 32 (fun j => lut3Bit lut (a.getLsbD j) (b.getLsbD j) (c.getLsbD j))

def execLut3 (h : Head) (lut : Byte) (d a b c : Operand) (s : State) : Out :=
  vec s h [(d, 1), (a, 1), (b, 1), (c, 1)] d (fun x t => .word (lut3Word lut (x.val t a) (x.val t b) (x.val t c)))

/-- Number of one bits among the low `w` (R105). -/
def popcBits (w x : Nat) : Nat := ((List.range w).filter (fun i => x.testBit i)).length
/-- Leading zeros; `w` for zero (R105). -/
def clzBits (w x : Nat) : Nat := w - bitLen (x % 2 ^ w)
/-- Bit order reversed (R105). -/
def brevBits (w x : Nat) : Nat := wordOfBits w (fun i => x.testBit (w - 1 - i))

def execPopc (h : Head) (ty : Ty) (d a : Operand) (s : State) : Out :=
  vec s h [(d, 1), (a, Ty.words ty)] d (fun c t => .word (popcBits ty.width (c.src t ty a)))
def execClz (h : Head) (ty : Ty) (d a : Operand) (s : State) : Out :=
  vec s h [(d, 1), (a, Ty.words ty)] d (fun c t => .word (clzBits ty.width (c.src t ty a)))
def execBrev (h : Head) (ty : Ty) (d a : Operand) (s : State) : Out :=
  vec s h [(d, Ty.words ty), (a, Ty.words ty)] d (fun c t => .ofTy ty (brevBits ty.width (c.src t ty a)))

/-- Position and length of a bit field (R106). -/
def fieldPos (f : Word) : Nat := f.toNat % 256
def fieldLen (f : Word) : Nat := if f.toNat / 256 % 256 < 32 then f.toNat / 256 % 256 else 32

/-- BFE (R106): bits above 31 read as the sign bit under i32 and as 0 under n32. -/
def bfeBits (signed : Bool) (a f : Word) : Nat :=
  let len := fieldLen f
  if len = 0 then 0
  else
    let ext : Nat := if signed && a.toNat ≥ 2 ^ 31 then a.toNat + (2 ^ 320 - 2 ^ 32) else a.toNat
    let v := ext / 2 ^ fieldPos f % 2 ^ len
    if signed && v ≥ 2 ^ (len - 1) then v + (2 ^ 32 - 2 ^ len) else v

/-- BFI (R106). -/
def bfiBits (a b f : Word) : Nat :=
  wordOfBits 32 (fun j => if fieldPos f ≤ j ∧ j < fieldPos f + fieldLen f then a.getLsbD (j - fieldPos f) else b.getLsbD j)

def execBfe (h : Head) (ty : Ty) (d a f : Operand) (s : State) : Out :=
  vec s h [(d, 1), (a, 1), (f, 1)] d (fun c t => .word (bfeBits (ty == .i32) (c.val t a) (c.val t f)))
def execBfeVl (h : Head) (d a : Operand) (lit : Word) (s : State) : Out :=
  vec s h [(d, 1), (a, 1)] d (fun c t => .word (bfeBits false (c.val t a) lit))
def execBfi (h : Head) (d a b f : Operand) (s : State) : Out :=
  vec s h [(d, 1), (a, 1), (b, 1), (f, 1)] d (fun c t => .word (bfiBits (c.val t a) (c.val t b) (c.val t f)))

/-- The effect of a compare once its comparison is known (R107). -/
def cmpEff (c : Ctx) (t : Thread) (m : CmpMods) (r : Bool) (x : Operand) : VecEff :=
  let third : Option Word := if x.isNone then none else some (c.val t x)
  let r := combine m.bor r third
  { words := [maskWord r], preds := [(m.pd.val, r)] }

def execIcmp (h : Head) (m : CmpMods) (d a b c : Operand) (s : State) : Out :=
  vec s h [(d, 1), (a, 1), (b, 1), (c, 1)] d (fun x t =>
    cmpEff x t m (icmpHolds m.cmp.val (Ty.toInt m.ty (x.src t m.ty a)) (Ty.toInt m.ty (x.src t m.ty b))) c)

def execIcmp64 (h : Head) (m : CmpMods) (d a b c : Operand) (s : State) : Out :=
  vec s h [(d, 1), (a, 2), (b, 2), (c, 1)] d (fun x t =>
    cmpEff x t m (icmpHolds m.cmp.val (Ty.toInt m.ty (x.src t m.ty a)) (Ty.toInt m.ty (x.src t m.ty b))) c)

/-- DST := (c ≠ 0) ? a : b (R108). -/
def execSel (h : Head) (ty : Ty) (d a b c : Operand) (s : State) : Out :=
  vec s h [(d, Ty.words ty), (a, Ty.words ty), (b, Ty.words ty), (c, 1)] d (fun x t =>
    .ofTy ty (if x.val t c != 0#32 then x.src t ty a else x.src t ty b))

def execMov (h : Head) (d a : Operand) (s : State) : Out :=
  vec s h [(d, 1), (a, 1)] d (fun c t => .word (c.src t .i32 a))

def execMov64 (h : Head) (d a : Operand) (s : State) : Out :=
  vec s h [(d, 2), (a, 2)] d (fun c t => .ofTy .i64 (c.src t .i64 a))

/-- The address a + e × 2^N (R110). -/
def leaBits (unsigned : Bool) (sh : Nat) (a : DWord) (b : Word) : DWord :=
  a + ((if unsigned then b.setWidth 64 else b.signExtend 64) <<< sh)

def execLea (h : Head) (ty : Ty) (sh : Fin 8) (d a b : Operand) (s : State) : Out :=
  vec s h [(d, 2), (a, 2), (b, 1)] d (fun c t =>
    .ofTy .i64 (leaBits (ty == .n32) sh.val (c.val64 t a) (c.val t b)).toNat)
def execLeaVl (h : Head) (d a : Operand) (lit : Word) (s : State) : Out :=
  vec s h [(d, 2), (a, 2)] d (fun c t => .ofTy .i64 (leaBits false 0 (c.val64 t a) lit).toNat)

end Sys2Proof.Machine
end

