-- ==== Sys2Proof/Machine/Transc.lean ====
section
/-! DEFINITION. The one-source functions of R116. Each is the exact value rounded once: 2^a, log2 a and tanh a
are enclosed in 256-bit fixed point, whose error lies far below the rounding position. -/

namespace Sys2Proof.Machine

/-- Fraction bits of the fixed-point series. -/
def fixBits : Nat := 256
/-- floor of ln 2 and of log2 e in units of 2^-256. -/
def ln2Fix : Nat := 0xb17217f7d1cf79abc9e3b39803f2f6af40f343267298b62d8a0d175b8baafa2b
def log2eFix : Nat := 0x171547652b82fe1777d0ffda0d23a7d11d6aef551bad2b4b1164a2cd9a342648f

/-- The terms y^k / k! of e^y from term `t` onward, for at most `fuel` terms. -/
def expTerms (y : Nat) : Nat → Nat → Nat → Nat
  | 0, _, _ => 0
  | fuel + 1, k, t => t + expTerms y fuel (k + 1) (t * y / 2 ^ fixBits / (k + 1))

/-- 2^f in units of 2^-256 for a fraction f in those units. -/
def exp2Frac (f : Nat) : Nat := expTerms (f * ln2Fix / 2 ^ fixBits) 70 0 (2 ^ fixBits)

/-- The terms z^(2k+1) / (2k+1) of artanh z. -/
def atanhTerms (z2 : Nat) : Nat → Nat → Nat → Nat
  | 0, _, _ => 0
  | fuel + 1, k, t => t / (2 * k + 1) + atanhTerms z2 fuel (k + 1) (t * z2 / 2 ^ fixBits)

/-- log2 x in units of 2^-256 for x in [1, 2) in those units. -/
def log2Frac (x : Nat) : Nat :=
  let z := (x - 2 ^ fixBits) * 2 ^ fixBits / (x + 2 ^ fixBits)
  2 * atanhTerms (z * z / 2 ^ fixBits) 85 0 z * log2eFix / 2 ^ fixBits

/-- Guard bits dropped from an enclosed value before its sticky rounding. -/
def guardBits : Nat := 24

/-- A positive enclosed value m * 2^e that is not exact, rounded once into F32. -/
def roundApprox (rm : Rm) (ftz neg : Bool) (m : Nat) (e : Int) : Nat :=
  (fmtF32.roundTo rm false ftz neg (m / 2 ^ guardBits) (e + guardBits) true).bits

/-- A finite value as an integer count of 2^-256, rounded down; the exponent is bounded by the caller. -/
def toFix (neg : Bool) (m : Nat) (e : Int) : Int :=
  let q : Int := e + fixBits
  let x : Int := if 0 ≤ q then ((m * 2 ^ q.toNat : Nat) : Int) else ((m / 2 ^ (-q).toNat : Nat) : Int)
  if neg then -x else x

/-- 1/a (R116). -/
def frcpVal (rm : Rm) (ftz : Bool) (a : Val) : Nat := (fmtF32.divTo rm ftz (.fin false 1 0) a).bits

/-- 1/√a (R116). -/
def frsqVal (rm : Rm) (ftz : Bool) (a : Val) : Nat := (fmtF32.rsqrtTo rm ftz a).bits

/-- √a (R116). -/
def fsqrtVal (rm : Rm) (ftz : Bool) (a : Val) : Nat := (fmtF32.sqrtTo rm ftz a).bits

/-- 2^a (R116): exact for an integer a, otherwise irrational. -/
def fexp2Val (rm : Rm) (ftz : Bool) (a : Val) : Nat :=
  match a with
  | .nan => fmtF32.nanBits
  | .inf s => if s then fmtF32.sign false else fmtF32.infBits false
  | .fin neg m e =>
    if m = 0 then (fmtF32.ofVal rm false ftz (.fin false 1 0)).bits
    else if (bitLen m : Int) + e > 12 then
      -- beyond every F32 exponent: an overflow, or a value below the smallest subnormal
      (if neg then (fmtF32.roundTo rm false ftz false 1 (-4096) true).bits
       else (fmtF32.roundTo rm false ftz false 1 4096 true).bits)
    else
      let t := toFix neg m e
      let n := t / (2 ^ fixBits : Int)
      let f := (t % (2 ^ fixBits : Int)).toNat
      if f = 0 then (fmtF32.roundTo rm false ftz false 1 n false).bits
      else roundApprox rm ftz false (exp2Frac f) (n - fixBits)

/-- log2 a (R116): exact for a power of two, otherwise irrational. -/
def flog2Val (rm : Rm) (ftz : Bool) (a : Val) : Nat :=
  match a with
  | .nan => fmtF32.nanBits
  | .inf s => if s then fmtF32.nanBits else fmtF32.infBits false
  | .fin neg m e =>
    if m = 0 then fmtF32.infBits true
    else if neg then fmtF32.nanBits
    else
      let k := bitLen m - 1
      let ex : Int := e + k
      let x := m * 2 ^ (fixBits - k)
      if x = 2 ^ fixBits then (fmtF32.ofVal rm false ftz (Val.ofInt ex)).bits
      else
        let r := ex * (2 ^ fixBits : Int) + log2Frac x
        -- log2Frac is rounded down: the magnitude of a negative result is kept below its exact value
        if r < 0 then roundApprox rm ftz true (r.natAbs - 1) (-(fixBits : Int))
        else roundApprox rm ftz false r.natAbs (-(fixBits : Int))

/-- tanh a (R116): (e^2a - 1) / (e^2a + 1), between -1 and 1 and below |a|. -/
def ftanhVal (rm : Rm) (ftz : Bool) (a : Val) : Nat :=
  match a with
  | .nan => fmtF32.nanBits
  | .inf s => (fmtF32.ofVal rm false ftz (.fin s 1 0)).bits
  | .fin neg m e =>
    if m = 0 then fmtF32.sign neg
    else
      let top : Int := (bitLen m : Int) + e
      if top < -40 then (fmtF32.roundTo rm false ftz neg (m * 2 ^ 64 - 1) (e - 64) true).bits
      else if 5 < top then (fmtF32.roundTo rm false ftz neg (2 ^ 64 - 1) (-64) true).bits
      else
        let t := (toFix false (2 * m) e).toNat * log2eFix / 2 ^ fixBits
        let n := t / 2 ^ fixBits
        let x := exp2Frac (t % 2 ^ fixBits) * 2 ^ n
        roundApprox rm ftz neg ((x - 2 ^ fixBits) * 2 ^ fixBits / (x + 2 ^ fixBits)) (-(fixBits : Int))

end Sys2Proof.Machine
end

