-- ==== Sys2Proof/Machine/FloatArith.lean ====
section
/-! DEFINITION. Floating-point arithmetic (R112 to R118): meanings 0x20 to 0x2F. -/

namespace Sys2Proof.Machine

/-- The format of a floating-point operand type; F32 for any other. -/
def fltFmt (ty : Ty) : Format := (Ty.format? ty).getD fmtF32

/-- An element's bits flushed and with its signs applied (R112: sign only). -/
def fltBits (f : Format) (ftz neg abs : Bool) (x : Nat) : Nat :=
  let x := f.flush ftz x
  let x := if abs then x % 2 ^ (f.eb + f.fb) else x
  if neg then (if x < 2 ^ (f.eb + f.fb) then x + 2 ^ (f.eb + f.fb) else x - 2 ^ (f.eb + f.fb)) else x

/-- A source element's value (R112). -/
def fltSrc (f : Format) (ftz neg abs : Bool) (x : Nat) : Val := f.val (fltBits f ftz neg abs x)

/-- A result rounded once (R112). -/
def fltOut (f : Format) (m : FltMods) (ftz : Bool) (x : Val) : Nat := (f.ofVal m.rm m.sat ftz x).bits

/-- The rounded arithmetic instructions element by element (R112). -/
def fltElems (m : FltMods) (ftz : Bool) (op : Val → Val → Val → Val) (a b c : Nat) : Nat :=
  let f := fltFmt m.ty
  mapElems m.ty (fun i => fltOut f m ftz (op
    (fltSrc f ftz m.na m.aa (elemOf m.ty a i)) (fltSrc f ftz m.nb m.ab (elemOf m.ty b i))
    (fltSrc f ftz m.nc false (elemOf m.ty c i))))

/-- The fixed settings of a floating-point VL form (R85). -/
def plainFlt : FltMods :=
  { ty := .f32, rm := .rn, sat := false, na := false, nb := false, aa := false, ab := false, nc := false }

def flt2 (op : Rm → Val → Val → Val → Val) (h : Head) (m : FltMods) (d a b : Operand) (s : State) : Out :=
  vec s h [(d, 1), (a, 1), (b, 1)] d (fun c t =>
    .word (fltElems m c.ftz (op m.rm) (c.src t m.ty a) (c.src t m.ty b) 0))

def flt2Vl (op : Rm → Val → Val → Val → Val) (h : Head) (d a : Operand) (lit : Word) (s : State) : Out :=
  vec s h [(d, 1), (a, 1)] d (fun c t =>
    .word (fltElems plainFlt c.ftz (op .rn) (c.src t .f32 a) lit.toNat 0))

/-- The exact results of R112; a product counts as the first addend of its sum. -/
def addOp (rm : Rm) (a b _c : Val) : Val := Val.add rm a b
def subOp (rm : Rm) (a b _c : Val) : Val := Val.add rm a b.neg
def mulOp (_rm : Rm) (a b _c : Val) : Val := Val.mul a b
def macOp (rm : Rm) (a b c : Val) : Val := Val.add rm (Val.mul a b) c

def execFadd (h : Head) (m : FltMods) (d a b : Operand) (s : State) : Out := flt2 addOp h m d a b s
def execFaddVl (h : Head) (d a : Operand) (lit : Word) (s : State) : Out := flt2Vl addOp h d a lit s
def execFsub (h : Head) (m : FltMods) (d a b : Operand) (s : State) : Out := flt2 subOp h m d a b s
def execFsubVl (h : Head) (d a : Operand) (lit : Word) (s : State) : Out := flt2Vl subOp h d a lit s
def execFmul (h : Head) (m : FltMods) (d a b : Operand) (s : State) : Out := flt2 mulOp h m d a b s
def execFmulVl (h : Head) (d a : Operand) (lit : Word) (s : State) : Out := flt2Vl mulOp h d a lit s

def execFmac (h : Head) (m : FltMods) (d a b c : Operand) (s : State) : Out :=
  vec s h [(d, 1), (a, 1), (b, 1), (c, 1)] d (fun x t =>
    .word (fltElems m x.ftz (macOp m.rm) (x.src t m.ty a) (x.src t m.ty b) (x.src t m.ty c)))

/-- FMIN and FMAX element by element (R113). -/
def minMaxElems (isMax : Bool) (m : FltMods) (ftz : Bool) (a b : Nat) : Nat :=
  let f := fltFmt m.ty
  mapElems m.ty (fun i => f.minMax isMax
    (fltBits f ftz m.na m.aa (elemOf m.ty a i)) (fltBits f ftz m.nb m.ab (elemOf m.ty b i)))

def fltMinMax (isMax : Bool) (h : Head) (m : FltMods) (d a b : Operand) (s : State) : Out :=
  vec s h [(d, 1), (a, 1), (b, 1)] d (fun c t =>
    .word (minMaxElems isMax m c.ftz (c.src t m.ty a) (c.src t m.ty b)))

def fltMinMaxVl (isMax : Bool) (h : Head) (d a : Operand) (lit : Word) (s : State) : Out :=
  vec s h [(d, 1), (a, 1)] d (fun c t => .word (minMaxElems isMax plainFlt c.ftz (c.src t .f32 a) lit.toNat))

def execFmin (h : Head) (m : FltMods) (d a b : Operand) (s : State) : Out := fltMinMax false h m d a b s
def execFminVl (h : Head) (d a : Operand) (lit : Word) (s : State) : Out := fltMinMaxVl false h d a lit s
def execFmax (h : Head) (m : FltMods) (d a b : Operand) (s : State) : Out := fltMinMax true h m d a b s
def execFmaxVl (h : Head) (d a : Operand) (lit : Word) (s : State) : Out := fltMinMaxVl true h d a lit s

/-- FCMP (R107, R114). -/
def execFcmp (h : Head) (m : CmpMods) (d a b c : Operand) (s : State) : Out :=
  vec s h [(d, 1), (a, 1), (b, 1), (c, 1)] d (fun x t =>
    cmpEff x t m (fcmpHolds m.cmp.val (fltSrc fmtF32 x.ftz false false (x.src t .f32 a))
      (fltSrc fmtF32 x.ftz false false (x.src t .f32 b))) c)

/-- The class mask of R115. -/
def fclassBits (x : Nat) : Nat :=
  let neg := x / 2 ^ 31 == 1
  match fmtF32.val x with
  | .nan => 2 ^ 8
  | .inf s => if s then 2 ^ 0 else 2 ^ 7
  | .fin _ m _ =>
    if m = 0 then (if neg then 2 ^ 3 else 2 ^ 4)
    else if fmtF32.isSubnormal x then (if neg then 2 ^ 2 else 2 ^ 5)
    else if neg then 2 ^ 1 else 2 ^ 6

def execFclass (h : Head) (d a : Operand) (s : State) : Out :=
  vec s h [(d, 1), (a, 1)] d (fun c t => .word (fclassBits (c.src t .f32 a)))

/-- A one-source function (R116). -/
def flt1 (f : Rm → Bool → Val → Nat) (h : Head) (rm : Rm) (na aa : Bool) (d a : Operand) (s : State) : Out :=
  vec s h [(d, 1), (a, 1)] d (fun c t => .word (f rm c.ftz (fltSrc fmtF32 c.ftz na aa (c.src t .f32 a))))

def execFrcp (h : Head) (rm : Rm) (na aa : Bool) (d a : Operand) (s : State) : Out := flt1 frcpVal h rm na aa d a s
def execFrsq (h : Head) (rm : Rm) (na aa : Bool) (d a : Operand) (s : State) : Out := flt1 frsqVal h rm na aa d a s
def execFsqrt (h : Head) (rm : Rm) (na aa : Bool) (d a : Operand) (s : State) : Out := flt1 fsqrtVal h rm na aa d a s
def execFexp2 (h : Head) (rm : Rm) (na aa : Bool) (d a : Operand) (s : State) : Out := flt1 fexp2Val h rm na aa d a s
def execFlog2 (h : Head) (rm : Rm) (na aa : Bool) (d a : Operand) (s : State) : Out := flt1 flog2Val h rm na aa d a s
def execFtanh (h : Head) (rm : Rm) (na aa : Bool) (d a : Operand) (s : State) : Out := flt1 ftanhVal h rm na aa d a s

/-- The two-term dot product, rounded once into F32 (R117). -/
def fdot2Bits (m : FltMods) (ftz : Bool) (a b c : Nat) : Nat :=
  let f := fltFmt m.ty
  let p := fun i => Val.mul (fltSrc f ftz m.na m.aa (elemOf m.ty a i)) (fltSrc f ftz m.nb m.ab (elemOf m.ty b i))
  fltOut fmtF32 m ftz (Val.add m.rm (Val.add m.rm (p 0) (p 1)) (fltSrc fmtF32 ftz false false c))

def execFdot2 (h : Head) (m : FltMods) (d a b c : Operand) (s : State) : Out :=
  vec s h [(d, 1), (a, 1), (b, 1), (c, 1)] d (fun x t =>
    .word (fdot2Bits m x.ftz (x.src t m.ty a) (x.src t m.ty b) (x.src t .f32 c)))

/-- a × 2^n (R118). -/
def fscaleBits (rm : Rm) (sat ftz : Bool) (a : Val) (n : Word) : Nat :=
  (fmtF32.ofVal rm sat ftz (Val.mul a (.fin false 1 n.toInt))).bits

def execFscale (h : Head) (rm : Rm) (sat na aa : Bool) (d a n : Operand) (s : State) : Out :=
  vec s h [(d, 1), (a, 1), (n, 1)] d (fun c t =>
    .word (fscaleBits rm sat c.ftz (fltSrc fmtF32 c.ftz na aa (c.src t .f32 a)) (c.val t n)))
def execFscaleVl (h : Head) (d a : Operand) (lit : Word) (s : State) : Out :=
  vec s h [(d, 1), (a, 1)] d (fun c t =>
    .word (fscaleBits .rn false c.ftz (fltSrc fmtF32 c.ftz false false (c.src t .f32 a)) lit))

end Sys2Proof.Machine
end

