-- ==== Sys2Proof/Machine/Convert.lean ====
section
/-! DEFINITION. Conversions and their counters (R50, R59 to R63, R119 to R123): meanings 0x30 to 0x34. -/

namespace Sys2Proof.Machine

/-- Events of conversion counted by R61. -/
structure CvCount where
  sat : Nat
  ftz : Nat
  nan : Nat
  deriving DecidableEq, Repr, Inhabited

def CvCount.zero : CvCount := { sat := 0, ftz := 0, nan := 0 }
def CvCount.add (a b : CvCount) : CvCount := { sat := a.sat + b.sat, ftz := a.ftz + b.ftz, nan := a.nan + b.nan }

/-- The events of one element. -/
def Cv.count (e : Cv) : CvCount := { sat := e.sat.toNat, ftz := e.ftz.toNat, nan := e.nan.toNat }

/-- One threshold of CVCLIM: field × 16^SCALE (R63, R242). -/
def cvThreshold (lim : Word) (field : Nat) : Nat := lim.toNat / 2 ^ field % 1024 * 16 ^ (lim.toNat / 2 ^ 30)

/-- An addition takes the counter from below its threshold to it or above (R63). -/
def crosses (lim : Word) (field old new : Nat) : Bool :=
  cvThreshold lim field != 0 && decide (old < cvThreshold lim field) && decide (cvThreshold lim field ≤ new)

/-- One atomic addition for each counter of the launch (R61, R62), and whether it crosses a threshold (R63). -/
def State.countConv (s : State) (launch : Nat) (n : CvCount) : State × Bool :=
  match s.launch? launch with
  | none => (s, false)
  | some l =>
    let a := stop32 (l.cvcsat + n.sat)
    let b := stop32 (l.cvcftz + n.ftz)
    let c := stop32 (l.cvcnan + n.nan)
    (s.modLaunch launch (fun l => { l with cvcsat := a, cvcftz := b, cvcnan := c }),
     crosses l.cvclim 0 l.cvcsat a || crosses l.cvclim 10 l.cvcftz b || crosses l.cvclim 20 l.cvcnan c)

/-- A VEC instruction that counts conversions: results written, then one addition, then CONVERT_LIMIT for the
participants where it crosses a threshold (R63, R99). -/
def vecCount (s : State) (h : Head) (ops : List (Operand × Nat)) (d : Operand)
    (f : Ctx → Thread → VecEff × CvCount) : Out :=
  run s ops (fun c =>
    let s := c.vecWrites s h d (fun t => (f c t).1)
    let n := (c.actors h).foldl (fun n t => n.add (f c t).2) .zero
    let (s, cross) := s.countConv c.launch.key n
    let s := if cross then
        s.trapNoAddr c.grp.team ((c.parts h).map (·.tid)) .convertLimit .instruction c.pc
      else s
    s.advance)

/-- An element's value as used, flushed under MODE.FTZ, and as it stands (R57, R119). -/
def cvSrc (ty : Ty) (ftz : Bool) (bits : Nat) : Val × Val :=
  match Ty.format? ty with
  | some f => (f.val (f.flush (ftz && Ty.ftzApplies ty) bits), f.val bits)
  | none => (Ty.elemVal ty bits, Ty.elemVal ty bits)

/-- The result bits are a zero of the type. -/
def cvZero (ty : Ty) (bits : Nat) : Bool :=
  match Ty.format? ty with
  | some f => bits % 2 ^ (f.eb + f.fb) == 0
  | none => bits == 0

/-- One converted element with its events (R59 to R61): `raw` is the exact value before any flush. -/
def cvElem (ty : Ty) (rm : Rm) (sat ftz : Bool) (x raw : Val) : Cv :=
  let y := Ty.convert ty rm sat ftz x
  { y with ftz := y.ftz || (!y.sat && !y.nan && cvZero ty y.bits && raw.isFinite && !raw.isZero) }

/-- CVT on operand bits (R119): a, the scale if any, and the merge word. -/
def cvtBits (m : CvtMods) (ftz : Bool) (a : Nat) (sc : Option Nat) (mg : Nat) : Nat × CvCount :=
  let x := if m.tys.isPacked then elemOf m.tys a m.ei.val else a
  let (v, raw) := cvSrc m.tys ftz x
  let (v, raw) := match sc with
    | none => (v, raw)
    | some k => (Val.mul v (cvSrc .f32 ftz k).1, Val.mul raw (cvSrc .f32 ftz k).2)
  let y := cvElem m.tyd m.rm m.sat ftz v raw
  (if m.tyd.isPacked then setElem m.tyd.width mg m.ei.val y.bits else y.bits, y.count)

/-- An optional source. -/
def Ctx.srcOpt (c : Ctx) (t : Thread) (ty : Ty) (o : Operand) : Option Nat :=
  if o.isNone then none else some (c.src t ty o)

/-- CVT (R119). A constant merge word is converted under TYD, where R80 needs an operand type (DESIGN CHOICE, log entry 21). -/
def execCvt (h : Head) (m : CvtMods) (d a sc mg : Operand) (s : State) : Out :=
  vecCount s h [(d, Ty.words m.tyd), (a, Ty.words m.tys), (sc, 1), (mg, 1)] d (fun c t =>
    let r := cvtBits m c.ftz (c.src t m.tys a) (c.srcOpt t .f32 sc) (c.src t m.tyd mg)
    (.ofTy m.tyd r.1, r.2))

/-- Two elements converted into elements `i` and `i` + 1 of a word (R120, R121). -/
def cvPair (ty : Ty) (rm : Rm) (sat ftz : Bool) (x y : Val × Val) (mg i : Nat) : Nat × CvCount :=
  let a := cvElem ty rm sat ftz x.1 x.2
  let b := cvElem ty rm sat ftz y.1 y.2
  (setElem ty.width (setElem ty.width mg i a.bits) (i + 1) b.bits, a.count.add b.count)

/-- CVTPK (R120). A constant merge word is converted under TYD (DESIGN CHOICE, log entry 21). -/
def execCvtpk (h : Head) (tyd : Ty) (rm : Rm) (sat hi : Bool) (d a b mg : Operand) (s : State) : Out :=
  vecCount s h [(d, 1), (a, 1), (b, 1), (mg, 1)] d (fun c t =>
    let r := cvPair tyd rm sat c.ftz (cvSrc .f32 c.ftz (c.src t .f32 a)) (cvSrc .f32 c.ftz (c.src t .f32 b))
      (c.src t tyd mg) (if hi then 2 else 0)
    (.word r.1, r.2))

def execCvtx (h : Head) (tys : Ty) (rm : Rm) (sat : Bool) (tyd : Ty) (hi : Bool) (d a : Operand) (s : State) : Out :=
  vecCount s h [(d, 1), (a, 1)] d (fun c t =>
    let x := c.src t tys a
    let i := if hi then 2 else 0
    let r := cvPair tyd rm sat c.ftz (cvSrc tys c.ftz (elemOf tys x i)) (cvSrc tys c.ftz (elemOf tys x (i + 1))) 0 0
    (.word r.1, r.2))

/-- L(c) of R48. -/
def q4Level (c : Nat) : Int :=
  ([-128, -89, -67, -51, -37, -24, -12, 0, 10, 20, 31, 43, 57, 74, 97, 128] : List Int).getD c 0

/-- The exact value L(c)/128 (R48). -/
def q4Val (c : Nat) : Val := .fin (decide (q4Level c < 0)) (q4Level c).natAbs (-7)

/-- One Q4 code decoded (R122). -/
def qdecElem (f : Format) (rm : Rm) (ftz : Bool) (c : Nat) (sc : Val) : Nat :=
  (f.ofVal rm false ftz (Val.mul (q4Val c) sc)).bits

/-- QDEC on operand bits (R122). -/
def qdecBits (tyd : Ty) (rm : Rm) (ftz : Bool) (j a : Nat) (sc : Val) : Nat :=
  if tyd == .f32 then qdecElem fmtF32 rm ftz (elemOf .q4x8 a j) sc
  else packElems 16 [qdecElem fmtB16 rm ftz (elemOf .q4x8 a (2 * j)) sc,
                     qdecElem fmtB16 rm ftz (elemOf .q4x8 a (2 * j + 1)) sc]

def execQdec (h : Head) (tyd : Ty) (rm : Rm) (j : Fin 8) (d a sc : Operand) (s : State) : Out :=
  vec s h [(d, 1), (a, 1), (sc, 1)] d (fun c t =>
    let k := match c.srcOpt t .f32 sc with
      | none => Val.fin false 1 0
      | some x => (cvSrc .f32 c.ftz x).1
    .word (qdecBits tyd rm c.ftz j.val (c.src t .q4x8 a) k))
def execQdecVl (h : Head) (d a : Operand) (lit : Word) (s : State) : Out :=
  vec s h [(d, 1), (a, 1)] d (fun c t =>
    .word (qdecBits .f32 .rn c.ftz 0 (c.src t .q4x8 a) (cvSrc .f32 c.ftz lit.toNat).1))

/-- The nearest code for a finite x within the scale; ties go to the smaller level (R50). -/
def q4Nearest (xs ss : Int) : Nat :=
  (List.range 16).foldl (fun best c =>
    let d := fun k => (q4Level k * ss - 128 * xs).natAbs
    if d c < d best || (d c == d best && decide ((q4Level c).natAbs < (q4Level best).natAbs)) then c else best) 7

/-- A value encoded into Q4 under a block scale, with its event (R50). -/
def q4Encode (x sg : Val) : Nat × CvCount :=
  match x, sg with
  | .nan, _ => (7, { CvCount.zero with nan := 1 })
  | _, .nan => (7, { CvCount.zero with nan := 1 })
  | _, .inf _ => (7, { CvCount.zero with nan := 1 })
  | .inf s, .fin t n _ =>
    if n = 0 then (7, { CvCount.zero with ftz := 1 })
    else (if s = t then 15 else 0, { CvCount.zero with sat := 1 })
  | .fin s m e, .fin t n f =>
    if m = 0 then (7, .zero)
    else if n = 0 then (7, { CvCount.zero with ftz := 1 })
    else if (Val.fin false n f).lt (.fin false m e) then (if s = t then 15 else 0, { CvCount.zero with sat := 1 })
    else
      let q := if e ≤ f then e else f
      let c := q4Nearest (Val.scaled s m e q) (Val.scaled t n f q)
      (c, if c = 7 then { CvCount.zero with ftz := 1 } else .zero)

/-- QENC on operand bits (R123). -/
def qencBits (ftz : Bool) (j a sg mg : Nat) : Nat × CvCount :=
  let (v, raw) := cvSrc .f32 ftz a
  let (c, n) := q4Encode v (cvSrc .f32 ftz sg).1
  let n := if n == .zero && c == 7 && raw.isFinite && !raw.isZero then { CvCount.zero with ftz := 1 } else n
  (setElem 4 mg j c, n)

/-- QENC (R123). A constant merge word is converted under q4x8, eight equal codes (DESIGN CHOICE, log entry 21). -/
def execQenc (h : Head) (j : Fin 8) (d a sg mg : Operand) (s : State) : Out :=
  vecCount s h [(d, 1), (a, 1), (sg, 1), (mg, 1)] d (fun c t =>
    let r := qencBits c.ftz j.val (c.src t .f32 a) (c.src t .f32 sg) (c.src t .q4x8 mg)
    (.word r.1, r.2))

end Sys2Proof.Machine
end

