-- ==== Sys2Proof/Machine/Tile.lean ====
section
/-! DEFINITION. The tile engine (R64 to R66, R90, R206 to R223): reservations and their images, the scoreboard, and
the TILE instructions with the events that complete them. -/

namespace Sys2Proof.Machine

/-! ### Images and reservations (R206, R210, R213) -/

/-- What an unwritten byte of an image reads as. -/
def Image.base (m : Image) (i : Nat) : Byte := m.fill.getD (i % m.fill.length) 0#8

/-- The byte at an offset of an image. -/
def Image.read (m : Image) (i : Nat) : Byte := (assocGet m.cells i).getD (m.base i)

/-- A byte put into a sorted list of cells; the base value removes the cell. -/
def putCell (base : Byte) (i : Nat) (x : Byte) : List (Nat × Byte) → List (Nat × Byte)
  | [] => if x = base then [] else [(i, x)]
  | (j, y) :: r =>
    if i < j then (if x = base then (j, y) :: r else (i, x) :: (j, y) :: r)
    else if i = j then (if x = base then r else (i, x) :: r)
    else (j, y) :: putCell base i x r

def Image.write (m : Image) (i : Nat) (x : Byte) : Image := { m with cells := putCell (m.base i) i x m.cells }

/-- Bytes written from an offset upward. -/
def Image.writeBytes (m : Image) (i : Nat) (bs : List Byte) : Image :=
  match bs with
  | [] => m
  | b :: r => Image.writeBytes (m.write i b) (i + 1) r

def Image.readBytes (m : Image) (i n : Nat) : List Byte := (List.range n).map (fun k => m.read (i + k))

/-- The F32 word at an offset. -/
def Image.word (m : Image) (i : Nat) : Nat := leNat (m.readBytes i 4)

/-- An image of which every byte is `b`. -/
def Image.all (bs : List Byte) : Image := { fill := bs, cells := [] }

/-- The floating-point format of a tile format. -/
def Fmt.format? : Fmt → Option Format
  | .e4 => some fmtE4
  | .e5 => some fmtE5
  | .b16 => some fmtB16
  | .h16 => some fmtH16
  | .f32 => some fmtF32
  | _ => none

/-- Bytes of a data image (R213). -/
def dataBytes (f : Fmt) (r c : Nat) : Nat := r * c * Fmt.halfBytes f / 2

/-- The charge of a reservation (R210). -/
def tileCharge (n : Nat) : Nat := (n + 2047) / 2048 * 2048 + 2048

def Tile.dataBytes (t : Tile) : Nat := Sys2Proof.Machine.dataBytes t.fmt t.rows t.cols

/-- The size of a part, where the format has it (R213). -/
def Tile.partSize? (t : Tile) (p : TilePart) : Option Nat :=
  match p, t.fmt with
  | .data, _ => some t.dataBytes
  | .qs, .q4 => some (t.rows / 64 * t.cols)
  | .super, .q4 => some (4 * t.cols)
  | .affine, .int8 | .affine, .nat8 => some 4
  | _, _ => none

/-- The image of a part. -/
def Tile.image (t : Tile) (p : TilePart) : Image :=
  match p with
  | .data => t.data
  | .qs => t.qs
  | .super => t.super
  | .affine => t.affine

def Tile.setImage (t : Tile) (p : TilePart) (m : Image) : Tile :=
  match p with
  | .data => { t with data := m }
  | .qs => { t with qs := m }
  | .super => { t with super := m }
  | .affine => { t with affine := m }

/-- Reservation `t` of a team. -/
def Team.tile (x : Team) (t : Nat) : Tile := x.tiles.getD t .empty

def State.tile (s : State) (team t : Nat) : Tile :=
  match s.team? team with
  | some x => x.tile t
  | none => .empty

def State.modTile (s : State) (team t : Nat) (f : Tile → Tile) : State :=
  s.modTeam team (fun x => { x with tiles := updAt t f x.tiles })

/-- An F32 pattern is infinite or NaN. -/
def f32Bad (b : Nat) : Bool := !(fmtF32.val b).isFinite

/-- A freshly configured reservation (R210). -/
def Tile.config (f : Fmt) (r c : Nat) (s : Word) : Tile :=
  { conf := true, nf := f32Bad s.toNat, fmt := f, rows := r, cols := c, tscale := s, data := .all [0#8],
    qs := if f == .q4 then .all [0xFF#8] else .all [], super := if f == .q4 then .all [0#8, 0#8, 0x80#8, 0x3F#8] else .all [],
    affine := if f == .int8 || f == .nat8 then .all [0xA0#8, 0#8, 0#8, 0#8] else .all [] }

/-- A scale of the reservation is non-finite (R54, R216). -/
def Tile.scalesBad (t : Tile) : Bool :=
  f32Bad t.tscale.toNat ||
  (match t.fmt with
    | .q4 => (List.range t.cols).any (fun j => f32Bad (t.super.word (4 * j)))
    | .int8 | .nat8 => t.affine.read 0 == 0xFF#8
    | _ => false)

/-- TZERO's value of every data byte (R216). -/
def Tile.zeroByte (t : Tile) : Byte :=
  match t.fmt with
  | .q4 => 0x77#8
  | .int8 | .nat8 => t.affine.read 1
  | _ => 0#8

/-- TZERO's effect (R216). -/
def Tile.zero (t : Tile) : Tile := { t with data := .all [t.zeroByte], nf := t.scalesBad }

/-! ### Element values (R42, R48 to R53) -/

/-- The exact value of an AS8 byte (R51). -/
def as8Val (b : Nat) : Val :=
  if b = 255 then .nan
  else if b / 16 = 0 then .fin false (b % 16) (-13)
  else .fin false (16 + b % 16) ((b / 16 : Nat) - 14)

/-- A stored 8-bit integer with its zero point removed (R52). -/
def intElem (signed : Bool) (q z : Byte) : Int :=
  if signed then q.toInt - z.toInt else (q.toNat : Int) - (z.toNat : Int)

/-- The exact value of element (i, j) with its block, super or affine scale, the tile scale aside (R64). -/
def Tile.elem (t : Tile) (i j : Nat) : Val :=
  let e := i * t.cols + j
  match t.fmt with
  | .e4 => fmtE4.val (t.data.read e).toNat
  | .e5 => fmtE5.val (t.data.read e).toNat
  | .b16 => fmtB16.val (leNat (t.data.readBytes (2 * e) 2))
  | .h16 => fmtH16.val (leNat (t.data.readBytes (2 * e) 2))
  | .f32 => fmtF32.val (leNat (t.data.readBytes (4 * e) 4))
  | .int8 => Val.mul (as8Val (t.affine.read 0).toNat) (Val.ofInt (intElem true (t.data.read e) (t.affine.read 1)))
  | .nat8 => Val.mul (as8Val (t.affine.read 0).toNat) (Val.ofInt (intElem false (t.data.read e) (t.affine.read 1)))
  | .q4 =>
    let code := (t.data.read (e / 2)).toNat / (if e % 2 = 0 then 1 else 16) % 16
    let u := (t.qs.read (i / 64 * t.cols + j)).toNat
    Val.mul (Val.mul (q4Val code) (fmtF32.val (t.super.word (4 * j)))) (.fin false (u + 1) (-8))

/-- The stored element is a zero encoding (R218). -/
def Tile.elemZero (t : Tile) (i j : Nat) : Bool :=
  let e := i * t.cols + j
  match t.fmt with
  | .int8 | .nat8 => t.data.read e == t.affine.read 1
  | .q4 => (t.data.read (e / 2)).toNat / (if e % 2 = 0 then 1 else 16) % 16 == 7
  | _ => (t.elem i j).isZero

/-! ### Matrix multiply-accumulate (R64, R65, R217, R218) -/

/-- The pairs of formats that MMA takes (R217). -/
def mmaPair (a b : Fmt) : Bool :=
  match a, b with
  | .e4, .e4 | .e4, .e5 | .e4, .q4 | .e5, .e4 | .e5, .e5 | .e5, .q4 => true
  | .int8, .int8 | .int8, .nat8 | .nat8, .int8 | .nat8, .nat8 => true
  | .b16, .b16 | .b16, .q4 | .h16, .h16 => true
  | _, _ => false

/-- The shape of a product: rows and columns that it updates, and K (R217); none where TILE_CONFIG is raised. -/
def mmaShape (a b : Tile) (tra trb : Bool) (x y : Nat) : Option (Nat × Nat × Nat) :=
  let m := if tra then a.cols else a.rows
  let k := if tra then a.rows else a.cols
  let n := if trb then b.rows else b.cols
  let kb := if trb then b.cols else b.rows
  if !a.conf || !b.conf || k != kb || decide (x ≥ m) || decide (y ≥ n) || !mmaPair a.fmt b.fmt || (b.fmt == .q4 && trb) then none
  else some (Nat.min 32 (m - x), Nat.min 32 (n - y), k)

/-- A(i, k) and B(k, j) of R217. -/
def mmaA (a : Tile) (tra : Bool) (i k : Nat) : Val := if tra then a.elem k i else a.elem i k
def mmaB (b : Tile) (trb : Bool) (k j : Nat) : Val := if trb then b.elem j k else b.elem k j

/-- The exact sum of the products of one chunk (R64, R65). -/
def chunkSum (va vb : Nat → Val) (lo hi : Nat) : Val :=
  (List.range (hi - lo)).foldl (fun acc i => Val.add .rn acc (Val.mul (va (lo + i)) (vb (lo + i)))) (.fin false 0 0)

/-- One chunk sum added into an accumulator word (R64). -/
def addChunk (acc : Word) (s : Val) : Word :=
  if s.isNan then 0x7FC00000#32
  else if s.isZero then acc
  else BitVec.ofNat 32 (fmtF32.ofVal .rn false false (Val.add .rn (fmtF32.val acc.toNat) s)).bits

/-- One element of the block after MMA (R64). -/
def mmaElem (va vb : Nat → Val) (k : Nat) (tsA tsB : Val) (acc : Word) : Word :=
  (List.range ((k + 31) / 32)).foldl (fun acc c =>
    addChunk acc (Val.mul (Val.mul (chunkSum va vb (32 * c) (Nat.min (32 * c + 32) k)) tsA) tsB)) acc

/-- Byte address of element (r, c) of a block in the team's accumulator blocks (R258). -/
def accAddr (n r c : Nat) : Nat := 4096 * n + 128 * r + 4 * c

/-- MMA's effect on the accumulator blocks (R217). -/
def mmaAcc (acc : Memory) (a b : Tile) (tra trb : Bool) (n x y : Nat) : Memory :=
  match mmaShape a b tra trb x y with
  | none => acc
  | some (m, w, k) =>
    let tsA := fmtF32.val a.tscale.toNat
    let tsB := fmtF32.val b.tscale.toNat
    (List.range (m * w)).foldl (fun acc e =>
      let i := e / w
      let j := e % w
      acc.writeWord (accAddr n i j) (mmaElem (mmaA a tra (x + i)) (fun k => mmaB b trb k (y + j)) k tsA tsB
        (acc.readWord (accAddr n i j)))) acc

/-- The cycles that MMA occupies the array (R218, R219). -/
def mmaCycles (a b : Tile) (tra trb : Bool) (x y : Nat) : Nat :=
  match mmaShape a b tra trb x y with
  | none => 0
  | some (m, _, k) =>
    let skip := fun i => !a.nf && !b.nf && (List.range m).all (fun r => if tra then a.elemZero i (x + r) else a.elemZero (x + r) i)
    let live := ((List.range k).filter (fun i => !skip i)).length
    let per := if a.fmt == .b16 || a.fmt == .h16 then 16 else 32
    (live + per - 1) / per

/-! ### The scoreboard (R90, R211) -/

/-- What an action reads and writes: reservations, and accumulator block ranges as first and count. -/
structure TileUse where
  rt : List Nat
  wt : List Nat
  rb : List (Nat × Nat)
  wb : List (Nat × Nat)

def TileAct.uses : TileAct → TileUse
  | .tcfg t | .trel t | .tld t _ _ _ | .tzero t => { rt := [], wt := [t], rb := [], wb := [] }
  | .tst t _ _ => { rt := [t], wt := [], rb := [], wb := [] }
  | .mma a b _ _ n _ _ => { rt := [a, b], wt := [], rb := [], wb := [(n, 1)] }
  | .accld n _ _ _ => { rt := [], wt := [], rb := [(n, 1)], wb := [] }
  | .accst n _ _ _ => { rt := [], wt := [], rb := [], wb := [(n, 1)] }
  | .accz n k => { rt := [], wt := [], rb := [], wb := [(n, k)] }
  | .acccvt _ _ _ n _ _ => { rt := [], wt := [], rb := [(n, 1)], wb := [] }

/-- Two block ranges share a block. -/
def blocksMeet (a b : List (Nat × Nat)) : Bool :=
  a.any (fun x => b.any (fun y => decide (x.1 < y.1 + y.2 ∧ y.1 < x.1 + x.2)))

/-- One writes what the other reads or writes (R90). -/
def TileUse.conflicts (a b : TileUse) : Bool :=
  a.wt.any (fun t => b.rt.contains t || b.wt.contains t) || b.wt.any (fun t => a.rt.contains t) ||
  blocksMeet a.wb b.rb || blocksMeet a.wb b.wb || blocksMeet b.wb a.rb

/-- The action names the reservation. -/
def TileAct.names (a : TileAct) (t : Nat) : Bool := (a.uses.rt ++ a.uses.wt).contains t

/-- TCFG and TREL have completed one cycle after acceptance (R211). -/
def TileOp.over (o : TileOp) (clk : Nat) : Bool :=
  match o.act, o.due with
  | .tcfg _, some d | .trel _, some d => decide (d ≤ clk)
  | _, _ => false

/-- An earlier action of the team that conflicts with these has not completed. -/
def State.tileHeld (s : State) (team : Nat) (acts : List TileAct) (before : Nat) : Bool :=
  s.tileOps.any (fun o => o.team == team && decide (o.id < before) && !o.over s.clk &&
    acts.any (fun a => a.uses.conflicts o.act.uses))

/-- An operation naming the reservation is outstanding (R211). -/
def State.tileBusy (s : State) (team t : Nat) : Bool :=
  s.tileOps.any (fun o => o.team == team && !o.over s.clk && o.act.names t)

/-- The action may start or complete: it conflicts with no earlier one. -/
def State.tileFree (s : State) (o : TileOp) : Bool := !s.tileHeld o.team [o.act] o.id

/-- The operation is due. -/
def State.tileDue (s : State) (o : TileOp) : Bool :=
  s.tileFree o && (match o.due with
    | some d => decide (d ≤ s.clk)
    | none => false)

/-! ### Acceptance (R90, R208) -/

/-- The instruction waits at its port for the scoreboard. -/
def State.holdTile (s : State) (c : Ctx) (i : Instr) : State :=
  s.modCore c.core (fun k => k.setPort c.port { k.port c.port with tile := some i })

/-- One action of an instruction: the thread that issues it, what it does, the cycles it takes, its barrier and the
lines it clears. -/
structure TileReq where
  tid : Nat
  act : TileAct
  after : Option Nat
  bar : Option Nat
  lines : List Loc

/-- The actions of an instruction enter the engine in order: TLCNT and CPEND rise. -/
def State.tileEnter (s : State) (c : Ctx) (who : Nat → List Nat) (rs : List TileReq) : State :=
  let first := s.nextId
  rs.foldl (fun (s : State) r =>
    let o : TileOp := {
      id := s.nextId, instr := first, core := c.core, team := c.grp.team, tid := r.tid, role := c.grp.role, pc := c.pc,
      act := r.act, bar := r.bar, arrives := true, counted := who r.tid, cleared := r.lines,
      due := r.after.map (fun n => s.clk + n), early := [] }
    let s : State := { s.bumpId with tileOps := s.tileOps ++ [o] }
    let s := s.barIssue c.grp.team r.bar 1
    s.modThreads c.grp.team (who r.tid) (fun t => { t with tlcnt := t.tlcnt + 1 })) s

/-- TLCNT of a participant would pass 255 (R300). -/
def Ctx.tileFull (c : Ctx) (h : Head) : Bool := (c.parts h).any (fun t => decide (t.tlcnt ≥ 255))

/-- The threads that an action counts: its own, or with U = 1 every participant (R77). -/
def Ctx.who (c : Ctx) (h : Head) (tid : Nat) : List Nat := if h.u then (c.parts h).map (·.tid) else [tid]

/-- The first cause that holds, in the order of R208. -/
def firstCause (l : List (Bool × Cause)) : Option Cause := (l.find? (fun p => p.1)).map (·.2)

/-- A TILE instruction with one action for each actor: held by the scoreboard, refused for the whole group, stalled,
or accepted with its effect at acceptance `k` (R208). -/
def tileForm (s : State) (i : Instr) (h : Head) (ops : List (Operand × Nat)) (scored : Bool)
    (act : Ctx → Thread → TileAct × Option Nat) (checks : Ctx → List (Bool × Cause)) (k : Ctx → State → State) : Out :=
  run s ops (fun c =>
    let as := (c.actors h).map (fun t => (t, act c t))
    if as.isEmpty then s.advance
    else if scored && s.tileHeld c.grp.team (as.map (·.2.1)) s.nextId then s.holdTile c i
    else
      match firstCause (checks c) with
      | some e => s.trapGroup c e none
      | none =>
        if c.tileFull h then s
        else
          k c (s.advance.tileEnter c (c.who h) (as.map (fun p =>
            { tid := p.1.tid, act := p.2.1, after := p.2.2, bar := none, lines := [] }))))

/-- Charges of the configured reservations of a team (R210). -/
def Team.charged (t : Team) : Nat := ((t.tiles.filter (·.conf)).map (fun x => tileCharge x.dataBytes)).sum

/-- TCFG's checks for one action (R210), with `conf` whether Tt is configured. -/
def tcfgBad (team : Team) (space : Nat) (conf : Bool) (f : Fmt) (r c : Nat) : Bool :=
  conf || decide (r < 1 ∨ 256 < r ∨ c < 1 ∨ 256 < c) || decide (dataBytes f r c > 65536) ||
    (f == .q4 && (r % 64 != 0 || c % 2 != 0)) || decide (team.charged + tileCharge (dataBytes f r c) > space)

/-- TCFG (R208, R210, R211): its checks are made on the state at acceptance for every action, and the actions configure Tt
in ascending position. -/
def execTcfg (h : Head) (t : Fin 16) (fmt : Fmt) (sc r k : Operand) (s : State) : Out :=
  let scale := fun (c : Ctx) x => if sc.isNone then 0x3F800000#32 else BitVec.ofNat 32 (c.src x .f32 sc)
  tileForm s (.tcfg h t fmt sc r k) h [(sc, 1), (r, 1), (k, 1)] false (fun _ _ => (.tcfg t.val, some 1))
    (fun c =>
      let as := c.actors h
      [(as.any (fun x => tcfgBad c.team c.launch.kernel.tiles (s.tile c.grp.team t.val).conf fmt
          (c.val x r).toNat (c.val x k).toNat), .tileConfig),
       (s.tileBusy c.grp.team t.val, .tileBusy)])
    (fun c s => (c.actors h).foldl (fun (s : State) x =>
      s.modTile c.grp.team t.val (fun _ => Tile.config fmt (c.val x r).toNat (c.val x k).toNat (scale c x))) s)

/-- TREL (R211). -/
def execTrel (h : Head) (t : Fin 16) (s : State) : Out :=
  tileForm s (.trel h t) h [] false (fun _ _ => (.trel t.val, some 1))
    (fun c => [(s.tileBusy c.grp.team t.val, .tileBusy)])
    (fun c s => s.modTile c.grp.team t.val (fun _ => .empty))

/-- TZERO (R216). -/
def execTzero (h : Head) (t : Fin 16) (s : State) : Out :=
  tileForm s (.tzero h t) h [] true
    (fun c _ => (.tzero t.val, some (((c.team.tile t.val).dataBytes + 2047) / 2048 + 1)))
    (fun c => [(!(c.team.tile t.val).conf, .tileConfig)]) (fun _ s => s)

/-- A block range runs past the team's blocks (R209). -/
def Ctx.accBad (c : Ctx) (n k : Nat) : Bool := decide (n + k > c.launch.kernel.acc)

/-- An optional operand as a number, 0 for NONE. -/
def Ctx.valZ (c : Ctx) (t : Thread) (o : Operand) : Nat := (c.valOr t o 0#32).toNat

/-- MMA (R217). -/
def execMma (h : Head) (ta tb : Fin 16) (tra trb : Bool) (n x y : Operand) (s : State) : Out :=
  tileForm s (.mma h ta tb tra trb n x y) h [(n, 1), (x, 1), (y, 1)] true
    (fun c t => (.mma ta.val tb.val tra trb (c.val t n).toNat (c.valZ t x) (c.valZ t y), none))
    (fun c =>
      [((c.actors h).any (fun t => (mmaShape (c.team.tile ta.val) (c.team.tile tb.val) tra trb (c.valZ t x) (c.valZ t y)).isNone), .tileConfig),
       ((c.actors h).any (fun t => c.accBad (c.val t n).toNat 1), .accRange)]) (fun _ s => s)

/-- ACCZ (R220). -/
def execAccz (h : Head) (n cnt : Operand) (s : State) : Out :=
  let k := fun (c : Ctx) t => (c.valOr t cnt 1#32).toNat
  tileForm s (.accz h n cnt) h [(n, 1), (cnt, 1)] true
    (fun c t => (.accz (c.val t n).toNat (k c t), some ((k c t + 7) / 8)))
    (fun c => [((c.actors h).any (fun t => decide (k c t < 1 ∨ 1024 < k c t) || c.accBad (c.val t n).toNat (k c t)), .accRange)])
    (fun _ s => s)

/-- The limits of ACCLD and ACCST on one actor (R221). -/
def Ctx.accCell (c : Ctx) (t : Thread) (w : Nat) (n r k : Operand) : Bool :=
  c.accBad (c.val t n).toNat 1 || decide ((c.val t r).toNat > 31 ∨ (c.val t k).toNat + w > 32)

/-- ACCLD (R221): its result is pending under R87, under the identifier of its action. -/
def execAccld (h : Head) (la : Fin 16) (w : Fin 6) (d n r k : Operand) (s : State) : Out :=
  let words := 2 ^ w.val
  tileForm s (.accld h la w d n r k) h [(d, words), (n, 1), (r, 1), (k, 1)] true
    (fun c t => (.accld (c.val t n).toNat (c.val t r).toNat (c.val t k).toNat words, some 8))
    (fun c => [((c.actors h).any (fun t => c.accCell t words n r k), .accRange)])
    (fun c s' => ((c.actors h).mapIdx (fun i t => (i, t))).foldl (fun (s' : State) p =>
      s'.modThreads c.grp.team (c.who h p.2.tid) (fun t => t.addPending (s.nextId + p.1) (Operand.dest? d) words la.val)) s')

/-- ACCST (R221). -/
def execAccst (h : Head) (w : Fin 6) (v n r k : Operand) (s : State) : Out :=
  let words := 2 ^ w.val
  tileForm s (.accst h w v n r k) h [(v, words), (n, 1), (r, 1), (k, 1)] true
    (fun c t => (.accst (c.val t n).toNat (c.val t r).toNat (c.val t k).toNat (c.data t words v), some 2))
    (fun c => [((c.actors h).any (fun t => c.accCell t words n r k), .accRange)]) (fun _ s => s)

/-! ### Chunks (R214, R215) -/

/-- Bytes of a CH code (R207). -/
def chunkBytes (ch : Nat) : Nat := 4 * 2 ^ ch

/-- TILE_CONFIG of TLD and TST (R213, R214): unconfigured, no such part, a misaligned offset, or a chunk outside. -/
def Ctx.chunkBad (c : Ctx) (h : Head) (t : Tile) (part : TilePart) (n o : Nat) : Bool :=
  !t.conf ||
  (match t.partSize? part with
    | none => true
    | some size => o % 4 != 0 || (c.parts h).any (fun x => decide (o + (c.special x .ridx).toNat * n + n > size)))

/-- The lanes of TLD and TST: those that pass the checks of R167 with their chunks, and the faults. -/
def State.chunkLanes (s : State) (c : Ctx) (h : Head) (a : Operand) (n o : Nat) :
    List (Nat × Loc × Nat) × List (Nat × Cause × DWord) :=
  (c.parts h).foldl (fun r t =>
    let addr := (c.val t a).toNat
    if addr % n != 0 then (r.1, r.2 ++ [(t.tid, .misalign, BitVec.ofNat 64 addr)])
    else
      match s.scratch c.launch c.grp.team addr n with
      | .ok l => (r.1 ++ [(t.tid, l, o + (c.special t .ridx).toNat * n)], r.2)
      | .error e => (r.1, r.2 ++ [(t.tid, e, BitVec.ofNat 64 addr)])) ([], [])

/-- Cycles in which chunks move (R214): 256 bytes a cycle from or into LSM, 64 bytes a cycle for DSM. -/
def moveCycles (ls : List Loc) (n : Nat) : Nat :=
  let dsm := (ls.filter (fun l => l.space == .dsm)).length * n
  let lsm := ls.length * n - dsm
  Nat.max 1 ((lsm + 255) / 256 + (dsm + 63) / 64)

/-- An operation with a scratch destination leaves issue as a copy does (R168, R169, R187, R188): none while it
stalls, for what is ordered before its reads too (R318). -/
def State.claim (s : State) (c : Ctx) (tids : List Nat) (ks : List Lock) (dst src : List (Loc × Nat)) (rel : Bool) : Option State :=
  if s.loadsStuck c.grp.team tids dst src rel || s.orderWait (s.threadsOf c.grp.team tids) then none
  else (s.takeLocks c.core ks).map (fun s => s.clearLines (dst.flatMap (fun p => linesOf p.1 p.2)))

/-- TLD and TST (R214, R215): one operation for the group. -/
def chunkForm (s : State) (i : Instr) (h : Head) (t : Nat) (store : Bool) (part : TilePart) (ch : Nat) (a o : Operand)
    (bar : Option Nat) : Out :=
  run s [(a, 1), (o, 1)] (fun c =>
    match c.parts h with
    | [] => (s.sample c h [] 0 false).advance
    | lead :: _ =>
      let n := chunkBytes ch
      let ofs := c.valZ lead o
      let mk := fun l => if store then TileAct.tst t l n else TileAct.tld t part l n
      if s.tileHeld c.grp.team [mk []] s.nextId || (bar.isSome && s.acquiring (c.parts h)) then s.holdTile c i
      else
        match firstCause [(c.chunkBad h (c.team.tile t) part n ofs, .tileConfig), (!s.barValid c.grp.team bar, .barrierState)] with
        | some e => s.trapGroup c e none
        | none =>
          let (good, bad) := s.chunkLanes c h a n ofs
          if good.isEmpty then s.laneSplit c bad (fun s => s.sample c h [] 0 false)
          else if c.tileFull h || !s.barRoom c.grp.team bar 1 then s
          else
            let tids := good.map (·.1)
            let rs : List (Loc × Nat) := good.map (fun g => (g.2.1, n))
            let locks := sideLocks s.nextId c.grp.team store rs
            let cyc := moveCycles (good.map (·.2.1)) n
            let lines := if store then (rs.flatMap (fun p => linesOf p.1 p.2)).dedup else []
            match s.claim c tids locks (if store then rs else []) (if store then [] else rs) (!store) with
            | none => s
            | some s' => s'.laneSplit c bad (fun s' =>
              let s' := s'.tileEnter c (fun _ => tids) [{
                tid := lead.tid, act := mk good, after := some (if store then cyc else cyc + 3), bar := bar, lines := lines }]
              s'.sample c h [(s.nextId, 0)] (countLines rs) false))

/-- TLD (R214). -/
def execTld (h : Head) (t : Fin 16) (bar : BarSel) (part : TilePart) (ch : Fin 6) (a o : Operand) (s : State) : Out :=
  chunkForm s (.tld h t bar part ch a o) h t.val false part ch.val a o (barNum bar)

/-- TST (R215). -/
def execTst (h : Head) (t : Fin 16) (bar : BarSel) (ch : Fin 6) (a o : Operand) (s : State) : Out :=
  chunkForm s (.tst h t bar ch a o) h t.val true .data ch.val a o (barNum bar)

/-! ### ACCCVT (R222) -/

/-- One actor of ACCCVT: its place, or its lane fault. -/
def State.cvtLane (s : State) (c : Ctx) (f : Fmt) (addr : Nat) : Except Cause Loc :=
  if addr % 128 != 0 then .error .misalign else s.scratch c.launch c.grp.team addr (cvtBytes f)

/-- ACCCVT (R222): one action for each actor, each with its own arrival; their destinations are one locked hull. -/
def execAcccvt (h : Head) (fmt : Fmt) (rm : Rm) (sat : Bool) (bar : BarSel) (n a sc : Operand) (s : State) : Out :=
  run s [(n, 1), (a, 1), (sc, 1)] (fun c =>
    let b := barNum bar
    let addr := fun t => (c.val t a).toNat
    let act := fun (t : Thread) (l : Loc) => TileAct.acccvt fmt rm sat (c.val t n).toNat l
      (if sc.isNone then none else some (BitVec.ofNat 32 (c.src t .f32 sc)))
    let as := c.actors h
    if as.isEmpty then s.advance
    else if s.tileHeld c.grp.team (as.map (fun t => act t ⟨.dsm, 0⟩)) s.nextId || (b.isSome && s.acquiring (c.parts h)) then s.holdTile c (.acccvt h fmt rm sat bar n a sc)
    else
      match firstCause [(as.any (fun t => c.accBad (c.val t n).toNat 1), .accRange), (!s.barValid c.grp.team b, .barrierState)] with
      | some e => s.trapGroup c e none
      | none =>
        let good : List (Thread × Loc) := as.filterMap (fun t => match s.cvtLane c fmt (addr t) with
          | .ok l => some (t, l)
          | .error _ => none)
        let bad := as.flatMap (fun t => match s.cvtLane c fmt (addr t) with
          | .ok _ => []
          | .error e => (c.who h t.tid).map (fun i => (i, e, BitVec.ofNat 64 (addr t))))
        if good.isEmpty then s.laneSplit c bad (fun s => s)
        else if c.tileFull h || !s.barRoom c.grp.team b good.length then s
        else
          let rs : List (Loc × Nat) := good.map (fun p => (p.2, cvtBytes fmt))
          match s.claim c (good.map (·.1.tid)) (sideLocks s.nextId c.grp.team true rs) rs [] false with
          | none => s
          | some s' => s'.laneSplit c bad (fun s' => s'.tileEnter c (c.who h) (good.map (fun p =>
              { tid := p.1.tid, act := act p.1 p.2, after := some 16, bar := b, lines := linesOf p.2 (cvtBytes fmt) }))))

/-- The type under which an element is converted (R206, R222). -/
def Fmt.ty : Fmt → Ty
  | .e4 => .e4x4
  | .e5 => .e5x4
  | .b16 => .b16x2
  | .h16 => .h16x2
  | _ => .f32

/-- One element converted, with its events (R222). MODE.FTZ has no effect. -/
def cvtAcc (f : Fmt) (rm : Rm) (sat : Bool) (scale : Option Word) (x : Word) : Nat × CvCount :=
  if f == .f32 && scale.isNone then (x.toNat, .zero)
  else
    let v := fmtF32.val x.toNat
    let v := match scale with
      | some k => Val.mul v (fmtF32.val k.toNat)
      | none => v
    let y := cvElem (Fmt.ty f) rm sat false v v
    (y.bits, y.count)

/-- The bytes of a converted block from byte `lo`, and all its events. -/
def cvtBlock (acc : Memory) (f : Fmt) (rm : Rm) (sat : Bool) (n : Nat) (scale : Option Word) (lo len : Nat) : List Byte :=
  let w := Fmt.halfBytes f / 2
  (List.range (len / w)).flatMap (fun i =>
    leBytes w (cvtAcc f rm sat scale (acc.readWord (accAddr n 0 0 + 4 * (lo / w + i)))).1)

def cvtEvents (acc : Memory) (f : Fmt) (rm : Rm) (sat : Bool) (n : Nat) (scale : Option Word) : CvCount :=
  (List.range 1024).foldl (fun k i => k.add (cvtAcc f rm sat scale (acc.readWord (accAddr n 0 0 + 4 * i))).2) .zero

/-! ### Completion -/

/-- The accumulator blocks of a team. -/
def State.accOf (s : State) (team : Nat) : Memory :=
  match s.team? team with
  | some t => t.acc
  | none => []

/-- An operation found by its identifier and kind, when it may complete: no trip has stopped its core (R387). -/
def State.tileReady (s : State) (op : Nat) (p : TileAct → Bool) : Option TileOp :=
  match s.tileOp? op with
  | some o => if p o.act && s.tileDue o && !s.power.tripped then some o else none
  | none => none

/-- An MMA that the core's engine has accepted earlier has not yet started (R29). -/
def State.mmaBehind (s : State) (o : TileOp) : Bool :=
  s.tileOps.any (fun z => z.core == o.core && decide (z.id < o.id) && z.due.isNone)

/-- MMA_START (R29, R219): the array is free, the scoreboard releases it, and it is the oldest that waits. -/
def execMmaStart (op : Nat) (s : State) : Out :=
  match s.tileOp? op with
  | none => .next s
  | some o =>
    match o.act, o.due, s.core? o.core with
    | .mma a b tra trb _ x y, none, some k =>
      if k.arrayFree > s.clk || !s.tileFree o || s.mmaBehind o || s.power.tripped then .next s
      else
        let n := mmaCycles (s.tile o.team a) (s.tile o.team b) tra trb x y
        let s : State := { s with tileOps := updWhere (fun z => z.id == op) (fun z => { z with due := some (s.clk + n + 16) }) s.tileOps }
        .next (s.modCore o.core (fun k => { k with arrayFree := s.clk + n }))
    | _, _, _ => .next s

/-- MMA_COMPLETION (R219). -/
def execMmaCompletion (op : Nat) (s : State) : Out :=
  match s.tileReady op (fun a => match a with
    | .mma .. => true
    | _ => false) with
  | none => .next s
  | some o =>
    match o.act with
    | .mma a b tra trb n x y =>
      let s := s.modTeam o.team (fun t => { t with acc := mmaAcc t.acc (t.tile a) (t.tile b) tra trb n x y })
      .next (s.finishTile o).settle
    | _ => .next s

/-- A chunk of a TLD: words read earlier keep their values (R214); `i` is the chunk's first word among them. -/
def State.chunkWords (s : State) (o : TileOp) (i tid : Nat) (l : Loc) (n : Nat) : List Byte :=
  bytesOfWords ((wordsOf (s.engineView o.team [tid] o.id true l n)).mapIdx (fun k w => (assocGet o.early (i + k)).getD w))

/-- The loaded bytes set the non-finite flag (R212); `d` is their offset in the image. -/
def loadsBad (f : Fmt) (part : TilePart) (d : Nat) (bs : List Byte) : Bool :=
  match part with
  | .data => (match f with
    | .e4 => bs.any (fun b => !(fmtE4.val b.toNat).isFinite)
    | .e5 => bs.any (fun b => !(fmtE5.val b.toNat).isFinite)
    | .b16 => (List.range (bs.length / 2)).any (fun i => !(fmtB16.val (leNat ((bs.drop (2 * i)).take 2))).isFinite)
    | .h16 => (List.range (bs.length / 2)).any (fun i => !(fmtH16.val (leNat ((bs.drop (2 * i)).take 2))).isFinite)
    | _ => false)
  | .super => (wordsOf bs).any (fun w => f32Bad w.toNat)
  | .affine => d == 0 && bs.headD 0#8 == 0xFF#8
  | .qs => false

/-- Bytes loaded into a part (R213): bytes 2 and 3 of the affine part are stored as 0. -/
def Tile.load (t : Tile) (part : TilePart) (d : Nat) (bs : List Byte) : Tile :=
  let bs := if part == .affine then bs.mapIdx (fun i b => if d + i ≥ 2 then 0#8 else b) else bs
  { (t.setImage part ((t.image part).writeBytes d bs)) with nf := t.nf || loadsBad t.fmt part d bs }

/-- The chunks can all be read now (R187, R214). -/
def State.chunksReady (s : State) (o : TileOp) (cs : List (Nat × Loc × Nat)) (n : Nat) : Bool :=
  cs.all (fun c => s.engineReady o.team [c.1] o.id c.2.1 n true)

/-- The reads of some chunks are noted, of the words that have not been read earlier (R316). -/
def State.noteChunks (s : State) (o : TileOp) (cs : List (Nat × Loc × Nat)) (n : Nat) : State :=
  ((cs.mapIdx (fun i c => (i, c))).flatMap (fun p => (List.range (n / 4)).map (fun k => (p.1 * (n / 4) + k, p.2.1, k, p.2.2.1)))).foldl
    (fun (s : State) w => if (assocGet o.early w.1).isSome then s
      else s.noteEngine o.team [w.2.1] o.id true { w.2.2.2 with addr := w.2.2.2.addr + 4 * w.2.2.1 } 4) s

/-- TLD_COMPLETION (R212 to R214). -/
def execTldCompletion (op : Nat) (s : State) : Out :=
  match s.tileReady op (fun a => match a with
    | .tld .. => true
    | _ => false) with
  | none => .next s
  | some o =>
    match o.act with
    | .tld t part cs n =>
      if !s.chunksReady o cs n then .next s
      else
        let got := cs.mapIdx (fun i c => (c.2.2, s.chunkWords o (i * (n / 4)) c.1 c.2.1 n))
        let bad := cs.findSome? (fun c => s.badAt c.2.1 n)
        let s := (s.noteChunks o cs n).modTile o.team t (fun x => got.foldl (fun x g => x.load part g.1 g.2) x)
        .next ((s.finishTile o).stopBad o.team bad).settle
    | _ => .next s

/-- A TLD reads one word before its completion. -/
def State.sampleTld (s : State) (o : TileOp) (word : Nat) : State :=
  match o.act with
  | .tld _ _ cs n =>
    (match cs[word / (n / 4)]? with
      | none => s
      | some c =>
        if !s.tileFree o || (assocGet o.early word).isSome || !s.engineReady o.team [c.1] o.id c.2.1 n true then s
        else
          let l : Loc := { c.2.1 with addr := c.2.1.addr + 4 * (word % (n / 4)) }
          let w : Word := BitVec.ofNat 32 (leNat (s.engineView o.team [c.1] o.id true l 4))
          let bad := s.badAt l 4
          let s : State := { s.noteEngine o.team [c.1] o.id true l 4 with tileOps := updWhere (fun x => x.id == o.id) (fun x => { x with early := assocSet x.early word w }) s.tileOps }
          s.stopBad o.team bad)
  | _ => s

/-- What a TST or ACCCVT writes: places and bytes, in ascending position. -/
def State.tileWrites (s : State) (o : TileOp) : List (Nat × Loc × List Byte) :=
  match o.act with
  | .tst t cs n => cs.map (fun c => (c.1, c.2.1, (s.tile o.team t).data.readBytes c.2.2 n))
  | .acccvt f rm sat n dst k => (List.range (cvtBytes f / 128)).map (fun i =>
      (o.tid, { dst with addr := dst.addr + 128 * i }, cvtBlock (s.accOf o.team) f rm sat n k (128 * i) 128))
  | _ => []

/-- The bytes of a write that lie in one line. -/
def clipLine (line : Loc) (l : Loc) (bs : List Byte) : Loc × List Byte :=
  let lo := Nat.max line.addr l.addr
  let hi := Nat.min (line.addr + 128) (l.addr + bs.length)
  ({ l with addr := lo }, (bs.drop (lo - l.addr)).take (hi - lo))

/-- The part of an operation's writes that falls into one of its lines still to land. -/
def State.lineWrites (s : State) (o : TileOp) (line : Loc) : List (Nat × Loc × List Byte) :=
  ((s.tileWrites o).filter (fun w => overlaps w.2.1 w.2.2.length line 128)).map (fun w =>
    let c := clipLine line w.2.1 w.2.2
    (w.1, c.1, c.2))

/-- A line of an operation can land now. -/
def State.lineLands (s : State) (o : TileOp) (line : Loc) : Bool :=
  (s.lineWrites o line).all (fun w => s.landReady o.team w.1 o.id w.2.1 w.2.2.length)

/-- The threads whose write a TST or ACCCVT makes: with U = 1 the one action of ACCCVT is every participant's (R77). -/
def TileOp.takers (o : TileOp) (tid : Nat) : List Nat :=
  match o.act with
  | .acccvt .. => o.counted
  | _ => [tid]

/-- A line of an operation lands. -/
def State.landTile (s : State) (o : TileOp) (line : Loc) : State :=
  let s := (s.lineWrites o line).foldl (fun (s : State) w => s.engineWrite o.team (o.takers w.1) o.id w.2.1 w.2.2) s
  let s : State := { s with tileOps := updWhere (fun x => x.id == o.id) (fun x => { x with cleared := x.cleared.filter (fun l => l != line) }) s.tileOps }
  s.freeLines [line]

/-- One line of a TST or ACCCVT lands before its completion, but for the last, which lands with it (R168, R189, R215,
R222). -/
def State.sampleTile (s : State) (o : TileOp) (i : Nat) : State :=
  match o.cleared[i]? with
  | none => s.sampleTld o i
  | some l => if s.tileFree o && s.lineLands o l && decide (2 ≤ o.cleared.length) then s.landTile o l else s

/-- The lines still to land do so (R189): the last of them in one step with the freeing of the locks. -/
def State.landAll (s : State) (o : TileOp) : State :=
  let ws := o.cleared.flatMap (fun l => s.lineWrites o l)
  ws.foldl (fun (s : State) w => s.engineWrite o.team (o.takers w.1) o.id w.2.1 w.2.2) s

/-- TST_COMPLETION (R215). -/
def execTstCompletion (op : Nat) (s : State) : Out :=
  match s.tileReady op (fun a => match a with
    | .tst .. => true
    | _ => false) with
  | none => .next s
  | some o => if o.cleared.all (fun l => s.lineLands o l) then .next ((s.landAll o).finishTile o).settle else .next s

/-- TZERO_COMPLETION (R216). -/
def execTzeroCompletion (op : Nat) (s : State) : Out :=
  match s.tileReady op (fun a => match a with
    | .tzero _ => true
    | _ => false) with
  | none => .next s
  | some o =>
    match o.act with
    | .tzero t => .next ((s.modTile o.team t Tile.zero).finishTile o).settle
    | _ => .next s

/-- Consecutive words of a block. -/
def accWords (acc : Memory) (n r c w : Nat) : List Word := (List.range w).map (fun i => acc.readWord (accAddr n r (c + i)))

/-- Words stored to consecutive elements of a block. -/
def accStore (acc : Memory) (n r c : Nat) (ws : List Word) : Memory := acc.writeBytes (accAddr n r c) (bytesOfWords ws)

/-- ACCLD_RESULT_ARRIVAL (R221). -/
def execAccldResultArrival (op : Nat) (s : State) : Out :=
  match s.tileReady op (fun a => match a with
    | .accld .. => true
    | _ => false) with
  | none => .next s
  | some o =>
    match o.act with
    | .accld n r c w =>
      let ws := accWords (s.accOf o.team) n r c w
      let s := s.modThreads o.team o.counted (fun t => t.arrive op ws)
      .next ((s.finishTile o).enterAll o.team).settle
    | _ => .next s

/-- TILE_COMPLETION: TCFG, TREL, ACCST or ACCZ completes (R211, R220, R221). -/
def execTileCompletion (op : Nat) (s : State) : Out :=
  match s.tileReady op (fun a => match a with
    | .tcfg _ | .trel _ | .accst .. | .accz .. => true
    | _ => false) with
  | none => .next s
  | some o =>
    let s := match o.act with
      | .accst n r c ws => s.modTeam o.team (fun t => { t with acc := accStore t.acc n r c ws })
      | .accz n k => s.modTeam o.team (fun t => { t with
          acc := t.acc.filter (fun x => !decide (4096 * n ≤ x.1 ∧ x.1 < 4096 * (n + k))) })
      | _ => s
    .next (s.finishTile o).settle

/-- ACCCVT_COMPLETION (R61 to R63, R222): the bytes land, the counts are added, and the action that crosses a
threshold makes its thread due for CONVERT_LIMIT at its next header: of two actions that do so before it, one trap follows,
with the address of the later (DESIGN CHOICE, log entry 21). -/
def execAcccvtCompletion (op : Nat) (s : State) : Out :=
  match s.tileReady op (fun a => match a with
    | .acccvt .. => true
    | _ => false) with
  | none => .next s
  | some o =>
    match o.act, s.team? o.team with
    | .acccvt f rm sat n _ k, some t =>
      if !o.cleared.all (fun l => s.lineLands o l) then .next s
      else
        let ev := cvtEvents t.acc f rm sat n k
        let (s, cross) := (s.landAll o).countConv t.launch ev
        let s := if cross then s.modThread o.team o.tid (fun x => if x.hasExited then x else { x with convDue := some o.pc }) else s
        .next (s.finishTile o).settle
    | _, _ => .next s

end Sys2Proof.Machine
end

