-- ==== Sys2Proof/Machine/Issue.lean ====
section
/-! DEFINITION. Issue (R27, R28, R87, R88, R90, R95, R178): what a port does before the instruction in its slot takes
effect, and the cycle in which both ports of a core issue. -/

namespace Sys2Proof.Machine

/-- What a port has for execution: nothing in this turn, or an instruction. -/
inductive Prep where
  | wait (s : State)
  | go (i : Instr) (s : State)

/-- The address of a group's next instruction word. -/
def Group.pc (g : Group) : BitVec 57 := g.hdrAddr + BitVec.ofNat 57 (8 * (g.slot + 1))

/-- The members of a group. -/
def State.membersOf (s : State) (g : Group) : List Thread := g.members.filterMap (fun i => s.thread? g.team i)

/-- The results that must be written before the next instruction (R87). -/
def Thread.dueResults (t : Thread) : List Pending := t.pend.filter (fun p => p.left == 0)

/-- A result that has not come is held back by an absent line (R88). -/
def State.heldBack (s : State) (p : Pending) : Bool :=
  p.value.isNone && s.loads.any (fun o => o.id == p.id && !o.probe && !s.present o.loc o.size)

/-- The whole group leaves its port until the result has come (R27, R88). -/
def State.parkGroup (s : State) (core port : Nat) (g : Group) : State :=
  let s := s.modThreads g.team g.members (fun t => { t with status := .parked .result })
  s.modCore core (fun c => { c.setPort port .free with waiting := c.waiting ++ [g] })

/-- The due results of a group written, each thread's in issue order (R87). -/
def State.commitDue (s : State) (g : Group) : State :=
  (s.membersOf g).foldl (fun (s : State) t => t.dueResults.foldl (fun (s : State) p => s.commit t.team t.tid p) s) s

/-- A word that is no instruction traps the group (R95, R96). -/
def State.badWordTrap (s : State) (g : Group) (e : DecodeError) : State :=
  s.trapNoAddr g.team g.members (match e with
    | .illegalOp => .illegalOp
    | .illegalOperand => .illegalOperand) .instruction g.pc

/-- A port's next instruction, once nothing holds it: a TILE instruction that waits for acceptance, a fence of a member,
or a result that has not come. -/
def State.prepare (s : State) (core port : Nat) : Prep :=
  let s : State := { s with cur := { core := core, port := port } }
  if s.power.tripped then .wait s
  else
    match (s.core? core).map (fun c => c.port port) with
    | none => .wait s
    | some p =>
      match p.group with
      | none => .wait s
      | some g =>
        let ts := s.membersOf g
        let due := ts.flatMap Thread.dueResults
        if p.tile.isSome || ts.any (fun t => t.fence.isSome) then .wait s
        else if due.any (fun r => s.heldBack r) then .wait (s.parkGroup core port g)
        else if due.any (fun r => r.value.isNone) then .wait s
        else
          let s := s.commitDue g
          match decodeWord (g.words.getD g.slot 0#64) with
          | .error e => .wait (s.badWordTrap g e)
          | .ok i => .go i s

/-- What a port presents in this cycle: the TILE instruction that waits for acceptance, or its next instruction (R28, R90). -/
def State.presents (s : State) (core port : Nat) : Prep :=
  match (if s.power.tripped then none else s.core? core).bind (fun c => (c.port port).tile) with
  | some i => .go i { s with cur := { core := core, port := port } }
  | none => s.prepare core port

/-- Two instructions want one shared unit: the coalescer or the tile engine (R28). -/
def sameUnit (i j : Instr) : Bool :=
  match classOf (opOf (encode i)), classOf (opOf (encode j)) with
  | some .xfer, some .xfer => true
  | some .tile, some .tile => true
  | _, _ => false

/-- The base, offset and size of the scratch accesses of an instruction. -/
def memForm (i : Instr) : Option (Head × Operand × BitVec 9 × Nat) :=
  match i with
  | .ld h _ sz _ b o | .st h _ sz b _ o => some (h, b, o, sz.bytes)
  | .atom h _ op _ b _ o | .red h _ op b _ o => some (h, b, o, Aop.bytes op)
  | .cas h _ sz _ b _ _ => some (h, b, 0#9, sz.bytes)
  | _ => none

/-- The LSM banks that a port's instruction needs (R28, R250). -/
def State.banksOf (s : State) (core port : Nat) (i : Instr) : List Nat :=
  match memForm i, ({ s with cur := { core := core, port := port } } : State).ctx? with
  | some (h, b, o, n), some c =>
    ((c.actors h).flatMap (fun t =>
      let a := effAddr (c.val t b) o n
      if a < 0x10000000 then (List.range ((n + 3) / 4)).map (fun k => lsmBank (c.team.lsmBase + a + 4 * k)) else [])).dedup
  | _, _ => []

/-- The instructions of ports 0 and 1 meet at one shared unit: the coalescer, the tile engine or an LSM bank (R28). -/
def State.unitMeets (s : State) (core : Nat) (i j : Instr) : Bool :=
  sameUnit i j || (s.banksOf core 0 i).any (fun b => (s.banksOf core 1 j).contains b)

/-- The port that a shared unit favours in this cycle (R28). -/
def State.favoured (s : State) : Nat := s.clk % 2

/-- A word of a class whose instructions may register range locks (R288). -/
def mayLock (i : Instr) : Bool :=
  match classOf (opOf (encode i)) with
  | some .xfer | some .tile => true
  | _ => false

/-- Two instructions of different units that may register range locks in one cycle: the favoured port's goes first, and
every other pair acts with port 0 first (R100, R288). -/
def State.firstPort (s : State) (i j : Instr) : Nat := if mayLock i && mayLock j then s.favoured else 0

/-- The group that a port of a core holds. -/
def State.groupAt (s : State) (core port : Nat) : Option Group := (s.core? core).bind (fun c => (c.port port).group)

/-- A core's ports have acted in this cycle: each issues one instruction a cycle, and both of one cycle together (R27, R100;
log entry 18). -/
def State.issuedNow (s : State) (core : Nat) : Bool :=
  match s.core? core with
  | some c => c.issuedAt == s.clk + 1
  | none => false

/-- A core's ports have acted in this cycle. -/
def State.markIssued (s : State) (core : Nat) : State := s.modCore core (fun c => { c with issuedAt := s.clk + 1 })

/-- The other port of the core presents an instruction to the same unit in this cycle, and the unit favours it (R28). -/
def State.outranked (s : State) (core port : Nat) (i : Instr) : Bool :=
  s.favoured != port && (match s.presents core (1 - port) with
    | .go j s => if port = 0 then s.unitMeets core i j else s.unitMeets core j i
    | .wait _ => false)

/-- A TILE instruction is issued again to the engine. -/
def execTile (i : Instr) (s : State) : Out :=
  match i with
  | .tcfg h t fmt sc r c => execTcfg h t fmt sc r c s
  | .trel h t => execTrel h t s
  | .tld h t bar part ch a o => execTld h t bar part ch a o s
  | .tst h t bar ch a o => execTst h t bar ch a o s
  | .tzero h t => execTzero h t s
  | .mma h ta tb tra trb n x y => execMma h ta tb tra trb n x y s
  | .accld h la w d n r c => execAccld h la w d n r c s
  | .accst h w v n r c => execAccst h w v n r c s
  | .accz h n cnt => execAccz h n cnt s
  | .acccvt h fmt rm sat bar n a sc => execAcccvt h fmt rm sat bar n a sc s
  | _ => .next s

/-- TILE_ACCEPTANCE (R26, R28, R90): the instruction that a port holds is presented again and the scoreboard asked, in a cycle
in which the ports have not acted and the engine does not favour the other port's; not after a trip (R387). One that is
accepted, or traps, is the port's instruction of the cycle. -/
def execTileAcceptance (core port : Nat) (s : State) : Out :=
  match (if s.power.tripped then none else s.core? core).bind (fun c => (c.port port).tile) with
  | none => .next s
  | some i =>
    if s.issuedNow core || s.outranked core port i then .next s
    else
      match execTile i { s with cur := { core := core, port := port } } with
      | .next t =>
        .next (if ((t.core? core).bind (fun c => (c.port port).tile)).isSome then t else t.markIssued core)
      | o => o

end Sys2Proof.Machine
end

