-- ==== Sys2Proof/Machine/CsrOps.lean ====
section
/-! DEFINITION. Control and status registers (R158, R241 to R246): their values, what a write changes, CSRRD and
CSRWR. -/

namespace Sys2Proof.Machine

/-- CDSTATE (R242). -/
def Cadence.csrState (k : Cadence) : Nat :=
  k.errEntry * 2 ^ 24 + k.cause * 2 ^ 16 + k.refuse * 2 ^ 8 + k.wait * 2 ^ 4 + k.state

/-- CDHEAD (R242): LOOP counts the iterations left of the current LOOP entry. -/
def Cadence.csrHead (k : Cadence) : Nat := k.loopLeft * 2 ^ 8 + k.head

/-- PACE (R242). -/
def Power.csrPace (p : Power) : Nat := p.req * 2 ^ 8 + p.level

/-- BOOTWHY (R242). -/
def Power.csrBootwhy (p : Power) : Nat := p.whyStage * 2 ^ 8 + p.why

/-- QGSTATE (R242). -/
def State.csrQgstate (s : State) : Nat :=
  s.stopGrp * 2 ^ 16 + (if s.huddleStop then 2 ^ 8 else 0) + s.quorum.length

/-- RGNWM of a team (R242). -/
def State.csrRgnwm (s : State) (t : Team) : Nat :=
  match t.rgn with
  | .none => 0
  | .fixed g len => (if g then 2 ^ 30 else 0) + len
  | .entry id =>
    match s.regions.find? (fun r => r.id == id) with
    | some r => r.state * 2 ^ 30 + r.wm
    | none => 0

/-- NMWIN (R242). -/
def State.csrNmwin (s : State) : Nat := (if s.power.half then 2 ^ 31 else 0) + s.nmwin

/-- The device-scope CSRs by number, as the mailbox reads them too (R241, R379); none for the others. -/
def State.deviceCsr (s : State) (r : Csr) : Option Nat :=
  match r with
  | .ready => some s.power.ready.toNat
  | .bootwhy => some s.power.csrBootwhy
  | .bootcnt => some s.power.fails
  | .pace => some s.power.csrPace
  | .pacedom => some s.power.pacedom.toNat
  | .resil => some s.resil.toNat
  | .nmwin => some s.csrNmwin
  | .faultRetryMax => some s.faultRetryMax.toNat
  | .cdhead => some s.cadence.csrHead
  | .cdstate => some s.cadence.csrState
  | .cdbubu => some s.cadence.bubu
  | .cdbubd => some s.cadence.bubd
  | .cdbubs => some s.cadence.bubs
  | .cdbubx => some s.cadence.bubx
  | .qgstate => some s.csrQgstate
  | .trctl => some s.trctl.toNat
  | .clk64 => some (s.clk % 2 ^ 64)
  | _ => none

/-- The value that a thread reads (R158): the CSR of its own thread, home group, team, launch or ASID. -/
def State.csrValue (s : State) (team : Team) (l : Launch) (t : Thread) (r : Csr) : Nat :=
  match s.deviceCsr r with
  | some v => v
  | none =>
    match r with
    | .mode => team.mode.toNat
    | .tvec => (s.asidOf l.asid).tvec.toNat
    | .tcause => t.tcause
    | .tpc => t.tpc.toNat
    | .taddr => t.taddr.toNat
    | .tlanes => t.tlanes.toNat
    | .asid => l.asid
    | .cvcsat => l.cvcsat
    | .cvcftz => l.cvcftz
    | .cvcnan => l.cvcnan
    | .cvclim => l.cvclim.toNat
    | .wdog => (s.asidOf l.asid).wdog.toNat
    | .bktpri => team.bktpri.toNat
    | .psig => (match s.hg? t.team t.role t.hg with
      | some g => g.psig.toNat
      | none => 0)
    | .rgnwm => s.csrRgnwm team
    | _ => 0

/-- CSRRD (R158): the value as it stands at issue, before the writes of this cycle (R244). -/
def execCsrrd (h : Head) (d : Operand) (csr : BitVec 12) (s : State) : Out :=
  match Csr.ofNum csr.toNat with
  | none => run s [] (fun c => s.trapGroup c .illegalOperand none)
  | some r =>
    vec s h [(d, if r.is64 then 2 else 1)] d (fun c t =>
      let v := s.seen
      .ofTy (if r.is64 then .i64 else .i32)
        (v.csrValue ((v.team? c.grp.team).getD c.team) ((v.launch? c.launch.key).getD c.launch) t r))

/-- NS clamped to 64 to 1,024 (R242, R243). -/
def clampNs (n : Nat) : Nat := if n < 64 then 64 else if n > 1024 then 1024 else n

/-- One write of a CSR that is not of thread scope (R243): only its writable fields change. -/
def State.csrSet (s : State) (team asid launch : Nat) (r : Csr) (x : Nat) : State :=
  let w : Word := BitVec.ofNat 32 x
  match r with
  | .mode => s.modTeam team (fun t => { t with mode := (t.mode &&& ~~~1#32) ||| (w &&& 1#32) })
  | .pace => if s.power.minimal then s else { s with power := { s.power with req := x / 2 ^ 8 % 16 } }
  | .pacedom => { s with power := { s.power with pacedom := w &&& 0x8000FFFF#32 } }
  | .tvec => s.modAsid asid (fun e => { e with tvec := BitVec.ofNat 64 (x % 2 ^ 57 / 8 * 8) })
  | .cvcsat => s.modLaunch launch (fun l => { l with cvcsat := x })
  | .cvcftz => s.modLaunch launch (fun l => { l with cvcftz := x })
  | .cvcnan => s.modLaunch launch (fun l => { l with cvcnan := x })
  | .cvclim => s.modLaunch launch (fun l => { l with cvclim := w })
  | .wdog => s.modAsid asid (fun e => { e with wdog := w &&& 0x1F#32 })
  | .resil => { s with resil := w &&& 0xFFFF0003#32 }
  | .nmwin => { s with nmwin := clampNs (x % 2 ^ 11) }
  | .faultRetryMax => { s with faultRetryMax := w &&& 0xFF#32 }
  | .bktpri => s.modTeam team (fun t => { t with bktpri := w &&& 0xFFFF#32 })
  | .cdbubu => { s with cadence := { s.cadence with bubu := x } }
  | .cdbubd => { s with cadence := { s.cadence with bubd := x } }
  | .cdbubs => { s with cadence := { s.cadence with bubs := x } }
  | .cdbubx => { s with cadence := { s.cadence with bubx := x } }
  | .trctl => { s with trctl := w &&& 0xF00F#32 }
  | _ => s

/-- A write of TPC: inside a handler the address becomes a resume header (R158, R336). -/
def Thread.setTpc (t : Thread) (x : Nat) : Thread :=
  { t with tpc := BitVec.ofNat 57 (x % 2 ^ 57 / 8 * 8), tpcKind := if t.inHandler then .resumeHeader else t.tpcKind }

/-- CSRWR (R158, R243): once for each participant in ascending position, or once; a CSR of thread scope takes the
value in every participant. -/
def execCsrwr (h : Head) (a : Operand) (csr : BitVec 12) (s : State) : Out :=
  match Csr.ofNum csr.toNat with
  | none => run s [] (fun c => s.trapGroup c .illegalOperand none)
  | some r =>
    let ty : Ty := if r.is64 then .i64 else .i32
    run s [(a, Ty.words ty)] (fun c =>
      if r.access == .pw && !c.launch.priv && !(c.parts h).isEmpty then s.trapGroup c .priv none
      else
        let ps := c.parts h
        if r == .tpc then
          (ps.foldl (fun s t => s.modThread t.team t.tid
            (fun x => x.setTpc (c.src (if h.u then ps.headD t else t) ty a))) s).advance
        else
          ((c.actors h).foldl (fun s t => s.csrSet c.grp.team c.launch.asid c.launch.key r (c.src t ty a)) s).advance)

end Sys2Proof.Machine
end

