-- ==== Sys2Proof/Machine/Mailbox.lean ====
section
/-! DEFINITION. The mailbox (R280, R281, R298, R352, R376 to R380): BAR0, the commands, the table map, and the response
to each command. -/

namespace Sys2Proof.Machine

/-- The answer to a command (R377). -/
inductive MbStatus where
  | ok | illegal | notReady | refused
  deriving DecidableEq, Repr, Inhabited

def MbStatus.code : MbStatus → Nat
  | .ok => 0
  | .illegal => 1
  | .notReady => 2
  | .refused => 3

/-! ### The table map (R379) -/

/-- The items of the device tables. -/
inductive TableKind where
  | queue | asid | xbar | handler | quorum | watch | cdControl | cdEngine | huddle | region | fault | csr | route | host | asidCsr
  deriving DecidableEq, Repr, Inhabited

/-- Where a kind of item lies: base, stride, number of items, bytes of an item. -/
structure TableRow where
  kind : TableKind
  base : Nat
  stride : Nat
  count : Nat
  size : Nat

/-- The rows of R379. -/
def tableRows : List TableRow := [
  ⟨.queue, 0x00000000, 16, 256, 16⟩, ⟨.asid, 0x00010000, 8, 512, 8⟩, ⟨.xbar, 0x00100000, 64, 16384, 64⟩,
  ⟨.handler, 0x00200000, 16, 32768, 16⟩, ⟨.quorum, 0x00300000, 256, 64, 136⟩, ⟨.watch, 0x00310000, 16, 8, 16⟩,
  ⟨.cdControl, 0x00320000, 8, 1, 8⟩, ⟨.cdEngine, 0x00320100, 256, 1, 256⟩, ⟨.huddle, 0x00330000, 8, 1, 8⟩,
  ⟨.region, 0x00400000, 16, 4096, 16⟩, ⟨.fault, 0x00500000, 32, 1024, 32⟩, ⟨.csr, 0x00600000, 8, 4096, 8⟩,
  ⟨.route, 0x00700000, 2, 65536, 2⟩, ⟨.host, 0x00800000, 4096, 1, 4096⟩, ⟨.asidCsr, 0x01000000, 8, 262144, 8⟩]

/-- The item that holds an offset: its kind, its index and the byte within it; none in a gap or past an item's end. -/
def tableItem (off n : Nat) : Option (TableKind × Nat × Nat) :=
  match tableRows.find? (fun r => decide (r.base ≤ off ∧ off < r.base + r.stride * r.count)) with
  | none => none
  | some r =>
    let i := (off - r.base) / r.stride
    let lo := (off - r.base) % r.stride
    if lo + n > r.size then none
    else if r.kind == .xbar && decide (i / 64 ≥ 128) && i / 64 != 255 then none
    else some (r.kind, i, lo)

/-! ### Reading items -/

/-- A launch queue descriptor (R267). -/
def Queue.image (q : Queue) : Nat :=
  q.errrec.toNat * 2 ^ 64 + (if q.en then 2 ^ 63 else 0) + q.prio * 2 ^ 60 + q.asid * 2 ^ 48 + q.entries.length * 2 ^ 32 +
    q.errcode * 2 ^ 24 + q.errcnt

/-- An ASID entry (R286). -/
def AsidEntry.image (a : AsidEntry) : Nat := (if a.valid then 2 ^ 63 else 0) + a.root

/-- A region entry (R287). -/
def Region.image (r : Region) : Nat :=
  2 ^ 127 + r.state * 2 ^ 125 + (if r.tgt then 2 ^ 124 else 0) + r.gc * 2 ^ 122 + r.first * 2 ^ 111 + r.asid * 2 ^ 102 +
    r.wm * 2 ^ 77 + r.len * 2 ^ 52 + r.pbase

/-- A fault record (R277); TEAM holds bits 15:0 of the index. -/
def FaultRec.image (f : FaultRec) : Nat :=
  f.id + ((if f.refault then 2 ^ 31 else 0) + f.retry * 2 ^ 23 + f.kind * 2 ^ 20 + f.asid) * 2 ^ 32 + f.va * 2 ^ 64 +
    f.launch * 2 ^ 128 + (f.core * 2 ^ 16 + f.team % 2 ^ 16) * 2 ^ 160 + f.lanes.toNat * 2 ^ 192

/-- The butterfly pattern of entry e (R291). -/
def butterfly (e : Nat) : Nat := ((List.range 64).map (fun p => (p ^^^ e) * 2 ^ (6 * p))).sum

/-- Crossbar pattern entry of a core as 512 bits (R291). -/
def State.xbarImage (s : State) (core e : Nat) : Nat :=
  match (s.core? core).bind (fun c => assocGet c.xbar e) with
  | some x => x.toNat
  | none => butterfly e

/-- The engine state of R394. -/
def State.cdImage (s : State) : List Byte :=
  let k := s.cadence
  let run := match k.running with
    | some r => leBytes 4 (match s.launch? r.launch with
        | some l => l.ident.toNat
        | none => 0) ++ leBytes 1 r.entry ++
        leBytes 1 (1 + (if s.teams.any (fun t => t.launch == r.launch && t.isResident) then 2 else 0))
    | none => leBytes 6 0
  leBytes 1 k.freeUp ++ leBytes 1 k.freeDown ++ leBytes 2 k.loopOwn ++ leBytes 4 k.loopLeft ++ leBytes 8 k.occ.toNat ++
    run ++ leBytes 2 0 ++ leBytes 8 k.binding.toNat ++
    k.bufs.flatMap (fun b => leBytes 8 (if b.full then 2 ^ 63 + (if b.held then 2 ^ 62 else 0) + b.mb * 2 ^ 40 + b.data.length else 0)) ++
    leBytes 96 0

/-- A word of the host control area (R380), by its offset; words that no row names read as zero. -/
def State.hostWord (s : State) (off : Nat) : Nat :=
  let h := s.hostCtl
  match off with
  | 0x000 => h.fabNode
  | 0x008 => h.saveBase
  | 0x010 => h.saveLen
  | 0x018 => h.trcBase
  | 0x020 => h.trcLen
  | 0x028 => if h.bootClr then 1 else 0
  | 0x038 => h.gateCtl.toNat
  | _ =>
    if 0x40 ≤ off ∧ off < 0x60 then leNat ((h.nonce.drop (off - 0x40)).take 8)
    else if 0x80 ≤ off ∧ off < 0x80 + 314 then leNat ((h.report.drop (off - 0x80)).take 8)
    else if 0x400 ≤ off ∧ off < 0x800 then (assocGet h.trcIdx ((off - 0x400) / 8)).getD 0
    else if 0x800 ≤ off ∧ off < 0xC00 then (assocGet h.trcRd ((off - 0x800) / 8)).getD 0
    else 0

/-- One byte of the host control area. -/
def State.hostByte (s : State) (off : Nat) : Byte := BitVec.ofNat 8 (s.hostWord (off / 8 * 8) / 2 ^ (8 * (off % 8)) % 256)

/-- `n` bytes of an item from byte `lo`; none where the item cannot be read (R379). -/
def State.tableRead (s : State) (k : TableKind) (i lo n : Nat) : Option (List Byte) :=
  let cut := fun (size x : Nat) => some (((leBytes size x).drop lo).take n)
  match k with
  | .queue => cut 16 (s.queue i).image
  | .asid => cut 8 (s.asidOf i).image
  | .xbar => if i / 64 = 255 then none else cut 64 (s.xbarImage (i / 64) (i % 64))
  | .handler => cut 16 (match (s.core? (i / 256)).bind (fun c => assocGet c.handlers (i % 256)) with
      | some x => x.toNat
      | none => 0)
  | .quorum => some ((((assocGet s.decls i).getD (leBytes 136 0)).drop lo).take n)
  | .watch => cut 16 (s.watch.getD i 0#128).toNat
  | .cdControl => cut 8 s.cadence.csrState
  | .cdEngine => some ((s.cdImage.drop lo).take n)
  | .huddle => cut 8 s.csrQgstate
  | .region => cut 16 (match s.regions.find? (fun r => r.id == i) with
      | some r => r.image
      | none => 0)
  | .fault => cut 32 (match s.faults[i]? with
      | some f => f.image
      | none => 0)
  | .csr => (match (Csr.ofNum i).bind (fun r => s.deviceCsr r) with
      | some v => cut 8 v
      | none => none)
  | .route => cut 2 (match assocGet s.routes i with
      | some r => r.toNat
      | none => 0)
  | .host => some ((List.range n).map (fun j => s.hostByte (lo + j)))
  | .asidCsr => (match Csr.ofNum (i % 512) with
      | some .tvec => cut 8 (s.asidOf (i / 512)).tvec.toNat
      | some .wdog => cut 8 (s.asidOf (i / 512)).wdog.toNat
      | _ => none)

/-! ### Writing items -/

/-- An item's bytes with some of them replaced. -/
def mergeBytes (old : List Byte) (lo : Nat) (data : List Byte) : List Byte :=
  old.take lo ++ data ++ old.drop (lo + data.length)

/-- Bits `lo` to `lo + w - 1` of a number. -/
def bitsOf (x lo w : Nat) : Nat := x / 2 ^ lo % 2 ^ w

/-- A queue descriptor written (R267): ASID keeps while the queue or a launch taken from it is live. -/
def State.writeQueue (s : State) (i x : Nat) : State :=
  let live := !(s.queue i).entries.isEmpty || s.launches.any (fun l => l.queue == i && l.phase != .done)
  s.modQueue i (fun q => { q with
    en := bitsOf x 63 1 == 1, prio := bitsOf x 60 3, asid := if live then q.asid else bitsOf x 48 9 })

/-- An ASID entry written (R286): creation gives TVEC and WDOG their reset values. -/
def State.writeAsid (s : State) (i x : Nat) : State :=
  s.modAsid i (fun a =>
    let v := bitsOf x 63 1 == 1
    let a : AsidEntry := { a with valid := v, root := bitsOf x 12 40 * 4096 }
    if v && !(s.asidOf i).valid then { a with tvec := 0#64, wdog := 26#32 } else a)

/-- A declaration of a quorum group from its 136 bytes (R298). -/
def declGroup (g : Nat) (b : List Byte) : QGroup :=
  let w := leNat (b.take 8)
  { id := g, op := bitsOf w 61 2, rule := bitsOf w 59 2, lag := bitsOf w 55 4, n := bitsOf w 48 7, k := bitsOf w 41 7,
    asid := bitsOf w 32 9, owner := bitsOf w 16 16, lenl := bitsOf w 7 9,
    members := (List.range (bitsOf w 48 7)).map (fun i => leNat ((b.drop (8 + 2 * i)).take 2)),
    round := 0#16, replica := 0#16, cur := [], ahead := [], late := [], taken := (0, 0, 0), shard := [] }

/-- A declaration that R298 allows; more than 64 members do not fit it. -/
def State.declOk (s : State) (q : QGroup) : Bool :=
  decide (1 ≤ q.k ∧ q.k ≤ q.n ∧ q.n ≤ 64) && q.rule != 3 && (decide (q.op < 2) || q.rule == 1) &&
    (q.owner :: q.members).all (fun n => s.reachable n)

/-- A declaration written (R298, R352): VALID = 0 on a declared group removes it. -/
def State.writeDecl (s : State) (g lo : Nat) (data : List Byte) : State × MbStatus :=
  let b := mergeBytes ((assocGet s.decls g).getD (leBytes 136 0)) lo data
  let b := b.set 0 (b.getD 0 0#8 &&& 0x80#8)
  let valid := bitsOf (leNat (b.take 8)) 63 1 == 1
  let keep := fun (s : State) => { s with decls := assocSet s.decls g b }
  if (s.quorum? g).isSome then
    if valid then (s, .refused) else (keep (s.removeGroup g), .ok)
  else if !valid then (keep s, .ok)
  else
    let q := declGroup g b
    if s.declOk q then (keep { s with quorum := s.quorum ++ [q] }, .ok) else (s, .refused)

/-- The quadrants that a write of GATECTL keeps ungated resume at once (R386). -/
def State.writeGate (s : State) (x : Nat) : State :=
  let v := BitVec.ofNat 16 x
  let kept := fun (q : Nat) => !v.getLsbD q
  let woken := (s.power.gated ++ s.power.gating).filter kept
  let p : Power := { s.power with
    gated := s.power.gated.filter (fun q => !kept q), gating := s.power.gating.filter (fun q => !kept q),
    resuming := s.power.resuming.filter (fun q => !kept q) }
  woken.foldl (fun (s : State) q => s.wakeTrace q) { s with power := p, hostCtl := { s.hostCtl with gateCtl := v } }

/-- A nonce written whole makes the device sign a report, whose bytes are free (R393, log entry 8). -/
def State.attest (s : State) : State :=
  let h := s.hostCtl
  { s with hostCtl := { h with
    report := (List.range 314).map (fun i => Config.freeReport h.nonce h.reports i), reports := h.reports + 1 } }

/-- One word of the host control area written (R380). -/
def State.writeHostWord (s : State) (off x : Nat) : State :=
  let h := s.hostCtl
  match off with
  | 0x000 => { s with hostCtl := { h with fabNode := x % 65536 } }
  | 0x008 => { s with hostCtl := { h with saveBase := x } }
  | 0x010 => { s with hostCtl := { h with saveLen := x } }
  | 0x018 => { s with hostCtl := { h with trcBase := x } }
  | 0x020 => { s with hostCtl := { h with trcLen := x } }
  | 0x028 => if x = 1 then { s with hostCtl := { h with bootClr := true } } else s
  | 0x030 => s.preemptLaunch x
  | 0x038 => s.writeGate (x % 65536)
  | _ =>
    if 0x40 ≤ off ∧ off < 0x60 then { s with hostCtl := { h with nonce := mergeBytes h.nonce (off - 0x40) (leBytes 8 x) } }
    else if 0x800 ≤ off ∧ off < 0xC00 then { s with hostCtl := { h with trcRd := assocSet h.trcRd ((off - 0x800) / 8) x } }
    else s

/-- Bytes of the host control area written, word by word. -/
def State.writeHost (s : State) (lo : Nat) (data : List Byte) : State :=
  let words := ((List.range data.length).map (fun j => (lo + j) / 8 * 8)).dedup
  let new := words.map (fun o => (o, leNat ((List.range 8).map (fun j =>
    if lo ≤ o + j ∧ o + j < lo + data.length then data.getD (o + j - lo) 0#8 else s.hostByte (o + j)))))
  let s := new.foldl (fun (s : State) p => s.writeHostWord p.1 p.2) s
  if lo = 0x40 ∧ data.length = 32 then s.attest else s

/-- An item written: the state and the answer (R281, R379). A write to a field of the device is ignored. A pattern written
to every core takes effect on each at its own instant (R291). -/
def State.tableWrite (s : State) (k : TableKind) (i lo : Nat) (data : List Byte) : State × MbStatus :=
  let merged := fun (size x : Nat) => leNat (mergeBytes (leBytes size x) lo data)
  match k with
  | .queue => (s.writeQueue i (merged 16 (s.queue i).image), .ok)
  | .asid => (s.writeAsid i (merged 8 (s.asidOf i).image), .ok)
  | .xbar =>
    let e := i % 64
    let new := fun (c : Core) => (BitVec.ofNat 512 (merged 64 (s.xbarImage c.id e) % 2 ^ 448))
    if i / 64 = 255 then ({ s with cores := s.cores.map (fun (c : Core) => { c with xbarNew := some (e, new c) }) }, .ok)
    else (s.modCore (i / 64) (fun c => { c with xbar := assocSet c.xbar e (new c) }), .ok)
  | .handler =>
    let h := i % 256
    let keep := 2 ^ 128 - 1 - 2 ^ 126 - (2 ^ 107 - 2 ^ 57) - 7
    let put := fun (c : Core) => { c with handlers := assocSet c.handlers h (BitVec.ofNat 128 (merged 16 ((assocGet c.handlers h).getD 0#128).toNat &&& keep)) }
    (s.modCore (i / 256) put, .ok)
  | .quorum => s.writeDecl i lo data
  | .watch =>
    let keep := 2 ^ 128 - 1 - (2 ^ 115 - 2 ^ 57)
    ({ s with watch := updAt i (fun w => BitVec.ofNat 128 (merged 16 w.toNat &&& keep)) s.watch }, .ok)
  | .cdControl => (match s.cdControl (merged 8 s.cadence.csrState) with
      | some s => (s, .ok)
      | none => (s, .refused))
  | .cdEngine => (s, .refused)
  | .huddle => if merged 8 s.csrQgstate = 0 then (s.restartHuddle, .ok) else (s, .refused)
  | .region => (s, .ok)
  | .fault => (if i = 0 then s.popFault else s, .ok)
  | .csr => (s, .ok)
  | .route =>
    let x := merged 2 (match assocGet s.routes i with
      | some r => r.toNat
      | none => 0)
    ({ s with routes := assocSet s.routes i (BitVec.ofNat 16 x &&& 0x800F#16) }.checkReach, .ok)
  | .host => (s.writeHost lo data, .ok)
  | .asidCsr => (match Csr.ofNum (i % 512) with
      | some .tvec | some .wdog => (s, .ok)
      | _ => (s, .refused))

/-! ### Spaces and functions (R378, R390) -/

/-- The READY bit of a function is set (R242). -/
def State.isReady (s : State) (bit : Nat) : Bool := s.power.ready.getLsbD bit

/-- The functions that an item needs (R390; DEDUCED, log entry 12): the dies of cores, CAD, HUD, RSTR and FAB. -/
def State.tableReady (s : State) (k : TableKind) (i : Nat) : Bool :=
  match k with
  | .xbar => if i / 64 = 255 then (if s.power.minimal then s.isReady 0 else (List.range 4).all (fun d => s.isReady d)) else s.isReady (i / 64 / 32)
  | .handler => s.isReady (i / 256 / 32)
  | .cdControl | .cdEngine => s.isReady 18
  | .quorum | .huddle => s.isReady 19
  | .region => s.isReady 20
  | .route => s.isReady 16
  | _ => true

/-- What an address names for an access of `n` bytes (R378). -/
inductive MbPlace where
  | mem (l : Loc)
  | item (k : TableKind) (i lo : Nat)
  | bad (st : MbStatus)
  deriving DecidableEq, Repr, Inhabited

/-- The place that ADDR selects, with the functions that it needs. -/
def State.mbPlace (s : State) (addr n : Nat) : MbPlace :=
  let off := addr % 2 ^ 56
  match addr / 2 ^ 56 with
  | 0 =>
    if off + n > Config.mainBytes then .bad .refused
    else if !((List.range ((off + n - 1) / 256 + 1 - off / 256)).all (fun i => s.isReady (4 + s.nbOf (off + 256 * i) / 128))) then .bad .notReady
    else .mem ⟨.main, off⟩
  | 1 =>
    if off ≥ 2 ^ 32 then .bad .illegal
    else if !inOneDie off n then .bad .refused
    else if !(match dsmDie off with
      | some d => s.isReady d
      | none => false) then .bad .notReady
    else .mem ⟨.dsm, off⟩
  | 2 =>
    (match tableItem off n with
      | none => .bad .refused
      | some (k, i, lo) => if s.tableReady k i then .item k i lo else .bad .notReady)
  | _ => .bad .refused

/-- A write of the mailbox to memory may be made: no bank unit holds a row of it (R199). -/
def State.hostReady (s : State) (l : Loc) (n : Nat) : Bool :=
  l.space != .main || (List.range ((l.addr + n - 1) / 256 + 1 - l.addr / 256)).all (fun i => !s.rowBusy (l.addr / 256 * 256 + 256 * i))

/-- A write of the mailbox (R322): to DSM a write in its words' modification orders, as a release at SYSTEM scope where it
is a WRITE; ordered before its later commands. -/
def State.hostStore (s : State) (l : Loc) (data : List Byte) (rel : Bool) : State :=
  match l.space with
  | .dsm =>
    let v := s.pushView l data.length
    let y : Sync := { team := 0, core := none, scope := .system, access := true, host := true, isDone := false,
                      view := joinViews s.mailbox.view v }
    let s := s.pushBytes l data (if rel then some y else none) (if rel then [y] else []) false
    { s with mailbox := { s.mailbox with view := joinViews s.mailbox.view v } }
  | _ => s.memWrite l data

/-- A release whose value the mailbox may synchronise with (R321, R322): at DEVICE or SYSTEM scope, or a DONE write. -/
def Sync.forHost (y : Sync) : Bool := y.host || decide (scopeRank y.scope ≥ 3)

/-- The writes that a READ or COPY of the mailbox returns (R323, R324). -/
def State.hostWrs (s : State) (l : Loc) (n : Nat) (acq : Bool) : List Wr :=
  (wordsAt l n).map (fun w =>
    let sync := ((s.hist.find? (fun x => x.loc == w && (match x.who with
      | some y => y.forHost
      | none => false))).map (·.stamp)).getD 0
    s.readWr w (Nat.max (stampAt s.mailbox.view w) (if acq then sync else 0)) [] s.nextId 0)

/-- Bytes that the mailbox reads, and the state with what the read orders before its later commands: an acquire at SYSTEM
scope where it is a READ (R322). -/
def State.hostLoad (s : State) (l : Loc) (n : Nat) (acq : Bool) : List Byte × State :=
  let ws := s.hostWrs l n acq
  let syn := if acq then ws.flatMap (fun x => x.syncs.filter Sync.forHost) else []
  let v := joinViews (syn.foldl (fun v y => joinViews v y.view) s.mailbox.view) (ws.map (fun x => (x.loc, x.stamp)))
  (((ws.flatMap (fun x => leBytes 4 x.val.toNat)).drop (l.addr % 4)).take n,
   if s.hist.isEmpty then s else { s.bumpId with mailbox := { s.mailbox with view := v } })

/-! ### Commands (R280, R377) -/

/-- The bytes of the command at HEAD. -/
def Mailbox.cmd (m : Mailbox) : List Byte := m.slots.readBytes (64 * m.head.toNat) 64

/-- The engine has a command to apply (R280, R390). -/
def State.mbDue (s : State) : Bool := s.isReady 21 && s.mailbox.head != s.mailbox.tail

/-- A field of a command. -/
def cf (c : List Byte) (at_ n : Nat) : Nat := leNat ((c.drop at_).take n)

/-- Bytes `lo` to `hi - 1` are zero. -/
def zeroBytes (c : List Byte) (lo hi : Nat) : Bool := ((c.drop lo).take (hi - lo)).all (fun b => b == 0#8)

/-- A command whose zero fields are zero and whose values are in range (R377). -/
def cmdLegal (c : List Byte) : Bool :=
  zeroBytes c 1 4 &&
  (match cf c 0 1 with
    | 1 => decide (1 ≤ cf c 16 1 ∧ cf c 16 1 ≤ 40) && zeroBytes c 17 24
    | 2 => decide (4 ≤ cf c 24 4) && cf c 24 4 % 4 == 0 && decide (cf c 28 1 ≤ 1) && zeroBytes c 29 64 && cf c 8 8 / 2 ^ 56 != 2
    | 3 => zeroBytes c 17 64
    | 4 => (decide (cf c 8 2 < 512) || cf c 8 2 == 0xFFFF) && zeroBytes c 10 64
    | 5 => decide (cf c 12 1 ≤ 1) && (cf c 12 1 == 0 || decide (cf c 13 2 < 512)) && zeroBytes c 15 64
    | 6 => decide (cf c 8 1 ≤ 2) && (cf c 8 1 == 0 || decide (cf c 10 2 < 512)) && zeroBytes c 9 10 && zeroBytes c 12 16 && zeroBytes c 24 64
    | 7 => decide (1 ≤ cf c 16 1 ∧ cf c 16 1 ≤ 40) && zeroBytes c 17 64
    | _ => false)

/-- The response written and HEAD advanced (R280, R377). -/
def State.respond (s : State) (st : MbStatus) (data : List Byte) : State :=
  let m := s.mailbox
  let r := (leBytes 4 st.code ++ leBytes 4 (cf m.cmd 4 4) ++ leBytes 8 0 ++ data ++ List.replicate 64 0#8).take 64
  { s with sys := s.sys.writeBytes (m.rspBase + 64 * m.head.toNat) r, mailbox := { m with head := m.head + 1#8, inv := none, spread := false } }

/-- One command applied: an illegal one answers ILLEGAL whatever step finds it; a step that does not fit the command is
not due. -/
def mbStep (s : State) (fits : List Byte → Bool) (k : List Byte → State) : Out :=
  let c := s.mailbox.cmd
  if !s.mbDue then .next s
  else if !cmdLegal c then .next (s.respond .illegal [])
  else if fits c then .next (k c)
  else .next s

/-- A write of the pattern table to every core: it is complete, and answered, once every core has taken it (R280, R291). -/
def State.spreadStep (s : State) (i lo : Nat) (data : List Byte) : State :=
  if !s.mailbox.spread then
    { (s.tableWrite .xbar i lo data).1 with mailbox := { s.mailbox with spread := true } }
  else if s.cores.any (fun c => c.xbarNew.isSome) then s
  else { s with mailbox := { s.mailbox with spread := false } }.respond .ok []

/-- MAILBOX_WRITE (R377). -/
def execMailboxWrite (s : State) : Out :=
  mbStep s (fun c => cf c 0 1 == 1) (fun c =>
    let n := cf c 16 1
    let data := (c.drop 24).take n
    match s.mbPlace (cf c 8 8) n with
    | .bad st => s.respond st []
    | .mem l => if s.hostReady l n then (s.hostStore l data true).respond .ok [] else s
    | .item k i lo =>
      if k == .xbar && i / 64 == 255 then s.spreadStep i lo data
      else
      let (s', st) := s.tableWrite k i lo data
      s'.respond st [])

/-- MAILBOX_READ (R377). -/
def execMailboxRead (s : State) : Out :=
  mbStep s (fun c => cf c 0 1 == 7) (fun c =>
    let n := cf c 16 1
    match s.mbPlace (cf c 8 8) n with
    | .bad st => s.respond st []
    | .mem l =>
      let (bs, s) := s.hostLoad l n true
      s.respond .ok bs
    | .item k i lo =>
      (match s.tableRead k i lo n with
        | some b => s.respond .ok b
        | none => s.respond .refused []))

/-- MAILBOX_COPY_TO_DEVICE (R266, R377). -/
def execMailboxCopyToDevice (s : State) : Out :=
  mbStep s (fun c => cf c 0 1 == 2 && cf c 28 1 == 0) (fun c =>
    let n := cf c 24 4
    match s.mbPlace (cf c 8 8) n with
    | .mem l => if s.hostReady l n then (s.hostStore l (s.memRead ⟨.sys, cf c 16 8⟩ n) false).respond .ok [] else s
    | .bad st => s.respond st []
    | .item _ _ _ => s.respond .refused [])

/-- MAILBOX_COPY_TO_HOST (R266, R377): whether the host's address responds is the event's. -/
def execMailboxCopyToHost (responds : Bool) (s : State) : Out :=
  mbStep s (fun c => cf c 0 1 == 2 && cf c 28 1 == 1) (fun c =>
    let n := cf c 24 4
    match s.mbPlace (cf c 8 8) n with
    | .mem l =>
      if responds then
        let (bs, s) := s.hostLoad l n false
        (s.memWrite ⟨.sys, cf c 16 8⟩ bs).respond .ok []
      else s.respond .refused []
    | .bad st => s.respond st []
    | .item _ _ _ => s.respond .refused [])

/-- MAILBOX_LAUNCH (R268, R377): the host is the parent, and counts as privileged. -/
def execMailboxLaunch (s : State) : Out :=
  mbStep s (fun c => cf c 0 1 == 3) (fun c =>
    let q := cf c 16 1
    if (s.queue q).takes 1 then
      (s.append q [{ record := BitVec.ofNat 64 (cf c 8 8), priv := true, parent := 0#32, view := s.mailbox.view }]).respond .ok []
    else s.respond .refused [])

/-- MAILBOX_REPLAY (R161, R377). It is answered once its walks have started: they may end after later commands (DESIGN CHOICE,
log entry 21). -/
def execMailboxReplay (s : State) : Out :=
  mbStep s (fun c => cf c 0 1 == 4) (fun c =>
    (s.replayAll (if cf c 8 2 = 0xFFFF then none else some (cf c 8 2))).respond .ok [])

/-- MAILBOX_CANCEL (R161, R377). -/
def execMailboxCancel (s : State) : Out :=
  mbStep s (fun c => cf c 0 1 == 5 && cf c 12 1 == 0) (fun c => (s.cancelId (cf c 8 4)).respond .ok [])

/-- MAILBOX_CANCEL_ASID (R161, R377). -/
def execMailboxCancelAsid (s : State) : Out :=
  mbStep s (fun c => cf c 0 1 == 5 && cf c 12 1 == 1) (fun c => (s.cancelAsid (cf c 13 2)).respond .ok [])

/-- A TLBINV command (R162, R377): the translations are dropped, and it completes when the instruction would. -/
def State.mbTlbinv (s : State) (kind : TlbKind) (c : List Byte) : State :=
  match s.mailbox.inv with
  | none =>
    let a := cf c 10 2
    let v := cf c 16 8 % 2 ^ 57
    let w := (s.tlbLines kind a v, s.tlbCmds kind a v, s.tlbLanes kind a v)
    let s := s.tlbDrop kind a v
    if s.tlbDone w.1 w.2.1 w.2.2 then s.respond .ok [] else { s with mailbox := { s.mailbox with inv := some w } }
  | some w => if s.tlbDone w.1 w.2.1 w.2.2 then s.respond .ok [] else s

/-- MAILBOX_TLBINV_ALL (R162, R377). -/
def execMailboxTlbinvAll (s : State) : Out :=
  mbStep s (fun c => cf c 0 1 == 6 && cf c 8 1 == 0) (fun c => s.mbTlbinv .all c)

/-- MAILBOX_TLBINV_ASID (R162, R377). -/
def execMailboxTlbinvAsid (s : State) : Out :=
  mbStep s (fun c => cf c 0 1 == 6 && cf c 8 1 == 1) (fun c => s.mbTlbinv .asid c)

/-- MAILBOX_TLBINV_PAGE (R162, R377). -/
def execMailboxTlbinvPage (s : State) : Out :=
  mbStep s (fun c => cf c 0 1 == 6 && cf c 8 1 == 2) (fun c => s.mbTlbinv .page c)

/-! ### BAR0 (R376) -/

/-- Only BOOT can be read in BAR0: in stage 1 of a start, and while the device holds after a failed signature check
(R376, R390, R392). -/
def State.onlyBoot (s : State) : Bool := s.power.stage == 0 || (s.power.stage == 1 && s.power.failed)

/-- BOOT (R376): BOOTWHY, BOOTCNT and READY in one word. -/
def State.bootWord (s : State) : Nat := s.power.csrBootwhy % 2 ^ 32 + s.power.fails % 2 ^ 8 * 2 ^ 32 + s.power.ready.toNat * 2 ^ 40

/-- A register of BAR0 by its offset; every other offset above the slots reads as zero (R376). -/
def State.barWord (s : State) (off : Nat) : Nat :=
  match off with
  | 0x4000 => s.mailbox.head.toNat
  | 0x4008 => s.mailbox.tail.toNat
  | 0x4010 => s.mailbox.rspBase
  | 0x4018 => s.mailbox.evBase
  | 0x4020 => s.mailbox.evIdx
  | 0x4028 => s.bootWord
  | _ => 0

/-- What the host reads at a byte of BAR0 (R376): where only BOOT can be read, zero elsewhere (DESIGN CHOICE, log entry 10).
A read changes nothing. -/
def State.barRead (s : State) (off : Nat) : Byte :=
  if s.onlyBoot && off / 8 * 8 != 0x4028 then 0#8
  else if off < 0x4000 then s.mailbox.slots.read off
  else BitVec.ofNat 8 (s.barWord (off / 8 * 8) / 2 ^ (8 * (off % 8)) % 256)

/-- TAIL_DOORBELL (R280, R376): the host may write it from the start, and commands in the slots are applied once the mailbox
engine has started (R390). -/
def execTailDoorbell (tail : Byte) (s : State) : Out :=
  .next { s with mailbox := { s.mailbox with tail := tail } }

/-- Bytes of a 64-bit register replaced. -/
def patchWord (old off : Nat) (data : List Byte) : Nat :=
  leNat ((List.range 8).map (fun i => if off ≤ i ∧ i < off + data.length then data.getD (i - off) 0#8 else BitVec.ofNat 8 (old / 2 ^ (8 * i) % 256)))

/-- The host writes bytes of BAR0 other than the doorbell: slots, RSPBASE or EVBASE; every other offset ignores writes
(R376). -/
def State.barWrite (s : State) (off : Nat) (data : List Byte) : State :=
  let m := s.mailbox
  if off + data.length ≤ 0x4000 then { s with mailbox := { m with slots := m.slots.writeBytes off data } }
  else if 0x4010 ≤ off ∧ off + data.length ≤ 0x4018 then { s with mailbox := { m with rspBase := patchWord m.rspBase (off - 0x4010) data } }
  else if 0x4018 ≤ off ∧ off + data.length ≤ 0x4020 then { s with mailbox := { m with evBase := patchWord m.evBase (off - 0x4018) data } }
  else s

end Sys2Proof.Machine
end

