-- ==== Sys2Proof/Machine/Network.lean ====
section
/-! DEFINITION. The on-die network and the die links (R11 to R25): injection, arbitration, the golden packet, and the
sublinks between dies. No program observes it (R21), so it moves packets only. -/

namespace Sys2Proof.Machine

/-! ### Topology (R11, R12): a router is 16 d + 4 q + j -/

/-- The router of a local endpoint (R11); a stack gives channels 8 q to 8 q + 7 to quadrant q, two to a router
(DEDUCED, log entry 12). -/
def routerOf : Endpoint → Nat
  | .core c => 4 * (c / 8) + c % 8 / 2
  | .slice die s => 16 * die + s
  | .channel c => 16 * (c / 96) + 4 * (c % 32 / 8) + c % 8 / 2
  | .port p => 4 * p + 3
  | .host | .mailbox => 15

/-- The endpoint exists (R1, R11). -/
def endpointExists : Endpoint → Bool
  | .core c => decide (c < 128)
  | .slice die s => decide (die < 4 ∧ s < 16)
  | .channel c => decide (c < 384)
  | .port p => decide (p < 16)
  | .host | .mailbox => true

/-- A port of a router. -/
inductive NetPort where
  /-- The intra-quadrant link to router j. -/
  | intra (j : Nat)
  /-- The long link. -/
  | long
  /-- The ejection port to a local endpoint. -/
  | eject (e : Endpoint)
  /-- The ejection port into the die-link gateway towards a die. -/
  | gate (die : Nat)
  deriving DecidableEq, Repr, Inhabited

/-- The quadrant that the long link of router j of quadrant q leads to (R11). -/
def longTo (q j : Nat) : Nat := (q + j + 1) % 4

/-- The router at the other end of a link. -/
def NetPort.far (r : Nat) : NetPort → Nat
  | .intra j => r / 4 * 4 + j
  | .long => r / 16 * 16 + 4 * longTo (r / 4 % 4) (r % 4) + (2 - r % 4)
  | _ => r

/-- Cycles of a link (R15). -/
def NetPort.cycles : NetPort → Nat
  | .long => 3
  | _ => 1

/-- The network ports of a router (R16). -/
def netPorts (r : Nat) : List NetPort :=
  ((List.range 4).filter (fun j => j != r % 4)).map NetPort.intra ++ (if r % 4 = 3 then [] else [.long])

/-- The minimal port of a destination at a router (R17, R24). `src` is the router that injected the packet on this die. -/
def minimalPort (r src : Nat) (e : Endpoint) : NetPort :=
  let t := if routerOf e / 16 = r / 16 then routerOf e else src / 4 * 4 + 3
  if t = r then (if routerOf e / 16 = r / 16 then .eject e else .gate (routerOf e / 16))
  else if t / 4 = r / 4 then .intra (t % 4)
  else
    let j := (t / 4 % 4 + 3 - r / 4 % 4) % 4
    if j = r % 4 then .long else .intra j

/-! ### Tables -/

def State.router (s : State) (r : Nat) : Router :=
  (s.routers.find? (fun x => x.id == r)).getD { id := r, nextSeq := 0, outstanding := [], wait := none, starved := 0, last := 0 }

def State.modRouter (s : State) (r : Nat) (f : Router → Router) : State :=
  { s with routers := f (s.router r) :: s.routers.filter (fun x => x.id != r) }

def State.gateway (s : State) (die quad other : Nat) : Gateway :=
  (s.gateways.find? (fun g => g.die == die && g.quad == quad && g.other == other)).getD
    { die := die, quad := quad, other := other, tx := [], rx := [], sent := 0 }

def State.modGateway (s : State) (die quad other : Nat) (f : Gateway → Gateway) : State :=
  { s with gateways := f (s.gateway die quad other) ::
      s.gateways.filter (fun g => !(g.die == die && g.quad == quad && g.other == other)) }

/-- The golden source router of a die (R19). -/
def State.goldenRouter (s : State) (die : Nat) : Nat :=
  match s.golden.find? (fun g => g.die == die) with
  | some g => g.router
  | none => 0

/-- The packet is golden: the oldest undelivered one of the golden router of its die (R19). -/
def State.isGolden (s : State) (p : Packet) : Bool :=
  p.router % 16 == s.goldenRouter (p.router / 16) &&
    (match (s.router p.router).outstanding with
      | x :: _ => x.1 == p.seq
      | [] => false)

/-- Some destinations of a packet have been reached; it is delivered with the last of them (R22). -/
def State.reach (s : State) (p : Packet) (es : List Endpoint) : State :=
  s.modRouter p.router (fun r => { r with outstanding := (r.outstanding.map (fun x =>
    if x.1 == p.seq then (x.1, x.2.filter (fun e => !es.contains e)) else x)).filter (fun x => !x.2.isEmpty) })

/-! ### Arbitration (R16 to R18, R22, R23) -/

/-- The ports taken so far in this cycle, the packets that have left on links, those that found no port at all, and
whether a packet is being injected: then it may take network ports alone (R18). -/
structure Arb where
  state : State
  taken : List NetPort
  sent : List (NetPort × Packet)
  kept : List Packet
  injecting : Bool

/-- A port is free (R17, R23): the last entry of a gateway's queue is the golden packet's, and no injection takes an
ejection port (R18). -/
def Arb.isFree (a : Arb) (r : Nat) (golden : Bool) (p : NetPort) : Bool :=
  !a.taken.contains p &&
  (match p with
    | .gate die =>
      let n := (a.state.gateway (r / 16) (r / 4 % 4) die).tx.length
      !a.injecting && (decide (n < 63) || (golden && decide (n < 64)))
    | .eject _ => !a.injecting
    | _ => true)

/-- The free network ports. -/
def Arb.freeLinks (a : Arb) (r : Nat) : List NetPort := (netPorts r).filter (fun p => a.isFree r false p)

/-- A network port leads to a router that raised its starvation signal in this cycle (R18). -/
def Arb.starves (a : Arb) (r : Nat) (p : NetPort) : Bool :=
  (netPorts r).contains p && (a.state.router (p.far r)).starved == a.state.clk + 1

/-- The free network ports that a packet may take: those that the starvation signal leaves (R18). A transit packet that
would find none takes another, since no router holds it (R16); an injection waits. -/
def Arb.openLinks (a : Arb) (r : Nat) : List NetPort :=
  let fs := (a.freeLinks r).filter (fun p => !a.starves r p)
  if fs.isEmpty && !a.injecting then a.freeLinks r else fs

/-- The long link of a router leads to an intermediate quadrant of a packet: neither its source nor its destination. -/
def viaLong (r : Nat) (p : Packet) (target : Nat) : Bool :=
  longTo (r / 4 % 4) (r % 4) != target / 4 % 4 && longTo (r / 4 % 4) (r % 4) != p.router / 4 % 4

/-- The port that a branch takes: its minimal or ejection port, then the long link towards an intermediate quadrant,
then any free network port (R17). Which of several free ports a deflected packet takes R17 leaves open: the first of the
intra-quadrant links in ascending order, then the long link (DESIGN CHOICE, log entry 21). -/
def Arb.choose (a : Arb) (r : Nat) (golden : Bool) (p : Packet) (want : NetPort) (target : Nat) : Option NetPort :=
  let free := a.openLinks r
  if a.isFree r golden want && (golden || !(netPorts r).contains want || free.contains want) then some want
  else if !p.crossed && free.contains .long && viaLong r p target then some .long
  else free.head?

/-- One branch of a packet leaves on a port. The long link towards an intermediate quadrant, taken instead of the wanted
port, is its one non-minimal crossing; a deflection is none (R17). -/
def Arb.leave (a : Arb) (r : Nat) (p : Packet) (es : List Endpoint) (want port : NetPort) (target : Nat) : Arb :=
  let a : Arb := { a with taken := port :: a.taken }
  match port with
  | .eject _ => { a with state := a.state.reach p es }
  | .gate die =>
    let q := { p with dests := es }
    { a with state := (a.state.reach p es).modGateway (r / 16) (r / 4 % 4) die (fun g => { g with tx := g.tx ++ [q] }) }
  | _ => { a with sent := a.sent ++ [(port, { p with dests := es, crossed := p.crossed || (port == .long && want != .long && viaLong r p target) })] }

/-- Destinations added to the copy of the packet that has left last: no port is left for a branch of its own
(DEDUCED, log entry 12). -/
def Arb.join (a : Arb) (es : List Endpoint) : Arb :=
  match a.sent.getLast? with
  | some (port, p) => { a with sent := a.sent.dropLast ++ [(port, { p with dests := p.dests ++ es })] }
  | none => a

/-- A packet for which no port is left at all, with the destinations of another such branch of it. -/
def Arb.keep (a : Arb) (p : Packet) : Arb :=
  match a.kept.getLast? with
  | some q =>
    if q.router == p.router && q.seq == p.seq then { a with kept := a.kept.dropLast ++ [{ q with dests := q.dests ++ p.dests }] }
    else { a with kept := a.kept ++ [p] }
  | none => { a with kept := [p] }

/-- A packet leaves the router, split by the minimal ports that its destinations need (R22). Of the packets still to
leave in this cycle `behind` need a link, and each of them keeps one: the golden packet gives way to none (R19), and a
second branch of another packet joins an earlier copy where no link would be left (DEDUCED, log entry 12). Where the
branches of a golden multicast have taken every link, R15, R16 and R22 leave another packet no port at all: it passes through
the pipeline of the router once more (DESIGN CHOICE, log entry 21). -/
def Arb.pass (a : Arb) (r : Nat) (p : Packet) (behind : Nat) : Arb :=
  let golden := a.state.isGolden p
  let wants := (p.dests.map (fun e => minimalPort r p.router e)).dedup
  (wants.foldl (fun (acc : Arb × Bool) want =>
    let es := p.dests.filter (fun e => minimalPort r p.router e == want)
    let target := match es with
      | e :: _ => if routerOf e / 16 = r / 16 then routerOf e else p.router / 4 * 4 + 3
      | [] => r
    match acc.1.choose r golden p want target with
    | none => (if acc.2 then acc.1.join es else acc.1.keep { p with dests := es }, acc.2)
    | some port =>
      let link := (netPorts r).contains port
      if !golden && link && acc.2 && decide ((acc.1.freeLinks r).length ≤ behind) then (acc.1.join es, true)
      else (acc.1.leave r p es want port target, acc.2 || link)) (a, false)).1

/-- The ports that the branches of a packet want (R22). -/
def Packet.wants (r : Nat) (p : Packet) : List NetPort := (p.dests.map (fun e => minimalPort r p.router e)).dedup

/-- How many of some packets need a link, each in turn, once packet `p` has left before them: those that cannot leave whole
by ejection ports still free. -/
def Arb.linksNeeded (a : Arb) (r : Nat) (p : Packet) (ps : List Packet) : Nat :=
  (ps.foldl (fun (acc : List NetPort × Nat) p =>
    let wants := p.wants r
    if wants.all (fun w => !(netPorts r).contains w && a.isFree r (a.state.isGolden p) w && !acc.1.contains w) then (acc.1 ++ wants, acc.2)
    else (acc.1, acc.2 + 1)) (p.wants r, 0)).2

/-- Packets leave the router in order. -/
def Arb.passAll (a : Arb) (r : Nat) : List Packet → Arb
  | [] => a
  | p :: ps => (a.pass r p (a.linksNeeded r p ps)).passAll r ps

/-- Copies of the golden packet that meet in a router are merged (R22). -/
def mergeGolden (s : State) (ps : List Packet) : List Packet :=
  match ps.filter (fun p => s.isGolden p) with
  | [] => ps
  | p :: r => { p with dests := (p.dests ++ r.flatMap (·.dests)).dedup } :: ps.filter (fun q => !s.isGolden q)

/-- The packets that leave the pipeline of a router now, the golden one first, then the oldest by injection time (R17).
Of two injected in one cycle R17 names none: the one of the lower router goes first, then that of the lower sequence
number (DESIGN CHOICE, log entry 21). -/
def State.leaving (s : State) (r : Nat) : List Packet :=
  let ps := mergeGolden s ((s.transits.filter (fun t => t.at_ == r && decide (t.due ≤ s.clk))).map (·.pkt))
  sortBy (fun (p : Packet) => if s.isGolden p then 0 else 1 + p.time * 2 ^ 32 + p.router * 2 ^ 26 + p.seq % 2 ^ 26) ps

/-- A waiting packet is injected into a network port that no transit packet has taken (R18), and is as old as its
injection (R17). R18 does not say how many of a router's local endpoints may have one ready: here a router holds one
and injects at most one in a cycle (DESIGN CHOICE, log entry 21). -/
def Arb.inject (a : Arb) (r : Nat) : Arb :=
  match (a.state.router r).wait with
  | none => a
  | some (p, _) =>
    if ({ a with injecting := true }.openLinks r).isEmpty then a
    else
      let p : Packet := { p with time := a.state.clk }
      let a : Arb := { a with state := a.state.modRouter r (fun x => { x with
        wait := none, starved := 0, nextSeq := x.nextSeq + 1, outstanding := x.outstanding ++ [(p.seq, p.dests)] }) }
      { a with sent := [], injecting := true }.pass r p 0 |> fun (b : Arb) => { b with sent := a.sent ++ b.sent }

/-- The golden identifier of a die that has packets is that of an earlier epoch. -/
def State.goldenStale (s : State) : Bool :=
  (List.range 4).any (fun d => s.goldenRouter d != s.clk / 4096 % 16 &&
    s.routers.any (fun r => r.id / 16 == d && !r.outstanding.isEmpty))

/-- ROUTER_ARBITRATION (R16 to R18, R22): every packet that leaves the pipeline takes a port, and one waiting packet
may be injected. The golden identifiers are first those of the epoch (R19). -/
def execRouterArbitration (router : Nat) (s : State) : Out :=
  if (s.router router).last == s.clk + 1 || decide (router ≥ 64) || s.goldenStale then .next s
  else
    let ps := s.leaving router
    let s : State := { s with transits := s.transits.filter (fun t => !(t.at_ == router && decide (t.due ≤ s.clk))) }
    let s := s.modRouter router (fun r => { r with last := s.clk + 1 })
    let a := (Arb.passAll { state := s, taken := [], sent := [], kept := [], injecting := false } router ps).inject router
    let out : List Transit := a.sent.map (fun x => { at_ := x.1.far router, due := a.state.clk + x.1.cycles + 2, pkt := x.2 })
    let kept : List Transit := a.kept.map (fun p => { at_ := router, due := a.state.clk + 2, pkt := p })
    .next { a.state with transits := a.state.transits ++ out ++ kept }

/-- PACKET_INJECTION (R15, R18, R22): a local endpoint offers a packet of one flit to its router. -/
def execPacketInjection (router : Nat) (offer : Offer) (s : State) : Out :=
  let r := s.router router
  if router ≥ 64 || r.wait.isSome || offer.dests.isEmpty || decide (offer.payload.length > 128) || decide (r.outstanding.length ≥ 256) ||
      !offer.dests.all endpointExists then .next s
  else .next (s.modRouter router (fun r => { r with
    wait := some ({ router := router, seq := r.nextSeq, time := s.clk, dests := offer.dests.dedup, crossed := false, payload := offer.payload }, s.clk) }))

/-- STARVATION_SIGNAL (R18): an injection has been held for 64 cycles. -/
def execStarvationSignal (router : Nat) (s : State) : Out :=
  match (s.router router).wait with
  | some (_, since) => .next (if since + 64 ≤ s.clk then s.modRouter router (fun r => { r with starved := s.clk + 1 }) else s)
  | none => .next s

/-- GOLDEN_EPOCH (R19): the golden identifier of a die names the router of the epoch. -/
def execGoldenEpoch (die : Nat) (s : State) : Out :=
  .next { s with golden := { die := die, router := s.clk / 4096 % 16 } :: s.golden.filter (fun g => g.die != die) }

/-- SUBLINK_CROSSING (R12, R23): one flit in a cycle, while the receive queue has room. -/
def execSublinkCrossing (die quad other : Nat) (s : State) : Out :=
  let g := s.gateway die quad other
  match g.tx with
  | [] => .next s
  | p :: r =>
    if g.sent == s.clk + 1 || decide ((s.gateway other quad die).rx.length ≥ 64) then .next s
    else .next ((s.modGateway die quad other (fun g => { g with tx := r, sent := s.clk + 1 })).modGateway other quad die
      (fun g => { g with rx := g.rx ++ [p] }))

/-- GATEWAY_INJECTION (R23): the receiving gateway offers the packet as a new packet of its router. -/
def execGatewayInjection (die quad other : Nat) (s : State) : Out :=
  let router := 16 * die + 4 * quad + 3
  let r := s.router router
  match (s.gateway die quad other).rx with
  | [] => .next s
  | p :: rest =>
    if r.wait.isSome || decide (r.outstanding.length ≥ 256) || decide (router ≥ 64) then .next s
    else .next ((s.modGateway die quad other (fun g => { g with rx := rest })).modRouter router (fun r => { r with
      wait := some ({ router := router, seq := r.nextSeq, time := s.clk, dests := p.dests, crossed := false, payload := p.payload }, s.clk) }))

/-- A packet that has reached the end of a pipeline has still to take its port in this cycle (R16). -/
def State.netBusy (s : State) : Bool := s.transits.any (fun t => decide (t.due ≤ s.clk))

end Sys2Proof.Machine
end

