-- ==== Sys2Proof/Machine/Clock.lean ====
section
/-! DEFINITION. The end of a main-clock cycle (R302, R305, R153, R358), and the turns that are no row of the table: words
read early (R190), a translation dropped (R285), and what the host writes (R266, R376). -/

namespace Sys2Proof.Machine

/-- Something that takes place in every cycle, or at once, has still to come (R16, R19, R296, R297, R303). -/
def State.cycleOpen (s : State) : Bool :=
  (!s.power.tripped && s.teams.any (fun t => s.wdogExpired t)) ||
  (!s.cadence.acted && (s.cadence.start == 2 || (s.cadence.start == 3 && s.cadence.grid.isNone))) ||
  (!s.power.tripped && s.cores.any (fun c => c.trace.frames.any (fun f => !f.closed && f.old s.clk))) ||
  s.gridStep || s.netBusy || s.goldenStale

/-- A ready thread whose waits are not met is not ready in this cycle (R36, R37). -/
def State.notYet (s : State) (t : Thread) : Bool :=
  t.status == .ready &&
  (match s.coreOf t.team with
    | some c => (match s.core? c with
      | some k => !k.heldWhole t && !s.metWaits c t
      | none => false)
    | none => false)

/-- One cycle counted: CLK64, the watchdogs of resident teams, of which those that stand at their limit now have expired,
and the spawn timers (R153, R302, R305); what the next cycle's action of the Cadence engine goes by is as it stands now (R358). -/
def State.count (s : State) : State :=
  { s with
    clk := s.clk + 1,
    teams := updWhere (fun t => t.isResident && !s.power.tripped) (fun t => { t with wdog := t.wdog + 1, wdogHit := s.wdogFull t, wdogAgain := t.wdogHandling }) s.teams,
    threads := updWhere (fun t => s.notYet t) (fun t => { t with since := s.clk + 1 }) s.threads,
    cores := updWhere (fun c => !c.bins.isEmpty && !s.power.tripped) (fun c => { c with bins := updWhere (fun b => decide (1 < b.timer)) (fun b => { b with timer := b.timer - 1 }) c.bins }) s.cores,
    cadence := { s.cadence with acted := false, start := s.cadence.state,
                                    grid := s.cadence.running.map (fun r => s.gridResident r.launch) } }

/-- The records that engines made after the ports in the cycle that ends are the first of the next (R308), or are dropped and
counted where a gating has begun (R312). -/
def State.flushLater (s : State) : State :=
  let off := fun (c : Core) => s.power.gating.contains (quadOf c.id) || s.power.gated.contains (quadOf c.id)
  let write := fun (c : Core) =>
    if off c then { c.trace with later := [], gateDropped := stop32 (c.trace.gateDropped + c.trace.later.length) }
    else c.trace.flush c.id s.clk
  { s with cores := updWhere (fun c => !c.trace.later.isEmpty) (fun c => { c with trace := write c }) s.cores }

/-- The end of a cycle; it does not come while something of the cycle is open. -/
def State.tick (s : State) : State :=
  if s.cycleOpen then s
  else (s.cores.filter (fun c => !c.waiting.isEmpty)).foldl (fun (s : State) c => s.wakeGroups c.id) s.count.flushLater

/-- An engine operation reads one of its source words before the rest (R190); not after a trip (R387). -/
def State.sampleWord (s : State) (op word : Nat) : State :=
  if s.power.tripped then s else
  match s.xfer? op, s.tileOp? op, s.waitingCmds.find? (fun b => b.id == op) with
  | some o, _, _ => if o.parts.isEmpty then s.sampleCopy o word else s.samplePart o word
  | none, some o, _ => s.sampleTile o word
  | none, none, some b => s.sampleBank b word
  | none, none, none => s

/-- A translation cache drops an entry (R285). -/
def State.evict (s : State) (core entry : Nat) : State := s.modCore core (fun c => { c with tlb := c.tlb.eraseIdx entry })

/-- An all-core write of the pattern table takes effect on a core (R291). -/
def State.patternTurn (s : State) (core : Nat) : State :=
  s.modCore core (fun c => match c.xbarNew with
    | some (e, x) => { c with xbar := assocSet c.xbar e x, xbarNew := none }
    | none => c)

/-- The host or a device of it writes system memory (R266). -/
def State.hostWrite (s : State) (addr : Nat) (data : List Byte) : State := s.memWrite ⟨.sys, addr⟩ data

end Sys2Proof.Machine
end

