-- ==== Sys2Proof/Machine/CrossLane.lean ====
section
/-! DEFINITION. Cross-lane instructions (R126 to R135): meanings 0x38 to 0x40. -/

namespace Sys2Proof.Machine

/-- The participant at a position, when it is supplied (R126). -/
def Ctx.at? (c : Ctx) (h : Head) (q : Nat) : Option Thread := (c.parts h).find? (fun t => c.pos t == q)

/-- The value of the participant at position `q`, or the own value (R126). -/
def Ctx.fromPos (c : Ctx) (h : Head) (t : Thread) (q : Nat) (f : Thread → Nat) : Nat :=
  match c.at? h q with
  | some x => f x
  | none => f t

/-- A cross-lane instruction: every source is read before any destination is written; a participant whose
result is none is not written (R126, R128). -/
def cross (s : State) (h : Head) (ops : List (Operand × Nat)) (d : Operand)
    (f : Ctx → Thread → Option VecEff) : Out :=
  run s ops (fun c => ((c.parts h).foldl (fun s t =>
    match f c t with
    | some e => s.writeEff t d e
    | none => s) s).advance)

/-- The partner position of XCHG, or the own position where there is none (R127). -/
def xchgPartner (mode : XchgMode) (limit pos m : Nat) : Nat :=
  let q := match mode with
    | .xor | .tr => pos ^^^ m
    | .up => if m ≤ pos then pos - m else pos
    | .down => pos + m
  if q < limit then q else pos

/-- The result of XCHG (R127); `.tr` transposes pairs between partners. -/
def xchgBits (c : Ctx) (h : Head) (mode : XchgMode) (t : Thread) (m : Nat) (f : Thread → Nat) : Nat :=
  let pos := c.pos t
  let q := xchgPartner mode c.grp.limit pos m
  if mode == .tr then
    match c.at? h q with
    | some x =>
      if q = pos then f t
      else if pos &&& m = 0 then f t % 2 ^ 32 + f x % 2 ^ 32 * 2 ^ 32
      else f x / 2 ^ 32 + f t / 2 ^ 32 * 2 ^ 32
    | none => f t
  else c.fromPos h t q f

def execXchg (h : Head) (ty : Ty) (mode : XchgMode) (d a m : Operand) (s : State) : Out :=
  cross s h [(d, Ty.words ty), (a, Ty.words ty), (m, 1)] d (fun c t =>
    some (.ofTy ty (xchgBits c h mode t ((c.val t m).toNat % 64) (fun x => c.src x ty a))))
def execXchgVl (h : Head) (d a : Operand) (lit : Word) (s : State) : Out :=
  cross s h [(d, 1), (a, 1)] d (fun c t =>
    some (.word (xchgBits c h .xor t (lit.toNat % 64) (fun x => c.src x .i32 a))))

/-- Pattern `e` of a core's crossbar table; the butterfly of mask e where the host wrote none (R291). -/
def Core.pattern (k : Core) (e : Nat) : BitVec 512 :=
  match assocGet k.xbar e with
  | some p => p
  | none => BitVec.ofNat 512 (packElems 6 ((List.range 64).map (fun p => p ^^^ e)))

/-- The result of XPERM for a participant, none where KEEP leaves its destination (R128). -/
def xpermBits (c : Ctx) (h : Head) (p : BitVec 512) (t : Thread) (f : Thread → Nat) : Option Nat :=
  let pos := c.pos t
  if p.getLsbD (384 + pos) then none
  else
    let q := p.toNat / 2 ^ (6 * pos) % 64
    if q < c.grp.limit then some (c.fromPos h t q f) else some (f t)

/-- The crossbar table of the issuing core. -/
def State.pattern (s : State) (c : Ctx) (e : Nat) : BitVec 512 :=
  match s.core? c.core with
  | some k => k.pattern e
  | none => 0#512

def execXperm (h : Head) (ty : Ty) (d a e : Operand) (s : State) : Out :=
  cross s h [(d, Ty.words ty), (a, Ty.words ty), (e, 1)] d (fun c t =>
    (xpermBits c h (s.pattern c ((c.val t e).toNat % 64)) t (fun x => c.src x ty a)).map (VecEff.ofTy ty))
def execXpermVl (h : Head) (d a : Operand) (lit : Word) (s : State) : Out :=
  cross s h [(d, 1), (a, 1)] d (fun c t =>
    (xpermBits c h (s.pattern c (lit.toNat % 64)) t (fun x => c.src x .i32 a)).map VecEff.word)

/-- The position named by the lowest-positioned participant (R129). -/
def Ctx.leadPos (c : Ctx) (h : Head) (f : Thread → Nat) : Nat :=
  match c.parts h with
  | [] => 0
  | t :: _ => f t % 64

def execXbcast (h : Head) (ty : Ty) (d a q : Operand) (s : State) : Out :=
  cross s h [(d, Ty.words ty), (a, Ty.words ty), (q, 1)] d (fun c t =>
    some (.ofTy ty (c.fromPos h t (c.leadPos h (fun x => (c.val x q).toNat)) (fun x => c.src x ty a))))
def execXbcastVl (h : Head) (d a : Operand) (lit : Word) (s : State) : Out :=
  cross s h [(d, 1), (a, 1)] d (fun c t =>
    some (.word (c.fromPos h t (lit.toNat % 64) (fun x => c.src x .i32 a))))

/-- One step of an f32 fold (R130): add rounds once, min and max follow R113. -/
def foldF32 (m : RedMods) (ftz : Bool) (x y : Nat) : Nat :=
  match m.op.val with
  | 0 => (fmtF32.ofVal m.rm m.sat ftz (Val.add m.rm (fmtF32.val x) (fmtF32.val y))).bits
  | 1 => fmtF32.minMax false x y
  | _ => fmtF32.minMax true x y

/-- One step of an integer fold, exact (R130). -/
def foldInt (op : Nat) (x y : Int) : Int :=
  match op with
  | 0 => x + y
  | 1 => min x y
  | 2 => max x y
  | 3 => ((BitVec.ofInt 32 x) &&& (BitVec.ofInt 32 y)).toNat
  | 4 => ((BitVec.ofInt 32 x) ||| (BitVec.ofInt 32 y)).toNat
  | _ => ((BitVec.ofInt 32 x) ^^^ (BitVec.ofInt 32 y)).toNat

/-- A NaN that an arithmetic fold produces is canonical (R44). -/
def canonF32 (x : Nat) : Nat := if (fmtF32.val x).isNan then fmtF32.nanBits else x

/-- The fold of a list of operand bits in ascending position (R130); `stepwise` fits integers at each step (R131). -/
def foldBits (m : RedMods) (ftz stepwise : Bool) (xs : List Nat) : Nat :=
  match xs with
  | [] => 0
  | x :: r =>
    if m.ty == .f32 then canonF32 (r.foldl (fun acc y => foldF32 m ftz acc (fmtF32.flush ftz y)) (fmtF32.flush ftz x))
    else
      let fit := fun (r : Int) => if stepwise then Ty.toInt m.ty (fitInt m.ty m.sat r) else r
      fitInt m.ty m.sat (r.foldl (fun acc y => fit (foldInt m.op.val acc (Ty.toInt m.ty y))) (Ty.toInt m.ty x))

def execXred (h : Head) (m : RedMods) (d a : Operand) (s : State) : Out :=
  cross s h [(d, 1), (a, 1)] d (fun c _ =>
    some (.word (foldBits m c.ftz false ((c.parts h).map (fun x => c.src x m.ty a)))))

/-- The identity of an operation (R131). -/
def redIdentity (m : RedMods) : Nat :=
  match m.op.val with
  | 1 => if m.ty == .f32 then fmtF32.infBits false else Ty.wrapBits m.ty (Ty.maxInt m.ty)
  | 2 => if m.ty == .f32 then fmtF32.infBits true else Ty.wrapBits m.ty (Ty.minInt m.ty)
  | 3 => 0xFFFFFFFF
  | _ => 0

/-- The operands of a participant's segment before it, in ascending position: those from the last participant
that starts a segment at or before it (R131). -/
def segmentBefore (c : Ctx) (h : Head) (flag : Thread → Bool) (val : Thread → Nat) (t : Thread) : List Nat :=
  ((c.parts h).filter (fun x => decide (c.pos x ≤ c.pos t))).foldl
    (fun (acc : List Nat × List Nat) x =>
      -- the segment so far, and what lies before the participant last taken
      let seg := if flag x then [] else acc.1
      (seg ++ [val x], seg)) ([], []) |>.2

/-- XSCAN for one participant (R131). -/
def xscanBits (c : Ctx) (h : Head) (m : RedMods) (flag : Thread → Bool) (val : Thread → Nat) (t : Thread) : Nat :=
  let before := segmentBefore c h flag val t
  if m.exc then (if before.isEmpty then redIdentity m else foldBits m c.ftz true before)
  else foldBits m c.ftz true (before ++ [val t])

def execXscan (h : Head) (m : RedMods) (d a f : Operand) (s : State) : Out :=
  cross s h [(d, 1), (a, 1), (f, 1)] d (fun c t =>
    some (.word (xscanBits c h m (fun x => !f.isNone && c.val x f != 0#32) (fun x => c.src x m.ty a) t)))
def execXscanVl (h : Head) (d a : Operand) (lit : Word) (s : State) : Out :=
  cross s h [(d, 1), (a, 1)] d (fun c t =>
    some (.word (xscanBits c h { ty := .i32, rm := .rn, sat := false, exc := false, op := 0 }
      (fun _ => lit != 0#32) (fun x => c.src x .i32 a) t)))

/-- The mask of the positions of participants that satisfy `p` (R132, R133). -/
def Ctx.posMask (c : Ctx) (h : Head) (p : Thread → Bool) : DWord := maskOf (((c.parts h).filter p).map c.pos)

def execXballot (h : Head) (count : Bool) (d a : Operand) (s : State) : Out :=
  cross s h [(d, if count then 1 else 2), (a, 1)] d (fun c _ =>
    let p := fun x => c.val x a != 0#32
    some (if count then .word ((c.parts h).filter p).length else .ofTy .i64 (c.posMask h p).toNat))

def execXmatch (h : Head) (ty : Ty) (low : Bool) (d a : Operand) (s : State) : Out :=
  cross s h [(d, if low then 1 else 2), (a, Ty.words ty)] d (fun c t =>
    let p := fun x => c.src x ty a == c.src t ty a
    some (if low then .word ((((c.parts h).filter p).map c.pos).headD 0) else .ofTy .i64 (c.posMask h p).toNat))

/-- The thread of the same home group with a home index, unless it is absent or has exited (R134, R135). -/
def State.sibling (s : State) (c : Ctx) (t : Thread) (hidx : Nat) : Option Thread :=
  if hidx ≥ (c.launch.kernel.role t.role).gsize then none
  else s.seen.threads.find? (fun x => x.inHg t.team t.role t.hg && x.hidx == hidx && !x.hasExited)

/-- XREAD for one participant (R134). -/
def xreadBits (s : State) (c : Ctx) (t : Thread) (a : Operand) (hidx : Nat) : Nat :=
  match s.sibling c t hidx with
  | some x => c.src x .i32 a
  | none => c.src t .i32 a

def execXread (h : Head) (d a q : Operand) (s : State) : Out :=
  cross s h [(d, 1), (a, 1), (q, 1)] d (fun c t => some (.word (xreadBits s c t a ((c.val t q).toNat % 64))))
def execXreadVl (h : Head) (d a : Operand) (lit : Word) (s : State) : Out :=
  cross s h [(d, 1), (a, 1)] d (fun c t => some (.word (xreadBits s c t a (lit.toNat % 64))))

/-- XWRITE (R135): participants in ascending position, so that the highest one named last wins. -/
def xwriteAll (s : State) (c : Ctx) (h : Head) (d : Operand) (f : Thread → Word × Nat) : State :=
  (c.parts h).foldl (fun s' t =>
    match s.sibling c t (f t).2 with
    | some x => s'.writeEff x d { words := [(f t).1], preds := [] }
    | none => s') s

def execXwrite (h : Head) (d b q : Operand) (s : State) : Out :=
  run s [(d, 1), (b, 1), (q, 1)] (fun c =>
    (xwriteAll s c h d (fun t => (c.val t b, (c.val t q).toNat % 64))).advance)
def execXwriteVl (h : Head) (d b : Operand) (lit : Word) (s : State) : Out :=
  run s [(d, 1), (b, 1)] (fun c => (xwriteAll s c h d (fun t => (c.val t b, lit.toNat % 64))).advance)

end Sys2Proof.Machine
end

