-- ==== Sys2Proof/Machine/Predicates.lean ====
section
/-! DEFINITION. Predicate instructions (R124, R125): meanings 0x35 and 0x36. -/

namespace Sys2Proof.Machine

/-- PLUT (R124). -/
def execPlut (h : Head) (lut : Byte) (pd pa pb pc : Fin 8) (s : State) : Out :=
  vec s h [] .none (fun _ t =>
    { words := [], preds := [(pd.val, lut3Bit lut (t.pred pa.val) (t.pred pb.val) (t.pred pc.val))] })

/-- P0 to P7 as a word, bit 7 always 1 (R125). -/
def predWord (t : Thread) : Nat := ((List.range 8).map (fun i => if t.pred i then 2 ^ i else 0)).sum

def execPmov (h : Head) (d : Operand) (s : State) : Out :=
  vec s h [(d, 1)] d (fun _ t => .word (predWord t))

/-- PMOV.w (R125). -/
def execPmovW (h : Head) (mask : BitVec 7) (a : Operand) (s : State) : Out :=
  vec s h [(a, 1)] .none (fun c t =>
    { words := [], preds := ((List.range 7).filter (fun i => mask.getLsbD i)).map (fun i => (i, (c.val t a).getLsbD i)) })

end Sys2Proof.Machine
end

