-- ==== Sys2Proof/Machine/Preempt.lean ====
section
/-! DEFINITION. Saving a pre-empted team (R346 to R349). -/

namespace Sys2Proof.Machine

/-- A thread stands at a clause boundary or is parked (R346); one that waits inside a clause for a result, or to enter
its handler, does not. -/
def Thread.atBoundary (t : Thread) : Bool :=
  match t.status with
  | .ready => t.clause.isNone
  | .inGroup => false
  | .parked .result | .parked .entering => false
  | .parked _ => true
  | .exited => true

/-- Every pending result has returned, but for those of QSYNC (R346, R349). -/
def State.resultsBack (s : State) (t : Thread) : Bool :=
  t.pend.all (fun p => p.value.isSome || s.xfers.any (fun o => o.id == p.id && o.kind == .qsync))

/-- Everything of the team that a save waits for has completed or been accepted (R346): its copies and conversions, its
TILE instructions, its loads and its commands; and no multicast has bytes for its allotment (DEDUCED, log entry 12). -/
def State.drained (s : State) (team : Nat) : Bool :=
  s.xfers.all (fun o => o.team != team || (match o.kind with
    | .cpy _ _ | .cpymc _ _ _ | .bank | .rstripe => false
    | _ => true)) &&
  s.xfers.all (fun o => match o.kind with
    | .cpymc _ _ ts => !ts.contains team
    | _ => true) &&
  s.tileOps.all (fun o => o.team != team) && s.loads.all (fun o => o.team != team) &&
  s.waitingCmds.all (fun b => b.team != team)

/-- Save slots of the pool that lie in main memory (R347, R380). -/
def State.saveSlots (s : State) : Nat :=
  Nat.min (s.hostCtl.saveLen / Config.saveSlot) ((Config.mainBytes - s.hostCtl.saveBase) / Config.saveSlot)

/-- Slots that saved teams hold. -/
def State.slotsHeld (s : State) : List Nat :=
  s.teams.filterMap (fun t => match t.place with
    | .saved k => some k
    | _ => none)

/-- A pre-empted team can be saved now (R346, R347). -/
def State.canSave (s : State) (t : Team) : Bool :=
  t.saveReq && t.isResident && !t.killed && s.drained t.key &&
  s.threads.all (fun x => x.team != t.key || (x.atBoundary && s.resultsBack x))

/-- A save slot is written, in a layout that is the device's own (R347): its bytes are free, named by the counter as it
stands (log entry 16). -/
def State.writeSlot (s : State) (slot : Nat) : State :=
  { (s.memWrite ⟨.main, s.hostCtl.saveBase + slot * Config.saveSlot⟩ ((List.range Config.saveSlot).map (Config.freeSave s.freeCount))) with
    freeCount := s.freeCount + 1 }

/-- The team goes to a save slot: its stores before its last release that tagged a line are performed at DEVICE scope (R182,
R346), its lock entries and bins go with it, and its core's resources are free (R347). -/
def State.saveTeam (s : State) (t : Team) (core slot : Nat) : State :=
  let s := s.performCore (fun x => x.team == t.key) t.tagged
  let image := s.freeCount
  let s := s.writeSlot slot
  let ops := (s.xfers.filter (fun o => o.team == t.key)).map (·.id)
  match s.core? core with
  | none => s
  | some c =>
    let s := s.modTeam t.key (fun t => { t with
      place := .saved slot, image := image, saveReq := false, savedLocks := c.locks.filter (fun k => ops.contains k.op),
      savedBins := c.bins.filter (fun b => b.team == t.key) })
    s.modCore core (fun c => { c with
      locks := c.locks.filter (fun k => !ops.contains k.op), bins := c.bins.filter (fun b => b.team != t.key) })

/-- TEAM_SAVE (R346 to R348): a team whose save was asked for, drained, goes to the lowest free slot (DESIGN CHOICE,
log entry 16); not after a trip (R387). -/
def execTeamSave (team : Nat) (s : State) : Out :=
  if s.power.tripped then .next s else
  match s.team? team with
  | none => .next s
  | some t =>
    match t.core?, lowestFree s.slotsHeld s.saveSlots with
    | some core, some slot => .next (if s.canSave t then s.saveTeam t core slot else s)
    | _, _ => .next s

end Sys2Proof.Machine
end

