-- ==== Sys2Proof/Machine/Dispatch.lean ====
section
/-! DEFINITION. One arm for each row of spec/opcode_table.json: a direct call of its meaning. -/

namespace Sys2Proof.Machine

/-- What an instruction or event does to the machine. -/
def exec (i : Instr) (s : State) : Host.Outcome State Fault Refusal :=
  match i with
  | .iadd h m d a b => Sys2Proof.Machine.execIadd h m d a b s
  | .iaddVl h d a lit => Sys2Proof.Machine.execIaddVl h d a lit s
  | .isub h m d a b => Sys2Proof.Machine.execIsub h m d a b s
  | .isubVl h d a lit => Sys2Proof.Machine.execIsubVl h d a lit s
  | .imul h m d a b => Sys2Proof.Machine.execImul h m d a b s
  | .imulVl h d a lit => Sys2Proof.Machine.execImulVl h d a lit s
  | .imulhi h m d a b => Sys2Proof.Machine.execImulhi h m d a b s
  | .imulhiVl h d a lit => Sys2Proof.Machine.execImulhiVl h d a lit s
  | .imad h m d a b c => Sys2Proof.Machine.execImad h m d a b c s
  | .imin h m d a b => Sys2Proof.Machine.execImin h m d a b s
  | .iminVl h d a lit => Sys2Proof.Machine.execIminVl h d a lit s
  | .imax h m d a b => Sys2Proof.Machine.execImax h m d a b s
  | .imaxVl h d a lit => Sys2Proof.Machine.execImaxVl h d a lit s
  | .iabs h ty sat d a => Sys2Proof.Machine.execIabs h ty sat d a s
  | .shl h ty d a n => Sys2Proof.Machine.execShl h ty d a n s
  | .shlVl h d a lit => Sys2Proof.Machine.execShlVl h d a lit s
  | .shr h ty d a n => Sys2Proof.Machine.execShr h ty d a n s
  | .shrVl h d a lit => Sys2Proof.Machine.execShrVl h d a lit s
  | .sar h ty d a n => Sys2Proof.Machine.execSar h ty d a n s
  | .sarVl h d a lit => Sys2Proof.Machine.execSarVl h d a lit s
  | .and h ty na nb d a b => Sys2Proof.Machine.execAnd h ty na nb d a b s
  | .andVl h d a lit => Sys2Proof.Machine.execAndVl h d a lit s
  | .or h ty na nb d a b => Sys2Proof.Machine.execOr h ty na nb d a b s
  | .orVl h d a lit => Sys2Proof.Machine.execOrVl h d a lit s
  | .xor h ty na nb d a b => Sys2Proof.Machine.execXor h ty na nb d a b s
  | .xorVl h d a lit => Sys2Proof.Machine.execXorVl h d a lit s
  | .lut3 h lut d a b c => Sys2Proof.Machine.execLut3 h lut d a b c s
  | .popc h ty d a => Sys2Proof.Machine.execPopc h ty d a s
  | .clz h ty d a => Sys2Proof.Machine.execClz h ty d a s
  | .brev h ty d a => Sys2Proof.Machine.execBrev h ty d a s
  | .bfe h ty d a f => Sys2Proof.Machine.execBfe h ty d a f s
  | .bfeVl h d a lit => Sys2Proof.Machine.execBfeVl h d a lit s
  | .bfi h d a b f => Sys2Proof.Machine.execBfi h d a b f s
  | .iaddc h pd d a b c => Sys2Proof.Machine.execIaddc h pd d a b c s
  | .icmp h m d a b c => Sys2Proof.Machine.execIcmp h m d a b c s
  | .sel h ty d a b c => Sys2Proof.Machine.execSel h ty d a b c s
  | .mov h d a => Sys2Proof.Machine.execMov h d a s
  | .lea h ty sh d a b => Sys2Proof.Machine.execLea h ty sh d a b s
  | .leaVl h d a lit => Sys2Proof.Machine.execLeaVl h d a lit s
  | .iadd64 h m d a b => Sys2Proof.Machine.execIadd64 h m d a b s
  | .iadd64Vl h d a lit => Sys2Proof.Machine.execIadd64Vl h d a lit s
  | .icmp64 h m d a b c => Sys2Proof.Machine.execIcmp64 h m d a b c s
  | .mov64 h d a => Sys2Proof.Machine.execMov64 h d a s
  | .fadd h m d a b => Sys2Proof.Machine.execFadd h m d a b s
  | .faddVl h d a lit => Sys2Proof.Machine.execFaddVl h d a lit s
  | .fsub h m d a b => Sys2Proof.Machine.execFsub h m d a b s
  | .fsubVl h d a lit => Sys2Proof.Machine.execFsubVl h d a lit s
  | .fmul h m d a b => Sys2Proof.Machine.execFmul h m d a b s
  | .fmulVl h d a lit => Sys2Proof.Machine.execFmulVl h d a lit s
  | .fmac h m d a b c => Sys2Proof.Machine.execFmac h m d a b c s
  | .fmin h m d a b => Sys2Proof.Machine.execFmin h m d a b s
  | .fminVl h d a lit => Sys2Proof.Machine.execFminVl h d a lit s
  | .fmax h m d a b => Sys2Proof.Machine.execFmax h m d a b s
  | .fmaxVl h d a lit => Sys2Proof.Machine.execFmaxVl h d a lit s
  | .fcmp h m d a b c => Sys2Proof.Machine.execFcmp h m d a b c s
  | .fclass h d a => Sys2Proof.Machine.execFclass h d a s
  | .frcp h rm na aa d a => Sys2Proof.Machine.execFrcp h rm na aa d a s
  | .frsq h rm na aa d a => Sys2Proof.Machine.execFrsq h rm na aa d a s
  | .fsqrt h rm na aa d a => Sys2Proof.Machine.execFsqrt h rm na aa d a s
  | .fexp2 h rm na aa d a => Sys2Proof.Machine.execFexp2 h rm na aa d a s
  | .flog2 h rm na aa d a => Sys2Proof.Machine.execFlog2 h rm na aa d a s
  | .ftanh h rm na aa d a => Sys2Proof.Machine.execFtanh h rm na aa d a s
  | .fdot2 h m d a b c => Sys2Proof.Machine.execFdot2 h m d a b c s
  | .fscale h rm sat na aa d a n => Sys2Proof.Machine.execFscale h rm sat na aa d a n s
  | .fscaleVl h d a lit => Sys2Proof.Machine.execFscaleVl h d a lit s
  | .cvt h m d a sc mg => Sys2Proof.Machine.execCvt h m d a sc mg s
  | .cvtpk h tyd rm sat hi d a b mg => Sys2Proof.Machine.execCvtpk h tyd rm sat hi d a b mg s
  | .cvtx h tys rm sat tyd hi d a => Sys2Proof.Machine.execCvtx h tys rm sat tyd hi d a s
  | .qdec h tyd rm j d a sc => Sys2Proof.Machine.execQdec h tyd rm j d a sc s
  | .qdecVl h d a lit => Sys2Proof.Machine.execQdecVl h d a lit s
  | .qenc h j d a sg mg => Sys2Proof.Machine.execQenc h j d a sg mg s
  | .plut h lut pd pa pb pc => Sys2Proof.Machine.execPlut h lut pd pa pb pc s
  | .pmov h d => Sys2Proof.Machine.execPmov h d s
  | .pmovW h mask a => Sys2Proof.Machine.execPmovW h mask a s
  | .xchg h ty mode d a m => Sys2Proof.Machine.execXchg h ty mode d a m s
  | .xchgVl h d a lit => Sys2Proof.Machine.execXchgVl h d a lit s
  | .xperm h ty d a e => Sys2Proof.Machine.execXperm h ty d a e s
  | .xpermVl h d a lit => Sys2Proof.Machine.execXpermVl h d a lit s
  | .xbcast h ty d a q => Sys2Proof.Machine.execXbcast h ty d a q s
  | .xbcastVl h d a lit => Sys2Proof.Machine.execXbcastVl h d a lit s
  | .xred h m d a => Sys2Proof.Machine.execXred h m d a s
  | .xscan h m d a f => Sys2Proof.Machine.execXscan h m d a f s
  | .xscanVl h d a lit => Sys2Proof.Machine.execXscanVl h d a lit s
  | .xballot h count d a => Sys2Proof.Machine.execXballot h count d a s
  | .xmatch h ty low d a => Sys2Proof.Machine.execXmatch h ty low d a s
  | .xread h d a q => Sys2Proof.Machine.execXread h d a q s
  | .xreadVl h d a lit => Sys2Proof.Machine.execXreadVl h d a lit s
  | .xwrite h d b q => Sys2Proof.Machine.execXwrite h d b q s
  | .xwriteVl h d b lit => Sys2Proof.Machine.execXwriteVl h d b lit s
  | .ld h m sz d base ofs => Sys2Proof.Machine.execLd h m sz d base ofs s
  | .st h m sz base data ofs => Sys2Proof.Machine.execSt h m sz base data ofs s
  | .ldk h la sz d base ofs => Sys2Proof.Machine.execLdk h la sz d base ofs s
  | .stk h sz base data ofs => Sys2Proof.Machine.execStk h sz base data ofs s
  | .atom h m op d base data ofs => Sys2Proof.Machine.execAtom h m op d base data ofs s
  | .red h m op base data ofs => Sys2Proof.Machine.execRed h m op base data ofs s
  | .cas h m sz d base data cmp => Sys2Proof.Machine.execCas h m sz d base data cmp s
  | .fence h kind ord sc => Sys2Proof.Machine.execFence h kind ord sc s
  | .probe h m d base ofs => Sys2Proof.Machine.execProbe h m d base ofs s
  | .cpy h sz dir rel d sr bar => Sys2Proof.Machine.execCpy h sz dir rel d sr bar s
  | .cpymc h sz rel d sr g bar => Sys2Proof.Machine.execCpymc h sz rel d sr g bar s
  | .nmadd h ty len rel y sr => Sys2Proof.Machine.execNmadd h ty len rel y sr s
  | .nmmax h ty len rel y sr => Sys2Proof.Machine.execNmmax h ty len rel y sr s
  | .nmaxpy h y x a n => Sys2Proof.Machine.execNmaxpy h y x a n s
  | .nmstep h zg rel w p => Sys2Proof.Machine.execNmstep h zg rel w p s
  | .nmfence h bar => Sys2Proof.Machine.execNmfence h bar s
  | .rstripe h gathered g base len nb bar => Sys2Proof.Machine.execRstripe h gathered g base len nb bar s
  | .qpost h rel r c w m bar => Sys2Proof.Machine.execQpost h rel r c w m bar s
  | .qsync h la d g m bar => Sys2Proof.Machine.execQsync h la d g m bar s
  | .amsg h rel n t sr hd bar => Sys2Proof.Machine.execAmsg h rel n t sr hd bar s
  | .tcfg h t fmt sc r c => Sys2Proof.Machine.execTcfg h t fmt sc r c s
  | .trel h t => Sys2Proof.Machine.execTrel h t s
  | .tld h t bar part ch a o => Sys2Proof.Machine.execTld h t bar part ch a o s
  | .tst h t bar ch a o => Sys2Proof.Machine.execTst h t bar ch a o s
  | .tzero h t => Sys2Proof.Machine.execTzero h t s
  | .mma h ta tb tra trb n x y => Sys2Proof.Machine.execMma h ta tb tra trb n x y s
  | .accld h la w d n r c => Sys2Proof.Machine.execAccld h la w d n r c s
  | .accst h w v n r c => Sys2Proof.Machine.execAccst h w v n r c s
  | .accz h n cnt => Sys2Proof.Machine.execAccz h n cnt s
  | .acccvt h fmt rm sat bar n a sc => Sys2Proof.Machine.execAcccvt h fmt rm sat bar n a sc s
  | .bra h off => Sys2Proof.Machine.execBra h off s
  | .brx h a => Sys2Proof.Machine.execBrx h a s
  | .call h d off => Sys2Proof.Machine.execCall h d off s
  | .ret h a => Sys2Proof.Machine.execRet h a s
  | .join h k off => Sys2Proof.Machine.execJoin h k off s
  | .waitj h k => Sys2Proof.Machine.execWaitj h k s
  | .exit h => Sys2Proof.Machine.execExit h s
  | .yield h => Sys2Proof.Machine.execYield h s
  | .elect h pd d => Sys2Proof.Machine.execElect h pd d s
  | .syncm h a => Sys2Proof.Machine.execSyncm h a s
  | .binit h b e => Sys2Proof.Machine.execBinit h b e s
  | .barv h b c => Sys2Proof.Machine.execBarv h b c s
  | .bwait h b pd p => Sys2Proof.Machine.execBwait h b pd p s
  | .bexp h b n => Sys2Proof.Machine.execBexp h b n s
  | .binv h b force => Sys2Proof.Machine.execBinv h b force s
  | .gsize h code => Sys2Proof.Machine.execGsize h code s
  | .spawn h role a b off => Sys2Proof.Machine.execSpawn h role a b off s
  | .launch h a q => Sys2Proof.Machine.execLaunch h a q s
  | .trap h code => Sys2Proof.Machine.execTrap h code s
  | .bkpt h code => Sys2Proof.Machine.execBkpt h code s
  | .nop h => Sys2Proof.Machine.execNop h s
  | .tret h mode => Sys2Proof.Machine.execTret h mode s
  | .csrrd h d csr => Sys2Proof.Machine.execCsrrd h d csr s
  | .csrwr h a csr => Sys2Proof.Machine.execCsrwr h a csr s
  | .cdstart h a w => Sys2Proof.Machine.execCdstart h a w s
  | .cdstop h => Sys2Proof.Machine.execCdstop h s
  | .replay h a => Sys2Proof.Machine.execReplay h a s
  | .cancel h asid a => Sys2Proof.Machine.execCancel h asid a s
  | .tlbinv h kind a v => Sys2Proof.Machine.execTlbinv h kind a v s
  | .preempt h a => Sys2Proof.Machine.execPreempt h a s
  | .trace h a b => Sys2Proof.Machine.execTrace h a b s
  | .mcgset h hi g m => Sys2Proof.Machine.execMcgset h hi g m s
  | .schedulerChoice core port => Sys2Proof.Machine.execSchedulerChoice core port s
  | .loadResultArrival id => Sys2Proof.Machine.execLoadResultArrival id s
  | .storePerformed id level => Sys2Proof.Machine.execStorePerformed id level s
  | .fenceCompletion team tid => Sys2Proof.Machine.execFenceCompletion team tid s
  | .tlbinvCompletion id => Sys2Proof.Machine.execTlbinvCompletion id s
  | .packetInjection router offer => Sys2Proof.Machine.execPacketInjection router offer s
  | .routerArbitration router => Sys2Proof.Machine.execRouterArbitration router s
  | .starvationSignal router => Sys2Proof.Machine.execStarvationSignal router s
  | .goldenEpoch die => Sys2Proof.Machine.execGoldenEpoch die s
  | .sublinkCrossing die quad other => Sys2Proof.Machine.execSublinkCrossing die quad other s
  | .gatewayInjection die quad other => Sys2Proof.Machine.execGatewayInjection die quad other s
  | .copyLineCompletion op line => Sys2Proof.Machine.execCopyLineCompletion op line s
  | .spawnBinTimerExpiry core bin => Sys2Proof.Machine.execSpawnBinTimerExpiry core bin s
  | .spawnGroupPlacement core bin => Sys2Proof.Machine.execSpawnGroupPlacement core bin s
  | .commandAcceptance op tid => Sys2Proof.Machine.execCommandAcceptance op tid s
  | .nmwinWindowEnd nb => Sys2Proof.Machine.execNmwinWindowEnd nb s
  | .bankCommandSuspend nb => Sys2Proof.Machine.execBankCommandSuspend nb s
  | .bankCommandResume nb => Sys2Proof.Machine.execBankCommandResume nb s
  | .bankCommandCompletion nb => Sys2Proof.Machine.execBankCommandCompletion nb s
  | .buddyAcknowledge cmd => Sys2Proof.Machine.execBuddyAcknowledge cmd s
  | .parityFold cmd => Sys2Proof.Machine.execParityFold cmd s
  | .nmfenceCompletion op => Sys2Proof.Machine.execNmfenceCompletion op s
  | .restripeLineMove => Sys2Proof.Machine.execRestripeLineMove s
  | .tileAcceptance core port => Sys2Proof.Machine.execTileAcceptance core port s
  | .mmaStart op => Sys2Proof.Machine.execMmaStart op s
  | .mmaCompletion op => Sys2Proof.Machine.execMmaCompletion op s
  | .tldCompletion op => Sys2Proof.Machine.execTldCompletion op s
  | .tstCompletion op => Sys2Proof.Machine.execTstCompletion op s
  | .tzeroCompletion op => Sys2Proof.Machine.execTzeroCompletion op s
  | .accldResultArrival op => Sys2Proof.Machine.execAccldResultArrival op s
  | .tileCompletion op => Sys2Proof.Machine.execTileCompletion op s
  | .acccvtCompletion op => Sys2Proof.Machine.execAcccvtCompletion op s
  | .quorumContributionArrival src => Sys2Proof.Machine.execQuorumContributionArrival src s
  | .qpostResultArrival op tid remote => Sys2Proof.Machine.execQpostResultArrival op tid remote s
  | .closureMessageArrival group round => Sys2Proof.Machine.execClosureMessageArrival group round s
  | .qsyncReplyArrival op tid remote => Sys2Proof.Machine.execQsyncReplyArrival op tid remote s
  | .amsgArrival op tid remote => Sys2Proof.Machine.execAmsgArrival op tid remote s
  | .amsgAppend core => Sys2Proof.Machine.execAmsgAppend core s
  | .fabricPieceSend port => Sys2Proof.Machine.execFabricPieceSend port s
  | .fabricPortFailure port => Sys2Proof.Machine.execFabricPortFailure port s
  | .fabricTransferDrop id => Sys2Proof.Machine.execFabricTransferDrop id s
  | .dispatcherChoice ident => Sys2Proof.Machine.execDispatcherChoice ident s
  | .launchRangesResolved launch => Sys2Proof.Machine.execLaunchRangesResolved launch s
  | .teamPlacement wish => Sys2Proof.Machine.execTeamPlacement wish s
  | .quadrantResumed quad => Sys2Proof.Machine.execQuadrantResumed quad s
  | .quadrantPowerGate quad => Sys2Proof.Machine.execQuadrantPowerGate quad s
  | .teamSave team => Sys2Proof.Machine.execTeamSave team s
  | .faultRecordEntered => Sys2Proof.Machine.execFaultRecordEntered s
  | .replayWalk id => Sys2Proof.Machine.execReplayWalk id s
  | .watchdogExpiry team => Sys2Proof.Machine.execWatchdogExpiry team s
  | .cadenceImageLoaded => Sys2Proof.Machine.execCadenceImageLoaded s
  | .cadenceCycle ident => Sys2Proof.Machine.execCadenceCycle ident s
  | .cadenceGridCompletion => Sys2Proof.Machine.execCadenceGridCompletion s
  | .cadenceArrival down mb data => Sys2Proof.Machine.execCadenceArrival down mb data s
  | .cadenceGrant down => Sys2Proof.Machine.execCadenceGrant down s
  | .traceFrameTimeout core => Sys2Proof.Machine.execTraceFrameTimeout core s
  | .traceFrameDrain core => Sys2Proof.Machine.execTraceFrameDrain core s
  | .paceEvaluation r => Sys2Proof.Machine.execPaceEvaluation r s
  | .paceDomainUpdate others => Sys2Proof.Machine.execPaceDomainUpdate others s
  | .clockStretch cycles => Sys2Proof.Machine.execClockStretch cycles s
  | .refreshRateUpdate stack temp => Sys2Proof.Machine.execRefreshRateUpdate stack temp s
  | .thermalTrip base place temp => Sys2Proof.Machine.execThermalTrip base place temp s
  | .uncorrectableError place => Sys2Proof.Machine.execUncorrectableError place s
  | .deviceStart => Sys2Proof.Machine.execDeviceStart s
  | .bringUpStagePass ok => Sys2Proof.Machine.execBringUpStagePass ok s
  | .tailDoorbell tail => Sys2Proof.Machine.execTailDoorbell tail s
  | .mailboxWrite => Sys2Proof.Machine.execMailboxWrite s
  | .mailboxCopyToDevice => Sys2Proof.Machine.execMailboxCopyToDevice s
  | .mailboxCopyToHost responds => Sys2Proof.Machine.execMailboxCopyToHost responds s
  | .mailboxLaunch => Sys2Proof.Machine.execMailboxLaunch s
  | .mailboxReplay => Sys2Proof.Machine.execMailboxReplay s
  | .mailboxCancel => Sys2Proof.Machine.execMailboxCancel s
  | .mailboxCancelAsid => Sys2Proof.Machine.execMailboxCancelAsid s
  | .mailboxTlbinvAll => Sys2Proof.Machine.execMailboxTlbinvAll s
  | .mailboxTlbinvAsid => Sys2Proof.Machine.execMailboxTlbinvAsid s
  | .mailboxTlbinvPage => Sys2Proof.Machine.execMailboxTlbinvPage s
  | .mailboxRead => Sys2Proof.Machine.execMailboxRead s
  | .qsyncRequestArrival op tid remote => Sys2Proof.Machine.execQsyncRequestArrival op tid remote s
  | .buddyMirrorWrite addr data => Sys2Proof.Machine.execBuddyMirrorWrite addr data s
  | .perBankRefresh nb => Sys2Proof.Machine.execPerBankRefresh nb s
  | .gatingTraceDrain core => Sys2Proof.Machine.execGatingTraceDrain core s
  | .contributionRead op tid => Sys2Proof.Machine.execContributionRead op tid s
  | .firmwareWatchdogExpiry => Sys2Proof.Machine.execFirmwareWatchdogExpiry s
  | .moduleUnpowered => Sys2Proof.Machine.execModuleUnpowered s
  | .linkLevelRetry port => Sys2Proof.Machine.execLinkLevelRetry port s

end Sys2Proof.Machine
end

