-- ==== Sys2Proof/Machine/Loader.lean ====
section
/-! DEFINITION. A machine that issues one given word next (log entry 1): the device started, one launch with one thread
in one clause of one instruction, seated on port 0 of core 0. -/

namespace Sys2Proof.Machine

/-- CLASS of a clause that may hold a word (R72). -/
def classNum (w : DWord) : Nat :=
  match classOf (opOf w) with
  | some .mem => 1
  | some .xfer => 2
  | some .tile => 3
  | some .ctrl => 4
  | some .sys => 5
  | _ => 0

/-- The header of a clause of that one word, without waits (R69). -/
def soleHeader (w : DWord) : DWord := BitVec.ofNat 64 (12 * 2 ^ 60 + classNum w * 2 ^ 53 + 0xFFFFFFFF * 2 ^ 16)

/-- Where the loaded clause stands: its virtual and its physical address. -/
def loadVa : Nat := 0x40000000
def loadPa : Nat := 0x10000

/-- A kernel of one role with one home group of 8, with every resource that one team can have. -/
def soleKernel : Kernel :=
  { roles := [{ entry := BitVec.ofNat 57 loadVa, regs := 256, gsize := 8, groups := 1 }], join := 32, lsm := 393216,
    acc := 1024, tiles := 524288, stack := 0 }

/-- Its launch. -/
def soleLaunch (key : Nat) : Launch :=
  { key := key, ident := 1#32, queue := 0, record := 0#64, parent := 0#32, asid := 0, priv := true, kernel := soleKernel,
    args := 0#64, nteam := 1, ftz := false, stkBase := 0, stkSlots := 0, windows := [], ranges := [], doneVa := 0#64,
    cvcsat := 0, cvcftz := 0, cvcnan := 0, cvclim := 0#32, phase := .running, pending := [], retired := 0,
    cadence := none, stopped := false, order := key, view := [], ended := [] }

/-- Its team. -/
def soleTeam (key launch : Nat) : Team :=
  { key := key, launch := launch, index := 0, place := .resident 0 0, lastCore := 0, prio := 0, since := 0, limits := [8], mode := 0#32,
    bktpri := 0#32, rgn := .none, wdog := 0, wdogHit := false, wdogAgain := false, wdogHandling := false, stackSlot := none, nextTid := 1, nextIdx := [1],
    lsm := [], acc := [], lsmBase := 0, accBase := 0, tileBase := 0, tiles := List.replicate 16 .empty, bars := List.replicate 16 .zero, saveReq := false,
    killed := false, savedBins := [], savedLocks := [], image := 0, tagged := 0 }

/-- The machine with the clause stored, and its thread in the group that port 0 of core 0 holds. -/
def State.withClause (s : State) (w : DWord) : State :=
  let key := s.nextId
  let k : ClauseCtx := { hdrAddr := BitVec.ofNat 57 loadVa, hdr := soleHeader w }
  let t : Thread := { Thread.fresh key 0 0 0 0 0 256 [] (BitVec.ofNat 57 (loadVa + 8)) s.clk 0 with clause := some k, status := .inGroup }
  let g : Group := { team := key, role := 0, hdrAddr := k.hdrAddr, hdr := k.hdr, words := [w], slot := 0, limit := 8, members := [0] }
  let leaf : TlbEntry := { asid := 0, level := 0, vpath := loadVa / 2 ^ 16, pte := BitVec.ofNat 64 (loadPa + 0xB) }
  { s.bumpId 2 with
    power := { s.power with powered := true, stage := 8, failed := false, tripped := false, ready := 0x3FFFFF#22 },
    launches := [soleLaunch (key + 1)], teams := [soleTeam key (key + 1)],
    groups := [HomeGroup.fresh key 0 0 8 0 32 0xFE#64], threads := [t],
    main := s.main.writeBytes loadPa (leBytes 8 k.hdr.toNat ++ leBytes 8 w.toNat),
    cores := updWhere (fun c => c.id == 0) (fun c => { c with
      port0 := { group := some g, tile := none, stripe := [] }, port1 := .free, issuedAt := 0, tlb := leaf :: c.tlb }) s.cores,
    agenda := [.issue 0 0], shadow := none }

end Sys2Proof.Machine
end

