-- ==== Sys2Proof/Machine/Step.lean ====
section
/-! DEFINITION. One step: the next turn of the agenda, or a free one (log entry 1). -/

namespace Sys2Proof.Machine

/-- What the ports of a core did in this cycle is done. -/
def marked (core : Nat) (o : Out) : Out :=
  match o with
  | .next s => .next (s.markIssued core)
  | o => o

/-- A port acts once in a cycle: its instruction takes effect, unless something holds it, or a shared unit takes the other
port's first (R27, R28). -/
def issue (core port : Nat) (s : State) : Out :=
  if s.issuedNow core then .next s
  else
    match s.prepare core port with
    | .wait s => .next s
    | .go i s => if s.outranked core port i then .next s else marked core (exec i s)

/-- A port acts in the cycle in which the other has acted, with the registers as they stood before (R100); not when the
first instruction changed its group. -/
def issueSecond (core port : Nat) (i : Instr) (g : Option Group) (before : Shadow) (s : State) : Out :=
  if s.groupAt core port = g then
    match exec i { s with cur := { core := core, port := port }, shadow := some before } with
    | .next s => .next { s with shadow := none }
    | o => o
  else .next s

/-- Two instructions in one cycle, that of port 0 first. -/
def issuePair (core : Nat) (i j : Instr) (s : State) : Out :=
  match exec i { s with cur := { core := core, port := 0 } } with
  | .next t => issueSecond core 1 j (s.groupAt core 1) s.snapshot t
  | o => o

/-- Two instructions in one cycle, that of port 1 first; the records that it makes come after those of port 0 (R308). -/
def issueCrossed (core : Nat) (i j : Instr) (s : State) : Out :=
  match exec j { s.markIssued core with cur := { core := core, port := 1 } } with
  | .next t =>
    (match issueSecond core 0 i (s.groupAt core 0) s.snapshot (t.takeLater core) with
      | .next u => .next (u.putLater core (t.laterOf core))
      | o => o)
  | o => o

/-- One instruction while the other port has none: what that port does otherwise, a trap at a word that is no instruction
among it, follows (R308). -/
def issueFirst (core : Nat) (i : Instr) (s : State) : Out :=
  match exec i { s with cur := { core := core, port := 0 } } with
  | .next t =>
    (match t.presents core 1 with
      | .wait u => .next u
      | .go _ _ => .next t)
  | o => o

/-- Both ports act in one cycle (R100, R288); of two that want one shared unit the favoured port alone does (R28). -/
def issueBoth (core : Nat) (s : State) : Out :=
  if s.issuedNow core then .next s
  else
    match s.presents core 0 with
    | .wait s => issue core 1 s
    | .go i s0 =>
      match s0.presents core 1 with
      | .wait _ => marked core (issueFirst core i s0)
      | .go j s =>
        marked core (
          if s.unitMeets core i j then
            (if s.favoured = 0 then exec i { s with cur := { core := core, port := 0 } } else exec j s)
          else if s.firstPort i j = 0 then issuePair core i j s
          else issueCrossed core i j s)

/-- One turn. -/
def act (t : Turn) (s : State) : Out :=
  match t with
  | .issue core port => issue core port s
  | .issueBoth core => issueBoth core s
  | .cycle => .next s.tick
  | .event e => if e.isEvent then exec e s else .next s
  | .bankSector nb sector => .next (s.bankSector nb sector)
  | .sampleWord op word => .next (s.sampleWord op word)
  | .evict core entry => .next (s.evict core entry)
  | .pattern core => .next (s.patternTurn core)
  | .hostBar offset data => .next (s.barWrite offset data)
  | .hostMem addr data => .next (s.hostWrite addr data)

/-- The turn that comes next, and the state without it: the head of the agenda, or a free one. -/
def State.nextTurn (s : State) : Turn × State :=
  match s.agenda with
  | t :: r => (t, { s with agenda := r })
  | [] => (Config.freeTurn s.freeCount, { s with freeCount := s.freeCount + 1 })

/-- What an unpowered module may do: start (R390, R393); the host's own memory is not part of it. -/
def needsPower : Turn → Bool
  | .event .deviceStart | .hostMem _ _ => false
  | _ => true

/-- One step. -/
def step (s : State) : Host.Outcome State Fault Refusal :=
  let (t, s) := s.nextTurn
  if needsPower t && !s.power.powered then .fault .unpowered else act t s

/-- The machine whose next step issues the word. -/
def State.withFetchWord (s : State) (nbits w : Nat) : State := s.withClause (BitVec.ofNat 64 (w % 2 ^ nbits))

end Sys2Proof.Machine
end

