-- ==== Sys2Proof/Safety.lean ====
section
/-! DEFINITION. What counts as a safe run, and the terms that statements use. -/

namespace Sys2Proof.Machine

/-- A run of `n` steps that no fault and no refusal ends. -/
def SafeRun : Nat → State → Prop
  | 0, _ => True
  | n + 1, s => ∃ t, step s = .next t ∧ SafeRun n t

/-- The state in which a group issues: its context, distinct members (R39), and for each of them the thread in its group
(R27) with its allotment (R33) and the home group with its S row (R234). -/
structure Seated (s : State) (c : Ctx) : Prop where
  ctx : s.ctx? = some c
  nodup : c.grp.members.Nodup
  reg : ∀ p ∈ c.ths, ∃ u, s.thread? p.team p.tid = some u ∧ c.role.regs ≤ u.v.length ∧ u.status = .inGroup
  row : ∀ p ∈ c.ths, ∃ g, s.hg? p.team p.role p.hg = some g ∧ 64 ≤ g.s.length

/-- The register operands, with their widths in words, lie below the allotment (R81). -/
def Ctx.fits (c : Ctx) (ops : List (Operand × Nat)) : Prop := ∀ o ∈ ops, Operand.fits o.1 c.role.regs o.2 = true

/-- The thread whose execution gives a participant its result: itself, or with U = 1 the lowest-positioned one (R77). -/
def Ctx.source (c : Ctx) (h : Head) (p : Thread) : Thread := if h.u then (c.parts h).headD p else p

/-- The words stand in registers from `n` upward. -/
def holdsWords (read : Nat → Word) (n : Nat) (ws : List Word) : Prop := ∀ i, i < ws.length → read (n + i) = ws.getD i 0#32

/-- The operand names register `n` of a file as one of its `w` words. -/
def Operand.coversV (d : Operand) (w n : Nat) : Prop := ∃ k, d = .v k ∧ k.val ≤ n ∧ n < k.val + w
def Operand.coversS (d : Operand) (w n : Nat) : Prop := ∃ k, d = .s k ∧ k.val ≤ n ∧ n < k.val + w

/-- A thread after an instruction that writes registers only: its V registers, predicates and issue state may differ. -/
def Thread.sameBut (u u' : Thread) : Prop :=
  u' = { u with v := u'.v, p := u'.p, pc := u'.pc, clause := u'.clause, status := u'.status, since := u'.since,
                yield0 := u'.yield0, yield1 := u'.yield1, pend := u'.pend, noWatch := u'.noWatch }

/-- The S registers of every home group are as before (R234). -/
def State.sameRows (s t : State) : Prop :=
  ∀ team role idx g, s.hg? team role idx = some g → ∃ g', t.hg? team role idx = some g' ∧ g'.s = g.s

/-- What an instruction leaves that writes `w` words of destination `d` and the predicates `pds` of the participants:
their results (`e p` is the effect of `p`'s execution), and everything else as it was. -/
structure VecDone (s : State) (c : Ctx) (h : Head) (d : Operand) (w : Nat) (pds : List Nat) (e : Thread → VecEff)
    (t : State) : Prop where
  vres : ∀ n, d = .v n → ∀ p ∈ c.parts h, ∃ u, t.thread? p.team p.tid = some u ∧
    holdsWords u.reg n.val (e (c.source h p)).words
  sres : ∀ n, d = .s n → ∀ p ∈ c.parts h, ∃ g, t.hg? p.team p.role p.hg = some g ∧
    holdsWords (fun i => g.s.getD i 0#32) n.val (e (c.source h p)).words
  pres : ∀ p ∈ c.parts h, ∃ u, t.thread? p.team p.tid = some u ∧
    ∀ q ∈ (e (c.source h p)).preds, q.1 < 7 → u.pred q.1 = q.2
  state : t = { s with threads := t.threads, groups := t.groups, cores := t.cores }
  others : ∀ team tid, ¬(team = c.grp.team ∧ tid ∈ c.grp.members) → t.thread? team tid = s.thread? team tid
  threads : ∀ team tid u, s.thread? team tid = some u → ∃ u', t.thread? team tid = some u' ∧ u.sameBut u' ∧
    (∀ n, ¬((∃ p ∈ c.parts h, p.team = team ∧ p.tid = tid) ∧ Operand.coversV d w n) → u'.reg n = u.reg n) ∧
    (∀ i, ¬((∃ p ∈ c.parts h, p.team = team ∧ p.tid = tid) ∧ i ∈ pds) → u'.pred i = u.pred i)
  rows : ∀ team role idx g, s.hg? team role idx = some g → ∃ g', t.hg? team role idx = some g' ∧ g' = { g with s := g'.s } ∧
    (∀ n, ¬((∃ p ∈ c.parts h, p.team = team ∧ p.role = role ∧ p.hg = idx) ∧ Operand.coversS d w n) → g'.s.getD n 0#32 = g.s.getD n 0#32)
  cores : ∀ k x, s.core? k = some x → ∃ x', t.core? k = some x' ∧ (k ≠ s.cur.core → x' = x) ∧
    x' = { x with port0 := x'.port0, port1 := x'.port1 } ∧ (s.cur.port = 0 → x'.port1 = x.port1) ∧ (s.cur.port ≠ 0 → x'.port0 = x.port0)

/-- The instruction completes in the state: exec answers a next state, in which every participant has the result that
`P` demands of it (`w` words of `d`, the predicates `pds`) and nothing else has changed. -/
def Completes (i : Instr) (s : State) (c : Ctx) (h : Head) (d : Operand) (w : Nat) (pds : List Nat)
    (P : Thread → VecEff → Prop) : Prop :=
  ∃ t e, exec i s = .next t ∧ (∀ p ∈ c.parts h, P p (e p) ∧ (e p).words.length ≤ w ∧ (∀ q ∈ (e p).preds, q.1 ∈ pds)) ∧
    VecDone s c h d w pds e t

/-! ### Traps -/

/-- The threads may take a trap now: there is a handler, none of them is in one, waits for a result or has a watchdog trap
due (R334, R335, R345). -/
def State.canTrap (s : State) (team : Nat) (tids : List Nat) : Prop :=
  s.tvecOf team ≠ 0#64 ∧ (∀ x ∈ s.threads, x.team = team → x.entering = none) ∧
  ∀ x ∈ s.threads, x.team = team → x.tid ∈ tids → x.hasExited = false ∧ x.inHandler = false ∧ x.wdogDue = false ∧ x.lane < 64 ∧
    ∀ q ∈ x.pend, q.value.isSome = true

/-- The threads have entered their handler (R334): what is saved, and where they stand. One that yields goes on doing so
(R71). -/
def TrapTaken (s t : State) (team : Nat) (tids : List Nat) (code : Nat) (kind : TpcKind) (tpc : BitVec 57) (taddr : DWord) : Prop :=
  ∀ tid ∈ tids, ∀ u, s.thread? team tid = some u → ∃ u', t.thread? team tid = some u' ∧
    u'.tcause = code ∧ u'.tpc = tpc ∧ u'.tpcKind = kind ∧ u'.taddr = taddr ∧ u'.inHandler = true ∧ u'.trapClause = u.clause ∧
    u'.clause = none ∧ u'.status = .ready ∧ u'.pc = (s.tvecOf team).setWidth 57 ∧ (u.yield0 = true → u'.yield0 = true) ∧
    (u.yield1 = true → u'.yield1 = true) ∧ u'.p = u.p ∧
    ∀ j, j < 64 → (u'.tlanes.getLsbD j = true ↔ ∃ x ∈ s.threads, x.team = team ∧ x.tid ∈ tids ∧ x.lane = j)

/-! ### Results of the register-writing instructions -/

/-- The number whose words these are, low word first (R47). -/
def wordsNat (ws : List Word) : Nat := ws.foldr (fun w a => w.toNat + 2 ^ 32 * a) 0

/-- Element `i` of a result of a type (R47). -/
def VecEff.elem (e : VecEff) (ty : Ty) (i : Nat) : Nat := elemOf ty (wordsNat e.words) i

/-- Element `i` of an integer source: its bits, and its value. -/
def Ctx.elem (c : Ctx) (p : Thread) (ty : Ty) (a : Operand) (i : Nat) : Nat := elemOf ty (c.src p ty a) i
def Ctx.elemInt (c : Ctx) (p : Thread) (ty : Ty) (a : Operand) (i : Nat) : Int := Ty.toInt ty (c.elem p ty a i)

/-- One word and no predicate. -/
def VecEff.isWord (e : VecEff) (w : Word) : Prop := e.words = [w] ∧ e.preds = []

/-- The words of one value of a type, and no predicate. -/
def VecEff.shape (e : VecEff) (ty : Ty) : Prop := e.words.length = Ty.words ty ∧ e.preds = []

/-- R101: each element is the exact result clamped to the type, or the one of the type's values that is congruent to it. -/
def IntResult (ty : Ty) (sat : Bool) (exact : Nat → Int) (e : VecEff) : Prop :=
  e.shape ty ∧ ∀ i, i < ty.count →
    if sat then Ty.toInt ty (e.elem ty i) = Ty.clamp ty (exact i)
    else Ty.minInt ty ≤ Ty.toInt ty (e.elem ty i) ∧ Ty.toInt ty (e.elem ty i) ≤ Ty.maxInt ty ∧
      (2 ^ ty.width : Int) ∣ Ty.toInt ty (e.elem ty i) - exact i

/-- Each element has the bits `g`. -/
def ElemResult (ty : Ty) (g : Nat → Nat) (e : VecEff) : Prop := e.shape ty ∧ ∀ i, i < ty.count → e.elem ty i = g i

/-- Each bit of the one value is `g`'s. -/
def BitResult (ty : Ty) (g : Nat → Bool) (e : VecEff) : Prop :=
  e.shape ty ∧ ∀ j, j < ty.width → (wordsNat e.words).testBit j = g j

/-- The sign modifiers of R101: the absolute value first, then the negation. -/
def signed (neg abs : Bool) (x : Int) : Int := (if neg then -1 else 1) * (if abs then |x| else x)

/-- A two-source integer instruction computes `op` (R101). -/
def IntTwo (f : Head → IntMods → Operand → Operand → Operand → Instr) (op : Int → Int → Int) : Prop :=
  ∀ s c h m d a b, Seated s c → (f h m d a b).wf = true → c.fits [(d, Ty.words m.ty), (a, Ty.words m.ty), (b, Ty.words m.ty)] →
    Completes (f h m d a b) s c h d (Ty.words m.ty) [] (fun p e => IntResult m.ty m.sat (fun i =>
      op (signed m.na m.aa (c.elemInt p m.ty a i)) (signed m.nb m.ab (c.elemInt p m.ty b i))) e)

/-- Its VL form computes `op` on the literal, which is sign-extended for a pair (R85). -/
def IntTwoVl (f : Head → Operand → Operand → Word → Instr) (ty : Ty) (op : Int → Int → Int) : Prop :=
  ∀ s c h d a lit, Seated s c → (f h d a lit).wf = true → c.fits [(d, Ty.words ty), (a, Ty.words ty)] →
    Completes (f h d a lit) s c h d (Ty.words ty) [] (fun p e => IntResult ty false (fun _ => op (c.elemInt p ty a 0) lit.toInt) e)

/-- A shift computes `op` of each element and its count, read unsigned (R103). -/
def ShiftBy (f : Head → Ty → Operand → Operand → Operand → Instr) (fv : Head → Operand → Operand → Word → Instr)
    (op : (w : Nat) → BitVec w → Nat → BitVec w) : Prop :=
  (∀ s c h ty d a n, Seated s c → (f h ty d a n).wf = true → c.fits [(d, Ty.words ty), (a, Ty.words ty), (n, 1)] →
    Completes (f h ty d a n) s c h d (Ty.words ty) [] (fun p e => ElemResult ty (fun i =>
      (op ty.width (BitVec.ofNat _ (c.elem p ty a i)) (if ty.is64 then (c.val p n).toNat else c.elem p ty n i)).toNat) e)) ∧
  (∀ s c h d a lit, Seated s c → (fv h d a lit).wf = true → c.fits [(d, 1), (a, 1)] →
    Completes (fv h d a lit) s c h d 1 [] (fun p e => e.isWord (op 32 (c.val p a) lit.toNat)))

/-- A logic instruction computes `op` of each bit of its sources, inverted with NA or NB (R104). -/
def LogicOf (f : Head → Ty → Bool → Bool → Operand → Operand → Operand → Instr) (fv : Head → Operand → Operand → Word → Instr)
    (op : Bool → Bool → Bool) : Prop :=
  (∀ s c h ty na nb d a b, Seated s c → (f h ty na nb d a b).wf = true →
    c.fits [(d, Ty.words ty), (a, Ty.words ty), (b, Ty.words ty)] →
    Completes (f h ty na nb d a b) s c h d (Ty.words ty) [] (fun p e => BitResult ty (fun j =>
      op ((c.src p ty a).testBit j != na) ((c.src p ty b).testBit j != nb)) e)) ∧
  (∀ s c h d a lit, Seated s c → (fv h d a lit).wf = true → c.fits [(d, 1), (a, 1)] →
    Completes (fv h d a lit) s c h d 1 [] (fun p e => BitResult .i32 (fun j => op ((c.val p a).getLsbD j) (lit.getLsbD j)) e))

/-- A compare with result `r` before its third source (R107): PD and the mask. -/
def CmpResult (c : Ctx) (m : CmpMods) (x : Operand) (r : Thread → Prop) (p : Thread) (e : VecEff) : Prop :=
  ∃ b : Bool, e = { words := [if b then 0xFFFFFFFF#32 else 0#32], preds := [(m.pd.val, b)] } ∧
    (b = true ↔ if x = .none then r p else if m.bor then r p ∨ c.val p x ≠ 0#32 else r p ∧ c.val p x ≠ 0#32)

/-- The integer comparisons of R107. -/
def intCompare (code : Nat) (a b : Int) : Prop :=
  match code with
  | 0 => a = b
  | 1 => a ≠ b
  | 2 => a < b
  | 3 => a ≤ b
  | 4 => a > b
  | _ => a ≥ b

/-- Element `i` of a floating-point source with its flush and its signs (R112). -/
def Ctx.elemVal (c : Ctx) (p : Thread) (ty : Ty) (neg abs : Bool) (a : Operand) (i : Nat) : Val :=
  fltSrc (fltFmt ty) c.ftz neg abs (c.elem p ty a i)

/-- A two-source floating-point instruction rounds `op` once (R112). -/
def FltTwo (f : Head → FltMods → Operand → Operand → Operand → Instr) (fv : Head → Operand → Operand → Word → Instr)
    (op : Rm → Val → Val → Val) : Prop :=
  (∀ s c h m d a b, Seated s c → (f h m d a b).wf = true → c.fits [(d, 1), (a, 1), (b, 1)] →
    Completes (f h m d a b) s c h d 1 [] (fun p e => ElemResult m.ty (fun i =>
      ((fltFmt m.ty).ofVal m.rm m.sat c.ftz (op m.rm (c.elemVal p m.ty m.na m.aa a i) (c.elemVal p m.ty m.nb m.ab b i))).bits) e)) ∧
  (∀ s c h d a lit, Seated s c → (fv h d a lit).wf = true → c.fits [(d, 1), (a, 1)] →
    Completes (fv h d a lit) s c h d 1 [] (fun p e => ElemResult .f32 (fun _ =>
      (fmtF32.ofVal .rn false c.ftz (op .rn (c.elemVal p .f32 false false a 0) (fltSrc fmtF32 c.ftz false false lit.toNat))).bits) e))

/-- `w` is the bit field of `a` that `f` names (R106). -/
def FieldOf (isSigned : Bool) (a f w : Word) : Prop :=
  let pos := f.toNat % 256
  let len := min (f.toNat / 256 % 256) 32
  if isSigned then w.toInt = (if len = 0 then 0 else (a.toInt / 2 ^ pos).bmod (2 ^ len))
  else w.toNat = a.toNat / 2 ^ pos % 2 ^ len

/-- The floating-point comparisons of R114. -/
def fltCompare (code : Nat) (a b : Val) : Prop :=
  let num := a.isNan = false ∧ b.isNan = false
  match code with
  | 0 => num ∧ a.lt b = false ∧ b.lt a = false
  | 1 => ¬(num ∧ a.lt b = false ∧ b.lt a = false)
  | 2 => num ∧ a.lt b = true
  | 3 => num ∧ b.lt a = false
  | 4 => num ∧ b.lt a = true
  | 5 => num ∧ a.lt b = false
  | 6 => num
  | _ => ¬num

/-- `r` is the smaller (`isMax` false) or the larger of two operand patterns of a format (R113). -/
def SelectsOf (f : Format) (isMax : Bool) (x y r : Nat) : Prop :=
  if (f.val x).isNan ∧ (f.val y).isNan then r = f.nanBits
  else if (f.val x).isNan then r = y
  else if (f.val y).isNan then r = x
  else if (f.val x).isZero ∧ (f.val y).isZero then
    (r = x ∨ r = y) ∧ (f.val r).isNeg = (if isMax then (f.val x).isNeg && (f.val y).isNeg else (f.val x).isNeg || (f.val y).isNeg)
  else (r = x ∨ r = y) ∧ (if isMax then (f.val r).lt (f.val x) = false ∧ (f.val r).lt (f.val y) = false
    else (f.val x).lt (f.val r) = false ∧ (f.val y).lt (f.val r) = false)

/-- FMIN or FMAX (R113). -/
def MinMaxOf (f : Head → FltMods → Operand → Operand → Operand → Instr) (fv : Head → Operand → Operand → Word → Instr) (isMax : Bool) : Prop :=
  (∀ s c h m d a b, Seated s c → (f h m d a b).wf = true → c.fits [(d, 1), (a, 1), (b, 1)] →
    Completes (f h m d a b) s c h d 1 [] (fun p e => e.shape m.ty ∧ ∀ i, i < m.ty.count → SelectsOf (fltFmt m.ty) isMax
      (fltBits (fltFmt m.ty) c.ftz m.na m.aa (c.elem p m.ty a i)) (fltBits (fltFmt m.ty) c.ftz m.nb m.ab (c.elem p m.ty b i)) (e.elem m.ty i))) ∧
  (∀ s c h d a lit, Seated s c → (fv h d a lit).wf = true → c.fits [(d, 1), (a, 1)] →
    Completes (fv h d a lit) s c h d 1 [] (fun p e => e.shape .f32 ∧ SelectsOf fmtF32 isMax
      (fmtF32.flush c.ftz (c.elem p .f32 a 0)) (fmtF32.flush c.ftz lit.toNat) (e.elem .f32 0)))

/-- `k` is the number of an F32 pattern's class (R115). -/
def ClassBit (x : Word) (k : Nat) : Prop :=
  let e := x.toNat / 2 ^ 23 % 2 ^ 8
  let fr := x.toNat % 2 ^ 23
  let neg := x.getLsbD 31
  (k = 8 ↔ e = 255 ∧ fr ≠ 0) ∧ (k = 0 ↔ e = 255 ∧ fr = 0 ∧ neg = true) ∧ (k = 7 ↔ e = 255 ∧ fr = 0 ∧ neg = false) ∧
  (k = 3 ↔ e = 0 ∧ fr = 0 ∧ neg = true) ∧ (k = 4 ↔ e = 0 ∧ fr = 0 ∧ neg = false) ∧
  (k = 2 ↔ e = 0 ∧ fr ≠ 0 ∧ neg = true) ∧ (k = 5 ↔ e = 0 ∧ fr ≠ 0 ∧ neg = false) ∧
  (k = 1 ↔ e ≠ 0 ∧ e ≠ 255 ∧ neg = true) ∧ (k = 6 ↔ e ≠ 0 ∧ e ≠ 255 ∧ neg = false)

/-- The number that a finite value is (R42). -/
def Val.rat : Val → ℚ
  | .fin neg m e => (if neg then -1 else 1) * m * 2 ^ e
  | _ => 0

/-- A finite F32 pattern (R42). -/
def f32Finite (b : Nat) : Prop := b < 2 ^ 32 ∧ (fmtF32.val b).isFinite = true

/-- The number that an F32 pattern stands for. -/
abbrev f32Num (b : Nat) : ℝ := ((fmtF32.val b).rat : ℝ)

/-- `b` is the real number `y`, which is not zero, rounded once into F32 with overflow (R55, R56); a zero has its sign. -/
def RoundedF32 (rm : Rm) (y : ℝ) (b : Nat) : Prop :=
  b < 2 ^ 32 ∧ (2 ^ 31 ≤ b ↔ y < 0) ∧
  match rm with
  | .rn => if (2 : ℝ) ^ 128 - 2 ^ 103 ≤ |y| then b % 2 ^ 31 = 0x7F800000
      else f32Finite b ∧ ∀ x, f32Finite x → f32Num x = f32Num b ∨ |y - f32Num b| < |y - f32Num x| ∨
        (|y - f32Num b| = |y - f32Num x| ∧ b % 2 = 0)
  | .rz => f32Finite b ∧ |f32Num b| ≤ |y| ∧ ∀ x, f32Finite x → |f32Num x| ≤ |y| → |f32Num x| ≤ |f32Num b|
  | .ru => (b = 0x7F800000 ∧ ∀ x, f32Finite x → f32Num x < y) ∨
      (f32Finite b ∧ y ≤ f32Num b ∧ ∀ x, f32Finite x → y ≤ f32Num x → f32Num b ≤ f32Num x)
  | .rd => (b = 0xFF800000 ∧ ∀ x, f32Finite x → y < f32Num x) ∨
      (f32Finite b ∧ f32Num b ≤ y ∧ ∀ x, f32Finite x → f32Num x ≤ y → f32Num x ≤ f32Num b)

/-- The same with MODE.FTZ, which makes a subnormal result the zero of its sign (R57). -/
def RoundsOnce (rm : Rm) (ftz : Bool) (y : ℝ) (w : Word) : Prop :=
  ∃ b, RoundedF32 rm y b ∧ w = BitVec.ofNat 32 (if ftz = true ∧ b / 2 ^ 23 % 2 ^ 8 = 0 then b / 2 ^ 31 * 2 ^ 31 else b)

/-- The special operands of R116 and their results: the rows of its table. -/
def reciprocalSpecial : Val → Option Word
  | .nan => some 0x7FC00000#32
  | .inf s => some (if s then 0x80000000#32 else 0#32)
  | .fin s m _ => if m = 0 then some (if s then 0xFF800000#32 else 0x7F800000#32) else none
def reciprocalRootSpecial : Val → Option Word
  | .nan => some 0x7FC00000#32
  | .inf s => some (if s then 0x7FC00000#32 else 0#32)
  | .fin s m _ => if m = 0 then some (if s then 0xFF800000#32 else 0x7F800000#32) else if s then some 0x7FC00000#32 else none
def rootSpecial : Val → Option Word
  | .nan => some 0x7FC00000#32
  | .inf s => some (if s then 0x7FC00000#32 else 0x7F800000#32)
  | .fin s m _ => if m = 0 then some (if s then 0x80000000#32 else 0#32) else if s then some 0x7FC00000#32 else none
def exponentialSpecial : Val → Option Word
  | .nan => some 0x7FC00000#32
  | .inf s => some (if s then 0#32 else 0x7F800000#32)
  | .fin _ m _ => if m = 0 then some 0x3F800000#32 else none
def logarithmSpecial : Val → Option Word
  | .nan => some 0x7FC00000#32
  | .inf s => some (if s then 0x7FC00000#32 else 0x7F800000#32)
  | .fin s m _ => if m = 0 then some 0xFF800000#32 else if s then some 0x7FC00000#32 else none
def tangentSpecial : Val → Option Word
  | .nan => some 0x7FC00000#32
  | .inf s => some (if s then 0xBF800000#32 else 0x3F800000#32)
  | .fin s m _ => if m = 0 then some (if s then 0x80000000#32 else 0#32) else none

/-- A one-source function completes (R116): `special` holds of its result for every operand, and `g` for every finite
operand in its domain that is not zero. -/
def FunctionOf (f : Head → Rm → Bool → Bool → Operand → Operand → Instr) (special : Val → Option Word)
    (g : Rm → Bool → ℝ → Word → Prop) (dom : ℝ → Prop) : Prop :=
  ∀ s c h rm na aa d a, Seated s c → (f h rm na aa d a).wf = true → c.fits [(d, 1), (a, 1)] →
    Completes (f h rm na aa d a) s c h d 1 [] (fun p e => ∃ b, e.isWord b ∧ (∀ w, special (c.elemVal p .f32 na aa a 0) = some w → b = w) ∧
      ((c.elemVal p .f32 na aa a 0).isFinite = true → (c.elemVal p .f32 na aa a 0).isZero = false →
        dom ((c.elemVal p .f32 na aa a 0).rat : ℝ) → g rm c.ftz ((c.elemVal p .f32 na aa a 0).rat : ℝ) b))

/-- The events of the executing participants of a conversion instruction (R61, R62). -/
def Ctx.convCount (c : Ctx) (h : Head) (cnt : Thread → CvCount) : CvCount := (c.actors h).foldl (fun n t => n.add (cnt t)) .zero

/-- An addition of `n` events takes no counter of the launch to or across its threshold (R63). -/
def Launch.quiet (l : Launch) (n : CvCount) : Prop :=
  ∀ x ∈ [(0, l.cvcsat, n.sat), (10, l.cvcftz, n.ftz), (20, l.cvcnan, n.nan)],
    ¬(cvThreshold l.cvclim x.1 ≠ 0 ∧ x.2.1 < cvThreshold l.cvclim x.1 ∧ cvThreshold l.cvclim x.1 ≤ min (x.2.1 + x.2.2) (2 ^ 32 - 1))

/-- The launch with the events of a conversion added to its counters, which stop at 2^32 - 1 (R61, R62). -/
def Launch.counted (l : Launch) (n : CvCount) : Launch :=
  { l with cvcsat := min (l.cvcsat + n.sat) (2 ^ 32 - 1), cvcftz := min (l.cvcftz + n.ftz) (2 ^ 32 - 1),
           cvcnan := min (l.cvcnan + n.nan) (2 ^ 32 - 1) }

/-- A counting conversion completes: the results of `P`, and the counters (R62); where its events cross a threshold, its
participants then trap with CONVERT_LIMIT (R63). -/
def ConvOf (i : Instr) (h : Head) (d : Operand) (w : Nat) (ops : List (Operand × Nat)) (cnt : Ctx → Thread → CvCount)
    (P : Ctx → Thread → VecEff → Prop) : Prop :=
  ∀ s c l, Seated s c → i.wf = true → c.fits ops → s.launch? c.launch.key = some l →
    (l.quiet (c.convCount h (cnt c)) → ∃ t e, exec i s = .next t ∧ (∀ p ∈ c.parts h, P c p (e p) ∧ (e p).words.length ≤ w ∧ (e p).preds = []) ∧
      VecDone s c h d w [] e { t with launches := s.launches } ∧
      t.launch? c.launch.key = some (l.counted (c.convCount h (cnt c))) ∧ ∀ k, k ≠ c.launch.key → t.launch? k = s.launch? k) ∧
    (¬l.quiet (c.convCount h (cnt c)) → s.canTrap c.grp.team ((c.parts h).map (·.tid)) →
      ∃ (t : State) (e : Thread → VecEff) (a : DWord), exec i s = .next t ∧ (∀ p ∈ c.parts h, P c p (e p)) ∧
        TrapTaken s t c.grp.team ((c.parts h).map (·.tid)) 0x14 .instruction c.pc a ∧
        (∀ n, d = .v n → ∀ p ∈ c.parts h, ∃ u, t.thread? p.team p.tid = some u ∧ holdsWords u.reg n.val (e (c.source h p)).words) ∧
        t.launch? c.launch.key = some (l.counted (c.convCount h (cnt c))) ∧ ∀ k, k ≠ c.launch.key → t.launch? k = s.launch? k)

/-- The element that CVT converts, times its scale, in the destination type (R119). -/
def CvtElement (c : Ctx) (p : Thread) (m : CvtMods) (a sc : Operand) : Cv :=
  let x := cvSrc m.tys c.ftz (if m.tys.isPacked then c.elem p m.tys a m.ei.val else c.src p m.tys a)
  let k := cvSrc .f32 c.ftz (c.src p .f32 sc)
  if sc = .none then cvElem m.tyd m.rm m.sat c.ftz x.1 x.2
  else cvElem m.tyd m.rm m.sat c.ftz (Val.mul x.1 k.1) (Val.mul x.2 k.2)

/-- `v` is the value of the participant at position `q`, or `p`'s own where no participant stands there (R126). -/
def TakenFrom (c : Ctx) (h : Head) (p : Thread) (q : Nat) (f : Thread → Nat) (v : Nat) : Prop :=
  (∃ x ∈ c.parts h, c.pos x = q ∧ v = f x) ∨ ((∀ x ∈ c.parts h, c.pos x ≠ q) ∧ v = f p)

/-- What XCHG gives participant `p` for mask or distance `m` (R127). -/
def ExchangeValue (c : Ctx) (h : Head) (mode : XchgMode) (p : Thread) (m : Nat) (f : Thread → Nat) (v : Nat) : Prop :=
  let q := match mode with
    | .up => if m ≤ c.pos p then c.pos p - m else c.pos p
    | .down => c.pos p + m
    | _ => c.pos p ^^^ m
  if q < c.grp.limit ∧ q ≠ c.pos p then
    if mode = .tr then
      (∃ x ∈ c.parts h, c.pos x = q ∧ v = (if c.pos p &&& m = 0 then f p % 2 ^ 32 + 2 ^ 32 * (f x % 2 ^ 32)
        else f x / 2 ^ 32 + 2 ^ 32 * (f p / 2 ^ 32))) ∨ ((∀ x ∈ c.parts h, c.pos x ≠ q) ∧ v = f p)
    else TakenFrom c h p q f v
  else TakenFrom c h p (c.pos p) f v

/-- What XPERM gives participant `p` under a pattern: nothing with KEEP (R128). -/
def PermuteValue (c : Ctx) (h : Head) (pat : BitVec 512) (p : Thread) (f : Thread → Nat) (ty : Ty) (e : VecEff) : Prop :=
  if pat.getLsbD (384 + c.pos p) = true then e = { words := [], preds := [] }
  else e.shape ty ∧
    (let q := pat.toNat / 2 ^ (6 * c.pos p) % 64
     if q < c.grp.limit then TakenFrom c h p q f (wordsNat e.words) else wordsNat e.words = f p)

/-- XPERM completes (R128) with the patterns `pat`; a participant under KEEP, or whose register the execution under KEEP
would write, keeps every register, and a home group its S registers where no execution writes. -/
def Permutes (i : Instr) (s : State) (c : Ctx) (h : Head) (d : Operand) (w : Nat) (pat : Thread → BitVec 512)
    (P : Thread → VecEff → Prop) : Prop :=
  let keeps := fun p => (pat (c.source h p)).getLsbD (384 + c.pos (c.source h p)) = true
  ∃ t e, exec i s = .next t ∧ (∀ p ∈ c.parts h, P p (e p) ∧ (e p).words.length ≤ w ∧ ∀ q ∈ (e p).preds, q.1 ∈ ([] : List Nat)) ∧
    VecDone s c h d w [] e t ∧ ((∀ p ∈ c.parts h, keeps p) → s.sameRows t) ∧
    ∀ p ∈ c.parts h, keeps p → ∀ u, s.thread? p.team p.tid = some u → ∃ u', t.thread? p.team p.tid = some u' ∧ ∀ n, u'.reg n = u.reg n

/-- What XSCAN gives participant `p` (R131): the fold of the operands of the participants from the last one that starts a
segment at or before it up to it, or before it under `.exc`. -/
def ScanValue (c : Ctx) (h : Head) (m : RedMods) (flag : Thread → Prop) (f : Thread → Nat) (p : Thread) (e : VecEff) : Prop :=
  ∀ pre post, c.parts h = pre ++ p :: post → (∀ x ∈ pre, c.pos x < c.pos p) → (∀ x ∈ post, c.pos p < c.pos x) →
    ∃ out seg, pre = out ++ seg ∧ (∀ x ∈ seg.tail, ¬flag x) ∧ (seg = [] → flag p ∨ out = []) ∧
      (seg ≠ [] → ¬flag p) ∧ (∀ x, seg.head? = some x → flag x ∨ out = []) ∧
      e.isWord (BitVec.ofNat 32 (
        if m.exc then (if seg = [] then redIdentity m else foldBits m c.ftz true (seg.map f))
        else foldBits m c.ftz true (seg.map f ++ [f p])))

/-- `v` is the mask of the positions of the participants that satisfy `q` (R132, R133). -/
def PosMask (c : Ctx) (h : Head) (q : Thread → Prop) (v : Nat) : Prop :=
  ∀ j, j < 64 → (v.testBit j = true ↔ ∃ x ∈ c.parts h, q x ∧ c.pos x = j)

/-- What XWRITE leaves (R135): a named thread's register holds the value of the highest participant that names it; every
other register and everything else is as it was. -/
structure CrossWritten (s : State) (c : Ctx) (h : Head) (d : Operand) (hidx : Thread → Nat) (f : Thread → Word) (t : State) : Prop where
  state : t = { s with threads := t.threads, cores := t.cores }
  regs : ∀ team tid u, s.thread? team tid = some u → ∃ u', t.thread? team tid = some u' ∧ u.sameBut u' ∧ u'.p = u.p ∧
    ∀ n, u'.reg n ≠ u.reg n → ∃ k p x, d = .v k ∧ k.val = n ∧ p ∈ c.parts h ∧ s.sibling c p (hidx p) = some x ∧
      x.team = team ∧ x.tid = tid ∧ u'.reg n = f p
  written : ∀ k pre p post x u, d = .v k → c.parts h = pre ++ p :: post → s.sibling c p (hidx p) = some x →
    (∀ y ∈ post, ∀ z, s.sibling c y (hidx y) = some z → ¬(z.team = x.team ∧ z.tid = x.tid)) →
    s.thread? x.team x.tid = some u → k.val < u.v.length → ∃ u', t.thread? x.team x.tid = some u' ∧ u'.reg k.val = f p

/-! ### Memory -/

/-- Every memory of the machine has its canonical form. -/
structure State.memOk (s : State) : Prop where
  main : s.main.wf = true
  dsm : s.dsm.wf = true
  sys : s.sys.wf = true
  lsm : ∀ x ∈ s.teams, x.lsm.wf = true
  acc : ∀ x ∈ s.teams, x.acc.wf = true

/-- The registers of a team that CSRWR and barriers write: MODE and BKTPRI hold 0 in their reserved bits, and no barrier
expects more than 4,095 arrivals (R148, R242). -/
def Team.regsOk (x : Team) : Prop :=
  x.mode &&& 0xFFFFFFFE#32 = 0#32 ∧ x.bktpri &&& 0xFFFF0000#32 = 0#32 ∧ ∀ b ∈ x.bars, b.exp ≤ 4095

/-- The device's special registers hold 0 in their reserved bits, NMWIN.NS lies from 64 to 1,024, and the registers of every
team are within their bounds (R148, R242, R243). -/
structure State.regsOk (s : State) : Prop where
  trctl : s.trctl &&& 0xFFFF0FF0#32 = 0#32
  resil : s.resil &&& 0x0000FFFC#32 = 0#32
  retry : s.faultRetryMax &&& 0xFFFFFF00#32 = 0#32
  nmwin : 64 ≤ s.nmwin ∧ s.nmwin ≤ 1024
  teams : ∀ x ∈ s.teams, x.regsOk

/-- Every byte of every memory reads as before. -/
def State.sameMemory (s t : State) : Prop := ∀ l n, t.memRead l n = s.memRead l n

/-- A team of which some home group has not retired because a thread of it has not exited (R139). -/
def State.live (s : State) (team : Nat) : Prop :=
  ∃ g ∈ s.groups, g.team = team ∧ g.retired = false ∧ ∃ u ∈ s.threads, u.inHg g.team g.role g.idx = true ∧ u.hasExited = false

/-- No team of the machine has come to the end of its life. -/
def State.allLive (s : State) : Prop := ∀ x ∈ s.teams, s.live x.key

/-- A thread is a participant of the instruction. -/
abbrev Ctx.takesPart (c : Ctx) (h : Head) (team tid : Nat) : Prop := ∃ p ∈ c.parts h, p.team = team ∧ p.tid = tid

/-- The accesses of an instruction are outstanding: one for each executing participant, in ascending position (R172). -/
structure AccessIssued (s : State) (c : Ctx) (h : Head) (f : LoadForm) (d : Operand) (loc : Thread → Loc)
    (data cmp : Thread → List Word) (t : State) : Prop where
  ops : ∃ new, t.loads = s.loads ++ new ∧ new.length = (c.actors h).length ∧ ∀ (k : Nat) (p : Thread), (c.actors h)[k]? = some p →
    new[k]? = some {
      id := s.nextId + k, core := c.core, team := p.team, tid := p.tid, dests := if h.u then (c.parts h).map (·.tid) else [p.tid],
      pos := c.pos p, op := f.op, cas := f.cas, probe := f.probe, stk := f.stk, red := f.red, loc := loc p, size := f.size,
      data := data p, cmp := cmp p, ord := f.ord, scope := f.scope, rmt := f.rmt, uni := h.u, instr := s.nextId,
      waited := !f.probe && !f.stk && !s.present (loc p) f.size }
  threads : ∀ team tid u, s.thread? team tid = some u → ∃ u', t.thread? team tid = some u' ∧ u'.v = u.v ∧ u'.p = u.p ∧
    u'.ldcnt = (if c.takesPart h team tid ∧ f.red = false then u.ldcnt + 1 else u.ldcnt) ∧
    u'.stcnt = (if c.takesPart h team tid ∧ f.red = true then u.stcnt + 1 else u.stcnt) ∧
    (c.takesPart h team tid → f.red = false → ∀ r, Operand.dest? d = some r → ∃ k o, t.loads[s.loads.length + k]? = some o ∧ tid ∈ o.dests ∧
      { id := o.id, dest := r, words := f.words, left := f.la, value := none } ∈ u'.pend)
  state : t = { s with threads := t.threads, cores := t.cores, loads := t.loads, nextId := t.nextId, freeCount := t.freeCount }

/-- The stores of an instruction stand in the store buffers of their threads, cut into words, and are counted (R173). -/
structure StoreIssued (s : State) (c : Ctx) (h : Head) (rel stk : Bool) (sc : Scope) (loc : Thread → Loc) (bytes : Thread → List Byte)
    (t : State) : Prop where
  entries : ∀ p ∈ c.actors h, ∀ u, s.thread? p.team p.tid = some u → ∃ u' es, t.thread? p.team p.tid = some u' ∧ u'.stores = u.stores ++ es ∧
    es.flatMap (·.data) = bytes p ∧
    ∀ (k : Nat) (e : StoreEntry), es[k]? = some e → e.loc = { loc p with addr := (loc p).addr + e.data.length * k } ∧ e.release = rel ∧ e.stk = stk ∧
      e.scope = sc ∧ e.level = none ∧ s.nextId ≤ e.id ∧ e.takers = c.takers h p
  threads : ∀ team tid u, s.thread? team tid = some u → ∃ u', t.thread? team tid = some u' ∧ u'.v = u.v ∧ u'.p = u.p ∧ u'.ldcnt = u.ldcnt ∧
    u'.stcnt = (if c.takesPart h team tid then u.stcnt + 1 else u.stcnt) ∧
    (¬(∃ p ∈ c.actors h, p.team = team ∧ p.tid = tid) → u'.stores = u.stores)
  state : t = { s with threads := t.threads, cores := t.cores, nextId := t.nextId, freeCount := t.freeCount }

/-! ### Control -/

/-- A branch completes (R138): participants ready at their targets, the others at the next header; `d` takes the address
after the clause. -/
def BranchTaken (i : Instr) (s : State) (c : Ctx) (h : Head) (d : Operand) (kind : Nat) (target : Thread → BitVec 57) : Prop :=
  ∃ t, exec i s = .next t ∧ t = { s with threads := t.threads, groups := t.groups, cores := t.cores } ∧
    (∀ team role idx g, s.hg? team role idx = some g → ∃ g', t.hg? team role idx = some g' ∧ g' = { g with psig := g'.psig } ∧
      (g'.psig ≠ g.psig → ∃ p ∈ c.parts h, p.team = team ∧ p.role = role ∧ p.hg = idx)) ∧
    (∀ team tid, ¬(team = c.grp.team ∧ tid ∈ c.grp.members) → t.thread? team tid = s.thread? team tid) ∧
    (∀ p ∈ c.ths, ∀ u, s.thread? p.team p.tid = some u → ∃ u', t.thread? p.team p.tid = some u' ∧ u'.status = .ready ∧ u'.p = u.p ∧
      u'.trapClause = u.trapClause ∧ u'.inHandler = u.inHandler ∧
      (if p.guard h = true then u'.pc = target p ∧ u'.clause = none ∧ u'.path = pathHash p.path (target p) kind p.hidx ∧
          (∀ n, ¬ Operand.coversV d 2 n → u'.reg n = u.reg n) ∧
          (∀ n, d = .v n → holdsWords u'.reg n.val (unpair ((c.grp.hdrAddr + BitVec.ofNat 57 (8 * (hdrWords c.grp.hdr + 1))).setWidth 64)))
       else u'.v = u.v ∧ u'.path = u.path ∧ ∀ k, u.clause = some k → u'.pc = k.next ∧ u'.clause = none))

/-- A branch of which some targets are misaligned (R138): their participants alone take MISALIGN, with the target of the lowest
of them, and the others branch. -/
def BranchTraps (i : Instr) (s : State) (c : Ctx) (h : Head) (kind : Nat) (target : Thread → BitVec 57) : Prop :=
  let bad := (c.parts h).filter (fun p => (target p).toNat % 8 != 0)
  ∀ lead, bad.head? = some lead → s.canTrap c.grp.team (bad.map (·.tid)) →
    ∃ t, exec i s = .next t ∧ TrapTaken s t c.grp.team (bad.map (·.tid)) 0x05 .instruction c.pc ((target lead).setWidth 64) ∧
      t.main = s.main ∧ t.dsm = s.dsm ∧
      ∀ p ∈ c.parts h, (target p).toNat % 8 = 0 → ∀ u, s.thread? p.team p.tid = some u → ∃ u', t.thread? p.team p.tid = some u' ∧
        u'.status = .ready ∧ u'.pc = target p ∧ u'.clause = none ∧ u'.path = pathHash p.path (target p) kind p.hidx ∧ u'.v = u.v ∧ u'.p = u.p

/-- A member has moved on from its group's slot: to the next slot, or past the clause; its windows have come nearer (R27,
R74, R87). -/
def Thread.moved (u u' : Thread) (g : Group) : Prop :=
  u'.pend = u.pend.map (fun q => { q with left := q.left - 1 }) ∧
  if g.slot + 1 < hdrWords g.hdr then u'.pc = u.pc + 8#57 ∧ u'.clause = u.clause ∧ u'.status = u.status
  else u'.status = .ready ∧ ∀ k, u.clause = some k → u'.clause = none ∧ u'.pc = k.hdrAddr + BitVec.ofNat 57 (8 * (hdrWords k.hdr + 1))

/-- What is left of a record of an expected and an arrived mask when the threads of some home indices arrive at it: it is
emptied once every expected thread has arrived (R139, R142, R145). -/
def Arrives (expected arrived expected' arrived' : DWord) (new : Nat → Prop) : Prop :=
  let all := expected ≠ 0#64 ∧ ∀ j, j < 64 → expected.getLsbD j = true → arrived.getLsbD j = true ∨ new j
  (all → expected' = 0#64 ∧ arrived' = 0#64) ∧
  (¬all → expected' = expected ∧ ∀ j, j < 64 →
    (arrived'.getLsbD j = true ↔ arrived.getLsbD j = true ∨ (expected.getLsbD j = true ∧ new j)))

/-- The threads of the state are those that the group issues with, of the role and home group that it says. -/
def Ctx.named (c : Ctx) (s : State) : Prop :=
  ∀ p ∈ c.ths, p.role = c.grp.role ∧ p.hidx < 64 ∧
    ∀ u, s.thread? p.team p.tid = some u → u.role = p.role ∧ u.hg = p.hg ∧ u.hidx = p.hidx

/-- Only the barrier, where the threads of its team stand and the predicates of the threads `who` may differ: registers,
other barriers, home groups, other teams' threads and all memory are as before. -/
def BarrierOnly (s : State) (c : Ctx) (b : Nat) (who : Thread → Prop) (t : State) : Prop :=
  t = { s with threads := t.threads, teams := t.teams, cores := t.cores } ∧
  (∀ k, k ≠ c.grp.team → t.team? k = s.team? k) ∧
  (∃ x, t.team? c.grp.team = some x ∧ x = { c.team with bars := x.bars } ∧ ∀ j, j ≠ b → x.bar j = c.team.bar j) ∧
  ∀ team tid u, s.thread? team tid = some u → ∃ u', t.thread? team tid = some u' ∧ u'.v = u.v ∧ (¬who u → u'.p = u.p) ∧
    (team ≠ c.grp.team → u' = u)

/-- The group moves on and nothing else of the state has changed. -/
def StepsOnly (s : State) (c : Ctx) (h : Head) (t : State) : Prop := VecDone s c h .none 0 [] (fun _ => { words := [], preds := [] }) t

/-! ### Engines -/

/-- The core's lock table has room for `n` more entries and locks no source (R169, R188). -/
def State.locksRoom (s : State) (core n : Nat) : Prop :=
  ∃ k, s.core? core = some k ∧ k.locks.length + n ≤ Config.rangeLocks ∧ ∀ x ∈ k.locks, x.dest = true

/-- What an XFER instruction leaves as it issues (R185, R189): the operation outstanding, XFCNT risen for each participant
and CPEND of its barrier by `n`; registers and memory as before. -/
structure OpIssued (s : State) (c : Ctx) (h : Head) (op : XferOp) (n : Nat) (t : State) : Prop where
  ops : t.xfers = s.xfers ++ [op]
  fields : op.id = s.nextId ∧ op.core = c.core ∧ op.team = c.grp.team ∧ op.asid = c.launch.asid ∧ op.pc = c.pc ∧ op.uni = h.u ∧
    op.arrives = true ∧ op.tids = (c.parts h).map (·.tid) ∧ op.counted = op.tids
  threads : ∀ team tid u, s.thread? team tid = some u → ∃ u', t.thread? team tid = some u' ∧ u'.v = u.v ∧ u'.p = u.p ∧
    u'.xfcnt = if c.takesPart h team tid then u.xfcnt + 1 else u.xfcnt
  rows : s.sameRows t
  barrier : ∀ b x, op.bar = some b → s.team? c.grp.team = some x → ∃ x', t.team? c.grp.team = some x' ∧
    (x'.bar b).cpend = (x.bar b).cpend + n ∧ (x'.bar b).pend = (x.bar b).pend
  memory : s.sameMemory t

/-- A bank-unit instruction completes where every participant's command passes its checks (R192 to R194). -/
def BankIssued (i : Instr) (h : Head) (ops : List (Operand × Nat)) (mk : Ctx → Thread → Nat → List Nat → BankLane) : Prop :=
  ∀ s c ls s', Seated s c → i.wf = true → c.fits ops → s.allLive → c.parts h ≠ [] → (∀ p ∈ c.ths, p.xfcnt < 255) →
    s.bankLanes c h (fun p => mk c p s.nextId (c.takers h p)) = (ls, s') → (∀ x ∈ ls, ∃ b, x.2.2 = .ready b none ∧
      s.loadsStuck c.grp.team b.tids [] (b.srcLoc.map (fun l => (l, b.srcLen))).toList b.rel = false) →
    s.walkBad (some c.core) c.launch.asid (ls.flatMap (fun x => (x.2.1.cmd.pieces x.2.1.y x.2.1.x).map (·.va))) = none →
    ls.length ≤ s.freeSlots c.core → s.locksRoom c.core 2 → s.orderWait (c.parts h) = false →
    ∃ t op, exec i s = .next t ∧ OpIssued s c h op 0 t ∧ op.kind = .bank ∧ op.bar = none ∧ op.held = [] ∧
      op.waits = (List.range ls.length).map (fun k => s.nextId + 1 + k) ∧ t.waitingCmds.length = s.waitingCmds.length + ls.length ∧
      ∀ (k : Nat) (x : Thread × BankLane × BankRes) (b : BankCmd), ls[k]? = some x → x.2.2 = .ready b none →
        t.waitingCmds[s.waitingCmds.length + k]? = some { b with id := s.nextId + 1 + k } ∧
        b = { (mk c x.1 s.nextId (c.takers h x.1)).cmd with nb := s.nbOf b.y, y := b.y, x := b.x, srcLoc := b.srcLoc, used := b.used }

/-- No arrival of the operation is left to be applied (R189, R337). -/
def XferOp.silent (o : XferOp) : Prop := o.bar = none ∨ o.arrives = false

/-- Only the bank units may differ, and of them only the one of a neighbourhood. -/
def UnitOnly (s : State) (nb : Nat) (u : BankUnit) (t : State) : Prop :=
  t = { s with bankUnits := t.bankUnits } ∧ t.unit nb = u ∧ ∀ k, k ≠ nb → t.unit k = s.unit k

/-- The operands of a command lie as R193 asks: an element aligned to its length, whole lines, and the lines of an NMAXPY
the same or disjoint. -/
def BankCmd.placedWell (b : BankCmd) : Prop :=
  match b.kind with
  | .add _ | .max _ => ∃ k, k < 7 ∧ b.bytes = 4 * 2 ^ k ∧ b.y % b.bytes = 0
  | .axpy _ => b.y % 2048 = 0 ∧ b.x % 2048 = 0 ∧ (∃ n, 1 ≤ n ∧ n ≤ 8 ∧ b.bytes = 2048 * n) ∧
      (b.x = b.y ∨ b.x + b.bytes ≤ b.y ∨ b.y + b.bytes ≤ b.x)
  | .step _ => b.y % 2048 = 0

/-- The words that a command writes, with their addresses, from memory as it stands before it (R195 to R197). -/
def BankCmd.results (b : BankCmd) (mem : Memory) : List (Nat × Word) :=
  match b.kind with
  | .axpy _ => (List.range (b.bytes / 2048)).flatMap (b.compute mem)
  | _ => b.compute mem 0

/-- A command stands at its start, and nothing makes it suspend (R263, R264). -/
def State.rowsFree (s : State) (nb : Nat) (b : BankCmd) : Prop :=
  (s.unit nb).head = some b ∧ (s.unit nb).suspended = false ∧ (s.unit nb).mpc = 0 ∧ (s.unit nb).rowOpen = false ∧ b.sectors = [] ∧
    s.rowYields nb = false ∧ s.badWords = []

/-- The command of an identifier in the queues of the bank units, and those units with it changed by `f`. -/
def State.queuedCmd? (s : State) (cmd : Nat) : Option BankCmd := s.bankUnits.findSome? (fun u => u.queue.find? (fun x => x.id == cmd))
def State.cmdsWith (s : State) (cmd : Nat) (f : BankCmd → BankCmd) : List BankUnit :=
  s.bankUnits.map (fun u => { u with queue := u.queue.map (fun b => if b.id = cmd then f b else b) })

/-- Two runs, each a base and a length, share nothing. -/
def Apart (a n b m : Nat) : Prop := n = 0 ∨ m = 0 ∨ a + n ≤ b ∨ b + m ≤ a

/-- The runs that a team holds on its core lie in its memories and apart from those of every other team resident there
(R250, R257, R258). -/
def Team.apart (x : Team) (k : Kernel) (s : State) (core : Nat) : Prop :=
  x.lsmBase + k.lsm ≤ Config.lsmBytes ∧ x.accBase + k.acc ≤ Config.accBlocks ∧ x.tileBase + k.tiles ≤ Config.tileBytes ∧
  ∀ y ∈ s.teams, y.core? = some core → ∀ l, s.launch? y.launch = some l →
    Apart x.lsmBase k.lsm y.lsmBase l.kernel.lsm ∧ Apart x.accBase k.acc y.accBase l.kernel.acc ∧
    Apart x.tileBase k.tiles y.tileBase l.kernel.tiles

/-- No round of a group on this device has its contributions together, or the Huddle has stopped: none closes (R226, R352). -/
def State.roundsStay (s : State) : Prop := s.huddleStop = true ∨ ∀ q ∈ s.quorum, q.closes = false

/-- What a TILE instruction leaves as it is accepted (R208): its actions in the engine, each with the cycles it takes
before it may complete, and TLCNT risen; registers and memory as before. -/
structure TileIssued (s : State) (c : Ctx) (h : Head) (acts : List (Thread × TileAct × Option Nat)) (bar : Option Nat)
    (lines : Thread → List Loc) (counted : Thread → List Nat) (t : State) : Prop where
  ops : ∃ new, t.tileOps = s.tileOps ++ new ∧ new.length = acts.length ∧ ∀ (k : Nat) (x : Thread × TileAct × Option Nat), acts[k]? = some x →
    new[k]? = some {
      id := s.nextId + k, instr := s.nextId, core := c.core, team := c.grp.team, tid := x.1.tid, role := c.grp.role, pc := c.pc,
      act := x.2.1, bar := bar, arrives := true, counted := counted x.1, cleared := lines x.1, due := x.2.2.map (fun n => s.clk + n), early := [] }
  threads : ∀ team tid u, s.thread? team tid = some u → ∃ u', t.thread? team tid = some u' ∧ u'.v = u.v ∧ u'.p = u.p ∧
    u'.tlcnt = if c.takesPart h team tid then u.tlcnt + 1 else u.tlcnt
  rows : s.sameRows t
  barrier : ∀ b x, bar = some b → s.team? c.grp.team = some x → ∃ x', t.team? c.grp.team = some x' ∧
    (x'.bar b).cpend = (x.bar b).cpend + acts.length ∧ (x'.bar b).pend = (x.bar b).pend
  memory : s.sameMemory t

/-- A TILE instruction of one action for each actor completes (R208), where no earlier action conflicts with it and
`ok` holds: the actions `act`, and `more` of the state after it. -/
def TileDone (i : Instr) (h : Head) (ops : List (Operand × Nat)) (scored : Bool) (ok : State → Ctx → Prop)
    (act : Ctx → Thread → TileAct × Option Nat) (more : State → Ctx → State → Prop := fun _ _ _ => True) : Prop :=
  ∀ s c, Seated s c → i.wf = true → c.fits ops → c.parts h ≠ [] → (∀ p ∈ c.parts h, p.tlcnt < 255) → ok s c →
    (scored = true → s.tileHeld c.grp.team ((c.actors h).map (fun p => (act c p).1)) s.nextId = false) →
    ∃ t, exec i s = .next t ∧ TileIssued s c h ((c.actors h).map (fun p => (p, act c p))) none (fun _ => []) (fun p => c.takers h p) t ∧
      t = { s with threads := t.threads, teams := t.teams, cores := t.cores, tileOps := t.tileOps, nextId := t.nextId } ∧
      (scored = true → t.teams = s.teams) ∧ more s c t

/-- The instructions of the TILE class. -/
def isTile (i : Instr) : Bool :=
  match i with
  | .tcfg .. | .trel .. | .tld .. | .tst .. | .tzero .. | .mma .. | .accld .. | .accst .. | .accz .. | .acccvt .. => true
  | _ => false

/-! ### The mailbox -/

/-- The command at HEAD is answered (R280, R377): its response with the status and the command's tag, and HEAD one on. -/
structure Answered (s : State) (st : MbStatus) (data : List Byte) (t : State) : Prop where
  response : t.sys.readBytes (s.mailbox.rspBase + 64 * s.mailbox.head.toNat) 64 =
    (leBytes 4 st.code ++ leBytes 4 (cf s.mailbox.cmd 4 4) ++ leBytes 8 0 ++ data ++ List.replicate 64 0#8).take 64
  head : t.mailbox.head = s.mailbox.head + 1#8

/-- A legal command of an operation stands at HEAD, and the engine may take it (R377, R390). -/
def State.mbAt (s : State) (op : Nat) : Prop := s.mbDue = true ∧ cmdLegal s.mailbox.cmd = true ∧ cf s.mailbox.cmd 0 1 = op

end Sys2Proof.Machine
end

