-- ==== Sys2Proof/Certificates/Slice0/Obligations.lean ====
section
/-! DEFINITION. The statements for the provers. -/

open Sys2Proof Sys2Proof.Machine

/-- Integer arithmetic: every element is the exact result, clamped or wrapped; IADDC the sum modulo 2^32 and the carry; nothing else changes (R101, R102, R85, R47, R111, R235). -/
def Obligations.IntegerArithmeticResults : Prop :=
  IntTwo .iadd (· + ·) ∧ IntTwo .isub (· - ·) ∧ IntTwo .imul (· * ·) ∧ IntTwo .imulhi (fun x y => (x * y) / 2 ^ 32) ∧
  IntTwo .imin min ∧ IntTwo .imax max ∧ IntTwo .iadd64 (· + ·) ∧
  IntTwoVl .iaddVl .i32 (· + ·) ∧ IntTwoVl .isubVl .i32 (· - ·) ∧ IntTwoVl .imulVl .i32 (· * ·) ∧
  IntTwoVl .imulhiVl .i32 (fun x y => (x * y) / 2 ^ 32) ∧ IntTwoVl .iminVl .i32 min ∧ IntTwoVl .imaxVl .i32 max ∧
  IntTwoVl .iadd64Vl .i64 (· + ·) ∧
  (∀ s c h m d a b x, Seated s c → (Instr.imad h m d a b x).wf = true → c.fits [(d, 1), (a, 1), (b, 1), (x, 1)] →
    Completes (.imad h m d a b x) s c h d 1 [] (fun p e => IntResult m.ty m.sat (fun i =>
      signed m.na m.aa (c.elemInt p m.ty a i) * signed m.nb m.ab (c.elemInt p m.ty b i) + c.elemInt p m.ty x i) e)) ∧
  (∀ s c h ty sat d a, Seated s c → (Instr.iabs h ty sat d a).wf = true → c.fits [(d, 1), (a, 1)] →
    Completes (.iabs h ty sat d a) s c h d 1 [] (fun p e => IntResult ty sat (fun i => |c.elemInt p ty a i|) e)) ∧
  (∀ s c h (pd : Fin 8) d a b x, Seated s c → (Instr.iaddc h pd d a b x).wf = true → c.fits [(d, 1), (a, 1), (b, 1), (x, 1)] →
    Completes (.iaddc h pd d a b x) s c h d 1 [pd.val] (fun p e =>
      ∃ w, e = { words := [w], preds := [(pd.val, decide (2 ^ 32 ≤ (c.val p a).toNat + (c.val p b).toNat + (c.val p x).toNat % 2))] } ∧
        w.toNat = ((c.val p a).toNat + (c.val p b).toNat + (c.val p x).toNat % 2) % 2 ^ 32))

/-- Shifts: the bit-vector shift of each element by its own count, whole widths included (R103, R85). -/
def Obligations.ShiftResults : Prop :=
  ShiftBy .shl .shlVl (fun _ x k => x <<< k) ∧ ShiftBy .shr .shrVl (fun _ x k => x >>> k) ∧
  ShiftBy .sar .sarVl (fun _ x k => x.sshiftRight k)

/-- AND, OR, XOR and LUT3: every bit of the result (R104, R85). -/
def Obligations.LogicResults : Prop :=
  LogicOf .and .andVl (· && ·) ∧ LogicOf .or .orVl (· || ·) ∧ LogicOf .xor .xorVl (· != ·) ∧
  (∀ s c h (lut : Byte) d a b x, Seated s c → (Instr.lut3 h lut d a b x).wf = true → c.fits [(d, 1), (a, 1), (b, 1), (x, 1)] →
    Completes (.lut3 h lut d a b x) s c h d 1 [] (fun p e => BitResult .i32 (fun j =>
      lut.getLsbD (((c.val p a).getLsbD j).toNat + 2 * ((c.val p b).getLsbD j).toNat + 4 * ((c.val p x).getLsbD j).toNat)) e))

/-- POPC, CLZ, BREV, BFE and BFI (R105, R106). -/
def Obligations.BitCountResults : Prop :=
  (∀ s c h ty d a, Seated s c → (Instr.popc h ty d a).wf = true → c.fits [(d, 1), (a, Ty.words ty)] →
    Completes (.popc h ty d a) s c h d 1 [] (fun p e =>
      e.isWord (BitVec.ofNat 32 ((Finset.range ty.width).filter (fun j => (c.src p ty a).testBit j)).card))) ∧
  (∀ s c h ty d a, Seated s c → (Instr.clz h ty d a).wf = true → c.fits [(d, 1), (a, Ty.words ty)] →
    Completes (.clz h ty d a) s c h d 1 [] (fun p e => ∃ n, n ≤ ty.width ∧ e.isWord (BitVec.ofNat 32 n) ∧
      (∀ j, ty.width - n ≤ j → j < ty.width → (c.src p ty a).testBit j = false) ∧
      (n < ty.width → (c.src p ty a).testBit (ty.width - 1 - n) = true))) ∧
  (∀ s c h ty d a, Seated s c → (Instr.brev h ty d a).wf = true → c.fits [(d, Ty.words ty), (a, Ty.words ty)] →
    Completes (.brev h ty d a) s c h d (Ty.words ty) [] (fun p e =>
      BitResult ty (fun j => (c.src p ty a).testBit (ty.width - 1 - j)) e)) ∧
  (∀ s c h ty d a f, Seated s c → (Instr.bfe h ty d a f).wf = true → c.fits [(d, 1), (a, 1), (f, 1)] →
    Completes (.bfe h ty d a f) s c h d 1 [] (fun p e => ∃ w, e.isWord w ∧ FieldOf (ty == .i32) (c.val p a) (c.val p f) w)) ∧
  (∀ s c h d a lit, Seated s c → (Instr.bfeVl h d a lit).wf = true → c.fits [(d, 1), (a, 1)] →
    Completes (.bfeVl h d a lit) s c h d 1 [] (fun p e => ∃ w, e.isWord w ∧ FieldOf false (c.val p a) lit w)) ∧
  (∀ s c h d a b f, Seated s c → (Instr.bfi h d a b f).wf = true → c.fits [(d, 1), (a, 1), (b, 1), (f, 1)] →
    Completes (.bfi h d a b f) s c h d 1 [] (fun p e => BitResult .i32 (fun j =>
      if (c.val p f).toNat % 256 ≤ j ∧ j < (c.val p f).toNat % 256 + min ((c.val p f).toNat / 256 % 256) 32
      then (c.val p a).getLsbD (j - (c.val p f).toNat % 256) else (c.val p b).getLsbD j) e))

/-- ICMP and ICMP64: the predicate and the mask (R107, R111). -/
def Obligations.CompareResults : Prop :=
  (∀ s c h m d a b x, Seated s c → (Instr.icmp h m d a b x).wf = true → c.fits [(d, 1), (a, 1), (b, 1), (x, 1)] →
    Completes (.icmp h m d a b x) s c h d 1 [m.pd.val] (CmpResult c m x (fun p =>
      intCompare m.cmp.val (Ty.toInt m.ty (c.src p m.ty a)) (Ty.toInt m.ty (c.src p m.ty b))))) ∧
  (∀ s c h m d a b x, Seated s c → (Instr.icmp64 h m d a b x).wf = true → c.fits [(d, 1), (a, 2), (b, 2), (x, 1)] →
    Completes (.icmp64 h m d a b x) s c h d 1 [m.pd.val] (CmpResult c m x (fun p =>
      intCompare m.cmp.val (Ty.toInt m.ty (c.src p m.ty a)) (Ty.toInt m.ty (c.src p m.ty b)))))

/-- FCMP: the eight comparisons, with subnormal operands as zeros under MODE.FTZ (R114). -/
def Obligations.FloatCompareMeanings : Prop :=
  ∀ s c h m d a b x, Seated s c → (Instr.fcmp h m d a b x).wf = true → c.fits [(d, 1), (a, 1), (b, 1), (x, 1)] →
    Completes (.fcmp h m d a b x) s c h d 1 [m.pd.val] (CmpResult c m x (fun p =>
      fltCompare m.cmp.val (c.elemVal p .f32 false false a 0) (c.elemVal p .f32 false false b 0)))

/-- SEL, MOV, MOV64 and LEA (R108, R109, R110, R85). -/
def Obligations.MoveResults : Prop :=
  (∀ s c h ty d a b x, Seated s c → (Instr.sel h ty d a b x).wf = true →
    c.fits [(d, Ty.words ty), (a, Ty.words ty), (b, Ty.words ty), (x, 1)] →
    Completes (.sel h ty d a b x) s c h d (Ty.words ty) [] (fun p e => e.shape ty ∧
      wordsNat e.words = if c.val p x ≠ 0#32 then c.src p ty a else c.src p ty b)) ∧
  (∀ s c h d a, Seated s c → (Instr.mov h d a).wf = true → c.fits [(d, 1), (a, 1)] →
    Completes (.mov h d a) s c h d 1 [] (fun p e => e.isWord (c.val p a))) ∧
  (∀ s c h d a, Seated s c → (Instr.mov64 h d a).wf = true → c.fits [(d, 2), (a, 2)] →
    Completes (.mov64 h d a) s c h d 2 [] (fun p e => e.shape .i64 ∧ wordsNat e.words = c.src p .i64 a)) ∧
  (∀ s c h ty sh d a b, Seated s c → (Instr.lea h ty sh d a b).wf = true → c.fits [(d, 2), (a, 2), (b, 1)] →
    Completes (.lea h ty sh d a b) s c h d 2 [] (fun p e => e.shape .i64 ∧ (wordsNat e.words : Int) =
      ((c.src p .i64 a : Int) + (if ty = .n32 then ((c.val p b).toNat : Int) else (c.val p b).toInt) * 2 ^ sh.val) % 2 ^ 64)) ∧
  (∀ s c h d a lit, Seated s c → (Instr.leaVl h d a lit).wf = true → c.fits [(d, 2), (a, 2)] →
    Completes (.leaVl h d a lit) s c h d 2 [] (fun p e => e.shape .i64 ∧ (wordsNat e.words : Int) =
      ((c.src p .i64 a : Int) + lit.toInt) % 2 ^ 64))

/-- Floating-point arithmetic: each element is the exact result rounded once (R112, R117, R118, R57, R58). -/
def Obligations.FloatArithmeticResults : Prop :=
  FltTwo .fadd .faddVl (fun rm x y => Val.add rm x y) ∧ FltTwo .fsub .fsubVl (fun rm x y => Val.add rm x y.neg) ∧
  FltTwo .fmul .fmulVl (fun _ x y => Val.mul x y) ∧
  (∀ s c h m d a b x, Seated s c → (Instr.fmac h m d a b x).wf = true → c.fits [(d, 1), (a, 1), (b, 1), (x, 1)] →
    Completes (.fmac h m d a b x) s c h d 1 [] (fun p e => ElemResult m.ty (fun i =>
      ((fltFmt m.ty).ofVal m.rm m.sat c.ftz (Val.add m.rm
        (Val.mul (c.elemVal p m.ty m.na m.aa a i) (c.elemVal p m.ty m.nb m.ab b i)) (c.elemVal p m.ty m.nc false x i))).bits) e)) ∧
  (∀ s c h m d a b x, Seated s c → (Instr.fdot2 h m d a b x).wf = true → c.fits [(d, 1), (a, 1), (b, 1), (x, 1)] →
    Completes (.fdot2 h m d a b x) s c h d 1 [] (fun p e => ElemResult .f32 (fun _ =>
      (fmtF32.ofVal m.rm m.sat c.ftz (Val.add m.rm (Val.add m.rm
        (Val.mul (c.elemVal p m.ty m.na m.aa a 0) (c.elemVal p m.ty m.nb m.ab b 0))
        (Val.mul (c.elemVal p m.ty m.na m.aa a 1) (c.elemVal p m.ty m.nb m.ab b 1))) (c.elemVal p .f32 false false x 0))).bits) e)) ∧
  (∀ s c h rm sat na aa d a n, Seated s c → (Instr.fscale h rm sat na aa d a n).wf = true → c.fits [(d, 1), (a, 1), (n, 1)] →
    Completes (.fscale h rm sat na aa d a n) s c h d 1 [] (fun p e => ElemResult .f32 (fun _ =>
      (fmtF32.ofVal rm sat c.ftz (Val.mul (c.elemVal p .f32 na aa a 0) (.fin false 1 (c.val p n).toInt))).bits) e)) ∧
  (∀ s c h d a lit, Seated s c → (Instr.fscaleVl h d a lit).wf = true → c.fits [(d, 1), (a, 1)] →
    Completes (.fscaleVl h d a lit) s c h d 1 [] (fun p e => ElemResult .f32 (fun _ =>
      (fmtF32.ofVal .rn false c.ftz (Val.mul (c.elemVal p .f32 false false a 0) (.fin false 1 lit.toInt))).bits) e))

/-- FMIN, FMAX and FCLASS (R113, R115, R57). -/
def Obligations.FloatSelectResults : Prop :=
  MinMaxOf .fmin .fminVl false ∧ MinMaxOf .fmax .fmaxVl true ∧
  (∀ s c h d a, Seated s c → (Instr.fclass h d a).wf = true → c.fits [(d, 1), (a, 1)] →
    Completes (.fclass h d a) s c h d 1 [] (fun p e => ∃ k, k ≤ 8 ∧ e.isWord (BitVec.ofNat 32 (2 ^ k)) ∧ ClassBit (BitVec.ofNat 32 (c.src p .f32 a)) k))

/-- FRCP, FRSQ, FSQRT, FEXP2, FLOG2 and FTANH complete: the special operands, and the exact reciprocal and roots rounded once (R116, R55, R56, R57, R44). -/
def Obligations.OneSourceFunctions : Prop :=
  FunctionOf .frcp reciprocalSpecial (fun rm ftz y b => RoundsOnce rm ftz (1 / y) b) (fun _ => True) ∧
  FunctionOf .frsq reciprocalRootSpecial (fun rm ftz y b => RoundsOnce rm ftz (1 / Real.sqrt y) b) (fun y => 0 < y) ∧
  FunctionOf .fsqrt rootSpecial (fun rm ftz y b => RoundsOnce rm ftz (Real.sqrt y) b) (fun y => 0 < y) ∧
  FunctionOf .fexp2 exponentialSpecial
    (fun _ ftz y b => ∀ n : Int, y = n → (if ftz then -126 else -149) ≤ n → n ≤ 127 → (fmtF32.val b.toNat).rat = (2 : ℚ) ^ n) (fun _ => True) ∧
  FunctionOf .flog2 logarithmSpecial (fun _ _ y b => y = 1 → b = 0#32) (fun y => 0 < y) ∧
  FunctionOf .ftanh tangentSpecial
    (fun rm _ y b => 32 ≤ y → b = if rm = .rn ∨ rm = .ru then 0x3F800000#32 else 0x3F7FFFFF#32) (fun _ => True)

/-- FEXP2, FLOG2 and FTANH give the exact value rounded once (R116, R55, R56, R57). -/
def Obligations.ElementaryFunctionsRoundOnce : Prop :=
  FunctionOf .fexp2 (fun _ => none) (fun rm ftz y b => RoundsOnce rm ftz ((2 : ℝ) ^ y) b) (fun _ => True) ∧
  FunctionOf .flog2 (fun _ => none) (fun rm ftz y b => y ≠ 1 → RoundsOnce rm ftz (Real.logb 2 y) b) (fun y => 0 < y) ∧
  FunctionOf .ftanh (fun _ => none) (fun rm ftz y b => RoundsOnce rm ftz (Real.tanh y) b) (fun _ => True)

/-- PLUT and PMOV: predicates from a table, to and from a register (R124, R125, R235). -/
def Obligations.PredicateResults : Prop :=
  (∀ s c h (lut : Byte) (pd pa pb pc : Fin 8), Seated s c → (Instr.plut h lut pd pa pb pc).wf = true →
    Completes (.plut h lut pd pa pb pc) s c h .none 0 [pd.val] (fun p e => e = { words := [], preds := [(pd.val,
      lut.getLsbD ((p.pred pa.val).toNat + 2 * (p.pred pb.val).toNat + 4 * (p.pred pc.val).toNat))] })) ∧
  (∀ s c h d, Seated s c → (Instr.pmov h d).wf = true → c.fits [(d, 1)] →
    Completes (.pmov h d) s c h d 1 [] (fun p e => BitResult .i32 (fun j => decide (j < 8) && p.pred j) e ∧ p.pred 7 = true)) ∧
  (∀ s c h (mask : BitVec 7) a, Seated s c → (Instr.pmovW h mask a).wf = true → c.fits [(a, 1)] →
    Completes (.pmovW h mask a) s c h .none 0 ((List.range 7).filter (fun i => mask.getLsbD i)) (fun p e =>
      e.words = [] ∧ ∀ i, i < 7 → mask.getLsbD i = true → (i, (c.val p a).getLsbD i) ∈ e.preds))

/-- The events of faults, the watchdog, errors and saving (R162, R247, R272, R277, R302, R303, R334, R339, R341, R346, R347, R352). -/
def Obligations.FaultAndErrorEvents : Prop :=
  (∀ s id o, s.allLive → s.power.tripped = false → s.tlbinvs.find? (fun x => x.id == id) = some o → s.tlbDone o.lines o.cmds o.lanes = true →
    ∃ t, exec (.tlbinvCompletion id) s = .next t ∧ t.tlbinvs = s.tlbinvs.filter (fun x => x.id != id) ∧ t.threads = s.threads ∧ s.sameMemory t) ∧
  (∀ s f r, s.memOk → s.faultsWaiting = f :: r → s.faults.length < Config.faultRecords →
    ∃ t, exec .faultRecordEntered s = .next t ∧ t = { s with faults := s.faults ++ [f], faultsWaiting := r, sys := t.sys, mailbox := { s.mailbox with evIdx := (s.mailbox.evIdx + 1) % 1024, signals := s.mailbox.signals + 1 } } ∧
      t.sys.readBytes (s.mailbox.evBase + 32 * s.mailbox.evIdx) 32 = leBytes 8 1 ++ leBytes 4 f.id ++ leBytes 4 f.kind ++ leBytes 4 8 ++ leBytes 12 0 ∧
      ∀ a, a < s.mailbox.evBase + 32 * s.mailbox.evIdx ∨ s.mailbox.evBase + 32 * s.mailbox.evIdx + 32 ≤ a → t.sys.read a = s.sys.read a) ∧
  (∀ s id f w ws rest, s.faults.find? (fun x => x.id == id) = some f → f.op = none → f.walks = (w :: ws) :: rest → w.prot = false → w.miss = false → 4 ≤ f.kind →
    ∃ t, exec (.replayWalk id) s = .next t ∧ t = { s with faults := s.faults.filter (fun x => x.id != id) }) ∧
  (∀ s id f w ws rest, s.faults.find? (fun x => x.id == id) = some f → f.op = none → f.walks = (w :: ws) :: rest → w.prot = false → w.miss = false → f.kind = 3 →
    (∀ u ∈ s.threads, u.wdogDue = false) →
    ∃ t, exec (.replayWalk id) s = .next t ∧ t = { s with faults := s.faults.filter (fun x => x.id != id), threads := t.threads } ∧
      ∀ u ∈ s.fetchThreads f, ∃ u', t.thread? u.team u.tid = some u' ∧ u'.status = .ready ∧ u'.since = s.clk) ∧
  (∀ s id f w ws rest, s.allLive → s.faults.find? (fun x => x.id == id) = some f → f.op = none → f.walks = (w :: ws) :: rest → w.prot = false → w.miss = true → f.retry + 1 < s.retryMax →
    ∃ t, exec (.replayWalk id) s = .next t ∧ t.threads = s.threads ∧
      t.faults = s.faults.map (fun x => if x.id = id then { f with walks := rest, refault := true, retry := f.retry + 1 } else x)) ∧
  (∀ s team x pc kind, s.allLive → s.team? team = some x → s.wdogExpired x = true → x.wdogAgain = false →
    (∀ u ∈ s.threads, u.team = team → u.hasExited = false → u.staysParked = false ∧ u.inHandler = false ∧ u.pc = pc ∧ u.wdogKind = kind) →
    s.canTrap team ((s.threads.filter (fun u => u.team == team && !u.hasExited)).map (·.tid)) →
    ∃ t a, exec (.watchdogExpiry team) s = .next t ∧ TrapTaken s t team ((s.threads.filter (fun u => u.team == team && !u.hasExited)).map (·.tid)) 0x15 kind pc a ∧
      ∃ x', t.team? team = some x' ∧ x'.wdogHandling = true ∧ x'.wdog = 0 ∧ x'.wdogHit = false) ∧
  (∀ s team x, s.team? team = some x → s.wdogExpired x = true →
    (x.wdogAgain = true ∨ ∃ u ∈ s.threads, u.team = team ∧ u.hasExited = false ∧ u.inHandler = true ∧ u.watchOp = none) →
    exec (.watchdogExpiry team) s = .next (s.killTeam team 0x15)) ∧
  (∀ s core team row x, s.power.starting = false → s.team? team = some x → x.core? = some core → x.killed = false →
    exec (.uncorrectableError (.core core team row)) s = .next ((s.errorEvent 0 (core + row * 2 ^ 32)).killTeam team 0)) ∧
  (∀ s g, s.power.starting = false → (∃ q ∈ s.quorum, q.id = g) → ∃ t, exec (.uncorrectableError (.round g)) s = .next t ∧ t.huddleStop = true) ∧
  (∀ s a, s.power.starting = false → (dsmDie a).isSome = true → ∃ t, exec (.uncorrectableError (.dsm a)) s = .next t ∧ t = { s with badWords := ⟨.dsm, a / 4 * 4⟩ :: s.badWords }) ∧
  (∀ s a, s.power.starting = false → a < Config.mainBytes → ∃ t, exec (.uncorrectableError (.main a)) s = .next t ∧ t = { s with badWords := ⟨.main, a / 4 * 4⟩ :: s.badWords }) ∧
  (∀ s place, s.power.starting = true → s.power.minimal = false → ∃ t, exec (.uncorrectableError place) s = .next t ∧
    t = { s with power := { s.power with failed := true, why := 9, whyStage := s.power.stage + 1, fails := min 3 (s.power.fails + 1) } }) ∧
  (∀ s team x core slot k, s.memOk → s.power.tripped = false → s.team? team = some x → x.core? = some core → s.core? core = some k → lowestFree s.slotsHeld s.saveSlots = some slot → s.canSave x = true →
    (∀ u ∈ s.threads, u.team = team → ∀ e ∈ u.stores, x.tagged ≤ e.id) →
    ∃ t x' k', exec (.teamSave team) s = .next t ∧ t = { s with teams := t.teams, cores := t.cores, main := t.main, badWords := t.badWords, hist := t.hist, freeCount := s.freeCount + 1 } ∧
      (∀ a, a < s.hostCtl.saveBase + slot * Config.saveSlot ∨ s.hostCtl.saveBase + (slot + 1) * Config.saveSlot ≤ a → t.main.read a = s.main.read a) ∧ t.team? team = some x' ∧ t.slotIntact x' = true ∧
      x' = { x with place := .saved slot, image := s.freeCount, saveReq := false, savedLocks := x'.savedLocks, savedBins := k.bins.filter (fun b => b.team == team) } ∧
      t.core? core = some k' ∧ k' = { k with locks := k'.locks, bins := k.bins.filter (fun b => b.team != team) } ∧
      (∀ y ∈ k.locks, (y ∈ x'.savedLocks ↔ ∃ o ∈ s.xfers, o.team = team ∧ o.id = y.op) ∧ (y ∈ k'.locks ↔ ¬∃ o ∈ s.xfers, o.team = team ∧ o.id = y.op))) ∧
  (∀ s team x core slot k u e, s.memOk → s.power.tripped = false → s.team? team = some x → x.core? = some core → s.core? core = some k → lowestFree s.slotsHeld s.saveSlots = some slot →
    s.canSave x = true → s.thread? team u.tid = some u → u.stores = [e] → (∀ v ∈ s.threads, v.team = team → v.stores ≠ [] → v = u) → e.id < x.tagged → e.stk = false → e.loc.space = .dsm →
    e.level = none → s.canPerform u e = true →
    ∃ t x', exec (.teamSave team) s = .next t ∧ t.team? team = some x' ∧ x'.place = .saved slot ∧ (∀ v ∈ t.threads, v.team = team → v.stores = []) ∧
      t.memRead e.loc e.data.length = e.data)

/-- The events of trace frames, quadrants, pace, clock, refresh, heat, supply and bring-up (R307, R311, R312, R383, R384, R385, R386, R387, R389, R390, R391, R393). -/
def Obligations.TracePowerAndStartEvents : Prop :=
  (∀ s core c f, s.power.tripped = false → s.core? core = some c → c.trace.frames.getLast? = some f → f.closed = false → f.records ≠ 0 → f.first + 65536 ≤ s.clk →
    ∃ t c', exec (.traceFrameTimeout core) s = .next t ∧ t = { s with cores := t.cores } ∧ t.core? core = some c' ∧
      c' = { c with trace := { c.trace with frames := c.trace.frames.dropLast ++ [f.close false] } }) ∧
  (∀ s core c f rest, s.memOk → s.power.tripped = false → s.core? core = some c → c.trace.frames = f :: rest → f.closed = true → f.bytes.length = 4096 → s.power.gating.contains (quadOf core) = false → s.power.gated.contains (quadOf core) = false → s.ringFull core = false →
    (s.trctl.getLsbD 0 = true → c.trace.dropped = 0 ∧ c.trace.resumed = false) →
    ∃ t c' i, exec (.traceFrameDrain core) s = .next t ∧ t = { s with cores := t.cores, main := t.main, badWords := t.badWords, hist := t.hist, hostCtl := { s.hostCtl with trcIdx := t.hostCtl.trcIdx } } ∧
      t.core? core = some c' ∧ c' = { c with trace := { c.trace with frames := rest } } ∧ i = (assocGet s.hostCtl.trcIdx core).getD 0 ∧
      t.main.readBytes (s.hostCtl.trcBase + core * s.hostCtl.trcLen + i) 4096 = f.bytes ∧ assocGet t.hostCtl.trcIdx core = some ((i + 4096) % s.hostCtl.trcLen) ∧
      ∀ a, a < s.hostCtl.trcBase + core * s.hostCtl.trcLen + i ∨ s.hostCtl.trcBase + core * s.hostCtl.trcLen + i + 4096 ≤ a → t.main.read a = s.main.read a) ∧
  (∀ s core c f, s.power.tripped = false → s.core? core = some c → c.trace.frames = [f] → f.closed = true → s.power.gating.contains (quadOf core) = false → s.power.gated.contains (quadOf core) = false →
    s.trctl.getLsbD 0 = true → c.trace.resumed = false → c.trace.dropped + f.records ≠ 0 → s.ringFull core = true →
    ∃ t c' g, exec (.traceFrameDrain core) s = .next t ∧ t = { s with cores := t.cores } ∧ t.core? core = some c' ∧
      c' = { c with trace := { c.trace with frames := [g], nextSeq := (c.trace.nextSeq + 1) % 65536, dropped := 0 } } ∧
      g.bytes = leBytes 2 c.trace.nextSeq ++ leBytes 1 core ++ leBytes 5 0 ++ leBytes 8 s.clk ++ [0x54#8, 9#8, 0#8] ++
        leBytes 4 (min (c.trace.dropped + f.records) 0xFFFFFFFF) ++ [0#8, 0#8] ∧ g.records = 1 ∧ g.closed = false) ∧
  (∀ s core c f rest, s.power.tripped = false → s.core? core = some c → c.trace.frames = f :: rest → f.closed = true → s.power.gated.contains (quadOf core) = false → s.ringFull core = true → s.trctl.getLsbD 0 = false →
    ∃ t c', exec (.traceFrameDrain core) s = .next t ∧ t = { s with cores := t.cores } ∧ t.core? core = some c' ∧
      c' = { c with trace := { c.trace with frames := rest, dropped := min (c.trace.dropped + f.records) 0xFFFFFFFF } }) ∧
  (∀ s core, s.power.tripped = false → s.quadIdle (quadOf core) = true → s.power.gating.contains (quadOf core) = false → s.power.gated.contains (quadOf core) = false →
    ∃ t, exec (.gatingTraceDrain core) s = .next t ∧ t = { s with power := { s.power with gating := s.power.gating ++ [quadOf core] }, cores := t.cores } ∧
      ∀ k c, s.core? k = some c → t.core? k = some (if quadOf k = quadOf core then { c with trace := c.trace.closeGated } else c)) ∧
  (∀ s quad, s.memOk → s.power.gating.contains quad = true → s.quadIdle quad = true →
    ∃ t, exec (.quadrantPowerGate quad) s = .next t ∧ t = { s with cores := t.cores, main := t.main, badWords := t.badWords, hist := t.hist, power := { s.power with gating := s.power.gating.filter (fun q => q != quad), gated := s.power.gated ++ [quad] } } ∧
      ∀ k c, s.core? k = some c → t.core? k = some (if quadOf k = quad then { c with tlb := [], arrayFree := 0, trace := { c.trace with frames := [], gateDropped := min (c.trace.gateDropped + (c.trace.frames.map (·.records)).sum) 0xFFFFFFFF } } else c) ∧
      (∀ c ∈ s.cores, quadOf c.id = quad → ∀ a, c.trace.lastDrain = some a → t.main.read (a + 3) = 1#8) ∧
      ∀ b, (∀ c ∈ s.cores, quadOf c.id = quad → ∀ a, c.trace.lastDrain = some a → b ≠ a + 3) → t.main.read b = s.main.read b) ∧
  (∀ s quad, s.power.resuming.contains quad = true →
    ∃ t, exec (.quadrantResumed quad) s = .next t ∧ t = { s with cores := t.cores, power := { s.power with resuming := s.power.resuming.filter (fun q => q != quad), gated := s.power.gated.filter (fun q => q != quad) } } ∧
      ∀ k c, s.core? k = some c → ∃ c', t.core? k = some c' ∧ c' = { c with trace := c'.trace } ∧ (quadOf k ≠ quad → c' = c) ∧
        (quadOf k = quad → s.trctl.getLsbD 0 = false → c'.trace = { c.trace with resumed := c.trace.gateDropped != 0 }) ∧
        (quadOf k = quad → s.trctl.getLsbD 0 = true → c.trace.frames = [] → c.trace.dropped = 0 → c.trace.gateDropped ≠ 0 →
          ∃ g, c'.trace = { c.trace with frames := [g], nextSeq := (c.trace.nextSeq + 1) % 65536, gateDropped := 0, resumed := false } ∧
            g.bytes = leBytes 2 c.trace.nextSeq ++ leBytes 1 k ++ leBytes 5 0 ++ leBytes 8 s.clk ++ [0x54#8, 9#8, 0#8] ++
              leBytes 4 c.trace.gateDropped ++ [1#8, 0#8] ∧ g.records = 1)) ∧
  (∀ s r, ∃ t, exec (.paceEvaluation r) s = .next t ∧ t = { s with power := { s.power with pTerm := t.power.pTerm, sTerm := t.power.sTerm, e := t.power.e, level := t.power.level } } ∧
    t.power.pTerm = (if r.powerAbove then s.power.pTerm + 1 else if r.powerBelow then s.power.pTerm - 1 else s.power.pTerm) ∧
    t.power.sTerm = (if r.stretchedMs then s.power.sTerm + 1 else if r.unstretched then s.power.sTerm - 1 else s.power.sTerm) ∧
    t.power.e ≤ 15 ∧ (t.power.e = 15 ∨ s.power.req ≤ t.power.e ∧ t.power.pTerm ≤ t.power.e ∧ t.power.sTerm ≤ t.power.e ∧ r.dieTemp ≤ 16 * (100 + t.power.e) ∧ 2 * r.baseTemp ≤ 16 * (2 * 105 + t.power.e)) ∧
    (t.power.e = s.power.req ∨ t.power.e = t.power.pTerm ∨ t.power.e = t.power.sTerm ∨ t.power.e = degreesAbove r.dieTemp 100 ∨ t.power.e = 2 * degreesAbove r.baseTemp 105 ∨ t.power.e = 15) ∧
    t.power.level = (if s.power.minimal ∨ s.power.pacedom.getLsbD 31 = true then s.power.level else t.power.e)) ∧
  (∀ s others, s.power.minimal = false → s.power.pacedom.getLsbD 31 = true → ∃ t, exec (.paceDomainUpdate others) s = .next t ∧
    t = { s with power := { s.power with level := max s.power.e (min 15 others) } }) ∧
  (∀ s n, 1 ≤ n → n ≤ 8 → ∃ t, exec (.clockStretch n) s = .next t ∧ t = { s with power := { s.power with stretches := s.power.stretches + 1 } }) ∧
  (∀ s stack temp r, stack < 12 → s.power.refresh[stack]? = some r → (r = 1 ∨ r = 2 ∨ r = 4) → ∃ t r', exec (.refreshRateUpdate stack temp) s = .next t ∧
    t = { s with power := { s.power with refresh := t.power.refresh, hot := t.power.hot, half := t.power.half } } ∧ t.power.refresh[stack]? = some r' ∧
    (∀ k, k ≠ stack → t.power.refresh[k]? = s.power.refresh[k]?) ∧
    r' = (if temp > 95 * 16 then 4 else if temp > 85 * 16 then (if r = 4 ∧ temp > 93 * 16 then 4 else 2) else if r ≠ 1 ∧ temp > 83 * 16 then 2 else 1) ∧
    (temp > 95 * 16 → t.power.half = true)) ∧
  (∀ s base place temp, s.power.tripped = false → (if base then 120 * 16 else 115 * 16) ≤ temp → s.mailbox.evIdx < 1024 → ∃ t, exec (.thermalTrip base place temp) s = .next t ∧
    t = { s with power := { s.power with tripped := true, tripLatch := true }, sys := t.sys, freeCount := t.freeCount, mailbox := { s.mailbox with evIdx := (s.mailbox.evIdx + 2 * (s.teams.filter Team.isResident).length) % 1024, signals := s.mailbox.signals + 2 * (s.teams.filter Team.isResident).length } }) ∧
  (∀ s, ∃ t, exec .moduleUnpowered s = .next t ∧ t = { s with power := { s.power with powered := false } }) ∧
  (∀ s, s.power.powered = false → needsPower s.nextTurn.1 = true → step s = .fault .unpowered) ∧
  (∀ s, ∃ t, exec .deviceStart s = .next t ∧ t.power.powered = true ∧ t.power.stage = 0 ∧ t.power.failed = false ∧ t.power.ready = 0#22 ∧ t.power.tripped = false ∧
    t.power.fails = (if s.hostCtl.bootClr then 0 else s.power.fails) ∧ (t.power.minimal = true ↔ t.power.fails = 3) ∧
    t.power.level = (if t.power.minimal then 15 else 0) ∧ t.power.why = (if t.power.minimal then s.power.why else if s.power.tripLatch then 7 else 0) ∧
    t.clk = (if s.power.powered then s.clk else 0) ∧ t.sys = s.sys ∧ t.launches = [] ∧ t.teams = [] ∧ t.groups = [] ∧ t.threads = [] ∧ t.main = [] ∧
    t.dsm = (if s.power.powered then s.dsm else []) ∧ t.dsmTags = (if s.power.powered then s.dsmTags else []) ∧
    (∀ l ∈ t.absent, l.space = .dsm ∧ l ∈ s.absent) ∧ (s.power.powered = true → ∀ l ∈ s.absent, l.space = .dsm → l ∈ t.absent) ∧ (s.power.powered = false → t.absent = []) ∧ t.cores = State.reset.cores ∧
    t.queues = [] ∧ t.faults = [] ∧ t.quorum = [] ∧ t.cadence = State.reset.cadence ∧ t.mailbox = State.reset.mailbox ∧ t.hostCtl = State.reset.hostCtl) ∧
  (∀ s, s.power.starting = true → ∃ t, exec (.bringUpStagePass true) s = .next t ∧
    t = { s with power := { s.power with stage := s.power.stage + 1, ready := s.power.ready ||| stageReady s.power.minimal (s.power.stage + 1), fails := t.power.fails } } ∧
    t.power.fails = (if s.power.stage + 1 = 8 ∧ s.power.minimal = false then 0 else s.power.fails)) ∧
  (∀ s, s.power.starting = true → s.power.stage + 1 ≠ 8 → s.power.minimal = false → ∃ t, exec (.bringUpStagePass false) s = .next t ∧
    t = { s with power := { s.power with failed := true, why := stageReason (s.power.stage + 1), whyStage := s.power.stage + 1, fails := min 3 (s.power.fails + 1) } }) ∧
  (∀ s, s.power.starting = true → s.power.minimal = false → ∃ t, exec .firmwareWatchdogExpiry s = .next t ∧
    t = { s with power := { s.power with failed := true, why := 8, whyStage := s.power.stage + 1, fails := min 3 (s.power.fails + 1) } })

/-- The events of the Cadence engine (R159, R160, R293, R294, R295, R296, R297, R301, R358, R359). -/
def Obligations.CadenceEvents : Prop :=
  (∀ s a bs, s.cadence.loading = some a → s.cadence.state = 1 → a + 8192 ≤ 2 ^ 57 → s.readVirt s.cadence.asid a 8192 = some bs →
    ∃ t, exec .cadenceImageLoaded s = .next t ∧ t = { s with cadence := { s.cadence with state := 2, wait := 0, entries := t.cadence.entries, loading := none } } ∧
      t.cadence.entries.length = 256 ∧ ∀ i, i < 256 → t.cadence.entries[i]? = some (BitVec.ofNat 256 (leNat ((bs.drop (32 * i)).take 32)))) ∧
  (∀ s a, s.cadence.loading = some a → s.cadence.state = 1 → (2 ^ 57 < a + 8192 ∨ s.readVirt s.cadence.asid a 8192 = none) →
    ∃ t, exec .cadenceImageLoaded s = .next t ∧ t.cadence = { s.cadence with state := 5, cause := 0x1A, errEntry := 0, refuse := 0, wait := 0, loading := none, running := s.cadence.running.map (fun r => { r with muted := true }) }) ∧
  (∀ s ident e, s.cadence.acted = false → s.cadence.start = 2 → (s.cadence.state = 2 ∨ s.cadence.state = 3) → s.cadence.grid = none → s.identFree ident = true → s.badWords = [] →
    e = cdEntry (s.cadence.entries.getD s.cadence.head 0#256) → s.cadence.entryOk e = true → s.cadence.head < 255 →
    (e.kind = 5 → ∃ t, exec (.cadenceCycle ident) s = .next t ∧ t = { s with cadence := { s.cadence with acted := true, state := 4, wait := 0 } }) ∧
    (e.kind = 3 → (∀ p ∈ [1, 2], s.cadence.node p = 0xFFFF ∨ s.cadence.free p = 8) →
      ∃ t, exec (.cadenceCycle ident) s = .next t ∧ t = { s with cadence := { s.cadence with acted := true, head := s.cadence.head + 1, wait := 0 } }) ∧
    (e.kind = 3 → (∃ p ∈ [1, 2], s.cadence.node p ≠ 0xFFFF ∧ s.cadence.free p ≠ 8) →
      ∃ t, exec (.cadenceCycle ident) s = .next t ∧ t = { s with cadence := { s.cadence with acted := true, wait := if s.cadence.state = 2 then 2 else 0, bubd := min (s.cadence.bubd + 1) (2 ^ 64 - 1) } }) ∧
    (e.kind = 4 → s.cadence.loopLeft = 0 → ∃ t, exec (.cadenceCycle ident) s = .next t ∧
      t = { s with cadence := { s.cadence with acted := true, loopLeft := max e.count 1 - 1, loopOwn := s.cadence.head, wait := 0, head := if 1 < e.count then e.target else s.cadence.head + 1 } }) ∧
    (e.kind = 4 → s.cadence.loopLeft ≠ 0 → s.cadence.loopOwn = s.cadence.head → ∃ t, exec (.cadenceCycle ident) s = .next t ∧
      t = { s with cadence := { s.cadence with acted := true, loopLeft := s.cadence.loopLeft - 1, wait := 0, head := if 1 < s.cadence.loopLeft then e.target else s.cadence.head + 1 } }) ∧
    (e.kind ≤ 2 → e.iport ≠ 0 → s.cadence.arrival e.iport e.mb = none →
      ∃ t, exec (.cadenceCycle ident) s = .next t ∧ t = { s with cadence := { s.cadence with acted := true, wait := if s.cadence.state = 2 then 1 else 0, bubu := min (s.cadence.bubu + 1) (2 ^ 64 - 1) } }) ∧
    (∀ b k, e.kind ≤ 2 → e.iport = 0 → (e.oport = 0 ∨ s.cadence.free e.oport ≠ 0) → (e.stash = 1 → s.cadence.occ.getLsbD e.slot = false) →
      s.readRecord s.cadence.asid (BitVec.ofNat 64 (s.cadence.recBase + 256 * e.rec_)).toNat = .ok (b, k) → (∀ x ∈ s.rangePages s.cadence.asid (recordRanges b), x.2.2 = .good) →
      ∃ t l, exec (.cadenceCycle ident) s = .next t ∧ t = { s with cadence := t.cadence, launches := s.launches ++ [l], nextId := t.nextId } ∧
        l.ident = ident ∧ l.key = s.nextId ∧ l.kernel = k ∧ l.asid = s.cadence.asid ∧ l.priv = false ∧ l.phase = .ranges ∧ l.cadence = some (s.cadence.head, e.prio) ∧ l.view = s.cadence.view ∧
        t.cadence = { s.cadence with acted := true, occ := t.cadence.occ, wait := 0, head := s.cadence.head + 1, running := some { launch := s.nextId, entry := s.cadence.head, buf := none, muted := false } } ∧
        ∀ j, j < 64 → (t.cadence.occ.getLsbD j = true ↔ s.cadence.occ.getLsbD j = true ∨ e.stash = 1 ∧ j = e.slot)) ∧
    (∀ i y b k, s.memOk → e.kind ≤ 2 → e.iport ≠ 0 → s.cadence.arrival e.iport e.mb = some (i, y) → inOneDie e.inDst y.data.length = true →
      (e.oport = 0 ∨ s.cadence.free e.oport ≠ 0) → (e.stash = 1 → s.cadence.occ.getLsbD e.slot = false) →
      s.readRecord s.cadence.asid (BitVec.ofNat 64 (s.cadence.recBase + 256 * e.rec_)).toNat = .ok (b, k) → (∀ x ∈ s.rangePages s.cadence.asid (recordRanges b), x.2.2 = .good) →
      ∃ t l, exec (.cadenceCycle ident) s = .next t ∧
        t = { s with cadence := t.cadence, launches := s.launches ++ [l], nextId := t.nextId, dsm := t.dsm, badWords := t.badWords, hist := t.hist } ∧
        t.memRead ⟨.dsm, e.inDst⟩ y.data.length = y.data ∧
        (∀ l' m, l'.space = .dsm → overlaps ⟨.dsm, e.inDst⟩ y.data.length l' m = false → t.memRead l' m = s.memRead l' m) ∧
        l.ident = ident ∧ l.key = s.nextId ∧ l.kernel = k ∧ l.cadence = some (s.cadence.head, e.prio) ∧
        t.cadence.head = s.cadence.head + 1 ∧ t.cadence.running = some { launch := s.nextId, entry := s.cadence.head, buf := some i, muted := false } ∧
        t.cadence.bufs[i]? = (s.cadence.bufs[i]?).map (fun z => { z with held := true }) ∧ ∀ j, j ≠ i → t.cadence.bufs[j]? = s.cadence.bufs[j]?)) ∧
  (∀ s ident b, s.cadence.acted = false → s.cadence.start = 2 → (s.cadence.state = 2 ∨ s.cadence.state = 3) → s.cadence.grid = some b →
    ∃ t, exec (.cadenceCycle ident) s = .next t ∧
      (b = false → t = { s with cadence := { s.cadence with acted := true, wait := if s.cadence.state = 2 then 4 else 0, bubx := min (s.cadence.bubx + 1) (2 ^ 64 - 1) } }) ∧
      (b = true → t = { s with cadence := { s.cadence with acted := true, wait := 0 } })) ∧
  (∀ s ident, s.cadence.acted = false → s.cadence.start = 3 → s.cadence.state = 3 → s.cadence.grid = none →
    ∃ t, exec (.cadenceCycle ident) s = .next t ∧ t = { s with cadence := { s.cadence with acted := true, state := 4, wait := 0 } }) ∧
  (∀ s ident, s.cadence.acted = false → s.cadence.start ≠ 2 → s.cadence.start ≠ 3 →
    ∃ t, exec (.cadenceCycle ident) s = .next t ∧ t = { s with cadence := { s.cadence with acted := true } }) ∧
  (∀ s r e, s.cadence.running = some r → s.gridDone = true → s.cadence.due = true → r.muted = false →
    e = cdEntry (s.cadence.entries.getD r.entry 0#256) → (r.sends e = 0 ∨ s.fabricRoom (r.sends e) = true) → (e.oport = 0 ∨ inOneDie e.outSrc e.len = true) →
    ∃ t new, exec .cadenceGridCompletion s = .next t ∧ t = { s with cadence := t.cadence, fabric := s.fabric ++ new, launches := t.launches, nextId := t.nextId } ∧
      t.launches = s.launches.filter (fun l => l.phase != .done) ∧ t.cadence.running = none ∧ t.cadence.state = (if s.cadence.state = 3 then 4 else s.cadence.state) ∧
      new.map (fun x => (x.node, x.prio, x.len, x.sentBytes, x.what)) =
        (if e.oport = 0 then [] else [(s.cadence.node e.oport, 255, e.len, 0, .cadenceSend (e.oport == 2) e.mb (s.memRead ⟨.dsm, e.outSrc⟩ e.len))]) ++
        (if r.buf = none then [] else [(s.cadence.node e.iport, 255, 16, 0, .cadenceGrant (e.iport == 2))]) ∧
      (e.oport = 0 → t.cadence.freeUp = s.cadence.freeUp ∧ t.cadence.freeDown = s.cadence.freeDown) ∧
      (e.oport ≠ 0 → t.cadence.free e.oport = s.cadence.free e.oport - 1) ∧
      (∀ j, t.cadence.bufs[j]? = if r.buf = some j then (s.cadence.bufs[j]?).map (fun _ => .empty) else s.cadence.bufs[j]?) ∧
      ∀ j, j < 64 → (t.cadence.occ.getLsbD j = true ↔ s.cadence.occ.getLsbD j = true ∧ ¬(e.stash = 3 ∧ j = e.slot))) ∧
  (∀ s r, s.cadence.running = some r → s.gridDone = true → s.cadence.due = true → r.muted = true →
    ∃ t, exec .cadenceGridCompletion s = .next t ∧ t.launches = s.launches.filter (fun l => l.phase != .done) ∧
      t = { s with cadence := { s.cadence with running := none, view := t.cadence.view }, launches := t.launches }) ∧
  (∀ s down mb data, s.power.minimal = false → s.cadence.due = true → data.length ≤ 65536 → s.cadence.bufs.length = 16 →
    (∃ i, i < 8 ∧ (s.cadence.bufs.getD ((if down then 8 else 0) + i) .empty).full = false) →
    ∃ t i, exec (.cadenceArrival down mb data) s = .next t ∧ t = { s with nextId := s.nextId + 1, cadence := { s.cadence with bufs := t.cadence.bufs } } ∧
      i < 8 ∧ (s.cadence.bufs.getD ((if down then 8 else 0) + i) .empty).full = false ∧ (∀ j, j < i → (s.cadence.bufs.getD ((if down then 8 else 0) + j) .empty).full = true) ∧
      t.cadence.bufs = s.cadence.bufs.set ((if down then 8 else 0) + i) { full := true, held := false, mb := mb % 256, data := data, stamp := s.nextId }) ∧
  (∀ s, s.power.minimal = false → s.cadence.due = true → (∃ t, exec (.cadenceGrant true) s = .next t ∧ t = { s with cadence := { s.cadence with freeDown := min 8 (s.cadence.freeDown + 1) } }) ∧
    ∃ t, exec (.cadenceGrant false) s = .next t ∧ t = { s with cadence := { s.cadence with freeUp := min 8 (s.cadence.freeUp + 1) } })

/-- The mailbox: BAR0, the doorbell and every command (R161, R162, R268, R280, R281, R285, R376, R377, R378, R379, R390). -/
def Obligations.MailboxEvents : Prop :=
  (∀ s (tail : Byte), ∃ t, exec (.tailDoorbell tail) s = .next t ∧ t = { s with mailbox := { s.mailbox with tail := tail } }) ∧
  (∀ s, s.memOk → s.mbDue = true → cmdLegal s.mailbox.cmd = false → ∀ i ∈ [Instr.mailboxWrite, .mailboxRead, .mailboxCopyToDevice, .mailboxCopyToHost true, .mailboxLaunch, .mailboxReplay, .mailboxCancel,
      .mailboxCancelAsid, .mailboxTlbinvAll, .mailboxTlbinvAsid, .mailboxTlbinvPage],
    ∃ t, exec i s = .next t ∧ t = { s with sys := t.sys, mailbox := t.mailbox } ∧ Answered s .illegal [] t) ∧
  (∀ s n l, s.memOk → s.mbAt 1 → n = cf s.mailbox.cmd 16 1 → s.mbPlace (cf s.mailbox.cmd 8 8) n = .mem l → s.hostReady l n = true →
    ∃ t, exec .mailboxWrite s = .next t ∧ t = { s with sys := t.sys, mailbox := t.mailbox, main := t.main, dsm := t.dsm, badWords := t.badWords, hist := t.hist, nextId := t.nextId } ∧ Answered s .ok [] t ∧
      t.memRead l n = (s.mailbox.cmd.drop 24).take n ∧ ∀ l' m, l'.space ≠ .sys → overlaps l n l' m = false → t.memRead l' m = s.memRead l' m) ∧
  (∀ s n k i lo s' st, s.mbAt 1 → n = cf s.mailbox.cmd 16 1 → s.mbPlace (cf s.mailbox.cmd 8 8) n = .item k i lo → ¬(k = .xbar ∧ i / 64 = 255) →
    s.tableWrite k i lo ((s.mailbox.cmd.drop 24).take n) = (s', st) → s'.sys.wf = true →
    ∃ t, exec .mailboxWrite s = .next t ∧ Answered s st [] t ∧ t = { s' with sys := t.sys, mailbox := { s'.mailbox with head := t.mailbox.head, inv := none, spread := false } } ∧
      (k = .csr ∨ k = .region → s' = s ∧ st = .ok) ∧ (k = .cdEngine → s' = s ∧ st = .refused)) ∧
  (∀ s n i lo, s.memOk → s.mbAt 1 → n = cf s.mailbox.cmd 16 1 → s.mbPlace (cf s.mailbox.cmd 8 8) n = .item .xbar i lo → i / 64 = 255 →
    (s.mailbox.spread = false → ∃ t, exec .mailboxWrite s = .next t ∧ t = { s with cores := t.cores, mailbox := { s.mailbox with spread := true } } ∧
      ∀ k c, s.core? k = some c → ∃ x, t.core? k = some { c with xbarNew := some (i % 64, x) }) ∧
    (s.mailbox.spread = true → (∀ c ∈ s.cores, c.xbarNew = none) → ∃ t, exec .mailboxWrite s = .next t ∧ Answered s .ok [] t ∧
      t = { s with sys := t.sys, mailbox := { s.mailbox with head := t.mailbox.head, inv := none, spread := false } })) ∧
  (∀ (s : State) core c e x, s.core? core = some c → c.xbarNew = some (e, x) →
    (s.patternTurn core).core? core = some { c with xbar := assocSet c.xbar e x, xbarNew := none }) ∧
  (∀ s n st, s.memOk → s.mbAt 1 → n = cf s.mailbox.cmd 16 1 → s.mbPlace (cf s.mailbox.cmd 8 8) n = .bad st →
    ∃ t, exec .mailboxWrite s = .next t ∧ t = { s with sys := t.sys, mailbox := t.mailbox } ∧ Answered s st [] t) ∧
  (∀ s n, s.memOk → s.mbAt 7 → n = cf s.mailbox.cmd 16 1 → ∃ t st b, exec .mailboxRead s = .next t ∧ t = { s with sys := t.sys, mailbox := t.mailbox, nextId := t.nextId } ∧ Answered s st b t ∧
    (∀ l, s.mbPlace (cf s.mailbox.cmd 8 8) n = .mem l → st = .ok ∧ b.length = n ∧ ((∀ x ∈ s.hist, overlaps x.loc 4 l n = false) → b = s.memRead l n)) ∧
    (∀ k i lo, s.mbPlace (cf s.mailbox.cmd 8 8) n = .item k i lo → (∀ x, s.tableRead k i lo n = some x → st = .ok ∧ b = x) ∧ (s.tableRead k i lo n = none → st = .refused)) ∧
    (∀ x, s.mbPlace (cf s.mailbox.cmd 8 8) n = .bad x → st = x)) ∧
  (∀ s n l, s.memOk → s.mbAt 2 → cf s.mailbox.cmd 28 1 = 0 → n = cf s.mailbox.cmd 24 4 → s.mbPlace (cf s.mailbox.cmd 8 8) n = .mem l → s.hostReady l n = true →
    ∃ t, exec .mailboxCopyToDevice s = .next t ∧ t = { s with sys := t.sys, mailbox := t.mailbox, main := t.main, dsm := t.dsm, badWords := t.badWords, hist := t.hist, nextId := t.nextId } ∧ Answered s .ok [] t ∧
      t.memRead l n = s.memRead ⟨.sys, cf s.mailbox.cmd 16 8⟩ n) ∧
  (∀ s n l, s.memOk → s.mbAt 2 → cf s.mailbox.cmd 28 1 = 1 → n = cf s.mailbox.cmd 24 4 → s.mbPlace (cf s.mailbox.cmd 8 8) n = .mem l →
    ∃ t, exec (.mailboxCopyToHost true) s = .next t ∧ t = { s with sys := t.sys, mailbox := t.mailbox, badWords := t.badWords, hist := t.hist, nextId := t.nextId } ∧ Answered s .ok [] t ∧
      ((∀ x ∈ s.hist, overlaps x.loc 4 l n = false) → overlaps ⟨.sys, cf s.mailbox.cmd 16 8⟩ n ⟨.sys, s.mailbox.rspBase + 64 * s.mailbox.head.toNat⟩ 64 = false → t.memRead ⟨.sys, cf s.mailbox.cmd 16 8⟩ n = s.memRead l n)) ∧
  (∀ s q, s.memOk → s.mbAt 3 → q = cf s.mailbox.cmd 16 1 → (s.queue q).takes 1 = true →
    ∃ t, exec .mailboxLaunch s = .next t ∧ t = { s with sys := t.sys, mailbox := t.mailbox, queues := t.queues } ∧ Answered s .ok [] t ∧
      t.queue q = { s.queue q with entries := (s.queue q).entries ++ [{ record := BitVec.ofNat 64 (cf s.mailbox.cmd 8 8), priv := true, parent := 0#32, view := s.mailbox.view }] }) ∧
  (∀ s q, s.memOk → s.mbAt 3 → q = cf s.mailbox.cmd 16 1 → (s.queue q).takes 1 = false →
    ∃ t, exec .mailboxLaunch s = .next t ∧ t = { s with sys := t.sys, mailbox := t.mailbox } ∧ Answered s .refused [] t) ∧
  (∀ s, s.memOk → s.mbAt 4 → s.badWords = [] → ∃ t, exec .mailboxReplay s = .next t ∧ t = { s with sys := t.sys, mailbox := t.mailbox, faults := t.faults } ∧ Answered s .ok [] t ∧
    t.faults = s.faults.map (fun f => if cf s.mailbox.cmd 8 2 = 0xFFFF ∨ f.asid = cf s.mailbox.cmd 8 2 then { f with walks := f.walks ++ [s.walkRec f] } else f)) ∧
  (∀ s, s.memOk → s.mbAt 5 → cf s.mailbox.cmd 12 1 = 0 → ∃ t, exec .mailboxCancel s = .next t ∧ Answered s .ok [] t ∧ (∀ f ∈ t.faults, f ∈ s.faults ∧ f.id ≠ cf s.mailbox.cmd 8 4) ∧
    ((∀ f ∈ s.faults, f.id ≠ cf s.mailbox.cmd 8 4) → t = { s with sys := t.sys, mailbox := t.mailbox })) ∧
  (∀ s, s.memOk → s.mbAt 5 → cf s.mailbox.cmd 12 1 = 1 → ∃ t, exec .mailboxCancelAsid s = .next t ∧ Answered s .ok [] t ∧ (∀ f ∈ t.faults, f ∈ s.faults ∧ f.asid ≠ cf s.mailbox.cmd 13 2) ∧
    ((∀ f ∈ s.faults, f.asid ≠ cf s.mailbox.cmd 13 2) → t = { s with sys := t.sys, mailbox := t.mailbox })) ∧
  (∀ s (x : Instr × TlbKind), s.memOk → s.mbAt 6 → x ∈ [(Instr.mailboxTlbinvAll, TlbKind.all), (.mailboxTlbinvAsid, .asid), (.mailboxTlbinvPage, .page)] →
    cf s.mailbox.cmd 8 1 = (match x.2 with | .all => 0 | .asid => 1 | .page => 2) → s.mailbox.inv = none →
    ∃ t, exec x.1 s = .next t ∧ t = { s with sys := t.sys, mailbox := t.mailbox, cores := t.cores } ∧
      (∀ k c, s.core? k = some c → ∃ c', t.core? k = some c' ∧ c' = { c with tlb := c'.tlb } ∧ ∀ e, e ∈ c'.tlb ↔ e ∈ c.tlb ∧ (match x.2 with
        | .all => False
        | .asid => e.asid ≠ cf s.mailbox.cmd 10 2
        | .page => ¬(e.asid = cf s.mailbox.cmd 10 2 ∧ (e.pte.getLsbD 1 = false ∨ e.vpath = cf s.mailbox.cmd 16 8 % 2 ^ 57 / 2 ^ levelShift e.level)))) ∧
      (s.xfers = [] → s.dones = [] → (∀ n, s.cmdLive n = false) → Answered s .ok [] t)) ∧
  (∀ (s : State) j, j < 8 → s.barRead (0x4028 + j) = BitVec.ofNat 8 (s.bootWord / 2 ^ (8 * j) % 256)) ∧
  (∀ (s : State) off, s.onlyBoot = true → ¬(0x4028 ≤ off ∧ off < 0x4030) → s.barRead off = 0#8) ∧
  (∀ (s : State) off, s.onlyBoot = false → (off < 0x4000 → s.barRead off = s.mailbox.slots.read off) ∧ (0x4030 ≤ off → s.barRead off = 0#8) ∧
    (∀ j, j < 8 → (off = 0x4000 + j → s.barRead off = BitVec.ofNat 8 (s.mailbox.head.toNat / 2 ^ (8 * j))) ∧
      (off = 0x4008 + j → s.barRead off = BitVec.ofNat 8 (s.mailbox.tail.toNat / 2 ^ (8 * j))) ∧
      (off = 0x4010 + j → s.barRead off = BitVec.ofNat 8 (s.mailbox.rspBase / 2 ^ (8 * j))) ∧
      (off = 0x4018 + j → s.barRead off = BitVec.ofNat 8 (s.mailbox.evBase / 2 ^ (8 * j))) ∧
      (off = 0x4020 + j → s.barRead off = BitVec.ofNat 8 (s.mailbox.evIdx / 2 ^ (8 * j)))))

/-- A trap of a thread in a handler, or a second expiry of the watchdog, kills the team (R335). -/
def Obligations.SecondTrapKillsTheTeam : Prop :=
  (∀ (s : State) (team : Nat) x tids cause kind tpc taddr (u : Thread), s.team? team = some x → u ∈ s.threads → u.team = team → u.tid ∈ tids → u.hasExited = false → u.inHandler = true →
    ∀ (tid : Nat) (u' : Thread), (s.takeTrap team tids cause kind tpc taddr).thread? team tid = some u' → u'.hasExited = true) ∧
  (∀ s team x, s.team? team = some x → s.wdogExpired x = true → x.wdogAgain = true →
    ∃ t, exec (.watchdogExpiry team) s = .next t ∧ ∀ (tid : Nat) (u' : Thread), t.thread? team tid = some u' → u'.hasExited = true) ∧
  (∀ s c h code p, Seated s c → (Instr.trap h code).wf = true → p ∈ c.parts h → p.inHandler = true →
    ∃ t, exec (.trap h code) s = .next t ∧ ∀ (tid : Nat) (u' : Thread), t.thread? c.grp.team tid = some u' → u'.hasExited = true)

/-- A team of a kernel without a spill stack takes no stack slot (R354). -/
def Obligations.NoStackTakesNoSlot : Prop :=
  (∀ (s : State) (w : Waiting) (core n : Nat), w.saved = none → w.launch.kernel.stack = 0 → s.fitsOn { w with launch := { w.launch with stkSlots := n } } core = s.fitsOn w core) ∧
  (∀ (s : State) (w : Waiting) (core : Nat) hs bs st slot wish, s.nextPlaced = some (w, core) → w.saved = none → w.launch.kernel.stack = 0 → s.power.gating.contains (quadOf core) = false →
    s.power.gated.contains (quadOf core) = false → s.fitsOn w core = some (hs, bs, st) → lowestFree (s.slotsUsed core) Config.teamSlots = some slot →
    ∃ t x, exec (.teamPlacement wish) s = .next t ∧ t.teams = s.teams ++ [x] ∧ x.launch = w.launch.key ∧ x.index = w.index ∧ x.place = .resident core slot ∧ x.stackSlot = none)

/-- A step runs the instruction that the word decodes to (R27, R28, R36, R67, R87, R88, R95, R100). -/
def Obligations.StepRunsTheDecodedInstruction : Prop :=
  (∀ s core port rest k g w i S, s.agenda = .issue core port :: rest → s.power.powered = true → s.power.tripped = false → s.issuedNow core = false → s.core? core = some k → (k.port port).group = some g → (k.port port).tile = none →
    (∀ m ∈ g.members, ∀ u, s.thread? g.team m = some u → u.fence = none ∧ ∀ p ∈ u.pend, p.left = 0 → p.value.isSome = true) → g.words[g.slot]? = some w → decodeWord w = .ok i →
    S = ({ s with agenda := rest, cur := { core := core, port := port } } : State).commitDue g → S.outranked core port i = false →
    step s = marked core (exec i S) ∧
    ((∀ m ∈ g.members, ∀ u, s.thread? g.team m = some u → ∀ p ∈ u.pend, p.left ≠ 0) → S = { s with agenda := rest, cur := { core := core, port := port } })) ∧
  (∀ core (t : State), marked core (.next t) = .next { t with cores := (t.markIssued core).cores } ∧
    ∀ n c, t.core? n = some c → (t.markIssued core).core? n = some (if n = core then { c with issuedAt := t.clk + 1 } else c)) ∧
  (∀ s core rest k g w i, s.agenda = .issueBoth core :: rest → s.power.powered = true → s.power.tripped = false → s.issuedNow core = false → s.core? core = some k → k.port0.group = some g → k.port0.tile = none → k.port1.group = none → k.port1.tile = none →
    (∀ m ∈ g.members, ∀ u, s.thread? g.team m = some u → u.fence = none ∧ ∀ p ∈ u.pend, p.left ≠ 0) → g.words[g.slot]? = some w → decodeWord w = .ok i →
    ∀ t, exec i { s with agenda := rest, cur := { core := core, port := 0 } } = .next t → (∀ x, t.core? core = some x → x.port1.group = none ∧ x.port1.tile = none) →
    step s = .next (({ t with cur := { core := core, port := 1 } } : State).markIssued core)) ∧
  (∀ s core rest i j S T t u, s.agenda = .issueBoth core :: rest → s.power.powered = true → s.issuedNow core = false → State.prepare { s with agenda := rest } core 0 = .go i S → S.prepare core 1 = .go j T →
    (T.unitMeets core i j = true → step s = marked core (if s.clk % 2 = 0 then exec i { T with cur := { core := core, port := 0 } } else exec j T)) ∧
    (T.unitMeets core i j = false → T.firstPort i j = 0 → exec i { T with cur := { core := core, port := 0 } } = .next t → t.groupAt core 1 = T.groupAt core 1 →
      exec j { t with cur := { core := core, port := 1 }, shadow := some T.snapshot } = .next u → step s = .next (({ u with shadow := none } : State).markIssued core))) ∧
  (∀ s e rest, s.agenda = .event e :: rest → s.power.powered = true → e.isEvent = true → step s = exec e { s with agenda := rest }) ∧
  (∀ (s : State) k w i, s.memOk → s.power.minimal = false → s.shadow = none → s.core? 0 = some k → decodeWord w = .ok i → ∃ t u c, step (s.withFetchWord 64 w.toNat) = marked 0 (exec i t) ∧
    t = { (s.withFetchWord 64 w.toNat) with agenda := [], cur := { core := 0, port := 0 } } ∧ t.threads = [u] ∧ u.clause = some c ∧ u.pc = c.hdrAddr + 8#57 ∧ t.ctx?.map (·.pc) = some u.pc ∧
    t.codeWord 0 0 u.pc = some w)

/-- Words of the spec's encoding examples decode to their instructions (R75, R78, R82, R85, R86, R93, R101, R107, R127, R171, R184, R206). -/
def Obligations.WordsDecodeAsTheSpecWritesThem : Prop :=
  decodeWord 0x003C060100000064#64 = .ok (.iaddVl ⟨false, false, 7⟩ (.v 3) (.v 1) 100#32) ∧
  decodeWord 0x00380000200C05FF#64 = .ok (.iadd ⟨false, false, 7⟩ ⟨.i32, false, false, false, false, false⟩ (.v 4) (.v 3) (.v 2)) ∧
  decodeWord 0x1538108FF812A1FF#64 = .ok (.icmp ⟨false, false, 7⟩ ⟨.i32, 2, false, 1⟩ .none (.v 4) (.int 0) .none) ∧
  decodeWord 0x20399000A81761FF#64 = .ok (.fadd ⟨false, false, 7⟩ ⟨.f32, .rz, false, false, false, false, false, false⟩ (.v 21) (.v 5) (.flt 0)) ∧
  decodeWord 0x383800001006A9FF#64 = .ok (.xchg ⟨false, false, 7⟩ .i32 .xor (.v 2) (.v 1) (.int 4)) ∧
  decodeWord 0x60388800A01BFE02#64 = .ok (.ld ⟨false, false, 7⟩ ⟨1, .relaxed, .team, false⟩ .b32 (.v 20) (.v 6) 2#9) ∧
  decodeWord 0x80380A005023FFFF#64 = .ok (.cpy ⟨false, false, 7⟩ 2 .m2s false (.v 10) (.v 8) (some 2)) ∧
  decodeWord 0xA0B8000007FEE170#64 = .ok (.tcfg ⟨true, false, 7⟩ 0 .e4 .none (.int 32) (.int 32)) ∧
  decodeWord 0xD00803FFFF000007#64 = .ok (.bra ⟨false, false, 1⟩ 7#24) ∧
  decodeWord 0xF1B80029FF000010#64 = .ok (.csrwr ⟨true, false, 7⟩ (.v 20) 0x010#12) ∧
  decodeWord 0x1C38000000000000#64 = .error .illegalOp ∧
  decodeWord 0x003B8000200C05FF#64 = .error .illegalOperand ∧
  decodeWord 0x00398000200C05FF#64 = .error .illegalOperand ∧
  decodeWord 0xD00807FFFF000007#64 = .error .illegalOp

/-- The encoder and the decoder are inverse to each other (R75, R78, R81, R82, R85, R86, R93, R95). -/
def Obligations.EncodeAndDecodeAgree : Prop :=
  (∀ i : Instr, i.wf = true → i.isEvent = false → decodeWord (encode i) = .ok i) ∧
  (∀ w i, decodeWord w = .ok i → encode i = w ∧ i.wf = true ∧ i.isEvent = false)

/-- Every step keeps every memory in its canonical form, and the special and barrier registers within their bounds (R9, R166, R247, R314, R148, R242, R243). -/
def Obligations.StepKeepsMemoriesCanonical : Prop :=
  (∀ s t, s.memOk → step s = .next t → t.memOk) ∧
  (∀ s t, s.regsOk → step s = .next t → t.regsOk)

/-- The state after reset: the spec's values and the invariants (R10, R242, R246, R305, R390). -/
def Obligations.ResetState : Prop :=
  State.reset.memOk ∧ State.reset.regsOk ∧ State.reset.allLive ∧ State.reset.launches = [] ∧ State.reset.teams = [] ∧ State.reset.groups = [] ∧ State.reset.threads = [] ∧ State.reset.loads = [] ∧
  State.reset.xfers = [] ∧ State.reset.tileOps = [] ∧ State.reset.cores.length = 128 ∧ (∀ k ∈ State.reset.cores, k.port0.group = none ∧ k.port1.group = none ∧ k.waiting = [] ∧ k.bins = [] ∧ k.locks = [] ∧ k.tlb = []) ∧
  State.reset.clk = 0 ∧ State.reset.power.ready = 0#22 ∧ State.reset.power.stage = 0 ∧ State.reset.resil = 0#32 ∧ State.reset.trctl = 0#32 ∧ State.reset.nmwin = 256 ∧ State.reset.faultRetryMax = 16#32

/-- CVT, CVTPK, CVTX and QENC: the converted elements and the launch's conversion counters (R119, R120, R121, R123, R61, R62, R63). -/
def Obligations.ConversionResults : Prop :=
  (∀ h m d a sc mg, ConvOf (.cvt h m d a sc mg) h d (Ty.words m.tyd) [(d, Ty.words m.tyd), (a, Ty.words m.tys), (sc, 1), (mg, 1)]
    (fun c p => (cvtBits m c.ftz (c.src p m.tys a) (c.srcOpt p .f32 sc) (c.src p m.tyd mg)).2)
    (fun c p e => e.shape m.tyd ∧ ∀ i, i < m.tyd.count → e.elem m.tyd i =
      if m.tyd.isPacked = false ∨ i = m.ei.val then (CvtElement c p m a sc).bits else c.elem p m.tyd mg i)) ∧
  (∀ h tyd rm sat hi d a b mg, ConvOf (.cvtpk h tyd rm sat hi d a b mg) h d 1 [(d, 1), (a, 1), (b, 1), (mg, 1)]
    (fun c p => (cvElem tyd rm sat c.ftz (cvSrc .f32 c.ftz (c.src p .f32 a)).1 (cvSrc .f32 c.ftz (c.src p .f32 a)).2).count.add
      (cvElem tyd rm sat c.ftz (cvSrc .f32 c.ftz (c.src p .f32 b)).1 (cvSrc .f32 c.ftz (c.src p .f32 b)).2).count)
    (fun c p e => e.shape tyd ∧ ∀ i, i < tyd.count → e.elem tyd i =
      if i = (if hi then 2 else 0) then (cvElem tyd rm sat c.ftz (cvSrc .f32 c.ftz (c.src p .f32 a)).1 (cvSrc .f32 c.ftz (c.src p .f32 a)).2).bits
      else if i = (if hi then 3 else 1) then (cvElem tyd rm sat c.ftz (cvSrc .f32 c.ftz (c.src p .f32 b)).1 (cvSrc .f32 c.ftz (c.src p .f32 b)).2).bits
      else c.elem p tyd mg i)) ∧
  (∀ h tys rm sat tyd hi d a, ConvOf (.cvtx h tys rm sat tyd hi d a) h d 1 [(d, 1), (a, 1)]
    (fun c p => (cvElem tyd rm sat c.ftz (cvSrc tys c.ftz (c.elem p tys a (if hi then 2 else 0))).1 (cvSrc tys c.ftz (c.elem p tys a (if hi then 2 else 0))).2).count.add
      (cvElem tyd rm sat c.ftz (cvSrc tys c.ftz (c.elem p tys a (if hi then 3 else 1))).1 (cvSrc tys c.ftz (c.elem p tys a (if hi then 3 else 1))).2).count)
    (fun c p e => e.shape tyd ∧ ∀ i, i < 2 → e.elem tyd i =
      (cvElem tyd rm sat c.ftz (cvSrc tys c.ftz (c.elem p tys a (i + if hi then 2 else 0))).1 (cvSrc tys c.ftz (c.elem p tys a (i + if hi then 2 else 0))).2).bits)) ∧
  (∀ h (j : Fin 8) d a sg mg, ConvOf (.qenc h j d a sg mg) h d 1 [(d, 1), (a, 1), (sg, 1), (mg, 1)]
    (fun c p => (qencBits c.ftz j.val (c.src p .f32 a) (c.src p .f32 sg) (c.src p .q4x8 mg)).2)
    (fun c p e => e.shape .q4x8 ∧ ∀ i, i < 8 → e.elem .q4x8 i =
      if i = j.val then (q4Encode (cvSrc .f32 c.ftz (c.src p .f32 a)).1 (cvSrc .f32 c.ftz (c.src p .f32 sg)).1).1 else c.elem p .q4x8 mg i))

/-- QDEC: a Q4 code times its scale, rounded once (R122, R48). -/
def Obligations.QuantDecodeResults : Prop :=
  (∀ s c h tyd rm (j : Fin 8) d a sc, Seated s c → (Instr.qdec h tyd rm j d a sc).wf = true → c.fits [(d, 1), (a, 1), (sc, 1)] →
    Completes (.qdec h tyd rm j d a sc) s c h d 1 [] (fun p e => ElemResult tyd (fun i =>
      ((fltFmt tyd).ofVal rm false c.ftz (Val.mul (q4Val (c.elem p .q4x8 a (if tyd = .f32 then j.val else 2 * j.val + i)))
        (if sc = .none then .fin false 1 0 else (cvSrc .f32 c.ftz (c.src p .f32 sc)).1))).bits) e)) ∧
  (∀ s c h d a lit, Seated s c → (Instr.qdecVl h d a lit).wf = true → c.fits [(d, 1), (a, 1)] →
    Completes (.qdecVl h d a lit) s c h d 1 [] (fun p e => ElemResult .f32 (fun _ =>
      (fmtF32.ofVal .rn false c.ftz (Val.mul (q4Val (c.elem p .q4x8 a 0)) (cvSrc .f32 c.ftz lit.toNat).1)).bits) e)) ∧
  (∀ k, k < 16 → q4Val k = .fin (decide (q4Level k < 0)) (q4Level k).natAbs (-7))

/-- XCHG, XPERM and XBCAST: the value of the named position, or the own value (R126, R127, R128, R129). -/
def Obligations.LaneExchangeResults : Prop :=
  (∀ s c h ty mode d a m, Seated s c → (Instr.xchg h ty mode d a m).wf = true → c.fits [(d, Ty.words ty), (a, Ty.words ty), (m, 1)] →
    Completes (.xchg h ty mode d a m) s c h d (Ty.words ty) [] (fun p e => e.shape ty ∧
      ExchangeValue c h mode p ((c.val p m).toNat % 64) (fun x => c.src x ty a) (wordsNat e.words))) ∧
  (∀ s c h d a lit, Seated s c → (Instr.xchgVl h d a lit).wf = true → c.fits [(d, 1), (a, 1)] →
    Completes (.xchgVl h d a lit) s c h d 1 [] (fun p e => e.shape .i32 ∧
      ExchangeValue c h .xor p (lit.toNat % 64) (fun x => c.src x .i32 a) (wordsNat e.words))) ∧
  (∀ s c h ty d a x, Seated s c → (Instr.xperm h ty d a x).wf = true → c.fits [(d, Ty.words ty), (a, Ty.words ty), (x, 1)] →
    Permutes (.xperm h ty d a x) s c h d (Ty.words ty) (fun p => s.pattern c ((c.val p x).toNat % 64)) (fun p e =>
      PermuteValue c h (s.pattern c ((c.val p x).toNat % 64)) p (fun y => c.src y ty a) ty e)) ∧
  (∀ s c h d a lit, Seated s c → (Instr.xpermVl h d a lit).wf = true → c.fits [(d, 1), (a, 1)] →
    Permutes (.xpermVl h d a lit) s c h d 1 (fun _ => s.pattern c (lit.toNat % 64)) (fun p e =>
      PermuteValue c h (s.pattern c (lit.toNat % 64)) p (fun y => c.src y .i32 a) .i32 e)) ∧
  (∀ s c h ty d a q, Seated s c → (Instr.xbcast h ty d a q).wf = true → c.fits [(d, Ty.words ty), (a, Ty.words ty), (q, 1)] →
    Completes (.xbcast h ty d a q) s c h d (Ty.words ty) [] (fun p e => e.shape ty ∧
      ∀ lead, (c.parts h).head? = some lead →
        TakenFrom c h p ((c.val lead q).toNat % 64) (fun x => c.src x ty a) (wordsNat e.words))) ∧
  (∀ s c h d a lit, Seated s c → (Instr.xbcastVl h d a lit).wf = true → c.fits [(d, 1), (a, 1)] →
    Completes (.xbcastVl h d a lit) s c h d 1 [] (fun p e => e.shape .i32 ∧
      TakenFrom c h p (lit.toNat % 64) (fun x => c.src x .i32 a) (wordsNat e.words)))

/-- XRED, XSCAN, XBALLOT and XMATCH (R130, R131, R132, R133). -/
def Obligations.LaneReductionResults : Prop :=
  (∀ s c h m d a, Seated s c → (Instr.xred h m d a).wf = true → c.fits [(d, 1), (a, 1)] →
    Completes (.xred h m d a) s c h d 1 [] (fun _ e =>
      e.isWord (BitVec.ofNat 32 (foldBits m c.ftz false ((c.parts h).map (fun x => c.src x m.ty a)))) ∧
      (m.op = 0 → m.ty ≠ .f32 → m.sat = false →
        e.isWord (((c.parts h).map (fun x => BitVec.ofNat 32 (c.src x m.ty a))).sum)))) ∧
  (∀ s c h m d a f, Seated s c → (Instr.xscan h m d a f).wf = true → c.fits [(d, 1), (a, 1), (f, 1)] →
    Completes (.xscan h m d a f) s c h d 1 [] (fun p e => ScanValue c h m (fun x => f ≠ .none ∧ c.val x f ≠ 0#32) (fun x => c.src x m.ty a) p e)) ∧
  (∀ s c h d a lit, Seated s c → (Instr.xscanVl h d a lit).wf = true → c.fits [(d, 1), (a, 1)] →
    Completes (.xscanVl h d a lit) s c h d 1 [] (fun p e =>
      ScanValue c h { ty := .i32, rm := .rn, sat := false, exc := false, op := 0 } (fun _ => lit ≠ 0#32) (fun x => c.src x .i32 a) p e)) ∧
  (∀ s c h count d a, Seated s c → (Instr.xballot h count d a).wf = true → c.fits [(d, if count then 1 else 2), (a, 1)] →
    Completes (.xballot h count d a) s c h d (if count then 1 else 2) [] (fun _ e =>
      if count then e.isWord (BitVec.ofNat 32 ((c.parts h).filter (fun x => c.val x a != 0#32)).length)
      else e.shape .i64 ∧ PosMask c h (fun x => c.val x a ≠ 0#32) (wordsNat e.words))) ∧
  (∀ s c h ty low d a, Seated s c → (Instr.xmatch h ty low d a).wf = true → c.fits [(d, if low then 1 else 2), (a, Ty.words ty)] →
    Completes (.xmatch h ty low d a) s c h d (if low then 1 else 2) [] (fun p e =>
      if low then ∃ x ∈ c.parts h, c.src x ty a = c.src p ty a ∧ e.isWord (BitVec.ofNat 32 (c.pos x)) ∧
        ((c.parts h).Pairwise (fun y z => c.pos y ≤ c.pos z) → ∀ y ∈ c.parts h, c.src y ty a = c.src p ty a → c.pos x ≤ c.pos y)
      else e.shape .i64 ∧ PosMask c h (fun x => c.src x ty a = c.src p ty a) (wordsNat e.words)))

/-- XREAD and XWRITE: a register of a thread of the same home group (R134, R135). -/
def Obligations.HomeGroupAccessResults : Prop :=
  (∀ s c h d a q, Seated s c → (Instr.xread h d a q).wf = true → c.fits [(d, 1), (a, 1), (q, 1)] →
    Completes (.xread h d a q) s c h d 1 [] (fun p e => e.isWord (match s.sibling c p ((c.val p q).toNat % 64) with
      | some x => c.val x a
      | none => c.val p a))) ∧
  (∀ s c h d a lit, Seated s c → (Instr.xreadVl h d a lit).wf = true → c.fits [(d, 1), (a, 1)] →
    Completes (.xreadVl h d a lit) s c h d 1 [] (fun p e => e.isWord (match s.sibling c p (lit.toNat % 64) with
      | some x => c.val x a
      | none => c.val p a))) ∧
  (∀ s c h d b q, Seated s c → (Instr.xwrite h d b q).wf = true → c.fits [(d, 1), (b, 1), (q, 1)] →
    ∃ t, exec (.xwrite h d b q) s = .next t ∧ CrossWritten s c h d (fun p => (c.val p q).toNat % 64) (fun p => c.val p b) t) ∧
  (∀ s c h d b lit, Seated s c → (Instr.xwriteVl h d b lit).wf = true → c.fits [(d, 1), (b, 1)] →
    ∃ t, exec (.xwriteVl h d b lit) s = .next t ∧ CrossWritten s c h d (fun _ => lit.toNat % 64) (fun p => c.val p b) t)

/-- LD, LDK, ATOM, RED, CAS and PROBE: one access for each executing participant enters the scratch pipeline (R166, R171, R172, R174, R175, R177, R179, R70, R87). -/
def Obligations.LoadsIssue : Prop :=
  (∀ s c h m sz d base ofs loc, Seated s c → (Instr.ld h m sz d base ofs).wf = true → c.fits [(d, sz.words), (base, 1)] →
    (∀ p ∈ c.actors h, s.checkScratch c p (effAddr (c.val p base) ofs sz.bytes) sz.bytes sz.bytes true false = .ok (loc p)) →
    (∀ p ∈ c.parts h, p.ldcnt < 255) →
    ∃ t, exec (.ld h m sz d base ofs) s = .next t ∧ (∀ p ∈ c.actors h, (loc p).addr = effAddr (c.val p base) ofs sz.bytes) ∧
      AccessIssued s c h { size := sz.bytes, words := sz.words, la := m.la.val, op := none, cas := false, probe := false, stk := false, red := false, ord := m.ord, scope := m.sc, rmt := m.rmt } d loc (fun _ => []) (fun _ => []) t) ∧
  (∀ s c h la sz d base ofs loc, Seated s c → (Instr.ldk h la sz d base ofs).wf = true → c.fits [(d, sz.words), (base, 1)] →
    (∀ p ∈ c.actors h, s.checkStack c p (effAddr (c.val p base) ofs sz.bytes) sz.bytes = .ok (loc p)) → (∀ p ∈ c.parts h, p.ldcnt < 255) →
    ∃ t, exec (.ldk h la sz d base ofs) s = .next t ∧
      (∀ p ∈ c.actors h, (loc p).space = .dsm ∧ (loc p).addr = c.launch.stkBase + c.team.stackSlot.getD 0 * (1024 * c.launch.kernel.stack) +
        p.stackIdx * c.launch.kernel.stack + effAddr (c.val p base) ofs sz.bytes) ∧
      AccessIssued s c h { size := sz.bytes, words := sz.words, la := la.val, op := none, cas := false, probe := false, stk := true, red := false, ord := .relaxed, scope := .team, rmt := false } d loc (fun _ => []) (fun _ => []) t) ∧
  (∀ s c h m op d base data ofs loc, Seated s c → (Instr.atom h m op d base data ofs).wf = true →
    c.fits [(d, Aop.nwords op), (base, 1), (data, Aop.nwords op)] →
    (∀ p ∈ c.actors h, s.checkScratch c p (effAddr (c.val p base) ofs (Aop.bytes op)) (Aop.bytes op) (Aop.bytes op) true true = .ok (loc p)) →
    (∀ p ∈ c.parts h, p.ldcnt < 255) → s.nmWait c h m.ord m.sc = false →
    ∃ t, exec (.atom h m op d base data ofs) s = .next t ∧ (∀ p ∈ c.actors h, (loc p).addr = effAddr (c.val p base) ofs (Aop.bytes op)) ∧
      AccessIssued s c h { size := Aop.bytes op, words := Aop.nwords op, la := m.la.val, op := some op, cas := false, probe := false, stk := false, red := false, ord := m.ord, scope := m.sc, rmt := m.rmt } d loc (fun p => c.aopData p op data) (fun _ => []) t) ∧
  (∀ s c h m op base data ofs loc, Seated s c → (Instr.red h m op base data ofs).wf = true →
    c.fits [(base, 1), (data, Aop.nwords op)] →
    (∀ p ∈ c.actors h, s.checkScratch c p (effAddr (c.val p base) ofs (Aop.bytes op)) (Aop.bytes op) (Aop.bytes op) true true = .ok (loc p)) →
    (∀ p ∈ c.parts h, p.stcnt < 255) → s.nmWait c h m.ord m.sc = false →
    ∃ t, exec (.red h m op base data ofs) s = .next t ∧ (∀ p ∈ c.actors h, (loc p).addr = effAddr (c.val p base) ofs (Aop.bytes op)) ∧
      AccessIssued s c h { size := Aop.bytes op, words := 0, la := 0, op := some op, cas := false, probe := false, stk := false, red := true, ord := m.ord, scope := m.sc, rmt := false } .none loc (fun p => c.aopData p op data) (fun _ => []) t) ∧
  (∀ s c h m sz d base data cmp loc, Seated s c → (Instr.cas h m sz d base data cmp).wf = true →
    c.fits [(d, sz.words), (base, 1), (data, sz.words), (cmp, sz.words)] →
    (∀ p ∈ c.actors h, s.checkScratch c p (c.val p base).toNat sz.bytes sz.bytes true true = .ok (loc p)) →
    (∀ p ∈ c.parts h, p.ldcnt < 255) → s.nmWait c h m.ord m.sc = false →
    ∃ t, exec (.cas h m sz d base data cmp) s = .next t ∧ (∀ p ∈ c.actors h, (loc p).addr = (c.val p base).toNat) ∧
      AccessIssued s c h { size := sz.bytes, words := sz.words, la := m.la.val, op := none, cas := true, probe := false, stk := false, red := false, ord := m.ord, scope := m.sc, rmt := m.rmt } d loc (fun p => c.data p sz.words data) (fun p => c.data p sz.words cmp) t) ∧
  (∀ s c h m d base ofs loc, Seated s c → (Instr.probe h m d base ofs).wf = true → c.fits [(d, 1), (base, 1)] →
    (∀ p ∈ c.actors h, effAddr (c.val p base) ofs 128 % 128 = 0 ∧ s.scratch c.launch p.team (effAddr (c.val p base) ofs 128) 1 = .ok (loc p)) →
    (∀ p ∈ c.parts h, p.ldcnt < 255) →
    ∃ t, exec (.probe h m d base ofs) s = .next t ∧ (∀ p ∈ c.actors h, (loc p).addr = effAddr (c.val p base) ofs 128) ∧
      AccessIssued s c h { size := 0, words := 1, la := m.la.val, op := none, cas := false, probe := true, stk := false, red := false, ord := m.ord, scope := m.sc, rmt := false } d loc (fun _ => []) (fun _ => []) t)

/-- ST and STK: one store for each executing participant enters its thread's store buffer, and memory is as before (R172, R173, R174, R183, R300). -/
def Obligations.StoresIssue : Prop :=
  (∀ s c h m sz base data ofs loc, Seated s c → (Instr.st h m sz base data ofs).wf = true → c.fits [(base, 1), (data, sz.words)] →
    (∀ p ∈ c.actors h, s.checkScratch c p (effAddr (c.val p base) ofs sz.bytes) sz.bytes sz.bytes false true = .ok (loc p)) →
    (∀ p ∈ c.parts h, p.stcnt < 255) → (∀ p ∈ c.actors h, p.bufferUse < 32) → s.nmWait c h m.ord m.sc = false →
    ∃ t, exec (.st h m sz base data ofs) s = .next t ∧ (∀ p ∈ c.actors h, (loc p).addr = effAddr (c.val p base) ofs sz.bytes) ∧
      StoreIssued s c h m.ord.isRelease false m.sc loc (fun p => (bytesOfWords (c.data p sz.words data)).take sz.bytes) t) ∧
  (∀ s c h sz base data ofs loc, Seated s c → (Instr.stk h sz base data ofs).wf = true → c.fits [(base, 1), (data, sz.words)] →
    (∀ p ∈ c.actors h, s.checkStack c p (effAddr (c.val p base) ofs sz.bytes) sz.bytes = .ok (loc p)) →
    (∀ p ∈ c.parts h, p.stcnt < 255) → (∀ p ∈ c.actors h, p.bufferUse < 32) →
    ∃ t, exec (.stk h sz base data ofs) s = .next t ∧
      (∀ p ∈ c.actors h, (loc p).space = .dsm ∧ (loc p).addr = c.launch.stkBase + c.team.stackSlot.getD 0 * (1024 * c.launch.kernel.stack) +
        p.stackIdx * c.launch.kernel.stack + effAddr (c.val p base) ofs sz.bytes) ∧
      StoreIssued s c h false true .team loc (fun p => (bytesOfWords (c.data p sz.words data)).take sz.bytes) t)

/-- The checks of one scratch access, in their order, and the place it names (R166, R167, R169, R170, R343). -/
def Obligations.ScratchAccessChecks : Prop :=
  (∀ s c p addr n align rd wr, addr % align ≠ 0 → State.checkScratch s c p addr n align rd wr = .error .misalign) ∧
  (∀ s l team a n, a < 0x10000000 →
    State.scratch s l team a n = if a + n ≤ l.kernel.lsm then .ok { space := .lsm team, addr := a } else .error .scratchRange) ∧
  (∀ s l team a n, 0x10000000 ≤ a → 0 < n → n ≤ 4096 →
    State.scratch s l team a n =
      if (∃ d ∈ List.range 4, 0x10000000 + d * 0x08000000 ≤ a ∧ a < 0x10000000 + d * 0x08000000 + 0x05800000) ∧
         (∃ d ∈ List.range 4, 0x10000000 + d * 0x08000000 ≤ a + n - 1 ∧ a + n - 1 < 0x10000000 + d * 0x08000000 + 0x05800000) then
        (if (∀ b, a ≤ b → b < a + n → ∃ w ∈ l.windows, w.base ≤ b ∧ b < w.base + w.len) ∧ s.inStack a n = false then .ok { space := .dsm, addr := a }
         else .error .protection : Except Cause Loc)
      else .error .scratchRange) ∧
  (∀ s c p addr n align rd l, addr % align = 0 → State.scratch s c.launch c.grp.team addr n = .ok l → s.locked c.core l n = true →
    State.checkScratch s c p addr n align rd true = .error .rangeLock) ∧
  (∀ s c p addr n align rd wr l, State.checkScratch s c p addr n align rd wr = .ok l → l.addr = addr ∧ addr % align = 0)

/-- LOAD_RESULT_ARRIVAL, STORE_PERFORMED and FENCE_COMPLETION: what completing an access changes (R168, R172, R173, R178, R180, R190, R317, R323). -/
def Obligations.AccessesComplete : Prop :=
  (∀ s id o, s.power.tripped = false → s.loads.find? (fun x => x.id == id) = some o → s.loadReady o = true → s.badIn o.loc o.size = false →
    o.op = none → o.cas = false → o.probe = false → o.red = false → o.rmt = false → s.allLive →
    (∀ x ∈ s.threads, x.team = o.team → x.entering = none) →
    ∃ t, exec (.loadResultArrival id) s = .next t ∧ t.loads = s.loads.filter (fun x => x.id != id) ∧ s.sameMemory t ∧
      (∀ team tid x, s.thread? team tid = some x → ∃ x', t.thread? team tid = some x' ∧ x'.v = x.v ∧ x'.p = x.p) ∧ s.sameRows t ∧
      (∀ tid x, s.thread? o.team tid = some x → ∃ x', t.thread? o.team tid = some x' ∧ x'.v = x.v ∧ x'.p = x.p ∧
        (if tid ∈ o.dests then x'.ldcnt = x.ldcnt - 1 ∧ x'.pend = updWhere (fun q => q.id == o.id)
          (fun q => { q with value := some ((s.loadWords o).take q.words) }) x.pend else x'.ldcnt = x.ldcnt ∧ x'.pend = x.pend)) ∧
      ((∀ w ∈ wordsAt o.loc o.size, ∀ x ∈ s.hist, x.loc ≠ w) → 0 < o.size → s.loadWords o = wordsOf (s.memRead o.loc o.size)) ∧
      (∀ w, s.loadWr o w = s.lastWr w ∨ (s.loadWr o w ∈ s.hist ∧ (s.loadWr o w).loc = w ∧
        ∀ x ∈ s.threadsOf o.team o.dests, x.bound w o.id ≤ (s.loadWr o w).stamp))) ∧
  (∀ s id e u k, s.power.tripped = false → s.threads.find? (fun x => x.stores.any (fun e => e.id == id)) = some u → s.thread? u.team u.tid = some u →
    u.stores.find? (fun x => x.id == id) = some e → s.coreOf u.team = some k → s.allLive → e.level = none →
    (e.stk = true ∨ e.loc.space ≠ .dsm) → s.memOk → s.canPerform u e = true →
    ∃ t, exec (.storePerformed id e.target) s = .next t ∧
      (∀ team tid x, s.thread? team tid = some x → ∃ x', t.thread? team tid = some x' ∧ x'.v = x.v ∧ x'.p = x.p) ∧ s.sameRows t ∧
      (∀ tid x, s.thread? u.team tid = some x → ∃ x', t.thread? u.team tid = some x' ∧ x'.v = x.v ∧ x'.p = x.p ∧
        x'.stores = (if tid = u.tid then x.stores.filter (fun y => y.id != e.id) else x.stores) ∧
        x'.stcnt = (if tid ∈ e.takers ∧ u.stores.any (fun y => y.sid == e.sid && y.id != e.id && !y.atLeast y.target) = false then x.stcnt - 1 else x.stcnt)) ∧
      (∀ l, l.space ≠ e.loc.space → t.memRead l 1 = s.memRead l 1) ∧
      (∀ a, ¬(e.loc.addr ≤ a ∧ a < e.loc.addr + e.data.length) → t.memRead { e.loc with addr := a } 1 = s.memRead { e.loc with addr := a } 1) ∧
      ((∀ k, e.loc.space = .lsm k → (s.team? k).isSome = true) → t.memRead e.loc e.data.length = e.data)) ∧
  (∀ s team tid u r, s.power.tripped = false → s.thread? team tid = some u → u.fence = some r →
    if s.fenceDone u r = false then exec (.fenceCompletion team tid) s = .next s
    else ∃ t u', exec (.fenceCompletion team tid) s = .next t ∧ t = { s with threads := t.threads } ∧ t.thread? team tid = some u' ∧
      u' = { u with fence := none, know := u'.know, fences := u'.fences } ∧
      (∀ team' tid', ¬(team' = team ∧ tid' = tid) → t.thread? team' tid' = s.thread? team' tid') ∧
      (r.kind ≠ .engine → r.ord.isRelease = true → ∃ f ∈ u'.fences, f.start = r.before ∧ f.scope = r.scope) ∧
      (r.kind ≠ .engine → r.ord.isAcquire = true → ∀ p ∈ u.reads, p.2.matched p.1 r.scope false team (s.coreOf team) = true →
        ∀ q ∈ p.2.view, ∃ x ∈ u'.know, x.loc = q.1 ∧ x.stamp = q.2 ∧ x.start ≤ r.before) ∧
      (r.kind ≠ .mem → ∀ x ∈ u'.know, x.start ≤ r.before → x.engine ≠ none))

/-- FENCE: every participant is occupied until its fence completes (R178). -/
def Obligations.FencesOccupy : Prop :=
  (∀ s c h kind ord sc, Seated s c → (Instr.fence h kind ord sc).wf = true →
    ∃ t, exec (.fence h kind ord sc) s = .next t ∧ t = { s with threads := t.threads, cores := t.cores } ∧
      ∀ team tid u, s.thread? team tid = some u → ∃ u', t.thread? team tid = some u' ∧ u.sameBut { u' with fence := u.fence } ∧ u'.v = u.v ∧ u'.p = u.p ∧
        (if ∃ p ∈ c.parts h, p.team = team ∧ p.tid = tid then u'.fence = some { kind := kind, ord := ord, scope := sc, before := s.nextId }
         else u'.fence = u.fence)) ∧
  (∀ s core port k g x, s.core? core = some k → (k.port port).group = some g → x ∈ s.membersOf g → x.fence.isSome = true →
    s.issuedNow core = false →
    ∃ t, issue core port s = .next t ∧ t = { s with cur := { core := core, port := port } })

/-- BRA, BRX, CALL and RET: where the participants and the others go (R138, R306, R74, R77). -/
def Obligations.BranchesTaken : Prop :=
  (∀ s c h off, Seated s c → (Instr.bra h off).wf = true → c.grp.hdrAddr.toNat % 8 = 0 →
    BranchTaken (.bra h off) s c h .none 0 (fun _ => wordOffset c.grp.hdrAddr off)) ∧
  (∀ s c h a, Seated s c → (Instr.brx h a).wf = true → c.fits [(a, 2)] → (∀ p ∈ c.parts h, (c.val64 (c.source h p) a).toNat % 8 = 0) →
    BranchTaken (.brx h a) s c h .none 1 (fun p => (c.val64 (c.source h p) a).setWidth 57)) ∧
  (∀ s c h d off, Seated s c → (Instr.call h d off).wf = true → c.fits [(d, 2)] → c.grp.hdrAddr.toNat % 8 = 0 →
    BranchTaken (.call h d off) s c h d 2 (fun _ => wordOffset c.grp.hdrAddr off)) ∧
  (∀ s c h a, Seated s c → (Instr.ret h a).wf = true → c.fits [(a, 2)] → (∀ p ∈ c.parts h, (c.val64 p a).toNat % 8 = 0) →
    BranchTaken (.ret h a) s c h .none 3 (fun p => (c.val64 p a).setWidth 57)) ∧
  (∀ s c h a, Seated s c → (Instr.brx h a).wf = true → c.fits [(a, 2)] → BranchTraps (.brx h a) s c h 1 (fun p => (c.val64 (c.source h p) a).setWidth 57)) ∧
  (∀ s c h a, Seated s c → (Instr.ret h a).wf = true → c.fits [(a, 2)] → BranchTraps (.ret h a) s c h 3 (fun p => (c.val64 p a).setWidth 57))

/-- JOIN and WAITJ: the rejoin entry, parking and release (R141, R142). -/
def Obligations.RejoinEntries : Prop :=
  (∀ s c h (k : Fin 32) off, Seated s c → (Instr.join h k off).wf = true → k.val < c.launch.kernel.join →
    ∃ t, exec (.join h k off) s = .next t ∧ t = { s with threads := t.threads, groups := t.groups, cores := t.cores } ∧
      (∀ team tid u, s.thread? team tid = some u → ∃ u', t.thread? team tid = some u' ∧ u'.v = u.v ∧ u'.p = u.p) ∧
      (∀ team role idx, ¬(team = c.grp.team ∧ role = c.grp.role) → t.hg? team role idx = s.hg? team role idx) ∧
      ∀ idx g, s.hg? c.grp.team c.grp.role idx = some g → k.val < g.rejoin.length → ∃ g', t.hg? c.grp.team c.grp.role idx = some g' ∧
        g' = { g with rejoin := g'.rejoin } ∧ (∀ j, j ≠ k.val → g'.rejoin[j]? = g.rejoin[j]?) ∧ ∃ r r', g.rejoin[k.val]? = some r ∧ g'.rejoin[k.val]? = some r' ∧
        ∀ j, j < 64 → (r'.expected.getLsbD j = true ↔ r.expected.getLsbD j = true ∨ ∃ p ∈ c.parts h, p.hg = idx ∧ p.hidx = j) ∧
          (r'.arrived.getLsbD j = true ↔ r.arrived.getLsbD j = true ∧ ¬∃ p ∈ c.parts h, p.hg = idx ∧ p.hidx = j)) ∧
  (∀ s c h (k : Fin 32), Seated s c → (Instr.waitj h k).wf = true → k.val < c.launch.kernel.join → c.named s →
    (∀ g ∈ s.groups, ∀ r ∈ g.rejoin, r.complete = false) →
    ∃ t, exec (.waitj h k) s = .next t ∧ s.sameMemory t ∧
      (∀ team role idx, ¬(team = c.grp.team ∧ role = c.grp.role) → t.hg? team role idx = s.hg? team role idx) ∧
      (∀ team tid u, s.thread? team tid = some u → ∃ u', t.thread? team tid = some u' ∧ u'.v = u.v ∧ u'.p = u.p) ∧
      (∀ p ∈ c.ths, ∀ g r, s.hg? p.team p.role p.hg = some g → g.rejoin[k.val]? = some r → ∃ u', t.thread? p.team p.tid = some u' ∧
        (if (∃ q ∈ c.parts h, q.team = p.team ∧ q.tid = p.tid) ∧ r.expected.getLsbD p.hidx = true ∧
            (∃ j ∈ List.range 64, r.expected.getLsbD j = true ∧ r.arrived.getLsbD j = false ∧ ¬∃ q ∈ c.parts h, q.hg = p.hg ∧ q.hidx = j)
         then u'.status = .parked (.waitj k.val) else u'.status = .ready)) ∧
      (∀ idx g r, s.hg? c.grp.team c.grp.role idx = some g → g.rejoin[k.val]? = some r → ∃ g' r', t.hg? c.grp.team c.grp.role idx = some g' ∧
        g' = { g with rejoin := g'.rejoin } ∧ (∀ j, j ≠ k.val → g'.rejoin[j]? = g.rejoin[j]?) ∧ g'.rejoin[k.val]? = some r' ∧
        Arrives r.expected r.arrived r'.expected r'.arrived (fun j => ∃ q ∈ c.parts h, q.hg = idx ∧ q.hidx = j)) ∧
      (∀ tid u g r, s.thread? c.grp.team tid = some u → u.role = c.grp.role → u.status = .parked (.waitj k.val) →
        s.hg? c.grp.team c.grp.role u.hg = some g → g.rejoin[k.val]? = some r → (∃ q ∈ c.parts h, q.hg = u.hg ∧ r.expected.getLsbD q.hidx = true) →
        (∀ j, j < 64 → r.expected.getLsbD j = true → r.arrived.getLsbD j = true ∨ ∃ q ∈ c.parts h, q.hg = u.hg ∧ q.hidx = j) →
        ∃ u', t.thread? c.grp.team tid = some u' ∧ u'.status = .ready))

/-- EXIT, YIELD, ELECT, GSIZE and NOP (R71, R74, R139, R140, R144, R152). -/
def Obligations.ControlCompletes : Prop :=
  (∀ s c h, Seated s c → (Instr.exit h).wf = true → c.named s → (∀ g ∈ s.groups, ∀ r ∈ g.rejoin, r.complete = false) →
    (∀ g ∈ s.groups, g.syncM ≠ 0#64 → g.syncM &&& ~~~g.syncA ≠ 0#64) →
    ∃ t, exec (.exit h) s = .next t ∧ t.main = s.main ∧ t.dsm = s.dsm ∧
      (∀ p ∈ c.parts h, ∀ u', t.thread? p.team p.tid = some u' → u'.hasExited = true ∧ u'.pend = []) ∧
      (∀ p ∈ c.ths, ¬c.takesPart h p.team p.tid → ∀ u u', s.thread? p.team p.tid = some u → t.thread? p.team p.tid = some u' →
        u'.v = u.v ∧ u'.p = u.p ∧ u'.status = .ready ∧ ∀ k, u.clause = some k → u'.clause = none ∧ u'.pc = k.next) ∧
      ((∀ p ∈ c.parts h, ∀ u, s.thread? p.team p.tid = some u → u.watchOp = none) →
        ∀ team tid u u', ¬c.takesPart h team tid → s.thread? team tid = some u → t.thread? team tid = some u' →
          u'.v = u.v ∧ u'.p = u.p ∧ (team ≠ c.grp.team → u' = u)) ∧
      (∀ idx g g', s.hg? c.grp.team c.grp.role idx = some g → t.hg? c.grp.team c.grp.role idx = some g' →
        (∀ (k : Nat) (r : Rejoin), g.rejoin[k]? = some r → ∃ r', g'.rejoin[k]? = some r' ∧
          Arrives r.expected r.arrived r'.expected r'.arrived (fun j => ∃ q ∈ c.parts h, q.hg = idx ∧ q.hidx = j)) ∧
        (g.syncM ≠ 0#64 → Arrives g.syncM g.syncA g'.syncM g'.syncA (fun j => ∃ q ∈ c.parts h, q.hg = idx ∧ q.hidx = j)))) ∧
  (∀ s c h, Seated s c → (Instr.yield h).wf = true →
    ∃ t, exec (.yield h) s = .next t ∧ t = { s with threads := t.threads, cores := t.cores } ∧
      (∀ team tid, ¬(team = c.grp.team ∧ tid ∈ c.grp.members) → t.thread? team tid = s.thread? team tid) ∧
      ∀ p ∈ c.ths, ∀ u, s.thread? p.team p.tid = some u → ∃ u', t.thread? p.team p.tid = some u' ∧ u.sameBut u' ∧ u'.v = u.v ∧ u'.p = u.p ∧
        u'.status = .ready ∧ (∀ k, u.clause = some k → u'.clause = none ∧ u'.pc = k.next) ∧
        (c.takesPart h p.team p.tid → u'.yield0 = true ∧ u'.yield1 = true) ∧
        (¬c.takesPart h p.team p.tid → c.grp.hdr.getLsbD 52 = false → u'.yield0 = u.yield0 ∧ u'.yield1 = u.yield1)) ∧
  (∀ s c h (pd : Fin 8) d, Seated s c → (Instr.elect h pd d).wf = true → c.fits [(d, 1)] →
    Completes (.elect h pd d) s c h d 1 [pd.val] (fun p e => ∀ lead, (c.parts h).head? = some lead →
      e = { words := [BitVec.ofNat 32 (c.pos lead)], preds := [(pd.val, p.tid == lead.tid)] })) ∧
  (∀ s c h code, Seated s c → (Instr.gsize h code).wf = true → c.parts h ≠ [] → c.grp.role < c.team.limits.length →
    ∃ t x, exec (.gsize h code) s = .next t ∧ VecDone s c h .none 0 [] (fun _ => { words := [], preds := [] }) { t with teams := s.teams } ∧
      t.team? c.grp.team = some x ∧ x = { c.team with limits := x.limits } ∧ x.limit c.grp.role = 8 * 2 ^ code.val ∧
      (∀ j, j ≠ c.grp.role → x.limit j = c.team.limit j) ∧ (∀ k, k ≠ c.grp.team → t.team? k = s.team? k)) ∧
  (∀ s c h, Seated s c → (Instr.nop h).wf = true → Completes (.nop h) s c h .none 0 [] (fun _ e => e = { words := [], preds := [] }))

/-- After an instruction the group issues its next slot, or its members fall through to the next header (R27, R74, R87). -/
def Obligations.GroupMovesOn : Prop :=
  ∀ s c, Seated s c → ∀ p ∈ c.ths, ∀ u, s.thread? p.team p.tid = some u → ∃ u', s.advance.thread? p.team p.tid = some u' ∧
    u.moved u' c.grp ∧ s.advance.groupAt s.cur.core s.cur.port =
      (if c.grp.slot + 1 < hdrWords c.grp.hdr then some { c.grp with slot := c.grp.slot + 1 } else none)

/-- SYNCM: the members of the mask wait for each other (R145). -/
def Obligations.SyncmParksOrReleases : Prop :=
  (∀ s c h a p g u, Seated s c → (Instr.syncm h a).wf = true → c.fits [(a, 2)] → c.parts h = [p] → s.hg? p.team p.role p.hg = some g →
    s.thread? p.team p.tid = some u → u.role = p.role → u.hg = p.hg → p.hidx < 64 →
    let m := c.val64 p a &&& BitVec.ofNat 64 (2 ^ c.role.gsize - 1)
    let arrived := (if g.syncM = 0#64 then m &&& s.exitedMask g else g.syncA) ||| bit64 p.hidx
    m.getLsbD p.hidx = true → (g.syncM = 0#64 ∨ g.syncM = m) →
    ∃ t u' g', exec (.syncm h a) s = .next t ∧ t.thread? p.team p.tid = some u' ∧ t.hg? p.team p.role p.hg = some g' ∧ s.sameMemory t ∧
      (∀ team tid x, s.thread? team tid = some x → ∃ x', t.thread? team tid = some x' ∧ x'.v = x.v ∧ x'.p = x.p) ∧
      (if m &&& ~~~arrived = 0#64 then g'.syncM = 0#64 ∧ g'.syncA = 0#64 ∧ u'.status = .ready
       else g'.syncM = m ∧ g'.syncA = arrived ∧ u'.status = .parked .syncm)) ∧
  (∀ s c h a (m arr : Nat → DWord), Seated s c → (Instr.syncm h a).wf = true → c.fits [(a, 2)] → c.named s → ((c.parts h).map (fun p => (p.hg, p.hidx))).Nodup →
    (∀ p ∈ c.parts h, c.val64 p a &&& BitVec.ofNat 64 (2 ^ c.role.gsize - 1) = m p.hg ∧ (m p.hg).getLsbD p.hidx = true ∧ (arr p.hg).getLsbD p.hidx = false) →
    (∀ p ∈ c.parts h, ∀ g, s.hg? c.grp.team c.grp.role p.hg = some g → (g.syncM = 0#64 ∨ g.syncM = m p.hg) ∧
      arr p.hg = (if g.syncM = 0#64 then m p.hg &&& s.exitedMask g else g.syncA)) →
    ∃ t, exec (.syncm h a) s = .next t ∧ s.sameMemory t ∧
      (∀ team tid x, s.thread? team tid = some x → ∃ x', t.thread? team tid = some x' ∧ x'.v = x.v ∧ x'.p = x.p) ∧
      (∀ team role idx, ¬(team = c.grp.team ∧ role = c.grp.role ∧ ∃ p ∈ c.parts h, p.hg = idx) → t.hg? team role idx = s.hg? team role idx) ∧
      ∀ idx g, s.hg? c.grp.team c.grp.role idx = some g → (∃ p ∈ c.parts h, p.hg = idx) →
        let all := ∀ j, j < 64 → (m idx).getLsbD j = true → (arr idx).getLsbD j = true ∨ ∃ p ∈ c.parts h, p.hg = idx ∧ p.hidx = j
        (∃ g', t.hg? c.grp.team c.grp.role idx = some g' ∧ g' = { g with syncM := g'.syncM, syncA := g'.syncA } ∧
          Arrives (m idx) (arr idx) g'.syncM g'.syncA (fun j => ∃ p ∈ c.parts h, p.hg = idx ∧ p.hidx = j)) ∧
        (∀ p ∈ c.parts h, p.hg = idx → ∃ u', t.thread? p.team p.tid = some u' ∧ (all → u'.status = .ready) ∧ (¬all → u'.status = .parked .syncm)) ∧
        ∀ tid u, s.thread? c.grp.team tid = some u → u.role = c.grp.role → u.hg = idx → u.status = .parked .syncm →
          ∃ u', t.thread? c.grp.team tid = some u' ∧ (all → u'.status = .ready) ∧ (¬all → u'.status = .parked .syncm)) ∧
  (∀ s c h a, Seated s c → (Instr.syncm h a).wf = true → c.fits [(a, 2)] → c.named s → c.parts h ≠ [] → s.canTrap c.grp.team ((c.parts h).map (·.tid)) →
    (∀ p ∈ c.parts h, ∃ g, s.hg? c.grp.team c.grp.role p.hg = some g ∧
      let m := c.val64 p a &&& BitVec.ofNat 64 (2 ^ c.role.gsize - 1)
      m.getLsbD p.hidx = false ∨ (g.syncM ≠ 0#64 ∧ g.syncM ≠ m)) →
    ∃ t x, exec (.syncm h a) s = .next t ∧ TrapTaken s t c.grp.team ((c.parts h).map (·.tid)) 0x0F .instruction c.pc x ∧ t.main = s.main ∧ t.dsm = s.dsm ∧
      ∀ team role idx g, s.hg? team role idx = some g → ∃ g', t.hg? team role idx = some g' ∧ g' = { g with s := g'.s })

/-- TRAP and BKPT: the participants enter the handler and the other members move on (R156, R332, R334, R336). -/
def Obligations.SoftwareTrapsEnterHandler : Prop :=
  (∀ s c h code, Seated s c → (Instr.trap h code).wf = true → s.canTrap c.grp.team ((c.parts h).map (·.tid)) →
    ∃ t, exec (.trap h code) s = .next t ∧ t.main = s.main ∧ t.dsm = s.dsm ∧
      TrapTaken s t c.grp.team ((c.parts h).map (·.tid)) 0x1E .instruction c.pc (code.setWidth 64) ∧
      ∀ p ∈ c.ths, p.guard h = false → ∃ u u', s.thread? p.team p.tid = some u ∧ t.thread? p.team p.tid = some u' ∧ u.sameBut u' ∧ u'.v = u.v ∧ u'.p = u.p ∧
        u.moved u' c.grp) ∧
  (∀ s c h code, Seated s c → (Instr.bkpt h code).wf = true → s.canTrap c.grp.team ((c.parts h).map (·.tid)) →
    ∃ t, exec (.bkpt h code) s = .next t ∧ t.main = s.main ∧ t.dsm = s.dsm ∧
      TrapTaken s t c.grp.team ((c.parts h).map (·.tid)) 0x1D .instruction c.pc (code.setWidth 64) ∧
      ∀ p ∈ c.ths, p.guard h = false → ∃ u u', s.thread? p.team p.tid = some u ∧ t.thread? p.team p.tid = some u' ∧ u.sameBut u' ∧ u'.v = u.v ∧ u'.p = u.p ∧
        u.moved u' c.grp)

/-- TRET: where a thread goes that returns from its handler (R157, R336). -/
def Obligations.TrapReturns : Prop :=
  (∀ s c h mode, Seated s c → (Instr.tret h mode).wf = true → mode ≠ .kill → (∀ x ∈ s.teams, x.wdogHandling = false) →
    (∀ p ∈ c.parts h, p.inHandler = true ∧ p.watchOp = none ∧ p.tpcKind ≠ .failedHeader ∧ s.thread? p.team p.tid = some p) →
    ∃ t, exec (.tret h mode) s = .next t ∧ t = { s with threads := t.threads, cores := t.cores } ∧
      ∀ p ∈ c.parts h, ∃ u', t.thread? p.team p.tid = some u' ∧ u'.inHandler = false ∧ u'.status = .ready ∧ u'.v = p.v ∧ u'.p = p.p ∧
        (p.tpcKind = .resumeHeader → u'.pc = p.tpc ∧ u'.clause = none) ∧
        (p.tpcKind = .instruction → mode = .retry → u'.pc = p.tpc ∧ u'.clause = p.trapClause) ∧
        (p.tpcKind = .instruction → mode = .skip → ∀ k, p.trapClause = some k →
          u'.pc = p.tpc + 8#57 ∧ u'.clause = (if p.tpc + 8#57 = k.next then none else some k))) ∧
  (∀ s c h p rest, Seated s c → (Instr.tret h .kill).wf = true → c.parts h = p :: rest → (∀ q ∈ c.parts h, q.inHandler = true) →
    ∃ t, exec (.tret h .kill) s = .next t ∧ ∀ tid u, t.thread? c.grp.team tid = some u → u.hasExited = true) ∧
  (∀ s c h mode, Seated s c → (Instr.tret h mode).wf = true → (∃ p ∈ c.parts h, p.inHandler = false) →
    exec (.tret h mode) s = .next (s.trapGroup c .illegalOp none))

/-- BINIT, BARV, BEXP, BINV and BWAIT: the barrier register after each (R137, R146, R147, R148, R149, R151, R353). -/
def Obligations.BarrierInstructions : Prop :=
  (∀ s c h (b : Fin 16) e as p, Seated s c → (Instr.binit h b e).wf = true → c.fits [(e, 1)] → s.acquiring (c.parts h) = false → c.actors h = as ++ [p] →
    (c.team.bar b.val).wait = 0 → (c.team.bar b.val).cpend = 0 → (∀ q ∈ c.actors h, 1 ≤ (c.val q e).toNat ∧ (c.val q e).toNat ≤ 4095) →
    b.val < c.team.bars.length →
    ∃ t, exec (.binit h b e) s = .next t ∧ BarrierOnly s c b.val (fun _ => False) t ∧
      t.bar c.grp.team b.val = { valid := true, ph := false, exp := (c.val p e).toNat, pend := (c.val p e).toNat, cpend := 0, wait := 0, arr := [], view := [], lastView := [], lastAfter := [] }) ∧
  (∀ s c h (b : Fin 16) n, Seated s c → (Instr.bexp h b n).wf = true → c.fits [(n, 1)] → s.acquiring (c.parts h) = false →
    (c.team.bar b.val).valid = true → (c.team.bar b.val).pend + ((c.actors h).map (fun p => (c.val p n).toNat)).sum ≤ 4095 → b.val < c.team.bars.length →
    ∃ t, exec (.bexp h b n) s = .next t ∧ BarrierOnly s c b.val (fun _ => False) t ∧
      t.bar c.grp.team b.val = { c.team.bar b.val with pend := (c.team.bar b.val).pend + ((c.actors h).map (fun p => (c.val p n).toNat)).sum }) ∧
  (∀ s c h (b : Fin 16) n, Seated s c → (Instr.barv h b n).wf = true → c.fits [(n, 1)] → s.acquiring (c.parts h) = false →
    (c.team.bar b.val).valid = true → ((c.actors h).map (fun p => (c.valOr p n 1#32).toNat)).sum < (c.team.bar b.val).pend →
    (c.team.bar b.val).pend ≤ 4095 → b.val < c.team.bars.length →
    ∃ t, exec (.barv h b n) s = .next t ∧ BarrierOnly s c b.val (fun _ => False) t ∧ ∃ arr, t.bar c.grp.team b.val =
      { c.team.bar b.val with pend := (c.team.bar b.val).pend - ((c.actors h).map (fun p => (c.valOr p n 1#32).toNat)).sum, arr := arr }) ∧
  (∀ s c h (b : Fin 16) n, Seated s c → (Instr.barv h b n).wf = true → c.fits [(n, 1)] → s.acquiring (c.parts h) = false →
    (c.team.bar b.val).valid = true → ((c.actors h).map (fun p => (c.valOr p n 1#32).toNat)).sum = (c.team.bar b.val).pend →
    1 ≤ (c.team.bar b.val).pend → (c.team.bar b.val).pend ≤ 4095 → b.val < c.team.bars.length →
    ∃ t, exec (.barv h b n) s = .next t ∧ BarrierOnly s c b.val (fun u => u.team = c.grp.team ∧ u.waitsB b.val = true) t ∧
      (∃ lv la, t.bar c.grp.team b.val = { c.team.bar b.val with
        ph := !(c.team.bar b.val).ph, pend := (c.team.bar b.val).exp, wait := 0, arr := [], view := [], lastView := lv, lastAfter := la }) ∧
      ∀ tid u pd, s.thread? c.grp.team tid = some u → u.status = .parked (.bwait b.val pd) →
        ∃ u', t.thread? c.grp.team tid = some u' ∧ u'.status = .ready ∧ (pd < 7 → u'.pred pd = true) ∧ ∀ q, q ≠ pd → u'.pred q = u.pred q) ∧
  (∀ s c h (b : Fin 16), Seated s c → (Instr.binv h b false).wf = true → c.actors h ≠ [] → s.acquiring (c.parts h) = false →
    (c.team.bar b.val).wait = 0 → (c.team.bar b.val).cpend = 0 → b.val < c.team.bars.length →
    ∃ t, exec (.binv h b false) s = .next t ∧ BarrierOnly s c b.val (fun _ => False) t ∧
      t.bar c.grp.team b.val = { c.team.bar b.val with valid := false }) ∧
  (∀ s c h (b : Fin 16), Seated s c → (Instr.binv h b true).wf = true → c.actors h ≠ [] → s.acquiring (c.parts h) = false → b.val < c.team.bars.length →
    ∃ t, exec (.binv h b true) s = .next t ∧
      BarrierOnly s c b.val (fun u => u.team = c.grp.team ∧ u.waitsB b.val = true)
        { t with xfers := s.xfers, tileOps := s.tileOps, conversions := s.conversions } ∧
      t.bar c.grp.team b.val = { c.team.bar b.val with valid := false, cpend := 0, wait := 0, arr := [], view := [] } ∧
      t.xfers = s.xfers.map (fun o => if o.team = c.grp.team ∧ o.bar = some b.val then { o with arrives := false } else o) ∧
      t.tileOps = s.tileOps.map (fun o => if o.team = c.grp.team ∧ o.bar = some b.val then { o with arrives := false } else o) ∧
      t.conversions = s.conversions.map (fun o => if o.team = c.grp.team ∧ o.bar = b.val then { o with arrives := false } else o) ∧
      ∀ tid u pd, s.thread? c.grp.team tid = some u → u.status = .parked (.bwait b.val pd) →
        ∃ u', t.thread? c.grp.team tid = some u' ∧ u'.status = .ready ∧ (pd < 7 → u'.pred pd = false) ∧ ∀ q, q ≠ pd → u'.pred q = u.pred q) ∧
  (∀ s c h (b : Fin 16) (pd : Fin 8) a, Seated s c → (Instr.bwait h b pd a).wf = true → c.fits [(a, 1)] → c.parts h ≠ [] →
    s.acquiring (c.parts h) = false → (c.team.bar b.val).valid = true → b.val < c.team.bars.length →
    ∃ t, exec (.bwait h b pd a) s = .next t ∧ BarrierOnly s c b.val (fun u => c.takesPart h u.team u.tid) t ∧
      t.bar c.grp.team b.val = { c.team.bar b.val with wait := (c.team.bar b.val).wait +
        ((c.parts h).filter (fun p => (c.team.bar b.val).ph == (c.val p a).getLsbD 0)).length } ∧
      ∀ p ∈ c.parts h, ∃ u u', s.thread? p.team p.tid = some u ∧ t.thread? p.team p.tid = some u' ∧ (∀ q, q ≠ pd.val → u'.pred q = u.pred q) ∧
        (if (c.team.bar b.val).ph = (c.val p a).getLsbD 0 then u'.status = .parked (.bwait b.val pd.val) ∧ u'.p = u.p
         else u'.status = .ready ∧ (pd.val < 7 → u'.pred pd.val = true)))

/-- CSRRD: every control and status register reads as its own state (R158, R241, R242, R244). -/
def Obligations.StatusRegisterReads : Prop :=
  ∀ s c h d n r, Seated s c → (Instr.csrrd h d n).wf = true → Csr.ofNum n.toNat = some r → c.fits [(d, if r.is64 then 2 else 1)] → s.shadow = none →
    Completes (.csrrd h d n) s c h d (if r.is64 then 2 else 1) [] (fun p e => e.preds = [] ∧ e.words.length = (if r.is64 then 2 else 1) ∧
      (r = .tcause → wordsNat e.words = p.tcause % 2 ^ 32) ∧ (r = .tpc → wordsNat e.words = p.tpc.toNat) ∧
      (r = .taddr → wordsNat e.words = p.taddr.toNat) ∧ (r = .tlanes → wordsNat e.words = p.tlanes.toNat) ∧
      (r = .mode → wordsNat e.words = c.team.mode.toNat) ∧ (r = .bktpri → wordsNat e.words = c.team.bktpri.toNat) ∧
      (r = .tvec → wordsNat e.words = (s.asidOf c.launch.asid).tvec.toNat) ∧ (r = .wdog → wordsNat e.words = (s.asidOf c.launch.asid).wdog.toNat) ∧
      (r = .resil → wordsNat e.words = s.resil.toNat) ∧ (r = .trctl → wordsNat e.words = s.trctl.toNat) ∧
      (r = .faultRetryMax → wordsNat e.words = s.faultRetryMax.toNat) ∧ (r = .clk64 → wordsNat e.words = s.clk % 2 ^ 64) ∧
      (r = .cvclim → wordsNat e.words = c.launch.cvclim.toNat) ∧ (r = .cvcsat → wordsNat e.words = c.launch.cvcsat % 2 ^ 32) ∧
      (r = .cvcftz → wordsNat e.words = c.launch.cvcftz % 2 ^ 32) ∧ (r = .cvcnan → wordsNat e.words = c.launch.cvcnan % 2 ^ 32) ∧
      (r = .asid → wordsNat e.words = c.launch.asid % 2 ^ 32) ∧ (r = .ready → wordsNat e.words = s.power.ready.toNat) ∧
      (r = .pacedom → wordsNat e.words = s.power.pacedom.toNat) ∧
      (r = .nmwin → wordsNat e.words = ((if s.power.half then 2 ^ 31 else 0) + s.nmwin) % 2 ^ 32) ∧
      (r = .bootwhy → wordsNat e.words = (s.power.whyStage * 2 ^ 8 + s.power.why) % 2 ^ 32) ∧ (r = .bootcnt → wordsNat e.words = s.power.fails % 2 ^ 32) ∧
      (r = .pace → wordsNat e.words = (s.power.req * 2 ^ 8 + s.power.level) % 2 ^ 32) ∧
      (r = .cdhead → wordsNat e.words = (s.cadence.loopLeft * 2 ^ 8 + s.cadence.head) % 2 ^ 32) ∧
      (r = .cdstate → wordsNat e.words = (s.cadence.errEntry * 2 ^ 24 + s.cadence.cause * 2 ^ 16 + s.cadence.refuse * 2 ^ 8 + s.cadence.wait * 2 ^ 4 + s.cadence.state) % 2 ^ 32) ∧
      (r = .cdbubu → wordsNat e.words = s.cadence.bubu % 2 ^ 64) ∧ (r = .cdbubd → wordsNat e.words = s.cadence.bubd % 2 ^ 64) ∧
      (r = .cdbubs → wordsNat e.words = s.cadence.bubs % 2 ^ 64) ∧ (r = .cdbubx → wordsNat e.words = s.cadence.bubx % 2 ^ 64) ∧
      (r = .qgstate → wordsNat e.words = (s.stopGrp * 2 ^ 16 + (if s.huddleStop then 2 ^ 8 else 0) + s.quorum.length) % 2 ^ 32) ∧
      (r = .rgnwm → wordsNat e.words = (match c.team.rgn with
        | .none => 0
        | .fixed g len => (if g then 2 ^ 30 else 0) + len
        | .entry i => (s.regions.find? (fun x => x.id == i)).elim 0 (fun x => x.state * 2 ^ 30 + x.wm)) % 2 ^ 32) ∧
      (r = .psig → ∀ g, s.hg? p.team p.role p.hg = some g → wordsNat e.words = g.psig.toNat))

/-- CSRWR: only the writable fields of the named register change (R158, R243, R242). -/
def Obligations.StatusRegisterWrites : Prop :=
  (∀ s c h a n r p, Seated s c → (Instr.csrwr h a n).wf = true → Csr.ofNum n.toNat = some r → c.fits [(a, if r.is64 then 2 else 1)] →
    c.actors h = [p] → (r.access = .pw → c.launch.priv = true) → r.access ≠ .ro → r ≠ .tpc →
    ∃ t, exec (.csrwr h a n) s = .next t ∧
      StepsOnly s c h { t with resil := s.resil, trctl := s.trctl, faultRetryMax := s.faultRetryMax, nmwin := s.nmwin, power := s.power,
                               teams := s.teams, asids := s.asids, launches := s.launches, cadence := s.cadence } ∧
      t.resil = (if r = .resil then c.val p a &&& 0xFFFF0003#32 else s.resil) ∧
      t.trctl = (if r = .trctl then c.val p a &&& 0x0000F00F#32 else s.trctl) ∧
      t.faultRetryMax = (if r = .faultRetryMax then c.val p a &&& 0x000000FF#32 else s.faultRetryMax) ∧
      t.nmwin = (if r = .nmwin then max 64 (min 1024 ((c.val p a).toNat % 2 ^ 11)) else s.nmwin) ∧
      t.power = (if r = .pacedom then { s.power with pacedom := c.val p a &&& 0x8000FFFF#32 }
        else if r = .pace ∧ s.power.minimal = false then { s.power with req := (c.val p a).toNat / 2 ^ 8 % 16 } else s.power) ∧
      t.cadence = (if r = .cdbubu then { s.cadence with bubu := (c.val64 p a).toNat } else if r = .cdbubd then { s.cadence with bubd := (c.val64 p a).toNat }
        else if r = .cdbubs then { s.cadence with bubs := (c.val64 p a).toNat } else if r = .cdbubx then { s.cadence with bubx := (c.val64 p a).toNat }
        else s.cadence) ∧
      (∀ k, t.launch? k = (s.launch? k).map (fun x => if k ≠ c.launch.key then x else if r = .cvclim then { x with cvclim := c.val p a }
        else if r = .cvcsat then { x with cvcsat := (c.val p a).toNat } else if r = .cvcftz then { x with cvcftz := (c.val p a).toNat }
        else if r = .cvcnan then { x with cvcnan := (c.val p a).toNat } else x)) ∧
      (∀ k, t.team? k = (s.team? k).map (fun x => if k = c.grp.team ∧ r = .mode then { x with mode := (x.mode &&& 0xFFFFFFFE#32) ||| (c.val p a &&& 1#32) }
        else if k = c.grp.team ∧ r = .bktpri then { x with bktpri := c.val p a &&& 0x0000FFFF#32 } else x)) ∧
      (∀ k, t.asidOf k = if k = c.launch.asid ∧ r = .tvec then { s.asidOf k with tvec := c.val64 p a &&& 0x01FFFFFFFFFFFFF8#64 }
        else if k = c.launch.asid ∧ r = .wdog then { s.asidOf k with wdog := c.val p a &&& 0x0000001F#32 } else s.asidOf k)) ∧
  (∀ s c h a n, Seated s c → (Instr.csrwr h a n).wf = true → Csr.ofNum n.toNat = some .tpc → c.fits [(a, 2)] →
    ∃ t, exec (.csrwr h a n) s = .next t ∧ StepsOnly s c h { t with threads := s.threads } ∧
      (∀ team tid u, s.thread? team tid = some u → ∃ u', t.thread? team tid = some u' ∧ u.sameBut { u' with tpc := u.tpc, tpcKind := u.tpcKind } ∧
        u'.v = u.v ∧ u'.p = u.p ∧ (c.takesPart h team tid ∨ (u'.tpc = u.tpc ∧ u'.tpcKind = u.tpcKind))) ∧
      ∀ p ∈ c.parts h, ∀ u, s.thread? p.team p.tid = some u → ∃ u', t.thread? p.team p.tid = some u' ∧
        u'.tpc = ((c.val64 (c.source h p) a).setWidth 57 &&& 0x1FFFFFFFFFFFFF8#57) ∧ u'.tpcKind = (if u.inHandler = true then .resumeHeader else u.tpcKind))

/-- A privileged instruction of a launch without privilege traps its group with PRIV (R94, R76, R332). -/
def Obligations.PrivilegeChecks : Prop :=
  ∀ s c h a b n (k : Bool) kind r, Seated s c → c.launch.priv = false → (c.parts h).isEmpty = false →
    (c.fits [(a, 2), (b, 1)] → exec (.cdstart h a b) s = .next (s.trapGroup c .priv none)) ∧
    exec (.cdstop h) s = .next (s.trapGroup c .priv none) ∧
    (c.fits [(a, 1)] → exec (.replay h a) s = .next (s.trapGroup c .priv none)) ∧
    (c.fits [(a, 1)] → exec (.cancel h k a) s = .next (s.trapGroup c .priv none)) ∧
    (c.fits [(a, 1), (b, 2)] → exec (.tlbinv h kind a b) s = .next (s.trapGroup c .priv none)) ∧
    (c.fits [(a, 1)] → exec (.preempt h a) s = .next (s.trapGroup c .priv none)) ∧
    (c.fits [(a, 1), (b, 2)] → exec (.mcgset h k a b) s = .next (s.trapGroup c .priv none)) ∧
    (Csr.ofNum n.toNat = some r → r.access = .pw → c.fits [(a, if r.is64 then 2 else 1)] →
      exec (.csrwr h a n) s = .next (s.trapGroup c .priv none))

/-- A trap of the whole group: every member in the handler, and the instruction without effect (R332, R334, R95, R81). -/
def Obligations.GroupTrapsEnterHandler : Prop :=
  (∀ s c cause addr, Seated s c → s.canTrap c.grp.team c.grp.members → ∃ a,
    TrapTaken s (s.trapGroup c cause addr) c.grp.team c.grp.members cause.code .instruction c.pc a ∧
    (∀ x, addr = some x → a = x) ∧ (s.trapGroup c cause addr).main = s.main ∧ (s.trapGroup c cause addr).dsm = s.dsm) ∧
  (∀ s c h m d a b, Seated s c → (∃ o ∈ [(d, Ty.words m.ty), (a, Ty.words m.ty), (b, Ty.words m.ty)], Operand.fits o.1 c.role.regs o.2 = false) →
    exec (.iadd h m d a b) s = .next (s.trapGroup c .illegalOperand none)) ∧
  (∀ s c h m sz d base ofs, Seated s c → (∃ o ∈ [(d, sz.words), (base, 1)], Operand.fits o.1 c.role.regs o.2 = false) →
    exec (.ld h m sz d base ofs) s = .next (s.trapGroup c .illegalOperand none)) ∧
  (∀ s c h a, Seated s c → Operand.fits a c.role.regs 2 = false → exec (.brx h a) s = .next (s.trapGroup c .illegalOperand none))

/-- A misaligned load traps its lane, and no access is made (R167, R172, R332, R334). -/
def Obligations.MisalignedLanesTrap : Prop :=
  ∀ s c h m sz d base ofs p, Seated s c → (Instr.ld h m sz d base ofs).wf = true → c.fits [(d, sz.words), (base, 1)] → c.ths = [p] → c.parts h = [p] →
    c.grp.members = [p.tid] → effAddr (c.val p base) ofs sz.bytes % sz.bytes ≠ 0 → s.canTrap c.grp.team [p.tid] → p.ldcnt < 255 → s.trctl = 0#32 →
    ∃ t, exec (.ld h m sz d base ofs) s = .next t ∧ t.loads = s.loads ∧ t.main = s.main ∧ t.dsm = s.dsm ∧
      TrapTaken s t c.grp.team [p.tid] 0x05 .instruction c.pc (BitVec.ofNat 64 (effAddr (c.val p base) ofs sz.bytes))

/-- SPAWN and LAUNCH: what they append (R153, R155, R268, R274, R321). -/
def Obligations.QueueInstructions : Prop :=
  (∀ s c h (role : Fin 4) a b off k, Seated s c → (Instr.spawn h role a b off).wf = true → c.fits [(a, 1), (b, 1)] → role.val < c.launch.kernel.roles.length →
    c.parts h ≠ [] → s.core? c.core = some k → k.binFor c.grp.team role.val (wordOffset c.grp.hdrAddr off) (c.parts h).length = true →
    (∀ x ∈ k.bins, ∀ y ∈ k.bins, x.team = y.team → x.role = y.role → x.entry = y.entry → x = y) →
    ∃ t k' x, exec (.spawn h role a b off) s = .next t ∧ StepsOnly s c h (t.modCore c.core (fun y => { y with bins := k.bins })) ∧ t.core? c.core = some k' ∧ x ∈ k'.bins ∧
      (∀ y, ¬(y.team = x.team ∧ y.role = x.role ∧ y.entry = x.entry) → (y ∈ k'.bins ↔ y ∈ k.bins)) ∧ (∀ y ∈ k'.bins, y.team = x.team → y.role = x.role → y.entry = x.entry → y = x) ∧
      x.team = c.grp.team ∧ x.role = role.val ∧ x.entry = wordOffset c.grp.hdrAddr off ∧
      ∃ old, x.items = old ++ (c.parts h).map (fun p => [c.val p a, if b = .none then 0#32 else c.val p b]) ∧
        (old = [] → x.timer = 2048) ∧ (old ≠ [] → ∃ y ∈ k.bins, y.team = x.team ∧ y.role = x.role ∧ y.entry = x.entry ∧ y.items = old ∧ y.timer = x.timer)) ∧
  (∀ s c h (role : Fin 4) a b off k, Seated s c → (Instr.spawn h role a b off).wf = true → c.fits [(a, 1), (b, 1)] → s.core? c.core = some k →
    c.launch.kernel.roles.length ≤ role.val → exec (.spawn h role a b off) s = .next (s.trapGroup c .illegalOperand none)) ∧
  (∀ s c h a q p, Seated s c → (Instr.launch h a q).wf = true → c.fits [(a, 2), (q, 1)] → c.actors h = [p] → (c.val64 p a).toNat % 64 = 0 →
    (c.val p q).toNat ≤ 255 → (s.queue (c.val p q).toNat).asid = c.launch.asid → (s.queue (c.val p q).toNat).en = true →
    (s.queue (c.val p q).toNat).entries.length < 64 →
    (s.launchReady (c.parts h) = false → exec (.launch h a q) s = .next s) ∧
    (s.launchReady (c.parts h) = true → ∃ t v, exec (.launch h a q) s = .next t ∧ StepsOnly s c h { t with queues := s.queues } ∧
      (t.queue (c.val p q).toNat).entries = (s.queue (c.val p q).toNat).entries ++
        [{ record := c.val64 p a, priv := c.launch.priv, parent := c.launch.ident, view := v }] ∧
      (∀ x ∈ c.parts h, ∀ k ∈ x.know, k.start ≤ s.nextId → k.stamp ≤ stampAt v k.loc) ∧
      ∀ j, j ≠ (c.val p q).toNat → t.queue j = s.queue j))

/-- CDSTART, CDSTOP, REPLAY, CANCEL, TLBINV, PREEMPT, MCGSET and TRACE of one executing participant in a privileged launch (R159, R160, R161, R162, R163, R164, R165). -/
def Obligations.SystemInstructions : Prop :=
  (∀ s c h a w p, Seated s c → (Instr.cdstart h a w).wf = true → c.fits [(a, 2), (w, 1)] → c.launch.priv = true → c.actors h = [p] →
    (s.cadence.state = 0 ∨ s.cadence.state = 4) → (c.val64 p a).toNat % 64 = 0 →
    ∃ t, exec (.cdstart h a w) s = .next t ∧ StepsOnly s c h { t with cadence := s.cadence, launches := s.launches } ∧
      t.cadence.state = 1 ∧ t.cadence.head = 0 ∧ t.cadence.cause = 0 ∧ t.cadence.bubu = 0 ∧ t.cadence.bubd = 0 ∧ t.cadence.bubs = 0 ∧ t.cadence.bubx = 0 ∧
      t.cadence.binding = c.val p w ∧ t.cadence.asid = c.launch.asid ∧ t.cadence.loading = some (c.val64 p a).toNat ∧
      t.cadence.recBase = (c.val64 p a).toNat + 8192 ∧ t.cadence.running = none) ∧
  (∀ s c h p, Seated s c → (Instr.cdstop h).wf = true → c.launch.priv = true → c.actors h = [p] →
    ∃ t, exec (.cdstop h) s = .next t ∧ StepsOnly s c h { t with cadence := s.cadence } ∧
      t.cadence = if s.cadence.state = 2 then { s.cadence with state := 3, wait := 0 } else s.cadence) ∧
  (∀ s c h a p, Seated s c → (Instr.replay h a).wf = true → c.fits [(a, 1)] → c.launch.priv = true → c.actors h = [p] →
    s.orderWait (c.parts h) = false → s.badWords = [] → ∃ t, exec (.replay h a) s = .next t ∧ StepsOnly s c h { t with faults := s.faults } ∧
      t.faults = s.faults.map (fun f => if a = .none ∨ f.asid = (c.val p a).toNat then { f with walks := f.walks ++ [s.walkRec f] } else f)) ∧
  (∀ s c h a p, Seated s c → (Instr.cancel h false a).wf = true → c.fits [(a, 1)] → c.launch.priv = true → c.actors h = [p] →
    ∃ t, exec (.cancel h false a) s = .next t ∧ (∀ f ∈ t.faults, f ∈ s.faults ∧ f.id ≠ (c.val p a).toNat) ∧
      ((∀ f ∈ s.faults, f.id ≠ (c.val p a).toNat) → StepsOnly s c h t) ∧
      ((∀ x ∈ s.teams, s.tvecOf x.key ≠ 0#64) → (∀ u ∈ s.threads, u.inHandler = false ∧ u.wdogDue = false) → (∀ f ∈ s.faults, f.kind < 4) →
        ∀ f ∈ s.faults, f.id ≠ (c.val p a).toNat → f ∈ t.faults)) ∧
  (∀ s c h a p, Seated s c → (Instr.cancel h true a).wf = true → c.fits [(a, 1)] → c.launch.priv = true → c.actors h = [p] →
    ∃ t, exec (.cancel h true a) s = .next t ∧ (∀ f ∈ t.faults, f ∈ s.faults ∧ f.asid ≠ (c.val p a).toNat) ∧
      ((∀ f ∈ s.faults, f.asid ≠ (c.val p a).toNat) → StepsOnly s c h t ∧ t.faults = s.faults)) ∧
  (∀ s c h kind a v p, Seated s c → (Instr.tlbinv h kind a v).wf = true → c.fits [(a, 1), (v, 2)] → c.launch.priv = true → c.parts h = [p] →
    ∃ t x, exec (.tlbinv h kind a v) s = .next t ∧ t.tlbinvs = s.tlbinvs ++ [x] ∧ x.team = c.grp.team ∧ x.tids = [p.tid] ∧
      StepsOnly s c h { t with tlbinvs := s.tlbinvs, cores := s.cores, nextId := s.nextId } ∧
      (∀ k y, s.core? k = some y → ∃ y', t.core? k = some y' ∧ y' = { y with tlb := y'.tlb, port0 := y'.port0, port1 := y'.port1 } ∧
        ∀ e, e ∈ y'.tlb ↔ e ∈ y.tlb ∧ (match kind with
          | .all => False
          | .asid => e.asid ≠ (c.val p a).toNat
          | .page => e.asid ≠ (c.val p a).toNat ∨ (e.pte.getLsbD 1 = true ∧ e.vpath ≠ (c.val64 p v).toNat % 2 ^ 57 / 2 ^ levelShift e.level)))) ∧
  (∀ s c h a p, Seated s c → (Instr.preempt h a).wf = true → c.fits [(a, 1)] → c.launch.priv = true → c.actors h = [p] →
    ∃ t, exec (.preempt h a) s = .next t ∧ StepsOnly s c h { t with teams := s.teams } ∧ t.teams.length = s.teams.length ∧
      ∀ (i : Nat) (x x' : Team), s.teams[i]? = some x → t.teams[i]? = some x' → x' = { x with saveReq := x'.saveReq } ∧
        (∀ l, s.launches.find? (fun l => l.ident.toNat == (c.val p a).toNat && l.phase == .running) = some l →
          x'.saveReq = (x.saveReq || (x.launch == l.key && x.isResident && !x.killed))) ∧
        (s.launches.find? (fun l => l.ident.toNat == (c.val p a).toNat && l.phase == .running) = none → x' = x)) ∧
  (∀ s c h hi g m p, Seated s c → (Instr.mcgset h hi g m).wf = true → c.fits [(g, 1), (m, 2)] → c.launch.priv = true → c.actors h = [p] →
    (c.val p g).toNat < 64 → (∀ x ∈ s.mcast, x.id = (c.val p g).toNat → x.outst = 0) →
    ∃ t x, exec (.mcgset h hi g m) s = .next t ∧ StepsOnly s c h { t with mcast := s.mcast } ∧
      t.mcast.find? (fun y => y.id == (c.val p g).toNat) = some x ∧ (if hi then x.mhi else x.mlo) = c.val64 p m ∧ x.outst = 0 ∧
      (∀ y, s.mcast.find? (fun y => y.id == (c.val p g).toNat) = some y → (if hi then x.mlo = y.mlo else x.mhi = y.mhi)) ∧
      (∀ j, j ≠ (c.val p g).toNat → t.mcast.find? (fun y => y.id == j) = s.mcast.find? (fun y => y.id == j))) ∧
  (∀ s c h a b, Seated s c → (Instr.trace h a b).wf = true → c.fits [(a, 1), (b, 1)] → (s.seen.trctl.getLsbD 1 = false ∨ s.trctl.getLsbD 0 = false) →
    ∃ t, exec (.trace h a b) s = .next t ∧ StepsOnly s c h t) ∧
  (∀ s c h a b p k, Seated s c → (Instr.trace h a b).wf = true → c.fits [(a, 1), (b, 1)] → s.seen.trctl.getLsbD 1 = true → s.trctl.getLsbD 0 = true →
    s.power.gating.contains (quadOf c.core) = false →
    s.power.gated.contains (quadOf c.core) = false → k.issuedAt ≠ s.clk + 1 → c.actors h = [p] → s.core? c.core = some k →
    ∃ t k', exec (.trace h a b) s = .next t ∧ t.core? c.core = some k' ∧
      k'.trace = k.trace.put c.core 1 s.clk (s.threadName c.team p.tid ++ leBytes 4 (c.val p a).toNat ++ leBytes 4 (if b = .none then 0#32 else c.val p b).toNat) ∧
      StepsOnly s c h (t.modCore c.core (fun y => { y with trace := k.trace })))

/-- CPY and CPYMC: the copy outstanding, one word move for every word of every participant (R184, R185, R186, R187, R189, R191, R168, R169, R322). -/
def Obligations.CopiesIssue : Prop :=
  (∀ s c h (sz : Fin 3) dir rel d sr bar ls s', Seated s c → (Instr.cpy h sz dir rel d sr bar).wf = true →
    c.fits [(d, (dirSides dir).2.words), (sr, (dirSides dir).1.words)] → s.allLive → c.parts h ≠ [] → s.barValid c.grp.team (barNum bar) = true →
    s.barRoom c.grp.team (barNum bar) 1 = true → (∀ p ∈ c.ths, p.xfcnt < 255) →
    s.cpyLanes c h (4 * 2 ^ sz.val) (dirSides dir) d sr = (ls, s') → (∀ l ∈ ls, ∃ a b, l.res = .good a b) →
    ls.length * 2 ^ sz.val ≤ s.freeSlots c.core → s.locksRoom c.core 4 → s.orderWait (c.parts h) = false →
    (bar.isSome = true → s.acquiring (c.parts h) = false) → s.laneWalkBad c (dirSides dir) (4 * 2 ^ sz.val) ls = none →
    s.loadsStuck c.grp.team ((c.parts h).map (·.tid)) (ls.filterMap (fun l => l.dst?.map (fun x => (x, 4 * 2 ^ sz.val)))) (ls.filterMap (fun l => l.src?.map (fun x => (x, 4 * 2 ^ sz.val)))) rel = false →
    ∃ t op, exec (.cpy h sz dir rel d sr bar) s = .next t ∧ OpIssued s c h op 1 t ∧ op.kind = .cpy (4 * 2 ^ sz.val) dir ∧ op.rel = rel ∧
      op.bar = barNum bar ∧ op.held = [] ∧ ls.length = (c.actors h).length ∧ op.moves.length = ls.length * 2 ^ sz.val ∧
      (∀ l ∈ ls, ∀ a b, l.res = .good a b → (∀ i, i < 2 ^ sz.val → ∃ m ∈ op.moves, m.tid = l.tid ∧ m.landed = false ∧ m.early = none ∧
          m.src = { a with addr := a.addr + 4 * i } ∧ m.dst = { b with addr := b.addr + 4 * i }) ∧
        ((dirSides dir).2 = .scratch → ∀ x ∈ linesOf b (4 * 2 ^ sz.val), x ∈ t.absent ∨ ¬(b.space = .dsm ∨ ∃ k, b.space = .lsm k))) ∧
      (∀ m ∈ op.moves, m.writes = true ↔ ∀ x ∈ op.moves, x.dst = m.dst → tidPos op.tids x.tid ≤ tidPos op.tids m.tid)) ∧
  (∀ s c h (sz : Fin 3) rel d sr g bar ls s' lead mg, Seated s c → (Instr.cpymc h sz rel d sr g bar).wf = true → c.fits [(d, 1), (sr, 2), (g, 1)] →
    s.allLive → (c.parts h).head? = some lead → s.mcGroup? (c.val lead g).toNat = some mg → s.barValid c.grp.team (barNum bar) = true →
    s.barRoom c.grp.team (barNum bar) 1 = true → (∀ p ∈ c.ths, p.xfcnt < 255) →
    s.mcLanes c h (4 * 2 ^ sz.val) d sr = (ls, s') → (∀ l ∈ ls, ∃ a b, l.res = .good a b) → s.receivers c.launch.key mg ≠ [] →
    ls.length * 2 ^ sz.val * (s.receivers c.launch.key mg).length ≤ s.freeSlots c.core → s.locksRoom c.core (2 + (s.receivers c.launch.key mg).length) →
    s.orderWait (c.parts h) = false → (∀ r ∈ s.receivers c.launch.key mg, s.locksRoom r.2 (2 + (s.receivers c.launch.key mg).length)) →
    (bar.isSome = true → s.acquiring (c.parts h) = false) → s.laneWalkBad c (.main, .scratch) (4 * 2 ^ sz.val) ls = none →
    s.loadsStuck c.grp.team ((c.parts h).map (·.tid)) (ls.flatMap (fun l => l.dst?.toList.flatMap (fun d => (s.receivers c.launch.key mg).map (fun r => (({ space := .lsm r.1, addr := d.addr } : Loc), 4 * 2 ^ sz.val))))) (ls.filterMap (fun l => l.src?.map (fun x => (x, 4 * 2 ^ sz.val)))) rel = false →
    ∃ t op, exec (.cpymc h sz rel d sr g bar) s = .next t ∧ OpIssued s c h op 1 t ∧ op.rel = rel ∧ op.bar = barNum bar ∧ op.held = [] ∧
      op.kind = .cpymc (4 * 2 ^ sz.val) mg.id ((s.receivers c.launch.key mg).map (·.1)) ∧
      (∀ l ∈ ls, ∀ a b, l.res = .good a b → ∀ i, i < 2 ^ sz.val → ∀ r ∈ s.receivers c.launch.key mg, ∃ m ∈ op.moves, m.tid = l.tid ∧ m.landed = false ∧
          m.src = { a with addr := a.addr + 4 * i } ∧ m.dst = { space := .lsm r.1, addr := b.addr + 4 * i }) ∧
      (∀ k, t.mcast.find? (fun x => x.id == k) = (s.mcast.find? (fun x => x.id == k)).map (fun x =>
        if k = mg.id then { x with outst := x.outst + 1 } else x)))

/-- NMADD, NMMAX, NMAXPY, NMSTEP and NMFENCE: what is outstanding after them (R192, R193, R194, R200, R170, R320). -/
def Obligations.BankCommandsIssue : Prop :=
  (∀ h ty len rel y sr, BankIssued (.nmadd h ty len rel y sr) h [(y, 2), (sr, 1)] (bankLaneOf (.add ty) (4 * 2 ^ len.val) rel y sr)) ∧
  (∀ h ty len rel y sr, BankIssued (.nmmax h ty len rel y sr) h [(y, 2), (sr, 1)] (bankLaneOf (.max ty) (4 * 2 ^ len.val) rel y sr)) ∧
  (∀ h y x a n, BankIssued (.nmaxpy h y x a n) h [(y, 2), (x, 2), (a, 1), (n, 1)] (axpyLaneOf y x a n)) ∧
  (∀ h zg rel w p, BankIssued (.nmstep h zg rel w p) h [(w, 2), (p, 1)] (bankLaneOf (.step zg) 8192 rel w p)) ∧
  (∀ s c h bar, Seated s c → (Instr.nmfence h bar).wf = true → c.parts h ≠ [] → s.barValid c.grp.team (barNum bar) = true →
    s.barRoom c.grp.team (barNum bar) 1 = true → (∀ p ∈ c.parts h, p.xfcnt < 255) → s.orderWait (c.parts h) = false → (bar.isSome = true → s.acquiring (c.parts h) = false) →
    ∃ t op, exec (.nmfence h bar) s = .next t ∧ t.xfers = s.xfers ++ [op] ∧ op.id = s.nextId ∧ op.kind = .nmfence ∧ op.team = c.grp.team ∧
      op.tids = (c.parts h).map (·.tid) ∧ op.counted = op.tids ∧ op.bar = barNum bar ∧ op.arrives = true ∧ op.moves = [] ∧ op.waits = [] ∧ s.sameMemory t ∧
      (∀ b x, barNum bar = some b → s.team? c.grp.team = some x → ∃ x', t.team? c.grp.team = some x' ∧ (x'.bar b).cpend = (x.bar b).cpend + 1) ∧
      t = { s with threads := t.threads, teams := t.teams, cores := t.cores, xfers := t.xfers, nextId := t.nextId } ∧
      ∀ team tid u, s.thread? team tid = some u → ∃ u', t.thread? team tid = some u' ∧ u'.v = u.v ∧ u'.p = u.p ∧
        u'.xfcnt = if c.takesPart h team tid then u.xfcnt + 1 else u.xfcnt)

/-- RSTRIPE and RESTRIPE_LINE_MOVE: an accepted conversion, each of its lines, and its end (R201, R202, R203, R204, R261, R262, R275). -/
def Obligations.ConversionsIssueAndAdvance : Prop :=
  (∀ s c h gathered (g : Fin 4) base len nb (bar : Fin 16) p rs e q, Seated s c → (Instr.rstripe h gathered g base len nb bar).wf = true →
    c.fits [(base, 2), (len, 1), (nb, 1)] → s.allLive → c.actors h = [p] → (∀ x ∈ c.ths, x.xfcnt < 255) →
    (c.val64 p base).toNat % 2048 = 0 → 1 ≤ (c.val p len).toNat → (c.val p len).toNat ≤ 2 ^ 24 →
    (s.bankWalk c.core c.launch.asid (rangePieces (c.val64 p base).toNat (c.val p len).toNat)).1 = rs → (∀ r ∈ rs, ∃ l, r.2 = .ok l) →
    contiguous (rangePieces (c.val64 p base).toNat (c.val p len).toNat) (rs.filterMap (fun r => r.2.loc.map (·.addr))) = true →
    q = { tid := p.tid, lane := p.lane, va := (c.val64 p base).toNat, len := (c.val p len).toNat, gathered := gathered, gc := g.val, nb := if nb = .none then none else some (c.val p nb).toNat, bar := bar.val, held := false, pa := (rs.filterMap (fun r => r.2.loc.map (·.addr))).headD 0 } →
    s.rsCheck c.grp.team c.launch.asid q = none → s.rsMatch c.launch.asid q = .convert e → s.conversions.length < 16 →
    s.barRoom c.grp.team (some bar.val) 1 = true → 1 ≤ s.freeSlots c.core → s.orderWait (c.parts h) = false → s.walkBad (some c.core) c.launch.asid q.vas = none →
    (∀ k, s.core? c.core = some k → (k.port c.port).stripe = []) →
    ∃ t r k, exec (.rstripe h gathered g base len nb bar) s = .next t ∧ r ∈ t.regions ∧ r.state = 2 ∧ r.wm = 0 ∧ r.tgt = gathered ∧ r.pbase = q.pa ∧
      r.len = q.len ∧ r.asid = c.launch.asid ∧ (gathered = true → r.gc = g.val ∧ r.first = if nb = .none then q.pa / 2048 % 1536 else (c.val p nb).toNat) ∧
      t.conversions = s.conversions ++ [k] ∧ k.region = r.id ∧ k.team = c.grp.team ∧ k.tids = c.takers h p ∧ k.bar = bar.val ∧ k.arrives = true ∧
      t.xfers = s.xfers ∧ s.sameMemory t ∧
      (∀ x, s.team? c.grp.team = some x → ∃ x', t.team? c.grp.team = some x' ∧ (x'.bar bar.val).cpend = (x.bar bar.val).cpend + 1 ∧ x'.rgn = .entry r.id) ∧
      (∀ team tid u, s.thread? team tid = some u → ∃ u', t.thread? team tid = some u' ∧ u'.v = u.v ∧ u'.p = u.p ∧ u'.xfcnt = u.xfcnt) ∧
      s.sameRows t) ∧
  (∀ s k rest r m, s.conversions = k :: rest → (∀ i ∈ k.waits, s.cmdLive i = false) → s.regions.find? (fun x => x.id == k.region) = some r → r.wm + 1 < r.len →
    s.rsBegin.transit = some m → (s.transit = none → m.region = r.id ∧ m.line = r.pbase / 2048 + r.wm ∧ m.gathered = r.tgt ∧ m.nb = gatheredNb r.first r.gc r.wm) ∧
    ∃ t n, exec .restripeLineMove s = .next t ∧ t = { s with regions := t.regions, transit := t.transit, placement := t.placement } ∧
      t.regions.find? (fun x => x.id == k.region) = some { r with wm := r.wm + 1 } ∧
      (∀ j, j ≠ k.region → t.regions.find? (fun x => x.id == j) = s.regions.find? (fun x => x.id == j)) ∧
      t.placement = (if m.gathered = true then [{ line := m.line, nb := m.nb, row := m.row, rowsLeft := (s.placement.find? (fun e => e.line == m.line)).elim [] (fun e => (e.nb, e.row) :: e.rowsLeft) }] else []) ++ s.placement.filter (fun e => e.line ≠ m.line) ∧
      t.transit = some n ∧ n.region = r.id ∧ n.line = r.pbase / 2048 + (r.wm + 1) ∧ n.gathered = r.tgt ∧ n.nb = gatheredNb r.first r.gc (r.wm + 1)) ∧
  (∀ s k rest r m, s.conversions = k :: rest → (∀ i ∈ k.waits, s.cmdLive i = false) → s.regions.find? (fun x => x.id == k.region) = some r → r.len ≤ r.wm + 1 →
    (∀ o ∈ s.xfers, o.kind ≠ .rstripe) → s.rsBegin.transit = some m →
    ∃ t, exec .restripeLineMove s = .next t ∧ t.conversions = rest ∧
      t.placement = (if m.gathered = true then [{ line := m.line, nb := m.nb, row := m.row, rowsLeft := (s.placement.find? (fun e => e.line == m.line)).elim [] (fun e => (e.nb, e.row) :: e.rowsLeft) }] else []) ++ s.placement.filter (fun e => e.line ≠ m.line) ∧
      t.regions.find? (fun x => x.id == k.region) = (if r.tgt = true then some { r with state := 1, wm := r.len } else none) ∧
      ∀ j, j ≠ k.region → t.regions.find? (fun x => x.id == j) = s.regions.find? (fun x => x.id == j))

/-- QPOST, QSYNC and AMSG: one part for each executing participant (R224, R225, R227, R229, R230, R231, R279, R87). -/
def Obligations.CollectivesIssue : Prop :=
  (∀ s c h rel r k w m bar ps, Seated s c → (Instr.qpost h rel r k w m bar).wf = true → c.fits [(r, 1), (k, 1), (w, 1), (m, 1)] → c.parts h ≠ [] →
    s.barValid c.grp.team (barNum bar) = true →
    c.checkParts h (fun t ps => s.postCheck c t (c.val t r).toNat (c.val t k).toNat (c.val t w).toNat (c.val t m).toNat ps) = (ps, []) →
    s.barRoom c.grp.team (barNum bar) ps.length = true → (∀ p ∈ c.ths, p.xfcnt < 255) → s.locksRoom c.core 4 →
    s.fabric.length + s.fabricDue + ps.length ≤ 1024 → s.orderWait (c.parts h) = false →
    (∀ p ∈ ps, (s.posts p.group p.member ++ ps.filter (fun x => x.group == p.group && x.member == p.member)).length ≤ 4) →
    (bar.isSome = true → s.acquiring (c.parts h) = false) →
    s.loadsStuck c.grp.team ((c.parts h).map (·.tid)) (ps.map (fun p => (scratchLoc c.grp.team p.dst, p.len))) (ps.map (fun p => (scratchLoc c.grp.team p.src, p.len))) rel = false →
    ∃ t op, exec (.qpost h rel r k w m bar) s = .next t ∧ OpIssued s c h op ps.length t ∧ op.kind = .qpost ∧ op.rel = rel ∧ op.bar = barNum bar ∧
      op.parts = ps ∧ ps.length = (c.actors h).length ∧
      t = { s with threads := t.threads, teams := t.teams, cores := t.cores, xfers := t.xfers, absent := t.absent, nextId := t.nextId }) ∧
  (∀ s c h la d g m bar ps, Seated s c → (Instr.qsync h la d g m bar).wf = true → c.fits [(d, 1), (g, 1), (m, 1)] → c.parts h ≠ [] →
    s.barValid c.grp.team (barNum bar) = true → c.checkParts h (fun t _ => s.syncCheck c t (c.val t g).toNat (c.val t m).toNat) = (ps, []) →
    s.barRoom c.grp.team (barNum bar) ps.length = true → (∀ p ∈ c.ths, p.xfcnt < 255) → s.locksRoom c.core 4 →
    s.fabric.length + s.fabricDue + ps.length ≤ 1024 → s.orderWait (c.parts h) = false → (bar.isSome = true → s.acquiring (c.parts h) = false) →
    ∃ t op, exec (.qsync h la d g m bar) s = .next t ∧ OpIssued s c h op ps.length t ∧ op.kind = .qsync ∧ op.bar = barNum bar ∧ op.parts = ps ∧
      ps.length = (c.actors h).length ∧
      t = { s with threads := t.threads, teams := t.teams, cores := t.cores, xfers := t.xfers, fabric := t.fabric, nextId := t.nextId } ∧
      (∀ p ∈ c.parts h, ∀ u dst, s.thread? p.team p.tid = some u → Operand.dest? d = some dst → ∃ u', t.thread? p.team p.tid = some u' ∧
        { id := op.id, dest := dst, words := 1, left := la.val, value := none } ∈ u'.pend) ∧
      (t.fabric.length = s.fabric.length + (ps.filter (fun p => p.node ≠ s.hostCtl.fabNode)).length)) ∧
  (∀ s c h rel (n : Fin 17) a sr hd bar ps, Seated s c → (Instr.amsg h rel n a sr hd bar).wf = true → c.fits [(a, 1), (sr, 1), (hd, 1)] → c.parts h ≠ [] →
    s.barValid c.grp.team (barNum bar) = true →
    c.checkParts h (fun x _ => s.amsgCheck c x n.val (c.val x a).toNat (c.val x sr).toNat (c.val x hd).toNat) = (ps, []) →
    s.barRoom c.grp.team (barNum bar) ps.length = true → (∀ p ∈ c.ths, p.xfcnt < 255) → s.locksRoom c.core 4 →
    s.fabric.length + s.fabricDue + ps.length ≤ 1024 → s.orderWait (c.parts h) = false → (bar.isSome = true → s.acquiring (c.parts h) = false) →
    s.loadsStuck c.grp.team ((c.parts h).map (·.tid)) [] (ps.map (fun p => (scratchLoc c.grp.team p.src, p.len))) rel = false →
    ∃ t op, exec (.amsg h rel n a sr hd bar) s = .next t ∧ OpIssued s c h op ps.length t ∧ op.kind = .amsg ∧ op.rel = rel ∧ op.bar = barNum bar ∧
      op.parts = ps ∧ ps.length = (c.actors h).length ∧ (∀ p ∈ ps, p.len = 4 * n.val) ∧
      t = { s with threads := t.threads, teams := t.teams, cores := t.cores, xfers := t.xfers, freeCount := t.freeCount, nextId := t.nextId })

/-- TCFG, TREL, TZERO, MMA, ACCZ, ACCLD and ACCST: the actions accepted by the tile engine (R208, R209, R210, R211, R216, R217, R219, R220, R221, R300). -/
def Obligations.TileInstructionsAccepted : Prop :=
  (∀ s c h (k : Fin 16) fmt sc r n as p, Seated s c → (Instr.tcfg h k fmt sc r n).wf = true → c.fits [(sc, 1), (r, 1), (n, 1)] → c.actors h = as ++ [p] →
    (∀ x ∈ c.parts h, x.tlcnt < 255) → (s.tile c.grp.team k.val).conf = false → s.tileBusy c.grp.team k.val = false →
    (∀ q ∈ c.actors h, 1 ≤ (c.val q r).toNat ∧ (c.val q r).toNat ≤ 256 ∧ 1 ≤ (c.val q n).toNat ∧ (c.val q n).toNat ≤ 256 ∧
      dataBytes fmt (c.val q r).toNat (c.val q n).toNat ≤ 65536 ∧ (fmt = .q4 → (c.val q r).toNat % 64 = 0 ∧ (c.val q n).toNat % 2 = 0) ∧
      c.team.charged + ((dataBytes fmt (c.val q r).toNat (c.val q n).toNat + 2047) / 2048 * 2048 + 2048) ≤ c.launch.kernel.tiles) →
    ∃ t, exec (.tcfg h k fmt sc r n) s = .next t ∧
      TileIssued s c h ((c.actors h).map (fun q => (q, .tcfg k.val, some 1))) none (fun _ => []) (fun x => c.takers h x) t ∧
      t = { s with threads := t.threads, teams := t.teams, cores := t.cores, tileOps := t.tileOps, nextId := t.nextId } ∧
      ∀ x, s.team? c.grp.team = some x → k.val < x.tiles.length → ∃ x', t.team? c.grp.team = some x' ∧ x' = { x with tiles := x'.tiles } ∧ (∀ j, j ≠ k.val → x'.tile j = x.tile j) ∧
        (x'.tile k.val).conf = true ∧ (x'.tile k.val).fmt = fmt ∧ (x'.tile k.val).rows = (c.val p r).toNat ∧ (x'.tile k.val).cols = (c.val p n).toNat ∧
        (x'.tile k.val).tscale = (if sc = .none then 0x3F800000#32 else BitVec.ofNat 32 (c.src p .f32 sc)) ∧
        ((x'.tile k.val).nf = true ↔ (x'.tile k.val).tscale.toNat / 2 ^ 23 % 2 ^ 8 = 255) ∧ (∀ i, (x'.tile k.val).data.read i = 0#8) ∧
        (fmt = .q4 → ∀ i, (x'.tile k.val).qs.read i = 0xFF#8 ∧ (x'.tile k.val).super.word (4 * i) = 0x3F800000) ∧
        (fmt = .int8 ∨ fmt = .nat8 → (x'.tile k.val).affine.read 0 = 0xA0#8 ∧ (x'.tile k.val).affine.read 1 = 0#8)) ∧
  (∀ s c h (k : Fin 16), Seated s c → (Instr.trel h k).wf = true → c.parts h ≠ [] → (∀ x ∈ c.parts h, x.tlcnt < 255) → s.tileBusy c.grp.team k.val = false →
    ∃ t, exec (.trel h k) s = .next t ∧ TileIssued s c h ((c.actors h).map (fun q => (q, .trel k.val, some 1))) none (fun _ => []) (fun x => c.takers h x) t ∧
      t = { s with threads := t.threads, teams := t.teams, cores := t.cores, tileOps := t.tileOps, nextId := t.nextId } ∧
      ∀ x, s.team? c.grp.team = some x → ∃ x', t.team? c.grp.team = some x' ∧ x' = { x with tiles := x'.tiles } ∧ (∀ j, j ≠ k.val → x'.tile j = x.tile j) ∧
        (x'.tile k.val).conf = false) ∧
  (∀ h (k : Fin 16), TileDone (.tzero h k) h [] true (fun _ c => (c.team.tile k.val).conf = true)
    (fun c _ => (.tzero k.val, some (((c.team.tile k.val).dataBytes + 2047) / 2048 + 1)))) ∧
  (∀ h (ta tb : Fin 16) tra trb n x y, TileDone (.mma h ta tb tra trb n x y) h [(n, 1), (x, 1), (y, 1)] true
    (fun _ c => ∀ p ∈ c.actors h, (mmaShape (c.team.tile ta.val) (c.team.tile tb.val) tra trb (c.valZ p x) (c.valZ p y)).isSome = true ∧
      (c.val p n).toNat + 1 ≤ c.launch.kernel.acc)
    (fun c p => (.mma ta.val tb.val tra trb (c.val p n).toNat (c.valZ p x) (c.valZ p y), none))) ∧
  (∀ h n cnt, TileDone (.accz h n cnt) h [(n, 1), (cnt, 1)] true
    (fun _ c => ∀ p ∈ c.actors h, 1 ≤ (c.valOr p cnt 1#32).toNat ∧ (c.valOr p cnt 1#32).toNat ≤ 1024 ∧
      (c.val p n).toNat + (c.valOr p cnt 1#32).toNat ≤ c.launch.kernel.acc)
    (fun c p => (.accz (c.val p n).toNat (c.valOr p cnt 1#32).toNat, some (((c.valOr p cnt 1#32).toNat + 7) / 8)))) ∧
  (∀ h (la : Fin 16) (w : Fin 6) d n r k, TileDone (.accld h la w d n r k) h [(d, 2 ^ w.val), (n, 1), (r, 1), (k, 1)] true
    (fun _ c => ∀ p ∈ c.actors h, (c.val p n).toNat + 1 ≤ c.launch.kernel.acc ∧ (c.val p r).toNat ≤ 31 ∧ (c.val p k).toNat + 2 ^ w.val ≤ 32)
    (fun c p => (.accld (c.val p n).toNat (c.val p r).toNat (c.val p k).toNat (2 ^ w.val), some 8))
    (fun s c t => ∀ (j : Nat) p u dst, (c.actors h)[j]? = some p → s.thread? p.team p.tid = some u → Operand.dest? d = some dst →
      ∃ u', t.thread? p.team p.tid = some u' ∧ { id := s.nextId + j, dest := dst, words := 2 ^ w.val, left := la.val, value := none } ∈ u'.pend)) ∧
  (∀ h (w : Fin 6) v n r k, TileDone (.accst h w v n r k) h [(v, 2 ^ w.val), (n, 1), (r, 1), (k, 1)] true
    (fun _ c => ∀ p ∈ c.actors h, (c.val p n).toNat + 1 ≤ c.launch.kernel.acc ∧ (c.val p r).toNat ≤ 31 ∧ (c.val p k).toNat + 2 ^ w.val ≤ 32)
    (fun c p => (.accst (c.val p n).toNat (c.val p r).toNat (c.val p k).toNat (c.data p (2 ^ w.val) v), some 2)))

/-- TLD, TST and ACCCVT: the operation accepted, and its destination lines absent (R208, R212, R213, R214, R215, R222, R168, R169, R318). -/
def Obligations.TileChunksAccepted : Prop :=
  (∀ s c h (k : Fin 16) bar part (ch : Fin 6) a o lead cs, Seated s c → (Instr.tld h k bar part ch a o).wf = true → c.fits [(a, 1), (o, 1)] →
    (c.parts h).head? = some lead → s.tileHeld c.grp.team [.tld k.val part [] (4 * 2 ^ ch.val)] s.nextId = false →
    c.chunkBad h (c.team.tile k.val) part (4 * 2 ^ ch.val) (c.valZ lead o) = false → s.barValid c.grp.team (barNum bar) = true →
    s.chunkLanes c h a (4 * 2 ^ ch.val) (c.valZ lead o) = (cs, []) → (∀ p ∈ c.parts h, p.tlcnt < 255) → s.barRoom c.grp.team (barNum bar) 1 = true →
    s.locksRoom c.core 2 → (bar.isSome = true → s.acquiring (c.parts h) = false) → s.orderWait (s.threadsOf c.grp.team ((c.parts h).map (·.tid))) = false →
    s.loadsStuck c.grp.team ((c.parts h).map (·.tid)) [] (cs.map (fun x => (x.2.1, 4 * 2 ^ ch.val))) true = false →
    ∃ t, exec (.tld h k bar part ch a o) s = .next t ∧
      TileIssued s c h [(lead, .tld k.val part cs (4 * 2 ^ ch.val), some (moveCycles (cs.map (·.2.1)) (4 * 2 ^ ch.val) + 3))] (barNum bar) (fun _ => []) (fun _ => (c.parts h).map (·.tid)) t ∧
      cs.map (·.1) = (c.parts h).map (·.tid) ∧ (∀ x ∈ cs, ∃ p ∈ c.parts h, x.1 = p.tid ∧ x.2.1.addr = (c.val p a).toNat ∧
        x.2.2 = c.valZ lead o + (c.special p .ridx).toNat * (4 * 2 ^ ch.val)) ∧ t.absent = s.absent) ∧
  (∀ s c h (k : Fin 16) bar (ch : Fin 6) a o lead cs, Seated s c → (Instr.tst h k bar ch a o).wf = true → c.fits [(a, 1), (o, 1)] →
    (c.parts h).head? = some lead → s.tileHeld c.grp.team [.tst k.val [] (4 * 2 ^ ch.val)] s.nextId = false →
    c.chunkBad h (c.team.tile k.val) .data (4 * 2 ^ ch.val) (c.valZ lead o) = false → s.barValid c.grp.team (barNum bar) = true →
    s.chunkLanes c h a (4 * 2 ^ ch.val) (c.valZ lead o) = (cs, []) → (∀ p ∈ c.parts h, p.tlcnt < 255) → s.barRoom c.grp.team (barNum bar) 1 = true →
    s.locksRoom c.core 2 → s.loadsStuck c.grp.team ((c.parts h).map (·.tid)) (cs.map (fun x => (x.2.1, 4 * 2 ^ ch.val))) [] false = false → (bar.isSome = true → s.acquiring (c.parts h) = false) →
    s.orderWait (s.threadsOf c.grp.team ((c.parts h).map (·.tid))) = false →
    ∃ t, exec (.tst h k bar ch a o) s = .next t ∧
      TileIssued s c h [(lead, .tst k.val cs (4 * 2 ^ ch.val), some (moveCycles (cs.map (·.2.1)) (4 * 2 ^ ch.val)))] (barNum bar)
        (fun _ => (cs.flatMap (fun x => linesOf x.2.1 (4 * 2 ^ ch.val))).dedup) (fun _ => (c.parts h).map (·.tid)) t ∧
      cs.map (·.1) = (c.parts h).map (·.tid) ∧ (∀ x ∈ cs, ∃ p ∈ c.parts h, x.1 = p.tid ∧ x.2.1.addr = (c.val p a).toNat ∧
        x.2.2 = c.valZ lead o + (c.special p .ridx).toNat * (4 * 2 ^ ch.val)) ∧
      ∀ x ∈ cs, ∀ l ∈ linesOf x.2.1 (4 * 2 ^ ch.val), l ∈ t.absent) ∧
  (∀ s c h fmt rm sat bar n a sc (loc : Thread → Loc), Seated s c → (Instr.acccvt h fmt rm sat bar n a sc).wf = true → c.fits [(n, 1), (a, 1), (sc, 1)] → c.parts h ≠ [] →
    s.tileHeld c.grp.team ((c.actors h).map (fun p => .acccvt fmt rm sat (c.val p n).toNat (loc p) (if sc = .none then none else some (BitVec.ofNat 32 (c.src p .f32 sc))))) s.nextId = false →
    (∀ p ∈ c.actors h, (c.val p n).toNat + 1 ≤ c.launch.kernel.acc ∧ (c.val p a).toNat % 128 = 0 ∧
      s.scratch c.launch c.grp.team (c.val p a).toNat (512 * Fmt.halfBytes fmt) = .ok (loc p)) → s.barValid c.grp.team (barNum bar) = true →
    (∀ p ∈ c.parts h, p.tlcnt < 255) → s.barRoom c.grp.team (barNum bar) (c.actors h).length = true → s.locksRoom c.core 2 →
    s.loadsStuck c.grp.team ((c.actors h).map (·.tid)) ((c.actors h).map (fun p => (loc p, 512 * Fmt.halfBytes fmt))) [] false = false → (bar.isSome = true → s.acquiring (c.parts h) = false) → s.orderWait (s.threadsOf c.grp.team ((c.actors h).map (·.tid))) = false →
    ∃ t, exec (.acccvt h fmt rm sat bar n a sc) s = .next t ∧
      TileIssued s c h ((c.actors h).map (fun p => (p, .acccvt fmt rm sat (c.val p n).toNat (loc p) (if sc = .none then none else some (BitVec.ofNat 32 (c.src p .f32 sc))), some 16)))
        (barNum bar) (fun p => linesOf (loc p) (512 * Fmt.halfBytes fmt)) (fun p => c.takers h p) t ∧
      ∀ p ∈ c.actors h, (loc p).addr = (c.val p a).toNat ∧ ∀ l ∈ linesOf (loc p) (512 * Fmt.halfBytes fmt), l ∈ t.absent)

/-- The events of the tile engine: what each completion changes (R29, R90, R64, R211, R212, R213, R214, R215, R216, R217, R219, R222). -/
def Obligations.TileEventsComplete : Prop :=
  (∀ s core port k i, s.core? core = some k → (k.port port).tile = some i → isTile i = true → s.power.tripped = false → s.issuedNow core = false →
    s.outranked core port i = false → ∃ u, exec i { s with cur := { core := core, port := port } } = .next u ∧
      exec (.tileAcceptance core port) s = .next (if ((u.core? core).bind (fun k => (k.port port).tile)).isSome = true then u else u.markIssued core)) ∧
  (∀ s core port k i, s.core? core = some k → (k.port port).tile = some i → s.issuedNow core = true ∨ s.outranked core port i = true →
    exec (.tileAcceptance core port) s = .next s) ∧
  (∀ s op o a b tra trb n x y k, s.tileOp? op = some o → o.act = .mma a b tra trb n x y → o.due = none → s.core? o.core = some k → k.arrayFree ≤ s.clk →
    s.tileFree o = true → s.mmaBehind o = false → s.power.tripped = false → ∃ t, exec (.mmaStart op) s = .next t ∧ t = { s with tileOps := t.tileOps, cores := t.cores } ∧
      t.tileOp? op = some { o with due := some (s.clk + mmaCycles (s.tile o.team a) (s.tile o.team b) tra trb x y + 16) } ∧
      t.core? o.core = some { k with arrayFree := s.clk + mmaCycles (s.tile o.team a) (s.tile o.team b) tra trb x y }) ∧
  (∀ s op o x, s.allLive → s.power.tripped = false → s.tileOp? op = some o → s.tileDue o = true → s.team? o.team = some x → s.badWords = [] → o.bar = none → ∀ i,
    ((∃ a b tra trb n r k, o.act = .mma a b tra trb n r k ∧ i = .mmaCompletion op) ∨
     (∃ k part cs n, o.act = .tld k part cs n ∧ i = .tldCompletion op ∧ s.chunksReady o cs n = true) ∨
     (∃ k, o.act = .tzero k ∧ i = .tzeroCompletion op) ∨ (∃ n r k w, o.act = .accld n r k w ∧ i = .accldResultArrival op) ∨
     (((∃ k, o.act = .tcfg k ∨ o.act = .trel k) ∨ (∃ n r k ws, o.act = .accst n r k ws) ∨ ∃ n k, o.act = .accz n k) ∧ i = .tileCompletion op)) →
    (∀ u ∈ s.threads, u.entering = none) →
    ∃ t x', exec i s = .next t ∧ t.tileOps = s.tileOps.filter (fun y => y.id != op) ∧ t.team? o.team = some x' ∧
      (∀ tid u, s.thread? o.team tid = some u → ∃ u', t.thread? o.team tid = some u' ∧ u'.v = u.v ∧ u'.p = u.p ∧
        u'.tlcnt = (if tid ∈ o.counted then u.tlcnt - 1 else u.tlcnt) ∧
        u'.pend = (match o.act with
          | .accld n r k w => if tid ∈ o.counted then (u.arrive op (accWords x.acc n r k w)).pend else u.pend
          | _ => u.pend)) ∧ s.sameRows t ∧
      x'.acc = (match o.act with
        | .mma a b tra trb n r k => mmaAcc x.acc (x.tile a) (x.tile b) tra trb n r k
        | .accst n r k ws => accStore x.acc n r k ws
        | .accz n k => x.acc.filter (fun y => !decide (4096 * n ≤ y.1 ∧ y.1 < 4096 * (n + k)))
        | _ => x.acc) ∧
      (∀ j, x'.tile j = (match o.act with
        | .tzero k => if j = k ∧ j < x.tiles.length then (x.tile j).zero else x.tile j
        | .tld k part cs n => if j = k ∧ j < x.tiles.length then
            (cs.mapIdx (fun i c => (c.2.2, s.chunkWords o (i * (n / 4)) c.1 c.2.1 n))).foldl (fun y g => y.load part g.1 g.2) (x.tile j) else x.tile j
        | _ => x.tile j)) ∧
      t = { s with threads := t.threads, groups := t.groups, teams := t.teams, cores := t.cores, tileOps := t.tileOps, absent := t.absent, freeCount := t.freeCount }) ∧
  (∀ s op o, s.allLive → s.power.tripped = false → s.memOk → s.tileOp? op = some o → s.tileDue o = true → o.bar = none → (∀ l ∈ o.cleared, s.lineLands o l = true) →
    (∃ k cs n, o.act = .tst k cs n) →
    ∃ t, exec (.tstCompletion op) s = .next t ∧ t.tileOps = s.tileOps.filter (fun y => y.id != op) ∧
      (∀ l n, (∀ z ∈ o.cleared, overlaps l n z 128 = false) → t.memRead l n = s.memRead l n) ∧
      (∀ l ∈ o.cleared, l ∈ t.absent → t.lineHeld l = true) ∧
      (∀ k x a at_ n, o.act = .tst k [(x, a, at_)] n → 0 < n → a.space = .dsm → o.cleared = [lineOf a] → a.addr / 128 = (a.addr + n - 1) / 128 →
        t.memRead a n = (s.tile o.team k).data.readBytes at_ n) ∧
      ∀ tid u, s.thread? o.team tid = some u → ∃ u', t.thread? o.team tid = some u' ∧ u'.v = u.v ∧ u'.p = u.p ∧ u'.tlcnt = (if tid ∈ o.counted then u.tlcnt - 1 else u.tlcnt)) ∧
  (∀ s op o x f rm sat n dst k, s.allLive → s.power.tripped = false → s.memOk → s.tileOp? op = some o → s.tileDue o = true → s.team? o.team = some x → o.bar = none → (∀ l ∈ o.cleared, s.lineLands o l = true) →
    o.act = .acccvt f rm sat n dst k →
    ∃ t, exec (.acccvtCompletion op) s = .next t ∧ t.tileOps = s.tileOps.filter (fun y => y.id != op) ∧
      (∀ l n, (∀ z ∈ o.cleared, overlaps l n z 128 = false) → t.memRead l n = s.memRead l n) ∧
      (∀ l ∈ o.cleared, l ∈ t.absent → t.lineHeld l = true) ∧
      (dst.space = .dsm → dst.addr % 128 = 0 → f ≠ .q4 → o.cleared = linesOf dst (512 * Fmt.halfBytes f) → ∀ i, i < 4 * Fmt.halfBytes f →
        t.memRead { dst with addr := dst.addr + 128 * i } 128 = cvtBlock x.acc f rm sat n k (128 * i) 128) ∧
      ∀ l, s.launch? x.launch = some l → t.launch? x.launch = some (l.counted (cvtEvents x.acc f rm sat n k)) ∧
        ∀ u, s.thread? o.team o.tid = some u → u.hasExited = false → ∃ u', t.thread? o.team o.tid = some u' ∧ u'.v = u.v ∧ u'.p = u.p ∧
          (¬l.quiet (cvtEvents x.acc f rm sat n k) → u'.convDue = some o.pc) ∧ (l.quiet (cvtEvents x.acc f rm sat n k) → u'.convDue = u.convDue))

/-- The events of copies and bank units: words that land, commands that enter, run and complete (R186, R187, R189, R194, R198, R200, R263, R264, R265, R276, R299, R352). -/
def Obligations.CopyAndCommandEvents : Prop :=
  (∀ s op line o, s.power.tripped = false → s.allLive → s.memOk → s.xfer? op = some o → o.lineMoves line ≠ [] → (∀ m ∈ o.lineMoves line, ∀ nb, s.moveNb m = some nb → s.copyHeld nb (op, line) = false) →
    (∀ m ∈ o.lineMoves line, s.moveReady o m = true) → o.silent → s.badWords = [] →
    (∀ m ∈ o.lineMoves line, ∀ k, m.dst.space = .lsm k → (s.team? k).isSome = true) →
    (∀ (i j : Nat) a b, (o.lineMoves line)[i]? = some a → (o.lineMoves line)[j]? = some b → i ≠ j → a.writes = true → b.writes = true → overlaps a.dst 4 b.dst 4 = false) →
    ∃ t, exec (.copyLineCompletion op line) s = .next t ∧
      (∀ m ∈ o.lineMoves line, m.writes = true → t.memRead m.dst 4 = leBytes 4 (s.moveWord o m).toNat) ∧
      (∀ l n, (∀ m ∈ o.lineMoves line, overlaps l n m.dst 4 = false) → t.memRead l n = s.memRead l n) ∧
      (∀ o', t.xfer? op = some o' → ∀ (i : Nat) m, o.moves[i]? = some m → ∃ m', o'.moves[i]? = some m' ∧ m'.landed = (m.landed || (o.lineMoves line).contains m)) ∧
      (o.held = [] → o.parts = [] → o.rsParts = [] → o.waits = [] → o.kind ≠ .nmfence → (∀ m ∈ o.moves, m.landed = true ∨ m.line = line) → ∀ x ∈ t.xfers, x.id ≠ op)) ∧
  (∀ s op line o nb, s.power.tripped = false → s.xfer? op = some o → o.lineMoves line ≠ [] → (∀ m ∈ o.lineMoves line, s.moveReady o m = true) →
    (∃ m ∈ o.lineMoves line, s.moveNb m = some nb) → s.copyHeld nb (op, line) = true →
    ∃ t, exec (.copyLineCompletion op line) s = .next t ∧ t = { s with bankUnits := t.bankUnits } ∧ (op, line) ∈ (t.unit nb).waits ∧
      (t.unit nb).running = (s.unit nb).running ∧ (t.unit nb).queue = (s.unit nb).queue) ∧
  (∀ s op tid b, s.power.tripped = false → s.allLive → s.waitingCmds.find? (fun x => x.op == op && x.tid == tid) = some b → s.sent b = true → s.cmdBehind b = false →
    s.sourceReady b = true → (s.unit b.nb).queue.length < 32 → s.badWords = [] → (∀ o, s.xfer? op = some o → o.silent) →
    ∃ t, exec (.commandAcceptance op tid) s = .next t ∧ t.waitingCmds = s.waitingCmds.filter (fun x => x.id != b.id) ∧
      (t.unit b.nb).queue = (s.unit b.nb).queue ++ [{ b with src := some (s.readSource b), early := [] }] ∧ (t.unit b.nb).running = ((s.unit b.nb).running || (s.waitsAt b.nb).isEmpty) ∧
      (∀ k, k ≠ b.nb → t.unit k = s.unit k) ∧ s.sameMemory t ∧
      ∀ o u tid', s.xfer? op = some o → s.thread? o.team tid' = some u → ∃ u', t.thread? o.team tid' = some u' ∧ u'.v = u.v ∧ u'.p = u.p ∧
        (tid' ∈ o.counted → tid' ∈ b.tids → o.kind = .bank → o.held = [] → u'.xfcnt = u.xfcnt - 1)) ∧
  (∀ s nb, (s.unit nb).running = true → ∃ t, exec (.nmwinWindowEnd nb) s = .next t ∧ UnitOnly s nb { s.unit nb with windowOpen := false } t) ∧
  (∀ s nb b, (s.unit nb).head = some b → (s.unit nb).windowOpen = false → (s.unit nb).suspended = false → s.waitsAt nb ≠ [] → (s.unit nb).rowOpen = false →
    ∃ t, exec (.bankCommandSuspend nb) s = .next t ∧ UnitOnly s nb { s.unit nb with suspended := true } t) ∧
  (∀ s nb, (s.unit nb).running = true → (s.unit nb).suspended = true →
    ∃ t, exec (.bankCommandResume nb) s = .next t ∧ UnitOnly s nb { s.unit nb with suspended := false, windowOpen := true } t) ∧
  (∀ s nb b, s.allLive → s.memOk → s.rowsFree nb b → b.placedWell → (∀ zg, b.kind = .step zg → s.resilSel = 0) →
    ∃ t, exec (.bankCommandCompletion nb) s = .next t ∧ (∀ p ∈ b.results s.main, t.main.readWord p.1 = p.2) ∧
      (∀ a, (∀ p ∈ b.results s.main, ¬(p.1 ≤ a ∧ a < p.1 + 4)) → t.main.read a = s.main.read a) ∧ (t.unit nb).queue = (s.unit nb).queue.drop 1 ∧
      (∀ k, k ≠ nb → t.unit k = s.unit k) ∧
      (∀ team tid u, s.thread? team tid = some u → ∃ u', t.thread? team tid = some u' ∧ u'.v = u.v ∧ u'.p = u.p ∧ u'.status = u.status ∧ u'.stores = u.stores) ∧
      s.sameRows t ∧
      t = { s with main := t.main, hist := t.hist, bankUnits := t.bankUnits, threads := t.threads, groups := t.groups, teams := t.teams, cores := t.cores, nextId := t.nextId, freeCount := t.freeCount }) ∧
  (∀ s nb b zg, s.allLive → s.memOk → s.rowsFree nb b → b.placedWell → b.kind = .step zg → b.mirrored = false → s.resilSel = 1 → s.fabric.length + s.fabricDue + 3 ≤ 1024 →
    ∃ t, exec (.bankCommandCompletion nb) s = .next t ∧ (t.unit nb).queue.length = (s.unit nb).queue.length ∧ (∃ b', (t.unit nb).head = some b' ∧ b'.id = b.id ∧ b'.mirrored = true) ∧
      t.fabric.map (fun x => (x.node, x.len, x.what)) = s.fabric.map (fun x => (x.node, x.len, x.what)) ++
        [b.y, b.y + 2048, b.y + 4096].map (fun a => (s.resil.toNat / 65536, 2048, XferWhat.mirror a (t.main.readBytes a 2048)))) ∧
  (∀ s cmd, s.cmdWaits cmd = true → ∃ t, exec (.buddyAcknowledge cmd) s = .next t ∧ t = { s with bankUnits := s.cmdsWith cmd (fun b => { b with acked := true }) }) ∧
  (∀ s cmd b q, s.cmdWaits cmd = true → s.queuedCmd? cmd = some b → s.quorum? s.parityGroup = some q → q.takesParity s.hostCtl.fabNode = true →
    q.owner = s.hostCtl.fabNode → b.posted = false → (s.quorum.map (·.id)).Nodup → (∀ x ∈ s.quorum, ∀ e ∈ x.cur ++ x.ahead ++ x.late, e.cmd ≠ some cmd) →
    let m := q.members.findIdx (fun n => n == s.hostCtl.fabNode)
    let es := (s.parityOf b).mapIdx (fun i x => { q.parityUpdate m s.hostCtl.fabNode (some cmd) x with order := s.nextId + i })
    q.heldOf m ≤ 1 → s.huddleRoom q = true → q.inTurn s.clk m q.round.toNat = true →
    (s.huddleStop = true ∨ { q with cur := q.cur ++ es }.closes = false →
      ∃ t, exec (.parityFold cmd) s = .next t ∧ t = { s with bankUnits := t.bankUnits, quorum := t.quorum, nextId := s.nextId + 3 } ∧
        t.bankUnits = s.cmdsWith cmd (fun b => { b with posted := true }) ∧ (∀ k, k ≠ q.id → t.quorum? k = s.quorum? k) ∧
        t.quorum? q.id = some { q with cur := q.cur ++ es, taken := (s.clk + 1, m, q.round.toNat) }) ∧
    (s.huddleStop = false → q.k = 1 → q.cur = [] → q.ahead = [] → q.late = [] → s.fabricRoom (3 * q.members.length) = true →
      ∃ t q', exec (.parityFold cmd) s = .next t ∧ t = { s with bankUnits := t.bankUnits, quorum := t.quorum, fabric := t.fabric, nextId := t.nextId } ∧
        t.bankUnits = s.cmdsWith cmd (fun b => { b with posted := true, folded := true }) ∧ (∀ k, k ≠ q.id → t.quorum? k = s.quorum? k) ∧
        t.quorum? q.id = some q' ∧ q' = { q with round := q.round + 3, replica := q.round + 3, taken := q'.taken, shard := q'.shard } ∧
        ∀ i, q'.shard.getD i 0#8 = (s.parityOf b).foldl (fun x l => x ^^^ l.getD i 0#8) (q.shard.getD i 0#8))) ∧
  (∀ s cmd b q, s.cmdWaits cmd = true → s.queuedCmd? cmd = some b → s.quorum? s.parityGroup = some q → q.takesParity s.hostCtl.fabNode = true →
    q.owner ≠ s.hostCtl.fabNode → b.posted = true →
    ∃ t, exec (.parityFold cmd) s = .next t ∧ t = { s with bankUnits := t.bankUnits } ∧ t.bankUnits = s.cmdsWith cmd (fun b => { b with folded := true })) ∧
  (∀ s cmd b, s.cmdWaits cmd = true → s.queuedCmd? cmd = some b → (∀ q, s.quorum? s.parityGroup = some q → q.takesParity s.hostCtl.fabNode = false) →
    exec (.parityFold cmd) s = .next (s.stopHuddle s.parityGroup)) ∧
  (∀ s op o, s.power.tripped = false → s.allLive → s.xfer? op = some o → o.kind = .nmfence → s.cmdsBefore o = false → o.silent →
    ∃ t, exec (.nmfenceCompletion op) s = .next t ∧ t.xfers = s.xfers.filter (fun x => x.id != o.id) ∧ s.sameMemory t ∧
      ∀ tid u, s.thread? o.team tid = some u → ∃ u', t.thread? o.team tid = some u' ∧ u'.v = u.v ∧ u'.xfcnt = if tid ∈ o.counted then u.xfcnt - 1 else u.xfcnt) ∧
  (∀ s addr data, s.memOk → addr + data.length ≤ Config.mainBytes → s.rowBusy addr = false → s.power.minimal = false → ∃ t, exec (.buddyMirrorWrite addr data) s = .next t ∧
    t.main.readBytes addr data.length = data ∧ (∀ a, a < addr ∨ addr + data.length ≤ a → t.main.read a = s.main.read a) ∧
    t = { s with main := t.main, badWords := t.badWords, hist := t.hist }) ∧
  (∀ s nb, ∃ t, exec (.perBankRefresh nb) s = .next t ∧ UnitOnly s nb { s.unit nb with refreshes := (s.unit nb).refreshes + 1 } t)

/-- The events of the Huddle and of active messages (R225, R226, R227, R229, R231, R278, R292, R299, R352). -/
def Obligations.CollectiveEvents : Prop :=
  (∀ s op tid o p, s.power.tripped = false → s.allLive → s.badWords = [] → s.xfer? op = some o → o.part? tid = some p → o.kind = .qpost → p.done = false → p.data = none →
    s.partReady o p = true → (p.node = s.hostCtl.fabNode ∨ s.fabric.length < 1024) →
    ∃ t o' p', exec (.contributionRead op tid) s = .next t ∧ t.xfer? op = some o' ∧ o'.part? tid = some p' ∧ p'.data = some (s.partBytes o p) ∧
      p'.done = false ∧ (p'.sent = true ↔ p.node ≠ s.hostCtl.fabNode) ∧ s.sameMemory t ∧
      (p.node = s.hostCtl.fabNode → t.fabric = s.fabric) ∧
      (p.node ≠ s.hostCtl.fabNode → ∃ x, t.fabric = s.fabric ++ [x] ∧ x.node = p.node ∧ x.prio = p.prio ∧ x.len = p.len ∧
        x.what = .contribution p.group p.member p.tag (s.partBytes o p))) ∧
  (∀ s op tid o p data q, s.xfer? op = some o → o.part? tid = some p → p.data = some data → p.sent = false → p.done = false → s.quorum? p.group = some q →
    q.owner = s.hostCtl.fabNode → s.huddleRoom q = true → q.inTurn s.clk p.member p.tag = true → BitVec.ofNat 16 p.tag = q.round →
    ∃ t, exec (.quorumContributionArrival (.own op tid)) s = .next t ∧
      t = { s with xfers := t.xfers, quorum := t.quorum, qresults := t.qresults, fabric := t.fabric, nextId := t.nextId } ∧
      ∀ q1 e, e = { member := p.member, tag := p.tag, node := s.hostCtl.fabNode, op := some (op, tid), parity := false, cmd := none, prio := p.prio, order := s.nextId, data := data } → q1 = { q with cur := q.cur ++ [e], taken := (s.clk + 1, p.member, p.tag) } →
        (s.huddleStop = true ∨ q1.closes = false → t.quorum? p.group = some q1 ∧ t.qresults = s.qresults ∧ t.fabric = s.fabric) ∧
        (s.huddleStop = false → q1.closes = true → q.ahead = [] →
          t.quorum? p.group = some { q1 with round := q.round + 1, replica := q.round + 1, cur := [], late := q1.cur.filter (fun x => !q1.quorumOf.contains x.member) } ∧
          ∀ x ∈ q1.cur, x.member ∈ q1.quorumOf → ∀ a b, x.op = some (a, b) → ∃ y ∈ t.qresults, y.op = a ∧ y.tid = b ∧
            y.data = q1.combine (sortBy (fun z => z.member * 65536 + z.tag) (q1.cur.filter (fun z => q1.quorumOf.contains z.member) ++ q1.late)))) ∧
  (∀ s g m node data q, s.quorum? g = some q → q.owner = s.hostCtl.fabNode → m < q.n → q.members.getD m 65536 = node → node ≠ s.hostCtl.fabNode →
    s.power.minimal = false → data.length = 2048 →
    (q.takesParity node = true → q.heldOf m < 4 → s.huddleRoom q = true → q.inTurn s.clk m q.round.toNat = true →
      let q1 := { q with cur := q.cur ++ [{ q.parityUpdate m node none data with order := s.nextId }], taken := (s.clk + 1, m, q.round.toNat) }
      (s.huddleStop = true ∨ q1.closes = false) →
      ∃ t, exec (.quorumContributionArrival (.parity g m node data)) s = .next t ∧ t = { s with quorum := t.quorum, nextId := s.nextId + 1 } ∧
        t.quorum? g = some q1 ∧ ∀ k, k ≠ g → t.quorum? k = s.quorum? k) ∧
    (q.takesParity node = false → exec (.quorumContributionArrival (.parity g m node data)) s = .next (s.stopHuddle g))) ∧
  (∀ s op tid o p x, s.power.tripped = false → s.allLive → s.memOk → s.xfer? op = some o → o.part? tid = some p → s.qresults.find? (fun y => y.op == op && y.tid == tid) = some x →
    s.holdsFor o = false → s.landReady o.team tid op (scratchLoc o.team p.dst) p.len = true → p.done = false → o.silent → x.data.length = p.len →
    (s.team? o.team).isSome = true →
    ∃ t, exec (.qpostResultArrival op tid none) s = .next t ∧ t.memRead (scratchLoc o.team p.dst) p.len = x.data ∧
      (∀ l n, overlaps l n (scratchLoc o.team p.dst) p.len = false → t.memRead l n = s.memRead l n) ∧
      t.qresults = s.qresults.filter (fun y => !(y.op == op && y.tid == tid)) ∧
      ∀ i u, s.thread? o.team i = some u → i ∈ o.partTids tid → i ∈ o.counted → (o.parts.filter (fun z => !z.done)).length ≥ 2 →
        ∃ u', t.thread? o.team i = some u' ∧ u'.v = u.v ∧ u'.xfcnt = u.xfcnt - 1) ∧
  (∀ s g (r : BitVec 16) q, s.quorum? g = some q → q.owner ≠ s.hostCtl.fabNode → s.power.minimal = false → ∃ t, exec (.closureMessageArrival g r) s = .next t ∧
    t = { s with quorum := t.quorum } ∧ t.quorum? g = some { q with replica := r + 1 } ∧ ∀ k, k ≠ g → t.quorum? k = s.quorum? k) ∧
  (∀ s op tid o p q, s.xfer? op = some o → o.part? tid = some p → s.quorum? p.group = some q → o.kind = .qsync → p.done = false → p.sent = false →
    q.owner = s.hostCtl.fabNode → ∃ t, exec (.qsyncRequestArrival op tid none) s = .next t ∧ t = { s with xfers := t.xfers, qreplies := t.qreplies } ∧
      t.qreplies = s.qreplies ++ [{ op := op, tid := tid, round := q.round, count := (q.cur ++ q.ahead ++ q.late).countP (fun e => e.member == p.member) }]) ∧
  (∀ s op tid o p x u, s.power.tripped = false → s.allLive → s.xfer? op = some o → o.part? tid = some p → s.qreplies.find? (fun y => y.op == op && y.tid == tid) = some x →
    o.kind = .qsync → p.done = false → s.holdsFor o = false → o.silent → (∀ y ∈ s.threads, y.entering = none) → tid ∈ o.partTids tid → s.thread? o.team tid = some u →
    ∃ t u', exec (.qsyncReplyArrival op tid none) s = .next t ∧ s.sameMemory t ∧ t.thread? o.team tid = some u' ∧ u'.v = u.v ∧
      u'.pend = (u.arrive op [BitVec.ofNat 32 (x.round.toNat + 65536 * (x.count % 256))]).pend ∧
      t.qreplies = s.qreplies.filter (fun y => !(y.op == op && y.tid == tid))) ∧
  (∀ s op tid m k, s.msgRoom m.core = true → handlerValid (s.handler m.core m.handler) = true → handlerAsid (s.handler m.core m.handler) = m.asid →
    m.words.length ≤ 16 → m.node ≠ s.hostCtl.fabNode → s.power.minimal = false → s.core? m.core = some k →
    ∃ t, exec (.amsgArrival op tid (some m)) s = .next t ∧ t = { s with cores := t.cores } ∧
      t.core? m.core = some { k with msgs := k.msgs ++ [{ handler := m.handler, node := m.node, srcCore := m.srcCore, asid := m.asid, words := m.words, op := none, view := [] }] }) ∧
  (∀ s core k m team role entry item, s.allLive → s.core? core = some k → firstMsg (s.msgFate core) [] (k.msgs.take 64) = some (m, .append team role entry item) → m.op = none → s.power.tripped = false →
    ∃ t k', exec (.amsgAppend core) s = .next t ∧ t.core? core = some k' ∧ k'.msgs = dropMsg m k.msgs ∧ k'.bins = (k.append team role entry [item] m.view).bins ∧
      item = BitVec.ofNat 32 (m.node * 65536 + m.srcCore) :: BitVec.ofNat 32 (4 * m.words.length) :: m.words)

/-- The events of the fabric transmit queue and of the on-die network (R12, R16, R17, R18, R19, R22, R23, R279, R382, R395). -/
def Obligations.FabricAndNetworkEvents : Prop :=
  (∀ s port x, s.nextTransfer port = some x → x.len ≤ x.sentBytes + 512 → ∃ t, exec (.fabricPieceSend port) s = .next t ∧
    t.outbox = s.outbox ++ [{ x with sentBytes := x.len }] ∧ (∀ y ∈ t.fabric, y.id < s.nextId → y ∈ s.fabric ∧ y.id ≠ x.id) ∧
    (s.roundsStay → t = { s with fabric := s.fabric.filter (fun y => y.id != x.id), outbox := s.outbox ++ [{ x with sentBytes := x.len }] })) ∧
  (∀ s port x, s.nextTransfer port = some x → x.sentBytes + 512 < x.len → ∃ t, exec (.fabricPieceSend port) s = .next t ∧
    t = { s with fabric := t.fabric } ∧ t.fabric = s.fabric.map (fun y => if y.id = x.id then { x with sentBytes := x.sentBytes + 512 } else y)) ∧
  (∀ s id x, s.fabric.find? (fun y => y.id == id) = some x → s.reachable x.node = false → ∃ t, exec (.fabricTransferDrop id) s = .next t ∧
    (∀ y ∈ t.fabric, y.id < s.nextId → y ∈ s.fabric ∧ y.id ≠ id) ∧
    (s.roundsStay → s.allLive ∨ x.op = none → t.fabric = s.fabric.filter (fun y => y.id != id)) ∧
    (∀ g m tag data, x.what = .contribution g m tag data → t.huddleStop = true) ∧
    (∀ down mb data, x.what = .cadenceSend down mb data → t.cadence.state = 5)) ∧
  (∀ s port, port < 16 → s.failedPorts.contains port = false → ∃ t, exec (.fabricPortFailure port) s = .next t ∧ t.failedPorts = s.failedPorts ++ [port] ∧
    ∀ y ∈ t.fabric, y.id < s.nextId → y ∈ s.fabric ∧ ¬(s.portOf y.node = port ∧ y.node ≠ s.hostCtl.fabNode)) ∧
  (∀ s port, ∃ t, exec (.linkLevelRetry port) s = .next t ∧ t = { s with power := { s.power with retries := s.power.retries + 1 } }) ∧
  (∀ s r o, r < 64 → (s.router r).wait = none → o.dests ≠ [] → o.payload.length ≤ 128 → (∀ e ∈ o.dests, endpointExists e = true) → (s.router r).outstanding.length < 256 →
    ∃ t, exec (.packetInjection r o) s = .next t ∧ t = { s with routers := t.routers } ∧ (∀ k, k ≠ r → t.router k = s.router k) ∧
      t.router r = { s.router r with wait := some ({ router := r, seq := (s.router r).nextSeq, time := s.clk, dests := o.dests.dedup, crossed := false, payload := o.payload }, s.clk) }) ∧
  (∀ s r p e due, r < 64 → s.goldenStale = false → (s.router r).last ≠ s.clk + 1 → (s.router r).wait = none → s.transits.filter (fun x => x.at_ == r && decide (x.due ≤ s.clk)) = [{ at_ := r, due := due, pkt := p }] →
    p.dests = [e] → routerOf e = r → ∃ t, exec (.routerArbitration r) s = .next t ∧ t = { s with routers := t.routers, transits := t.transits } ∧
      t.transits = s.transits.filter (fun x => !(x.at_ == r && decide (x.due ≤ s.clk))) ∧
      ∀ x ∈ (t.router p.router).outstanding, x.1 = p.seq → e ∉ x.2) ∧
  (∀ s r p e due, r < 64 → s.goldenStale = false → (s.router r).last ≠ s.clk + 1 → (s.router r).wait = none → s.transits.filter (fun x => x.at_ == r && decide (x.due ≤ s.clk)) = [{ at_ := r, due := due, pkt := p }] →
    p.dests = [e] → routerOf e ≠ r → routerOf e / 4 = r / 4 → (s.router (routerOf e)).starved ≠ s.clk + 1 →
    ∃ t, exec (.routerArbitration r) s = .next t ∧ t = { s with routers := t.routers, transits := t.transits } ∧
      (∀ k, (t.router k).outstanding = (s.router k).outstanding) ∧
      t.transits = s.transits.filter (fun x => !(x.at_ == r && decide (x.due ≤ s.clk))) ++ [{ at_ := routerOf e, due := s.clk + 3, pkt := p }]) ∧
  (∀ s r p e since, r < 64 → s.goldenStale = false → (∃ q ∈ netPorts r, (s.router (q.far r)).starved ≠ s.clk + 1) → (s.router r).last ≠ s.clk + 1 → (s.router r).wait = some (p, since) → s.transits.filter (fun x => x.at_ == r && decide (x.due ≤ s.clk)) = [] → p.dests = [e] →
    ∃ t x, exec (.routerArbitration r) s = .next t ∧ t = { s with routers := t.routers, transits := t.transits } ∧
      t.router r = { s.router r with wait := none, starved := 0, last := s.clk + 1, nextSeq := (s.router r).nextSeq + 1, outstanding := (s.router r).outstanding ++ [(p.seq, [e])] } ∧
      t.transits = s.transits ++ [x] ∧ x.at_ ≠ r ∧ (x.due = s.clk + 3 ∨ x.due = s.clk + 5) ∧
      x.pkt.dests = [e] ∧ x.pkt.time = s.clk ∧ x.pkt.seq = p.seq ∧ x.pkt.payload = p.payload) ∧
  (∀ s r p since, (s.router r).wait = some (p, since) → since + 64 ≤ s.clk → ∃ t, exec (.starvationSignal r) s = .next t ∧ t = { s with routers := t.routers } ∧
    t.router r = { s.router r with starved := s.clk + 1 }) ∧
  (∀ s die, ∃ t, exec (.goldenEpoch die) s = .next t ∧ t = { s with golden := t.golden } ∧ t.goldenRouter die = s.clk / 4096 % 16 ∧
    ∀ d, d ≠ die → t.goldenRouter d = s.goldenRouter d) ∧
  (∀ s die quad other p rest, (s.gateway die quad other).tx = p :: rest → (s.gateway die quad other).sent ≠ s.clk + 1 → (s.gateway other quad die).rx.length < 64 → die ≠ other →
    ∃ t, exec (.sublinkCrossing die quad other) s = .next t ∧ t = { s with gateways := t.gateways } ∧ (t.gateway die quad other).tx = rest ∧
      (t.gateway other quad die).rx = (s.gateway other quad die).rx ++ [p]) ∧
  (∀ s die quad other p rest, (s.gateway die quad other).rx = p :: rest → 16 * die + 4 * quad + 3 < 64 → (s.router (16 * die + 4 * quad + 3)).wait = none →
    (s.router (16 * die + 4 * quad + 3)).outstanding.length < 256 →
    ∃ t q, exec (.gatewayInjection die quad other) s = .next t ∧ t = { s with gateways := t.gateways, routers := t.routers } ∧ (t.gateway die quad other).rx = rest ∧
      (t.router (16 * die + 4 * quad + 3)).wait = some (q, s.clk) ∧ q.dests = p.dests ∧ q.router = 16 * die + 4 * quad + 3)

/-- The events of launches and placement: a launch distributed, refused, resolved; a team and a home group placed (R31, R33, R34, R153, R154, R233, R252, R256, R269, R270, R271, R272). -/
def Obligations.LaunchAndPlacementEvents : Prop :=
  (∀ s ident q e rest b k, s.chooseQueue = some q → q.entries = e :: rest → s.preparing < Config.launchesPreparing → s.identFree ident = true → s.power.tripped = false →
    s.badWords = [] →
    s.readRecord q.asid e.record.toNat = .ok (b, k) → (∀ p ∈ s.rangePages q.asid (recordRanges b), p.2.2 = .good) →
    ∃ t l, exec (.dispatcherChoice ident) s = .next t ∧ t = { s with queues := t.queues, lastQueue := some q.id, launches := t.launches, nextId := t.nextId } ∧
      (t.queue q.id).entries = rest ∧ t.launches = s.launches ++ [l] ∧ l.ident = ident ∧ l.queue = q.id ∧ l.asid = q.asid ∧ l.record = e.record ∧ l.parent = e.parent ∧
      l.kernel = k ∧ l.phase = .ranges ∧ l.pending = [] ∧ l.nteam = field b 16 4 ∧ l.priv = ((field b 20 4).testBit 0 && e.priv) ∧ l.ftz = (field b 20 4).testBit 1 ∧
      l.cvcsat = 0 ∧ l.cvcftz = 0 ∧ l.cvcnan = 0 ∧ l.cvclim = BitVec.ofNat 32 (field b 24 4) ∧ l.args = BitVec.ofNat 64 (field b 8 8) ∧ l.view = e.view ∧ l.ended = [] ∧ l.doneVa = BitVec.ofNat 64 (field b 200 8)) ∧
  (∀ s ident q e rest code, s.chooseQueue = some q → q.entries = e :: rest → s.preparing < Config.launchesPreparing → s.identFree ident = true → s.power.tripped = false →
    s.readRecord q.asid e.record.toNat = .error code →
    ∃ t, exec (.dispatcherChoice ident) s = .next t ∧ t.launches = s.launches ∧ (t.queue q.id).entries = rest ∧ (t.queue q.id).errcode = code ∧ (t.queue q.id).errrec = e.record ∧
      (t.queue q.id).errcnt = min ((s.queue q.id).errcnt + 1) (2 ^ 24 - 1) ∧ t.main = s.main ∧ t.teams = s.teams) ∧
  (∀ s key l, s.launch? key = some l → l.phase = .ranges → l.stopped = false → (∀ f ∈ s.faults ++ s.faultsWaiting, ¬(f.launch = l.ident.toNat ∧ 4 ≤ f.kind)) →
    ∃ t, exec (.launchRangesResolved key) s = .next t ∧ t = { s with launches := t.launches } ∧ t.launch? key = some { l with phase := .running, pending := List.range l.nteam } ∧
      ∀ k, k ≠ key → t.launch? k = s.launch? k) ∧
  (∀ s w core hs bs st slot wish, s.nextPlaced = some (w, core) → w.saved = none → s.power.gating.contains (quadOf core) = false → s.power.gated.contains (quadOf core) = false →
    s.fitsOn w core = some (hs, bs, st) → lowestFree (s.slotsUsed core) Config.teamSlots = some slot → bs.length = hs.length →
    ∃ t x new, exec (.teamPlacement wish) s = .next t ∧ t = { s with teams := t.teams, groups := t.groups, threads := t.threads, launches := t.launches, nextId := t.nextId } ∧
      t.teams = s.teams ++ [x] ∧ x.launch = w.launch.key ∧ x.index = w.index ∧ x.place = .resident core slot ∧ x.lsm = [] ∧ x.acc = [] ∧ x.stackSlot = st ∧ x.since = s.clk ∧ x.apart w.launch.kernel s core ∧
      (∀ j, x.bar j = .zero) ∧ (∀ j, (x.tile j).conf = false) ∧ x.mode = (if w.launch.ftz then 1#32 else 0#32) ∧
      t.groups.length = s.groups.length + hs.length ∧ t.threads = s.threads ++ new ∧ new.length = (hs.map (·.g)).sum ∧
      (∀ u ∈ new, u.team = x.key ∧ u.status = .ready ∧ u.clause = none ∧ u.pc = (w.launch.kernel.role u.role).entry ∧ u.p = 0#8 ∧ u.since = s.clk ∧ u.ldcnt = 0 ∧ u.stcnt = 0 ∧
        u.xfcnt = 0 ∧ u.tlcnt = 0 ∧ u.path = 0#64 ∧ (∀ q ∈ w.launch.view, ∃ n ∈ u.know, n.loc = q.1 ∧ n.stamp = q.2 ∧ n.start = 0) ∧ u.v = (unpair w.launch.args ++ List.replicate (w.launch.kernel.role u.role).regs 0#32).take (w.launch.kernel.role u.role).regs) ∧
      (∀ l, s.launch? w.launch.key = some l → t.launch? w.launch.key = some { l with pending := l.pending.filter (fun i => i != w.index) })) ∧
  (∀ s w core x hs bs st slot wish, s.nextPlaced = some (w, core) → w.saved = some x → s.power.gating.contains (quadOf core) = false → s.power.gated.contains (quadOf core) = false →
    s.fitsOn w core = some (hs, bs, st) → lowestFree (s.slotsUsed core) Config.teamSlots = some slot → s.slotIntact x = false →
    exec (.teamPlacement wish) s = .next (s.killTeam x.key 0)) ∧
  (∀ s core bin k, s.core? core = some k → ∃ t k', exec (.spawnBinTimerExpiry core bin) s = .next t ∧ t = { s with cores := t.cores } ∧ t.core? core = some k' ∧
    k' = { k with bins := k'.bins } ∧ ∀ (j : Nat) b, k.bins[j]? = some b → k'.bins[j]? = some (if j = bin ∧ b.timer = 1 then { b with timer := 0 } else b)) ∧
  (∀ s core bin k b x l items block, s.core? core = some k → k.bins[bin]? = some b → s.team? b.team = some x → s.launch? x.launch = some l →
    b.ripe (l.kernel.role b.role).gsize = items → items ≠ [] → s.power.tripped = false → x.killed = false → b.role < l.kernel.roles.length →
    (s.threads.filter (fun u => u.team == x.key)).length + items.length ≤ 1024 →
    placeHgs (s.laneLoad core) l.kernel.rows [{ role := b.role, idx := x.nextIdx.getD b.role 0, g := (l.kernel.role b.role).gsize, regs := (l.kernel.role b.role).regs }] = some [block] →
    ∃ t new g, exec (.spawnGroupPlacement core bin) s = .next t ∧ t = { s with teams := t.teams, groups := t.groups, threads := t.threads, cores := t.cores } ∧
      t.groups = s.groups ++ [g] ∧ g.team = x.key ∧ g.role = b.role ∧ g.idx = x.nextIdx.getD b.role 0 ∧ g.block = block ∧ g.retired = false ∧
      t.threads = s.threads ++ new ∧ new.length = items.length ∧
      (∀ (i : Nat) u ws, new[i]? = some u → items[i]? = some ws → u.tid = x.nextTid + i ∧ u.role = b.role ∧ u.hidx = i ∧ u.lane = block * (l.kernel.role b.role).gsize + i ∧
        u.pc = b.entry ∧ u.status = .ready ∧ u.p = 0#8 ∧ u.v = (ws ++ List.replicate (l.kernel.role b.role).regs 0#32).take (l.kernel.role b.role).regs) ∧
      ∀ y, t.team? b.team = some y → y.nextTid = x.nextTid + items.length)

/-- SCHEDULER_CHOICE: the lead thread's group takes the free port; the end of a cycle counts it (R36, R37, R38, R39, R67, R68, R69, R73, R153, R302, R305). -/
def Obligations.SchedulerChoosesAGroup : Prop :=
  (∀ s core port k a x l hw ws at_ slot, s.allLive → s.coreReady core = true → s.core? core = some k → k.waiting = [] → (∀ u ∈ s.threads, u.convDue = none) →
    (k.port port).group = none → (port = 0 ∨ port = 1 ∧ k.port0.group.isSome = true) →
    s.lead port (s.threads.filter (fun u => s.isReady? k u)) = some a → s.team? a.team = some x → s.launch? x.launch = some l →
    (a.clause = none → at_ = a.pc ∧ slot = 0) → (∀ c, a.clause = some c → at_ = c.hdrAddr ∧ a.pc = at_ + BitVec.ofNat 57 (8 * (slot + 1)) ∧ 8 * (slot + 1) < 2 ^ 57) →
    (s.fetchWord core l.asid at_).1 = .word hw → hdrOk hw = true → ((s.fetchWord core l.asid at_).2.fetchWords core l.asid (at_ + 8#57) (hdrWords hw)).1 = .ok ws →
    clauseOk hw ws = true → slot < hdrWords hw →
    ∃ t k' g, exec (.schedulerChoice core port) s = .next t ∧ t.core? core = some k' ∧ (k'.port port).group = some g ∧ g.team = a.team ∧ g.role = a.role ∧
      g.hdrAddr = at_ ∧ g.hdr = hw ∧ g.words = ws ∧ g.slot = slot ∧ g.limit = x.limit a.role ∧
      g.members = (formGroup (x.limit a.role) a (s.threads.filter (fun u => s.isReady? k u))).map (·.tid) ∧ s.sameMemory t ∧
      ∀ tid u, s.thread? a.team tid = some u → ∃ u', t.thread? a.team tid = some u' ∧ u'.v = u.v ∧ u'.p = u.p ∧
        (tid ∈ g.members → u'.status = .inGroup ∧ u'.pc = at_ + BitVec.ofNat 57 (8 * (slot + 1)) ∧ u'.clause = some { hdrAddr := at_, hdr := hw }) ∧
        (tid ∉ g.members → u'.status = u.status ∧ u'.pc = u.pc)) ∧
  (∀ s rest, s.agenda = .cycle :: rest → s.power.powered = true → s.cycleOpen = true → step s = .next { s with agenda := rest }) ∧
  (∀ s rest, s.agenda = .cycle :: rest → s.power.powered = true → s.cycleOpen = false → (∀ c ∈ s.cores, c.waiting = [] ∧ c.trace.later = []) →
    ∃ t, step s = .next t ∧ t = { s with agenda := rest, clk := s.clk + 1, teams := t.teams, threads := t.threads, cores := t.cores, cadence := { s.cadence with acted := false, start := s.cadence.state, grid := t.cadence.grid } } ∧
      (t.cadence.grid = s.cadence.running.map (fun r => s.gridResident r.launch)) ∧
      (∀ k x, s.team? k = some x → ∃ x', t.team? k = some x' ∧ ((x.isResident = false ∨ s.power.tripped = true) → x' = x) ∧ (x.isResident = true → s.power.tripped = false →
        x' = { x with wdog := x.wdog + 1, wdogHit := x'.wdogHit, wdogAgain := x.wdogHandling } ∧ (x'.wdogHit = true ↔ x.killed = false ∧ ∃ l, s.launch? x.launch = some l ∧
          (s.asidOf l.asid).wdog.toNat % 32 ≠ 0 ∧ 2 ^ max 16 ((s.asidOf l.asid).wdog.toNat % 32) ≤ x.wdog))) ∧
      (∀ n c, s.core? n = some c → ∃ c', t.core? n = some c' ∧ c' = { c with bins := c'.bins } ∧ ∀ (j : Nat) b, c.bins[j]? = some b →
        c'.bins[j]? = some (if s.power.tripped = false ∧ 1 < b.timer then { b with timer := b.timer - 1 } else b)) ∧
      ∀ team tid u, s.thread? team tid = some u → ∃ u', t.thread? team tid = some u' ∧ u' = { u with since := u'.since } ∧
        (u'.since = u.since ∨ u.status = .ready ∧ u'.since = s.clk + 1))
end

