-- ==== Sys2Proof/Laws/Memory.lean ====
section
/-! SUPPORT. The laws of memory: the canonical form is kept, a read gives what was written last, and a write leaves
every other byte alone. -/

namespace Sys2Proof.Machine

/-! ### Bytes -/

theorem Memory.wf_nil : Memory.wf [] = true := rfl

theorem Memory.wf_cons (c : Host.Cell) (m : Memory) :
    Memory.wf (c :: m) = true ↔ (∀ d ∈ m, c.1 < d.1) ∧ c.2 ≠ Config.memFill ∧ m.wf = true := by
  simp only [Memory.wf, Bool.and_eq_true, decide_eq_true_eq, List.pairwise_cons, List.all_cons, bne_iff_ne, ne_eq]
  tauto

/-- Below its first cell a canonical memory reads as the fill byte. -/
theorem Memory.read_below (m : Memory) (a : Nat) (h : ∀ d ∈ m, a < d.1) : m.read a = Config.memFill := by
  cases m with
  | nil => rfl
  | cons c r =>
    have := h c (by simp)
    simp [Memory.read, this, Nat.ne_of_gt this]

theorem Memory.lt_write (m : Memory) (a n : Nat) (x : Byte) (hn : n < a) (h : ∀ d ∈ m, n < d.1) :
    ∀ d ∈ m.write a x, n < d.1 := by
  induction m with
  | nil => intro d hd; simp only [Memory.write] at hd; split at hd <;> simp_all
  | cons c r ih =>
    obtain ⟨b, y⟩ := c
    intro d hd
    simp only [List.mem_cons, forall_eq_or_imp] at h
    simp only [Memory.write] at hd
    split_ifs at hd <;> try simp only [List.mem_cons] at hd
    · rcases hd with rfl | hd
      exacts [h.1, h.2 d hd]
    · rcases hd with rfl | rfl | hd
      exacts [hn, h.1, h.2 d hd]
    · exact h.2 d hd
    · rcases hd with rfl | hd
      exacts [hn, h.2 d hd]
    · rcases hd with rfl | hd
      exacts [h.1, ih h.2 d hd]

/-- A write keeps the canonical form. -/
theorem Memory.write_wf (m : Memory) (a : Nat) (x : Byte) (h : m.wf = true) : (m.write a x).wf = true := by
  induction m with
  | nil => simp only [Memory.write]; split <;> simp_all [Memory.wf_cons, Memory.wf_nil]
  | cons c r ih =>
    obtain ⟨b, y⟩ := c
    rw [Memory.wf_cons] at h
    obtain ⟨h1, h2, h3⟩ := h
    simp only [Memory.write]
    split_ifs with hab hx he hx
    · exact (Memory.wf_cons _ _).2 ⟨h1, h2, h3⟩
    · refine (Memory.wf_cons _ _).2 ⟨?_, hx, (Memory.wf_cons _ _).2 ⟨h1, h2, h3⟩⟩
      simp only [List.mem_cons, forall_eq_or_imp]
      exact ⟨hab, fun d hd => lt_trans hab (h1 d hd)⟩
    · exact h3
    · subst he; exact (Memory.wf_cons _ _).2 ⟨h1, hx, h3⟩
    · exact (Memory.wf_cons _ _).2 ⟨Memory.lt_write r a b x (by omega) h1, h2, ih h3⟩

/-- A read of the byte written. -/
theorem Memory.read_write_same (m : Memory) (a : Nat) (x : Byte) (h : m.wf = true) : (m.write a x).read a = x := by
  induction m with
  | nil => simp only [Memory.write]; split <;> simp_all [Memory.read]
  | cons c r ih =>
    obtain ⟨b, y⟩ := c
    rw [Memory.wf_cons] at h
    obtain ⟨h1, h2, h3⟩ := h
    simp only [Memory.write]
    split_ifs with hab hx he hx
    · subst hx; exact Memory.read_below _ _ (by simp only [List.mem_cons, forall_eq_or_imp]; exact ⟨hab, fun d hd => lt_trans hab (h1 d hd)⟩)
    · simp [Memory.read]
    · subst hx he; exact Memory.read_below _ _ h1
    · simp [Memory.read]
    · have hba : b ≠ a := fun e => he e.symm
      simp only [Memory.read, hba, hab, if_false]
      exact ih h3

/-- A read of another byte. -/
theorem Memory.read_write_other (m : Memory) (a b : Nat) (x : Byte) (h : m.wf = true) (hn : b ≠ a) :
    (m.write a x).read b = m.read b := by
  induction m with
  | nil => simp only [Memory.write]; split <;> simp [Memory.read, Ne.symm hn]
  | cons c r ih =>
    obtain ⟨k, y⟩ := c
    rw [Memory.wf_cons] at h
    obtain ⟨h1, h2, h3⟩ := h
    simp only [Memory.write]
    split_ifs with hab hx he hx
    · rfl
    · by_cases hb : b < a
      · rw [Memory.read_below ((k, y) :: r) b (by
          simp only [List.mem_cons, forall_eq_or_imp]; exact ⟨lt_trans hb hab, fun d hd => lt_trans (lt_trans hb hab) (h1 d hd)⟩)]
        simp [Memory.read, hb, Ne.symm hn]
      · conv_lhs => rw [Memory.read]
        simp [Ne.symm hn, hb]
    · subst he
      by_cases hb : b < a
      · rw [Memory.read_below r b (fun d hd => lt_trans hb (h1 d hd))]
        simp [Memory.read, hb, Ne.symm hn]
      · conv_rhs => rw [Memory.read]
        simp [Ne.symm hn, hb]
    · subst he; simp [Memory.read, Ne.symm hn]
    · simp only [Memory.read]
      split_ifs <;> simp_all

/-! ### Runs of bytes -/

theorem Memory.writeBytes_wf (m : Memory) (a : Nat) (bs : List Byte) (h : m.wf = true) : (m.writeBytes a bs).wf = true := by
  induction bs generalizing m a with
  | nil => exact h
  | cons b r ih => exact ih _ _ (m.write_wf a b h)

/-- A write of bytes leaves every byte outside them. -/
theorem Memory.read_writeBytes_other (m : Memory) (a n : Nat) (bs : List Byte) (h : m.wf = true)
    (hn : n < a ∨ a + bs.length ≤ n) : (m.writeBytes a bs).read n = m.read n := by
  induction bs generalizing m a with
  | nil => rfl
  | cons b r ih =>
    simp only [List.length_cons] at hn
    rw [Memory.writeBytes, ih _ _ (m.write_wf a b h) (by omega), Memory.read_write_other _ _ _ _ h (by omega)]

/-- Each byte written reads back. -/
theorem Memory.read_writeBytes_same (m : Memory) (a : Nat) (bs : List Byte) (h : m.wf = true) (i : Nat) (hi : i < bs.length) :
    (m.writeBytes a bs).read (a + i) = bs[i] := by
  induction bs generalizing m a i with
  | nil => simp at hi
  | cons b r ih =>
    rw [Memory.writeBytes]
    cases i with
    | zero =>
      have e := Memory.read_writeBytes_other (m.write a b) (a + 1) a r (m.write_wf a b h) (by omega)
      simp only [Nat.add_zero, e, Memory.read_write_same _ _ _ h, List.getElem_cons_zero]
    | succ i =>
      have := ih (m.write a b) (a + 1) (m.write_wf a b h) i (by simpa using hi)
      rw [show a + (i + 1) = a + 1 + i by omega, this]
      rfl

theorem Memory.length_readBytes (m : Memory) (a n : Nat) : (m.readBytes a n).length = n := by simp [Memory.readBytes]

/-- The bytes written read back as a whole. -/
theorem Memory.readBytes_writeBytes (m : Memory) (a : Nat) (bs : List Byte) (h : m.wf = true) :
    (m.writeBytes a bs).readBytes a bs.length = bs := by
  apply List.ext_getElem (by simp [Memory.readBytes])
  intro i h1 h2
  simp only [Memory.readBytes, List.getElem_map, List.getElem_range]
  exact Memory.read_writeBytes_same m a bs h i h2

/-- Bytes that a write does not touch read as before. -/
theorem Memory.readBytes_writeBytes_other (m : Memory) (a b n : Nat) (bs : List Byte) (h : m.wf = true)
    (hn : b + n ≤ a ∨ a + bs.length ≤ b) : (m.writeBytes a bs).readBytes b n = m.readBytes b n := by
  apply List.map_congr_left
  intro i hi
  rw [List.mem_range] at hi
  exact Memory.read_writeBytes_other m a (b + i) bs h (by omega)

theorem Memory.writeWord_wf (m : Memory) (a : Nat) (w : Word) (h : m.wf = true) : (m.writeWord a w).wf = true :=
  m.writeBytes_wf _ _ h

/-! ### The memories of the machine -/

/-- Memories that are equal are canonical together. -/
theorem State.memOk.congr {s t : State} (h : s.memOk) (h1 : t.main = s.main) (h2 : t.dsm = s.dsm) (h3 : t.sys = s.sys)
    (h4 : ∀ x ∈ t.teams, ∃ y ∈ s.teams, x.lsm = y.lsm ∧ x.acc = y.acc) : t.memOk where
  main := h1 ▸ h.main
  dsm := h2 ▸ h.dsm
  sys := h3 ▸ h.sys
  lsm x hx := by obtain ⟨y, hy, e, -⟩ := h4 x hx; exact e ▸ h.lsm y hy
  acc x hx := by obtain ⟨y, hy, -, e⟩ := h4 x hx; exact e ▸ h.acc y hy

/-- An update of a team that keeps its memories canonical. -/
theorem State.memOk.modTeam {s : State} (h : s.memOk) (key : Nat) (f : Team → Team)
    (hl : ∀ x, x.lsm.wf = true → (f x).lsm.wf = true) (ha : ∀ x, x.acc.wf = true → (f x).acc.wf = true) : (s.modTeam key f).memOk where
  main := h.main
  dsm := h.dsm
  sys := h.sys
  lsm x hx := by
    simp only [State.modTeam, updWhere, List.mem_map] at hx
    obtain ⟨y, hy, rfl⟩ := hx
    split
    · exact hl y (h.lsm y hy)
    · exact h.lsm y hy
  acc x hx := by
    simp only [State.modTeam, updWhere, List.mem_map] at hx
    obtain ⟨y, hy, rfl⟩ := hx
    split
    · exact ha y (h.acc y hy)
    · exact h.acc y hy

/-- A store through a place keeps every memory canonical. -/
theorem State.memOk.memStore {s : State} (h : s.memOk) (l : Loc) (bs : List Byte) : (s.memStore l bs).memOk := by
  obtain ⟨sp, a⟩ := l
  unfold State.memStore
  rcases sp with team | _ | _ | _ <;> dsimp only <;> split
  · exact h.modTeam _ _ (fun x hx => x.lsm.writeBytes_wf _ _ hx) (fun x hx => hx)
  · have h' := h.modTeam team (fun t => { t with lsm := t.lsm.writeBytes a bs }) (fun x hx => x.lsm.writeBytes_wf _ _ hx) (fun x hx => hx)
    exact ⟨h'.main, h'.dsm, h'.sys, h'.lsm, h'.acc⟩
  · exact ⟨h.main, s.dsm.writeBytes_wf _ _ h.dsm, h.sys, h.lsm, h.acc⟩
  · exact ⟨h.main, s.dsm.writeBytes_wf _ _ h.dsm, h.sys, h.lsm, h.acc⟩
  · exact ⟨s.main.writeBytes_wf _ _ h.main, h.dsm, h.sys, h.lsm, h.acc⟩
  · exact ⟨s.main.writeBytes_wf _ _ h.main, h.dsm, h.sys, h.lsm, h.acc⟩
  · exact ⟨h.main, h.dsm, s.sys.writeBytes_wf _ _ h.sys, h.lsm, h.acc⟩
  · exact ⟨h.main, h.dsm, s.sys.writeBytes_wf _ _ h.sys, h.lsm, h.acc⟩

/-- So does a write that leaves no earlier one to be read. -/
theorem State.memOk.memWrite {s : State} (h : s.memOk) (l : Loc) (bs : List Byte) : (s.memWrite l bs).memOk := by
  have h' := h.memStore l bs
  unfold State.memWrite
  dsimp only
  split
  · exact h'
  · exact ⟨h'.main, h'.dsm, h'.sys, h'.lsm, h'.acc⟩

/-- So does a write that takes its place in the order of its word. -/
theorem State.memOk.pushWord {s : State} (h : s.memOk) (l : Loc) (bs : List Byte) (who : Option Sync) (ys : List Sync)
    (chain : Bool) : (s.pushWord l bs who ys chain).memOk := by
  have h' := h.memStore l bs
  exact ⟨h'.main, h'.dsm, h'.sys, h'.lsm, h'.acc⟩

theorem State.memOk.pushBytes {s : State} (h : s.memOk) (l : Loc) (bs : List Byte) (who : Option Sync) (ys : List Sync)
    (chain : Bool) : (s.pushBytes l bs who ys chain).memOk := by
  unfold State.pushBytes
  generalize List.range _ = is
  induction is generalizing s with
  | nil => exact h
  | cons i r ih => exact ih (h.pushWord _ _ _ _ _)

theorem State.memOk.postEvent {s : State} (h : s.memOk) (ty : Nat) (d : List Byte) : (s.postEvent ty d).memOk where
  main := h.main
  dsm := h.dsm
  sys := s.sys.writeBytes_wf _ _ h.sys
  lsm := h.lsm
  acc := h.acc

theorem reset_memOk : State.reset.memOk where
  main := rfl
  dsm := rfl
  sys := rfl
  lsm _ h := nomatch h
  acc _ h := nomatch h

theorem reset_regsOk : State.reset.regsOk :=
  ⟨by decide, by decide, by decide, by decide, fun _ h => nomatch h⟩

end Sys2Proof.Machine
end

