-- ==== Sys2Proof/Laws/Canonical.lean ====
section
/-! SUPPORT. Canonical memories and the bounds of the special registers, the pieces: what the updates, the loops and the results of the
model keep. -/

namespace Sys2Proof.Machine

/-- A canonical memory, up to unfolding. -/
theorem wf_id {m : Memory} (h : m.wf = true) : m.wf = true := h

/-- From `ref0` to a state the memories stay canonical and the special registers within their bounds. -/
structure State.kept (s ref0 : State) : Prop where
  mem : ref0.memOk → s.memOk
  regs : ref0.regsOk → s.regsOk

theorem State.kept.refl (s : State) : s.kept s := ⟨id, id⟩

theorem State.kept.trans {r s t : State} (h : t.kept s) (h' : s.kept r) : t.kept r := ⟨fun x => h.mem (h'.mem x), fun
    x => h.regs (h'.regs x)⟩

/-- A next state is kept. -/
def OutOk (ref0 : State) : Out → Prop
  | .next t => t.kept ref0
  | _ => True

/-- A state, where there is one, is kept. -/
def OptOk (ref0 : State) : Option State → Prop
  | some t => t.kept ref0
  | none => True

/-- A state, where there is no cause, is kept. -/
def ExcOk (ref0 : State) {ε : Type} : Except ε State → Prop
  | .ok t => t.kept ref0
  | .error _ => True
variable {ref0 : State}

/-- A state that has the same memories, teams and special registers. -/
theorem State.kept.congr {s t : State} (h : s.kept ref0) (h1 : t.main = s.main) (h2 : t.dsm = s.dsm) (h3 : t.sys =
    s.sys) (h4 : t.teams = s.teams)
    (h5 : t.trctl = s.trctl) (h6 : t.resil = s.resil) (h7 : t.faultRetryMax = s.faultRetryMax) (h8 : t.nmwin =
    s.nmwin) : t.kept ref0 :=
  ⟨fun h0 => have h := h.mem h0; ⟨h1 ▸ h.main, h2 ▸ h.dsm, h3 ▸ h.sys, h4 ▸ h.lsm, h4 ▸ h.acc⟩,
   fun h0 => have h := h.regs h0; ⟨h5 ▸ h.trctl, h6 ▸ h.resil, h7 ▸ h.retry, h8 ▸ h.nmwin, h4 ▸ h.teams⟩⟩

/-- The state of a pair that is known. -/
theorem pair2_kept {α : Type} {p : α × State} {a : α} {t : State} (e : p = (a, t)) (h : p.2.kept ref0) : t.kept ref0
    := by subst e; exact h

/-- The state of a pair that is known. -/
theorem pair1_kept {α : Type} {p : State × α} {a : α} {t : State} (e : p = (t, a)) (h : p.1.kept ref0) : t.kept ref0
    := by subst e; exact h

/-- The state of a triple that is known. -/
theorem pair21_kept {α β : Type} {p : α × State × β} {a : α} {b : β} {t : State} (e : p = (a, t, b)) (h : p.2.1.kept
    ref0) : t.kept ref0 := by subst e; exact h

/-- The state of an option that is known. -/
theorem opt_kept {o : Option State} {t : State} (e : o = some t) (h : OptOk ref0 o) : t.kept ref0 := by subst e; exact h

/-- The state of a result that is known. -/
theorem exc_kept {ε : Type} {o : Except ε State} {t : State} (e : o = .ok t) (h : ExcOk ref0 o) : t.kept ref0 := by
    subst e; exact h

/-- The state of an outcome that is known. -/
theorem out_kept {o : Out} {t : State} (e : o = .next t) (h : OutOk ref0 o) : t.kept ref0 := by subst e; exact h

/-- What each turn of a loop keeps, the loop keeps. -/
theorem foldl_kept {α : Type} (f : State → α → State) (l : List α) (s : State) (h : s.kept ref0) (hf : ∀ s x, s.kept
    ref0 → (f s x).kept ref0) :
    (l.foldl f s).kept ref0 := by
  induction l generalizing s with
  | nil => exact h
  | cons a l ih => exact ih _ (hf _ _ h)

/-- An update of fields that are no memory, no team and no special register. -/
theorem mk_kept (s : State) (clk : Nat) (power : Power) (launches : List Launch) (groups : List HomeGroup) (threads :
    List Thread) (cores : List Core) (absent : List Loc) (dsmTags : List (Nat × Nat)) (hist : List Wr) (lineViews :
    List (Loc × View)) (loads : List LoadOp) (xfers : List XferOp) (tileOps : List TileOp) (tlbinvs : List TlbInv)
    (queues : List Queue) (lastQueue : Option Nat) (asids : List AsidEntry) (regions : List Region) (conversions :
    List Conversion) (placement : List Placed) (transit : Option LineMove) (dones : List DoneWrite) (mcast : List
    McGroup) (cadence : Cadence) (quorum : List QGroup) (decls : List (Nat × List Byte)) (huddleStop : Bool) (stopGrp
    : Nat) (qresults : List QResult) (qreplies : List QReply) (faults : List FaultRec) (faultsWaiting : List FaultRec)
    (watch : List (BitVec 128)) (fabric : List Transfer) (outbox : List Transfer) (routes : List (Nat × BitVec 16))
    (failedPorts : List Nat) (bankUnits : List BankUnit) (waitingCmds : List BankCmd) (mailbox : Mailbox) (hostCtl :
    HostCtl) (badWords : List Loc) (routers : List Router) (transits : List Transit) (gateways : List Gateway) (golden
    : List Golden) (nextId : Nat) (freeCount : Nat) (agenda : List Turn) (cur : Cur) (shadow : Option Shadow) (h :
    s.kept ref0) :
    State.kept (ref0 := ref0) {
      clk := clk,
      power := power,
      resil := s.resil,
      nmwin := s.nmwin,
      faultRetryMax := s.faultRetryMax,
      trctl := s.trctl,
      launches := launches,
      teams := s.teams,
      groups := groups,
      threads := threads,
      cores := cores,
      main := s.main,
      dsm := s.dsm,
      sys := s.sys,
      absent := absent,
      dsmTags := dsmTags,
      hist := hist,
      lineViews := lineViews,
      loads := loads,
      xfers := xfers,
      tileOps := tileOps,
      tlbinvs := tlbinvs,
      queues := queues,
      lastQueue := lastQueue,
      asids := asids,
      regions := regions,
      conversions := conversions,
      placement := placement,
      transit := transit,
      dones := dones,
      mcast := mcast,
      cadence := cadence,
      quorum := quorum,
      decls := decls,
      huddleStop := huddleStop,
      stopGrp := stopGrp,
      qresults := qresults,
      qreplies := qreplies,
      faults := faults,
      faultsWaiting := faultsWaiting,
      watch := watch,
      fabric := fabric,
      outbox := outbox,
      routes := routes,
      failedPorts := failedPorts,
      bankUnits := bankUnits,
      waitingCmds := waitingCmds,
      mailbox := mailbox,
      hostCtl := hostCtl,
      badWords := badWords,
      routers := routers,
      transits := transits,
      gateways := gateways,
      golden := golden,
      nextId := nextId,
      freeCount := freeCount,
      agenda := agenda,
      cur := cur,
      shadow := shadow } :=
  ⟨fun h0 => have h := h.mem h0; ⟨h.main, h.dsm, h.sys, h.lsm, h.acc⟩,
   fun h0 => have h := h.regs h0; ⟨h.trctl, h.resil, h.retry, h.nmwin, h.teams⟩⟩

/-- The memories of a team are canonical. -/
def Team.memOk (x : Team) : Prop := x.lsm.wf = true ∧ x.acc.wf = true

/-- Every team of a list has a property. -/
def AllTeams (P : Team → Prop) (ts : List Team) : Prop := ∀ x ∈ ts, P x

/-- Teams that have canonical memories and registers within their bounds. -/
def TeamsOk (ts : List Team) : Prop := AllTeams Team.memOk ts ∧ AllTeams Team.regsOk ts

theorem State.memOk.teams {s : State} (h : s.memOk) : AllTeams Team.memOk s.teams := fun x hx => ⟨h.lsm x hx, h.acc x hx⟩

theorem updWhere_teams {P : Team → Prop} (ts : List Team) (p : Team → Bool) (f : Team → Team) (h : AllTeams P ts) (hf
    : ∀ x, P x → P (f x)) :
    AllTeams P (updWhere p f ts) := by
  intro x hx
  simp only [updWhere, List.mem_map] at hx
  obtain ⟨y, hy, rfl⟩ := hx
  split
  · exact hf y (h y hy)
  · exact h y hy

theorem filter_teams {P : Team → Prop} (ts : List Team) (p : Team → Bool) (h : AllTeams P ts) : AllTeams P (ts.filter p) :=
  fun x hx => h x (List.mem_filter.mp hx).1

theorem append_teams {P : Team → Prop} (a b : List Team) (h : AllTeams P a) (h' : AllTeams P b) : AllTeams P (a ++ b) :=
  fun x hx => (List.mem_append.mp hx).elim (h x) (h' x)

theorem map_teams {P : Team → Prop} (ts : List Team) (f : Team → Team) (h : AllTeams P ts) (hf : ∀ x, P x → P (f x)) :
    AllTeams P (ts.map f) := by
  intro x hx
  obtain ⟨y, hy, rfl⟩ := List.mem_map.mp hx
  exact hf y (h y hy)

/-- The registers of a team, up to unfolding. -/
theorem regs_id {x : Team} (h : x.regsOk) : x.regsOk := h

/-- An update of a barrier register keeps EXP within its bound. -/
def BarKept (f : Barrier → Barrier) : Prop := ∀ y, y.exp ≤ 4095 → (f y).exp ≤ 4095

theorem regs_mapBars {x : Team} (f : Barrier → Barrier) (h : x.regsOk) (hf : BarKept f) :
    Team.regsOk { x with bars := x.bars.map f } := by
  refine ⟨h.1, h.2.1, fun y hy => ?_⟩
  obtain ⟨z, hz, rfl⟩ := List.mem_map.mp hy
  exact hf z (h.2.2 z hz)

theorem updAt_all {α : Type} {P : α → Prop} (i : Nat) (f : α → α) (l : List α) (h : ∀ y ∈ l, P y) (hf : ∀ y, P y → P (f y)) :
    ∀ y ∈ updAt i f l, P y := by
  induction l generalizing i with
  | nil => unfold updAt; exact h
  | cons x r ih =>
    rw [List.forall_mem_cons] at h
    cases i with
    | zero => exact List.forall_mem_cons.mpr ⟨hf x h.1, h.2⟩
    | succ i => exact List.forall_mem_cons.mpr ⟨h.1, ih i h.2⟩

theorem regs_modBar {x : Team} (b : Nat) (f : Barrier → Barrier) (h : x.regsOk) (hf : BarKept f) : (x.modBar b f).regsOk :=
  ⟨h.1, h.2.1, updAt_all b f x.bars h.2.2 hf⟩

theorem regs_progress {x : Team} (h : x.regsOk) : x.progress.regsOk := by
  unfold Team.progress; split <;> exact h

theorem wf_and {m n : Memory} (h : m.wf = true) (h' : n.wf = true) : m.wf = true ∧ n.wf = true := ⟨h, h'⟩

/-- An update of some teams. -/
theorem mkUpd_kept (s : State) (p : Team → Bool) (f : Team → Team) (clk : Nat) (power : Power) (launches : List
    Launch) (groups : List HomeGroup) (threads : List Thread) (cores : List Core) (absent : List Loc) (dsmTags : List
    (Nat × Nat)) (hist : List Wr) (lineViews : List (Loc × View)) (loads : List LoadOp) (xfers : List XferOp) (tileOps
    : List TileOp) (tlbinvs : List TlbInv) (queues : List Queue) (lastQueue : Option Nat) (asids : List AsidEntry)
    (regions : List Region) (conversions : List Conversion) (placement : List Placed) (transit : Option LineMove)
    (dones : List DoneWrite) (mcast : List McGroup) (cadence : Cadence) (quorum : List QGroup) (decls : List (Nat ×
    List Byte)) (huddleStop : Bool) (stopGrp : Nat) (qresults : List QResult) (qreplies : List QReply) (faults : List
    FaultRec) (faultsWaiting : List FaultRec) (watch : List (BitVec 128)) (fabric : List Transfer) (outbox : List
    Transfer) (routes : List (Nat × BitVec 16)) (failedPorts : List Nat) (bankUnits : List BankUnit) (waitingCmds :
    List BankCmd) (mailbox : Mailbox) (hostCtl : HostCtl) (badWords : List Loc) (routers : List Router) (transits :
    List Transit) (gateways : List Gateway) (golden : List Golden) (nextId : Nat) (freeCount : Nat) (agenda : List
    Turn) (cur : Cur) (shadow : Option Shadow) (h : s.kept ref0) (hf : ∀ x, x.lsm.wf = true → x.acc.wf = true → (f
    x).lsm.wf = true ∧ (f x).acc.wf = true)
    (hr : ∀ x, x.regsOk → (f x).regsOk) :
    State.kept (ref0 := ref0) {
      clk := clk,
      power := power,
      resil := s.resil,
      nmwin := s.nmwin,
      faultRetryMax := s.faultRetryMax,
      trctl := s.trctl,
      launches := launches,
      teams := updWhere p f s.teams,
      groups := groups,
      threads := threads,
      cores := cores,
      main := s.main,
      dsm := s.dsm,
      sys := s.sys,
      absent := absent,
      dsmTags := dsmTags,
      hist := hist,
      lineViews := lineViews,
      loads := loads,
      xfers := xfers,
      tileOps := tileOps,
      tlbinvs := tlbinvs,
      queues := queues,
      lastQueue := lastQueue,
      asids := asids,
      regions := regions,
      conversions := conversions,
      placement := placement,
      transit := transit,
      dones := dones,
      mcast := mcast,
      cadence := cadence,
      quorum := quorum,
      decls := decls,
      huddleStop := huddleStop,
      stopGrp := stopGrp,
      qresults := qresults,
      qreplies := qreplies,
      faults := faults,
      faultsWaiting := faultsWaiting,
      watch := watch,
      fabric := fabric,
      outbox := outbox,
      routes := routes,
      failedPorts := failedPorts,
      bankUnits := bankUnits,
      waitingCmds := waitingCmds,
      mailbox := mailbox,
      hostCtl := hostCtl,
      badWords := badWords,
      routers := routers,
      transits := transits,
      gateways := gateways,
      golden := golden,
      nextId := nextId,
      freeCount := freeCount,
      agenda := agenda,
      cur := cur,
      shadow := shadow } :=
  ⟨fun h0 => have h := h.mem h0
    have ht : AllTeams Team.memOk (updWhere p f s.teams) := updWhere_teams _ _ _ h.teams (fun x hx => hf x hx.1 hx.2)
    ⟨h.main, h.dsm, h.sys, fun x hx => (ht x hx).1, fun x hx => (ht x hx).2⟩,
   fun h0 => have h := h.regs h0
    ⟨h.trctl, h.resil, h.retry, h.nmwin, updWhere_teams _ _ _ h.teams hr⟩⟩

/-- Teams taken out. -/
theorem mkFilter_kept (s : State) (p : Team → Bool) (clk : Nat) (power : Power) (launches : List Launch) (groups :
    List HomeGroup) (threads : List Thread) (cores : List Core) (absent : List Loc) (dsmTags : List (Nat × Nat)) (hist
    : List Wr) (lineViews : List (Loc × View)) (loads : List LoadOp) (xfers : List XferOp) (tileOps : List TileOp)
    (tlbinvs : List TlbInv) (queues : List Queue) (lastQueue : Option Nat) (asids : List AsidEntry) (regions : List
    Region) (conversions : List Conversion) (placement : List Placed) (transit : Option LineMove) (dones : List
    DoneWrite) (mcast : List McGroup) (cadence : Cadence) (quorum : List QGroup) (decls : List (Nat × List Byte))
    (huddleStop : Bool) (stopGrp : Nat) (qresults : List QResult) (qreplies : List QReply) (faults : List FaultRec)
    (faultsWaiting : List FaultRec) (watch : List (BitVec 128)) (fabric : List Transfer) (outbox : List Transfer)
    (routes : List (Nat × BitVec 16)) (failedPorts : List Nat) (bankUnits : List BankUnit) (waitingCmds : List
    BankCmd) (mailbox : Mailbox) (hostCtl : HostCtl) (badWords : List Loc) (routers : List Router) (transits : List
    Transit) (gateways : List Gateway) (golden : List Golden) (nextId : Nat) (freeCount : Nat) (agenda : List Turn)
    (cur : Cur) (shadow : Option Shadow) (h : s.kept ref0) :
    State.kept (ref0 := ref0) {
      clk := clk,
      power := power,
      resil := s.resil,
      nmwin := s.nmwin,
      faultRetryMax := s.faultRetryMax,
      trctl := s.trctl,
      launches := launches,
      teams := s.teams.filter p,
      groups := groups,
      threads := threads,
      cores := cores,
      main := s.main,
      dsm := s.dsm,
      sys := s.sys,
      absent := absent,
      dsmTags := dsmTags,
      hist := hist,
      lineViews := lineViews,
      loads := loads,
      xfers := xfers,
      tileOps := tileOps,
      tlbinvs := tlbinvs,
      queues := queues,
      lastQueue := lastQueue,
      asids := asids,
      regions := regions,
      conversions := conversions,
      placement := placement,
      transit := transit,
      dones := dones,
      mcast := mcast,
      cadence := cadence,
      quorum := quorum,
      decls := decls,
      huddleStop := huddleStop,
      stopGrp := stopGrp,
      qresults := qresults,
      qreplies := qreplies,
      faults := faults,
      faultsWaiting := faultsWaiting,
      watch := watch,
      fabric := fabric,
      outbox := outbox,
      routes := routes,
      failedPorts := failedPorts,
      bankUnits := bankUnits,
      waitingCmds := waitingCmds,
      mailbox := mailbox,
      hostCtl := hostCtl,
      badWords := badWords,
      routers := routers,
      transits := transits,
      gateways := gateways,
      golden := golden,
      nextId := nextId,
      freeCount := freeCount,
      agenda := agenda,
      cur := cur,
      shadow := shadow } :=
  ⟨fun h0 => have h := h.mem h0
    have ht : AllTeams Team.memOk (s.teams.filter p) := filter_teams _ _ h.teams
    ⟨h.main, h.dsm, h.sys, fun x hx => (ht x hx).1, fun x hx => (ht x hx).2⟩,
   fun h0 => have h := h.regs h0
    ⟨h.trctl, h.resil, h.retry, h.nmwin, filter_teams _ _ h.teams⟩⟩

/-- Teams added. -/
theorem mkAppend_kept (s : State) (l : List Team) (clk : Nat) (power : Power) (launches : List Launch) (groups : List
    HomeGroup) (threads : List Thread) (cores : List Core) (absent : List Loc) (dsmTags : List (Nat × Nat)) (hist :
    List Wr) (lineViews : List (Loc × View)) (loads : List LoadOp) (xfers : List XferOp) (tileOps : List TileOp)
    (tlbinvs : List TlbInv) (queues : List Queue) (lastQueue : Option Nat) (asids : List AsidEntry) (regions : List
    Region) (conversions : List Conversion) (placement : List Placed) (transit : Option LineMove) (dones : List
    DoneWrite) (mcast : List McGroup) (cadence : Cadence) (quorum : List QGroup) (decls : List (Nat × List Byte))
    (huddleStop : Bool) (stopGrp : Nat) (qresults : List QResult) (qreplies : List QReply) (faults : List FaultRec)
    (faultsWaiting : List FaultRec) (watch : List (BitVec 128)) (fabric : List Transfer) (outbox : List Transfer)
    (routes : List (Nat × BitVec 16)) (failedPorts : List Nat) (bankUnits : List BankUnit) (waitingCmds : List
    BankCmd) (mailbox : Mailbox) (hostCtl : HostCtl) (badWords : List Loc) (routers : List Router) (transits : List
    Transit) (gateways : List Gateway) (golden : List Golden) (nextId : Nat) (freeCount : Nat) (agenda : List Turn)
    (cur : Cur) (shadow : Option Shadow) (h : s.kept ref0) (hl : TeamsOk l) :
    State.kept (ref0 := ref0) {
      clk := clk,
      power := power,
      resil := s.resil,
      nmwin := s.nmwin,
      faultRetryMax := s.faultRetryMax,
      trctl := s.trctl,
      launches := launches,
      teams := s.teams ++ l,
      groups := groups,
      threads := threads,
      cores := cores,
      main := s.main,
      dsm := s.dsm,
      sys := s.sys,
      absent := absent,
      dsmTags := dsmTags,
      hist := hist,
      lineViews := lineViews,
      loads := loads,
      xfers := xfers,
      tileOps := tileOps,
      tlbinvs := tlbinvs,
      queues := queues,
      lastQueue := lastQueue,
      asids := asids,
      regions := regions,
      conversions := conversions,
      placement := placement,
      transit := transit,
      dones := dones,
      mcast := mcast,
      cadence := cadence,
      quorum := quorum,
      decls := decls,
      huddleStop := huddleStop,
      stopGrp := stopGrp,
      qresults := qresults,
      qreplies := qreplies,
      faults := faults,
      faultsWaiting := faultsWaiting,
      watch := watch,
      fabric := fabric,
      outbox := outbox,
      routes := routes,
      failedPorts := failedPorts,
      bankUnits := bankUnits,
      waitingCmds := waitingCmds,
      mailbox := mailbox,
      hostCtl := hostCtl,
      badWords := badWords,
      routers := routers,
      transits := transits,
      gateways := gateways,
      golden := golden,
      nextId := nextId,
      freeCount := freeCount,
      agenda := agenda,
      cur := cur,
      shadow := shadow } :=
  ⟨fun h0 => have h := h.mem h0
    have ht : AllTeams Team.memOk (s.teams ++ l) := append_teams _ _ h.teams (hl.1)
    ⟨h.main, h.dsm, h.sys, fun x hx => (ht x hx).1, fun x hx => (ht x hx).2⟩,
   fun h0 => have h := h.regs h0
    ⟨h.trctl, h.resil, h.retry, h.nmwin, append_teams _ _ h.teams hl.2⟩⟩

/-- An update of every team. -/
theorem mkMap_kept (s : State) (f : Team → Team) (clk : Nat) (power : Power) (launches : List Launch) (groups : List
    HomeGroup) (threads : List Thread) (cores : List Core) (absent : List Loc) (dsmTags : List (Nat × Nat)) (hist :
    List Wr) (lineViews : List (Loc × View)) (loads : List LoadOp) (xfers : List XferOp) (tileOps : List TileOp)
    (tlbinvs : List TlbInv) (queues : List Queue) (lastQueue : Option Nat) (asids : List AsidEntry) (regions : List
    Region) (conversions : List Conversion) (placement : List Placed) (transit : Option LineMove) (dones : List
    DoneWrite) (mcast : List McGroup) (cadence : Cadence) (quorum : List QGroup) (decls : List (Nat × List Byte))
    (huddleStop : Bool) (stopGrp : Nat) (qresults : List QResult) (qreplies : List QReply) (faults : List FaultRec)
    (faultsWaiting : List FaultRec) (watch : List (BitVec 128)) (fabric : List Transfer) (outbox : List Transfer)
    (routes : List (Nat × BitVec 16)) (failedPorts : List Nat) (bankUnits : List BankUnit) (waitingCmds : List
    BankCmd) (mailbox : Mailbox) (hostCtl : HostCtl) (badWords : List Loc) (routers : List Router) (transits : List
    Transit) (gateways : List Gateway) (golden : List Golden) (nextId : Nat) (freeCount : Nat) (agenda : List Turn)
    (cur : Cur) (shadow : Option Shadow) (h : s.kept ref0) (hf : ∀ x, x.lsm.wf = true → x.acc.wf = true → (f x).lsm.wf
    = true ∧ (f x).acc.wf = true)
    (hr : ∀ x, x.regsOk → (f x).regsOk) :
    State.kept (ref0 := ref0) {
      clk := clk,
      power := power,
      resil := s.resil,
      nmwin := s.nmwin,
      faultRetryMax := s.faultRetryMax,
      trctl := s.trctl,
      launches := launches,
      teams := s.teams.map f,
      groups := groups,
      threads := threads,
      cores := cores,
      main := s.main,
      dsm := s.dsm,
      sys := s.sys,
      absent := absent,
      dsmTags := dsmTags,
      hist := hist,
      lineViews := lineViews,
      loads := loads,
      xfers := xfers,
      tileOps := tileOps,
      tlbinvs := tlbinvs,
      queues := queues,
      lastQueue := lastQueue,
      asids := asids,
      regions := regions,
      conversions := conversions,
      placement := placement,
      transit := transit,
      dones := dones,
      mcast := mcast,
      cadence := cadence,
      quorum := quorum,
      decls := decls,
      huddleStop := huddleStop,
      stopGrp := stopGrp,
      qresults := qresults,
      qreplies := qreplies,
      faults := faults,
      faultsWaiting := faultsWaiting,
      watch := watch,
      fabric := fabric,
      outbox := outbox,
      routes := routes,
      failedPorts := failedPorts,
      bankUnits := bankUnits,
      waitingCmds := waitingCmds,
      mailbox := mailbox,
      hostCtl := hostCtl,
      badWords := badWords,
      routers := routers,
      transits := transits,
      gateways := gateways,
      golden := golden,
      nextId := nextId,
      freeCount := freeCount,
      agenda := agenda,
      cur := cur,
      shadow := shadow } :=
  ⟨fun h0 => have h := h.mem h0
    have ht : AllTeams Team.memOk (s.teams.map f) := map_teams _ _ h.teams (fun x hx => hf x hx.1 hx.2)
    ⟨h.main, h.dsm, h.sys, fun x hx => (ht x hx).1, fun x hx => (ht x hx).2⟩,
   fun h0 => have h := h.regs h0
    ⟨h.trctl, h.resil, h.retry, h.nmwin, map_teams _ _ h.teams hr⟩⟩

/-- An update of a team that keeps its memories and its registers. -/
theorem State.kept.modTeam {s : State} (h : s.kept ref0) (key : Nat) (f : Team → Team) (hl : ∀ x, x.lsm.wf = true → (f
    x).lsm.wf = true)
    (ha : ∀ x, x.acc.wf = true → (f x).acc.wf = true) (hr : ∀ x, x.regsOk → (f x).regsOk) : (s.modTeam key f).kept ref0 :=
  ⟨fun h0 => (h.mem h0).modTeam key f hl ha,
   fun h0 => have h := h.regs h0; ⟨h.trctl, h.resil, h.retry, h.nmwin, updWhere_teams _ _ _ h.teams hr⟩⟩

theorem State.memStore_regsOk {s : State} (h : s.regsOk) (l : Loc) (bs : List Byte) : (s.memStore l bs).regsOk := by
  obtain ⟨sp, a⟩ := l
  unfold State.memStore
  have hu := fun (team : Nat) =>
    updWhere_teams s.teams (fun t => t.key == team) (fun t => { t with lsm := t.lsm.writeBytes a bs }) h.teams (fun x
    hx => hx)
  rcases sp with team | _ | _ | _ <;> dsimp only <;> split
  all_goals first
    | exact ⟨h.trctl, h.resil, h.retry, h.nmwin, h.teams⟩
    | exact ⟨h.trctl, h.resil, h.retry, h.nmwin, hu team⟩

theorem State.kept.memStore {s : State} (h : s.kept ref0) (l : Loc) (bs : List Byte) : (s.memStore l bs).kept ref0 :=
  ⟨fun h0 => (h.mem h0).memStore l bs, fun h0 => State.memStore_regsOk (h.regs h0) l bs⟩

theorem State.kept.memWrite {s : State} (h : s.kept ref0) (l : Loc) (bs : List Byte) : (s.memWrite l bs).kept ref0 := by
  refine ⟨fun h0 => (h.mem h0).memWrite l bs, fun h0 => ?_⟩
  have h' := State.memStore_regsOk (h.regs h0) l bs
  unfold State.memWrite
  dsimp only
  split
  · exact h'
  · exact ⟨h'.trctl, h'.resil, h'.retry, h'.nmwin, h'.teams⟩

theorem State.kept.pushWord {s : State} (h : s.kept ref0) (l : Loc) (bs : List Byte) (who : Option Sync) (ys : List
    Sync) (chain : Bool) :
    (s.pushWord l bs who ys chain).kept ref0 := by
  refine ⟨fun h0 => (h.mem h0).pushWord l bs who ys chain, fun h0 => ?_⟩
  have h' := State.memStore_regsOk (h.regs h0) l bs
  exact ⟨h'.trctl, h'.resil, h'.retry, h'.nmwin, h'.teams⟩

theorem State.kept.pushBytes {s : State} (h : s.kept ref0) (l : Loc) (bs : List Byte) (who : Option Sync) (ys : List
    Sync) (chain : Bool) :
    (s.pushBytes l bs who ys chain).kept ref0 := by
  unfold State.pushBytes
  exact foldl_kept _ _ _ h (fun _ _ h => h.pushWord _ _ _ _ _)

theorem State.kept.postEvent {s : State} (h : s.kept ref0) (ty : Nat) (d : List Byte) : (s.postEvent ty d).kept ref0 :=
  ⟨fun h0 => (h.mem h0).postEvent ty d, fun h0 => have h := h.regs h0; ⟨h.trctl, h.resil, h.retry, h.nmwin, h.teams⟩⟩

theorem getD_kept {o : Option State} {s : State} (ho : OptOk ref0 o) (h : s.kept ref0) : (o.getD s).kept ref0 := by
  cases o
  · exact h
  · exact ho

theorem map_optOk {o : Option State} {f : State → State} (ho : OptOk ref0 o) (h : ∀ s, s.kept ref0 → (f s).kept ref0)
    : OptOk ref0 (o.map f) := by
  cases o
  · trivial
  · exact h _ ho

theorem map_optOk' {α : Type} {o : Option α} {f : α → State} (h : ∀ a, (f a).kept ref0) : OptOk ref0 (o.map f) := by
  cases o
  · trivial
  · exact h _

theorem progress_lsm_wf {t : Team} (h : t.lsm.wf = true) : t.progress.lsm.wf = true := by
  unfold Team.progress; split <;> exact h

theorem progress_acc_wf {t : Team} (h : t.acc.wf = true) : t.progress.acc.wf = true := by
  unfold Team.progress; split <;> exact h

theorem foldl2_kept {α β : Type} (f : β × State → α → β × State) (l : List α) (b : β) (s : State) (h : s.kept ref0)
    (hf : ∀ b s x, s.kept ref0 → (f (b, s) x).2.kept ref0) : (l.foldl f (b, s)).2.kept ref0 := by
  induction l generalizing b s with
  | nil => exact h
  | cons a l ih => exact ih _ _ (hf b s a h)

theorem foldl1_kept {α β : Type} (f : State × β → α → State × β) (l : List α) (b : β) (s : State) (h : s.kept ref0)
    (hf : ∀ s b x, s.kept ref0 → (f (s, b) x).1.kept ref0) : (l.foldl f (s, b)).1.kept ref0 := by
  induction l generalizing b s with
  | nil => exact h
  | cons a l ih => exact ih _ _ (hf s b a h)

theorem bind_optOk {o : Option State} {f : State → Option State} (ho : OptOk ref0 o) (h : ∀ s, s.kept ref0 → OptOk
    ref0 (f s)) : OptOk ref0 (o.bind f) := by
  cases o
  · trivial
  · exact h _ ho

theorem foldlM_optOk {α : Type} (f : State → α → Option State) (l : List α) (s : State) (h : s.kept ref0)
    (hf : ∀ s x, s.kept ref0 → OptOk ref0 (f s x)) : OptOk ref0 (l.foldlM f s) := by
  induction l generalizing s with
  | nil => exact h
  | cons a l ih =>
    simp only [List.foldlM_cons]
    exact bind_optOk (hf s a h) ih

theorem foldlM_excOk {α ε : Type} (f : State → α → Except ε State) (l : List α) (s : State) (h : s.kept ref0)
    (hf : ∀ s x, s.kept ref0 → ExcOk ref0 (f s x)) : ExcOk ref0 (l.foldlM f s) := by
  induction l generalizing s with
  | nil => exact h
  | cons a l ih =>
    simp only [List.foldlM_cons]
    have := hf s a h
    cases e : f s a with
    | error x => trivial
    | ok t => rw [e] at this; exact ih t this

theorem Memory.filter_wf (m : Memory) (p : Host.Cell → Bool) (h : m.wf = true) : Memory.wf (m.filter p) = true := by
  simp only [Memory.wf, Bool.and_eq_true, decide_eq_true_eq, List.all_eq_true] at *
  exact ⟨h.1.filter p, fun c hc => h.2 c (List.mem_filter.mp hc).1⟩

theorem mmaAcc_wf (acc : Memory) (a b : Tile) (tra trb : Bool) (n x y : Nat) (h : acc.wf = true) : (mmaAcc acc a b tra
    trb n x y).wf = true := by
  unfold mmaAcc
  split
  · exact h
  · generalize List.range _ = l
    induction l generalizing acc with
    | nil => exact h
    | cons e l ih => exact ih _ (Memory.writeWord_wf _ _ _ h)

theorem accStore_wf (acc : Memory) (n r c : Nat) (ws : List Word) (h : acc.wf = true) : (accStore acc n r c ws).wf = true :=
  Memory.writeBytes_wf _ _ _ h

theorem teamsOk_one (t : Team) (h : t.lsm = []) (h' : t.acc = []) (hr : t.regsOk) : TeamsOk [t] := by
  constructor <;> intro x hx <;> obtain rfl := List.mem_singleton.mp hx
  · rw [Team.memOk, h, h']; exact ⟨rfl, rfl⟩
  · exact hr

/-- A write to system memory beside an update of fields that are no memory. -/
theorem mkSys_kept (s : State) (a : Nat) (bs : List Byte) (clk : Nat) (power : Power) (launches : List Launch) (groups
    : List HomeGroup) (threads : List Thread) (cores : List Core) (absent : List Loc) (dsmTags : List (Nat × Nat))
    (hist : List Wr) (lineViews : List (Loc × View)) (loads : List LoadOp) (xfers : List XferOp) (tileOps : List
    TileOp) (tlbinvs : List TlbInv) (queues : List Queue) (lastQueue : Option Nat) (asids : List AsidEntry) (regions :
    List Region) (conversions : List Conversion) (placement : List Placed) (transit : Option LineMove) (dones : List
    DoneWrite) (mcast : List McGroup) (cadence : Cadence) (quorum : List QGroup) (decls : List (Nat × List Byte))
    (huddleStop : Bool) (stopGrp : Nat) (qresults : List QResult) (qreplies : List QReply) (faults : List FaultRec)
    (faultsWaiting : List FaultRec) (watch : List (BitVec 128)) (fabric : List Transfer) (outbox : List Transfer)
    (routes : List (Nat × BitVec 16)) (failedPorts : List Nat) (bankUnits : List BankUnit) (waitingCmds : List
    BankCmd) (mailbox : Mailbox) (hostCtl : HostCtl) (badWords : List Loc) (routers : List Router) (transits : List
    Transit) (gateways : List Gateway) (golden : List Golden) (nextId : Nat) (freeCount : Nat) (agenda : List Turn)
    (cur : Cur) (shadow : Option Shadow) (h : s.kept ref0) :
    State.kept (ref0 := ref0) {
      clk := clk,
      power := power,
      resil := s.resil,
      nmwin := s.nmwin,
      faultRetryMax := s.faultRetryMax,
      trctl := s.trctl,
      launches := launches,
      teams := s.teams,
      groups := groups,
      threads := threads,
      cores := cores,
      main := s.main,
      dsm := s.dsm,
      sys := s.sys.writeBytes a bs,
      absent := absent,
      dsmTags := dsmTags,
      hist := hist,
      lineViews := lineViews,
      loads := loads,
      xfers := xfers,
      tileOps := tileOps,
      tlbinvs := tlbinvs,
      queues := queues,
      lastQueue := lastQueue,
      asids := asids,
      regions := regions,
      conversions := conversions,
      placement := placement,
      transit := transit,
      dones := dones,
      mcast := mcast,
      cadence := cadence,
      quorum := quorum,
      decls := decls,
      huddleStop := huddleStop,
      stopGrp := stopGrp,
      qresults := qresults,
      qreplies := qreplies,
      faults := faults,
      faultsWaiting := faultsWaiting,
      watch := watch,
      fabric := fabric,
      outbox := outbox,
      routes := routes,
      failedPorts := failedPorts,
      bankUnits := bankUnits,
      waitingCmds := waitingCmds,
      mailbox := mailbox,
      hostCtl := hostCtl,
      badWords := badWords,
      routers := routers,
      transits := transits,
      gateways := gateways,
      golden := golden,
      nextId := nextId,
      freeCount := freeCount,
      agenda := agenda,
      cur := cur,
      shadow := shadow } :=
  ⟨fun h0 =>
    have h := h.mem h0
    ⟨h.main, h.dsm, Memory.writeBytes_wf _ _ _ h.sys, h.lsm, h.acc⟩,
   fun h0 =>
    have h := h.regs h0
    ⟨h.trctl, h.resil, h.retry, h.nmwin, h.teams⟩⟩

end Sys2Proof.Machine
end

