-- ==== Sys2Proof/Laws/CanonicalOps.lean ====
section
/-! SUPPORT. Canonical memories and the bounds of the special registers under the operations of Ops, Scratch, Rows, Life, Operands, Flags and Engine. -/

namespace Sys2Proof.Machine

variable {ref0 : State}

/-! ### Machine/Ops.lean -/

theorem State.modThread_kept (s : State) (team : ℕ) (tid : ℕ) (f : Thread → Thread)
    (ok_s : s.kept ref0) : (State.modThread s team tid f).kept ref0 := by
  unfold State.modThread
  repeat' (with_reducible first | assumption | fail_if_no_progress apply mk_kept)

theorem State.modThreads_kept (s : State) (team : ℕ) (tids : List ℕ) (f : Thread → Thread)
    (ok_s : s.kept ref0) : (State.modThreads s team tids f).kept ref0 := by
  unfold State.modThreads
  repeat' (with_reducible first | assumption | fail_if_no_progress apply mk_kept)

theorem State.modHg_kept (s : State) (team : ℕ) (role : ℕ) (idx : ℕ) (f : HomeGroup → HomeGroup)
    (ok_s : s.kept ref0) : (State.modHg s team role idx f).kept ref0 := by
  unfold State.modHg
  repeat' (with_reducible first | assumption | fail_if_no_progress apply mk_kept)

theorem State.modLaunch_kept (s : State) (key : ℕ) (f : Launch → Launch)
    (ok_s : s.kept ref0) : (State.modLaunch s key f).kept ref0 := by
  unfold State.modLaunch
  repeat' (with_reducible first | assumption | fail_if_no_progress apply mk_kept)

theorem State.modCore_kept (s : State) (c : ℕ) (f : Core → Core) (ok_s : s.kept ref0) : (State.modCore s c f).kept ref0 := by
  unfold State.modCore
  repeat' (with_reducible first | assumption | fail_if_no_progress apply mk_kept)

theorem State.modAsid_kept (s : State) (a : ℕ) (f : AsidEntry → AsidEntry)
    (ok_s : s.kept ref0) : (State.modAsid s a f).kept ref0 := by
  unfold State.modAsid
  repeat' (with_reducible first | assumption | fail_if_no_progress apply mk_kept)

theorem State.modXfer_kept (s : State) (id : ℕ) (f : XferOp → XferOp)
    (ok_s : s.kept ref0) : (State.modXfer s id f).kept ref0 := by
  unfold State.modXfer
  repeat' (with_reducible first | assumption | fail_if_no_progress apply mk_kept)

theorem State.modQueue_kept (s : State) (q : ℕ) (f : Queue → Queue)
    (ok_s : s.kept ref0) : (State.modQueue s q f).kept ref0 := by
  unfold State.modQueue
  repeat' (with_reducible first | assumption | fail_if_no_progress apply mk_kept)

theorem State.bumpId_kept (s : State) (n : ℕ) (ok_s : s.kept ref0) : (State.bumpId s n).kept ref0 := by
  unfold State.bumpId
  repeat' (with_reducible first | assumption | fail_if_no_progress apply mk_kept)

theorem State.writeDest_kept (s : State) (t : Thread) (d : Dest) (ws : List Word)
    (ok_s : s.kept ref0) : (State.writeDest s t d ws).kept ref0 := by
  unfold State.writeDest
  repeat' (with_reducible first | assumption | apply State.modThread_kept | apply State.modHg_kept | split)

theorem State.translate_kept (s : State) (core : ℕ) (asid : ℕ) (va : ℕ)
    (ok_s : s.kept ref0) : (State.translate s core asid va).2.kept ref0 := by
  unfold State.translate
  repeat' (with_reducible first
    | assumption | apply State.modCore_kept | split | dsimp only [OutOk, OptOk, ExcOk])

theorem State.trace_kept (s : State) (core : ℕ) (ty : ℕ) (body : List Byte)
    (ok_s : s.kept ref0) : (State.trace s core ty body).kept ref0 := by
  unfold State.trace
  repeat' (with_reducible first | assumption | apply State.modCore_kept | split)

theorem State.takeLater_kept (s : State) (core : ℕ) (ok_s : s.kept ref0) : (State.takeLater s core).kept ref0 := by
  unfold State.takeLater
  repeat' (with_reducible first | assumption | apply State.modCore_kept)

theorem State.putLater_kept (s : State) (core : ℕ) (rs : List (ℕ × List Byte))
    (ok_s : s.kept ref0) : (State.putLater s core rs).kept ref0 := by
  unfold State.putLater
  repeat' (with_reducible first | assumption | apply State.modCore_kept)

theorem State.traceRoom_kept (s : State) (core : ℕ) (ok_s : s.kept ref0) : (State.traceRoom s core).kept ref0 := by
  unfold State.traceRoom
  repeat' (with_reducible first | assumption | apply State.modCore_kept | split)

theorem State.wakeTrace_kept (s : State) (quad : ℕ) (ok_s : s.kept ref0) : (State.wakeTrace s quad).kept ref0 := by
  unfold State.wakeTrace
  repeat' (with_reducible first | assumption | fail_if_no_progress apply mk_kept)

theorem State.mapThreads_kept (s : State) (p : Thread → Bool) (f : Thread → Thread)
    (ok_s : s.kept ref0) : (State.mapThreads s p f).kept ref0 := by
  unfold State.mapThreads
  repeat' (with_reducible first | assumption | fail_if_no_progress apply mk_kept)

theorem State.checkRejoin_kept (s : State) (team : ℕ) (role : ℕ) (idx : ℕ)
    (ok_s : s.kept ref0) : (State.checkRejoin s team role idx).kept ref0 := by
  unfold State.checkRejoin
  repeat' (with_reducible first
    | assumption | apply State.modHg_kept | apply State.mapThreads_kept | apply State.kept.modTeam
    | apply regs_progress | apply progress_lsm_wf | apply progress_acc_wf | split
    | dsimp only [OutOk, OptOk, ExcOk])

theorem State.releaseBar_kept (s : State) (team : ℕ) (b : ℕ) (result : Bool)
    (ok_s : s.kept ref0) : (State.releaseBar s team b result).kept ref0 := by
  unfold State.releaseBar
  repeat' (with_reducible first
    | assumption | apply State.mapThreads_kept | apply State.kept.modTeam | apply regs_modBar
    | (unfold BarKept; intro y h1; exact h1) | intro _ | (apply wf_id; with_unfolding_all assumption))

/-! ### Machine/Scratch.lean -/

theorem State.accessMade_kept (s : State) (id : ℕ) (v : View)
    (ok_s : s.kept ref0) : (State.accessMade s id v).kept ref0 := by
  unfold State.accessMade
  repeat' (with_reducible first
    | assumption | apply State.mapThreads_kept | apply mkUpd_kept | apply wf_and | apply regs_mapBars
    | (unfold BarKept; intro y h1; dsimp only; split <;> exact h1) | intro _)

theorem State.tag_kept (s : State) (l : Loc) (team : ℕ) (id : ℕ) (rel : Bool) (sc : Scope)
    (ok_s : s.kept ref0) : (State.tag s l team id rel sc).kept ref0 := by
  unfold State.tag
  repeat' (with_reducible first
    | assumption | apply State.kept.modTeam | fail_if_no_progress apply mk_kept | intro _
    | (apply regs_id; with_unfolding_all assumption) | split)

theorem State.makeStore_kept (s : State) (t : Thread) (e : StoreEntry)
    (ok_s : s.kept ref0) : (State.makeStore s t e).kept ref0 := by
  unfold State.makeStore
  repeat' (with_reducible first
    | assumption | apply State.kept.memWrite | apply State.kept.pushBytes | apply State.accessMade_kept
    | apply State.modThreads_kept | split)

theorem State.perform_kept (s : State) (t : Thread) (e : StoreEntry) (lv : Scope)
    (ok_s : s.kept ref0) : (State.perform s t e lv).kept ref0 := by
  unfold State.perform
  repeat' (with_reducible first
    | assumption | apply State.makeStore_kept | apply State.tag_kept | apply State.modThread_kept
    | apply State.modThreads_kept | split | dsimp only [OutOk, OptOk, ExcOk])

theorem State.tryPerform_kept (s : State) (team : ℕ) (tid : ℕ) (id : ℕ) (lv : Scope)
    (ok_s : s.kept ref0) : (State.tryPerform s team tid id lv).kept ref0 := by
  unfold State.tryPerform
  repeat' (with_reducible first | assumption | apply State.perform_kept | split)

theorem State.performCore_kept (s : State) (p : Thread → Bool) (before : ℕ)
    (ok_s : s.kept ref0) : (State.performCore s p before).kept ref0 := by
  unfold State.performCore
  repeat' (with_reducible first | assumption | apply State.tryPerform_kept | apply foldl_kept | intro _)

theorem State.promote_kept (s : State) (core : Option ℕ) (l : Loc)
    (ok_s : s.kept ref0) : (State.promote s core l).kept ref0 := by
  unfold State.promote
  repeat' (with_reducible first
    | assumption | apply State.performCore_kept | fail_if_no_progress apply mk_kept | split)

theorem State.noteLine_kept (s : State) (l : Loc) (v : View) (ok_s : s.kept ref0) : (State.noteLine s l v).kept ref0 := by
  unfold State.noteLine
  repeat' (with_reducible first | assumption | fail_if_no_progress apply mk_kept)

theorem State.atomicWrite_kept (s : State) (o : LoadOp) (bs : List Byte)
    (ok_s : s.kept ref0) : (State.atomicWrite s o bs).kept ref0 := by
  unfold State.atomicWrite
  repeat' (with_reducible first | assumption | apply State.kept.pushBytes | apply State.modThreads_kept)

theorem State.noteRead_kept (s : State) (team : ℕ) (tids : List ℕ) (id : ℕ) (ws : List Wr)
    (ok_s : s.kept ref0) : (State.noteRead s team tids id ws).kept ref0 := by
  unfold State.noteRead
  repeat' (with_reducible first | assumption | apply State.modThreads_kept | split)

theorem State.loadMake_kept (s : State) (o : LoadOp) (ok_s : s.kept ref0) : (State.loadMake s o).kept ref0 := by
  unfold State.loadMake
  repeat' (with_reducible first
    | assumption | apply State.promote_kept | apply State.atomicWrite_kept | apply State.tag_kept
    | apply State.modThreads_kept | apply State.noteRead_kept | apply State.accessMade_kept
    | fail_if_no_progress apply mk_kept | split)

theorem State.noteEngine_kept (s : State) (team : ℕ) (tids : List ℕ) (op : ℕ) (rel : Bool) (l : Loc) (n : ℕ)
    (ok_s : s.kept ref0) : (State.noteEngine s team tids op rel l n).kept ref0 := by
  unfold State.noteEngine
  repeat' (with_reducible first | assumption | apply State.noteRead_kept)

theorem State.engineWrite_kept (s : State) (team : ℕ) (tids : List ℕ) (op : ℕ) (l : Loc) (bs : List Byte)
    (ok_s : s.kept ref0) : (State.engineWrite s team tids op l bs).kept ref0 := by
  unfold State.engineWrite
  repeat' (with_reducible first
    | assumption | apply State.kept.memWrite | apply State.kept.pushBytes | fail_if_no_progress apply mk_kept
    | split | dsimp only [OutOk, OptOk, ExcOk])

/-! ### Machine/Rows.lean -/

theorem State.modUnit_kept (s : State) (nb : ℕ) (f : BankUnit → BankUnit)
    (ok_s : s.kept ref0) : (State.modUnit s nb f).kept ref0 := by
  unfold State.modUnit
  repeat' (with_reducible first | assumption | fail_if_no_progress apply mk_kept)

theorem State.copyArrives_kept (s : State) (nb : ℕ) (w : ℕ × ℕ)
    (ok_s : s.kept ref0) : (State.copyArrives s nb w).kept ref0 := by
  unfold State.copyArrives
  repeat' (with_reducible first | assumption | apply State.modUnit_kept | split)

theorem State.startUnit_kept (s : State) (nb : ℕ) (ok_s : s.kept ref0) : (State.startUnit s nb).kept ref0 := by
  unfold State.startUnit
  repeat' (with_reducible first
    | assumption | apply State.modUnit_kept | split | dsimp only [OutOk, OptOk, ExcOk])

theorem State.copyServed_kept (s : State) (nb : ℕ) (w : ℕ × ℕ)
    (ok_s : s.kept ref0) : (State.copyServed s nb w).kept ref0 := by
  unfold State.copyServed
  repeat' (with_reducible first | assumption | apply State.startUnit_kept | apply State.modUnit_kept | split)

/-! ### Machine/Life.lean -/

theorem State.freeLines_kept (s : State) (ls : List Loc) (ok_s : s.kept ref0) : (State.freeLines s ls).kept ref0 := by
  unfold State.freeLines
  repeat' (with_reducible first | assumption | fail_if_no_progress apply mk_kept)

theorem State.clearLines_kept (s : State) (ls : List Loc) (ok_s : s.kept ref0) : (State.clearLines s ls).kept ref0 := by
  unfold State.clearLines
  repeat' (with_reducible first | assumption | fail_if_no_progress apply mk_kept)

theorem State.freeLocks_kept (s : State) (op : ℕ) (ok_s : s.kept ref0) : (State.freeLocks s op).kept ref0 := by
  unfold State.freeLocks
  repeat' (with_reducible first
    | assumption | apply mkUpd_kept | apply wf_and | intro _ | (apply regs_id; with_unfolding_all assumption))

theorem State.completePhase_kept (s : State) (team : ℕ) (b : ℕ)
    (ok_s : s.kept ref0) : (State.completePhase s team b).kept ref0 := by
  unfold State.completePhase
  repeat' (with_reducible first
    | assumption | apply State.kept.modTeam | apply State.mapThreads_kept | apply State.releaseBar_kept
    | apply regs_modBar | (unfold BarKept; intro y h1; exact h1) | intro _
    | (apply wf_id; with_unfolding_all assumption) | split)

theorem State.arriveBar_kept (s : State) (team : ℕ) (b : ℕ) (n : ℕ)
    (ok_s : s.kept ref0) : (State.arriveBar s team b n).kept ref0 := by
  unfold State.arriveBar
  repeat' (with_reducible first
    | assumption | apply State.kept.modTeam | apply State.completePhase_kept | apply regs_modBar
    | (unfold BarKept; intro y h1; exact h1) | intro _ | (apply wf_id; with_unfolding_all assumption) | split)

theorem State.arriveOp_kept (s : State) (team : ℕ) (bar : Option ℕ) (arrives : Bool) (v : optParam View [])
    (ok_s : s.kept ref0) : (State.arriveOp s team bar arrives v).kept ref0 := by
  unfold State.arriveOp
  repeat' (with_reducible first
    | assumption | apply State.arriveBar_kept | apply State.kept.modTeam | apply regs_modBar
    | (unfold BarKept; intro y h1; exact h1) | intro _ | (apply wf_id; with_unfolding_all assumption) | split)

theorem State.gridEnded_kept (s : State) (team : ℕ) (v : View)
    (ok_s : s.kept ref0) : (State.gridEnded s team v).kept ref0 := by
  unfold State.gridEnded
  repeat' (with_reducible first | assumption | apply State.modLaunch_kept | split)

theorem State.finishXfer_kept (s : State) (o : XferOp) (ok_s : s.kept ref0) : (State.finishXfer s o).kept ref0 := by
  unfold State.finishXfer
  repeat' (with_reducible first
    | assumption | apply State.modThreads_kept | apply State.freeLines_kept | apply State.freeLocks_kept
    | apply State.gridEnded_kept | apply State.arriveOp_kept | fail_if_no_progress apply mk_kept | split)

theorem State.checkXfer_kept (s : State) (id : ℕ) (ok_s : s.kept ref0) : (State.checkXfer s id).kept ref0 := by
  unfold State.checkXfer
  repeat' (with_reducible first | assumption | apply State.finishXfer_kept | split)

theorem State.shrinkOp_kept (s : State) (op : ℕ) (team : ℕ) (dest : Bool) (left : List (Loc × ℕ)) (read : List (Loc × ℕ))
    (ok_s : s.kept ref0) : (State.shrinkOp s op team dest left read).kept ref0 := by
  unfold State.shrinkOp
  repeat' (with_reducible first
    | assumption | apply mkUpd_kept | apply wf_and | intro _ | (apply regs_id; with_unfolding_all assumption))

theorem State.finishTile_kept (s : State) (o : TileOp) (ok_s : s.kept ref0) : (State.finishTile s o).kept ref0 := by
  unfold State.finishTile
  repeat' (with_reducible first
    | assumption | apply State.modThreads_kept | apply State.freeLines_kept | apply State.freeLocks_kept
    | apply State.shrinkOp_kept | apply State.arriveOp_kept | fail_if_no_progress apply mk_kept | split)

theorem State.checkSyncm_kept (s : State) (team : ℕ) (role : ℕ) (idx : ℕ)
    (ok_s : s.kept ref0) : (State.checkSyncm s team role idx).kept ref0 := by
  unfold State.checkSyncm
  repeat' (with_reducible first
    | assumption | apply State.mapThreads_kept | apply State.modHg_kept | apply State.kept.modTeam
    | apply regs_progress | apply progress_lsm_wf | apply progress_acc_wf | split)

theorem State.unseat_kept (s : State) (team : ℕ) (tids : List ℕ)
    (ok_s : s.kept ref0) : (State.unseat s team tids).kept ref0 := by
  unfold State.unseat
  repeat' (with_reducible first | assumption | fail_if_no_progress apply mk_kept)

theorem State.flushSamples_kept (s : State) (ok_s : s.kept ref0) : (State.flushSamples s).kept ref0 := by
  unfold State.flushSamples
  repeat' (with_reducible first
    | assumption | apply State.modCore_kept | apply State.trace_kept | fail_if_no_progress apply mk_kept
    | apply foldl_kept | intro _ | split)

theorem State.retireGroups_kept (s : State) (ok_s : s.kept ref0) : (State.retireGroups s).kept ref0 := by
  unfold State.retireGroups
  repeat' (with_reducible first
    | assumption | apply State.modHg_kept | apply State.kept.modTeam | apply State.trace_kept
    | apply regs_progress | apply progress_lsm_wf | apply progress_acc_wf | apply foldl_kept | intro _ | split
    | dsimp only [OutOk, OptOk, ExcOk])

theorem State.queueDone_kept (s : State) (l : Launch) (core : ℕ)
    (ok_s : s.kept ref0) : (State.queueDone s l core).kept ref0 := by
  unfold State.queueDone
  repeat' (with_reducible first
    | assumption | apply State.bumpId_kept | apply State.kept.postEvent | fail_if_no_progress apply mk_kept
    | split)

theorem State.doneLine_kept (s : State) (id : ℕ) (ok_s : s.kept ref0) : (State.doneLine s id).kept ref0 := by
  unfold State.doneLine
  repeat' (with_reducible first
    | assumption | apply State.copyArrives_kept | apply State.kept.pushBytes | apply State.copyServed_kept
    | fail_if_no_progress apply mk_kept | apply foldl_kept | intro _ | split | dsimp only [OutOk, OptOk, ExcOk])

theorem State.completeLaunch_kept (s : State) (l : Launch) (core : ℕ)
    (ok_s : s.kept ref0) : (State.completeLaunch s l core).kept ref0 := by
  unfold State.completeLaunch
  repeat' (with_reducible first
    | assumption | apply State.queueDone_kept | apply State.modLaunch_kept | fail_if_no_progress apply mk_kept
    | split | dsimp only [OutOk, OptOk, ExcOk])

theorem State.retireTeams_kept (s : State) (ok_s : s.kept ref0) : (State.retireTeams s).kept ref0 := by
  unfold State.retireTeams
  repeat' (with_reducible first
    | assumption | apply State.completeLaunch_kept | apply mkFilter_kept | apply foldl_kept | intro _ | split
    | dsimp only [OutOk, OptOk, ExcOk])

theorem State.settle_kept (s : State) (ok_s : s.kept ref0) : (State.settle s).kept ref0 := by
  unfold State.settle
  repeat' (with_reducible first
    | assumption | apply State.retireTeams_kept | apply State.retireGroups_kept | apply State.flushSamples_kept)

theorem State.endWdog_kept (s : State) (team : ℕ) (ok_s : s.kept ref0) : (State.endWdog s team).kept ref0 := by
  unfold State.endWdog
  repeat' (with_reducible first
    | assumption | apply State.kept.modTeam | intro _ | (apply regs_id; with_unfolding_all assumption) | split)

theorem State.bankLocks_kept (s : State) (op : ℕ) (read : List (Loc × ℕ))
    (ok_s : s.kept ref0) : (State.bankLocks s op read).kept ref0 := by
  unfold State.bankLocks
  repeat' (with_reducible first | assumption | apply State.shrinkOp_kept | split)

theorem State.landLines_kept (s : State) (op : ℕ) (ok_s : s.kept ref0) : (State.landLines s op).kept ref0 := by
  unfold State.landLines
  repeat' (with_reducible first | assumption | apply State.freeLines_kept | apply State.modXfer_kept | split)

theorem State.landCounts_kept (s : State) (op : ℕ) (ok_s : s.kept ref0) : (State.landCounts s op).kept ref0 := by
  unfold State.landCounts
  repeat' (with_reducible first | assumption | apply State.modXfer_kept | apply State.modThreads_kept | split)

theorem State.landLocks_kept (s : State) (op : ℕ) (ok_s : s.kept ref0) : (State.landLocks s op).kept ref0 := by
  unfold State.landLocks
  repeat' (with_reducible first | assumption | fail_if_no_progress apply mk_kept | split)

theorem State.afterLanding_kept (s : State) (op : ℕ) (ok_s : s.kept ref0) : (State.afterLanding s op).kept ref0 := by
  unfold State.afterLanding
  repeat' (with_reducible first
    | assumption | apply State.checkXfer_kept | apply State.landLocks_kept | apply State.landCounts_kept
    | apply State.landLines_kept)

theorem State.abandonHeld_kept (s : State) (op : ℕ) (tids : List ℕ)
    (ok_s : s.kept ref0) : (State.abandonHeld s op tids).kept ref0 := by
  unfold State.abandonHeld
  repeat' (with_reducible first
    | assumption | apply State.modThreads_kept | apply State.modXfer_kept | apply State.afterLanding_kept
    | apply State.bankLocks_kept | fail_if_no_progress apply mk_kept | split)

theorem State.exitThread_kept (s : State) (team : ℕ) (tid : ℕ)
    (ok_s : s.kept ref0) : (State.exitThread s team tid).kept ref0 := by
  unfold State.exitThread
  repeat' (with_reducible first
    | assumption | apply State.unseat_kept | apply State.modThread_kept | apply State.modHg_kept
    | apply State.abandonHeld_kept | apply State.endWdog_kept | apply State.checkSyncm_kept
    | apply State.checkRejoin_kept | split)

theorem State.cadenceTrap_kept (s : State) (team : ℕ) (code : ℕ)
    (ok_s : s.kept ref0) : (State.cadenceTrap s team code).kept ref0 := by
  unfold State.cadenceTrap
  repeat' (with_reducible first
    | assumption | apply State.kept.postEvent | fail_if_no_progress apply mk_kept | split)

theorem State.killTeam_kept (s : State) (team : ℕ) (code : ℕ)
    (ok_s : s.kept ref0) : (State.killTeam s team code).kept ref0 := by
  unfold State.killTeam
  repeat' (with_reducible first
    | assumption | apply State.cadenceTrap_kept | apply State.exitThread_kept | apply State.abandonHeld_kept
    | apply State.kept.modTeam | apply State.kept.postEvent | apply State.settle_kept
    | apply State.mapThreads_kept | fail_if_no_progress apply mk_kept | apply foldl_kept | intro _
    | (apply regs_id; with_unfolding_all assumption) | split)

theorem State.stopLaunch_kept (s : State) (key : ℕ) (ok_s : s.kept ref0) : (State.stopLaunch s key).kept ref0 := by
  unfold State.stopLaunch
  repeat' (with_reducible first
    | assumption | apply State.modLaunch_kept | apply State.killTeam_kept | apply State.completeLaunch_kept
    | apply foldl_kept | intro _ | split | dsimp only [OutOk, OptOk, ExcOk])

theorem State.errorEvent_kept (s : State) (kind : ℕ) (addr : ℕ)
    (ok_s : s.kept ref0) : (State.errorEvent s kind addr).kept ref0 := by
  unfold State.errorEvent
  repeat' (with_reducible first | assumption | apply State.kept.postEvent)

theorem State.badLaunch_kept (s : State) (key : ℕ) (l : Loc) (ok_s : s.kept ref0) : (State.badLaunch s key l).kept ref0 := by
  unfold State.badLaunch
  repeat' (with_reducible first | assumption | apply State.stopLaunch_kept | apply State.errorEvent_kept)

theorem State.readBad_kept (s : State) (team : ℕ) (l : Loc) (ok_s : s.kept ref0) : (State.readBad s team l).kept ref0 := by
  unfold State.readBad
  repeat' (with_reducible first | assumption | apply State.badLaunch_kept | split)

theorem State.stopBad_kept (s : State) (team : ℕ) (bad : Option Loc)
    (ok_s : s.kept ref0) : (State.stopBad s team bad).kept ref0 := by
  unfold State.stopBad
  repeat' (with_reducible first | assumption | apply State.settle_kept | apply State.readBad_kept | split)

theorem State.commit_kept (s : State) (team : ℕ) (tid : ℕ) (p : Pending)
    (ok_s : s.kept ref0) : (State.commit s team tid p).kept ref0 := by
  unfold State.commit
  repeat' (with_reducible first
    | assumption | apply State.writeDest_kept | apply State.modThread_kept | split)

theorem State.tryEnter_kept (s : State) (team : ℕ) (i : TrapInfo)
    (ok_s : s.kept ref0) : (State.tryEnter s team i).kept ref0 := by
  unfold State.tryEnter
  repeat' (with_reducible first
    | assumption | apply State.killTeam_kept | apply State.commit_kept | apply State.mapThreads_kept
    | apply foldl_kept | intro _ | split | dsimp only [OutOk, OptOk, ExcOk])

theorem State.enterAll_kept (s : State) (team : ℕ) (ok_s : s.kept ref0) : (State.enterAll s team).kept ref0 := by
  unfold State.enterAll
  repeat' (with_reducible first | assumption | apply State.tryEnter_kept | apply foldl_kept | intro _)

theorem State.takeTrap_kept (s : State) (team : ℕ) (tids : List ℕ) (cause : Cause) (kind : TpcKind) (tpc : BitVec 57)
    (taddr : DWord)
    (ok_s : s.kept ref0) : (State.takeTrap s team tids cause kind tpc taddr).kept ref0 := by
  unfold State.takeTrap
  repeat' (with_reducible first
    | assumption | apply State.cadenceTrap_kept | apply State.killTeam_kept | apply State.unseat_kept
    | apply State.modThreads_kept | apply State.tryEnter_kept | split | dsimp only [OutOk, OptOk, ExcOk])

theorem State.freeAddr_kept (s : State) (ok_s : s.kept ref0) : (State.freeAddr s).2.kept ref0 := by
  unfold State.freeAddr
  repeat' (with_reducible first | assumption | fail_if_no_progress apply mk_kept)

theorem State.trapNoAddr_kept (s : State) (team : ℕ) (tids : List ℕ) (cause : Cause) (kind : TpcKind) (tpc : BitVec 57)
    (ok_s : s.kept ref0) : (State.trapNoAddr s team tids cause kind tpc).kept ref0 := by
  unfold State.trapNoAddr
  repeat' (with_reducible first | assumption | apply State.freeAddr_kept | apply State.takeTrap_kept)

theorem State.wdogSets_kept (s : State) (team : ℕ) (ts : List Thread)
    (ok_s : s.kept ref0) : (State.wdogSets s team ts).kept ref0 := by
  unfold State.wdogSets
  repeat' (with_reducible first | assumption | apply State.trapNoAddr_kept | apply foldl_kept | intro _)

theorem State.lateWdog_kept (s : State) (team : ℕ) (tids : List ℕ)
    (ok_s : s.kept ref0) : (State.lateWdog s team tids).kept ref0 := by
  unfold State.lateWdog
  repeat' (with_reducible first
    | assumption | apply State.wdogSets_kept | apply State.modThreads_kept | split)

/-! ### Machine/Operands.lean -/

theorem State.trapGroup_kept (s : State) (c : Ctx) (cause : Cause) (addr : Option DWord)
    (ok_s : s.kept ref0) : (State.trapGroup s c cause addr).kept ref0 := by
  unfold State.trapGroup
  repeat' (with_reducible first
    | assumption | apply State.takeTrap_kept | apply State.trapNoAddr_kept | split)

theorem State.advance_kept (s : State) (ok_s : s.kept ref0) : (State.advance s).kept ref0 := by
  unfold State.advance
  repeat' (with_reducible first | assumption | apply State.modThreads_kept | apply State.modCore_kept | split)

theorem run_kept (s : State) (ops : List (Operand × ℕ)) (k : Ctx → State)
    (ok_s : s.kept ref0) (ok_k : ∀ x0, (k x0).kept ref0) : OutOk ref0 (run s ops k) := by
  unfold run
  repeat' (with_reducible first
    | assumption | apply State.trapGroup_kept | apply ok_k | split | dsimp only [OutOk, OptOk, ExcOk])

theorem runPriv_kept (h : Head) (s : State) (ops : List (Operand × ℕ)) (k : Ctx → State)
    (ok_s : s.kept ref0) (ok_k : ∀ x0, (k x0).kept ref0) : OutOk ref0 (runPriv h s ops k) := by
  unfold runPriv
  repeat' (with_reducible first
    | assumption | apply run_kept | apply State.trapGroup_kept | apply ok_k | intro _ | split)

theorem State.laneFaults_kept (s : State) (c : Ctx) (fs : List (ℕ × Cause × DWord))
    (ok_s : s.kept ref0) : (State.laneFaults s c fs).kept ref0 := by
  unfold State.laneFaults
  repeat' (with_reducible first
    | assumption | apply State.takeTrap_kept | apply foldl_kept | intro _ | split
    | dsimp only [OutOk, OptOk, ExcOk])

theorem State.laneSplit_kept (s : State) (c : Ctx) (bad : List (ℕ × Cause × DWord)) (k : State → State)
    (ok_s : s.kept ref0) (ok_k : ∀ x0, x0.kept ref0 → (k x0).kept ref0) : (State.laneSplit s c bad k).kept ref0 := by
  unfold State.laneSplit
  repeat' (with_reducible first
    | assumption | apply State.laneFaults_kept | apply State.advance_kept | apply State.unseat_kept | apply ok_k)

/-! ### Machine/Flags.lean -/

theorem State.writeEff_kept (s : State) (t : Thread) (d : Operand) (e : VecEff)
    (ok_s : s.kept ref0) : (State.writeEff s t d e).kept ref0 := by
  unfold State.writeEff
  repeat' (with_reducible first
    | assumption | apply State.writeDest_kept | apply State.modThread_kept | split)

theorem Ctx.vecWrites_kept (c : Ctx) (s : State) (h : Head) (d : Operand) (f : Thread → VecEff)
    (ok_s : s.kept ref0) : (Ctx.vecWrites c s h d f).kept ref0 := by
  unfold Ctx.vecWrites
  repeat' (with_reducible first | assumption | apply State.writeEff_kept | apply foldl_kept | intro _ | split)

theorem vec_kept (s : State) (h : Head) (ops : List (Operand × ℕ)) (d : Operand) (f : Ctx → Thread → VecEff)
    (ok_s : s.kept ref0) : OutOk ref0 (vec s h ops d f) := by
  unfold vec
  repeat' (with_reducible first
    | assumption | apply run_kept | apply State.advance_kept | apply Ctx.vecWrites_kept | intro _)

/-! ### Machine/Engine.lean -/

theorem State.takeLocks_kept (s : State) (core : ℕ) (ks : List Lock)
    (ok_s : s.kept ref0) : OptOk ref0 (State.takeLocks s core ks) := by
  unfold State.takeLocks
  repeat' (with_reducible first
    | assumption | apply State.modCore_kept | split | dsimp only [OutOk, OptOk, ExcOk])

theorem State.barIssue_kept (s : State) (team : ℕ) (b : Option ℕ) (n : ℕ)
    (ok_s : s.kept ref0) : (State.barIssue s team b n).kept ref0 := by
  unfold State.barIssue
  repeat' (with_reducible first
    | assumption | apply State.kept.modTeam | apply regs_modBar | (unfold BarKept; intro y h1; exact h1)
    | intro _ | (apply wf_id; with_unfolding_all assumption) | split)

theorem State.enterFault_kept (s : State) (f : FaultRec) (ok_s : s.kept ref0) : (State.enterFault s f).kept ref0 := by
  unfold State.enterFault
  repeat' (with_reducible first
    | assumption | apply State.kept.postEvent | fail_if_no_progress apply mk_kept | split)

theorem State.parkHeld_kept (s : State) (team : ℕ) (tids : List ℕ) (op : ℕ)
    (ok_s : s.kept ref0) : (State.parkHeld s team tids op).kept ref0 := by
  unfold State.parkHeld
  repeat' (with_reducible first | assumption | apply State.modThreads_kept | apply State.unseat_kept)

theorem State.releaseHeld_kept (s : State) (team : ℕ) (tids : List ℕ)
    (ok_s : s.kept ref0) : (State.releaseHeld s team tids).kept ref0 := by
  unfold State.releaseHeld
  repeat' (with_reducible first | assumption | apply State.modThreads_kept | apply State.lateWdog_kept)

theorem State.trapHeld_kept (s : State) (team : ℕ) (tids : List ℕ) (op : XferOp) (cause : Cause) (taddr : DWord)
    (ok_s : s.kept ref0) : (State.trapHeld s team tids op cause taddr).kept ref0 := by
  unfold State.trapHeld
  repeat' (with_reducible first | assumption | apply State.takeTrap_kept | apply State.modThreads_kept)

end Sys2Proof.Machine
end

