-- ==== Sys2Proof/Laws/CanonicalUnits.lean ====
section
/-! SUPPORT. Canonical memories and the bounds of the special registers under the operations and meanings of memory, copies, bank units, control, barriers,
messages, placement, launches, faults, traces and power. -/

namespace Sys2Proof.Machine

variable {ref0 : State}

/-! ### Machine/MemOps.lean -/

theorem State.sample_kept (s : State) (c : Ctx) (h : Head) (ids : List (ℕ × ℕ)) (lines : ℕ) (returns : Bool)
    (ok_s : s.kept ref0) : (State.sample s c h ids lines returns).kept ref0 := by
  unfold State.sample
  repeat' (with_reducible first
    | assumption | apply State.modCore_kept | apply State.flushSamples_kept | split
    | dsimp only [OutOk, OptOk, ExcOk])

theorem State.issueLoad_kept (s : State) (c : Ctx) (h : Head) (f : LoadForm) (d : Option Dest) (instr : ℕ) (t :
    Thread) (l : Loc) (data : List Word) (cmp : List Word)
    (ok_s : s.kept ref0) : (State.issueLoad s c h f d instr t l data cmp).kept ref0 := by
  unfold State.issueLoad
  repeat' (with_reducible first
    | assumption | apply State.bumpId_kept | apply State.modThreads_kept | fail_if_no_progress apply mk_kept)

theorem loadForm_kept (s : State) (h : Head) (ops : List (Operand × ℕ)) (f : LoadForm) (d : Operand) (addr : Ctx →
    Thread → ℕ) (chk : Ctx → Thread → Except Cause Loc) (data : Ctx → Thread → List Word) (cmp : Ctx → Thread → List
    Word)
    (ok_s : s.kept ref0) : OutOk ref0 (loadForm s h ops f d addr chk data cmp) := by
  unfold loadForm
  repeat' (with_reducible first
    | assumption | apply run_kept | apply State.laneSplit_kept | apply State.issueLoad_kept
    | apply State.sample_kept | apply foldl_kept | intro _ | split | dsimp only [OutOk, OptOk, ExcOk])

theorem execLd_kept (h : Head) (m : MemMods) (sz : Sz) (d : Operand) (base : Operand) (ofs : BitVec 9) (s : State)
    (ok_s : s.kept ref0) : OutOk ref0 (execLd h m sz d base ofs s) := by
  unfold execLd
  repeat' (with_reducible first | assumption | apply loadForm_kept)

theorem execLdk_kept (h : Head) (la : Fin 16) (sz : Sz) (d : Operand) (base : Operand) (ofs : BitVec 9) (s : State)
    (ok_s : s.kept ref0) : OutOk ref0 (execLdk h la sz d base ofs s) := by
  unfold execLdk
  repeat' (with_reducible first | assumption | apply loadForm_kept)

theorem execAtom_kept (h : Head) (m : MemMods) (op : Aop) (d : Operand) (base : Operand) (data : Operand) (ofs :
    BitVec 9) (s : State)
    (ok_s : s.kept ref0) : OutOk ref0 (execAtom h m op d base data ofs s) := by
  unfold execAtom
  repeat' (with_reducible first | assumption | apply loadForm_kept)

theorem execRed_kept (h : Head) (m : MemMods) (op : Aop) (base : Operand) (data : Operand) (ofs : BitVec 9) (s : State)
    (ok_s : s.kept ref0) : OutOk ref0 (execRed h m op base data ofs s) := by
  unfold execRed
  repeat' (with_reducible first | assumption | apply loadForm_kept)

theorem execCas_kept (h : Head) (m : MemMods) (sz : Sz) (d : Operand) (base : Operand) (data : Operand) (cmp :
    Operand) (s : State)
    (ok_s : s.kept ref0) : OutOk ref0 (execCas h m sz d base data cmp s) := by
  unfold execCas
  repeat' (with_reducible first | assumption | apply loadForm_kept)

theorem execProbe_kept (h : Head) (m : MemMods) (d : Operand) (base : Operand) (ofs : BitVec 9) (s : State)
    (ok_s : s.kept ref0) : OutOk ref0 (execProbe h m d base ofs s) := by
  unfold execProbe
  repeat' (with_reducible first | assumption | apply loadForm_kept)

theorem State.issueStore_kept (s : State) (c : Ctx) (h : Head) (rel : Bool) (stk : Bool) (sc : Scope) (t : Thread) (l
    : Loc) (bs : List Byte)
    (ok_s : s.kept ref0) : (State.issueStore s c h rel stk sc t l bs).kept ref0 := by
  unfold State.issueStore
  repeat' (with_reducible first
    | assumption | apply State.bumpId_kept | apply State.modThread_kept | apply State.modThreads_kept)

theorem storeForm_kept (s : State) (h : Head) (ops : List (Operand × ℕ)) (ord : Ord) (sc : Scope) (stk : Bool) (size :
    ℕ) (addr : Ctx → Thread → ℕ) (chk : Ctx → Thread → Except Cause Loc) (data : Ctx → Thread → List Word)
    (ok_s : s.kept ref0) : OutOk ref0 (storeForm s h ops ord sc stk size addr chk data) := by
  unfold storeForm
  repeat' (with_reducible first
    | assumption | apply run_kept | apply State.laneSplit_kept | apply State.issueStore_kept
    | apply State.sample_kept | apply foldl_kept | intro _ | split | dsimp only [OutOk, OptOk, ExcOk])

theorem execSt_kept (h : Head) (m : MemMods) (sz : Sz) (base : Operand) (data : Operand) (ofs : BitVec 9) (s : State)
    (ok_s : s.kept ref0) : OutOk ref0 (execSt h m sz base data ofs s) := by
  unfold execSt
  repeat' (with_reducible first | assumption | apply storeForm_kept)

theorem execStk_kept (h : Head) (sz : Sz) (base : Operand) (data : Operand) (ofs : BitVec 9) (s : State)
    (ok_s : s.kept ref0) : OutOk ref0 (execStk h sz base data ofs s) := by
  unfold execStk
  repeat' (with_reducible first | assumption | apply storeForm_kept)

theorem execFence_kept (h : Head) (kind : FenceKind) (ord : Ord) (sc : Scope) (s : State)
    (ok_s : s.kept ref0) : OutOk ref0 (execFence h kind ord sc s) := by
  unfold execFence
  repeat' (with_reducible first
    | assumption | apply run_kept | apply State.modThreads_kept | apply State.advance_kept | intro _)

theorem execFenceCompletion_kept (team : ℕ) (tid : ℕ) (s : State)
    (ok_s : s.kept ref0) : OutOk ref0 (execFenceCompletion team tid s) := by
  unfold execFenceCompletion
  repeat' (with_reducible first
    | assumption | apply State.modThread_kept | split | dsimp only [OutOk, OptOk, ExcOk])

theorem execLoadResultArrival_kept (id : ℕ) (s : State) (ok_s : s.kept ref0) : OutOk ref0 (execLoadResultArrival id s) := by
  unfold execLoadResultArrival
  repeat' (with_reducible first
    | assumption | apply State.settle_kept | apply State.stopBad_kept | apply State.enterAll_kept
    | apply State.loadMake_kept | split | dsimp only [OutOk, OptOk, ExcOk])

theorem execStorePerformed_kept (id : ℕ) (level : Scope) (s : State)
    (ok_s : s.kept ref0) : OutOk ref0 (execStorePerformed id level s) := by
  unfold execStorePerformed
  repeat' (with_reducible first
    | assumption | apply State.settle_kept | apply State.tryPerform_kept | split
    | dsimp only [OutOk, OptOk, ExcOk])

/-! ### Machine/Copies.lean -/

theorem State.sideWalk_kept (s : State) (core : ℕ) (asid : ℕ) (sys : Bool) (wr : Bool) (va : ℕ)
    (ok_s : s.kept ref0) : (State.sideWalk s core asid sys wr va).2.kept ref0 := by
  unfold State.sideWalk
  repeat' (with_reducible first
    | assumption | apply State.translate_kept | (refine pair2_kept (by assumption) ?_) | split)

theorem State.sideCheck_kept (s : State) (core : ℕ) (asid : ℕ) (l : Launch) (team : ℕ) (k : Side) (wr : Bool) (addr :
    ℕ) (n : ℕ) (align : ℕ)
    (ok_s : s.kept ref0) : (State.sideCheck s core asid l team k wr addr n align).2.kept ref0 := by
  unfold State.sideCheck
  repeat' (with_reducible first | assumption | apply State.sideWalk_kept | split)

theorem State.copyLane_kept (s : State) (c : Ctx) (ks : Side × Side) (n : ℕ) (sa : ℕ) (da : ℕ)
    (ok_s : s.kept ref0) : (State.copyLane s c ks n sa da).2.kept ref0 := by
  unfold State.copyLane
  repeat' (with_reducible first | assumption | apply State.sideCheck_kept)

theorem State.copyLanes_kept (s : State) (c : Ctx) (h : Head) (f : Thread → State → LaneRes × State) (sa : Thread → ℕ)
    (da : Thread → ℕ)
    (ok_s : s.kept ref0) (ok_f : ∀ x0 x1, x1.kept ref0 → (f x0 x1).2.kept ref0) : (State.copyLanes s c h f sa
    da).2.kept ref0 := by
  unfold State.copyLanes
  repeat' (with_reducible first | assumption | apply ok_f | apply foldl2_kept | intro _)

theorem State.faultHeld_kept (s : State) (c : Ctx) (kind : ℕ) (op : ℕ) (ls : List CopyLane)
    (ok_s : s.kept ref0) : (State.faultHeld s c kind op ls).kept ref0 := by
  unfold State.faultHeld
  repeat' (with_reducible first | assumption | apply State.enterFault_kept | apply State.bumpId_kept | split)

theorem State.mcastUp_kept (s : State) (kind : XferKind) (ok_s : s.kept ref0) : (State.mcastUp s kind).kept ref0 := by
  unfold State.mcastUp
  repeat' (with_reducible first | assumption | fail_if_no_progress apply mk_kept | split)

theorem State.copyIssue_kept (s0 : State) (c : Ctx) (h : Head) (kind : XferKind) (n : ℕ) (rel : Bool) (bar : Option ℕ)
    (teams : Option (List (ℕ × ℕ))) (ls : List CopyLane) (s : State)
    (ok_s0 : s0.kept ref0) (ok_s : s.kept ref0) : (State.copyIssue s0 c h kind n rel bar teams ls s).kept ref0 := by
  unfold State.copyIssue
  repeat' (with_reducible first
    | assumption | apply State.laneSplit_kept | apply State.sample_kept | apply State.takeLocks_kept
    | apply State.bumpId_kept | apply State.clearLines_kept | apply State.barIssue_kept
    | apply State.mcastUp_kept | apply State.modThreads_kept | apply State.parkHeld_kept
    | apply State.faultHeld_kept | apply State.settle_kept | apply State.checkXfer_kept
    | fail_if_no_progress apply mk_kept | apply foldlM_optOk | apply bind_optOk | intro _
    | (refine opt_kept (by assumption) ?_) | split | dsimp only [OutOk, OptOk, ExcOk])

theorem State.cpyLanes_kept (s : State) (c : Ctx) (h : Head) (n : ℕ) (ks : Side × Side) (d : Operand) (sr : Operand)
    (ok_s : s.kept ref0) : (State.cpyLanes s c h n ks d sr).2.kept ref0 := by
  unfold State.cpyLanes
  repeat' (with_reducible first
    | assumption | apply State.copyLanes_kept | apply State.copyLane_kept | intro _)

theorem execCpy_kept (h : Head) (sz : Fin 3) (dir : Dir) (rel : Bool) (d : Operand) (sr : Operand) (bar : BarSel) (s : State)
    (ok_s : s.kept ref0) : OutOk ref0 (execCpy h sz dir rel d sr bar s) := by
  unfold execCpy
  repeat' (with_reducible first
    | assumption | apply run_kept | apply State.advance_kept | apply State.sample_kept
    | apply State.trapGroup_kept | apply State.cpyLanes_kept | apply State.stopBad_kept
    | apply State.copyIssue_kept | intro _ | split)

theorem State.mcLanes_kept (s : State) (c : Ctx) (h : Head) (n : ℕ) (d : Operand) (sr : Operand)
    (ok_s : s.kept ref0) : (State.mcLanes s c h n d sr).2.kept ref0 := by
  unfold State.mcLanes
  repeat' (with_reducible first
    | assumption | apply State.copyLanes_kept | apply State.copyLane_kept | intro _ | split)

theorem execCpymc_kept (h : Head) (sz : Fin 3) (rel : Bool) (d : Operand) (sr : Operand) (g : Operand) (bar : BarSel)
    (s : State)
    (ok_s : s.kept ref0) : OutOk ref0 (execCpymc h sz rel d sr g bar s) := by
  unfold execCpymc
  repeat' (with_reducible first
    | assumption | apply run_kept | apply State.advance_kept | apply State.sample_kept
    | apply State.trapGroup_kept | apply State.mcLanes_kept | apply State.stopBad_kept
    | apply State.copyIssue_kept | intro _ | split)

theorem State.noteMoves_kept (s : State) (o : XferOp) (ms : List Move)
    (ok_s : s.kept ref0) : (State.noteMoves s o ms).kept ref0 := by
  unfold State.noteMoves
  repeat' (with_reducible first | assumption | apply State.noteEngine_kept | apply foldl_kept | intro _)

theorem State.noteDone_kept (s : State) (o : XferOp) (ms : List Move)
    (ok_s : s.kept ref0) : (State.noteDone s o ms).kept ref0 := by
  unfold State.noteDone
  repeat' (with_reducible first
    | assumption | apply State.noteLine_kept | apply State.modXfer_kept | apply foldl_kept | intro _ | split
    | dsimp only [OutOk, OptOk, ExcOk])

theorem execCopyLineCompletion_kept (op : ℕ) (line : ℕ) (s : State)
    (ok_s : s.kept ref0) : OutOk ref0 (execCopyLineCompletion op line s) := by
  unfold execCopyLineCompletion
  repeat' (with_reducible first
    | assumption | apply State.doneLine_kept | apply State.copyArrives_kept | apply State.noteMoves_kept
    | apply State.noteDone_kept | apply State.engineWrite_kept | apply State.modXfer_kept
    | apply State.copyServed_kept | apply State.settle_kept | apply State.stopBad_kept
    | apply State.afterLanding_kept | apply foldl_kept | trivial | intro _ | (refine out_kept (by assumption) ?_)
    | split | dsimp only [OutOk, OptOk, ExcOk])

theorem State.sampleCopy_kept (s : State) (o : XferOp) (word : ℕ)
    (ok_s : s.kept ref0) : (State.sampleCopy s o word).kept ref0 := by
  unfold State.sampleCopy
  repeat' (with_reducible first
    | assumption | apply State.copyArrives_kept | apply State.modXfer_kept | apply State.noteMoves_kept
    | apply State.noteDone_kept | apply State.stopBad_kept | split | dsimp only [OutOk, OptOk, ExcOk])

theorem State.countSampleLines_kept (s : State) (op : ℕ) (ms : List Move)
    (ok_s : s.kept ref0) : (State.countSampleLines s op ms).kept ref0 := by
  unfold State.countSampleLines
  repeat' (with_reducible first | assumption | fail_if_no_progress apply mk_kept)

theorem State.copyRelease_kept (s : State) (o : XferOp) (ws : List HeldWalk)
    (ok_s : s.kept ref0) : (State.copyRelease s o ws).1.kept ref0 := by
  unfold State.copyRelease
  repeat' (with_reducible first
    | assumption | apply State.modXfer_kept | apply State.countSampleLines_kept | split)

/-! ### Machine/BankUnits.lean -/

theorem State.bankWalk_kept (s : State) (core : ℕ) (asid : ℕ) (ps : List Piece)
    (ok_s : s.kept ref0) : (State.bankWalk s core asid ps).2.kept ref0 := by
  unfold State.bankWalk
  repeat' (with_reducible first | assumption | apply State.sideWalk_kept | apply foldl2_kept | intro _)

theorem State.bankLane_kept (s : State) (c : Ctx) (l : BankLane)
    (ok_s : s.kept ref0) : (State.bankLane s c l).2.kept ref0 := by
  unfold State.bankLane
  repeat' (with_reducible first
    | assumption | apply State.bankWalk_kept | (refine pair2_kept (by assumption) ?_) | split)

theorem State.bankLanes_kept (s : State) (c : Ctx) (h : Head) (mk : Thread → BankLane)
    (ok_s : s.kept ref0) : (State.bankLanes s c h mk).2.kept ref0 := by
  unfold State.bankLanes
  repeat' (with_reducible first | assumption | apply State.bankLane_kept | apply foldl2_kept | intro _)

theorem bankForm_kept (s0 : State) (h : Head) (ops : List (Operand × ℕ)) (mk : Ctx → Thread → ℕ → List ℕ → BankLane)
    (ok_s0 : s0.kept ref0) : OutOk ref0 (bankForm s0 h ops mk) := by
  unfold bankForm
  repeat' (with_reducible first
    | assumption | apply run_kept | apply State.bankLanes_kept | apply State.stopBad_kept
    | apply State.laneSplit_kept | apply State.sample_kept | apply State.takeLocks_kept | apply State.bumpId_kept
    | apply State.modThreads_kept | apply State.parkHeld_kept | apply State.enterFault_kept
    | apply State.settle_kept | fail_if_no_progress apply mk_kept | intro _
    | (refine opt_kept (by assumption) ?_) | split | dsimp only [OutOk, OptOk, ExcOk])

theorem execNmadd_kept (h : Head) (ty : NmTy) (len : Fin 7) (rel : Bool) (y : Operand) (sr : Operand) (s : State)
    (ok_s : s.kept ref0) : OutOk ref0 (execNmadd h ty len rel y sr s) := by
  unfold execNmadd
  repeat' (with_reducible first | assumption | apply bankForm_kept)

theorem execNmmax_kept (h : Head) (ty : NmTy) (len : Fin 7) (rel : Bool) (y : Operand) (sr : Operand) (s : State)
    (ok_s : s.kept ref0) : OutOk ref0 (execNmmax h ty len rel y sr s) := by
  unfold execNmmax
  repeat' (with_reducible first | assumption | apply bankForm_kept)

theorem execNmaxpy_kept (h : Head) (y : Operand) (x : Operand) (a : Operand) (n : Operand) (s : State)
    (ok_s : s.kept ref0) : OutOk ref0 (execNmaxpy h y x a n s) := by
  unfold execNmaxpy
  repeat' (with_reducible first | assumption | apply bankForm_kept)

theorem execNmstep_kept (h : Head) (zg : Bool) (rel : Bool) (w : Operand) (p : Operand) (s : State)
    (ok_s : s.kept ref0) : OutOk ref0 (execNmstep h zg rel w p s) := by
  unfold execNmstep
  repeat' (with_reducible first | assumption | apply bankForm_kept)

theorem State.noteSource_kept (s : State) (b : BankCmd) (ok_s : s.kept ref0) : (State.noteSource s b).kept ref0 := by
  unfold State.noteSource
  repeat' (with_reducible first
    | assumption | apply State.noteEngine_kept | apply foldl_kept | intro _ | split)

theorem execCommandAcceptance_kept (op : ℕ) (tid : ℕ) (s : State)
    (ok_s : s.kept ref0) : OutOk ref0 (execCommandAcceptance op tid s) := by
  unfold execCommandAcceptance
  repeat' (with_reducible first
    | assumption | apply State.noteSource_kept | apply State.startUnit_kept | apply State.modUnit_kept
    | apply State.modXfer_kept | apply State.modThreads_kept | apply State.checkXfer_kept
    | apply State.bankLocks_kept | apply State.settle_kept | apply State.stopBad_kept
    | fail_if_no_progress apply mk_kept | split | dsimp only [OutOk, OptOk, ExcOk])

theorem State.sampleBank_kept (s : State) (b : BankCmd) (word : ℕ)
    (ok_s : s.kept ref0) : (State.sampleBank s b word).kept ref0 := by
  unfold State.sampleBank
  repeat' (with_reducible first
    | assumption | apply State.noteEngine_kept | apply State.bankLocks_kept | apply State.stopBad_kept
    | fail_if_no_progress apply mk_kept | split)

theorem State.openRow_kept (s : State) (nb : ℕ) (ok_s : s.kept ref0) : (State.openRow s nb).kept ref0 := by
  unfold State.openRow
  repeat' (with_reducible first
    | assumption | apply State.noteEngine_kept | apply State.modUnit_kept | apply State.readBad_kept
    | apply foldl_kept | intro _ | split | dsimp only [OutOk, OptOk, ExcOk])

theorem State.closeRow_kept (s : State) (nb : ℕ) (ok_s : s.kept ref0) : (State.closeRow s nb).kept ref0 := by
  unfold State.closeRow
  repeat' (with_reducible first
    | assumption | apply State.modUnit_kept | split | dsimp only [OutOk, OptOk, ExcOk])

theorem State.enqueue_kept (s : State) (node : ℕ) (prio : ℕ) (len : ℕ) (what : XferWhat) (op : Option (ℕ × ℕ)) (cmd :
    Option ℕ) (entry : ℕ)
    (ok_s : s.kept ref0) : (State.enqueue s node prio len what op cmd entry).kept ref0 := by
  unfold State.enqueue
  repeat' (with_reducible first | assumption | apply State.bumpId_kept | fail_if_no_progress apply mk_kept)

theorem State.stopHuddle_kept (s : State) (g : ℕ) (ok_s : s.kept ref0) : (State.stopHuddle s g).kept ref0 := by
  unfold State.stopHuddle
  repeat' (with_reducible first
    | assumption | apply State.kept.postEvent | fail_if_no_progress apply mk_kept | split)

theorem State.modQuorum_kept (s : State) (g : ℕ) (f : QGroup → QGroup)
    (ok_s : s.kept ref0) : (State.modQuorum s g f).kept ref0 := by
  unfold State.modQuorum
  repeat' (with_reducible first | assumption | fail_if_no_progress apply mk_kept)

theorem State.modCmd_kept (s : State) (cmd : ℕ) (f : BankCmd → BankCmd)
    (ok_s : s.kept ref0) : (State.modCmd s cmd f).kept ref0 := by
  unfold State.modCmd
  repeat' (with_reducible first | assumption | fail_if_no_progress apply mk_kept)

theorem State.sendParity_kept (s : State) (q : QGroup) (b : BankCmd)
    (ok_s : s.kept ref0) : (State.sendParity s q b).kept ref0 := by
  unfold State.sendParity
  repeat' (with_reducible first
    | assumption | apply State.modCmd_kept | apply State.enqueue_kept | apply foldl_kept | intro _)

theorem State.protect_kept (s : State) (b : BankCmd) (ok_s : s.kept ref0) : (State.protect s b).kept ref0 := by
  unfold State.protect
  repeat' (with_reducible first
    | assumption | apply State.enqueue_kept | apply State.stopHuddle_kept | apply State.sendParity_kept
    | apply foldl_kept | intro _ | split)

theorem State.writeSector_kept (s : State) (nb : ℕ) (i : ℕ) (ok_s : s.kept ref0) : (State.writeSector s nb i).kept ref0 := by
  unfold State.writeSector
  repeat' (with_reducible first
    | assumption | apply State.engineWrite_kept | apply State.closeRow_kept | apply State.modUnit_kept
    | apply foldl_kept | intro _ | split | dsimp only [OutOk, OptOk, ExcOk])

theorem State.bankSector_kept (s : State) (nb : ℕ) (i : ℕ) (ok_s : s.kept ref0) : (State.bankSector s nb i).kept ref0 := by
  unfold State.bankSector
  repeat' (with_reducible first
    | assumption | apply State.settle_kept | apply State.writeSector_kept | apply State.openRow_kept | split
    | dsimp only [OutOk, OptOk, ExcOk])

theorem execNmwinWindowEnd_kept (nb : ℕ) (s : State) (ok_s : s.kept ref0) : OutOk ref0 (execNmwinWindowEnd nb s) := by
  unfold execNmwinWindowEnd
  repeat' (with_reducible first
    | assumption | apply State.modUnit_kept | split | dsimp only [OutOk, OptOk, ExcOk])

theorem execBankCommandSuspend_kept (nb : ℕ) (s : State)
    (ok_s : s.kept ref0) : OutOk ref0 (execBankCommandSuspend nb s) := by
  unfold execBankCommandSuspend
  repeat' (with_reducible first
    | assumption | apply State.modUnit_kept | trivial | (refine out_kept (by assumption) ?_) | split
    | dsimp only [OutOk, OptOk, ExcOk])

theorem execBankCommandResume_kept (nb : ℕ) (s : State) (ok_s : s.kept ref0) : OutOk ref0 (execBankCommandResume nb s) := by
  unfold execBankCommandResume
  repeat' (with_reducible first
    | assumption | apply State.modUnit_kept | split | dsimp only [OutOk, OptOk, ExcOk])

theorem State.popCmd_kept (s : State) (nb : ℕ) (ok_s : s.kept ref0) : (State.popCmd s nb).kept ref0 := by
  unfold State.popCmd
  repeat' (with_reducible first | assumption | apply State.startUnit_kept | apply State.modUnit_kept)

theorem State.runRow_kept (s : State) (nb : ℕ) (ok_s : s.kept ref0) : (State.runRow s nb).kept ref0 := by
  unfold State.runRow
  repeat' (with_reducible first
    | assumption | apply State.openRow_kept | apply State.writeSector_kept | apply foldl_kept | intro _ | split
    | dsimp only [OutOk, OptOk, ExcOk])

theorem execBankCommandCompletion_kept (nb : ℕ) (s : State)
    (ok_s : s.kept ref0) : OutOk ref0 (execBankCommandCompletion nb s) := by
  unfold execBankCommandCompletion
  repeat' (with_reducible first
    | assumption | apply State.runRow_kept | apply State.settle_kept | apply State.popCmd_kept
    | apply State.modUnit_kept | apply State.protect_kept | apply foldl_kept | trivial | intro _
    | (refine out_kept (by assumption) ?_) | split | dsimp only [OutOk, OptOk, ExcOk])

theorem execBuddyAcknowledge_kept (cmd : ℕ) (s : State) (ok_s : s.kept ref0) : OutOk ref0 (execBuddyAcknowledge cmd s) := by
  unfold execBuddyAcknowledge
  repeat' (with_reducible first
    | assumption | apply State.modCmd_kept | split | dsimp only [OutOk, OptOk, ExcOk])

theorem execPerBankRefresh_kept (nb : ℕ) (s : State) (ok_s : s.kept ref0) : OutOk ref0 (execPerBankRefresh nb s) := by
  unfold execPerBankRefresh
  repeat' (with_reducible first | assumption | apply State.modUnit_kept | dsimp only [OutOk, OptOk, ExcOk])

theorem execBuddyMirrorWrite_kept (addr : ℕ) (data : List Byte) (s : State)
    (ok_s : s.kept ref0) : OutOk ref0 (execBuddyMirrorWrite addr data s) := by
  unfold execBuddyMirrorWrite
  repeat' (with_reducible first
    | assumption | apply State.kept.memWrite | split | dsimp only [OutOk, OptOk, ExcOk])

theorem execNmfence_kept (h : Head) (bar : BarSel) (s : State) (ok_s : s.kept ref0) : OutOk ref0 (execNmfence h bar s) := by
  unfold execNmfence
  repeat' (with_reducible first
    | assumption | apply run_kept | apply State.advance_kept | apply State.trapGroup_kept
    | apply State.bumpId_kept | apply State.modThreads_kept | apply State.barIssue_kept
    | fail_if_no_progress apply mk_kept | intro _ | split | dsimp only [OutOk, OptOk, ExcOk])

theorem execNmfenceCompletion_kept (op : ℕ) (s : State) (ok_s : s.kept ref0) : OutOk ref0 (execNmfenceCompletion op s) := by
  unfold execNmfenceCompletion
  repeat' (with_reducible first
    | assumption | apply State.settle_kept | apply State.finishXfer_kept | split
    | dsimp only [OutOk, OptOk, ExcOk])

theorem State.bankReleaseOne_kept (s : State) (o : XferOp) (h : Held) (w : HeldWalk)
    (ok_s : s.kept ref0) : (State.bankReleaseOne s o h w).1.kept ref0 := by
  unfold State.bankReleaseOne
  repeat' (with_reducible first
    | assumption | apply State.bumpId_kept | apply State.modXfer_kept | apply State.bankLocks_kept
    | fail_if_no_progress apply mk_kept | split | dsimp only [OutOk, OptOk, ExcOk])

theorem State.bankRefuse_kept (s : State) (o : XferOp) (bad : List (ℕ × Cause × ℕ))
    (ok_s : s.kept ref0) : (State.bankRefuse s o bad).kept ref0 := by
  unfold State.bankRefuse
  repeat' (with_reducible first
    | assumption | apply State.abandonHeld_kept | apply State.trapHeld_kept | apply foldl_kept | intro _ | split)

theorem State.bankRelease_kept (s : State) (o : XferOp) (ws : List HeldWalk)
    (ok_s : s.kept ref0) : (State.bankRelease s o ws).1.kept ref0 := by
  unfold State.bankRelease
  repeat' (with_reducible first
    | assumption | apply State.bankReleaseOne_kept | apply State.bankRefuse_kept | apply foldl1_kept | intro _
    | (refine pair1_kept (by assumption) ?_) | split)

/-! ### Machine/Control.lean -/

theorem State.tickLast_kept (s : State) (c : Ctx) (ok_s : s.kept ref0) : (State.tickLast s c).kept ref0 := by
  unfold State.tickLast
  repeat' (with_reducible first | assumption | apply State.modThreads_kept)

theorem State.depart_kept (s : State) (team : ℕ) (tid : ℕ) (f : Thread → Thread)
    (ok_s : s.kept ref0) : (State.depart s team tid f).kept ref0 := by
  unfold State.depart
  repeat' (with_reducible first | assumption | apply State.modThread_kept | apply State.unseat_kept)

theorem State.leaveRest_kept (s : State) (c : Ctx) (ok_s : s.kept ref0) : (State.leaveRest s c).kept ref0 := by
  unfold State.leaveRest
  repeat' (with_reducible first | assumption | apply State.modThreads_kept | apply State.modCore_kept | split)

theorem State.foldPath_kept (s : State) (t : Thread) (target : BitVec 57) (kind : ℕ)
    (ok_s : s.kept ref0) : (State.foldPath s t target kind).kept ref0 := by
  unfold State.foldPath
  repeat' (with_reducible first | assumption | apply State.modThread_kept | apply State.modHg_kept)

theorem State.traceBranch_kept (s : State) (c : Ctx) (kind : ℕ) (ts : List (Thread × BitVec 57))
    (ok_s : s.kept ref0) : (State.traceBranch s c kind ts).kept ref0 := by
  unfold State.traceBranch
  repeat' (with_reducible first | assumption | apply State.trace_kept | apply foldl_kept | intro _ | split)

theorem branch_kept (s : State) (h : Head) (ops : List (Operand × ℕ)) (kind : ℕ) (link : Operand) (target : Ctx →
    Thread → BitVec 57)
    (ok_s : s.kept ref0) : OutOk ref0 (branch s h ops kind link target) := by
  unfold branch
  repeat' (with_reducible first
    | assumption | apply run_kept | apply State.tickLast_kept | apply State.writeEff_kept
    | apply State.foldPath_kept | apply State.traceBranch_kept | apply State.depart_kept
    | apply State.laneFaults_kept | apply State.leaveRest_kept | apply foldl_kept | intro _)

theorem execBra_kept (h : Head) (off : BitVec 24) (s : State) (ok_s : s.kept ref0) : OutOk ref0 (execBra h off s) := by
  unfold execBra
  repeat' (with_reducible first | assumption | apply branch_kept)

theorem execBrx_kept (h : Head) (a : Operand) (s : State) (ok_s : s.kept ref0) : OutOk ref0 (execBrx h a s) := by
  unfold execBrx
  repeat' (with_reducible first | assumption | apply branch_kept)

theorem execCall_kept (h : Head) (d : Operand) (off : BitVec 24) (s : State)
    (ok_s : s.kept ref0) : OutOk ref0 (execCall h d off s) := by
  unfold execCall
  repeat' (with_reducible first | assumption | apply branch_kept)

theorem execRet_kept (h : Head) (a : Operand) (s : State) (ok_s : s.kept ref0) : OutOk ref0 (execRet h a s) := by
  unfold execRet
  repeat' (with_reducible first | assumption | apply branch_kept)

theorem execExit_kept (h : Head) (s : State) (ok_s : s.kept ref0) : OutOk ref0 (execExit h s) := by
  unfold execExit
  repeat' (with_reducible first
    | assumption | apply run_kept | apply State.tickLast_kept | apply State.exitThread_kept
    | apply State.settle_kept | apply State.leaveRest_kept | apply foldl_kept | intro _)

theorem execYield_kept (h : Head) (s : State) (ok_s : s.kept ref0) : OutOk ref0 (execYield h s) := by
  unfold execYield
  repeat' (with_reducible first
    | assumption | apply run_kept | apply State.tickLast_kept | apply State.modThreads_kept
    | apply State.leaveRest_kept | intro _)

theorem execNop_kept (_h : Head) (s : State) (ok_s : s.kept ref0) : OutOk ref0 (execNop _h s) := by
  unfold execNop
  repeat' (with_reducible first | assumption | apply run_kept | apply State.advance_kept | intro _)

theorem execJoin_kept (h : Head) (k : Fin 32) (off : BitVec 24) (s : State)
    (ok_s : s.kept ref0) : OutOk ref0 (execJoin h k off s) := by
  unfold execJoin
  repeat' (with_reducible first
    | assumption | apply run_kept | apply State.trapGroup_kept | apply State.modHg_kept
    | apply State.traceBranch_kept | apply State.advance_kept | apply foldl_kept | intro _ | split)

theorem execWaitj_kept (h : Head) (k : Fin 32) (s : State) (ok_s : s.kept ref0) : OutOk ref0 (execWaitj h k s) := by
  unfold execWaitj
  repeat' (with_reducible first
    | assumption | apply run_kept | apply State.trapGroup_kept | apply State.tickLast_kept
    | apply State.modHg_kept | apply State.depart_kept | apply State.checkRejoin_kept
    | apply State.leaveRest_kept | apply foldl_kept | intro _ | split)

theorem execElect_kept (h : Head) (pd : Fin 8) (d : Operand) (s : State)
    (ok_s : s.kept ref0) : OutOk ref0 (execElect h pd d s) := by
  unfold execElect
  repeat' (with_reducible first
    | assumption | apply run_kept | apply State.advance_kept | apply State.writeEff_kept | apply foldl_kept
    | intro _ | split)

theorem State.syncOne_kept (s : State) (t : Thread) (a : DWord) (gsz : ℕ)
    (ok_s : s.kept ref0) : (State.syncOne s t a gsz).1.kept ref0 := by
  unfold State.syncOne
  repeat' (with_reducible first
    | assumption | apply State.modHg_kept | apply State.depart_kept | apply State.checkSyncm_kept | split
    | dsimp only [OutOk, OptOk, ExcOk])

theorem execSyncm_kept (h : Head) (a : Operand) (s : State) (ok_s : s.kept ref0) : OutOk ref0 (execSyncm h a s) := by
  unfold execSyncm
  repeat' (with_reducible first
    | assumption | apply run_kept | apply State.tickLast_kept | apply State.syncOne_kept
    | apply State.trapNoAddr_kept | apply State.leaveRest_kept | apply foldl1_kept | intro _ | split)

theorem execGsize_kept (h : Head) (code : Fin 4) (s : State) (ok_s : s.kept ref0) : OutOk ref0 (execGsize h code s) := by
  unfold execGsize
  repeat' (with_reducible first
    | assumption | apply run_kept | apply State.advance_kept | apply State.kept.modTeam | intro _
    | (apply regs_id; with_unfolding_all assumption) | split)

theorem trapWith_kept (cause : Cause) (h : Head) (code : BitVec 24) (s : State)
    (ok_s : s.kept ref0) : OutOk ref0 (trapWith cause h code s) := by
  unfold trapWith
  repeat' (with_reducible first
    | assumption | apply run_kept | apply State.advance_kept | apply State.takeTrap_kept | intro _)

theorem execTrap_kept (h : Head) (code : BitVec 24) (s : State) (ok_s : s.kept ref0) : OutOk ref0 (execTrap h code s) := by
  unfold execTrap
  repeat' (with_reducible first | assumption | apply trapWith_kept)

theorem execBkpt_kept (h : Head) (code : BitVec 24) (s : State) (ok_s : s.kept ref0) : OutOk ref0 (execBkpt h code s) := by
  unfold execBkpt
  repeat' (with_reducible first | assumption | apply trapWith_kept)

theorem State.unwatch_kept (s : State) (op : ℕ) (tid : ℕ) (ok_s : s.kept ref0) : (State.unwatch s op tid).kept ref0 := by
  unfold State.unwatch
  repeat' (with_reducible first | assumption | apply State.modXfer_kept)

theorem State.endWatch_kept (s : State) (mode : TretMode) (t : Thread)
    (ok_s : s.kept ref0) : (State.endWatch s mode t).kept ref0 := by
  unfold State.endWatch
  repeat' (with_reducible first
    | assumption | apply State.abandonHeld_kept | apply State.unwatch_kept | split)

theorem State.tretOne_kept (s : State) (c : Ctx) (mode : TretMode) (t : Thread)
    (ok_s : s.kept ref0) : (State.tretOne s c mode t).kept ref0 := by
  unfold State.tretOne
  repeat' (with_reducible first
    | assumption | apply State.unseat_kept | apply State.endWatch_kept | apply State.modThread_kept | split
    | dsimp only [OutOk, OptOk, ExcOk])

theorem execTret_kept (h : Head) (mode : TretMode) (s : State) (ok_s : s.kept ref0) : OutOk ref0 (execTret h mode s) := by
  unfold execTret
  repeat' (with_reducible first
    | assumption | apply run_kept | apply State.trapGroup_kept | apply State.killTeam_kept
    | apply State.tickLast_kept | apply State.tretOne_kept | apply State.leaveRest_kept
    | apply State.endWdog_kept | apply State.lateWdog_kept | apply foldl_kept | intro _ | split
    | dsimp only [OutOk, OptOk, ExcOk])

/-! ### Machine/Barriers.lean -/

theorem actAll_kept (s : State) (h : Head) (ops : List (Operand × ℕ)) (f : Ctx → Thread → State → Except Cause State)
    (ok_s : s.kept ref0) (ok_f : ∀ x0 x1 x2, x2.kept ref0 → ExcOk ref0 (f x0 x1 x2)) : OutOk ref0 (actAll s h ops f) := by
  unfold actAll
  repeat' (with_reducible first
    | assumption | apply run_kept | apply State.advance_kept | apply State.trapGroup_kept | apply ok_f
    | apply foldlM_excOk | intro _ | (refine exc_kept (by assumption) ?_) | split)

theorem State.binit_kept (s : State) (team b e : Nat) (h_s : s.kept ref0) : ExcOk ref0 (s.binit team b e) := by
  unfold State.binit
  dsimp only
  split
  · trivial
  · split
    · trivial
    · rename_i h
      refine h_s.modTeam _ _ (fun _ hx => hx) (fun _ hx => hx) (fun x hx => regs_modBar _ _ hx (fun _ _ => ?_))
      simp only [Bool.or_eq_true, decide_eq_true_eq, not_or] at h
      exact Nat.le_of_not_lt h.2

theorem execBinit_kept (h : Head) (b : Fin 16) (e : Operand) (s : State)
    (ok_s : s.kept ref0) : OutOk ref0 (execBinit h b e s) := by
  unfold execBinit
  repeat' (with_reducible first | assumption | apply actAll_kept | apply State.binit_kept | intro _)

theorem State.barv_kept (s : State) (team : ℕ) (b : ℕ) (n : ℕ) (who : List ℕ)
    (ok_s : s.kept ref0) : ExcOk ref0 (State.barv s team b n who) := by
  unfold State.barv
  repeat' (with_reducible first
    | assumption | apply State.arriveBar_kept | apply State.kept.modTeam | apply regs_modBar
    | (unfold BarKept; intro y h1; exact h1) | trivial | intro _ | (refine exc_kept (by assumption) ?_)
    | (apply wf_id; with_unfolding_all assumption) | split | dsimp only [OutOk, OptOk, ExcOk])

theorem execBarv_kept (h : Head) (b : Fin 16) (k : Operand) (s : State)
    (ok_s : s.kept ref0) : OutOk ref0 (execBarv h b k s) := by
  unfold execBarv
  repeat' (with_reducible first | assumption | apply actAll_kept | apply State.barv_kept | intro _)

theorem State.bexp_kept (s : State) (team : ℕ) (b : ℕ) (n : ℕ)
    (ok_s : s.kept ref0) : ExcOk ref0 (State.bexp s team b n) := by
  unfold State.bexp
  repeat' (with_reducible first
    | assumption | apply State.kept.modTeam | apply regs_modBar | (unfold BarKept; intro y h1; exact h1)
    | trivial | intro _ | (refine exc_kept (by assumption) ?_) | (apply wf_id; with_unfolding_all assumption)
    | split | dsimp only [OutOk, OptOk, ExcOk])

theorem execBexp_kept (h : Head) (b : Fin 16) (n : Operand) (s : State)
    (ok_s : s.kept ref0) : OutOk ref0 (execBexp h b n s) := by
  unfold execBexp
  repeat' (with_reducible first | assumption | apply actAll_kept | apply State.bexp_kept | intro _)

theorem State.detach_kept (s : State) (team : ℕ) (b : ℕ) (ok_s : s.kept ref0) : (State.detach s team b).kept ref0 := by
  unfold State.detach
  repeat' (with_reducible first | assumption | fail_if_no_progress apply mk_kept)

theorem State.binv_kept (s : State) (team : ℕ) (b : ℕ) (force : Bool)
    (ok_s : s.kept ref0) : ExcOk ref0 (State.binv s team b force) := by
  unfold State.binv
  repeat' (with_reducible first
    | assumption | apply State.kept.modTeam | apply State.detach_kept | apply State.releaseBar_kept
    | apply regs_modBar | (unfold BarKept; intro y h1; exact h1) | trivial | intro _
    | (refine exc_kept (by assumption) ?_) | (apply wf_id; with_unfolding_all assumption) | split
    | dsimp only [OutOk, OptOk, ExcOk])

theorem execBinv_kept (h : Head) (b : Fin 16) (force : Bool) (s : State)
    (ok_s : s.kept ref0) : OutOk ref0 (execBinv h b force s) := by
  unfold execBinv
  repeat' (with_reducible first | assumption | apply actAll_kept | apply State.binv_kept | intro _)

theorem execBwait_kept (h : Head) (b : Fin 16) (pd : Fin 8) (p : Operand) (s : State)
    (ok_s : s.kept ref0) : OutOk ref0 (execBwait h b pd p s) := by
  unfold execBwait
  repeat' (with_reducible first
    | assumption | apply run_kept | apply State.leaveRest_kept | apply State.tickLast_kept
    | apply State.trapGroup_kept | apply State.modThreads_kept | apply State.depart_kept
    | apply State.kept.modTeam | apply regs_modBar | (unfold BarKept; intro y h1; exact h1) | apply foldl_kept
    | intro _ | (apply wf_id; with_unfolding_all assumption) | split | dsimp only [OutOk, OptOk, ExcOk])

/-! ### Machine/Huddle.lean -/

theorem State.checkReach_kept (s : State) (ok_s : s.kept ref0) : (State.checkReach s).kept ref0 := by
  unfold State.checkReach
  repeat' (with_reducible first | assumption | apply State.stopHuddle_kept | split)

theorem State.deliver_kept (s : State) (q : QGroup) (data : List Byte) (e : Contrib)
    (ok_s : s.kept ref0) : (State.deliver s q data e).kept ref0 := by
  unfold State.deliver
  repeat' (with_reducible first
    | assumption | apply State.enqueue_kept | fail_if_no_progress apply mk_kept | split)

theorem State.foldedIf_kept (s : State) (cmd : ℕ) (ok_s : s.kept ref0) : (State.foldedIf s cmd).kept ref0 := by
  unfold State.foldedIf
  repeat' (with_reducible first | assumption | apply State.modCmd_kept | split)

theorem State.foldRound_kept (s : State) (g : ℕ) (es : List Contrib)
    (ok_s : s.kept ref0) : (State.foldRound s g es).kept ref0 := by
  unfold State.foldRound
  repeat' (with_reducible first
    | assumption | apply State.foldedIf_kept | apply State.modQuorum_kept | apply foldl_kept)

theorem State.closeRound_kept (s : State) (g : ℕ) (ok_s : s.kept ref0) : (State.closeRound s g).kept ref0 := by
  unfold State.closeRound
  repeat' (with_reducible first
    | assumption | apply State.modQuorum_kept | apply State.deliver_kept | apply State.foldRound_kept
    | apply State.enqueue_kept | apply foldl_kept | intro _ | split | dsimp only [OutOk, OptOk, ExcOk])

theorem State.closeRounds_kept (s : State) (g : ℕ) (ok_s : s.kept ref0) : (State.closeRounds s g).kept ref0 := by
  unfold State.closeRounds
  repeat' (with_reducible first | assumption | apply State.closeRound_kept)

theorem State.closeAll_kept (s : State) (ok_s : s.kept ref0) : (State.closeAll s).kept ref0 := by
  unfold State.closeAll
  repeat' (with_reducible first
    | assumption | apply State.closeRounds_kept | apply foldl_kept | intro _ | split)

theorem State.takeContrib_kept (s : State) (g : ℕ) (e : Contrib)
    (ok_s : s.kept ref0) : (State.takeContrib s g e).kept ref0 := by
  unfold State.takeContrib
  repeat' (with_reducible first
    | assumption | apply State.modQuorum_kept | apply State.bumpId_kept | apply State.closeRounds_kept)

theorem State.takeParity_kept (s : State) (q : QGroup) (b : BankCmd)
    (ok_s : s.kept ref0) : (State.takeParity s q b).kept ref0 := by
  unfold State.takeParity
  repeat' (with_reducible first
    | assumption | apply State.modCmd_kept | apply State.takeContrib_kept | apply foldl_kept | intro _ | split
    | dsimp only [OutOk, OptOk, ExcOk])

theorem State.relockParts_kept (s : State) (op : ℕ) (ok_s : s.kept ref0) : (State.relockParts s op).kept ref0 := by
  unfold State.relockParts
  repeat' (with_reducible first
    | assumption | apply State.freeLocks_kept | apply State.modCore_kept | apply State.kept.modTeam | intro _
    | (apply regs_id; with_unfolding_all assumption) | split | dsimp only [OutOk, OptOk, ExcOk])

theorem State.finishPart_kept (s : State) (op : ℕ) (tid : ℕ)
    (ok_s : s.kept ref0) : (State.finishPart s op tid).kept ref0 := by
  unfold State.finishPart
  repeat' (with_reducible first
    | assumption | apply State.modXfer_kept | apply State.relockParts_kept | apply State.freeLines_kept
    | apply State.modThreads_kept | apply State.checkXfer_kept | apply State.arriveOp_kept | split)

theorem State.notePart_kept (s : State) (o : XferOp) (p : Part) (ok_s : s.kept ref0) : (State.notePart s o p).kept ref0 := by
  unfold State.notePart
  repeat' (with_reducible first
    | assumption | apply State.noteEngine_kept | apply foldl_kept | intro _ | split)

theorem State.samplePart_kept (s : State) (o : XferOp) (word : ℕ)
    (ok_s : s.kept ref0) : (State.samplePart s o word).kept ref0 := by
  unfold State.samplePart
  repeat' (with_reducible first
    | assumption | apply State.modXfer_kept | apply State.noteEngine_kept | apply State.stopBad_kept | split
    | dsimp only [OutOk, OptOk, ExcOk])

theorem State.withAddrs_kept (s : State) (bad : List (ℕ × Cause × Option DWord))
    (ok_s : s.kept ref0) : (State.withAddrs s bad).2.kept ref0 := by
  unfold State.withAddrs
  repeat' (with_reducible first | assumption | apply State.freeAddr_kept | split)

theorem State.partIssue_kept (s : State) (c : Ctx) (h : Head) (kind : XferKind) (rel : Bool) (bar : Option ℕ) (bad :
    List (ℕ × Cause × Option DWord)) (ps : List Part) (stall : Bool) (k : State → State)
    (ok_s : s.kept ref0) (ok_k : ∀ x0, x0.kept ref0 → (k x0).kept ref0) : (State.partIssue s c h kind rel bar bad ps
    stall k).kept ref0 := by
  unfold State.partIssue
  repeat' (with_reducible first
    | assumption | apply State.withAddrs_kept | apply State.laneSplit_kept | apply State.takeLocks_kept
    | apply State.clearLines_kept | apply State.bumpId_kept | apply State.barIssue_kept
    | apply State.modThreads_kept | apply ok_k | fail_if_no_progress apply mk_kept | intro _
    | (refine pair2_kept (by assumption) ?_) | (refine opt_kept (by assumption) ?_) | split
    | dsimp only [OutOk, OptOk, ExcOk])

theorem execQpost_kept (h : Head) (rel : Bool) (r : Operand) (k : Operand) (w : Operand) (m : Operand) (bar : BarSel)
    (s : State)
    (ok_s : s.kept ref0) : OutOk ref0 (execQpost h rel r k w m bar s) := by
  unfold execQpost
  repeat' (with_reducible first
    | assumption | apply run_kept | apply State.advance_kept | apply State.trapGroup_kept
    | apply State.partIssue_kept | fail_if_no_progress apply mk_kept | intro _ | split)

theorem execContributionRead_kept (op : ℕ) (tid : ℕ) (s : State)
    (ok_s : s.kept ref0) : OutOk ref0 (execContributionRead op tid s) := by
  unfold execContributionRead
  repeat' (with_reducible first
    | assumption | apply State.modXfer_kept | apply State.notePart_kept | apply State.relockParts_kept
    | apply State.enqueue_kept | apply State.settle_kept | apply State.stopBad_kept | trivial
    | (refine out_kept (by assumption) ?_) | split | dsimp only [OutOk, OptOk, ExcOk])

theorem execQuorumContributionArrival_kept (src : ContribSrc) (s : State)
    (ok_s : s.kept ref0) : OutOk ref0 (execQuorumContributionArrival src s) := by
  unfold execQuorumContributionArrival
  repeat' (with_reducible first
    | assumption | apply State.modXfer_kept | apply State.takeContrib_kept | apply State.stopHuddle_kept | split
    | dsimp only [OutOk, OptOk, ExcOk])

theorem execParityFold_kept (cmd : ℕ) (s : State) (ok_s : s.kept ref0) : OutOk ref0 (execParityFold cmd s) := by
  unfold execParityFold
  repeat' (with_reducible first
    | assumption | apply State.stopHuddle_kept | apply State.foldedIf_kept | apply State.takeParity_kept
    | apply State.modCmd_kept | apply State.sendParity_kept | split | dsimp only [OutOk, OptOk, ExcOk])

theorem State.writeResult_kept (s : State) (op : ℕ) (tid : ℕ) (data : List Byte)
    (ok_s : s.kept ref0) : (State.writeResult s op tid data).kept ref0 := by
  unfold State.writeResult
  repeat' (with_reducible first
    | assumption | apply State.finishPart_kept | apply State.engineWrite_kept | split)

theorem execQpostResultArrival_kept (op : ℕ) (tid : ℕ) (remote : Option (List Byte)) (s : State)
    (ok_s : s.kept ref0) : OutOk ref0 (execQpostResultArrival op tid remote s) := by
  unfold execQpostResultArrival
  repeat' (with_reducible first
    | assumption | apply State.settle_kept | apply State.writeResult_kept | fail_if_no_progress apply mk_kept
    | trivial | (refine out_kept (by assumption) ?_) | split | dsimp only [OutOk, OptOk, ExcOk])

theorem execClosureMessageArrival_kept (group : ℕ) (round : BitVec 16) (s : State)
    (ok_s : s.kept ref0) : OutOk ref0 (execClosureMessageArrival group round s) := by
  unfold execClosureMessageArrival
  repeat' (with_reducible first
    | assumption | apply State.modQuorum_kept | split | dsimp only [OutOk, OptOk, ExcOk])

theorem execQsync_kept (h : Head) (la : Fin 16) (d : Operand) (g : Operand) (m : Operand) (bar : BarSel) (s : State)
    (ok_s : s.kept ref0) : OutOk ref0 (execQsync h la d g m bar s) := by
  unfold execQsync
  repeat' (with_reducible first
    | assumption | apply run_kept | apply State.advance_kept | apply State.trapGroup_kept
    | apply State.partIssue_kept | apply State.modThreads_kept | apply State.enqueue_kept | apply foldl_kept
    | intro _ | split)

theorem State.writeSync_kept (s : State) (op : ℕ) (tid : ℕ) (round : BitVec 16) (count : ℕ)
    (ok_s : s.kept ref0) : (State.writeSync s op tid round count).kept ref0 := by
  unfold State.writeSync
  repeat' (with_reducible first
    | assumption | apply State.modQuorum_kept | apply State.modThreads_kept | apply State.enterAll_kept
    | apply State.finishPart_kept | split)

theorem execQsyncRequestArrival_kept (op : ℕ) (tid : ℕ) (remote : Option (ℕ × ℕ × ℕ)) (s : State)
    (ok_s : s.kept ref0) : OutOk ref0 (execQsyncRequestArrival op tid remote s) := by
  unfold execQsyncRequestArrival
  repeat' (with_reducible first
    | assumption | apply State.enqueue_kept | apply State.modXfer_kept | fail_if_no_progress apply mk_kept
    | split | dsimp only [OutOk, OptOk, ExcOk])

theorem execQsyncReplyArrival_kept (op : ℕ) (tid : ℕ) (remote : Option (BitVec 16 × BitVec 8)) (s : State)
    (ok_s : s.kept ref0) : OutOk ref0 (execQsyncReplyArrival op tid remote s) := by
  unfold execQsyncReplyArrival
  repeat' (with_reducible first
    | assumption | apply State.settle_kept | apply State.writeSync_kept | fail_if_no_progress apply mk_kept
    | trivial | (refine out_kept (by assumption) ?_) | split | dsimp only [OutOk, OptOk, ExcOk])

theorem State.huddleRestore_kept (s : State) (team : ℕ) (ok_s : s.kept ref0) : (State.huddleRestore s team).kept ref0 := by
  unfold State.huddleRestore
  repeat' (with_reducible first
    | assumption | apply State.writeResult_kept | apply State.writeSync_kept | fail_if_no_progress apply mk_kept
    | apply foldl_kept | intro _)

theorem State.removeGroup_kept (s : State) (g : ℕ) (ok_s : s.kept ref0) : (State.removeGroup s g).kept ref0 := by
  unfold State.removeGroup
  repeat' (with_reducible first
    | assumption | apply State.modCmd_kept | apply State.writeSync_kept | apply State.finishPart_kept
    | apply State.settle_kept | apply State.closeAll_kept | fail_if_no_progress apply mk_kept | apply foldl_kept
    | intro _ | split)

theorem State.restartHuddle_kept (s : State) (ok_s : s.kept ref0) : (State.restartHuddle s).kept ref0 := by
  unfold State.restartHuddle
  repeat' (with_reducible first | assumption | apply State.closeAll_kept | fail_if_no_progress apply mk_kept)

/-! ### Machine/Messages.lean -/

theorem execAmsg_kept (h : Head) (rel : Bool) (n : Fin 17) (t : Operand) (sr : Operand) (hd : Operand) (bar : BarSel)
    (s : State)
    (ok_s : s.kept ref0) : OutOk ref0 (execAmsg h rel n t sr hd bar s) := by
  unfold execAmsg
  repeat' (with_reducible first
    | assumption | apply run_kept | apply State.advance_kept | apply State.trapGroup_kept
    | apply State.partIssue_kept | fail_if_no_progress apply mk_kept | intro _ | split)

theorem State.pushMsg_kept (s : State) (core : ℕ) (m : Msg) (ok_s : s.kept ref0) : (State.pushMsg s core m).kept ref0 := by
  unfold State.pushMsg
  repeat' (with_reducible first | assumption | apply State.modCore_kept)

theorem State.amsgStep_kept (s : State) (o : XferOp) (p : Part) (ok_s : s.kept ref0) : (State.amsgStep s o p).kept ref0 := by
  unfold State.amsgStep
  repeat' (with_reducible first
    | assumption | apply State.settle_kept | apply State.finishPart_kept | apply State.modXfer_kept
    | apply State.notePart_kept | apply State.relockParts_kept | apply State.pushMsg_kept
    | apply State.enqueue_kept | apply State.stopBad_kept | split | dsimp only [OutOk, OptOk, ExcOk])

theorem execAmsgArrival_kept (op : ℕ) (tid : ℕ) (remote : Option RemoteMsg) (s : State)
    (ok_s : s.kept ref0) : OutOk ref0 (execAmsgArrival op tid remote s) := by
  unfold execAmsgArrival
  repeat' (with_reducible first
    | assumption | apply State.pushMsg_kept | apply State.amsgStep_kept | trivial
    | (refine out_kept (by assumption) ?_) | split | dsimp only [OutOk, OptOk, ExcOk])

theorem execAmsgAppend_kept (core : ℕ) (s : State) (ok_s : s.kept ref0) : OutOk ref0 (execAmsgAppend core s) := by
  unfold execAmsgAppend
  repeat' (with_reducible first
    | assumption | apply State.modCore_kept | apply State.settle_kept | apply State.finishPart_kept | split
    | dsimp only [OutOk, OptOk, ExcOk])

/-! ### Machine/Fabric.lean -/

theorem State.stopTable_kept (s : State) (entry : ℕ) (cause : ℕ) (refuse : ℕ)
    (ok_s : s.kept ref0) : (State.stopTable s entry cause refuse).kept ref0 := by
  unfold State.stopTable
  repeat' (with_reducible first
    | assumption | apply State.kept.postEvent | fail_if_no_progress apply mk_kept | split)

theorem execFabricPieceSend_kept (port : ℕ) (s : State) (ok_s : s.kept ref0) : OutOk ref0 (execFabricPieceSend port s) := by
  unfold execFabricPieceSend
  repeat' (with_reducible first
    | assumption | apply State.closeAll_kept | fail_if_no_progress apply mk_kept | trivial
    | (refine out_kept (by assumption) ?_) | split | dsimp only [OutOk, OptOk, ExcOk])

theorem State.dropTransfer_kept (s : State) (x : Transfer) (ok_s : s.kept ref0) : (State.dropTransfer s x).kept ref0 := by
  unfold State.dropTransfer
  repeat' (with_reducible first
    | assumption | apply State.kept.postEvent | apply State.stopHuddle_kept | apply State.settle_kept
    | apply State.finishPart_kept | apply State.stopTable_kept | apply State.modCmd_kept
    | fail_if_no_progress apply mk_kept | split)

theorem execFabricTransferDrop_kept (id : ℕ) (s : State)
    (ok_s : s.kept ref0) : OutOk ref0 (execFabricTransferDrop id s) := by
  unfold execFabricTransferDrop
  repeat' (with_reducible first
    | assumption | apply State.closeAll_kept | apply State.dropTransfer_kept | split
    | dsimp only [OutOk, OptOk, ExcOk])

theorem execFabricPortFailure_kept (port : ℕ) (s : State)
    (ok_s : s.kept ref0) : OutOk ref0 (execFabricPortFailure port s) := by
  unfold execFabricPortFailure
  repeat' (with_reducible first
    | assumption | apply State.closeAll_kept | apply State.checkReach_kept | apply State.dropTransfer_kept
    | fail_if_no_progress apply mk_kept | apply foldl_kept | split | dsimp only [OutOk, OptOk, ExcOk])

theorem execLinkLevelRetry_kept (_port : ℕ) (s : State) (ok_s : s.kept ref0) : OutOk ref0 (execLinkLevelRetry _port s) := by
  unfold execLinkLevelRetry
  repeat' (with_reducible first
    | assumption | fail_if_no_progress apply mk_kept | dsimp only [OutOk, OptOk, ExcOk])

/-! ### Machine/Placement.lean -/

theorem State.makeGroup_kept (s : State) (team : ℕ) (k : Kernel) (role : ℕ) (idx : ℕ) (block : ℕ) (tid0 : ℕ) (entry :
    BitVec 57) (items : List (List Word)) (base : View) (views : List View)
    (ok_s : s.kept ref0) : (State.makeGroup s team k role idx block tid0 entry items base views).kept ref0 := by
  unfold State.makeGroup
  repeat' (with_reducible first | assumption | fail_if_no_progress apply mk_kept)

theorem execSpawn_kept (h : Head) (role : Fin 4) (a : Operand) (b : Operand) (off : BitVec 24) (s : State)
    (ok_s : s.kept ref0) : OutOk ref0 (execSpawn h role a b off s) := by
  unfold execSpawn
  repeat' (with_reducible first
    | assumption | apply run_kept | apply State.trapGroup_kept | apply State.advance_kept
    | apply State.modCore_kept | intro _ | split | dsimp only [OutOk, OptOk, ExcOk])

theorem execSpawnBinTimerExpiry_kept (core : ℕ) (bin : ℕ) (s : State)
    (ok_s : s.kept ref0) : OutOk ref0 (execSpawnBinTimerExpiry core bin s) := by
  unfold execSpawnBinTimerExpiry
  repeat' (with_reducible first | assumption | apply State.modCore_kept | dsimp only [OutOk, OptOk, ExcOk])

theorem execSpawnGroupPlacement_kept (core : ℕ) (bin : ℕ) (s : State)
    (ok_s : s.kept ref0) : OutOk ref0 (execSpawnGroupPlacement core bin s) := by
  unfold execSpawnGroupPlacement
  repeat' (with_reducible first
    | assumption | apply State.makeGroup_kept | apply State.kept.modTeam | apply State.modCore_kept | trivial
    | intro _ | (refine out_kept (by assumption) ?_) | (apply regs_id; with_unfolding_all assumption) | split
    | dsimp only [OutOk, OptOk, ExcOk])

theorem State.placeNew_kept (wish : Areas) (s : State) (l : Launch) (index core slot prio : Nat) (stack : Option Nat)
    (blocks : List Nat) (h_s : s.kept ref0) :
    (s.placeNew l index core slot prio stack blocks wish).kept ref0 := by
  unfold State.placeNew
  refine foldl1_kept _ _ _ _ ?_ ?_
  · have hb := State.bumpId_kept s 1 h_s
    refine ⟨fun h0 => ?_, fun h0 => ?_⟩
    · have h := hb.mem h0
      have ha : ∀ t : Team, t.lsm = [] → t.acc = [] → AllTeams Team.memOk (s.teams ++ [t]) := fun t h1 h2 =>
        append_teams _ _ h.teams (fun x hx => by
          obtain rfl := List.mem_singleton.mp hx
          rw [Team.memOk, h1, h2]
          exact ⟨rfl, rfl⟩)
      exact ⟨h.main, h.dsm, h.sys, fun x hx => (ha _ rfl rfl x hx).1, fun x hx => (ha _ rfl rfl x hx).2⟩
    · have h := hb.regs h0
      refine ⟨h.trctl, h.resil, h.retry, h.nmwin, append_teams s.teams _ h.teams (fun x hx => ?_)⟩
      obtain rfl := List.mem_singleton.mp hx
      refine ⟨?_, BitVec.zero_and, fun b hb => ?_⟩
      · dsimp only; split <;> decide
      · rw [List.eq_of_mem_replicate hb]; decide
  · intro s b x h
    exact State.makeGroup_kept _ _ _ _ _ _ _ _ _ _ _ h

theorem State.placeSaved_kept (s : State) (t : Team) (core : ℕ) (slot : ℕ) (prio : ℕ) (hs : List HgSpec) (blocks :
    List ℕ) (wish : Areas)
    (ok_s : s.kept ref0) : (State.placeSaved s t core slot prio hs blocks wish).kept ref0 := by
  unfold State.placeSaved
  repeat' (with_reducible first
    | assumption | apply State.modCore_kept | apply State.kept.modTeam | apply State.settle_kept
    | apply State.huddleRestore_kept | fail_if_no_progress apply mk_kept | intro _
    | (apply regs_id; with_unfolding_all assumption))

theorem execTeamPlacement_kept (wish : Areas) (s : State) (ok_s : s.kept ref0) : OutOk ref0 (execTeamPlacement wish s) := by
  unfold execTeamPlacement
  repeat' (with_reducible first
    | assumption | apply State.wakeTrace_kept | apply State.placeNew_kept | apply State.modLaunch_kept
    | apply State.placeSaved_kept | apply State.killTeam_kept | fail_if_no_progress apply mk_kept | trivial
    | (refine out_kept (by assumption) ?_) | split | dsimp only [OutOk, OptOk, ExcOk])

/-! ### Machine/Launch.lean -/

theorem State.append_kept (s : State) (q : ℕ) (es : List QEntry) (ok_s : s.kept ref0) : (State.append s q es).kept ref0 := by
  unfold State.append
  repeat' (with_reducible first | assumption | apply State.modQueue_kept)

theorem execLaunch_kept (h : Head) (a : Operand) (q : Operand) (s : State)
    (ok_s : s.kept ref0) : OutOk ref0 (execLaunch h a q s) := by
  unfold execLaunch
  repeat' (with_reducible first
    | assumption | apply run_kept | apply State.trapGroup_kept | apply State.advance_kept
    | apply State.append_kept | apply foldl_kept | intro _ | split | dsimp only [OutOk, OptOk, ExcOk])

theorem State.refuse_kept (s : State) (queue : ℕ) (cadence : Option (ℕ × ℕ)) (record : DWord) (code : ℕ)
    (ok_s : s.kept ref0) : (State.refuse s queue cadence record code).kept ref0 := by
  unfold State.refuse
  repeat' (with_reducible first
    | assumption | apply State.stopTable_kept | apply State.kept.postEvent | apply State.modQueue_kept | split)

theorem State.distribute_kept (s : State) (ident : Word) (queue : ℕ) (asid : ℕ) (record : DWord) (parentPriv : Bool)
    (parent : Word) (cadence : Option (ℕ × ℕ)) (view : View)
    (ok_s : s.kept ref0) : (State.distribute s ident queue asid record parentPriv parent cadence view).kept ref0 := by
  unfold State.distribute
  repeat' (with_reducible first
    | assumption | apply State.refuse_kept | apply State.bumpId_kept | apply State.enterFault_kept
    | apply State.badLaunch_kept | fail_if_no_progress apply mk_kept | apply foldl_kept | intro _ | split
    | dsimp only [OutOk, OptOk, ExcOk])

theorem State.failRange_kept (s : State) (key : ℕ) (ok_s : s.kept ref0) : (State.failRange s key).kept ref0 := by
  unfold State.failRange
  repeat' (with_reducible first
    | assumption | apply State.refuse_kept | fail_if_no_progress apply mk_kept | split
    | dsimp only [OutOk, OptOk, ExcOk])

theorem execDispatcherChoice_kept (ident : Word) (s : State)
    (ok_s : s.kept ref0) : OutOk ref0 (execDispatcherChoice ident s) := by
  unfold execDispatcherChoice
  repeat' (with_reducible first
    | assumption | apply State.modQueue_kept | apply State.distribute_kept | fail_if_no_progress apply mk_kept
    | split | dsimp only [OutOk, OptOk, ExcOk])

theorem execLaunchRangesResolved_kept (launch : ℕ) (s : State)
    (ok_s : s.kept ref0) : OutOk ref0 (execLaunchRangesResolved launch s) := by
  unfold execLaunchRangesResolved
  repeat' (with_reducible first
    | assumption | apply State.completeLaunch_kept | apply State.modLaunch_kept | trivial
    | (refine out_kept (by assumption) ?_) | split | dsimp only [OutOk, OptOk, ExcOk])

/-! ### Machine/Restripe.lean -/

theorem State.rsBegin_kept (s : State) (ok_s : s.kept ref0) : (State.rsBegin s).kept ref0 := by
  unfold State.rsBegin
  repeat' (with_reducible first | assumption | fail_if_no_progress apply mk_kept | split)

theorem State.rsConvert_kept (s : State) (team : ℕ) (asid : ℕ) (tids : List ℕ) (issue : ℕ) (p : RsPart) (entry : Option ℕ)
    (ok_s : s.kept ref0) : (State.rsConvert s team asid tids issue p entry).kept ref0 := by
  unfold State.rsConvert
  repeat' (with_reducible first
    | assumption | apply State.rsBegin_kept | apply State.kept.modTeam | apply State.barIssue_kept
    | fail_if_no_progress apply mk_kept | intro _ | (apply regs_id; with_unfolding_all assumption) | split)

theorem State.rsTake_kept (s : State) (team : ℕ) (asid : ℕ) (tids : List ℕ) (issue : ℕ) (p : RsPart)
    (ok_s : s.kept ref0) : (State.rsTake s team asid tids issue p).1.kept ref0 := by
  unfold State.rsTake
  repeat' (with_reducible first
    | assumption | apply State.kept.modTeam | apply State.arriveBar_kept | apply State.rsConvert_kept | intro _
    | (apply regs_id; with_unfolding_all assumption) | split)

theorem State.rsOne_kept (s : State) (c : Ctx) (issue : ℕ) (tids : List ℕ) (p : RsPart)
    (ok_s : s.kept ref0) : (State.rsOne s c issue tids p).2.kept ref0 := by
  unfold State.rsOne
  repeat' (with_reducible first
    | assumption | apply State.bankWalk_kept | apply State.rsTake_kept | (refine pair1_kept (by assumption) ?_)
    | split | dsimp only [OutOk, OptOk, ExcOk])

theorem foldl21_kept {α β γ : Type} (f : β × State × γ → α → β × State × γ) (l : List α) (b : β) (s : State) (g : γ)
    (h : s.kept ref0)
    (hf : ∀ b s g x, s.kept ref0 → (f (b, s, g) x).2.1.kept ref0) : (l.foldl f (b, s, g)).2.1.kept ref0 := by
  induction l generalizing b s g with
  | nil => exact h
  | cons a l ih => exact ih _ _ _ (hf b s g a h)

theorem State.rsAll_kept (s : State) (c : Ctx) (h : Head) (issue : Nat) (ps : List (Thread × RsPart)) (h_s : s.kept ref0) :
    (s.rsAll c h issue ps).2.1.kept ref0 := by
  unfold State.rsAll
  refine foldl21_kept _ _ _ _ _ h_s ?_
  intro b s g p hs
  dsimp only
  split
  · exact hs
  · have h1 := State.rsOne_kept s c issue (c.takers h p.1) p.2 hs
    split <;> rename_i e <;> rw [e] at h1 <;> exact h1

theorem execRstripe_kept (h : Head) (gathered : Bool) (g : Fin 4) (base : Operand) (len : Operand) (nb : Operand) (bar
    : Fin 16) (s : State)
    (ok_s : s.kept ref0) : OutOk ref0 (execRstripe h gathered g base len nb bar s) := by
  unfold execRstripe
  repeat' (with_reducible first
    | assumption | apply run_kept | apply State.rsAll_kept | apply State.bumpId_kept | apply State.modCore_kept
    | apply State.stopBad_kept | apply State.settle_kept | apply State.laneSplit_kept
    | apply State.modThreads_kept | apply State.parkHeld_kept | apply State.enterFault_kept
    | fail_if_no_progress apply mk_kept | intro _ | split | dsimp only [OutOk, OptOk, ExcOk])

theorem State.rsAsk_kept (s : State) (op : ℕ) (p : RsPart) (ok_s : s.kept ref0) : (State.rsAsk s op p).kept ref0 := by
  unfold State.rsAsk
  repeat' (with_reducible first
    | assumption | apply State.checkXfer_kept | apply State.modXfer_kept | apply State.modThreads_kept
    | apply State.trapHeld_kept | apply State.rsTake_kept | (refine pair1_kept (by assumption) ?_) | split
    | dsimp only [OutOk, OptOk, ExcOk])

theorem State.rsPending_kept (s : State) (ok_s : s.kept ref0) : (State.rsPending s).kept ref0 := by
  unfold State.rsPending
  repeat' (with_reducible first | assumption | apply State.rsAsk_kept | apply foldl_kept | intro _)

theorem State.rsRelease_kept (s : State) (o : XferOp) (ws : List HeldWalk)
    (ok_s : s.kept ref0) : (State.rsRelease s o ws).kept ref0 := by
  unfold State.rsRelease
  repeat' (with_reducible first
    | assumption | apply State.rsAsk_kept | apply State.trapHeld_kept | apply State.abandonHeld_kept
    | apply foldl_kept | intro _ | split)

theorem State.rsFinish_kept (s : State) (k : Conversion) (r : Region)
    (ok_s : s.kept ref0) : (State.rsFinish s k r).kept ref0 := by
  unfold State.rsFinish
  repeat' (with_reducible first
    | assumption | apply State.settle_kept | apply State.rsBegin_kept | apply State.rsPending_kept
    | apply State.arriveOp_kept | fail_if_no_progress apply mk_kept | apply mkUpd_kept | apply wf_and | intro _
    | (apply regs_id; with_unfolding_all assumption) | split)

theorem execRestripeLineMove_kept (s : State) (ok_s : s.kept ref0) : OutOk ref0 (execRestripeLineMove s) := by
  unfold execRestripeLineMove
  repeat' (with_reducible first
    | assumption | apply State.rsBegin_kept | apply State.rsFinish_kept | fail_if_no_progress apply mk_kept
    | trivial | (refine out_kept (by assumption) ?_) | split | dsimp only [OutOk, OptOk, ExcOk])

/-! ### Machine/FaultOps.lean -/

theorem State.fatalLanes_kept (s : State) (op : ℕ) (tids : List ℕ) (va : ℕ)
    (ok_s : s.kept ref0) : (State.fatalLanes s op tids va).kept ref0 := by
  unfold State.fatalLanes
  repeat' (with_reducible first
    | assumption | apply State.trapHeld_kept | apply State.abandonHeld_kept | split)

theorem State.dropFault_kept (s : State) (id : ℕ) (ok_s : s.kept ref0) : (State.dropFault s id).kept ref0 := by
  unfold State.dropFault
  repeat' (with_reducible first | assumption | fail_if_no_progress apply mk_kept)

theorem State.fatalFetch_kept (s : State) (f : FaultRec) (ok_s : s.kept ref0) : (State.fatalFetch s f).kept ref0 := by
  unfold State.fatalFetch
  repeat' (with_reducible first | assumption | apply State.takeTrap_kept | apply State.lateWdog_kept | split)

theorem State.fatalRec_kept (s : State) (f : FaultRec) (ok_s : s.kept ref0) : (State.fatalRec s f).kept ref0 := by
  unfold State.fatalRec
  repeat' (with_reducible first
    | assumption | apply State.dropFault_kept | apply State.settle_kept | apply State.fatalFetch_kept
    | apply State.failRange_kept | apply State.fatalLanes_kept | split)

theorem State.replayAll_kept (s : State) (a : Option ℕ) (ok_s : s.kept ref0) : (State.replayAll s a).kept ref0 := by
  unfold State.replayAll
  repeat' (with_reducible first
    | assumption | apply State.settle_kept | apply State.badLaunch_kept | fail_if_no_progress apply mk_kept
    | apply foldl_kept | intro _)

theorem State.cancelId_kept (s : State) (id : ℕ) (ok_s : s.kept ref0) : (State.cancelId s id).kept ref0 := by
  unfold State.cancelId
  repeat' (with_reducible first | assumption | apply State.fatalRec_kept | split)

theorem State.cancelAsid_kept (s : State) (a : ℕ) (ok_s : s.kept ref0) : (State.cancelAsid s a).kept ref0 := by
  unfold State.cancelAsid
  repeat' (with_reducible first | assumption | apply State.cancelId_kept | apply foldl_kept)

theorem State.popFault_kept (s : State) (ok_s : s.kept ref0) : (State.popFault s).kept ref0 := by
  unfold State.popFault
  repeat' (with_reducible first | assumption | apply State.fatalRec_kept | split)

theorem State.countReplay_kept (s : State) (op : ℕ) (ok_s : s.kept ref0) : (State.countReplay s op).kept ref0 := by
  unfold State.countReplay
  repeat' (with_reducible first | assumption | fail_if_no_progress apply mk_kept)

theorem State.releaseLanes_kept (s : State) (op : ℕ) (ok : List HeldWalk)
    (ok_s : s.kept ref0) : (State.releaseLanes s op ok).kept ref0 := by
  unfold State.releaseLanes
  repeat' (with_reducible first
    | assumption | apply State.bankRelease_kept | apply State.rsRelease_kept | apply State.copyRelease_kept
    | apply State.trapHeld_kept | apply State.modThreads_kept | apply State.afterLanding_kept
    | apply State.releaseHeld_kept | split)

theorem State.refault_kept (s : State) (f : FaultRec) (ok_s : s.kept ref0) : (State.refault s f).kept ref0 := by
  unfold State.refault
  repeat' (with_reducible first
    | assumption | apply State.fatalRec_kept | fail_if_no_progress apply mk_kept | split)

theorem State.walkEnds_kept (s : State) (f : FaultRec) (op : ℕ) (o : XferOp) (ws : List HeldWalk)
    (ok_s : s.kept ref0) : (State.walkEnds s f op o ws).kept ref0 := by
  unfold State.walkEnds
  repeat' (with_reducible first
    | assumption | apply State.countReplay_kept | apply State.fatalLanes_kept | apply State.releaseLanes_kept
    | apply State.dropFault_kept | apply State.refault_kept | split | dsimp only [OutOk, OptOk, ExcOk])

theorem State.releaseFetch_kept (s : State) (f : FaultRec) (ok_s : s.kept ref0) : (State.releaseFetch s f).kept ref0 := by
  unfold State.releaseFetch
  repeat' (with_reducible first | assumption | apply State.releaseHeld_kept | split)

theorem execReplayWalk_kept (id : ℕ) (s0 : State) (ok_s0 : s0.kept ref0) : OutOk ref0 (execReplayWalk id s0) := by
  unfold execReplayWalk
  repeat' (with_reducible first
    | assumption | apply State.settle_kept | apply State.walkEnds_kept | apply State.dropFault_kept
    | apply State.fatalRec_kept | apply State.refault_kept | apply State.releaseFetch_kept
    | fail_if_no_progress apply mk_kept | trivial | (refine out_kept (by assumption) ?_) | split
    | dsimp only [OutOk, OptOk, ExcOk])

theorem execFaultRecordEntered_kept (s : State) (ok_s : s.kept ref0) : OutOk ref0 (execFaultRecordEntered s) := by
  unfold execFaultRecordEntered
  repeat' (with_reducible first
    | assumption | apply State.kept.postEvent | fail_if_no_progress apply mk_kept | split
    | dsimp only [OutOk, OptOk, ExcOk])

theorem execReplay_kept (h : Head) (a : Operand) (s : State) (ok_s : s.kept ref0) : OutOk ref0 (execReplay h a s) := by
  unfold execReplay
  repeat' (with_reducible first
    | assumption | apply runPriv_kept | apply State.replayAll_kept | apply State.advance_kept | apply foldl_kept
    | intro _ | split)

theorem execCancel_kept (h : Head) (asid : Bool) (a : Operand) (s : State)
    (ok_s : s.kept ref0) : OutOk ref0 (execCancel h asid a s) := by
  unfold execCancel
  repeat' (with_reducible first
    | assumption | apply runPriv_kept | apply State.cancelAsid_kept | apply State.cancelId_kept
    | apply State.advance_kept | apply foldl_kept | intro _ | split)

theorem State.tlbDrop_kept (s : State) (kind : TlbKind) (a : ℕ) (v : ℕ)
    (ok_s : s.kept ref0) : (State.tlbDrop s kind a v).kept ref0 := by
  unfold State.tlbDrop
  repeat' (with_reducible first | assumption | fail_if_no_progress apply mk_kept)

theorem execTlbinv_kept (h : Head) (kind : TlbKind) (a : Operand) (v : Operand) (s : State)
    (ok_s : s.kept ref0) : OutOk ref0 (execTlbinv h kind a v s) := by
  unfold execTlbinv
  repeat' (with_reducible first
    | assumption | apply runPriv_kept | apply State.advance_kept | apply State.bumpId_kept
    | apply State.tlbDrop_kept | fail_if_no_progress apply mk_kept | apply foldl_kept | intro _)

theorem execTlbinvCompletion_kept (id : ℕ) (s : State) (ok_s : s.kept ref0) : OutOk ref0 (execTlbinvCompletion id s) := by
  unfold execTlbinvCompletion
  repeat' (with_reducible first
    | assumption | apply State.settle_kept | fail_if_no_progress apply mk_kept | split
    | dsimp only [OutOk, OptOk, ExcOk])

theorem State.preemptLaunch_kept (s : State) (ident : ℕ) (ok_s : s.kept ref0) : (State.preemptLaunch s ident).kept ref0 := by
  unfold State.preemptLaunch
  repeat' (with_reducible first
    | assumption | apply mkUpd_kept | apply wf_and | intro _ | (apply regs_id; with_unfolding_all assumption)
    | split)

theorem execPreempt_kept (h : Head) (a : Operand) (s : State) (ok_s : s.kept ref0) : OutOk ref0 (execPreempt h a s) := by
  unfold execPreempt
  repeat' (with_reducible first
    | assumption | apply runPriv_kept | apply State.advance_kept | apply State.preemptLaunch_kept
    | apply foldl_kept | intro _)

theorem State.mcgset_kept (s : State) (g : ℕ) (hi : Bool) (m : DWord)
    (ok_s : s.kept ref0) : ExcOk ref0 (State.mcgset s g hi m) := by
  unfold State.mcgset
  repeat' (with_reducible first
    | assumption | fail_if_no_progress apply mk_kept | trivial | (refine exc_kept (by assumption) ?_) | split
    | dsimp only [OutOk, OptOk, ExcOk])

theorem execMcgset_kept (h : Head) (hi : Bool) (g : Operand) (m : Operand) (s : State)
    (ok_s : s.kept ref0) : OutOk ref0 (execMcgset h hi g m s) := by
  unfold execMcgset
  repeat' (with_reducible first
    | assumption | apply runPriv_kept | apply State.mcgset_kept | apply State.advance_kept
    | apply State.trapGroup_kept | apply foldlM_excOk | intro _ | (refine exc_kept (by assumption) ?_) | split)

theorem State.leavePark_kept (s : State) (t : Thread) (ok_s : s.kept ref0) : (State.leavePark s t).kept ref0 := by
  unfold State.leavePark
  repeat' (with_reducible first
    | assumption | apply State.kept.modTeam | apply regs_modBar | (unfold BarKept; intro y h1; exact h1)
    | intro _ | (apply wf_id; with_unfolding_all assumption) | split)

theorem State.turnWdog_kept (s : State) (team : ℕ) (ok_s : s.kept ref0) : (State.turnWdog s team).kept ref0 := by
  unfold State.turnWdog
  repeat' (with_reducible first
    | assumption | apply State.freeAddr_kept | apply State.enterAll_kept | apply State.mapThreads_kept)

theorem execWatchdogExpiry_kept (team : ℕ) (s : State) (ok_s : s.kept ref0) : OutOk ref0 (execWatchdogExpiry team s) := by
  unfold execWatchdogExpiry
  repeat' (with_reducible first
    | assumption | apply State.killTeam_kept | apply State.kept.modTeam | apply State.mapThreads_kept
    | apply State.leavePark_kept | apply State.turnWdog_kept | apply State.settle_kept
    | apply State.wdogSets_kept | apply foldl_kept | trivial | intro _ | (refine out_kept (by assumption) ?_)
    | (apply regs_id; with_unfolding_all assumption) | split | dsimp only [OutOk, OptOk, ExcOk])

/-! ### Machine/TraceOps.lean -/

theorem execTrace_kept (h : Head) (a : Operand) (b : Operand) (s : State)
    (ok_s : s.kept ref0) : OutOk ref0 (execTrace h a b s) := by
  unfold execTrace
  repeat' (with_reducible first
    | assumption | apply run_kept | apply State.advance_kept | apply State.trace_kept | apply foldl_kept
    | intro _ | split)

theorem execTraceFrameTimeout_kept (core : ℕ) (s : State)
    (ok_s : s.kept ref0) : OutOk ref0 (execTraceFrameTimeout core s) := by
  unfold execTraceFrameTimeout
  repeat' (with_reducible first
    | assumption | apply State.modCore_kept | split | dsimp only [OutOk, OptOk, ExcOk])

theorem execTraceFrameDrain_kept (core : ℕ) (s : State) (ok_s : s.kept ref0) : OutOk ref0 (execTraceFrameDrain core s) := by
  unfold execTraceFrameDrain
  repeat' (with_reducible first
    | assumption | apply State.modCore_kept | apply State.traceRoom_kept | apply State.kept.memWrite
    | fail_if_no_progress apply mk_kept | trivial | (refine out_kept (by assumption) ?_) | split
    | dsimp only [OutOk, OptOk, ExcOk])

theorem execGatingTraceDrain_kept (core : ℕ) (s : State)
    (ok_s : s.kept ref0) : OutOk ref0 (execGatingTraceDrain core s) := by
  unfold execGatingTraceDrain
  repeat' (with_reducible first
    | assumption | fail_if_no_progress apply mk_kept | trivial | (refine out_kept (by assumption) ?_) | split
    | dsimp only [OutOk, OptOk, ExcOk])

theorem State.flagDrained_kept (s : State) (quad : ℕ) (ok_s : s.kept ref0) : (State.flagDrained s quad).kept ref0 := by
  unfold State.flagDrained
  repeat' (with_reducible first | assumption | apply State.kept.memWrite | apply foldl_kept | intro _ | split)

/-! ### Machine/Power.lean -/

theorem execPaceEvaluation_kept (r : PaceReadings) (s : State)
    (ok_s : s.kept ref0) : OutOk ref0 (execPaceEvaluation r s) := by
  unfold execPaceEvaluation
  repeat' (with_reducible first
    | assumption | fail_if_no_progress apply mk_kept | dsimp only [OutOk, OptOk, ExcOk])

theorem execPaceDomainUpdate_kept (others : ℕ) (s : State)
    (ok_s : s.kept ref0) : OutOk ref0 (execPaceDomainUpdate others s) := by
  unfold execPaceDomainUpdate
  repeat' (with_reducible first
    | assumption | fail_if_no_progress apply mk_kept | split | dsimp only [OutOk, OptOk, ExcOk])

theorem execClockStretch_kept (cycles : ℕ) (s : State) (ok_s : s.kept ref0) : OutOk ref0 (execClockStretch cycles s) := by
  unfold execClockStretch
  repeat' (with_reducible first
    | assumption | fail_if_no_progress apply mk_kept | split | dsimp only [OutOk, OptOk, ExcOk])

theorem execRefreshRateUpdate_kept (stack : ℕ) (temp : ℕ) (s : State)
    (ok_s : s.kept ref0) : OutOk ref0 (execRefreshRateUpdate stack temp s) := by
  unfold execRefreshRateUpdate
  repeat' (with_reducible first
    | assumption | fail_if_no_progress apply mk_kept | split | dsimp only [OutOk, OptOk, ExcOk])

theorem execThermalTrip_kept (base : Bool) (place : ℕ) (temp : ℕ) (s : State)
    (ok_s : s.kept ref0) : OutOk ref0 (execThermalTrip base place temp s) := by
  unfold execThermalTrip
  repeat' (with_reducible first
    | assumption | apply State.kept.postEvent | fail_if_no_progress apply mk_kept | apply foldl_kept | intro _
    | split | dsimp only [OutOk, OptOk, ExcOk])

theorem execQuadrantResumed_kept (quad : ℕ) (s : State) (ok_s : s.kept ref0) : OutOk ref0 (execQuadrantResumed quad s) := by
  unfold execQuadrantResumed
  repeat' (with_reducible first
    | assumption | apply State.wakeTrace_kept | fail_if_no_progress apply mk_kept | split
    | dsimp only [OutOk, OptOk, ExcOk])

theorem execQuadrantPowerGate_kept (quad : ℕ) (s : State)
    (ok_s : s.kept ref0) : OutOk ref0 (execQuadrantPowerGate quad s) := by
  unfold execQuadrantPowerGate
  repeat' (with_reducible first
    | assumption | apply State.flagDrained_kept | fail_if_no_progress apply mk_kept | split
    | dsimp only [OutOk, OptOk, ExcOk])

theorem execUncorrectableError_kept (place : ErrorPlace) (s : State)
    (ok_s : s.kept ref0) : OutOk ref0 (execUncorrectableError place s) := by
  unfold execUncorrectableError
  repeat' (with_reducible first
    | assumption | apply State.killTeam_kept | apply State.errorEvent_kept | apply State.stopHuddle_kept
    | fail_if_no_progress apply mk_kept | split | dsimp only [OutOk, OptOk, ExcOk])

theorem execModuleUnpowered_kept (s : State) (ok_s : s.kept ref0) : OutOk ref0 (execModuleUnpowered s) := by
  unfold execModuleUnpowered
  repeat' (with_reducible first
    | assumption | fail_if_no_progress apply mk_kept | dsimp only [OutOk, OptOk, ExcOk])

/-! ### Machine/BringUp.lean -/

theorem State.atStart_kept (s : State) (h_s : s.kept ref0) : s.atStart.kept ref0 where
  mem h0 := {
    main := rfl
    dsm := by
      unfold State.atStart
      dsimp only
      split
      · exact (h_s.mem h0).dsm
      · rfl
    sys := (h_s.mem h0).sys
    lsm := fun x hx => by unfold State.atStart State.reset at hx; exact nomatch hx
    acc := fun x hx => by unfold State.atStart State.reset at hx; exact nomatch hx }
  regs _ := ⟨reset_regsOk.trctl, reset_regsOk.resil, reset_regsOk.retry, reset_regsOk.nmwin,
    fun x hx => by unfold State.atStart State.reset at hx; exact nomatch hx⟩

theorem execDeviceStart_kept (s : State) (ok_s : s.kept ref0) : OutOk ref0 (execDeviceStart s) := by
  unfold execDeviceStart
  repeat' (with_reducible first | assumption | apply State.atStart_kept | dsimp only [OutOk, OptOk, ExcOk])

theorem execBringUpStagePass_kept (ok : Bool) (s : State) (ok_s : s.kept ref0) : OutOk ref0 (execBringUpStagePass ok s) := by
  unfold execBringUpStagePass
  repeat' (with_reducible first
    | assumption | fail_if_no_progress apply mk_kept | trivial | (refine out_kept (by assumption) ?_) | split
    | dsimp only [OutOk, OptOk, ExcOk])

theorem execFirmwareWatchdogExpiry_kept (s : State) (ok_s : s.kept ref0) : OutOk ref0 (execFirmwareWatchdogExpiry s) := by
  unfold execFirmwareWatchdogExpiry
  repeat' (with_reducible first
    | assumption | fail_if_no_progress apply mk_kept | split | dsimp only [OutOk, OptOk, ExcOk])

end Sys2Proof.Machine
end

