-- ==== Sys2Proof/Laws/CanonicalRest.lean ====
section
/-! SUPPORT. Canonical memories and the bounds of the special registers under the operations and meanings of Cadence, the scheduler, the
special registers, the mailbox, the network, the arithmetic families, the tile engine, issue, the clock and pre-emption. -/

namespace Sys2Proof.Machine

variable {ref0 : State}

/-! ### Machine/Cadence.lean -/

theorem State.cdstart_kept (s : State) (asid : ℕ) (a : DWord) (w : Word)
    (ok_s : s.kept ref0) : ExcOk ref0 (State.cdstart s asid a w) := by
  unfold State.cdstart
  repeat' (with_reducible first
    | assumption | fail_if_no_progress apply mk_kept | trivial | (refine exc_kept (by assumption) ?_) | split
    | dsimp only [OutOk, OptOk, ExcOk])

theorem State.dropDone_kept (s : State) (ok_s : s.kept ref0) : (State.dropDone s).kept ref0 := by
  unfold State.dropDone
  repeat' (with_reducible first | assumption | fail_if_no_progress apply mk_kept)

theorem execCdstart_kept (h : Head) (a : Operand) (w : Operand) (s : State)
    (ok_s : s.kept ref0) : OutOk ref0 (execCdstart h a w s) := by
  unfold execCdstart
  repeat' (with_reducible first
    | assumption | apply runPriv_kept | apply State.cdstart_kept | apply State.advance_kept
    | apply State.dropDone_kept | apply State.trapGroup_kept | apply foldlM_excOk | intro _
    | (refine exc_kept (by assumption) ?_) | split)

theorem State.cdstop_kept (s : State) (ok_s : s.kept ref0) : (State.cdstop s).kept ref0 := by
  unfold State.cdstop
  repeat' (with_reducible first | assumption | fail_if_no_progress apply mk_kept | split)

theorem execCdstop_kept (h : Head) (s : State) (ok_s : s.kept ref0) : OutOk ref0 (execCdstop h s) := by
  unfold execCdstop
  repeat' (with_reducible first
    | assumption | apply runPriv_kept | apply State.advance_kept | apply State.cdstop_kept | intro _ | split)

theorem execCadenceImageLoaded_kept (s : State) (h_s : s.kept ref0) : OutOk ref0 (execCadenceImageLoaded s) := by
  unfold execCadenceImageLoaded
  split
  · exact h_s
  · split
    · exact h_s
    · split
      · exact State.stopTable_kept _ _ _ _ (h_s.congr rfl rfl rfl rfl rfl rfl rfl rfl)
      · exact (h_s.congr rfl rfl rfl rfl rfl rfl rfl rfl)

theorem State.cdGo_kept (s : State) (head : ℕ) (ok_s : s.kept ref0) : (State.cdGo s head).kept ref0 := by
  unfold State.cdGo
  repeat' (with_reducible first
    | assumption | apply State.stopTable_kept | fail_if_no_progress apply mk_kept | split)

theorem State.cdLaunch.go_kept (e : CdEntry) (buf : Option (ℕ × CdBuf)) (ident : Word) (s : State) (head : ℕ)
    (ok_s : s.kept ref0) : (State.cdLaunch.go e buf ident s head).kept ref0 := by
  unfold State.cdLaunch.go
  repeat' (with_reducible first
    | assumption | apply State.distribute_kept | apply State.cdGo_kept | fail_if_no_progress apply mk_kept
    | split | dsimp only [OutOk, OptOk, ExcOk])

theorem State.cdLaunch_kept (s : State) (e : CdEntry) (buf : Option (ℕ × CdBuf)) (ident : Word)
    (ok_s : s.kept ref0) : (State.cdLaunch s e buf ident).kept ref0 := by
  unfold State.cdLaunch
  repeat' (with_reducible first
    | assumption | apply State.stopTable_kept | apply State.cdLaunch.go_kept | apply State.kept.memWrite | split)

theorem State.cdHead_kept (s : State) (ident : Word) (ok_s : s.kept ref0) : (State.cdHead s ident).kept ref0 := by
  unfold State.cdHead
  repeat' (with_reducible first
    | assumption | apply State.stopTable_kept | apply State.cdGo_kept | apply State.cdLaunch_kept
    | fail_if_no_progress apply mk_kept | split | dsimp only [OutOk, OptOk, ExcOk])

theorem execCadenceCycle_kept (ident : Word) (s : State) (ok_s : s.kept ref0) : OutOk ref0 (execCadenceCycle ident s) := by
  unfold execCadenceCycle
  repeat' (with_reducible first
    | assumption | apply State.cdHead_kept | fail_if_no_progress apply mk_kept | trivial
    | (refine out_kept (by assumption) ?_) | split | dsimp only [OutOk, OptOk, ExcOk])

theorem State.cdComplete_kept (s : State) (r : CdRun) (e : CdEntry)
    (ok_s : s.kept ref0) : (State.cdComplete s r e).kept ref0 := by
  unfold State.cdComplete
  repeat' (with_reducible first
    | assumption | apply State.stopTable_kept | apply State.enqueue_kept | fail_if_no_progress apply mk_kept
    | split)

theorem execCadenceGridCompletion_kept (s : State) (ok_s : s.kept ref0) : OutOk ref0 (execCadenceGridCompletion s) := by
  unfold execCadenceGridCompletion
  repeat' (with_reducible first
    | assumption | apply State.dropDone_kept | apply State.cdComplete_kept | split
    | dsimp only [OutOk, OptOk, ExcOk])

theorem execCadenceArrival_kept (down : Bool) (mb : ℕ) (data : List Byte) (s : State)
    (ok_s : s.kept ref0) : OutOk ref0 (execCadenceArrival down mb data s) := by
  unfold execCadenceArrival
  repeat' (with_reducible first
    | assumption | apply State.bumpId_kept | fail_if_no_progress apply mk_kept | trivial
    | (refine out_kept (by assumption) ?_) | split | dsimp only [OutOk, OptOk, ExcOk])

theorem execCadenceGrant_kept (down : Bool) (s : State) (ok_s : s.kept ref0) : OutOk ref0 (execCadenceGrant down s) := by
  unfold execCadenceGrant
  repeat' (with_reducible first
    | assumption | fail_if_no_progress apply mk_kept | split | dsimp only [OutOk, OptOk, ExcOk])

theorem State.cdControl_kept (s : State) (value : ℕ) (ok_s : s.kept ref0) : OptOk ref0 (State.cdControl s value) := by
  unfold State.cdControl
  repeat' (with_reducible first
    | assumption | apply State.cdstop_kept | fail_if_no_progress apply mk_kept | split
    | dsimp only [OutOk, OptOk, ExcOk])

/-! ### Machine/Scheduler.lean -/

theorem State.wakeGroups_kept (s : State) (core : ℕ) (ok_s : s.kept ref0) : (State.wakeGroups s core).kept ref0 := by
  unfold State.wakeGroups
  repeat' (with_reducible first
    | assumption | apply State.releaseHeld_kept | apply foldl_kept | intro _ | split
    | dsimp only [OutOk, OptOk, ExcOk])

theorem State.convTraps_kept (s : State) (core : ℕ) (ok_s : s.kept ref0) : (State.convTraps s core).kept ref0 := by
  unfold State.convTraps
  repeat' (with_reducible first
    | assumption | apply State.takeTrap_kept | apply State.modThread_kept | apply foldl_kept | intro _)

theorem State.fetchWord_kept (s : State) (core : ℕ) (asid : ℕ) (pc : BitVec 57)
    (ok_s : s.kept ref0) : (State.fetchWord s core asid pc).2.kept ref0 := by
  unfold State.fetchWord
  repeat' (with_reducible first | assumption | apply State.translate_kept)

theorem State.fetchWords_kept (s : State) (core asid : Nat) (pc : BitVec 57) (n : Nat) (h_s : s.kept ref0) :
    (State.fetchWords s core asid pc n).2.kept ref0 := by
  induction n generalizing s pc with
  | zero => exact h_s
  | succ k ih =>
    unfold State.fetchWords
    have h1 := State.fetchWord_kept s core asid pc h_s
    split
    · rename_i e
      rw [e] at h1
      have h2 := ih _ (pc + 8#57) h1
      split <;> rename_i e2 <;> rw [e2] at h2 <;> exact h2
    · rename_i e
      rw [e] at h1
      exact h1

theorem State.fetchFault_kept (s : State) (core : ℕ) (l : Launch) (a : Thread) (e : Fetched)
    (ok_s : s.kept ref0) : (State.fetchFault s core l a e).kept ref0 := by
  unfold State.fetchFault
  repeat' (with_reducible first
    | assumption | apply State.mapThreads_kept | apply State.enterFault_kept | apply State.bumpId_kept
    | apply State.takeTrap_kept | apply State.readBad_kept | split)

theorem State.seat_kept (s : State) (core : ℕ) (port : ℕ) (g : Group)
    (ok_s : s.kept ref0) : (State.seat s core port g).kept ref0 := by
  unfold State.seat
  repeat' (with_reducible first | assumption | apply State.modThreads_kept | apply State.modCore_kept)

theorem State.startGroup_kept (s : State) (core : ℕ) (port : ℕ) (limit : ℕ) (l : Launch) (a : Thread) (ms : List Thread)
    (ok_s : s.kept ref0) : (State.startGroup s core port limit l a ms).kept ref0 := by
  unfold State.startGroup
  repeat' (with_reducible first
    | assumption | apply State.fetchWord_kept | apply State.trapNoAddr_kept | apply State.fetchWords_kept
    | apply State.seat_kept | apply State.fetchFault_kept | (refine pair2_kept (by assumption) ?_) | split
    | dsimp only [OutOk, OptOk, ExcOk])

theorem State.choose_kept (s : State) (c : Core) (port : ℕ) (ok_s : s.kept ref0) : (State.choose s c port).kept ref0 := by
  unfold State.choose
  repeat' (with_reducible first
    | assumption | apply State.mapThreads_kept | apply State.seat_kept | apply State.modCore_kept
    | apply State.startGroup_kept | split | dsimp only [OutOk, OptOk, ExcOk])

theorem execSchedulerChoice_kept (core : ℕ) (port : ℕ) (s : State)
    (ok_s : s.kept ref0) : OutOk ref0 (execSchedulerChoice core port s) := by
  unfold execSchedulerChoice
  repeat' (with_reducible first
    | assumption | apply State.convTraps_kept | apply State.wakeGroups_kept | apply State.settle_kept
    | apply State.choose_kept | trivial | (refine out_kept (by assumption) ?_) | split
    | dsimp only [OutOk, OptOk, ExcOk])

/-! ### Machine/CsrOps.lean -/

theorem execCsrrd_kept (h : Head) (d : Operand) (csr : BitVec 12) (s : State)
    (ok_s : s.kept ref0) : OutOk ref0 (execCsrrd h d csr s) := by
  unfold execCsrrd
  repeat' (with_reducible first
    | assumption | apply run_kept | apply State.trapGroup_kept | apply vec_kept | intro _ | split)

theorem State.csrSet_kept (s : State) (team asid launch : Nat) (r : Csr) (x : Nat) (h_s : s.kept ref0) : (s.csrSet
    team asid launch r x).kept ref0 := by
  unfold State.csrSet
  have hm := fun h0 => h_s.mem h0
  have hr := fun h0 => h_s.regs h0
  cases r <;> dsimp only
  case mode =>
    refine h_s.modTeam _ _ (fun _ h => h) (fun _ h => h) (fun y hy => ⟨?_, hy.2⟩)
    have e : ∀ a b c : Word, (a ||| b) &&& c = (a &&& c) ||| (b &&& c) := fun a b c => by ext; simp
    [Bool.and_or_distrib_right]
    dsimp only
    rw [e, BitVec.and_assoc, BitVec.and_assoc, show (~~~1#32 &&& 0xFFFFFFFE#32 : Word) = 0xFFFFFFFE#32 from by decide, hy.1,
      show (1#32 &&& 0xFFFFFFFE#32 : Word) = 0#32 from by decide, BitVec.and_zero]
    rfl
  case bktpri =>
    refine h_s.modTeam _ _ (fun _ h => h) (fun _ h => h) (fun y hy => ⟨hy.1, ?_, hy.2.2⟩)
    dsimp only
    rw [BitVec.and_assoc]; exact BitVec.and_zero
  case nmwin =>
    refine ⟨fun h0 => ⟨(hm h0).main, (hm h0).dsm, (hm h0).sys, (hm h0).lsm, (hm h0).acc⟩, fun h0 => ⟨(hr h0).trctl,
    (hr h0).resil, (hr h0).retry, ?_, (hr h0).teams⟩⟩
    unfold clampNs
    dsimp only
    split
    · omega
    · split <;> omega
  case resil =>
    refine ⟨fun h0 => ⟨(hm h0).main, (hm h0).dsm, (hm h0).sys, (hm h0).lsm, (hm h0).acc⟩, fun h0 => ⟨(hr h0).trctl,
    ?_, (hr h0).retry, (hr h0).nmwin, (hr h0).teams⟩⟩
    dsimp only; rw [BitVec.and_assoc]; exact BitVec.and_zero
  case trctl =>
    refine ⟨fun h0 => ⟨(hm h0).main, (hm h0).dsm, (hm h0).sys, (hm h0).lsm, (hm h0).acc⟩, fun h0 => ⟨?_, (hr
    h0).resil, (hr h0).retry, (hr h0).nmwin, (hr h0).teams⟩⟩
    dsimp only; rw [BitVec.and_assoc]; exact BitVec.and_zero
  case faultRetryMax =>
    refine ⟨fun h0 => ⟨(hm h0).main, (hm h0).dsm, (hm h0).sys, (hm h0).lsm, (hm h0).acc⟩, fun h0 => ⟨(hr h0).trctl,
    (hr h0).resil, ?_, (hr h0).nmwin, (hr h0).teams⟩⟩
    dsimp only; rw [BitVec.and_assoc]; exact BitVec.and_zero
  all_goals first
    | exact h_s
    | (split <;> first | exact h_s | (with_reducible apply mk_kept; exact h_s))
    | (with_reducible apply mk_kept; exact h_s)
    | exact State.modAsid_kept _ _ _ h_s
    | exact State.modLaunch_kept _ _ _ h_s

theorem execCsrwr_kept (h : Head) (a : Operand) (csr : BitVec 12) (s : State)
    (ok_s : s.kept ref0) : OutOk ref0 (execCsrwr h a csr s) := by
  unfold execCsrwr
  repeat' (with_reducible first
    | assumption | apply run_kept | apply State.trapGroup_kept | apply State.advance_kept
    | apply State.modThread_kept | apply State.csrSet_kept | apply foldl_kept | intro _ | split)

/-! ### Machine/Mailbox.lean -/

theorem State.writeQueue_kept (s : State) (i : ℕ) (x : ℕ) (ok_s : s.kept ref0) : (State.writeQueue s i x).kept ref0 := by
  unfold State.writeQueue
  repeat' (with_reducible first | assumption | apply State.modQueue_kept)

theorem State.writeAsid_kept (s : State) (i : ℕ) (x : ℕ) (ok_s : s.kept ref0) : (State.writeAsid s i x).kept ref0 := by
  unfold State.writeAsid
  repeat' (with_reducible first | assumption | apply State.modAsid_kept)

theorem State.writeDecl_kept (s : State) (g : ℕ) (lo : ℕ) (data : List Byte)
    (ok_s : s.kept ref0) : (State.writeDecl s g lo data).1.kept ref0 := by
  unfold State.writeDecl
  repeat' (with_reducible first
    | assumption | apply State.removeGroup_kept | fail_if_no_progress apply mk_kept | split
    | dsimp only [OutOk, OptOk, ExcOk])

theorem State.writeGate_kept (s : State) (x : ℕ) (ok_s : s.kept ref0) : (State.writeGate s x).kept ref0 := by
  unfold State.writeGate
  repeat' (with_reducible first
    | assumption | apply State.wakeTrace_kept | fail_if_no_progress apply mk_kept | apply foldl_kept)

theorem State.attest_kept (s : State) (ok_s : s.kept ref0) : (State.attest s).kept ref0 := by
  unfold State.attest
  repeat' (with_reducible first | assumption | fail_if_no_progress apply mk_kept)

theorem State.writeHostWord_kept (s : State) (off : ℕ) (x : ℕ)
    (ok_s : s.kept ref0) : (State.writeHostWord s off x).kept ref0 := by
  unfold State.writeHostWord
  repeat' (with_reducible first
    | assumption | apply State.preemptLaunch_kept | apply State.writeGate_kept
    | fail_if_no_progress apply mk_kept | split)

theorem State.writeHost_kept (s : State) (lo : ℕ) (data : List Byte)
    (ok_s : s.kept ref0) : (State.writeHost s lo data).kept ref0 := by
  unfold State.writeHost
  repeat' (with_reducible first
    | assumption | apply State.writeHostWord_kept | apply State.attest_kept | apply foldl_kept | intro _ | split)

theorem State.tableWrite_kept (s : State) (k : TableKind) (i : ℕ) (lo : ℕ) (data : List Byte)
    (ok_s : s.kept ref0) : (State.tableWrite s k i lo data).1.kept ref0 := by
  unfold State.tableWrite
  repeat' (with_reducible first
    | assumption | apply State.writeQueue_kept | apply State.writeAsid_kept | apply State.modCore_kept
    | apply State.writeDecl_kept | apply State.cdControl_kept | apply State.restartHuddle_kept
    | apply State.popFault_kept | apply State.checkReach_kept | apply State.writeHost_kept
    | fail_if_no_progress apply mk_kept | (refine opt_kept (by assumption) ?_) | split
    | dsimp only [OutOk, OptOk, ExcOk])

theorem State.hostStore_kept (s : State) (l : Loc) (data : List Byte) (rel : Bool)
    (ok_s : s.kept ref0) : (State.hostStore s l data rel).kept ref0 := by
  unfold State.hostStore
  repeat' (with_reducible first
    | assumption | apply State.kept.pushBytes | apply State.kept.memWrite | fail_if_no_progress apply mk_kept
    | split)

theorem State.hostLoad_kept (s : State) (l : Loc) (n : ℕ) (acq : Bool)
    (ok_s : s.kept ref0) : (State.hostLoad s l n acq).2.kept ref0 := by
  unfold State.hostLoad
  repeat' (with_reducible first
    | assumption | apply State.bumpId_kept | fail_if_no_progress apply mk_kept | split)

theorem State.respond_kept (s : State) (st : MbStatus) (data : List Byte) (h_s : s.kept ref0) : (s.respond st
    data).kept ref0 := by
  unfold State.respond
  with_reducible apply mkSys_kept
  exact h_s

theorem mbStep_kept (s : State) (fits : List Byte → Bool) (k : List Byte → State)
    (ok_s : s.kept ref0) (ok_k : ∀ x0, (k x0).kept ref0) : OutOk ref0 (mbStep s fits k) := by
  unfold mbStep
  repeat' (with_reducible first
    | assumption | apply State.respond_kept | apply ok_k | trivial | (refine out_kept (by assumption) ?_) | split
    | dsimp only [OutOk, OptOk, ExcOk])

theorem State.spreadStep_kept (s : State) (i : ℕ) (lo : ℕ) (data : List Byte)
    (ok_s : s.kept ref0) : (State.spreadStep s i lo data).kept ref0 := by
  unfold State.spreadStep
  repeat' (with_reducible first
    | assumption | apply State.tableWrite_kept | apply State.respond_kept | fail_if_no_progress apply mk_kept
    | split)

theorem execMailboxWrite_kept (s : State) (ok_s : s.kept ref0) : OutOk ref0 (execMailboxWrite s) := by
  unfold execMailboxWrite
  repeat' (with_reducible first
    | assumption | apply mbStep_kept | apply State.respond_kept | apply State.hostStore_kept
    | apply State.spreadStep_kept | apply State.tableWrite_kept | intro _ | split
    | dsimp only [OutOk, OptOk, ExcOk])

theorem execMailboxRead_kept (s : State) (ok_s : s.kept ref0) : OutOk ref0 (execMailboxRead s) := by
  unfold execMailboxRead
  repeat' (with_reducible first
    | assumption | apply mbStep_kept | apply State.respond_kept | apply State.hostLoad_kept | intro _ | split
    | dsimp only [OutOk, OptOk, ExcOk])

theorem execMailboxCopyToDevice_kept (s : State) (ok_s : s.kept ref0) : OutOk ref0 (execMailboxCopyToDevice s) := by
  unfold execMailboxCopyToDevice
  repeat' (with_reducible first
    | assumption | apply mbStep_kept | apply State.respond_kept | apply State.hostStore_kept | intro _ | split
    | dsimp only [OutOk, OptOk, ExcOk])

theorem execMailboxCopyToHost_kept (responds : Bool) (s : State)
    (ok_s : s.kept ref0) : OutOk ref0 (execMailboxCopyToHost responds s) := by
  unfold execMailboxCopyToHost
  repeat' (with_reducible first
    | assumption | apply mbStep_kept | apply State.hostLoad_kept | apply State.respond_kept
    | apply State.kept.memWrite | intro _ | split | dsimp only [OutOk, OptOk, ExcOk])

theorem execMailboxLaunch_kept (s : State) (ok_s : s.kept ref0) : OutOk ref0 (execMailboxLaunch s) := by
  unfold execMailboxLaunch
  repeat' (with_reducible first
    | assumption | apply mbStep_kept | apply State.respond_kept | apply State.append_kept | intro _ | split
    | dsimp only [OutOk, OptOk, ExcOk])

theorem execMailboxReplay_kept (s : State) (ok_s : s.kept ref0) : OutOk ref0 (execMailboxReplay s) := by
  unfold execMailboxReplay
  repeat' (with_reducible first
    | assumption | apply mbStep_kept | apply State.respond_kept | apply State.replayAll_kept | intro _)

theorem execMailboxCancel_kept (s : State) (ok_s : s.kept ref0) : OutOk ref0 (execMailboxCancel s) := by
  unfold execMailboxCancel
  repeat' (with_reducible first
    | assumption | apply mbStep_kept | apply State.respond_kept | apply State.cancelId_kept | intro _)

theorem execMailboxCancelAsid_kept (s : State) (ok_s : s.kept ref0) : OutOk ref0 (execMailboxCancelAsid s) := by
  unfold execMailboxCancelAsid
  repeat' (with_reducible first
    | assumption | apply mbStep_kept | apply State.respond_kept | apply State.cancelAsid_kept | intro _)

theorem State.mbTlbinv_kept (s : State) (kind : TlbKind) (c : List Byte)
    (ok_s : s.kept ref0) : (State.mbTlbinv s kind c).kept ref0 := by
  unfold State.mbTlbinv
  repeat' (with_reducible first
    | assumption | apply State.tlbDrop_kept | apply State.respond_kept | fail_if_no_progress apply mk_kept
    | split | dsimp only [OutOk, OptOk, ExcOk])

theorem execMailboxTlbinvAll_kept (s : State) (ok_s : s.kept ref0) : OutOk ref0 (execMailboxTlbinvAll s) := by
  unfold execMailboxTlbinvAll
  repeat' (with_reducible first | assumption | apply mbStep_kept | apply State.mbTlbinv_kept | intro _)

theorem execMailboxTlbinvAsid_kept (s : State) (ok_s : s.kept ref0) : OutOk ref0 (execMailboxTlbinvAsid s) := by
  unfold execMailboxTlbinvAsid
  repeat' (with_reducible first | assumption | apply mbStep_kept | apply State.mbTlbinv_kept | intro _)

theorem execMailboxTlbinvPage_kept (s : State) (ok_s : s.kept ref0) : OutOk ref0 (execMailboxTlbinvPage s) := by
  unfold execMailboxTlbinvPage
  repeat' (with_reducible first | assumption | apply mbStep_kept | apply State.mbTlbinv_kept | intro _)

theorem execTailDoorbell_kept (tail : Byte) (s : State) (ok_s : s.kept ref0) : OutOk ref0 (execTailDoorbell tail s) := by
  unfold execTailDoorbell
  repeat' (with_reducible first
    | assumption | fail_if_no_progress apply mk_kept | dsimp only [OutOk, OptOk, ExcOk])

theorem State.barWrite_kept (s : State) (off : ℕ) (data : List Byte)
    (ok_s : s.kept ref0) : (State.barWrite s off data).kept ref0 := by
  unfold State.barWrite
  repeat' (with_reducible first | assumption | fail_if_no_progress apply mk_kept | split)

/-! ### Machine/Network.lean -/

theorem State.modRouter_kept (s : State) (r : ℕ) (f : Router → Router)
    (ok_s : s.kept ref0) : (State.modRouter s r f).kept ref0 := by
  unfold State.modRouter
  repeat' (with_reducible first | assumption | fail_if_no_progress apply mk_kept)

theorem State.modGateway_kept (s : State) (die : ℕ) (quad : ℕ) (other : ℕ) (f : Gateway → Gateway)
    (ok_s : s.kept ref0) : (State.modGateway s die quad other f).kept ref0 := by
  unfold State.modGateway
  repeat' (with_reducible first | assumption | fail_if_no_progress apply mk_kept)

theorem State.reach_kept (s : State) (p : Packet) (es : List Endpoint)
    (ok_s : s.kept ref0) : (State.reach s p es).kept ref0 := by
  unfold State.reach
  repeat' (with_reducible first | assumption | apply State.modRouter_kept)

theorem Arb.leave_kept (a : Arb) (r : Nat) (p : Packet) (es : List Endpoint) (want port : NetPort) (target : Nat) (h :
    a.state.kept ref0) :
    (a.leave r p es want port target).state.kept ref0 := by
  unfold Arb.leave
  split
  · exact State.reach_kept _ _ _ h
  · dsimp only
    exact State.modGateway_kept _ _ _ _ _ (State.reach_kept _ _ _ h)
  · exact h

theorem Arb.join_state (a : Arb) (es : List Endpoint) : (a.join es).state = a.state := by
  unfold Arb.join; split <;> rfl

theorem Arb.keep_state (a : Arb) (p : Packet) : (a.keep p).state = a.state := by
  unfold Arb.keep
  split
  · split <;> rfl
  · rfl

theorem foldlArb_kept {α β : Type} (f : Arb × β → α → Arb × β) (l : List α) (x : Arb × β) (h : x.1.state.kept ref0)
    (hf : ∀ x a, x.1.state.kept ref0 → (f x a).1.state.kept ref0) : (l.foldl f x).1.state.kept ref0 := by
  induction l generalizing x with
  | nil => exact h
  | cons a l ih => exact ih _ (hf x a h)

theorem Arb.pass_kept (a : Arb) (r : Nat) (p : Packet) (behind : Nat) (h : a.state.kept ref0) : (a.pass r p
    behind).state.kept ref0 := by
  unfold Arb.pass
  apply foldlArb_kept
  · exact h
  · intro x w hx
    dsimp only
    split
    · dsimp only
      split
      · rw [Arb.join_state]; exact hx
      · rw [Arb.keep_state]; exact hx
    · split
      · rw [Arb.join_state]; exact hx
      · exact Arb.leave_kept _ _ _ _ _ _ _ hx

theorem Arb.passAll_kept (a : Arb) (r : Nat) (ps : List Packet) (h : a.state.kept ref0) : (a.passAll r ps).state.kept
    ref0 := by
  induction ps generalizing a with
  | nil => exact h
  | cons p ps ih => exact ih _ (Arb.pass_kept _ _ _ _ h)

theorem Arb.inject_kept (a : Arb) (r : Nat) (h : a.state.kept ref0) : (a.inject r).state.kept ref0 := by
  unfold Arb.inject
  split
  · exact h
  · split
    · exact h
    · apply Arb.pass_kept
      dsimp only
      exact State.modRouter_kept _ _ _ h

theorem execRouterArbitration_kept (router : Nat) (s : State) (h_s : s.kept ref0) : OutOk ref0 (execRouterArbitration
    router s) := by
  unfold execRouterArbitration
  split
  · exact h_s
  · dsimp only [OutOk]
    with_reducible apply mk_kept
    apply Arb.inject_kept
    apply Arb.passAll_kept
    dsimp only
    apply State.modRouter_kept
    with_reducible apply mk_kept
    exact h_s

theorem execPacketInjection_kept (router : ℕ) (offer : Offer) (s : State)
    (ok_s : s.kept ref0) : OutOk ref0 (execPacketInjection router offer s) := by
  unfold execPacketInjection
  repeat' (with_reducible first
    | assumption | apply State.modRouter_kept | trivial | (refine out_kept (by assumption) ?_) | split
    | dsimp only [OutOk, OptOk, ExcOk])

theorem execStarvationSignal_kept (router : ℕ) (s : State)
    (ok_s : s.kept ref0) : OutOk ref0 (execStarvationSignal router s) := by
  unfold execStarvationSignal
  repeat' (with_reducible first
    | assumption | apply State.modRouter_kept | split | dsimp only [OutOk, OptOk, ExcOk])

theorem execGoldenEpoch_kept (die : ℕ) (s : State) (ok_s : s.kept ref0) : OutOk ref0 (execGoldenEpoch die s) := by
  unfold execGoldenEpoch
  repeat' (with_reducible first
    | assumption | fail_if_no_progress apply mk_kept | dsimp only [OutOk, OptOk, ExcOk])

theorem execSublinkCrossing_kept (die : ℕ) (quad : ℕ) (other : ℕ) (s : State)
    (ok_s : s.kept ref0) : OutOk ref0 (execSublinkCrossing die quad other s) := by
  unfold execSublinkCrossing
  repeat' (with_reducible first
    | assumption | apply State.modGateway_kept | trivial | (refine out_kept (by assumption) ?_) | split
    | dsimp only [OutOk, OptOk, ExcOk])

theorem execGatewayInjection_kept (die : ℕ) (quad : ℕ) (other : ℕ) (s : State)
    (ok_s : s.kept ref0) : OutOk ref0 (execGatewayInjection die quad other s) := by
  unfold execGatewayInjection
  repeat' (with_reducible first
    | assumption | apply State.modRouter_kept | apply State.modGateway_kept | trivial
    | (refine out_kept (by assumption) ?_) | split | dsimp only [OutOk, OptOk, ExcOk])

/-! ### Machine/IntArith.lean -/

theorem int2_kept (op : ℤ → ℤ → ℤ → ℤ) (h : Head) (m : IntMods) (d : Operand) (a : Operand) (b : Operand) (s : State)
    (ok_s : s.kept ref0) : OutOk ref0 (int2 op h m d a b s) := by
  unfold int2
  repeat' (with_reducible first | assumption | apply vec_kept)

theorem int2Vl_kept (op : ℤ → ℤ → ℤ → ℤ) (ty : Ty) (h : Head) (d : Operand) (a : Operand) (lit : Word) (s : State)
    (ok_s : s.kept ref0) : OutOk ref0 (int2Vl op ty h d a lit s) := by
  unfold int2Vl
  repeat' (with_reducible first | assumption | apply vec_kept)

theorem execIadd_kept (h : Head) (m : IntMods) (d : Operand) (a : Operand) (b : Operand) (s : State)
    (ok_s : s.kept ref0) : OutOk ref0 (execIadd h m d a b s) := by
  unfold execIadd
  repeat' (with_reducible first | assumption | apply int2_kept)

theorem execIaddVl_kept (h : Head) (d : Operand) (a : Operand) (lit : Word) (s : State)
    (ok_s : s.kept ref0) : OutOk ref0 (execIaddVl h d a lit s) := by
  unfold execIaddVl
  repeat' (with_reducible first | assumption | apply int2Vl_kept)

theorem execIsub_kept (h : Head) (m : IntMods) (d : Operand) (a : Operand) (b : Operand) (s : State)
    (ok_s : s.kept ref0) : OutOk ref0 (execIsub h m d a b s) := by
  unfold execIsub
  repeat' (with_reducible first | assumption | apply int2_kept)

theorem execIsubVl_kept (h : Head) (d : Operand) (a : Operand) (lit : Word) (s : State)
    (ok_s : s.kept ref0) : OutOk ref0 (execIsubVl h d a lit s) := by
  unfold execIsubVl
  repeat' (with_reducible first | assumption | apply int2Vl_kept)

theorem execImul_kept (h : Head) (m : IntMods) (d : Operand) (a : Operand) (b : Operand) (s : State)
    (ok_s : s.kept ref0) : OutOk ref0 (execImul h m d a b s) := by
  unfold execImul
  repeat' (with_reducible first | assumption | apply int2_kept)

theorem execImulVl_kept (h : Head) (d : Operand) (a : Operand) (lit : Word) (s : State)
    (ok_s : s.kept ref0) : OutOk ref0 (execImulVl h d a lit s) := by
  unfold execImulVl
  repeat' (with_reducible first | assumption | apply int2Vl_kept)

theorem execImulhi_kept (h : Head) (m : IntMods) (d : Operand) (a : Operand) (b : Operand) (s : State)
    (ok_s : s.kept ref0) : OutOk ref0 (execImulhi h m d a b s) := by
  unfold execImulhi
  repeat' (with_reducible first | assumption | apply int2_kept)

theorem execImulhiVl_kept (h : Head) (d : Operand) (a : Operand) (lit : Word) (s : State)
    (ok_s : s.kept ref0) : OutOk ref0 (execImulhiVl h d a lit s) := by
  unfold execImulhiVl
  repeat' (with_reducible first | assumption | apply int2Vl_kept)

theorem execImad_kept (h : Head) (m : IntMods) (d : Operand) (a : Operand) (b : Operand) (c : Operand) (s : State)
    (ok_s : s.kept ref0) : OutOk ref0 (execImad h m d a b c s) := by
  unfold execImad
  repeat' (with_reducible first | assumption | apply vec_kept)

theorem execImin_kept (h : Head) (m : IntMods) (d : Operand) (a : Operand) (b : Operand) (s : State)
    (ok_s : s.kept ref0) : OutOk ref0 (execImin h m d a b s) := by
  unfold execImin
  repeat' (with_reducible first | assumption | apply int2_kept)

theorem execIminVl_kept (h : Head) (d : Operand) (a : Operand) (lit : Word) (s : State)
    (ok_s : s.kept ref0) : OutOk ref0 (execIminVl h d a lit s) := by
  unfold execIminVl
  repeat' (with_reducible first | assumption | apply int2Vl_kept)

theorem execImax_kept (h : Head) (m : IntMods) (d : Operand) (a : Operand) (b : Operand) (s : State)
    (ok_s : s.kept ref0) : OutOk ref0 (execImax h m d a b s) := by
  unfold execImax
  repeat' (with_reducible first | assumption | apply int2_kept)

theorem execImaxVl_kept (h : Head) (d : Operand) (a : Operand) (lit : Word) (s : State)
    (ok_s : s.kept ref0) : OutOk ref0 (execImaxVl h d a lit s) := by
  unfold execImaxVl
  repeat' (with_reducible first | assumption | apply int2Vl_kept)

theorem execIabs_kept (h : Head) (ty : Ty) (sat : Bool) (d : Operand) (a : Operand) (s : State)
    (ok_s : s.kept ref0) : OutOk ref0 (execIabs h ty sat d a s) := by
  unfold execIabs
  repeat' (with_reducible first | assumption | apply vec_kept)

theorem execIaddc_kept (h : Head) (pd : Fin 8) (d : Operand) (a : Operand) (b : Operand) (c : Operand) (s : State)
    (ok_s : s.kept ref0) : OutOk ref0 (execIaddc h pd d a b c s) := by
  unfold execIaddc
  repeat' (with_reducible first | assumption | apply vec_kept)

theorem execIadd64_kept (h : Head) (m : IntMods) (d : Operand) (a : Operand) (b : Operand) (s : State)
    (ok_s : s.kept ref0) : OutOk ref0 (execIadd64 h m d a b s) := by
  unfold execIadd64
  repeat' (with_reducible first | assumption | apply int2_kept)

theorem execIadd64Vl_kept (h : Head) (d : Operand) (a : Operand) (lit : Word) (s : State)
    (ok_s : s.kept ref0) : OutOk ref0 (execIadd64Vl h d a lit s) := by
  unfold execIadd64Vl
  repeat' (with_reducible first | assumption | apply int2Vl_kept)

/-! ### Machine/Logic.lean -/

theorem shift3_kept (f : ℕ → ℕ → ℕ → ℕ) (h : Head) (ty : Ty) (d : Operand) (a : Operand) (n : Operand) (s : State)
    (ok_s : s.kept ref0) : OutOk ref0 (shift3 f h ty d a n s) := by
  unfold shift3
  repeat' (with_reducible first | assumption | apply vec_kept)

theorem shiftVl_kept (f : ℕ → ℕ → ℕ → ℕ) (h : Head) (d : Operand) (a : Operand) (lit : Word) (s : State)
    (ok_s : s.kept ref0) : OutOk ref0 (shiftVl f h d a lit s) := by
  unfold shiftVl
  repeat' (with_reducible first | assumption | apply vec_kept)

theorem execShl_kept (h : Head) (ty : Ty) (d : Operand) (a : Operand) (n : Operand) (s : State)
    (ok_s : s.kept ref0) : OutOk ref0 (execShl h ty d a n s) := by
  unfold execShl
  repeat' (with_reducible first | assumption | apply shift3_kept)

theorem execShlVl_kept (h : Head) (d : Operand) (a : Operand) (lit : Word) (s : State)
    (ok_s : s.kept ref0) : OutOk ref0 (execShlVl h d a lit s) := by
  unfold execShlVl
  repeat' (with_reducible first | assumption | apply shiftVl_kept)

theorem execShr_kept (h : Head) (ty : Ty) (d : Operand) (a : Operand) (n : Operand) (s : State)
    (ok_s : s.kept ref0) : OutOk ref0 (execShr h ty d a n s) := by
  unfold execShr
  repeat' (with_reducible first | assumption | apply shift3_kept)

theorem execShrVl_kept (h : Head) (d : Operand) (a : Operand) (lit : Word) (s : State)
    (ok_s : s.kept ref0) : OutOk ref0 (execShrVl h d a lit s) := by
  unfold execShrVl
  repeat' (with_reducible first | assumption | apply shiftVl_kept)

theorem execSar_kept (h : Head) (ty : Ty) (d : Operand) (a : Operand) (n : Operand) (s : State)
    (ok_s : s.kept ref0) : OutOk ref0 (execSar h ty d a n s) := by
  unfold execSar
  repeat' (with_reducible first | assumption | apply shift3_kept)

theorem execSarVl_kept (h : Head) (d : Operand) (a : Operand) (lit : Word) (s : State)
    (ok_s : s.kept ref0) : OutOk ref0 (execSarVl h d a lit s) := by
  unfold execSarVl
  repeat' (with_reducible first | assumption | apply shiftVl_kept)

theorem logic3_kept (f : DWord → DWord → DWord) (h : Head) (ty : Ty) (na : Bool) (nb : Bool) (d : Operand) (a :
    Operand) (b : Operand) (s : State)
    (ok_s : s.kept ref0) : OutOk ref0 (logic3 f h ty na nb d a b s) := by
  unfold logic3
  repeat' (with_reducible first | assumption | apply vec_kept)

theorem logicVl_kept (f : DWord → DWord → DWord) (h : Head) (d : Operand) (a : Operand) (lit : Word) (s : State)
    (ok_s : s.kept ref0) : OutOk ref0 (logicVl f h d a lit s) := by
  unfold logicVl
  repeat' (with_reducible first | assumption | apply vec_kept)

theorem execAnd_kept (h : Head) (ty : Ty) (na : Bool) (nb : Bool) (d : Operand) (a : Operand) (b : Operand) (s : State)
    (ok_s : s.kept ref0) : OutOk ref0 (execAnd h ty na nb d a b s) := by
  unfold execAnd
  repeat' (with_reducible first | assumption | apply logic3_kept)

theorem execAndVl_kept (h : Head) (d : Operand) (a : Operand) (lit : Word) (s : State)
    (ok_s : s.kept ref0) : OutOk ref0 (execAndVl h d a lit s) := by
  unfold execAndVl
  repeat' (with_reducible first | assumption | apply logicVl_kept)

theorem execOr_kept (h : Head) (ty : Ty) (na : Bool) (nb : Bool) (d : Operand) (a : Operand) (b : Operand) (s : State)
    (ok_s : s.kept ref0) : OutOk ref0 (execOr h ty na nb d a b s) := by
  unfold execOr
  repeat' (with_reducible first | assumption | apply logic3_kept)

theorem execOrVl_kept (h : Head) (d : Operand) (a : Operand) (lit : Word) (s : State)
    (ok_s : s.kept ref0) : OutOk ref0 (execOrVl h d a lit s) := by
  unfold execOrVl
  repeat' (with_reducible first | assumption | apply logicVl_kept)

theorem execXor_kept (h : Head) (ty : Ty) (na : Bool) (nb : Bool) (d : Operand) (a : Operand) (b : Operand) (s : State)
    (ok_s : s.kept ref0) : OutOk ref0 (execXor h ty na nb d a b s) := by
  unfold execXor
  repeat' (with_reducible first | assumption | apply logic3_kept)

theorem execXorVl_kept (h : Head) (d : Operand) (a : Operand) (lit : Word) (s : State)
    (ok_s : s.kept ref0) : OutOk ref0 (execXorVl h d a lit s) := by
  unfold execXorVl
  repeat' (with_reducible first | assumption | apply logicVl_kept)

theorem execLut3_kept (h : Head) (lut : Byte) (d : Operand) (a : Operand) (b : Operand) (c : Operand) (s : State)
    (ok_s : s.kept ref0) : OutOk ref0 (execLut3 h lut d a b c s) := by
  unfold execLut3
  repeat' (with_reducible first | assumption | apply vec_kept)

theorem execPopc_kept (h : Head) (ty : Ty) (d : Operand) (a : Operand) (s : State)
    (ok_s : s.kept ref0) : OutOk ref0 (execPopc h ty d a s) := by
  unfold execPopc
  repeat' (with_reducible first | assumption | apply vec_kept)

theorem execClz_kept (h : Head) (ty : Ty) (d : Operand) (a : Operand) (s : State)
    (ok_s : s.kept ref0) : OutOk ref0 (execClz h ty d a s) := by
  unfold execClz
  repeat' (with_reducible first | assumption | apply vec_kept)

theorem execBrev_kept (h : Head) (ty : Ty) (d : Operand) (a : Operand) (s : State)
    (ok_s : s.kept ref0) : OutOk ref0 (execBrev h ty d a s) := by
  unfold execBrev
  repeat' (with_reducible first | assumption | apply vec_kept)

theorem execBfe_kept (h : Head) (ty : Ty) (d : Operand) (a : Operand) (f : Operand) (s : State)
    (ok_s : s.kept ref0) : OutOk ref0 (execBfe h ty d a f s) := by
  unfold execBfe
  repeat' (with_reducible first | assumption | apply vec_kept)

theorem execBfeVl_kept (h : Head) (d : Operand) (a : Operand) (lit : Word) (s : State)
    (ok_s : s.kept ref0) : OutOk ref0 (execBfeVl h d a lit s) := by
  unfold execBfeVl
  repeat' (with_reducible first | assumption | apply vec_kept)

theorem execBfi_kept (h : Head) (d : Operand) (a : Operand) (b : Operand) (f : Operand) (s : State)
    (ok_s : s.kept ref0) : OutOk ref0 (execBfi h d a b f s) := by
  unfold execBfi
  repeat' (with_reducible first | assumption | apply vec_kept)

theorem execIcmp_kept (h : Head) (m : CmpMods) (d : Operand) (a : Operand) (b : Operand) (c : Operand) (s : State)
    (ok_s : s.kept ref0) : OutOk ref0 (execIcmp h m d a b c s) := by
  unfold execIcmp
  repeat' (with_reducible first | assumption | apply vec_kept)

theorem execIcmp64_kept (h : Head) (m : CmpMods) (d : Operand) (a : Operand) (b : Operand) (c : Operand) (s : State)
    (ok_s : s.kept ref0) : OutOk ref0 (execIcmp64 h m d a b c s) := by
  unfold execIcmp64
  repeat' (with_reducible first | assumption | apply vec_kept)

theorem execSel_kept (h : Head) (ty : Ty) (d : Operand) (a : Operand) (b : Operand) (c : Operand) (s : State)
    (ok_s : s.kept ref0) : OutOk ref0 (execSel h ty d a b c s) := by
  unfold execSel
  repeat' (with_reducible first | assumption | apply vec_kept)

theorem execMov_kept (h : Head) (d : Operand) (a : Operand) (s : State)
    (ok_s : s.kept ref0) : OutOk ref0 (execMov h d a s) := by
  unfold execMov
  repeat' (with_reducible first | assumption | apply vec_kept)

theorem execMov64_kept (h : Head) (d : Operand) (a : Operand) (s : State)
    (ok_s : s.kept ref0) : OutOk ref0 (execMov64 h d a s) := by
  unfold execMov64
  repeat' (with_reducible first | assumption | apply vec_kept)

theorem execLea_kept (h : Head) (ty : Ty) (sh : Fin 8) (d : Operand) (a : Operand) (b : Operand) (s : State)
    (ok_s : s.kept ref0) : OutOk ref0 (execLea h ty sh d a b s) := by
  unfold execLea
  repeat' (with_reducible first | assumption | apply vec_kept)

theorem execLeaVl_kept (h : Head) (d : Operand) (a : Operand) (lit : Word) (s : State)
    (ok_s : s.kept ref0) : OutOk ref0 (execLeaVl h d a lit s) := by
  unfold execLeaVl
  repeat' (with_reducible first | assumption | apply vec_kept)

/-! ### Machine/FloatArith.lean -/

theorem flt2_kept (op : Rm → Val → Val → Val → Val) (h : Head) (m : FltMods) (d : Operand) (a : Operand) (b : Operand)
    (s : State)
    (ok_s : s.kept ref0) : OutOk ref0 (flt2 op h m d a b s) := by
  unfold flt2
  repeat' (with_reducible first | assumption | apply vec_kept)

theorem flt2Vl_kept (op : Rm → Val → Val → Val → Val) (h : Head) (d : Operand) (a : Operand) (lit : Word) (s : State)
    (ok_s : s.kept ref0) : OutOk ref0 (flt2Vl op h d a lit s) := by
  unfold flt2Vl
  repeat' (with_reducible first | assumption | apply vec_kept)

theorem execFadd_kept (h : Head) (m : FltMods) (d : Operand) (a : Operand) (b : Operand) (s : State)
    (ok_s : s.kept ref0) : OutOk ref0 (execFadd h m d a b s) := by
  unfold execFadd
  repeat' (with_reducible first | assumption | apply flt2_kept)

theorem execFaddVl_kept (h : Head) (d : Operand) (a : Operand) (lit : Word) (s : State)
    (ok_s : s.kept ref0) : OutOk ref0 (execFaddVl h d a lit s) := by
  unfold execFaddVl
  repeat' (with_reducible first | assumption | apply flt2Vl_kept)

theorem execFsub_kept (h : Head) (m : FltMods) (d : Operand) (a : Operand) (b : Operand) (s : State)
    (ok_s : s.kept ref0) : OutOk ref0 (execFsub h m d a b s) := by
  unfold execFsub
  repeat' (with_reducible first | assumption | apply flt2_kept)

theorem execFsubVl_kept (h : Head) (d : Operand) (a : Operand) (lit : Word) (s : State)
    (ok_s : s.kept ref0) : OutOk ref0 (execFsubVl h d a lit s) := by
  unfold execFsubVl
  repeat' (with_reducible first | assumption | apply flt2Vl_kept)

theorem execFmul_kept (h : Head) (m : FltMods) (d : Operand) (a : Operand) (b : Operand) (s : State)
    (ok_s : s.kept ref0) : OutOk ref0 (execFmul h m d a b s) := by
  unfold execFmul
  repeat' (with_reducible first | assumption | apply flt2_kept)

theorem execFmulVl_kept (h : Head) (d : Operand) (a : Operand) (lit : Word) (s : State)
    (ok_s : s.kept ref0) : OutOk ref0 (execFmulVl h d a lit s) := by
  unfold execFmulVl
  repeat' (with_reducible first | assumption | apply flt2Vl_kept)

theorem execFmac_kept (h : Head) (m : FltMods) (d : Operand) (a : Operand) (b : Operand) (c : Operand) (s : State)
    (ok_s : s.kept ref0) : OutOk ref0 (execFmac h m d a b c s) := by
  unfold execFmac
  repeat' (with_reducible first | assumption | apply vec_kept)

theorem fltMinMax_kept (isMax : Bool) (h : Head) (m : FltMods) (d : Operand) (a : Operand) (b : Operand) (s : State)
    (ok_s : s.kept ref0) : OutOk ref0 (fltMinMax isMax h m d a b s) := by
  unfold fltMinMax
  repeat' (with_reducible first | assumption | apply vec_kept)

theorem fltMinMaxVl_kept (isMax : Bool) (h : Head) (d : Operand) (a : Operand) (lit : Word) (s : State)
    (ok_s : s.kept ref0) : OutOk ref0 (fltMinMaxVl isMax h d a lit s) := by
  unfold fltMinMaxVl
  repeat' (with_reducible first | assumption | apply vec_kept)

theorem execFmin_kept (h : Head) (m : FltMods) (d : Operand) (a : Operand) (b : Operand) (s : State)
    (ok_s : s.kept ref0) : OutOk ref0 (execFmin h m d a b s) := by
  unfold execFmin
  repeat' (with_reducible first | assumption | apply fltMinMax_kept)

theorem execFminVl_kept (h : Head) (d : Operand) (a : Operand) (lit : Word) (s : State)
    (ok_s : s.kept ref0) : OutOk ref0 (execFminVl h d a lit s) := by
  unfold execFminVl
  repeat' (with_reducible first | assumption | apply fltMinMaxVl_kept)

theorem execFmax_kept (h : Head) (m : FltMods) (d : Operand) (a : Operand) (b : Operand) (s : State)
    (ok_s : s.kept ref0) : OutOk ref0 (execFmax h m d a b s) := by
  unfold execFmax
  repeat' (with_reducible first | assumption | apply fltMinMax_kept)

theorem execFmaxVl_kept (h : Head) (d : Operand) (a : Operand) (lit : Word) (s : State)
    (ok_s : s.kept ref0) : OutOk ref0 (execFmaxVl h d a lit s) := by
  unfold execFmaxVl
  repeat' (with_reducible first | assumption | apply fltMinMaxVl_kept)

theorem execFcmp_kept (h : Head) (m : CmpMods) (d : Operand) (a : Operand) (b : Operand) (c : Operand) (s : State)
    (ok_s : s.kept ref0) : OutOk ref0 (execFcmp h m d a b c s) := by
  unfold execFcmp
  repeat' (with_reducible first | assumption | apply vec_kept)

theorem execFclass_kept (h : Head) (d : Operand) (a : Operand) (s : State)
    (ok_s : s.kept ref0) : OutOk ref0 (execFclass h d a s) := by
  unfold execFclass
  repeat' (with_reducible first | assumption | apply vec_kept)

theorem flt1_kept (f : Rm → Bool → Val → ℕ) (h : Head) (rm : Rm) (na : Bool) (aa : Bool) (d : Operand) (a : Operand)
    (s : State)
    (ok_s : s.kept ref0) : OutOk ref0 (flt1 f h rm na aa d a s) := by
  unfold flt1
  repeat' (with_reducible first | assumption | apply vec_kept)

theorem execFrcp_kept (h : Head) (rm : Rm) (na : Bool) (aa : Bool) (d : Operand) (a : Operand) (s : State)
    (ok_s : s.kept ref0) : OutOk ref0 (execFrcp h rm na aa d a s) := by
  unfold execFrcp
  repeat' (with_reducible first | assumption | apply flt1_kept)

theorem execFrsq_kept (h : Head) (rm : Rm) (na : Bool) (aa : Bool) (d : Operand) (a : Operand) (s : State)
    (ok_s : s.kept ref0) : OutOk ref0 (execFrsq h rm na aa d a s) := by
  unfold execFrsq
  repeat' (with_reducible first | assumption | apply flt1_kept)

theorem execFsqrt_kept (h : Head) (rm : Rm) (na : Bool) (aa : Bool) (d : Operand) (a : Operand) (s : State)
    (ok_s : s.kept ref0) : OutOk ref0 (execFsqrt h rm na aa d a s) := by
  unfold execFsqrt
  repeat' (with_reducible first | assumption | apply flt1_kept)

theorem execFexp2_kept (h : Head) (rm : Rm) (na : Bool) (aa : Bool) (d : Operand) (a : Operand) (s : State)
    (ok_s : s.kept ref0) : OutOk ref0 (execFexp2 h rm na aa d a s) := by
  unfold execFexp2
  repeat' (with_reducible first | assumption | apply flt1_kept)

theorem execFlog2_kept (h : Head) (rm : Rm) (na : Bool) (aa : Bool) (d : Operand) (a : Operand) (s : State)
    (ok_s : s.kept ref0) : OutOk ref0 (execFlog2 h rm na aa d a s) := by
  unfold execFlog2
  repeat' (with_reducible first | assumption | apply flt1_kept)

theorem execFtanh_kept (h : Head) (rm : Rm) (na : Bool) (aa : Bool) (d : Operand) (a : Operand) (s : State)
    (ok_s : s.kept ref0) : OutOk ref0 (execFtanh h rm na aa d a s) := by
  unfold execFtanh
  repeat' (with_reducible first | assumption | apply flt1_kept)

theorem execFdot2_kept (h : Head) (m : FltMods) (d : Operand) (a : Operand) (b : Operand) (c : Operand) (s : State)
    (ok_s : s.kept ref0) : OutOk ref0 (execFdot2 h m d a b c s) := by
  unfold execFdot2
  repeat' (with_reducible first | assumption | apply vec_kept)

theorem execFscale_kept (h : Head) (rm : Rm) (sat : Bool) (na : Bool) (aa : Bool) (d : Operand) (a : Operand) (n :
    Operand) (s : State)
    (ok_s : s.kept ref0) : OutOk ref0 (execFscale h rm sat na aa d a n s) := by
  unfold execFscale
  repeat' (with_reducible first | assumption | apply vec_kept)

theorem execFscaleVl_kept (h : Head) (d : Operand) (a : Operand) (lit : Word) (s : State)
    (ok_s : s.kept ref0) : OutOk ref0 (execFscaleVl h d a lit s) := by
  unfold execFscaleVl
  repeat' (with_reducible first | assumption | apply vec_kept)

/-! ### Machine/Convert.lean -/

theorem State.countConv_kept (s : State) (launch : ℕ) (n : CvCount)
    (ok_s : s.kept ref0) : (State.countConv s launch n).1.kept ref0 := by
  unfold State.countConv
  repeat' (with_reducible first | assumption | apply State.modLaunch_kept | split)

theorem vecCount_kept (s : State) (h : Head) (ops : List (Operand × ℕ)) (d : Operand) (f : Ctx → Thread → VecEff × CvCount)
    (ok_s : s.kept ref0) : OutOk ref0 (vecCount s h ops d f) := by
  unfold vecCount
  repeat' (with_reducible first
    | assumption | apply run_kept | apply Ctx.vecWrites_kept | apply State.countConv_kept
    | apply State.trapNoAddr_kept | apply State.advance_kept | intro _ | split)

theorem execCvt_kept (h : Head) (m : CvtMods) (d : Operand) (a : Operand) (sc : Operand) (mg : Operand) (s : State)
    (ok_s : s.kept ref0) : OutOk ref0 (execCvt h m d a sc mg s) := by
  unfold execCvt
  repeat' (with_reducible first | assumption | apply vecCount_kept)

theorem execCvtpk_kept (h : Head) (tyd : Ty) (rm : Rm) (sat : Bool) (hi : Bool) (d : Operand) (a : Operand) (b :
    Operand) (mg : Operand) (s : State)
    (ok_s : s.kept ref0) : OutOk ref0 (execCvtpk h tyd rm sat hi d a b mg s) := by
  unfold execCvtpk
  repeat' (with_reducible first | assumption | apply vecCount_kept)

theorem execCvtx_kept (h : Head) (tys : Ty) (rm : Rm) (sat : Bool) (tyd : Ty) (hi : Bool) (d : Operand) (a : Operand)
    (s : State)
    (ok_s : s.kept ref0) : OutOk ref0 (execCvtx h tys rm sat tyd hi d a s) := by
  unfold execCvtx
  repeat' (with_reducible first | assumption | apply vecCount_kept)

theorem execQdec_kept (h : Head) (tyd : Ty) (rm : Rm) (j : Fin 8) (d : Operand) (a : Operand) (sc : Operand) (s : State)
    (ok_s : s.kept ref0) : OutOk ref0 (execQdec h tyd rm j d a sc s) := by
  unfold execQdec
  repeat' (with_reducible first | assumption | apply vec_kept)

theorem execQdecVl_kept (h : Head) (d : Operand) (a : Operand) (lit : Word) (s : State)
    (ok_s : s.kept ref0) : OutOk ref0 (execQdecVl h d a lit s) := by
  unfold execQdecVl
  repeat' (with_reducible first | assumption | apply vec_kept)

theorem execQenc_kept (h : Head) (j : Fin 8) (d : Operand) (a : Operand) (sg : Operand) (mg : Operand) (s : State)
    (ok_s : s.kept ref0) : OutOk ref0 (execQenc h j d a sg mg s) := by
  unfold execQenc
  repeat' (with_reducible first | assumption | apply vecCount_kept)

/-! ### Machine/Tile.lean -/

theorem State.modTile_kept (s : State) (team : ℕ) (t : ℕ) (f : Tile → Tile)
    (ok_s : s.kept ref0) : (State.modTile s team t f).kept ref0 := by
  unfold State.modTile
  repeat' (with_reducible first
    | assumption | apply State.kept.modTeam | intro _ | (apply regs_id; with_unfolding_all assumption))

theorem State.holdTile_kept (s : State) (c : Ctx) (i : Instr) (ok_s : s.kept ref0) : (State.holdTile s c i).kept ref0 := by
  unfold State.holdTile
  repeat' (with_reducible first | assumption | apply State.modCore_kept)

theorem State.tileEnter_kept (s : State) (c : Ctx) (who : ℕ → List ℕ) (rs : List TileReq)
    (ok_s : s.kept ref0) : (State.tileEnter s c who rs).kept ref0 := by
  unfold State.tileEnter
  repeat' (with_reducible first
    | assumption | apply State.bumpId_kept | apply State.barIssue_kept | apply State.modThreads_kept
    | fail_if_no_progress apply mk_kept | apply foldl_kept | intro _)

theorem tileForm_kept (s : State) (i : Instr) (h : Head) (ops : List (Operand × ℕ)) (scored : Bool) (act : Ctx →
    Thread → TileAct × Option ℕ) (checks : Ctx → List (Bool × Cause)) (k : Ctx → State → State)
    (ok_s : s.kept ref0) (ok_k : ∀ x0 x1, x1.kept ref0 → (k x0 x1).kept ref0) : OutOk ref0 (tileForm s i h ops scored
    act checks k) := by
  unfold tileForm
  repeat' (with_reducible first
    | assumption | apply run_kept | apply State.advance_kept | apply State.holdTile_kept
    | apply State.trapGroup_kept | apply State.tileEnter_kept | apply ok_k | intro _ | split
    | dsimp only [OutOk, OptOk, ExcOk])

theorem execTcfg_kept (h : Head) (t : Fin 16) (fmt : Fmt) (sc : Operand) (r : Operand) (k : Operand) (s : State)
    (ok_s : s.kept ref0) : OutOk ref0 (execTcfg h t fmt sc r k s) := by
  unfold execTcfg
  repeat' (with_reducible first
    | assumption | apply tileForm_kept | apply State.modTile_kept | apply foldl_kept | intro _)

theorem execTrel_kept (h : Head) (t : Fin 16) (s : State) (ok_s : s.kept ref0) : OutOk ref0 (execTrel h t s) := by
  unfold execTrel
  repeat' (with_reducible first | assumption | apply tileForm_kept | apply State.modTile_kept | intro _)

theorem execTzero_kept (h : Head) (t : Fin 16) (s : State) (ok_s : s.kept ref0) : OutOk ref0 (execTzero h t s) := by
  unfold execTzero
  repeat' (with_reducible first
    | assumption | apply tileForm_kept | fail_if_no_progress apply mk_kept | intro _)

theorem execMma_kept (h : Head) (ta : Fin 16) (tb : Fin 16) (tra : Bool) (trb : Bool) (n : Operand) (x : Operand) (y :
    Operand) (s : State)
    (ok_s : s.kept ref0) : OutOk ref0 (execMma h ta tb tra trb n x y s) := by
  unfold execMma
  repeat' (with_reducible first
    | assumption | apply tileForm_kept | fail_if_no_progress apply mk_kept | intro _)

theorem execAccz_kept (h : Head) (n : Operand) (cnt : Operand) (s : State)
    (ok_s : s.kept ref0) : OutOk ref0 (execAccz h n cnt s) := by
  unfold execAccz
  repeat' (with_reducible first
    | assumption | apply tileForm_kept | fail_if_no_progress apply mk_kept | intro _)

theorem execAccld_kept (h : Head) (la : Fin 16) (w : Fin 6) (d : Operand) (n : Operand) (r : Operand) (k : Operand) (s
    : State)
    (ok_s : s.kept ref0) : OutOk ref0 (execAccld h la w d n r k s) := by
  unfold execAccld
  repeat' (with_reducible first
    | assumption | apply tileForm_kept | apply State.modThreads_kept | apply foldl_kept | intro _)

theorem execAccst_kept (h : Head) (w : Fin 6) (v : Operand) (n : Operand) (r : Operand) (k : Operand) (s : State)
    (ok_s : s.kept ref0) : OutOk ref0 (execAccst h w v n r k s) := by
  unfold execAccst
  repeat' (with_reducible first
    | assumption | apply tileForm_kept | fail_if_no_progress apply mk_kept | intro _)

theorem State.claim_kept (s : State) (c : Ctx) (tids : List ℕ) (ks : List Lock) (dst : List (Loc × ℕ)) (src : List
    (Loc × ℕ)) (rel : Bool)
    (ok_s : s.kept ref0) : OptOk ref0 (State.claim s c tids ks dst src rel) := by
  unfold State.claim
  repeat' (with_reducible first
    | assumption | apply State.clearLines_kept | apply State.takeLocks_kept | apply map_optOk | intro _ | split
    | dsimp only [OutOk, OptOk, ExcOk])

theorem chunkForm_kept (s : State) (i : Instr) (h : Head) (t : ℕ) (store : Bool) (part : TilePart) (ch : ℕ) (a :
    Operand) (o : Operand) (bar : Option ℕ)
    (ok_s : s.kept ref0) : OutOk ref0 (chunkForm s i h t store part ch a o bar) := by
  unfold chunkForm
  repeat' (with_reducible first
    | assumption | apply run_kept | apply State.advance_kept | apply State.sample_kept
    | apply State.holdTile_kept | apply State.trapGroup_kept | apply State.laneSplit_kept
    | apply State.claim_kept | apply State.tileEnter_kept | intro _ | (refine opt_kept (by assumption) ?_)
    | split | dsimp only [OutOk, OptOk, ExcOk])

theorem execTld_kept (h : Head) (t : Fin 16) (bar : BarSel) (part : TilePart) (ch : Fin 6) (a : Operand) (o : Operand)
    (s : State)
    (ok_s : s.kept ref0) : OutOk ref0 (execTld h t bar part ch a o s) := by
  unfold execTld
  repeat' (with_reducible first | assumption | apply chunkForm_kept)

theorem execTst_kept (h : Head) (t : Fin 16) (bar : BarSel) (ch : Fin 6) (a : Operand) (o : Operand) (s : State)
    (ok_s : s.kept ref0) : OutOk ref0 (execTst h t bar ch a o s) := by
  unfold execTst
  repeat' (with_reducible first | assumption | apply chunkForm_kept)

theorem execAcccvt_kept (h : Head) (fmt : Fmt) (rm : Rm) (sat : Bool) (bar : BarSel) (n : Operand) (a : Operand) (sc :
    Operand) (s : State)
    (ok_s : s.kept ref0) : OutOk ref0 (execAcccvt h fmt rm sat bar n a sc s) := by
  unfold execAcccvt
  repeat' (with_reducible first
    | assumption | apply run_kept | apply State.advance_kept | apply State.holdTile_kept
    | apply State.trapGroup_kept | apply State.laneSplit_kept | apply State.claim_kept
    | apply State.tileEnter_kept | fail_if_no_progress apply mk_kept | intro _
    | (refine opt_kept (by assumption) ?_) | split | dsimp only [OutOk, OptOk, ExcOk])

theorem execMmaStart_kept (op : ℕ) (s : State) (ok_s : s.kept ref0) : OutOk ref0 (execMmaStart op s) := by
  unfold execMmaStart
  repeat' (with_reducible first
    | assumption | apply State.modCore_kept | fail_if_no_progress apply mk_kept | split
    | dsimp only [OutOk, OptOk, ExcOk])

theorem execMmaCompletion_kept (op : ℕ) (s : State) (ok_s : s.kept ref0) : OutOk ref0 (execMmaCompletion op s) := by
  unfold execMmaCompletion
  repeat' (with_reducible first
    | assumption | apply State.kept.modTeam | apply State.settle_kept | apply State.finishTile_kept
    | apply mmaAcc_wf | intro _ | (apply regs_id; with_unfolding_all assumption) | split
    | dsimp only [OutOk, OptOk, ExcOk])

theorem State.noteChunks_kept (s : State) (o : TileOp) (cs : List (ℕ × Loc × ℕ)) (n : ℕ)
    (ok_s : s.kept ref0) : (State.noteChunks s o cs n).kept ref0 := by
  unfold State.noteChunks
  repeat' (with_reducible first
    | assumption | apply State.noteEngine_kept | apply foldl_kept | intro _ | split)

theorem execTldCompletion_kept (op : ℕ) (s : State) (ok_s : s.kept ref0) : OutOk ref0 (execTldCompletion op s) := by
  unfold execTldCompletion
  repeat' (with_reducible first
    | assumption | apply State.modTile_kept | apply State.noteChunks_kept | apply State.settle_kept
    | apply State.stopBad_kept | apply State.finishTile_kept | split | dsimp only [OutOk, OptOk, ExcOk])

theorem State.sampleTld_kept (s : State) (o : TileOp) (word : ℕ)
    (ok_s : s.kept ref0) : (State.sampleTld s o word).kept ref0 := by
  unfold State.sampleTld
  repeat' (with_reducible first
    | assumption | apply State.noteEngine_kept | apply State.stopBad_kept | fail_if_no_progress apply mk_kept
    | split)

theorem State.landTile_kept (s : State) (o : TileOp) (line : Loc)
    (ok_s : s.kept ref0) : (State.landTile s o line).kept ref0 := by
  unfold State.landTile
  repeat' (with_reducible first
    | assumption | apply State.engineWrite_kept | apply State.freeLines_kept | fail_if_no_progress apply mk_kept
    | apply foldl_kept | intro _)

theorem State.sampleTile_kept (s : State) (o : TileOp) (i : ℕ)
    (ok_s : s.kept ref0) : (State.sampleTile s o i).kept ref0 := by
  unfold State.sampleTile
  repeat' (with_reducible first | assumption | apply State.sampleTld_kept | apply State.landTile_kept | split)

theorem State.landAll_kept (s : State) (o : TileOp) (ok_s : s.kept ref0) : (State.landAll s o).kept ref0 := by
  unfold State.landAll
  repeat' (with_reducible first | assumption | apply State.engineWrite_kept | apply foldl_kept | intro _)

theorem execTstCompletion_kept (op : ℕ) (s : State) (ok_s : s.kept ref0) : OutOk ref0 (execTstCompletion op s) := by
  unfold execTstCompletion
  repeat' (with_reducible first
    | assumption | apply State.settle_kept | apply State.finishTile_kept | apply State.landAll_kept | split
    | dsimp only [OutOk, OptOk, ExcOk])

theorem execTzeroCompletion_kept (op : ℕ) (s : State) (ok_s : s.kept ref0) : OutOk ref0 (execTzeroCompletion op s) := by
  unfold execTzeroCompletion
  repeat' (with_reducible first
    | assumption | apply State.settle_kept | apply State.finishTile_kept | apply State.modTile_kept | split
    | dsimp only [OutOk, OptOk, ExcOk])

theorem execAccldResultArrival_kept (op : ℕ) (s : State)
    (ok_s : s.kept ref0) : OutOk ref0 (execAccldResultArrival op s) := by
  unfold execAccldResultArrival
  repeat' (with_reducible first
    | assumption | apply State.modThreads_kept | apply State.settle_kept | apply State.enterAll_kept
    | apply State.finishTile_kept | split | dsimp only [OutOk, OptOk, ExcOk])

theorem execTileCompletion_kept (op : ℕ) (s : State) (ok_s : s.kept ref0) : OutOk ref0 (execTileCompletion op s) := by
  unfold execTileCompletion
  repeat' (with_reducible first
    | assumption | apply State.kept.modTeam | apply State.settle_kept | apply State.finishTile_kept
    | apply accStore_wf | apply Memory.filter_wf | intro _ | (apply regs_id; with_unfolding_all assumption)
    | split | dsimp only [OutOk, OptOk, ExcOk])

theorem execAcccvtCompletion_kept (op : ℕ) (s : State) (ok_s : s.kept ref0) : OutOk ref0 (execAcccvtCompletion op s) := by
  unfold execAcccvtCompletion
  repeat' (with_reducible first
    | assumption | apply State.countConv_kept | apply State.landAll_kept | apply State.modThread_kept
    | apply State.settle_kept | apply State.finishTile_kept | split | dsimp only [OutOk, OptOk, ExcOk])

/-! ### Machine/Issue.lean -/

theorem State.parkGroup_kept (s : State) (core : ℕ) (port : ℕ) (g : Group)
    (ok_s : s.kept ref0) : (State.parkGroup s core port g).kept ref0 := by
  unfold State.parkGroup
  repeat' (with_reducible first | assumption | apply State.modThreads_kept | apply State.modCore_kept)

theorem State.commitDue_kept (s : State) (g : Group) (ok_s : s.kept ref0) : (State.commitDue s g).kept ref0 := by
  unfold State.commitDue
  repeat' (with_reducible first | assumption | apply State.commit_kept | apply foldl_kept | intro _)

theorem State.badWordTrap_kept (s : State) (g : Group) (e : DecodeError)
    (ok_s : s.kept ref0) : (State.badWordTrap s g e).kept ref0 := by
  unfold State.badWordTrap
  repeat' (with_reducible first | assumption | apply State.trapNoAddr_kept)

theorem State.markIssued_kept (s : State) (core : ℕ) (ok_s : s.kept ref0) : (State.markIssued s core).kept ref0 := by
  unfold State.markIssued
  repeat' (with_reducible first | assumption | apply State.modCore_kept)

theorem execTile_kept (i : Instr) (s : State) (ok_s : s.kept ref0) : OutOk ref0 (execTile i s) := by
  unfold execTile
  repeat' (with_reducible first
    | assumption | apply execTcfg_kept | apply execTrel_kept | apply execTld_kept | apply execTst_kept
    | apply execTzero_kept | apply execMma_kept | apply execAccld_kept | apply execAccst_kept
    | apply execAccz_kept | apply execAcccvt_kept | split | dsimp only [OutOk, OptOk, ExcOk])

theorem execTileAcceptance_kept (core : ℕ) (port : ℕ) (s : State)
    (ok_s : s.kept ref0) : OutOk ref0 (execTileAcceptance core port s) := by
  unfold execTileAcceptance
  repeat' (with_reducible first
    | assumption | apply execTile_kept | apply State.markIssued_kept | fail_if_no_progress apply mk_kept
    | (refine out_kept (by assumption) ?_) | split | dsimp only [OutOk, OptOk, ExcOk])

/-- What a port has for execution leaves a state that is kept. -/
def PrepOk (ref0 : State) : Prep → Prop
  | .wait s => s.kept ref0
  | .go _ s => s.kept ref0

theorem State.prepare_kept (s : State) (core port : Nat) (h : s.kept ref0) : PrepOk ref0 (s.prepare core port) := by
  have h' : ({ s with cur := { core := core, port := port } } : State).kept ref0 :=
    h.congr rfl rfl rfl rfl rfl rfl rfl rfl
  unfold State.prepare
  generalize ({ s with cur := { core := core, port := port } } : State) = u at h' ⊢
  have hc := fun g => State.commitDue_kept u g h'
  dsimp only
  repeat' first
    | exact h'
    | exact hc _
    | exact State.parkGroup_kept _ _ _ _ h'
    | exact State.badWordTrap_kept _ _ _ (hc _)
    | split

theorem State.presents_kept (s : State) (core port : Nat) (h : s.kept ref0) : PrepOk ref0 (s.presents core port) := by
  unfold State.presents
  split
  · exact h.congr rfl rfl rfl rfl rfl rfl rfl rfl
  · exact State.prepare_kept s core port h

/-! ### Machine/Clock.lean -/

theorem State.count_kept (s : State) (ok_s : s.kept ref0) : (State.count s).kept ref0 := by
  unfold State.count
  repeat' (with_reducible first
    | assumption | apply mkUpd_kept | apply wf_and | intro _ | (apply regs_id; with_unfolding_all assumption))

theorem State.flushLater_kept (s : State) (ok_s : s.kept ref0) : (State.flushLater s).kept ref0 := by
  unfold State.flushLater
  repeat' (with_reducible first | assumption | fail_if_no_progress apply mk_kept)

theorem State.tick_kept (s : State) (ok_s : s.kept ref0) : (State.tick s).kept ref0 := by
  unfold State.tick
  repeat' (with_reducible first
    | assumption | apply State.wakeGroups_kept | apply State.flushLater_kept | apply State.count_kept
    | apply foldl_kept | intro _ | split)

theorem State.sampleWord_kept (s : State) (op : ℕ) (word : ℕ)
    (ok_s : s.kept ref0) : (State.sampleWord s op word).kept ref0 := by
  unfold State.sampleWord
  repeat' (with_reducible first
    | assumption | apply State.sampleCopy_kept | apply State.samplePart_kept | apply State.sampleTile_kept
    | apply State.sampleBank_kept | split)

theorem State.evict_kept (s : State) (core : ℕ) (entry : ℕ) (ok_s : s.kept ref0) : (State.evict s core entry).kept ref0 := by
  unfold State.evict
  repeat' (with_reducible first | assumption | apply State.modCore_kept)

theorem State.patternTurn_kept (s : State) (core : ℕ) (ok_s : s.kept ref0) : (State.patternTurn s core).kept ref0 := by
  unfold State.patternTurn
  repeat' (with_reducible first | assumption | apply State.modCore_kept)

theorem State.hostWrite_kept (s : State) (addr : ℕ) (data : List Byte)
    (ok_s : s.kept ref0) : (State.hostWrite s addr data).kept ref0 := by
  unfold State.hostWrite
  repeat' (with_reducible first | assumption | apply State.kept.memWrite)

/-! ### Machine/CrossLane.lean -/

theorem cross_kept (s : State) (h : Head) (ops : List (Operand × ℕ)) (d : Operand) (f : Ctx → Thread → Option VecEff)
    (ok_s : s.kept ref0) : OutOk ref0 (cross s h ops d f) := by
  unfold cross
  repeat' (with_reducible first
    | assumption | apply run_kept | apply State.advance_kept | apply State.writeEff_kept | apply foldl_kept
    | intro _ | split)

theorem execXchg_kept (h : Head) (ty : Ty) (mode : XchgMode) (d : Operand) (a : Operand) (m : Operand) (s : State)
    (ok_s : s.kept ref0) : OutOk ref0 (execXchg h ty mode d a m s) := by
  unfold execXchg
  repeat' (with_reducible first | assumption | apply cross_kept)

theorem execXchgVl_kept (h : Head) (d : Operand) (a : Operand) (lit : Word) (s : State)
    (ok_s : s.kept ref0) : OutOk ref0 (execXchgVl h d a lit s) := by
  unfold execXchgVl
  repeat' (with_reducible first | assumption | apply cross_kept)

theorem execXperm_kept (h : Head) (ty : Ty) (d : Operand) (a : Operand) (e : Operand) (s : State)
    (ok_s : s.kept ref0) : OutOk ref0 (execXperm h ty d a e s) := by
  unfold execXperm
  repeat' (with_reducible first | assumption | apply cross_kept)

theorem execXpermVl_kept (h : Head) (d : Operand) (a : Operand) (lit : Word) (s : State)
    (ok_s : s.kept ref0) : OutOk ref0 (execXpermVl h d a lit s) := by
  unfold execXpermVl
  repeat' (with_reducible first | assumption | apply cross_kept)

theorem execXbcast_kept (h : Head) (ty : Ty) (d : Operand) (a : Operand) (q : Operand) (s : State)
    (ok_s : s.kept ref0) : OutOk ref0 (execXbcast h ty d a q s) := by
  unfold execXbcast
  repeat' (with_reducible first | assumption | apply cross_kept)

theorem execXbcastVl_kept (h : Head) (d : Operand) (a : Operand) (lit : Word) (s : State)
    (ok_s : s.kept ref0) : OutOk ref0 (execXbcastVl h d a lit s) := by
  unfold execXbcastVl
  repeat' (with_reducible first | assumption | apply cross_kept)

theorem execXred_kept (h : Head) (m : RedMods) (d : Operand) (a : Operand) (s : State)
    (ok_s : s.kept ref0) : OutOk ref0 (execXred h m d a s) := by
  unfold execXred
  repeat' (with_reducible first | assumption | apply cross_kept)

theorem execXscan_kept (h : Head) (m : RedMods) (d : Operand) (a : Operand) (f : Operand) (s : State)
    (ok_s : s.kept ref0) : OutOk ref0 (execXscan h m d a f s) := by
  unfold execXscan
  repeat' (with_reducible first | assumption | apply cross_kept)

theorem execXscanVl_kept (h : Head) (d : Operand) (a : Operand) (lit : Word) (s : State)
    (ok_s : s.kept ref0) : OutOk ref0 (execXscanVl h d a lit s) := by
  unfold execXscanVl
  repeat' (with_reducible first | assumption | apply cross_kept)

theorem execXballot_kept (h : Head) (count : Bool) (d : Operand) (a : Operand) (s : State)
    (ok_s : s.kept ref0) : OutOk ref0 (execXballot h count d a s) := by
  unfold execXballot
  repeat' (with_reducible first | assumption | apply cross_kept)

theorem execXmatch_kept (h : Head) (ty : Ty) (low : Bool) (d : Operand) (a : Operand) (s : State)
    (ok_s : s.kept ref0) : OutOk ref0 (execXmatch h ty low d a s) := by
  unfold execXmatch
  repeat' (with_reducible first | assumption | apply cross_kept)

theorem execXread_kept (h : Head) (d : Operand) (a : Operand) (q : Operand) (s : State)
    (ok_s : s.kept ref0) : OutOk ref0 (execXread h d a q s) := by
  unfold execXread
  repeat' (with_reducible first | assumption | apply cross_kept)

theorem execXreadVl_kept (h : Head) (d : Operand) (a : Operand) (lit : Word) (s : State)
    (ok_s : s.kept ref0) : OutOk ref0 (execXreadVl h d a lit s) := by
  unfold execXreadVl
  repeat' (with_reducible first | assumption | apply cross_kept)

theorem xwriteAll_kept (s : State) (c : Ctx) (h : Head) (d : Operand) (f : Thread → Word × ℕ)
    (ok_s : s.kept ref0) : (xwriteAll s c h d f).kept ref0 := by
  unfold xwriteAll
  repeat' (with_reducible first | assumption | apply State.writeEff_kept | apply foldl_kept | intro _ | split)

theorem execXwrite_kept (h : Head) (d : Operand) (b : Operand) (q : Operand) (s : State)
    (ok_s : s.kept ref0) : OutOk ref0 (execXwrite h d b q s) := by
  unfold execXwrite
  repeat' (with_reducible first
    | assumption | apply run_kept | apply State.advance_kept | apply xwriteAll_kept | intro _)

theorem execXwriteVl_kept (h : Head) (d : Operand) (b : Operand) (lit : Word) (s : State)
    (ok_s : s.kept ref0) : OutOk ref0 (execXwriteVl h d b lit s) := by
  unfold execXwriteVl
  repeat' (with_reducible first
    | assumption | apply run_kept | apply State.advance_kept | apply xwriteAll_kept | intro _)

/-! ### Machine/Predicates.lean -/

theorem execPlut_kept (h : Head) (lut : Byte) (pd : Fin 8) (pa : Fin 8) (pb : Fin 8) (pc : Fin 8) (s : State)
    (ok_s : s.kept ref0) : OutOk ref0 (execPlut h lut pd pa pb pc s) := by
  unfold execPlut
  repeat' (with_reducible first | assumption | apply vec_kept)

theorem execPmov_kept (h : Head) (d : Operand) (s : State) (ok_s : s.kept ref0) : OutOk ref0 (execPmov h d s) := by
  unfold execPmov
  repeat' (with_reducible first | assumption | apply vec_kept)

theorem execPmovW_kept (h : Head) (mask : BitVec 7) (a : Operand) (s : State)
    (ok_s : s.kept ref0) : OutOk ref0 (execPmovW h mask a s) := by
  unfold execPmovW
  repeat' (with_reducible first | assumption | apply vec_kept)

/-! ### Machine/Preempt.lean -/

theorem State.writeSlot_kept (s : State) (slot : ℕ) (ok_s : s.kept ref0) : (State.writeSlot s slot).kept ref0 := by
  unfold State.writeSlot
  repeat' (with_reducible first | assumption | apply State.kept.memWrite | fail_if_no_progress apply mk_kept)

theorem State.saveTeam_kept (s : State) (t : Team) (core : ℕ) (slot : ℕ)
    (ok_s : s.kept ref0) : (State.saveTeam s t core slot).kept ref0 := by
  unfold State.saveTeam
  repeat' (with_reducible first
    | assumption | apply State.performCore_kept | apply State.writeSlot_kept | apply State.kept.modTeam
    | apply State.modCore_kept | intro _ | (apply regs_id; with_unfolding_all assumption) | split
    | dsimp only [OutOk, OptOk, ExcOk])

theorem execTeamSave_kept (team : ℕ) (s : State) (ok_s : s.kept ref0) : OutOk ref0 (execTeamSave team s) := by
  unfold execTeamSave
  repeat' (with_reducible first
    | assumption | apply State.saveTeam_kept | split | dsimp only [OutOk, OptOk, ExcOk])

/-! ### Machine/Loader.lean -/

theorem State.withClause_kept (s : State) (w : DWord) (h_s : s.kept ref0) : (s.withClause w).kept ref0 :=
  have ht : TeamsOk [soleTeam s.nextId (s.nextId + 1)] := teamsOk_one _ rfl rfl ⟨BitVec.zero_and, BitVec.zero_and, fun
    b hb => by rw [List.eq_of_mem_replicate hb]; decide⟩
  ⟨fun h0 => have h := h_s.mem h0; ⟨Memory.writeBytes_wf _ _ _ h.main, h.dsm, h.sys, fun x hx => (ht.1 x hx).1, fun x
    hx => (ht.1 x hx).2⟩,
   fun h0 => have h := h_s.regs h0; ⟨h.trctl, h.resil, h.retry, h.nmwin, ht.2⟩⟩

end Sys2Proof.Machine
end

