-- ==== Sys2Proof/Laws/Tables.lean ====
section
/-! SUPPORT. Lookups after updates: threads, home groups, cores and teams under the named updates of the state. -/

namespace Sys2Proof.Machine

/-- A lookup after an update that keeps the key: the entry found before, updated. -/
theorem find?_updWhere {α : Type} (p q : α → Bool) (f : α → α) (l : List α) (hk : ∀ x, p (f x) = p x) :
    (updWhere q f l).find? p = (l.find? p).map (fun x => if q x then f x else x) := by
  induction l with
  | nil => rfl
  | cons x r ih =>
    have hx : p (if q x then f x else x) = p x := by split <;> simp [hk]
    have : updWhere q f (x :: r) = (if q x then f x else x) :: updWhere q f r := rfl
    rw [this, List.find?_cons, List.find?_cons, hx]
    split
    · rfl
    · exact ih

/-- A function that leaves the key of a thread. -/
def KeepsThread (f : Thread → Thread) : Prop := ∀ x, (f x).team = x.team ∧ (f x).tid = x.tid

/-- A function that leaves the key of a home group. -/
def KeepsHg (f : HomeGroup → HomeGroup) : Prop := ∀ x, (f x).team = x.team ∧ (f x).role = x.role ∧ (f x).idx = x.idx

theorem thread?_key {s : State} {team tid : Nat} {u : Thread} (h : s.thread? team tid = some u) :
    u.team = team ∧ u.tid = tid := by
  have := List.find?_some h
  simpa using this

theorem hg?_key {s : State} {team role idx : Nat} {g : HomeGroup} (h : s.hg? team role idx = some g) :
    g.team = team ∧ g.role = role ∧ g.idx = idx := by
  have := List.find?_some h
  simp only [Bool.and_eq_true, beq_iff_eq] at this
  exact ⟨this.1.1, this.1.2, this.2⟩

theorem thread?_updWhere (s : State) (q : Thread → Bool) (f : Thread → Thread) (hf : KeepsThread f) (team tid : Nat) :
    State.thread? { s with threads := updWhere q f s.threads } team tid =
      (s.thread? team tid).map (fun u => if q u then f u else u) := by
  unfold State.thread?
  exact find?_updWhere _ q f _ (fun x => by rw [(hf x).1, (hf x).2])

theorem hg?_updWhere (s : State) (q : HomeGroup → Bool) (f : HomeGroup → HomeGroup) (hf : KeepsHg f) (team role idx : Nat) :
    State.hg? { s with groups := updWhere q f s.groups } team role idx =
      (s.hg? team role idx).map (fun u => if q u then f u else u) := by
  unfold State.hg?
  exact find?_updWhere _ q f _ (fun x => by rw [(hf x).1, (hf x).2.1, (hf x).2.2])

/-- A thread after an update of one thread. -/
theorem thread?_modThread (s : State) (a b : Nat) (f : Thread → Thread) (hf : KeepsThread f) (team tid : Nat) :
    (s.modThread a b f).thread? team tid =
      (s.thread? team tid).map (fun u => if team = a ∧ tid = b then f u else u) := by
  unfold State.modThread
  rw [thread?_updWhere _ _ _ hf]
  cases h : s.thread? team tid with
  | none => rfl
  | some u =>
    obtain ⟨h1, h2⟩ := thread?_key h
    simp only [Option.map_some, h1, h2, Bool.and_eq_true, beq_iff_eq]

/-- A thread after an update of some threads of a team. -/
theorem thread?_modThreads (s : State) (a : Nat) (l : List Nat) (f : Thread → Thread) (hf : KeepsThread f) (team tid : Nat) :
    (s.modThreads a l f).thread? team tid =
      (s.thread? team tid).map (fun u => if team = a ∧ tid ∈ l then f u else u) := by
  unfold State.modThreads
  rw [thread?_updWhere _ _ _ hf]
  cases h : s.thread? team tid with
  | none => rfl
  | some u =>
    obtain ⟨h1, h2⟩ := thread?_key h
    simp only [Option.map_some, h1, h2, Bool.and_eq_true, beq_iff_eq, List.contains_iff_mem]

/-- A home group after an update of one. -/
theorem hg?_modHg (s : State) (a b d : Nat) (f : HomeGroup → HomeGroup) (hf : KeepsHg f) (team role idx : Nat) :
    (s.modHg a b d f).hg? team role idx =
      (s.hg? team role idx).map (fun u => if team = a ∧ role = b ∧ idx = d then f u else u) := by
  unfold State.modHg
  rw [hg?_updWhere _ _ _ hf]
  cases h : s.hg? team role idx with
  | none => rfl
  | some u =>
    obtain ⟨h1, h2, h3⟩ := hg?_key h
    simp only [Option.map_some, h1, h2, h3, Bool.and_eq_true, beq_iff_eq, and_assoc]

/-- A core after an update of one. -/
theorem core?_modCore (s : State) (a : Nat) (f : Core → Core) (hf : ∀ x, (f x).id = x.id) (c : Nat) :
    (s.modCore a f).core? c = (s.core? c).map (fun u => if c = a then f u else u) := by
  unfold State.modCore State.core?
  rw [show ({ s with cores := updWhere (fun k => k.id == a) f s.cores } : State).cores = updWhere (fun k => k.id == a) f s.cores from rfl,
    find?_updWhere _ _ _ _ (fun x => by rw [hf x])]
  cases h : s.cores.find? (fun k => k.id == c) with
  | none => rfl
  | some u =>
    have := List.find?_some h
    simp only [beq_iff_eq] at this
    simp only [Option.map_some, this, beq_iff_eq]

/-- A team after an update of one. -/
theorem team?_modTeam (s : State) (a : Nat) (f : Team → Team) (hf : ∀ x, (f x).key = x.key) (k : Nat) :
    (s.modTeam a f).team? k = (s.team? k).map (fun u => if k = a then f u else u) := by
  unfold State.modTeam State.team?
  rw [show ({ s with teams := updWhere (fun t => t.key == a) f s.teams } : State).teams = updWhere (fun t => t.key == a) f s.teams from rfl,
    find?_updWhere _ _ _ _ (fun x => by rw [hf x])]
  cases h : s.teams.find? (fun t => t.key == k) with
  | none => rfl
  | some u =>
    have := List.find?_some h
    simp only [beq_iff_eq] at this
    simp only [Option.map_some, this, beq_iff_eq]

/-! ### Registers -/

/-- The registers after `setRegs`: `ws` from `n` on where the file holds them, the others as before. -/
theorem Thread.setRegs_only (t : Thread) (n : Nat) (ws : List Word) :
    t.setRegs n ws = { t with v := (t.setRegs n ws).v } ∧ (t.setRegs n ws).v.length = t.v.length := by
  induction ws generalizing t n with
  | nil => exact ⟨rfl, rfl⟩
  | cons w r ih =>
    obtain ⟨h1, h2⟩ := ih { t with v := t.v.set n w } (n + 1)
    refine ⟨?_, by simpa [Thread.setRegs] using h2⟩
    show Thread.setRegs _ _ _ = _
    rw [show (t.setRegs n (w :: r)) = Thread.setRegs { t with v := t.v.set n w } (n + 1) r from rfl, h1]

theorem Thread.setRegs_reg (t : Thread) (n : Nat) (ws : List Word) (h : n + ws.length ≤ t.v.length) (k : Nat) :
    (t.setRegs n ws).reg k = if n ≤ k ∧ k < n + ws.length then ws.getD (k - n) 0#32 else t.reg k := by
  induction ws generalizing t n with
  | nil => simp [Thread.setRegs]
  | cons w r ih =>
    have hlen : n + 1 + r.length ≤ t.v.length := by simpa [Nat.add_assoc, Nat.add_comm, Nat.add_left_comm] using h
    rw [show (t.setRegs n (w :: r)) = Thread.setRegs { t with v := t.v.set n w } (n + 1) r from rfl, ih _ _ (by simpa using hlen)]
    by_cases h1 : n + 1 ≤ k ∧ k < n + 1 + r.length
    · rw [if_pos h1, if_pos (by simp; omega)]
      have : k - n = (k - (n + 1)) + 1 := by omega
      rw [this, List.getD_cons_succ]
    · rw [if_neg h1]
      by_cases h2 : k = n
      · subst h2
        rw [if_pos (by simp)]
        have hk : k < t.v.length := by omega
        simp [Thread.reg, List.getD_eq_getElem?_getD, hk]
      · rw [if_neg (by simp; omega)]
        simp only [Thread.reg, List.getD_eq_getElem?_getD]
        rw [List.getElem?_set_ne (fun e => h2 e.symm)]

theorem HomeGroup.setS_only (g : HomeGroup) (n : Nat) (ws : List Word) :
    g.setS n ws = { g with s := (g.setS n ws).s } ∧ (g.setS n ws).s.length = g.s.length := by
  induction ws generalizing g n with
  | nil => exact ⟨rfl, rfl⟩
  | cons w r ih =>
    obtain ⟨h1, h2⟩ := ih { g with s := g.s.set n w } (n + 1)
    refine ⟨?_, by simpa [HomeGroup.setS] using h2⟩
    rw [show (g.setS n (w :: r)) = HomeGroup.setS { g with s := g.s.set n w } (n + 1) r from rfl, h1]

theorem HomeGroup.setS_row (g : HomeGroup) (n : Nat) (ws : List Word) (h : n + ws.length ≤ g.s.length) (k : Nat) :
    (g.setS n ws).s.getD k 0#32 = if n ≤ k ∧ k < n + ws.length then ws.getD (k - n) 0#32 else g.s.getD k 0#32 := by
  induction ws generalizing g n with
  | nil => simp [HomeGroup.setS]
  | cons w r ih =>
    have hlen : n + 1 + r.length ≤ g.s.length := by simpa [Nat.add_assoc, Nat.add_comm, Nat.add_left_comm] using h
    rw [show (g.setS n (w :: r)) = HomeGroup.setS { g with s := g.s.set n w } (n + 1) r from rfl, ih _ _ (by simpa using hlen)]
    by_cases h1 : n + 1 ≤ k ∧ k < n + 1 + r.length
    · rw [if_pos h1, if_pos (by simp; omega)]
      have : k - n = (k - (n + 1)) + 1 := by omega
      rw [this, List.getD_cons_succ]
    · rw [if_neg h1]
      by_cases h2 : k = n
      · subst h2
        rw [if_pos (by simp)]
        have hk : k < g.s.length := by omega
        simp [List.getD_eq_getElem?_getD, hk]
      · rw [if_neg (by simp; omega)]
        simp only [List.getD_eq_getElem?_getD]
        rw [List.getElem?_set_ne (fun e => h2 e.symm)]

theorem HomeGroup.setS_row_other (g : HomeGroup) (n : Nat) (ws : List Word) (k : Nat) (h : ¬(n ≤ k ∧ k < n + ws.length)) :
    (g.setS n ws).s.getD k 0#32 = g.s.getD k 0#32 := by
  induction ws generalizing g n with
  | nil => rfl
  | cons w r ih =>
    rw [List.length_cons] at h
    rw [show (g.setS n (w :: r)) = HomeGroup.setS { g with s := g.s.set n w } (n + 1) r from rfl, ih _ _ (by omega)]
    simp only [List.getD_eq_getElem?_getD]
    rw [List.getElem?_set_ne (by omega)]

theorem Thread.setRegs_reg_other (t : Thread) (n : Nat) (ws : List Word) (k : Nat) (h : ¬(n ≤ k ∧ k < n + ws.length)) :
    (t.setRegs n ws).reg k = t.reg k := by
  induction ws generalizing t n with
  | nil => rfl
  | cons w r ih =>
    rw [List.length_cons] at h
    rw [show (t.setRegs n (w :: r)) = Thread.setRegs { t with v := t.v.set n w } (n + 1) r from rfl, ih _ _ (by omega)]
    simp only [Thread.reg, List.getD_eq_getElem?_getD]
    rw [List.getElem?_set_ne (by omega)]

/-- A predicate after a write; P7 takes none (R235). -/
theorem Thread.setPred_pred (t : Thread) (i j : Nat) (b : Bool) :
    (t.setPred i b).pred j = if j = i ∧ i < 7 then b else t.pred j := by
  unfold Thread.setPred
  by_cases hi : i < 7
  · rw [if_pos hi]
    simp only [Thread.pred, setBit8]
    by_cases hj : j < 8
    · have e : (BitVec.ofNat 8 (2 ^ i)).getLsbD j = decide (j = i) := by
        interval_cases i <;> interval_cases j <;> decide
      cases b
      · rw [if_neg (by simp), BitVec.getLsbD_and, BitVec.getLsbD_not, e]
        by_cases hji : j = i
        · subst hji; simp [hi]; omega
        · simp [hji, hj]
      · rw [if_pos rfl, BitVec.getLsbD_or, e]
        by_cases hji : j = i
        · subst hji; simp [hi]
        · simp [hji]
    · have hji : ¬ j = i := by omega
      rw [BitVec.getLsbD_of_ge _ _ (by omega), BitVec.getLsbD_of_ge _ _ (by omega)]; simp [hji]
  · rw [if_neg hi, if_neg (fun h => hi h.2)]

theorem Thread.setPred_only (t : Thread) (i : Nat) (b : Bool) : t.setPred i b = { t with p := (t.setPred i b).p } := by
  unfold Thread.setPred; split <;> rfl

end Sys2Proof.Machine
end

