-- ==== Sys2Proof/Laws/Vec.lean ====
section
/-! SUPPORT. What a register-writing instruction can do, said once: `vec_completes` and `cross_completes`. -/

namespace Sys2Proof.Machine

/-- A thread after one result of `VecEff` has been written to it: its registers and predicates. -/
def Thread.take (u : Thread) (d : Operand) (e : VecEff) : Thread :=
  e.preds.foldl (fun t p => t.setPred p.1 p.2)
    (match d with
      | .v n => u.setRegs n.val e.words
      | _ => u)

theorem foldl_setPred_only (ps : List (Nat × Bool)) (u : Thread) :
    ps.foldl (fun t p => t.setPred p.1 p.2) u = { u with p := (ps.foldl (fun t p => t.setPred p.1 p.2) u).p } := by
  induction ps generalizing u with
  | nil => rfl
  | cons q r ih =>
    rw [List.foldl_cons, ih]
    rw [Thread.setPred_only u]

theorem foldl_setPred_pred_ne (ps : List (Nat × Bool)) (u : Thread) (i : Nat) (h : ∀ q ∈ ps, q.1 ≠ i) :
    (ps.foldl (fun t p => t.setPred p.1 p.2) u).pred i = u.pred i := by
  induction ps generalizing u with
  | nil => rfl
  | cons q r ih =>
    rw [List.foldl_cons, ih _ (fun x hx => h x (List.mem_cons_of_mem _ hx)), Thread.setPred_pred,
      if_neg (fun e => h q (List.mem_cons_self) e.1.symm)]

theorem foldl_setPred_pred (ps : List (Nat × Bool)) (u : Thread) (hn : (ps.map (·.1)).Nodup) (q : Nat × Bool) (hq : q ∈ ps)
    (h7 : q.1 < 7) : (ps.foldl (fun t p => t.setPred p.1 p.2) u).pred q.1 = q.2 := by
  induction ps generalizing u with
  | nil => cases hq
  | cons x r ih =>
    rw [List.map_cons, List.nodup_cons] at hn
    rw [List.foldl_cons]
    rcases List.mem_cons.1 hq with rfl | hr
    · rw [foldl_setPred_pred_ne _ _ _ (fun y hy e => hn.1 (List.mem_map.2 ⟨y, hy, e⟩)), Thread.setPred_pred, if_pos ⟨rfl, h7⟩]
    · exact ih _ hn.2 hr

theorem Thread.take_only (u : Thread) (d : Operand) (e : VecEff) :
    u.take d e = { u with v := (u.take d e).v, p := (u.take d e).p } ∧ (u.take d e).v.length = u.v.length := by
  unfold Thread.take
  rw [foldl_setPred_only]
  cases d <;> first | exact ⟨rfl, rfl⟩ | skip
  next n =>
    obtain ⟨h1, h2⟩ := Thread.setRegs_only u n.val e.words
    refine ⟨?_, h2⟩
    dsimp only
    rw [h1]

theorem Thread.take_reg (u : Thread) (n : Fin 255) (e : VecEff) (k : Nat) (hl : n.val + e.words.length ≤ u.v.length)
    (h : n.val ≤ k ∧ k < n.val + e.words.length) : (u.take (.v n) e).reg k = e.words.getD (k - n.val) 0#32 := by
  unfold Thread.take
  rw [foldl_setPred_only]
  have := Thread.setRegs_reg u n.val e.words hl k
  rw [if_pos h] at this
  exact this

theorem Thread.take_reg_other (u : Thread) (d : Operand) (e : VecEff) (k : Nat)
    (h : ¬ Operand.coversV d e.words.length k) : (u.take d e).reg k = u.reg k := by
  unfold Thread.take
  rw [foldl_setPred_only]
  cases d <;> first | rfl | skip
  next n => exact Thread.setRegs_reg_other u n.val e.words k (fun hh => h ⟨n, rfl, hh.1, hh.2⟩)

theorem Thread.take_pred_ne (u : Thread) (d : Operand) (e : VecEff) (i : Nat) (h : ∀ q ∈ e.preds, q.1 ≠ i) :
    (u.take d e).pred i = u.pred i := by
  unfold Thread.take
  rw [foldl_setPred_pred_ne _ _ _ h]
  cases d <;> first | rfl | skip
  next n => dsimp only; rw [(Thread.setRegs_only u n.val e.words).1]; rfl

theorem Thread.take_pred (u : Thread) (d : Operand) (e : VecEff) (hn : (e.preds.map (·.1)).Nodup) (q : Nat × Bool)
    (hq : q ∈ e.preds) (h7 : q.1 < 7) : (u.take d e).pred q.1 = q.2 :=
  foldl_setPred_pred _ _ hn q hq h7

theorem keeps_take (d : Operand) (e : VecEff) : KeepsThread (fun u => u.take d e) := by
  intro x; dsimp only; rw [(Thread.take_only x d e).1]; exact ⟨rfl, rfl⟩

/-- What one result written leaves: only threads and groups change. -/
theorem writeEff_only (s : State) (p : Thread) (d : Operand) (e : VecEff) :
    s.writeEff p d e = { s with threads := (s.writeEff p d e).threads, groups := (s.writeEff p d e).groups } := by
  unfold State.writeEff
  cases d <;> (dsimp only [Operand.dest?, State.writeDest]; split <;> rfl)

theorem thread?_writeEff (s : State) (p : Thread) (d : Operand) (e : VecEff) (team tid : Nat) :
    (s.writeEff p d e).thread? team tid =
      (s.thread? team tid).map (fun u => if team = p.team ∧ tid = p.tid then u.take d e else u) := by
  have kS : ∀ n, KeepsThread (fun u => u.setRegs n e.words) := fun n x => by
    dsimp only; rw [(Thread.setRegs_only x n e.words).1]; exact ⟨rfl, rfl⟩
  have kP : KeepsThread (fun u => e.preds.foldl (fun t p => t.setPred p.1 p.2) u) := fun x => by
    dsimp only; rw [foldl_setPred_only]; exact ⟨rfl, rfl⟩
  unfold State.writeEff Thread.take
  cases hp : e.preds with
  | nil =>
    cases d with
    | v n => dsimp only [Operand.dest?, State.writeDest]; rw [thread?_modThread _ _ _ _ (kS n.val)]; rfl
    | _ => change s.thread? team tid = _; cases s.thread? team tid <;> simp
  | cons q r =>
    rw [hp] at kP
    cases d with
    | v n =>
      dsimp only [Operand.dest?, State.writeDest]
      rw [thread?_modThread _ _ _ _ kP, thread?_modThread _ _ _ _ (kS n.val), Option.map_map]
      congr 1; funext u; simp only [Function.comp]; split <;> rfl
    | s n =>
      dsimp only [Operand.dest?, State.writeDest]; rw [thread?_modThread _ _ _ _ kP]; rfl
    | _ => dsimp only [Operand.dest?, State.writeDest]; rw [thread?_modThread _ _ _ _ kP]

theorem hg?_writeEff (s : State) (p : Thread) (d : Operand) (e : VecEff) (team role idx : Nat) :
    (s.writeEff p d e).hg? team role idx =
      (s.hg? team role idx).map (fun g => match d with
        | .s n => if team = p.team ∧ role = p.role ∧ idx = p.hg then g.setS n.val e.words else g
        | _ => g) := by
  have kS : ∀ n, KeepsHg (fun g => g.setS n e.words) := fun n x => by
    dsimp only; rw [(HomeGroup.setS_only x n e.words).1]; exact ⟨rfl, rfl, rfl⟩
  unfold State.writeEff
  cases hp : e.preds with
  | nil =>
    cases d with
    | s n => dsimp only [Operand.dest?, State.writeDest]; rw [hg?_modHg _ _ _ _ _ (kS n.val)]
    | _ => change s.hg? team role idx = _; cases s.hg? team role idx <;> rfl
  | cons q r =>
    cases d with
    | s n =>
      dsimp only [Operand.dest?, State.writeDest]
      exact hg?_modHg _ _ _ _ _ (kS n.val) _ _ _
    | _ => change s.hg? team role idx = _; cases s.hg? team role idx <;> rfl

/-- A fold of writes, each to its own participant. -/
def writeAll (s : State) (d : Operand) (ps : List Thread) (e : Thread → VecEff) : State :=
  ps.foldl (fun s t => s.writeEff t d (e t)) s

theorem writeAll_only (s : State) (d : Operand) (ps : List Thread) (e : Thread → VecEff) :
    writeAll s d ps e = { s with threads := (writeAll s d ps e).threads, groups := (writeAll s d ps e).groups } := by
  unfold writeAll
  induction ps generalizing s with
  | nil => rfl
  | cons p r ih =>
    rw [List.foldl_cons, ih, writeEff_only s p d (e p)]

/-- A thread after a fold of writes of which none is to it. -/
theorem thread?_writeAll_none (s : State) (d : Operand) (ps : List Thread) (e : Thread → VecEff) (team tid : Nat)
    (h : ∀ p ∈ ps, ¬(p.team = team ∧ p.tid = tid)) : (writeAll s d ps e).thread? team tid = s.thread? team tid := by
  unfold writeAll
  induction ps generalizing s with
  | nil => rfl
  | cons p r ih =>
    rw [List.foldl_cons, ih _ (fun q hq => h q (List.mem_cons_of_mem _ hq)), thread?_writeEff]
    have := h p List.mem_cons_self
    cases s.thread? team tid with
    | none => rfl
    | some u => simp only [Option.map_some]; rw [if_neg (fun hh => this ⟨hh.1.symm, hh.2.symm⟩)]

/-- A thread after a fold of writes with distinct receivers, of which one is it. -/
theorem thread?_writeAll (s : State) (d : Operand) (ps : List Thread) (e : Thread → VecEff)
    (hn : (ps.map (fun p => (p.team, p.tid))).Nodup) (p : Thread) (hp : p ∈ ps) :
    (writeAll s d ps e).thread? p.team p.tid = (s.thread? p.team p.tid).map (fun u => u.take d (e p)) := by
  induction ps generalizing s with
  | nil => cases hp
  | cons q r ih =>
    rw [List.map_cons, List.nodup_cons] at hn
    show (writeAll (s.writeEff q d (e q)) d r e).thread? p.team p.tid = _
    rcases List.mem_cons.1 hp with rfl | hr
    · rw [thread?_writeAll_none _ _ _ _ _ _ (fun y hy hh => hn.1 (List.mem_map.2 ⟨y, hy, by rw [hh.1, hh.2]⟩)),
        thread?_writeEff]
      simp
    · rw [ih _ hn.2 hr, thread?_writeEff]
      have : ¬(p.team = q.team ∧ p.tid = q.tid) := fun hh => hn.1 (List.mem_map.2 ⟨p, hr, by rw [hh.1, hh.2]⟩)
      cases s.thread? p.team p.tid with
      | none => rfl
      | some u => simp only [Option.map_some]; rw [if_neg this]

/-- A home group after a fold of writes to S rows that all write the same words. -/
theorem hg?_writeAll (s : State) (d : Operand) (ps : List Thread) (e : Thread → VecEff) (ws : List Word)
    (he : ∀ n, d = .s n → ∀ p ∈ ps, (e p).words = ws) (team role idx : Nat) (g : HomeGroup)
    (hg : s.hg? team role idx = some g) :
    ∃ g', (writeAll s d ps e).hg? team role idx = some g' ∧ g' = { g with s := g'.s } ∧ g'.s.length = g.s.length ∧
      (∀ k, ¬((∃ p ∈ ps, p.team = team ∧ p.role = role ∧ p.hg = idx) ∧ Operand.coversS d ws.length k) →
        g'.s.getD k 0#32 = g.s.getD k 0#32) ∧
      (∀ n, d = .s n → n.val + ws.length ≤ g.s.length → (∃ p ∈ ps, p.team = team ∧ p.role = role ∧ p.hg = idx) →
        holdsWords (fun i => g'.s.getD i 0#32) n.val ws) := by
  induction ps generalizing s g with
  | nil => exact ⟨g, hg, rfl, rfl, fun _ _ => rfl, fun _ _ _ h => by obtain ⟨p, hp, _⟩ := h; cases hp⟩
  | cons q r ih =>
    have h1 := hg?_writeEff s q d (e q) team role idx
    rw [hg] at h1
    obtain ⟨g', a1, a2, a3, a4, a5⟩ := ih (s.writeEff q d (e q)) (fun n hn p hp => he n hn p (List.mem_cons_of_mem _ hp)) _ h1
    refine ⟨g', a1, ?_, ?_, ?_, ?_⟩
    · rw [a2]
      split
      · split
        · dsimp only; rw [(HomeGroup.setS_only g _ _).1]
        · rfl
      · rfl
    · rw [a3]
      split
      · split
        · exact (HomeGroup.setS_only _ _ _).2
        · rfl
      · rfl
    · intro k hk
      rw [a4 k (fun hh => hk ⟨by obtain ⟨p, hp, hh'⟩ := hh.1; exact ⟨p, List.mem_cons_of_mem _ hp, hh'⟩, hh.2⟩)]
      split
      next n =>
        split
        next hq =>
          rw [he n rfl q List.mem_cons_self]
          exact HomeGroup.setS_row_other _ _ _ _ (fun hh => hk ⟨⟨q, List.mem_cons_self, hq.1.symm, hq.2.1.symm, hq.2.2.symm⟩, n, rfl, hh.1, hh.2⟩)
        next => rfl
      next => rfl
    · intro n hn hlen hex
      subst hn
      by_cases hr : ∃ p ∈ r, p.team = team ∧ p.role = role ∧ p.hg = idx
      · refine a5 n rfl ?_ hr
        dsimp only
        split
        · rw [(HomeGroup.setS_only _ _ _).2]; exact hlen
        · exact hlen
      · have hq : q.team = team ∧ q.role = role ∧ q.hg = idx := by
          obtain ⟨p, hp, hh⟩ := hex
          rcases List.mem_cons.1 hp with rfl | hp
          · exact hh
          · exact absurd ⟨p, hp, hh⟩ hr
        intro i hi
        dsimp only
        rw [a4 _ (fun hh => hr hh.1)]
        dsimp only
        rw [if_pos ⟨hq.1.symm, hq.2.1.symm, hq.2.2.symm⟩, he n rfl q List.mem_cons_self, HomeGroup.setS_row _ _ _ hlen,
          if_pos ⟨by omega, by omega⟩]
        congr 1; omega

/-! ### The group moves on -/

/-- What moving on does to a member: a slot further, or out of the clause. -/
def Thread.movedOn (u : Thread) (g : Group) (port clk : Nat) : Thread :=
  let t : Thread := { u with pend := u.pend.map (fun p => { p with left := p.left - 1 }), noWatch := false }
  if decide (g.slot + 1 ≥ hdrWords g.hdr) then
    let t := t.fallThrough clk
    if g.hdr.getLsbD 52 then (if port = 0 then { t with yield0 := true } else { t with yield1 := true }) else t
  else { t with pc := t.pc + 8#57 }

theorem Thread.fallThrough_only (t : Thread) (clk : Nat) :
    t.fallThrough clk = { t with pc := (t.fallThrough clk).pc, clause := (t.fallThrough clk).clause, status := (t.fallThrough clk).status, since := (t.fallThrough clk).since } := by
  unfold Thread.fallThrough; split <;> rfl

theorem Thread.movedOn_only (u : Thread) (g : Group) (port clk : Nat) :
    u.movedOn g port clk = { u with
      pc := (u.movedOn g port clk).pc, clause := (u.movedOn g port clk).clause, status := (u.movedOn g port clk).status,
      since := (u.movedOn g port clk).since, yield0 := (u.movedOn g port clk).yield0, yield1 := (u.movedOn g port clk).yield1,
      pend := (u.movedOn g port clk).pend, noWatch := (u.movedOn g port clk).noWatch } := by
  unfold Thread.movedOn
  dsimp only
  split
  · rw [Thread.fallThrough_only]
    split
    · split <;> rfl
    · rfl
  · rfl

/-- The group that the current port holds. -/
theorem ctx?_group {s : State} {c : Ctx} (h : s.ctx? = some c) :
    (s.core? s.cur.core).bind (fun k => (k.port s.cur.port).group) = some c.grp ∧ c.core = s.cur.core ∧ c.port = s.cur.port ∧ c.clk = s.clk := by
  unfold State.ctx? at h
  split at h
  · cases h
  next g hg =>
    split at h
    · cases h
    · split at h
      · cases h
      · cases h; exact ⟨hg, rfl, rfl, rfl⟩

/-- Moving on (R27, R74): the members move, the port holds the next slot or is free, and nothing else changes. -/
theorem advance_spec (s : State) (g : Group) (hg : (s.core? s.cur.core).bind (fun k => (k.port s.cur.port).group) = some g) :
    (∀ team tid, s.advance.thread? team tid =
      (s.thread? team tid).map (fun u => if team = g.team ∧ tid ∈ g.members then u.movedOn g s.cur.port s.clk else u)) ∧
    s.advance = { s with threads := s.advance.threads, cores := s.advance.cores } ∧
    (∀ k, s.advance.core? k = (s.core? k).map (fun x => if k = s.cur.core then
      x.setPort s.cur.port (if g.slot + 1 ≥ hdrWords g.hdr then .free else { group := some { g with slot := g.slot + 1 }, tile := none, stripe := [] })
      else x)) := by
  have hk : KeepsThread (fun u => u.movedOn g s.cur.port s.clk) := fun x => by
    dsimp only; rw [Thread.movedOn_only]; exact ⟨rfl, rfl⟩
  have e : s.advance = (s.modThreads g.team g.members (fun u => u.movedOn g s.cur.port s.clk)).modCore s.cur.core (fun x =>
      x.setPort s.cur.port (if g.slot + 1 ≥ hdrWords g.hdr then .free else { group := some { g with slot := g.slot + 1 }, tile := none, stripe := [] })) := by
    unfold State.advance
    rw [hg]
    dsimp only
    congr 1
    funext x
    by_cases h : g.slot + 1 ≥ hdrWords g.hdr
    · simp only [h, decide_true, if_true]
    · simp only [h, decide_false, Bool.false_eq_true, if_false]
  refine ⟨fun team tid => ?_, by rw [e]; rfl, fun k => ?_⟩
  · rw [e]
    exact thread?_modThreads s g.team g.members _ hk team tid
  · rw [e]
    refine (core?_modCore _ _ _ (fun x => ?_) k)
    unfold Core.setPort; split <;> rfl

/-! ### Completion -/

theorem ths_key {s : State} {c : Ctx} (h : s.ctx? = some c) {p : Thread} (hp : p ∈ c.ths) :
    p.team = c.grp.team ∧ p.tid ∈ c.grp.members := by
  unfold State.ctx? at h
  split at h
  · cases h
  next g hg =>
    split at h
    · cases h
    · split at h
      · cases h
      · cases h
        obtain ⟨i, hi, hf⟩ := List.mem_filterMap.1 hp
        have := thread?_key hf
        exact ⟨this.1, this.2 ▸ hi⟩

theorem ths_nodup {s : State} {c : Ctx} (h : s.ctx? = some c) (hn : c.grp.members.Nodup) :
    (c.ths.map (fun p => (p.team, p.tid))).Nodup := by
  unfold State.ctx? at h
  split at h
  · cases h
  next g hg =>
    split at h
    · cases h
    · split at h
      · cases h
      · cases h
        dsimp only at hn ⊢
        generalize s.seen = v
        generalize g.members = ms at hn
        induction ms with
        | nil => exact List.nodup_nil
        | cons i r ih =>
          rw [List.nodup_cons] at hn
          rw [List.filterMap_cons]
          split
          · exact ih hn.2
          next u hu =>
            rw [List.map_cons, List.nodup_cons]
            refine ⟨fun hm => ?_, ih hn.2⟩
            obtain ⟨y, hy, hyk⟩ := List.mem_map.1 hm
            obtain ⟨j, hj, hf⟩ := List.mem_filterMap.1 hy
            have h1 := thread?_key hf
            have h2 := thread?_key hu
            have : j = i := by
              have := (Prod.mk.injEq _ _ _ _).mp hyk
              rw [← h1.2, this.2, h2.2]
            exact hn.1 (this ▸ hj)

theorem Seated.parts_nodup {s : State} {c : Ctx} (hs : Seated s c) (h : Head) :
    ((c.parts h).map (fun p => (p.team, p.tid))).Nodup :=
  (ths_nodup hs.ctx hs.nodup).sublist ((List.filter_sublist).map _)

theorem parts_ths {c : Ctx} {h : Head} {p : Thread} (hp : p ∈ c.parts h) : p ∈ c.ths := (List.mem_filter.1 hp).1

theorem source_parts {c : Ctx} {h : Head} {p : Thread} (hp : p ∈ c.parts h) : c.source h p ∈ c.parts h := by
  unfold Ctx.source
  split
  · cases hc : c.parts h with
    | nil => rw [hc] at hp; cases hp
    | cons x r => exact List.mem_cons_self
  · exact hp

/-- Results written to all participants, after which the group moves on. -/
theorem writeAll_done {s : State} {c : Ctx} {h : Head} {d : Operand} {w : Nat} {pds : List Nat} (e : Thread → VecEff)
    (hs : Seated s c) (hd : ∀ n, d = .v n → n.val + w ≤ c.role.regs) (hS : ∀ n, d = .s n → n.val + w ≤ 64 ∧ h.u = true)
    (hw : ∀ p ∈ c.parts h, (e p).words.length ≤ w) (hpd : ∀ p ∈ c.parts h, ∀ q ∈ (e p).preds, q.1 ∈ pds)
    (hn : ∀ p ∈ c.parts h, ((e p).preds.map (·.1)).Nodup) :
    VecDone s c h d w pds e (writeAll s d (c.parts h) (fun p => e (c.source h p))).advance := by
  obtain ⟨hgrp, hcore, hport, hclk⟩ := ctx?_group hs.ctx
  set s1 := writeAll s d (c.parts h) (fun p => e (c.source h p)) with hs1
  have only := writeAll_only s d (c.parts h) (fun p => e (c.source h p))
  rw [← hs1] at only
  have hgrp1 : (s1.core? s1.cur.core).bind (fun k => (k.port s1.cur.port).group) = some c.grp := by rw [only]; exact hgrp
  obtain ⟨at_, ao, ac⟩ := advance_spec s1 c.grp hgrp1
  have move_reg : ∀ (u : Thread) n, (u.movedOn c.grp s1.cur.port s1.clk).reg n = u.reg n := fun u n => by
    rw [Thread.movedOn_only]; rfl
  have move_pred : ∀ (u : Thread) n, (u.movedOn c.grp s1.cur.port s1.clk).pred n = u.pred n := fun u n => by
    rw [Thread.movedOn_only]; rfl
  have kP : ∀ p ∈ c.parts h, s1.thread? p.team p.tid = (s.thread? p.team p.tid).map (fun u => u.take d (e (c.source h p))) :=
    fun p hp => thread?_writeAll s d _ _ (hs.parts_nodup h) p hp
  have advP : ∀ p ∈ c.parts h, ∀ u, s1.thread? p.team p.tid = some u →
      s1.advance.thread? p.team p.tid = some (u.movedOn c.grp s1.cur.port s1.clk) := fun p hp u hu => by
    obtain ⟨k1, k2⟩ := ths_key hs.ctx (parts_ths hp)
    rw [at_, hu, Option.map_some, if_pos ⟨k1, k2⟩]
  have takeLen : ∀ p ∈ c.parts h, ∀ u, s.thread? p.team p.tid = some u →
      ∀ n, d = .v n → n.val + (e (c.source h p)).words.length ≤ u.v.length := fun p hp u hu n hdn => by
    obtain ⟨u0, hu0, hl, _⟩ := hs.reg p (parts_ths hp)
    rw [hu0] at hu; cases hu
    have := hd n hdn
    have := hw _ (source_parts hp)
    omega
  have preserved : ∀ team tid u, s.thread? team tid = some u → ∃ u1, s1.thread? team tid = some u1 ∧
      u1 = { u with v := u1.v, p := u1.p } ∧
      (∀ n, ¬((∃ p ∈ c.parts h, p.team = team ∧ p.tid = tid) ∧ Operand.coversV d w n) → u1.reg n = u.reg n) ∧
      (∀ i, ¬((∃ p ∈ c.parts h, p.team = team ∧ p.tid = tid) ∧ i ∈ pds) → u1.pred i = u.pred i) := by
    intro team tid u hu
    by_cases hex : ∃ p ∈ c.parts h, p.team = team ∧ p.tid = tid
    · obtain ⟨p, hp, rfl, rfl⟩ := hex
      refine ⟨u.take d (e (c.source h p)), by rw [kP p hp, hu]; rfl, (Thread.take_only _ _ _).1, fun n hn' => ?_, fun i hi => ?_⟩
      · refine Thread.take_reg_other _ _ _ _ (fun hh => hn' ⟨⟨p, hp, rfl, rfl⟩, ?_⟩)
        obtain ⟨k, e1, e2, e3⟩ := hh
        have := hw _ (source_parts hp)
        exact ⟨k, e1, e2, by omega⟩
      · refine Thread.take_pred_ne _ _ _ _ (fun q hq hqi => hi ⟨⟨p, hp, rfl, rfl⟩, ?_⟩)
        exact hqi ▸ hpd _ (source_parts hp) q hq
    · refine ⟨u, ?_, rfl, fun _ _ => rfl, fun _ _ => rfl⟩
      rw [hs1, thread?_writeAll_none _ _ _ _ _ _ (fun p hp hh => hex ⟨p, hp, hh⟩), hu]
  have row : ∀ team role idx g, s.hg? team role idx = some g → ∀ ws, (∀ n, d = .s n → ∀ p ∈ c.parts h, (e (c.source h p)).words = ws) →
      ∃ g', s1.hg? team role idx = some g' ∧ g' = { g with s := g'.s } ∧ g'.s.length = g.s.length ∧
      (∀ k, ¬((∃ p ∈ c.parts h, p.team = team ∧ p.role = role ∧ p.hg = idx) ∧ Operand.coversS d ws.length k) →
        g'.s.getD k 0#32 = g.s.getD k 0#32) ∧
      (∀ n, d = .s n → n.val + ws.length ≤ g.s.length → (∃ p ∈ c.parts h, p.team = team ∧ p.role = role ∧ p.hg = idx) →
        holdsWords (fun i => g'.s.getD i 0#32) n.val ws) := fun team role idx g hg ws hws =>
    hg?_writeAll s d (c.parts h) _ ws hws team role idx g hg
  have lead : ∀ n, d = .s n → ∀ p ∈ c.parts h, ∀ q ∈ c.parts h, c.source h p = c.source h q := by
    intro n hdn p hp q hq
    have hu := (hS n hdn).2
    unfold Ctx.source
    rw [if_pos hu, if_pos hu]
    cases hc : c.parts h with
    | nil => rw [hc] at hp; cases hp
    | cons => rfl
  have advHg : ∀ team role idx, s1.advance.hg? team role idx = s1.hg? team role idx := fun _ _ _ => by rw [ao]; rfl
  refine ⟨?_, ?_, ?_, ?_, ?_, ?_, ?_, ?_⟩
  · intro n hdn p hp
    obtain ⟨u, hu, hl, _⟩ := hs.reg p (parts_ths hp)
    have h1 := kP p hp
    rw [hu, Option.map_some] at h1
    refine ⟨_, advP p hp _ h1, fun i hi => ?_⟩
    rw [move_reg, hdn, Thread.take_reg _ _ _ _ (takeLen p hp u hu n hdn) ⟨by omega, by omega⟩]
    congr 1; omega
  · intro n hdn p hp
    obtain ⟨g, hg, hl⟩ := hs.row p (parts_ths hp)
    obtain ⟨g', b1, b2, b3, b4, b5⟩ := row _ _ _ g hg (e (c.source h p)).words (fun m hm q hq => by rw [lead m hm q hq p hp])
    refine ⟨g', by rw [advHg]; exact b1, b5 n hdn ?_ ⟨p, hp, rfl, rfl, rfl⟩⟩
    have := (hS n hdn).1
    have := hw _ (source_parts hp)
    omega
  · intro p hp
    obtain ⟨u, hu, hl, _⟩ := hs.reg p (parts_ths hp)
    have h1 := kP p hp
    rw [hu, Option.map_some] at h1
    refine ⟨_, advP p hp _ h1, fun q hq h7 => ?_⟩
    rw [move_pred]
    exact Thread.take_pred _ _ _ (hn _ (source_parts hp)) q hq h7
  · rw [ao, only]
  · intro team tid hno
    rw [at_, hs1, thread?_writeAll_none _ _ _ _ _ _ (fun p hp hh => hno (by
      obtain ⟨k1, k2⟩ := ths_key hs.ctx (parts_ths hp)
      exact ⟨hh.1 ▸ k1, hh.2 ▸ k2⟩))]
    cases s.thread? team tid with
    | none => rfl
    | some u => rw [Option.map_some, if_neg hno]
  · intro team tid u hu
    obtain ⟨u1, h1, h2, h3, h4⟩ := preserved team tid u hu
    refine ⟨if team = c.grp.team ∧ tid ∈ c.grp.members then u1.movedOn c.grp s1.cur.port s1.clk else u1,
      by rw [at_, h1]; rfl, ?_, fun n hn' => ?_, fun i hi => ?_⟩
    · unfold Thread.sameBut
      split
      · rw [Thread.movedOn_only, h2]
      · rw [h2]
    · split
      · rw [move_reg]; exact h3 n hn'
      · exact h3 n hn'
    · split
      · rw [move_pred]; exact h4 i hi
      · exact h4 i hi
  · intro team role idx g hg
    by_cases hp : ∃ p, p ∈ c.parts h
    · obtain ⟨p, hp⟩ := hp
      obtain ⟨g', b1, b2, b3, b4, b5⟩ := row _ _ _ g hg (e (c.source h p)).words (fun m hm q hq => by rw [lead m hm q hq p hp])
      refine ⟨g', by rw [advHg]; exact b1, b2, fun n hn' => b4 n (fun hh => hn' ⟨hh.1, ?_⟩)⟩
      obtain ⟨k, e1, e2, e3⟩ := hh.2
      have := hw _ (source_parts hp)
      exact ⟨k, e1, e2, by omega⟩
    · obtain ⟨g', b1, b2, b3, b4, b5⟩ := row _ _ _ g hg [] (fun m hm q hq => absurd ⟨q, hq⟩ hp)
      exact ⟨g', by rw [advHg]; exact b1, b2, fun n _ => b4 n (fun hh => hp (by obtain ⟨q, hq, _⟩ := hh.1; exact ⟨q, hq⟩))⟩
  · intro k x hx
    have hx1 : s1.core? k = some x := by rw [only]; exact hx
    have hcur : s1.cur = s.cur := by rw [only]
    generalize hq : (if c.grp.slot + 1 ≥ hdrWords c.grp.hdr then Port.free
      else { group := some { c.grp with slot := c.grp.slot + 1 }, tile := none, stripe := [] }) = q at ac
    refine ⟨if k = s.cur.core then x.setPort s.cur.port q else x, by rw [ac, hx1, hcur]; rfl, fun hk => if_neg hk, ?_, fun h0 => ?_, fun h0 => ?_⟩
    · split
      · unfold Core.setPort; split <;> rfl
      · rfl
    · split
      · unfold Core.setPort; rw [if_pos h0]
      · rfl
    · split
      · unfold Core.setPort; rw [if_neg h0]
      · rfl

theorem vecWrites_writeAll (c : Ctx) (s : State) (h : Head) (d : Operand) (f : Thread → VecEff) :
    c.vecWrites s h d f = writeAll s d (c.parts h) (fun p => f (c.source h p)) := by
  unfold Ctx.vecWrites writeAll Ctx.source
  cases hc : c.parts h with
  | nil => rfl
  | cons x r => rfl

theorem run_spec {s : State} {c : Ctx} (hs : s.ctx? = some c) {ops : List (Operand × Nat)} (hf : c.fits ops) (k : Ctx → State) :
    run s ops k = .next (k c) := by
  unfold run
  rw [hs]
  have : ops.all (fun o => Operand.fits o.1 c.role.regs o.2) = true := List.all_eq_true.2 hf
  dsimp only
  rw [this]; rfl

/-- What every instruction of the form `vec` does (R97 to R99). -/
theorem vec_completes {s : State} {c : Ctx} {h : Head} {ops : List (Operand × Nat)} {d : Operand} {f : Ctx → Thread → VecEff}
    {i : Instr} (w : Nat) (pds : List Nat) {P : Thread → VecEff → Prop} (hs : Seated s c) (hi : exec i s = vec s h ops d f) (hf : c.fits ops)
    (hd : ∀ n, d = .v n → (d, w) ∈ ops) (hS : ∀ n, d = .s n → n.val + w ≤ 64 ∧ h.u = true)
    (hP : ∀ p ∈ c.parts h, P p (f c p) ∧ (f c p).words.length ≤ w ∧ (∀ q ∈ (f c p).preds, q.1 ∈ pds))
    (hn : ∀ p ∈ c.parts h, ((f c p).preds.map (·.1)).Nodup) : Completes i s c h d w pds P := by
  refine ⟨_, f c, by rw [hi]; exact run_spec hs.ctx hf _, hP, ?_⟩
  rw [vecWrites_writeAll]
  refine writeAll_done (f c) hs (fun n hdn => ?_) hS (fun p hp => (hP p hp).2.1) (fun p hp => (hP p hp).2.2) hn
  have := hf _ (hd n hdn)
  rw [hdn] at this
  exact of_decide_eq_true this

theorem updWhere_id {α : Type} (p : α → Bool) (l : List α) : updWhere p (fun x => x) l = l := by
  unfold updWhere
  simp

theorem writeEff_none (s : State) (t : Thread) (d : Operand) : s.writeEff t d { words := [], preds := [] } = s := by
  unfold State.writeEff
  cases d <;> dsimp only [Operand.dest?, State.writeDest]
  · show State.modThread s t.team t.tid (fun t => t) = s
    unfold State.modThread; rw [updWhere_id]
  · show State.modHg s t.team t.role t.hg (fun t => t) = s
    unfold State.modHg; rw [updWhere_id]

/-- What every instruction of the form `cross` does (R126, R128). -/
theorem cross_completes {s : State} {c : Ctx} {h : Head} {ops : List (Operand × Nat)} {d : Operand}
    {f : Ctx → Thread → Option VecEff} {i : Instr} (w : Nat) (pds : List Nat) {P : Thread → VecEff → Prop} (hs : Seated s c)
    (hi : exec i s = cross s h ops d f) (hu : h.u = false) (hf : c.fits ops)
    (hd : ∀ n, d = .v n → (d, w) ∈ ops) (hS : ∀ n, d ≠ .s n)
    (hP : ∀ p ∈ c.parts h, P p ((f c p).getD { words := [], preds := [] }) ∧ ((f c p).getD { words := [], preds := [] }).words.length ≤ w ∧
      (∀ q ∈ ((f c p).getD { words := [], preds := [] }).preds, q.1 ∈ pds))
    (hn : ∀ p ∈ c.parts h, (((f c p).getD { words := [], preds := [] }).preds.map (·.1)).Nodup) : Completes i s c h d w pds P := by
  refine ⟨_, fun p => (f c p).getD { words := [], preds := [] }, by rw [hi]; exact run_spec hs.ctx hf _, hP, ?_⟩
  have e : (c.parts h).foldl (fun s t => match f c t with
      | some e => s.writeEff t d e
      | none => s) s = writeAll s d (c.parts h) (fun p => (fun p => (f c p).getD { words := [], preds := [] }) (c.source h p)) := by
    unfold writeAll
    congr 1
    funext s' t
    have : c.source h t = t := by unfold Ctx.source; rw [hu]; rfl
    dsimp only
    rw [this]
    cases f c t with
    | none => exact (writeEff_none _ _ _).symm
    | some e => rfl
  refine (congrArg (fun z => VecDone s c h d w pds (fun p => (f c p).getD { words := [], preds := [] }) (State.advance z)) e).mpr ?_
  refine writeAll_done _ hs (fun n hdn => ?_) (fun n hdn => absurd hdn (hS n)) (fun p hp => (hP p hp).2.1) (fun p hp => (hP p hp).2.2) hn
  have := hf _ (hd n hdn)
  rw [hdn] at this
  exact of_decide_eq_true this

end Sys2Proof.Machine
end

