-- ==== Sys2Proof/Laws/Elems.lean ====
section
/-! SUPPORT. Elements of packed values (R46, R47): packing and reading back, wrapping and clamping, and the words of a value. -/

namespace Sys2Proof.Machine

theorem packElems_lt (w : Nat) (l : List Nat) : packElems w l < 2 ^ (w * l.length) := by
  induction l with
  | nil => simp [packElems]
  | cons x r ih =>
    have h1 : x % 2 ^ w < 2 ^ w := Nat.mod_lt _ (by positivity)
    have e : packElems w (x :: r) = x % 2 ^ w + 2 ^ w * packElems w r := rfl
    rw [e, List.length_cons, Nat.mul_succ, Nat.pow_add, Nat.mul_comm (2 ^ (w * r.length))]
    calc x % 2 ^ w + 2 ^ w * packElems w r < 2 ^ w + 2 ^ w * packElems w r := by omega
      _ = 2 ^ w * (packElems w r + 1) := by ring
      _ ≤ 2 ^ w * 2 ^ (w * r.length) := Nat.mul_le_mul_left _ ih

theorem packElems_get (w : Nat) (l : List Nat) (i : Nat) (hi : i < l.length) :
    packElems w l / 2 ^ (w * i) % 2 ^ w = l[i] % 2 ^ w := by
  induction l generalizing i with
  | nil => simp at hi
  | cons x r ih =>
    have e : packElems w (x :: r) = x % 2 ^ w + 2 ^ w * packElems w r := rfl
    have h1 : x % 2 ^ w < 2 ^ w := Nat.mod_lt _ (by positivity)
    cases i with
    | zero => rw [e]; simp
    | succ j =>
      rw [e, Nat.mul_succ, Nat.add_comm (w * j) w, Nat.pow_add, ← Nat.div_div_eq_div_mul, Nat.add_mul_div_left _ _ (by positivity),
        Nat.div_eq_of_lt h1, Nat.zero_add]
      exact ih j (by simpa using hi)

/-- Widths and counts of the types: an operand holds its elements. -/
theorem Ty.width_count (ty : Ty) : ty.width * ty.count = 32 * Ty.words ty ∧ 0 < ty.width ∧ 0 < ty.count := by
  cases ty <;> decide

/-- An element of a value made element by element. -/
theorem elemOf_mapElems (ty : Ty) (f : Nat → Nat) (i : Nat) (hi : i < ty.count) :
    elemOf ty (mapElems ty f) i = f i % 2 ^ ty.width := by
  unfold elemOf mapElems
  rw [packElems_get _ _ _ (by simpa using hi)]
  simp

theorem mapElems_lt (ty : Ty) (f : Nat → Nat) : mapElems ty f < 2 ^ (32 * Ty.words ty) := by
  have := packElems_lt ty.width ((List.range ty.count).map f)
  rw [List.length_map, List.length_range, (Ty.width_count ty).1] at this
  exact this

/-- The number of the words of a value. -/
theorem wordsNat_ofTy (ty : Ty) (n : Nat) (h : n < 2 ^ (32 * Ty.words ty)) : wordsNat (VecEff.ofTy ty n).words = n := by
  unfold VecEff.ofTy
  cases h64 : ty.is64
  · have : Ty.words ty = 1 := by unfold Ty.words; rw [h64]; rfl
    rw [this] at h
    simp only [Bool.false_eq_true, if_false, wordsNat, List.foldr_cons, List.foldr_nil, BitVec.toNat_ofNat]
    omega
  · have : Ty.words ty = 2 := by unfold Ty.words; rw [h64]; rfl
    rw [this] at h
    simp only [if_true, unpair, wordsNat, List.foldr_cons, List.foldr_nil, BitVec.toNat_setWidth, BitVec.toNat_ushiftRight,
      BitVec.toNat_ofNat, Nat.shiftRight_eq_div_pow]
    omega

theorem ofTy_shape (ty : Ty) (n : Nat) : (VecEff.ofTy ty n).shape ty := by
  unfold VecEff.ofTy VecEff.shape Ty.words
  cases ty.is64 <;> simp [unpair]

/-- A 32-bit type's value is one word. -/
theorem word_eq_ofTy (ty : Ty) (n : Nat) (h : ty.is64 = false) : VecEff.word n = VecEff.ofTy ty n := by
  unfold VecEff.word VecEff.ofTy; rw [h]; rfl

/-- Wrapping gives the congruent value of the type (R46). -/
theorem toInt_wrapBits (ty : Ty) (r : Int) :
    Ty.minInt ty ≤ Ty.toInt ty (Ty.wrapBits ty r) ∧ Ty.toInt ty (Ty.wrapBits ty r) ≤ Ty.maxInt ty ∧
      (2 ^ ty.width : Int) ∣ Ty.toInt ty (Ty.wrapBits ty r) - r := by
  have hw : 0 < ty.width := (Ty.width_count ty).2.1
  obtain ⟨k, hk⟩ : ∃ k, ty.width = k + 1 := ⟨ty.width - 1, by omega⟩
  have hpos : (0 : Int) < 2 ^ ty.width := by positivity
  have h1 := Int.emod_nonneg r (ne_of_gt hpos)
  have h2 := Int.emod_lt_of_pos r hpos
  have h3 : (2 ^ ty.width : Int) = 2 * 2 ^ k := by rw [hk, pow_succ]; ring
  have hc : ((Ty.wrapBits ty r : Nat) : Int) = r % 2 ^ ty.width := by unfold Ty.wrapBits; exact Int.toNat_of_nonneg h1
  have hd : (2 ^ ty.width : Int) ∣ r % 2 ^ ty.width - r := by
    rw [Int.emod_def]; exact ⟨-(r / 2 ^ ty.width), by ring⟩
  have hkk : ((2 ^ (ty.width - 1) : Nat) : Int) = 2 ^ k := by rw [hk]; simp
  unfold Ty.toInt Ty.minInt Ty.maxInt
  by_cases hs : ty.isSigned = true
  · rw [if_pos hs, if_pos hs]
    by_cases hge : Ty.wrapBits ty r ≥ 2 ^ (ty.width - 1)
    · rw [if_pos (by simp [hs, hge])]
      have hge' : (2 : Int) ^ k ≤ r % 2 ^ ty.width := by rw [← hc, ← hkk]; exact_mod_cast hge
      rw [hc]
      have : (2 : Int) ^ (ty.width - 1) = 2 ^ k := by rw [hk]; simp
      rw [this]
      refine ⟨by omega, by omega, ?_⟩
      have : r % 2 ^ ty.width - 2 ^ ty.width - r = (r % 2 ^ ty.width - r) - 2 ^ ty.width := by ring
      rw [this]
      exact Int.dvd_sub hd (dvd_refl _)
    · rw [if_neg (by simp [hs]; omega)]
      have hlt' : r % 2 ^ ty.width < (2 : Int) ^ k := by
        rw [← hc, ← hkk]; exact_mod_cast Nat.lt_of_not_ge hge
      rw [hc]
      have : (2 : Int) ^ (ty.width - 1) = 2 ^ k := by rw [hk]; simp
      rw [this]
      exact ⟨by have : (0:Int) < 2 ^ k := by positivity
                omega, by omega, hd⟩
  · rw [if_neg hs, if_neg hs, if_neg (by simp [hs]), hc]
    exact ⟨h1, by omega, hd⟩

/-- A value within the type is its own wrap. -/
theorem toInt_wrapBits_self (ty : Ty) (r : Int) (h1 : Ty.minInt ty ≤ r) (h2 : r ≤ Ty.maxInt ty) :
    Ty.toInt ty (Ty.wrapBits ty r) = r := by
  obtain ⟨a, b, k, hk⟩ := toInt_wrapBits ty r
  have hpos : (0 : Int) < 2 ^ ty.width := by positivity
  have hr : Ty.maxInt ty - Ty.minInt ty < 2 ^ ty.width := by cases ty <;> decide
  have : k = 0 := by
    by_contra hne
    rcases lt_or_gt_of_ne hne with hlt | hgt
    · have : (2 : Int) ^ ty.width * k ≤ 2 ^ ty.width * (-1) := by nlinarith
      linarith
    · have : (2 : Int) ^ ty.width * 1 ≤ 2 ^ ty.width * k := by nlinarith
      linarith
  rw [this] at hk
  linarith

theorem clamp_range (ty : Ty) (r : Int) : Ty.minInt ty ≤ Ty.clamp ty r ∧ Ty.clamp ty r ≤ Ty.maxInt ty := by
  have h : Ty.minInt ty ≤ Ty.maxInt ty := by cases ty <;> decide
  unfold Ty.clamp
  split
  · exact ⟨le_refl _, h⟩
  · split
    · exact ⟨h, le_refl _⟩
    · exact ⟨by omega, by omega⟩

/-- A result fitted to its type (R101). -/
theorem fitInt_spec (ty : Ty) (sat : Bool) (r : Int) :
    fitInt ty sat r < 2 ^ ty.width ∧
    (if sat then Ty.toInt ty (fitInt ty sat r) = Ty.clamp ty r
     else Ty.minInt ty ≤ Ty.toInt ty (fitInt ty sat r) ∧ Ty.toInt ty (fitInt ty sat r) ≤ Ty.maxInt ty ∧
       (2 ^ ty.width : Int) ∣ Ty.toInt ty (fitInt ty sat r) - r) := by
  have hpos : (0 : Int) < 2 ^ ty.width := by positivity
  have lt : ∀ x : Int, Ty.wrapBits ty x < 2 ^ ty.width := fun x => by
    unfold Ty.wrapBits
    have h2 := Int.emod_lt_of_pos x hpos
    have h1 := Int.emod_nonneg x (ne_of_gt hpos)
    have : ((x % 2 ^ ty.width).toNat : Int) < ((2 ^ ty.width : Nat) : Int) := by
      rw [Int.toNat_of_nonneg h1]; exact_mod_cast h2
    exact_mod_cast this
  refine ⟨lt _, ?_⟩
  unfold fitInt
  cases sat
  · exact toInt_wrapBits ty r
  · exact toInt_wrapBits_self ty _ (clamp_range ty r).1 (clamp_range ty r).2

end Sys2Proof.Machine
end

