-- ==== Sys2Proof/Laws/Encoding.lean ====
section
/-! SUPPORT. Laws of the encoding: codes and their inverses, the fields of a packed word, and a word packed again from
its fields. -/

namespace Sys2Proof

/-! ### Fields of joined bits -/

theorem extract_high {m n : Nat} (x : BitVec m) (y : BitVec n) (s k : Nat) (h : n ≤ s) :
    (x ++ y).extractLsb' s k = x.extractLsb' (s - n) k := by
  apply BitVec.eq_of_getLsbD_eq
  intro i hi
  simp [BitVec.getLsbD_append, hi]
  split
  · omega
  · congr 1; omega

theorem extract_low {m n : Nat} (x : BitVec m) (y : BitVec n) (s k : Nat) (h : s + k ≤ n) :
    (x ++ y).extractLsb' s k = y.extractLsb' s k := by
  apply BitVec.eq_of_getLsbD_eq
  intro i hi
  simp [BitVec.getLsbD_append, hi]
  intro
  omega

theorem extract_whole {n : Nat} (x : BitVec n) : x.extractLsb' 0 n = x := by simp

theorem extract_join {n : Nat} (w : BitVec n) (s k j : Nat) :
    w.extractLsb' (s + k) j ++ w.extractLsb' s k = w.extractLsb' s (j + k) := by
  apply BitVec.eq_of_getLsbD_eq
  intro i hi
  rw [BitVec.getLsbD_append]
  split
  · simp_all
  · rename_i h
    have : i - k < j := by omega
    have e : s + k + (i - k) = s + i := by omega
    simp [this, hi, e]

/-- The same where the start of the upper part is written as a number. -/
theorem extract_join' {n : Nat} (w : BitVec n) (s k j t : Nat) (h : t = s + k) :
    w.extractLsb' t j ++ w.extractLsb' s k = w.extractLsb' s (j + k) := by
  subst h
  exact extract_join w s k j

theorem extract_extract {n : Nat} (w : BitVec n) (s k t j : Nat) (h : t + j ≤ k) :
    (w.extractLsb' s k).extractLsb' t j = w.extractLsb' (s + t) j := by
  apply BitVec.eq_of_getLsbD_eq
  intro i hi
  have : t + i < k := by omega
  simp [hi, this, Nat.add_assoc]

theorem getLsbD_extract1 {n : Nat} (w : BitVec n) (i : Nat) : bit1 (w.getLsbD i) = w.extractLsb' i 1 := by
  apply BitVec.eq_of_getLsbD_eq
  intro k hk
  have : k = 0 := by omega
  subst this
  cases h : w.getLsbD i <;> simp [bit1, h]

theorem bit1_getLsbD (b : Bool) : (bit1 b).getLsbD 0 = b := by cases b <;> rfl

theorem getLsbD_field {n : Nat} (w : BitVec n) (i : Nat) : w.getLsbD i = (w.extractLsb' i 1).getLsbD 0 := by simp

/-! ### Codes -/

theorem Ty.ofCode_code (x : Ty) : Ty.ofCode x.code = some x := by cases x <;> rfl

theorem Ty.code_ofCode {c : BitVec 4} {x : Ty} (h : Ty.ofCode c = some x) : x.code = c := by
  have k : ∀ n : Fin (2 ^ 4), (Ty.ofCode (.ofFin n)).all (fun x => x.code == .ofFin n) = true := by decide +kernel
  have := k c.toFin
  rw [show BitVec.ofFin c.toFin = c from rfl, h] at this
  simpa using this

theorem Rm.ofCode_code (x : Rm) : Rm.ofCode x.code = some x := by cases x <;> rfl

theorem Rm.code_ofCode {c : BitVec 2} {x : Rm} (h : Rm.ofCode c = some x) : x.code = c := by
  have k : ∀ n : Fin (2 ^ 2), (Rm.ofCode (.ofFin n)).all (fun x => x.code == .ofFin n) = true := by decide +kernel
  have := k c.toFin
  rw [show BitVec.ofFin c.toFin = c from rfl, h] at this
  simpa using this

theorem Ord.ofCode_code (x : Ord) : Ord.ofCode x.code = some x := by cases x <;> rfl

theorem Ord.code_ofCode {c : BitVec 2} {x : Ord} (h : Ord.ofCode c = some x) : x.code = c := by
  have k : ∀ n : Fin (2 ^ 2), (Ord.ofCode (.ofFin n)).all (fun x => x.code == .ofFin n) = true := by decide +kernel
  have := k c.toFin
  rw [show BitVec.ofFin c.toFin = c from rfl, h] at this
  simpa using this

theorem Scope.ofCode_code (x : Scope) : Scope.ofCode x.code = some x := by cases x <;> rfl

theorem Scope.code_ofCode {c : BitVec 3} {x : Scope} (h : Scope.ofCode c = some x) : x.code = c := by
  have k : ∀ n : Fin (2 ^ 3), (Scope.ofCode (.ofFin n)).all (fun x => x.code == .ofFin n) = true := by decide +kernel
  have := k c.toFin
  rw [show BitVec.ofFin c.toFin = c from rfl, h] at this
  simpa using this

theorem Sz.ofCode_code (x : Sz) : Sz.ofCode x.code = some x := by cases x <;> rfl

theorem Sz.code_ofCode {c : BitVec 3} {x : Sz} (h : Sz.ofCode c = some x) : x.code = c := by
  have k : ∀ n : Fin (2 ^ 3), (Sz.ofCode (.ofFin n)).all (fun x => x.code == .ofFin n) = true := by decide +kernel
  have := k c.toFin
  rw [show BitVec.ofFin c.toFin = c from rfl, h] at this
  simpa using this

theorem Aop.ofCode_code (x : Aop) : Aop.ofCode x.code = some x := by cases x <;> rfl

theorem Aop.code_ofCode {c : BitVec 5} {x : Aop} (h : Aop.ofCode c = some x) : x.code = c := by
  have k : ∀ n : Fin (2 ^ 5), (Aop.ofCode (.ofFin n)).all (fun x => x.code == .ofFin n) = true := by decide +kernel
  have := k c.toFin
  rw [show BitVec.ofFin c.toFin = c from rfl, h] at this
  simpa using this

theorem FenceKind.ofCode_code (x : FenceKind) : FenceKind.ofCode x.code = some x := by cases x <;> rfl

theorem FenceKind.code_ofCode {c : BitVec 3} {x : FenceKind} (h : FenceKind.ofCode c = some x) : x.code = c := by
  have k : ∀ n : Fin (2 ^ 3), (FenceKind.ofCode (.ofFin n)).all (fun x => x.code == .ofFin n) = true := by decide +kernel
  have := k c.toFin
  rw [show BitVec.ofFin c.toFin = c from rfl, h] at this
  simpa using this

theorem Dir.ofCode_code (x : Dir) : Dir.ofCode x.code = some x := by cases x <;> rfl

theorem Dir.code_ofCode {c : BitVec 3} {x : Dir} (h : Dir.ofCode c = some x) : x.code = c := by
  have k : ∀ n : Fin (2 ^ 3), (Dir.ofCode (.ofFin n)).all (fun x => x.code == .ofFin n) = true := by decide +kernel
  have := k c.toFin
  rw [show BitVec.ofFin c.toFin = c from rfl, h] at this
  simpa using this

theorem NmTy.ofCode_code (x : NmTy) : NmTy.ofCode x.code = some x := by cases x <;> rfl

theorem NmTy.code_ofCode {c : BitVec 2} {x : NmTy} (h : NmTy.ofCode c = some x) : x.code = c := by
  have k : ∀ n : Fin (2 ^ 2), (NmTy.ofCode (.ofFin n)).all (fun x => x.code == .ofFin n) = true := by decide +kernel
  have := k c.toFin
  rw [show BitVec.ofFin c.toFin = c from rfl, h] at this
  simpa using this

theorem Fmt.ofCode_code (x : Fmt) : Fmt.ofCode x.code = some x := by cases x <;> rfl

theorem Fmt.code_ofCode {c : BitVec 4} {x : Fmt} (h : Fmt.ofCode c = some x) : x.code = c := by
  have k : ∀ n : Fin (2 ^ 4), (Fmt.ofCode (.ofFin n)).all (fun x => x.code == .ofFin n) = true := by decide +kernel
  have := k c.toFin
  rw [show BitVec.ofFin c.toFin = c from rfl, h] at this
  simpa using this

theorem TilePart.ofCode_code (x : TilePart) : TilePart.ofCode x.code = some x := by cases x <;> rfl

theorem TilePart.code_ofCode {c : BitVec 2} {x : TilePart} (h : TilePart.ofCode c = some x) : x.code = c := by
  have k : ∀ n : Fin (2 ^ 2), (TilePart.ofCode (.ofFin n)).all (fun x => x.code == .ofFin n) = true := by decide +kernel
  have := k c.toFin
  rw [show BitVec.ofFin c.toFin = c from rfl, h] at this
  simpa using this

theorem TretMode.ofCode_code (x : TretMode) : TretMode.ofCode x.code = some x := by cases x <;> rfl

theorem TretMode.code_ofCode {c : BitVec 2} {x : TretMode} (h : TretMode.ofCode c = some x) : x.code = c := by
  have k : ∀ n : Fin (2 ^ 2), (TretMode.ofCode (.ofFin n)).all (fun x => x.code == .ofFin n) = true := by decide +kernel
  have := k c.toFin
  rw [show BitVec.ofFin c.toFin = c from rfl, h] at this
  simpa using this

theorem TlbKind.ofCode_code (x : TlbKind) : TlbKind.ofCode x.code = some x := by cases x <;> rfl

theorem TlbKind.code_ofCode {c : BitVec 2} {x : TlbKind} (h : TlbKind.ofCode c = some x) : x.code = c := by
  have k : ∀ n : Fin (2 ^ 2), (TlbKind.ofCode (.ofFin n)).all (fun x => x.code == .ofFin n) = true := by decide +kernel
  have := k c.toFin
  rw [show BitVec.ofFin c.toFin = c from rfl, h] at this
  simpa using this

theorem XchgMode.ofCode_code (x : XchgMode) : XchgMode.ofCode x.code = some x := by cases x <;> rfl

theorem XchgMode.code_ofCode {c : BitVec 3} {x : XchgMode} (h : XchgMode.ofCode c = some x) : x.code = c := by
  have k : ∀ n : Fin (2 ^ 3), (XchgMode.ofCode (.ofFin n)).all (fun x => x.code == .ofFin n) = true := by decide +kernel
  have := k c.toFin
  rw [show BitVec.ofFin c.toFin = c from rfl, h] at this
  simpa using this

theorem Special.ofCode_code (x : Special) : Special.ofCode x.code = some x := by cases x <;> rfl

theorem Special.code_ofCode {c : BitVec 4} {x : Special} (h : Special.ofCode c = some x) : x.code = c := by
  have k : ∀ n : Fin (2 ^ 4), (Special.ofCode (.ofFin n)).all (fun x => x.code == .ofFin n) = true := by decide +kernel
  have := k c.toFin
  rw [show BitVec.ofFin c.toFin = c from rfl, h] at this
  simpa using this

/-- A specifier read back (R78). -/
theorem Operand.ofCode_code (x : Operand) : Operand.ofCode x.code = some x := by
  cases x with
  | v n =>
    have k : ∀ n : Fin 255, (Operand.ofCode (Operand.code (.v n)) == some (.v n)) = true := by decide +kernel
    exact beq_iff_eq.1 (k n)
  | s n =>
    have k : ∀ n : Fin 64, (Operand.ofCode (Operand.code (.s n)) == some (.s n)) = true := by decide +kernel
    exact beq_iff_eq.1 (k n)
  | special x => cases x <;> decide +kernel
  | int n =>
    have k : ∀ n : Fin 96, (Operand.ofCode (Operand.code (.int n)) == some (.int n)) = true := by decide +kernel
    exact beq_iff_eq.1 (k n)
  | flt n =>
    have k : ∀ n : Fin 16, (Operand.ofCode (Operand.code (.flt n)) == some (.flt n)) = true := by decide +kernel
    exact beq_iff_eq.1 (k n)
  | none => decide +kernel

theorem Operand.code_ofCode {c : BitVec 9} {x : Operand} (h : Operand.ofCode c = some x) : x.code = c := by
  have k : ∀ n : Fin (2 ^ 9), (Operand.ofCode (.ofFin n)).all (fun x => x.code == .ofFin n) = true := by decide +kernel
  have := k c.toFin
  rw [show BitVec.ofFin c.toFin = c from rfl, h] at this
  simpa using this

/-! ### Field readers -/

theorem enumField_ok {α : Type} {o : Option α} {x : α} : enumField o = .ok x ↔ o = some x := by
  cases o <;> simp [enumField]

theorem opnd_ok {c : BitVec 9} {x : Operand} : opnd c = .ok x ↔ x.code = c := by
  rw [opnd, enumField_ok]
  refine ⟨Operand.code_ofCode, ?_⟩
  rintro rfl
  exact Operand.ofCode_code x

theorem opCheck_ok {b : Bool} {u : Unit} : opCheck b = .ok u ↔ b = true := by cases b <;> simp [opCheck]

theorem operandCheck_ok {b : Bool} {u : Unit} : operandCheck b = .ok u ↔ b = true := by cases b <;> simp [operandCheck]

theorem noneField_ok {c : BitVec 9} {u : Unit} : noneField c = .ok u ↔ c = noneCode := by simp [noneField, operandCheck_ok]

theorem finBelow_ok {m n : Nat} {c : BitVec n} {x : Fin m} : finBelow m c = .ok x ↔ c.toNat = x.val := by
  unfold finBelow
  split
  · constructor
    · intro h
      obtain rfl := Except.ok.inj h
      rfl
    · intro h
      congr 1
      exact Fin.ext h
  · rename_i h
    have := x.isLt
    simp
    omega

theorem barField_ok {c : BitVec 5} {x : BarSel} : barField c = .ok x ↔ barCode x = c := by
  unfold barField
  split
  · rename_i h
    constructor
    · intro e
      obtain rfl := Except.ok.inj e
      exact BitVec.eq_of_toNat_eq (by simp only [barCode, BitVec.toNat_ofNat]; omega)
    · rintro rfl
      cases x with
      | none => simp [barCode] at h
      | some b =>
        have := b.isLt
        simp only [barCode] at h ⊢
        congr 2
        apply Fin.ext
        simp
        omega
  · split
    · rename_i h1 h2
      subst h2
      constructor
      · intro e
        obtain rfl := Except.ok.inj e
        rfl
      · intro e
        cases x with
        | none => rfl
        | some b =>
          have := b.isLt
          have := congrArg BitVec.toNat e
          simp [barCode] at this
          omega
    · rename_i h1 h2
      constructor
      · intro e
        simp at e
      · rintro rfl
        cases x with
        | none => exact absurd rfl h2
        | some b =>
          have := b.isLt
          simp [barCode] at h1
          omega

theorem predField_ok {c : BitVec 9} {x : Fin 8} : predField c = .ok x ↔ predCode x = c := by
  have hx := x.isLt
  unfold predField
  split
  · rename_i h
    constructor
    · intro e
      obtain rfl := Except.ok.inj e
      have := c.isLt
      exact BitVec.eq_of_toNat_eq (by rw [predCode, BitVec.toNat_ofNat]; dsimp only; omega)
    · rintro rfl
      refine congrArg Except.ok (Fin.ext ?_)
      show (predCode x).toNat - 336 = x.val
      rw [predCode, BitVec.toNat_ofNat]
      omega
  · rename_i h
    constructor
    · intro e
      simp at e
    · rintro rfl
      simp only [predCode, BitVec.toNat_ofNat] at h
      omega

/-- The common head (R75). -/
theorem Head.ofBits_bits (h : Head) : Head.ofBits h.bits = h := by
  obtain ⟨u, pn, pi⟩ := h
  revert u pn pi
  decide

theorem Head.bits_ofBits (b : BitVec 5) : (Head.ofBits b).bits = b := by
  obtain ⟨⟨n, hn⟩⟩ := b
  have : ∀ n : Fin 32, (Head.ofBits (BitVec.ofFin n)).bits = BitVec.ofFin n := by decide
  exact this ⟨n, hn⟩

theorem fld_toFin {n : Nat} (c : BitVec n) : fld n c.toFin = c := by
  apply BitVec.eq_of_toNat_eq
  simp [fld]

theorem toFin_fld {n : Nat} (x : Fin (2 ^ n)) : (fld n x).toFin = x := by
  apply Fin.ext
  simp [fld]

/-! ### Packed words -/

/-- The two MOD layouts of R83 and R107 from their own fields. -/
theorem packMod_fields (m : BitVec 14) : packMod (m.extractLsb' 10 4) (m.extractLsb' 8 2) (m.getLsbD 7) (m.getLsbD 6) (m.getLsbD 5)
    (m.getLsbD 4) (m.getLsbD 3) (m.extractLsb' 0 3) = m := by
  simp only [packMod, getLsbD_extract1]
  simp (disch := omega) only [extract_join', extract_whole]

theorem packMod_ty (ty : BitVec 4) (rm : BitVec 2) (sat na nb aa ab : Bool) (x : BitVec 3) :
    (packMod ty rm sat na nb aa ab x).extractLsb' 10 4 = ty := by
  simp (disch := omega) only [packMod, extract_high, extract_low, Nat.sub_self, extract_whole]

theorem packMod_rm (ty : BitVec 4) (rm : BitVec 2) (sat na nb aa ab : Bool) (x : BitVec 3) :
    (packMod ty rm sat na nb aa ab x).extractLsb' 8 2 = rm := by
  simp (disch := omega) only [packMod, extract_high, extract_low, Nat.sub_self, extract_whole]

theorem packMod_x (ty : BitVec 4) (rm : BitVec 2) (sat na nb aa ab : Bool) (x : BitVec 3) :
    (packMod ty rm sat na nb aa ab x).extractLsb' 0 3 = x := by
  simp (disch := omega) only [packMod, extract_high, extract_low, Nat.sub_self, extract_whole]

theorem packMod_bits (ty : BitVec 4) (rm : BitVec 2) (sat na nb aa ab : Bool) (x : BitVec 3) :
    (packMod ty rm sat na nb aa ab x).getLsbD 7 = sat ∧ (packMod ty rm sat na nb aa ab x).getLsbD 6 = na ∧
    (packMod ty rm sat na nb aa ab x).getLsbD 5 = nb ∧ (packMod ty rm sat na nb aa ab x).getLsbD 4 = aa ∧
    (packMod ty rm sat na nb aa ab x).getLsbD 3 = ab := by
  refine ⟨?_, ?_, ?_, ?_, ?_⟩ <;>
    (rw [getLsbD_field]
     simp (disch := omega) only [packMod, extract_high, extract_low, Nat.sub_self, extract_whole, bit1_getLsbD])

/-- The same in the form that simp prefers. -/
theorem packMod_getElem (ty : BitVec 4) (rm : BitVec 2) (sat na nb aa ab : Bool) (x : BitVec 3) :
    (packMod ty rm sat na nb aa ab x)[7] = sat ∧ (packMod ty rm sat na nb aa ab x)[6] = na ∧ (packMod ty rm sat na nb aa ab x)[5] = nb ∧
    (packMod ty rm sat na nb aa ab x)[4] = aa ∧ (packMod ty rm sat na nb aa ab x)[3] = ab := by
  obtain ⟨h1, h2, h3, h4, h5⟩ := packMod_bits ty rm sat na nb aa ab x
  exact ⟨by rwa [← BitVec.getLsbD_eq_getElem], by rwa [← BitVec.getLsbD_eq_getElem], by rwa [← BitVec.getLsbD_eq_getElem],
    by rwa [← BitVec.getLsbD_eq_getElem], by rwa [← BitVec.getLsbD_eq_getElem]⟩

/-- Every field of the packed word. -/
theorem packV3_get (op : BitVec 8) (h : Head) (mod : BitVec 14) (d a b c : BitVec 9) :
    (packV3 op h mod d a b c).extractLsb' 56 8 = op ∧
    (packV3 op h mod d a b c).extractLsb' 51 5 = h.bits ∧
    (packV3 op h mod d a b c).extractLsb' 50 1 = 0#1 ∧
    (packV3 op h mod d a b c).extractLsb' 36 14 = mod ∧
    (packV3 op h mod d a b c).extractLsb' 27 9 = d ∧
    (packV3 op h mod d a b c).extractLsb' 18 9 = a ∧
    (packV3 op h mod d a b c).extractLsb' 9 9 = b ∧
    (packV3 op h mod d a b c).extractLsb' 0 9 = c := by
  refine ⟨?_, ?_, ?_, ?_, ?_, ?_, ?_, ?_⟩ <;>
    simp (disch := omega) only [packV3, extract_high, extract_low, Nat.sub_self, extract_whole]

theorem parse_packV3 (op : BitVec 8) (h : Head) (mod : BitVec 14) (d a b c : BitVec 9)
    (hc : classOf op.toNat = some .vec) : parse (packV3 op h mod d a b c) = parseV3 op.toNat ⟨h, mod, d, a, b, c⟩ := by
  obtain ⟨e0, e1, e2, e3, e4, e5, e6, e7⟩ := packV3_get op h mod d a b c
  have hb : (packV3 op h mod d a b c).getLsbD 50 = false := by rw [getLsbD_field, e2]; rfl
  simp only [parse, opOf, e0, e1, e3, e4, e5, e6, e7, hb, hc, Head.ofBits_bits, Bool.false_eq_true, if_false]

/-- The word packed again from its fields. -/
theorem packV3_fields (w : DWord) (hb : w.getLsbD 50 = false) :
    packV3 (w.extractLsb' 56 8) (Head.ofBits (w.extractLsb' 51 5)) (w.extractLsb' 36 14) (w.extractLsb' 27 9) (w.extractLsb' 18 9) (w.extractLsb' 9 9) (w.extractLsb' 0 9) = w := by
  have e : w.extractLsb' 50 1 = 0#1 := by rw [← getLsbD_extract1, hb]; rfl
  simp only [packV3, Head.bits_ofBits, ← e]
  simp (disch := omega) only [extract_join', extract_whole]

/-- Every field of the packed word. -/
theorem packVl_get (op : BitVec 8) (h : Head) (d a : BitVec 9) (lit : Word) :
    (packVl op h d a lit).extractLsb' 56 8 = op ∧
    (packVl op h d a lit).extractLsb' 51 5 = h.bits ∧
    (packVl op h d a lit).extractLsb' 50 1 = 1#1 ∧
    (packVl op h d a lit).extractLsb' 41 9 = d ∧
    (packVl op h d a lit).extractLsb' 32 9 = a ∧
    (packVl op h d a lit).extractLsb' 0 32 = lit := by
  refine ⟨?_, ?_, ?_, ?_, ?_, ?_⟩ <;>
    simp (disch := omega) only [packVl, extract_high, extract_low, Nat.sub_self, extract_whole]

theorem parse_packVl (op : BitVec 8) (h : Head) (d a : BitVec 9) (lit : Word)
    (hc : classOf op.toNat = some .vec) : parse (packVl op h d a lit) = parseVl op.toNat h d a lit := by
  obtain ⟨e0, e1, e2, e3, e4, e5⟩ := packVl_get op h d a lit
  have hb : (packVl op h d a lit).getLsbD 50 = true := by rw [getLsbD_field, e2]; rfl
  simp only [parse, opOf, e0, e1, e3, e4, e5, hb, hc, Head.ofBits_bits, if_true]

/-- The word packed again from its fields. -/
theorem packVl_fields (w : DWord) (hb : w.getLsbD 50 = true) :
    packVl (w.extractLsb' 56 8) (Head.ofBits (w.extractLsb' 51 5)) (w.extractLsb' 41 9) (w.extractLsb' 32 9) (w.extractLsb' 0 32) = w := by
  have e : w.extractLsb' 50 1 = 1#1 := by rw [← getLsbD_extract1, hb]; rfl
  simp only [packVl, Head.bits_ofBits, ← e]
  simp (disch := omega) only [extract_join', extract_whole]

/-- Every field of the packed word. -/
theorem packM_get (op : BitVec 8) (h : Head) (la : BitVec 4) (spsz : BitVec 5) (ord : BitVec 2) (sc : BitVec 3) (rmt : BitVec 1) (d base data ofs : BitVec 9) :
    (packM op h la spsz ord sc rmt d base data ofs).extractLsb' 56 8 = op ∧
    (packM op h la spsz ord sc rmt d base data ofs).extractLsb' 51 5 = h.bits ∧
    (packM op h la spsz ord sc rmt d base data ofs).extractLsb' 47 4 = la ∧
    (packM op h la spsz ord sc rmt d base data ofs).extractLsb' 42 5 = spsz ∧
    (packM op h la spsz ord sc rmt d base data ofs).extractLsb' 40 2 = ord ∧
    (packM op h la spsz ord sc rmt d base data ofs).extractLsb' 37 3 = sc ∧
    (packM op h la spsz ord sc rmt d base data ofs).extractLsb' 36 1 = rmt ∧
    (packM op h la spsz ord sc rmt d base data ofs).extractLsb' 27 9 = d ∧
    (packM op h la spsz ord sc rmt d base data ofs).extractLsb' 18 9 = base ∧
    (packM op h la spsz ord sc rmt d base data ofs).extractLsb' 9 9 = data ∧
    (packM op h la spsz ord sc rmt d base data ofs).extractLsb' 0 9 = ofs := by
  refine ⟨?_, ?_, ?_, ?_, ?_, ?_, ?_, ?_, ?_, ?_, ?_⟩ <;>
    simp (disch := omega) only [packM, extract_high, extract_low, Nat.sub_self, extract_whole]

theorem parse_packM (op : BitVec 8) (h : Head) (la : BitVec 4) (spsz : BitVec 5) (ord : BitVec 2) (sc : BitVec 3) (rmt : BitVec 1) (d base data ofs : BitVec 9)
    (hc : classOf op.toNat = some .mem) : parse (packM op h la spsz ord sc rmt d base data ofs) = parseM op.toNat ⟨h, la, spsz, ord, sc, rmt, d, base, data, ofs⟩ := by
  obtain ⟨e0, e1, e2, e3, e4, e5, e6, e7, e8, e9, e10⟩ := packM_get op h la spsz ord sc rmt d base data ofs
  simp [parse, opOf, e0, e1, e2, e3, e4, e5, e6, e7, e8, e9, e10, hc, Head.ofBits_bits]

/-- The word packed again from its fields. -/
theorem packM_fields (w : DWord) :
    packM (w.extractLsb' 56 8) (Head.ofBits (w.extractLsb' 51 5)) (w.extractLsb' 47 4) (w.extractLsb' 42 5) (w.extractLsb' 40 2) (w.extractLsb' 37 3) (w.extractLsb' 36 1) (w.extractLsb' 27 9) (w.extractLsb' 18 9) (w.extractLsb' 9 9) (w.extractLsb' 0 9) = w := by
  simp only [packM, Head.bits_ofBits]
  simp (disch := omega) only [extract_join', extract_whole]

/-- Every field of the packed word. -/
theorem packX_get (op : BitVec 8) (h : Head) (la : BitVec 4) (bar : BitVec 5) (kind : BitVec 6) (d sr aux aux2 : BitVec 9) :
    (packX op h la bar kind d sr aux aux2).extractLsb' 56 8 = op ∧
    (packX op h la bar kind d sr aux aux2).extractLsb' 51 5 = h.bits ∧
    (packX op h la bar kind d sr aux aux2).extractLsb' 47 4 = la ∧
    (packX op h la bar kind d sr aux aux2).extractLsb' 42 5 = bar ∧
    (packX op h la bar kind d sr aux aux2).extractLsb' 36 6 = kind ∧
    (packX op h la bar kind d sr aux aux2).extractLsb' 27 9 = d ∧
    (packX op h la bar kind d sr aux aux2).extractLsb' 18 9 = sr ∧
    (packX op h la bar kind d sr aux aux2).extractLsb' 9 9 = aux ∧
    (packX op h la bar kind d sr aux aux2).extractLsb' 0 9 = aux2 := by
  refine ⟨?_, ?_, ?_, ?_, ?_, ?_, ?_, ?_, ?_⟩ <;>
    simp (disch := omega) only [packX, extract_high, extract_low, Nat.sub_self, extract_whole]

theorem parse_packX (op : BitVec 8) (h : Head) (la : BitVec 4) (bar : BitVec 5) (kind : BitVec 6) (d sr aux aux2 : BitVec 9)
    (hc : classOf op.toNat = some .xfer) : parse (packX op h la bar kind d sr aux aux2) = parseX op.toNat ⟨h, la, bar, kind, d, sr, aux, aux2⟩ := by
  obtain ⟨e0, e1, e2, e3, e4, e5, e6, e7, e8⟩ := packX_get op h la bar kind d sr aux aux2
  simp [parse, opOf, e0, e1, e2, e3, e4, e5, e6, e7, e8, hc, Head.ofBits_bits]

/-- The word packed again from its fields. -/
theorem packX_fields (w : DWord) :
    packX (w.extractLsb' 56 8) (Head.ofBits (w.extractLsb' 51 5)) (w.extractLsb' 47 4) (w.extractLsb' 42 5) (w.extractLsb' 36 6) (w.extractLsb' 27 9) (w.extractLsb' 18 9) (w.extractLsb' 9 9) (w.extractLsb' 0 9) = w := by
  simp only [packX, Head.bits_ofBits]
  simp (disch := omega) only [extract_join', extract_whole]

/-- Every field of the packed word. -/
theorem packT_get (op : BitVec 8) (h : Head) (la ta tb : BitVec 4) (fl : BitVec 12) (ab x y : BitVec 9) :
    (packT op h la ta tb fl ab x y).extractLsb' 56 8 = op ∧
    (packT op h la ta tb fl ab x y).extractLsb' 51 5 = h.bits ∧
    (packT op h la ta tb fl ab x y).extractLsb' 47 4 = la ∧
    (packT op h la ta tb fl ab x y).extractLsb' 43 4 = ta ∧
    (packT op h la ta tb fl ab x y).extractLsb' 39 4 = tb ∧
    (packT op h la ta tb fl ab x y).extractLsb' 27 12 = fl ∧
    (packT op h la ta tb fl ab x y).extractLsb' 18 9 = ab ∧
    (packT op h la ta tb fl ab x y).extractLsb' 9 9 = x ∧
    (packT op h la ta tb fl ab x y).extractLsb' 0 9 = y := by
  refine ⟨?_, ?_, ?_, ?_, ?_, ?_, ?_, ?_, ?_⟩ <;>
    simp (disch := omega) only [packT, extract_high, extract_low, Nat.sub_self, extract_whole]

theorem parse_packT (op : BitVec 8) (h : Head) (la ta tb : BitVec 4) (fl : BitVec 12) (ab x y : BitVec 9)
    (hc : classOf op.toNat = some .tile) : parse (packT op h la ta tb fl ab x y) = parseT op.toNat ⟨h, la, ta, tb, fl, ab, x, y⟩ := by
  obtain ⟨e0, e1, e2, e3, e4, e5, e6, e7, e8⟩ := packT_get op h la ta tb fl ab x y
  simp [parse, opOf, e0, e1, e2, e3, e4, e5, e6, e7, e8, hc, Head.ofBits_bits]

/-- The word packed again from its fields. -/
theorem packT_fields (w : DWord) :
    packT (w.extractLsb' 56 8) (Head.ofBits (w.extractLsb' 51 5)) (w.extractLsb' 47 4) (w.extractLsb' 43 4) (w.extractLsb' 39 4) (w.extractLsb' 27 12) (w.extractLsb' 18 9) (w.extractLsb' 9 9) (w.extractLsb' 0 9) = w := by
  simp only [packT, Head.bits_ofBits]
  simp (disch := omega) only [extract_join', extract_whole]

/-- Every field of the packed word. -/
theorem packC_get (op : BitVec 8) (h : Head) (kx : BitVec 5) (fl : BitVec 4) (sa sb : BitVec 9) (imm : BitVec 24) :
    (packC op h kx fl sa sb imm).extractLsb' 56 8 = op ∧
    (packC op h kx fl sa sb imm).extractLsb' 51 5 = h.bits ∧
    (packC op h kx fl sa sb imm).extractLsb' 46 5 = kx ∧
    (packC op h kx fl sa sb imm).extractLsb' 42 4 = fl ∧
    (packC op h kx fl sa sb imm).extractLsb' 33 9 = sa ∧
    (packC op h kx fl sa sb imm).extractLsb' 24 9 = sb ∧
    (packC op h kx fl sa sb imm).extractLsb' 0 24 = imm := by
  refine ⟨?_, ?_, ?_, ?_, ?_, ?_, ?_⟩ <;>
    simp (disch := omega) only [packC, extract_high, extract_low, Nat.sub_self, extract_whole]

theorem parse_packC (op : BitVec 8) (h : Head) (kx : BitVec 5) (fl : BitVec 4) (sa sb : BitVec 9) (imm : BitVec 24)
    (hc : classOf op.toNat = some .ctrl ∨ classOf op.toNat = some .sys) : parse (packC op h kx fl sa sb imm) = parseC op.toNat ⟨h, kx, fl, sa, sb, imm⟩ := by
  obtain ⟨e0, e1, e2, e3, e4, e5, e6⟩ := packC_get op h kx fl sa sb imm
  rcases hc with hc | hc <;>
    simp [parse, opOf, e0, e1, e2, e3, e4, e5, e6, hc, Head.ofBits_bits]

/-- The word packed again from its fields. -/
theorem packC_fields (w : DWord) :
    packC (w.extractLsb' 56 8) (Head.ofBits (w.extractLsb' 51 5)) (w.extractLsb' 46 5) (w.extractLsb' 42 4) (w.extractLsb' 33 9) (w.extractLsb' 24 9) (w.extractLsb' 0 24) = w := by
  simp only [packC, Head.bits_ofBits]
  simp (disch := omega) only [extract_join', extract_whole]

end Sys2Proof
end

