-- ==== Sys2Proof/Laws/State.lean ====
section
/-! SUPPORT. What each named update of the state leaves: one lemma for each field, all by computation. -/

namespace Sys2Proof.Machine.State

variable (s : State)

/-! ### modThread -/

@[simp] theorem modThread_clk (a b : Nat) (f : Thread → Thread) : (s.modThread a b f).clk = s.clk := rfl
@[simp] theorem modThread_power (a b : Nat) (f : Thread → Thread) : (s.modThread a b f).power = s.power := rfl
@[simp] theorem modThread_resil (a b : Nat) (f : Thread → Thread) : (s.modThread a b f).resil = s.resil := rfl
@[simp] theorem modThread_nmwin (a b : Nat) (f : Thread → Thread) : (s.modThread a b f).nmwin = s.nmwin := rfl
@[simp] theorem modThread_faultRetryMax (a b : Nat) (f : Thread → Thread) : (s.modThread a b f).faultRetryMax = s.faultRetryMax := rfl
@[simp] theorem modThread_trctl (a b : Nat) (f : Thread → Thread) : (s.modThread a b f).trctl = s.trctl := rfl
@[simp] theorem modThread_launches (a b : Nat) (f : Thread → Thread) : (s.modThread a b f).launches = s.launches := rfl
@[simp] theorem modThread_teams (a b : Nat) (f : Thread → Thread) : (s.modThread a b f).teams = s.teams := rfl
@[simp] theorem modThread_groups (a b : Nat) (f : Thread → Thread) : (s.modThread a b f).groups = s.groups := rfl
@[simp] theorem modThread_cores (a b : Nat) (f : Thread → Thread) : (s.modThread a b f).cores = s.cores := rfl
@[simp] theorem modThread_main (a b : Nat) (f : Thread → Thread) : (s.modThread a b f).main = s.main := rfl
@[simp] theorem modThread_dsm (a b : Nat) (f : Thread → Thread) : (s.modThread a b f).dsm = s.dsm := rfl
@[simp] theorem modThread_sys (a b : Nat) (f : Thread → Thread) : (s.modThread a b f).sys = s.sys := rfl
@[simp] theorem modThread_absent (a b : Nat) (f : Thread → Thread) : (s.modThread a b f).absent = s.absent := rfl
@[simp] theorem modThread_dsmTags (a b : Nat) (f : Thread → Thread) : (s.modThread a b f).dsmTags = s.dsmTags := rfl
@[simp] theorem modThread_hist (a b : Nat) (f : Thread → Thread) : (s.modThread a b f).hist = s.hist := rfl
@[simp] theorem modThread_lineViews (a b : Nat) (f : Thread → Thread) : (s.modThread a b f).lineViews = s.lineViews := rfl
@[simp] theorem modThread_loads (a b : Nat) (f : Thread → Thread) : (s.modThread a b f).loads = s.loads := rfl
@[simp] theorem modThread_xfers (a b : Nat) (f : Thread → Thread) : (s.modThread a b f).xfers = s.xfers := rfl
@[simp] theorem modThread_tileOps (a b : Nat) (f : Thread → Thread) : (s.modThread a b f).tileOps = s.tileOps := rfl
@[simp] theorem modThread_tlbinvs (a b : Nat) (f : Thread → Thread) : (s.modThread a b f).tlbinvs = s.tlbinvs := rfl
@[simp] theorem modThread_queues (a b : Nat) (f : Thread → Thread) : (s.modThread a b f).queues = s.queues := rfl
@[simp] theorem modThread_lastQueue (a b : Nat) (f : Thread → Thread) : (s.modThread a b f).lastQueue = s.lastQueue := rfl
@[simp] theorem modThread_asids (a b : Nat) (f : Thread → Thread) : (s.modThread a b f).asids = s.asids := rfl
@[simp] theorem modThread_regions (a b : Nat) (f : Thread → Thread) : (s.modThread a b f).regions = s.regions := rfl
@[simp] theorem modThread_conversions (a b : Nat) (f : Thread → Thread) : (s.modThread a b f).conversions = s.conversions := rfl
@[simp] theorem modThread_placement (a b : Nat) (f : Thread → Thread) : (s.modThread a b f).placement = s.placement := rfl
@[simp] theorem modThread_transit (a b : Nat) (f : Thread → Thread) : (s.modThread a b f).transit = s.transit := rfl
@[simp] theorem modThread_dones (a b : Nat) (f : Thread → Thread) : (s.modThread a b f).dones = s.dones := rfl
@[simp] theorem modThread_mcast (a b : Nat) (f : Thread → Thread) : (s.modThread a b f).mcast = s.mcast := rfl
@[simp] theorem modThread_cadence (a b : Nat) (f : Thread → Thread) : (s.modThread a b f).cadence = s.cadence := rfl
@[simp] theorem modThread_quorum (a b : Nat) (f : Thread → Thread) : (s.modThread a b f).quorum = s.quorum := rfl
@[simp] theorem modThread_decls (a b : Nat) (f : Thread → Thread) : (s.modThread a b f).decls = s.decls := rfl
@[simp] theorem modThread_huddleStop (a b : Nat) (f : Thread → Thread) : (s.modThread a b f).huddleStop = s.huddleStop := rfl
@[simp] theorem modThread_stopGrp (a b : Nat) (f : Thread → Thread) : (s.modThread a b f).stopGrp = s.stopGrp := rfl
@[simp] theorem modThread_qresults (a b : Nat) (f : Thread → Thread) : (s.modThread a b f).qresults = s.qresults := rfl
@[simp] theorem modThread_qreplies (a b : Nat) (f : Thread → Thread) : (s.modThread a b f).qreplies = s.qreplies := rfl
@[simp] theorem modThread_faults (a b : Nat) (f : Thread → Thread) : (s.modThread a b f).faults = s.faults := rfl
@[simp] theorem modThread_faultsWaiting (a b : Nat) (f : Thread → Thread) : (s.modThread a b f).faultsWaiting = s.faultsWaiting := rfl
@[simp] theorem modThread_watch (a b : Nat) (f : Thread → Thread) : (s.modThread a b f).watch = s.watch := rfl
@[simp] theorem modThread_fabric (a b : Nat) (f : Thread → Thread) : (s.modThread a b f).fabric = s.fabric := rfl
@[simp] theorem modThread_outbox (a b : Nat) (f : Thread → Thread) : (s.modThread a b f).outbox = s.outbox := rfl
@[simp] theorem modThread_routes (a b : Nat) (f : Thread → Thread) : (s.modThread a b f).routes = s.routes := rfl
@[simp] theorem modThread_failedPorts (a b : Nat) (f : Thread → Thread) : (s.modThread a b f).failedPorts = s.failedPorts := rfl
@[simp] theorem modThread_bankUnits (a b : Nat) (f : Thread → Thread) : (s.modThread a b f).bankUnits = s.bankUnits := rfl
@[simp] theorem modThread_waitingCmds (a b : Nat) (f : Thread → Thread) : (s.modThread a b f).waitingCmds = s.waitingCmds := rfl
@[simp] theorem modThread_mailbox (a b : Nat) (f : Thread → Thread) : (s.modThread a b f).mailbox = s.mailbox := rfl
@[simp] theorem modThread_hostCtl (a b : Nat) (f : Thread → Thread) : (s.modThread a b f).hostCtl = s.hostCtl := rfl
@[simp] theorem modThread_badWords (a b : Nat) (f : Thread → Thread) : (s.modThread a b f).badWords = s.badWords := rfl
@[simp] theorem modThread_routers (a b : Nat) (f : Thread → Thread) : (s.modThread a b f).routers = s.routers := rfl
@[simp] theorem modThread_transits (a b : Nat) (f : Thread → Thread) : (s.modThread a b f).transits = s.transits := rfl
@[simp] theorem modThread_gateways (a b : Nat) (f : Thread → Thread) : (s.modThread a b f).gateways = s.gateways := rfl
@[simp] theorem modThread_golden (a b : Nat) (f : Thread → Thread) : (s.modThread a b f).golden = s.golden := rfl
@[simp] theorem modThread_nextId (a b : Nat) (f : Thread → Thread) : (s.modThread a b f).nextId = s.nextId := rfl
@[simp] theorem modThread_freeCount (a b : Nat) (f : Thread → Thread) : (s.modThread a b f).freeCount = s.freeCount := rfl
@[simp] theorem modThread_agenda (a b : Nat) (f : Thread → Thread) : (s.modThread a b f).agenda = s.agenda := rfl
@[simp] theorem modThread_cur (a b : Nat) (f : Thread → Thread) : (s.modThread a b f).cur = s.cur := rfl
@[simp] theorem modThread_shadow (a b : Nat) (f : Thread → Thread) : (s.modThread a b f).shadow = s.shadow := rfl

/-! ### modThreads -/

@[simp] theorem modThreads_clk (a : Nat) (b : List Nat) (f : Thread → Thread) : (s.modThreads a b f).clk = s.clk := rfl
@[simp] theorem modThreads_power (a : Nat) (b : List Nat) (f : Thread → Thread) : (s.modThreads a b f).power = s.power := rfl
@[simp] theorem modThreads_resil (a : Nat) (b : List Nat) (f : Thread → Thread) : (s.modThreads a b f).resil = s.resil := rfl
@[simp] theorem modThreads_nmwin (a : Nat) (b : List Nat) (f : Thread → Thread) : (s.modThreads a b f).nmwin = s.nmwin := rfl
@[simp] theorem modThreads_faultRetryMax (a : Nat) (b : List Nat) (f : Thread → Thread) : (s.modThreads a b f).faultRetryMax = s.faultRetryMax := rfl
@[simp] theorem modThreads_trctl (a : Nat) (b : List Nat) (f : Thread → Thread) : (s.modThreads a b f).trctl = s.trctl := rfl
@[simp] theorem modThreads_launches (a : Nat) (b : List Nat) (f : Thread → Thread) : (s.modThreads a b f).launches = s.launches := rfl
@[simp] theorem modThreads_teams (a : Nat) (b : List Nat) (f : Thread → Thread) : (s.modThreads a b f).teams = s.teams := rfl
@[simp] theorem modThreads_groups (a : Nat) (b : List Nat) (f : Thread → Thread) : (s.modThreads a b f).groups = s.groups := rfl
@[simp] theorem modThreads_cores (a : Nat) (b : List Nat) (f : Thread → Thread) : (s.modThreads a b f).cores = s.cores := rfl
@[simp] theorem modThreads_main (a : Nat) (b : List Nat) (f : Thread → Thread) : (s.modThreads a b f).main = s.main := rfl
@[simp] theorem modThreads_dsm (a : Nat) (b : List Nat) (f : Thread → Thread) : (s.modThreads a b f).dsm = s.dsm := rfl
@[simp] theorem modThreads_sys (a : Nat) (b : List Nat) (f : Thread → Thread) : (s.modThreads a b f).sys = s.sys := rfl
@[simp] theorem modThreads_absent (a : Nat) (b : List Nat) (f : Thread → Thread) : (s.modThreads a b f).absent = s.absent := rfl
@[simp] theorem modThreads_dsmTags (a : Nat) (b : List Nat) (f : Thread → Thread) : (s.modThreads a b f).dsmTags = s.dsmTags := rfl
@[simp] theorem modThreads_hist (a : Nat) (b : List Nat) (f : Thread → Thread) : (s.modThreads a b f).hist = s.hist := rfl
@[simp] theorem modThreads_lineViews (a : Nat) (b : List Nat) (f : Thread → Thread) : (s.modThreads a b f).lineViews = s.lineViews := rfl
@[simp] theorem modThreads_loads (a : Nat) (b : List Nat) (f : Thread → Thread) : (s.modThreads a b f).loads = s.loads := rfl
@[simp] theorem modThreads_xfers (a : Nat) (b : List Nat) (f : Thread → Thread) : (s.modThreads a b f).xfers = s.xfers := rfl
@[simp] theorem modThreads_tileOps (a : Nat) (b : List Nat) (f : Thread → Thread) : (s.modThreads a b f).tileOps = s.tileOps := rfl
@[simp] theorem modThreads_tlbinvs (a : Nat) (b : List Nat) (f : Thread → Thread) : (s.modThreads a b f).tlbinvs = s.tlbinvs := rfl
@[simp] theorem modThreads_queues (a : Nat) (b : List Nat) (f : Thread → Thread) : (s.modThreads a b f).queues = s.queues := rfl
@[simp] theorem modThreads_lastQueue (a : Nat) (b : List Nat) (f : Thread → Thread) : (s.modThreads a b f).lastQueue = s.lastQueue := rfl
@[simp] theorem modThreads_asids (a : Nat) (b : List Nat) (f : Thread → Thread) : (s.modThreads a b f).asids = s.asids := rfl
@[simp] theorem modThreads_regions (a : Nat) (b : List Nat) (f : Thread → Thread) : (s.modThreads a b f).regions = s.regions := rfl
@[simp] theorem modThreads_conversions (a : Nat) (b : List Nat) (f : Thread → Thread) : (s.modThreads a b f).conversions = s.conversions := rfl
@[simp] theorem modThreads_placement (a : Nat) (b : List Nat) (f : Thread → Thread) : (s.modThreads a b f).placement = s.placement := rfl
@[simp] theorem modThreads_transit (a : Nat) (b : List Nat) (f : Thread → Thread) : (s.modThreads a b f).transit = s.transit := rfl
@[simp] theorem modThreads_dones (a : Nat) (b : List Nat) (f : Thread → Thread) : (s.modThreads a b f).dones = s.dones := rfl
@[simp] theorem modThreads_mcast (a : Nat) (b : List Nat) (f : Thread → Thread) : (s.modThreads a b f).mcast = s.mcast := rfl
@[simp] theorem modThreads_cadence (a : Nat) (b : List Nat) (f : Thread → Thread) : (s.modThreads a b f).cadence = s.cadence := rfl
@[simp] theorem modThreads_quorum (a : Nat) (b : List Nat) (f : Thread → Thread) : (s.modThreads a b f).quorum = s.quorum := rfl
@[simp] theorem modThreads_decls (a : Nat) (b : List Nat) (f : Thread → Thread) : (s.modThreads a b f).decls = s.decls := rfl
@[simp] theorem modThreads_huddleStop (a : Nat) (b : List Nat) (f : Thread → Thread) : (s.modThreads a b f).huddleStop = s.huddleStop := rfl
@[simp] theorem modThreads_stopGrp (a : Nat) (b : List Nat) (f : Thread → Thread) : (s.modThreads a b f).stopGrp = s.stopGrp := rfl
@[simp] theorem modThreads_qresults (a : Nat) (b : List Nat) (f : Thread → Thread) : (s.modThreads a b f).qresults = s.qresults := rfl
@[simp] theorem modThreads_qreplies (a : Nat) (b : List Nat) (f : Thread → Thread) : (s.modThreads a b f).qreplies = s.qreplies := rfl
@[simp] theorem modThreads_faults (a : Nat) (b : List Nat) (f : Thread → Thread) : (s.modThreads a b f).faults = s.faults := rfl
@[simp] theorem modThreads_faultsWaiting (a : Nat) (b : List Nat) (f : Thread → Thread) : (s.modThreads a b f).faultsWaiting = s.faultsWaiting := rfl
@[simp] theorem modThreads_watch (a : Nat) (b : List Nat) (f : Thread → Thread) : (s.modThreads a b f).watch = s.watch := rfl
@[simp] theorem modThreads_fabric (a : Nat) (b : List Nat) (f : Thread → Thread) : (s.modThreads a b f).fabric = s.fabric := rfl
@[simp] theorem modThreads_outbox (a : Nat) (b : List Nat) (f : Thread → Thread) : (s.modThreads a b f).outbox = s.outbox := rfl
@[simp] theorem modThreads_routes (a : Nat) (b : List Nat) (f : Thread → Thread) : (s.modThreads a b f).routes = s.routes := rfl
@[simp] theorem modThreads_failedPorts (a : Nat) (b : List Nat) (f : Thread → Thread) : (s.modThreads a b f).failedPorts = s.failedPorts := rfl
@[simp] theorem modThreads_bankUnits (a : Nat) (b : List Nat) (f : Thread → Thread) : (s.modThreads a b f).bankUnits = s.bankUnits := rfl
@[simp] theorem modThreads_waitingCmds (a : Nat) (b : List Nat) (f : Thread → Thread) : (s.modThreads a b f).waitingCmds = s.waitingCmds := rfl
@[simp] theorem modThreads_mailbox (a : Nat) (b : List Nat) (f : Thread → Thread) : (s.modThreads a b f).mailbox = s.mailbox := rfl
@[simp] theorem modThreads_hostCtl (a : Nat) (b : List Nat) (f : Thread → Thread) : (s.modThreads a b f).hostCtl = s.hostCtl := rfl
@[simp] theorem modThreads_badWords (a : Nat) (b : List Nat) (f : Thread → Thread) : (s.modThreads a b f).badWords = s.badWords := rfl
@[simp] theorem modThreads_routers (a : Nat) (b : List Nat) (f : Thread → Thread) : (s.modThreads a b f).routers = s.routers := rfl
@[simp] theorem modThreads_transits (a : Nat) (b : List Nat) (f : Thread → Thread) : (s.modThreads a b f).transits = s.transits := rfl
@[simp] theorem modThreads_gateways (a : Nat) (b : List Nat) (f : Thread → Thread) : (s.modThreads a b f).gateways = s.gateways := rfl
@[simp] theorem modThreads_golden (a : Nat) (b : List Nat) (f : Thread → Thread) : (s.modThreads a b f).golden = s.golden := rfl
@[simp] theorem modThreads_nextId (a : Nat) (b : List Nat) (f : Thread → Thread) : (s.modThreads a b f).nextId = s.nextId := rfl
@[simp] theorem modThreads_freeCount (a : Nat) (b : List Nat) (f : Thread → Thread) : (s.modThreads a b f).freeCount = s.freeCount := rfl
@[simp] theorem modThreads_agenda (a : Nat) (b : List Nat) (f : Thread → Thread) : (s.modThreads a b f).agenda = s.agenda := rfl
@[simp] theorem modThreads_cur (a : Nat) (b : List Nat) (f : Thread → Thread) : (s.modThreads a b f).cur = s.cur := rfl
@[simp] theorem modThreads_shadow (a : Nat) (b : List Nat) (f : Thread → Thread) : (s.modThreads a b f).shadow = s.shadow := rfl

/-! ### mapThreads -/

@[simp] theorem mapThreads_clk (p : Thread → Bool) (f : Thread → Thread) : (s.mapThreads p f).clk = s.clk := rfl
@[simp] theorem mapThreads_power (p : Thread → Bool) (f : Thread → Thread) : (s.mapThreads p f).power = s.power := rfl
@[simp] theorem mapThreads_resil (p : Thread → Bool) (f : Thread → Thread) : (s.mapThreads p f).resil = s.resil := rfl
@[simp] theorem mapThreads_nmwin (p : Thread → Bool) (f : Thread → Thread) : (s.mapThreads p f).nmwin = s.nmwin := rfl
@[simp] theorem mapThreads_faultRetryMax (p : Thread → Bool) (f : Thread → Thread) : (s.mapThreads p f).faultRetryMax = s.faultRetryMax := rfl
@[simp] theorem mapThreads_trctl (p : Thread → Bool) (f : Thread → Thread) : (s.mapThreads p f).trctl = s.trctl := rfl
@[simp] theorem mapThreads_launches (p : Thread → Bool) (f : Thread → Thread) : (s.mapThreads p f).launches = s.launches := rfl
@[simp] theorem mapThreads_teams (p : Thread → Bool) (f : Thread → Thread) : (s.mapThreads p f).teams = s.teams := rfl
@[simp] theorem mapThreads_groups (p : Thread → Bool) (f : Thread → Thread) : (s.mapThreads p f).groups = s.groups := rfl
@[simp] theorem mapThreads_cores (p : Thread → Bool) (f : Thread → Thread) : (s.mapThreads p f).cores = s.cores := rfl
@[simp] theorem mapThreads_main (p : Thread → Bool) (f : Thread → Thread) : (s.mapThreads p f).main = s.main := rfl
@[simp] theorem mapThreads_dsm (p : Thread → Bool) (f : Thread → Thread) : (s.mapThreads p f).dsm = s.dsm := rfl
@[simp] theorem mapThreads_sys (p : Thread → Bool) (f : Thread → Thread) : (s.mapThreads p f).sys = s.sys := rfl
@[simp] theorem mapThreads_absent (p : Thread → Bool) (f : Thread → Thread) : (s.mapThreads p f).absent = s.absent := rfl
@[simp] theorem mapThreads_dsmTags (p : Thread → Bool) (f : Thread → Thread) : (s.mapThreads p f).dsmTags = s.dsmTags := rfl
@[simp] theorem mapThreads_hist (p : Thread → Bool) (f : Thread → Thread) : (s.mapThreads p f).hist = s.hist := rfl
@[simp] theorem mapThreads_lineViews (p : Thread → Bool) (f : Thread → Thread) : (s.mapThreads p f).lineViews = s.lineViews := rfl
@[simp] theorem mapThreads_loads (p : Thread → Bool) (f : Thread → Thread) : (s.mapThreads p f).loads = s.loads := rfl
@[simp] theorem mapThreads_xfers (p : Thread → Bool) (f : Thread → Thread) : (s.mapThreads p f).xfers = s.xfers := rfl
@[simp] theorem mapThreads_tileOps (p : Thread → Bool) (f : Thread → Thread) : (s.mapThreads p f).tileOps = s.tileOps := rfl
@[simp] theorem mapThreads_tlbinvs (p : Thread → Bool) (f : Thread → Thread) : (s.mapThreads p f).tlbinvs = s.tlbinvs := rfl
@[simp] theorem mapThreads_queues (p : Thread → Bool) (f : Thread → Thread) : (s.mapThreads p f).queues = s.queues := rfl
@[simp] theorem mapThreads_lastQueue (p : Thread → Bool) (f : Thread → Thread) : (s.mapThreads p f).lastQueue = s.lastQueue := rfl
@[simp] theorem mapThreads_asids (p : Thread → Bool) (f : Thread → Thread) : (s.mapThreads p f).asids = s.asids := rfl
@[simp] theorem mapThreads_regions (p : Thread → Bool) (f : Thread → Thread) : (s.mapThreads p f).regions = s.regions := rfl
@[simp] theorem mapThreads_conversions (p : Thread → Bool) (f : Thread → Thread) : (s.mapThreads p f).conversions = s.conversions := rfl
@[simp] theorem mapThreads_placement (p : Thread → Bool) (f : Thread → Thread) : (s.mapThreads p f).placement = s.placement := rfl
@[simp] theorem mapThreads_transit (p : Thread → Bool) (f : Thread → Thread) : (s.mapThreads p f).transit = s.transit := rfl
@[simp] theorem mapThreads_dones (p : Thread → Bool) (f : Thread → Thread) : (s.mapThreads p f).dones = s.dones := rfl
@[simp] theorem mapThreads_mcast (p : Thread → Bool) (f : Thread → Thread) : (s.mapThreads p f).mcast = s.mcast := rfl
@[simp] theorem mapThreads_cadence (p : Thread → Bool) (f : Thread → Thread) : (s.mapThreads p f).cadence = s.cadence := rfl
@[simp] theorem mapThreads_quorum (p : Thread → Bool) (f : Thread → Thread) : (s.mapThreads p f).quorum = s.quorum := rfl
@[simp] theorem mapThreads_decls (p : Thread → Bool) (f : Thread → Thread) : (s.mapThreads p f).decls = s.decls := rfl
@[simp] theorem mapThreads_huddleStop (p : Thread → Bool) (f : Thread → Thread) : (s.mapThreads p f).huddleStop = s.huddleStop := rfl
@[simp] theorem mapThreads_stopGrp (p : Thread → Bool) (f : Thread → Thread) : (s.mapThreads p f).stopGrp = s.stopGrp := rfl
@[simp] theorem mapThreads_qresults (p : Thread → Bool) (f : Thread → Thread) : (s.mapThreads p f).qresults = s.qresults := rfl
@[simp] theorem mapThreads_qreplies (p : Thread → Bool) (f : Thread → Thread) : (s.mapThreads p f).qreplies = s.qreplies := rfl
@[simp] theorem mapThreads_faults (p : Thread → Bool) (f : Thread → Thread) : (s.mapThreads p f).faults = s.faults := rfl
@[simp] theorem mapThreads_faultsWaiting (p : Thread → Bool) (f : Thread → Thread) : (s.mapThreads p f).faultsWaiting = s.faultsWaiting := rfl
@[simp] theorem mapThreads_watch (p : Thread → Bool) (f : Thread → Thread) : (s.mapThreads p f).watch = s.watch := rfl
@[simp] theorem mapThreads_fabric (p : Thread → Bool) (f : Thread → Thread) : (s.mapThreads p f).fabric = s.fabric := rfl
@[simp] theorem mapThreads_outbox (p : Thread → Bool) (f : Thread → Thread) : (s.mapThreads p f).outbox = s.outbox := rfl
@[simp] theorem mapThreads_routes (p : Thread → Bool) (f : Thread → Thread) : (s.mapThreads p f).routes = s.routes := rfl
@[simp] theorem mapThreads_failedPorts (p : Thread → Bool) (f : Thread → Thread) : (s.mapThreads p f).failedPorts = s.failedPorts := rfl
@[simp] theorem mapThreads_bankUnits (p : Thread → Bool) (f : Thread → Thread) : (s.mapThreads p f).bankUnits = s.bankUnits := rfl
@[simp] theorem mapThreads_waitingCmds (p : Thread → Bool) (f : Thread → Thread) : (s.mapThreads p f).waitingCmds = s.waitingCmds := rfl
@[simp] theorem mapThreads_mailbox (p : Thread → Bool) (f : Thread → Thread) : (s.mapThreads p f).mailbox = s.mailbox := rfl
@[simp] theorem mapThreads_hostCtl (p : Thread → Bool) (f : Thread → Thread) : (s.mapThreads p f).hostCtl = s.hostCtl := rfl
@[simp] theorem mapThreads_badWords (p : Thread → Bool) (f : Thread → Thread) : (s.mapThreads p f).badWords = s.badWords := rfl
@[simp] theorem mapThreads_routers (p : Thread → Bool) (f : Thread → Thread) : (s.mapThreads p f).routers = s.routers := rfl
@[simp] theorem mapThreads_transits (p : Thread → Bool) (f : Thread → Thread) : (s.mapThreads p f).transits = s.transits := rfl
@[simp] theorem mapThreads_gateways (p : Thread → Bool) (f : Thread → Thread) : (s.mapThreads p f).gateways = s.gateways := rfl
@[simp] theorem mapThreads_golden (p : Thread → Bool) (f : Thread → Thread) : (s.mapThreads p f).golden = s.golden := rfl
@[simp] theorem mapThreads_nextId (p : Thread → Bool) (f : Thread → Thread) : (s.mapThreads p f).nextId = s.nextId := rfl
@[simp] theorem mapThreads_freeCount (p : Thread → Bool) (f : Thread → Thread) : (s.mapThreads p f).freeCount = s.freeCount := rfl
@[simp] theorem mapThreads_agenda (p : Thread → Bool) (f : Thread → Thread) : (s.mapThreads p f).agenda = s.agenda := rfl
@[simp] theorem mapThreads_cur (p : Thread → Bool) (f : Thread → Thread) : (s.mapThreads p f).cur = s.cur := rfl
@[simp] theorem mapThreads_shadow (p : Thread → Bool) (f : Thread → Thread) : (s.mapThreads p f).shadow = s.shadow := rfl

/-! ### modHg -/

@[simp] theorem modHg_clk (a b c : Nat) (f : HomeGroup → HomeGroup) : (s.modHg a b c f).clk = s.clk := rfl
@[simp] theorem modHg_power (a b c : Nat) (f : HomeGroup → HomeGroup) : (s.modHg a b c f).power = s.power := rfl
@[simp] theorem modHg_resil (a b c : Nat) (f : HomeGroup → HomeGroup) : (s.modHg a b c f).resil = s.resil := rfl
@[simp] theorem modHg_nmwin (a b c : Nat) (f : HomeGroup → HomeGroup) : (s.modHg a b c f).nmwin = s.nmwin := rfl
@[simp] theorem modHg_faultRetryMax (a b c : Nat) (f : HomeGroup → HomeGroup) : (s.modHg a b c f).faultRetryMax = s.faultRetryMax := rfl
@[simp] theorem modHg_trctl (a b c : Nat) (f : HomeGroup → HomeGroup) : (s.modHg a b c f).trctl = s.trctl := rfl
@[simp] theorem modHg_launches (a b c : Nat) (f : HomeGroup → HomeGroup) : (s.modHg a b c f).launches = s.launches := rfl
@[simp] theorem modHg_teams (a b c : Nat) (f : HomeGroup → HomeGroup) : (s.modHg a b c f).teams = s.teams := rfl
@[simp] theorem modHg_threads (a b c : Nat) (f : HomeGroup → HomeGroup) : (s.modHg a b c f).threads = s.threads := rfl
@[simp] theorem modHg_cores (a b c : Nat) (f : HomeGroup → HomeGroup) : (s.modHg a b c f).cores = s.cores := rfl
@[simp] theorem modHg_main (a b c : Nat) (f : HomeGroup → HomeGroup) : (s.modHg a b c f).main = s.main := rfl
@[simp] theorem modHg_dsm (a b c : Nat) (f : HomeGroup → HomeGroup) : (s.modHg a b c f).dsm = s.dsm := rfl
@[simp] theorem modHg_sys (a b c : Nat) (f : HomeGroup → HomeGroup) : (s.modHg a b c f).sys = s.sys := rfl
@[simp] theorem modHg_absent (a b c : Nat) (f : HomeGroup → HomeGroup) : (s.modHg a b c f).absent = s.absent := rfl
@[simp] theorem modHg_dsmTags (a b c : Nat) (f : HomeGroup → HomeGroup) : (s.modHg a b c f).dsmTags = s.dsmTags := rfl
@[simp] theorem modHg_hist (a b c : Nat) (f : HomeGroup → HomeGroup) : (s.modHg a b c f).hist = s.hist := rfl
@[simp] theorem modHg_lineViews (a b c : Nat) (f : HomeGroup → HomeGroup) : (s.modHg a b c f).lineViews = s.lineViews := rfl
@[simp] theorem modHg_loads (a b c : Nat) (f : HomeGroup → HomeGroup) : (s.modHg a b c f).loads = s.loads := rfl
@[simp] theorem modHg_xfers (a b c : Nat) (f : HomeGroup → HomeGroup) : (s.modHg a b c f).xfers = s.xfers := rfl
@[simp] theorem modHg_tileOps (a b c : Nat) (f : HomeGroup → HomeGroup) : (s.modHg a b c f).tileOps = s.tileOps := rfl
@[simp] theorem modHg_tlbinvs (a b c : Nat) (f : HomeGroup → HomeGroup) : (s.modHg a b c f).tlbinvs = s.tlbinvs := rfl
@[simp] theorem modHg_queues (a b c : Nat) (f : HomeGroup → HomeGroup) : (s.modHg a b c f).queues = s.queues := rfl
@[simp] theorem modHg_lastQueue (a b c : Nat) (f : HomeGroup → HomeGroup) : (s.modHg a b c f).lastQueue = s.lastQueue := rfl
@[simp] theorem modHg_asids (a b c : Nat) (f : HomeGroup → HomeGroup) : (s.modHg a b c f).asids = s.asids := rfl
@[simp] theorem modHg_regions (a b c : Nat) (f : HomeGroup → HomeGroup) : (s.modHg a b c f).regions = s.regions := rfl
@[simp] theorem modHg_conversions (a b c : Nat) (f : HomeGroup → HomeGroup) : (s.modHg a b c f).conversions = s.conversions := rfl
@[simp] theorem modHg_placement (a b c : Nat) (f : HomeGroup → HomeGroup) : (s.modHg a b c f).placement = s.placement := rfl
@[simp] theorem modHg_transit (a b c : Nat) (f : HomeGroup → HomeGroup) : (s.modHg a b c f).transit = s.transit := rfl
@[simp] theorem modHg_dones (a b c : Nat) (f : HomeGroup → HomeGroup) : (s.modHg a b c f).dones = s.dones := rfl
@[simp] theorem modHg_mcast (a b c : Nat) (f : HomeGroup → HomeGroup) : (s.modHg a b c f).mcast = s.mcast := rfl
@[simp] theorem modHg_cadence (a b c : Nat) (f : HomeGroup → HomeGroup) : (s.modHg a b c f).cadence = s.cadence := rfl
@[simp] theorem modHg_quorum (a b c : Nat) (f : HomeGroup → HomeGroup) : (s.modHg a b c f).quorum = s.quorum := rfl
@[simp] theorem modHg_decls (a b c : Nat) (f : HomeGroup → HomeGroup) : (s.modHg a b c f).decls = s.decls := rfl
@[simp] theorem modHg_huddleStop (a b c : Nat) (f : HomeGroup → HomeGroup) : (s.modHg a b c f).huddleStop = s.huddleStop := rfl
@[simp] theorem modHg_stopGrp (a b c : Nat) (f : HomeGroup → HomeGroup) : (s.modHg a b c f).stopGrp = s.stopGrp := rfl
@[simp] theorem modHg_qresults (a b c : Nat) (f : HomeGroup → HomeGroup) : (s.modHg a b c f).qresults = s.qresults := rfl
@[simp] theorem modHg_qreplies (a b c : Nat) (f : HomeGroup → HomeGroup) : (s.modHg a b c f).qreplies = s.qreplies := rfl
@[simp] theorem modHg_faults (a b c : Nat) (f : HomeGroup → HomeGroup) : (s.modHg a b c f).faults = s.faults := rfl
@[simp] theorem modHg_faultsWaiting (a b c : Nat) (f : HomeGroup → HomeGroup) : (s.modHg a b c f).faultsWaiting = s.faultsWaiting := rfl
@[simp] theorem modHg_watch (a b c : Nat) (f : HomeGroup → HomeGroup) : (s.modHg a b c f).watch = s.watch := rfl
@[simp] theorem modHg_fabric (a b c : Nat) (f : HomeGroup → HomeGroup) : (s.modHg a b c f).fabric = s.fabric := rfl
@[simp] theorem modHg_outbox (a b c : Nat) (f : HomeGroup → HomeGroup) : (s.modHg a b c f).outbox = s.outbox := rfl
@[simp] theorem modHg_routes (a b c : Nat) (f : HomeGroup → HomeGroup) : (s.modHg a b c f).routes = s.routes := rfl
@[simp] theorem modHg_failedPorts (a b c : Nat) (f : HomeGroup → HomeGroup) : (s.modHg a b c f).failedPorts = s.failedPorts := rfl
@[simp] theorem modHg_bankUnits (a b c : Nat) (f : HomeGroup → HomeGroup) : (s.modHg a b c f).bankUnits = s.bankUnits := rfl
@[simp] theorem modHg_waitingCmds (a b c : Nat) (f : HomeGroup → HomeGroup) : (s.modHg a b c f).waitingCmds = s.waitingCmds := rfl
@[simp] theorem modHg_mailbox (a b c : Nat) (f : HomeGroup → HomeGroup) : (s.modHg a b c f).mailbox = s.mailbox := rfl
@[simp] theorem modHg_hostCtl (a b c : Nat) (f : HomeGroup → HomeGroup) : (s.modHg a b c f).hostCtl = s.hostCtl := rfl
@[simp] theorem modHg_badWords (a b c : Nat) (f : HomeGroup → HomeGroup) : (s.modHg a b c f).badWords = s.badWords := rfl
@[simp] theorem modHg_routers (a b c : Nat) (f : HomeGroup → HomeGroup) : (s.modHg a b c f).routers = s.routers := rfl
@[simp] theorem modHg_transits (a b c : Nat) (f : HomeGroup → HomeGroup) : (s.modHg a b c f).transits = s.transits := rfl
@[simp] theorem modHg_gateways (a b c : Nat) (f : HomeGroup → HomeGroup) : (s.modHg a b c f).gateways = s.gateways := rfl
@[simp] theorem modHg_golden (a b c : Nat) (f : HomeGroup → HomeGroup) : (s.modHg a b c f).golden = s.golden := rfl
@[simp] theorem modHg_nextId (a b c : Nat) (f : HomeGroup → HomeGroup) : (s.modHg a b c f).nextId = s.nextId := rfl
@[simp] theorem modHg_freeCount (a b c : Nat) (f : HomeGroup → HomeGroup) : (s.modHg a b c f).freeCount = s.freeCount := rfl
@[simp] theorem modHg_agenda (a b c : Nat) (f : HomeGroup → HomeGroup) : (s.modHg a b c f).agenda = s.agenda := rfl
@[simp] theorem modHg_cur (a b c : Nat) (f : HomeGroup → HomeGroup) : (s.modHg a b c f).cur = s.cur := rfl
@[simp] theorem modHg_shadow (a b c : Nat) (f : HomeGroup → HomeGroup) : (s.modHg a b c f).shadow = s.shadow := rfl

/-! ### modTeam -/

@[simp] theorem modTeam_clk (a : Nat) (f : Team → Team) : (s.modTeam a f).clk = s.clk := rfl
@[simp] theorem modTeam_power (a : Nat) (f : Team → Team) : (s.modTeam a f).power = s.power := rfl
@[simp] theorem modTeam_resil (a : Nat) (f : Team → Team) : (s.modTeam a f).resil = s.resil := rfl
@[simp] theorem modTeam_nmwin (a : Nat) (f : Team → Team) : (s.modTeam a f).nmwin = s.nmwin := rfl
@[simp] theorem modTeam_faultRetryMax (a : Nat) (f : Team → Team) : (s.modTeam a f).faultRetryMax = s.faultRetryMax := rfl
@[simp] theorem modTeam_trctl (a : Nat) (f : Team → Team) : (s.modTeam a f).trctl = s.trctl := rfl
@[simp] theorem modTeam_launches (a : Nat) (f : Team → Team) : (s.modTeam a f).launches = s.launches := rfl
@[simp] theorem modTeam_groups (a : Nat) (f : Team → Team) : (s.modTeam a f).groups = s.groups := rfl
@[simp] theorem modTeam_threads (a : Nat) (f : Team → Team) : (s.modTeam a f).threads = s.threads := rfl
@[simp] theorem modTeam_cores (a : Nat) (f : Team → Team) : (s.modTeam a f).cores = s.cores := rfl
@[simp] theorem modTeam_main (a : Nat) (f : Team → Team) : (s.modTeam a f).main = s.main := rfl
@[simp] theorem modTeam_dsm (a : Nat) (f : Team → Team) : (s.modTeam a f).dsm = s.dsm := rfl
@[simp] theorem modTeam_sys (a : Nat) (f : Team → Team) : (s.modTeam a f).sys = s.sys := rfl
@[simp] theorem modTeam_absent (a : Nat) (f : Team → Team) : (s.modTeam a f).absent = s.absent := rfl
@[simp] theorem modTeam_dsmTags (a : Nat) (f : Team → Team) : (s.modTeam a f).dsmTags = s.dsmTags := rfl
@[simp] theorem modTeam_hist (a : Nat) (f : Team → Team) : (s.modTeam a f).hist = s.hist := rfl
@[simp] theorem modTeam_lineViews (a : Nat) (f : Team → Team) : (s.modTeam a f).lineViews = s.lineViews := rfl
@[simp] theorem modTeam_loads (a : Nat) (f : Team → Team) : (s.modTeam a f).loads = s.loads := rfl
@[simp] theorem modTeam_xfers (a : Nat) (f : Team → Team) : (s.modTeam a f).xfers = s.xfers := rfl
@[simp] theorem modTeam_tileOps (a : Nat) (f : Team → Team) : (s.modTeam a f).tileOps = s.tileOps := rfl
@[simp] theorem modTeam_tlbinvs (a : Nat) (f : Team → Team) : (s.modTeam a f).tlbinvs = s.tlbinvs := rfl
@[simp] theorem modTeam_queues (a : Nat) (f : Team → Team) : (s.modTeam a f).queues = s.queues := rfl
@[simp] theorem modTeam_lastQueue (a : Nat) (f : Team → Team) : (s.modTeam a f).lastQueue = s.lastQueue := rfl
@[simp] theorem modTeam_asids (a : Nat) (f : Team → Team) : (s.modTeam a f).asids = s.asids := rfl
@[simp] theorem modTeam_regions (a : Nat) (f : Team → Team) : (s.modTeam a f).regions = s.regions := rfl
@[simp] theorem modTeam_conversions (a : Nat) (f : Team → Team) : (s.modTeam a f).conversions = s.conversions := rfl
@[simp] theorem modTeam_placement (a : Nat) (f : Team → Team) : (s.modTeam a f).placement = s.placement := rfl
@[simp] theorem modTeam_transit (a : Nat) (f : Team → Team) : (s.modTeam a f).transit = s.transit := rfl
@[simp] theorem modTeam_dones (a : Nat) (f : Team → Team) : (s.modTeam a f).dones = s.dones := rfl
@[simp] theorem modTeam_mcast (a : Nat) (f : Team → Team) : (s.modTeam a f).mcast = s.mcast := rfl
@[simp] theorem modTeam_cadence (a : Nat) (f : Team → Team) : (s.modTeam a f).cadence = s.cadence := rfl
@[simp] theorem modTeam_quorum (a : Nat) (f : Team → Team) : (s.modTeam a f).quorum = s.quorum := rfl
@[simp] theorem modTeam_decls (a : Nat) (f : Team → Team) : (s.modTeam a f).decls = s.decls := rfl
@[simp] theorem modTeam_huddleStop (a : Nat) (f : Team → Team) : (s.modTeam a f).huddleStop = s.huddleStop := rfl
@[simp] theorem modTeam_stopGrp (a : Nat) (f : Team → Team) : (s.modTeam a f).stopGrp = s.stopGrp := rfl
@[simp] theorem modTeam_qresults (a : Nat) (f : Team → Team) : (s.modTeam a f).qresults = s.qresults := rfl
@[simp] theorem modTeam_qreplies (a : Nat) (f : Team → Team) : (s.modTeam a f).qreplies = s.qreplies := rfl
@[simp] theorem modTeam_faults (a : Nat) (f : Team → Team) : (s.modTeam a f).faults = s.faults := rfl
@[simp] theorem modTeam_faultsWaiting (a : Nat) (f : Team → Team) : (s.modTeam a f).faultsWaiting = s.faultsWaiting := rfl
@[simp] theorem modTeam_watch (a : Nat) (f : Team → Team) : (s.modTeam a f).watch = s.watch := rfl
@[simp] theorem modTeam_fabric (a : Nat) (f : Team → Team) : (s.modTeam a f).fabric = s.fabric := rfl
@[simp] theorem modTeam_outbox (a : Nat) (f : Team → Team) : (s.modTeam a f).outbox = s.outbox := rfl
@[simp] theorem modTeam_routes (a : Nat) (f : Team → Team) : (s.modTeam a f).routes = s.routes := rfl
@[simp] theorem modTeam_failedPorts (a : Nat) (f : Team → Team) : (s.modTeam a f).failedPorts = s.failedPorts := rfl
@[simp] theorem modTeam_bankUnits (a : Nat) (f : Team → Team) : (s.modTeam a f).bankUnits = s.bankUnits := rfl
@[simp] theorem modTeam_waitingCmds (a : Nat) (f : Team → Team) : (s.modTeam a f).waitingCmds = s.waitingCmds := rfl
@[simp] theorem modTeam_mailbox (a : Nat) (f : Team → Team) : (s.modTeam a f).mailbox = s.mailbox := rfl
@[simp] theorem modTeam_hostCtl (a : Nat) (f : Team → Team) : (s.modTeam a f).hostCtl = s.hostCtl := rfl
@[simp] theorem modTeam_badWords (a : Nat) (f : Team → Team) : (s.modTeam a f).badWords = s.badWords := rfl
@[simp] theorem modTeam_routers (a : Nat) (f : Team → Team) : (s.modTeam a f).routers = s.routers := rfl
@[simp] theorem modTeam_transits (a : Nat) (f : Team → Team) : (s.modTeam a f).transits = s.transits := rfl
@[simp] theorem modTeam_gateways (a : Nat) (f : Team → Team) : (s.modTeam a f).gateways = s.gateways := rfl
@[simp] theorem modTeam_golden (a : Nat) (f : Team → Team) : (s.modTeam a f).golden = s.golden := rfl
@[simp] theorem modTeam_nextId (a : Nat) (f : Team → Team) : (s.modTeam a f).nextId = s.nextId := rfl
@[simp] theorem modTeam_freeCount (a : Nat) (f : Team → Team) : (s.modTeam a f).freeCount = s.freeCount := rfl
@[simp] theorem modTeam_agenda (a : Nat) (f : Team → Team) : (s.modTeam a f).agenda = s.agenda := rfl
@[simp] theorem modTeam_cur (a : Nat) (f : Team → Team) : (s.modTeam a f).cur = s.cur := rfl
@[simp] theorem modTeam_shadow (a : Nat) (f : Team → Team) : (s.modTeam a f).shadow = s.shadow := rfl

/-! ### modLaunch -/

@[simp] theorem modLaunch_clk (a : Nat) (f : Launch → Launch) : (s.modLaunch a f).clk = s.clk := rfl
@[simp] theorem modLaunch_power (a : Nat) (f : Launch → Launch) : (s.modLaunch a f).power = s.power := rfl
@[simp] theorem modLaunch_resil (a : Nat) (f : Launch → Launch) : (s.modLaunch a f).resil = s.resil := rfl
@[simp] theorem modLaunch_nmwin (a : Nat) (f : Launch → Launch) : (s.modLaunch a f).nmwin = s.nmwin := rfl
@[simp] theorem modLaunch_faultRetryMax (a : Nat) (f : Launch → Launch) : (s.modLaunch a f).faultRetryMax = s.faultRetryMax := rfl
@[simp] theorem modLaunch_trctl (a : Nat) (f : Launch → Launch) : (s.modLaunch a f).trctl = s.trctl := rfl
@[simp] theorem modLaunch_teams (a : Nat) (f : Launch → Launch) : (s.modLaunch a f).teams = s.teams := rfl
@[simp] theorem modLaunch_groups (a : Nat) (f : Launch → Launch) : (s.modLaunch a f).groups = s.groups := rfl
@[simp] theorem modLaunch_threads (a : Nat) (f : Launch → Launch) : (s.modLaunch a f).threads = s.threads := rfl
@[simp] theorem modLaunch_cores (a : Nat) (f : Launch → Launch) : (s.modLaunch a f).cores = s.cores := rfl
@[simp] theorem modLaunch_main (a : Nat) (f : Launch → Launch) : (s.modLaunch a f).main = s.main := rfl
@[simp] theorem modLaunch_dsm (a : Nat) (f : Launch → Launch) : (s.modLaunch a f).dsm = s.dsm := rfl
@[simp] theorem modLaunch_sys (a : Nat) (f : Launch → Launch) : (s.modLaunch a f).sys = s.sys := rfl
@[simp] theorem modLaunch_absent (a : Nat) (f : Launch → Launch) : (s.modLaunch a f).absent = s.absent := rfl
@[simp] theorem modLaunch_dsmTags (a : Nat) (f : Launch → Launch) : (s.modLaunch a f).dsmTags = s.dsmTags := rfl
@[simp] theorem modLaunch_hist (a : Nat) (f : Launch → Launch) : (s.modLaunch a f).hist = s.hist := rfl
@[simp] theorem modLaunch_lineViews (a : Nat) (f : Launch → Launch) : (s.modLaunch a f).lineViews = s.lineViews := rfl
@[simp] theorem modLaunch_loads (a : Nat) (f : Launch → Launch) : (s.modLaunch a f).loads = s.loads := rfl
@[simp] theorem modLaunch_xfers (a : Nat) (f : Launch → Launch) : (s.modLaunch a f).xfers = s.xfers := rfl
@[simp] theorem modLaunch_tileOps (a : Nat) (f : Launch → Launch) : (s.modLaunch a f).tileOps = s.tileOps := rfl
@[simp] theorem modLaunch_tlbinvs (a : Nat) (f : Launch → Launch) : (s.modLaunch a f).tlbinvs = s.tlbinvs := rfl
@[simp] theorem modLaunch_queues (a : Nat) (f : Launch → Launch) : (s.modLaunch a f).queues = s.queues := rfl
@[simp] theorem modLaunch_lastQueue (a : Nat) (f : Launch → Launch) : (s.modLaunch a f).lastQueue = s.lastQueue := rfl
@[simp] theorem modLaunch_asids (a : Nat) (f : Launch → Launch) : (s.modLaunch a f).asids = s.asids := rfl
@[simp] theorem modLaunch_regions (a : Nat) (f : Launch → Launch) : (s.modLaunch a f).regions = s.regions := rfl
@[simp] theorem modLaunch_conversions (a : Nat) (f : Launch → Launch) : (s.modLaunch a f).conversions = s.conversions := rfl
@[simp] theorem modLaunch_placement (a : Nat) (f : Launch → Launch) : (s.modLaunch a f).placement = s.placement := rfl
@[simp] theorem modLaunch_transit (a : Nat) (f : Launch → Launch) : (s.modLaunch a f).transit = s.transit := rfl
@[simp] theorem modLaunch_dones (a : Nat) (f : Launch → Launch) : (s.modLaunch a f).dones = s.dones := rfl
@[simp] theorem modLaunch_mcast (a : Nat) (f : Launch → Launch) : (s.modLaunch a f).mcast = s.mcast := rfl
@[simp] theorem modLaunch_cadence (a : Nat) (f : Launch → Launch) : (s.modLaunch a f).cadence = s.cadence := rfl
@[simp] theorem modLaunch_quorum (a : Nat) (f : Launch → Launch) : (s.modLaunch a f).quorum = s.quorum := rfl
@[simp] theorem modLaunch_decls (a : Nat) (f : Launch → Launch) : (s.modLaunch a f).decls = s.decls := rfl
@[simp] theorem modLaunch_huddleStop (a : Nat) (f : Launch → Launch) : (s.modLaunch a f).huddleStop = s.huddleStop := rfl
@[simp] theorem modLaunch_stopGrp (a : Nat) (f : Launch → Launch) : (s.modLaunch a f).stopGrp = s.stopGrp := rfl
@[simp] theorem modLaunch_qresults (a : Nat) (f : Launch → Launch) : (s.modLaunch a f).qresults = s.qresults := rfl
@[simp] theorem modLaunch_qreplies (a : Nat) (f : Launch → Launch) : (s.modLaunch a f).qreplies = s.qreplies := rfl
@[simp] theorem modLaunch_faults (a : Nat) (f : Launch → Launch) : (s.modLaunch a f).faults = s.faults := rfl
@[simp] theorem modLaunch_faultsWaiting (a : Nat) (f : Launch → Launch) : (s.modLaunch a f).faultsWaiting = s.faultsWaiting := rfl
@[simp] theorem modLaunch_watch (a : Nat) (f : Launch → Launch) : (s.modLaunch a f).watch = s.watch := rfl
@[simp] theorem modLaunch_fabric (a : Nat) (f : Launch → Launch) : (s.modLaunch a f).fabric = s.fabric := rfl
@[simp] theorem modLaunch_outbox (a : Nat) (f : Launch → Launch) : (s.modLaunch a f).outbox = s.outbox := rfl
@[simp] theorem modLaunch_routes (a : Nat) (f : Launch → Launch) : (s.modLaunch a f).routes = s.routes := rfl
@[simp] theorem modLaunch_failedPorts (a : Nat) (f : Launch → Launch) : (s.modLaunch a f).failedPorts = s.failedPorts := rfl
@[simp] theorem modLaunch_bankUnits (a : Nat) (f : Launch → Launch) : (s.modLaunch a f).bankUnits = s.bankUnits := rfl
@[simp] theorem modLaunch_waitingCmds (a : Nat) (f : Launch → Launch) : (s.modLaunch a f).waitingCmds = s.waitingCmds := rfl
@[simp] theorem modLaunch_mailbox (a : Nat) (f : Launch → Launch) : (s.modLaunch a f).mailbox = s.mailbox := rfl
@[simp] theorem modLaunch_hostCtl (a : Nat) (f : Launch → Launch) : (s.modLaunch a f).hostCtl = s.hostCtl := rfl
@[simp] theorem modLaunch_badWords (a : Nat) (f : Launch → Launch) : (s.modLaunch a f).badWords = s.badWords := rfl
@[simp] theorem modLaunch_routers (a : Nat) (f : Launch → Launch) : (s.modLaunch a f).routers = s.routers := rfl
@[simp] theorem modLaunch_transits (a : Nat) (f : Launch → Launch) : (s.modLaunch a f).transits = s.transits := rfl
@[simp] theorem modLaunch_gateways (a : Nat) (f : Launch → Launch) : (s.modLaunch a f).gateways = s.gateways := rfl
@[simp] theorem modLaunch_golden (a : Nat) (f : Launch → Launch) : (s.modLaunch a f).golden = s.golden := rfl
@[simp] theorem modLaunch_nextId (a : Nat) (f : Launch → Launch) : (s.modLaunch a f).nextId = s.nextId := rfl
@[simp] theorem modLaunch_freeCount (a : Nat) (f : Launch → Launch) : (s.modLaunch a f).freeCount = s.freeCount := rfl
@[simp] theorem modLaunch_agenda (a : Nat) (f : Launch → Launch) : (s.modLaunch a f).agenda = s.agenda := rfl
@[simp] theorem modLaunch_cur (a : Nat) (f : Launch → Launch) : (s.modLaunch a f).cur = s.cur := rfl
@[simp] theorem modLaunch_shadow (a : Nat) (f : Launch → Launch) : (s.modLaunch a f).shadow = s.shadow := rfl

/-! ### modCore -/

@[simp] theorem modCore_clk (a : Nat) (f : Core → Core) : (s.modCore a f).clk = s.clk := rfl
@[simp] theorem modCore_power (a : Nat) (f : Core → Core) : (s.modCore a f).power = s.power := rfl
@[simp] theorem modCore_resil (a : Nat) (f : Core → Core) : (s.modCore a f).resil = s.resil := rfl
@[simp] theorem modCore_nmwin (a : Nat) (f : Core → Core) : (s.modCore a f).nmwin = s.nmwin := rfl
@[simp] theorem modCore_faultRetryMax (a : Nat) (f : Core → Core) : (s.modCore a f).faultRetryMax = s.faultRetryMax := rfl
@[simp] theorem modCore_trctl (a : Nat) (f : Core → Core) : (s.modCore a f).trctl = s.trctl := rfl
@[simp] theorem modCore_launches (a : Nat) (f : Core → Core) : (s.modCore a f).launches = s.launches := rfl
@[simp] theorem modCore_teams (a : Nat) (f : Core → Core) : (s.modCore a f).teams = s.teams := rfl
@[simp] theorem modCore_groups (a : Nat) (f : Core → Core) : (s.modCore a f).groups = s.groups := rfl
@[simp] theorem modCore_threads (a : Nat) (f : Core → Core) : (s.modCore a f).threads = s.threads := rfl
@[simp] theorem modCore_main (a : Nat) (f : Core → Core) : (s.modCore a f).main = s.main := rfl
@[simp] theorem modCore_dsm (a : Nat) (f : Core → Core) : (s.modCore a f).dsm = s.dsm := rfl
@[simp] theorem modCore_sys (a : Nat) (f : Core → Core) : (s.modCore a f).sys = s.sys := rfl
@[simp] theorem modCore_absent (a : Nat) (f : Core → Core) : (s.modCore a f).absent = s.absent := rfl
@[simp] theorem modCore_dsmTags (a : Nat) (f : Core → Core) : (s.modCore a f).dsmTags = s.dsmTags := rfl
@[simp] theorem modCore_hist (a : Nat) (f : Core → Core) : (s.modCore a f).hist = s.hist := rfl
@[simp] theorem modCore_lineViews (a : Nat) (f : Core → Core) : (s.modCore a f).lineViews = s.lineViews := rfl
@[simp] theorem modCore_loads (a : Nat) (f : Core → Core) : (s.modCore a f).loads = s.loads := rfl
@[simp] theorem modCore_xfers (a : Nat) (f : Core → Core) : (s.modCore a f).xfers = s.xfers := rfl
@[simp] theorem modCore_tileOps (a : Nat) (f : Core → Core) : (s.modCore a f).tileOps = s.tileOps := rfl
@[simp] theorem modCore_tlbinvs (a : Nat) (f : Core → Core) : (s.modCore a f).tlbinvs = s.tlbinvs := rfl
@[simp] theorem modCore_queues (a : Nat) (f : Core → Core) : (s.modCore a f).queues = s.queues := rfl
@[simp] theorem modCore_lastQueue (a : Nat) (f : Core → Core) : (s.modCore a f).lastQueue = s.lastQueue := rfl
@[simp] theorem modCore_asids (a : Nat) (f : Core → Core) : (s.modCore a f).asids = s.asids := rfl
@[simp] theorem modCore_regions (a : Nat) (f : Core → Core) : (s.modCore a f).regions = s.regions := rfl
@[simp] theorem modCore_conversions (a : Nat) (f : Core → Core) : (s.modCore a f).conversions = s.conversions := rfl
@[simp] theorem modCore_placement (a : Nat) (f : Core → Core) : (s.modCore a f).placement = s.placement := rfl
@[simp] theorem modCore_transit (a : Nat) (f : Core → Core) : (s.modCore a f).transit = s.transit := rfl
@[simp] theorem modCore_dones (a : Nat) (f : Core → Core) : (s.modCore a f).dones = s.dones := rfl
@[simp] theorem modCore_mcast (a : Nat) (f : Core → Core) : (s.modCore a f).mcast = s.mcast := rfl
@[simp] theorem modCore_cadence (a : Nat) (f : Core → Core) : (s.modCore a f).cadence = s.cadence := rfl
@[simp] theorem modCore_quorum (a : Nat) (f : Core → Core) : (s.modCore a f).quorum = s.quorum := rfl
@[simp] theorem modCore_decls (a : Nat) (f : Core → Core) : (s.modCore a f).decls = s.decls := rfl
@[simp] theorem modCore_huddleStop (a : Nat) (f : Core → Core) : (s.modCore a f).huddleStop = s.huddleStop := rfl
@[simp] theorem modCore_stopGrp (a : Nat) (f : Core → Core) : (s.modCore a f).stopGrp = s.stopGrp := rfl
@[simp] theorem modCore_qresults (a : Nat) (f : Core → Core) : (s.modCore a f).qresults = s.qresults := rfl
@[simp] theorem modCore_qreplies (a : Nat) (f : Core → Core) : (s.modCore a f).qreplies = s.qreplies := rfl
@[simp] theorem modCore_faults (a : Nat) (f : Core → Core) : (s.modCore a f).faults = s.faults := rfl
@[simp] theorem modCore_faultsWaiting (a : Nat) (f : Core → Core) : (s.modCore a f).faultsWaiting = s.faultsWaiting := rfl
@[simp] theorem modCore_watch (a : Nat) (f : Core → Core) : (s.modCore a f).watch = s.watch := rfl
@[simp] theorem modCore_fabric (a : Nat) (f : Core → Core) : (s.modCore a f).fabric = s.fabric := rfl
@[simp] theorem modCore_outbox (a : Nat) (f : Core → Core) : (s.modCore a f).outbox = s.outbox := rfl
@[simp] theorem modCore_routes (a : Nat) (f : Core → Core) : (s.modCore a f).routes = s.routes := rfl
@[simp] theorem modCore_failedPorts (a : Nat) (f : Core → Core) : (s.modCore a f).failedPorts = s.failedPorts := rfl
@[simp] theorem modCore_bankUnits (a : Nat) (f : Core → Core) : (s.modCore a f).bankUnits = s.bankUnits := rfl
@[simp] theorem modCore_waitingCmds (a : Nat) (f : Core → Core) : (s.modCore a f).waitingCmds = s.waitingCmds := rfl
@[simp] theorem modCore_mailbox (a : Nat) (f : Core → Core) : (s.modCore a f).mailbox = s.mailbox := rfl
@[simp] theorem modCore_hostCtl (a : Nat) (f : Core → Core) : (s.modCore a f).hostCtl = s.hostCtl := rfl
@[simp] theorem modCore_badWords (a : Nat) (f : Core → Core) : (s.modCore a f).badWords = s.badWords := rfl
@[simp] theorem modCore_routers (a : Nat) (f : Core → Core) : (s.modCore a f).routers = s.routers := rfl
@[simp] theorem modCore_transits (a : Nat) (f : Core → Core) : (s.modCore a f).transits = s.transits := rfl
@[simp] theorem modCore_gateways (a : Nat) (f : Core → Core) : (s.modCore a f).gateways = s.gateways := rfl
@[simp] theorem modCore_golden (a : Nat) (f : Core → Core) : (s.modCore a f).golden = s.golden := rfl
@[simp] theorem modCore_nextId (a : Nat) (f : Core → Core) : (s.modCore a f).nextId = s.nextId := rfl
@[simp] theorem modCore_freeCount (a : Nat) (f : Core → Core) : (s.modCore a f).freeCount = s.freeCount := rfl
@[simp] theorem modCore_agenda (a : Nat) (f : Core → Core) : (s.modCore a f).agenda = s.agenda := rfl
@[simp] theorem modCore_cur (a : Nat) (f : Core → Core) : (s.modCore a f).cur = s.cur := rfl
@[simp] theorem modCore_shadow (a : Nat) (f : Core → Core) : (s.modCore a f).shadow = s.shadow := rfl

/-! ### modAsid -/

@[simp] theorem modAsid_clk (a : Nat) (f : AsidEntry → AsidEntry) : (s.modAsid a f).clk = s.clk := rfl
@[simp] theorem modAsid_power (a : Nat) (f : AsidEntry → AsidEntry) : (s.modAsid a f).power = s.power := rfl
@[simp] theorem modAsid_resil (a : Nat) (f : AsidEntry → AsidEntry) : (s.modAsid a f).resil = s.resil := rfl
@[simp] theorem modAsid_nmwin (a : Nat) (f : AsidEntry → AsidEntry) : (s.modAsid a f).nmwin = s.nmwin := rfl
@[simp] theorem modAsid_faultRetryMax (a : Nat) (f : AsidEntry → AsidEntry) : (s.modAsid a f).faultRetryMax = s.faultRetryMax := rfl
@[simp] theorem modAsid_trctl (a : Nat) (f : AsidEntry → AsidEntry) : (s.modAsid a f).trctl = s.trctl := rfl
@[simp] theorem modAsid_launches (a : Nat) (f : AsidEntry → AsidEntry) : (s.modAsid a f).launches = s.launches := rfl
@[simp] theorem modAsid_teams (a : Nat) (f : AsidEntry → AsidEntry) : (s.modAsid a f).teams = s.teams := rfl
@[simp] theorem modAsid_groups (a : Nat) (f : AsidEntry → AsidEntry) : (s.modAsid a f).groups = s.groups := rfl
@[simp] theorem modAsid_threads (a : Nat) (f : AsidEntry → AsidEntry) : (s.modAsid a f).threads = s.threads := rfl
@[simp] theorem modAsid_cores (a : Nat) (f : AsidEntry → AsidEntry) : (s.modAsid a f).cores = s.cores := rfl
@[simp] theorem modAsid_main (a : Nat) (f : AsidEntry → AsidEntry) : (s.modAsid a f).main = s.main := rfl
@[simp] theorem modAsid_dsm (a : Nat) (f : AsidEntry → AsidEntry) : (s.modAsid a f).dsm = s.dsm := rfl
@[simp] theorem modAsid_sys (a : Nat) (f : AsidEntry → AsidEntry) : (s.modAsid a f).sys = s.sys := rfl
@[simp] theorem modAsid_absent (a : Nat) (f : AsidEntry → AsidEntry) : (s.modAsid a f).absent = s.absent := rfl
@[simp] theorem modAsid_dsmTags (a : Nat) (f : AsidEntry → AsidEntry) : (s.modAsid a f).dsmTags = s.dsmTags := rfl
@[simp] theorem modAsid_hist (a : Nat) (f : AsidEntry → AsidEntry) : (s.modAsid a f).hist = s.hist := rfl
@[simp] theorem modAsid_lineViews (a : Nat) (f : AsidEntry → AsidEntry) : (s.modAsid a f).lineViews = s.lineViews := rfl
@[simp] theorem modAsid_loads (a : Nat) (f : AsidEntry → AsidEntry) : (s.modAsid a f).loads = s.loads := rfl
@[simp] theorem modAsid_xfers (a : Nat) (f : AsidEntry → AsidEntry) : (s.modAsid a f).xfers = s.xfers := rfl
@[simp] theorem modAsid_tileOps (a : Nat) (f : AsidEntry → AsidEntry) : (s.modAsid a f).tileOps = s.tileOps := rfl
@[simp] theorem modAsid_tlbinvs (a : Nat) (f : AsidEntry → AsidEntry) : (s.modAsid a f).tlbinvs = s.tlbinvs := rfl
@[simp] theorem modAsid_queues (a : Nat) (f : AsidEntry → AsidEntry) : (s.modAsid a f).queues = s.queues := rfl
@[simp] theorem modAsid_lastQueue (a : Nat) (f : AsidEntry → AsidEntry) : (s.modAsid a f).lastQueue = s.lastQueue := rfl
@[simp] theorem modAsid_regions (a : Nat) (f : AsidEntry → AsidEntry) : (s.modAsid a f).regions = s.regions := rfl
@[simp] theorem modAsid_conversions (a : Nat) (f : AsidEntry → AsidEntry) : (s.modAsid a f).conversions = s.conversions := rfl
@[simp] theorem modAsid_placement (a : Nat) (f : AsidEntry → AsidEntry) : (s.modAsid a f).placement = s.placement := rfl
@[simp] theorem modAsid_transit (a : Nat) (f : AsidEntry → AsidEntry) : (s.modAsid a f).transit = s.transit := rfl
@[simp] theorem modAsid_dones (a : Nat) (f : AsidEntry → AsidEntry) : (s.modAsid a f).dones = s.dones := rfl
@[simp] theorem modAsid_mcast (a : Nat) (f : AsidEntry → AsidEntry) : (s.modAsid a f).mcast = s.mcast := rfl
@[simp] theorem modAsid_cadence (a : Nat) (f : AsidEntry → AsidEntry) : (s.modAsid a f).cadence = s.cadence := rfl
@[simp] theorem modAsid_quorum (a : Nat) (f : AsidEntry → AsidEntry) : (s.modAsid a f).quorum = s.quorum := rfl
@[simp] theorem modAsid_decls (a : Nat) (f : AsidEntry → AsidEntry) : (s.modAsid a f).decls = s.decls := rfl
@[simp] theorem modAsid_huddleStop (a : Nat) (f : AsidEntry → AsidEntry) : (s.modAsid a f).huddleStop = s.huddleStop := rfl
@[simp] theorem modAsid_stopGrp (a : Nat) (f : AsidEntry → AsidEntry) : (s.modAsid a f).stopGrp = s.stopGrp := rfl
@[simp] theorem modAsid_qresults (a : Nat) (f : AsidEntry → AsidEntry) : (s.modAsid a f).qresults = s.qresults := rfl
@[simp] theorem modAsid_qreplies (a : Nat) (f : AsidEntry → AsidEntry) : (s.modAsid a f).qreplies = s.qreplies := rfl
@[simp] theorem modAsid_faults (a : Nat) (f : AsidEntry → AsidEntry) : (s.modAsid a f).faults = s.faults := rfl
@[simp] theorem modAsid_faultsWaiting (a : Nat) (f : AsidEntry → AsidEntry) : (s.modAsid a f).faultsWaiting = s.faultsWaiting := rfl
@[simp] theorem modAsid_watch (a : Nat) (f : AsidEntry → AsidEntry) : (s.modAsid a f).watch = s.watch := rfl
@[simp] theorem modAsid_fabric (a : Nat) (f : AsidEntry → AsidEntry) : (s.modAsid a f).fabric = s.fabric := rfl
@[simp] theorem modAsid_outbox (a : Nat) (f : AsidEntry → AsidEntry) : (s.modAsid a f).outbox = s.outbox := rfl
@[simp] theorem modAsid_routes (a : Nat) (f : AsidEntry → AsidEntry) : (s.modAsid a f).routes = s.routes := rfl
@[simp] theorem modAsid_failedPorts (a : Nat) (f : AsidEntry → AsidEntry) : (s.modAsid a f).failedPorts = s.failedPorts := rfl
@[simp] theorem modAsid_bankUnits (a : Nat) (f : AsidEntry → AsidEntry) : (s.modAsid a f).bankUnits = s.bankUnits := rfl
@[simp] theorem modAsid_waitingCmds (a : Nat) (f : AsidEntry → AsidEntry) : (s.modAsid a f).waitingCmds = s.waitingCmds := rfl
@[simp] theorem modAsid_mailbox (a : Nat) (f : AsidEntry → AsidEntry) : (s.modAsid a f).mailbox = s.mailbox := rfl
@[simp] theorem modAsid_hostCtl (a : Nat) (f : AsidEntry → AsidEntry) : (s.modAsid a f).hostCtl = s.hostCtl := rfl
@[simp] theorem modAsid_badWords (a : Nat) (f : AsidEntry → AsidEntry) : (s.modAsid a f).badWords = s.badWords := rfl
@[simp] theorem modAsid_routers (a : Nat) (f : AsidEntry → AsidEntry) : (s.modAsid a f).routers = s.routers := rfl
@[simp] theorem modAsid_transits (a : Nat) (f : AsidEntry → AsidEntry) : (s.modAsid a f).transits = s.transits := rfl
@[simp] theorem modAsid_gateways (a : Nat) (f : AsidEntry → AsidEntry) : (s.modAsid a f).gateways = s.gateways := rfl
@[simp] theorem modAsid_golden (a : Nat) (f : AsidEntry → AsidEntry) : (s.modAsid a f).golden = s.golden := rfl
@[simp] theorem modAsid_nextId (a : Nat) (f : AsidEntry → AsidEntry) : (s.modAsid a f).nextId = s.nextId := rfl
@[simp] theorem modAsid_freeCount (a : Nat) (f : AsidEntry → AsidEntry) : (s.modAsid a f).freeCount = s.freeCount := rfl
@[simp] theorem modAsid_agenda (a : Nat) (f : AsidEntry → AsidEntry) : (s.modAsid a f).agenda = s.agenda := rfl
@[simp] theorem modAsid_cur (a : Nat) (f : AsidEntry → AsidEntry) : (s.modAsid a f).cur = s.cur := rfl
@[simp] theorem modAsid_shadow (a : Nat) (f : AsidEntry → AsidEntry) : (s.modAsid a f).shadow = s.shadow := rfl

/-! ### modXfer -/

@[simp] theorem modXfer_clk (a : Nat) (f : XferOp → XferOp) : (s.modXfer a f).clk = s.clk := rfl
@[simp] theorem modXfer_power (a : Nat) (f : XferOp → XferOp) : (s.modXfer a f).power = s.power := rfl
@[simp] theorem modXfer_resil (a : Nat) (f : XferOp → XferOp) : (s.modXfer a f).resil = s.resil := rfl
@[simp] theorem modXfer_nmwin (a : Nat) (f : XferOp → XferOp) : (s.modXfer a f).nmwin = s.nmwin := rfl
@[simp] theorem modXfer_faultRetryMax (a : Nat) (f : XferOp → XferOp) : (s.modXfer a f).faultRetryMax = s.faultRetryMax := rfl
@[simp] theorem modXfer_trctl (a : Nat) (f : XferOp → XferOp) : (s.modXfer a f).trctl = s.trctl := rfl
@[simp] theorem modXfer_launches (a : Nat) (f : XferOp → XferOp) : (s.modXfer a f).launches = s.launches := rfl
@[simp] theorem modXfer_teams (a : Nat) (f : XferOp → XferOp) : (s.modXfer a f).teams = s.teams := rfl
@[simp] theorem modXfer_groups (a : Nat) (f : XferOp → XferOp) : (s.modXfer a f).groups = s.groups := rfl
@[simp] theorem modXfer_threads (a : Nat) (f : XferOp → XferOp) : (s.modXfer a f).threads = s.threads := rfl
@[simp] theorem modXfer_cores (a : Nat) (f : XferOp → XferOp) : (s.modXfer a f).cores = s.cores := rfl
@[simp] theorem modXfer_main (a : Nat) (f : XferOp → XferOp) : (s.modXfer a f).main = s.main := rfl
@[simp] theorem modXfer_dsm (a : Nat) (f : XferOp → XferOp) : (s.modXfer a f).dsm = s.dsm := rfl
@[simp] theorem modXfer_sys (a : Nat) (f : XferOp → XferOp) : (s.modXfer a f).sys = s.sys := rfl
@[simp] theorem modXfer_absent (a : Nat) (f : XferOp → XferOp) : (s.modXfer a f).absent = s.absent := rfl
@[simp] theorem modXfer_dsmTags (a : Nat) (f : XferOp → XferOp) : (s.modXfer a f).dsmTags = s.dsmTags := rfl
@[simp] theorem modXfer_hist (a : Nat) (f : XferOp → XferOp) : (s.modXfer a f).hist = s.hist := rfl
@[simp] theorem modXfer_lineViews (a : Nat) (f : XferOp → XferOp) : (s.modXfer a f).lineViews = s.lineViews := rfl
@[simp] theorem modXfer_loads (a : Nat) (f : XferOp → XferOp) : (s.modXfer a f).loads = s.loads := rfl
@[simp] theorem modXfer_tileOps (a : Nat) (f : XferOp → XferOp) : (s.modXfer a f).tileOps = s.tileOps := rfl
@[simp] theorem modXfer_tlbinvs (a : Nat) (f : XferOp → XferOp) : (s.modXfer a f).tlbinvs = s.tlbinvs := rfl
@[simp] theorem modXfer_queues (a : Nat) (f : XferOp → XferOp) : (s.modXfer a f).queues = s.queues := rfl
@[simp] theorem modXfer_lastQueue (a : Nat) (f : XferOp → XferOp) : (s.modXfer a f).lastQueue = s.lastQueue := rfl
@[simp] theorem modXfer_asids (a : Nat) (f : XferOp → XferOp) : (s.modXfer a f).asids = s.asids := rfl
@[simp] theorem modXfer_regions (a : Nat) (f : XferOp → XferOp) : (s.modXfer a f).regions = s.regions := rfl
@[simp] theorem modXfer_conversions (a : Nat) (f : XferOp → XferOp) : (s.modXfer a f).conversions = s.conversions := rfl
@[simp] theorem modXfer_placement (a : Nat) (f : XferOp → XferOp) : (s.modXfer a f).placement = s.placement := rfl
@[simp] theorem modXfer_transit (a : Nat) (f : XferOp → XferOp) : (s.modXfer a f).transit = s.transit := rfl
@[simp] theorem modXfer_dones (a : Nat) (f : XferOp → XferOp) : (s.modXfer a f).dones = s.dones := rfl
@[simp] theorem modXfer_mcast (a : Nat) (f : XferOp → XferOp) : (s.modXfer a f).mcast = s.mcast := rfl
@[simp] theorem modXfer_cadence (a : Nat) (f : XferOp → XferOp) : (s.modXfer a f).cadence = s.cadence := rfl
@[simp] theorem modXfer_quorum (a : Nat) (f : XferOp → XferOp) : (s.modXfer a f).quorum = s.quorum := rfl
@[simp] theorem modXfer_decls (a : Nat) (f : XferOp → XferOp) : (s.modXfer a f).decls = s.decls := rfl
@[simp] theorem modXfer_huddleStop (a : Nat) (f : XferOp → XferOp) : (s.modXfer a f).huddleStop = s.huddleStop := rfl
@[simp] theorem modXfer_stopGrp (a : Nat) (f : XferOp → XferOp) : (s.modXfer a f).stopGrp = s.stopGrp := rfl
@[simp] theorem modXfer_qresults (a : Nat) (f : XferOp → XferOp) : (s.modXfer a f).qresults = s.qresults := rfl
@[simp] theorem modXfer_qreplies (a : Nat) (f : XferOp → XferOp) : (s.modXfer a f).qreplies = s.qreplies := rfl
@[simp] theorem modXfer_faults (a : Nat) (f : XferOp → XferOp) : (s.modXfer a f).faults = s.faults := rfl
@[simp] theorem modXfer_faultsWaiting (a : Nat) (f : XferOp → XferOp) : (s.modXfer a f).faultsWaiting = s.faultsWaiting := rfl
@[simp] theorem modXfer_watch (a : Nat) (f : XferOp → XferOp) : (s.modXfer a f).watch = s.watch := rfl
@[simp] theorem modXfer_fabric (a : Nat) (f : XferOp → XferOp) : (s.modXfer a f).fabric = s.fabric := rfl
@[simp] theorem modXfer_outbox (a : Nat) (f : XferOp → XferOp) : (s.modXfer a f).outbox = s.outbox := rfl
@[simp] theorem modXfer_routes (a : Nat) (f : XferOp → XferOp) : (s.modXfer a f).routes = s.routes := rfl
@[simp] theorem modXfer_failedPorts (a : Nat) (f : XferOp → XferOp) : (s.modXfer a f).failedPorts = s.failedPorts := rfl
@[simp] theorem modXfer_bankUnits (a : Nat) (f : XferOp → XferOp) : (s.modXfer a f).bankUnits = s.bankUnits := rfl
@[simp] theorem modXfer_waitingCmds (a : Nat) (f : XferOp → XferOp) : (s.modXfer a f).waitingCmds = s.waitingCmds := rfl
@[simp] theorem modXfer_mailbox (a : Nat) (f : XferOp → XferOp) : (s.modXfer a f).mailbox = s.mailbox := rfl
@[simp] theorem modXfer_hostCtl (a : Nat) (f : XferOp → XferOp) : (s.modXfer a f).hostCtl = s.hostCtl := rfl
@[simp] theorem modXfer_badWords (a : Nat) (f : XferOp → XferOp) : (s.modXfer a f).badWords = s.badWords := rfl
@[simp] theorem modXfer_routers (a : Nat) (f : XferOp → XferOp) : (s.modXfer a f).routers = s.routers := rfl
@[simp] theorem modXfer_transits (a : Nat) (f : XferOp → XferOp) : (s.modXfer a f).transits = s.transits := rfl
@[simp] theorem modXfer_gateways (a : Nat) (f : XferOp → XferOp) : (s.modXfer a f).gateways = s.gateways := rfl
@[simp] theorem modXfer_golden (a : Nat) (f : XferOp → XferOp) : (s.modXfer a f).golden = s.golden := rfl
@[simp] theorem modXfer_nextId (a : Nat) (f : XferOp → XferOp) : (s.modXfer a f).nextId = s.nextId := rfl
@[simp] theorem modXfer_freeCount (a : Nat) (f : XferOp → XferOp) : (s.modXfer a f).freeCount = s.freeCount := rfl
@[simp] theorem modXfer_agenda (a : Nat) (f : XferOp → XferOp) : (s.modXfer a f).agenda = s.agenda := rfl
@[simp] theorem modXfer_cur (a : Nat) (f : XferOp → XferOp) : (s.modXfer a f).cur = s.cur := rfl
@[simp] theorem modXfer_shadow (a : Nat) (f : XferOp → XferOp) : (s.modXfer a f).shadow = s.shadow := rfl

/-! ### modQueue -/

@[simp] theorem modQueue_clk (a : Nat) (f : Queue → Queue) : (s.modQueue a f).clk = s.clk := rfl
@[simp] theorem modQueue_power (a : Nat) (f : Queue → Queue) : (s.modQueue a f).power = s.power := rfl
@[simp] theorem modQueue_resil (a : Nat) (f : Queue → Queue) : (s.modQueue a f).resil = s.resil := rfl
@[simp] theorem modQueue_nmwin (a : Nat) (f : Queue → Queue) : (s.modQueue a f).nmwin = s.nmwin := rfl
@[simp] theorem modQueue_faultRetryMax (a : Nat) (f : Queue → Queue) : (s.modQueue a f).faultRetryMax = s.faultRetryMax := rfl
@[simp] theorem modQueue_trctl (a : Nat) (f : Queue → Queue) : (s.modQueue a f).trctl = s.trctl := rfl
@[simp] theorem modQueue_launches (a : Nat) (f : Queue → Queue) : (s.modQueue a f).launches = s.launches := rfl
@[simp] theorem modQueue_teams (a : Nat) (f : Queue → Queue) : (s.modQueue a f).teams = s.teams := rfl
@[simp] theorem modQueue_groups (a : Nat) (f : Queue → Queue) : (s.modQueue a f).groups = s.groups := rfl
@[simp] theorem modQueue_threads (a : Nat) (f : Queue → Queue) : (s.modQueue a f).threads = s.threads := rfl
@[simp] theorem modQueue_cores (a : Nat) (f : Queue → Queue) : (s.modQueue a f).cores = s.cores := rfl
@[simp] theorem modQueue_main (a : Nat) (f : Queue → Queue) : (s.modQueue a f).main = s.main := rfl
@[simp] theorem modQueue_dsm (a : Nat) (f : Queue → Queue) : (s.modQueue a f).dsm = s.dsm := rfl
@[simp] theorem modQueue_sys (a : Nat) (f : Queue → Queue) : (s.modQueue a f).sys = s.sys := rfl
@[simp] theorem modQueue_absent (a : Nat) (f : Queue → Queue) : (s.modQueue a f).absent = s.absent := rfl
@[simp] theorem modQueue_dsmTags (a : Nat) (f : Queue → Queue) : (s.modQueue a f).dsmTags = s.dsmTags := rfl
@[simp] theorem modQueue_hist (a : Nat) (f : Queue → Queue) : (s.modQueue a f).hist = s.hist := rfl
@[simp] theorem modQueue_lineViews (a : Nat) (f : Queue → Queue) : (s.modQueue a f).lineViews = s.lineViews := rfl
@[simp] theorem modQueue_loads (a : Nat) (f : Queue → Queue) : (s.modQueue a f).loads = s.loads := rfl
@[simp] theorem modQueue_xfers (a : Nat) (f : Queue → Queue) : (s.modQueue a f).xfers = s.xfers := rfl
@[simp] theorem modQueue_tileOps (a : Nat) (f : Queue → Queue) : (s.modQueue a f).tileOps = s.tileOps := rfl
@[simp] theorem modQueue_tlbinvs (a : Nat) (f : Queue → Queue) : (s.modQueue a f).tlbinvs = s.tlbinvs := rfl
@[simp] theorem modQueue_lastQueue (a : Nat) (f : Queue → Queue) : (s.modQueue a f).lastQueue = s.lastQueue := rfl
@[simp] theorem modQueue_asids (a : Nat) (f : Queue → Queue) : (s.modQueue a f).asids = s.asids := rfl
@[simp] theorem modQueue_regions (a : Nat) (f : Queue → Queue) : (s.modQueue a f).regions = s.regions := rfl
@[simp] theorem modQueue_conversions (a : Nat) (f : Queue → Queue) : (s.modQueue a f).conversions = s.conversions := rfl
@[simp] theorem modQueue_placement (a : Nat) (f : Queue → Queue) : (s.modQueue a f).placement = s.placement := rfl
@[simp] theorem modQueue_transit (a : Nat) (f : Queue → Queue) : (s.modQueue a f).transit = s.transit := rfl
@[simp] theorem modQueue_dones (a : Nat) (f : Queue → Queue) : (s.modQueue a f).dones = s.dones := rfl
@[simp] theorem modQueue_mcast (a : Nat) (f : Queue → Queue) : (s.modQueue a f).mcast = s.mcast := rfl
@[simp] theorem modQueue_cadence (a : Nat) (f : Queue → Queue) : (s.modQueue a f).cadence = s.cadence := rfl
@[simp] theorem modQueue_quorum (a : Nat) (f : Queue → Queue) : (s.modQueue a f).quorum = s.quorum := rfl
@[simp] theorem modQueue_decls (a : Nat) (f : Queue → Queue) : (s.modQueue a f).decls = s.decls := rfl
@[simp] theorem modQueue_huddleStop (a : Nat) (f : Queue → Queue) : (s.modQueue a f).huddleStop = s.huddleStop := rfl
@[simp] theorem modQueue_stopGrp (a : Nat) (f : Queue → Queue) : (s.modQueue a f).stopGrp = s.stopGrp := rfl
@[simp] theorem modQueue_qresults (a : Nat) (f : Queue → Queue) : (s.modQueue a f).qresults = s.qresults := rfl
@[simp] theorem modQueue_qreplies (a : Nat) (f : Queue → Queue) : (s.modQueue a f).qreplies = s.qreplies := rfl
@[simp] theorem modQueue_faults (a : Nat) (f : Queue → Queue) : (s.modQueue a f).faults = s.faults := rfl
@[simp] theorem modQueue_faultsWaiting (a : Nat) (f : Queue → Queue) : (s.modQueue a f).faultsWaiting = s.faultsWaiting := rfl
@[simp] theorem modQueue_watch (a : Nat) (f : Queue → Queue) : (s.modQueue a f).watch = s.watch := rfl
@[simp] theorem modQueue_fabric (a : Nat) (f : Queue → Queue) : (s.modQueue a f).fabric = s.fabric := rfl
@[simp] theorem modQueue_outbox (a : Nat) (f : Queue → Queue) : (s.modQueue a f).outbox = s.outbox := rfl
@[simp] theorem modQueue_routes (a : Nat) (f : Queue → Queue) : (s.modQueue a f).routes = s.routes := rfl
@[simp] theorem modQueue_failedPorts (a : Nat) (f : Queue → Queue) : (s.modQueue a f).failedPorts = s.failedPorts := rfl
@[simp] theorem modQueue_bankUnits (a : Nat) (f : Queue → Queue) : (s.modQueue a f).bankUnits = s.bankUnits := rfl
@[simp] theorem modQueue_waitingCmds (a : Nat) (f : Queue → Queue) : (s.modQueue a f).waitingCmds = s.waitingCmds := rfl
@[simp] theorem modQueue_mailbox (a : Nat) (f : Queue → Queue) : (s.modQueue a f).mailbox = s.mailbox := rfl
@[simp] theorem modQueue_hostCtl (a : Nat) (f : Queue → Queue) : (s.modQueue a f).hostCtl = s.hostCtl := rfl
@[simp] theorem modQueue_badWords (a : Nat) (f : Queue → Queue) : (s.modQueue a f).badWords = s.badWords := rfl
@[simp] theorem modQueue_routers (a : Nat) (f : Queue → Queue) : (s.modQueue a f).routers = s.routers := rfl
@[simp] theorem modQueue_transits (a : Nat) (f : Queue → Queue) : (s.modQueue a f).transits = s.transits := rfl
@[simp] theorem modQueue_gateways (a : Nat) (f : Queue → Queue) : (s.modQueue a f).gateways = s.gateways := rfl
@[simp] theorem modQueue_golden (a : Nat) (f : Queue → Queue) : (s.modQueue a f).golden = s.golden := rfl
@[simp] theorem modQueue_nextId (a : Nat) (f : Queue → Queue) : (s.modQueue a f).nextId = s.nextId := rfl
@[simp] theorem modQueue_freeCount (a : Nat) (f : Queue → Queue) : (s.modQueue a f).freeCount = s.freeCount := rfl
@[simp] theorem modQueue_agenda (a : Nat) (f : Queue → Queue) : (s.modQueue a f).agenda = s.agenda := rfl
@[simp] theorem modQueue_cur (a : Nat) (f : Queue → Queue) : (s.modQueue a f).cur = s.cur := rfl
@[simp] theorem modQueue_shadow (a : Nat) (f : Queue → Queue) : (s.modQueue a f).shadow = s.shadow := rfl

/-! ### bumpId -/

@[simp] theorem bumpId_clk (a : Nat) : (s.bumpId a).clk = s.clk := rfl
@[simp] theorem bumpId_power (a : Nat) : (s.bumpId a).power = s.power := rfl
@[simp] theorem bumpId_resil (a : Nat) : (s.bumpId a).resil = s.resil := rfl
@[simp] theorem bumpId_nmwin (a : Nat) : (s.bumpId a).nmwin = s.nmwin := rfl
@[simp] theorem bumpId_faultRetryMax (a : Nat) : (s.bumpId a).faultRetryMax = s.faultRetryMax := rfl
@[simp] theorem bumpId_trctl (a : Nat) : (s.bumpId a).trctl = s.trctl := rfl
@[simp] theorem bumpId_launches (a : Nat) : (s.bumpId a).launches = s.launches := rfl
@[simp] theorem bumpId_teams (a : Nat) : (s.bumpId a).teams = s.teams := rfl
@[simp] theorem bumpId_groups (a : Nat) : (s.bumpId a).groups = s.groups := rfl
@[simp] theorem bumpId_threads (a : Nat) : (s.bumpId a).threads = s.threads := rfl
@[simp] theorem bumpId_cores (a : Nat) : (s.bumpId a).cores = s.cores := rfl
@[simp] theorem bumpId_main (a : Nat) : (s.bumpId a).main = s.main := rfl
@[simp] theorem bumpId_dsm (a : Nat) : (s.bumpId a).dsm = s.dsm := rfl
@[simp] theorem bumpId_sys (a : Nat) : (s.bumpId a).sys = s.sys := rfl
@[simp] theorem bumpId_absent (a : Nat) : (s.bumpId a).absent = s.absent := rfl
@[simp] theorem bumpId_dsmTags (a : Nat) : (s.bumpId a).dsmTags = s.dsmTags := rfl
@[simp] theorem bumpId_hist (a : Nat) : (s.bumpId a).hist = s.hist := rfl
@[simp] theorem bumpId_lineViews (a : Nat) : (s.bumpId a).lineViews = s.lineViews := rfl
@[simp] theorem bumpId_loads (a : Nat) : (s.bumpId a).loads = s.loads := rfl
@[simp] theorem bumpId_xfers (a : Nat) : (s.bumpId a).xfers = s.xfers := rfl
@[simp] theorem bumpId_tileOps (a : Nat) : (s.bumpId a).tileOps = s.tileOps := rfl
@[simp] theorem bumpId_tlbinvs (a : Nat) : (s.bumpId a).tlbinvs = s.tlbinvs := rfl
@[simp] theorem bumpId_queues (a : Nat) : (s.bumpId a).queues = s.queues := rfl
@[simp] theorem bumpId_lastQueue (a : Nat) : (s.bumpId a).lastQueue = s.lastQueue := rfl
@[simp] theorem bumpId_asids (a : Nat) : (s.bumpId a).asids = s.asids := rfl
@[simp] theorem bumpId_regions (a : Nat) : (s.bumpId a).regions = s.regions := rfl
@[simp] theorem bumpId_conversions (a : Nat) : (s.bumpId a).conversions = s.conversions := rfl
@[simp] theorem bumpId_placement (a : Nat) : (s.bumpId a).placement = s.placement := rfl
@[simp] theorem bumpId_transit (a : Nat) : (s.bumpId a).transit = s.transit := rfl
@[simp] theorem bumpId_dones (a : Nat) : (s.bumpId a).dones = s.dones := rfl
@[simp] theorem bumpId_mcast (a : Nat) : (s.bumpId a).mcast = s.mcast := rfl
@[simp] theorem bumpId_cadence (a : Nat) : (s.bumpId a).cadence = s.cadence := rfl
@[simp] theorem bumpId_quorum (a : Nat) : (s.bumpId a).quorum = s.quorum := rfl
@[simp] theorem bumpId_decls (a : Nat) : (s.bumpId a).decls = s.decls := rfl
@[simp] theorem bumpId_huddleStop (a : Nat) : (s.bumpId a).huddleStop = s.huddleStop := rfl
@[simp] theorem bumpId_stopGrp (a : Nat) : (s.bumpId a).stopGrp = s.stopGrp := rfl
@[simp] theorem bumpId_qresults (a : Nat) : (s.bumpId a).qresults = s.qresults := rfl
@[simp] theorem bumpId_qreplies (a : Nat) : (s.bumpId a).qreplies = s.qreplies := rfl
@[simp] theorem bumpId_faults (a : Nat) : (s.bumpId a).faults = s.faults := rfl
@[simp] theorem bumpId_faultsWaiting (a : Nat) : (s.bumpId a).faultsWaiting = s.faultsWaiting := rfl
@[simp] theorem bumpId_watch (a : Nat) : (s.bumpId a).watch = s.watch := rfl
@[simp] theorem bumpId_fabric (a : Nat) : (s.bumpId a).fabric = s.fabric := rfl
@[simp] theorem bumpId_outbox (a : Nat) : (s.bumpId a).outbox = s.outbox := rfl
@[simp] theorem bumpId_routes (a : Nat) : (s.bumpId a).routes = s.routes := rfl
@[simp] theorem bumpId_failedPorts (a : Nat) : (s.bumpId a).failedPorts = s.failedPorts := rfl
@[simp] theorem bumpId_bankUnits (a : Nat) : (s.bumpId a).bankUnits = s.bankUnits := rfl
@[simp] theorem bumpId_waitingCmds (a : Nat) : (s.bumpId a).waitingCmds = s.waitingCmds := rfl
@[simp] theorem bumpId_mailbox (a : Nat) : (s.bumpId a).mailbox = s.mailbox := rfl
@[simp] theorem bumpId_hostCtl (a : Nat) : (s.bumpId a).hostCtl = s.hostCtl := rfl
@[simp] theorem bumpId_badWords (a : Nat) : (s.bumpId a).badWords = s.badWords := rfl
@[simp] theorem bumpId_routers (a : Nat) : (s.bumpId a).routers = s.routers := rfl
@[simp] theorem bumpId_transits (a : Nat) : (s.bumpId a).transits = s.transits := rfl
@[simp] theorem bumpId_gateways (a : Nat) : (s.bumpId a).gateways = s.gateways := rfl
@[simp] theorem bumpId_golden (a : Nat) : (s.bumpId a).golden = s.golden := rfl
@[simp] theorem bumpId_freeCount (a : Nat) : (s.bumpId a).freeCount = s.freeCount := rfl
@[simp] theorem bumpId_agenda (a : Nat) : (s.bumpId a).agenda = s.agenda := rfl
@[simp] theorem bumpId_cur (a : Nat) : (s.bumpId a).cur = s.cur := rfl
@[simp] theorem bumpId_shadow (a : Nat) : (s.bumpId a).shadow = s.shadow := rfl

/-! ### postEvent -/

@[simp] theorem postEvent_clk (a : Nat) (b : List Byte) : (s.postEvent a b).clk = s.clk := rfl
@[simp] theorem postEvent_power (a : Nat) (b : List Byte) : (s.postEvent a b).power = s.power := rfl
@[simp] theorem postEvent_resil (a : Nat) (b : List Byte) : (s.postEvent a b).resil = s.resil := rfl
@[simp] theorem postEvent_nmwin (a : Nat) (b : List Byte) : (s.postEvent a b).nmwin = s.nmwin := rfl
@[simp] theorem postEvent_faultRetryMax (a : Nat) (b : List Byte) : (s.postEvent a b).faultRetryMax = s.faultRetryMax := rfl
@[simp] theorem postEvent_trctl (a : Nat) (b : List Byte) : (s.postEvent a b).trctl = s.trctl := rfl
@[simp] theorem postEvent_launches (a : Nat) (b : List Byte) : (s.postEvent a b).launches = s.launches := rfl
@[simp] theorem postEvent_teams (a : Nat) (b : List Byte) : (s.postEvent a b).teams = s.teams := rfl
@[simp] theorem postEvent_groups (a : Nat) (b : List Byte) : (s.postEvent a b).groups = s.groups := rfl
@[simp] theorem postEvent_threads (a : Nat) (b : List Byte) : (s.postEvent a b).threads = s.threads := rfl
@[simp] theorem postEvent_cores (a : Nat) (b : List Byte) : (s.postEvent a b).cores = s.cores := rfl
@[simp] theorem postEvent_main (a : Nat) (b : List Byte) : (s.postEvent a b).main = s.main := rfl
@[simp] theorem postEvent_dsm (a : Nat) (b : List Byte) : (s.postEvent a b).dsm = s.dsm := rfl
@[simp] theorem postEvent_absent (a : Nat) (b : List Byte) : (s.postEvent a b).absent = s.absent := rfl
@[simp] theorem postEvent_dsmTags (a : Nat) (b : List Byte) : (s.postEvent a b).dsmTags = s.dsmTags := rfl
@[simp] theorem postEvent_hist (a : Nat) (b : List Byte) : (s.postEvent a b).hist = s.hist := rfl
@[simp] theorem postEvent_lineViews (a : Nat) (b : List Byte) : (s.postEvent a b).lineViews = s.lineViews := rfl
@[simp] theorem postEvent_loads (a : Nat) (b : List Byte) : (s.postEvent a b).loads = s.loads := rfl
@[simp] theorem postEvent_xfers (a : Nat) (b : List Byte) : (s.postEvent a b).xfers = s.xfers := rfl
@[simp] theorem postEvent_tileOps (a : Nat) (b : List Byte) : (s.postEvent a b).tileOps = s.tileOps := rfl
@[simp] theorem postEvent_tlbinvs (a : Nat) (b : List Byte) : (s.postEvent a b).tlbinvs = s.tlbinvs := rfl
@[simp] theorem postEvent_queues (a : Nat) (b : List Byte) : (s.postEvent a b).queues = s.queues := rfl
@[simp] theorem postEvent_lastQueue (a : Nat) (b : List Byte) : (s.postEvent a b).lastQueue = s.lastQueue := rfl
@[simp] theorem postEvent_asids (a : Nat) (b : List Byte) : (s.postEvent a b).asids = s.asids := rfl
@[simp] theorem postEvent_regions (a : Nat) (b : List Byte) : (s.postEvent a b).regions = s.regions := rfl
@[simp] theorem postEvent_conversions (a : Nat) (b : List Byte) : (s.postEvent a b).conversions = s.conversions := rfl
@[simp] theorem postEvent_placement (a : Nat) (b : List Byte) : (s.postEvent a b).placement = s.placement := rfl
@[simp] theorem postEvent_transit (a : Nat) (b : List Byte) : (s.postEvent a b).transit = s.transit := rfl
@[simp] theorem postEvent_dones (a : Nat) (b : List Byte) : (s.postEvent a b).dones = s.dones := rfl
@[simp] theorem postEvent_mcast (a : Nat) (b : List Byte) : (s.postEvent a b).mcast = s.mcast := rfl
@[simp] theorem postEvent_cadence (a : Nat) (b : List Byte) : (s.postEvent a b).cadence = s.cadence := rfl
@[simp] theorem postEvent_quorum (a : Nat) (b : List Byte) : (s.postEvent a b).quorum = s.quorum := rfl
@[simp] theorem postEvent_decls (a : Nat) (b : List Byte) : (s.postEvent a b).decls = s.decls := rfl
@[simp] theorem postEvent_huddleStop (a : Nat) (b : List Byte) : (s.postEvent a b).huddleStop = s.huddleStop := rfl
@[simp] theorem postEvent_stopGrp (a : Nat) (b : List Byte) : (s.postEvent a b).stopGrp = s.stopGrp := rfl
@[simp] theorem postEvent_qresults (a : Nat) (b : List Byte) : (s.postEvent a b).qresults = s.qresults := rfl
@[simp] theorem postEvent_qreplies (a : Nat) (b : List Byte) : (s.postEvent a b).qreplies = s.qreplies := rfl
@[simp] theorem postEvent_faults (a : Nat) (b : List Byte) : (s.postEvent a b).faults = s.faults := rfl
@[simp] theorem postEvent_faultsWaiting (a : Nat) (b : List Byte) : (s.postEvent a b).faultsWaiting = s.faultsWaiting := rfl
@[simp] theorem postEvent_watch (a : Nat) (b : List Byte) : (s.postEvent a b).watch = s.watch := rfl
@[simp] theorem postEvent_fabric (a : Nat) (b : List Byte) : (s.postEvent a b).fabric = s.fabric := rfl
@[simp] theorem postEvent_outbox (a : Nat) (b : List Byte) : (s.postEvent a b).outbox = s.outbox := rfl
@[simp] theorem postEvent_routes (a : Nat) (b : List Byte) : (s.postEvent a b).routes = s.routes := rfl
@[simp] theorem postEvent_failedPorts (a : Nat) (b : List Byte) : (s.postEvent a b).failedPorts = s.failedPorts := rfl
@[simp] theorem postEvent_bankUnits (a : Nat) (b : List Byte) : (s.postEvent a b).bankUnits = s.bankUnits := rfl
@[simp] theorem postEvent_waitingCmds (a : Nat) (b : List Byte) : (s.postEvent a b).waitingCmds = s.waitingCmds := rfl
@[simp] theorem postEvent_hostCtl (a : Nat) (b : List Byte) : (s.postEvent a b).hostCtl = s.hostCtl := rfl
@[simp] theorem postEvent_badWords (a : Nat) (b : List Byte) : (s.postEvent a b).badWords = s.badWords := rfl
@[simp] theorem postEvent_routers (a : Nat) (b : List Byte) : (s.postEvent a b).routers = s.routers := rfl
@[simp] theorem postEvent_transits (a : Nat) (b : List Byte) : (s.postEvent a b).transits = s.transits := rfl
@[simp] theorem postEvent_gateways (a : Nat) (b : List Byte) : (s.postEvent a b).gateways = s.gateways := rfl
@[simp] theorem postEvent_golden (a : Nat) (b : List Byte) : (s.postEvent a b).golden = s.golden := rfl
@[simp] theorem postEvent_nextId (a : Nat) (b : List Byte) : (s.postEvent a b).nextId = s.nextId := rfl
@[simp] theorem postEvent_freeCount (a : Nat) (b : List Byte) : (s.postEvent a b).freeCount = s.freeCount := rfl
@[simp] theorem postEvent_agenda (a : Nat) (b : List Byte) : (s.postEvent a b).agenda = s.agenda := rfl
@[simp] theorem postEvent_cur (a : Nat) (b : List Byte) : (s.postEvent a b).cur = s.cur := rfl
@[simp] theorem postEvent_shadow (a : Nat) (b : List Byte) : (s.postEvent a b).shadow = s.shadow := rfl

/-! ### unseat -/

@[simp] theorem unseat_clk (a : Nat) (b : List Nat) : (s.unseat a b).clk = s.clk := rfl
@[simp] theorem unseat_power (a : Nat) (b : List Nat) : (s.unseat a b).power = s.power := rfl
@[simp] theorem unseat_resil (a : Nat) (b : List Nat) : (s.unseat a b).resil = s.resil := rfl
@[simp] theorem unseat_nmwin (a : Nat) (b : List Nat) : (s.unseat a b).nmwin = s.nmwin := rfl
@[simp] theorem unseat_faultRetryMax (a : Nat) (b : List Nat) : (s.unseat a b).faultRetryMax = s.faultRetryMax := rfl
@[simp] theorem unseat_trctl (a : Nat) (b : List Nat) : (s.unseat a b).trctl = s.trctl := rfl
@[simp] theorem unseat_launches (a : Nat) (b : List Nat) : (s.unseat a b).launches = s.launches := rfl
@[simp] theorem unseat_teams (a : Nat) (b : List Nat) : (s.unseat a b).teams = s.teams := rfl
@[simp] theorem unseat_groups (a : Nat) (b : List Nat) : (s.unseat a b).groups = s.groups := rfl
@[simp] theorem unseat_threads (a : Nat) (b : List Nat) : (s.unseat a b).threads = s.threads := rfl
@[simp] theorem unseat_main (a : Nat) (b : List Nat) : (s.unseat a b).main = s.main := rfl
@[simp] theorem unseat_dsm (a : Nat) (b : List Nat) : (s.unseat a b).dsm = s.dsm := rfl
@[simp] theorem unseat_sys (a : Nat) (b : List Nat) : (s.unseat a b).sys = s.sys := rfl
@[simp] theorem unseat_absent (a : Nat) (b : List Nat) : (s.unseat a b).absent = s.absent := rfl
@[simp] theorem unseat_dsmTags (a : Nat) (b : List Nat) : (s.unseat a b).dsmTags = s.dsmTags := rfl
@[simp] theorem unseat_hist (a : Nat) (b : List Nat) : (s.unseat a b).hist = s.hist := rfl
@[simp] theorem unseat_lineViews (a : Nat) (b : List Nat) : (s.unseat a b).lineViews = s.lineViews := rfl
@[simp] theorem unseat_loads (a : Nat) (b : List Nat) : (s.unseat a b).loads = s.loads := rfl
@[simp] theorem unseat_xfers (a : Nat) (b : List Nat) : (s.unseat a b).xfers = s.xfers := rfl
@[simp] theorem unseat_tileOps (a : Nat) (b : List Nat) : (s.unseat a b).tileOps = s.tileOps := rfl
@[simp] theorem unseat_tlbinvs (a : Nat) (b : List Nat) : (s.unseat a b).tlbinvs = s.tlbinvs := rfl
@[simp] theorem unseat_queues (a : Nat) (b : List Nat) : (s.unseat a b).queues = s.queues := rfl
@[simp] theorem unseat_lastQueue (a : Nat) (b : List Nat) : (s.unseat a b).lastQueue = s.lastQueue := rfl
@[simp] theorem unseat_asids (a : Nat) (b : List Nat) : (s.unseat a b).asids = s.asids := rfl
@[simp] theorem unseat_regions (a : Nat) (b : List Nat) : (s.unseat a b).regions = s.regions := rfl
@[simp] theorem unseat_conversions (a : Nat) (b : List Nat) : (s.unseat a b).conversions = s.conversions := rfl
@[simp] theorem unseat_placement (a : Nat) (b : List Nat) : (s.unseat a b).placement = s.placement := rfl
@[simp] theorem unseat_transit (a : Nat) (b : List Nat) : (s.unseat a b).transit = s.transit := rfl
@[simp] theorem unseat_dones (a : Nat) (b : List Nat) : (s.unseat a b).dones = s.dones := rfl
@[simp] theorem unseat_mcast (a : Nat) (b : List Nat) : (s.unseat a b).mcast = s.mcast := rfl
@[simp] theorem unseat_cadence (a : Nat) (b : List Nat) : (s.unseat a b).cadence = s.cadence := rfl
@[simp] theorem unseat_quorum (a : Nat) (b : List Nat) : (s.unseat a b).quorum = s.quorum := rfl
@[simp] theorem unseat_decls (a : Nat) (b : List Nat) : (s.unseat a b).decls = s.decls := rfl
@[simp] theorem unseat_huddleStop (a : Nat) (b : List Nat) : (s.unseat a b).huddleStop = s.huddleStop := rfl
@[simp] theorem unseat_stopGrp (a : Nat) (b : List Nat) : (s.unseat a b).stopGrp = s.stopGrp := rfl
@[simp] theorem unseat_qresults (a : Nat) (b : List Nat) : (s.unseat a b).qresults = s.qresults := rfl
@[simp] theorem unseat_qreplies (a : Nat) (b : List Nat) : (s.unseat a b).qreplies = s.qreplies := rfl
@[simp] theorem unseat_faults (a : Nat) (b : List Nat) : (s.unseat a b).faults = s.faults := rfl
@[simp] theorem unseat_faultsWaiting (a : Nat) (b : List Nat) : (s.unseat a b).faultsWaiting = s.faultsWaiting := rfl
@[simp] theorem unseat_watch (a : Nat) (b : List Nat) : (s.unseat a b).watch = s.watch := rfl
@[simp] theorem unseat_fabric (a : Nat) (b : List Nat) : (s.unseat a b).fabric = s.fabric := rfl
@[simp] theorem unseat_outbox (a : Nat) (b : List Nat) : (s.unseat a b).outbox = s.outbox := rfl
@[simp] theorem unseat_routes (a : Nat) (b : List Nat) : (s.unseat a b).routes = s.routes := rfl
@[simp] theorem unseat_failedPorts (a : Nat) (b : List Nat) : (s.unseat a b).failedPorts = s.failedPorts := rfl
@[simp] theorem unseat_bankUnits (a : Nat) (b : List Nat) : (s.unseat a b).bankUnits = s.bankUnits := rfl
@[simp] theorem unseat_waitingCmds (a : Nat) (b : List Nat) : (s.unseat a b).waitingCmds = s.waitingCmds := rfl
@[simp] theorem unseat_mailbox (a : Nat) (b : List Nat) : (s.unseat a b).mailbox = s.mailbox := rfl
@[simp] theorem unseat_hostCtl (a : Nat) (b : List Nat) : (s.unseat a b).hostCtl = s.hostCtl := rfl
@[simp] theorem unseat_badWords (a : Nat) (b : List Nat) : (s.unseat a b).badWords = s.badWords := rfl
@[simp] theorem unseat_routers (a : Nat) (b : List Nat) : (s.unseat a b).routers = s.routers := rfl
@[simp] theorem unseat_transits (a : Nat) (b : List Nat) : (s.unseat a b).transits = s.transits := rfl
@[simp] theorem unseat_gateways (a : Nat) (b : List Nat) : (s.unseat a b).gateways = s.gateways := rfl
@[simp] theorem unseat_golden (a : Nat) (b : List Nat) : (s.unseat a b).golden = s.golden := rfl
@[simp] theorem unseat_nextId (a : Nat) (b : List Nat) : (s.unseat a b).nextId = s.nextId := rfl
@[simp] theorem unseat_freeCount (a : Nat) (b : List Nat) : (s.unseat a b).freeCount = s.freeCount := rfl
@[simp] theorem unseat_agenda (a : Nat) (b : List Nat) : (s.unseat a b).agenda = s.agenda := rfl
@[simp] theorem unseat_cur (a : Nat) (b : List Nat) : (s.unseat a b).cur = s.cur := rfl
@[simp] theorem unseat_shadow (a : Nat) (b : List Nat) : (s.unseat a b).shadow = s.shadow := rfl

/-! ### modUnit -/

@[simp] theorem modUnit_clk (a : Nat) (f : BankUnit → BankUnit) : (s.modUnit a f).clk = s.clk := rfl
@[simp] theorem modUnit_power (a : Nat) (f : BankUnit → BankUnit) : (s.modUnit a f).power = s.power := rfl
@[simp] theorem modUnit_resil (a : Nat) (f : BankUnit → BankUnit) : (s.modUnit a f).resil = s.resil := rfl
@[simp] theorem modUnit_nmwin (a : Nat) (f : BankUnit → BankUnit) : (s.modUnit a f).nmwin = s.nmwin := rfl
@[simp] theorem modUnit_faultRetryMax (a : Nat) (f : BankUnit → BankUnit) : (s.modUnit a f).faultRetryMax = s.faultRetryMax := rfl
@[simp] theorem modUnit_trctl (a : Nat) (f : BankUnit → BankUnit) : (s.modUnit a f).trctl = s.trctl := rfl
@[simp] theorem modUnit_launches (a : Nat) (f : BankUnit → BankUnit) : (s.modUnit a f).launches = s.launches := rfl
@[simp] theorem modUnit_teams (a : Nat) (f : BankUnit → BankUnit) : (s.modUnit a f).teams = s.teams := rfl
@[simp] theorem modUnit_groups (a : Nat) (f : BankUnit → BankUnit) : (s.modUnit a f).groups = s.groups := rfl
@[simp] theorem modUnit_threads (a : Nat) (f : BankUnit → BankUnit) : (s.modUnit a f).threads = s.threads := rfl
@[simp] theorem modUnit_cores (a : Nat) (f : BankUnit → BankUnit) : (s.modUnit a f).cores = s.cores := rfl
@[simp] theorem modUnit_main (a : Nat) (f : BankUnit → BankUnit) : (s.modUnit a f).main = s.main := rfl
@[simp] theorem modUnit_dsm (a : Nat) (f : BankUnit → BankUnit) : (s.modUnit a f).dsm = s.dsm := rfl
@[simp] theorem modUnit_sys (a : Nat) (f : BankUnit → BankUnit) : (s.modUnit a f).sys = s.sys := rfl
@[simp] theorem modUnit_absent (a : Nat) (f : BankUnit → BankUnit) : (s.modUnit a f).absent = s.absent := rfl
@[simp] theorem modUnit_dsmTags (a : Nat) (f : BankUnit → BankUnit) : (s.modUnit a f).dsmTags = s.dsmTags := rfl
@[simp] theorem modUnit_hist (a : Nat) (f : BankUnit → BankUnit) : (s.modUnit a f).hist = s.hist := rfl
@[simp] theorem modUnit_lineViews (a : Nat) (f : BankUnit → BankUnit) : (s.modUnit a f).lineViews = s.lineViews := rfl
@[simp] theorem modUnit_loads (a : Nat) (f : BankUnit → BankUnit) : (s.modUnit a f).loads = s.loads := rfl
@[simp] theorem modUnit_xfers (a : Nat) (f : BankUnit → BankUnit) : (s.modUnit a f).xfers = s.xfers := rfl
@[simp] theorem modUnit_tileOps (a : Nat) (f : BankUnit → BankUnit) : (s.modUnit a f).tileOps = s.tileOps := rfl
@[simp] theorem modUnit_tlbinvs (a : Nat) (f : BankUnit → BankUnit) : (s.modUnit a f).tlbinvs = s.tlbinvs := rfl
@[simp] theorem modUnit_queues (a : Nat) (f : BankUnit → BankUnit) : (s.modUnit a f).queues = s.queues := rfl
@[simp] theorem modUnit_lastQueue (a : Nat) (f : BankUnit → BankUnit) : (s.modUnit a f).lastQueue = s.lastQueue := rfl
@[simp] theorem modUnit_asids (a : Nat) (f : BankUnit → BankUnit) : (s.modUnit a f).asids = s.asids := rfl
@[simp] theorem modUnit_regions (a : Nat) (f : BankUnit → BankUnit) : (s.modUnit a f).regions = s.regions := rfl
@[simp] theorem modUnit_conversions (a : Nat) (f : BankUnit → BankUnit) : (s.modUnit a f).conversions = s.conversions := rfl
@[simp] theorem modUnit_placement (a : Nat) (f : BankUnit → BankUnit) : (s.modUnit a f).placement = s.placement := rfl
@[simp] theorem modUnit_transit (a : Nat) (f : BankUnit → BankUnit) : (s.modUnit a f).transit = s.transit := rfl
@[simp] theorem modUnit_dones (a : Nat) (f : BankUnit → BankUnit) : (s.modUnit a f).dones = s.dones := rfl
@[simp] theorem modUnit_mcast (a : Nat) (f : BankUnit → BankUnit) : (s.modUnit a f).mcast = s.mcast := rfl
@[simp] theorem modUnit_cadence (a : Nat) (f : BankUnit → BankUnit) : (s.modUnit a f).cadence = s.cadence := rfl
@[simp] theorem modUnit_quorum (a : Nat) (f : BankUnit → BankUnit) : (s.modUnit a f).quorum = s.quorum := rfl
@[simp] theorem modUnit_decls (a : Nat) (f : BankUnit → BankUnit) : (s.modUnit a f).decls = s.decls := rfl
@[simp] theorem modUnit_huddleStop (a : Nat) (f : BankUnit → BankUnit) : (s.modUnit a f).huddleStop = s.huddleStop := rfl
@[simp] theorem modUnit_stopGrp (a : Nat) (f : BankUnit → BankUnit) : (s.modUnit a f).stopGrp = s.stopGrp := rfl
@[simp] theorem modUnit_qresults (a : Nat) (f : BankUnit → BankUnit) : (s.modUnit a f).qresults = s.qresults := rfl
@[simp] theorem modUnit_qreplies (a : Nat) (f : BankUnit → BankUnit) : (s.modUnit a f).qreplies = s.qreplies := rfl
@[simp] theorem modUnit_faults (a : Nat) (f : BankUnit → BankUnit) : (s.modUnit a f).faults = s.faults := rfl
@[simp] theorem modUnit_faultsWaiting (a : Nat) (f : BankUnit → BankUnit) : (s.modUnit a f).faultsWaiting = s.faultsWaiting := rfl
@[simp] theorem modUnit_watch (a : Nat) (f : BankUnit → BankUnit) : (s.modUnit a f).watch = s.watch := rfl
@[simp] theorem modUnit_fabric (a : Nat) (f : BankUnit → BankUnit) : (s.modUnit a f).fabric = s.fabric := rfl
@[simp] theorem modUnit_outbox (a : Nat) (f : BankUnit → BankUnit) : (s.modUnit a f).outbox = s.outbox := rfl
@[simp] theorem modUnit_routes (a : Nat) (f : BankUnit → BankUnit) : (s.modUnit a f).routes = s.routes := rfl
@[simp] theorem modUnit_failedPorts (a : Nat) (f : BankUnit → BankUnit) : (s.modUnit a f).failedPorts = s.failedPorts := rfl
@[simp] theorem modUnit_waitingCmds (a : Nat) (f : BankUnit → BankUnit) : (s.modUnit a f).waitingCmds = s.waitingCmds := rfl
@[simp] theorem modUnit_mailbox (a : Nat) (f : BankUnit → BankUnit) : (s.modUnit a f).mailbox = s.mailbox := rfl
@[simp] theorem modUnit_hostCtl (a : Nat) (f : BankUnit → BankUnit) : (s.modUnit a f).hostCtl = s.hostCtl := rfl
@[simp] theorem modUnit_badWords (a : Nat) (f : BankUnit → BankUnit) : (s.modUnit a f).badWords = s.badWords := rfl
@[simp] theorem modUnit_routers (a : Nat) (f : BankUnit → BankUnit) : (s.modUnit a f).routers = s.routers := rfl
@[simp] theorem modUnit_transits (a : Nat) (f : BankUnit → BankUnit) : (s.modUnit a f).transits = s.transits := rfl
@[simp] theorem modUnit_gateways (a : Nat) (f : BankUnit → BankUnit) : (s.modUnit a f).gateways = s.gateways := rfl
@[simp] theorem modUnit_golden (a : Nat) (f : BankUnit → BankUnit) : (s.modUnit a f).golden = s.golden := rfl
@[simp] theorem modUnit_nextId (a : Nat) (f : BankUnit → BankUnit) : (s.modUnit a f).nextId = s.nextId := rfl
@[simp] theorem modUnit_freeCount (a : Nat) (f : BankUnit → BankUnit) : (s.modUnit a f).freeCount = s.freeCount := rfl
@[simp] theorem modUnit_agenda (a : Nat) (f : BankUnit → BankUnit) : (s.modUnit a f).agenda = s.agenda := rfl
@[simp] theorem modUnit_cur (a : Nat) (f : BankUnit → BankUnit) : (s.modUnit a f).cur = s.cur := rfl
@[simp] theorem modUnit_shadow (a : Nat) (f : BankUnit → BankUnit) : (s.modUnit a f).shadow = s.shadow := rfl

/-! ### modRouter -/

@[simp] theorem modRouter_clk (a : Nat) (f : Router → Router) : (s.modRouter a f).clk = s.clk := rfl
@[simp] theorem modRouter_power (a : Nat) (f : Router → Router) : (s.modRouter a f).power = s.power := rfl
@[simp] theorem modRouter_resil (a : Nat) (f : Router → Router) : (s.modRouter a f).resil = s.resil := rfl
@[simp] theorem modRouter_nmwin (a : Nat) (f : Router → Router) : (s.modRouter a f).nmwin = s.nmwin := rfl
@[simp] theorem modRouter_faultRetryMax (a : Nat) (f : Router → Router) : (s.modRouter a f).faultRetryMax = s.faultRetryMax := rfl
@[simp] theorem modRouter_trctl (a : Nat) (f : Router → Router) : (s.modRouter a f).trctl = s.trctl := rfl
@[simp] theorem modRouter_launches (a : Nat) (f : Router → Router) : (s.modRouter a f).launches = s.launches := rfl
@[simp] theorem modRouter_teams (a : Nat) (f : Router → Router) : (s.modRouter a f).teams = s.teams := rfl
@[simp] theorem modRouter_groups (a : Nat) (f : Router → Router) : (s.modRouter a f).groups = s.groups := rfl
@[simp] theorem modRouter_threads (a : Nat) (f : Router → Router) : (s.modRouter a f).threads = s.threads := rfl
@[simp] theorem modRouter_cores (a : Nat) (f : Router → Router) : (s.modRouter a f).cores = s.cores := rfl
@[simp] theorem modRouter_main (a : Nat) (f : Router → Router) : (s.modRouter a f).main = s.main := rfl
@[simp] theorem modRouter_dsm (a : Nat) (f : Router → Router) : (s.modRouter a f).dsm = s.dsm := rfl
@[simp] theorem modRouter_sys (a : Nat) (f : Router → Router) : (s.modRouter a f).sys = s.sys := rfl
@[simp] theorem modRouter_absent (a : Nat) (f : Router → Router) : (s.modRouter a f).absent = s.absent := rfl
@[simp] theorem modRouter_dsmTags (a : Nat) (f : Router → Router) : (s.modRouter a f).dsmTags = s.dsmTags := rfl
@[simp] theorem modRouter_hist (a : Nat) (f : Router → Router) : (s.modRouter a f).hist = s.hist := rfl
@[simp] theorem modRouter_lineViews (a : Nat) (f : Router → Router) : (s.modRouter a f).lineViews = s.lineViews := rfl
@[simp] theorem modRouter_loads (a : Nat) (f : Router → Router) : (s.modRouter a f).loads = s.loads := rfl
@[simp] theorem modRouter_xfers (a : Nat) (f : Router → Router) : (s.modRouter a f).xfers = s.xfers := rfl
@[simp] theorem modRouter_tileOps (a : Nat) (f : Router → Router) : (s.modRouter a f).tileOps = s.tileOps := rfl
@[simp] theorem modRouter_tlbinvs (a : Nat) (f : Router → Router) : (s.modRouter a f).tlbinvs = s.tlbinvs := rfl
@[simp] theorem modRouter_queues (a : Nat) (f : Router → Router) : (s.modRouter a f).queues = s.queues := rfl
@[simp] theorem modRouter_lastQueue (a : Nat) (f : Router → Router) : (s.modRouter a f).lastQueue = s.lastQueue := rfl
@[simp] theorem modRouter_asids (a : Nat) (f : Router → Router) : (s.modRouter a f).asids = s.asids := rfl
@[simp] theorem modRouter_regions (a : Nat) (f : Router → Router) : (s.modRouter a f).regions = s.regions := rfl
@[simp] theorem modRouter_conversions (a : Nat) (f : Router → Router) : (s.modRouter a f).conversions = s.conversions := rfl
@[simp] theorem modRouter_placement (a : Nat) (f : Router → Router) : (s.modRouter a f).placement = s.placement := rfl
@[simp] theorem modRouter_transit (a : Nat) (f : Router → Router) : (s.modRouter a f).transit = s.transit := rfl
@[simp] theorem modRouter_dones (a : Nat) (f : Router → Router) : (s.modRouter a f).dones = s.dones := rfl
@[simp] theorem modRouter_mcast (a : Nat) (f : Router → Router) : (s.modRouter a f).mcast = s.mcast := rfl
@[simp] theorem modRouter_cadence (a : Nat) (f : Router → Router) : (s.modRouter a f).cadence = s.cadence := rfl
@[simp] theorem modRouter_quorum (a : Nat) (f : Router → Router) : (s.modRouter a f).quorum = s.quorum := rfl
@[simp] theorem modRouter_decls (a : Nat) (f : Router → Router) : (s.modRouter a f).decls = s.decls := rfl
@[simp] theorem modRouter_huddleStop (a : Nat) (f : Router → Router) : (s.modRouter a f).huddleStop = s.huddleStop := rfl
@[simp] theorem modRouter_stopGrp (a : Nat) (f : Router → Router) : (s.modRouter a f).stopGrp = s.stopGrp := rfl
@[simp] theorem modRouter_qresults (a : Nat) (f : Router → Router) : (s.modRouter a f).qresults = s.qresults := rfl
@[simp] theorem modRouter_qreplies (a : Nat) (f : Router → Router) : (s.modRouter a f).qreplies = s.qreplies := rfl
@[simp] theorem modRouter_faults (a : Nat) (f : Router → Router) : (s.modRouter a f).faults = s.faults := rfl
@[simp] theorem modRouter_faultsWaiting (a : Nat) (f : Router → Router) : (s.modRouter a f).faultsWaiting = s.faultsWaiting := rfl
@[simp] theorem modRouter_watch (a : Nat) (f : Router → Router) : (s.modRouter a f).watch = s.watch := rfl
@[simp] theorem modRouter_fabric (a : Nat) (f : Router → Router) : (s.modRouter a f).fabric = s.fabric := rfl
@[simp] theorem modRouter_outbox (a : Nat) (f : Router → Router) : (s.modRouter a f).outbox = s.outbox := rfl
@[simp] theorem modRouter_routes (a : Nat) (f : Router → Router) : (s.modRouter a f).routes = s.routes := rfl
@[simp] theorem modRouter_failedPorts (a : Nat) (f : Router → Router) : (s.modRouter a f).failedPorts = s.failedPorts := rfl
@[simp] theorem modRouter_bankUnits (a : Nat) (f : Router → Router) : (s.modRouter a f).bankUnits = s.bankUnits := rfl
@[simp] theorem modRouter_waitingCmds (a : Nat) (f : Router → Router) : (s.modRouter a f).waitingCmds = s.waitingCmds := rfl
@[simp] theorem modRouter_mailbox (a : Nat) (f : Router → Router) : (s.modRouter a f).mailbox = s.mailbox := rfl
@[simp] theorem modRouter_hostCtl (a : Nat) (f : Router → Router) : (s.modRouter a f).hostCtl = s.hostCtl := rfl
@[simp] theorem modRouter_badWords (a : Nat) (f : Router → Router) : (s.modRouter a f).badWords = s.badWords := rfl
@[simp] theorem modRouter_transits (a : Nat) (f : Router → Router) : (s.modRouter a f).transits = s.transits := rfl
@[simp] theorem modRouter_gateways (a : Nat) (f : Router → Router) : (s.modRouter a f).gateways = s.gateways := rfl
@[simp] theorem modRouter_golden (a : Nat) (f : Router → Router) : (s.modRouter a f).golden = s.golden := rfl
@[simp] theorem modRouter_nextId (a : Nat) (f : Router → Router) : (s.modRouter a f).nextId = s.nextId := rfl
@[simp] theorem modRouter_freeCount (a : Nat) (f : Router → Router) : (s.modRouter a f).freeCount = s.freeCount := rfl
@[simp] theorem modRouter_agenda (a : Nat) (f : Router → Router) : (s.modRouter a f).agenda = s.agenda := rfl
@[simp] theorem modRouter_cur (a : Nat) (f : Router → Router) : (s.modRouter a f).cur = s.cur := rfl
@[simp] theorem modRouter_shadow (a : Nat) (f : Router → Router) : (s.modRouter a f).shadow = s.shadow := rfl

end Sys2Proof.Machine.State
end

