-- ==== Sys2Proof/Laws/Traps.lean ====
section
/-! SUPPORT. Laws of pending results and traps (R87, R334 to R337): writing a pending result changes registers alone, and
taking a trap changes what R335 and R336 name and nothing else. -/

namespace Sys2Proof.Machine

/-- A pending result written: of a thread only its registers and its list of pending results change (R87). -/
theorem commit_only (s : State) (team tid : Nat) (p : Pending) :
    s.commit team tid p = { s with threads := (s.commit team tid p).threads, groups := (s.commit team tid p).groups } := by
  unfold State.commit
  split
  · rfl
  · unfold State.writeDest
    split <;> rfl

theorem thread?_commit (s : State) (team tid : Nat) (p : Pending) (a b : Nat) :
    ∃ f : Thread → Thread, (s.commit team tid p).thread? a b = (s.thread? a b).map f ∧
      ∀ u, f u = { u with v := (f u).v, pend := (f u).pend } := by
  have kS : ∀ n ws, KeepsThread (fun u : Thread => u.setRegs n ws) := fun n ws x => by
    dsimp only; rw [(Thread.setRegs_only x n ws).1]; exact ⟨rfl, rfl⟩
  have kP : KeepsThread (fun t : Thread => { t with pend := t.pend.filter (fun q => q.id != p.id) }) := fun x => ⟨rfl, rfl⟩
  unfold State.commit
  split
  · exact ⟨id, by simp, fun u => rfl⟩
  · rename_i t ht
    unfold State.writeDest
    split
    · rename_i n _
      refine ⟨fun u => (fun u : Thread => if a = team ∧ b = tid then { u with pend := u.pend.filter (fun q => q.id != p.id) } else u)
        ((fun u : Thread => if a = t.team ∧ b = t.tid then u.setRegs n ((p.value.getD []).take p.words) else u) u), ?_, ?_⟩
      · dsimp only
        rw [thread?_modThread _ _ _ _ kP, thread?_modThread _ _ _ _ (kS _ _), Option.map_map]
        rfl
      · intro u
        dsimp only
        split <;> split <;> first | rfl | rw [(Thread.setRegs_only u _ _).1]
    · refine ⟨fun u => if a = team ∧ b = tid then { u with pend := u.pend.filter (fun q => q.id != p.id) } else u, ?_, ?_⟩
      · dsimp only
        rw [thread?_modThread _ _ _ _ kP]
        rfl
      · intro u
        dsimp only
        split <;> rfl

theorem commits_only (s : State) (team tid : Nat) (ps : List Pending) :
    ps.foldl (fun s p => s.commit team tid p) s =
      { s with threads := (ps.foldl (fun s p => s.commit team tid p) s).threads, groups := (ps.foldl (fun s p => s.commit team tid p) s).groups } := by
  induction ps generalizing s with
  | nil => rfl
  | cons p r ih => rw [List.foldl_cons, ih, commit_only s team tid p]

theorem thread?_commits (s : State) (team tid : Nat) (ps : List Pending) (a b : Nat) :
    ∃ f : Thread → Thread, (ps.foldl (fun s p => s.commit team tid p) s).thread? a b = (s.thread? a b).map f ∧
      ∀ u, f u = { u with v := (f u).v, pend := (f u).pend } := by
  induction ps generalizing s with
  | nil => exact ⟨id, by simp, fun u => rfl⟩
  | cons p r ih =>
    obtain ⟨g, hg, hg'⟩ := ih (s.commit team tid p)
    obtain ⟨f, hf, hf'⟩ := thread?_commit s team tid p a b
    refine ⟨g ∘ f, ?_, fun u => ?_⟩
    · rw [List.foldl_cons, hg, hf, Option.map_map]
    · simp only [Function.comp]
      rw [hg' (f u), hf' u]

theorem thread?_mapThreads (s : State) (q : Thread → Bool) (f : Thread → Thread) (hf : KeepsThread f) (team tid : Nat) :
    (s.mapThreads q f).thread? team tid = (s.thread? team tid).map (fun u => if q u then f u else u) := thread?_updWhere s q f hf team tid

/-- The results of several threads written. -/
def commitAll (s : State) (team : Nat) (ts : List Thread) : State :=
  ts.foldl (fun s t => t.pend.foldl (fun s p => s.commit team t.tid p) s) s

theorem commitAll_only (s : State) (team : Nat) (ts : List Thread) :
    commitAll s team ts = { s with threads := (commitAll s team ts).threads, groups := (commitAll s team ts).groups } := by
  unfold commitAll
  induction ts generalizing s with
  | nil => rfl
  | cons p r ih => rw [List.foldl_cons, ih, commits_only s team p.tid p.pend]

theorem thread?_commitAll (s : State) (team : Nat) (ts : List Thread) (a b : Nat) :
    ∃ f : Thread → Thread, (commitAll s team ts).thread? a b = (s.thread? a b).map f ∧
      ∀ u, f u = { u with v := (f u).v, pend := (f u).pend } := by
  unfold commitAll
  induction ts generalizing s with
  | nil => exact ⟨id, by simp, fun u => rfl⟩
  | cons p r ih =>
    obtain ⟨g, hg, hg'⟩ := ih (p.pend.foldl (fun s q => s.commit team p.tid q) s)
    obtain ⟨f, hf, hf'⟩ := thread?_commits s team p.tid p.pend a b
    refine ⟨g ∘ f, ?_, fun u => ?_⟩
    · rw [List.foldl_cons, hg, hf, Option.map_map]
    · simp only [Function.comp]
      rw [hg' (f u), hf' u]

theorem postEvent_only (s : State) (ty : Nat) (d : List Byte) :
    s.postEvent ty d = { s with sys := (s.postEvent ty d).sys, mailbox := (s.postEvent ty d).mailbox } := rfl

/-- A trap of a table's grid may stop the table and tell the host, and does nothing else (R351). -/
theorem cadenceTrap_only (s : State) (team code : Nat) : s.cadenceTrap team code =
    { s with cadence := (s.cadenceTrap team code).cadence, sys := (s.cadenceTrap team code).sys, mailbox := (s.cadenceTrap team code).mailbox } := by
  unfold State.cadenceTrap
  split
  · rfl
  · split
    · rfl
    · split
      · rfl
      · simp only [State.postEvent]

/-- Bits of a lane mask. -/
theorem maskOf_getLsbD (l : List Nat) (j : Nat) (hj : j < 64) : (maskOf l).getLsbD j = decide (j ∈ l) := by
  have k : ∀ (l : List Nat) (m : DWord), (l.foldl (fun m i => m ||| bit64 i) m).getLsbD j = (m.getLsbD j || decide (j ∈ l)) := by
    intro l
    induction l with
    | nil => simp
    | cons a r ih =>
      intro m
      rw [List.foldl_cons, ih, BitVec.getLsbD_or, Bool.or_assoc]
      congr 1
      have : (bit64 a).getLsbD j = decide (j = a) := by
        unfold bit64
        rw [BitVec.getLsbD_ofNat, Nat.testBit_two_pow]
        simp only [hj, decide_true, Bool.true_and, decide_eq_decide]
        exact eq_comm
      rw [this]
      simp [List.mem_cons, Bool.decide_or]
  unfold maskOf
  rw [k]
  simp

/-- A trapping set of one team enters its handler at once where it can (R334). -/
theorem takeTrap_taken {s : State} {team : Nat} {tids : List Nat} (h : s.canTrap team tids) (cause : Cause) (kind : TpcKind)
    (tpc : BitVec 57) (taddr : DWord) : TrapTaken s (s.takeTrap team tids cause kind tpc taddr) team tids cause.code kind tpc taddr := by
  obtain ⟨htv, hent, hset⟩ := h
  intro tid htid u hu
  obtain ⟨hu1, hu2⟩ := thread?_key hu
  have hmem : u ∈ s.threads := List.mem_of_find?_eq_some hu
  have hin : ∀ x ∈ s.threads, x.team = team → x.tid ∈ tids → x ∈ s.threads.filter (fun t => t.team == team && tids.contains t.tid && !t.hasExited) := by
    intro x hx h1 h2
    simp [List.mem_filter, hx, h1, h2, (hset x hx h1 h2).1]
  have hout : ∀ x ∈ s.threads.filter (fun t => t.team == team && tids.contains t.tid && !t.hasExited), x ∈ s.threads ∧ x.team = team ∧ x.tid ∈ tids := by
    intro x hx
    simp only [List.mem_filter, Bool.and_eq_true, beq_iff_eq, List.contains_iff_mem] at hx
    exact ⟨hx.1, hx.2.1.1, hx.2.1.2⟩
  unfold State.takeTrap
  dsimp only
  generalize hts : s.threads.filter (fun t => t.team == team && tids.contains t.tid && !t.hasExited) = ts at hin hout
  have hne : ts.isEmpty = false := by
    cases ts with
    | nil => exact absurd (hin u hmem hu1 (hu2 ▸ htid)) (List.not_mem_nil)
    | cons a b => rfl
  have hno : ts.any (fun t => t.inHandler || t.entering.isSome) = false := by
    rw [List.any_eq_false]
    intro x hx
    obtain ⟨h1, h2, h3⟩ := hout x hx
    simp [(hset x h1 h2 h3).2.1, hent x h1 h2]
  have hnd : ts.any (·.wdogDue) = false := by
    rw [List.any_eq_false]
    intro x hx
    obtain ⟨h1, h2, h3⟩ := hout x hx
    simp [(hset x h1 h2 h3).2.2.1]
  simp only [hne, hno, hnd, Bool.false_and, Bool.false_eq_true, if_false]
  generalize hi : ({ cause := cause, tpc := tpc, kind := kind, taddr := taddr, lanes := maskOf (ts.map (·.lane)) } : TrapInfo) = i
  generalize hs2 : ((s.cadenceTrap team cause.code).unseat team tids) = s2
  have e2 : s2 = { s with cadence := s2.cadence, sys := s2.sys, mailbox := s2.mailbox, cores := s2.cores } := by
    rw [← hs2]
    unfold State.unseat
    rw [cadenceTrap_only s team cause.code]
  let f : Thread → Thread := fun t => { t with trapClause := t.clause, status := .parked .entering, entering := some i, noWatch := false, wdogDue := t.wdogDue && cause == .watchpoint }
  have kf : KeepsThread f := fun x => ⟨rfl, rfl⟩
  generalize hs3 : s2.modThreads team (ts.map (·.tid)) (fun t => { t with trapClause := t.clause, status := .parked .entering, entering := some i, noWatch := false, wdogDue := t.wdogDue && cause == .watchpoint }) = s3
  have e3 : s3 = { s2 with threads := updWhere (fun t => t.team == team && (ts.map (·.tid)).contains t.tid) f s2.threads } := by rw [← hs3]; rfl
  have htid3 : ∀ x ∈ s.threads, x.team = team → (x.tid ∈ ts.map (·.tid) ↔ x.tid ∈ tids) := by
    intro x hx h1
    constructor
    · intro h
      obtain ⟨y, hy, he⟩ := List.mem_map.1 h
      exact he ▸ (hout y hy).2.2
    · intro h
      exact List.mem_map.2 ⟨x, hin x hx h1 h, rfl⟩
  have hth2 : s2.threads = s.threads := by rw [e2]
  have ht3 : s3.thread? team tid = some (f u) := by
    rw [← hs3, thread?_modThreads _ _ _ _ kf]
    have : s2.thread? team tid = some u := by rw [← hu]; unfold State.thread?; rw [hth2]
    rw [this]
    have : tid ∈ ts.map (·.tid) := hu2 ▸ (htid3 u hmem hu1).2 (hu2 ▸ htid)
    simp only [Option.map_some, this, and_self, if_true]
  have hmem3 : ∀ x ∈ s3.threads, x.team = team → x.entering = some i → ∃ y ∈ s.threads, y.team = team ∧ y.tid ∈ tids ∧ x = f y := by
    intro x hx h1 h2
    rw [e3] at hx
    obtain ⟨y, hy, rfl⟩ := List.mem_map.1 hx
    rw [hth2] at hy
    split at h2
    · rename_i hq
      simp only [Bool.and_eq_true, beq_iff_eq, List.contains_iff_mem] at hq
      exact ⟨y, hy, hq.1, (htid3 y hy hq.1).1 hq.2, by simp [hq]⟩
    · rename_i hq
      simp only [hq, Bool.false_eq_true, if_false] at h1
      rw [hent y hy h1] at h2
      cases h2
  have htv3 : s3.tvecOf team = s.tvecOf team := by rw [e3, e2]; rfl
  unfold State.tryEnter
  dsimp only
  generalize hts3 : s3.threads.filter (fun t => t.team == team && t.entering == some i) = ts3
  have hne3 : ts3.isEmpty = false := by
    cases ts3 with
    | nil =>
      have : f u ∈ s3.threads := List.mem_of_find?_eq_some ht3
      have : f u ∈ s3.threads.filter (fun t => t.team == team && t.entering == some i) := by
        rw [List.mem_filter]
        refine ⟨this, ?_⟩
        simp [f, hu1]
      rw [hts3] at this
      exact absurd this List.not_mem_nil
    | cons a b => rfl
  have hall : ts3.all Thread.allArrived = true := by
    rw [List.all_eq_true]
    intro x hx
    rw [← hts3, List.mem_filter] at hx
    simp only [Bool.and_eq_true, beq_iff_eq] at hx
    obtain ⟨y, h1, h2, h3, rfl⟩ := hmem3 x hx.1 hx.2.1 hx.2.2
    unfold Thread.allArrived
    rw [List.all_eq_true]
    exact (hset y h1 h2 h3).2.2.2.2
  have htv' : (s.tvecOf team == 0#64) = false := by simpa using htv
  simp only [hne3, hall, htv3, htv', Bool.not_true, Bool.or_self, Bool.false_eq_true, if_false]
  obtain ⟨g, hg, hg'⟩ := thread?_commitAll s3 team ts3 team tid
  rw [ht3, Option.map_some] at hg
  have hq : ((g (f u)).team == team && (g (f u)).entering == some i) = true := by
    rw [hg' (f u)]
    simp [f, hu1]
  rw [thread?_mapThreads]
  swap
  · exact fun x => ⟨rfl, rfl⟩
  change ∃ u', Option.map _ ((commitAll s3 team ts3).thread? team tid) = _ ∧ _
  rw [hg, Option.map_some, if_pos hq]
  refine ⟨_, rfl, ?_⟩
  subst hi
  refine ⟨rfl, rfl, rfl, rfl, rfl, ?_, rfl, rfl, rfl, ?_, ?_, ?_, ?_⟩
  · rw [hg' (f u)]
  · intro hy; rw [hg' (f u)]; exact hy
  · intro hy; rw [hg' (f u)]; exact hy
  · rw [hg' (f u)]
  · intro j hj
    dsimp only
    rw [maskOf_getLsbD _ _ hj, decide_eq_true_eq, List.mem_map]
    constructor
    · rintro ⟨x, hx, rfl⟩
      obtain ⟨h1, h2, h3⟩ := hout x hx
      exact ⟨x, h1, h2, h3, rfl⟩
    · rintro ⟨x, h1, h2, h3, rfl⟩
      exact ⟨x, hin x h1 h2 h3, rfl⟩

end Sys2Proof.Machine
end

