-- ==== Sys2Proof/Tests/Slice0.lean ====
section
/-! SUPPORT. Tests: words of the spec's encoding tables, ill-formed instructions, and for each statement a state and
operands that meet its hypotheses. -/

set_option Elab.async false

namespace Sys2Proof.Machine.Tests

open Sys2Proof

/-! ### States for the witnesses -/

/-- A machine of one core that issues the word next. -/
def start (w : Nat) : State :=
  let s : State := { State.reset with cores := [Core.reset 0] }
  { s.withFetchWord 64 w with agenda := [], cur := { core := 0, port := 0 } }

/-- Whether a state is `Seated` at its context. -/
def seatedB (s : State) : Bool :=
  match s.ctx? with
  | none => false
  | some c => decide c.grp.members.Nodup &&
      c.ths.all (fun p => (s.thread? p.team p.tid).any (fun u => decide (c.role.regs ≤ u.v.length) && u.status == .inGroup)) &&
      c.ths.all (fun p => (s.hg? p.team p.role p.hg).any (fun g => decide (64 ≤ g.s.length)))

theorem seatedB_sound {s : State} {c : Ctx} (h : seatedB s = true) (hc : s.ctx? = some c) : Seated s c := by
  unfold seatedB at h
  rw [hc] at h
  simp only [Bool.and_eq_true, decide_eq_true_eq, List.all_eq_true, Option.any_eq_true] at h
  refine ⟨hc, h.1.1, fun p hp => ?_, fun p hp => ?_⟩
  · obtain ⟨u, hu, hq⟩ := h.1.2 p hp
    simp only [Bool.and_eq_true, decide_eq_true_eq, beq_iff_eq] at hq
    exact ⟨u, hu, hq⟩
  · obtain ⟨g, hg, hq⟩ := h.2 p hp
    exact ⟨g, hg, by simpa using hq⟩

/-- The context of the group that issues. -/
def cx (s : State) : Ctx :=
  s.ctx?.getD { core := 0, port := 0, clk := 0, grp := default, team := default, launch := default, ths := [], groups := [], ftz := false }

theorem seated_cx {s : State} (h : seatedB s = true) : Seated s (cx s) := by
  have : s.ctx? = some (cx s) := by
    cases hc : s.ctx? with
    | none => simp [seatedB, hc] at h
    | some c => simp [cx, hc]
  exact seatedB_sound h this

/-- A state and an instruction meet the hypotheses that the register-writing statements make. -/
def Ready (s : State) (i : Instr) (ops : List (Operand × Nat)) : Prop := Seated s (cx s) ∧ i.wf = true ∧ (cx s).fits ops

theorem ready {s : State} {i : Instr} {ops : List (Operand × Nat)}
    (h : (seatedB s && i.wf && ops.all (fun o => Operand.fits o.1 (cx s).role.regs o.2)) = true) : Ready s i ops := by
  simp only [Bool.and_eq_true, List.all_eq_true] at h
  exact ⟨seated_cx h.1.1, h.1.2, fun o ho => h.2 o ho⟩

/-- The same of a list of instructions at once. -/
theorem ready_all {s : State} {l : List (Instr × List (Operand × Nat))}
    (h : (seatedB s && l.all (fun x => x.1.wf && x.2.all (fun o => Operand.fits o.1 (cx s).role.regs o.2))) = true) :
    ∀ x ∈ l, Ready s x.1 x.2 := by
  simp only [Bool.and_eq_true, List.all_eq_true] at h
  exact fun x hx => ⟨seated_cx h.1, (h.2 x hx).1, fun o ho => (h.2 x hx).2 o ho⟩

def st0 : State := start 0


/-- The unguarded head; the same with U = 1. -/
def hd : Head := ⟨false, false, 7⟩
def hu : Head := ⟨true, false, 7⟩
def h1 : Head := ⟨false, false, 1⟩
def h3 : Head := ⟨false, false, 3⟩


theorem allLive_of {s : State} (h : s.teams.all (fun x => s.groups.any (fun g => g.team == x.key && !g.retired &&
    s.threads.any (fun u => u.inHg g.team g.role g.idx && !u.hasExited))) = true) : s.allLive := by
  intro x hx
  have := List.all_eq_true.mp h x hx
  simp only [List.any_eq_true, Bool.and_eq_true, beq_iff_eq, Bool.not_eq_true'] at this
  obtain ⟨g, hg, ⟨h1, h2⟩, u, hu, h3, h4⟩ := this
  exact ⟨g, hg, h1, h2, u, hu, h3, h4⟩

theorem memOk_of {s : State} (h : (s.main.wf && s.dsm.wf && s.sys.wf && s.teams.all (fun x => x.lsm.wf && x.acc.wf)) = true) : s.memOk := by
  simp only [Bool.and_eq_true, List.all_eq_true] at h
  exact { main := h.1.1.1, dsm := h.1.1.2, sys := h.1.2, lsm := fun x hx => (h.2 x hx).1, acc := fun x hx => (h.2 x hx).2 }

/-- The one thread of a state, and its home group, team, launch and core. -/
def th (s : State) : Thread := s.threads.headD default
def hgOf (s : State) : HomeGroup := s.groups.headD default
def tmOf (s : State) : Team := s.teams.headD default
def lnOf (s : State) : Launch := s.launches.headD default
def coOf (s : State) : Core := s.cores.headD default

/-- The same machine with its thread, group of issue, team, launch or core changed. -/
def withThread (s : State) (f : Thread → Thread) : State := { s with threads := s.threads.map f }
def withTeam (s : State) (f : Team → Team) : State := { s with teams := s.teams.map f }
def withLaunch (s : State) (f : Launch → Launch) : State := { s with launches := s.launches.map f }
def withCore (s : State) (f : Core → Core) : State := { s with cores := s.cores.map f }

theorem locksRoom_of {s : State} {core n : Nat} (h : (s.core? core).any (fun k =>
    decide (k.locks.length + n ≤ Config.rangeLocks) && k.locks.all (·.dest)) = true) : s.locksRoom core n := by
  cases hk : s.core? core with
  | none => simp [hk] at h
  | some k =>
    simp only [hk, Option.any_some, Bool.and_eq_true, decide_eq_true_eq, List.all_eq_true] at h
    exact ⟨k, hk, h.1, h.2⟩

def LaneRes.isGood : LaneRes → Bool
  | .good _ _ => true
  | _ => false

theorem good_of {r : LaneRes} (h : LaneRes.isGood r = true) : ∃ a b, r = .good a b := by
  cases r <;> simp [LaneRes.isGood] at h ⊢

def BankRes.isReady : BankRes → Bool
  | .ready _ none => true
  | _ => false

theorem ready_of {r : BankRes} (h : BankRes.isReady r = true) : ∃ b, r = .ready b none := by
  rcases r with ⟨b, _ | _⟩ | _ | _ <;> simp [BankRes.isReady] at h ⊢

/-- The same machine with register pair V8:V9 at the mapped page, and that page writable. -/
def stReg : State := withCore (withThread st0 (fun u => { u with v := (u.v.set 8 0x40000000#32).set 9 0#32 }))
  (fun k => { k with tlb := k.tlb.map (fun e => { e with pte := e.pte ||| 4#64 }) })

/-- The state after an instruction or event that completes. -/
def go (i : Instr) (s : State) : State :=
  match exec i s with
  | .next t => t
  | _ => s

/-- The same machine with a handler for its address space. -/
def stTv (s : State) : State := { s with asids := [{ id := 0, valid := true, root := 0, tvec := 0x40000800#64, wdog := 26#32 }] }

theorem canTrap_st0 : (stTv st0).canTrap 1 [0] := by unfold State.canTrap; decide +kernel

/-- The integer, predicate and cross-lane instructions, V3 and VL (R82, R83, R85, and their entries). -/
theorem test_words_vec : ([
   (0x00380000200C05FF#64, .iadd hd ⟨.i32, false, false, false, false, false⟩ (.v 4) (.v 3) (.v 2)),
   (0x003C060100000064#64, .iaddVl hd (.v 3) (.v 1) 100#32),
   (0x1538108FF812A1FF#64, .icmp hd ⟨.i32, 2, false, 1⟩ .none (.v 4) (.int 0) .none),
   (0x383800001006A9FF#64, .xchg hd .i32 .xor (.v 2) (.v 1) (.int 4)),
   (0x183C140800004000#64, .leaVl hd (.v 10) (.v 8) 0x4000#32),
   (0x3B398020401FFFFF#64, .xred hd ⟨.f32, .rn, false, false, 2⟩ (.v 8) (.v 7)),
   (0x013C0C0880000001#64, .isubVl hd (.v 6) (.v 8) 0x80000001#32),
   (0x023C0C0880000002#64, .imulVl hd (.v 6) (.v 8) 0x80000002#32),
   (0x033C0C0880000003#64, .imulhiVl hd (.v 6) (.v 8) 0x80000003#32),
   (0x053C0C0880000005#64, .iminVl hd (.v 6) (.v 8) 0x80000005#32),
   (0x063C0C0880000006#64, .imaxVl hd (.v 6) (.v 8) 0x80000006#32),
   (0x083C0C0880000008#64, .shlVl hd (.v 6) (.v 8) 0x80000008#32),
   (0x093C0C0880000009#64, .shrVl hd (.v 6) (.v 8) 0x80000009#32),
   (0x0A3C0C088000000A#64, .sarVl hd (.v 6) (.v 8) 0x8000000A#32),
   (0x0B3C0C088000000B#64, .andVl hd (.v 6) (.v 8) 0x8000000B#32),
   (0x0C3C0C088000000C#64, .orVl hd (.v 6) (.v 8) 0x8000000C#32),
   (0x0D3C0C088000000D#64, .xorVl hd (.v 6) (.v 8) 0x8000000D#32),
   (0x123C0C0880000012#64, .bfeVl hd (.v 6) (.v 8) 0x80000012#32),
   (0x193C0C0880000019#64, .iadd64Vl hd (.v 6) (.v 8) 0x80000019#32),
   (0x01B88C00281A0FFF#64, .isub hu ⟨.i16x2, true, true, false, false, false⟩ (.v 5) (.v 6) (.s 7)),
   (0x02B94008281B25FF#64, .imul hu ⟨.n8x4, false, false, false, false, false⟩ (.s 5) (.v 6) (.int 66)),
   (0x033802002D0413FF#64, .imulhi hd ⟨.i32, false, false, true, false, false⟩ (.v 5) (.special .hidx) (.v 9)),
   (0x0450C80028180E08#64, .imad ⟨false, true, 2⟩ ⟨.n16x2, true, false, false, false, false⟩ (.v 5) (.v 6) (.v 7) (.v 8)),
   (0x0539010028180FFF#64, .imin hd ⟨.i8x4, false, false, false, true, false⟩ (.v 5) (.v 6) (.v 7)),
   (0x0638008028180FFF#64, .imax hd ⟨.i32, false, false, false, false, true⟩ (.v 5) (.v 6) (.v 7)),
   (0x07388800281BFFFF#64, .iabs hd .i16x2 true (.v 5) (.v 6)),
   (0x083B4000201813FF#64, .shl hd .n64 (.v 4) (.v 6) (.v 9)),
   (0x0938C000281813FF#64, .shr hd .n16x2 (.v 5) (.v 6) (.v 9)),
   (0x0A390000281813FF#64, .sar hd .i8x4 (.v 5) (.v 6) (.v 9)),
   (0x0B384400281813FF#64, .and hd .n32 true false (.v 5) (.v 6) (.v 9)),
   (0x0C3B0200201811FF#64, .or hd .i64 false true (.v 4) (.v 6) (.v 8)),
   (0x0D380000281813FF#64, .xor hd .i32 false false (.v 5) (.v 6) (.v 9)),
   (0x0E3B280028180E08#64, .lut3 hd 0xCA#8 (.v 5) (.v 6) (.v 7) (.v 8)),
   (0x0F3B0000281BFFFF#64, .popc hd .i64 (.v 5) (.v 6)),
   (0x10384000281FFFFF#64, .clz hd .n32 (.v 5) (.v 7)),
   (0x113B4000201BFFFF#64, .brev hd .n64 (.v 4) (.v 6)),
   (0x1238400020180FFF#64, .bfe hd .n32 (.v 4) (.v 6) (.v 7)),
   (0x1338000020180E08#64, .bfi hd (.v 4) (.v 6) (.v 7) (.v 8)),
   (0x1438428020180E08#64, .iaddc hd 5 (.v 4) (.v 6) (.v 7) (.v 8)),
   (0x163B000020181009#64, .sel hd .i64 (.v 4) (.v 6) (.v 8) (.v 9))] ++
  [
   (0x17380000252FFFFF#64, .mov hd (.v 4) (.special .launch)),
   (0x1B3B000026BFFFFF#64, .mov64 hd (.v 4) (.int 95)),
   (0x18384030201813FF#64, .lea hd .n32 3 (.v 4) (.v 6) (.v 9)),
   (0x193B0C00201811FF#64, .iadd64 hd ⟨.i64, true, true, false, false, false⟩ (.v 4) (.v 6) (.v 8)),
   (0x1A3B6F0028181009#64, .icmp64 hd ⟨.n64, 5, true, 6⟩ (.v 5) (.v 6) (.v 8) (.v 9)),
   (0x353A598FFD46A157#64, .plut hd 0x96#8 3 1 0 7),
   (0x363800002FFFFFFF#64, .pmov hd (.v 5)),
   (0x36382A9FF81BFFFF#64, .pmovW hd 0x55#7 (.v 6)),
   (0x383C0C0900000058#64, .xchgVl hd (.v 6) (.v 9) 0x58#32),
   (0x393C0C0900000059#64, .xpermVl hd (.v 6) (.v 9) 0x59#32),
   (0x3A3C0C090000005A#64, .xbcastVl hd (.v 6) (.v 9) 0x5A#32),
   (0x3C3C0C090000005C#64, .xscanVl hd (.v 6) (.v 9) 0x5C#32),
   (0x3F3C0C090000005F#64, .xreadVl hd (.v 6) (.v 9) 0x5F#32),
   (0x403C0C0900000060#64, .xwriteVl hd (.v 6) (.v 9) 0x60#32),
   (0x393B0000201AB3FF#64, .xperm hd .i64 (.v 4) (.v 6) (.int 9)),
   (0x3A38000028180FFF#64, .xbcast hd .i32 (.v 5) (.v 6) (.v 7)),
   (0x3C399C0028180FFF#64, .xscan hd ⟨.f32, .rz, true, true, 0⟩ (.v 5) (.v 6) (.v 7)),
   (0x3D380010281BFFFF#64, .xballot hd true (.v 5) (.v 6)),
   (0x3E3B0000201BFFFF#64, .xmatch hd .i64 false (.v 4) (.v 6)),
   (0x3F380000281A0FFF#64, .xread hd (.v 5) (.v 6) (.s 7)),
   (0x403800002C180FFF#64, .xwrite hd (.v 5) (.s 6) (.v 7))] : List (DWord × Instr)).all
    (fun x => match decodeWord x.1 with | .ok i => i == x.2 | .error _ => false) = true := by decide +kernel

/-- The floating-point and conversion instructions (R82, R83, R85, R107, R119 to R123). -/
theorem test_words_float : ([
   (0x30398C80A00E0B50#64, .cvt hd ⟨.f32, .rn, true, .e4x4, 0⟩ (.v 20) (.v 3) (.s 5) (.int 0)),
   (0x20399000A81761FF#64, .fadd hd ⟨.f32, .rz, false, false, false, false, false, false⟩ (.v 21) (.v 5) (.flt 0)),
   (0x22398000B0502BFF#64, .fmul hd ⟨.f32, .rn, false, false, false, false, false, false⟩ (.v 22) (.v 20) (.v 21)),
   (0x203C0C093F800020#64, .faddVl hd (.v 6) (.v 9) 0x3F800020#32),
   (0x213C0C093F800021#64, .fsubVl hd (.v 6) (.v 9) 0x3F800021#32),
   (0x223C0C093F800022#64, .fmulVl hd (.v 6) (.v 9) 0x3F800022#32),
   (0x243C0C093F800024#64, .fminVl hd (.v 6) (.v 9) 0x3F800024#32),
   (0x253C0C093F800025#64, .fmaxVl hd (.v 6) (.v 9) 0x3F800025#32),
   (0x2F3C0C093F80002F#64, .fscaleVl hd (.v 6) (.v 9) 0x3F80002F#32),
   (0x333C0C093F800033#64, .qdecVl hd (.v 6) (.v 9) 0x3F800033#32),
   (0x2139EA00281B7FFF#64, .fsub hd ⟨.h16x2, .ru, true, false, true, false, false, false⟩ (.v 5) (.v 6) (.flt 15)),
   (0x233A311028180E08#64, .fmac hd ⟨.b16x2, .rd, false, false, false, true, false, true⟩ (.v 5) (.v 6) (.v 7) (.v 8)),
   (0x2439840028180FFF#64, .fmin hd ⟨.f32, .rn, false, true, false, false, false, false⟩ (.v 5) (.v 6) (.v 7)),
   (0x2539C08028180FFF#64, .fmax hd ⟨.h16x2, .rn, false, false, false, false, true, false⟩ (.v 5) (.v 6) (.v 7)),
   (0x2639B90028180FFF#64, .fcmp hd ⟨.f32, 7, false, 2⟩ (.v 5) (.v 6) (.v 7) .none),
   (0x27398000281BFFFF#64, .fclass hd (.v 5) (.v 6)),
   (0x28398100281BFFFF#64, .frcp hd .rn false true (.v 5) (.v 6)),
   (0x29399400281FFFFF#64, .frsq hd .rz true false (.v 5) (.v 7)),
   (0x2A39A1002823FFFF#64, .fsqrt hd .ru false true (.v 5) (.v 8)),
   (0x2B39B4002827FFFF#64, .fexp2 hd .rd true false (.v 5) (.v 9)),
   (0x2C398100282BFFFF#64, .flog2 hd .rn false true (.v 5) (.v 10)),
   (0x2D399400282FFFFF#64, .ftanh hd .rz true false (.v 5) (.v 11)),
   (0x2E39D08028180E08#64, .fdot2 hd ⟨.h16x2, .rz, false, false, false, false, true, false⟩ (.v 5) (.v 6) (.v 7) (.v 8)),
   (0x2F39A90028180FFF#64, .fscale hd .ru true false true (.v 5) (.v 6) (.v 7)),
   (0x313A981028180E08#64, .cvtpk hd .e5x4 .rz true true (.v 5) (.v 6) (.v 7) (.v 8)),
   (0x32393C10281BFFFF#64, .cvtx hd .i8x4 .rd true .b16x2 true (.v 5) (.v 6)),
   (0x333A2030281A13FF#64, .qdec hd .b16x2 .ru 3 (.v 5) (.v 6) (.s 9)),
   (0x3439807028180E08#64, .qenc hd 7 (.v 5) (.v 6) (.v 7) (.v 8))] : List (DWord × Instr)).all
    (fun x => match decodeWord x.1 with | .ok i => i == x.2 | .error _ => false) = true := by decide +kernel

/-- The MEM and XFER instructions (R86, R171, R184, R192, R201, R225, R229, R230). -/
theorem test_words_mem : ([
   (0x60388800A01BFE02#64, .ld hd ⟨1, .relaxed, .team, false⟩ .b32 (.v 20) (.v 6) 2#9),
   (0x6718026FFFFFFE00#64, .fence h3 .mem .release .device),
   (0x641800008C12A201#64, .atom h3 ⟨0, .relaxed, .team, false⟩ .addN32 (.v 17) (.s 4) (.int 1) 1#9),
   (0x649803683406A213#64, .atom ⟨true, false, 3⟩ ⟨0, .acqRel, .device, false⟩ .addN32 (.s 6) (.s 1) (.int 1) 19#9),
   (0x80380A005023FFFF#64, .cpy hd 2 .m2s false (.v 10) (.v 8) (some 2)),
   (0x80387E203023FFFF#64, .cpy hd 2 .s2m false (.v 6) (.v 8) none),
   (0x88B80C00A0542D52#64, .qpost hu false (.v 20) (.v 21) (.v 22) (.int 2) (some 3)),
   (0x61380E8FF8181100#64, .st hd ⟨0, .release, .system, false⟩ .b64 (.v 6) (.v 8) 256#9),
   (0x623FB0004543FE05#64, .ldk hd 15 .b128 (.v 8) (.int 0) 5#9),
   (0x6338240FF81AAEFF#64, .stk hd .b16 (.v 6) (.int 7) 255#9),
   (0x65383A4FF8181003#64, .red hd ⟨0, .release, .die, false⟩ .addB16x2 (.v 6) (.v 8) 3#9),
   (0x66390F304014140C#64, .cas hd ⟨2, .acqRel, .core, true⟩ .b64 (.v 8) (.v 5) (.v 10) (.v 12)),
   (0x683981604017FFFF#64, .probe hd ⟨3, .acquire, .device, false⟩ (.v 8) (.v 5) 511#9),
   (0x81383D1028180FFF#64, .cpymc hd 1 true (.v 5) (.v 6) (.v 7) (some 15)),
   (0x82387F603017FFFF#64, .nmadd hd .b16x2 6 true (.v 6) (.v 5)),
   (0x83387D903017FFFF#64, .nmmax hd .n32 1 false (.v 6) (.v 5)),
   (0x84387C0030236358#64, .nmaxpy hd (.v 6) (.v 8) (.flt 1) (.int 8)),
   (0x85387F003017FFFF#64, .nmstep hd true true (.v 6) (.v 5)),
   (0x8638100FFFFFFFFF#64, .nmfence hd (some 4)),
   (0x87381F8FF818120B#64, .rstripe hd true 3 (.v 6) (.v 9) (.v 11) 7),
   (0x893B08002D4C0FFF#64, .qsync hd 6 (.v 5) (.int 3) (.v 7) (some 2)),
   (0x8A380700281AB3FF#64, .amsg hd true 16 (.v 5) (.v 6) (.int 9) (some 1))] : List (DWord × Instr)).all
    (fun x => match decodeWord x.1 with | .ok i => i == x.2 | .error _ => false) = true := by decide +kernel

/-- The TILE instructions (R86, R205). -/
theorem test_words_tile : ([
   (0xA0B8000007FEE170#64, .tcfg hu 0 .e4 .none (.int 32) (.int 32)),
   (0xA0B8102007FE1570#64, .tcfg hu 2 .q4 .none (.s 10) (.int 32)),
   (0xA8B800000543FFFF#64, .accz hu (.int 0) .none),
   (0xA238007C47FC15FF#64, .tld hd 0 none .data 2 (.v 10) .none),
   (0xA208107D07FC0BFF#64, .tld h1 2 none .qs 0 (.v 5) .none),
   (0xA51809000547FFFF#64, .mma h3 1 2 false false (.int 1) .none .none),
   (0xA9B80028FD4609FF#64, .acccvt hu .b16 .rn false none (.int 1) (.s 4) .none),
   (0xA138780007FFFFFF#64, .trel hd 15),
   (0xA338181487FC0C07#64, .tst hd 3 (some 5) 4 (.v 6) (.v 7)),
   (0xA4B8480007FFFFFF#64, .tzero hu 9),
   (0xA53822A000180E08#64, .mma hd 4 5 false true (.v 6) (.v 7) (.v 8)),
   (0xA63A00021D480C07#64, .accld hd 4 3 (.v 8) (.int 2) (.v 6) (.v 7)),
   (0xA73800022D480C07#64, .accst hd 5 (.v 8) (.int 2) (.v 6) (.v 7)),
   (0xA938003D75440C07#64, .acccvt hd .f32 .ru true (some 14) (.int 1) (.v 6) (.v 7))] : List (DWord × Instr)).all
    (fun x => match decodeWord x.1 with | .ok i => i == x.2 | .error _ => false) = true := by decide +kernel

/-- The CTRL and SYS instructions (R136). -/
theorem test_words_ctrl : ([
   (0xD43803FFFF000009#64, .join hd 0 9#24),
   (0xD00803FFFF000007#64, .bra h1 7#24),
   (0xD53803FFFF000000#64, .waitj hd 0),
   (0xD8380FFFFF000000#64, .elect hd 3 .none),
   (0xDAB882A3FF000000#64, .binit hu 2 (.int 1)),
   (0xDC389EA1FF000000#64, .bwait hd 2 7 (.int 0)),
   (0xD63803FFFF000000#64, .exit hd),
   (0xE53803FFFF000000#64, .tret hd .retry),
   (0xE53807FFFF000000#64, .tret hd .skip),
   (0xE5380BFFFF000000#64, .tret hd .kill),
   (0xD00803FFFFFFFFF1#64, .bra h1 0xFFFFF1#24),
   (0xD138000DFF000000#64, .brx hd (.v 6)),
   (0xD23803FE08000021#64, .call hd (.v 8) 33#24),
   (0xD3380011FF000000#64, .ret hd (.v 8)),
   (0xD43FC3FFFFFFFFFE#64, .join hd 31 0xFFFFFE#24),
   (0xD73803FFFF000000#64, .yield hd),
   (0xD938000DFF000000#64, .syncm hd (.v 6)),
   (0xDB3BC00FFF000000#64, .barv hd 15 (.v 7)),
   (0xDD38C00FFF000000#64, .bexp hd 3 (.v 7)),
   (0xDE3907FFFF000000#64, .binv hd 4 true),
   (0xDF380BFFFF000000#64, .gsize hd 2),
   (0xE038800C0700000C#64, .spawn hd 2 (.v 6) (.v 7) 12#24),
   (0xE138000C09000000#64, .launch hd (.v 6) (.v 9)),
   (0xE23803FFFFABCDEF#64, .trap hd 0xABCDEF#24),
   (0xE33803FFFF123456#64, .bkpt hd 0x123456#24),
   (0xE43803FFFF000000#64, .nop hd),
   (0xF03803FE08000062#64, .csrrd hd (.v 8) 0x062#12),
   (0xF1B80029FF000010#64, .csrwr hu (.v 20) 0x010#12),
   (0xF2B8000101000000#64, .cdstart hu (.v 0) (.s 1)),
   (0xF33803FFFF000000#64, .cdstop hd),
   (0xF438000FFF000000#64, .replay hd (.v 7)),
   (0xF538040FFF000000#64, .cancel hd true (.v 7)),
   (0xF638080E08000000#64, .tlbinv hd .page (.v 7) (.v 8)),
   (0xF738000FFF000000#64, .preempt hd (.v 7)),
   (0xF838000F55000000#64, .trace hd (.v 7) (.int 5)),
   (0xF938040E08000000#64, .mcgset hd true (.v 7) (.v 8))] : List (DWord × Instr)).all
    (fun x => match decodeWord x.1 with | .ok i => i == x.2 | .error _ => false) = true := by decide +kernel

/-- Words that are not instructions, each with its cause (R75, R77, R78, R81, R83, R84, R86, R93, R95, R97). -/
theorem test_words_refused : ([
   (0xC420FFFFFFFF0000#64, .illegalOp), (0x1C380000000001FF#64, .illegalOp), (0x0F3C060100000064#64, .illegalOp),
   (0x00380010200C05FF#64, .illegalOperand), (0x00384400200C05FF#64, .illegalOp), (0x00381000200C05FF#64, .illegalOperand),
   (0xE43803FFFF000001#64, .illegalOp), (0xD03843FFFF000007#64, .illegalOp), (0x00780000200C05FF#64, .illegalOperand),
   (0x0038000FF80C05FF#64, .illegalOperand), (0x0038000A880C05FF#64, .illegalOperand), (0x00380008080C05FF#64, .illegalOperand),
   (0x0038000023FC05FF#64, .illegalOperand), (0x00380000253C05FF#64, .illegalOperand), (0x00380000200F81FF#64, .illegalOperand),
   (0x00380000200C0401#64, .illegalOperand), (0x003B8000200C05FF#64, .illegalOperand), (0x00398000200C05FF#64, .illegalOperand),
   (0xD0B803FFFF000007#64, .illegalOperand), (0x60384800080BFE00#64, .illegalOperand), (0x60381400080BFE00#64, .illegalOperand),
   (0x60380A00080BFE00#64, .illegalOperand), (0x603808A0080BFE00#64, .illegalOperand), (0x6138880FF8080200#64, .illegalOperand),
   (0x80387F005023FFFF#64, .illegalOperand), (0x80387CA05023FFFF#64, .illegalOperand), (0x803840005023FFFF#64, .illegalOperand),
   (0xE5380FFFFF000000#64, .illegalOperand), (0xDA3C02A3FF000000#64, .illegalOperand), (0xF6380FFFFF000000#64, .illegalOperand)] : List (DWord × DecodeError)).all
    (fun x => match decodeWord x.1 with | .ok _ => false | .error e => e == x.2) = true := by decide +kernel

/-- One term for each check of `Instr.wf`, which it refuses: the guard, U, the destination, the sources, pairs and quads,
types and modifiers, LA and ORD, optional operands, the CSR table (R75, R77, R81, R101, R107, R119, R130, R158, R171, R178). -/
theorem test_ill_formed : ([
   .nop ⟨false, true, 7⟩, .nop hu, .mov hd .none (.v 1), .mov hd (.int 3) (.v 1), .mov hd (.s 3) (.v 1), .mov hd (.v 1) .none,
   .mov64 hd (.v 3) (.v 4), .mov64 hd (.v 2) (.v 5), .mov64 hd (.v 2) (.special .tid),
   .iadd hd ⟨.f32, false, false, false, false, false⟩ (.v 1) (.v 2) (.v 3),
   .iadd hd ⟨.n32, false, true, false, false, false⟩ (.v 1) (.v 2) (.v 3),
   .imin hd ⟨.i32, true, false, false, false, false⟩ (.v 1) (.v 2) (.v 3),
   .imad hd ⟨.i8x4, false, false, false, false, false⟩ (.v 1) (.v 2) (.v 3) (.v 4),
   .imulhi hd ⟨.i16x2, false, false, false, false, false⟩ (.v 1) (.v 2) (.v 3), .iabs hd .n32 false (.v 1) (.v 2),
   .shl hd .f32 (.v 1) (.v 2) (.v 3), .and hd .i8x4 false false (.v 1) (.v 2) (.v 3), .popc hd .i16x2 (.v 1) (.v 2),
   .bfe hd .i64 (.v 1) (.v 2) (.v 3), .icmp hd ⟨.i32, 6, false, 1⟩ .none (.v 1) (.v 2) .none,
   .icmp hd ⟨.i32, 0, true, 1⟩ .none (.v 1) (.v 2) .none, .icmp64 hd ⟨.i32, 0, false, 1⟩ .none (.v 2) (.v 4) .none,
   .fcmp hd ⟨.h16x2, 0, false, 1⟩ .none (.v 1) (.v 2) .none, .sel hd .n32 (.v 1) (.v 2) (.v 3) (.v 4),
   .lea hd .i64 0 (.v 2) (.v 4) (.v 6), .fadd hd ⟨.i32, .rn, false, false, false, false, false, false⟩ (.v 1) (.v 2) (.v 3),
   .fadd hd ⟨.f32, .rn, false, false, false, false, false, true⟩ (.v 1) (.v 2) (.v 3),
   .fmin hd ⟨.f32, .rz, false, false, false, false, false, false⟩ (.v 1) (.v 2) (.v 3),
   .fdot2 hd ⟨.f32, .rn, false, false, false, false, false, false⟩ (.v 1) (.v 2) (.v 3) (.v 4),
   .cvt hd ⟨.q4x8, .rn, false, .f32, 0⟩ (.v 1) (.v 2) .none .none, .cvt hd ⟨.f32, .rn, false, .f32, 1⟩ (.v 1) (.v 2) .none .none,
   .cvt hd ⟨.f32, .rn, false, .e4x4, 4⟩ (.v 1) (.v 2) .none (.v 3), .cvt hd ⟨.f32, .rn, false, .e4x4, 0⟩ (.v 1) (.v 2) .none .none,
   .cvtpk hd .q4x8 .rn false false (.v 1) (.v 2) (.v 3) .none, .cvtpk hd .h16x2 .rn false true (.v 1) (.v 2) (.v 3) .none,
   .cvtx hd .h16x2 .rn false .b16x2 false (.v 1) (.v 2), .qdec hd .h16x2 .rn 0 (.v 1) (.v 2) .none, .qdec hd .b16x2 .rn 4 (.v 1) (.v 2) .none,
   .xchg hd .i32 .tr (.v 2) (.v 4) (.v 6), .xchg hu .i32 .xor (.v 2) (.v 4) (.v 6), .xperm hd .f32 (.v 2) (.v 4) (.v 6),
   .xred hd ⟨.f32, .rn, false, false, 3⟩ (.v 1) (.v 2), .xred hd ⟨.i32, .rz, false, false, 0⟩ (.v 1) (.v 2),
   .xred hd ⟨.i32, .rn, true, false, 1⟩ (.v 1) (.v 2), .xred hd ⟨.i32, .rn, false, true, 0⟩ (.v 1) (.v 2),
   .xballot hd false (.v 3) (.v 1), .xread hd (.v 1) (.s 2) (.v 3), .xwrite hd (.s 1) (.v 2) (.v 3),
   .ld hd ⟨0, .release, .team, false⟩ .b32 (.v 1) (.v 2) 0, .ld hd ⟨0, .relaxed, .team, true⟩ .b32 (.v 1) (.v 2) 0,
   .ld hd ⟨0, .relaxed, .team, false⟩ .b128 (.v 2) (.v 4) 0, .st hd ⟨1, .relaxed, .team, false⟩ .b32 (.v 1) (.v 2) 0,
   .st hd ⟨0, .acquire, .team, false⟩ .b32 (.v 1) (.v 2) 0, .st hd ⟨0, .relaxed, .team, false⟩ .b128 (.v 1) (.v 2) 0,
   .cas hd ⟨0, .relaxed, .team, false⟩ .b16 (.v 1) (.v 2) (.v 3) (.v 4), .fence hd .mem .relaxed .team, .fence hd .engine .acquire .team,
   .fence hd .all .acquire .team, .probe hd ⟨0, .release, .team, false⟩ (.v 1) (.v 2) 0, .cpy hd 0 .m2s false (.v 1) (.v 3) none,
   .nmadd hd .n32 0 false (.v 2) (.v 1), .rstripe hd false 1 (.v 2) (.v 1) .none 0, .amsg hd false 0 (.v 1) (.v 2) (.v 3) none,
   .tcfg hd 0 .f32 .none (.v 1) (.v 2), .tld hu 0 none .data 2 (.v 1) .none, .accld hu 0 5 (.s 33) (.v 1) (.v 2) (.v 3),
   .accst hd 0 (.s 1) (.v 1) (.v 2) (.v 3), .acccvt hd .q4 .rn false none (.v 1) (.v 2) .none,
   .call hd (.v 3) 0, .spawn hd 0 .none .none 0,
   .csrrd hd (.v 1) 0x007, .csrrd hd (.v 1) 0x062, .csrwr hd (.v 1) 0x001, .csrwr hd (.v 1) 0x010,
   .tlbinv hd .all (.v 1) .none, .tlbinv hd .asid (.v 1) (.v 2), .tlbinv hd .page (.v 1) .none] : List Instr).all
    (fun i => !i.wf) = true := by decide +kernel


/-! ### Witnesses: register-writing instructions -/

def i32 : IntMods := ⟨.i32, true, true, false, false, true⟩
def i64 : IntMods := ⟨.i64, true, true, false, false, true⟩
def f32 : FltMods := ⟨.f32, .rn, true, true, false, false, true, false⟩
def dab : List (Operand × Nat) := [(.v 4, 1), (.v 5, 1), (.v 6, 1)]
def dabc : List (Operand × Nat) := [(.v 4, 1), (.v 5, 1), (.v 6, 1), (.v 7, 1)]
def da : List (Operand × Nat) := [(.v 4, 1), (.v 5, 1)]
def pab : List (Operand × Nat) := [(.v 4, 2), (.v 6, 2), (.v 8, 2)]
def pa : List (Operand × Nat) := [(.v 4, 2), (.v 6, 2)]

theorem witness_IntegerArithmeticResults : ∀ x ∈ ([
    (.iadd hd i32 (.v 4) (.v 5) (.v 6), dab), (.isub hd i32 (.v 4) (.v 5) (.v 6), dab), (.imul hd i32 (.v 4) (.v 5) (.v 6), dab),
    (.imulhi hd ⟨.i32, false, true, true, true, true⟩ (.v 4) (.v 5) (.v 6), dab),
    (.imin hd ⟨.n16x2, false, false, false, false, false⟩ (.v 4) (.v 5) (.v 6), dab),
    (.imax hd ⟨.i8x4, false, true, false, false, false⟩ (.v 4) (.v 5) (.v 6), dab), (.iadd64 hd i64 (.v 4) (.v 6) (.v 8), pab),
    (.iaddVl hd (.v 4) (.v 5) 9, da), (.isubVl hd (.v 4) (.v 5) 9, da), (.imulVl hd (.v 4) (.v 5) 9, da),
    (.imulhiVl hd (.v 4) (.v 5) 9, da), (.iminVl hd (.v 4) (.v 5) 9, da), (.imaxVl hd (.v 4) (.v 5) 9, da),
    (.iadd64Vl hd (.v 4) (.v 6) 0x80000000#32, pa), (.imad hu i32 (.s 4) (.v 5) (.v 6) (.v 7), [(.s 4, 1), (.v 5, 1), (.v 6, 1), (.v 7, 1)]),
    (.iabs hd .i16x2 true (.v 4) (.v 5), da)] : List (Instr × List (Operand × Nat))), Ready st0 x.1 x.2 := ready_all (by decide +kernel)

theorem witness_CarryAddResult : Ready st0 (.iaddc hd 3 (.v 4) (.v 5) (.v 6) (.v 7)) dabc := ready (by decide +kernel)

theorem witness_ShiftResults : ∀ x ∈ ([
    (.shl hd .i32 (.v 4) (.v 5) (.v 6), dab), (.shlVl hd (.v 4) (.v 5) 32, da), (.shr hd .n8x4 (.v 4) (.v 5) (.v 6), dab),
    (.shrVl hd (.v 4) (.v 5) 31, da), (.sar hd .i64 (.v 4) (.v 6) (.v 8), [(.v 4, 2), (.v 6, 2), (.v 8, 1)]),
    (.sarVl hd (.v 4) (.v 5) 32, da)] : List (Instr × List (Operand × Nat))), Ready st0 x.1 x.2 := ready_all (by decide +kernel)

theorem witness_LogicResults : ∀ x ∈ ([
    (.and hd .i32 true false (.v 4) (.v 5) (.v 6), dab), (.andVl hd (.v 4) (.v 5) 9, da), (.or hd .n64 false true (.v 4) (.v 6) (.v 8), pab),
    (.orVl hd (.v 4) (.v 5) 9, da), (.xor hd .n32 true true (.v 4) (.v 5) (.v 6), dab), (.xorVl hd (.v 4) (.v 5) 9, da),
    (.lut3 hd 0x96 (.v 4) (.v 5) (.v 6) (.v 7), dabc)] : List (Instr × List (Operand × Nat))), Ready st0 x.1 x.2 := ready_all (by decide +kernel)

theorem witness_BitCountResults : ∀ x ∈ ([
    (.popc hd .i64 (.v 4) (.v 6), [(.v 4, 1), (.v 6, 2)]), (.clz hd .i32 (.v 4) (.v 5), da), (.brev hd .i64 (.v 4) (.v 6), pa),
    (.bfe hd .i32 (.v 4) (.v 5) (.v 6), dab), (.bfeVl hd (.v 4) (.v 5) 0x2010, da), (.bfi hd (.v 4) (.v 5) (.v 6) (.v 7), dabc)]
    : List (Instr × List (Operand × Nat))), Ready st0 x.1 x.2 := ready_all (by decide +kernel)

theorem witness_CompareResults : ∀ x ∈ ([
    (.icmp hd ⟨.i32, 5, false, 7⟩ .none (.v 5) (.v 6) .none, [(.none, 1), (.v 5, 1), (.v 6, 1), (.none, 1)]),
    (.icmp64 hd ⟨.n64, 0, true, 0⟩ (.v 4) (.v 6) (.v 8) (.v 5), [(.v 4, 1), (.v 6, 2), (.v 8, 2), (.v 5, 1)])]
    : List (Instr × List (Operand × Nat))), Ready st0 x.1 x.2 := ready_all (by decide +kernel)

theorem witness_FloatCompareMeanings : Ready st0 (.fcmp hd ⟨.f32, 7, true, 2⟩ (.v 4) (.v 5) (.v 6) (.v 7)) dabc := ready (by decide +kernel)

theorem witness_MoveResults : ∀ x ∈ ([
    (.sel hd .i64 (.v 4) (.v 6) (.v 8) (.v 5), [(.v 4, 2), (.v 6, 2), (.v 8, 2), (.v 5, 1)]), (.mov hd (.v 4) (.special .clk32), [(.v 4, 1), (.special .clk32, 1)]),
    (.mov64 hd (.v 4) (.int 95), [(.v 4, 2), (.int 95, 2)]), (.lea hd .n32 7 (.v 4) (.v 6) (.v 8), [(.v 4, 2), (.v 6, 2), (.v 8, 1)]),
    (.leaVl hd (.v 4) (.v 6) 0x80000000#32, pa)] : List (Instr × List (Operand × Nat))), Ready st0 x.1 x.2 := ready_all (by decide +kernel)

theorem witness_FloatArithmeticResults : ∀ x ∈ ([
    (.fadd hd f32 (.v 4) (.v 5) (.v 6), dab), (.faddVl hd (.v 4) (.v 5) 9, da), (.fsub hd f32 (.v 4) (.v 5) (.v 6), dab), (.fsubVl hd (.v 4) (.v 5) 9, da),
    (.fmul hd f32 (.v 4) (.v 5) (.v 6), dab), (.fmulVl hd (.v 4) (.v 5) 9, da),
    (.fmac hd ⟨.b16x2, .rd, true, true, false, false, true, true⟩ (.v 4) (.v 5) (.v 6) (.v 7), dabc),
    (.fdot2 hd ⟨.h16x2, .ru, true, true, false, false, true, false⟩ (.v 4) (.v 5) (.v 6) (.v 7), dabc),
    (.fscale hd .rz true true true (.v 4) (.v 5) (.v 6), dab), (.fscaleVl hd (.v 4) (.v 5) 9, da)] : List (Instr × List (Operand × Nat))),
    Ready st0 x.1 x.2 := ready_all (by decide +kernel)

theorem witness_FloatSelectResults : ∀ x ∈ ([
    (.fmin hd ⟨.h16x2, .rn, false, true, false, false, true, false⟩ (.v 4) (.v 5) (.v 6), dab), (.fminVl hd (.v 4) (.v 5) 9, da),
    (.fmax hd ⟨.f32, .rn, false, true, false, false, true, false⟩ (.v 4) (.v 5) (.v 6), dab), (.fmaxVl hd (.v 4) (.v 5) 9, da),
    (.fclass hd (.v 4) (.v 5), da)] : List (Instr × List (Operand × Nat))), Ready st0 x.1 x.2 := ready_all (by decide +kernel)

theorem witness_OneSourceFunctions : ∀ x ∈ ([
    (.frcp hd .rn true false (.v 4) (.v 5), da), (.frsq hd .rz true true (.v 4) (.v 5), da), (.fsqrt hd .ru false false (.v 4) (.v 5), da),
    (.fexp2 hd .rd true false (.v 4) (.v 5), da), (.flog2 hd .rn true false (.v 4) (.v 5), da), (.ftanh hd .rn true false (.v 4) (.v 5), da)]
    : List (Instr × List (Operand × Nat))), Ready st0 x.1 x.2 := ready_all (by decide +kernel)

/-- The constant 2 as the operand: finite, not zero and positive. -/
theorem witness_ElementaryFunctionsRoundOnce : (∀ x ∈ ([
    (.fexp2 hd .rd false false (.v 4) (.int 2), [(.v 4, 1), (.int 2, 1)]), (.flog2 hd .rn false false (.v 4) (.int 2), [(.v 4, 1), (.int 2, 1)]),
    (.ftanh hd .rn false false (.v 4) (.int 2), [(.v 4, 1), (.int 2, 1)])] : List (Instr × List (Operand × Nat))), Ready st0 x.1 x.2) ∧
    ((cx st0).elemVal (th st0) .f32 false false (.int 2) 0).isFinite = true ∧ ((cx st0).elemVal (th st0) .f32 false false (.int 2) 0).isZero = false ∧
    0 < ((cx st0).elemVal (th st0) .f32 false false (.int 2) 0).rat ∧ ((cx st0).elemVal (th st0) .f32 false false (.int 2) 0).rat ≠ 1 :=
  ⟨ready_all (by decide +kernel), by decide +kernel, by decide +kernel, by decide +kernel, by decide +kernel⟩

theorem witness_PredicateResults : ∀ x ∈ ([
    (.plut hd 0x80 7 1 2 3, []), (.pmov hd (.v 4), [(.v 4, 1)]), (.pmovW hd 0x7F (.v 5), [(.v 5, 1)])]
    : List (Instr × List (Operand × Nat))), Ready st0 x.1 x.2 := ready_all (by decide +kernel)

theorem witness_QuantDecodeResults : ∀ x ∈ ([
    (.qdec hd .b16x2 .ru 3 (.v 4) (.v 5) .none, [(.v 4, 1), (.v 5, 1), (.none, 1)]), (.qdecVl hd (.v 4) (.v 5) 9, da)]
    : List (Instr × List (Operand × Nat))), Ready st0 x.1 x.2 := ready_all (by decide +kernel)

theorem witness_LaneExchangeResults : ∀ x ∈ ([
    (.xchg hd .i64 .tr (.v 4) (.v 6) (.v 8), [(.v 4, 2), (.v 6, 2), (.v 8, 1)]), (.xchgVl hd (.v 4) (.v 5) 9, da),
    (.xperm hd .i32 (.v 4) (.v 5) (.v 6), dab), (.xpermVl hd (.v 4) (.v 5) 9, da), (.xbcast hd .i32 (.v 4) (.v 5) (.v 6), dab),
    (.xbcastVl hd (.v 4) (.v 5) 9, da)] : List (Instr × List (Operand × Nat))), Ready st0 x.1 x.2 := ready_all (by decide +kernel)

theorem witness_LaneReductionResults : ∀ x ∈ ([
    (.xred hd ⟨.i32, .rn, false, false, 0⟩ (.v 4) (.v 5), da), (.xscan hd ⟨.f32, .rz, true, true, 0⟩ (.v 4) (.v 5) .none, [(.v 4, 1), (.v 5, 1), (.none, 1)]),
    (.xscanVl hd (.v 4) (.v 5) 9, da), (.xballot hd false (.v 4) (.v 6), [(.v 4, 2), (.v 6, 1)]), (.xballot hd true (.v 4) (.v 6), [(.v 4, 1), (.v 6, 1)]),
    (.xmatch hd .i64 false (.v 4) (.v 6), pa), (.xmatch hd .i32 true (.v 4) (.v 6), [(.v 4, 1), (.v 6, 1)])]
    : List (Instr × List (Operand × Nat))), Ready st0 x.1 x.2 := ready_all (by decide +kernel)

theorem witness_HomeGroupAccessResults : ∀ x ∈ ([
    (.xread hd (.v 4) (.v 5) (.v 6), dab), (.xreadVl hd (.v 4) (.v 5) 63, da), (.xwrite hd (.v 4) (.v 5) (.v 6), dab), (.xwriteVl hd (.v 4) (.v 5) 0, da)]
    : List (Instr × List (Operand × Nat))), Ready st0 x.1 x.2 := ready_all (by decide +kernel)

/-- The launch of the loaded machine, whose counters have no threshold. -/
theorem witness_ConversionResults : ((st0.launches.head?.map (fun l => decide (st0.launch? (cx st0).launch.key = some l))) = some true ∧
    ∀ n, ∀ l ∈ st0.launches, l.quiet n) ∧ ∀ x ∈ ([
    (.cvt hd ⟨.f32, .rn, true, .e4x4, 3⟩ (.v 4) (.v 5) (.v 6) (.v 7), dabc), (.cvtpk hd .h16x2 .rz true false (.v 4) (.v 5) (.v 6) .none,
    [(.v 4, 1), (.v 5, 1), (.v 6, 1), (.none, 1)]), (.cvtx hd .e5x4 .rd true .b16x2 true (.v 4) (.v 5), da),
    (.qenc hd 7 (.v 4) (.v 5) (.v 6) (.v 7), dabc)] : List (Instr × List (Operand × Nat))), Ready st0 x.1 x.2 := by
  refine ⟨⟨by decide +kernel, fun n l hl x _ hc => hc.1 ?_⟩, ready_all (by decide +kernel)⟩
  have h : l.cvclim = 0#32 := by
    have : ∀ l ∈ st0.launches, l.cvclim = 0#32 := by decide +kernel
    exact this l hl
  rw [h]
  simp [cvThreshold]


/-- The same launch with a threshold of one saturation, and a value above every finite half in V5: CVT crosses it. -/
def stCv : State := withThread (withLaunch (stTv st0) (fun l => { l with cvclim := 1#32 })) (fun u => { u with v := u.v.set 5 0x7F7FFFFF#32 })

def cvm : CvtMods := ⟨.f32, .rn, true, .h16x2, 0⟩

theorem witness_ConversionCrosses : Ready stCv (.cvt hd cvm (.v 4) (.v 5) .none (.v 7)) [(.v 4, 1), (.v 5, 1), (.none, 1), (.v 7, 1)] ∧
    (cx stCv).grp.team = 1 ∧ ((cx stCv).parts hd).map (·.tid) = [0] ∧ stCv.canTrap 1 [0] ∧ stCv.launch? (cx stCv).launch.key = some (lnOf stCv) ∧
    ¬(lnOf stCv).quiet ((cx stCv).convCount hd (fun p => (cvtBits cvm (cx stCv).ftz ((cx stCv).src p .f32 (.v 5)) ((cx stCv).srcOpt p .f32 .none)
      ((cx stCv).src p .h16x2 (.v 7))).2)) :=
  ⟨ready (by decide +kernel), by decide +kernel, by decide +kernel, by unfold State.canTrap; decide +kernel, by decide +kernel,
    by unfold Launch.quiet; decide +kernel⟩


/-! ### Witnesses: memory instructions -/

/-- A launch whose threads have a 16-byte stack each. -/
def stStack : State := { st0 with
  launches := st0.launches.map (fun l => { l with kernel := { l.kernel with stack := 16 }, stkBase := 0x10000000, stkSlots := 1 }),
  teams := st0.teams.map (fun x => { x with stackSlot := some 0 }) }

/-- Byte 0 of the team's scratch memory, and of its stack slot. -/
def lsm0 : Loc := { space := .lsm 1, addr := 0 }
def stk0 : Loc := { space := .dsm, addr := 0x10000000 }
def mm : MemMods := ⟨0, .relaxed, .team, false⟩

theorem witness_LoadsIssue : (∀ x ∈ ([
    (.ld hd mm .b128 (.v 4) (.int 0) 0, [(.v 4, 4), (.int 0, 1)]), (.atom hd mm .addN64 (.v 4) (.int 0) (.v 6) 0, [(.v 4, 2), (.int 0, 1), (.v 6, 2)]),
    (.red hd mm .addF32 (.int 0) (.v 6) 0, [(.int 0, 1), (.v 6, 1)]),
    (.cas hd mm .b32 (.v 4) (.int 0) (.v 6) (.v 7), [(.v 4, 1), (.int 0, 1), (.v 6, 1), (.v 7, 1)]),
    (.probe hd mm (.v 4) (.int 0) 0, [(.v 4, 1), (.int 0, 1)])] : List (Instr × List (Operand × Nat))), Ready st0 x.1 x.2) ∧
    (∀ p ∈ (cx st0).actors hd, effAddr ((cx st0).val p (.int 0)) 0 16 = 0 ∧ effAddr ((cx st0).val p (.int 0)) 0 128 % 128 = 0 ∧
      effAddr ((cx st0).val p (.int 0)) 0 (Aop.bytes .addN64) = 0 ∧ effAddr ((cx st0).val p (.int 0)) 0 (Aop.bytes .addF32) = 0 ∧
      st0.checkScratch (cx st0) p 0 16 16 true false = .ok lsm0 ∧ st0.checkScratch (cx st0) p 0 8 8 true true = .ok lsm0 ∧
      st0.checkScratch (cx st0) p 0 4 4 true true = .ok lsm0 ∧ st0.scratch (cx st0).launch p.team 0 1 = .ok lsm0) ∧
    (∀ p ∈ (cx st0).parts hd, p.ldcnt < 255 ∧ p.stcnt < 255) ∧ st0.nmWait (cx st0) hd .relaxed .team = false ∧
    Ready stStack (.ldk hd 0 .b128 (.v 4) (.int 0) 0) [(.v 4, 4), (.int 0, 1)] ∧
    (∀ p ∈ (cx stStack).actors hd, stStack.checkStack (cx stStack) p 0 16 = .ok stk0) ∧ (∀ p ∈ (cx stStack).parts hd, p.ldcnt < 255) :=
  ⟨ready_all (by decide +kernel), by decide +kernel, by decide +kernel, by decide +kernel, ready (by decide +kernel), by decide +kernel, by decide +kernel⟩

theorem witness_StoresIssue : Ready st0 (.st hd mm .b64 (.int 0) (.v 6) 0) [(.int 0, 1), (.v 6, 2)] ∧
    (∀ p ∈ (cx st0).actors hd, effAddr ((cx st0).val p (.int 0)) 0 8 = 0 ∧ st0.checkScratch (cx st0) p 0 8 8 false true = .ok lsm0 ∧ p.bufferUse < 32) ∧
    (∀ p ∈ (cx st0).parts hd, p.stcnt < 255) ∧ st0.nmWait (cx st0) hd .relaxed .team = false ∧
    Ready stStack (.stk hd .b32 (.int 0) (.v 6) 0) [(.int 0, 1), (.v 6, 1)] ∧
    (∀ p ∈ (cx stStack).actors hd, effAddr ((cx stStack).val p (.int 0)) 0 4 = 0 ∧ stStack.checkStack (cx stStack) p 0 4 = .ok stk0 ∧ p.bufferUse < 32) ∧
    (∀ p ∈ (cx stStack).parts hd, p.stcnt < 255) :=
  ⟨ready (by decide +kernel), by decide +kernel, by decide +kernel, by decide +kernel, ready (by decide +kernel), by decide +kernel, by decide +kernel⟩

/-- A window of the DSM, and a locked line of it. -/
def stDsm : State := { st0 with
  launches := st0.launches.map (fun l => { l with windows := [{ base := 0x10000000, len := 0x1000 }] }),
  cores := st0.cores.map (fun k => { k with locks := [{ op := 9, dsm := true, dest := false, team := 1, lo := 0x10000000, hi := 0x1000000F, freed := [] }] }) }

/-- The edges of the scratch space: the last byte of the LSM and the first beyond it, the two ends of the first DSM bank, a
window and the bytes after it, a misaligned address and a locked one. -/
theorem witness_ScratchAccessChecks :
    (6 % 4 ≠ 0) ∧ st0.scratch (cx st0).launch 1 393212 4 = .ok { space := .lsm 1, addr := 393212 } ∧
    st0.scratch (cx st0).launch 1 393213 4 = .error .scratchRange ∧
    stDsm.scratch (cx stDsm).launch 1 0x10000000 16 = .ok stk0 ∧ stDsm.scratch (cx stDsm).launch 1 0x10000FF1 16 = .error .protection ∧
    stDsm.scratch (cx stDsm).launch 1 0x157FFFF8 16 = .error .scratchRange ∧ stDsm.scratch (cx stDsm).launch 1 0x30000000 4 = .error .scratchRange ∧
    0x10000000 % 4 = 0 ∧ stDsm.locked (cx stDsm).core stk0 4 = true ∧
    (∀ p ∈ (cx stDsm).actors hd, stDsm.checkScratch (cx stDsm) p 0x10000010 4 4 true true = .ok { stk0 with addr := 0x10000010 }) := by
  decide +kernel


/-- A load in flight, and a store in its buffer. -/
def ld1 : LoadOp :=
  { id := 1, core := 0, team := 1, tid := 0, dests := [0], pos := 0, op := none, cas := false, probe := false, stk := false, red := false,
    loc := lsm0, size := 4, data := [], cmp := [], ord := .relaxed, scope := .team, rmt := false, uni := false, instr := 1, waited := false }
def se1 : StoreEntry :=
  { id := 1, sid := 1, loc := lsm0, data := [1#8, 2#8, 3#8, 4#8], release := false, scope := .team, level := none, stk := false, takers := [0] }
def stLoad : State := { st0 with loads := [ld1] }
def stStore : State := withThread st0 (fun u => { u with stores := [se1], stcnt := 1 })
def fr1 : FenceReq := { kind := .mem, ord := .acquire, scope := .team, before := 1 }
def stFence : State := withThread st0 (fun u => { u with fence := some fr1 })
/-- An ALL fence with acquire and release that waits for a store. -/
def fr2 : FenceReq := { kind := .all, ord := .acqRel, scope := .system, before := 9 }
def stFence2 : State := withThread stStore (fun u => { u with fence := some fr2 })

/-- The same fence with nothing to wait for. -/
def stRel : State := withThread st0 (fun u => { u with fence := some fr2 })

theorem witness_AccessesComplete :
    (stLoad.loads.find? (fun x => x.id == 1) = some ld1 ∧ stLoad.loadReady ld1 = true ∧ stLoad.badIn ld1.loc ld1.size = false ∧ stLoad.allLive ∧
      (∀ x ∈ stLoad.threads, x.team = ld1.team → x.entering = none) ∧ stLoad.thread? ld1.team ld1.tid = some (th stLoad)) ∧
    (stStore.threads.find? (fun x => x.stores.any (fun e => e.id == 1)) = some (th stStore) ∧ stStore.thread? (th stStore).team (th stStore).tid = some (th stStore) ∧
      (th stStore).stores.find? (fun x => x.id == 1) = some se1 ∧ stStore.coreOf (th stStore).team = some 0 ∧ stStore.allLive ∧
      se1.level = none ∧ se1.loc.space ≠ .dsm ∧ stStore.memOk ∧ stStore.canPerform (th stStore) se1 = true ∧
      (stStore.team? (th stStore).team).isSome = true) ∧
    (stFence.thread? 1 0 = some (th stFence) ∧ (th stFence).fence = some fr1 ∧ stFence.fenceDone (th stFence) fr1 = true) ∧
    (stFence2.thread? 1 0 = some (th stFence2) ∧ (th stFence2).fence = some fr2 ∧ stFence2.fenceDone (th stFence2) fr2 = false) ∧
    (stRel.thread? 1 0 = some (th stRel) ∧ (th stRel).fence = some fr2 ∧ stRel.fenceDone (th stRel) fr2 = true) :=
  ⟨⟨by decide +kernel, by decide +kernel, by decide +kernel, allLive_of (by decide +kernel), by decide +kernel, by decide +kernel⟩,
    ⟨by decide +kernel, by decide +kernel, by decide +kernel, by decide +kernel, allLive_of (by decide +kernel), by decide +kernel, by decide +kernel,
      memOk_of (by decide +kernel), by decide +kernel, by decide +kernel⟩, by decide +kernel, by decide +kernel, by decide +kernel⟩

theorem witness_FencesOccupy : Ready st0 (.fence hd .all .acqRel .system) [] ∧
    (stFence.core? 0 = some (coOf stFence) ∧ ((coOf stFence).port 0).group = some (cx stFence).grp ∧ th stFence ∈ stFence.membersOf (cx stFence).grp ∧
      (th stFence).fence.isSome = true ∧ stFence.issuedNow 0 = false) := ⟨ready (by decide +kernel), by decide +kernel⟩

/-! ### Witnesses: control -/

theorem named_of {s : State} {c : Ctx} (h : c.ths.all (fun p => p.role == c.grp.role && decide (p.hidx < 64) &&
    (s.thread? p.team p.tid).all (fun u => u.role == p.role && u.hg == p.hg && u.hidx == p.hidx)) = true) : c.named s := by
  intro p hp
  have := List.all_eq_true.mp h p hp
  simp only [Bool.and_eq_true, beq_iff_eq, decide_eq_true_eq] at this
  refine ⟨this.1.1, this.1.2, fun u hu => ?_⟩
  have h2 := this.2
  rw [hu] at h2
  simp only [Option.all_some, Bool.and_eq_true, beq_iff_eq] at h2
  exact ⟨h2.1.1, h2.1.2, h2.2⟩

theorem witness_BranchesTaken : (∀ x ∈ ([(.bra hd 0xFFFFF1, []), (.brx hd (.int 8), [(.int 8, 2)]), (.call hd (.v 4) 2, [(.v 4, 2)]), (.ret hd (.int 8), [(.int 8, 2)])]
      : List (Instr × List (Operand × Nat))), Ready st0 x.1 x.2) ∧ (cx st0).grp.hdrAddr.toNat % 8 = 0 ∧
    (∀ p ∈ (cx st0).parts hd, ((cx st0).val64 p (.int 8)).toNat % 8 = 0) := ⟨ready_all (by decide +kernel), by decide +kernel, by decide +kernel⟩

/-- A target of 4: both forms trap. -/
theorem witness_BranchTraps : (∀ x ∈ ([(.brx hd (.int 4), [(.int 4, 2)]), (.ret hd (.int 4), [(.int 4, 2)])] : List (Instr × List (Operand × Nat))), Ready (stTv st0) x.1 x.2) ∧
    (∀ p ∈ (cx (stTv st0)).parts hd, ((cx (stTv st0)).val64 p (.int 4)).toNat % 8 ≠ 0) ∧
    (cx (stTv st0)).parts hd = [th (stTv st0)] ∧ (cx (stTv st0)).grp.team = 1 ∧ (th (stTv st0)).tid = 0 ∧ (stTv st0).canTrap 1 [0] :=
  ⟨ready_all (by decide +kernel), by decide +kernel, by decide +kernel, by decide +kernel, by decide +kernel, canTrap_st0⟩

/-- A home group in which thread 1, which has not arrived at entry 0, is expected beside thread 0. -/
def stJoin : State := { st0 with
  groups := st0.groups.map (fun g => { g with rejoin := { expected := 3#64, arrived := 0#64 } :: g.rejoin.tail }) }

theorem witness_RejoinEntries : Ready st0 (.join hd 31 4) [] ∧ 31 < (cx st0).launch.kernel.join ∧
    st0.hg? (cx st0).grp.team (cx st0).grp.role 0 = some (hgOf st0) ∧ 31 < (hgOf st0).rejoin.length ∧
    Ready stJoin (.waitj hd 0) [] ∧ 0 < (cx stJoin).launch.kernel.join ∧ (cx stJoin).named stJoin ∧
    (∀ g ∈ stJoin.groups, ∀ r ∈ g.rejoin, r.complete = false) :=
  ⟨ready (by decide +kernel), by decide +kernel, by decide +kernel, by decide +kernel, ready (by decide +kernel), by decide +kernel, named_of (by decide +kernel),
    by decide +kernel⟩

theorem witness_ControlCompletes : (∀ x ∈ ([(.exit hd, []), (.yield hd, []), (.elect hd 3 (.v 4), [(.v 4, 1)]), (.gsize hd 3, []), (.nop hd, [])]
      : List (Instr × List (Operand × Nat))), Ready st0 x.1 x.2) ∧ (cx st0).parts hd ≠ [] ∧ (cx st0).grp.role < (cx st0).team.limits.length ∧
    (cx stJoin).named stJoin ∧ (∀ g ∈ stJoin.groups, ∀ r ∈ g.rejoin, r.complete = false) ∧
    (∀ g ∈ stJoin.groups, g.syncM ≠ 0#64 → g.syncM &&& ~~~g.syncA ≠ 0#64) ∧ Ready stJoin (.exit hd) [] :=
  ⟨ready_all (by decide +kernel), by decide +kernel, by decide +kernel, named_of (by decide +kernel), by decide +kernel, by decide +kernel,
    ready (by decide +kernel)⟩

theorem witness_GroupMovesOn : Seated st0 (cx st0) ∧ th st0 ∈ (cx st0).ths ∧ st0.thread? (th st0).team (th st0).tid = some (th st0) :=
  ⟨seated_cx (by decide +kernel), by decide +kernel, by decide +kernel⟩

theorem witness_SyncmParksOrReleases : Ready st0 (.syncm hd (.int 3)) [(.int 3, 2)] ∧ (cx st0).parts hd = [th st0] ∧
    st0.hg? (th st0).team (th st0).role (th st0).hg = some (hgOf st0) ∧ st0.thread? (th st0).team (th st0).tid = some (th st0) ∧ (th st0).hidx < 64 ∧
    ((cx st0).val64 (th st0) (.int 3) &&& BitVec.ofNat 64 (2 ^ (cx st0).role.gsize - 1)).getLsbD (th st0).hidx = true ∧ (hgOf st0).syncM = 0#64 :=
  ⟨ready (by decide +kernel), by decide +kernel⟩

/-- Every participant of the group at once, and a mask without the participant's own bit. -/
theorem witness_SyncmOfAllParticipants : Ready st0 (.syncm hd (.int 3)) [(.int 3, 2)] ∧ (cx st0).named st0 ∧
    ((cx st0).parts hd).map (fun p => (p.hg, p.hidx)) = [(0, 0)] ∧
    (∀ p ∈ (cx st0).parts hd, ((cx st0).val64 p (.int 3) &&& BitVec.ofNat 64 (2 ^ (cx st0).role.gsize - 1)).getLsbD p.hidx = true ∧
      (hgOf st0).syncM = 0#64 ∧ st0.hg? (cx st0).grp.team (cx st0).grp.role p.hg = some (hgOf st0) ∧
      ((cx st0).val64 p (.int 3) &&& st0.exitedMask (hgOf st0)).getLsbD p.hidx = false) ∧
    Ready (stTv st0) (.syncm hd (.int 2)) [(.int 2, 2)] ∧ (cx (stTv st0)).named (stTv st0) ∧ (stTv st0).canTrap (cx (stTv st0)).grp.team (((cx (stTv st0)).parts hd).map (·.tid)) ∧
    (cx (stTv st0)).parts hd = [th (stTv st0)] ∧ (stTv st0).hg? (cx (stTv st0)).grp.team (cx (stTv st0)).grp.role (th (stTv st0)).hg = some (hgOf (stTv st0)) ∧
    ((cx (stTv st0)).val64 (th (stTv st0)) (.int 2)).getLsbD (th (stTv st0)).hidx = false :=
  ⟨ready (by decide +kernel), named_of (by decide +kernel), by decide +kernel, by decide +kernel, ready (by decide +kernel), named_of (by decide +kernel),
    canTrap_st0, by decide +kernel⟩

/-- Its thread is in the handler, after a trap at the instruction of its clause. -/
def stIn : State := withThread (stTv st0) (fun u => { u with
  inHandler := true, tpc := 0x40000008#57, tpcKind := .instruction, trapClause := u.clause })


theorem witness_SoftwareTrapsEnterHandler : Ready (stTv st0) (.trap hd 0xFFFFFF) [] ∧ Ready (stTv st0) (.bkpt hd 0) [] ∧
    (cx (stTv st0)).grp.team = 1 ∧ ((cx (stTv st0)).parts hd).map (·.tid) = [0] ∧ (stTv st0).canTrap 1 [0] :=
  ⟨ready (by decide +kernel), ready (by decide +kernel), by decide +kernel, by decide +kernel, canTrap_st0⟩

theorem witness_TrapReturns : Ready stIn (.tret hd .retry) [] ∧ Ready stIn (.tret hd .skip) [] ∧ Ready stIn (.tret hd .kill) [] ∧
    (∀ x ∈ stIn.teams, x.wdogHandling = false) ∧ (cx stIn).parts hd = [th stIn] ∧
    (∀ p ∈ (cx stIn).parts hd, p.inHandler = true ∧ p.watchOp = none ∧ p.tpcKind ≠ .failedHeader ∧ stIn.thread? p.team p.tid = some p) ∧
    Ready st0 (.tret hd .retry) [] ∧ (∃ p ∈ (cx st0).parts hd, p.inHandler = false) :=
  ⟨ready (by decide +kernel), ready (by decide +kernel), ready (by decide +kernel), by decide +kernel, by decide +kernel, by decide +kernel,
    ready (by decide +kernel), by decide +kernel⟩

/-- Barrier 15 valid in phase 0 with two arrivals open of two. -/
def stBar : State := withTeam st0 (fun x => { x with bars := (x.bars.take 15) ++ [{ Barrier.zero with valid := true, exp := 2, pend := 2 }] })

theorem witness_BarrierInstructions :
    (Ready st0 (.binit hd 15 (.int 1)) [(.int 1, 1)] ∧ (cx st0).actors hd = [th st0] ∧ ((cx st0).team.bar 15).wait = 0 ∧ ((cx st0).team.bar 15).cpend = 0 ∧ st0.acquiring ((cx st0).parts hd) = false ∧ (cx st0).actors hd = [] ++ [th st0] ∧
      15 < (cx st0).team.bars.length) ∧
    (∀ x ∈ ([(.bexp hd 15 (.int 63), [(.int 63, 1)]), (.barv hd 15 .none, [(.none, 1)]), (.barv hd 15 (.int 2), [(.int 2, 1)]), (.binv hd 15 false, []),
      (.binv hd 15 true, []), (.bwait hd 15 0 (.int 0), [(.int 0, 1)])] : List (Instr × List (Operand × Nat))), Ready stBar x.1 x.2) ∧
    ((cx stBar).actors hd = [th stBar] ∧ stBar.acquiring ((cx stBar).parts hd) = false ∧ ((cx stBar).team.bar 15).pend ≤ 4095 ∧ (cx stBar).parts hd ≠ [] ∧ ((cx stBar).team.bar 15).valid = true ∧ ((cx stBar).team.bar 15).pend + 63 ≤ 4095 ∧
      ((cx stBar).valOr (th stBar) .none 1#32).toNat < ((cx stBar).team.bar 15).pend ∧
      ((cx stBar).valOr (th stBar) (.int 2) 1#32).toNat = ((cx stBar).team.bar 15).pend ∧ 1 ≤ ((cx stBar).team.bar 15).pend ∧
      ((cx stBar).team.bar 15).wait = 0 ∧ ((cx stBar).team.bar 15).cpend = 0 ∧ 15 < (cx stBar).team.bars.length) :=
  ⟨⟨ready (by decide +kernel), by decide +kernel⟩, ready_all (by decide +kernel), by decide +kernel⟩

theorem witness_StatusRegisterReads : st0.shadow = none ∧ ∀ x ∈ ([
    (.csrrd hd (.v 4) 0x011, [(.v 4, 1)]), (.csrrd hd (.v 4) 0x012, [(.v 4, 2)]), (.csrrd hd (.v 4) 0x061, [(.v 4, 2)]),
    (.csrrd hd (.v 4) 0x004, [(.v 4, 1)]), (.csrrd hd (.v 4) 0x040, [(.v 4, 1)]), (.csrrd hd (.v 4) 0x041, [(.v 4, 1)]), (.csrrd hd (.v 4) 0x002, [(.v 4, 1)])]
      : List (Instr × List (Operand × Nat))), Ready st0 x.1 x.2 := ⟨by decide +kernel, ready_all (by decide +kernel)⟩

theorem witness_StatusRegisterWrites : (cx st0).actors hd = [th st0] ∧ (cx st0).launch.priv = true ∧ ∀ x ∈ ([
    (.csrwr hd (.v 5) 0x030, [(.v 5, 1)]), (.csrwr hd (.v 5) 0x060, [(.v 5, 1)]), (.csrwr hd (.v 5) 0x032, [(.v 5, 1)]), (.csrwr hd (.v 5) 0x031, [(.v 5, 1)]),
    (.csrwr hd (.v 5) 0x005, [(.v 5, 1)]), (.csrwr hd (.v 5) 0x000, [(.v 5, 1)]), (.csrwr hd (.v 5) 0x033, [(.v 5, 1)]), (.csrwr hd (.v 6) 0x010, [(.v 6, 2)]),
    (.csrwr hd (.v 6) 0x012, [(.v 6, 2)]), (.csrwr hd (.v 5) 0x004, [(.v 5, 1)]), (.csrwr hd (.v 5) 0x020, [(.v 5, 1)]), (.csrwr hd (.v 5) 0x023, [(.v 5, 1)]), (.csrwr hd (.v 5) 0x024, [(.v 5, 1)])] : List (Instr × List (Operand × Nat))), Ready st0 x.1 x.2 :=
  ⟨by decide +kernel, by decide +kernel, ready_all (by decide +kernel)⟩

def stUser : State := withLaunch st0 (fun l => { l with priv := false })

theorem witness_PrivilegeChecks : Seated stUser (cx stUser) ∧ (cx stUser).launch.priv = false ∧ ((cx stUser).parts hd).isEmpty = false ∧
    (cx stUser).fits [(.int 8, 2), (.v 4, 2)] ∧ Csr.ofNum 0x010 = some .tvec ∧ Csr.tvec.access = .pw :=
  ⟨seated_cx (by decide +kernel), by decide +kernel, by decide +kernel, by unfold Ctx.fits; decide +kernel, by decide +kernel, by decide +kernel⟩

/-- A launch whose role has 8 registers a thread. -/
def stSmall : State := withLaunch st0 (fun l => { l with kernel := { l.kernel with roles := l.kernel.roles.map (fun r => { r with regs := 8 }) } })

theorem witness_GroupTrapsEnterHandler : Seated (stTv st0) (cx (stTv st0)) ∧ (stTv st0).canTrap (cx (stTv st0)).grp.team (cx (stTv st0)).grp.members ∧
    Seated stSmall (cx stSmall) ∧ Operand.fits (.v 8) (cx stSmall).role.regs 1 = false ∧ Operand.fits (.v 8) (cx stSmall).role.regs 2 = false :=
  ⟨seated_cx (by decide +kernel), by unfold State.canTrap; decide +kernel, seated_cx (by decide +kernel), by decide +kernel, by decide +kernel⟩

theorem witness_MisalignedLanesTrap : Ready (stTv st0) (.ld hd mm .b32 (.v 4) (.int 2) 0) [(.v 4, 1), (.int 2, 1)] ∧
    (cx (stTv st0)).ths = [th (stTv st0)] ∧ (cx (stTv st0)).parts hd = [th (stTv st0)] ∧ (cx (stTv st0)).grp.members = [(th (stTv st0)).tid] ∧
    effAddr ((cx (stTv st0)).val (th (stTv st0)) (.int 2)) 0 4 % 4 ≠ 0 ∧ (stTv st0).canTrap 1 [0] ∧ (th (stTv st0)).ldcnt < 255 ∧ (stTv st0).trctl = 0#32 :=
  ⟨ready (by decide +kernel), by decide +kernel, by decide +kernel, by decide +kernel, by decide +kernel, canTrap_st0, by decide +kernel, by decide +kernel⟩


/-- A form that is ready, beside what can be decided at once. -/
theorem at_of {s : State} {i : Instr} {ops : List (Operand × Nat)} {p : Prop}
    (h : (seatedB s && i.wf && ops.all (fun o => Operand.fits o.1 (cx s).role.regs o.2)) = true ∧ p) : Ready s i ops ∧ p := ⟨ready h.1, h.2⟩

/-- Without a bad word no walk reads one, and without an access of its own none is ordered before an engine's. -/
theorem quiet_of {s : State} (h1 : s.loads = []) (h2 : s.badWords = []) :
    (∀ core asid vas, s.walkBad core asid vas = none) ∧ ∀ team tids ds ss r, s.loadsStuck team tids ds ss r = false :=
  ⟨fun _ _ _ => by simp [State.walkBad, h2], fun _ _ _ _ _ => by simp [State.loadsStuck, h1]⟩

/-! ### Witnesses: queues, system instructions and engines -/

def stQ : State := { st0 with queues := [{ id := 9, errrec := 0#64, en := true, prio := 0, asid := 0, entries := [], errcode := 0, errcnt := 0 }] }

/-- The same with a store of the thread that is not performed. -/
def stQw : State := withThread stQ (fun u => { u with stores := [se1] })

theorem witness_QueueInstructions :
    (Ready st0 (.spawn hd 0 (.int 1) .none 0) [(.int 1, 1), (.none, 1)] ∧ 0 < (cx st0).launch.kernel.roles.length ∧ (cx st0).parts hd ≠ [] ∧
      st0.core? (cx st0).core = some (coOf st0) ∧
      (coOf st0).binFor (cx st0).grp.team 0 (wordOffset (cx st0).grp.hdrAddr 0) ((cx st0).parts hd).length = true ∧
      (∀ x ∈ (coOf st0).bins, ∀ y ∈ (coOf st0).bins, x.team = y.team → x.role = y.role → x.entry = y.entry → x = y)) ∧
    (Ready st0 (.spawn hd 3 (.int 1) .none 0) [(.int 1, 1), (.none, 1)] ∧ (cx st0).launch.kernel.roles.length ≤ 3) ∧
    (Ready stQ (.launch hd (.int 0) (.int 9)) [(.int 0, 2), (.int 9, 1)] ∧ (cx stQ).actors hd = [th stQ] ∧ ((cx stQ).val64 (th stQ) (.int 0)).toNat % 64 = 0 ∧
      ((cx stQ).val (th stQ) (.int 9)).toNat = 9 ∧ (stQ.queue 9).asid = (cx stQ).launch.asid ∧ (stQ.queue 9).en = true ∧ (stQ.queue 9).entries.length < 64 ∧
      stQ.launchReady ((cx stQ).parts hd) = true) ∧
    (Ready stQw (.launch hd (.int 0) (.int 9)) [(.int 0, 2), (.int 9, 1)] ∧ (cx stQw).actors hd = [th stQw] ∧ ((cx stQw).val64 (th stQw) (.int 0)).toNat % 64 = 0 ∧
      ((cx stQw).val (th stQw) (.int 9)).toNat = 9 ∧ (stQw.queue 9).asid = (cx stQw).launch.asid ∧ (stQw.queue 9).en = true ∧
      (stQw.queue 9).entries.length < 64 ∧ stQw.launchReady ((cx stQw).parts hd) = false) :=
  ⟨at_of (by decide +kernel), at_of (by decide +kernel), at_of (by decide +kernel), at_of (by decide +kernel)⟩

def stTr : State := { st0 with trctl := 3#32 }
def stTn : State := { st0 with trctl := 2#32 }
def frec : FaultRec :=
  { id := 5, refault := false, retry := 0, kind := 1, asid := 0, va := 0, launch := 1, core := 0, team := 1, lanes := 1#64, tids := [0], op := none,
    walks := [], range := none }
def stFq : State := { st0 with faults := [frec] }
def stFqT : State := stTv stFq
def stCdr : State := { st0 with cadence := { st0.cadence with state := 2 } }

theorem witness_SystemInstructions : (∀ x ∈ ([
    (.cdstart hd (.int 0) (.int 0), [(.int 0, 2), (.int 0, 1)]), (.cdstop hd, []), (.replay hd .none, [(.none, 1)]), (.cancel hd false (.int 0), [(.int 0, 1)]),
    (.tlbinv hd .page (.int 0) (.int 0), [(.int 0, 1), (.int 0, 2)]), (.preempt hd (.int 1), [(.int 1, 1)]),
    (.mcgset hd true (.int 63) (.int 1), [(.int 63, 1), (.int 1, 2)]), (.trace hd (.int 1) .none, [(.int 1, 1), (.none, 1)])]
      : List (Instr × List (Operand × Nat))), Ready st0 x.1 x.2) ∧
    ((cx st0).launch.priv = true ∧ (cx st0).actors hd = [th st0] ∧ (cx st0).parts hd = [th st0] ∧ st0.cadence.state = 0 ∧
      ((cx st0).val64 (th st0) (.int 0)).toNat % 64 = 0 ∧ ((cx st0).val (th st0) (.int 63)).toNat < 64 ∧ st0.mcast = [] ∧
      st0.seen.trctl.getLsbD 1 = false ∧ st0.launches.find? (fun l => l.ident.toNat == 1 && l.phase == .running) = some (lnOf st0) ∧
      st0.launches.find? (fun l => l.ident.toNat == 2 && l.phase == .running) = none ∧ st0.orderWait ((cx st0).parts hd) = false ∧ st0.badWords = []) ∧
    ((∀ x ∈ ([(.cancel hd true (.int 0), [(.int 0, 1)]), (.cancel hd false (.int 5), [(.int 5, 1)]), (.cancel hd false (.int 6), [(.int 6, 1)])]
        : List (Instr × List (Operand × Nat))), Ready stFqT x.1 x.2) ∧ (cx stFqT).launch.priv = true ∧ (cx stFqT).actors hd = [th stFqT] ∧
      (∀ f ∈ stFqT.faults, f.asid = ((cx stFqT).val (th stFqT) (.int 0)).toNat ∧ f.id ≠ ((cx stFqT).val (th stFqT) (.int 6)).toNat ∧ f.kind < 4) ∧
      (∀ x ∈ stFqT.teams, stFqT.tvecOf x.key ≠ 0#64) ∧ (∀ u ∈ stFqT.threads, u.inHandler = false ∧ u.wdogDue = false)) ∧
    (Ready stFq (.cancel hd false (.int 5)) [(.int 5, 1)] ∧ (cx stFq).launch.priv = true ∧ (cx stFq).actors hd = [th stFq] ∧
      ∃ f ∈ stFq.faults, f.id = ((cx stFq).val (th stFq) (.int 5)).toNat) ∧
    (Ready stCdr (.cdstop hd) [] ∧ (cx stCdr).launch.priv = true ∧ (cx stCdr).actors hd = [th stCdr] ∧ stCdr.cadence.state = 2) ∧
    (Ready stTn (.trace hd (.int 1) .none) [(.int 1, 1), (.none, 1)] ∧ stTn.seen.trctl.getLsbD 1 = true ∧ stTn.trctl.getLsbD 0 = false) ∧
    (Ready stTr (.trace hd (.int 1) .none) [(.int 1, 1), (.none, 1)] ∧ stTr.seen.trctl.getLsbD 1 = true ∧ stTr.trctl.getLsbD 0 = true ∧
      stTr.power.gating.contains (quadOf (cx stTr).core) = false ∧ stTr.power.gated.contains (quadOf (cx stTr).core) = false ∧
      (coOf stTr).issuedAt ≠ stTr.clk + 1 ∧ (cx stTr).actors hd = [th stTr] ∧ stTr.core? (cx stTr).core = some (coOf stTr)) :=
  ⟨ready_all (by decide +kernel), by decide +kernel, ⟨ready_all (by decide +kernel), by decide +kernel⟩, at_of (by decide +kernel), at_of (by decide +kernel), at_of (by decide +kernel),
    at_of (by decide +kernel)⟩

/-- The same with a multicast group of core 0. -/
def stMc : State := { stReg with mcast := [{ id := 5, mlo := 1#64, mhi := 0#64, outst := 0 }] }

theorem witness_CopiesIssue :
    (Ready stReg (.cpy hd 2 .m2s false (.int 0) (.v 8) none) [(.int 0, 1), (.v 8, 2)] ∧ stReg.allLive ∧ (cx stReg).parts hd ≠ [] ∧
      stReg.barValid (cx stReg).grp.team none = true ∧ stReg.barRoom (cx stReg).grp.team none 1 = true ∧ (∀ p ∈ (cx stReg).ths, p.xfcnt < 255) ∧
      (∀ l ∈ (stReg.cpyLanes (cx stReg) hd 16 (dirSides .m2s) (.int 0) (.v 8)).1, ∃ a b, l.res = .good a b) ∧
      (stReg.cpyLanes (cx stReg) hd 16 (dirSides .m2s) (.int 0) (.v 8)).1.length * 4 ≤ stReg.freeSlots (cx stReg).core ∧
      stReg.locksRoom (cx stReg).core 4 ∧ stReg.loads = [] ∧ stReg.orderWait ((cx stReg).parts hd) = false ∧
      stReg.laneWalkBad (cx stReg) (dirSides .m2s) 16 (stReg.cpyLanes (cx stReg) hd 16 (dirSides .m2s) (.int 0) (.v 8)).1 = none ∧
      (∀ team tids ds ss r, stReg.loadsStuck team tids ds ss r = false)) ∧
    (Ready stMc (.cpymc hd 2 false (.int 0) (.v 8) (.int 5) none) [(.int 0, 1), (.v 8, 2), (.int 5, 1)] ∧ stMc.allLive ∧
      ((cx stMc).parts hd).head? = some (th stMc) ∧ stMc.mcGroup? ((cx stMc).val (th stMc) (.int 5)).toNat = some { id := 5, mlo := 1#64, mhi := 0#64, outst := 0 } ∧
      stMc.barValid (cx stMc).grp.team none = true ∧ stMc.barRoom (cx stMc).grp.team none 1 = true ∧ (∀ p ∈ (cx stMc).ths, p.xfcnt < 255) ∧
      (∀ l ∈ (stMc.mcLanes (cx stMc) hd 16 (.int 0) (.v 8)).1, ∃ a b, l.res = .good a b) ∧
      stMc.receivers (cx stMc).launch.key { id := 5, mlo := 1#64, mhi := 0#64, outst := 0 } = [(1, 0)] ∧
      (stMc.mcLanes (cx stMc) hd 16 (.int 0) (.v 8)).1.length * 4 * 1 ≤ stMc.freeSlots (cx stMc).core ∧ stMc.locksRoom (cx stMc).core 3 ∧ stMc.loads = [] ∧
      stMc.orderWait ((cx stMc).parts hd) = false ∧ stMc.locksRoom 0 3 ∧
      stMc.laneWalkBad (cx stMc) (.main, .scratch) 16 (stMc.mcLanes (cx stMc) hd 16 (.int 0) (.v 8)).1 = none ∧
      (∀ team tids ds ss r, stMc.loadsStuck team tids ds ss r = false)) :=
  ⟨⟨ready (by decide +kernel), allLive_of (by decide +kernel), by decide +kernel, by decide +kernel, by decide +kernel, by decide +kernel,
      fun l hl => good_of (by revert l; decide +kernel), by decide +kernel, locksRoom_of (by decide +kernel), by decide +kernel, by decide +kernel,
      by decide +kernel, (quiet_of (by decide +kernel) (by decide +kernel)).2⟩,
    ready (by decide +kernel), allLive_of (by decide +kernel), by decide +kernel, by decide +kernel, by decide +kernel, by decide +kernel, by decide +kernel,
      fun l hl => good_of (by revert l; decide +kernel), by decide +kernel, by decide +kernel, locksRoom_of (by decide +kernel), by decide +kernel, by decide +kernel,
      locksRoom_of (by decide +kernel), by decide +kernel, (quiet_of (by decide +kernel) (by decide +kernel)).2⟩

/-- The same with the page in a gathered region. -/
def rg : Region :=
  { id := 7, state := 1, tgt := true, gc := 3, first := 0, asid := 0, wm := 32, len := 32, pbase := 0x10000, oldGathered := false, oldGc := 0, oldFirst := 0 }
def stNm : State := { stReg with regions := [rg], placement := (List.range 32).map (fun i => { line := 32 + i, nb := i / 8, row := i, rowsLeft := [] }) }

/-- What the bank-unit statements ask, but for `Ready`. -/
def BankOk (s : State) (mk : Ctx → Thread → Nat → List Nat → BankLane) : Prop :=
  s.allLive ∧ (cx s).parts hd ≠ [] ∧ (∀ p ∈ (cx s).ths, p.xfcnt < 255) ∧
    (∀ x ∈ (s.bankLanes (cx s) hd (fun p => mk (cx s) p s.nextId ((cx s).takers hd p))).1, ∃ b, x.2.2 = .ready b none) ∧
    s.loads = [] ∧ s.badWords = [] ∧
    (s.bankLanes (cx s) hd (fun p => mk (cx s) p s.nextId ((cx s).takers hd p))).1.length ≤ s.freeSlots (cx s).core ∧ s.locksRoom (cx s).core 2 ∧
    s.orderWait ((cx s).parts hd) = false

theorem bankOk_of {s : State} {mk : Ctx → Thread → Nat → List Nat → BankLane} (h1 : s.allLive ∧ s.loads = [] ∧ s.badWords = []) (h2 : s.locksRoom (cx s).core 2)
    (h : (!((cx s).parts hd).isEmpty && (cx s).ths.all (fun p => decide (p.xfcnt < 255)) &&
      (s.bankLanes (cx s) hd (fun p => mk (cx s) p s.nextId ((cx s).takers hd p))).1.all (fun x => BankRes.isReady x.2.2) &&
      decide ((s.bankLanes (cx s) hd (fun p => mk (cx s) p s.nextId ((cx s).takers hd p))).1.length ≤ s.freeSlots (cx s).core) &&
      !s.orderWait ((cx s).parts hd)) = true) : BankOk s mk := by
  simp only [Bool.and_eq_true, List.all_eq_true, decide_eq_true_eq, Bool.not_eq_true', List.isEmpty_eq_false_iff] at h
  exact ⟨h1.1, h.1.1.1.1, h.1.1.1.2, fun x hx => ready_of (h.1.1.2 x hx), h1.2.1, h1.2.2, h.1.2, h2, h.2⟩

theorem witness_BankCommandsIssue : (∀ x ∈ ([
    (.nmadd hd .f32 4 false (.v 8) (.int 0), [(.v 8, 2), (.int 0, 1)]), (.nmmax hd .n32 4 false (.v 8) (.int 0), [(.v 8, 2), (.int 0, 1)]),
    (.nmaxpy hd (.v 8) (.v 8) (.flt 0) (.int 2), [(.v 8, 2), (.v 8, 2), (.flt 0, 1), (.int 2, 1)]), (.nmstep hd true false (.v 8) (.int 0), [(.v 8, 2), (.int 0, 1)]),
    (.nmfence hd none, [])] : List (Instr × List (Operand × Nat))), Ready stNm x.1 x.2) ∧
    BankOk stNm (bankLaneOf (.add .f32) (4 * 2 ^ 4) false (.v 8) (.int 0)) ∧ BankOk stNm (bankLaneOf (.max .n32) (4 * 2 ^ 4) false (.v 8) (.int 0)) ∧
    BankOk stNm (axpyLaneOf (.v 8) (.v 8) (.flt 0) (.int 2)) ∧ BankOk stNm (bankLaneOf (.step true) 8192 false (.v 8) (.int 0)) ∧
    stNm.barValid (cx stNm).grp.team none = true ∧ stNm.barRoom (cx stNm).grp.team none 1 = true := by
  have h1 : stNm.allLive ∧ stNm.loads = [] ∧ stNm.badWords = [] := ⟨allLive_of (by decide +kernel), by decide +kernel⟩
  have h2 : stNm.locksRoom (cx stNm).core 2 := locksRoom_of (by decide +kernel)
  refine ⟨ready_all (by decide +kernel), bankOk_of h1 h2 ?_, bankOk_of h1 h2 ?_, bankOk_of h1 h2 ?_, bankOk_of h1 h2 ?_, ?_⟩ <;> decide +kernel


/-! ### Witnesses: conversions, collectives, tiles -/

/-- A conversion request for the mapped page, with barrier 15 valid; and one accepted, of two lines, at its first and its last. -/
def stRs : State := withTeam stReg (fun x => { x with bars := (x.bars.take 15) ++ [{ Barrier.zero with valid := true, exp := 2, pend := 2 }] })
def rq : RsPart :=
  { tid := 0, lane := 0, va := 0x40000000, len := 4, gathered := true, gc := 2, nb := none, bar := 15, held := false, pa := 0x10000 }
def RsMatch.isConvert : RsMatch → Bool
  | .convert none => true
  | _ => false
def SideRes.isOk : SideRes → Bool
  | .ok _ => true
  | _ => false
def cv : Conversion := { region := 7, team := 1, tids := [0], issue := 1, bar := 15, arrives := true, waits := [] }
def rgAt (tgt : Bool) (wm : Nat) : Region := { rg with state := 2, tgt := tgt, wm := wm, len := 2 }
def stLine (tgt : Bool) (wm : Nat) : State := { stRs with regions := [rgAt tgt wm], conversions := [cv] }
/-- What the move of a line asks. -/
def CvOk (tgt : Bool) (wm : Nat) : Prop :=
  (stLine tgt wm).conversions = cv :: [] ∧ (∀ i ∈ cv.waits, (stLine tgt wm).cmdLive i = false) ∧ (stLine tgt wm).transit = none ∧
    (stLine tgt wm).regions.find? (fun x => x.id == cv.region) = some (rgAt tgt wm) ∧ (∀ o ∈ (stLine tgt wm).xfers, o.kind ≠ .rstripe) ∧
    (stLine tgt wm).rsBegin.transit.isSome = true

theorem witness_ConversionsIssueAndAdvance :
    (Ready stRs (.rstripe hd true 2 (.v 8) (.int 4) .none 15) [(.v 8, 2), (.int 4, 1), (.none, 1)] ∧ stRs.allLive ∧ (cx stRs).actors hd = [th stRs] ∧
      (∀ x ∈ (cx stRs).ths, x.xfcnt < 255) ∧ ((cx stRs).val64 (th stRs) (.v 8)).toNat = 0x40000000 ∧ ((cx stRs).val (th stRs) (.int 4)).toNat = 4 ∧
      (∀ r ∈ (stRs.bankWalk (cx stRs).core (cx stRs).launch.asid (rangePieces 0x40000000 4)).1, ∃ l, r.2 = .ok l) ∧
      contiguous (rangePieces 0x40000000 4) ((stRs.bankWalk (cx stRs).core (cx stRs).launch.asid (rangePieces 0x40000000 4)).1.filterMap (fun r => r.2.loc.map (·.addr))) = true ∧
      (((stRs.bankWalk (cx stRs).core (cx stRs).launch.asid (rangePieces 0x40000000 4)).1.filterMap (fun r => r.2.loc.map (·.addr))).headD 0 = rq.pa) ∧
      stRs.rsCheck (cx stRs).grp.team (cx stRs).launch.asid rq = none ∧ stRs.rsMatch (cx stRs).launch.asid rq = .convert none ∧
      stRs.conversions.length < 16 ∧ stRs.barRoom (cx stRs).grp.team (some 15) 1 = true ∧ 1 ≤ stRs.freeSlots (cx stRs).core ∧
      stRs.orderWait ((cx stRs).parts hd) = false ∧ stRs.loads = [] ∧ stRs.badWords = [] ∧ stRs.core? (cx stRs).core = some (coOf stRs) ∧ ((coOf stRs).port (cx stRs).port).stripe = []) ∧
    (CvOk true 0 ∧ CvOk false 0 ∧ (rgAt true 0).wm + 1 < (rgAt true 0).len) ∧ (CvOk true 1 ∧ CvOk false 1 ∧ (rgAt true 1).len ≤ (rgAt true 1).wm + 1) := by
  refine ⟨⟨ready (by decide +kernel), allLive_of (by decide +kernel), by decide +kernel, by decide +kernel, by decide +kernel, by decide +kernel, fun r hr => ?_,
    by decide +kernel, by decide +kernel, by decide +kernel, ?_, by decide +kernel⟩, ⟨by unfold CvOk; decide +kernel, by unfold CvOk; decide +kernel, by decide +kernel⟩,
    by unfold CvOk; decide +kernel, by unfold CvOk; decide +kernel, by decide +kernel⟩
  · have h : ∀ r ∈ (stRs.bankWalk (cx stRs).core (cx stRs).launch.asid (rangePieces 0x40000000 4)).1, SideRes.isOk r.2 = true := by decide +kernel
    have h := h r hr
    cases hq : r.2 <;> simp [SideRes.isOk, hq] at h ⊢
  · have h : RsMatch.isConvert (stRs.rsMatch (cx stRs).launch.asid rq) = true := by decide +kernel
    generalize stRs.rsMatch (cx stRs).launch.asid rq = m at h ⊢
    rcases m with _ | _ | _ | _ <;> simp [RsMatch.isConvert] at h ⊢

/-- A group of one member, owned by this device; a valid handler entry; and V10 at scratch address 1024. -/
def qg : QGroup :=
  { id := 0, op := 0, rule := 0, lag := 0, n := 1, k := 1, asid := 0, owner := 0, lenl := 0, members := [0], round := 0#16, replica := 0#16,
    cur := [], ahead := [], late := [], taken := (0, 0, 0), shard := [] }
def stHu : State := withCore (withThread { st0 with quorum := [qg] } (fun u => { u with v := (u.v.set 10 1024#32).set 11 0xFFFF0000#32 }))
  (fun k => { k with handlers := [(9, BitVec.ofNat 128 (2 ^ 127))] })

theorem witness_CollectivesIssue : (∀ x ∈ ([
    (.qpost hd false (.v 10) (.int 0) (.int 0) (.int 0) none, [(.v 10, 1), (.int 0, 1), (.int 0, 1), (.int 0, 1)]),
    (.qsync hd 3 (.v 4) (.int 0) (.int 0) none, [(.v 4, 1), (.int 0, 1), (.int 0, 1)]),
    (.amsg hd true 16 (.v 11) (.int 4) (.int 9) none, [(.v 11, 1), (.int 4, 1), (.int 9, 1)])] : List (Instr × List (Operand × Nat))), Ready stHu x.1 x.2) ∧
    ((cx stHu).parts hd ≠ [] ∧ stHu.barValid (cx stHu).grp.team none = true ∧ stHu.barRoom (cx stHu).grp.team none 1 = true ∧
      (∀ p ∈ (cx stHu).ths, p.xfcnt < 255) ∧ stHu.fabric.length + stHu.fabricDue + 1 ≤ 1024 ∧ stHu.loads = [] ∧ stHu.orderWait ((cx stHu).parts hd) = false) ∧ stHu.locksRoom (cx stHu).core 4 ∧
    (((cx stHu).checkParts hd (fun t ps => stHu.postCheck (cx stHu) t ((cx stHu).val t (.v 10)).toNat ((cx stHu).val t (.int 0)).toNat
        ((cx stHu).val t (.int 0)).toNat ((cx stHu).val t (.int 0)).toNat ps)).2 = [] ∧
      ((cx stHu).checkParts hd (fun t ps => stHu.postCheck (cx stHu) t ((cx stHu).val t (.v 10)).toNat ((cx stHu).val t (.int 0)).toNat
        ((cx stHu).val t (.int 0)).toNat ((cx stHu).val t (.int 0)).toNat ps)).1.length = 1 ∧ (stHu.posts 0 0).length = 0) ∧
    ((cx stHu).checkParts hd (fun t _ => stHu.syncCheck (cx stHu) t ((cx stHu).val t (.int 0)).toNat ((cx stHu).val t (.int 0)).toNat)).2 = [] ∧
    ((cx stHu).checkParts hd (fun x _ => stHu.amsgCheck (cx stHu) x 16 ((cx stHu).val x (.v 11)).toNat ((cx stHu).val x (.int 4)).toNat
      ((cx stHu).val x (.int 9)).toNat)).2 = [] :=
  ⟨ready_all (by decide +kernel), by decide +kernel, locksRoom_of (by decide +kernel), by decide +kernel, by decide +kernel, by decide +kernel⟩

/-- Reservations 0 and 1 configured. -/
def tl : Tile := { Tile.empty with conf := true, fmt := .b16, rows := 32, cols := 32, tscale := 0x3F800000#32 }
def stTl : State := withTeam st0 (fun x => { x with tiles := tl :: tl :: x.tiles.drop 2 })

theorem witness_TileInstructionsAccepted : (∀ x ∈ ([
    (.tcfg hd 15 .q4 .none (.int 63) (.int 2), [(.none, 1), (.int 63, 1), (.int 2, 1)]),
    (.tcfg hd 15 .b16 .none (.int 1) (.int 63), [(.none, 1), (.int 1, 1), (.int 63, 1)]), (.trel hd 1, []), (.tzero hd 1, []),
    (.mma hd 0 1 true false (.int 0) .none (.int 31), [(.int 0, 1), (.none, 1), (.int 31, 1)]), (.accz hd (.int 63) .none, [(.int 63, 1), (.none, 1)]),
    (.accld hd 2 5 (.v 32) (.int 63) (.int 31) (.int 0), [(.v 32, 32), (.int 63, 1), (.int 31, 1), (.int 0, 1)]),
    (.accst hd 5 (.v 32) (.int 63) (.int 31) (.int 0), [(.v 32, 32), (.int 63, 1), (.int 31, 1), (.int 0, 1)])]
      : List (Instr × List (Operand × Nat))), Ready stTl x.1 x.2) ∧
    ((cx stTl).actors hd = [th stTl] ∧ (cx stTl).parts hd ≠ [] ∧ (∀ x ∈ (cx stTl).parts hd, x.tlcnt < 255) ∧ (stTl.tile (cx stTl).grp.team 15).conf = false ∧
      dataBytes .b16 1 63 ≤ 65536 ∧ (cx stTl).team.charged + ((dataBytes .b16 1 63 + 2047) / 2048 * 2048 + 2048) ≤ (cx stTl).launch.kernel.tiles ∧
      stTl.tileBusy (cx stTl).grp.team 15 = false ∧ stTl.tileBusy (cx stTl).grp.team 1 = false) ∧
    ((cx stTl).team.tile 1).conf = true ∧
    (∀ p ∈ (cx stTl).actors hd, (mmaShape ((cx stTl).team.tile 0) ((cx stTl).team.tile 1) true false ((cx stTl).valZ p .none) ((cx stTl).valZ p (.int 31))).isSome = true ∧
      ((cx stTl).val p (.int 63)).toNat + 1 ≤ (cx stTl).launch.kernel.acc ∧ ((cx stTl).val p (.int 31)).toNat ≤ 31 ∧ ((cx stTl).val p (.int 0)).toNat + 2 ^ 5 ≤ 32) ∧
    (∀ a ∈ ([.tzero 1, .mma 0 1 true false 0 0 31, .accz 63 1, .accld 63 31 0 32, .accst 63 31 0 (List.replicate 32 0#32)] : List TileAct),
      stTl.tileHeld (cx stTl).grp.team [a] stTl.nextId = false) :=
  ⟨ready_all (by decide +kernel), by decide +kernel, by decide +kernel, by decide +kernel, by decide +kernel⟩

theorem witness_TileChunksAccepted : (∀ x ∈ ([
    (.tld hd 0 none .data 5 (.int 0) .none, [(.int 0, 1), (.none, 1)]), (.tst hd 0 none 5 (.int 0) .none, [(.int 0, 1), (.none, 1)]),
    (.acccvt hd .f32 .rz true none (.int 1) (.int 0) .none, [(.int 1, 1), (.int 0, 1), (.none, 1)])]
      : List (Instr × List (Operand × Nat))), Ready stTl x.1 x.2) ∧
    (((cx stTl).parts hd).head? = some (th stTl) ∧ stTl.tileHeld (cx stTl).grp.team [.tld 0 .data [] 128] stTl.nextId = false ∧
      stTl.tileHeld (cx stTl).grp.team [.tst 0 [] 128] stTl.nextId = false ∧
      (cx stTl).chunkBad hd ((cx stTl).team.tile 0) .data 128 ((cx stTl).valZ (th stTl) .none) = false ∧ stTl.barValid (cx stTl).grp.team none = true ∧
      (stTl.chunkLanes (cx stTl) hd (.int 0) 128 ((cx stTl).valZ (th stTl) .none)).2 = [] ∧ (∀ p ∈ (cx stTl).parts hd, p.tlcnt < 255) ∧
      stTl.barRoom (cx stTl).grp.team none 1 = true ∧ stTl.loads = [] ∧ stTl.acquiring ((cx stTl).parts hd) = false ∧
      stTl.orderWait (stTl.threadsOf (cx stTl).grp.team (((cx stTl).parts hd).map (·.tid))) = false ∧
      stTl.orderWait (stTl.threadsOf (cx stTl).grp.team (((cx stTl).actors hd).map (·.tid))) = false) ∧ stTl.locksRoom (cx stTl).core 2 ∧
    ((∀ p ∈ (cx stTl).actors hd, ((cx stTl).val p (.int 1)).toNat + 1 ≤ (cx stTl).launch.kernel.acc ∧ ((cx stTl).val p (.int 0)).toNat % 128 = 0 ∧
        stTl.scratch (cx stTl).launch (cx stTl).grp.team ((cx stTl).val p (.int 0)).toNat (512 * Fmt.halfBytes .f32) = .ok lsm0) ∧
      stTl.tileHeld (cx stTl).grp.team [.acccvt .f32 .rz true 1 lsm0 none] stTl.nextId = false ∧
      stTl.barRoom (cx stTl).grp.team none ((cx stTl).actors hd).length = true) :=
  ⟨ready_all (by decide +kernel), by decide +kernel, locksRoom_of (by decide +kernel), by decide +kernel⟩

/-- A machine in whose tile engine an action is due. -/
def topOf (a : TileAct) (due : Option Nat) (cl : List Loc) : TileOp :=
  { id := 3, instr := 3, core := 0, team := 1, tid := 0, role := 0, pc := 0#57, act := a, bar := none, arrives := true, counted := [0], cleared := cl, due := due, early := [] }
def stOp (a : TileAct) (due : Option Nat) (cl : List Loc) : State := { stTl with tileOps := [topOf a due cl] }
def dsm0 : Loc := { space := .dsm, addr := 0x10000000 }

/-- A state in which an action may complete. -/
def TopOk (a : TileAct) (cl : List Loc) : Prop :=
  (stOp a (some 0) cl).allLive ∧ (stOp a (some 0) cl).memOk ∧ (stOp a (some 0) cl).tileOp? 3 = some (topOf a (some 0) cl) ∧
    (stOp a (some 0) cl).tileDue (topOf a (some 0) cl) = true ∧ (stOp a (some 0) cl).team? 1 = some (tmOf (stOp a (some 0) cl)) ∧
    (stOp a (some 0) cl).badWords = [] ∧ (stOp a (some 0) cl).power.tripped = false ∧ (∀ u ∈ (stOp a (some 0) cl).threads, u.entering = none) ∧ (∀ l ∈ cl, (stOp a (some 0) cl).lineLands (topOf a (some 0) cl) l = true)

/-- What of it can be decided. -/
def topB (a : TileAct) (cl : List Loc) : Bool :=
  let s := stOp a (some 0) cl
  decide (s.tileOp? 3 = some (topOf a (some 0) cl)) && s.tileDue (topOf a (some 0) cl) && decide (s.team? 1 = some (tmOf s)) && decide (s.badWords = []) &&
    !s.power.tripped && s.threads.all (fun u => decide (u.entering = none)) && cl.all (fun l => s.lineLands (topOf a (some 0) cl) l)

theorem topOk_of {a : TileAct} {cl : List Loc} (h1 : (stOp a (some 0) cl).allLive) (h2 : (stOp a (some 0) cl).memOk) (h : topB a cl = true) : TopOk a cl := by
  simp only [topB, Bool.and_eq_true, List.all_eq_true, decide_eq_true_eq, Bool.not_eq_true'] at h
  exact ⟨h1, h2, h.1.1.1.1.1.1, h.1.1.1.1.1.2, h.1.1.1.1.2, h.1.1.1.2, h.1.1.2, h.1.2, h.2⟩

/-- Each kind of action, with the lines it has yet to write. -/
def tops : List (TileAct × List Loc) := [(.mma 0 1 false false 0 0 0, []), (.tld 0 .data [(0, lsm0, 0)] 128, []), (.tzero 0, []), (.accld 0 0 0 4, []), (.tcfg 0, []),
  (.accst 0 0 0 [1#32], []), (.accz 0 1, []), (.tst 0 [(0, dsm0, 0)] 128, [dsm0]), (.acccvt .b16 .rn false 0 dsm0 none, linesOf dsm0 1024)]

/-- A TILE instruction held at port 0, and one at each port. -/
def stHeld : State := withCore st0 (fun k => { k with port0 := { k.port0 with tile := some (.tzero hd 0) } })
def stBoth : State := withCore stHeld (fun k => { k with port1 := { k.port1 with tile := some (.tzero hd 0) } })

theorem witness_TileEventsComplete :
    (stHeld.core? 0 = some (coOf stHeld) ∧ ((coOf stHeld).port 0).tile = some (.tzero hd 0) ∧ isTile (.tzero hd 0) = true ∧ stHeld.power.tripped = false ∧
      stHeld.issuedNow 0 = false ∧ stHeld.outranked 0 0 (.tzero hd 0) = false) ∧
    (stBoth.core? 0 = some (coOf stBoth) ∧ ((coOf stBoth).port (1 - stBoth.favoured)).tile = some (.tzero hd 0) ∧
      stBoth.outranked 0 (1 - stBoth.favoured) (.tzero hd 0) = true ∧ stBoth.outranked 0 stBoth.favoured (.tzero hd 0) = false ∧
      (stBoth.markIssued 0).core? 0 = some (coOf (stBoth.markIssued 0)) ∧ ((coOf (stBoth.markIssued 0)).port 0).tile = some (.tzero hd 0) ∧
      (stBoth.markIssued 0).issuedNow 0 = true) ∧
    ((stOp (.mma 0 1 false false 0 0 0) none []).tileOp? 3 = some (topOf (.mma 0 1 false false 0 0 0) none []) ∧
      (stOp (.mma 0 1 false false 0 0 0) none []).core? 0 = some (coOf stTl) ∧ (coOf stTl).arrayFree ≤ (stOp (.mma 0 1 false false 0 0 0) none []).clk ∧
      (stOp (.mma 0 1 false false 0 0 0) none []).tileFree (topOf (.mma 0 1 false false 0 0 0) none []) = true ∧
      (stOp (.mma 0 1 false false 0 0 0) none []).mmaBehind (topOf (.mma 0 1 false false 0 0 0) none []) = false ∧
      (stOp (.mma 0 1 false false 0 0 0) none []).power.tripped = false) ∧
    (∀ x ∈ tops, TopOk x.1 x.2) ∧
    (stOp (.tld 0 .data [(0, lsm0, 0)] 128) (some 0) []).chunksReady (topOf (.tld 0 .data [(0, lsm0, 0)] 128) (some 0) []) [(0, lsm0, 0)] 128 = true := by
  have al : ∀ a cl, (stOp a (some 0) cl).allLive := fun a cl => by
    have h : stTl.allLive := allLive_of (by decide +kernel)
    exact h
  have mo : ∀ a cl, (stOp a (some 0) cl).memOk := fun a cl => by
    have h : stTl.memOk := memOk_of (by decide +kernel)
    exact ⟨h.main, h.dsm, h.sys, h.lsm, h.acc⟩
  have ok : ∀ x ∈ tops, topB x.1 x.2 = true := by decide +kernel
  exact ⟨by decide +kernel, by decide +kernel, by decide +kernel, fun x hx => topOk_of (al _ _) (mo _ _) (ok x hx), by decide +kernel⟩

/-- A value above every finite bfloat16 in accumulator block 0: its conversion crosses a threshold of one saturation. -/
def stAcv : State := withTeam (withLaunch (stOp (.acccvt .b16 .rn true 0 dsm0 none) (some 0) []) (fun l => { l with cvclim := 1#32 }))
  (fun x => { x with acc := Memory.writeBytes [] (accAddr 0 0 0) [0xFF#8, 0xFF#8, 0x7F#8, 0x7F#8] })

theorem witness_AcccvtCrosses : stAcv.launch? (tmOf stAcv).launch = some (lnOf stAcv) ∧ stAcv.thread? 1 0 = some (th stAcv) ∧ (th stAcv).hasExited = false ∧
    ¬(lnOf stAcv).quiet (cvtEvents (tmOf stAcv).acc .b16 .rn true 0 none) := by unfold Launch.quiet; decide +kernel


/-! ### Witnesses: engine events -/

/-- A copy of one word, a bank-unit command sent and accepted, and an NMFENCE: each as its instruction leaves it; and an
optimiser step under RESIL in the place of that command. -/
def stCp : State := go (.cpy hd 0 .m2s false (.int 0) (.v 8) none) stReg
def stSent : State := go (.nmadd hd .f32 4 false (.v 8) (.int 0)) stNm
def stRun : State := go (.commandAcceptance 3 0) stSent
def stStep (mirrored : Bool) : State :=
  { stRun.modUnit 0 (fun u => { u with queue := u.queue.map (fun b => { b with kind := .step true, mirrored := mirrored }) }) with resil := 1#32 }
def stNf : State := go (.nmfence hd none) stReg
def cp : XferOp := stCp.xfers.headD default
def cmdOf (s : State) : BankCmd := ((s.unit 0).queue).headD default
/-- The copy at a unit where that command runs with its window closed; and the optimiser step with the parity group that RESIL names. -/
def nbCp : Nat := (stCp.moveNb ((cp.lineMoves 0).headD default)).getD 0
def stHold : State := stCp.modUnit nbCp (fun u => { u with queue := [cmdOf stRun], running := true, windowOpen := false, waits := [(3, 0)] })
def stPar (qs : List QGroup) : State := { stStep true with resil := 2#32, quorum := qs }
def qg0 : QGroup :=
  { id := 0, op := 0, rule := 0, lag := 0, n := 1, k := 1, asid := 0, owner := 0, lenl := 0, members := [0], round := 0#16, replica := 0#16,
    cur := [], ahead := [], late := [], taken := (0, 0, 0), shard := [] }

theorem one_pair {α : Type} {l : List α} (h : l.length = 1) {i j : Nat} {a b : α} (hi : l[i]? = some a) (hj : l[j]? = some b) : i = j := by
  have := (List.getElem?_eq_some_iff.mp hi).1
  have := (List.getElem?_eq_some_iff.mp hj).1
  omega

theorem rowsFree_stRun : stRun.rowsFree 0 (cmdOf stRun) := by unfold State.rowsFree; decide +kernel
theorem rowsFree_stStep : (stStep false).rowsFree 0 (cmdOf (stStep false)) := by unfold State.rowsFree; decide +kernel

/-- A group that takes parity updates: one that closes with them, one of two members that does not, and one owned elsewhere. -/
def qgP : QGroup := { qg0 with op := 3, rule := 1 }
def qgN : QGroup := { qgP with n := 2, k := 2, members := [0, 1] }
def qgR : QGroup := { qgP with owner := 5 }
def stPosted : State := (stPar [qgR]).modUnit 0 (fun u => { u with queue := u.queue.map (fun b => { b with posted := true }) })

/-- What PARITY_FOLD asks of the group that takes the updates of command 4. -/
def FoldOk (q : QGroup) : Prop :=
  (stPar [q]).cmdWaits 4 = true ∧ (stPar [q]).huddleStop = false ∧ (stPar [q]).quorum? (stPar [q]).parityGroup = some q ∧
    q.takesParity (stPar [q]).hostCtl.fabNode = true ∧ (stPar [q]).queuedCmd? 4 = some (cmdOf (stStep true)) ∧ q.owner = (stPar [q]).hostCtl.fabNode ∧
    (cmdOf (stStep true)).posted = false ∧ ((stPar [q]).quorum.map (·.id)).Nodup ∧
    (∀ x ∈ (stPar [q]).quorum, ∀ e ∈ x.cur ++ x.ahead ++ x.late, e.cmd ≠ some 4) ∧ q.heldOf 0 ≤ 1 ∧ q.members.findIdx (fun n => n == (stPar [q]).hostCtl.fabNode) = 0 ∧
    (stPar [q]).huddleRoom q = true ∧ q.inTurn (stPar [q]).clk 0 q.round.toNat = true ∧ (stPar [q]).fabricRoom (3 * q.members.length) = true ∧
    q.cur = [] ∧ q.ahead = [] ∧ q.late = []

theorem witness_ParityFolds : FoldOk qgP ∧ qgP.k = 1 ∧ FoldOk qgN ∧
    { qgN with cur := (qgN.cur ++ ((stPar [qgN]).parityOf (cmdOf (stStep true))).map (fun x => qgN.parityUpdate 0 0 (some 4) x)) }.closes = false ∧
    (stPosted.cmdWaits 4 = true ∧ stPosted.queuedCmd? 4 = some (cmdOf stPosted) ∧ stPosted.quorum? stPosted.parityGroup = some qgR ∧
      qgR.takesParity stPosted.hostCtl.fabNode = true ∧ qgR.owner ≠ stPosted.hostCtl.fabNode ∧ (cmdOf stPosted).posted = true) ∧
    ((stPar [qg0]).cmdWaits 4 = true ∧ (stPar [qg0]).queuedCmd? 4 = some (cmdOf (stStep true)) ∧ (stPar [qg0]).quorum? (stPar [qg0]).parityGroup = some qg0 ∧
      qg0.takesParity (stPar [qg0]).hostCtl.fabNode = false) := by
  unfold FoldOk
  decide +kernel

theorem witness_CopyAndCommandEvents :
    ([stCp, stHold, stSent, stNf].all (fun s => !s.power.tripped)) = true ∧
    (stCp.allLive ∧ stCp.memOk ∧ stCp.xfer? 3 = some cp ∧ cp.lineMoves 0 ≠ [] ∧
      (∀ m ∈ cp.lineMoves 0, (stCp.moveNb m).all (fun nb => !stCp.copyHeld nb (3, 0)) = true) ∧
      (∀ m ∈ cp.lineMoves 0, stCp.moveReady cp m = true) ∧ cp.silent ∧ stCp.badWords = [] ∧
      (∀ m ∈ cp.lineMoves 0, m.dst.space = .lsm 1 ∧ (stCp.team? 1).isSome = true) ∧
      (∀ (i j : Nat) a b, (cp.lineMoves 0)[i]? = some a → (cp.lineMoves 0)[j]? = some b → i = j) ∧
      (cp.held = [] ∧ cp.parts = [] ∧ cp.rsParts = [] ∧ cp.waits = [] ∧ cp.kind ≠ .nmfence ∧ ∀ m ∈ cp.moves, m.line = 0)) ∧
    (stHold.xfer? 3 = some cp ∧ cp.lineMoves 0 ≠ [] ∧ (∀ m ∈ cp.lineMoves 0, stHold.moveReady cp m = true) ∧
      (∃ m ∈ cp.lineMoves 0, stHold.moveNb m = some nbCp) ∧ stHold.copyHeld nbCp (3, 0) = true) ∧
    (∃ b, stSent.allLive ∧ stSent.waitingCmds.find? (fun x => x.op == 3 && x.tid == 0) = some b ∧ stSent.sent b = true ∧ stSent.cmdBehind b = false ∧
      stSent.sourceReady b = true ∧ (stSent.unit b.nb).queue.length < 32 ∧ stSent.badWords = [] ∧ ∀ o, stSent.xfer? 3 = some o → o.silent) ∧
    ((stHold.unit nbCp).running = true ∧ (stHold.unit nbCp).head = some (cmdOf stRun) ∧ (stHold.unit nbCp).windowOpen = false ∧
      (stHold.unit nbCp).suspended = false ∧ stHold.waitsAt nbCp ≠ [] ∧ (stHold.unit nbCp).rowOpen = false ∧
      ((stHold.modUnit nbCp (fun u => { u with suspended := true })).unit nbCp).running = true ∧
      ((stHold.modUnit nbCp (fun u => { u with suspended := true })).unit nbCp).suspended = true) ∧
    (stRun.allLive ∧ stRun.memOk ∧ stRun.rowsFree 0 (cmdOf stRun) ∧ (cmdOf stRun).placedWell ∧ (cmdOf stRun).kind = .add .f32) ∧
    ((stStep false).allLive ∧ (stStep false).memOk ∧ (cmdOf (stStep false)).placedWell ∧ (stStep false).rowsFree 0 (cmdOf (stStep false)) ∧ (cmdOf (stStep false)).kind = .step true ∧ (cmdOf (stStep false)).mirrored = false ∧
      (stStep false).resilSel = 1 ∧ (stStep false).fabric.length + (stStep false).fabricDue + 3 ≤ 1024) ∧
    ((stStep true).cmdWaits 4 = true ∧ (stStep true).huddleStop = false) ∧
    ((stPar []).cmdWaits 4 = true ∧ (stPar []).queuedCmd? 4 = some (cmdOf (stStep true)) ∧ (stPar []).quorum? (stPar []).parityGroup = none) ∧
    (∃ o, stNf.allLive ∧ stNf.xfer? 3 = some o ∧ o.kind = .nmfence ∧ stNf.cmdsBefore o = false ∧ o.silent) ∧
    (st0.memOk ∧ 0 + [1#8].length ≤ Config.mainBytes ∧ st0.rowBusy 0 = false ∧ st0.power.minimal = false) := by
  have h1 : (cp.lineMoves 0).length = 1 := by decide +kernel
  have hp : (cmdOf stRun).placedWell := by
    have h : (cmdOf stRun).kind = .add .f32 ∧ (4 < 7 ∧ (cmdOf stRun).bytes = 4 * 2 ^ 4 ∧ (cmdOf stRun).y % (cmdOf stRun).bytes = 0) := by decide +kernel
    unfold BankCmd.placedWell
    rw [h.1]
    exact ⟨4, h.2⟩
  have hq : (cmdOf (stStep false)).placedWell := by
    have h : (cmdOf (stStep false)).kind = .step true ∧ (cmdOf (stStep false)).y % 2048 = 0 := by decide +kernel
    unfold BankCmd.placedWell
    rw [h.1]
    exact h.2
  refine ⟨by decide +kernel, ⟨allLive_of (by decide +kernel), memOk_of (by decide +kernel), by decide +kernel, by decide +kernel, by decide +kernel, by decide +kernel,
      Or.inl (by decide +kernel), by decide +kernel, by decide +kernel, fun i j a b => one_pair h1, by decide +kernel⟩, by decide +kernel,
    ⟨stSent.waitingCmds.headD default, allLive_of (by decide +kernel), by decide +kernel, by decide +kernel, by decide +kernel, by decide +kernel, by decide +kernel,
      by decide +kernel, fun o ho => Or.inl ?_⟩, by decide +kernel,
    ⟨allLive_of (by decide +kernel), memOk_of (by decide +kernel), rowsFree_stRun, hp, by decide +kernel⟩,
    ⟨allLive_of (by decide +kernel), memOk_of (by decide +kernel), hq, rowsFree_stStep, by decide +kernel⟩, by decide +kernel, by decide +kernel,
    ⟨stNf.xfers.headD default, allLive_of (by decide +kernel), by decide +kernel, by decide +kernel, by decide +kernel, Or.inl (by decide +kernel)⟩,
    memOk_of (by decide +kernel), by decide +kernel⟩
  have h : stSent.xfer? 3 = some (stSent.xfers.headD default) := by decide +kernel
  rw [h] at ho
  cases ho
  decide +kernel


/-! ### Witnesses: Huddle, fabric, network -/

/-- A QPOST, its contribution read, the contribution taken by its owner; a QSYNC, and its request taken; a message from node 5 in the queue of core 0. -/
def stPost : State := go (.qpost hd false (.v 10) (.int 0) (.int 0) (.int 0) none) stHu
def stRead : State := go (.contributionRead 3 0) stPost
def stTaken : State := go (.quorumContributionArrival (.own 3 0)) stRead
def stSync : State := go (.qsync hd 3 (.v 4) (.int 0) (.int 0) none) stHu
def stAsked : State := go (.qsyncRequestArrival 3 0 none) stSync
def rm : RemoteMsg := { core := 0, handler := 9, node := 5, srcCore := 2, asid := 0, words := [7#32] }
def stMsg : State := go (.amsgArrival 0 0 (some rm)) stHu
def opOf (s : State) : XferOp := s.xfers.headD default
def partOf (s : State) : Part := (opOf s).parts.headD default
def fateAppends : Option (Msg × MsgFate) → Bool
  | some (m, .append ..) => m.op.isNone
  | _ => false

/-- The owner of a group that takes parity updates, and of one that does not, with member 0 at node 5. -/
def stPu (op : Nat) : State := { st0 with quorum := [{ qg with op := op, rule := 1, k := 2, n := 2, members := [5, 0] }] }
def qgOf (s : State) : QGroup := s.quorum.headD qg

theorem witness_ParityArrives : ∀ op ∈ [3, 0], (stPu op).quorum? 0 = some (qgOf (stPu op)) ∧ (qgOf (stPu op)).owner = (stPu op).hostCtl.fabNode ∧ 0 < (qgOf (stPu op)).n ∧
    (qgOf (stPu op)).members.getD 0 65536 = 5 ∧ 5 ≠ (stPu op).hostCtl.fabNode ∧ (stPu op).power.minimal = false ∧ (List.replicate 2048 (0 : Byte)).length = 2048 ∧
    ((qgOf (stPu op)).takesParity 5 = true ↔ op = 3) ∧ (qgOf (stPu op)).heldOf 0 < 4 ∧ (stPu op).huddleRoom (qgOf (stPu op)) = true ∧
    (qgOf (stPu op)).inTurn (stPu op).clk 0 (qgOf (stPu op)).round.toNat = true ∧
    { qgOf (stPu op) with cur := [{ (qgOf (stPu op)).parityUpdate 0 5 none [] with order := (stPu op).nextId }] }.closes = false := by decide +kernel

theorem witness_CollectiveEvents :
    ([stPost, stTaken, stAsked, stMsg].all (fun s => !s.power.tripped && !s.power.minimal)) = true ∧ stMsg.allLive ∧
    (stPost.allLive ∧ stPost.badWords = [] ∧ stPost.xfer? 3 = some (opOf stPost) ∧ (opOf stPost).part? 0 = some (partOf stPost) ∧ (opOf stPost).kind = .qpost ∧
      (partOf stPost).done = false ∧ (partOf stPost).data = none ∧ stPost.partReady (opOf stPost) (partOf stPost) = true ∧ (partOf stPost).node = stPost.hostCtl.fabNode) ∧
    (stRead.xfer? 3 = some (opOf stRead) ∧ (opOf stRead).part? 0 = some (partOf stRead) ∧ (partOf stRead).data.isSome = true ∧ (partOf stRead).sent = false ∧
      (partOf stRead).done = false ∧ stRead.quorum? (partOf stRead).group = some qg ∧ qg.owner = stRead.hostCtl.fabNode ∧ stRead.huddleRoom qg = true ∧
      qg.inTurn stRead.clk (partOf stRead).member (partOf stRead).tag = true ∧ BitVec.ofNat 16 (partOf stRead).tag = qg.round) ∧
    (stTaken.allLive ∧ stTaken.memOk ∧ stTaken.xfer? 3 = some (opOf stTaken) ∧ (opOf stTaken).part? 0 = some (partOf stTaken) ∧
      stTaken.qresults.find? (fun y => y.op == 3 && y.tid == 0) = some (stTaken.qresults.headD default) ∧ stTaken.holdsFor (opOf stTaken) = false ∧
      stTaken.landReady 1 0 3 (scratchLoc 1 (partOf stTaken).dst) (partOf stTaken).len = true ∧ (opOf stTaken).team = 1 ∧ (partOf stTaken).done = false ∧
      (opOf stTaken).silent ∧ (stTaken.qresults.headD default).data.length = (partOf stTaken).len ∧ (stTaken.team? 1).isSome = true) ∧
    (∃ s : State, s.quorum? 0 = some { qg with owner := 5 } ∧ 5 ≠ s.hostCtl.fabNode ∧ s = { st0 with quorum := [{ qg with owner := 5 }] }) ∧
    (stSync.xfer? 3 = some (opOf stSync) ∧ (opOf stSync).part? 0 = some (partOf stSync) ∧ stSync.quorum? (partOf stSync).group = some qg ∧ (opOf stSync).kind = .qsync ∧
      (partOf stSync).done = false ∧ (partOf stSync).sent = false ∧ qg.owner = stSync.hostCtl.fabNode) ∧
    (stAsked.allLive ∧ stAsked.xfer? 3 = some (opOf stAsked) ∧ (opOf stAsked).part? 0 = some (partOf stAsked) ∧
      stAsked.qreplies.find? (fun y => y.op == 3 && y.tid == 0) = some (stAsked.qreplies.headD default) ∧ (opOf stAsked).kind = .qsync ∧ (partOf stAsked).done = false ∧
      stAsked.holdsFor (opOf stAsked) = false ∧ (opOf stAsked).silent ∧ (∀ y ∈ stAsked.threads, y.entering = none) ∧ 0 ∈ (opOf stAsked).partTids 0 ∧
      stAsked.thread? (opOf stAsked).team 0 = some (th stAsked)) ∧
    (stHu.msgRoom rm.core = true ∧ handlerValid (stHu.handler rm.core rm.handler) = true ∧ handlerAsid (stHu.handler rm.core rm.handler) = rm.asid ∧
      rm.words.length ≤ 16 ∧ rm.node ≠ stHu.hostCtl.fabNode ∧ stHu.core? rm.core = some (coOf stHu)) ∧
    (stMsg.core? 0 = some (coOf stMsg) ∧
      ∃ m team role entry item, firstMsg (stMsg.msgFate 0) [] ((coOf stMsg).msgs.take 64) = some (m, .append team role entry item) ∧ m.op = none) := by
  refine ⟨?_, allLive_of ?_, ⟨allLive_of ?_, ?_⟩, ?_,
    ⟨allLive_of ?_, memOk_of ?_, ?_, ?_, ?_, ?_, ?_, ?_, ?_, Or.inl ?_, ?_⟩, ⟨_, ?_, ?_, rfl⟩, ?_, ⟨allLive_of ?_, ?_, ?_, ?_, ?_, ?_, ?_, Or.inl ?_, ?_⟩, ?_, ?_, ?fate⟩
  case fate =>
    have h : fateAppends (firstMsg (stMsg.msgFate 0) [] ((coOf stMsg).msgs.take 64)) = true := by decide +kernel
    generalize firstMsg (stMsg.msgFate 0) [] ((coOf stMsg).msgs.take 64) = r at h ⊢
    rcases r with _ | ⟨m, _ | _ | ⟨a, b, e, i⟩⟩ <;> simp [fateAppends] at h
    exact ⟨m, a, b, e, i, rfl, h⟩
  all_goals decide +kernel

/-- Transfers towards node 5, which a port reaches, or none; and packets at routers and gateways. -/
def tr (len : Nat) : Transfer := { id := 4, node := 5, prio := 9, len := len, sentBytes := 0, what := .closure 0 1#16, op := none, cmd := none, entry := 0 }
def stFab (len : Nat) : State := { State.reset with cores := [], fabric := [tr len], routes := [(5, 0x800F#16)] }
def pk : Packet := { router := 0, seq := 0, time := 0, dests := [.core 0], crossed := false, payload := [] }
def gw (tx rx : List Packet) (die other : Nat) : Gateway := { die := die, quad := 3, other := other, tx := tx, rx := rx, sent := 0 }
def pl : Packet := { pk with dests := [.core 2] }
def stNet : State := { State.reset with
  cores := [], clk := 64, transits := [{ at_ := 0, due := 1, pkt := pk }, { at_ := 4, due := 1, pkt := pl }, { at_ := 2, due := 1, pkt := pl }],
  routers := [{ id := 1, nextSeq := 1, outstanding := [(0, [.core 2])], wait := some (pk, 0), starved := 0, last := 0 }],
  gateways := [gw [pk] [] 0 3, gw [] [pk] 3 1] }

theorem witness_FabricAndNetworkEvents :
    (stNet.goldenStale = false ∧ stNet.power.minimal = false ∧ ∃ q ∈ netPorts 1, (stNet.router (q.far 1)).starved ≠ stNet.clk + 1) ∧
    ((stFab 512).nextTransfer 15 = some (tr 512) ∧ (tr 512).len ≤ (tr 512).sentBytes + 512 ∧ (stFab 512).quorum = []) ∧
    ((stFab 513).nextTransfer 15 = some (tr 513) ∧ (tr 513).sentBytes + 512 < (tr 513).len) ∧
    ({ stFab 1 with routes := [] }.fabric.find? (fun y => y.id == 4) = some (tr 1) ∧ { stFab 1 with routes := [] }.reachable 5 = false) ∧
    (15 < 16 ∧ (stFab 1).failedPorts.contains 15 = false) ∧
    (63 < 64 ∧ (List.replicate 128 (0 : Byte)).length ≤ 128 ∧ (stNet.router 63).wait = none ∧ [Endpoint.host] ≠ [] ∧ (∀ e ∈ [Endpoint.host], endpointExists e = true) ∧ (stNet.router 63).outstanding.length < 256) ∧
    ((stNet.router 0).last ≠ stNet.clk + 1 ∧ (stNet.router 0).wait = none ∧
      stNet.transits.filter (fun x => x.at_ == 0 && decide (x.due ≤ stNet.clk)) = [{ at_ := 0, due := 1, pkt := pk }] ∧ pk.dests = [.core 0] ∧ routerOf (.core 0) = 0) ∧
    ((stNet.router 2).last ≠ stNet.clk + 1 ∧ (stNet.router 2).wait = none ∧
      stNet.transits.filter (fun x => x.at_ == 2 && decide (x.due ≤ stNet.clk)) = [{ at_ := 2, due := 1, pkt := pl }] ∧ pl.dests = [.core 2] ∧
      routerOf (.core 2) ≠ 2 ∧ routerOf (.core 2) / 4 = 2 / 4 ∧ (stNet.router (routerOf (.core 2))).starved ≠ stNet.clk + 1) ∧
    ((stNet.router 1).last ≠ stNet.clk + 1 ∧ (stNet.router 1).wait = some (pk, 0) ∧
      stNet.transits.filter (fun x => x.at_ == 1 && decide (x.due ≤ stNet.clk)) = [] ∧ pk.dests = [.core 0]) ∧
    ((stNet.router 1).wait = some (pk, 0) ∧ 0 + 64 ≤ stNet.clk) ∧
    ((stNet.gateway 0 3 3).tx = pk :: [] ∧ (stNet.gateway 0 3 3).sent ≠ stNet.clk + 1 ∧ (stNet.gateway 3 3 0).rx.length < 64 ∧ 0 ≠ 3) ∧
    ((stNet.gateway 3 3 1).rx = pk :: [] ∧ 16 * 3 + 4 * 3 + 3 < 64 ∧ (stNet.router (16 * 3 + 4 * 3 + 3)).wait = none ∧
      (stNet.router (16 * 3 + 4 * 3 + 3)).outstanding.length < 256) := by decide +kernel


/-! ### Witnesses: launches, placement, the scheduler -/

/-- Page tables that map the first 2 MiB onto themselves, a launch record at 0x40000 and its kernel header at 0x50000: one role of one
home group of 8 threads with 8 registers each, whose entry is 0x60000. -/
def recBytes : List Byte := leBytes 8 0x50000 ++ leBytes 8 0 ++ leBytes 4 1
def hdrBytes : List Byte := leBytes 1 1 ++ leBytes 31 0 ++ leBytes 8 0x60000 ++ leBytes 1 8 ++ leBytes 1 8 ++ leBytes 2 1
def ptMain : Memory := [⟨0x40002, 5#8⟩, ⟨0x40010, 1#8⟩, ⟨0x50000, 1#8⟩, ⟨0x50022, 6#8⟩, ⟨0x50028, 8#8⟩, ⟨0x50029, 8#8⟩, ⟨0x5002A, 1#8⟩,
  ⟨0x100000, 1#8⟩, ⟨0x100002, 0x14#8⟩, ⟨0x140000, 7#8⟩]
def asid0 : AsidEntry := { id := 0, valid := true, root := 0x100000, tvec := 0#64, wdog := 26#32 }
def stPt : State := { State.reset with
  cores := [Core.reset 0], power := { st0.power with gated := [] }, main := ptMain, asids := [asid0] }

theorem walk_pt {s : State} (hm : s.main = ptMain) (hp : s.power.minimal = false) (ha : s.asidOf 0 = asid0) {va : Nat} (h : va < 2 ^ 30) :
    s.walk 0 va = .page false true false va := by
  have e1 : Memory.readDWord ptMain 0x100000 = 0x140001#64 := by decide +kernel
  have e2 : Memory.readDWord ptMain 0x140000 = 7#64 := by decide +kernel
  have d1 : va / 2 ^ levelShift (2 + 1) = 0 := Nat.div_eq_of_lt (Nat.lt_trans h (by decide))
  have d2 : va / 2 ^ levelShift (1 + 1) = 0 := Nat.div_eq_of_lt h
  have b1 : pteBad false (2 + 1) 0x140001#64 = false := by decide +kernel
  have b2 : pteBad false (1 + 1) 7#64 = false := by decide +kernel
  have m : va % 2 ^ levelShift (1 + 1) = va := Nat.mod_eq_of_lt h
  have r : ¬(0x100000 + 8 * 2 ^ levelBits 3 > Config.mainBytes) := by decide +kernel
  have n1 : (0x140001#64).toNat / 4096 % 2 ^ 40 * 4096 = 0x140000 := by decide
  simp only [State.walk, hm, hp, ha, walkWith, tlbFind, List.find?_nil, Option.map_none, asid0, Bool.not_true, Bool.false_eq_true, if_false, r,
    walkFrom, Option.getD_none, d1, d2, Nat.zero_mod, Nat.mul_zero, Nat.add_zero, e1, b1, n1, e2, b2, m]
  simp

theorem readVirt_pt {s : State} (hm : s.main = ptMain) (hp : s.power.minimal = false) (ha : s.asidOf 0 = asid0) :
    ∀ (n va : Nat), va + n ≤ 2 ^ 30 → s.readVirt 0 va n = some (ptMain.readBytes va n)
  | 0, _, _ => rfl
  | n + 1, va, h => by
    have e : ptMain.readBytes va (n + 1) = ptMain.read va :: ptMain.readBytes (va + 1) n := by
      simp [Memory.readBytes, List.range_succ_eq_map, Function.comp_def, Nat.add_assoc, Nat.add_comm 1]
    rw [State.readVirt, walk_pt hm hp ha (by omega), readVirt_pt hm hp ha n (va + 1) (by omega), e, hm]
    rfl

theorem readRecord_pt {s : State} (hm : s.main = ptMain) (hp : s.power.minimal = false) (ha : s.asidOf 0 = asid0) :
    s.readRecord 0 0x40000 = .ok (recBytes ++ List.replicate 236 0#8, headerKernel (hdrBytes ++ List.replicate 84 0#8)) := by
  have r1 : ptMain.readBytes 0x40000 256 = recBytes ++ List.replicate 236 0#8 := by decide +kernel
  have f : field (recBytes ++ List.replicate 236 0#8) 0 8 = 0x50000 := by decide +kernel
  have r2 : ptMain.readBytes 0x50000 128 = hdrBytes ++ List.replicate 84 0#8 := by decide +kernel
  have c1 : recordFields (recBytes ++ List.replicate 236 0#8) = true := by decide +kernel
  have c2 : headerOk (hdrBytes ++ List.replicate 84 0#8) = true := by decide +kernel
  have c3 : recordWindows (recBytes ++ List.replicate 236 0#8) = [] := by decide +kernel
  have c4 : s.stackOk (field (recBytes ++ List.replicate 236 0#8) 32 4) (field (recBytes ++ List.replicate 236 0#8) 36 4)
    (headerKernel (hdrBytes ++ List.replicate 84 0#8)).stack = true := by
    have : (headerKernel (hdrBytes ++ List.replicate 84 0#8)).stack = 0 := by decide +kernel
    rw [this]
    rfl
  generalize recBytes ++ List.replicate 236 0#8 = b at *
  generalize hdrBytes ++ List.replicate 84 0#8 = hb at *
  simp [State.readRecord, readVirt_pt hm hp ha, r1, f, r2, c1, c2, c3, c4]

def qOf (rec_ : Nat) : Queue :=
  { id := 9, errrec := 0#64, en := true, prio := 0, asid := 0, entries := [{ record := BitVec.ofNat 64 rec_, priv := true, parent := 0#32, view := [] }], errcode := 0, errcnt := 0 }
def stDq (rec_ : Nat) : State := { stPt with queues := [qOf rec_] }
def lnPt : Launch := { soleLaunch 1 with
  priv := false, kernel := headerKernel (hdrBytes ++ List.replicate 84 0#8), phase := .ranges, pending := [0] }
def stLn : State := { stPt with launches := [lnPt], nextId := 2 }
def stRd : State := { stPt with launches := [{ lnPt with phase := .running }], nextId := 2 }
def stPl : State := go (.teamPlacement ⟨5, 0, 3⟩) stRd
/-- A team with a bin of one thread whose timer has expired. -/
def bn : Bin := { team := 2, role := 0, entry := 0x60000#57, items := [[1#32, 2#32]], views := [[]], timer := 0 }
def stBin : State := withCore stPl (fun k => { k with bins := [bn] })

/-- What TEAM_PLACEMENT asks of the next team that waits. -/
def placeable (s : State) (x : Waiting × Nat) : Bool :=
  x.1.saved.isNone && !s.power.gating.contains (quadOf x.2) && !s.power.gated.contains (quadOf x.2) && x.1.launch.kernel.stack == 0 &&
    (s.fitsOn x.1 x.2).any (fun y => y.2.1.length == y.1.length) && (lowestFree (s.slotsUsed x.2) Config.teamSlots).isSome

theorem placed_of {s : State} (h : s.nextPlaced.any (placeable s) = true) :
    ∃ w core hs bs st slot, s.nextPlaced = some (w, core) ∧ w.saved = none ∧ w.launch.kernel.stack = 0 ∧ s.power.gating.contains (quadOf core) = false ∧
      s.power.gated.contains (quadOf core) = false ∧ s.fitsOn w core = some (hs, bs, st) ∧ lowestFree (s.slotsUsed core) Config.teamSlots = some slot ∧
      bs.length = hs.length := by
  rcases hp : s.nextPlaced with _ | ⟨w, core⟩
  · simp [hp] at h
  · rw [hp] at h
    simp only [Option.any_some, placeable, Bool.and_eq_true, Bool.not_eq_true', Option.isNone_iff_eq_none, beq_iff_eq, Option.any_eq_true,
      Option.isSome_iff_exists] at h
    obtain ⟨⟨⟨⟨⟨h1, h2⟩, h3⟩, h4⟩, ⟨hs, bs, st⟩, h5, h6⟩, slot, h7⟩ := h
    exact ⟨w, core, hs, bs, st, slot, rfl, h1, h4, h2, h3, h5, h7, h6⟩

def wordIn : Fetched → Option DWord
  | .word w => some w
  | _ => none

theorem word_of {r : Fetched} {w : DWord} (h : wordIn r = some w) : r = .word w := by
  cases r <;> simp_all [wordIn]

theorem ok_of {ε α : Type} {r : Except ε α} {x : α} (h : r.toOption = some x) : r = .ok x := by
  cases r <;> simp_all [Except.toOption]

def errorIn {ε α : Type} : Except ε α → Option ε
  | .error e => some e
  | .ok _ => none

theorem error_of {ε α : Type} {r : Except ε α} {e : ε} (h : errorIn r = some e) : r = .error e := by
  cases r <;> simp_all [errorIn]

theorem witness_LaunchAndPlacementEvents_dispatched :
    (stDq 0x40000).chooseQueue = some (qOf 0x40000) ∧ (qOf 0x40000).entries.length = 1 ∧ (stDq 0x40000).preparing < Config.launchesPreparing ∧
      (stDq 0x40000).identFree 7#32 = true ∧ ((stDq 0x40000).power.tripped = false ∧ (stDq 0x40000).badWords = []) ∧
      (stDq 0x40000).readRecord 0 0x40000 = .ok (recBytes ++ List.replicate 236 0#8, headerKernel (hdrBytes ++ List.replicate 84 0#8)) ∧
      (stDq 0x40000).rangePages 0 (recordRanges (recBytes ++ List.replicate 236 0#8)) = [] :=
  ⟨by decide +kernel, by decide +kernel, by decide +kernel, by decide +kernel, by decide +kernel, readRecord_pt rfl (by decide +kernel) (by decide +kernel), List.eq_nil_of_length_eq_zero (by decide +kernel)⟩

theorem witness_LaunchAndPlacementEvents_refused :
    (stDq 0x40020).chooseQueue = some (qOf 0x40020) ∧ (stDq 0x40020).preparing < Config.launchesPreparing ∧ (stDq 0x40020).identFree 7#32 = true ∧
      (stDq 0x40020).power.tripped = false ∧ (stDq 0x40020).readRecord 0 0x40020 = .error 1 := ⟨by decide +kernel, by decide +kernel, by decide +kernel, by decide +kernel, error_of (by decide +kernel)⟩

theorem witness_LaunchAndPlacementEvents_resolved :
    (stLn.launch? 1 = some (lnOf stLn) ∧ (lnOf stLn).phase = .ranges ∧ (lnOf stLn).stopped = false ∧ stLn.faults ++ stLn.faultsWaiting = []) ∧
    (∃ w core hs bs st slot, stRd.nextPlaced = some (w, core) ∧ w.saved = none ∧ w.launch.kernel.stack = 0 ∧ stRd.power.gating.contains (quadOf core) = false ∧
      stRd.power.gated.contains (quadOf core) = false ∧ stRd.fitsOn w core = some (hs, bs, st) ∧ lowestFree (stRd.slotsUsed core) Config.teamSlots = some slot ∧
      bs.length = hs.length) := ⟨by decide +kernel, placed_of (by decide +kernel)⟩

theorem witness_LaunchAndPlacementEvents_spawned :
    stBin.core? 0 = some (coOf stBin) ∧ (coOf stBin).bins[0]? = some bn ∧ stBin.team? bn.team = some (tmOf stBin) ∧ stBin.launch? (tmOf stBin).launch = some (lnOf stBin) ∧
      bn.ripe ((lnOf stBin).kernel.role bn.role).gsize = [[1#32, 2#32]] ∧ stBin.power.tripped = false ∧ (tmOf stBin).killed = false ∧ bn.role < (lnOf stBin).kernel.roles.length ∧
      (stBin.threads.filter (fun u => u.team == (tmOf stBin).key)).length + 1 ≤ 1024 ∧
      placeHgs (stBin.laneLoad 0) (lnOf stBin).kernel.rows [⟨bn.role, (tmOf stBin).nextIdx.getD bn.role 0,
        ((lnOf stBin).kernel.role bn.role).gsize, ((lnOf stBin).kernel.role bn.role).regs⟩] = some [1] := by decide +kernel

theorem witness_NoStackTakesNoSlot : ∃ w core hs bs st slot, stRd.nextPlaced = some (w, core) ∧ w.saved = none ∧ w.launch.kernel.stack = 0 ∧
      stRd.power.gating.contains (quadOf core) = false ∧ stRd.power.gated.contains (quadOf core) = false ∧ stRd.fitsOn w core = some (hs, bs, st) ∧
      lowestFree (stRd.slotsUsed core) Config.teamSlots = some slot ∧ bs.length = hs.length := placed_of (by decide +kernel)

/-- The placed team, saved in slot 0, one word of which has gone bad. -/
def stSlot : State := { withTeam stPl (fun x => { x with place := .saved 0 }) with badWords := [⟨.main, stPl.hostCtl.saveBase⟩] }

def returnable (s : State) (y : Team) (x : Waiting × Nat) : Bool :=
  x.1.saved == some y && !s.power.gating.contains (quadOf x.2) && !s.power.gated.contains (quadOf x.2) &&
    (s.fitsOn x.1 x.2).isSome && (lowestFree (s.slotsUsed x.2) Config.teamSlots).isSome

theorem saved_of {s : State} {y : Team} (h : s.nextPlaced.any (returnable s y) = true) :
    ∃ w core hs bs st slot, s.nextPlaced = some (w, core) ∧ w.saved = some y ∧ s.power.gating.contains (quadOf core) = false ∧
      s.power.gated.contains (quadOf core) = false ∧ s.fitsOn w core = some (hs, bs, st) ∧ lowestFree (s.slotsUsed core) Config.teamSlots = some slot := by
  rcases hp : s.nextPlaced with _ | ⟨w, core⟩
  · simp [hp] at h
  · rw [hp] at h
    simp only [Option.any_some, returnable, Bool.and_eq_true, Bool.not_eq_true', beq_iff_eq, Option.isSome_iff_exists] at h
    obtain ⟨⟨⟨⟨h1, h2⟩, h3⟩, ⟨hs, bs, st⟩, h5⟩, slot, h7⟩ := h
    exact ⟨w, core, hs, bs, st, slot, rfl, h1, h2, h3, h5, h7⟩

theorem notIntact_of {s : State} {y : Team} {slot : Nat} (hp : y.place = .saved slot) (h : s.badIn ⟨.main, s.hostCtl.saveBase + slot * Config.saveSlot⟩ Config.saveSlot = true) :
    s.slotIntact y = false := by
  unfold State.slotIntact
  rw [hp]
  simp only [h, Bool.not_true, Bool.and_false]

theorem witness_LaunchAndPlacementEvents_digest :
    (∃ w core hs bs st slot, stSlot.nextPlaced = some (w, core) ∧ w.saved = some (tmOf stSlot) ∧ stSlot.power.gating.contains (quadOf core) = false ∧
      stSlot.power.gated.contains (quadOf core) = false ∧ stSlot.fitsOn w core = some (hs, bs, st) ∧ lowestFree (stSlot.slotsUsed core) Config.teamSlots = some slot) ∧
    stSlot.slotIntact (tmOf stSlot) = false :=
  ⟨saved_of (by decide +kernel), notIntact_of (slot := 0) (by decide +kernel) (by decide +kernel)⟩

/-- The loaded clause of one NOP, its thread ready at the header or at the word in it, and the ports free; the same with a group on port 0. -/
def stSc : State := withCore (withThread (start 0xE43803FFFF000000) (fun u => { u with status := .ready, clause := none, pc := 0x40000000#57 }))
  (fun k => { k with port0 := { k.port0 with group := none } })
def stSc1 : State := withCore (withThread stSc (fun u =>
    { u with clause := some { hdrAddr := 0x40000000#57, hdr := soleHeader 0xE43803FFFF000000#64 }, pc := 0x40000008#57 }))
  (fun k => { k with port0 := { k.port0 with group := some (cx (start 0xE43803FFFF000000)).grp } })

/-- What the choice asks on a port where the lead thread's clause begins at 0x40000000. -/
def ScOk (s : State) (port : Nat) : Prop :=
  s.allLive ∧ s.coreReady 0 = true ∧ s.core? 0 = some (coOf s) ∧ (coOf s).waiting = [] ∧ (∀ u ∈ s.threads, u.convDue = none) ∧
    ((coOf s).port port).group = none ∧ (port = 0 ∨ port = 1 ∧ (coOf s).port0.group.isSome = true) ∧
    s.lead port (s.threads.filter (fun u => s.isReady? (coOf s) u)) = some (th s) ∧
    s.team? (th s).team = some (tmOf s) ∧ s.launch? (tmOf s).launch = some (lnOf s) ∧
    (s.fetchWord 0 (lnOf s).asid 0x40000000#57).1 = .word (soleHeader 0xE43803FFFF000000#64) ∧ hdrOk (soleHeader 0xE43803FFFF000000#64) = true ∧
    ((s.fetchWord 0 (lnOf s).asid 0x40000000#57).2.fetchWords 0 (lnOf s).asid (0x40000000#57 + 8#57) (hdrWords (soleHeader 0xE43803FFFF000000#64))).1 =
      .ok [0xE43803FFFF000000#64] ∧ clauseOk (soleHeader 0xE43803FFFF000000#64) [0xE43803FFFF000000#64] = true ∧
    0 < hdrWords (soleHeader 0xE43803FFFF000000#64)

theorem scOk_of {s : State} {port : Nat} (h : s.teams.all (fun x => s.groups.any (fun g => g.team == x.key && !g.retired &&
      s.threads.any (fun u => u.inHg g.team g.role g.idx && !u.hasExited))) = true)
    (h2 : (s.coreReady 0 = true ∧ s.core? 0 = some (coOf s) ∧ (coOf s).waiting = [] ∧ (∀ u ∈ s.threads, u.convDue = none) ∧
      ((coOf s).port port).group = none ∧ (port = 0 ∨ port = 1 ∧ (coOf s).port0.group.isSome = true) ∧
      s.lead port (s.threads.filter (fun u => s.isReady? (coOf s) u)) = some (th s) ∧
      s.team? (th s).team = some (tmOf s) ∧ s.launch? (tmOf s).launch = some (lnOf s)) ∧
      wordIn (s.fetchWord 0 (lnOf s).asid 0x40000000#57).1 = some (soleHeader 0xE43803FFFF000000#64) ∧ hdrOk (soleHeader 0xE43803FFFF000000#64) = true ∧
      ((s.fetchWord 0 (lnOf s).asid 0x40000000#57).2.fetchWords 0 (lnOf s).asid (0x40000000#57 + 8#57) (hdrWords (soleHeader 0xE43803FFFF000000#64))).1.toOption =
        some [0xE43803FFFF000000#64] ∧ clauseOk (soleHeader 0xE43803FFFF000000#64) [0xE43803FFFF000000#64] = true ∧
      0 < hdrWords (soleHeader 0xE43803FFFF000000#64)) : ScOk s port := by
  obtain ⟨⟨a, b, c, d, e, f, g, i, j⟩, k, l, m, n⟩ := h2
  exact ⟨allLive_of h, a, b, c, d, e, f, g, i, j, word_of k, l, ok_of m, n⟩

theorem witness_SchedulerChoosesAGroup :
    (ScOk stSc 0 ∧ (th stSc).clause = none ∧ (th stSc).pc = 0x40000000#57) ∧
    (ScOk stSc1 1 ∧ (th stSc1).clause = some { hdrAddr := 0x40000000#57, hdr := soleHeader 0xE43803FFFF000000#64 } ∧
      (th stSc1).pc = 0x40000000#57 + BitVec.ofNat 57 (8 * (0 + 1))) :=
  ⟨⟨scOk_of (by decide +kernel) (by decide +kernel), by decide +kernel⟩, scOk_of (by decide +kernel) (by decide +kernel), by decide +kernel⟩

/-- The end of a cycle with nothing left to do in it, with a team resident and with none; and one in which the Cadence engine has still to act. -/
def stCyc : State := { st0 with agenda := [.cycle] }
def stCycNone : State := { stCyc with teams := [] }
def stCycOpen : State := { stCyc with cadence := { stCyc.cadence with start := 2 } }

theorem witness_SchedulerChoosesAGroup_cycle :
    (∀ s ∈ [stCyc, stCycNone], s.agenda = .cycle :: [] ∧ s.power.powered = true ∧ s.power.tripped = false ∧ s.cycleOpen = false ∧ ∀ c ∈ s.cores, c.waiting = [] ∧ c.trace.later = []) ∧
    (stCyc.team? 1 = some (tmOf stCyc) ∧ (tmOf stCyc).isResident = true) ∧
    (stCycOpen.agenda = .cycle :: [] ∧ stCycOpen.power.powered = true ∧ stCycOpen.cycleOpen = true) := by decide +kernel


/-! ### Witnesses: fault records, watchdogs, errors, saving -/

def fr0 : FaultRec := {
  id := 1, refault := false, retry := 0, kind := 5, asid := 0, va := 0x40000000, launch := 1, core := 0, team := 0, lanes := 0#64, tids := [],
  op := none, walks := [[{ tid := 0, pas := [], used := [], miss := false, prot := false, va := 0x40000000 }]], range := none }
def stFr (f : FaultRec) : State := { st0 with faults := [f], faultsWaiting := [{ f with id := 2 }], faultRetryMax := 4#32, tlbinvs := [{ id := 7, team := 1, tids := [0], lines := [(3, 0)], cmds := [4], lanes := [(8, 0)] }] }
def stWd : State := withThread (withTeam (stTv st0) (fun x => { x with wdog := 2 ^ 26, wdogHit := true })) (fun u => { u with wdogDue := false })
def stSv : State := withThread (withTeam { st0 with hostCtl := { st0.hostCtl with saveBase := 0, saveLen := Config.saveSlot } } (fun x => { x with saveReq := true }))
  (fun u => { u with status := .ready, clause := none })

theorem witness_FaultAndErrorEvents_records :
    ((stFr fr0).allLive ∧ (stFr fr0).tlbinvs.find? (fun x => x.id == 7) = some { id := 7, team := 1, tids := [0], lines := [(3, 0)], cmds := [4], lanes := [(8, 0)] } ∧
      (stFr fr0).tlbDone [(3, 0)] [4] [(8, 0)] = true ∧ (stFr fr0).power.tripped = false) ∧
    ((stFr fr0).memOk ∧ (stFr fr0).faultsWaiting = { fr0 with id := 2 } :: [] ∧ (stFr fr0).faults.length < Config.faultRecords) ∧
    ((stFr fr0).faults.find? (fun x => x.id == 1) = some fr0 ∧ fr0.op = none ∧
      fr0.walks = ({ tid := 0, pas := [], used := [], miss := false, prot := false, va := 0x40000000 } :: []) :: [] ∧ 4 ≤ fr0.kind) ∧
    ((stFr { fr0 with kind := 3 }).faults.find? (fun x => x.id == 1) = some { fr0 with kind := 3 } ∧
      (∀ u ∈ (stFr { fr0 with kind := 3 }).threads, u.wdogDue = false)) ∧
    ((stFr { fr0 with walks := [[{ tid := 0, pas := [], used := [], miss := true, prot := false, va := 0 }]] }).faults.find? (fun x => x.id == 1) =
      some { fr0 with walks := [[{ tid := 0, pas := [], used := [], miss := true, prot := false, va := 0 }]] } ∧
      fr0.retry + 1 < (stFr { fr0 with walks := [[{ tid := 0, pas := [], used := [], miss := true, prot := false, va := 0 }]] }).retryMax) :=
  ⟨⟨allLive_of (by decide +kernel), by decide +kernel⟩, ⟨memOk_of (by decide +kernel), by decide +kernel⟩, by decide +kernel, by decide +kernel, by decide +kernel⟩

theorem witness_FaultAndErrorEvents_watchdog : stWd.allLive ∧ stWd.team? 1 = some (tmOf stWd) ∧ stWd.wdogExpired (tmOf stWd) = true ∧ (tmOf stWd).wdogAgain = false ∧
    (∀ u ∈ stWd.threads, u.team = 1 → u.hasExited = false → u.staysParked = false ∧ u.inHandler = false ∧ u.pc = 0x40000008#57 ∧ u.wdogKind = .instruction) ∧
    stWd.canTrap 1 ((stWd.threads.filter (fun u => u.team == 1 && !u.hasExited)).map (·.tid)) :=
  ⟨allLive_of (by decide +kernel), by decide +kernel, by decide +kernel, by decide +kernel, by decide +kernel, by unfold State.canTrap; decide +kernel⟩

/-- The same while the handlers of an earlier expiry run, or a thread stands in one. -/
def stWh : State := withTeam stWd (fun x => { x with wdogHandling := true, wdogAgain := true })
def stWi : State := withThread stWd (fun u => { u with inHandler := true })
def qgr : QGroup :=
  { id := 3, op := 0, rule := 0, lag := 0, n := 1, k := 1, asid := 0, owner := 0, lenl := 0, members := [0], round := 0#16, replica := 0#16,
    cur := [], ahead := [], late := [], taken := (0, 0, 0), shard := [] }
def stRound : State := { st0 with quorum := [qgr] }

theorem witness_FaultAndErrorEvents_second :
    (stWh.team? 1 = some (tmOf stWh) ∧ stWh.wdogExpired (tmOf stWh) = true ∧ (tmOf stWh).wdogAgain = true) ∧
    (stWi.team? 1 = some (tmOf stWi) ∧ stWi.wdogExpired (tmOf stWi) = true ∧
      ∃ u ∈ stWi.threads, u.team = 1 ∧ u.hasExited = false ∧ u.inHandler = true ∧ u.watchOp = none) := by decide +kernel

theorem witness_FaultAndErrorEvents_owned :
    (st0.power.starting = false ∧ st0.team? 1 = some (tmOf st0) ∧ (tmOf st0).core? = some 0 ∧ (tmOf st0).killed = false) ∧
    (stRound.power.starting = false ∧ ∃ q ∈ stRound.quorum, q.id = 3) := by decide +kernel

theorem witness_FaultAndErrorEvents_errors : st0.power.starting = false ∧ (dsmDie 0x10000000).isSome = true ∧ (0 : Nat) < Config.mainBytes ∧
    ({ st0.power with stage := 7 } : Power).starting = true ∧ st0.power.minimal = false := by decide +kernel

/-- A store to the DSM that stands before the team's last release that tagged a line. -/
def seT : StoreEntry := { se1 with loc := { space := .dsm, addr := 0x10000000 } }
def stTag : State := withThread (withTeam stSv (fun x => { x with tagged := 9 })) (fun u => { u with stores := [seT], stcnt := 1 })

theorem witness_FaultAndErrorEvents_saved : (stSv.memOk ∧ stSv.power.tripped = false ∧ stSv.team? 1 = some (tmOf stSv) ∧ (tmOf stSv).core? = some 0 ∧ stSv.core? 0 = some (coOf stSv) ∧
    lowestFree stSv.slotsHeld stSv.saveSlots = some 0 ∧ stSv.canSave (tmOf stSv) = true ∧ ∀ u ∈ stSv.threads, u.stores = []) ∧
    (stTag.memOk ∧ stTag.power.tripped = false ∧ stTag.team? 1 = some (tmOf stTag) ∧ (tmOf stTag).core? = some 0 ∧ stTag.core? 0 = some (coOf stTag) ∧
      lowestFree stTag.slotsHeld stTag.saveSlots = some 0 ∧ stTag.canSave (tmOf stTag) = true ∧ stTag.threads = [th stTag] ∧ (th stTag).stores = [seT] ∧
      stTag.thread? 1 (th stTag).tid = some (th stTag) ∧ seT.id < (tmOf stTag).tagged ∧ seT.stk = false ∧ seT.loc.space = .dsm ∧ seT.level = none ∧
      stTag.canPerform (th stTag) seT = true) := ⟨⟨memOk_of (by decide +kernel), by decide +kernel⟩, memOk_of (by decide +kernel), by decide +kernel⟩

/-! ### Witnesses: trace frames, quadrants, heat, starts -/

def frm (cl : Bool) : Frame := { seq := 0, base := 0, last := 0, bytes := List.replicate (if cl then 4096 else 40) 0#8, records := 1, gated := false, closed := cl, first := 0 }
def stFm (cl : Bool) : State := withCore { st0 with clk := 65536, hostCtl := { st0.hostCtl with trcBase := 0x20000, trcLen := 0x10000 }, power := { st0.power with gated := [] } }
  (fun k => { k with trace := { k.trace with frames := [frm cl] } })
def stFu : State := { stFm true with hostCtl := { st0.hostCtl with trcBase := 0x20000, trcLen := 0 } }
def stFuEn : State := { stFu with trctl := 1#32 }
/-- A machine with nothing resident whose quadrant 0 may be gated. -/
def stGt : State := { State.reset with cores := [Core.reset 0], hostCtl := { st0.hostCtl with gateCtl := 1#16 }, power := { st0.power with gated := [] } }

theorem witness_TracePowerAndStartEvents_frames :
    ([stFm false, stFm true, stFuEn, stFu, stGt].all (fun s => !s.power.tripped)) = true ∧
    ((stFm false).core? 0 = some (coOf (stFm false)) ∧ (coOf (stFm false)).trace.frames.getLast? = some (frm false) ∧ (frm false).closed = false ∧ (frm false).records ≠ 0 ∧
      (frm false).first + 65536 ≤ (stFm false).clk) ∧
    ((stFm true).memOk ∧ (stFm true).core? 0 = some (coOf (stFm true)) ∧ (coOf (stFm true)).trace.frames = frm true :: [] ∧ (frm true).closed = true ∧ (frm true).bytes.length = 4096 ∧
      (stFm true).power.gated.contains (quadOf 0) = false ∧ (stFm true).ringFull 0 = false ∧
      (stFm true).power.gating.contains (quadOf 0) = false ∧ (stFm true).trctl.getLsbD 0 = false ∧ (coOf (stFm true)).trace.dropped = 0 ∧
      (coOf (stFm true)).trace.resumed = false) ∧
    (stFuEn.core? 0 = some (coOf stFuEn) ∧ (coOf stFuEn).trace.frames = [frm true] ∧ stFuEn.power.gating.contains (quadOf 0) = false ∧
      stFuEn.power.gated.contains (quadOf 0) = false ∧ stFuEn.trctl.getLsbD 0 = true ∧ (coOf stFuEn).trace.resumed = false ∧
      (coOf stFuEn).trace.dropped + (frm true).records ≠ 0 ∧ stFuEn.ringFull 0 = true) ∧
    (stFu.core? 0 = some (coOf stFu) ∧ (coOf stFu).trace.frames = frm true :: [] ∧ stFu.power.gated.contains (quadOf 0) = false ∧ stFu.ringFull 0 = true ∧ stFu.trctl.getLsbD 0 = false) :=
  ⟨by decide +kernel, by decide +kernel, ⟨memOk_of (by decide +kernel), rfl, rfl, by decide +kernel⟩, ⟨rfl, rfl, by decide +kernel⟩,
    rfl, rfl, by decide +kernel, by decide +kernel⟩

theorem witness_TracePowerAndStartEvents_quadrants :
    (stGt.quadIdle (quadOf 0) = true ∧ stGt.power.gating.contains (quadOf 0) = false ∧ stGt.power.gated.contains (quadOf 0) = false) ∧
    (({ stGt with power := { stGt.power with gating := [0] } } : State).power.gating.contains 0 = true ∧
      ({ stGt with power := { stGt.power with gating := [0] } } : State).quadIdle 0 = true ∧
      ([({ stGt with power := { stGt.power with gating := [0] } } : State)].all (fun s => s.main.wf && s.dsm.wf && s.sys.wf && s.teams.isEmpty)) = true) ∧
    (({ withCore stGt (fun k => { k with trace := { k.trace with gateDropped := 3 } }) with trctl := 1#32, power := { stGt.power with resuming := [0] } } : State).trctl.getLsbD 0 = true ∧
      stGt.trctl.getLsbD 0 = false ∧ (coOf stGt).trace.frames = [] ∧ (coOf stGt).trace.dropped = 0) ∧
    ({ stGt with power := { stGt.power with resuming := [0] } } : State).power.resuming.contains 0 = true := by decide +kernel

theorem witness_TracePowerAndStartEvents_heat :
    (({ st0.power with pacedom := 0x80000001#32 } : Power).minimal = false ∧ ({ st0.power with pacedom := 0x80000001#32 } : Power).pacedom.getLsbD 31 = true) ∧
    (st0.power.refresh[0]? = some 1 ∧ st0.power.refresh[11]? = some 1 ∧ ({ st0.power with refresh := [2, 4] } : Power).refresh[0]? = some 2 ∧
      ({ st0.power with refresh := [2, 4] } : Power).refresh[1]? = some 4) ∧
    (st0.power.tripped = false ∧ st0.mailbox.evIdx < 1024) := by decide +kernel

theorem witness_TracePowerAndStartEvents_starts :
    (({ st0 with power := { st0.power with powered := false }, agenda := [.issue 0 0] } : State).power.powered = false ∧
      needsPower ({ st0 with power := { st0.power with powered := false }, agenda := [.issue 0 0] } : State).nextTurn.1 = true) ∧
    (({ st0.power with stage := 7 } : Power).starting = true ∧ ({ st0.power with stage := 6 } : Power).starting = true ∧
      ({ st0.power with stage := 6 } : Power).stage + 1 ≠ 8 ∧ ({ st0.power with stage := 6 } : Power).minimal = false) := by decide +kernel


/-! ### Witnesses: the Cadence engine -/

/-- An entry of a table from its fields of R293: KIND, record, IPORT, OPORT, stash, slot, input, output and length, count, target. -/
def ent (kind iport oport stash slot inDst outSrc len count target : Nat) : BitVec 256 :=
  BitVec.ofNat 256 (kind + 2 ^ 32 * iport + 2 ^ 40 * oport + 2 ^ 48 * stash + 2 ^ 56 * slot + 2 ^ 96 * inDst + 2 ^ 128 * outSrc + 2 ^ 160 * len +
    2 ^ 192 * count + 2 ^ 208 * target)
/-- The machine of the page tables with the engine in RUN at entry 0. -/
def stCd (e : BitVec 256) : State := { stPt with
  cadence := { stPt.cadence with state := 2, start := 2, entries := [e], recBase := 0x40000, binding := 0xFFFF0007#32, asid := 0, freeUp := 8, freeDown := 8 } }
def cdE (e : BitVec 256) : CdEntry := cdEntry ((stCd e).cadence.entries.getD (stCd e).cadence.head 0#256)

theorem witness_CadenceEvents_loaded :
    ∃ a bs, ({ stPt with cadence := { stPt.cadence with state := 1, loading := some 0x80000, asid := 0 } } : State).cadence.loading = some a ∧ a + 8192 ≤ 2 ^ 57 ∧
      ({ stPt with cadence := { stPt.cadence with state := 1, loading := some 0x80000, asid := 0 } } : State).readVirt 0 a 8192 = some bs :=
  ⟨0x80000, _, rfl, by decide, readVirt_pt rfl (by decide +kernel) (by decide +kernel) _ _ (by decide)⟩

theorem witness_CadenceEvents_unreadable :
    ({ stPt with cadence := { stPt.cadence with state := 1, loading := some (2 ^ 56), asid := 0 } } : State).cadence.loading = some (2 ^ 56) ∧
      ({ stPt with cadence := { stPt.cadence with state := 1, loading := some (2 ^ 56), asid := 0 } } : State).readVirt 0 (2 ^ 56) 8192 = none := by decide +kernel

/-- What every clause about the head entry asks. -/
def AtHead (s : State) (ident : Word) (e : CdEntry) : Prop :=
  s.cadence.acted = false ∧ s.cadence.start = 2 ∧ (s.cadence.state = 2 ∨ s.cadence.state = 3) ∧ s.cadence.grid = none ∧ s.identFree ident = true ∧ s.badWords = [] ∧
    e = cdEntry (s.cadence.entries.getD s.cadence.head 0#256) ∧ s.cadence.entryOk e = true ∧ s.cadence.head < 255

theorem atHead {s : State} {ident : Word} (h : (!s.cadence.acted && s.cadence.start == 2 && (s.cadence.state == 2 || s.cadence.state == 3) && s.cadence.grid.isNone && s.identFree ident && s.badWords.isEmpty &&
    s.cadence.entryOk (cdEntry (s.cadence.entries.getD s.cadence.head 0#256)) && decide (s.cadence.head < 255)) = true) :
    AtHead s ident (cdEntry (s.cadence.entries.getD s.cadence.head 0#256)) := by
  simp only [Bool.and_eq_true, Bool.or_eq_true, Bool.not_eq_true', beq_iff_eq, Option.isNone_iff_eq_none, List.isEmpty_iff, decide_eq_true_eq] at h
  obtain ⟨⟨⟨⟨⟨⟨⟨h1, h2⟩, h3⟩, h4⟩, h5⟩, hb⟩, h6⟩, h7⟩ := h
  exact ⟨h1, h2, h3, h4, h5, hb, rfl, h6, h7⟩

def eEnd : BitVec 256 := ent 5 0 0 0 0 0 0 0 0 0
def eDrain : BitVec 256 := ent 3 0 0 0 0 0 0 0 0 0
def eLoop : BitVec 256 := ent 4 0 0 0 0 0 0 0 3 0
def eIn : BitVec 256 := ent 0 1 0 0 0 128 0 0 0 0
def eRun : BitVec 256 := ent 2 0 1 1 63 0 0x10000000 128 0 0
def eTake : BitVec 256 := ent 0 1 0 0 0 0x10000000 0 0 0 0
/-- A buffer from upstream that holds an arrival of four bytes. -/
def bufA : CdBuf := { full := true, held := false, mb := 0, data := [1#8, 2#8, 3#8, 4#8], stamp := 1 }
def stTake : State := { stCd eTake with cadence := { (stCd eTake).cadence with bufs := bufA :: (stCd eTake).cadence.bufs.drop 1 } }
def stDrain : State := { stCd eDrain with cadence := { (stCd eDrain).cadence with freeUp := 7 } }
def stLoop : State := { stCd eLoop with cadence := { (stCd eLoop).cadence with loopLeft := 2 } }

/-- The clauses that say what one head entry does, each at a state of its own. -/
theorem witness_CadenceEvents_head :
    (∀ s ∈ [stCd eEnd, stCd eDrain, stDrain, stCd eLoop, stLoop, stCd eIn], AtHead s 7#32 (cdEntry (s.cadence.entries.getD s.cadence.head 0#256))) ∧
    ((cdE eEnd).kind = 5 ∧ (cdE eDrain).kind = 3 ∧ (∀ p ∈ [1, 2], (stCd eDrain).cadence.node p = 0xFFFF ∨ (stCd eDrain).cadence.free p = 8) ∧
      (∃ p ∈ [1, 2], stDrain.cadence.node p ≠ 0xFFFF ∧ stDrain.cadence.free p ≠ 8) ∧ (cdE eLoop).kind = 4 ∧ (stCd eLoop).cadence.loopLeft = 0 ∧
      stLoop.cadence.loopLeft ≠ 0 ∧ stLoop.cadence.loopOwn = stLoop.cadence.head ∧
      (cdE eIn).kind ≤ 2 ∧ (cdE eIn).iport ≠ 0 ∧ (stCd eIn).cadence.arrival (cdE eIn).iport (cdE eIn).mb = none) := by
  refine ⟨fun s hs => atHead ?_, by decide +kernel⟩
  revert s
  decide +kernel

theorem witness_CadenceEvents_launch : AtHead (stCd eRun) 7#32 (cdE eRun) ∧ (cdE eRun).kind ≤ 2 ∧ (cdE eRun).iport = 0 ∧ (stCd eRun).cadence.free (cdE eRun).oport ≠ 0 ∧
    ((cdE eRun).stash = 1 → (stCd eRun).cadence.occ.getLsbD (cdE eRun).slot = false) ∧
    (BitVec.ofNat 64 ((stCd eRun).cadence.recBase + 256 * (cdE eRun).rec_)).toNat = 0x40000 ∧
    (stCd eRun).readRecord 0 0x40000 = .ok (recBytes ++ List.replicate 236 0#8, headerKernel (hdrBytes ++ List.replicate 84 0#8)) ∧
    recordRanges (recBytes ++ List.replicate 236 0#8) = [] :=
  ⟨atHead (by decide +kernel), by decide +kernel, by decide +kernel, by decide +kernel, by decide +kernel, by decide +kernel,
    readRecord_pt rfl (by decide +kernel) (by decide +kernel), List.eq_nil_of_length_eq_zero (by decide +kernel)⟩

theorem witness_CadenceEvents_arrived : stTake.memOk ∧ AtHead stTake 7#32 (cdE eTake) ∧ (cdE eTake).kind ≤ 2 ∧ (cdE eTake).iport ≠ 0 ∧
    stTake.cadence.arrival (cdE eTake).iport (cdE eTake).mb = some (0, bufA) ∧ inOneDie (cdE eTake).inDst bufA.data.length = true ∧ (cdE eTake).oport = 0 ∧
    (cdE eTake).stash ≠ 1 ∧ (BitVec.ofNat 64 (stTake.cadence.recBase + 256 * (cdE eTake).rec_)).toNat = 0x40000 ∧
    stTake.readRecord 0 0x40000 = .ok (recBytes ++ List.replicate 236 0#8, headerKernel (hdrBytes ++ List.replicate 84 0#8)) ∧
    recordRanges (recBytes ++ List.replicate 236 0#8) = [] :=
  by refine ⟨memOk_of ?_, atHead ?_, ?_, ?_, ?_, ?_, ?_, ?_, ?_, readRecord_pt rfl ?_ ?_, List.eq_nil_of_length_eq_zero ?_⟩ <;> decide +kernel

/-- The entry's grid running; done; and the table stopping with nothing running. -/
def stCr (ph : LaunchPhase) : State := { stCd eRun with
  launches := [{ soleLaunch 1 with phase := ph, pending := [] }],
  cadence := { (stCd eRun).cadence with running := some { launch := 1, entry := 0, buf := none, muted := false }, acted := true } }
def rn : CdRun := { launch := 1, entry := 0, buf := none, muted := false }
def stGrid : State := { stCr .running with cadence := { (stCr .running).cadence with acted := false, grid := some false } }
def stGridIn : State := { stGrid with cadence := { stGrid.cadence with grid := some true } }
def stHalt : State := { stCd eRun with cadence := { (stCd eRun).cadence with state := 3, start := 3 } }
/-- Done with a buffer to return; done after the table entered ERROR; and an entry that sends nothing. -/
def stBuf : State := { stCr .done with cadence := { (stCr .done).cadence with running := some { rn with buf := some 0 } } }
def stMute : State := { stCr .done with cadence := { (stCr .done).cadence with running := some { rn with muted := true } } }
def stStill : State := { stCr .done with cadence := { (stCr .done).cadence with entries := [eIn] } }

theorem witness_CadenceEvents_grid :
    (stGrid.cadence.acted = false ∧ stGrid.cadence.start = 2 ∧ stGrid.cadence.state = 2 ∧ stGrid.cadence.grid = some false) ∧
    (stGridIn.cadence.acted = false ∧ stGridIn.cadence.start = 2 ∧ stGridIn.cadence.state = 2 ∧ stGridIn.cadence.grid = some true) ∧
    (stHalt.cadence.acted = false ∧ stHalt.cadence.start = 3 ∧ stHalt.cadence.state = 3 ∧ stHalt.cadence.grid = none) ∧
    (stPt.cadence.acted = false ∧ stPt.cadence.start ≠ 2 ∧ stPt.cadence.start ≠ 3) ∧
    ((stCr .done).cadence.running = some rn ∧ (stCr .done).gridDone = true ∧ (stCr .done).cadence.due = true ∧
      (stCr .done).fabricRoom (rn.sends (cdE eRun)) = true ∧ (cdE eRun).oport ≠ 0 ∧ inOneDie (cdE eRun).outSrc (cdE eRun).len = true) ∧
    (stBuf.cadence.running = some { rn with buf := some 0 } ∧ stBuf.gridDone = true ∧ stBuf.cadence.due = true ∧ stBuf.fabricRoom (({ rn with buf := some 0 } : CdRun).sends (cdE eRun)) = true) ∧
    (stStill.cadence.running = some rn ∧ stStill.gridDone = true ∧ stStill.cadence.due = true ∧ rn.sends (cdE eIn) = 0 ∧ (cdE eIn).oport = 0) ∧
    (stMute.cadence.running = some { rn with muted := true } ∧ stMute.gridDone = true ∧ stMute.cadence.due = true) ∧
    ((stCr .done).power.minimal = false ∧ (stCr .done).cadence.bufs.length = 16 ∧ ∃ i, i < 8 ∧ ((stCr .done).cadence.bufs.getD (8 + i) .empty).full = false) :=
  by refine ⟨?_, ?_, ?_, ?_, ?_, ?_, ?_, ?_, ?_, ?_, 0, ?_⟩ <;> decide +kernel

/-! ### Witnesses: the mailbox -/

/-- One command at HEAD, its bytes from byte 0. -/
def stMb (c : List Byte) : State := { st0 with mailbox := { st0.mailbox with slots := Memory.writeBytes [] 0 c, tail := 1#8, rspBase := 0x1000, evBase := 0x2000 } }
def mbCmd (op : Nat) (rest : List (Nat × Nat)) : List Byte := leBytes 1 op ++ leBytes 7 0 ++ rest.flatMap (fun p => leBytes p.1 p.2)

theorem mbAt_of {s : State} {op : Nat} (h : (s.mbDue && cmdLegal s.mailbox.cmd && cf s.mailbox.cmd 0 1 == op) = true) : s.mbAt op := by
  simp only [Bool.and_eq_true, beq_iff_eq] at h
  exact ⟨h.1.1, h.1.2, h.2⟩

def mbBad : State := stMb (mbCmd 0 [])
/-- Writes of 8 bytes to main memory, to a queue entry and to no space; a read of 8 bytes. -/
def mbWr (addr : Nat) : State := stMb (mbCmd 1 [(8, addr), (8, 8), (8, 0x1122334455667788)])
def mbRd (addr : Nat) : State := stMb (mbCmd 7 [(8, addr), (8, 8)])
def mbCp (dir : Nat) : State := stMb (mbCmd 2 [(8, 0x20000), (8, 0x3000), (4, 4), (4, dir)])
def mbLn (en : Bool) : State := { stMb (mbCmd 3 [(8, 0x40000), (8, 9)]) with queues := [{ qOf 0 with en := en, entries := [] }] }
def mbOp4 : State := stMb (mbCmd 4 [(8, 0xFFFF)])
def mbOp5 (kind : Nat) : State := stMb (mbCmd 5 [(4, 1), (4, kind)])
def mbOp6 (kind : Nat) : State := stMb (mbCmd 6 [(8, kind)])

theorem witness_MailboxEvents_writes :
    (mbBad.memOk ∧ mbBad.mbDue = true ∧ cmdLegal mbBad.mailbox.cmd = false) ∧
    ((mbWr 0x20000).memOk ∧ (mbWr 0x20000).mbAt 1 ∧ (mbWr 0x20000).mbPlace (cf (mbWr 0x20000).mailbox.cmd 8 8) 8 = .mem ⟨.main, 0x20000⟩ ∧
      (mbWr 0x20000).hostReady ⟨.main, 0x20000⟩ 8 = true) ∧
    ((mbWr (2 ^ 57 + 2 ^ 40)).mbAt 1) ∧ ((mbWr (3 * 2 ^ 56)).memOk ∧ (mbWr (3 * 2 ^ 56)).mbAt 1 ∧
      (mbWr (3 * 2 ^ 56)).mbPlace (cf (mbWr (3 * 2 ^ 56)).mailbox.cmd 8 8) 8 = .bad .refused) :=
  ⟨⟨memOk_of (by decide +kernel), by decide +kernel, by decide +kernel⟩,
    ⟨memOk_of (by decide +kernel), mbAt_of (by decide +kernel), by decide +kernel, by decide +kernel⟩, mbAt_of (by decide +kernel),
    memOk_of (by decide +kernel), mbAt_of (by decide +kernel), by decide +kernel⟩

theorem witness_MailboxEvents_items :
    ∃ a k i lo, (mbWr a).mbAt 1 ∧ (mbWr a).mbPlace (cf (mbWr a).mailbox.cmd 8 8) 8 = .item k i lo ∧
      ((mbWr a).tableWrite k i lo (((mbWr a).mailbox.cmd.drop 24).take 8)).1.sys.wf = true :=
  ⟨2 ^ 57, .queue, 0, 0, mbAt_of (by decide +kernel), by decide +kernel, by decide +kernel⟩

/-- A pattern on its way to core 0. -/
def stPat : State := withCore st0 (fun k => { k with xbarNew := some (3, 5) })

theorem witness_MailboxEvents_patterns :
    ∃ a i lo, (mbWr a).memOk ∧ (mbWr a).mbAt 1 ∧ (mbWr a).mbPlace (cf (mbWr a).mailbox.cmd 8 8) 8 = .item .xbar i lo ∧ i / 64 = 255 ∧ (mbWr a).mailbox.spread = false ∧
      (∀ c ∈ (mbWr a).cores, c.xbarNew = none) ∧ ({ mbWr a with mailbox := { (mbWr a).mailbox with spread := true } } : State).mbAt 1 ∧
      ∃ c, stPat.core? 0 = some c ∧ c.xbarNew = some (3, 5) :=
  ⟨2 ^ 57 + 0x100000 + 64 * (255 * 64), 255 * 64, 0, memOk_of (by decide +kernel), mbAt_of (by decide +kernel), by decide +kernel, by decide +kernel, by decide +kernel, by decide +kernel,
    mbAt_of (by decide +kernel), coOf stPat, by decide +kernel, by decide +kernel⟩

/-- BAR0 while only BOOT can be read, and after. -/
theorem witness_MailboxEvents_bar0 : State.reset.onlyBoot = true ∧ st0.onlyBoot = false := by decide +kernel

theorem witness_MailboxEvents_reads : ((mbRd 0x20000).memOk ∧ (mbRd 0x20000).mbAt 7 ∧ (mbRd 0x20000).mbPlace (cf (mbRd 0x20000).mailbox.cmd 8 8) 8 = .mem ⟨.main, 0x20000⟩) ∧
    ((mbRd (2 ^ 57)).mbAt 7 ∧ (mbRd (2 ^ 57)).mbPlace (cf (mbRd (2 ^ 57)).mailbox.cmd 8 8) 8 = .item .queue 0 0) ∧
    ((mbRd (3 * 2 ^ 56)).mbAt 7 ∧ (mbRd (3 * 2 ^ 56)).mbPlace (cf (mbRd (3 * 2 ^ 56)).mailbox.cmd 8 8) 8 = .bad .refused) :=
  ⟨⟨memOk_of (by decide +kernel), mbAt_of (by decide +kernel), by decide +kernel⟩, ⟨mbAt_of (by decide +kernel), by decide +kernel⟩, mbAt_of (by decide +kernel), by decide +kernel⟩

theorem witness_MailboxEvents_copies :
    ((mbCp 0).memOk ∧ (mbCp 0).mbAt 2 ∧ cf (mbCp 0).mailbox.cmd 28 1 = 0 ∧ cf (mbCp 0).mailbox.cmd 24 4 = 4 ∧
      (mbCp 0).mbPlace (cf (mbCp 0).mailbox.cmd 8 8) 4 = .mem ⟨.main, 0x20000⟩ ∧ (mbCp 0).hostReady ⟨.main, 0x20000⟩ 4 = true) ∧
    ((mbCp 1).memOk ∧ (mbCp 1).mbAt 2 ∧ cf (mbCp 1).mailbox.cmd 28 1 = 1 ∧ (mbCp 1).mbPlace (cf (mbCp 1).mailbox.cmd 8 8) 4 = .mem ⟨.main, 0x20000⟩ ∧
      overlaps ⟨.sys, cf (mbCp 1).mailbox.cmd 16 8⟩ 4 ⟨.sys, (mbCp 1).mailbox.rspBase + 64 * (mbCp 1).mailbox.head.toNat⟩ 64 = false) :=
  ⟨⟨memOk_of (by decide +kernel), mbAt_of (by decide +kernel), by decide +kernel⟩, memOk_of (by decide +kernel), mbAt_of (by decide +kernel), by decide +kernel⟩

theorem witness_MailboxEvents_commands :
    ((mbLn true).memOk ∧ (mbLn true).mbAt 3 ∧ cf (mbLn true).mailbox.cmd 16 1 = 9 ∧ ((mbLn true).queue 9).takes 1 = true) ∧
    ((mbLn false).memOk ∧ (mbLn false).mbAt 3 ∧ ((mbLn false).queue 9).takes 1 = false) ∧ (mbOp4.memOk ∧ mbOp4.mbAt 4 ∧ mbOp4.badWords = []) ∧
    ((mbOp5 0).memOk ∧ (mbOp5 0).mbAt 5 ∧ cf (mbOp5 0).mailbox.cmd 12 1 = 0) ∧ ((mbOp5 1).memOk ∧ (mbOp5 1).mbAt 5 ∧ cf (mbOp5 1).mailbox.cmd 12 1 = 1) :=
  ⟨⟨memOk_of (by decide +kernel), mbAt_of (by decide +kernel), by decide +kernel⟩, ⟨memOk_of (by decide +kernel), mbAt_of (by decide +kernel), by decide +kernel⟩,
    ⟨memOk_of (by decide +kernel), mbAt_of (by decide +kernel), by decide +kernel⟩, ⟨memOk_of (by decide +kernel), mbAt_of (by decide +kernel), by decide +kernel⟩,
    memOk_of (by decide +kernel), mbAt_of (by decide +kernel), by decide +kernel⟩

theorem witness_MailboxEvents_tlbinv : ∀ k ∈ [0, 1, 2], (mbOp6 k).memOk ∧ (mbOp6 k).mbAt 6 ∧ cf (mbOp6 k).mailbox.cmd 8 1 = k ∧ (mbOp6 k).mailbox.inv = none ∧
    (mbOp6 k).xfers = [] ∧ (mbOp6 k).dones = [] ∧ ∀ n, (mbOp6 k).cmdLive n = false := by
  intro k hk
  simp only [List.mem_cons, List.not_mem_nil, or_false] at hk
  rcases hk with rfl | rfl | rfl <;>
    exact ⟨memOk_of (by decide +kernel), mbAt_of (by decide +kernel), by decide +kernel, by decide +kernel, rfl, rfl, fun n => rfl⟩

/-! ### Witnesses: a second trap, and a step -/

/-- The one thread inside its handler; and the same with the watchdog run out again. -/
def stSecond : State := withThread (withTeam (stTv st0) (fun x => { x with wdog := 2 ^ 26, wdogHit := true, wdogHandling := true, wdogAgain := true })) (fun u => { u with inHandler := true })

theorem witness_SecondTrapKillsTheTeam : stSecond.team? 1 = some (tmOf stSecond) ∧ th stSecond ∈ stSecond.threads ∧ (th stSecond).team = 1 ∧ (th stSecond).tid ∈ [0] ∧
    (th stSecond).hasExited = false ∧ (th stSecond).inHandler = true ∧ stSecond.wdogExpired (tmOf stSecond) = true ∧ (tmOf stSecond).wdogAgain = true ∧
    Seated stSecond (cx stSecond) ∧ (Instr.trap hd 0).wf = true ∧ ∃ p ∈ (cx stSecond).parts hd, p.inHandler = true :=
  by refine ⟨?_, ?_, ?_, ?_, ?_, ?_, ?_, ?_, seated_cx ?_, ?_⟩ <;> decide +kernel

/-- A word that the core's port 0 is about to issue: the unguarded NOP; alone, in both ports' cycle, and an event. -/
def nopW : DWord := 0xE43803FFFF000000#64
def stIs (t : Turn) : State := { start nopW.toNat with agenda := [t] }
def grpOf (s : State) : Group := ((coOf s).port0.group).getD default

/-- Both ports of the core with a group of one thread each, in a cycle in which both issue. -/
def stTwo (i j : Instr) : State :=
  let s := start (encode i).toNat
  { withCore s (fun k => { k with port1 := { k.port1 with group := some { grpOf s with members := [1], words := [encode j] } } }) with
    threads := [th s, { th s with tid := 1, hidx := 1, lane := 1 }], agenda := [.issueBoth 0] }
def goes : Prep → Option (Instr × State)
  | .go i s => some (i, s)
  | .wait _ => none
theorem go_of {p : Prep} {x : Instr × State} (h : goes p = some x) : p = .go x.1 x.2 := by
  cases p with
  | wait s => simp [goes] at h
  | go i s =>
    simp only [goes, Option.some.injEq] at h
    rw [← h]
/-- What the ports have for execution in that cycle. -/
def first2 (i j : Instr) : Option (Instr × State) := goes (State.prepare { stTwo i j with agenda := [] } 0 0)
def second2 (i j : Instr) : Option (Instr × State) := (first2 i j).bind (fun x => goes (x.2.prepare 0 1))
/-- Both are ready, and whether they meet at one unit. -/
def bothReady (i j : Instr) (meets : Bool) : Bool :=
  (first2 i j).any (fun x => x.1 == i) && (second2 i j).any (fun x => x.1 == j && x.2.unitMeets 0 i j == meets && x.2.firstPort i j == 0)

theorem ready2 {i j : Instr} {b : Bool} (h : bothReady i j b = true) : ∃ S T, State.prepare { stTwo i j with agenda := [] } 0 0 = .go i S ∧
    S.prepare 0 1 = .go j T ∧ T.unitMeets 0 i j = b ∧ T.firstPort i j = 0 := by
  simp only [bothReady, Bool.and_eq_true, Option.any_eq_true, beq_iff_eq] at h
  obtain ⟨⟨x, hx, rfl⟩, ⟨y, hy, ⟨hj, hm⟩, hf⟩⟩ := h
  have hx' := go_of hx
  rw [second2, hx] at hy
  have hy' := go_of hy
  rw [hj] at hy'
  exact ⟨x.2, y.2, hx', hy', hm, hf⟩

def afterTwo : Option State := (second2 (.nop hd) (.nop hd)).bind (fun x =>
  match exec (.nop hd) { x.2 with cur := { core := 0, port := 0 } } with
  | .next t => if t.groupAt 0 1 = x.2.groupAt 0 1 then (match exec (.nop hd) { t with cur := { core := 0, port := 1 }, shadow := some x.2.snapshot } with
      | .next u => some u
      | _ => none) else none
  | _ => none)

theorem witness_StepRunsTheDecodedInstruction_both :
    ((stTwo (.nop hd) (.nop hd)).agenda = [.issueBoth 0] ∧ (stTwo (.nop hd) (.nop hd)).power.powered = true ∧ (stTwo (.nop hd) (.nop hd)).issuedNow 0 = false ∧
      afterTwo.isSome = true) ∧
    (∃ S T, State.prepare { stTwo (.nop hd) (.nop hd) with agenda := [] } 0 0 = .go (.nop hd) S ∧ S.prepare 0 1 = .go (.nop hd) T ∧
      T.unitMeets 0 (.nop hd) (.nop hd) = false ∧ T.firstPort (.nop hd) (.nop hd) = 0) ∧
    ((stTwo (.nmfence hd none) (.nmfence hd none)).power.powered = true ∧ (stTwo (.nmfence hd none) (.nmfence hd none)).issuedNow 0 = false) ∧
    (∃ S T, State.prepare { stTwo (.nmfence hd none) (.nmfence hd none) with agenda := [] } 0 0 = .go (.nmfence hd none) S ∧
      S.prepare 0 1 = .go (.nmfence hd none) T ∧ T.unitMeets 0 (.nmfence hd none) (.nmfence hd none) = true ∧
      T.firstPort (.nmfence hd none) (.nmfence hd none) = 0) :=
  ⟨by decide +kernel, ready2 (by decide +kernel), by decide +kernel, ready2 (by decide +kernel)⟩

/-- The state of an issue once the due results are written; nothing on the other port outranks it. -/
theorem witness_StepRunsTheDecodedInstruction_alone :
    (({ stIs (.issue 0 0) with agenda := [], cur := { core := 0, port := 0 } } : State).commitDue (grpOf (stIs (.issue 0 0)))).outranked 0 0 (.nop hd) = false := by
  decide +kernel

/-- After the one instruction of that cycle port 1 is still empty. -/
theorem witness_StepRunsTheDecodedInstruction_alone_after :
    ((go (.nop hd) { stIs (.issueBoth 0) with agenda := [], cur := { core := 0, port := 0 } }).core? 0).all (fun x => x.port1.group.isNone && x.port1.tile.isNone) = true := by
  decide +kernel

theorem witness_StepRunsTheDecodedInstruction :
    (∀ t ∈ [Turn.issue 0 0, .issueBoth 0], (stIs t).agenda = t :: [] ∧ (stIs t).power.powered = true ∧ (stIs t).power.tripped = false ∧ (stIs t).issuedNow 0 = false ∧ (stIs t).core? 0 = some (coOf (stIs t)) ∧
      (coOf (stIs t)).port0.group = some (grpOf (stIs t)) ∧ (coOf (stIs t)).port0.tile = none ∧ (coOf (stIs t)).port1.group = none ∧ (coOf (stIs t)).port1.tile = none ∧
      (∀ m ∈ (grpOf (stIs t)).members, ∀ u, (stIs t).thread? (grpOf (stIs t)).team m = some u → u.fence = none ∧ ∀ p ∈ u.pend, p.left ≠ 0) ∧
      (grpOf (stIs t)).words[(grpOf (stIs t)).slot]? = some nopW) ∧
    decodeWord nopW = .ok (.nop hd) ∧
    ((stIs (.event .moduleUnpowered)).agenda = .event .moduleUnpowered :: [] ∧ (stIs (.event .moduleUnpowered)).power.powered = true ∧ Instr.moduleUnpowered.isEvent = true) ∧
    (State.reset.memOk ∧ State.reset.power.minimal = false ∧ State.reset.shadow = none ∧ ∃ k, State.reset.core? 0 = some k) := by
  refine ⟨?_, by decide +kernel, by decide +kernel, reset_memOk, by decide +kernel, by decide +kernel, _, rfl⟩
  intro t ht
  simp only [List.mem_cons, List.not_mem_nil, or_false] at ht
  have hm : ∀ m ∈ (grpOf (start nopW.toNat)).members, ∀ u, (start nopW.toNat).thread? (grpOf (start nopW.toNat)).team m = some u → u.fence = none ∧ ∀ p ∈ u.pend, p.left ≠ 0 := by
    intro m _ u hu
    have hl : (start nopW.toNat).threads.all (fun u => u.fence.isNone && u.pend.isEmpty) = true := by decide +kernel
    have := List.all_eq_true.mp hl u (List.mem_of_find?_eq_some hu)
    simp only [Bool.and_eq_true, Option.isNone_iff_eq_none, List.isEmpty_iff] at this
    simp [this.1, this.2]
  rcases ht with rfl | rfl <;>
    refine ⟨rfl, ?_, ?_, ?_, ?_, ?_, ?_, ?_, ?_, hm, ?_⟩ <;> decide +kernel

theorem witness_EncodeAndDecodeAgree : (Instr.nop hd).wf = true ∧ (Instr.nop hd).isEvent = false ∧ decodeWord nopW = .ok (.nop hd) := by decide +kernel

theorem witness_StepKeepsMemoriesCanonical : State.reset.memOk ∧ State.reset.regsOk ∧ ∃ t, step { State.reset with agenda := [.event .deviceStart] } = .next t := ⟨reset_memOk, reset_regsOk, _, rfl⟩

end Sys2Proof.Machine.Tests
end

section
/-! Proofs of `Obligations.StepKeepsMemoriesCanonical`: the relation `State.kept` (canonical memories stay canonical, bounded
registers bounded), which Laws/Canonical.lean and the files after it establish for each meaning, carried from the meanings
through the dispatch and the ports of a core to a whole step. -/

namespace Sys2Proof.Machine

variable {ref0 : State}

/-! ### Dispatch -/

/-- Every row of the opcode table keeps the memories canonical and the registers within their bounds. -/
theorem exec_kept (i : Instr) (s : State) (h : s.kept ref0) : OutOk ref0 (exec i s) := by
  cases i with
  | iadd => exact execIadd_kept (ok_s := h) ..
  | iaddVl => exact execIaddVl_kept (ok_s := h) ..
  | isub => exact execIsub_kept (ok_s := h) ..
  | isubVl => exact execIsubVl_kept (ok_s := h) ..
  | imul => exact execImul_kept (ok_s := h) ..
  | imulVl => exact execImulVl_kept (ok_s := h) ..
  | imulhi => exact execImulhi_kept (ok_s := h) ..
  | imulhiVl => exact execImulhiVl_kept (ok_s := h) ..
  | imad => exact execImad_kept (ok_s := h) ..
  | imin => exact execImin_kept (ok_s := h) ..
  | iminVl => exact execIminVl_kept (ok_s := h) ..
  | imax => exact execImax_kept (ok_s := h) ..
  | imaxVl => exact execImaxVl_kept (ok_s := h) ..
  | iabs => exact execIabs_kept (ok_s := h) ..
  | shl => exact execShl_kept (ok_s := h) ..
  | shlVl => exact execShlVl_kept (ok_s := h) ..
  | shr => exact execShr_kept (ok_s := h) ..
  | shrVl => exact execShrVl_kept (ok_s := h) ..
  | sar => exact execSar_kept (ok_s := h) ..
  | sarVl => exact execSarVl_kept (ok_s := h) ..
  | and => exact execAnd_kept (ok_s := h) ..
  | andVl => exact execAndVl_kept (ok_s := h) ..
  | or => exact execOr_kept (ok_s := h) ..
  | orVl => exact execOrVl_kept (ok_s := h) ..
  | xor => exact execXor_kept (ok_s := h) ..
  | xorVl => exact execXorVl_kept (ok_s := h) ..
  | lut3 => exact execLut3_kept (ok_s := h) ..
  | popc => exact execPopc_kept (ok_s := h) ..
  | clz => exact execClz_kept (ok_s := h) ..
  | brev => exact execBrev_kept (ok_s := h) ..
  | bfe => exact execBfe_kept (ok_s := h) ..
  | bfeVl => exact execBfeVl_kept (ok_s := h) ..
  | bfi => exact execBfi_kept (ok_s := h) ..
  | iaddc => exact execIaddc_kept (ok_s := h) ..
  | icmp => exact execIcmp_kept (ok_s := h) ..
  | sel => exact execSel_kept (ok_s := h) ..
  | mov => exact execMov_kept (ok_s := h) ..
  | lea => exact execLea_kept (ok_s := h) ..
  | leaVl => exact execLeaVl_kept (ok_s := h) ..
  | iadd64 => exact execIadd64_kept (ok_s := h) ..
  | iadd64Vl => exact execIadd64Vl_kept (ok_s := h) ..
  | icmp64 => exact execIcmp64_kept (ok_s := h) ..
  | mov64 => exact execMov64_kept (ok_s := h) ..
  | fadd => exact execFadd_kept (ok_s := h) ..
  | faddVl => exact execFaddVl_kept (ok_s := h) ..
  | fsub => exact execFsub_kept (ok_s := h) ..
  | fsubVl => exact execFsubVl_kept (ok_s := h) ..
  | fmul => exact execFmul_kept (ok_s := h) ..
  | fmulVl => exact execFmulVl_kept (ok_s := h) ..
  | fmac => exact execFmac_kept (ok_s := h) ..
  | fmin => exact execFmin_kept (ok_s := h) ..
  | fminVl => exact execFminVl_kept (ok_s := h) ..
  | fmax => exact execFmax_kept (ok_s := h) ..
  | fmaxVl => exact execFmaxVl_kept (ok_s := h) ..
  | fcmp => exact execFcmp_kept (ok_s := h) ..
  | fclass => exact execFclass_kept (ok_s := h) ..
  | frcp => exact execFrcp_kept (ok_s := h) ..
  | frsq => exact execFrsq_kept (ok_s := h) ..
  | fsqrt => exact execFsqrt_kept (ok_s := h) ..
  | fexp2 => exact execFexp2_kept (ok_s := h) ..
  | flog2 => exact execFlog2_kept (ok_s := h) ..
  | ftanh => exact execFtanh_kept (ok_s := h) ..
  | fdot2 => exact execFdot2_kept (ok_s := h) ..
  | fscale => exact execFscale_kept (ok_s := h) ..
  | fscaleVl => exact execFscaleVl_kept (ok_s := h) ..
  | cvt => exact execCvt_kept (ok_s := h) ..
  | cvtpk => exact execCvtpk_kept (ok_s := h) ..
  | cvtx => exact execCvtx_kept (ok_s := h) ..
  | qdec => exact execQdec_kept (ok_s := h) ..
  | qdecVl => exact execQdecVl_kept (ok_s := h) ..
  | qenc => exact execQenc_kept (ok_s := h) ..
  | plut => exact execPlut_kept (ok_s := h) ..
  | pmov => exact execPmov_kept (ok_s := h) ..
  | pmovW => exact execPmovW_kept (ok_s := h) ..
  | xchg => exact execXchg_kept (ok_s := h) ..
  | xchgVl => exact execXchgVl_kept (ok_s := h) ..
  | xperm => exact execXperm_kept (ok_s := h) ..
  | xpermVl => exact execXpermVl_kept (ok_s := h) ..
  | xbcast => exact execXbcast_kept (ok_s := h) ..
  | xbcastVl => exact execXbcastVl_kept (ok_s := h) ..
  | xred => exact execXred_kept (ok_s := h) ..
  | xscan => exact execXscan_kept (ok_s := h) ..
  | xscanVl => exact execXscanVl_kept (ok_s := h) ..
  | xballot => exact execXballot_kept (ok_s := h) ..
  | xmatch => exact execXmatch_kept (ok_s := h) ..
  | xread => exact execXread_kept (ok_s := h) ..
  | xreadVl => exact execXreadVl_kept (ok_s := h) ..
  | xwrite => exact execXwrite_kept (ok_s := h) ..
  | xwriteVl => exact execXwriteVl_kept (ok_s := h) ..
  | ld => exact execLd_kept (ok_s := h) ..
  | st => exact execSt_kept (ok_s := h) ..
  | ldk => exact execLdk_kept (ok_s := h) ..
  | stk => exact execStk_kept (ok_s := h) ..
  | atom => exact execAtom_kept (ok_s := h) ..
  | red => exact execRed_kept (ok_s := h) ..
  | cas => exact execCas_kept (ok_s := h) ..
  | fence => exact execFence_kept (ok_s := h) ..
  | probe => exact execProbe_kept (ok_s := h) ..
  | cpy => exact execCpy_kept (ok_s := h) ..
  | cpymc => exact execCpymc_kept (ok_s := h) ..
  | nmadd => exact execNmadd_kept (ok_s := h) ..
  | nmmax => exact execNmmax_kept (ok_s := h) ..
  | nmaxpy => exact execNmaxpy_kept (ok_s := h) ..
  | nmstep => exact execNmstep_kept (ok_s := h) ..
  | nmfence => exact execNmfence_kept (ok_s := h) ..
  | rstripe => exact execRstripe_kept (ok_s := h) ..
  | qpost => exact execQpost_kept (ok_s := h) ..
  | qsync => exact execQsync_kept (ok_s := h) ..
  | amsg => exact execAmsg_kept (ok_s := h) ..
  | tcfg => exact execTcfg_kept (ok_s := h) ..
  | trel => exact execTrel_kept (ok_s := h) ..
  | tld => exact execTld_kept (ok_s := h) ..
  | tst => exact execTst_kept (ok_s := h) ..
  | tzero => exact execTzero_kept (ok_s := h) ..
  | mma => exact execMma_kept (ok_s := h) ..
  | accld => exact execAccld_kept (ok_s := h) ..
  | accst => exact execAccst_kept (ok_s := h) ..
  | accz => exact execAccz_kept (ok_s := h) ..
  | acccvt => exact execAcccvt_kept (ok_s := h) ..
  | bra => exact execBra_kept (ok_s := h) ..
  | brx => exact execBrx_kept (ok_s := h) ..
  | call => exact execCall_kept (ok_s := h) ..
  | ret => exact execRet_kept (ok_s := h) ..
  | join => exact execJoin_kept (ok_s := h) ..
  | waitj => exact execWaitj_kept (ok_s := h) ..
  | exit => exact execExit_kept (ok_s := h) ..
  | yield => exact execYield_kept (ok_s := h) ..
  | elect => exact execElect_kept (ok_s := h) ..
  | syncm => exact execSyncm_kept (ok_s := h) ..
  | binit => exact execBinit_kept (ok_s := h) ..
  | barv => exact execBarv_kept (ok_s := h) ..
  | bwait => exact execBwait_kept (ok_s := h) ..
  | bexp => exact execBexp_kept (ok_s := h) ..
  | binv => exact execBinv_kept (ok_s := h) ..
  | gsize => exact execGsize_kept (ok_s := h) ..
  | spawn => exact execSpawn_kept (ok_s := h) ..
  | launch => exact execLaunch_kept (ok_s := h) ..
  | trap => exact execTrap_kept (ok_s := h) ..
  | bkpt => exact execBkpt_kept (ok_s := h) ..
  | nop hd => exact execNop_kept hd s h
  | tret => exact execTret_kept (ok_s := h) ..
  | csrrd => exact execCsrrd_kept (ok_s := h) ..
  | csrwr => exact execCsrwr_kept (ok_s := h) ..
  | cdstart => exact execCdstart_kept (ok_s := h) ..
  | cdstop => exact execCdstop_kept (ok_s := h) ..
  | replay => exact execReplay_kept (ok_s := h) ..
  | cancel => exact execCancel_kept (ok_s := h) ..
  | tlbinv => exact execTlbinv_kept (ok_s := h) ..
  | preempt => exact execPreempt_kept (ok_s := h) ..
  | trace => exact execTrace_kept (ok_s := h) ..
  | mcgset => exact execMcgset_kept (ok_s := h) ..
  | schedulerChoice => exact execSchedulerChoice_kept (ok_s := h) ..
  | loadResultArrival => exact execLoadResultArrival_kept (ok_s := h) ..
  | storePerformed => exact execStorePerformed_kept (ok_s := h) ..
  | fenceCompletion => exact execFenceCompletion_kept (ok_s := h) ..
  | tlbinvCompletion => exact execTlbinvCompletion_kept (ok_s := h) ..
  | packetInjection => exact execPacketInjection_kept (ok_s := h) ..
  | routerArbitration => exact execRouterArbitration_kept (h_s := h) ..
  | starvationSignal => exact execStarvationSignal_kept (ok_s := h) ..
  | goldenEpoch => exact execGoldenEpoch_kept (ok_s := h) ..
  | sublinkCrossing => exact execSublinkCrossing_kept (ok_s := h) ..
  | gatewayInjection => exact execGatewayInjection_kept (ok_s := h) ..
  | copyLineCompletion => exact execCopyLineCompletion_kept (ok_s := h) ..
  | spawnBinTimerExpiry => exact execSpawnBinTimerExpiry_kept (ok_s := h) ..
  | spawnGroupPlacement => exact execSpawnGroupPlacement_kept (ok_s := h) ..
  | commandAcceptance => exact execCommandAcceptance_kept (ok_s := h) ..
  | nmwinWindowEnd => exact execNmwinWindowEnd_kept (ok_s := h) ..
  | bankCommandSuspend => exact execBankCommandSuspend_kept (ok_s := h) ..
  | bankCommandResume => exact execBankCommandResume_kept (ok_s := h) ..
  | bankCommandCompletion => exact execBankCommandCompletion_kept (ok_s := h) ..
  | buddyAcknowledge => exact execBuddyAcknowledge_kept (ok_s := h) ..
  | parityFold => exact execParityFold_kept (ok_s := h) ..
  | nmfenceCompletion => exact execNmfenceCompletion_kept (ok_s := h) ..
  | restripeLineMove => exact execRestripeLineMove_kept (ok_s := h) ..
  | tileAcceptance => exact execTileAcceptance_kept (ok_s := h) ..
  | mmaStart => exact execMmaStart_kept (ok_s := h) ..
  | mmaCompletion => exact execMmaCompletion_kept (ok_s := h) ..
  | tldCompletion => exact execTldCompletion_kept (ok_s := h) ..
  | tstCompletion => exact execTstCompletion_kept (ok_s := h) ..
  | tzeroCompletion => exact execTzeroCompletion_kept (ok_s := h) ..
  | accldResultArrival => exact execAccldResultArrival_kept (ok_s := h) ..
  | tileCompletion => exact execTileCompletion_kept (ok_s := h) ..
  | acccvtCompletion => exact execAcccvtCompletion_kept (ok_s := h) ..
  | quorumContributionArrival => exact execQuorumContributionArrival_kept (ok_s := h) ..
  | qpostResultArrival => exact execQpostResultArrival_kept (ok_s := h) ..
  | closureMessageArrival => exact execClosureMessageArrival_kept (ok_s := h) ..
  | qsyncReplyArrival => exact execQsyncReplyArrival_kept (ok_s := h) ..
  | amsgArrival => exact execAmsgArrival_kept (ok_s := h) ..
  | amsgAppend => exact execAmsgAppend_kept (ok_s := h) ..
  | fabricPieceSend => exact execFabricPieceSend_kept (ok_s := h) ..
  | fabricPortFailure => exact execFabricPortFailure_kept (ok_s := h) ..
  | fabricTransferDrop => exact execFabricTransferDrop_kept (ok_s := h) ..
  | dispatcherChoice => exact execDispatcherChoice_kept (ok_s := h) ..
  | launchRangesResolved => exact execLaunchRangesResolved_kept (ok_s := h) ..
  | teamPlacement => exact execTeamPlacement_kept (ok_s := h) ..
  | quadrantResumed => exact execQuadrantResumed_kept (ok_s := h) ..
  | quadrantPowerGate => exact execQuadrantPowerGate_kept (ok_s := h) ..
  | teamSave => exact execTeamSave_kept (ok_s := h) ..
  | faultRecordEntered => exact execFaultRecordEntered_kept (ok_s := h) ..
  | replayWalk => exact execReplayWalk_kept (ok_s0 := h) ..
  | watchdogExpiry => exact execWatchdogExpiry_kept (ok_s := h) ..
  | cadenceImageLoaded => exact execCadenceImageLoaded_kept (h_s := h) ..
  | cadenceCycle => exact execCadenceCycle_kept (ok_s := h) ..
  | cadenceGridCompletion => exact execCadenceGridCompletion_kept (ok_s := h) ..
  | cadenceArrival => exact execCadenceArrival_kept (ok_s := h) ..
  | cadenceGrant => exact execCadenceGrant_kept (ok_s := h) ..
  | traceFrameTimeout => exact execTraceFrameTimeout_kept (ok_s := h) ..
  | traceFrameDrain => exact execTraceFrameDrain_kept (ok_s := h) ..
  | paceEvaluation => exact execPaceEvaluation_kept (ok_s := h) ..
  | paceDomainUpdate => exact execPaceDomainUpdate_kept (ok_s := h) ..
  | clockStretch => exact execClockStretch_kept (ok_s := h) ..
  | refreshRateUpdate => exact execRefreshRateUpdate_kept (ok_s := h) ..
  | thermalTrip => exact execThermalTrip_kept (ok_s := h) ..
  | uncorrectableError => exact execUncorrectableError_kept (ok_s := h) ..
  | deviceStart => exact execDeviceStart_kept (ok_s := h) ..
  | bringUpStagePass => exact execBringUpStagePass_kept (ok_s := h) ..
  | tailDoorbell => exact execTailDoorbell_kept (ok_s := h) ..
  | mailboxWrite => exact execMailboxWrite_kept (ok_s := h) ..
  | mailboxCopyToDevice => exact execMailboxCopyToDevice_kept (ok_s := h) ..
  | mailboxCopyToHost => exact execMailboxCopyToHost_kept (ok_s := h) ..
  | mailboxLaunch => exact execMailboxLaunch_kept (ok_s := h) ..
  | mailboxReplay => exact execMailboxReplay_kept (ok_s := h) ..
  | mailboxCancel => exact execMailboxCancel_kept (ok_s := h) ..
  | mailboxCancelAsid => exact execMailboxCancelAsid_kept (ok_s := h) ..
  | mailboxTlbinvAll => exact execMailboxTlbinvAll_kept (ok_s := h) ..
  | mailboxTlbinvAsid => exact execMailboxTlbinvAsid_kept (ok_s := h) ..
  | mailboxTlbinvPage => exact execMailboxTlbinvPage_kept (ok_s := h) ..
  | mailboxRead => exact execMailboxRead_kept (ok_s := h) ..
  | qsyncRequestArrival => exact execQsyncRequestArrival_kept (ok_s := h) ..
  | buddyMirrorWrite => exact execBuddyMirrorWrite_kept (ok_s := h) ..
  | perBankRefresh => exact execPerBankRefresh_kept (ok_s := h) ..
  | gatingTraceDrain => exact execGatingTraceDrain_kept (ok_s := h) ..
  | contributionRead => exact execContributionRead_kept (ok_s := h) ..
  | firmwareWatchdogExpiry => exact execFirmwareWatchdogExpiry_kept (ok_s := h) ..
  | moduleUnpowered => exact execModuleUnpowered_kept (ok_s := h) ..
  | linkLevelRetry port => exact execLinkLevelRetry_kept port s h

/-! ### Issue -/

/-- The port that acts is the model's own bookkeeping (log entry 4). -/
theorem State.kept.withCur {s : State} (h : s.kept ref0) (c : Cur) : State.kept { s with cur := c } ref0 :=
  h.congr rfl rfl rfl rfl rfl rfl rfl rfl

/-- So are the registers that both ports of a cycle read (R100). -/
theorem State.kept.withShadow {s : State} (h : s.kept ref0) (b : Option Shadow) : State.kept { s with shadow := b } ref0 :=
  h.congr rfl rfl rfl rfl rfl rfl rfl rfl

theorem marked_kept (core : Nat) {o : Out} (h : OutOk ref0 o) : OutOk ref0 (marked core o) := by
  cases o with
  | next s => exact State.markIssued_kept s core h
  | fault r => trivial
  | refused r => trivial

/-- The state of a port that waits. -/
theorem wait_kept {p : Prep} {t : State} (e : p = .wait t) (h : PrepOk ref0 p) : t.kept ref0 := by subst e; exact h

/-- The state in which a port's instruction executes. -/
theorem go_kept {p : Prep} {i : Instr} {t : State} (e : p = .go i t) (h : PrepOk ref0 p) : t.kept ref0 := by
  subst e; exact h

theorem issue_kept (core port : Nat) (s : State) (h : s.kept ref0) : OutOk ref0 (issue core port s) := by
  unfold issue
  have hp := State.prepare_kept s core port h
  split
  · exact h
  · split
    · next t e => exact wait_kept e hp
    · next i t e =>
      have ht := go_kept e hp
      split
      · exact ht
      · exact marked_kept core (exec_kept i t ht)

theorem issueSecond_kept (core port : Nat) (i : Instr) (g : Option Group) (before : Shadow) (s : State) (h : s.kept ref0) :
    OutOk ref0 (issueSecond core port i g before s) := by
  unfold issueSecond
  split
  · have he := exec_kept i _ ((h.withCur ⟨core, port⟩).withShadow (some before))
    split
    · next t e => exact (out_kept e he).withShadow none
    · exact he
  · exact h

theorem issuePair_kept (core : Nat) (i j : Instr) (s : State) (h : s.kept ref0) : OutOk ref0 (issuePair core i j s) := by
  unfold issuePair
  have he := exec_kept i _ (h.withCur ⟨core, 0⟩)
  split
  · next t e => exact issueSecond_kept core 1 j _ _ t (out_kept e he)
  · exact he

theorem issueCrossed_kept (core : Nat) (i j : Instr) (s : State) (h : s.kept ref0) : OutOk ref0 (issueCrossed core i j s) := by
  unfold issueCrossed
  have he := exec_kept j _ ((State.markIssued_kept s core h).withCur ⟨core, 1⟩)
  split
  · next t e =>
    have h2 := issueSecond_kept core 0 i (s.groupAt core 0) s.snapshot _ (State.takeLater_kept t core (out_kept e he))
    split
    · next u e2 => exact State.putLater_kept u core _ (out_kept e2 h2)
    · exact h2
  · exact he

theorem issueFirst_kept (core : Nat) (i : Instr) (s : State) (h : s.kept ref0) : OutOk ref0 (issueFirst core i s) := by
  unfold issueFirst
  have he := exec_kept i _ (h.withCur ⟨core, 0⟩)
  split
  · next t e =>
    have ht := out_kept e he
    have hp := State.presents_kept t core 1 ht
    split
    · next u e2 => exact wait_kept e2 hp
    · exact ht
  · exact he

theorem issueBoth_kept (core : Nat) (s : State) (h : s.kept ref0) : OutOk ref0 (issueBoth core s) := by
  unfold issueBoth
  have hp := State.presents_kept s core 0 h
  split
  · exact h
  · split
    · next t e => exact issue_kept core 1 t (wait_kept e hp)
    · next i s0 e =>
      have h0 := go_kept e hp
      split
      · exact marked_kept core (issueFirst_kept core i s0 h0)
      · next j t e2 =>
        have hq := go_kept e2 (State.presents_kept s0 core 1 h0)
        refine marked_kept core ?_
        split
        · split
          · exact exec_kept i _ (hq.withCur ⟨core, 0⟩)
          · exact exec_kept j t hq
        · split
          · exact issuePair_kept core i j t hq
          · exact issueCrossed_kept core i j t hq

/-! ### Steps -/

/-- Every turn keeps them: an issue, an event, the end of a cycle, an engine's word or an access of the host. -/
theorem act_kept (t : Turn) (s : State) (h : s.kept ref0) : OutOk ref0 (act t s) := by
  cases t with
  | issue core port => exact issue_kept core port s h
  | issueBoth core => exact issueBoth_kept core s h
  | cycle => exact State.tick_kept s h
  | event e =>
    dsimp only [act]
    split
    · exact exec_kept e s h
    · exact h
  | bankSector nb sector => exact State.bankSector_kept s nb sector h
  | sampleWord op word => exact State.sampleWord_kept s op word h
  | evict core entry => exact State.evict_kept s core entry h
  | pattern core => exact State.patternTurn_kept s core h
  | hostBar offset data => exact State.barWrite_kept s offset data h
  | hostMem addr data => exact State.hostWrite_kept s addr data h

/-- Taking the next turn changes the agenda and the count of free values alone. -/
theorem State.nextTurn_kept (s : State) (h : s.kept ref0) : s.nextTurn.2.kept ref0 := by
  unfold State.nextTurn
  split <;> exact h.congr rfl rfl rfl rfl rfl rfl rfl rfl

theorem step_kept (s : State) (h : s.kept ref0) : OutOk ref0 (step s) := by
  unfold step
  dsimp only
  split
  · trivial
  · exact act_kept _ _ (State.nextTurn_kept s h)

/-- Settles O22: a step that gives a next state keeps both invariants, by `step_kept` from the state itself. -/
theorem stepKeepsMemoriesCanonical : Obligations.StepKeepsMemoriesCanonical := by
  unfold Obligations.StepKeepsMemoriesCanonical
  have hk : ∀ s t, step s = .next t → t.kept s := fun s _ e => out_kept e (step_kept s (.refl s))
  exact ⟨fun s t hm e => (hk s t e).mem hm, fun s t hr e => (hk s t e).regs hr⟩

end Sys2Proof.Machine
end

section
/-! Proofs of `Obligations.ResetState` and `Obligations.GroupMovesOn`. -/

namespace Sys2Proof.Machine

/-- Settles O23: every field of the reset state is written out; its invariants are `reset_memOk` and `reset_regsOk`. -/
theorem resetState : Obligations.ResetState := by
  unfold Obligations.ResetState
  refine ⟨reset_memOk, reset_regsOk, fun x hx => absurd hx List.not_mem_nil, rfl, rfl, rfl, rfl, rfl, rfl, rfl, rfl, fun k hk => ?_, rfl, rfl, rfl, rfl, rfl, rfl, rfl⟩
  obtain ⟨c, _, rfl⟩ := List.mem_map.mp hk
  exact ⟨rfl, rfl, rfl, rfl, rfl, rfl⟩

/-- From the last slot a member is ready, and past the clause that it stands in (R74). -/
theorem Thread.fallThrough_leaves (t : Thread) (clk : Nat) : (t.fallThrough clk).status = .ready ∧
    ∀ k, t.clause = some k → (t.fallThrough clk).clause = none ∧ (t.fallThrough clk).pc = k.next := by
  unfold Thread.fallThrough
  cases hc : t.clause with
  | none => exact ⟨rfl, fun k hk => by cases hk⟩
  | some c => exact ⟨rfl, fun k hk => by cases hk; exact ⟨rfl, rfl⟩⟩

theorem Thread.movedOn_moved (u : Thread) (g : Group) (port clk : Nat) : u.moved (u.movedOn g port clk) g := by
  unfold Thread.moved
  by_cases h : g.slot + 1 < hdrWords g.hdr
  · simp [Thread.movedOn, h, Nat.not_le.mpr h]
  · obtain ⟨hr, hk⟩ := Thread.fallThrough_leaves { u with pend := u.pend.map (fun p => { p with left := p.left - 1 }), noWatch := false } clk
    rw [if_neg h]
    unfold Thread.movedOn
    simp only [Nat.not_lt.mp h, decide_true, if_true]
    split
    · split <;> exact ⟨by rw [Thread.fallThrough_only], hr, hk⟩
    · exact ⟨by rw [Thread.fallThrough_only], hr, hk⟩

/-- The group of a port after the port was replaced. -/
theorem groupAt_of_core? {s : State} {core : Nat} {k : Core} (h : s.core? core = some k) (port : Nat) :
    s.groupAt core port = (k.port port).group := by
  unfold State.groupAt; rw [h]; rfl

@[simp] theorem Core.port_setPort (k : Core) (n : Nat) (p : Port) : (k.setPort n p).port n = p := by
  unfold Core.setPort Core.port; split <;> rfl

/-- Settles O37: `advance_spec` says what moving on does to members and port, `Thread.movedOn_moved` that it is what the
statement asks. -/
theorem groupMovesOn : Obligations.GroupMovesOn := by
  unfold Obligations.GroupMovesOn
  intro s c hs p hp u hu
  obtain ⟨hgrp, -, -, -⟩ := ctx?_group hs.ctx
  obtain ⟨hth, -, hcore⟩ := advance_spec s c.grp hgrp
  refine ⟨u.movedOn c.grp s.cur.port s.clk, ?_, Thread.movedOn_moved u c.grp _ _, ?_⟩
  · rw [hth, hu, Option.map_some, if_pos (ths_key hs.ctx hp)]
  · obtain ⟨k, hk, -⟩ := Option.bind_eq_some_iff.mp hgrp
    have hk' := hcore s.cur.core
    rw [hk, Option.map_some, if_pos rfl] at hk'
    rw [groupAt_of_core? hk', Core.port_setPort]
    by_cases h : c.grp.slot + 1 < hdrWords c.grp.hdr
    · rw [if_neg (by omega), if_pos h]
    · rw [if_pos (by omega), if_neg h]; rfl

end Sys2Proof.Machine
end

section
/-! Proof of `Obligations.StepRunsTheDecodedInstruction`: what a port has for execution (`prepare_go`, `presents_prepare`,
`presents_empty`), the turns made of it, and the word that `State.withFetchWord` stores. -/

namespace Sys2Proof.Machine

/-! ### Turns -/

/-- A step takes the head of the agenda where the module has power. -/
theorem step_of_agenda {s : State} {t : Turn} {rest : List Turn} (h : s.agenda = t :: rest) (hp : s.power.powered = true) :
    step s = act t { s with agenda := rest } := by
  unfold step State.nextTurn
  simp [h, hp]

theorem core?_markIssued (s : State) (core n : Nat) :
    (s.markIssued core).core? n = (s.core? n).map (fun c => if n = core then { c with issuedAt := s.clk + 1 } else c) :=
  core?_modCore s core (fun c => { c with issuedAt := s.clk + 1 }) (fun _ => rfl) n

/-! ### What a port has for execution -/

/-- Due results written change registers and the lists of pending results alone. -/
theorem commitDue_only (s : State) (g : Group) : s.commitDue g =
    { s with threads := (s.commitDue g).threads, groups := (s.commitDue g).groups } := by
  unfold State.commitDue
  generalize s.membersOf g = ts
  induction ts generalizing s with
  | nil => rfl
  | cons t r ih => rw [List.foldl_cons, ih, commits_only s t.team t.tid t.dueResults]

theorem mem_membersOf {s : State} {g : Group} {u : Thread} (h : u ∈ s.membersOf g) : ∃ m ∈ g.members, s.thread? g.team m = some u :=
  List.mem_filterMap.mp h

theorem mem_dueResults {u : Thread} {p : Pending} : p ∈ u.dueResults ↔ p ∈ u.pend ∧ p.left = 0 := by
  simp [Thread.dueResults]

/-- Where no result is due nothing is written. -/
theorem commitDue_nothing {s : State} {g : Group}
    (h : ∀ m ∈ g.members, ∀ u, s.thread? g.team m = some u → ∀ p ∈ u.pend, p.left ≠ 0) : s.commitDue g = s := by
  have hd : ∀ t ∈ s.membersOf g, t.dueResults = [] := fun t ht => by
    obtain ⟨m, hm, hu⟩ := mem_membersOf ht
    exact List.eq_nil_iff_forall_not_mem.mpr (fun p hp => h m hm t hu p (mem_dueResults.mp hp).1 (mem_dueResults.mp hp).2)
  unfold State.commitDue
  generalize s.membersOf g = ts at hd
  induction ts with
  | nil => rfl
  | cons t r ih =>
    rw [List.foldl_cons, hd t List.mem_cons_self]
    exact ih (fun x hx => hd x (List.mem_cons_of_mem _ hx))

/-- A port whose group nothing holds has its next word for execution, once the due results are written (R87, R88, R95). -/
theorem prepare_go {s : State} {core port : Nat} {k : Core} {g : Group} {w : DWord} {i : Instr} (ht : s.power.tripped = false)
    (hk : s.core? core = some k) (hg : (k.port port).group = some g) (hn : (k.port port).tile = none)
    (hm : ∀ m ∈ g.members, ∀ u, s.thread? g.team m = some u → u.fence = none ∧ ∀ p ∈ u.pend, p.left = 0 → p.value.isSome = true)
    (hw : g.words[g.slot]? = some w) (hi : decodeWord w = .ok i) :
    s.prepare core port = .go i (({ s with cur := { core := core, port := port } } : State).commitDue g) := by
  have hfence : (s.membersOf g).any (fun t => t.fence.isSome) = false := List.any_eq_false.mpr fun t h => by
    obtain ⟨m, hmm, hu⟩ := mem_membersOf h
    simp [(hm m hmm t hu).1]
  have hdue : ∀ r ∈ (s.membersOf g).flatMap Thread.dueResults, r.value.isNone = false := fun r hr => by
    obtain ⟨t, h, hp⟩ := List.mem_flatMap.mp hr
    obtain ⟨m, hmm, hu⟩ := mem_membersOf h
    obtain ⟨hp1, hp2⟩ := mem_dueResults.mp hp
    simp [(hm m hmm t hu).2 r hp1 hp2]
  have hheld : ((s.membersOf g).flatMap Thread.dueResults).any
      (fun r => State.heldBack { s with cur := { core := core, port := port } } r) = false :=
    List.any_eq_false.mpr fun r hr => by simp [State.heldBack, hdue r hr]
  have hlate : ((s.membersOf g).flatMap Thread.dueResults).any (fun r => r.value.isNone) = false :=
    List.any_eq_false.mpr fun r hr => by simp [hdue r hr]
  have hword : g.words.getD g.slot 0#64 = w := by simp [List.getD_eq_getElem?_getD, hw]
  have hk' : State.core? { s with cur := { core := core, port := port } } core = some k := hk
  have hmem : State.membersOf { s with cur := { core := core, port := port } } g = s.membersOf g := rfl
  unfold State.prepare
  simp only [ht, hk', hmem, Option.map_some, hg, hn, hfence, hheld, hlate, hword, hi, Bool.false_eq_true, if_false, Option.isSome_none, Bool.or_self]

/-- The same where no result is due: only the current port has changed. -/
theorem prepare_quiet {s : State} {core port : Nat} {k : Core} {g : Group} {w : DWord} {i : Instr} (ht : s.power.tripped = false)
    (hk : s.core? core = some k) (hg : (k.port port).group = some g) (hn : (k.port port).tile = none)
    (hm : ∀ m ∈ g.members, ∀ u, s.thread? g.team m = some u → u.fence = none ∧ ∀ p ∈ u.pend, p.left ≠ 0)
    (hw : g.words[g.slot]? = some w) (hi : decodeWord w = .ok i) :
    s.prepare core port = .go i { s with cur := { core := core, port := port } } := by
  rw [prepare_go ht hk hg hn (fun m hmm u hu => ⟨(hm m hmm u hu).1, fun p hp h0 => absurd h0 ((hm m hmm u hu).2 p hp)⟩) hw hi,
    commitDue_nothing (s := { s with cur := { core := core, port := port } }) (fun m hmm u hu => (hm m hmm u hu).2)]

/-- A port that has an instruction for execution presents it: it holds no TILE instruction and no trip has come. -/
theorem presents_prepare {s t : State} {core port : Nat} {i : Instr} (h : s.prepare core port = .go i t) :
    s.presents core port = .go i t := by
  unfold State.presents
  cases htrip : s.power.tripped with
  | true => unfold State.prepare at h; simp [htrip] at h
  | false =>
    cases hk : s.core? core with
    | none => simpa using h
    | some k =>
      cases hn : (k.port port).tile with
      | none => simpa [hn] using h
      | some j =>
        have hk' : State.core? { s with cur := { core := core, port := port } } core = some k := hk
        unfold State.prepare at h
        cases hg : (k.port port).group <;> simp [htrip, hk', hg, hn] at h

/-- A port without a group and without a TILE instruction presents nothing. -/
theorem presents_empty {s : State} {core port : Nat} (h : ∀ k, s.core? core = some k → (k.port port).group = none ∧ (k.port port).tile = none) :
    s.presents core port = .wait { s with cur := { core := core, port := port } } := by
  have hprep : s.prepare core port = .wait { s with cur := { core := core, port := port } } := by
    unfold State.prepare
    cases hk : s.core? core with
    | none =>
      have hk' : State.core? { s with cur := { core := core, port := port } } core = none := hk
      simp [hk']
    | some k =>
      have hk' : State.core? { s with cur := { core := core, port := port } } core = some k := hk
      simp [hk', (h k hk).1]
  have htile : (if s.power.tripped then none else s.core? core).bind (fun c => (c.port port).tile) = none := by
    cases hk : s.core? core with
    | none => simp
    | some k => split <;> simp [(h k hk).2]
  unfold State.presents
  rw [htile]
  exact hprep

/-- Preparing an instruction leaves the clock and the mark of the ports' cycle. -/
theorem prepare_only {s t : State} {core port : Nat} {i : Instr} (h : s.prepare core port = .go i t) :
    t = { s with threads := t.threads, groups := t.groups, cur := { core := core, port := port } } := by
  unfold State.prepare at h
  dsimp only at h
  split at h
  · cases h
  · split at h
    · cases h
    · split at h
      · cases h
      next g _ =>
        split at h
        · cases h
        · split at h
          · cases h
          · split at h
            · cases h
            · split at h
              · cases h
              · cases h
                exact commitDue_only _ g

/-! ### Turns of the ports -/

theorem issue_go {s t : State} {core port : Nat} {i : Instr} (h : s.issuedNow core = false) (hp : s.prepare core port = .go i t)
    (ho : t.outranked core port i = false) : issue core port s = marked core (exec i t) := by
  unfold issue
  simp [h, hp, ho]

/-- Both ports act, and port 1 has nothing: the instruction of port 0 is executed, and port 1 is current after it. -/
theorem issueBoth_alone {s t u : State} {core : Nat} {i : Instr} (h : s.issuedNow core = false) (h0 : s.presents core 0 = .go i t)
    (h1 : ∀ k, t.core? core = some k → k.port1.group = none ∧ k.port1.tile = none)
    (he : exec i { t with cur := { core := core, port := 0 } } = .next u)
    (hu : ∀ k, u.core? core = some k → k.port1.group = none ∧ k.port1.tile = none) :
    issueBoth core s = .next (({ u with cur := { core := core, port := 1 } } : State).markIssued core) := by
  have p1 : t.presents core 1 = .wait { t with cur := { core := core, port := 1 } } := presents_empty h1
  have p2 : u.presents core 1 = .wait { u with cur := { core := core, port := 1 } } := presents_empty hu
  unfold issueBoth
  simp only [h, h0, p1, Bool.false_eq_true, if_false]
  unfold issueFirst
  simp only [he, p2]
  rfl

/-- Both ports have an instruction: the favoured one of two that meet, else both in order (R28, R100). -/
theorem issueBoth_two {s S T : State} {core : Nat} {i j : Instr} (h : s.issuedNow core = false) (h0 : s.presents core 0 = .go i S)
    (h1 : S.presents core 1 = .go j T) : issueBoth core s = marked core
      (if T.unitMeets core i j then (if T.favoured = 0 then exec i { T with cur := { core := core, port := 0 } } else exec j T)
       else if T.firstPort i j = 0 then issuePair core i j T else issueCrossed core i j T) := by
  unfold issueBoth
  simp only [h, h0, h1, Bool.false_eq_true, if_false]

theorem issuePair_both {T t u : State} {core : Nat} {i j : Instr} (hi : exec i { T with cur := { core := core, port := 0 } } = .next t)
    (hg : t.groupAt core 1 = T.groupAt core 1)
    (hj : exec j { t with cur := { core := core, port := 1 }, shadow := some T.snapshot } = .next u) :
    issuePair core i j T = .next { u with shadow := none } := by
  unfold issuePair
  simp only [hi]
  unfold issueSecond
  simp only [hg, hj, if_true]

/-! ### The word that a machine is made to issue (log entry 1) -/

theorem leBytes_length (n x : Nat) : (leBytes n x).length = n := by
  induction n generalizing x with
  | zero => rfl
  | succ n ih => simp [leBytes, ih]

theorem leNat_leBytes (n x : Nat) : leNat (leBytes n x) = x % 256 ^ n := by
  induction n generalizing x with
  | zero => simp [leBytes, leNat, Nat.mod_one]
  | succ n ih =>
    have hc : leNat (leBytes (n + 1) x) = (BitVec.ofNat 8 (x % 256)).toNat + 256 * leNat (leBytes n (x / 256)) := rfl
    rw [hc, ih, BitVec.toNat_ofNat, Nat.mod_mod, Nat.pow_succ, Nat.mul_comm (256 ^ n), Nat.mod_mul]

theorem Memory.writeBytes_append (m : Memory) (a : Nat) (xs ys : List Byte) :
    m.writeBytes a (xs ++ ys) = (m.writeBytes a xs).writeBytes (a + xs.length) ys := by
  induction xs generalizing m a with
  | nil => rfl
  | cons x r ih =>
    rw [List.cons_append, Memory.writeBytes, ih, Memory.writeBytes, List.length_cons]
    congr 1; omega

theorem asidOf_id (s : State) (a : Nat) : (s.asidOf a).id = a := by
  unfold State.asidOf State.asid?
  cases h : s.asids.find? (fun e => e.id == a) with
  | none => rfl
  | some e => simpa using List.find?_some h

/-- The group that issues the loaded word, its thread, and the leaf that maps it. -/
def soleGroup (key : Nat) (w : DWord) : Group :=
  { team := key, role := 0, hdrAddr := BitVec.ofNat 57 loadVa, hdr := soleHeader w, words := [w], slot := 0, limit := 8, members := [0] }
def soleThread (key clk : Nat) (w : DWord) : Thread :=
  { Thread.fresh key 0 0 0 0 0 256 [] (BitVec.ofNat 57 (loadVa + 8)) clk 0 with
    clause := some { hdrAddr := BitVec.ofNat 57 loadVa, hdr := soleHeader w }, status := .inGroup }
def soleLeaf : TlbEntry := { asid := 0, level := 0, vpath := loadVa / 2 ^ 16, pte := BitVec.ofNat 64 (loadPa + 0xB) }

theorem pc_soleThread (key clk : Nat) (w : DWord) : (soleThread key clk w).pc = BitVec.ofNat 57 loadVa + 8#57 := by
  show BitVec.ofNat 57 (loadVa + 8) = _
  decide

/-- The core on whose port 0 the word stands. -/
def Core.loaded (c : Core) (g : Group) : Core :=
  { c with port0 := { group := some g, tile := none, stripe := [] }, port1 := .free, issuedAt := 0, tlb := soleLeaf :: c.tlb }

theorem core?_withClause (s : State) (w : DWord) :
    (s.withClause w).core? 0 = (s.core? 0).map (fun c => c.loaded (soleGroup s.nextId w)) :=
  (core?_modCore s 0 (fun c => c.loaded (soleGroup s.nextId w)) (fun _ => rfl) 0).trans (by simp)

theorem threads_withClause (s : State) (w : DWord) : (s.withClause w).threads = [soleThread s.nextId s.clk w] := rfl

theorem thread?_withClause (s : State) (w : DWord) : (s.withClause w).thread? s.nextId 0 = some (soleThread s.nextId s.clk w) := by
  unfold State.thread?
  rw [threads_withClause, List.find?_cons_of_pos]
  have ht : (soleThread s.nextId s.clk w).team = s.nextId := rfl
  have hi : (soleThread s.nextId s.clk w).tid = 0 := rfl
  simp only [ht, hi, BEq.rfl, Bool.and_self]

/-- The leaf maps the program counter of its thread to the word's place in main memory. -/
theorem translate_withClause {s : State} {k : Core} (w : DWord) (hmin : s.power.minimal = false) (hk : s.core? 0 = some k) :
    ((s.withClause w).translate 0 0 (loadVa + 8)).1 = .page false false true (loadPa + 8) := by
  have hk' := core?_withClause s w
  rw [hk, Option.map_some] at hk'
  have hleaf : tlbFind (k.loaded (soleGroup s.nextId w)).tlb 0 (loadVa + 8) 0 = some soleLeaf.pte := rfl
  have hmin' : (s.withClause w).power.minimal = false := hmin
  unfold State.translate
  simp only [hk']
  unfold walkWith
  rw [asidOf_id, hleaf, hmin']
  have hpte : soleLeaf.pte.getLsbD 0 = true ∧ pteBad false 0 soleLeaf.pte = false ∧ soleLeaf.pte.getLsbD 4 = false ∧
      soleLeaf.pte.getLsbD 2 = false ∧ soleLeaf.pte.getLsbD 3 = true ∧
      soleLeaf.pte.toNat / 4096 % 2 ^ 40 * 4096 + (loadVa + 8) % 2 ^ 16 = loadPa + 8 := by decide
  obtain ⟨hv, hbad, hsys, hwr, hx, hpa⟩ := hpte
  simp only [walkFrom, Option.getD_some, hv, hbad, hsys, hwr, hx, hpa, Bool.not_true, Bool.false_eq_true, if_false]

/-- The word stands in memory where the thread's program counter points. -/
theorem codeWord_withClause {s : State} {k : Core} (w : DWord) (hm : s.memOk) (hmin : s.power.minimal = false) (hk : s.core? 0 = some k) :
    (s.withClause w).codeWord 0 0 (BitVec.ofNat 57 (loadVa + 8)) = some w := by
  have hmain : (s.withClause w).main.readDWord (loadPa + 8) = w := by
    show Memory.readDWord (s.main.writeBytes loadPa (leBytes 8 (soleHeader w).toNat ++ leBytes 8 w.toNat)) (loadPa + 8) = w
    have hr := Memory.readBytes_writeBytes (s.main.writeBytes loadPa (leBytes 8 (soleHeader w).toNat)) (loadPa + 8) (leBytes 8 w.toNat)
      (s.main.writeBytes_wf _ _ hm.main)
    rw [leBytes_length] at hr
    rw [Memory.writeBytes_append, leBytes_length, Memory.readDWord, hr, leNat_leBytes]
    exact BitVec.eq_of_toNat_eq (by rw [BitVec.toNat_ofNat]; have := w.isLt; omega)
  unfold State.codeWord
  rw [show (BitVec.ofNat 57 (loadVa + 8)).toNat = loadVa + 8 from rfl, translate_withClause w hmin hk]
  dsimp only
  rw [hmain]

/-- The machine that `State.withFetchWord` makes of a word of 64 bits. -/
theorem withFetchWord_eq (s : State) (w : DWord) : s.withFetchWord 64 w.toNat = s.withClause w := by
  unfold State.withFetchWord
  congr 1
  exact BitVec.eq_of_toNat_eq (by rw [BitVec.toNat_ofNat]; have := w.isLt; omega)

/-- Core 0's port 0 is current, and no further turn is named. -/
def State.atPort0 (s : State) : State := { s with agenda := [], cur := { core := 0, port := 0 } }

theorem codeWord_atPort0 (s : State) (core asid : Nat) (pc : BitVec 57) : s.atPort0.codeWord core asid pc = s.codeWord core asid pc := rfl

/-- The one turn of port 0 of core 0, where no result is due and port 1 is empty. -/
theorem step_port0 {s : State} {k : Core} {g : Group} {w : DWord} {i : Instr} (ha : s.agenda = [.issue 0 0]) (hp : s.power.powered = true)
    (ht : s.power.tripped = false) (hn : s.issuedNow 0 = false) (hk : s.core? 0 = some k) (hg : k.port0.group = some g) (hv : k.port0.tile = none)
    (h1 : k.port1 = .free) (hm : ∀ m ∈ g.members, ∀ u, s.thread? g.team m = some u → u.fence = none ∧ ∀ p ∈ u.pend, p.left ≠ 0)
    (hw : g.words[g.slot]? = some w) (hi : decodeWord w = .ok i) : step s = marked 0 (exec i s.atPort0) := by
  rw [step_of_agenda ha hp]
  refine issue_go hn (prepare_quiet (s := { s with agenda := [] }) (port := 0) ht hk hg hv hm hw hi) ?_
  unfold State.outranked
  rw [presents_empty (fun x hx => by
    cases hk.symm.trans hx
    exact ⟨congrArg Port.group h1, congrArg Port.tile h1⟩), Bool.and_false]

/-- The turn of the loaded machine executes the word with core 0's port 0 current. -/
theorem step_withClause {s : State} {k : Core} {w : DWord} {i : Instr} (hk : s.core? 0 = some k) (hi : decodeWord w = .ok i) :
    step (s.withClause w) = marked 0 (exec i (s.withClause w).atPort0) := by
  have hk' := core?_withClause s w
  rw [hk, Option.map_some] at hk'
  refine step_port0 rfl rfl rfl ?_ hk' rfl rfl rfl (fun m hm u hu => ?_) rfl hi
  · unfold State.issuedNow
    rw [hk']
    rfl
  · rw [List.mem_singleton.mp hm] at hu
    cases (thread?_withClause s w).symm.trans hu
    exact ⟨rfl, fun p hp => absurd hp List.not_mem_nil⟩

theorem ctx?_withClause {s : State} {k : Core} (w : DWord) (hk : s.core? 0 = some k) :
    (s.withClause w).atPort0.ctx?.map (·.pc) = some (BitVec.ofNat 57 (loadVa + 8)) := by
  have hk' : (s.withClause w).atPort0.core? 0 = _ := core?_withClause s w
  rw [hk, Option.map_some] at hk'
  have hgrp : ((s.withClause w).atPort0.core? 0).bind (fun c => (c.port 0).group) = some (soleGroup s.nextId w) :=
    groupAt_of_core? hk' 0
  have hteam : (s.withClause w).atPort0.team? s.nextId = some (soleTeam s.nextId (s.nextId + 1)) :=
    List.find?_cons_of_pos (by simp [soleTeam])
  have hlaunch : (s.withClause w).atPort0.launch? (s.nextId + 1) = some (soleLaunch (s.nextId + 1)) :=
    List.find?_cons_of_pos (by simp [soleLaunch])
  unfold State.ctx?
  rw [show (s.withClause w).atPort0.cur = { core := 0, port := 0 } from rfl, hgrp]
  dsimp only
  rw [show (soleGroup s.nextId w).team = s.nextId from rfl, hteam]
  dsimp only
  rw [show (soleTeam s.nextId (s.nextId + 1)).launch = s.nextId + 1 from rfl, hlaunch]
  rfl

/-! ### The statement -/

/-- Settles O19: each turn is what `step_of_agenda`, `prepare_go` and the lemmas of the ports' turns make of it; the loaded
machine is `step_withClause`, `ctx?_withClause` and `codeWord_withClause`. -/
theorem stepRunsTheDecodedInstruction : Obligations.StepRunsTheDecodedInstruction := by
  unfold Obligations.StepRunsTheDecodedInstruction
  refine ⟨?issue, ?marked, ?alone, ?both, ?event, ?load⟩
  case issue =>
    intro s core port rest k g w i S ha hp ht hn hk hg hv hm hw hi hS ho
    subst hS
    refine ⟨?_, fun hleft => commitDue_nothing hleft⟩
    rw [step_of_agenda ha hp]
    exact issue_go hn (prepare_go (s := { s with agenda := rest }) ht hk hg hv hm hw hi) ho
  case marked =>
    refine fun core t => ⟨rfl, fun n c hc => ?_⟩
    rw [core?_markIssued, hc, Option.map_some]
  case alone =>
    intro s core rest k g w i ha hp ht hn hk hg hv hg1 hv1 hm hw hi t he hu
    have hgo := prepare_quiet (s := { s with agenda := rest }) (port := 0) ht hk hg hv hm hw hi
    rw [step_of_agenda ha hp]
    exact issueBoth_alone hn (presents_prepare hgo) (fun x hx => by cases hk.symm.trans hx; exact ⟨hg1, hv1⟩) he hu
  case both =>
    intro s core rest i j S T t u ha hp hn h0 h1
    have hclk : T.clk = s.clk := by rw [prepare_only h1, prepare_only h0]
    rw [step_of_agenda ha hp]
    have hb := issueBoth_two (s := { s with agenda := rest }) hn (presents_prepare h0) (presents_prepare h1)
    refine ⟨fun hu => ?_, fun hu hf hi hg hj => ?_⟩
    · refine hb.trans ?_
      rw [if_pos hu, State.favoured, hclk]
    · refine hb.trans ?_
      rw [hu, if_neg (by simp), if_pos hf, issuePair_both hi hg hj]
      rfl
  case event =>
    intro s e rest ha hp he
    rw [step_of_agenda ha hp]
    exact if_pos he
  case load =>
    intro s k w i hm hmin _ hk hi
    rw [withFetchWord_eq]
    refine ⟨(s.withClause w).atPort0, soleThread s.nextId s.clk w, { hdrAddr := BitVec.ofNat 57 loadVa, hdr := soleHeader w },
      step_withClause hk hi, rfl, threads_withClause s w, rfl, pc_soleThread s.nextId s.clk w, ctx?_withClause w hk, ?_⟩
    rw [codeWord_atPort0]
    exact codeWord_withClause w hm hmin hk

end Sys2Proof.Machine
end

section
/-! What settling does to a machine of which no team has come to its end: samples, trace records, retired home groups and
watchdog counts may differ, and nothing else (`settle_calm`, R139, R302, R310). -/

namespace Sys2Proof.Machine

/-! ### Tables under a map that keeps their keys -/

theorem find?_map_key {α : Type} (p : α → Bool) (f : α → α) (l : List α) (hk : ∀ x, p (f x) = p x) :
    (l.map f).find? p = (l.find? p).map f := by
  rw [List.find?_map, show p ∘ f = p from funext hk]

/-- The home group has a thread that has not exited. -/
def State.hgLive (s : State) (g : HomeGroup) : Prop := ∃ u ∈ s.threads, u.inHg g.team g.role g.idx = true ∧ u.hasExited = false

/-- From `s` to `t` only records of traces and samples, watchdog counts, and which home groups without a live thread have
retired may have changed. -/
structure State.Calm (s t : State) : Prop where
  state : t = { s with cores := t.cores, groups := t.groups, teams := t.teams, freeCount := t.freeCount }
  teams : ∃ f : Team → Team, t.teams = s.teams.map f ∧ ∀ x, ∃ n, f x = { x with wdog := n }
  groups : ∃ f : HomeGroup → HomeGroup, t.groups = s.groups.map f ∧ ∀ g, ∃ b, f g = { g with retired := b } ∧ (s.hgLive g → b = g.retired)
  cores : ∃ f : Core → Core, t.cores = s.cores.map f ∧ ∀ c, ∃ tr sm, f c = { c with trace := tr, samples := sm }

namespace State.Calm

theorem same_teams (s : State) : ∃ f : Team → Team, s.teams = s.teams.map f ∧ ∀ x, ∃ n, f x = { x with wdog := n } :=
  ⟨id, by simp, fun x => ⟨x.wdog, rfl⟩⟩

theorem same_groups (s : State) : ∃ f : HomeGroup → HomeGroup, s.groups = s.groups.map f ∧
    ∀ g, ∃ b, f g = { g with retired := b } ∧ (s.hgLive g → b = g.retired) :=
  ⟨id, by simp, fun g => ⟨g.retired, rfl, fun _ => rfl⟩⟩

theorem same_cores (s : State) : ∃ f : Core → Core, s.cores = s.cores.map f ∧ ∀ c, ∃ tr sm, f c = { c with trace := tr, samples := sm } :=
  ⟨id, by simp, fun c => ⟨c.trace, c.samples, rfl⟩⟩

theorem refl (s : State) : s.Calm s := ⟨rfl, same_teams s, same_groups s, same_cores s⟩

theorem threads {s t : State} (h : s.Calm t) : t.threads = s.threads := by rw [h.state]

theorem trans {s t u : State} (h : s.Calm t) (k : t.Calm u) : s.Calm u := by
  have hth := h.threads
  obtain ⟨est', ⟨f', ef', hf'⟩, ⟨g', eg', hg'⟩, c', ec', hc'⟩ := k
  obtain ⟨est, ⟨f, ef, hf⟩, ⟨g, eg, hg⟩, c, ec, hc⟩ := h
  refine ⟨by rw [est', est], ⟨f' ∘ f, by rw [ef', ef, List.map_map], fun x => ?_⟩, ⟨g' ∘ g, by rw [eg', eg, List.map_map], fun x => ?_⟩,
    c' ∘ c, by rw [ec', ec, List.map_map], fun x => ?_⟩
  · obtain ⟨n, e⟩ := hf x
    obtain ⟨n', e'⟩ := hf' (f x)
    exact ⟨n', e'.trans (by rw [e])⟩
  · obtain ⟨b, e, hb⟩ := hg x
    obtain ⟨b', e', hb'⟩ := hg' (g x)
    refine ⟨b', e'.trans (by rw [e]), fun hl => (hb' ?_).trans ((congrArg HomeGroup.retired e).trans (hb hl))⟩
    unfold State.hgLive
    rw [hth, e]
    exact hl
  · obtain ⟨tr, sm, e⟩ := hc x
    obtain ⟨tr', sm', e'⟩ := hc' (c x)
    exact ⟨tr', sm', e'.trans (by rw [e])⟩

/-- Steps that are calm are calm together. -/
theorem foldl {α : Type} {f : State → α → State} (hf : ∀ (s : State) a, s.Calm (f s a)) (l : List α) (s : State) : s.Calm (l.foldl f s) := by
  induction l generalizing s with
  | nil => exact .refl s
  | cons a r ih => exact (hf s a).trans (ih (f s a))

theorem thread? {s t : State} (h : s.Calm t) (team tid : Nat) : t.thread? team tid = s.thread? team tid := by
  unfold State.thread?; rw [h.threads]

theorem team? {s t : State} (h : s.Calm t) {key : Nat} {x : Team} (hx : s.team? key = some x) : ∃ n, t.team? key = some { x with wdog := n } := by
  obtain ⟨f, ef, hf⟩ := h.teams
  obtain ⟨n, e⟩ := hf x
  refine ⟨n, ?_⟩
  unfold State.team? at hx ⊢
  rw [ef, find?_map_key _ f _ (fun y => by obtain ⟨m, em⟩ := hf y; rw [em]), hx, Option.map_some, e]

theorem team?_none {s t : State} (h : s.Calm t) {key : Nat} (hx : s.team? key = none) : t.team? key = none := by
  obtain ⟨f, ef, hf⟩ := h.teams
  unfold State.team? at hx ⊢
  rw [ef, find?_map_key _ f _ (fun y => by obtain ⟨m, em⟩ := hf y; rw [em]), hx, Option.map_none]

theorem core? {s t : State} (h : s.Calm t) {n : Nat} {c : Core} (hc : s.core? n = some c) :
    ∃ tr sm, t.core? n = some { c with trace := tr, samples := sm } := by
  obtain ⟨f, ef, hf⟩ := h.cores
  obtain ⟨tr, sm, e⟩ := hf c
  refine ⟨tr, sm, ?_⟩
  unfold State.core? at hc ⊢
  rw [ef, find?_map_key _ f _ (fun y => by obtain ⟨a, b, em⟩ := hf y; rw [em]), hc, Option.map_some, e]

theorem hg? {s t : State} (h : s.Calm t) {team role idx : Nat} {g : HomeGroup} (hg : s.hg? team role idx = some g) :
    ∃ b, t.hg? team role idx = some { g with retired := b } := by
  obtain ⟨f, ef, hf⟩ := h.groups
  obtain ⟨b, e, -⟩ := hf g
  refine ⟨b, ?_⟩
  unfold State.hg? at hg ⊢
  rw [ef, find?_map_key _ f _ (fun y => by obtain ⟨m, em, -⟩ := hf y; rw [em]), hg, Option.map_some, e]

theorem sameRows {s t : State} (h : s.Calm t) : s.sameRows t := fun _ _ _ _ hg => by
  obtain ⟨b, e⟩ := h.hg? hg
  exact ⟨_, e, rfl⟩

theorem memOf {s t : State} (h : s.Calm t) (x : Space) : t.memOf x = s.memOf x := by
  cases x with
  | lsm team =>
    unfold State.memOf
    cases hx : s.team? team with
    | none => simp only [h.team?_none hx, hx]
    | some y =>
      obtain ⟨n, e⟩ := h.team? hx
      simp only [e, hx]
  | dsm => show t.dsm = s.dsm; rw [h.state]
  | main => show t.main = s.main; rw [h.state]
  | sys => show t.sys = s.sys; rw [h.state]

theorem sameMemory {s t : State} (h : s.Calm t) : s.sameMemory t := fun l n => by
  unfold State.memRead; rw [h.memOf]

theorem allLive {s t : State} (h : s.Calm t) (hl : s.allLive) : t.allLive := by
  obtain ⟨f, ef, hf⟩ := h.teams
  obtain ⟨k, ek, hk⟩ := h.groups
  intro x hx
  rw [ef] at hx
  obtain ⟨y, hy, rfl⟩ := List.mem_map.mp hx
  obtain ⟨n, en⟩ := hf y
  obtain ⟨g, hg, hteam, hret, hu⟩ := hl y hy
  obtain ⟨b, eb, hb⟩ := hk g
  refine ⟨k g, ek ▸ List.mem_map_of_mem hg, ?_, ?_, ?_⟩
  · rw [eb, en]; exact hteam
  · rw [eb]; exact (hb hu).trans hret
  · rw [h.threads, eb]; exact hu

/-! ### The steps of settling -/

theorem modCore (s : State) (n : Nat) (f : Core → Core) (hf : ∀ c, ∃ tr sm, f c = { c with trace := tr, samples := sm }) :
    s.Calm (s.modCore n f) := by
  refine ⟨rfl, same_teams s, same_groups s, fun c => if c.id == n then f c else c, rfl, fun c => ?_⟩
  dsimp only
  split
  · exact hf c
  · exact ⟨c.trace, c.samples, rfl⟩

theorem trace (s : State) (core ty : Nat) (body : List Byte) : s.Calm (s.trace core ty body) := by
  unfold State.trace
  split
  · exact .refl s
  · split
    · exact modCore s core _ (fun c => ⟨_, c.samples, rfl⟩)
    · refine modCore s core _ (fun c => ?_)
      dsimp only
      split <;> exact ⟨_, c.samples, rfl⟩

theorem progress (s : State) (key : Nat) : s.Calm (s.modTeam key Team.progress) := by
  refine ⟨rfl, ⟨fun x => if x.key == key then x.progress else x, rfl, fun x => ?_⟩, same_groups s, same_cores s⟩
  dsimp only [Team.progress]
  split
  · split
    · exact ⟨x.wdog, rfl⟩
    · exact ⟨0, rfl⟩
  · exact ⟨x.wdog, rfl⟩

theorem countFree (s : State) (n : Nat) : s.Calm { s with freeCount := n } := ⟨rfl, same_teams s, same_groups s, same_cores s⟩

/-- A home group retires whose threads have all exited. -/
theorem retire (s : State) (team role idx : Nat) (h : ∀ u ∈ s.threads, u.inHg team role idx = true → u.hasExited = true) :
    s.Calm (s.modHg team role idx (fun g => { g with retired := true })) := by
  refine ⟨rfl, same_teams s, ⟨fun g => if g.team == team && g.role == role && g.idx == idx then { g with retired := true } else g, rfl, fun g => ?_⟩,
    same_cores s⟩
  dsimp only
  split
  next hq =>
    simp only [Bool.and_eq_true, beq_iff_eq] at hq
    obtain ⟨⟨rfl, rfl⟩, rfl⟩ := hq
    refine ⟨true, rfl, fun ⟨u, hu, hin, hex⟩ => ?_⟩
    rw [h u hu hin] at hex
    cases hex
  next => exact ⟨g.retired, rfl, fun _ => rfl⟩

theorem flushSamples (s : State) : s.Calm s.flushSamples := by
  unfold State.flushSamples
  split
  · exact .refl s
  · refine foldl (fun s c => ?_) _ s
    refine (modCore s c.id _ (fun c => ⟨c.trace, _, rfl⟩)).trans (foldl (fun s x => ?_) _ _)
    dsimp only
    split
    · exact .refl s
    · exact (trace s _ _ _).trans (countFree _ _)

theorem retireGroups (s : State) : s.Calm s.retireGroups := by
  unfold State.retireGroups
  refine foldl (fun s g => ?_) _ s
  dsimp only
  split
  next hall =>
    have hex : ∀ u ∈ s.threads, u.inHg g.team g.role g.idx = true → u.hasExited = true := fun u hu hin => by
      have := List.all_eq_true.mp hall u (List.mem_filter.mpr ⟨hu, hin⟩)
      exact (Bool.and_eq_true_iff.mp this).1
    have h2 := (retire s g.team g.role g.idx hex).trans (progress _ g.team)
    split
    · exact h2
    · exact h2.trans (trace _ _ _ _)
  next => exact .refl s

end State.Calm

/-- No team retires that has a home group which has not (R139). -/
theorem retireTeams_live {s : State} (h : s.allLive) : s.retireTeams = s := by
  unfold State.retireTeams
  refine if_pos (List.isEmpty_iff.mpr (List.filter_eq_nil_iff.mpr fun x hx => ?_))
  obtain ⟨g, hg, hteam, hret, -⟩ := h x hx
  have : s.groups.all (fun g => g.team != x.key || g.retired) = false :=
    List.all_eq_false.mpr ⟨g, hg, by simp [hteam, hret]⟩
  simp [this]

/-- Settling a machine whose teams all live changes nothing but what `State.Calm` names. -/
theorem settle_calm {s : State} (h : s.allLive) : s.Calm s.settle := by
  have hc := (State.Calm.flushSamples s).trans (State.Calm.retireGroups _)
  unfold State.settle
  rw [retireTeams_live (hc.allLive h)]
  exact hc

end Sys2Proof.Machine
end

section
/-! Proof of `Obligations.SchedulerChoosesAGroup`: what fetching leaves (`fetchWord_tlb`), the group that a choice seats
(`choose_seats`), and the end of a cycle (`tick_quiet`). -/

namespace Sys2Proof.Machine

/-! ### Fetching a clause (R67, R68) -/

/-- The state with another list of threads, which a fetch does not look at. -/
def State.withThreads (s : State) (ts : List Thread) : State := { s with threads := ts }

/-- From `s` to `t` only translation caches may have changed (R285). -/
structure State.OnlyTlb (s t : State) : Prop where
  state : t = { s with cores := t.cores }
  core? : ∀ n c, s.core? n = some c → ∃ tl, t.core? n = some { c with tlb := tl }

theorem State.OnlyTlb.refl (s : State) : s.OnlyTlb s := ⟨rfl, fun _ c hc => ⟨c.tlb, hc⟩⟩

theorem State.OnlyTlb.trans {s t u : State} (h : s.OnlyTlb t) (k : t.OnlyTlb u) : s.OnlyTlb u := by
  refine ⟨by rw [k.state, h.state], fun n c hc => ?_⟩
  obtain ⟨tl, e⟩ := h.core? n c hc
  obtain ⟨tl', e'⟩ := k.core? n _ e
  exact ⟨tl', e'⟩

theorem translate_tlb (s : State) (core asid va : Nat) : s.OnlyTlb (s.translate core asid va).2 := by
  unfold State.translate
  dsimp only
  generalize walkWith _ _ _ _ va = r
  by_cases hr : r.2.isEmpty = true
  · simp only [hr, if_true]
    exact .refl s
  · simp only [hr, Bool.false_eq_true, if_false]
    refine ⟨rfl, fun n c hc => ?_⟩
    rw [core?_modCore s core (fun c => { c with tlb := r.2 ++ c.tlb }) (fun _ => rfl), hc, Option.map_some]
    split
    · exact ⟨_, rfl⟩
    · exact ⟨c.tlb, rfl⟩

theorem translate_withThreads (s : State) (ts : List Thread) (core asid va : Nat) :
    (s.withThreads ts).translate core asid va = ((s.translate core asid va).1, (s.translate core asid va).2.withThreads ts) := by
  have hcore : (s.withThreads ts).core? core = s.core? core := rfl
  have hasid : (s.withThreads ts).asidOf asid = s.asidOf asid := rfl
  have hmem : (s.withThreads ts).main = s.main ∧ (s.withThreads ts).power = s.power := ⟨rfl, rfl⟩
  unfold State.translate
  rw [hcore, hasid, hmem.1, hmem.2]
  dsimp only
  generalize walkWith _ _ _ _ va = r
  by_cases hr : r.2.isEmpty = true
  · simp only [hr, if_true]
  · simp only [hr, Bool.false_eq_true, if_false]
    rfl

theorem fetchWord_tlb (s : State) (core asid : Nat) (pc : BitVec 57) : s.OnlyTlb (s.fetchWord core asid pc).2 := translate_tlb s core asid pc.toNat

theorem fetchWord_withThreads (s : State) (ts : List Thread) (core asid : Nat) (pc : BitVec 57) :
    (s.withThreads ts).fetchWord core asid pc = ((s.fetchWord core asid pc).1, (s.fetchWord core asid pc).2.withThreads ts) := by
  unfold State.fetchWord
  rw [translate_withThreads]
  rfl

theorem fetchWords_tlb (s : State) (core asid : Nat) (pc : BitVec 57) (n : Nat) : s.OnlyTlb (s.fetchWords core asid pc n).2 := by
  induction n generalizing s pc with
  | zero => exact .refl s
  | succ n ih =>
    have h1 := fetchWord_tlb s core asid pc
    unfold State.fetchWords
    split
    next w t e =>
      rw [e] at h1
      have h2 := ih t (pc + 8#57)
      split
      next ws u e2 => rw [e2] at h2; exact h1.trans h2
      next x u e2 => rw [e2] at h2; exact h1.trans h2
    next x t e => rw [e] at h1; exact h1

theorem fetchWords_withThreads (s : State) (ts : List Thread) (core asid : Nat) (pc : BitVec 57) (n : Nat) :
    (s.withThreads ts).fetchWords core asid pc n = ((s.fetchWords core asid pc n).1, (s.fetchWords core asid pc n).2.withThreads ts) := by
  induction n generalizing s pc with
  | zero => rfl
  | succ n ih =>
    unfold State.fetchWords
    rw [fetchWord_withThreads]
    rcases hf : s.fetchWord core asid pc with ⟨x, t⟩
    cases x with
    | word w =>
      dsimp only
      rw [ih t]
      rcases hg : t.fetchWords core asid (pc + 8#57) n with ⟨y, u⟩
      cases y <;> rfl
    | missing => rfl
    | protection => rfl
    | bad => rfl

/-! ### Seating a group (R36, R38, R73) -/

/-- The state in which a group's clause has been fetched. -/
def State.fetched (s : State) (core asid : Nat) (at_ : BitVec 57) (n : Nat) : State :=
  ((s.fetchWord core asid at_).2.fetchWords core asid (at_ + 8#57) n).2

theorem fetched_tlb (s : State) (core asid : Nat) (at_ : BitVec 57) (n : Nat) : s.OnlyTlb (s.fetched core asid at_ n) :=
  (fetchWord_tlb s core asid at_).trans (fetchWords_tlb _ core asid _ n)

theorem fetched_withThreads (s : State) (ts : List Thread) (core asid : Nat) (at_ : BitVec 57) (n : Nat) :
    (s.withThreads ts).fetched core asid at_ n = (s.fetched core asid at_ n).withThreads ts := by
  unfold State.fetched
  rw [fetchWord_withThreads, fetchWords_withThreads]

/-- Where a thread's clause begins and the slot at which it goes on. -/
theorem resume_slot {a : Thread} {at_ : BitVec 57} {slot : Nat} (h0 : a.clause = none → at_ = a.pc ∧ slot = 0)
    (h1 : ∀ c, a.clause = some c → at_ = c.hdrAddr ∧ a.pc = at_ + BitVec.ofNat 57 (8 * (slot + 1)) ∧ 8 * (slot + 1) < 2 ^ 57) :
    (a.clause.map (·.hdrAddr)).getD a.pc = at_ ∧ (if a.clause.isSome then (a.pc - at_).toNat / 8 - 1 else 0) = slot := by
  cases hc : a.clause with
  | none =>
    obtain ⟨e, e0⟩ := h0 hc
    exact ⟨e.symm, e0.symm⟩
  | some c =>
    obtain ⟨e, epc, hlt⟩ := h1 c hc
    refine ⟨e.symm, ?_⟩
    have : (a.pc - at_).toNat = 8 * (slot + 1) := by
      rw [epc, BitVec.add_comm, BitVec.add_sub_cancel, BitVec.toNat_ofNat, Nat.mod_eq_of_lt hlt]
    simp only [Option.isSome_some, if_true, this]
    omega

/-- A group whose clause can be fetched and passes its check takes the port, at the slot at which its lead goes on. -/
theorem startGroup_seats {s : State} {core port limit : Nat} {l : Launch} {a : Thread} {ms : List Thread} {at_ : BitVec 57} {slot : Nat}
    {hw : DWord} {ws : List DWord} (hat : (a.clause.map (·.hdrAddr)).getD a.pc = at_)
    (hslot : (if a.clause.isSome then (a.pc - at_).toNat / 8 - 1 else 0) = slot)
    (hf : (s.fetchWord core l.asid at_).1 = .word hw) (hok : hdrOk hw = true)
    (hfs : ((s.fetchWord core l.asid at_).2.fetchWords core l.asid (at_ + 8#57) (hdrWords hw)).1 = .ok ws)
    (hc : clauseOk hw ws = true) (hs : slot < hdrWords hw) :
    s.startGroup core port limit l a ms = (s.fetched core l.asid at_ (hdrWords hw)).seat core port
      { team := a.team, role := a.role, hdrAddr := at_, hdr := hw, words := ws, slot := slot, limit := limit, members := ms.map (·.tid) } := by
  unfold State.startGroup State.fetched
  dsimp only
  rw [hat, hslot]
  rcases h1 : s.fetchWord core l.asid at_ with ⟨x, t⟩
  rw [h1] at hf hfs
  cases hf
  rcases h2 : t.fetchWords core l.asid (at_ + 8#57) (hdrWords hw) with ⟨y, u⟩
  rw [h2] at hfs
  cases hfs
  simp only [h2, hok, hc, hs, decide_true, Bool.and_self, Bool.not_true, Bool.false_eq_true, if_false, if_true]

/-- A thread seated in a group stands at the word of the group's slot; only where it stands and what it knows has changed. -/
def Thread.seated (u : Thread) (g : Group) (next : Nat) : Thread :=
  { (u.meetsXfw g.hdr next) with
    status := .inGroup, pc := g.hdrAddr + BitVec.ofNat 57 (8 * (g.slot + 1)), clause := some { hdrAddr := g.hdrAddr, hdr := g.hdr }, waitsMet := false }

theorem Thread.meetsXfw_only (u : Thread) (h : DWord) (next : Nat) : ∃ k, u.meetsXfw h next = { u with know := k } := by
  unfold Thread.meetsXfw
  split
  · exact ⟨_, rfl⟩
  · exact ⟨u.know, rfl⟩

theorem Thread.seated_only (u : Thread) (g : Group) (next : Nat) : ∃ k, u.seated g next = { u with
    know := k, status := .inGroup, pc := g.hdrAddr + BitVec.ofNat 57 (8 * (g.slot + 1)), clause := some { hdrAddr := g.hdrAddr, hdr := g.hdr }, waitsMet := false } := by
  obtain ⟨k, e⟩ := u.meetsXfw_only g.hdr next
  exact ⟨k, by unfold Thread.seated; rw [e]⟩

theorem thread?_seat (s : State) (core port : Nat) (g : Group) (team tid : Nat) : (s.seat core port g).thread? team tid =
    (s.thread? team tid).map (fun u => if team = g.team ∧ tid ∈ g.members then u.seated g s.nextId else u) := by
  refine thread?_modThreads s g.team g.members (fun u => u.seated g s.nextId) (fun u => ?_) team tid
  obtain ⟨k, e⟩ := u.seated_only g s.nextId
  dsimp only
  rw [e]
  exact ⟨rfl, rfl⟩

theorem core?_seat (s : State) (core port : Nat) (g : Group) (n : Nat) : (s.seat core port g).core? n =
    (s.core? n).map (fun c => if n = core then c.setPort port { group := some g, tile := none, stripe := [] } else c) :=
  core?_modCore _ core _ (fun c => by unfold Core.setPort; split <;> rfl) n

/-- A thread gives up its yield mark at a port (R71). -/
def Thread.unyield (u : Thread) (port : Nat) : Thread := if port = 0 then { u with yield0 := false } else { u with yield1 := false }

theorem Thread.unyield_only (u : Thread) (port : Nat) : ∃ a b, u.unyield port = { u with yield0 := a, yield1 := b } := by
  unfold Thread.unyield
  split
  · exact ⟨_, u.yield1, rfl⟩
  · exact ⟨u.yield0, _, rfl⟩

/-- The threads after a choice at a port of a core: none of the core's keeps its yield mark there. -/
def State.unyielded (s : State) (core port : Nat) : List Thread :=
  updWhere (fun t => s.coreOf t.team == some core) (fun t => t.unyield port) s.threads

/-- The group of a lead thread: those of the core's ready threads that R38 joins with it, at a slot of a clause. -/
def State.leadGroup (s : State) (k : Core) (a : Thread) (limit : Nat) (at_ : BitVec 57) (hw : DWord) (ws : List DWord) (slot : Nat) : Group :=
  { team := a.team, role := a.role, hdrAddr := at_, hdr := hw, words := ws, slot := slot, limit := limit,
    members := (formGroup limit a (s.threads.filter (fun u => s.isReady? k u))).map (·.tid) }

/-- The choice seats the group of the lead thread (R37, R38). -/
theorem choose_seats {s : State} {core port : Nat} {k : Core} {a : Thread} {x : Team} {l : Launch} {hw : DWord} {ws : List DWord} {at_ : BitVec 57} {slot : Nat}
    (hk : s.core? core = some k) (hwait : k.waiting = []) (hlead : s.lead port (s.threads.filter (fun u => s.isReady? k u)) = some a)
    (hx : s.team? a.team = some x) (hl : s.launch? x.launch = some l) (hat : (a.clause.map (·.hdrAddr)).getD a.pc = at_)
    (hslot : (if a.clause.isSome then (a.pc - at_).toNat / 8 - 1 else 0) = slot)
    (hf : (s.fetchWord core l.asid at_).1 = .word hw) (hok : hdrOk hw = true)
    (hfs : ((s.fetchWord core l.asid at_).2.fetchWords core l.asid (at_ + 8#57) (hdrWords hw)).1 = .ok ws)
    (hc : clauseOk hw ws = true) (hs : slot < hdrWords hw) :
    s.choose k port = ((s.fetched core l.asid at_ (hdrWords hw)).withThreads (s.unyielded core port)).seat core port
      (s.leadGroup k a (x.limit a.role) at_ hw ws slot) := by
  have hid : k.id = core := by simpa using List.find?_some hk
  have hwhole : (fun t => !k.heldWhole t) = fun _ => true := funext fun t => by simp [Core.heldWhole, hwait]
  have hstart := startGroup_seats (s := s.withThreads (s.unyielded core port)) (port := port) (limit := x.limit a.role)
    (ms := formGroup (x.limit a.role) a (s.threads.filter (fun u => s.isReady? k u))) (l := l) (core := core) hat hslot
    (by rw [fetchWord_withThreads]; exact hf) hok (by rw [fetchWord_withThreads, fetchWords_withThreads]; exact hfs) hc hs
  rw [fetched_withThreads] at hstart
  unfold State.choose
  simp only [hlead, hwait, List.find?_nil, hid, hwhole, List.filter_true]
  rw [show State.team? (s.mapThreads (fun t => s.coreOf t.team == some core) (fun t => if port = 0 then { t with yield0 := false } else { t with yield1 := false })) a.team = some x from hx]
  dsimp only
  rw [show State.launch? (s.mapThreads (fun t => s.coreOf t.team == some core) (fun t => if port = 0 then { t with yield0 := false } else { t with yield1 := false })) x.launch = some l from hl]
  exact hstart

/-- A choice on a ready core without waiting groups and without due traps, for a port that may choose. -/
theorem execSchedulerChoice_chooses {s : State} {core port : Nat} {k : Core} (hr : s.coreReady core = true) (hk : s.core? core = some k)
    (hwait : k.waiting = []) (hconv : ∀ u ∈ s.threads, u.convDue = none) (hfree : (k.port port).group = none)
    (hport : port = 0 ∨ port = 1 ∧ k.port0.group.isSome = true) : execSchedulerChoice core port s = .next (s.choose k port).settle := by
  have hwake : s.wakeGroups core = s := by
    unfold State.wakeGroups
    rw [hk]
    dsimp only
    rw [hwait]
    rfl
  have htraps : s.convTraps core = s := by
    have : s.threads.filter (fun t => t.status == .ready && t.clause.isNone && t.convDue.isSome && s.coreOf t.team == some core) = [] :=
      List.filter_eq_nil_iff.mpr fun u hu => by simp [hconv u hu]
    unfold State.convTraps
    rw [this]
    rfl
  have hsmall : decide (port ≥ 2) = false := by simp; omega
  have hfirst : (port != 0 && k.port0.group.isNone && s.threads.any (fun t => s.isReady? k t)) = false := by
    rcases hport with rfl | ⟨-, h0⟩
    · rfl
    · rw [Option.isNone_eq_false_iff.mpr h0, Bool.and_false, Bool.false_and]
  unfold execSchedulerChoice
  simp only [hr, hwake, htraps, hk, hfree, hsmall, hfirst, Bool.not_true, Bool.false_eq_true, if_false, Option.isSome_none, Bool.or_self]

/-- Teams live on where no home group goes and every thread keeps its home group and does not exit. -/
theorem allLive_of_threads {s t : State} (h : s.allLive) (ht : t.teams = s.teams) (hg : t.groups = s.groups)
    (hu : ∀ u ∈ s.threads, u.hasExited = false → ∃ u' ∈ t.threads, u'.team = u.team ∧ u'.role = u.role ∧ u'.hg = u.hg ∧ u'.hasExited = false) :
    t.allLive := by
  intro x hx
  obtain ⟨g, hgm, hteam, hret, u, hum, hin, hex⟩ := h x (ht ▸ hx)
  obtain ⟨u', hum', e1, e2, e3, hex'⟩ := hu u hum hex
  exact ⟨g, hg ▸ hgm, hteam, hret, u', hum', by unfold Thread.inHg at hin ⊢; rw [e1, e2, e3]; exact hin, hex'⟩

/-- Seating a group after a fetch keeps every team alive. -/
theorem seat_allLive {s f : State} {core port : Nat} {g : Group} (h : s.allLive) (hf : s.OnlyTlb f) :
    ((f.withThreads (s.unyielded core port)).seat core port g).allLive := by
  refine allLive_of_threads h (by rw [hf.state]; rfl) (by rw [hf.state]; rfl) (fun u hu hex => ?_)
  have hmem : ∀ (p : Thread → Bool) (m : Thread → Thread) (ts : List Thread) (v : Thread), v ∈ ts → (if p v then m v else v) ∈ updWhere p m ts :=
    fun p m ts v hv => List.mem_map.mpr ⟨v, hv, rfl⟩
  refine ⟨_, hmem _ _ _ _ (hmem _ _ _ u hu), ?_⟩
  have hy : ∃ a b, (if s.coreOf u.team == some core then u.unyield port else u) = { u with yield0 := a, yield1 := b } := by
    split
    · exact u.unyield_only port
    · exact ⟨u.yield0, u.yield1, rfl⟩
  obtain ⟨a, b, ey⟩ := hy
  rw [ey]
  dsimp only
  split
  · obtain ⟨kn, e⟩ := Thread.meetsXfw_only { u with yield0 := a, yield1 := b } g.hdr (f.withThreads (s.unyielded core port)).nextId
    rw [e]
    exact ⟨rfl, rfl, rfl, rfl⟩
  · exact ⟨rfl, rfl, rfl, hex⟩

/-- A thread after a choice: seated where it is a member, and otherwise as before but for its yield marks. -/
theorem thread?_seat_unyielded {s f : State} {core port : Nat} {g : Group} {tid : Nat} {u : Thread}
    (hu : s.thread? g.team tid = some u) : ∃ u', ((f.withThreads (s.unyielded core port)).seat core port g).thread? g.team tid = some u' ∧
      u'.v = u.v ∧ u'.p = u.p ∧
      (tid ∈ g.members → u'.status = .inGroup ∧ u'.pc = g.hdrAddr + BitVec.ofNat 57 (8 * (g.slot + 1)) ∧ u'.clause = some { hdrAddr := g.hdrAddr, hdr := g.hdr }) ∧
      (tid ∉ g.members → u'.status = u.status ∧ u'.pc = u.pc) := by
  have hy : ∃ a b, (f.withThreads (s.unyielded core port)).thread? g.team tid = some { u with yield0 := a, yield1 := b } := by
    have h := thread?_updWhere s (fun t => s.coreOf t.team == some core) (fun t => t.unyield port)
      (fun x => by obtain ⟨a, b, e⟩ := x.unyield_only port; dsimp only; rw [e]; exact ⟨rfl, rfl⟩) g.team tid
    rw [hu, Option.map_some] at h
    split at h
    · obtain ⟨a, b, e⟩ := u.unyield_only port
      exact ⟨a, b, by rw [← e]; exact h⟩
    · exact ⟨u.yield0, u.yield1, h⟩
  obtain ⟨a, b, hy⟩ := hy
  rw [thread?_seat, hy, Option.map_some]
  by_cases hm : tid ∈ g.members
  · rw [if_pos ⟨rfl, hm⟩]
    obtain ⟨kn, e⟩ := Thread.seated_only { u with yield0 := a, yield1 := b } g (f.withThreads (s.unyielded core port)).nextId
    exact ⟨_, rfl, by rw [e], by rw [e], fun _ => by rw [e]; exact ⟨rfl, rfl, rfl⟩, fun h => absurd hm h⟩
  · rw [if_neg (fun h => hm h.2)]
    exact ⟨_, rfl, rfl, rfl, fun h => absurd h hm, fun _ => ⟨rfl, rfl⟩⟩

/-! ### The end of a cycle (R302, R305) -/

theorem updWhere_none {α : Type} {p : α → Bool} (f : α → α) {l : List α} (h : ∀ x ∈ l, p x = false) : updWhere p f l = l := by
  unfold updWhere
  conv_rhs => rw [← List.map_id l]
  exact List.map_congr_left fun x hx => by simp [h x hx]

/-- A core that waits for nothing and has no records to write counts its spawn bins alone. -/
def Core.counted (c : Core) (tripped : Bool) : Core :=
  if !c.bins.isEmpty && !tripped then { c with bins := updWhere (fun b => decide (1 < b.timer)) (fun b => { b with timer := b.timer - 1 }) c.bins } else c

theorem Core.counted_only (c : Core) (tripped : Bool) : ∃ bs, c.counted tripped = { c with bins := bs } := by
  unfold Core.counted
  split
  · exact ⟨_, rfl⟩
  · exact ⟨c.bins, rfl⟩

/-- A cycle that may end, and in which no core has a waiting group or late records, is counted. -/
theorem tick_quiet {s : State} (h : s.cycleOpen = false) (hc : ∀ c ∈ s.cores, c.waiting = [] ∧ c.trace.later = []) : s.tick = s.count := by
  have hcores : s.count.cores = s.cores.map (fun c => c.counted s.power.tripped) := rfl
  have hflush : s.count.flushLater = s.count := by
    unfold State.flushLater
    dsimp only
    rw [updWhere_none _ (fun c hm => ?_)]
    rw [hcores] at hm
    obtain ⟨c', hc', rfl⟩ := List.mem_map.mp hm
    obtain ⟨bs, e⟩ := c'.counted_only s.power.tripped
    rw [e]
    simp [(hc c' hc').2]
  have hnone : s.cores.filter (fun c => !c.waiting.isEmpty) = [] :=
    List.filter_eq_nil_iff.mpr fun c hm => by simp [(hc c hm).1]
  unfold State.tick
  rw [h, hflush, hnone]
  rfl

theorem ready_of_notYet {s : State} {u : Thread} (h : s.notYet u = true) : u.status = .ready :=
  beq_iff_eq.mp (Bool.and_eq_true_iff.mp h).1

theorem team?_count (s : State) (key : Nat) : s.count.team? key = (s.team? key).map (fun x =>
    if x.isResident && !s.power.tripped then { x with wdog := x.wdog + 1, wdogHit := s.wdogFull x, wdogAgain := x.wdogHandling } else x) :=
  find?_updWhere _ _ _ _ (fun _ => rfl)

theorem core?_count (s : State) (n : Nat) : s.count.core? n = (s.core? n).map (fun c => c.counted s.power.tripped) :=
  find?_map_key (fun c : Core => c.id == n) (fun c : Core => c.counted s.power.tripped) _ (fun c => by obtain ⟨bs, e⟩ := c.counted_only s.power.tripped; rw [e])

theorem thread?_count (s : State) (team tid : Nat) : s.count.thread? team tid =
    (s.thread? team tid).map (fun u => if s.notYet u then { u with since := s.clk + 1 } else u) :=
  thread?_updWhere s (fun t => s.notYet t) (fun t => { t with since := s.clk + 1 }) (fun _ => ⟨rfl, rfl⟩) team tid

/-- The count of a resident team stands at its limit: its ASID's period, of at least 2^16 cycles (R302). -/
theorem wdogFull_iff (s : State) (x : Team) : s.wdogFull x = true ↔ x.isResident = true ∧ x.killed = false ∧ ∃ l, s.launch? x.launch = some l ∧
    (s.asidOf l.asid).wdog.toNat % 32 ≠ 0 ∧ 2 ^ max 16 ((s.asidOf l.asid).wdog.toNat % 32) ≤ x.wdog := by
  unfold State.wdogFull State.wdogLimit
  cases hl : s.launch? x.launch with
  | none => simp
  | some l =>
    by_cases h0 : (s.asidOf l.asid).wdog.toNat % 32 = 0
    · simp [h0]
    · have hmax : (if (s.asidOf l.asid).wdog.toNat % 32 < 16 then 16 else (s.asidOf l.asid).wdog.toNat % 32) = max 16 ((s.asidOf l.asid).wdog.toNat % 32) := by
        split <;> omega
      simp [h0, hmax, and_assoc]

/-- The bins of a core after a cycle. -/
theorem Core.counted_bin {c : Core} {j : Nat} {b : Bin} (h : c.bins[j]? = some b) (tripped : Bool) : (c.counted tripped).bins[j]? =
    some (if tripped = false ∧ 1 < b.timer then { b with timer := b.timer - 1 } else b) := by
  have hne : c.bins.isEmpty = false := by
    cases hb : c.bins with
    | nil => rw [hb] at h; cases h
    | cons => rfl
  unfold Core.counted
  cases tripped with
  | true => simp [h]
  | false => simp [hne, h, updWhere]

/-- Settles O60: `choose_seats` and `settle_calm` for the choice, `tick_quiet` and the lookups after `State.count` for the end
of a cycle. -/
theorem schedulerChoosesAGroup : Obligations.SchedulerChoosesAGroup := by
  unfold Obligations.SchedulerChoosesAGroup
  refine ⟨?choice, ?stays, ?count⟩
  case choice =>
    intro s core port k a x l hw ws at_ slot hlive hr hk hwait hconv hfree hport hlead hx hl h0 h1 hf hok hfs hc hs
    obtain ⟨hat, hslot⟩ := resume_slot h0 h1
    have hch := choose_seats hk hwait hlead hx hl hat hslot hf hok hfs hc hs
    set g := s.leadGroup k a (x.limit a.role) at_ hw ws slot
    have htlb := fetched_tlb s core l.asid at_ (hdrWords hw)
    set f := s.fetched core l.asid at_ (hdrWords hw)
    set F := (f.withThreads (s.unyielded core port)).seat core port g with hF
    have hcalm : F.Calm F.settle := settle_calm (seat_allLive hlive htlb)
    obtain ⟨tl, hkf⟩ := htlb.core? core k hk
    have hkF : F.core? core = some (({ k with tlb := tl } : Core).setPort port { group := some g, tile := none, stripe := [] }) := by
      rw [hF, core?_seat, show (f.withThreads (s.unyielded core port)).core? core = f.core? core from rfl, hkf, Option.map_some, if_pos rfl]
    obtain ⟨tr, sm, hkt⟩ := hcalm.core? hkF
    refine ⟨F.settle, _, g, (execSchedulerChoice_chooses hr hk hwait hconv hfree hport).trans (by rw [hch]), hkt, ?_, rfl, rfl, rfl, rfl, rfl, rfl, rfl, rfl, ?_, ?_⟩
    · exact congrArg Port.group (Core.port_setPort { k with tlb := tl } port { group := some g, tile := none, stripe := [] })
    · have hmem : s.sameMemory F := fun loc n => by
        rw [hF, htlb.state]
        rfl
      exact fun loc n => (hcalm.sameMemory loc n).trans (hmem loc n)
    · intro tid u hu
      rw [hcalm.thread?]
      exact thread?_seat_unyielded hu
  case stays =>
    intro s rest ha hp ho
    rw [step_of_agenda ha hp]
    show Host.Outcome.next (State.tick { s with agenda := rest }) = _
    unfold State.tick
    rw [show State.cycleOpen { s with agenda := rest } = true from ho, if_pos rfl]
  case count =>
    intro s rest ha hp ho hc
    refine ⟨State.count { s with agenda := rest }, ?_, rfl, rfl, fun key x hx => ?_, fun n c hcc => ?_, fun team tid u hu => ?_⟩
    · rw [step_of_agenda ha hp]
      exact congrArg Host.Outcome.next (tick_quiet (s := { s with agenda := rest }) ho hc)
    · have ht := team?_count { s with agenda := rest } key
      rw [show State.team? { s with agenda := rest } key = some x from hx, Option.map_some] at ht
      refine ⟨_, ht, fun h => ?_, fun hres htrip => ?_⟩
      · refine if_neg ?_
        rcases h with h | h <;> simp [h]
      · have hp : (x.isResident && !s.power.tripped) = true := by rw [hres, htrip]; rfl
        rw [if_pos hp]
        refine ⟨rfl, (wdogFull_iff { s with agenda := rest } x).trans ?_⟩
        exact ⟨fun h => h.2, fun h => ⟨hres, h⟩⟩
    · have ht := core?_count { s with agenda := rest } n
      rw [show State.core? { s with agenda := rest } n = some c from hcc, Option.map_some] at ht
      obtain ⟨bs, e⟩ := c.counted_only s.power.tripped
      exact ⟨_, ht, by rw [e], fun j b hb => Core.counted_bin hb s.power.tripped⟩
    · have ht := thread?_count { s with agenda := rest } team tid
      rw [show State.thread? { s with agenda := rest } team tid = some u from hu, Option.map_some] at ht
      refine ⟨_, ht, ?_⟩
      split
      next hn =>
        exact ⟨rfl, Or.inr ⟨ready_of_notYet hn, rfl⟩⟩
      next => exact ⟨rfl, Or.inl rfl⟩

end Sys2Proof.Machine
end

section
/-! What the fabric transmit queue gains and loses under the operations of the Huddle and under settling (R279, R395). -/

namespace Sys2Proof.Machine

/-- From `s` to `t` neither the fabric transmit queue nor the Huddle's rounds nor the Cadence engine has changed. -/
structure State.FabricKept (s t : State) : Prop where
  nextId : s.nextId ≤ t.nextId
  fabric : t.fabric = s.fabric
  outbox : t.outbox = s.outbox
  ports : t.failedPorts = s.failedPorts
  stop : t.huddleStop = s.huddleStop
  quorum : t.quorum = s.quorum
  cadence : t.cadence = s.cadence

namespace State.FabricKept

theorem refl (s : State) : s.FabricKept s := ⟨Nat.le_refl _, rfl, rfl, rfl, rfl, rfl, rfl⟩

theorem trans {s t u : State} (h : s.FabricKept t) (k : t.FabricKept u) : s.FabricKept u :=
  ⟨h.nextId.trans k.nextId, k.fabric.trans h.fabric, k.outbox.trans h.outbox, k.ports.trans h.ports, k.stop.trans h.stop,
    k.quorum.trans h.quorum, k.cadence.trans h.cadence⟩

/-- An operation after an update of fields that are neither. -/
theorem after {s t u : State} (k : t.FabricKept u) (h : s.FabricKept t) : s.FabricKept u := h.trans k

theorem foldl {α : Type} {f : State → α → State} (hf : ∀ (s : State) a, s.FabricKept (f s a)) (l : List α) (s : State) : s.FabricKept (l.foldl f s) := by
  induction l generalizing s with
  | nil => exact .refl s
  | cons a r ih => exact (hf s a).trans (ih (f s a))

theorem of_calm {s t : State} (h : s.Calm t) : s.FabricKept t := by
  rw [h.state]
  exact ⟨Nat.le_refl _, rfl, rfl, rfl, rfl, rfl, rfl⟩

theorem postEvent (s : State) (ty : Nat) (d : List Byte) : s.FabricKept (s.postEvent ty d) :=
  ⟨(State.postEvent_nextId s ty d).ge, State.postEvent_fabric s ty d, State.postEvent_outbox s ty d, State.postEvent_failedPorts s ty d,
    State.postEvent_huddleStop s ty d, State.postEvent_quorum s ty d, State.postEvent_cadence s ty d⟩

theorem modThreads (s : State) (team : Nat) (l : List Nat) (f : Thread → Thread) : s.FabricKept (s.modThreads team l f) :=
  ⟨Nat.le_refl _, rfl, rfl, rfl, rfl, rfl, rfl⟩

theorem completePhase (s : State) (team b : Nat) : s.FabricKept (s.completePhase team b) := by
  unfold State.completePhase
  split
  · exact .refl s
  · exact ⟨Nat.le_refl _, rfl, rfl, rfl, rfl, rfl, rfl⟩

theorem arriveBar (s : State) (team b n : Nat) : s.FabricKept (s.arriveBar team b n) := by
  unfold State.arriveBar
  split
  · exact .refl s
  · split
    · exact .refl s
    · dsimp only
      split
      · exact (completePhase _ team b).after ⟨Nat.le_refl _, rfl, rfl, rfl, rfl, rfl, rfl⟩
      · exact ⟨Nat.le_refl _, rfl, rfl, rfl, rfl, rfl, rfl⟩

theorem arriveOp (s : State) (team : Nat) (bar : Option Nat) (arrives : Bool) (v : View) : s.FabricKept (s.arriveOp team bar arrives v) := by
  unfold State.arriveOp
  split
  · split
    · exact (arriveBar _ team _ 1).after ⟨Nat.le_refl _, rfl, rfl, rfl, rfl, rfl, rfl⟩
    · exact .refl s
  · exact .refl s

theorem gridEnded (s : State) (team : Nat) (v : View) : s.FabricKept (s.gridEnded team v) := by
  unfold State.gridEnded
  split
  · exact .refl s
  · split
    · exact ⟨Nat.le_refl _, rfl, rfl, rfl, rfl, rfl, rfl⟩
    · exact .refl s

theorem finishXfer (s : State) (o : XferOp) : s.FabricKept (s.finishXfer o) := by
  have hmc : ∀ s : State, s.FabricKept (match o.kind with
      | .cpymc _ g _ => { s with mcast := updWhere (fun m => m.id == g) (fun m => { m with outst := m.outst - 1 }) s.mcast }
      | _ => s) := fun s => by split <;> exact ⟨Nat.le_refl _, rfl, rfl, rfl, rfl, rfl, rfl⟩
  have hpre : s.FabricKept (((({ s with xfers := s.xfers.filter (fun x => x.id != o.id) } : State).modThreads o.team o.counted (fun t => t.xfDown.ended o.view)).freeLines
      o.cleared).freeLocks o.id) := ⟨Nat.le_refl _, rfl, rfl, rfl, rfl, rfl, rfl⟩
  have h := (hpre.trans (gridEnded _ o.team o.view)).trans (hmc _)
  unfold State.finishXfer
  dsimp only
  split
  · exact h
  · exact h.trans (arriveOp _ _ _ _ _)

theorem checkXfer (s : State) (id : Nat) : s.FabricKept (s.checkXfer id) := by
  unfold State.checkXfer
  split
  · exact .refl s
  · split
    · exact finishXfer s _
    · exact .refl s

theorem relockParts (s : State) (op : Nat) : s.FabricKept (s.relockParts op) := by
  unfold State.relockParts
  split
  · exact .refl s
  · dsimp only
    split <;> exact ⟨Nat.le_refl _, rfl, rfl, rfl, rfl, rfl, rfl⟩

theorem finishPart (s : State) (op tid : Nat) : s.FabricKept (s.finishPart op tid) := by
  unfold State.finishPart
  split
  · exact .refl s
  · split
    · exact .refl s
    · split
      · exact .refl s
      · refine ((arriveOp _ _ _ _ _).trans (checkXfer _ op)).after ((modThreads _ _ _ _).after ((relockParts _ op).after ?_))
        exact ⟨Nat.le_refl _, rfl, rfl, rfl, rfl, rfl, rfl⟩

theorem queueDone (s : State) (l : Launch) (core : Nat) : s.FabricKept (s.queueDone l core) := by
  unfold State.queueDone
  split
  · exact .refl s
  · split
    · exact ⟨Nat.le_succ _, rfl, rfl, rfl, rfl, rfl, rfl⟩
    · exact postEvent s _ _

theorem completeLaunch (s : State) (l : Launch) (core : Nat) : s.FabricKept (s.completeLaunch l core) := by
  unfold State.completeLaunch
  refine (queueDone s l core).trans ?_
  dsimp only
  split <;> exact ⟨Nat.le_refl _, rfl, rfl, rfl, rfl, rfl, rfl⟩

theorem retireTeams (s : State) : s.FabricKept s.retireTeams := by
  unfold State.retireTeams
  dsimp only
  split
  · exact .refl s
  · exact (foldl (fun s l => completeLaunch s l _) _ _).after ⟨Nat.le_refl _, rfl, rfl, rfl, rfl, rfl, rfl⟩

theorem settle (s : State) : s.FabricKept s.settle :=
  (of_calm ((Calm.flushSamples s).trans (Calm.retireGroups _))).trans (retireTeams _)

end State.FabricKept

/-! ### What is sent -/

/-- The Cadence engine with its table stopped for a cause (R239). -/
def Cadence.stopped (c : Cadence) (entry cause refuse : Nat) : Cadence :=
  { c with state := 5, cause := cause, errEntry := entry, refuse := refuse, wait := 0, running := c.running.map (fun r => { r with muted := true }) }

/-- From `s` to `t` transfers have left the queue, and those that have entered it are new; a stopped Huddle and a stopped
table stay so, and nothing else has been handed to the fabric. -/
structure State.Sends (s t : State) : Prop where
  nextId : s.nextId ≤ t.nextId
  fabric : ∀ y ∈ t.fabric, y.id < s.nextId → y ∈ s.fabric
  outbox : t.outbox = s.outbox
  ports : t.failedPorts = s.failedPorts
  stop : s.huddleStop = true → t.huddleStop = true
  table : s.cadence.state = 5 → t.cadence.state = 5

namespace State.Sends

theorem of_kept {s t : State} (h : s.FabricKept t) : s.Sends t :=
  ⟨h.nextId, fun _ hy _ => h.fabric ▸ hy, h.outbox, h.ports, fun hs => h.stop.trans hs, fun hc => by rw [h.cadence]; exact hc⟩

theorem refl (s : State) : s.Sends s := of_kept (.refl s)

theorem trans {s t u : State} (h : s.Sends t) (k : t.Sends u) : s.Sends u :=
  ⟨h.nextId.trans k.nextId, fun y hy hlt => h.fabric y (k.fabric y hy (Nat.lt_of_lt_of_le hlt h.nextId)) hlt, k.outbox.trans h.outbox,
    k.ports.trans h.ports, fun hs => k.stop (h.stop hs), fun hc => k.table (h.table hc)⟩

theorem foldl {α : Type} {f : State → α → State} (hf : ∀ (s : State) a, s.Sends (f s a)) (l : List α) (s : State) : s.Sends (l.foldl f s) := by
  induction l generalizing s with
  | nil => exact .refl s
  | cons a r ih => exact (hf s a).trans (ih (f s a))

/-- A new transfer bears an identifier that none has had. -/
theorem enqueue (s : State) (node prio len : Nat) (what : XferWhat) (op : Option (Nat × Nat)) (cmd : Option Nat) (entry : Nat) :
    s.Sends (s.enqueue node prio len what op cmd entry) := by
  refine ⟨Nat.le_succ _, fun y hy hlt => ?_, rfl, rfl, fun h => h, fun h => h⟩
  rcases List.mem_append.mp hy with h | h
  · exact h
  · rw [List.mem_singleton.mp h] at hlt
    exact absurd hlt (Nat.lt_irrefl _)

theorem deliver (s : State) (q : QGroup) (data : List Byte) (e : Contrib) : s.Sends (s.deliver q data e) := by
  unfold State.deliver
  split
  · exact ⟨Nat.le_refl _, fun y hy _ => hy, rfl, rfl, fun h => h, fun h => h⟩
  · split
    · exact .refl s
    · exact enqueue s _ _ _ _ _ _ _

theorem modQuorum (s : State) (g : Nat) (f : QGroup → QGroup) : s.Sends (s.modQuorum g f) :=
  ⟨Nat.le_refl _, fun _ hy _ => hy, rfl, rfl, fun h => h, fun h => h⟩

theorem foldRound (s : State) (g : Nat) (es : List Contrib) : s.Sends (s.foldRound g es) := by
  unfold State.foldRound
  refine (modQuorum s g _).trans (foldl (fun s i => ?_) _ _)
  unfold State.foldedIf
  split
  · exact ⟨Nat.le_refl _, fun y hy _ => hy, rfl, rfl, fun h => h, fun h => h⟩
  · exact .refl s

theorem closeRound (s : State) (g : Nat) : s.Sends (s.closeRound g) := by
  unfold State.closeRound
  split
  · exact .refl s
  · dsimp only
    split
    · exact .refl s
    · exact (modQuorum s g _).trans ((foldRound _ g _).trans ((foldl (fun s e => deliver s _ _ e) _ _).trans (foldl (fun s n => enqueue s _ _ _ _ _ _ _) _ _)))

theorem closeAll (s : State) : s.Sends s.closeAll := by
  unfold State.closeAll
  refine foldl (fun s x => ?_) _ s
  split
  · exact (closeRound s x.id).trans ((closeRound _ x.id).trans (closeRound _ x.id))
  · exact .refl s

theorem stopHuddle (s : State) (g : Nat) : s.Sends (s.stopHuddle g) := by
  unfold State.stopHuddle
  split
  · exact .refl s
  · exact trans (t := { s with huddleStop := true, stopGrp := g }) ⟨Nat.le_refl _, fun _ hy _ => hy, rfl, rfl, fun _ => rfl, fun h => h⟩
      (of_kept (.postEvent _ _ _))

theorem stopTable (s : State) (entry cause refuse : Nat) : s.Sends (s.stopTable entry cause refuse) := by
  unfold State.stopTable
  split
  · exact .refl s
  · exact trans (t := { s with cadence := s.cadence.stopped entry cause refuse }) ⟨Nat.le_refl _, fun _ hy _ => hy, rfl, rfl, fun h => h, fun _ => rfl⟩
      (of_kept (.postEvent _ _ _))

theorem checkReach (s : State) : s.Sends s.checkReach := by
  unfold State.checkReach
  split
  · exact stopHuddle s _
  · exact .refl s

end State.Sends

theorem stopHuddle_stops (s : State) (g : Nat) : (s.stopHuddle g).huddleStop = true := by
  unfold State.stopHuddle
  split
  next h => exact h
  next => rw [State.postEvent_huddleStop]

theorem stopTable_stops (s : State) (entry cause refuse : Nat) : (s.stopTable entry cause refuse).cadence.state = 5 := by
  unfold State.stopTable
  split
  next h => exact beq_iff_eq.mp h
  next => dsimp only; rw [State.postEvent_cadence]

/-- No round closes where none has its contributions together, or where the Huddle has stopped (R226, R352). -/
theorem closeAll_stays {s : State} (h : s.roundsStay) : s.closeAll = s := by
  have hround : ∀ g, s.closeRound g = s := fun g => by
    unfold State.closeRound
    split
    · rfl
    next q hq =>
      refine if_pos ?_
      rcases h with h | h
      · simp [h]
      · simp [h q (List.mem_of_find?_eq_some hq)]
  have hrounds : ∀ g, s.closeRounds g = s := fun g => by unfold State.closeRounds; rw [hround, hround, hround]
  unfold State.closeAll
  generalize s.quorum = qs
  induction qs with
  | nil => rfl
  | cons q r ih => rw [List.foldl_cons, hrounds, ite_self]; exact ih

/-! ### Dropped transfers (R395) -/

/-- The queue without a transfer, and the host told of it. -/
def State.dropped (s : State) (x : Transfer) : State :=
  ({ s with fabric := s.fabric.filter (fun y => y.id != x.id) } : State).postEvent 9 (leBytes 8 x.node ++ leBytes 8 x.what.kind)

theorem Sends_dropped (s : State) (x : Transfer) : s.Sends (s.dropped x) :=
  State.Sends.trans (t := { s with fabric := s.fabric.filter (fun y => y.id != x.id) })
    ⟨Nat.le_refl _, fun _ hy _ => List.mem_of_mem_filter hy, rfl, rfl, fun h => h, fun h => h⟩ (.of_kept (.postEvent _ _ _))

theorem dropTransfer_eq (s : State) (x : Transfer) : s.dropTransfer x = (match x.what with
    | .contribution g _ _ _ | .result g _ _ _ | .closure g _ | .qsyncRequest g _ | .qsyncReply g _ _ _ | .parity g _ => (s.dropped x).stopHuddle g
    | .message .. => (match x.op with
      | some (op, tid) => ((s.dropped x).finishPart op tid).settle
      | none => s.dropped x)
    | .cadenceSend .. | .cadenceGrant _ => (s.dropped x).stopTable x.entry 0x1A 0
    | .mirror .. => (match x.cmd with
      | some k => (s.dropped x).modCmd k (fun b => { b with acked := true })
      | none => s.dropped x)) := rfl

theorem dropped_fabric (s : State) (x : Transfer) : (s.dropped x).fabric = s.fabric.filter (fun y => y.id != x.id) :=
  State.postEvent_fabric _ _ _

theorem stopHuddle_fabric (s : State) (g : Nat) : (s.stopHuddle g).fabric = s.fabric := by
  unfold State.stopHuddle
  split
  · rfl
  · exact State.postEvent_fabric _ _ _

/-- A table stops without a change to the queue or to the Huddle. -/
theorem stopTable_keeps (s : State) (entry cause refuse : Nat) : (s.stopTable entry cause refuse).fabric = s.fabric ∧
    (s.stopTable entry cause refuse).huddleStop = s.huddleStop ∧ (s.stopTable entry cause refuse).quorum = s.quorum := by
  unfold State.stopTable
  split
  · exact ⟨rfl, rfl, rfl⟩
  · exact ⟨State.postEvent_fabric _ _ _, State.postEvent_huddleStop _ _ _, State.postEvent_quorum _ _ _⟩

/-- Settling the sender of a dropped transfer leaves the queue as it is. -/
theorem dropTransfer_fabric (s : State) (x : Transfer) : (s.dropTransfer x).fabric = s.fabric.filter (fun y => y.id != x.id) := by
  rw [dropTransfer_eq, ← dropped_fabric]
  cases x.what with
  | contribution | result | closure | qsyncRequest | qsyncReply | parity => exact stopHuddle_fabric _ _
  | message =>
    cases x.op with
    | none => rfl
    | some p => exact ((State.FabricKept.finishPart _ p.1 p.2).trans (.settle _)).fabric
  | cadenceSend | cadenceGrant => exact (stopTable_keeps _ _ _ _).1
  | mirror => cases x.cmd <;> rfl

theorem Sends_dropTransfer (s : State) (x : Transfer) : s.Sends (s.dropTransfer x) := by
  refine (Sends_dropped s x).trans ?_
  rw [dropTransfer_eq]
  generalize s.dropped x = d
  cases x.what with
  | contribution | result | closure | qsyncRequest | qsyncReply | parity => exact .stopHuddle _ _
  | message =>
    cases x.op with
    | none => exact .refl _
    | some p => exact .of_kept ((State.FabricKept.finishPart _ p.1 p.2).trans (.settle _))
  | cadenceSend | cadenceGrant => exact .stopTable _ _ _ _
  | mirror =>
    cases x.cmd with
    | none => exact .refl _
    | some k => exact ⟨Nat.le_refl _, fun _ hy _ => hy, rfl, rfl, fun h => h, fun h => h⟩

/-- Rounds that do not close where the Huddle and its rounds are as they were. -/
theorem roundsStay_of_eq {s t : State} (h : s.roundsStay) (hs : t.huddleStop = s.huddleStop) (hq : t.quorum = s.quorum) : t.roundsStay := by
  unfold State.roundsStay
  rw [hs, hq]
  exact h

theorem dropped_roundsStay {s : State} (h : s.roundsStay) (x : Transfer) : (s.dropped x).roundsStay :=
  roundsStay_of_eq h (State.postEvent_huddleStop _ _ _) (State.postEvent_quorum _ _ _)

/-- Dropping a transfer makes no round ready to close. -/
theorem dropTransfer_roundsStay {s : State} (h : s.roundsStay) (x : Transfer) : (s.dropTransfer x).roundsStay := by
  have hd := dropped_roundsStay h x
  rw [dropTransfer_eq]
  generalize s.dropped x = d at hd ⊢
  cases x.what with
  | contribution | result | closure | qsyncRequest | qsyncReply | parity => exact .inl (stopHuddle_stops _ _)
  | message =>
    cases x.op with
    | none => exact hd
    | some p =>
      have k := (State.FabricKept.finishPart d p.1 p.2).trans (.settle _)
      exact roundsStay_of_eq hd k.stop k.quorum
  | cadenceSend | cadenceGrant => exact roundsStay_of_eq hd (stopTable_keeps _ _ _ _).2.1 (stopTable_keeps _ _ _ _).2.2
  | mirror =>
    cases x.cmd with
    | none => exact hd
    | some k => exact roundsStay_of_eq hd rfl rfl

/-- Dropping some transfers leaves none of them in the queue. -/
theorem dropAll_fabric (gone : List Transfer) (s : State) : ∀ y ∈ (gone.foldl (fun (s : State) x => s.dropTransfer x) s).fabric,
    y ∈ s.fabric ∧ y ∉ gone := by
  induction gone generalizing s with
  | nil => exact fun y hy => ⟨hy, List.not_mem_nil⟩
  | cons x r ih =>
    intro y hy
    obtain ⟨hm, hr⟩ := ih (s.dropTransfer x) y hy
    rw [dropTransfer_fabric, List.mem_filter] at hm
    refine ⟨hm.1, fun h => ?_⟩
    rcases List.mem_cons.mp h with rfl | h
    · simp at hm
    · exact hr h

end Sys2Proof.Machine
end

section
/-! The tables of the on-die network, and what a router does with the one packet that leaves it (R16 to R18, R22). -/

namespace Sys2Proof.Machine

/-! ### Tables -/

@[simp] theorem router_id (s : State) (r : Nat) : (s.router r).id = r := by
  unfold State.router
  cases h : s.routers.find? (fun x => x.id == r) with
  | none => rfl
  | some x => simpa using List.find?_some h

/-- An entry put in front in place of those of its key does not change what another key finds. -/
theorem find?_replaced {α : Type} {p q : α → Bool} {y : α} (l : List α) (hy : q y = false) (hpq : ∀ x, q x = true → p x = false) :
    (y :: l.filter (fun x => !p x)).find? q = l.find? q := by
  have hfun : (fun x => decide ((!p x) = true ∧ q x = true)) = q := by
    funext x
    cases hq : q x with
    | false => simp
    | true => simp [hpq x hq]
  rw [List.find?_cons_of_neg (by simp [hy]), List.find?_filter, hfun]

/-- A router that has had nothing to do. -/
def Router.idle (r : Nat) : Router := { id := r, nextSeq := 0, outstanding := [], wait := none, starved := 0, last := 0 }

theorem router_modRouter_same (s : State) (r : Nat) (f : Router → Router) (hf : (f (s.router r)).id = r) :
    (s.modRouter r f).router r = f (s.router r) :=
  by
  have h := List.find?_cons_of_pos (p := fun x : Router => x.id == r) (l := s.routers.filter (fun x => x.id != r)) (beq_iff_eq.mpr hf)
  exact congrArg (Option.getD · (.idle r)) h

theorem router_modRouter_other (s : State) {r k : Nat} (f : Router → Router) (hf : (f (s.router r)).id = r) (hk : k ≠ r) :
    (s.modRouter r f).router k = s.router k :=
  by
  have h := find?_replaced (p := fun x : Router => x.id == r) (q := fun x => x.id == k) (y := f (s.router r)) s.routers
    (by rw [hf]; exact beq_false_of_ne hk.symm) (fun x hx => by rw [beq_iff_eq.mp hx]; exact beq_false_of_ne hk)
  exact congrArg (Option.getD · (.idle k)) h

/-- A gateway has a key. -/
def Gateway.hasKey (g : Gateway) (die quad other : Nat) : Bool := g.die == die && g.quad == quad && g.other == other

theorem Gateway.hasKey_iff {g : Gateway} {die quad other : Nat} : g.hasKey die quad other = true ↔ (g.die, g.quad, g.other) = (die, quad, other) := by
  simp [Gateway.hasKey, and_assoc]

/-- A gateway is the table's at its key, or an empty one of that key. -/
theorem gateway_hasKey (s : State) (die quad other : Nat) : (s.gateway die quad other).hasKey die quad other = true := by
  unfold State.gateway
  cases h : s.gateways.find? (fun g => g.die == die && g.quad == quad && g.other == other) with
  | none => simp [Gateway.hasKey]
  | some x => exact List.find?_some (p := fun g : Gateway => g.hasKey die quad other) h

/-- A gateway through which nothing has gone. -/
def Gateway.idle (die quad other : Nat) : Gateway := { die := die, quad := quad, other := other, tx := [], rx := [], sent := 0 }

theorem gateway_modGateway_same (s : State) (die quad other : Nat) {f : Gateway → Gateway} (hf : ∀ g a b c, (f g).hasKey a b c = g.hasKey a b c) :
    (s.modGateway die quad other f).gateway die quad other = f (s.gateway die quad other) :=
  by
  have h := List.find?_cons_of_pos (p := fun g : Gateway => g.hasKey die quad other)
    (l := s.gateways.filter (fun g => !g.hasKey die quad other)) ((hf _ _ _ _).trans (gateway_hasKey s die quad other))
  exact congrArg (Option.getD · (.idle die quad other)) h

theorem gateway_modGateway_other (s : State) {die quad other die' quad' other' : Nat} {f : Gateway → Gateway}
    (hf : ∀ g a b c, (f g).hasKey a b c = g.hasKey a b c) (hne : (die', quad', other') ≠ (die, quad, other)) :
    (s.modGateway die quad other f).gateway die' quad' other' = s.gateway die' quad' other' := by
  have hkey : ∀ g : Gateway, g.hasKey die' quad' other' = true → g.hasKey die quad other = false := fun g hg => by
    rw [← Bool.not_eq_true, Gateway.hasKey_iff, Gateway.hasKey_iff.mp hg]
    exact hne
  have hnew : (f (s.gateway die quad other)).hasKey die' quad' other' = false := by
    rw [hf, ← Bool.not_eq_true]
    intro h
    have := hkey _ h
    rw [gateway_hasKey] at this
    exact absurd this (by decide)
  have h := find?_replaced (p := fun g : Gateway => g.hasKey die quad other) s.gateways hnew hkey
  exact congrArg (Option.getD · (.idle die' quad' other')) h

/-! ### Ports (R11, R17) -/

theorem mem_netPorts_intra {r j : Nat} : NetPort.intra j ∈ netPorts r ↔ j < 4 ∧ j ≠ r % 4 := by
  unfold netPorts
  split <;> simp

theorem eject_notMem_netPorts (r : Nat) (e : Endpoint) : NetPort.eject e ∉ netPorts r := by
  unfold netPorts
  split <;> simp

theorem gate_notMem_netPorts (r die : Nat) : NetPort.gate die ∉ netPorts r := by
  unfold netPorts
  split <;> simp

/-- A link leads from a router to another one. -/
def NetPort.Leads (r : Nat) (p : NetPort) : Prop := p = .long ∨ ∃ j, p = .intra j ∧ j < 4 ∧ j ≠ r % 4

theorem NetPort.Leads.far_ne {r : Nat} {p : NetPort} (h : p.Leads r) : p.far r ≠ r := by
  rcases h with rfl | ⟨j, rfl, hj, hne⟩
  · unfold NetPort.far longTo
    dsimp only
    have h3 : r % 4 = 0 ∨ r % 4 = 1 ∨ r % 4 = 2 ∨ r % 4 = 3 := by omega
    rcases h3 with h | h | h | h <;> rw [h] <;> omega
  · unfold NetPort.far
    dsimp only
    omega

theorem leads_of_mem_netPorts {r : Nat} {p : NetPort} (h : p ∈ netPorts r) : p.Leads r := by
  cases p with
  | intra j => exact .inr ⟨j, rfl, mem_netPorts_intra.mp h⟩
  | long => exact .inl rfl
  | eject e => exact absurd h (eject_notMem_netPorts r e)
  | gate d => exact absurd h (gate_notMem_netPorts r d)

/-- The minimal port is an ejection port, a gateway's, or a link. -/
theorem minimalPort_cases (r src : Nat) (e : Endpoint) : minimalPort r src e = .eject e ∨ (∃ d, minimalPort r src e = .gate d) ∨ (minimalPort r src e).Leads r := by
  unfold minimalPort
  dsimp only
  generalize (if routerOf e / 16 = r / 16 then routerOf e else src / 4 * 4 + 3) = t
  split
  · split
    · exact .inl rfl
    · exact .inr (.inl ⟨_, rfl⟩)
  next ht =>
    split
    · exact .inr (.inr (.inr ⟨_, rfl, by omega, by omega⟩))
    · split
      · exact .inr (.inr (.inl rfl))
      next hj => exact .inr (.inr (.inr ⟨_, rfl, Nat.mod_lt _ (by decide), hj⟩))

theorem minimalPort_eject {r : Nat} (src : Nat) {e : Endpoint} (h : routerOf e = r) : minimalPort r src e = .eject e := by
  subst h
  simp [minimalPort]

/-- To another router of the quadrant leads the link between them. -/
theorem minimalPort_intra {r : Nat} (src : Nat) {e : Endpoint} (h : routerOf e ≠ r) (hq : routerOf e / 4 = r / 4) :
    minimalPort r src e = .intra (routerOf e % 4) := by
  have hd : routerOf e / 16 = r / 16 := by omega
  simp [minimalPort, hd, h, hq]

/-! ### One packet at a router -/

/-- An arbitration that begins with a state: no port is taken. -/
def State.arb (s : State) (injecting : Bool) : Arb := { state := s, taken := [], sent := [], kept := [], injecting := injecting }

theorem freeLinks_arb (s : State) (b : Bool) (r : Nat) : (s.arb b).freeLinks r = netPorts r := by
  refine List.filter_eq_self.mpr fun p hp => ?_
  rcases leads_of_mem_netPorts hp with rfl | ⟨j, rfl, _⟩ <;> rfl

theorem mem_openLinks {s : State} {b : Bool} {r : Nat} {p : NetPort} (hp : p ∈ netPorts r) (hs : (s.router (p.far r)).starved ≠ s.clk + 1) :
    p ∈ (s.arb b).openLinks r := by
  have hmem : p ∈ ((s.arb b).freeLinks r).filter (fun p => !(s.arb b).starves r p) := by
    refine List.mem_filter.mpr ⟨(freeLinks_arb s b r).symm ▸ hp, ?_⟩
    have : (s.arb b).starves r p = false := by simp [Arb.starves, State.arb, hs]
    rw [this]; rfl
  unfold Arb.openLinks
  dsimp only
  split
  · rw [freeLinks_arb]; exact hp
  · exact hmem

theorem openLinks_subset {s : State} {b : Bool} {r : Nat} {p : NetPort} (h : p ∈ (s.arb b).openLinks r) : p ∈ netPorts r := by
  unfold Arb.openLinks at h
  dsimp only at h
  rw [freeLinks_arb] at h
  split at h
  · exact h
  · exact List.mem_of_mem_filter h

/-- The router towards which a branch goes on this die: its destination's, or the gateway router of its source's quadrant. -/
def branchTarget (r src : Nat) (e : Endpoint) : Nat := if routerOf e / 16 = r / 16 then routerOf e else src / 4 * 4 + 3

/-- A packet with one destination, first at its router: it takes the port that is chosen. -/
theorem pass_arb {s : State} {b : Bool} {r : Nat} {p : Packet} {e : Endpoint} {port : NetPort} (n : Nat) (hd : p.dests = [e])
    (hc : (s.arb b).choose r (s.isGolden p) p (minimalPort r p.router e) (branchTarget r p.router e) = some port) :
    (s.arb b).pass r p n = (s.arb b).leave r p [e] (minimalPort r p.router e) port (branchTarget r p.router e) := by
  unfold Arb.pass
  dsimp only
  rw [hd]
  unfold branchTarget at hc ⊢
  rw [List.map_singleton, List.dedup_eq_self.mpr (List.nodup_singleton _)]
  simp only [List.foldl_cons, List.foldl_nil, List.filter_cons, beq_self_eq_true, if_true, List.filter_nil]
  rw [show (s.arb b).state.isGolden p = s.isGolden p from rfl, hc]
  simp

/-- A packet on a link is the packet. -/
theorem leave_link {s : State} {b : Bool} {r : Nat} {p : Packet} {e : Endpoint} {port : NetPort} (want : NetPort) (target : Nat) (hl : port.Leads r) :
    (s.arb b).leave r p [e] want port target = { s.arb b with
      taken := [port], sent := [(port, { p with dests := [e], crossed := p.crossed || (port == .long && want != .long && viaLong r p target) })] } := by
  rcases hl with rfl | ⟨j, rfl, _⟩ <;> rfl

/-- The port of an injection leads to another router: it takes network ports alone (R18). -/
theorem choose_injecting {s : State} {r : Nat} (golden : Bool) (p : Packet) (src : Nat) (e : Endpoint) (target : Nat)
    (ho : ∃ q, q ∈ (s.arb true).openLinks r) :
    ∃ port, (s.arb true).choose r golden p (minimalPort r src e) target = some port ∧ port.Leads r := by
  unfold Arb.choose
  dsimp only
  split
  next h =>
    refine ⟨_, rfl, ?_⟩
    have hfree := (Bool.and_eq_true_iff.mp h).1
    rcases minimalPort_cases r src e with hw | ⟨d, hw⟩ | hw
    · rw [hw] at hfree; exact absurd hfree (by simp [Arb.isFree, State.arb])
    · rw [hw] at hfree; exact absurd hfree (by simp [Arb.isFree, State.arb])
    · exact hw
  next =>
    split
    next => exact ⟨_, rfl, .inl rfl⟩
    next =>
      obtain ⟨q, hq⟩ := ho
      cases hl : (s.arb true).openLinks r with
      | nil => rw [hl] at hq; exact absurd hq List.not_mem_nil
      | cons x l => exact ⟨x, rfl, leads_of_mem_netPorts (openLinks_subset (hl ▸ List.mem_cons_self))⟩

theorem mergeGolden_one (s : State) {p : Packet} {e : Endpoint} (hd : p.dests = [e]) : mergeGolden s [p] = [p] := by
  cases h : s.isGolden p with
  | true => obtain ⟨_, _, _, _, _, _⟩ := p; subst hd; simp [mergeGolden, h]
  | false => simp [mergeGolden, h]

theorem leaving_one {s : State} {r due : Nat} {p : Packet} {e : Endpoint}
    (h : s.transits.filter (fun x => x.at_ == r && decide (x.due ≤ s.clk)) = [{ at_ := r, due := due, pkt := p }]) (hd : p.dests = [e]) :
    s.leaving r = [p] := by
  unfold State.leaving
  rw [h]
  rw [List.map_singleton, mergeGolden_one s hd]
  rfl

theorem leaving_none {s : State} {r : Nat} (h : s.transits.filter (fun x => x.at_ == r && decide (x.due ≤ s.clk)) = []) : s.leaving r = [] := by
  unfold State.leaving
  rw [h]
  rfl

/-- The state of a router's arbitration: its pipeline is empty, and it has arbitrated in this cycle. -/
def State.arbitrating (s : State) (r : Nat) : State :=
  ({ s with transits := s.transits.filter (fun t => !(t.at_ == r && decide (t.due ≤ s.clk))) } : State).modRouter r (fun x => { x with last := s.clk + 1 })

theorem router_arbitrating (s : State) (r k : Nat) :
    (s.arbitrating r).router k = if k = r then { s.router r with last := s.clk + 1 } else s.router k := by
  unfold State.arbitrating
  split
  next h => subst h; exact router_modRouter_same _ _ _ (router_id s k)
  next h => exact router_modRouter_other _ _ (router_id s r) h

/-- The packets that have left on links, on their way (R15). -/
def Arb.departures (a : Arb) (r : Nat) : List Transit :=
  a.sent.map (fun x => { at_ := x.1.far r, due := a.state.clk + x.1.cycles + 2, pkt := x.2 })

/-- The packets that pass through the pipeline once more. -/
def Arb.held (a : Arb) (r : Nat) : List Transit := a.kept.map (fun p => { at_ := r, due := a.state.clk + 2, pkt := p })

/-- A router's turn: its packets take ports, one waiting packet may be injected, and all go on after their links. -/
theorem arbitration_eq {s : State} {r : Nat} (hr : r < 64) (hg : s.goldenStale = false) (hl : (s.router r).last ≠ s.clk + 1) {a : Arb}
    (ha : (Arb.passAll ((s.arbitrating r).arb false) r (s.leaving r)).inject r = a) :
    execRouterArbitration r s = .next { a.state with transits := a.state.transits ++ a.departures r ++ a.held r } := by
  subst ha
  unfold execRouterArbitration
  rw [if_neg (by simp [hl, hg, hr])]
  rfl

theorem inject_none {a : Arb} {r : Nat} (h : (a.state.router r).wait = none) : a.inject r = a := by
  unfold Arb.inject
  rw [h]

end Sys2Proof.Machine
end

section
/-! The events of the fabric transmit queue and of the on-die network: O58, a lemma for each event. -/

namespace Sys2Proof.Machine

/-! ### The fabric transmit queue (R279, R382, R395) -/

/-- The queue after a transfer's last piece: the transfer is in the outbox. -/
def State.sentWhole (s : State) (x : Transfer) : State :=
  { s with fabric := s.fabric.filter (fun y => y.id != x.id), outbox := s.outbox ++ [{ x with sentBytes := x.len }] }

theorem fabricPieceSend_last {s : State} {port : Nat} {x : Transfer} (hx : s.nextTransfer port = some x) (hl : x.len ≤ x.sentBytes + 512) :
    exec (.fabricPieceSend port) s = .next (s.sentWhole x).closeAll := by
  change execFabricPieceSend port s = _
  unfold execFabricPieceSend
  rw [hx]
  exact if_pos hl

theorem fabricPieceSend_part {s : State} {port : Nat} {x : Transfer} (hx : s.nextTransfer port = some x) (hl : x.sentBytes + 512 < x.len) :
    exec (.fabricPieceSend port) s = .next { s with fabric := updWhere (fun y => y.id == x.id) (fun _ => { x with sentBytes := x.sentBytes + 512 }) s.fabric } := by
  change execFabricPieceSend port s = _
  unfold execFabricPieceSend
  rw [hx]
  exact if_neg (Nat.not_le.mpr hl)

theorem fabricTransferDrop_eq {s : State} {id : Nat} {x : Transfer} (hx : s.fabric.find? (fun y => y.id == id) = some x)
    (hr : s.reachable x.node = false) : exec (.fabricTransferDrop id) s = .next (s.dropTransfer x).closeAll := by
  change execFabricTransferDrop id s = _
  unfold execFabricTransferDrop
  rw [hx]
  dsimp only
  rw [hr]
  rfl

/-- A transfer of the Huddle that is dropped stops the Huddle, one of Cadence its table. -/
theorem dropTransfer_stops (s : State) (x : Transfer) :
    (∀ g m tag data, x.what = .contribution g m tag data → (s.dropTransfer x).huddleStop = true) ∧
    (∀ down mb data, x.what = .cadenceSend down mb data → (s.dropTransfer x).cadence.state = 5) := by
  constructor
  · intro g m tag data h
    rw [dropTransfer_eq, h]
    exact stopHuddle_stops _ _
  · intro down mb data h
    rw [dropTransfer_eq, h]
    exact stopTable_stops _ _ _ _

/-- What is in the queue after a transfer has been dropped and rounds have closed was in it, or is new. -/
theorem mem_dropped_closeAll {s : State} {x y : Transfer} (hy : y ∈ (s.dropTransfer x).closeAll.fabric) (hlt : y.id < s.nextId) :
    y ∈ s.fabric ∧ y.id ≠ x.id := by
  have hm := (State.Sends.closeAll (s.dropTransfer x)).fabric y hy (Nat.lt_of_lt_of_le hlt (Sends_dropTransfer s x).nextId)
  rw [dropTransfer_fabric, List.mem_filter] at hm
  exact ⟨hm.1, bne_iff_ne.mp hm.2⟩

/-- The transfers queued for a port. -/
def State.queuedFor (s : State) (port : Nat) : List Transfer := s.fabric.filter (fun x => s.portOf x.node == port && x.node != s.hostCtl.fabNode)

/-- The state after a port's failure, before the Huddle's rounds that can close do. -/
def State.portFailed (s : State) (port : Nat) : State :=
  ((s.queuedFor port).foldl (fun (s : State) x => s.dropTransfer x) { s with failedPorts := s.failedPorts ++ [port] }).checkReach

theorem fabricPortFailure_eq {s : State} {port : Nat} (hp : port < 16) (hf : s.failedPorts.contains port = false) :
    exec (.fabricPortFailure port) s = .next (s.portFailed port).closeAll := by
  change execFabricPortFailure port s = _
  unfold execFabricPortFailure
  rw [if_neg (by rw [hf]; simp [hp])]
  rfl

theorem portFailed_sends (s : State) (port : Nat) : ({ s with failedPorts := s.failedPorts ++ [port] } : State).Sends (s.portFailed port).closeAll :=
  ((State.Sends.foldl Sends_dropTransfer _ _).trans (.checkReach _)).trans (.closeAll _)

theorem mem_portFailed {s : State} {port : Nat} {y : Transfer} (hy : y ∈ (s.portFailed port).closeAll.fabric) (hlt : y.id < s.nextId) :
    y ∈ s.fabric ∧ y ∉ s.queuedFor port := by
  have hdrops := State.Sends.foldl (f := fun (s : State) x => s.dropTransfer x) Sends_dropTransfer (s.queuedFor port)
    { s with failedPorts := s.failedPorts ++ [port] }
  have hm := ((State.Sends.checkReach _).trans (.closeAll _)).fabric y hy (Nat.lt_of_lt_of_le hlt hdrops.nextId)
  exact dropAll_fabric _ { s with failedPorts := s.failedPorts ++ [port] } y hm

/-! ### Routers (R16 to R19, R22) -/

theorem router_arbitrating_wait {s : State} {r : Nat} (hw : (s.router r).wait = none) : ((s.arbitrating r).router r).wait = none := by
  rw [router_arbitrating, if_pos rfl]
  exact hw

theorem starved_arbitrating (s : State) (r k : Nat) : ((s.arbitrating r).router k).starved = (s.router k).starved := by
  rw [router_arbitrating]
  split
  next h => rw [h]
  next => rfl

theorem outstanding_arbitrating (s : State) (r k : Nat) : ((s.arbitrating r).router k).outstanding = (s.router k).outstanding := by
  rw [router_arbitrating]
  split
  next h => rw [h]
  next => rfl

/-- A packet for a local endpoint of a router is ejected, whatever else waits. -/
theorem pass_eject {s : State} {r : Nat} {p : Packet} {e : Endpoint} (n : Nat) (hd : p.dests = [e]) (he : routerOf e = r) :
    (s.arb false).pass r p n = { (s.arb false) with taken := [.eject e], state := s.reach p [e] } := by
  rw [pass_arb (port := .eject e) n hd, minimalPort_eject p.router he]
  · rfl
  · rw [minimalPort_eject p.router he]
    unfold Arb.choose
    dsimp only
    refine if_pos ?_
    have hnot : (netPorts r).contains (NetPort.eject e) = false := by simpa using eject_notMem_netPorts r e
    rw [hnot]
    simp [Arb.isFree, State.arb]

/-- A packet for another router of the quadrant takes their link, where the starvation signal leaves it. -/
theorem pass_intra {s : State} {r : Nat} {p : Packet} {e : Endpoint} (n : Nat) (hd : p.dests = [e]) (he : routerOf e ≠ r)
    (hq : routerOf e / 4 = r / 4) (hs : (s.router (routerOf e)).starved ≠ s.clk + 1) :
    (s.arb false).pass r p n = { (s.arb false) with taken := [.intra (routerOf e % 4)], sent := [(.intra (routerOf e % 4), p)] } := by
  have hlt : routerOf e % 4 < 4 := Nat.mod_lt _ (by decide)
  have hne : routerOf e % 4 ≠ r % 4 := by omega
  have hfar : NetPort.far r (.intra (routerOf e % 4)) = routerOf e := by
    change r / 4 * 4 + routerOf e % 4 = routerOf e
    omega
  have hopen := mem_openLinks (s := s) (b := false) (mem_netPorts_intra.mpr ⟨hlt, hne⟩) (by rw [hfar]; exact hs)
  rw [pass_arb (port := .intra (routerOf e % 4)) n hd, minimalPort_intra p.router he hq, leave_link _ _ (.inr ⟨_, rfl, hlt, hne⟩)]
  · have hlong : (NetPort.intra (routerOf e % 4) == NetPort.long) = false := rfl
    rw [hlong, Bool.false_and, Bool.false_and, Bool.or_false, ← hd]
  · rw [minimalPort_intra p.router he hq]
    unfold Arb.choose
    dsimp only
    refine if_pos ?_
    rw [List.contains_iff_mem.mpr hopen]
    simp [Arb.isFree, State.arb]

/-- The waiting packet enters the network, as old as its injection. -/
theorem inject_waiting {s : State} {r since : Nat} {p : Packet} {e : Endpoint} (hw : (s.router r).wait = some (p, since)) (hd : p.dests = [e])
    (hopen : ∃ q ∈ netPorts r, (s.router (q.far r)).starved ≠ s.clk + 1) :
    ∃ port a crossed, port.Leads r ∧ (s.arb false).inject r = a ∧ a.kept = [] ∧
      a.sent = [(port, { p with time := s.clk, crossed := crossed })] ∧
      a.state = s.modRouter r (fun x => { x with wait := none, starved := 0, nextSeq := x.nextSeq + 1, outstanding := x.outstanding ++ [(p.seq, p.dests)] }) := by
  obtain ⟨q, hq, hs⟩ := hopen
  have hfirst : q ∈ (s.arb true).openLinks r := mem_openLinks hq hs
  generalize ht : s.modRouter r (fun x => { x with wait := none, starved := 0, nextSeq := x.nextSeq + 1, outstanding := x.outstanding ++ [(p.seq, p.dests)] }) = t
  have hts : (t.router (q.far r)).starved ≠ t.clk + 1 := by
    subst ht
    rw [router_modRouter_other s _ (router_id s r) (leads_of_mem_netPorts hq).far_ne]
    exact hs
  obtain ⟨port, hc, hport⟩ := choose_injecting (t.isGolden { p with time := s.clk }) { p with time := s.clk } p.router e
    (branchTarget r p.router e) ⟨q, mem_openLinks hq hts⟩
  have hinj : (s.arb false).inject r = (t.arb true).pass r { p with time := s.clk } 0 := by
    unfold Arb.inject
    rw [show (s.arb false).state.router r = s.router r from rfl, hw]
    dsimp only
    rw [if_neg (fun h => by
      rw [List.isEmpty_iff] at h
      exact absurd (h ▸ hfirst) List.not_mem_nil)]
    subst ht
    rfl
  rw [hinj, pass_arb (p := { p with time := s.clk }) 0 hd hc, leave_link _ _ hport]
  exact ⟨port, _, _, hport, rfl, rfl, by rw [← hd], rfl⟩

/-- ROUTER_ARBITRATION of a packet for a local endpoint (R16, R22). -/
theorem arbitration_ejects {s : State} {r : Nat} {p : Packet} {e : Endpoint} {due : Nat} (hr : r < 64) (hg : s.goldenStale = false)
    (hl : (s.router r).last ≠ s.clk + 1) (hw : (s.router r).wait = none)
    (ht : s.transits.filter (fun x => x.at_ == r && decide (x.due ≤ s.clk)) = [{ at_ := r, due := due, pkt := p }]) (hd : p.dests = [e])
    (he : routerOf e = r) : execRouterArbitration r s = .next ((s.arbitrating r).reach p [e]) := by
  have hreach : (((s.arbitrating r).reach p [e]).router r).wait = none := by
    have hwait := router_arbitrating_wait hw
    unfold State.reach
    by_cases hp : r = p.router
    · subst hp
      rw [router_modRouter_same _ _ _ (router_id _ _)]
      exact hwait
    · rw [router_modRouter_other _ _ (router_id _ _) hp]
      exact hwait
  have ha : (Arb.passAll ((s.arbitrating r).arb false) r (s.leaving r)).inject r =
      { (s.arbitrating r).arb false with taken := [.eject e], state := (s.arbitrating r).reach p [e] } := by
    rw [leaving_one ht hd]
    exact (congrArg (Arb.inject · r) (pass_eject _ hd he)).trans (inject_none hreach)
  rw [arbitration_eq hr hg hl ha]
  simp [State.arb, Arb.departures, Arb.held]

/-- ROUTER_ARBITRATION of a packet for another router of the quadrant (R16, R17). -/
theorem arbitration_forwards {s : State} {r : Nat} {p : Packet} {e : Endpoint} {due : Nat} (hr : r < 64) (hg : s.goldenStale = false)
    (hl : (s.router r).last ≠ s.clk + 1) (hw : (s.router r).wait = none)
    (ht : s.transits.filter (fun x => x.at_ == r && decide (x.due ≤ s.clk)) = [{ at_ := r, due := due, pkt := p }]) (hd : p.dests = [e])
    (he : routerOf e ≠ r) (hq : routerOf e / 4 = r / 4) (hs : (s.router (routerOf e)).starved ≠ s.clk + 1) :
    ∃ t, execRouterArbitration r s = .next t ∧ t = { s with routers := (s.arbitrating r).routers, transits := t.transits } ∧
      t.transits = (s.arbitrating r).transits ++ [{ at_ := routerOf e, due := s.clk + 3, pkt := p }] := by
  have hfar : NetPort.far r (.intra (routerOf e % 4)) = routerOf e := by
    change r / 4 * 4 + routerOf e % 4 = routerOf e
    omega
  have ha : (Arb.passAll ((s.arbitrating r).arb false) r (s.leaving r)).inject r =
      { (s.arbitrating r).arb false with taken := [.intra (routerOf e % 4)], sent := [(.intra (routerOf e % 4), p)] } := by
    rw [leaving_one ht hd]
    exact (congrArg (Arb.inject · r) (pass_intra _ hd he hq (by rw [starved_arbitrating]; exact hs))).trans
      (inject_none (router_arbitrating_wait hw))
  refine ⟨_, arbitration_eq hr hg hl ha, rfl, ?_⟩
  simp only [State.arb, Arb.departures, Arb.held, List.map_cons, List.map_nil, List.append_nil, hfar]
  rfl

/-- ROUTER_ARBITRATION of a waiting packet alone (R18). -/
theorem arbitration_injects {s : State} {r since : Nat} {p : Packet} {e : Endpoint} (hr : r < 64) (hg : s.goldenStale = false)
    (hopen : ∃ q ∈ netPorts r, (s.router (q.far r)).starved ≠ s.clk + 1) (hl : (s.router r).last ≠ s.clk + 1)
    (hw : (s.router r).wait = some (p, since)) (ht : s.transits.filter (fun x => x.at_ == r && decide (x.due ≤ s.clk)) = []) (hd : p.dests = [e]) :
    ∃ (port : NetPort) (crossed : Bool) (t : State), port.Leads r ∧ execRouterArbitration r s = .next t ∧ t = { s with routers := t.routers, transits := t.transits } ∧
      t.router r = { s.router r with wait := none, starved := 0, last := s.clk + 1, nextSeq := (s.router r).nextSeq + 1,
                                      outstanding := (s.router r).outstanding ++ [(p.seq, [e])] } ∧
      t.transits = s.transits ++ [{ at_ := port.far r, due := s.clk + port.cycles + 2, pkt := { p with time := s.clk, crossed := crossed } }] := by
  have htrans : (s.arbitrating r).transits = s.transits :=
    List.filter_eq_self.mpr fun x hx => by simpa [imp_iff_not_or] using List.filter_eq_nil_iff.mp ht x hx
  have hself : (s.arbitrating r).router r = { s.router r with last := s.clk + 1 } := by rw [router_arbitrating, if_pos rfl]
  obtain ⟨port, a, crossed, hport, hinj, hkept, hsent, hstate⟩ := inject_waiting (s := s.arbitrating r) (p := p) (since := since)
    (by rw [hself]; exact hw) hd (by simp only [starved_arbitrating]; exact hopen)
  have ha : (Arb.passAll ((s.arbitrating r).arb false) r (s.leaving r)).inject r = a := by
    rw [leaving_none ht]
    exact hinj
  refine ⟨port, crossed, _, hport, arbitration_eq hr hg hl ha, ?_, ?_, ?_⟩
  · rw [hstate]
    rfl
  · change a.state.router r = _
    rw [hstate, router_modRouter_same _ _ _ (by rw [router_id]), hself, hd]
  · unfold Arb.departures Arb.held
    rw [hsent, hkept, hstate]
    exact (List.append_nil _).trans (congrArg (· ++ _) htrans)

/-- A link takes one cycle or three (R15). -/
theorem NetPort.cycles_cases (p : NetPort) : p.cycles = 1 ∨ p.cycles = 3 := by
  cases p with
  | long => exact .inr rfl
  | intra | eject | gate => exact .inl rfl

/-! ### The other events of the network -/

/-- A router to which a packet is offered in a cycle. -/
def Router.offered (router clk : Nat) (dests : List Endpoint) (payload : List Byte) (r : Router) : Router :=
  { r with wait := some ({ router := router, seq := r.nextSeq, time := clk, dests := dests, crossed := false, payload := payload }, clk) }

theorem packetInjection_offers {s : State} {r : Nat} {o : Offer} (hr : r < 64) (hw : (s.router r).wait = none) (hd : o.dests ≠ [])
    (hp : o.payload.length ≤ 128) (he : ∀ e ∈ o.dests, endpointExists e = true) (ho : (s.router r).outstanding.length < 256) :
    exec (.packetInjection r o) s = .next (s.modRouter r (Router.offered r s.clk o.dests.dedup o.payload)) := by
  change execPacketInjection r o s = _
  unfold execPacketInjection
  dsimp only
  have hall : o.dests.all endpointExists = true := List.all_eq_true.mpr he
  refine if_neg ?_
  rw [hall, hw]
  simp only [Option.isSome_none, Bool.not_true, Bool.or_false, Bool.or_eq_true, decide_eq_true_eq, List.isEmpty_iff, hd, or_false]
  omega

/-- A packet's destinations that have been reached are not waited for. -/
theorem reach_reached {s : State} {p : Packet} {e : Endpoint} {x : Nat × List Endpoint} (hx : x ∈ ((s.reach p [e]).router p.router).outstanding)
    (hseq : x.1 = p.seq) : e ∉ x.2 := by
  unfold State.reach at hx
  rw [router_modRouter_same _ _ _ (router_id _ _)] at hx
  obtain ⟨hmap, _⟩ := List.mem_filter.mp hx
  obtain ⟨y, _, rfl⟩ := List.mem_map.mp hmap
  split at hseq
  next hy => rw [if_pos hy]; simp
  next hy => exact absurd (beq_iff_eq.mpr hseq) hy

theorem starvationSignal_raises {s : State} {r since : Nat} {p : Packet} (hw : (s.router r).wait = some (p, since)) (hlong : since + 64 ≤ s.clk) :
    exec (.starvationSignal r) s = .next (s.modRouter r (fun r => { r with starved := s.clk + 1 })) := by
  change execStarvationSignal r s = _
  unfold execStarvationSignal
  rw [hw]
  dsimp only
  rw [if_pos hlong]

/-- The golden identifiers with that of a die named for the epoch (R19). -/
def State.namedGolden (s : State) (die : Nat) : State :=
  { s with golden := { die := die, router := s.clk / 4096 % 16 } :: s.golden.filter (fun g => g.die != die) }

theorem goldenEpoch_names (s : State) (die : Nat) : (s.namedGolden die).goldenRouter die = s.clk / 4096 % 16 := by
  simp [State.namedGolden, State.goldenRouter]

theorem goldenEpoch_other (s : State) {die d : Nat} (hd : d ≠ die) : (s.namedGolden die).goldenRouter d = s.goldenRouter d := by
  have h := find?_replaced (p := fun g : Golden => g.die == die) (q := fun g => g.die == d) (y := { die := die, router := s.clk / 4096 % 16 }) s.golden
    (beq_false_of_ne hd.symm) (fun x hx => by rw [beq_iff_eq.mp hx]; exact beq_false_of_ne hd)
  change (match List.find? (fun g : Golden => g.die == d) ({ die := die, router := s.clk / 4096 % 16 } :: s.golden.filter (fun g => !(g.die == die))) with
    | some g => g.router
    | none => 0) = _
  rw [h]
  rfl

/-- A gateway whose sublink has carried a packet in a cycle: the rest of its queue waits. -/
def Gateway.carried (rest : List Packet) (clk : Nat) (g : Gateway) : Gateway := { g with tx := rest, sent := clk + 1 }

/-- A gateway that has received a packet. -/
def Gateway.received (p : Packet) (g : Gateway) : Gateway := { g with rx := g.rx ++ [p] }

theorem sublinkCrossing_moves {s : State} {die quad other : Nat} {p : Packet} {rest : List Packet} (htx : (s.gateway die quad other).tx = p :: rest)
    (hsent : (s.gateway die quad other).sent ≠ s.clk + 1) (hrx : (s.gateway other quad die).rx.length < 64) :
    exec (.sublinkCrossing die quad other) s = .next ((s.modGateway die quad other (Gateway.carried rest s.clk)).modGateway other quad die (Gateway.received p)) := by
  change execSublinkCrossing die quad other s = _
  unfold execSublinkCrossing
  dsimp only
  rw [htx]
  refine if_neg ?_
  simp only [Bool.or_eq_true, beq_iff_eq, decide_eq_true_eq]
  omega

theorem gatewayInjection_offers {s : State} {die quad other : Nat} {p : Packet} {rest : List Packet} (hrx : (s.gateway die quad other).rx = p :: rest)
    (hr : 16 * die + 4 * quad + 3 < 64) (hw : (s.router (16 * die + 4 * quad + 3)).wait = none)
    (ho : (s.router (16 * die + 4 * quad + 3)).outstanding.length < 256) :
    exec (.gatewayInjection die quad other) s = .next ((s.modGateway die quad other (fun g => { g with rx := rest })).modRouter (16 * die + 4 * quad + 3)
      (Router.offered (16 * die + 4 * quad + 3) s.clk p.dests p.payload)) := by
  change execGatewayInjection die quad other s = _
  unfold execGatewayInjection
  dsimp only
  rw [hrx]
  refine if_neg ?_
  rw [hw]
  simp only [Option.isSome_none, Bool.or_eq_true, decide_eq_true_eq, Bool.false_eq_true, false_or]
  omega

/-! ### The obligation -/

/-- Settles O58, by a lemma for each event: what the operations of the Huddle and of Cadence send never puts an old transfer
back (`State.Sends`), and a router's turn with one packet comes down to the port that the packet takes. -/
theorem fabricAndNetworkEvents : Obligations.FabricAndNetworkEvents := by
  unfold Obligations.FabricAndNetworkEvents
  refine ⟨?_, ?_, ?_, ?_, fun s port => ⟨_, rfl, rfl⟩, ?_, ?_, ?_, ?_, ?_, ?_, ?_, ?_⟩
  · intro s port x hx hl
    have hk := State.Sends.closeAll (s.sentWhole x)
    refine ⟨_, fabricPieceSend_last hx hl, hk.outbox, fun y hy hlt => ?_, fun hstay => ?_⟩
    · have hm := List.mem_filter.mp (hk.fabric y hy hlt)
      exact ⟨hm.1, bne_iff_ne.mp hm.2⟩
    · exact closeAll_stays (roundsStay_of_eq hstay rfl rfl)
  · intro s port x hx hl
    refine ⟨_, fabricPieceSend_part hx hl, rfl, ?_⟩
    simp [updWhere]
  · intro s id x hx hr
    have hid : x.id = id := by simpa using List.find?_some hx
    have hk := State.Sends.closeAll (s.dropTransfer x)
    obtain ⟨hcontribution, hsend⟩ := dropTransfer_stops s x
    refine ⟨_, fabricTransferDrop_eq hx hr, fun y hy hlt => hid ▸ mem_dropped_closeAll hy hlt, fun hstay _ => ?_,
      fun g m tag data h => hk.stop (hcontribution g m tag data h), fun down mb data h => hk.table (hsend down mb data h)⟩
    rw [closeAll_stays (dropTransfer_roundsStay hstay x), dropTransfer_fabric, hid]
  · intro s port hp hf
    refine ⟨_, fabricPortFailure_eq hp hf, (portFailed_sends s port).ports, fun y hy hlt => ?_⟩
    obtain ⟨hmem, hnot⟩ := mem_portFailed hy hlt
    exact ⟨hmem, fun h => hnot (List.mem_filter.mpr ⟨hmem, by simp [h]⟩)⟩
  · intro s r o hr hw hd hp he ho
    refine ⟨_, packetInjection_offers hr hw hd hp he ho, rfl, fun k hk => router_modRouter_other _ _ (router_id _ _) hk,
      router_modRouter_same _ _ _ (router_id _ _)⟩
  · intro s r p e due hr hg hl hw ht hd he
    refine ⟨_, arbitration_ejects hr hg hl hw ht hd he, rfl, rfl, fun x hx hseq => ?_⟩
    exact reach_reached hx hseq
  · intro s r p e due hr hg hl hw ht hd he hq hs
    obtain ⟨t, hexec, hkeep, htrans⟩ := arbitration_forwards hr hg hl hw ht hd he hq hs
    refine ⟨t, hexec, ?_, fun k => ?_, htrans⟩
    · rw [hkeep]
    · rw [← outstanding_arbitrating s r k, hkeep]
      rfl
  · intro s r p e since hr hg hopen hl hw ht hd
    obtain ⟨port, crossed, t, hport, hexec, hkeep, hrouter, htrans⟩ := arbitration_injects hr hg hopen hl hw ht hd
    refine ⟨t, _, hexec, hkeep, hrouter, htrans, hport.far_ne, ?_, hd, rfl, rfl, rfl⟩
    rcases port.cycles_cases with h | h <;> rw [h]
    · exact .inl rfl
    · exact .inr rfl
  · intro s r p since hw hlong
    exact ⟨_, starvationSignal_raises hw hlong, rfl, router_modRouter_same _ _ _ (router_id _ _)⟩
  · intro s die
    exact ⟨_, rfl, rfl, goldenEpoch_names s die, fun d hd => goldenEpoch_other s hd⟩
  · intro s die quad other p rest htx hsent hrx hne
    have hkeys : (die, quad, other) ≠ (other, quad, die) := fun h => hne (Prod.mk.inj h).1
    refine ⟨_, sublinkCrossing_moves htx hsent hrx, rfl, ?_, ?_⟩
    · rw [gateway_modGateway_other (f := Gateway.received p) _ (fun _ _ _ _ => rfl) hkeys,
        gateway_modGateway_same (f := Gateway.carried rest s.clk) _ _ _ _ (fun _ _ _ _ => rfl)]
      rfl
    · rw [gateway_modGateway_same (f := Gateway.received p) _ _ _ _ (fun _ _ _ _ => rfl),
        gateway_modGateway_other (f := Gateway.carried rest s.clk) _ (fun _ _ _ _ => rfl) hkeys.symm]
      rfl
  · intro s die quad other p rest hrx hr hw ho
    have hrouter := router_modRouter_same (s.modGateway die quad other (fun g => { g with rx := rest })) (16 * die + 4 * quad + 3)
      (Router.offered (16 * die + 4 * quad + 3) s.clk p.dests p.payload) (router_id _ _)
    refine ⟨_, _, gatewayInjection_offers hrx hr hw ho, rfl, ?_, congrArg Router.wait hrouter, rfl, rfl⟩
    exact congrArg Gateway.rx (gateway_modGateway_same s die quad other (f := fun g => { g with rx := rest }) (fun _ _ _ _ => rfl))

end Sys2Proof.Machine
end

section
/-! The dispatcher: a launch distributed, refused or resolved (R269, R270, R272). -/

namespace Sys2Proof.Machine

/-! ### Queues -/

theorem queue_id (s : State) (q : Nat) : (s.queue q).id = q := by
  unfold State.queue
  cases h : s.queues.find? (fun x => x.id == q) with
  | none => rfl
  | some x => simpa using List.find?_some h

theorem queue_modQueue_same (s : State) (q : Nat) (f : Queue → Queue) (hf : (f (s.queue q)).id = q) : (s.modQueue q f).queue q = f (s.queue q) := by
  have h := List.find?_cons_of_pos (p := fun x : Queue => x.id == q) (l := s.queues.filter (fun x => x.id != q)) (beq_iff_eq.mpr hf)
  exact congrArg (Option.getD · (.reset q)) h

/-! ### What a record's reading depends on -/

/-- Two states have the same main memory, address spaces, launches and power. -/
structure State.SameTables (s t : State) : Prop where
  main : t.main = s.main
  power : t.power = s.power
  asids : t.asids = s.asids
  launches : t.launches = s.launches

namespace State.SameTables

variable {s t : State} (h : s.SameTables t)
include h

theorem asidOf (a : Nat) : t.asidOf a = s.asidOf a := by
  unfold State.asidOf State.asid?
  rw [h.asids]

theorem walk (a va : Nat) : t.walk a va = s.walk a va := by
  unfold State.walk
  rw [h.main, h.power, h.asidOf]

theorem readVirt (a va n : Nat) : t.readVirt a va n = s.readVirt a va n := by
  induction n generalizing va with
  | zero => rfl
  | succ n ih =>
    unfold State.readVirt
    rw [h.walk, h.main, ih]

theorem windowOk (a : Nat) : t.windowOk a = s.windowOk a := by
  funext w
  unfold State.windowOk
  rw [h.power, h.launches]

theorem stackOk (base z size : Nat) : t.stackOk base z size = s.stackOk base z size := by
  unfold State.stackOk
  rw [h.power]

theorem readRecord (a r : Nat) : t.readRecord a r = s.readRecord a r := by
  unfold State.readRecord
  simp only [h.readVirt, h.windowOk, h.stackOk]

theorem rangePage (a va : Nat) (m : Bool) : t.rangePage a va m = s.rangePage a va m := by
  unfold State.rangePage
  rw [h.walk]

theorem pageSize (a va : Nat) : t.pageSize a va = s.pageSize a va := by
  unfold State.pageSize
  rw [h.main, h.power, h.asidOf]

theorem rangeStarts (a lo hi n : Nat) : t.rangeStarts a lo hi n = s.rangeStarts a lo hi n := by
  induction n generalizing lo with
  | zero => rfl
  | succ n ih =>
    unfold State.rangeStarts
    simp only [h.walk, h.pageSize, ih]

theorem rangePages (a : Nat) (rs : List MemRange) : t.rangePages a rs = s.rangePages a rs := by
  unfold State.rangePages
  simp only [h.rangeStarts, h.rangePage]

end State.SameTables

/-! ### Distribution and refusal -/

/-- The launch that the dispatcher makes of a record that passes its checks (R269). -/
def State.madeLaunch (s : State) (ident : Word) (queue asid : Nat) (record : DWord) (parentPriv : Bool) (parent : Word) (cadence : Option (Nat × Nat))
    (view : View) (b : List Byte) (k : Kernel) : Launch :=
  { key := s.nextId, ident := ident, queue := queue, record := record, parent := parent, asid := asid,
    priv := (BitVec.ofNat 32 (field b 20 4)).getLsbD 0 && parentPriv, kernel := k, args := BitVec.ofNat 64 (field b 8 8),
    nteam := field b 16 4, ftz := (BitVec.ofNat 32 (field b 20 4)).getLsbD 1, stkBase := field b 32 4,
    stkSlots := field b 36 4, windows := recordWindows b, ranges := recordRanges b, doneVa := BitVec.ofNat 64 (field b 200 8),
    cvcsat := 0, cvcftz := 0, cvcnan := 0, cvclim := BitVec.ofNat 32 (field b 24 4), phase := .ranges, pending := [],
    retired := 0, cadence := cadence, stopped := false, order := s.nextId, view := view, ended := [] }

/-- Steps that each leave every state as it is. -/
theorem foldl_stays {α β : Type} {f : β → α → β} {l : List α} (hl : ∀ p ∈ l, ∀ s, f s p = s) (s : β) : l.foldl f s = s := by
  induction l with
  | nil => rfl
  | cons p r ih => rw [List.foldl_cons, hl p List.mem_cons_self]; exact ih (fun q hq => hl q (List.mem_cons_of_mem _ hq))

theorem distribute_ok {s : State} {ident : Word} {queue asid : Nat} {record : DWord} {pp : Bool} {parent : Word} {cadence : Option (Nat × Nat)} {view : View}
    {b : List Byte} {k : Kernel} (hb : s.badWords = []) (hr : s.readRecord asid record.toNat = .ok (b, k))
    (hp : ∀ p ∈ s.rangePages asid (recordRanges b), p.2.2 = .good) :
    s.distribute ident queue asid record pp parent cadence view =
      { s.bumpId with launches := s.launches ++ [s.madeLaunch ident queue asid record pp parent cadence view b k] } := by
  have hprot : (s.rangePages asid (recordRanges b)).any (fun p => p.2.2 == .prot) = false := by
    rw [List.any_eq_false]
    intro p hmem
    rw [hp p hmem]
    decide
  unfold State.distribute
  rw [hr]
  dsimp only
  rw [hprot, if_neg Bool.false_ne_true, foldl_stays (fun p hmem s => by rw [hp p hmem])]
  unfold State.walkBad
  rw [if_pos (by simp [State.bumpId, hb])]
  rfl

theorem distribute_error {s : State} {ident : Word} {queue asid : Nat} {record : DWord} {pp : Bool} {parent : Word} {view : View} {code : Nat}
    (hr : s.readRecord asid record.toNat = .error code) :
    s.distribute ident queue asid record pp parent none view = s.refuse queue none record code := by
  unfold State.distribute
  rw [hr]

/-- A queue in which a refusal is recorded (R270). -/
def Queue.refused (record : DWord) (code : Nat) (q : Queue) : Queue := { q with errrec := record, errcode := code, errcnt := Nat.min (q.errcnt + 1) 0xFFFFFF }

theorem refuse_queue (s : State) (queue : Nat) (record : DWord) (code : Nat) :
    (s.refuse queue none record code).queue queue = (s.queue queue).refused record code := by
  change ((s.modQueue queue (Queue.refused record code)).postEvent 7 _).queue queue = _
  rw [← queue_modQueue_same s queue (Queue.refused record code) (queue_id s queue)]
  unfold State.queue
  rw [State.postEvent_queues]

/-- What a refusal leaves as it is. -/
theorem refuse_keeps (s : State) (queue : Nat) (record : DWord) (code : Nat) : (s.refuse queue none record code).launches = s.launches ∧
    (s.refuse queue none record code).main = s.main ∧ (s.refuse queue none record code).teams = s.teams :=
  ⟨State.postEvent_launches _ _ _, State.postEvent_main _ _ _, State.postEvent_teams _ _ _⟩

/-! ### DISPATCHER_CHOICE -/

/-- The state in which the head entry of a queue has been taken. -/
def State.takenFrom (s : State) (q : Nat) (rest : List QEntry) : State :=
  { s.modQueue q (fun x => { x with entries := rest }) with lastQueue := some q }

theorem takenFrom_sameTables (s : State) (q : Nat) (rest : List QEntry) : s.SameTables (s.takenFrom q rest) := ⟨rfl, rfl, rfl, rfl⟩

theorem takenFrom_queue (s : State) (q : Nat) (rest : List QEntry) : (s.takenFrom q rest).queue q = { s.queue q with entries := rest } :=
  queue_modQueue_same s q (fun x => { x with entries := rest }) (queue_id s q)

theorem dispatcherChoice_takes {s : State} {ident : Word} {q : Queue} {e : QEntry} {rest : List QEntry} (hq : s.chooseQueue = some q) (he : q.entries = e :: rest)
    (hp : s.preparing < Config.launchesPreparing) (hi : s.identFree ident = true) (ht : s.power.tripped = false) :
    exec (.dispatcherChoice ident) s = .next ((s.takenFrom q.id rest).distribute ident q.id q.asid e.record e.priv e.parent none e.view) := by
  change execDispatcherChoice ident s = _
  unfold execDispatcherChoice
  rw [hq]
  dsimp only
  rw [he]
  dsimp only
  rw [hi, ht, if_neg (by simpa using hp)]
  rfl

/-! ### LAUNCH_RANGES_RESOLVED -/

/-- A launch whose ranges are resolved: all its teams are pending (R270). -/
def Launch.resolved (l : Launch) : Launch := { l with phase := .running, pending := List.range l.nteam }

theorem launchRangesResolved_pends {s : State} {key : Nat} {l : Launch} (hl : s.launch? key = some l) (hph : l.phase = .ranges) (hst : l.stopped = false)
    (hf : ∀ f ∈ s.faults ++ s.faultsWaiting, ¬(f.launch = l.ident.toNat ∧ 4 ≤ f.kind)) :
    exec (.launchRangesResolved key) s = .next (s.modLaunch key Launch.resolved) := by
  have hopen : (s.faults ++ s.faultsWaiting).any (fun f => f.launch == l.ident.toNat && decide (f.kind ≥ 4)) = false := by
    rw [List.any_eq_false]
    intro f hmem
    have := hf f hmem
    simpa [Bool.and_eq_true] using this
  change execLaunchRangesResolved key s = _
  unfold execLaunchRangesResolved
  rw [hl]
  dsimp only
  rw [hopen, hph, hst]
  rfl

/-- What a launch's table holds after one of its launches has been changed. -/
theorem launch?_modLaunch (s : State) (key k : Nat) {f : Launch → Launch} (hf : ∀ l, (f l).key = l.key) :
    (s.modLaunch key f).launch? k = if k = key then (s.launch? k).map f else s.launch? k := by
  unfold State.modLaunch State.launch?
  dsimp only
  rw [find?_updWhere _ _ _ _ (fun l => by rw [hf])]
  cases h : s.launches.find? (fun l => l.key == k) with
  | none => simp
  | some l =>
    have hk : l.key = k := by simpa using List.find?_some h
    by_cases hkey : k = key <;> simp [hk, hkey]

/-! ### The clauses of the dispatcher -/

theorem dispatcherChoice_distributes {s : State} {ident : Word} {q : Queue} {e : QEntry} {rest : List QEntry} {b : List Byte} {k : Kernel}
    (hq : s.chooseQueue = some q) (he : q.entries = e :: rest) (hp : s.preparing < Config.launchesPreparing) (hi : s.identFree ident = true)
    (ht : s.power.tripped = false) (hb : s.badWords = []) (hr : s.readRecord q.asid e.record.toNat = .ok (b, k))
    (hg : ∀ p ∈ s.rangePages q.asid (recordRanges b), p.2.2 = .good) :
    exec (.dispatcherChoice ident) s = .next { (s.takenFrom q.id rest).bumpId with
      launches := s.launches ++ [s.madeLaunch ident q.id q.asid e.record e.priv e.parent none e.view b k] } := by
  have htab := takenFrom_sameTables s q.id rest
  rw [dispatcherChoice_takes hq he hp hi ht, distribute_ok (s := s.takenFrom q.id rest) hb (by rw [htab.readRecord]; exact hr)
    (by rw [htab.rangePages]; exact hg)]
  rfl

theorem dispatcherChoice_refuses {s : State} {ident : Word} {q : Queue} {e : QEntry} {rest : List QEntry} {code : Nat}
    (hq : s.chooseQueue = some q) (he : q.entries = e :: rest) (hp : s.preparing < Config.launchesPreparing) (hi : s.identFree ident = true)
    (ht : s.power.tripped = false) (hr : s.readRecord q.asid e.record.toNat = .error code) :
    exec (.dispatcherChoice ident) s = .next ((s.takenFrom q.id rest).refuse q.id none e.record code) := by
  rw [dispatcherChoice_takes hq he hp hi ht, distribute_error (by rw [(takenFrom_sameTables s q.id rest).readRecord]; exact hr)]

/-- A bit of a field's word. -/
theorem getLsbD_ofNat_word (n : Nat) {i : Nat} (hi : i < 32) : (BitVec.ofNat 32 n).getLsbD i = n.testBit i := by
  rw [BitVec.getLsbD_ofNat, decide_eq_true hi, Bool.true_and]

end Sys2Proof.Machine
end

section
/-! Placement: the runs of a core, home groups and their threads, a new team, a spawn bin's home group (R31 to R34, R154,
R250, R256 to R258, R271). -/

namespace Sys2Proof.Machine

/-! ### Runs (R250, R257, R258) -/

theorem mem_insertBy {α : Type} (key : α → Nat) (x y : α) (l : List α) : y ∈ insertBy key x l ↔ y = x ∨ y ∈ l := by
  induction l with
  | nil => simp [insertBy]
  | cons z r ih =>
    unfold insertBy
    split
    · exact List.mem_cons
    · rw [List.mem_cons, ih, List.mem_cons]; exact or_left_comm

theorem mem_sortBy {α : Type} (key : α → Nat) (y : α) (l : List α) : y ∈ sortBy key l ↔ y ∈ l := by
  induction l with
  | nil => rfl
  | cons x r ih =>
    change y ∈ insertBy key x (sortBy key r) ↔ _
    rw [mem_insertBy, ih, List.mem_cons]

/-- A run at a base lies within the whole and apart from the runs in use. -/
def runFree (used : List (Nat × Nat)) (total size b : Nat) : Bool :=
  decide (b + size ≤ total) && (used.filter (fun u => u.2 != 0)).all (fun u => decide (b + size ≤ u.1 ∨ u.1 + u.2 ≤ b ∨ size = 0))

theorem freeRun_eq (used : List (Nat × Nat)) (total size wish : Nat) : freeRun used total size wish =
    (wish :: sortBy id (0 :: (used.filter (fun u => u.2 != 0)).map (fun u => u.1 + u.2))).find? (runFree used total size) := rfl

/-- A wish that cannot be met leaves the lowest place (log entry 22): where 0 is wished in vain or not, a place is found. -/
theorem freeRun_isSome {used : List (Nat × Nat)} {total size : Nat} (wish : Nat) (h : (freeRun used total size 0).isSome) :
    (freeRun used total size wish).isSome := by
  rw [freeRun_eq, List.find?_isSome] at h ⊢
  obtain ⟨b, hb, hfree⟩ := h
  refine ⟨b, List.mem_cons_of_mem _ ?_, hfree⟩
  rcases List.mem_cons.mp hb with rfl | hb
  · exact (mem_sortBy id _ _).mpr List.mem_cons_self
  · exact hb

theorem freeRun_fits {used : List (Nat × Nat)} {total size wish b : Nat} (h : freeRun used total size wish = some b) :
    b + size ≤ total ∧ ∀ u ∈ used, Apart b size u.1 u.2 := by
  rw [freeRun_eq] at h
  have hfree := List.find?_some h
  unfold runFree at hfree
  rw [Bool.and_eq_true, decide_eq_true_eq, List.all_eq_true] at hfree
  refine ⟨hfree.1, fun u hu => ?_⟩
  by_cases hz : u.2 = 0
  · exact .inr (.inl hz)
  · have := of_decide_eq_true (hfree.2 u (List.mem_filter.mpr ⟨hu, by simpa using hz⟩))
    rcases this with h | h | h
    · exact .inr (.inr (.inl h))
    · exact .inr (.inr (.inr h))
    · exact .inl h

theorem mem_runsOf {s : State} {core : Nat} (f : Team → Kernel → Nat × Nat) {y : Team} {l : Launch} (hy : y ∈ s.teams) (hc : y.core? = some core)
    (hl : s.launch? y.launch = some l) : f y l.kernel ∈ s.runsOf core f :=
  List.mem_filterMap.mpr ⟨y, List.mem_filter.mpr ⟨hy, beq_iff_eq.mpr hc⟩, by rw [hl]; rfl⟩

theorem areasFor_isSome {s : State} {core : Nat} {k : Kernel} (wish : Areas) (h : (s.areasFor core k default).isSome) : (s.areasFor core k wish).isSome := by
  obtain ⟨a, ha⟩ := Option.isSome_iff_exists.mp h
  unfold State.areasFor at ha ⊢
  split at ha
  next l b t hl hb ht =>
    obtain ⟨l', hl'⟩ := Option.isSome_iff_exists.mp (freeRun_isSome (128 * wish.lsm) (Option.isSome_of_eq_some hl))
    obtain ⟨b', hb'⟩ := Option.isSome_iff_exists.mp (freeRun_isSome wish.acc (Option.isSome_of_eq_some hb))
    obtain ⟨t', ht'⟩ := Option.isSome_iff_exists.mp (freeRun_isSome (2048 * wish.tile) (Option.isSome_of_eq_some ht))
    rw [hl', hb', ht']
    rfl
  next => exact absurd ha (by simp)

/-- The areas found for a kernel are within the core's memories and apart from those of its other teams. -/
theorem areasFor_apart {s : State} {core : Nat} {k : Kernel} {wish a : Areas} (h : s.areasFor core k wish = some a) {x : Team} (hl : x.lsmBase = a.lsm)
    (hacc : x.accBase = a.acc) (ht : x.tileBase = a.tile) : x.apart k s core := by
  unfold State.areasFor at h
  split at h
  next l b t hl' hb' ht' =>
    obtain rfl := Option.some.inj h
    obtain ⟨hlb, hla⟩ := freeRun_fits hl'
    obtain ⟨hab, haa⟩ := freeRun_fits hb'
    obtain ⟨htb, hta⟩ := freeRun_fits ht'
    unfold Team.apart
    rw [hl, hacc, ht]
    exact ⟨hlb, hab, htb, fun y hy hc l hlaunch =>
      ⟨hla _ (mem_runsOf (fun t k => (t.lsmBase, k.lsm)) hy hc hlaunch), haa _ (mem_runsOf (fun t k => (t.accBase, k.acc)) hy hc hlaunch),
        hta _ (mem_runsOf (fun t k => (t.tileBase, k.tiles)) hy hc hlaunch)⟩⟩
  next => exact absurd h (by simp)

/-- What a new team finds on a core it fits on. -/
theorem fitsOn_new {s : State} {w : Waiting} {core : Nat} {hs : List HgSpec} {bs : List Nat} {st : Option Nat} (hw : w.saved = none)
    (h : s.fitsOn w core = some (hs, bs, st)) : hs = w.launch.kernel.hgs ∧ (s.areasFor core w.launch.kernel default).isSome := by
  unfold State.fitsOn at h
  rw [hw] at h
  dsimp only at h
  split at h
  next st' bs' _ hfit =>
    refine ⟨(Prod.mk.inj (Option.some.inj h)).1.symm, ?_⟩
    unfold State.coreFits at hfit
    split at hfit
    · exact absurd hfit (by simp)
    next hn =>
      simp only [Bool.or_eq_true, not_or] at hn
      simpa [Option.isSome_iff_ne_none] using hn.2
  next => exact absurd h (by simp)

/-! ### Home groups made (R31, R154, R321) -/

/-- A thread at its start, behind which the launch's view is. -/
def Thread.starts (u : Thread) (team : Nat) (k : Kernel) (v : List Word) (base : View) (clk : Nat) : Prop :=
  ∃ tid role hg hidx lane stack, u = (Thread.fresh team tid role hg hidx lane (k.role role).regs v (k.role role).entry clk stack).learn base 0

/-- All that a view holds is known to a thread that has learned it at its start. -/
theorem know_learn_fresh (team tid role hg hidx lane regs : Nat) (v : List Word) (pc : BitVec 57) (clk stack : Nat) (base : View) :
    ∀ q ∈ base, ∃ n ∈ ((Thread.fresh team tid role hg hidx lane regs v pc clk stack).learn base 0).know, n.loc = q.1 ∧ n.stamp = q.2 ∧ n.start = 0 := by
  intro q hq
  refine ⟨{ loc := q.1, stamp := q.2, start := 0, engine := some 0 }, ?_, rfl, rfl, rfl⟩
  exact List.mem_append_right _ (List.mem_map.mpr ⟨q, List.mem_filter.mpr ⟨hq, rfl⟩, rfl⟩)

/-- Home groups have been added, with some threads, and nothing else. -/
def State.withGroups (s : State) (gs : List HomeGroup) (ts : List Thread) : State := { s with groups := s.groups ++ gs, threads := s.threads ++ ts }

theorem withGroups_withGroups (s : State) (gs hs : List HomeGroup) (ts us : List Thread) :
    (s.withGroups gs ts).withGroups hs us = s.withGroups (gs ++ hs) (ts ++ us) := by
  unfold State.withGroups
  simp

/-- The threads of a new home group. -/
def State.groupThreads (s : State) (team : Nat) (k : Kernel) (role idx block tid0 : Nat) (entry : BitVec 57) (items : List (List Word))
    (base : View) (views : List View) : List Thread :=
  items.mapIdx (fun h v => (Thread.fresh team (tid0 + h) role idx h (block * (k.role role).gsize + h) (k.role role).regs v entry s.clk
    (((List.range (1024 + items.length)).filter (fun i => !(s.stackUsed team).contains i)).getD h 0)).learn (joinViews base (views.getD h [])) 0)

theorem makeGroup_eq (s : State) (team : Nat) (k : Kernel) (role idx block tid0 : Nat) (entry : BitVec 57) (items : List (List Word)) (base : View)
    (views : List View) : s.makeGroup team k role idx block tid0 entry items base views =
      s.withGroups [HomeGroup.fresh team role idx (k.role role).gsize block k.join (maskOf ((List.range (k.role role).gsize).filter (fun i => decide (i ≥ items.length))))]
        (s.groupThreads team k role idx block tid0 entry items base views) := rfl

/-- The home groups of a new team, in order. -/
def State.makeGroups (s : State) (team : Nat) (k : Kernel) (v : List Word) (base : View) (tid0 : Nat) (l : List (HgSpec × Nat)) : State × Nat :=
  l.foldl (fun (acc : State × Nat) (p : HgSpec × Nat) =>
    (acc.1.makeGroup team k p.1.role p.1.idx p.2 acc.2 (k.role p.1.role).entry (List.replicate p.1.g v) base [], acc.2 + p.1.g)) (s, tid0)

theorem groupThreads_starts {s : State} {team : Nat} {k : Kernel} {role idx block tid0 n : Nat} {v : List Word} {base : View} {u : Thread}
    (h : u ∈ s.groupThreads team k role idx block tid0 (k.role role).entry (List.replicate n v) base []) : u.starts team k v base s.clk := by
  obtain ⟨i, hi, rfl⟩ := List.mem_mapIdx.mp h
  rw [List.getElem_replicate]
  exact ⟨_, _, _, _, _, _, rfl⟩

/-- A team's home groups come with as many threads as they declare, each at its start. -/
theorem makeGroups_adds (team : Nat) (k : Kernel) (v : List Word) (base : View) (l : List (HgSpec × Nat)) (s : State) (tid0 : Nat) :
    ∃ gs ts, (s.makeGroups team k v base tid0 l).1 = s.withGroups gs ts ∧ gs.length = l.length ∧ ts.length = (l.map (fun p => p.1.g)).sum ∧
      ∀ u ∈ ts, u.starts team k v base s.clk := by
  induction l generalizing s tid0 with
  | nil => exact ⟨[], [], by simp [State.makeGroups, State.withGroups], rfl, rfl, fun u hu => absurd hu List.not_mem_nil⟩
  | cons p r ih =>
    have hone := makeGroup_eq s team k p.1.role p.1.idx p.2 tid0 (k.role p.1.role).entry (List.replicate p.1.g v) base []
    generalize hg : HomeGroup.fresh _ _ _ _ _ _ _ = g at hone
    generalize ht : s.groupThreads _ _ _ _ _ _ _ _ _ _ = ts at hone
    obtain ⟨gs, us, heq, hgl, hul, hstart⟩ := ih (s.withGroups [g] ts) (tid0 + p.1.g)
    refine ⟨g :: gs, ts ++ us, ?_, by simp [hgl], ?_, fun u hu => ?_⟩
    · change ((s.makeGroup team k p.1.role p.1.idx p.2 tid0 (k.role p.1.role).entry (List.replicate p.1.g v) base []).makeGroups team k v base (tid0 + p.1.g) r).1 = _
      rw [hone, heq, withGroups_withGroups]
      rfl
    · have hlen : ts.length = p.1.g := by rw [← ht]; simp [State.groupThreads]
      simp [hul, hlen]
    · rcases List.mem_append.mp hu with h | h
      · exact groupThreads_starts (ht ▸ h)
      · exact hstart u h

/-! ### A new team (R33, R233 to R242, R252, R258) -/

/-- A new team at its placement. -/
def State.newTeam (s : State) (l : Launch) (index core slot prio : Nat) (stack : Option Nat) (wish : Areas) : Team :=
  let at_ := (s.areasFor core l.kernel wish).getD default
  let k := l.kernel
  { key := s.nextId, launch := l.key, index := index, place := .resident core slot, lastCore := core, prio := prio, since := s.clk,
    limits := k.roles.map (·.gsize), mode := if l.ftz then 1#32 else 0#32, bktpri := 0#32, rgn := .none, wdog := 0,
    wdogHit := false, wdogAgain := false, wdogHandling := false, stackSlot := stack, nextTid := (k.hgs.map (·.g)).sum, nextIdx := k.roles.map (·.groups),
    lsm := [], acc := [], lsmBase := at_.lsm, accBase := at_.acc, tileBase := at_.tile, tiles := List.replicate 16 .empty, bars := List.replicate 16 .zero, saveReq := false,
    killed := false, savedBins := [], savedLocks := [], image := 0, tagged := 0 }

/-- A team added under the next key. -/
def State.withTeam (s : State) (x : Team) : State := { s.bumpId with teams := s.teams ++ [x] }

theorem placeNew_eq (s : State) (l : Launch) (index core slot prio : Nat) (stack : Option Nat) (blocks : List Nat) (wish : Areas) :
    s.placeNew l index core slot prio stack blocks wish = ((s.withTeam (s.newTeam l index core slot prio stack wish)).makeGroups
      s.nextId l.kernel (unpair l.args) l.view 0 (l.kernel.hgs.zip blocks)).1 := rfl

theorem newTeam_apart {s : State} {l : Launch} {core : Nat} (index slot prio : Nat) (stack : Option Nat) (wish : Areas)
    (h : (s.areasFor core l.kernel default).isSome) : (s.newTeam l index core slot prio stack wish).apart l.kernel s core := by
  obtain ⟨a, ha⟩ := Option.isSome_iff_exists.mp (areasFor_isSome wish h)
  have : (s.areasFor core l.kernel wish).getD default = a := by rw [ha]; rfl
  exact areasFor_apart ha (congrArg Areas.lsm this) (congrArg Areas.acc this) (congrArg Areas.tile this)

/-- A launch of which a team has been placed. -/
def Launch.placed (index : Nat) (l : Launch) : Launch := { l with pending := l.pending.filter (fun i => i != index) }

/-! ### TEAM_PLACEMENT (R271, R347) -/

section
variable {s : State} {w : Waiting} {core : Nat} {hs : List HgSpec} {bs : List Nat} {st : Option Nat} {slot : Nat} {wish : Areas}
  (hn : s.nextPlaced = some (w, core)) (hg : s.power.gating.contains (quadOf core) = false) (hq : s.power.gated.contains (quadOf core) = false)
  (hf : s.fitsOn w core = some (hs, bs, st)) (hl : lowestFree (s.slotsUsed core) Config.teamSlots = some slot)
include hn hg hq hf hl

theorem teamPlacement_new (hw : w.saved = none) : exec (.teamPlacement wish) s = .next ((s.placeNew w.launch w.index core slot (s.launchPrio w.launch) st bs wish).modLaunch
    w.launch.key (Launch.placed w.index)) := by
  change execTeamPlacement wish s = _
  unfold execTeamPlacement
  rw [hn]
  dsimp only
  rw [hg, hq, hf, hl, hw]
  rfl

theorem teamPlacement_spoiled {x : Team} (hw : w.saved = some x) (hi : s.slotIntact x = false) : exec (.teamPlacement wish) s = .next (s.killTeam x.key 0) := by
  change execTeamPlacement wish s = _
  unfold execTeamPlacement
  rw [hn]
  dsimp only
  rw [hg, hq, hf, hl, hw]
  dsimp only
  rw [hi]
  rfl

end

/-! ### Spawn bins (R153, R154) -/

theorem getElem?_updAt {α : Type} (i j : Nat) (f : α → α) (l : List α) : (updAt i f l)[j]? = if j = i then l[j]?.map f else l[j]? := by
  induction l generalizing i j with
  | nil => unfold updAt; simp
  | cons x r ih =>
    unfold updAt
    cases i with
    | zero => cases j <;> simp
    | succ i =>
      cases j with
      | zero => simp
      | succ j => simpa using ih i j

/-- A bin whose last cycle ends has waited long enough (R154). -/
def Bin.expired (b : Bin) : Bin := if b.timer = 1 then { b with timer := 0 } else b

/-- SPAWN_BIN_TIMER_EXPIRY changes a core's bins alone. -/
def Core.binExpired (bin : Nat) (c : Core) : Core := { c with bins := updAt bin Bin.expired c.bins }

/-- The bins of a core that a home group has left. -/
def Core.binLeft (bin n : Nat) (c : Core) : Core :=
  { c with bins := (c.bins.mapIdx (fun i x => if i = bin then x.rest n else some x)).filterMap (fun x => x) }

/-- A team in which a bin has made a home group of some threads. -/
def Team.grown (role idx n : Nat) (x : Team) : Team := { x with nextTid := x.nextTid + n, nextIdx := updAt role (fun _ => idx + 1) x.nextIdx }

theorem spawnGroupPlacement_places {s : State} {core bin : Nat} {k : Core} {b : Bin} {x : Team} {l : Launch} {items : List (List Word)} {block : Nat}
    (hk : s.core? core = some k) (hb : k.bins[bin]? = some b) (hx : s.team? b.team = some x) (hl : s.launch? x.launch = some l)
    (hi : b.ripe (l.kernel.role b.role).gsize = items) (hne : items ≠ []) (ht : s.power.tripped = false) (hkill : x.killed = false)
    (hr : b.role < l.kernel.roles.length) (hlen : (s.threads.filter (fun u => u.team == x.key)).length + items.length ≤ 1024)
    (hp : placeHgs (s.laneLoad core) l.kernel.rows [{ role := b.role, idx := x.nextIdx.getD b.role 0, g := (l.kernel.role b.role).gsize, regs := (l.kernel.role b.role).regs }] = some [block]) :
    exec (.spawnGroupPlacement core bin) s = .next (((s.makeGroup x.key l.kernel b.role (x.nextIdx.getD b.role 0) block x.nextTid b.entry items l.view b.views).modTeam x.key
      (Team.grown b.role (x.nextIdx.getD b.role 0) items.length)).modCore core (Core.binLeft bin items.length)) := by
  have hlive : (s.threads.filter (fun u => u.team == x.key && (match s.hg? x.key u.role u.hg with
      | some g => !g.retired
      | none => false))).length ≤ (s.threads.filter (fun u => u.team == x.key)).length :=
    (List.monotone_filter_right _ (fun u h => (Bool.and_eq_true_iff.mp h).1)).length_le
  change execSpawnGroupPlacement core bin s = _
  unfold execSpawnGroupPlacement
  rw [hk]
  dsimp only
  rw [hb]
  dsimp only
  rw [hx]
  dsimp only
  rw [hl]
  dsimp only
  rw [hi, ht, hkill, if_neg, hp]
  · rfl
  · simp only [Bool.or_false, Bool.or_eq_true, decide_eq_true_eq, List.isEmpty_iff, hne, false_or]
    rintro (h | h)
    · exact Nat.not_le.mpr hr h
    · exact Nat.not_lt.mpr ((Nat.add_le_add_right hlive _).trans hlen) h

end Sys2Proof.Machine
end

section
/-! The events of launches and placement: O59. -/

namespace Sys2Proof.Machine

/-- What a new thread of a team has at its start (R231, R233, R321). -/
theorem Thread.starts.values {u : Thread} {team : Nat} {k : Kernel} {v : List Word} {base : View} {clk : Nat} (h : u.starts team k v base clk) :
    u.team = team ∧ u.status = .ready ∧ u.clause = none ∧ u.pc = (k.role u.role).entry ∧ u.p = 0#8 ∧ u.since = clk ∧ u.ldcnt = 0 ∧ u.stcnt = 0 ∧
      u.xfcnt = 0 ∧ u.tlcnt = 0 ∧ u.path = 0#64 ∧ (∀ q ∈ base, ∃ n ∈ u.know, n.loc = q.1 ∧ n.stamp = q.2 ∧ n.start = 0) ∧
      u.v = (v ++ List.replicate (k.role u.role).regs 0#32).take (k.role u.role).regs := by
  obtain ⟨tid, role, hg, hidx, lane, stack, rfl⟩ := h
  exact ⟨rfl, rfl, rfl, rfl, rfl, rfl, rfl, rfl, rfl, rfl, rfl, know_learn_fresh _ _ _ _ _ _ _ _ _ _ _ _, rfl⟩

theorem bar_newTeam (s : State) (l : Launch) (index core slot prio : Nat) (stack : Option Nat) (wish : Areas) (j : Nat) :
    (s.newTeam l index core slot prio stack wish).bar j = .zero := by
  change (List.replicate 16 Barrier.zero).getD j .zero = .zero
  rw [List.getD_eq_getElem?_getD, List.getElem?_replicate]
  split <;> rfl

theorem tile_newTeam (s : State) (l : Launch) (index core slot prio : Nat) (stack : Option Nat) (wish : Areas) (j : Nat) :
    ((s.newTeam l index core slot prio stack wish).tile j).conf = false := by
  change ((List.replicate 16 Tile.empty).getD j .empty).conf = false
  rw [List.getD_eq_getElem?_getD, List.getElem?_replicate]
  split <;> rfl

/-- Settles O59: the areas that are found suit the team, and its home groups add themselves and threads at their start alone. -/
theorem launchAndPlacementEvents : Obligations.LaunchAndPlacementEvents := by
  unfold Obligations.LaunchAndPlacementEvents
  refine ⟨?_, ?_, ?_, ?_, ?_, ?_, ?_⟩
  · intro s ident q e rest b k hq he hp hi ht hb hr hg
    refine ⟨_, s.madeLaunch ident q.id q.asid e.record e.priv e.parent none e.view b k, dispatcherChoice_distributes hq he hp hi ht hb hr hg, rfl,
      congrArg Queue.entries (takenFrom_queue s q.id rest), rfl, rfl, rfl, rfl, rfl, rfl, rfl, rfl, rfl, rfl, ?_, ?_, rfl, rfl, rfl, rfl, rfl, rfl, rfl, rfl⟩
    · exact congrArg (· && e.priv) (getLsbD_ofNat_word _ (by decide))
    · exact getLsbD_ofNat_word _ (by decide)
  · intro s ident q e rest code hq he hp hi ht hr
    have hqueue := (refuse_queue (s.takenFrom q.id rest) q.id e.record code).trans (congrArg (Queue.refused e.record code) (takenFrom_queue s q.id rest))
    obtain ⟨hlaunches, hmain, hteams⟩ := refuse_keeps (s.takenFrom q.id rest) q.id e.record code
    exact ⟨_, dispatcherChoice_refuses hq he hp hi ht hr, hlaunches, congrArg Queue.entries hqueue, congrArg Queue.errcode hqueue,
      congrArg Queue.errrec hqueue, congrArg Queue.errcnt hqueue, hmain, hteams⟩
  · intro s key l hl hph hst hf
    refine ⟨_, launchRangesResolved_pends hl hph hst hf, rfl, ?_, fun k hk => ?_⟩
    · rw [launch?_modLaunch (f := Launch.resolved) _ _ _ (fun _ => rfl), if_pos rfl, hl]
      rfl
    · rw [launch?_modLaunch (f := Launch.resolved) _ _ _ (fun _ => rfl), if_neg hk]
  · intro s w core hs bs st slot wish hn hw hg hq hf hl hlen
    obtain ⟨hhs, hareas⟩ := fitsOn_new hw hf
    obtain ⟨gs, ts, hplace, hgs, hts, hstart⟩ := makeGroups_adds s.nextId w.launch.kernel (unpair w.launch.args) w.launch.view (w.launch.kernel.hgs.zip bs)
      (s.withTeam (s.newTeam w.launch w.index core slot (s.launchPrio w.launch) st wish)) 0
    have hexec := teamPlacement_new (wish := wish) hn hg hq hf hl hw
    rw [placeNew_eq, hplace] at hexec
    refine ⟨_, s.newTeam w.launch w.index core slot (s.launchPrio w.launch) st wish, ts, hexec, rfl, rfl, rfl, rfl, rfl, rfl, rfl, rfl, rfl,
      newTeam_apart _ _ _ _ _ hareas, bar_newTeam s _ _ _ _ _ _ _, tile_newTeam s _ _ _ _ _ _ _, rfl, ?_, rfl, ?_, fun u hu => (hstart u hu).values, fun l hlaunch => ?_⟩
    · change (s.groups ++ gs).length = _
      rw [List.length_append, hgs, List.length_zip, hlen, hhs, Nat.min_self]
    · have hzip : (w.launch.kernel.hgs.zip bs).map (fun p => p.1.g) = w.launch.kernel.hgs.map (·.g) := by
        have hfst : (w.launch.kernel.hgs.zip bs).map Prod.fst = w.launch.kernel.hgs := List.map_fst_zip (by rw [hlen, hhs])
        exact (List.map_map (f := Prod.fst) (g := HgSpec.g)).symm.trans (congrArg (List.map HgSpec.g) hfst)
      rw [hts, hhs, hzip]
    · rw [launch?_modLaunch (f := Launch.placed w.index) _ _ _ (fun _ => rfl), if_pos rfl]
      exact congrArg (Option.map _) hlaunch
  · intro s w core x hs bs st slot wish hn hw hg hq hf hl hi
    exact teamPlacement_spoiled hn hg hq hf hl hw hi
  · intro s core bin k hk
    have hcore : (s.modCore core (Core.binExpired bin)).core? core = some (k.binExpired bin) := by
      rw [core?_modCore _ _ (Core.binExpired bin) (fun _ => rfl), hk, Option.map_some, if_pos rfl]
    refine ⟨_, _, rfl, rfl, hcore, rfl, fun j b hb => ?_⟩
    unfold Core.binExpired
    rw [getElem?_updAt, hb]
    by_cases hj : j = bin
    · simp [hj, Bin.expired]
    · simp [hj]
  · intro s core bin k b x l items block hk hb hx hl hi hne ht hkill hr hlen hp
    have hkey : x.key = b.team := by simpa using List.find?_some hx
    refine ⟨_, s.groupThreads x.key l.kernel b.role (x.nextIdx.getD b.role 0) block x.nextTid b.entry items l.view b.views,
      HomeGroup.fresh x.key b.role (x.nextIdx.getD b.role 0) (l.kernel.role b.role).gsize block l.kernel.join
        (maskOf ((List.range (l.kernel.role b.role).gsize).filter (fun i => decide (i ≥ items.length)))),
      spawnGroupPlacement_places hk hb hx hl hi hne ht hkill hr hlen hp, rfl, rfl, rfl, rfl, rfl, rfl, rfl, rfl, ?_, fun i u ws hu hws => ?_, fun y hy => ?_⟩
    · simp [State.groupThreads]
    · rw [State.groupThreads, List.getElem?_mapIdx, hws] at hu
      obtain rfl := Option.some.inj hu
      exact ⟨rfl, rfl, rfl, rfl, rfl, rfl, rfl, rfl⟩
    · change ((s.makeGroup x.key l.kernel b.role (x.nextIdx.getD b.role 0) block x.nextTid b.entry items l.view b.views).modTeam x.key
        (Team.grown b.role (x.nextIdx.getD b.role 0) items.length)).team? b.team = some y at hy
      rw [team?_modTeam _ _ (Team.grown b.role (x.nextIdx.getD b.role 0) items.length) (fun _ => rfl), makeGroup_eq] at hy
      change Option.map _ (s.team? b.team) = some y at hy
      rw [hx, Option.map_some, if_pos hkey.symm] at hy
      rw [← Option.some.inj hy]
      rfl

end Sys2Proof.Machine
end

section
/-! What engine writes do to the memories (R189, R215, R222, R316): they reach the bytes they name, and nothing else of a
memory changes. -/

namespace Sys2Proof.Machine

/-- From `s` to `t` bytes at the places of `P` may have been written, and nothing has changed that is not a memory or the
record of its writes. -/
structure State.WritesIn (P : Loc → Prop) (s t : State) : Prop where
  state : t = { s with main := t.main, dsm := t.dsm, sys := t.sys, teams := t.teams, hist := t.hist, badWords := t.badWords, nextId := t.nextId }
  teams : ∃ f : Team → Team, t.teams = s.teams.map f ∧ ∀ x, ∃ m, f x = { x with lsm := m }
  ok : s.memOk → t.memOk
  bytes : s.memOk → ∀ x a, ¬P ⟨x, a⟩ → (t.memOf x).read a = (s.memOf x).read a

/-- The bytes of a range. -/
def Loc.covers (l : Loc) (n : Nat) (b : Loc) : Prop := b.space = l.space ∧ l.addr ≤ b.addr ∧ b.addr < l.addr + n

namespace State.WritesIn

variable {P Q : Loc → Prop} {s t u : State}

theorem refl (P : Loc → Prop) (s : State) : s.WritesIn P s := ⟨rfl, ⟨id, by simp, fun x => ⟨x.lsm, rfl⟩⟩, id, fun _ _ _ _ => rfl⟩

theorem mono (h : s.WritesIn P t) (hpq : ∀ l, P l → Q l) : s.WritesIn Q t := ⟨h.state, h.teams, h.ok, fun hs x a hq => h.bytes hs x a (fun hp => hq (hpq _ hp))⟩

theorem trans (h : s.WritesIn P t) (k : t.WritesIn P u) : s.WritesIn P u := by
  obtain ⟨f, ef, hf⟩ := h.teams
  obtain ⟨g, eg, hg⟩ := k.teams
  refine ⟨by rw [k.state, h.state], ⟨g ∘ f, by rw [eg, ef, List.map_map], fun x => ?_⟩, fun hs => k.ok (h.ok hs),
    fun hs x a hp => (k.bytes (h.ok hs) x a hp).trans (h.bytes hs x a hp)⟩
  obtain ⟨m, em⟩ := hf x
  obtain ⟨n, en⟩ := hg (f x)
  exact ⟨n, en.trans (by rw [em])⟩

theorem foldl {α : Type} {f : State → α → State} {l : List α} (hf : ∀ a ∈ l, ∀ s : State, s.WritesIn P (f s a)) (s : State) : s.WritesIn P (l.foldl f s) := by
  induction l generalizing s with
  | nil => exact .refl P s
  | cons a r ih => exact (hf a List.mem_cons_self s).trans (ih (fun b hb => hf b (List.mem_cons_of_mem _ hb)) _)

/-- The record of writes and the count of identifiers are no memory. -/
theorem bookkeeping (P : Loc → Prop) (s : State) (hist : List Wr) (bad : List Loc) (n : Nat) : s.WritesIn P { s with hist := hist, badWords := bad, nextId := n } :=
  ⟨rfl, ⟨id, by simp, fun x => ⟨x.lsm, rfl⟩⟩, fun hs => ⟨hs.main, hs.dsm, hs.sys, hs.lsm, hs.acc⟩, fun _ x _ _ => by cases x <;> rfl⟩

/-- Every word read at places that were not written is as before. -/
theorem memRead (h : s.WritesIn P t) (hs : s.memOk) {l : Loc} {n : Nat} (hp : ∀ i, i < n → ¬P { l with addr := l.addr + i }) : t.memRead l n = s.memRead l n := by
  unfold State.memRead Memory.readBytes
  refine List.map_congr_left fun i hi => ?_
  exact h.bytes hs l.space (l.addr + i) (hp i (List.mem_range.mp hi))

end State.WritesIn

/-- A space's memory with some bytes written. -/
def State.spaceWritten (s : State) (l : Loc) (bs : List Byte) : State :=
  match l.space with
  | .lsm team => s.modTeam team (fun t => { t with lsm := t.lsm.writeBytes l.addr bs })
  | .dsm => { s with dsm := s.dsm.writeBytes l.addr bs }
  | .main => { s with main := s.main.writeBytes l.addr bs }
  | .sys => { s with sys := s.sys.writeBytes l.addr bs }

theorem memStore_eq (s : State) (l : Loc) (bs : List Byte) : ∃ bad, s.memStore l bs = { s.spaceWritten l bs with badWords := bad } := by
  obtain ⟨sp, a⟩ := l
  unfold State.memStore
  rcases sp with team | _ | _ | _ <;> dsimp only <;> split <;> exact ⟨_, rfl⟩

/-- What a byte outside a range is not. -/
theorem not_covers {l : Loc} {n a : Nat} (h : ¬l.covers n ⟨l.space, a⟩) : a < l.addr ∨ l.addr + n ≤ a := by
  by_contra hc
  exact h ⟨rfl, Nat.le_of_not_lt fun hlt => hc (.inl hlt), Nat.lt_of_not_le fun hle => hc (.inr hle)⟩

theorem spaceWritten_writesIn (s : State) (l : Loc) (bs : List Byte) (hok : s.memOk → (s.spaceWritten l bs).memOk) :
    s.WritesIn (l.covers bs.length) (s.spaceWritten l bs) := by
  obtain ⟨sp, b⟩ := l
  have hother : ∀ x a m, m.wf = true → x = sp → ¬Loc.covers ⟨sp, b⟩ bs.length ⟨x, a⟩ → (Memory.writeBytes m b bs).read a = m.read a := by
    intro x a m hm hx hp
    subst hx
    exact Memory.read_writeBytes_other m b a bs hm (not_covers hp)
  have hsame : ∃ f : Team → Team, s.teams = s.teams.map f ∧ ∀ x, ∃ m, f x = { x with lsm := m } := ⟨id, by simp, fun x => ⟨x.lsm, rfl⟩⟩
  cases sp with
  | lsm team =>
    refine ⟨rfl, ⟨fun x => if x.key == team then { x with lsm := x.lsm.writeBytes b bs } else x, rfl, fun x => ?_⟩, hok, fun hs x a hp => ?_⟩
    · dsimp only
      split
      · exact ⟨_, rfl⟩
      · exact ⟨x.lsm, rfl⟩
    · cases x with
      | lsm k =>
        change (match (s.modTeam team (fun t => { t with lsm := t.lsm.writeBytes b bs })).team? k with
          | some t => t.lsm
          | none => []).read a = (match s.team? k with
          | some t => t.lsm
          | none => []).read a
        rw [team?_modTeam s team (fun t => { t with lsm := t.lsm.writeBytes b bs }) (fun _ => rfl)]
        cases hk : s.team? k with
        | none => rfl
        | some y =>
          rw [Option.map_some]
          dsimp only
          split
          next e => exact hother (.lsm k) a y.lsm (hs.lsm y (List.mem_of_find?_eq_some hk)) (by rw [e]) hp
          next => rfl
      | dsm | main | sys => rfl
  | dsm =>
    refine ⟨rfl, hsame, hok, fun hs x a hp => ?_⟩
    cases x with
    | dsm => exact hother .dsm a s.dsm hs.dsm rfl hp
    | lsm | main | sys => rfl
  | main =>
    refine ⟨rfl, hsame, hok, fun hs x a hp => ?_⟩
    cases x with
    | main => exact hother .main a s.main hs.main rfl hp
    | lsm | dsm | sys => rfl
  | sys =>
    refine ⟨rfl, hsame, hok, fun hs x a hp => ?_⟩
    cases x with
    | sys => exact hother .sys a s.sys hs.sys rfl hp
    | lsm | dsm | main => rfl

theorem memStore_writesIn (s : State) (l : Loc) (bs : List Byte) : s.WritesIn (l.covers bs.length) (s.memStore l bs) := by
  obtain ⟨bad, e⟩ := memStore_eq s l bs
  have hok : s.memOk → (s.spaceWritten l bs).memOk := fun hs => by
    have h := hs.memStore l bs
    rw [e] at h
    exact ⟨h.main, h.dsm, h.sys, h.lsm, h.acc⟩
  rw [e]
  exact (spaceWritten_writesIn s l bs hok).trans (.bookkeeping _ (s.spaceWritten l bs) _ bad _)

theorem memWrite_writesIn (s : State) (l : Loc) (bs : List Byte) : s.WritesIn (l.covers bs.length) (s.memWrite l bs) := by
  unfold State.memWrite
  dsimp only
  split
  · exact memStore_writesIn s l bs
  · exact (memStore_writesIn s l bs).trans (.bookkeeping _ (s.memStore l bs) _ _ _)

theorem pushWord_writesIn (s : State) (l : Loc) (bs : List Byte) (who : Option Sync) (ys : List Sync) (chain : Bool) :
    s.WritesIn (l.covers bs.length) (s.pushWord l bs who ys chain) :=
  (memStore_writesIn s l bs).trans (.bookkeeping _ (s.memStore l bs) _ _ _)

theorem pushBytes_writesIn (s : State) (l : Loc) (bs : List Byte) (who : Option Sync) (ys : List Sync) (chain : Bool) :
    s.WritesIn (l.covers bs.length) (s.pushBytes l bs who ys chain) := by
  unfold State.pushBytes
  refine .foldl (fun i _ s => (pushWord_writesIn s _ _ who ys chain).mono fun b hb => ?_) s
  obtain ⟨hsp, hlo, hhi⟩ := hb
  rw [List.length_take, List.length_drop] at hhi
  dsimp only at hlo hhi
  exact ⟨hsp, by omega, by omega⟩

theorem engineWrite_writesIn (s : State) (team : Nat) (tids : List Nat) (op : Nat) (l : Loc) (bs : List Byte) :
    s.WritesIn (l.covers bs.length) (s.engineWrite team tids op l bs) := by
  unfold State.engineWrite
  dsimp only
  generalize syncsOf _ _ _ _ _ = ys
  cases ys with
  | nil => exact memWrite_writesIn s l bs
  | cons y r => exact (pushBytes_writesIn s l bs none (y :: r) false).trans (.bookkeeping _ (s.pushBytes l bs none (y :: r) false) _ _ _)

/-! ### The bytes written to DSM -/

theorem memStore_dsm (s : State) {l : Loc} (bs : List Byte) (hl : l.space = .dsm) : (s.memStore l bs).dsm = s.dsm.writeBytes l.addr bs := by
  obtain ⟨bad, e⟩ := memStore_eq s l bs
  rw [e]
  obtain ⟨sp, a⟩ := l
  subst hl
  rfl

theorem memWrite_dsm (s : State) {l : Loc} (bs : List Byte) (hl : l.space = .dsm) : (s.memWrite l bs).dsm = s.dsm.writeBytes l.addr bs := by
  rw [← memStore_dsm s bs hl]
  unfold State.memWrite
  dsimp only
  split <;> rfl

theorem pushWord_dsm (s : State) {l : Loc} (bs : List Byte) (who : Option Sync) (ys : List Sync) (chain : Bool) (hl : l.space = .dsm) :
    (s.pushWord l bs who ys chain).dsm = s.dsm.writeBytes l.addr bs := memStore_dsm s bs hl

/-- Word by word the bytes come to stand one after another. -/
theorem pushBytes_dsm (s : State) {l : Loc} (bs : List Byte) (who : Option Sync) (ys : List Sync) (chain : Bool) (hl : l.space = .dsm) :
    (s.pushBytes l bs who ys chain).dsm = s.dsm.writeBytes l.addr bs := by
  have hsteps : ∀ k, ((List.range k).foldl (fun (s : State) i => s.pushWord { l with addr := l.addr + wordStart l i }
      ((bs.drop (wordStart l i)).take (wordStart l (i + 1) - wordStart l i)) who ys chain) s).dsm = s.dsm.writeBytes l.addr (bs.take (wordStart l k)) := by
    intro k
    induction k with
    | zero => simp [wordStart, Memory.writeBytes]
    | succ k ih =>
      have hle : wordStart l k ≤ wordStart l (k + 1) := by unfold wordStart; omega
      rw [List.range_succ, List.foldl_append, List.foldl_cons, List.foldl_nil, pushWord_dsm (l := { l with addr := l.addr + wordStart l k }) _ _ who ys chain hl, ih]
      have hsplit : bs.take (wordStart l (k + 1)) = bs.take (wordStart l k) ++ (bs.drop (wordStart l k)).take (wordStart l (k + 1) - wordStart l k) := by
        rw [← List.take_add, Nat.add_sub_cancel' hle]
      rw [hsplit, Memory.writeBytes_append]
      by_cases hlen : wordStart l k ≤ bs.length
      · rw [List.length_take, Nat.min_eq_left hlen]
      · rw [List.drop_eq_nil_of_le (by omega), List.take_nil]
        rfl
  unfold State.pushBytes
  rw [hsteps, List.take_of_length_le]
  unfold wordStart wordSpan
  omega

theorem engineWrite_dsm (s : State) (team : Nat) (tids : List Nat) (op : Nat) {l : Loc} (bs : List Byte) (hl : l.space = .dsm) :
    (s.engineWrite team tids op l bs).dsm = s.dsm.writeBytes l.addr bs := by
  unfold State.engineWrite
  dsimp only
  generalize syncsOf _ _ _ _ _ = ys
  cases ys with
  | nil => exact memWrite_dsm s bs hl
  | cons y r => exact pushBytes_dsm s bs none (y :: r) false hl

end Sys2Proof.Machine
end

section
/-! The end of an operation of the tile engine: TLCNT falls, its lines are freed, its locks go (R189, R208, R214 to R222), and the
machine settles. -/

namespace Sys2Proof.Machine

/-- Teams live on where they keep their keys, no home group goes, and every live thread keeps its home group. -/
theorem allLive_of_keys {s t : State} (h : s.allLive) (ht : ∀ x ∈ t.teams, ∃ y ∈ s.teams, x.key = y.key) (hg : t.groups = s.groups)
    (hu : ∀ u ∈ s.threads, u.hasExited = false → ∃ u' ∈ t.threads, u'.team = u.team ∧ u'.role = u.role ∧ u'.hg = u.hg ∧ u'.hasExited = false) :
    t.allLive := by
  intro x hx
  obtain ⟨y, hy, hkey⟩ := ht x hx
  have hlive : State.live { t with teams := s.teams } y.key := allLive_of_threads (t := { t with teams := s.teams }) h rfl hg hu y hy
  rw [hkey]
  exact hlive

/-- A map over the threads that keeps what makes teams live. -/
theorem live_of_map {ts : List Thread} {g : Thread → Thread} (hg : ∀ u, (g u).team = u.team ∧ (g u).role = u.role ∧ (g u).hg = u.hg ∧ (g u).hasExited = u.hasExited) :
    ∀ u ∈ ts, u.hasExited = false → ∃ u' ∈ ts.map g, u'.team = u.team ∧ u'.role = u.role ∧ u'.hg = u.hg ∧ u'.hasExited = false := fun u hu hex => by
  obtain ⟨h1, h2, h3, h4⟩ := hg u
  exact ⟨g u, List.mem_map_of_mem hu, h1, h2, h3, h4.trans hex⟩

/-- The lines that stay absent when some are freed. -/
def State.absentAfter (s : State) (o : TileOp) : List Loc :=
  s.absent.filter (fun l => !o.cleared.contains l || State.lineHeld { s with tileOps := s.tileOps.filter (fun x => x.id != o.id) } l)

/-- TLCNT of the threads that an operation counts has fallen. -/
def TileOp.uncount (o : TileOp) (u : Thread) : Thread := if u.team == o.team && o.counted.contains u.tid then u.tlDown else u

/-- An operation that names no barrier has left the engine, and the machine may have settled. -/
structure State.Finished (p t : State) (o : TileOp) : Prop where
  state : t = { p with tileOps := p.tileOps.filter (fun x => x.id != o.id), threads := p.threads.map o.uncount, absent := p.absentAfter o,
                       groups := t.groups, cores := t.cores, teams := t.teams, freeCount := t.freeCount }
  teams : ∃ f : Team → Team, t.teams = p.teams.map f ∧ ∀ x, ∃ n sl, f x = { x with wdog := n, savedLocks := sl }
  rows : p.sameRows t

/-- A team, if it is one of some, with the lock entries that it keeps changed. -/
def Team.relock (q : Team → Bool) (g : List Lock → List Lock) (x : Team) : Team := if q x then { x with savedLocks := g x.savedLocks } else x

theorem Team.relock_keeps (q : Team → Bool) (g : List Lock → List Lock) (x : Team) : ∃ sl, x.relock q g = { x with savedLocks := sl } := by
  unfold Team.relock
  split
  · exact ⟨_, rfl⟩
  · exact ⟨x.savedLocks, rfl⟩

theorem finishTile_eq {p : State} {o : TileOp} (hb : o.bar = none) : ∃ cs q g,
    p.finishTile o = { p with tileOps := p.tileOps.filter (fun x => x.id != o.id), threads := p.threads.map o.uncount, absent := p.absentAfter o,
                              cores := cs, teams := p.teams.map (Team.relock q g) } := by
  unfold State.finishTile State.arriveOp
  rw [hb]
  dsimp only
  split
  · exact ⟨_, fun t => t.savedLocks.any (fun k => k.op == o.instr), fun l => l.filter (fun k => k.op != o.instr), rfl⟩
  · exact ⟨_, fun t => t.savedLocks.any (fun k => k.op == o.instr), shrinkLocks o.instr o.team true _ o.act.dest, rfl⟩

theorem TileOp.uncount_keeps (o : TileOp) (u : Thread) : ∃ n, o.uncount u = { u with tlcnt := n } := by
  unfold TileOp.uncount
  split
  · exact ⟨_, rfl⟩
  · exact ⟨u.tlcnt, rfl⟩

/-- A machine whose teams all live settles after an operation's end without more. -/
theorem finishTile_settle {p : State} {o : TileOp} (hl : p.allLive) (hb : o.bar = none) : p.Finished (p.finishTile o).settle o := by
  obtain ⟨cs, q, k, e⟩ := finishTile_eq (p := p) hb
  have hlive : (p.finishTile o).allLive := by
    rw [e]
    refine allLive_of_keys hl (fun x hx => ?_) rfl (live_of_map fun u => ?_)
    · obtain ⟨y, hy, rfl⟩ := List.mem_map.mp hx
      obtain ⟨sl, ey⟩ := y.relock_keeps q k
      exact ⟨y, hy, by rw [ey]⟩
    · obtain ⟨n, eu⟩ := o.uncount_keeps u
      rw [eu]
      exact ⟨rfl, rfl, rfl, rfl⟩
  have hc := settle_calm hlive
  obtain ⟨g, eg, hg⟩ := hc.teams
  refine ⟨?_, ⟨g ∘ Team.relock q k, ?_, fun x => ?_⟩, ?_⟩
  · have hstate := hc.state
    rw [e] at hstate ⊢
    exact hstate
  · rw [eg, e, List.map_map]
  · obtain ⟨sl, ex⟩ := x.relock_keeps q k
    obtain ⟨n, en⟩ := hg (x.relock q k)
    exact ⟨n, sl, en.trans (by rw [ex])⟩
  · intro team role idx h hh
    have hrows := hc.sameRows
    rw [e] at hrows
    exact e ▸ hrows team role idx h hh

namespace State.Finished

variable {p t : State} {o : TileOp} (h : p.Finished t o)
include h

theorem tileOps : t.tileOps = p.tileOps.filter (fun x => x.id != o.id) := by rw [h.state]

theorem launch? (key : Nat) : t.launch? key = p.launch? key := by rw [h.state]; rfl

theorem team? {key : Nat} {x : Team} (hx : p.team? key = some x) : ∃ n sl, t.team? key = some { x with wdog := n, savedLocks := sl } := by
  obtain ⟨f, ef, hf⟩ := h.teams
  obtain ⟨n, sl, e⟩ := hf x
  refine ⟨n, sl, ?_⟩
  unfold State.team? at hx ⊢
  rw [ef, find?_map_key _ f _ (fun y => by obtain ⟨m, k, em⟩ := hf y; rw [em]), hx, Option.map_some, e]

theorem team?_none {key : Nat} (hx : p.team? key = none) : t.team? key = none := by
  obtain ⟨f, ef, hf⟩ := h.teams
  unfold State.team? at hx ⊢
  rw [ef, find?_map_key _ f _ (fun y => by obtain ⟨m, k, em⟩ := hf y; rw [em]), hx, Option.map_none]

theorem thread? {tid : Nat} {u : Thread} (hu : p.thread? o.team tid = some u) : t.thread? o.team tid =
    some { u with tlcnt := if tid ∈ o.counted then u.tlcnt - 1 else u.tlcnt } := by
  obtain ⟨hteam, rfl⟩ := thread?_key hu
  have hthreads : t.threads = p.threads.map o.uncount := by rw [h.state]
  unfold State.thread? at hu ⊢
  rw [hthreads, find?_map_key _ o.uncount _ (fun y => by obtain ⟨m, em⟩ := o.uncount_keeps y; rw [em]), hu, Option.map_some]
  unfold TileOp.uncount Thread.tlDown
  by_cases hm : u.tid ∈ o.counted
  · simp [hteam, hm]
  · simp [hm]

theorem memOf (x : Space) : t.memOf x = p.memOf x := by
  cases x with
  | lsm team =>
    unfold State.memOf
    cases hx : p.team? team with
    | none => simp only [h.team?_none hx, hx]
    | some y =>
      obtain ⟨n, sl, e⟩ := h.team? hx
      simp only [e, hx]
  | dsm => show t.dsm = p.dsm; rw [h.state]
  | main => show t.main = p.main; rw [h.state]
  | sys => show t.sys = p.sys; rw [h.state]

theorem memRead (l : Loc) (n : Nat) : t.memRead l n = p.memRead l n := by unfold State.memRead; rw [h.memOf]

/-- A line of the operation that is still absent is another operation's (R168). -/
theorem absent_held {l : Loc} (hl : l ∈ o.cleared) (ha : l ∈ t.absent) : t.lineHeld l = true := by
  have hx : t.xfers = p.xfers := by rw [h.state]
  rw [h.state] at ha
  have := (List.mem_filter.mp ha).2
  rw [List.contains_iff_mem.mpr hl, Bool.not_true, Bool.false_or] at this
  unfold State.lineHeld at this ⊢
  rw [hx, h.tileOps]
  exact this

end State.Finished

end Sys2Proof.Machine
end

section
/-! The completions of the tile engine that change a team's own storage and results (R211 to R214, R216, R217, R219 to R221). -/

namespace Sys2Proof.Machine

/-! ### What precedes an operation's end -/

/-- Before the end of operation `o`, its team has changed by `F`, and of the threads the pending results (to `A`) and what
they have read. -/
structure State.Tiled (s p : State) (o : TileOp) (F : Team → Team) (A : Thread → List Pending) : Prop where
  state : p = { s with threads := p.threads, teams := updWhere (fun x => x.key == o.team) F s.teams }
  threads : ∃ g, p.threads = s.threads.map g ∧ ∀ u, ∃ se re, g u = { u with pend := A u, seen := se, reads := re }

/-- The threads may have noted reads, and nothing else has changed. -/
def State.Noted (s p : State) : Prop := ∃ g, p = { s with threads := s.threads.map g } ∧ ∀ u, ∃ se re, g u = { u with seen := se, reads := re }

theorem State.Noted.refl (s : State) : s.Noted s := ⟨id, by simp, fun u => ⟨u.seen, u.reads, rfl⟩⟩

theorem State.Noted.trans {s p q : State} (h : s.Noted p) (k : p.Noted q) : s.Noted q := by
  obtain ⟨g, rfl, hg⟩ := h
  obtain ⟨f, rfl, hf⟩ := k
  refine ⟨f ∘ g, by simp, fun u => ?_⟩
  obtain ⟨se, re, e⟩ := hg u
  obtain ⟨se', re', e'⟩ := hf (g u)
  exact ⟨se', re', e'.trans (by rw [e])⟩

theorem State.Noted.foldl {α : Type} {f : State → α → State} (hf : ∀ (s : State) a, s.Noted (f s a)) (l : List α) (s : State) : s.Noted (l.foldl f s) := by
  induction l generalizing s with
  | nil => exact .refl s
  | cons a r ih => exact (hf s a).trans (ih (f s a))

theorem noteRead_noted (s : State) (team : Nat) (tids : List Nat) (id : Nat) (ws : List Wr) : s.Noted (s.noteRead team tids id ws) := by
  unfold State.noteRead
  split
  · exact .refl s
  · refine ⟨_, rfl, fun u => ?_⟩
    dsimp only
    split
    · exact ⟨_, _, rfl⟩
    · exact ⟨u.seen, u.reads, rfl⟩

theorem noteEngine_noted (s : State) (team : Nat) (tids : List Nat) (op : Nat) (rel : Bool) (l : Loc) (n : Nat) : s.Noted (s.noteEngine team tids op rel l n) :=
  noteRead_noted s team tids op _

theorem noteChunks_noted (s : State) (o : TileOp) (cs : List (Nat × Loc × Nat)) (n : Nat) : s.Noted (s.noteChunks o cs n) := by
  unfold State.noteChunks
  refine .foldl (fun s w => ?_) _ s
  split
  · exact .refl s
  · exact noteEngine_noted s _ _ _ _ _ _

theorem updWhere_self {α : Type} (q : α → Bool) (l : List α) : l = updWhere q (fun x => x) l := (updWhere_id q l).symm

/-- Where an operation has nothing to do but to end. -/
theorem State.Tiled.refl (s : State) (o : TileOp) : s.Tiled s o (fun x => x) Thread.pend :=
  ⟨by rw [← updWhere_self], ⟨id, by simp, fun u => ⟨u.seen, u.reads, rfl⟩⟩⟩

theorem State.Noted.tiled {s p : State} (h : s.Noted p) (o : TileOp) (F : Team → Team) : s.Tiled (p.modTeam o.team F) o F Thread.pend := by
  obtain ⟨g, rfl, hg⟩ := h
  exact ⟨rfl, g, rfl, hg⟩

/-- A result arrives in the threads that an operation counts. -/
theorem arrive_tiled (s : State) (o : TileOp) (op : Nat) (ws : List Word) : s.Tiled (s.modThreads o.team o.counted (fun t => t.arrive op ws)) o (fun x => x)
    (fun u => if u.team == o.team && o.counted.contains u.tid then (u.arrive op ws).pend else u.pend) := by
  refine ⟨by rw [← updWhere_self]; rfl, _, rfl, fun u => ⟨u.seen, u.reads, ?_⟩⟩
  dsimp only
  split <;> rfl

/-! ### The end of the operation -/

/-- What an operation's end leaves: the operation is gone, its team has accumulators `acc` and reservations `tile`, and the
pending results of a thread are `pend`. -/
structure State.EndsTile (s t : State) (o : TileOp) (x' : Team) (acc : Memory) (tile : Nat → Tile) (pend : Nat → Thread → List Pending) : Prop where
  tileOps : t.tileOps = s.tileOps.filter (fun y => y.id != o.id)
  team : t.team? o.team = some x'
  threads : ∀ tid u, s.thread? o.team tid = some u → ∃ u', t.thread? o.team tid = some u' ∧ u'.v = u.v ∧ u'.p = u.p ∧
    u'.tlcnt = (if tid ∈ o.counted then u.tlcnt - 1 else u.tlcnt) ∧ u'.pend = pend tid u
  rows : s.sameRows t
  acc : x'.acc = acc
  tile : ∀ j, x'.tile j = tile j
  state : t = { s with threads := t.threads, groups := t.groups, teams := t.teams, cores := t.cores, tileOps := t.tileOps, absent := t.absent, freeCount := t.freeCount }

section
variable {s p : State} {o : TileOp} {F : Team → Team} {A : Thread → List Pending} (h : s.Tiled p o F A)
include h

theorem State.Tiled.allLive (hl : s.allLive) (hF : ∀ x, (F x).key = x.key) : p.allLive := by
  obtain ⟨g, eg, hg⟩ := h.threads
  have hlive := live_of_map (ts := s.threads) (g := g) fun u => by
    obtain ⟨se, re, e⟩ := hg u
    rw [e]
    exact ⟨rfl, rfl, rfl, rfl⟩
  refine allLive_of_keys hl (fun x hx => ?_) (by rw [h.state]) (eg ▸ hlive)
  rw [h.state] at hx
  obtain ⟨y, hy, rfl⟩ := List.mem_map.mp hx
  refine ⟨y, hy, ?_⟩
  split
  · exact hF y
  · rfl

theorem State.Tiled.thread? {tid : Nat} {u : Thread} (hu : s.thread? o.team tid = some u) : ∃ se re,
    p.thread? o.team tid = some { u with pend := A u, seen := se, reads := re } := by
  obtain ⟨g, eg, hg⟩ := h.threads
  obtain ⟨se, re, e⟩ := hg u
  refine ⟨se, re, ?_⟩
  unfold State.thread? at hu ⊢
  rw [eg, find?_map_key _ g _ (fun y => by obtain ⟨a, b, ey⟩ := hg y; rw [ey]), hu, Option.map_some, e]

theorem State.Tiled.team? {x : Team} (hF : ∀ x, (F x).key = x.key) (hx : s.team? o.team = some x) : p.team? o.team = some (F x) := by
  have hteam := team?_modTeam s o.team F hF o.team
  rw [hx, Option.map_some, if_pos rfl] at hteam
  rw [h.state]
  exact hteam

/-- The end of an operation after a change of its team. -/
theorem State.Tiled.ends {x : Team} {acc : Memory} {tile : Nat → Tile} {pend : Nat → Thread → List Pending} (hl : s.allLive) (hb : o.bar = none)
    (hF : ∀ x, (F x).key = x.key) (hx : s.team? o.team = some x) (hacc : (F x).acc = acc) (htile : ∀ j, (F x).tile j = tile j)
    (hpend : ∀ u, u.team = o.team → A u = pend u.tid u) : ∃ x', s.EndsTile (p.finishTile o).settle o x' acc tile pend := by
  have hf := finishTile_settle (h.allLive hl hF) hb
  obtain ⟨n, sl, hx'⟩ := hf.team? (h.team? hF hx)
  refine ⟨_, ⟨?_, hx', fun tid u hu => ?_, fun team role idx g hg => ?_, hacc, htile, ?_⟩⟩
  · rw [hf.tileOps, h.state]
  · obtain ⟨se, re, e⟩ := h.thread? hu
    obtain ⟨hteam, rfl⟩ := thread?_key hu
    exact ⟨_, hf.thread? e, rfl, rfl, rfl, hpend u hteam⟩
  · have hrows := hf.rows
    rw [h.state] at hrows
    exact h.state ▸ hrows team role idx g hg
  · have hstate := hf.state
    rw [h.state] at hstate ⊢
    rw [hstate]

end

/-! ### The events -/

/-- An operation that is due is ready for the event of its kind. -/
theorem tileReady_some {s : State} {op : Nat} {o : TileOp} {q : TileAct → Bool} (ho : s.tileOp? op = some o) (hd : s.tileDue o = true) (ht : s.power.tripped = false)
    (hq : q o.act = true) : s.tileReady op q = some o := by
  unfold State.tileReady
  rw [ho]
  dsimp only
  rw [hq, hd, ht]
  rfl

theorem tileOp?_id {s : State} {op : Nat} {o : TileOp} (h : s.tileOp? op = some o) : o.id = op := by simpa using List.find?_some h

/-- Nobody waits to enter a handler: nobody enters. -/
theorem enterAll_none {s : State} (team : Nat) (h : ∀ u ∈ s.threads, u.entering = none) : s.enterAll team = s := by
  unfold State.enterAll
  have : (s.threads.filter (fun t => t.team == team)).filterMap (·.entering) = [] :=
    List.filterMap_eq_nil_iff.mpr fun u hu => h u (List.mem_of_mem_filter hu)
  rw [this]
  rfl

theorem tile_updAt (x : Team) (k j : Nat) (f : Tile → Tile) : ({ x with tiles := updAt k f x.tiles } : Team).tile j =
    if j = k ∧ j < x.tiles.length then f (x.tile j) else x.tile j := by
  unfold Team.tile
  dsimp only
  rw [List.getD_eq_getElem?_getD, getElem?_updAt, List.getD_eq_getElem?_getD]
  by_cases hj : j = k
  · subst hj
    by_cases hlt : j < x.tiles.length
    · simp [hlt]
    · simp [hlt]
  · simp [hj]

section
variable {s : State} {op : Nat} {o : TileOp} (ho : s.tileOp? op = some o) (hd : s.tileDue o = true) (ht : s.power.tripped = false)
include ho hd ht

theorem mmaCompletion_eq {a b : Nat} {tra trb : Bool} {n x y : Nat} (ha : o.act = .mma a b tra trb n x y) : exec (.mmaCompletion op) s =
    .next ((s.modTeam o.team (fun t => { t with acc := mmaAcc t.acc (t.tile a) (t.tile b) tra trb n x y })).finishTile o).settle := by
  change execMmaCompletion op s = _
  unfold execMmaCompletion
  rw [tileReady_some ho hd ht (by rw [ha])]
  dsimp only
  rw [ha]

theorem tldCompletion_eq {k n : Nat} {part : TilePart} {cs : List (Nat × Loc × Nat)} (ha : o.act = .tld k part cs n) (hc : s.chunksReady o cs n = true)
    (hbad : s.badWords = []) : exec (.tldCompletion op) s = .next (((s.noteChunks o cs n).modTile o.team k (fun x =>
      (cs.mapIdx (fun i c => (c.2.2, s.chunkWords o (i * (n / 4)) c.1 c.2.1 n))).foldl (fun x g => x.load part g.1 g.2) x)).finishTile o).settle := by
  have hnone : cs.findSome? (fun c => s.badAt c.2.1 n) = none := List.findSome?_eq_none_iff.mpr fun c _ => by unfold State.badAt; rw [hbad]; rfl
  change execTldCompletion op s = _
  unfold execTldCompletion
  rw [tileReady_some ho hd ht (by rw [ha])]
  dsimp only
  rw [ha]
  dsimp only
  rw [hc, hnone]
  rfl

theorem tzeroCompletion_eq {k : Nat} (ha : o.act = .tzero k) : exec (.tzeroCompletion op) s = .next ((s.modTile o.team k Tile.zero).finishTile o).settle := by
  change execTzeroCompletion op s = _
  unfold execTzeroCompletion
  rw [tileReady_some ho hd ht (by rw [ha])]
  dsimp only
  rw [ha]

theorem accldResultArrival_eq {n r k w : Nat} {x : Team} (ha : o.act = .accld n r k w) (hb : o.bar = none) (hx : s.team? o.team = some x)
    (he : ∀ u ∈ s.threads, u.entering = none) :
    exec (.accldResultArrival op) s = .next ((s.modThreads o.team o.counted (fun t => t.arrive op (accWords x.acc n r k w))).finishTile o).settle := by
  have hacc : s.accOf o.team = x.acc := by unfold State.accOf; rw [hx]
  have hnone : ∀ u ∈ ((s.modThreads o.team o.counted (fun t => t.arrive op (accWords x.acc n r k w))).finishTile o).threads, u.entering = none := by
    obtain ⟨cs, q, f, e⟩ := finishTile_eq (p := s.modThreads o.team o.counted (fun t => t.arrive op (accWords x.acc n r k w))) hb
    rw [e]
    intro u hu
    obtain ⟨v, hv, rfl⟩ := List.mem_map.mp hu
    obtain ⟨z, hz, rfl⟩ := List.mem_map.mp hv
    obtain ⟨m, em⟩ := o.uncount_keeps (if z.team == o.team && o.counted.contains z.tid then z.arrive op (accWords x.acc n r k w) else z)
    rw [em]
    dsimp only
    split <;> exact he z hz
  change execAccldResultArrival op s = _
  unfold execAccldResultArrival
  rw [tileReady_some ho hd ht (by rw [ha])]
  dsimp only
  rw [ha]
  dsimp only
  rw [hacc, enterAll_none _ hnone]

theorem tileCompletion_conf {k : Nat} (ha : o.act = .tcfg k ∨ o.act = .trel k) : exec (.tileCompletion op) s = .next (s.finishTile o).settle := by
  change execTileCompletion op s = _
  unfold execTileCompletion
  rcases ha with ha | ha
  all_goals
    rw [tileReady_some ho hd ht (by rw [ha])]
    dsimp only
    rw [ha]

theorem tileCompletion_accst {n r k : Nat} {ws : List Word} (ha : o.act = .accst n r k ws) :
    exec (.tileCompletion op) s = .next ((s.modTeam o.team (fun t => { t with acc := accStore t.acc n r k ws })).finishTile o).settle := by
  change execTileCompletion op s = _
  unfold execTileCompletion
  rw [tileReady_some ho hd ht (by rw [ha])]
  dsimp only
  rw [ha]

theorem tileCompletion_accz {n k : Nat} (ha : o.act = .accz n k) : exec (.tileCompletion op) s = .next
    ((s.modTeam o.team (fun t => { t with acc := t.acc.filter (fun x => !decide (4096 * n ≤ x.1 ∧ x.1 < 4096 * (n + k))) })).finishTile o).settle := by
  change execTileCompletion op s = _
  unfold execTileCompletion
  rw [tileReady_some ho hd ht (by rw [ha])]
  dsimp only
  rw [ha]

end

end Sys2Proof.Machine
end

section
/-! The completions of the tile engine that write scratch memory: TST and ACCCVT (R61 to R63, R215, R222). -/

namespace Sys2Proof.Machine

/-! ### Lines and what lands in them -/

/-- A place in one of an operation's lines. -/
def TileOp.inLines (o : TileOp) (b : Loc) : Prop := ∃ z ∈ o.cleared, z.covers 128 b

/-- A write that meets a line, clipped to it, is within it. -/
theorem clipLine_covers {line l : Loc} {bs : List Byte} (h : overlaps l bs.length line 128 = true) {b : Loc}
    (hb : (clipLine line l bs).1.covers (clipLine line l bs).2.length b) : line.covers 128 b := by
  unfold overlaps at h
  rw [Bool.and_eq_true, beq_iff_eq, decide_eq_true_eq] at h
  obtain ⟨hsp, hlt, hgt⟩ := h
  obtain ⟨h1, h2, h3⟩ := hb
  unfold clipLine at h1 h2 h3
  dsimp only at h1 h2 h3
  rw [List.length_take, List.length_drop] at h3
  have hmax : line.addr ≤ Nat.max line.addr l.addr := Nat.le_max_left _ _
  have hmin : Nat.min (line.addr + 128) (l.addr + bs.length) ≤ line.addr + 128 := Nat.min_le_left _ _
  exact ⟨h1.trans hsp, by omega, by omega⟩

theorem mem_lineWrites {s : State} {o : TileOp} {line : Loc} {w : Nat × Loc × List Byte} (h : w ∈ s.lineWrites o line) {b : Loc}
    (hb : w.2.1.covers w.2.2.length b) : line.covers 128 b := by
  obtain ⟨v, hv, rfl⟩ := List.mem_map.mp h
  exact clipLine_covers (List.mem_filter.mp hv).2 hb

/-- What lands of an operation lands in its lines. -/
theorem landAll_writesIn (s : State) (o : TileOp) : s.WritesIn o.inLines (s.landAll o) := by
  unfold State.landAll
  refine .foldl (fun w hw s => (engineWrite_writesIn s _ _ _ _ _).mono fun b hb => ?_) s
  obtain ⟨z, hz, hwz⟩ := List.mem_flatMap.mp hw
  exact ⟨z, hz, mem_lineWrites hwz hb⟩

/-- A range that meets none of an operation's lines has no place in them. -/
theorem not_inLines {o : TileOp} {l : Loc} {n : Nat} (h : ∀ z ∈ o.cleared, overlaps l n z 128 = false) : ∀ i, i < n → ¬o.inLines { l with addr := l.addr + i } := by
  rintro i hi ⟨z, hz, hsp, hlo, hhi⟩
  have := h z hz
  unfold overlaps at this
  dsimp only at hsp hlo hhi
  rw [hsp, beq_self_eq_true, Bool.true_and, decide_eq_false_iff_not] at this
  omega

/-! ### The bytes of DSM -/

/-- Writes to DSM one after another. -/
def writesDsm (ws : List (Nat × Loc × List Byte)) (m : Memory) : Memory := ws.foldl (fun m w => m.writeBytes w.2.1.addr w.2.2) m

theorem landAll_dsm {s : State} {o : TileOp} (h : ∀ w ∈ o.cleared.flatMap (fun l => s.lineWrites o l), w.2.1.space = .dsm) :
    (s.landAll o).dsm = writesDsm (o.cleared.flatMap (fun l => s.lineWrites o l)) s.dsm := by
  unfold State.landAll writesDsm
  dsimp only
  generalize o.cleared.flatMap (fun l => s.lineWrites o l) = ws at h ⊢
  induction ws generalizing s with
  | nil => rfl
  | cons w r ih =>
    rw [List.foldl_cons, List.foldl_cons, ih (fun v hv => h v (List.mem_cons_of_mem _ hv)), engineWrite_dsm _ _ _ _ _ (h w List.mem_cons_self)]

/-- A write that lies in one line is not clipped. -/
theorem clipLine_whole {line l : Loc} {bs : List Byte} (hlo : line.addr ≤ l.addr) (hhi : l.addr + bs.length ≤ line.addr + 128) : clipLine line l bs = (l, bs) := by
  have hmax : Nat.max line.addr l.addr = l.addr := Nat.max_eq_right hlo
  have hmin : Nat.min (line.addr + 128) (l.addr + bs.length) = l.addr + bs.length := Nat.min_eq_right hhi
  unfold clipLine
  rw [hmax, hmin]
  dsimp only
  rw [Nat.sub_self, List.drop_zero, Nat.add_sub_cancel_left, List.take_length]

/-- A chunk of one TST that lies in one line lands as a whole. -/
theorem landAll_chunk {s : State} {o : TileOp} {k x at_ n : Nat} {a : Loc} (ha : o.act = .tst k [(x, a, at_)] n) (hn : 0 < n) (hsp : a.space = .dsm)
    (hc : o.cleared = [lineOf a]) (hline : a.addr / 128 = (a.addr + n - 1) / 128) :
    (s.landAll o).dsm = s.dsm.writeBytes a.addr ((s.tile o.team k).data.readBytes at_ n) := by
  generalize hbs : (s.tile o.team k).data.readBytes at_ n = bs
  have hlen : bs.length = n := by rw [← hbs]; simp [Image.readBytes]
  have hwrites : o.cleared.flatMap (fun l => s.lineWrites o l) = [(x, a, bs)] := by
    have hmeets : overlaps a bs.length (lineOf a) 128 = true := by
      unfold overlaps lineOf
      rw [hlen, beq_self_eq_true, Bool.true_and, decide_eq_true_eq]
      dsimp only
      omega
    rw [hc, List.flatMap_singleton]
    unfold State.lineWrites State.tileWrites
    rw [ha]
    dsimp only
    rw [List.map_singleton, hbs, List.filter_cons_of_pos (p := fun w : Nat × Loc × List Byte => overlaps w.2.1 w.2.2.length (lineOf a) 128) hmeets,
      List.filter_nil, List.map_singleton]
    dsimp only
    rw [clipLine_whole (by unfold lineOf; dsimp only; omega) (by unfold lineOf; dsimp only; omega)]
  rw [landAll_dsm (by rw [hwrites]; intro w hw; rw [List.mem_singleton.mp hw]; exact hsp), hwrites]
  rfl

/-! ### A converted block (R222) -/

theorem flatMap_length_const {α β : Type} {f : α → List β} {n : Nat} (l : List α) (h : ∀ a ∈ l, (f a).length = n) : (l.flatMap f).length = l.length * n := by
  rw [List.length_flatMap, List.map_congr_left h]
  simp

theorem cvtBlock_length (acc : Memory) {f : Fmt} (rm : Rm) (sat : Bool) (n : Nat) (scale : Option Word) (lo : Nat) (hf : f ≠ .q4) :
    (cvtBlock acc f rm sat n scale lo 128).length = 128 := by
  unfold cvtBlock
  dsimp only
  rw [flatMap_length_const (n := Fmt.halfBytes f / 2) _ (fun i _ => leBytes_length _ _), List.length_range]
  cases f with
  | q4 => exact absurd rfl hf
  | e4 | e5 | int8 | nat8 | b16 | h16 | f32 => rfl

/-- Piece `i` of a converted block, with its place. -/
def cvtPiece (acc : Memory) (f : Fmt) (rm : Rm) (sat : Bool) (n : Nat) (scale : Option Word) (tid : Nat) (dst : Loc) (i : Nat) : Nat × Loc × List Byte :=
  (tid, { dst with addr := dst.addr + 128 * i }, cvtBlock acc f rm sat n scale (128 * i) 128)

/-- The lines of an aligned block. -/
theorem linesOf_aligned {dst : Loc} {n : Nat} (h : dst.addr % 128 = 0) (hn : 0 < n) : linesOf dst (128 * n) =
    (List.range n).map (fun i => { dst with addr := dst.addr + 128 * i }) := by
  unfold linesOf
  have hcount : (dst.addr + 128 * n - 1) / 128 + 1 - dst.addr / 128 = n := by omega
  rw [hcount]
  refine List.map_congr_left fun i _ => ?_
  rw [show (dst.addr / 128 + i) * 128 = dst.addr + 128 * i by omega]

/-- Of the numbers below `n` one is chosen. -/
theorem filter_range_eq {n i : Nat} (q : Nat → Bool) (hi : i < n) (hq : ∀ j, q j = true ↔ j = i) : (List.range n).filter q = [i] := by
  have hfun : q = fun j => j == i := by
    funext j
    rw [Bool.eq_iff_iff, hq, beq_iff_eq]
  rw [hfun]
  induction n with
  | zero => omega
  | succ n ih =>
    rw [List.range_succ, List.filter_append]
    by_cases h : i = n
    · subst h
      have : (List.range i).filter (fun j => j == i) = [] := List.filter_eq_nil_iff.mpr fun j hj => by
        have := List.mem_range.mp hj
        simp only [beq_iff_eq]
        omega
      simp [this]
    · rw [ih (by omega)]
      simp [Ne.symm h]

/-- Writes of 128 bytes each, one after another: each is read back. -/
theorem read_writesDsm {piece : Nat → Nat × Loc × List Byte} {base : Nat} {m : Memory} (hm : m.wf = true) (haddr : ∀ i, (piece i).2.1.addr = base + 128 * i)
    (hlen : ∀ i, (piece i).2.2.length = 128) (n : Nat) : (writesDsm ((List.range n).map piece) m).wf = true ∧
      ∀ i, i < n → (writesDsm ((List.range n).map piece) m).readBytes (base + 128 * i) 128 = (piece i).2.2 := by
  induction n with
  | zero => exact ⟨hm, fun i hi => absurd hi (Nat.not_lt_zero _)⟩
  | succ n ih =>
    have hstep : writesDsm ((List.range (n + 1)).map piece) m = (writesDsm ((List.range n).map piece) m).writeBytes (base + 128 * n) (piece n).2.2 := by
      unfold writesDsm
      rw [List.range_succ, List.map_append, List.foldl_append, ← haddr n]
      rfl
    rw [hstep]
    refine ⟨Memory.writeBytes_wf _ _ _ ih.1, fun i hi => ?_⟩
    by_cases h : i = n
    · subst h
      have := Memory.readBytes_writeBytes (writesDsm ((List.range i).map piece) m) (base + 128 * i) (piece i).2.2 ih.1
      rw [hlen] at this
      exact this
    · rw [Memory.readBytes_writeBytes_other _ _ _ _ _ ih.1 (.inl (by omega))]
      exact ih.2 i (by omega)

/-- A converted block lands piece by piece. -/
theorem landAll_block {s : State} {o : TileOp} {x : Team} {f : Fmt} {rm : Rm} {sat : Bool} {n : Nat} {dst : Loc} {k : Option Word} (ha : o.act = .acccvt f rm sat n dst k)
    (hx : s.team? o.team = some x) (hsp : dst.space = .dsm) (hal : dst.addr % 128 = 0) (hf : f ≠ .q4) (hc : o.cleared = linesOf dst (512 * Fmt.halfBytes f)) :
    (s.landAll o).dsm = writesDsm ((List.range (4 * Fmt.halfBytes f)).map (cvtPiece x.acc f rm sat n k o.tid dst)) s.dsm := by
  have hpos : 0 < 4 * Fmt.halfBytes f := by cases f <;> decide
  have hlines : o.cleared = (List.range (4 * Fmt.halfBytes f)).map (fun i => { dst with addr := dst.addr + 128 * i }) := by
    rw [hc, show 512 * Fmt.halfBytes f = 128 * (4 * Fmt.halfBytes f) by omega, linesOf_aligned hal hpos]
  have hall : s.tileWrites o = (List.range (4 * Fmt.halfBytes f)).map (cvtPiece x.acc f rm sat n k o.tid dst) := by
    unfold State.tileWrites State.accOf
    rw [ha, hx]
    dsimp only
    rw [show cvtBytes f / 128 = 4 * Fmt.halfBytes f by unfold cvtBytes; omega]
    rfl
  have hline : ∀ i, i < 4 * Fmt.halfBytes f → s.lineWrites o { dst with addr := dst.addr + 128 * i } = [cvtPiece x.acc f rm sat n k o.tid dst i] := by
    intro i hi
    have hone := filter_range_eq (fun j => overlaps (cvtPiece x.acc f rm sat n k o.tid dst j).2.1 (cvtPiece x.acc f rm sat n k o.tid dst j).2.2.length
      { dst with addr := dst.addr + 128 * i } 128) hi (fun j => by
        unfold overlaps cvtPiece
        dsimp only
        rw [cvtBlock_length _ _ _ _ _ _ hf, beq_self_eq_true, Bool.true_and, decide_eq_true_eq]
        omega)
    unfold State.lineWrites
    rw [hall, List.filter_map]
    change List.map _ (List.map _ (List.filter (fun j => overlaps (cvtPiece x.acc f rm sat n k o.tid dst j).2.1
      (cvtPiece x.acc f rm sat n k o.tid dst j).2.2.length { dst with addr := dst.addr + 128 * i } 128) _)) = _
    rw [hone, List.map_singleton, List.map_singleton]
    unfold cvtPiece
    dsimp only
    rw [clipLine_whole (Nat.le_refl _) (by rw [cvtBlock_length _ _ _ _ _ _ hf])]
  have hwrites : o.cleared.flatMap (fun l => s.lineWrites o l) = (List.range (4 * Fmt.halfBytes f)).map (cvtPiece x.acc f rm sat n k o.tid dst) := by
    rw [hlines, List.flatMap_map, List.map_eq_flatMap]
    exact List.flatMap_congr fun i hi => hline i (List.mem_range.mp hi)
  rw [landAll_dsm, hwrites]
  rw [hwrites]
  intro w hw
  obtain ⟨i, _, rfl⟩ := List.mem_map.mp hw
  exact hsp

end Sys2Proof.Machine
end

section
/-! The events of the tile engine: O55. -/

namespace Sys2Proof.Machine

/-! ### TILE_ACCEPTANCE and MMA_START (R26, R28, R29, R219) -/

theorem run_next (s : State) (ops : List (Operand × Nat)) (k : Ctx → State) : ∃ u, run s ops k = .next u := by
  unfold run
  split
  · exact ⟨_, rfl⟩
  · split <;> exact ⟨_, rfl⟩

/-- A TILE instruction is presented as it is issued, and always has a next state. -/
theorem execTile_next {i : Instr} (h : isTile i = true) (s : State) : ∃ u, execTile i s = .next u ∧ exec i s = .next u := by
  cases i
  case tcfg | trel | tld | tst | tzero | mma | accld | accst | accz | acccvt =>
    obtain ⟨u, hu⟩ := run_next s _ _
    exact ⟨u, hu, hu⟩
  all_goals exact absurd h Bool.false_ne_true

theorem tileAcceptance_presents {s u : State} {core port : Nat} {k : Core} {i : Instr} (hk : s.core? core = some k) (hi : (k.port port).tile = some i)
    (ht : s.power.tripped = false) (hn : s.issuedNow core = false) (ho : s.outranked core port i = false)
    (hu : execTile i { s with cur := { core := core, port := port } } = .next u) :
    exec (.tileAcceptance core port) s = .next (if ((u.core? core).bind (fun k => (k.port port).tile)).isSome = true then u else u.markIssued core) := by
  change execTileAcceptance core port s = _
  unfold execTileAcceptance
  rw [ht, if_neg Bool.false_ne_true, hk, Option.bind_some, hi]
  dsimp only
  rw [hn, ho, hu]
  rfl

theorem tileAcceptance_waits {s : State} {core port : Nat} {k : Core} {i : Instr} (hk : s.core? core = some k) (hi : (k.port port).tile = some i)
    (h : s.issuedNow core = true ∨ s.outranked core port i = true) : exec (.tileAcceptance core port) s = .next s := by
  change execTileAcceptance core port s = _
  unfold execTileAcceptance
  split
  · rfl
  next j hj =>
    split at hj
    · exact absurd hj (by simp)
    · rw [hk, Option.bind_some, hi] at hj
      obtain rfl := Option.some.inj hj
      exact if_pos (Bool.or_eq_true_iff.mpr h)

/-- The operations with one due at a cycle. -/
def State.withDue (s : State) (op due : Nat) : State := { s with tileOps := updWhere (fun z => z.id == op) (fun z => { z with due := some due }) s.tileOps }

theorem mmaStart_starts {s : State} {op : Nat} {o : TileOp} {a b : Nat} {tra trb : Bool} {n x y : Nat} {k : Core} (ho : s.tileOp? op = some o)
    (ha : o.act = .mma a b tra trb n x y) (hd : o.due = none) (hk : s.core? o.core = some k) (hf : k.arrayFree ≤ s.clk) (hfree : s.tileFree o = true)
    (hb : s.mmaBehind o = false) (ht : s.power.tripped = false) :
    exec (.mmaStart op) s = .next ((s.withDue op (s.clk + mmaCycles (s.tile o.team a) (s.tile o.team b) tra trb x y + 16)).modCore o.core
      (fun k => { k with arrayFree := s.clk + mmaCycles (s.tile o.team a) (s.tile o.team b) tra trb x y })) := by
  change execMmaStart op s = _
  unfold execMmaStart
  rw [ho]
  dsimp only
  rw [ha, hd, hk]
  dsimp only
  rw [hfree, hb, ht, if_neg (by simpa using hf)]
  rfl

theorem tileOp?_withDue {s : State} {op due : Nat} {o : TileOp} (ho : s.tileOp? op = some o) : (s.withDue op due).tileOp? op = some { o with due := some due } := by
  have hmod := find?_updWhere (fun z : TileOp => z.id == op) (fun z => z.id == op) (fun z => { z with due := some due }) s.tileOps (fun _ => rfl)
  rw [show s.tileOps.find? (fun z => z.id == op) = some o from ho, Option.map_some, if_pos (beq_iff_eq.mpr (tileOp?_id ho))] at hmod
  exact hmod

/-! ### Completions that write memory -/

theorem landed_allLive {s p : State} {P : Loc → Prop} (h : s.WritesIn P p) (hl : s.allLive) : p.allLive := by
  obtain ⟨f, ef, hf⟩ := h.teams
  refine allLive_of_keys hl (fun x hx => ?_) (by rw [h.state]) (fun u hu hex => ⟨u, by rw [h.state]; exact hu, rfl, rfl, rfl, hex⟩)
  rw [ef] at hx
  obtain ⟨y, hy, rfl⟩ := List.mem_map.mp hx
  obtain ⟨m, em⟩ := hf y
  exact ⟨y, hy, by rw [em]⟩

section
variable {s : State} {op : Nat} {o : TileOp} (ho : s.tileOp? op = some o) (hd : s.tileDue o = true) (ht : s.power.tripped = false)
  (hlands : ∀ l ∈ o.cleared, s.lineLands o l = true)
include ho hd ht hlands

theorem tstCompletion_lands {k n : Nat} {cs : List (Nat × Loc × Nat)} (ha : o.act = .tst k cs n) :
    exec (.tstCompletion op) s = .next ((s.landAll o).finishTile o).settle := by
  have hall : o.cleared.all (fun l => s.lineLands o l) = true := List.all_eq_true.mpr hlands
  change execTstCompletion op s = _
  unfold execTstCompletion
  rw [tileReady_some ho hd ht (by rw [ha])]
  dsimp only
  rw [hall]
  rfl

end

/-- The counters of a launch have been raised by the events of an ACCCVT, whose thread is due for CONVERT_LIMIT where one crosses its
threshold (R63). -/
def State.cvtCounted (p : State) (o : TileOp) (launch : Nat) (ev : CvCount) : State :=
  if (p.countConv launch ev).2 then (p.countConv launch ev).1.modThread o.team o.tid (fun x => if x.hasExited then x else { x with convDue := some o.pc })
  else (p.countConv launch ev).1

theorem acccvtCompletion_lands {s : State} {op : Nat} {o : TileOp} {x : Team} {f : Fmt} {rm : Rm} {sat : Bool} {n : Nat} {dst : Loc} {k : Option Word}
    (ho : s.tileOp? op = some o) (hd : s.tileDue o = true) (ht : s.power.tripped = false) (hlands : ∀ l ∈ o.cleared, s.lineLands o l = true)
    (hx : s.team? o.team = some x) (ha : o.act = .acccvt f rm sat n dst k) :
    exec (.acccvtCompletion op) s = .next ((((s.landAll o).cvtCounted o x.launch (cvtEvents x.acc f rm sat n k)).finishTile o).settle) := by
  have hall : o.cleared.all (fun l => s.lineLands o l) = true := List.all_eq_true.mpr hlands
  change execAcccvtCompletion op s = _
  unfold execAcccvtCompletion
  rw [tileReady_some ho hd ht (by rw [ha])]
  dsimp only
  rw [ha, hx]
  dsimp only
  rw [hall]
  rfl

theorem countConv_none {p : State} {key : Nat} (ev : CvCount) (h : p.launch? key = none) : p.countConv key ev = (p, false) := by
  unfold State.countConv
  rw [h]

/-- An addition to counters that crosses no threshold is quiet (R63). -/
theorem crosses_iff (lim : Word) (field old n : Nat) : crosses lim field old (stop32 (old + n)) = true ↔
    (cvThreshold lim field ≠ 0 ∧ old < cvThreshold lim field ∧ cvThreshold lim field ≤ min (old + n) (2 ^ 32 - 1)) := by
  have hstop : stop32 (old + n) = min (old + n) (2 ^ 32 - 1) := by unfold stop32; split <;> omega
  unfold crosses
  rw [hstop]
  simp [and_assoc]

/-- Some counter of a launch crosses its threshold as the events are added. -/
def Launch.crossed (l : Launch) (n : CvCount) : Bool :=
  crosses l.cvclim 0 l.cvcsat (stop32 (l.cvcsat + n.sat)) || crosses l.cvclim 10 l.cvcftz (stop32 (l.cvcftz + n.ftz)) || crosses l.cvclim 20 l.cvcnan (stop32 (l.cvcnan + n.nan))

theorem quiet_iff (l : Launch) (n : CvCount) : l.quiet n ↔ l.crossed n = false := by
  unfold Launch.quiet Launch.crossed
  rw [Bool.or_eq_false_iff, Bool.or_eq_false_iff, ← Bool.not_eq_true, ← Bool.not_eq_true, ← Bool.not_eq_true, crosses_iff, crosses_iff, crosses_iff]
  simp only [List.forall_mem_cons, List.not_mem_nil, false_imp_iff, implies_true, and_true, and_assoc]

/-- A launch whose counters stand at what they have counted so far. -/
def Launch.countersAt (a b c : Nat) (l : Launch) : Launch := { l with cvcsat := a, cvcftz := b, cvcnan := c }

theorem countConv_some {p : State} {key : Nat} {l : Launch} (ev : CvCount) (h : p.launch? key = some l) : p.countConv key ev =
    (p.modLaunch key (Launch.countersAt (stop32 (l.cvcsat + ev.sat)) (stop32 (l.cvcftz + ev.ftz)) (stop32 (l.cvcnan + ev.nan))), l.crossed ev) := by
  unfold State.countConv
  rw [h]
  rfl

theorem countersAt_counted (l : Launch) (ev : CvCount) :
    l.countersAt (stop32 (l.cvcsat + ev.sat)) (stop32 (l.cvcftz + ev.ftz)) (stop32 (l.cvcnan + ev.nan)) = l.counted ev := by
  have hstop : ∀ n, stop32 n = min n (2 ^ 32 - 1) := fun n => by unfold stop32; split <;> omega
  unfold Launch.countersAt Launch.counted
  rw [hstop, hstop, hstop]

/-- The counting changes launches and which threads are due, and nothing else. -/
theorem cvtCounted_keeps (p : State) (o : TileOp) (launch : Nat) (ev : CvCount) : ∃ ls g,
    p.cvtCounted o launch ev = { p with launches := ls, threads := p.threads.map g } ∧ ∀ u, ∃ d, g u = { u with convDue := d } := by
  have hcount : ∃ ls, (p.countConv launch ev).1 = { p with launches := ls } := by
    cases h : p.launch? launch with
    | none => exact ⟨p.launches, by rw [countConv_none ev h]⟩
    | some l => exact ⟨_, by rw [countConv_some ev h]; rfl⟩
  obtain ⟨ls, e⟩ := hcount
  unfold State.cvtCounted
  rw [e]
  split
  · refine ⟨ls, _, rfl, fun u => ?_⟩
    dsimp only
    split
    · split
      · exact ⟨u.convDue, rfl⟩
      · exact ⟨_, rfl⟩
    · exact ⟨u.convDue, rfl⟩
  · exact ⟨ls, id, by simp, fun u => ⟨u.convDue, rfl⟩⟩

theorem cvtCounted_launch? {p : State} {o : TileOp} {key : Nat} {l : Launch} {ev : CvCount} (h : p.launch? key = some l) :
    (p.cvtCounted o key ev).launch? key = some (l.counted ev) := by
  have hone : (p.countConv key ev).1.launch? key = some (l.counted ev) := by
    rw [countConv_some ev h, ← countersAt_counted]
    dsimp only
    rw [launch?_modLaunch (f := Launch.countersAt _ _ _) _ _ _ (fun _ => rfl), if_pos rfl, h]
    rfl
  unfold State.cvtCounted
  split
  · exact hone
  · exact hone

theorem cvtCounted_thread? {p : State} {o : TileOp} {key : Nat} {l : Launch} {ev : CvCount} {u : Thread} (h : p.launch? key = some l)
    (hu : p.thread? o.team o.tid = some u) (hex : u.hasExited = false) : (p.cvtCounted o key ev).thread? o.team o.tid =
      some (if l.crossed ev then { u with convDue := some o.pc } else u) := by
  obtain ⟨hteam, htid⟩ := thread?_key hu
  unfold State.cvtCounted
  rw [countConv_some ev h]
  dsimp only
  split
  · have hmod := thread?_updWhere p (fun t => t.team == o.team && t.tid == o.tid) (fun x => if x.hasExited then x else { x with convDue := some o.pc })
      (fun x => by dsimp only; split <;> exact ⟨rfl, rfl⟩) o.team o.tid
    rw [hu, Option.map_some, if_pos (by simp [hteam, htid]), hex, if_neg Bool.false_ne_true] at hmod
    exact hmod
  · exact hu

end Sys2Proof.Machine
end

section
/-! The completions of the tile engine, one lemma for each, and O55. -/

namespace Sys2Proof.Machine

/-! ### Completions in a team's own storage -/

/-- An event ends operation `o`, as `State.EndsTile` says. -/
def EndsBy (s : State) (i : Instr) (o : TileOp) (acc : Memory) (tile : Nat → Tile) (pend : Nat → Thread → List Pending) : Prop :=
  ∃ t x', exec i s = .next t ∧ s.EndsTile t o x' acc tile pend

section
variable {s : State} {op : Nat} {o : TileOp} {x : Team} (hl : s.allLive) (ht : s.power.tripped = false) (ho : s.tileOp? op = some o)
  (hd : s.tileDue o = true) (hx : s.team? o.team = some x) (hb : o.bar = none)
include hl ht ho hd hx hb

theorem mmaCompletion_ends {a b : Nat} {tra trb : Bool} {n r k : Nat} (ha : o.act = .mma a b tra trb n r k) :
    EndsBy s (.mmaCompletion op) o (mmaAcc x.acc (x.tile a) (x.tile b) tra trb n r k) x.tile (fun _ u => u.pend) := by
  obtain ⟨x', h⟩ := ((State.Noted.refl s).tiled o (fun t => { t with acc := mmaAcc t.acc (t.tile a) (t.tile b) tra trb n r k })).ends
    (tile := x.tile) (pend := fun _ u => u.pend) hl hb (fun _ => rfl) hx rfl (fun _ => rfl) (fun _ _ => rfl)
  exact ⟨_, x', mmaCompletion_eq ho hd ht ha, h⟩

theorem tldCompletion_ends {k n : Nat} {part : TilePart} {cs : List (Nat × Loc × Nat)} (ha : o.act = .tld k part cs n) (hc : s.chunksReady o cs n = true)
    (hbad : s.badWords = []) : EndsBy s (.tldCompletion op) o x.acc (fun j => if j = k ∧ j < x.tiles.length then
      (cs.mapIdx (fun i c => (c.2.2, s.chunkWords o (i * (n / 4)) c.1 c.2.1 n))).foldl (fun y g => y.load part g.1 g.2) (x.tile j) else x.tile j)
      (fun _ u => u.pend) := by
  generalize hload : (fun y : Tile => (cs.mapIdx (fun i c => (c.2.2, s.chunkWords o (i * (n / 4)) c.1 c.2.1 n))).foldl (fun y g => y.load part g.1 g.2) y) = f
  obtain ⟨x', h⟩ := ((noteChunks_noted s o cs n).tiled o (fun x => { x with tiles := updAt k f x.tiles })).ends
    (pend := fun _ u => u.pend) hl hb (fun _ => rfl) hx rfl (fun j => tile_updAt x k j f) (fun _ _ => rfl)
  have hexec := tldCompletion_eq ho hd ht ha hc hbad
  rw [hload] at hexec
  refine ⟨_, x', hexec, ?_⟩
  subst hload
  exact h

theorem tzeroCompletion_ends {k : Nat} (ha : o.act = .tzero k) :
    EndsBy s (.tzeroCompletion op) o x.acc (fun j => if j = k ∧ j < x.tiles.length then (x.tile j).zero else x.tile j) (fun _ u => u.pend) := by
  obtain ⟨x', h⟩ := ((State.Noted.refl s).tiled o (fun x => { x with tiles := updAt k Tile.zero x.tiles })).ends
    (pend := fun _ u => u.pend) hl hb (fun _ => rfl) hx rfl (fun j => tile_updAt x k j Tile.zero) (fun _ _ => rfl)
  exact ⟨_, x', tzeroCompletion_eq ho hd ht ha, h⟩

theorem accldResultArrival_ends {n r k w : Nat} (ha : o.act = .accld n r k w) (he : ∀ u ∈ s.threads, u.entering = none) :
    EndsBy s (.accldResultArrival op) o x.acc x.tile
      (fun tid u => if tid ∈ o.counted then (u.arrive op (accWords x.acc n r k w)).pend else u.pend) := by
  obtain ⟨x', h⟩ := (arrive_tiled s o op (accWords x.acc n r k w)).ends (acc := x.acc) (tile := x.tile)
    (pend := fun tid u => if tid ∈ o.counted then (u.arrive op (accWords x.acc n r k w)).pend else u.pend) hl hb (fun _ => rfl) hx rfl (fun _ => rfl)
    (fun u hu => by simp [hu])
  exact ⟨_, x', accldResultArrival_eq ho hd ht ha hb hx he, h⟩

theorem tileCompletion_conf_ends {k : Nat} (ha : o.act = .tcfg k ∨ o.act = .trel k) : EndsBy s (.tileCompletion op) o x.acc x.tile (fun _ u => u.pend) := by
  obtain ⟨x', h⟩ := (State.Tiled.refl s o).ends (acc := x.acc) (tile := x.tile)
    (pend := fun _ u => u.pend) hl hb (fun _ => rfl) hx rfl (fun _ => rfl) (fun _ _ => rfl)
  exact ⟨_, x', tileCompletion_conf ho hd ht ha, h⟩

theorem tileCompletion_accst_ends {n r k : Nat} {ws : List Word} (ha : o.act = .accst n r k ws) :
    EndsBy s (.tileCompletion op) o (accStore x.acc n r k ws) x.tile (fun _ u => u.pend) := by
  obtain ⟨x', h⟩ := ((State.Noted.refl s).tiled o (fun t => { t with acc := accStore t.acc n r k ws })).ends
    (tile := x.tile) (pend := fun _ u => u.pend) hl hb (fun _ => rfl) hx rfl (fun _ => rfl) (fun _ _ => rfl)
  exact ⟨_, x', tileCompletion_accst ho hd ht ha, h⟩

theorem tileCompletion_accz_ends {n k : Nat} (ha : o.act = .accz n k) :
    EndsBy s (.tileCompletion op) o (x.acc.filter (fun y => !decide (4096 * n ≤ y.1 ∧ y.1 < 4096 * (n + k)))) x.tile (fun _ u => u.pend) := by
  obtain ⟨x', h⟩ := ((State.Noted.refl s).tiled o
    (fun t => { t with acc := t.acc.filter (fun x => !decide (4096 * n ≤ x.1 ∧ x.1 < 4096 * (n + k))) })).ends
    (tile := x.tile) (pend := fun _ u => u.pend) hl hb (fun _ => rfl) hx rfl (fun _ => rfl) (fun _ _ => rfl)
  exact ⟨_, x', tileCompletion_accz ho hd ht ha, h⟩

end

end Sys2Proof.Machine
end

section
/-! O55: TST and ACCCVT end, and the clauses assembled. -/

namespace Sys2Proof.Machine

/-! ### TST_COMPLETION and ACCCVT_COMPLETION (R215, R222) -/

/-- The state that an ACCCVT leaves before its end: its lines landed, its events counted. -/
def State.converted (s : State) (o : TileOp) (x : Team) (ev : CvCount) : State := (s.landAll o).cvtCounted o x.launch ev

/-- What an operation's writes leave as it was. -/
theorem landAll_keeps (s : State) (o : TileOp) : (s.landAll o).tileOps = s.tileOps ∧ (s.landAll o).threads = s.threads ∧ (s.landAll o).launches = s.launches := by
  rw [(landAll_writesIn s o).state]
  exact ⟨rfl, rfl, rfl⟩

theorem landAll_thread? (s : State) (o : TileOp) (team tid : Nat) : (s.landAll o).thread? team tid = s.thread? team tid := by
  unfold State.thread?
  rw [(landAll_keeps s o).2.1]

theorem landAll_launch? (s : State) (o : TileOp) (key : Nat) : (s.landAll o).launch? key = s.launch? key := by
  unfold State.launch?
  rw [(landAll_keeps s o).2.2]

theorem landAll_allLive {s : State} (hl : s.allLive) (o : TileOp) : (s.landAll o).allLive := landed_allLive (landAll_writesIn s o) hl

theorem memRead_dsm (s : State) {l : Loc} (n : Nat) (h : l.space = .dsm) : s.memRead l n = s.dsm.readBytes l.addr n := by
  unfold State.memRead State.memOf
  rw [h]

/-- Counting changes no memory. -/
theorem converted_memRead (s : State) (o : TileOp) (x : Team) (ev : CvCount) (l : Loc) (n : Nat) : (s.converted o x ev).memRead l n = (s.landAll o).memRead l n := by
  obtain ⟨ls, g, e, _⟩ := cvtCounted_keeps (s.landAll o) o x.launch ev
  unfold State.converted
  rw [e]
  unfold State.memRead State.memOf
  rfl

theorem converted_tileOps (s : State) (o : TileOp) (x : Team) (ev : CvCount) : (s.converted o x ev).tileOps = s.tileOps := by
  obtain ⟨ls, g, e, _⟩ := cvtCounted_keeps (s.landAll o) o x.launch ev
  rw [← (landAll_keeps s o).1]
  unfold State.converted
  rw [e]

theorem converted_allLive {s : State} (hl : s.allLive) (o : TileOp) (x : Team) (ev : CvCount) : (s.converted o x ev).allLive := by
  obtain ⟨ls, g, e, hg⟩ := cvtCounted_keeps (s.landAll o) o x.launch ev
  unfold State.converted
  rw [e]
  refine allLive_of_keys (landAll_allLive hl o) (fun y hy => ⟨y, hy, rfl⟩) rfl (live_of_map fun u => ?_)
  obtain ⟨d, eu⟩ := hg u
  rw [eu]
  exact ⟨rfl, rfl, rfl, rfl⟩

/-- The bytes of a chunk that has landed. -/
theorem landAll_chunk_read {s : State} {o : TileOp} {k x at_ n : Nat} {a : Loc} (hs : s.memOk) (ha : o.act = .tst k [(x, a, at_)] n) (hn : 0 < n)
    (hsp : a.space = .dsm) (hc : o.cleared = [lineOf a]) (hline : a.addr / 128 = (a.addr + n - 1) / 128) :
    (s.landAll o).memRead a n = (s.tile o.team k).data.readBytes at_ n := by
  have hlen : ((s.tile o.team k).data.readBytes at_ n).length = n := by simp [Image.readBytes]
  have hread := Memory.readBytes_writeBytes s.dsm a.addr ((s.tile o.team k).data.readBytes at_ n) hs.dsm
  rw [hlen] at hread
  rw [memRead_dsm _ _ hsp, landAll_chunk ha hn hsp hc hline, hread]

/-- The bytes of a converted block that has landed. -/
theorem landAll_block_read {s : State} {o : TileOp} {x : Team} {f : Fmt} {rm : Rm} {sat : Bool} {n : Nat} {dst : Loc} {k : Option Word} (hs : s.memOk)
    (ha : o.act = .acccvt f rm sat n dst k) (hx : s.team? o.team = some x) (hsp : dst.space = .dsm) (hal : dst.addr % 128 = 0) (hf : f ≠ .q4)
    (hc : o.cleared = linesOf dst (512 * Fmt.halfBytes f)) {i : Nat} (hi : i < 4 * Fmt.halfBytes f) :
    (s.landAll o).memRead { dst with addr := dst.addr + 128 * i } 128 = cvtBlock x.acc f rm sat n k (128 * i) 128 := by
  have hpieces := read_writesDsm (piece := cvtPiece x.acc f rm sat n k o.tid dst) hs.dsm (fun _ => rfl) (fun _ => cvtBlock_length _ _ _ _ _ _ hf) (4 * Fmt.halfBytes f)
  rw [memRead_dsm (l := { dst with addr := dst.addr + 128 * i }) _ _ hsp, landAll_block ha hx hsp hal hf hc]
  exact hpieces.2 i hi

section
variable {s p : State} {op : Nat} {o : TileOp} (hp : p.allLive) (hb : o.bar = none) (hops : p.tileOps = s.tileOps) (ho : s.tileOp? op = some o)
  (hmem : ∀ l n, p.memRead l n = (s.landAll o).memRead l n)
include hp hb

include hops ho in
theorem landed_tileOps : (p.finishTile o).settle.tileOps = s.tileOps.filter (fun y => y.id != op) := by
  rw [(finishTile_settle hp hb).tileOps, hops, tileOp?_id ho]

include hmem in
theorem landed_memRead (l : Loc) (n : Nat) : (p.finishTile o).settle.memRead l n = (s.landAll o).memRead l n := by
  rw [(finishTile_settle hp hb).memRead, hmem]

end

/-- What ACCCVT's end leaves of its launch and its thread (R61 to R63). -/
theorem converted_counts {s : State} {o : TileOp} {x : Team} {l : Launch} (ev : CvCount) (hl : s.allLive) (hb : o.bar = none) (hlaunch : s.launch? x.launch = some l) :
    ((s.converted o x ev).finishTile o).settle.launch? x.launch = some (l.counted ev) ∧
    ∀ u, s.thread? o.team o.tid = some u → u.hasExited = false → ∃ u', ((s.converted o x ev).finishTile o).settle.thread? o.team o.tid = some u' ∧
      u'.v = u.v ∧ u'.p = u.p ∧ (¬l.quiet ev → u'.convDue = some o.pc) ∧ (l.quiet ev → u'.convDue = u.convDue) := by
  have hf := finishTile_settle (converted_allLive hl o x ev) hb
  have hlanded : (s.landAll o).launch? x.launch = some l := (landAll_launch? s o _).trans hlaunch
  refine ⟨(hf.launch? _).trans (cvtCounted_launch? hlanded), fun u hu hex => ?_⟩
  have hthread := hf.thread? (cvtCounted_thread? (ev := ev) hlanded ((landAll_thread? s o _ _).trans hu) hex)
  refine ⟨_, hthread, ?_, ?_, fun hnq => ?_, fun hqu => ?_⟩
  · split <;> rfl
  · split <;> rfl
  · rw [quiet_iff, Bool.not_eq_false] at hnq
    rw [hnq]
    rfl
  · rw [quiet_iff] at hqu
    rw [hqu]
    rfl

/-! ### The obligation -/

/-- Settles O55: each completion is a change of its team, or writes within its lines, before the operation's end, and a machine
whose teams live settles after that end without more. -/
theorem tileEventsComplete : Obligations.TileEventsComplete := by
  unfold Obligations.TileEventsComplete
  refine ⟨?_, ?_, ?_, ?_, ?_, ?_⟩
  · intro s core port k i hk hi htile ht hn ho
    obtain ⟨u, hu, hexec⟩ := execTile_next htile { s with cur := { core := core, port := port } }
    exact ⟨u, hexec, tileAcceptance_presents hk hi ht hn ho hu⟩
  · intro s core port k i hk hi h
    exact tileAcceptance_waits hk hi h
  · intro s op o a b tra trb n x y k ho ha hd hk hf hfree hb ht
    refine ⟨_, mmaStart_starts ho ha hd hk hf hfree hb ht, rfl, tileOp?_withDue ho, ?_⟩
    have hcore := core?_modCore (s.withDue op (s.clk + mmaCycles (s.tile o.team a) (s.tile o.team b) tra trb x y + 16)) o.core
      (fun k => { k with arrayFree := s.clk + mmaCycles (s.tile o.team a) (s.tile o.team b) tra trb x y }) (fun _ => rfl) o.core
    rw [show State.core? (s.withDue op _) o.core = some k from hk, Option.map_some, if_pos rfl] at hcore
    exact hcore
  · intro s op o x hl ht ho hd hx hbad hb i hi he
    have hclause : ∃ acc tile pend, EndsBy s i o acc tile pend ∧
        acc = (match o.act with
          | .mma a b tra trb n r k => mmaAcc x.acc (x.tile a) (x.tile b) tra trb n r k
          | .accst n r k ws => accStore x.acc n r k ws
          | .accz n k => x.acc.filter (fun y => !decide (4096 * n ≤ y.1 ∧ y.1 < 4096 * (n + k)))
          | _ => x.acc) ∧
        tile = (fun j => match o.act with
          | .tzero k => if j = k ∧ j < x.tiles.length then (x.tile j).zero else x.tile j
          | .tld k part cs n => if j = k ∧ j < x.tiles.length then
              (cs.mapIdx (fun i c => (c.2.2, s.chunkWords o (i * (n / 4)) c.1 c.2.1 n))).foldl (fun y g => y.load part g.1 g.2) (x.tile j) else x.tile j
          | _ => x.tile j) ∧
        pend = (fun tid u => match o.act with
          | .accld n r k w => if tid ∈ o.counted then (u.arrive op (accWords x.acc n r k w)).pend else u.pend
          | _ => u.pend) := by
      rcases hi with ⟨a, b, tra, trb, n, r, k, ha, rfl⟩ | ⟨k, part, cs, n, ha, rfl, hc⟩ | ⟨k, ha, rfl⟩ | ⟨n, r, k, w, ha, rfl⟩ |
        ⟨⟨k, ha | ha⟩ | ⟨n, r, k, ws, ha⟩ | ⟨n, k, ha⟩, rfl⟩ <;> rw [ha]
      · exact ⟨_, _, _, mmaCompletion_ends hl ht ho hd hx hb ha, rfl, rfl, rfl⟩
      · exact ⟨_, _, _, tldCompletion_ends hl ht ho hd hx hb ha hc hbad, rfl, rfl, rfl⟩
      · exact ⟨_, _, _, tzeroCompletion_ends hl ht ho hd hx hb ha, rfl, rfl, rfl⟩
      · exact ⟨_, _, _, accldResultArrival_ends hl ht ho hd hx hb ha he, rfl, rfl, rfl⟩
      · exact ⟨_, _, _, tileCompletion_conf_ends hl ht ho hd hx hb (.inl ha), rfl, rfl, rfl⟩
      · exact ⟨_, _, _, tileCompletion_conf_ends hl ht ho hd hx hb (.inr ha), rfl, rfl, rfl⟩
      · exact ⟨_, _, _, tileCompletion_accst_ends hl ht ho hd hx hb ha, rfl, rfl, rfl⟩
      · exact ⟨_, _, _, tileCompletion_accz_ends hl ht ho hd hx hb ha, rfl, rfl, rfl⟩
    obtain ⟨acc, tile, pend, ⟨t, x', hexec, h⟩, rfl, rfl, rfl⟩ := hclause
    exact ⟨t, x', hexec, tileOp?_id ho ▸ h.tileOps, h.team, h.threads, h.rows, h.acc, h.tile, h.state⟩
  · intro s op o hl ht hs ho hd hb hlands ⟨k, cs, n, ha⟩
    have hlive := landAll_allLive hl o
    have hf := finishTile_settle hlive hb
    refine ⟨_, tstCompletion_lands ho hd ht hlands ha, landed_tileOps hlive hb (landAll_keeps s o).1 ho, fun l m h => ?_, fun l => hf.absent_held, ?_, fun tid u hu => ?_⟩
    · rw [hf.memRead, (landAll_writesIn s o).memRead hs (not_inLines h)]
    · intro k' x a at_ n' ha' hn hsp hc hline
      rw [hf.memRead, landAll_chunk_read hs ha' hn hsp hc hline]
    · exact ⟨_, hf.thread? ((landAll_thread? s o _ _).trans hu), rfl, rfl, rfl⟩
  · intro s op o x f rm sat n dst k hl ht hs ho hd hx hb hlands ha
    have hlive := converted_allLive hl o x (cvtEvents x.acc f rm sat n k)
    have hread := landed_memRead hlive hb (converted_memRead s o x (cvtEvents x.acc f rm sat n k))
    refine ⟨_, acccvtCompletion_lands ho hd ht hlands hx ha, landed_tileOps hlive hb (converted_tileOps s o x _) ho, fun l m h => ?_,
      fun l => (finishTile_settle hlive hb).absent_held, ?_, fun l hlaunch => converted_counts _ hl hb hlaunch⟩
    · exact (hread l m).trans ((landAll_writesIn s o).memRead hs (not_inLines h))
    · intro hsp hal hq4 hc i hi
      exact (hread _ _).trans (landAll_block_read hs ha hx hsp hal hq4 hc hi)

end Sys2Proof.Machine
end

section
/-! Checks and fields of a word, each said once as an equivalence: what a check of the decoder accepts, what a field reads, and
when joined fields are the word they were read from (R82, R83, R86). -/

namespace Sys2Proof

/-! ### Sequences of reads -/

theorem Dec.bind_eq_ok {α β : Type} {x : Dec α} {f : α → Dec β} {r : β} : (x >>= f) = .ok r ↔ ∃ a, x = .ok a ∧ f a = .ok r := by
  cases x with
  | error e => exact ⟨fun h => (nomatch h), fun ⟨_, h, _⟩ => (nomatch h)⟩
  | ok a => exact ⟨fun h => ⟨a, rfl, h⟩, fun ⟨b, h, k⟩ => by cases h; exact k⟩

/-- One read after another succeeds. -/
theorem Dec.step {α β : Type} {x : Dec α} {a : α} {f : α → Dec β} {r : β} (h : x = .ok a) (k : f a = .ok r) : (x >>= f) = .ok r :=
  Dec.bind_eq_ok.2 ⟨a, h, k⟩

/-- A check is passed, and what follows it succeeds. -/
theorem Dec.check {α : Type} {x : Dec Unit} {f : Unit → Dec α} {r : α} (h : x = .ok ()) (k : f () = .ok r) : (x >>= f) = .ok r :=
  Dec.step h k

/-! ### Bits that must be zero -/

/-- The bits of a field are zero where a mask has ones (R83, R86, R95). -/
def Clear {n : Nat} (m : BitVec n) (mask : Nat) : Prop := ∀ i, mask.testBit i = true → m.getLsbD i = false

theorem and_eq_zero_iff_clear {n : Nat} (m mask : BitVec n) : m &&& mask = 0#n ↔ Clear m mask.toNat := by
  constructor
  · intro h i hi
    have := congrArg (·.getLsbD i) h
    simpa [show mask.getLsbD i = true from hi] using this
  · intro h
    apply BitVec.eq_of_getLsbD_eq
    intro i _
    cases hm : mask.getLsbD i with
    | false => simp [hm]
    | true => simp [h i hm]

section
variable {n : Nat} {m : BitVec n} {mask : Nat}

/-- A field that a mask covers. -/
theorem Clear.field (h : Clear m mask) {s k : Nat} (hk : mask >>> s % 2 ^ k = 2 ^ k - 1) : 0#k = m.extractLsb' s k := by
  apply BitVec.eq_of_getLsbD_eq
  intro i hi
  have hbit : mask.testBit (s + i) = true := by
    have := congrArg (·.testBit i) hk
    simpa [Nat.testBit_mod_two_pow, Nat.testBit_two_pow_sub_one, hi] using this
  simp [h _ hbit]

/-- A whole field. -/
theorem Clear.all (h : Clear m mask) (hk : mask % 2 ^ n = 2 ^ n - 1) : 0#n = m :=
  (h.field (s := 0) (k := n) hk).trans (extract_whole m)

theorem Clear.bit (h : Clear m mask) {i : Nat} (hi : mask.testBit i = true) : false = m.getLsbD i := (h i hi).symm

theorem Clear.or {mask' : Nat} (h : Clear m mask) (h' : Clear m mask') : Clear m (mask ||| mask') := by
  intro i hi
  rw [Nat.testBit_or, Bool.or_eq_true] at hi
  exact hi.elim (h i) (h' i)

theorem Clear.mono {mask' : Nat} (h : Clear m mask) (hsub : mask &&& mask' = mask') : Clear m mask' := by
  intro i hi
  rw [← hsub, Nat.testBit_and, Bool.and_eq_true] at hi
  exact h i hi.1

/-- Only the ones of a mask within the field matter. -/
theorem clear_congr {mask' : Nat} (h : ∀ i, i < n → mask.testBit i = mask'.testBit i) : Clear m mask ↔ Clear m mask' := by
  refine forall_congr' fun i => ?_
  by_cases hi : i < n
  · rw [h i hi]
  · simp [BitVec.getLsbD_of_ge m i (Nat.le_of_not_lt hi)]

@[simp] theorem clear_zero_mask (m : BitVec n) : Clear m 0 := fun i hi => by simp at hi

@[simp] theorem zero_clear (mask : Nat) : Clear 0#n mask := fun i _ => by simp

theorem bit1_false : bit1 false = 0#1 := rfl

@[simp] theorem bit1_clear (b : Bool) : Clear (bit1 b) 1 ↔ b = false :=
  ⟨fun h => (bit1_getLsbD b).symm.trans (h 0 rfl), fun h => h ▸ zero_clear 1⟩

theorem clear_append {k : Nat} (x : BitVec k) (y : BitVec n) (mask : Nat) :
    Clear (x ++ y) mask ↔ Clear x (mask >>> n) ∧ Clear y (mask % 2 ^ n) := by
  constructor
  · intro h
    refine ⟨fun i hi => ?_, fun i hi => ?_⟩
    · have := h (n + i) (by simpa using hi)
      simpa [BitVec.getLsbD_append] using this
    · rw [Nat.testBit_mod_two_pow, Bool.and_eq_true, decide_eq_true_iff] at hi
      simpa [BitVec.getLsbD_append, hi.1] using h i hi.2
  · intro ⟨hx, hy⟩ i hi
    rw [BitVec.getLsbD_append]
    split
    next hn => exact hy i (by simp [Nat.testBit_mod_two_pow, hn, hi])
    next hn => exact hx (i - n) (by simp [hi, show n + (i - n) = i by omega])

end

/-! ### Joined fields -/

section
variable {a b c d e f : Nat} {x : BitVec a} {y : BitVec b} {z : BitVec c} {u : BitVec d} {v : BitVec e} {t : BitVec f}

theorem append_eq_iff {w : BitVec (a + b)} : x ++ y = w ↔ x = w.extractLsb' b a ∧ y = w.extractLsb' 0 b := by
  constructor
  · rintro rfl
    rw [extract_high x y b a (Nat.le_refl b), Nat.sub_self, extract_whole, extract_low x y 0 b (by omega), extract_whole]
    exact ⟨rfl, rfl⟩
  · rintro ⟨rfl, rfl⟩
    rw [extract_join' w 0 b a b (by omega), extract_whole]

theorem append3_eq_iff {w : BitVec (a + (b + c))} : x ++ (y ++ z) = w ↔
    x = w.extractLsb' (b + c) a ∧ y = w.extractLsb' c b ∧ z = w.extractLsb' 0 c := by
  simp (disch := omega) only [append_eq_iff, extract_extract, Nat.zero_add]

theorem append4_eq_iff {w : BitVec (a + (b + (c + d)))} : x ++ (y ++ (z ++ u)) = w ↔
    x = w.extractLsb' (b + (c + d)) a ∧ y = w.extractLsb' (c + d) b ∧ z = w.extractLsb' d c ∧ u = w.extractLsb' 0 d := by
  simp (disch := omega) only [append_eq_iff, extract_extract, Nat.zero_add]

theorem append5_eq_iff {w : BitVec (a + (b + (c + (d + e))))} : x ++ (y ++ (z ++ (u ++ v))) = w ↔
    x = w.extractLsb' (b + (c + (d + e))) a ∧ y = w.extractLsb' (c + (d + e)) b ∧ z = w.extractLsb' (d + e) c ∧
      u = w.extractLsb' e d ∧ v = w.extractLsb' 0 e := by
  simp (disch := omega) only [append_eq_iff, extract_extract, Nat.zero_add]

theorem append6_eq_iff {w : BitVec (a + (b + (c + (d + (e + f)))))} : x ++ (y ++ (z ++ (u ++ (v ++ t)))) = w ↔
    x = w.extractLsb' (b + (c + (d + (e + f)))) a ∧ y = w.extractLsb' (c + (d + (e + f))) b ∧ z = w.extractLsb' (d + (e + f)) c ∧
      u = w.extractLsb' (e + f) d ∧ v = w.extractLsb' f e ∧ t = w.extractLsb' 0 f := by
  simp (disch := omega) only [append_eq_iff, extract_extract, Nat.zero_add]

end

theorem bit1_eq_extract {n : Nat} {b : Bool} {w : BitVec n} {i : Nat} : bit1 b = w.extractLsb' i 1 ↔ b = w.getLsbD i := by
  rw [← getLsbD_extract1]
  cases b <;> cases w.getLsbD i <;> decide

theorem toFin_eq_iff {n : Nat} {c : BitVec n} {x : Fin (2 ^ n)} : c.toFin = x ↔ fld n x = c :=
  ⟨fun h => h ▸ fld_toFin c, fun h => h ▸ toFin_fld x⟩

/-- A number below `m` read from a field with room for it. -/
theorem fld_of_finBelow {m n : Nat} {c : BitVec n} {x : Fin m} (h : finBelow m c = .ok x) : fld n x = c := by
  rw [fld, ← finBelow_ok.1 h, BitVec.ofNat_toNat, BitVec.setWidth_eq]

theorem finBelow_of_fld {m n : Nat} {c : BitVec n} {x : Fin m} (h : fld n x = c) (hm : decide (m ≤ 2 ^ n) = true) : finBelow m c = .ok x := by
  have hx : x.val < 2 ^ n := Nat.lt_of_lt_of_le x.isLt (of_decide_eq_true hm)
  rw [finBelow_ok, ← h, fld, BitVec.toNat_ofNat, Nat.mod_eq_of_lt hx]

/-- Bit 0 of X with the two bits above it zero. -/
theorem flag_eq_x {m : BitVec 14} {b : Bool} : 0#2 ++ bit1 b = m.extractLsb' 0 3 ↔ 0#2 = m.extractLsb' 1 2 ∧ b = m.getLsbD 0 := by
  rw [append_eq_iff, extract_extract m 0 3 1 2 (by omega), extract_extract m 0 3 0 1 (by omega), bit1_eq_extract]

/-- X as a flag, which may be 0 or 1. -/
theorem finBelow_two {c : BitVec 3} {x : Fin 2} : finBelow 2 c = .ok x ↔ 0#2 ++ bit1 (x == 1) = c := by
  have hx : fld 3 x = 0#2 ++ bit1 (x == 1) := by revert x; decide
  rw [← hx]
  exact ⟨fld_of_finBelow, fun h => finBelow_of_fld h rfl⟩

/-- An enumerated field, for any of the code tables. -/
theorem enumField_eq_of_code {n : Nat} {α : Type} {ofCode : BitVec n → Option α} {code : α → BitVec n}
    (hcode : ∀ x, ofCode (code x) = some x) {c : BitVec n} {x : α} (h : code x = c) : enumField (ofCode c) = .ok x := by
  rw [← h, hcode, enumField]

/-! ### The MOD of R83 -/

theorem packMod_eq_iff {ty : BitVec 4} {rm : BitVec 2} {sat na nb aa ab : Bool} {x : BitVec 3} {m : BitVec 14} :
    packMod ty rm sat na nb aa ab x = m ↔ ty = m.extractLsb' 10 4 ∧ rm = m.extractLsb' 8 2 ∧ sat = m.getLsbD 7 ∧ na = m.getLsbD 6 ∧
      nb = m.getLsbD 5 ∧ aa = m.getLsbD 4 ∧ ab = m.getLsbD 3 ∧ x = m.extractLsb' 0 3 := by
  constructor
  · rintro rfl
    obtain ⟨hsat, hna, hnb, haa, hab⟩ := packMod_bits ty rm sat na nb aa ab x
    exact ⟨(packMod_ty ..).symm, (packMod_rm ..).symm, hsat.symm, hna.symm, hnb.symm, haa.symm, hab.symm, (packMod_x ..).symm⟩
  · rintro ⟨rfl, rfl, rfl, rfl, rfl, rfl, rfl, rfl⟩
    exact packMod_fields m

theorem packMod_clear {ty : BitVec 4} {rm : BitVec 2} {sat na nb aa ab : Bool} {x : BitVec 3} {mask : Nat} :
    Clear (packMod ty rm sat na nb aa ab x) mask ↔ Clear ty (mask >>> 10) ∧ Clear rm (mask >>> 8 % 2 ^ 2) ∧
      Clear (bit1 sat) (mask >>> 7 % 2 ^ 1) ∧ Clear (bit1 na) (mask >>> 6 % 2 ^ 1) ∧ Clear (bit1 nb) (mask >>> 5 % 2 ^ 1) ∧
      Clear (bit1 aa) (mask >>> 4 % 2 ^ 1) ∧ Clear (bit1 ab) (mask >>> 3 % 2 ^ 1) ∧ Clear x (mask % 2 ^ 3) := by
  simp only [packMod]
  simp only [clear_append]
  refine and_congr ?_ (and_congr ?_ (and_congr ?_ (and_congr ?_ (and_congr ?_ (and_congr ?_ (and_congr ?_ ?_)))))) <;>
    refine clear_congr fun i hi => ?_
  all_goals
    simp only [Nat.testBit_mod_two_pow, Nat.testBit_shiftRight, hi, decide_true, Bool.true_and, -Nat.reducePow, -Nat.reduceAdd]
  all_goals grind

/-! ### V3 words -/

theorem V3.zero_ok {f : V3} {mask : BitVec 14} {u : Unit} : f.zero mask = .ok u ↔ Clear f.mod mask.toNat := by
  rw [V3.zero, opCheck_ok, beq_iff_eq, and_eq_zero_iff_clear]

theorem V3.named_ok {f : V3} {mask : BitVec 14} {u : Unit} : f.named mask = .ok u ↔ Clear f.mod mask.toNat := by
  rw [V3.named, operandCheck_ok, beq_iff_eq, and_eq_zero_iff_clear]

theorem Ty.ofCode_eq_some {c : BitVec 4} {x : Ty} : Ty.ofCode c = some x ↔ x.code = c :=
  ⟨Ty.code_ofCode, fun h => h ▸ Ty.ofCode_code x⟩

theorem Rm.ofCode_eq_some {c : BitVec 2} {x : Rm} : Rm.ofCode c = some x ↔ x.code = c :=
  ⟨Rm.code_ofCode, fun h => h ▸ Rm.ofCode_code x⟩

theorem V3.ty_ok {f : V3} {t : Ty} : f.ty = .ok t ↔ t.code = f.mod.extractLsb' 10 4 := by
  rw [V3.ty, enumField_ok, Ty.ofCode_eq_some]

theorem V3.rm_ok {f : V3} {r : Rm} : f.rm = .ok r ↔ r.code = f.mod.extractLsb' 8 2 := by
  rw [V3.rm, enumField_ok, Rm.ofCode_eq_some]

section
variable {f : V3} {i : Instr}

theorem V3.one_ok {k : Operand → Operand → Instr} :
    f.one k = .ok i ↔ ∃ d a, d.code = f.d ∧ a.code = f.a ∧ f.b = noneCode ∧ f.c = noneCode ∧ k d a = i := by
  simp only [V3.one, Dec.bind_eq_ok, opnd_ok, noneField_ok, Except.ok.injEq, exists_and_left, exists_const]

theorem V3.two_ok {k : Operand → Operand → Operand → Instr} :
    f.two k = .ok i ↔ ∃ d a b, d.code = f.d ∧ a.code = f.a ∧ b.code = f.b ∧ f.c = noneCode ∧ k d a b = i := by
  simp only [V3.two, Dec.bind_eq_ok, opnd_ok, noneField_ok, Except.ok.injEq, exists_and_left, exists_const]

theorem V3.three_ok {k : Operand → Operand → Operand → Operand → Instr} :
    f.three k = .ok i ↔ ∃ d a b c, d.code = f.d ∧ a.code = f.a ∧ b.code = f.b ∧ c.code = f.c ∧ k d a b c = i := by
  simp only [V3.three, Dec.bind_eq_ok, opnd_ok, Except.ok.injEq, exists_and_left]

end

/-! ### Operand fields -/

theorem opnd_code {x : Operand} : opnd (cd x) = .ok x := opnd_ok.2 rfl

theorem noneField_noneCode : noneField noneCode = .ok () := noneField_ok.2 rfl

/-! ### M, X, T, C and S words -/

theorem bit1_eq_one (c : BitVec 1) : bit1 (c == 1#1) = c := by
  revert c
  decide

theorem MW.sp_ok {f : MW} {n : BitVec 2} {u : Unit} : f.sp n = .ok u ↔ n = f.spsz.extractLsb' 3 2 := by
  rw [MW.sp, operandCheck_ok, beq_iff_eq, eq_comm]

theorem MW.sz_ok {f : MW} {sz : Sz} : f.sz = .ok sz ↔ sz.code = f.spsz.extractLsb' 0 3 := by
  rw [MW.sz, enumField_ok]
  exact ⟨Sz.code_ofCode, fun h => h ▸ Sz.ofCode_code sz⟩

theorem MW.mods_ok {f : MW} {m : MemMods} :
    f.mods = .ok m ↔ fld 4 m.la = f.la ∧ m.ord.code = f.ord ∧ m.sc.code = f.sc ∧ bit1 m.rmt = f.rmt := by
  simp only [MW.mods, Dec.bind_eq_ok, enumField_ok, Except.ok.injEq]
  constructor
  · rintro ⟨ord, ho, sc, hs, rfl⟩
    exact ⟨fld_toFin _, Ord.code_ofCode ho, Scope.code_ofCode hs, bit1_eq_one _⟩
  · obtain ⟨la, ord, sc, rmt⟩ := m
    rintro ⟨hla, ho, hs, hr⟩
    refine ⟨ord, ho ▸ Ord.ofCode_code ord, sc, hs ▸ Scope.ofCode_code sc, ?_⟩
    rw [toFin_eq_iff.2 hla, ← hr]
    cases rmt <;> rfl

theorem MW.plain_ok {f : MW} {la : Bool} {u : Unit} :
    f.plain la = .ok u ↔ (la = true ∨ f.la = 0#4) ∧ f.ord = 0#2 ∧ f.sc = 0#3 ∧ f.rmt = 0#1 := by
  simp only [MW.plain, operandCheck_ok, Bool.and_eq_true, Bool.or_eq_true, beq_iff_eq, and_assoc]

theorem XW.zero_ok {f : XW} {mask : BitVec 6} {u : Unit} : f.zero mask = .ok u ↔ Clear f.kind mask.toNat := by
  rw [XW.zero, opCheck_ok, beq_iff_eq, and_eq_zero_iff_clear]

theorem XW.la0_ok {f : XW} {u : Unit} : f.la0 = .ok u ↔ f.la = 0#4 := by rw [XW.la0, operandCheck_ok, beq_iff_eq]

theorem XW.bar31_ok {f : XW} {u : Unit} : f.bar31 = .ok u ↔ f.bar = 31#5 := by rw [XW.bar31, operandCheck_ok, beq_iff_eq]

theorem TW.zero_ok {f : TW} {ta tb : Bool} {mask : BitVec 12} {u : Unit} :
    f.zero ta tb mask = .ok u ↔ (ta = true ∨ f.ta = 0#4) ∧ (tb = true ∨ f.tb = 0#4) ∧ Clear f.fl mask.toNat := by
  simp only [TW.zero, opCheck_ok, Bool.and_eq_true, Bool.or_eq_true, beq_iff_eq, and_eq_zero_iff_clear, and_assoc]

theorem TW.la0_ok {f : TW} {u : Unit} : f.la0 = .ok u ↔ f.la = 0#4 := by rw [TW.la0, operandCheck_ok, beq_iff_eq]

theorem CW.zero_ok {f : CW} {kx : BitVec 5} {fl : BitVec 4} {imm : BitVec 24} {u : Unit} :
    f.zero kx fl imm = .ok u ↔ Clear f.kx kx.toNat ∧ Clear f.fl fl.toNat ∧ Clear f.imm imm.toNat := by
  simp only [CW.zero, opCheck_ok, Bool.and_eq_true, beq_iff_eq, and_eq_zero_iff_clear, and_assoc]

theorem CW.noOps_ok {f : CW} {u : Unit} : f.noOps = .ok u ↔ f.sa = noneCode ∧ f.sb = noneCode := by
  rw [CW.noOps, operandCheck_ok, Bool.and_eq_true, beq_iff_eq, beq_iff_eq]

end Sys2Proof
end

section
/-! A word that is read is the word of what was read: for each class of R91, the decoder's fields packed again. -/

namespace Sys2Proof

/-- The instruction's word, and that it has one. -/
def Instr.HasWord (i : Instr) (w : DWord) : Prop := encode i = w ∧ i.isEvent = false

/-! ### V3 words (R82, R83) -/

/-- The word with these fields. -/
def V3.word (op : Nat) (f : V3) : DWord := packV3 (BitVec.ofNat 8 op) f.h f.mod f.d f.a f.b f.c

section
variable {f : V3} {op : Nat} {i : Instr} {mod : BitVec 14}

theorem V3.word_eq {d a b c : BitVec 9} (hm : mod = f.mod) (hd : d = f.d) (ha : a = f.a) (hb : b = f.b) (hc : c = f.c) :
    packV3 (.ofNat 8 op) f.h mod d a b c = f.word op := by
  rw [hm, hd, ha, hb, hc, V3.word]

theorem V3.hasWord_one {k : Operand → Operand → Instr} (h : f.one k = .ok i)
    (hk : ∀ d a, (k d a).HasWord (packV3 (.ofNat 8 op) f.h mod (cd d) (cd a) noneCode noneCode)) (hm : mod = f.mod) :
    i.HasWord (f.word op) := by
  obtain ⟨d, a, hd, ha, hb, hc, rfl⟩ := V3.one_ok.1 h
  rw [V3.word, ← hm, ← hd, ← ha, hb, hc]
  exact hk d a

theorem V3.hasWord_two {k : Operand → Operand → Operand → Instr} (h : f.two k = .ok i)
    (hk : ∀ d a b, (k d a b).HasWord (packV3 (.ofNat 8 op) f.h mod (cd d) (cd a) (cd b) noneCode)) (hm : mod = f.mod) :
    i.HasWord (f.word op) := by
  obtain ⟨d, a, b, hd, ha, hb, hc, rfl⟩ := V3.two_ok.1 h
  rw [V3.word, ← hm, ← hd, ← ha, ← hb, hc]
  exact hk d a b

theorem V3.hasWord_three {k : Operand → Operand → Operand → Operand → Instr} (h : f.three k = .ok i)
    (hk : ∀ d a b c, (k d a b c).HasWord (packV3 (.ofNat 8 op) f.h mod (cd d) (cd a) (cd b) (cd c))) (hm : mod = f.mod) :
    i.HasWord (f.word op) := by
  obtain ⟨d, a, b, c, hd, ha, hb, hc, rfl⟩ := V3.three_ok.1 h
  rw [V3.word, ← hm, ← hd, ← ha, ← hb, ← hc]
  exact hk d a b c

end

section
variable {m : BitVec 14} {ty : Ty} {rm : Rm} (hty : ty.code = m.extractLsb' 10 4) (hrm : rm.code = m.extractLsb' 8 2)
include hty

theorem tyMod_fields (hz : Clear m 0x03ff) : tyMod ty = m :=
  packMod_eq_iff.2 ⟨hty, hz.field rfl, hz.bit rfl, hz.bit rfl, hz.bit rfl, hz.bit rfl, hz.bit rfl, hz.field rfl⟩

theorem packMod_x_fields (hz : Clear m 0x03f8) : packMod ty.code 0#2 false false false false false (m.extractLsb' 0 3) = m :=
  packMod_eq_iff.2 ⟨hty, hz.field rfl, hz.bit rfl, hz.bit rfl, hz.bit rfl, hz.bit rfl, hz.bit rfl, rfl⟩

/-- NA and NB alone, the MOD of the logic instructions (R104). -/
theorem packMod_signs_fields (hz : Clear m 0x039f) : packMod ty.code 0#2 false (m.getLsbD 6) (m.getLsbD 5) false false 0#3 = m :=
  packMod_eq_iff.2 ⟨hty, hz.field rfl, hz.bit rfl, rfl, rfl, hz.bit rfl, hz.bit rfl, hz.field rfl⟩

include hrm in
/-- RM and the sign of one source, the MOD of FRCP and its like (R116). -/
theorem packMod_one_fields (hz : Clear m 0x00af) : packMod ty.code rm.code false (m.getLsbD 6) false (m.getLsbD 4) false 0#3 = m :=
  packMod_eq_iff.2 ⟨hty, hrm, hz.bit rfl, rfl, hz.bit rfl, rfl, hz.bit rfl, hz.field rfl⟩

end

section
variable {f : V3} {ty : Ty} {rm : Rm} (hty : ty.code = f.mod.extractLsb' 10 4) (hrm : rm.code = f.mod.extractLsb' 8 2)
include hty

theorem V3.intMods_bits (hz : Clear f.mod 0x0307) : (f.intMods ty).bits = f.mod :=
  packMod_eq_iff.2 ⟨hty, hz.field rfl, rfl, rfl, rfl, rfl, rfl, hz.field rfl⟩

include hrm in
theorem V3.fltMods_bits (hz : Clear f.mod 0x0006) : (f.fltMods ty rm).bits = f.mod :=
  packMod_eq_iff.2 ⟨hty, hrm, rfl, rfl, rfl, rfl, rfl,
    flag_eq_x.2 ⟨hz.field rfl, rfl⟩⟩

theorem V3.cmpMods_bits (hz : Clear f.mod 0x0007) : packCmp (f.cmpMods ty) = f.mod :=
  append5_eq_iff.2 ⟨hty, fld_toFin _, bit1_eq_extract.2 rfl, fld_toFin _, hz.field rfl⟩

end

theorem parseV3_word {op : Nat} {f : V3} {i : Instr} (h : parseV3 op f = .ok i) : i.HasWord (f.word op) := by
  unfold parseV3 at h
  split at h <;> simp only [Dec.bind_eq_ok, V3.zero_ok, V3.named_ok, V3.ty_ok, V3.rm_ok, opCheck_ok, operandCheck_ok, enumField_ok,
    noneField_ok, predField_ok, Except.ok.injEq, exists_const, beq_iff_eq, reduceCtorEq] at h
  -- IADD, ISUB, IMUL, IADD64
  case h_1 | h_2 | h_3 | h_26 =>
    obtain ⟨_, -, hn, ty, hty, h⟩ := h
    exact V3.hasWord_two h (fun _ _ _ => ⟨rfl, rfl⟩) (V3.intMods_bits hty hn)
  -- IMULHI, IMIN, IMAX
  case h_4 | h_6 | h_7 =>
    obtain ⟨-, _, -, hn, ty, hty, h⟩ := h
    exact V3.hasWord_two h (fun _ _ _ => ⟨rfl, rfl⟩) (V3.intMods_bits hty hn)
  -- IMAD
  case h_5 =>
    obtain ⟨_, -, hn, ty, hty, h⟩ := h
    exact V3.hasWord_three h (fun _ _ _ _ => ⟨rfl, rfl⟩) (V3.intMods_bits hty hn)
  -- IABS
  case h_8 =>
    obtain ⟨hz, hn, ty, hty, h⟩ := h
    exact V3.hasWord_one h (fun _ _ => ⟨rfl, rfl⟩)
      (packMod_eq_iff.2 ⟨hty, hn.field rfl, rfl, hz.bit rfl, hz.bit rfl, hz.bit rfl, hz.bit rfl, hn.field rfl⟩)
  -- SHL, SHR, SAR
  case h_9 | h_10 | h_11 =>
    obtain ⟨hz, hn, ty, hty, h⟩ := h
    exact V3.hasWord_two h (fun _ _ _ => ⟨rfl, rfl⟩) (tyMod_fields hty (hz.or hn))
  -- AND, OR, XOR
  case h_12 | h_13 | h_14 =>
    obtain ⟨hz, ty, hty, h⟩ := h
    exact V3.hasWord_two h (fun _ _ _ => ⟨rfl, rfl⟩) (packMod_signs_fields hty hz)
  -- LUT3
  case h_15 =>
    obtain ⟨hz, h⟩ := h
    exact V3.hasWord_three h (fun _ _ _ _ => ⟨rfl, rfl⟩) (append_eq_iff.2 ⟨rfl, hz.field rfl⟩)
  -- POPC, CLZ, BREV
  case h_16 | h_17 | h_18 =>
    obtain ⟨hz, ty, hty, h⟩ := h
    exact V3.hasWord_one h (fun _ _ => ⟨rfl, rfl⟩) (tyMod_fields hty hz)
  -- BFE, XPERM, XBCAST
  case h_19 | h_53 | h_54 =>
    obtain ⟨hz, ty, hty, h⟩ := h
    exact V3.hasWord_two h (fun _ _ _ => ⟨rfl, rfl⟩) (tyMod_fields hty hz)
  -- BFI
  case h_20 =>
    obtain ⟨hz, ty, hty, rfl, h⟩ := h
    exact V3.hasWord_three h (fun _ _ _ _ => ⟨rfl, rfl⟩) (tyMod_fields hty hz)
  -- IADDC
  case h_21 =>
    obtain ⟨hz, ty, hty, rfl, h⟩ := h
    exact V3.hasWord_three h (fun _ _ _ _ => ⟨rfl, rfl⟩) (append4_eq_iff.2 ⟨hty, hz.field rfl, fld_toFin _, hz.field rfl⟩)
  -- ICMP, ICMP64, FCMP
  case h_22 | h_27 | h_35 =>
    obtain ⟨hz, -, ty, hty, h⟩ := h
    exact V3.hasWord_three h (fun _ _ _ _ => ⟨rfl, rfl⟩) (V3.cmpMods_bits hty hz)
  -- SEL
  case h_23 =>
    obtain ⟨hz, ty, hty, h⟩ := h
    exact V3.hasWord_three h (fun _ _ _ _ => ⟨rfl, rfl⟩) (tyMod_fields hty hz)
  -- MOV
  case h_24 =>
    obtain ⟨hz, h⟩ := h
    exact V3.hasWord_one h (fun _ _ => ⟨rfl, rfl⟩) (hz.all rfl)
  -- LEA
  case h_25 =>
    obtain ⟨hz, hn, ty, hty, h⟩ := h
    exact V3.hasWord_two h (fun _ _ _ => ⟨rfl, rfl⟩) ((congrArg _ (fld_toFin _)).trans (packMod_x_fields hty (hz.or hn)))
  -- MOV64, FCLASS
  case h_28 | h_36 =>
    obtain ⟨hz, ty, hty, rfl, h⟩ := h
    exact V3.hasWord_one h (fun _ _ => ⟨rfl, rfl⟩) (tyMod_fields hty hz)
  -- FADD, FSUB, FMUL
  case h_29 | h_30 | h_31 =>
    obtain ⟨hn, ty, hty, rm, hrm, h⟩ := h
    exact V3.hasWord_two h (fun _ _ _ => ⟨rfl, rfl⟩) (V3.fltMods_bits hty hrm (hn.mono rfl))
  -- FMAC, FDOT2
  case h_32 | h_43 =>
    obtain ⟨hn, ty, hty, rm, hrm, h⟩ := h
    exact V3.hasWord_three h (fun _ _ _ _ => ⟨rfl, rfl⟩) (V3.fltMods_bits hty hrm (hn.mono rfl))
  -- FMIN, FMAX
  case h_33 | h_34 =>
    obtain ⟨hz, -, ty, hty, rm, hrm, h⟩ := h
    exact V3.hasWord_two h (fun _ _ _ => ⟨rfl, rfl⟩) (V3.fltMods_bits hty hrm (hz.mono rfl))
  -- FRCP, FRSQ, FSQRT, FEXP2, FLOG2, FTANH
  case h_37 | h_38 | h_39 | h_40 | h_41 | h_42 =>
    obtain ⟨hz, hn, ty, hty, rm, hrm, rfl, h⟩ := h
    exact V3.hasWord_one h (fun _ _ => ⟨rfl, rfl⟩) (packMod_one_fields hty hrm (hz.or hn))
  -- FSCALE
  case h_44 =>
    obtain ⟨hz, ty, hty, rm, hrm, rfl, h⟩ := h
    exact V3.hasWord_two h (fun _ _ _ => ⟨rfl, rfl⟩)
      (packMod_eq_iff.2 ⟨hty, hrm, rfl, rfl, hz.bit rfl, rfl, hz.bit rfl, hz.field rfl⟩)
  -- CVT
  case h_45 =>
    obtain ⟨ty, hty, rm, hrm, tyd, hd, h⟩ := h
    exact V3.hasWord_three h (fun _ _ _ _ => ⟨rfl, rfl⟩)
      (append5_eq_iff.2 ⟨hty, hrm, bit1_eq_extract.2 rfl, Ty.code_ofCode hd, fld_toFin _⟩)
  -- CVTPK
  case h_46 =>
    obtain ⟨hz, -, ty, hty, rm, hrm, h⟩ := h
    exact V3.hasWord_three h (fun _ _ _ _ => ⟨rfl, rfl⟩)
      (append5_eq_iff.2 ⟨hty, hrm, bit1_eq_extract.2 rfl, hz.field rfl, bit1_eq_extract.2 rfl⟩)
  -- CVTX
  case h_47 =>
    obtain ⟨hz, ty, hty, rm, hrm, tyd, hd, h⟩ := h
    exact V3.hasWord_one h (fun _ _ => ⟨rfl, rfl⟩)
      (append6_eq_iff.2 ⟨hty, hrm, bit1_eq_extract.2 rfl, Ty.code_ofCode hd, hz.field rfl, bit1_eq_extract.2 rfl⟩)
  -- QDEC
  case h_48 =>
    obtain ⟨hz, ty, hty, rm, hrm, h⟩ := h
    exact V3.hasWord_two h (fun _ _ _ => ⟨rfl, rfl⟩) (append4_eq_iff.2 ⟨hty, hrm, hz.field rfl, fld_toFin _⟩)
  -- QENC
  case h_49 =>
    obtain ⟨hz, hn, ty, hty, rfl, h⟩ := h
    exact V3.hasWord_three h (fun _ _ _ _ => ⟨rfl, rfl⟩) (append3_eq_iff.2 ⟨hty, (hz.or hn).field rfl, fld_toFin _⟩)
  -- PLUT
  case h_50 =>
    obtain ⟨hz, hd, pa, ha, pb, hb, pc, hc, rfl⟩ := h
    exact ⟨V3.word_eq (append3_eq_iff.2 ⟨rfl, fld_toFin _, hz.field rfl⟩) hd.symm ha hb hc, rfl⟩
  -- PMOV, PMOV.w
  case h_51 =>
    obtain ⟨hz, hb, hc, h⟩ := h
    split at h <;> simp only [Dec.bind_eq_ok, operandCheck_ok, noneField_ok, opnd_ok, Except.ok.injEq, exists_const, beq_iff_eq] at h
    next hw =>
      obtain ⟨hd, a, ha, rfl⟩ := h
      have hx : 1#3 = f.mod.extractLsb' 0 3 := flag_eq_x.2 ⟨hz.field rfl, hw.symm⟩
      exact ⟨V3.word_eq (append3_eq_iff.2 ⟨hz.field rfl, rfl, hx⟩) hd.symm ha hb.symm hc.symm, rfl⟩
    next hw =>
      obtain ⟨hmask, ha, d, hd, rfl⟩ := h
      have hx : 0#3 = f.mod.extractLsb' 0 3 := flag_eq_x.2 ⟨hz.field rfl, (Bool.eq_false_iff.2 hw).symm⟩
      have hmod : 0#4 ++ (0#7 ++ 0#3) = f.mod := append3_eq_iff.2 ⟨hz.field rfl, hmask.symm, hx⟩
      exact ⟨V3.word_eq hmod hd ha.symm hb.symm hc.symm, rfl⟩
  -- XCHG
  case h_52 =>
    obtain ⟨hz, ty, hty, mode, hx, h⟩ := h
    exact V3.hasWord_two h (fun _ _ _ => ⟨rfl, rfl⟩) ((congrArg _ (XchgMode.code_ofCode hx)).trans (packMod_x_fields hty hz))
  -- XRED
  case h_55 =>
    obtain ⟨hz, -, ty, hty, rm, hrm, x, hx, h⟩ := h
    exact V3.hasWord_one h (fun _ _ => ⟨rfl, rfl⟩)
      (packMod_eq_iff.2 ⟨hty, hrm, rfl, hz.bit rfl, hz.bit rfl, hz.bit rfl, hz.bit rfl, fld_of_finBelow hx⟩)
  -- XSCAN
  case h_56 =>
    obtain ⟨hz, -, ty, hty, rm, hrm, x, hx, h⟩ := h
    exact V3.hasWord_two h (fun _ _ _ => ⟨rfl, rfl⟩)
      (packMod_eq_iff.2 ⟨hty, hrm, rfl, rfl, hz.bit rfl, hz.bit rfl, hz.bit rfl, fld_of_finBelow hx⟩)
  -- XBALLOT
  case h_57 =>
    obtain ⟨hz, ty, hty, rfl, x, hx, h⟩ := h
    exact V3.hasWord_one h (fun _ _ => ⟨rfl, rfl⟩) ((congrArg _ (finBelow_two.1 hx)).trans (packMod_x_fields hty hz))
  -- XMATCH
  case h_58 =>
    obtain ⟨hz, ty, hty, x, hx, h⟩ := h
    exact V3.hasWord_one h (fun _ _ => ⟨rfl, rfl⟩) ((congrArg _ (finBelow_two.1 hx)).trans (packMod_x_fields hty hz))
  -- XREAD, XWRITE
  case h_59 | h_60 =>
    obtain ⟨hz, h⟩ := h
    exact V3.hasWord_two h (fun _ _ _ => ⟨rfl, rfl⟩) (hz.all rfl)

end Sys2Proof
end

section
/-! The words of the other classes (R86, R136, R171, R184, R207) packed again from their fields, and any word that is read. -/

namespace Sys2Proof

/-! ### VL words (R85) -/

theorem parseVl_word {op : Nat} {h : Head} {dc ac : BitVec 9} {lit : Word} {i : Instr} (hp : parseVl op h dc ac lit = .ok i) :
    i.HasWord (packVl (.ofNat 8 op) h dc ac lit) := by
  unfold parseVl at hp
  split at hp <;> simp only [Dec.bind_eq_ok, opnd_ok, Except.ok.injEq, exists_eq_left', reduceCtorEq, false_and, exists_false] at hp <;>
    (obtain ⟨d, rfl, a, rfl, rfl⟩ := hp
     exact ⟨rfl, rfl⟩)

/-! ### M words (R86, R171) -/

/-- The word with these fields. -/
def MW.word (op : Nat) (f : MW) : DWord := packM (.ofNat 8 op) f.h f.la f.spsz f.ord f.sc f.rmt f.d f.base f.data f.ofs

theorem MW.word_eq {f : MW} {op : Nat} {la : BitVec 4} {spsz : BitVec 5} {ord : BitVec 2} {sc : BitVec 3} {rmt : BitVec 1}
    {d base data ofs : BitVec 9} (hla : la = f.la) (hspsz : spsz = f.spsz) (hord : ord = f.ord) (hsc : sc = f.sc) (hrmt : rmt = f.rmt)
    (hd : d = f.d) (hbase : base = f.base) (hdata : data = f.data) (hofs : ofs = f.ofs) :
    packM (.ofNat 8 op) f.h la spsz ord sc rmt d base data ofs = f.word op := by
  rw [hla, hspsz, hord, hsc, hrmt, hd, hbase, hdata, hofs, MW.word]

theorem parseM_word {op : Nat} {f : MW} {i : Instr} (h : parseM op f = .ok i) : i.HasWord (f.word op) := by
  unfold parseM at h
  split at h <;> simp only [Dec.bind_eq_ok, MW.sp_ok, MW.sz_ok, MW.mods_ok, MW.plain_ok, opCheck_ok, operandCheck_ok, enumField_ok,
    noneField_ok, opnd_ok, Except.ok.injEq, exists_const, beq_iff_eq, Bool.false_eq_true, true_or, false_or, true_and, reduceCtorEq] at h
  -- LD
  case h_1 =>
    obtain ⟨hsp, sz, hsz, m, ⟨hla, hord, hsc, hrmt⟩, hdata, d, hd, base, hbase, rfl⟩ := h
    exact ⟨MW.word_eq hla (append_eq_iff.2 ⟨hsp, hsz⟩) hord hsc hrmt hd hbase hdata.symm rfl, rfl⟩
  -- ST
  case h_2 =>
    obtain ⟨hsp, sz, hsz, m, ⟨hla, hord, hsc, hrmt⟩, hd, base, hbase, data, hdata, rfl⟩ := h
    exact ⟨MW.word_eq hla (append_eq_iff.2 ⟨hsp, hsz⟩) hord hsc hrmt hd.symm hbase hdata rfl, rfl⟩
  -- LDK
  case h_3 =>
    obtain ⟨hsp, sz, hsz, ⟨hord, hsc, hrmt⟩, hdata, d, hd, base, hbase, rfl⟩ := h
    exact ⟨MW.word_eq (fld_toFin _) (append_eq_iff.2 ⟨hsp, hsz⟩) hord.symm hsc.symm hrmt.symm hd hbase hdata.symm rfl, rfl⟩
  -- STK
  case h_4 =>
    obtain ⟨hsp, sz, hsz, ⟨hla, hord, hsc, hrmt⟩, hd, base, hbase, data, hdata, rfl⟩ := h
    exact ⟨MW.word_eq hla.symm (append_eq_iff.2 ⟨hsp, hsz⟩) hord.symm hsc.symm hrmt.symm hd.symm hbase hdata rfl, rfl⟩
  -- ATOM
  case h_5 =>
    obtain ⟨aop, haop, m, ⟨hla, hord, hsc, hrmt⟩, d, hd, base, hbase, data, hdata, rfl⟩ := h
    exact ⟨MW.word_eq hla (Aop.code_ofCode haop) hord hsc hrmt hd hbase hdata rfl, rfl⟩
  -- RED
  case h_6 =>
    obtain ⟨aop, haop, m, ⟨hla, hord, hsc, hrmt⟩, hd, base, hbase, data, hdata, rfl⟩ := h
    exact ⟨MW.word_eq hla (Aop.code_ofCode haop) hord hsc hrmt hd.symm hbase hdata rfl, rfl⟩
  -- CAS
  case h_7 =>
    obtain ⟨hsp, sz, hsz, m, ⟨hla, hord, hsc, hrmt⟩, d, hd, base, hbase, data, hdata, cmp, hcmp, rfl⟩ := h
    exact ⟨MW.word_eq hla (append_eq_iff.2 ⟨hsp, hsz⟩) hord hsc hrmt hd hbase hdata hcmp, rfl⟩
  -- FENCE
  case h_8 =>
    obtain ⟨hofs, hrmt, hsp, kind, hkind, m, ⟨-, hord, hsc, -⟩, hla, hd, hbase, hdata, rfl⟩ := h
    exact ⟨MW.word_eq hla.symm (append_eq_iff.2 ⟨hsp, FenceKind.code_ofCode hkind⟩) hord hsc hrmt.symm hd.symm hbase.symm hdata.symm
      hofs.symm, rfl⟩
  -- PROBE
  case h_9 =>
    obtain ⟨hsp, hz, m, ⟨hla, hord, hsc, hrmt⟩, hdata, d, hd, base, hbase, rfl⟩ := h
    have hspsz : 0#2 ++ 0#3 = f.spsz := append_eq_iff.2 ⟨hsp, hz.symm⟩
    exact ⟨MW.word_eq hla hspsz hord hsc hrmt hd hbase hdata.symm rfl, rfl⟩

/-! ### X words (R86, R184, R192, R201, R224, R229, R230) -/

/-- The word with these fields. -/
def XW.word (op : Nat) (f : XW) : DWord := packX (.ofNat 8 op) f.h f.la f.bar f.kind f.d f.sr f.aux f.aux2

theorem XW.word_eq {f : XW} {op : Nat} {la : BitVec 4} {bar : BitVec 5} {kind : BitVec 6} {d sr aux aux2 : BitVec 9} (hla : la = f.la)
    (hbar : bar = f.bar) (hkind : kind = f.kind) (hd : d = f.d) (hsr : sr = f.sr) (haux : aux = f.aux) (haux2 : aux2 = f.aux2) :
    packX (.ofNat 8 op) f.h la bar kind d sr aux aux2 = f.word op := by
  rw [hla, hbar, hkind, hd, hsr, haux, haux2, XW.word]

theorem parseX_word {op : Nat} {f : XW} {i : Instr} (h : parseX op f = .ok i) : i.HasWord (f.word op) := by
  unfold parseX at h
  split at h <;> simp only [Dec.bind_eq_ok, XW.zero_ok, XW.la0_ok, XW.bar31_ok, barField_ok, enumField_ok, noneField_ok, opnd_ok,
    Except.ok.injEq, exists_const, reduceCtorEq] at h
  -- CPY
  case h_1 =>
    obtain ⟨hla, bar, hbar, sz, hsz, dir, hdir, haux, haux2, d, hd, sr, hsr, rfl⟩ := h
    exact ⟨XW.word_eq hla.symm hbar (append3_eq_iff.2 ⟨fld_of_finBelow hsz, Dir.code_ofCode hdir, bit1_eq_extract.2 rfl⟩) hd hsr haux.symm haux2.symm, rfl⟩
  -- CPYMC
  case h_2 =>
    obtain ⟨hz, hla, bar, hbar, sz, hsz, haux2, d, hd, sr, hsr, g, hg, rfl⟩ := h
    exact ⟨XW.word_eq hla.symm hbar (append3_eq_iff.2 ⟨fld_of_finBelow hsz, hz.field rfl, bit1_eq_extract.2 rfl⟩) hd hsr hg haux2.symm, rfl⟩
  -- NMADD, NMMAX
  case h_3 | h_4 =>
    obtain ⟨hla, hbar, ty, hty, len, hlen, haux, haux2, y, hy, sr, hsr, rfl⟩ := h
    exact ⟨XW.word_eq hla.symm hbar.symm (append3_eq_iff.2 ⟨bit1_eq_extract.2 rfl, NmTy.code_ofCode hty, fld_of_finBelow hlen⟩) hy hsr haux.symm haux2.symm, rfl⟩
  -- NMAXPY
  case h_5 =>
    obtain ⟨hz, hla, hbar, y, hy, x, hx, a, ha, n, hn, rfl⟩ := h
    exact ⟨XW.word_eq hla.symm hbar.symm (hz.all rfl) hy hx ha hn, rfl⟩
  -- NMSTEP
  case h_6 =>
    obtain ⟨hz, hla, hbar, haux, haux2, w, hw, q, hq, rfl⟩ := h
    exact ⟨XW.word_eq hla.symm hbar.symm (append3_eq_iff.2 ⟨bit1_eq_extract.2 rfl, bit1_eq_extract.2 rfl, hz.field rfl⟩) hw hq haux.symm haux2.symm, rfl⟩
  -- NMFENCE
  case h_7 =>
    obtain ⟨hz, hla, bar, hbar, hd, hsr, haux, haux2, rfl⟩ := h
    exact ⟨XW.word_eq hla.symm hbar (hz.all rfl) hd.symm hsr.symm haux.symm haux2.symm, rfl⟩
  -- RSTRIPE
  case h_8 =>
    obtain ⟨hz, hla, bar, hbar, hd, base, hbase, len, hlen, nb, hnb, rfl⟩ := h
    exact ⟨XW.word_eq hla.symm (fld_of_finBelow hbar) (append3_eq_iff.2 ⟨bit1_eq_extract.2 rfl, fld_toFin _, hz.field rfl⟩) hd.symm hbase hlen hnb, rfl⟩
  -- QPOST
  case h_9 =>
    obtain ⟨hz, hla, bar, hbar, r, hr, c, hc, w, hw, m, hm, rfl⟩ := h
    exact ⟨XW.word_eq hla.symm hbar (append_eq_iff.2 ⟨bit1_eq_extract.2 rfl, hz.field rfl⟩) hr hc hw hm, rfl⟩
  -- QSYNC
  case h_10 =>
    obtain ⟨hz, bar, hbar, haux2, d, hd, g, hg, m, hm, rfl⟩ := h
    exact ⟨XW.word_eq (fld_toFin _) hbar (hz.all rfl) hd hg hm haux2.symm, rfl⟩
  -- AMSG
  case h_11 =>
    obtain ⟨hla, bar, hbar, n, hn, haux2, t, ht, sr, hsr, hd, hhd, rfl⟩ := h
    exact ⟨XW.word_eq hla.symm hbar (append_eq_iff.2 ⟨bit1_eq_extract.2 rfl, fld_of_finBelow hn⟩) ht hsr hhd haux2.symm, rfl⟩

/-! ### T words (R86, R207) -/

/-- The word with these fields. -/
def TW.word (op : Nat) (f : TW) : DWord := packT (.ofNat 8 op) f.h f.la f.ta f.tb f.fl f.ab f.x f.y

theorem TW.word_eq {f : TW} {op : Nat} {la ta tb : BitVec 4} {fl : BitVec 12} {ab x y : BitVec 9} (hla : la = f.la) (hta : ta = f.ta)
    (htb : tb = f.tb) (hfl : fl = f.fl) (hab : ab = f.ab) (hx : x = f.x) (hy : y = f.y) :
    packT (.ofNat 8 op) f.h la ta tb fl ab x y = f.word op := by
  rw [hla, hta, htb, hfl, hab, hx, hy, TW.word]

theorem parseT_word {op : Nat} {f : TW} {i : Instr} (h : parseT op f = .ok i) : i.HasWord (f.word op) := by
  unfold parseT at h
  split at h <;> simp only [Dec.bind_eq_ok, TW.zero_ok, TW.la0_ok, barField_ok, enumField_ok, noneField_ok, opnd_ok, Except.ok.injEq,
    exists_const, Bool.false_eq_true, true_or, false_or, true_and, reduceCtorEq] at h
  -- TCFG
  case h_1 =>
    obtain ⟨⟨htb, hz⟩, hla, fmt, hfmt, sc, hsc, r, hr, c, hc, rfl⟩ := h
    exact ⟨TW.word_eq hla.symm (fld_toFin _) htb.symm (append_eq_iff.2 ⟨Fmt.code_ofCode hfmt, hz.field rfl⟩) hsc hr hc, rfl⟩
  -- TREL, TZERO
  case h_2 | h_5 =>
    obtain ⟨⟨htb, hz⟩, hla, hab, hx, hy, rfl⟩ := h
    exact ⟨TW.word_eq hla.symm (fld_toFin _) htb.symm (hz.all rfl) hab.symm hx.symm hy.symm, rfl⟩
  -- TLD
  case h_3 =>
    obtain ⟨⟨htb, hz⟩, hla, hab, bar, hbar, part, hpart, ch, hch, a, ha, o, ho, rfl⟩ := h
    exact ⟨TW.word_eq hla.symm (fld_toFin _) htb.symm (append4_eq_iff.2 ⟨hbar, TilePart.code_ofCode hpart, fld_of_finBelow hch,
      hz.field rfl⟩) hab.symm ha ho, rfl⟩
  -- TST
  case h_4 =>
    obtain ⟨⟨htb, hz⟩, hla, hab, bar, hbar, ch, hch, a, ha, o, ho, rfl⟩ := h
    exact ⟨TW.word_eq hla.symm (fld_toFin _) htb.symm (append4_eq_iff.2 ⟨hbar, hz.field rfl, fld_of_finBelow hch, hz.field rfl⟩) hab.symm ha ho, rfl⟩
  -- MMA
  case h_6 =>
    obtain ⟨hz, hla, n, hn, x, hx, y, hy, rfl⟩ := h
    exact ⟨TW.word_eq hla.symm (fld_toFin _) (fld_toFin _) (append3_eq_iff.2 ⟨bit1_eq_extract.2 rfl, bit1_eq_extract.2 rfl, hz.field rfl⟩) hn hx hy, rfl⟩
  -- ACCLD
  case h_7 =>
    obtain ⟨⟨hta, htb, -⟩, d, hd, w, hw, n, hn, r, hr, c, hc, rfl⟩ := h
    exact ⟨TW.word_eq (fld_toFin _) hta.symm htb.symm (append_eq_iff.2 ⟨hd, fld_of_finBelow hw⟩) hn hr hc, rfl⟩
  -- ACCST
  case h_8 =>
    obtain ⟨⟨hta, htb, -⟩, hla, v, hv, w, hw, n, hn, r, hr, c, hc, rfl⟩ := h
    exact ⟨TW.word_eq hla.symm hta.symm htb.symm (append_eq_iff.2 ⟨hv, fld_of_finBelow hw⟩) hn hr hc, rfl⟩
  -- ACCZ
  case h_9 =>
    obtain ⟨⟨hta, htb, hz⟩, hla, hy, n, hn, cnt, hcnt, rfl⟩ := h
    exact ⟨TW.word_eq hla.symm hta.symm htb.symm (hz.all rfl) hn hcnt hy.symm, rfl⟩
  -- ACCCVT
  case h_10 =>
    obtain ⟨⟨hta, htb, -⟩, hla, fmt, hfmt, rm, hrm, bar, hbar, n, hn, a, ha, sc, hsc, rfl⟩ := h
    exact ⟨TW.word_eq hla.symm hta.symm htb.symm (append4_eq_iff.2 ⟨Fmt.code_ofCode hfmt, Rm.code_ofCode hrm, bit1_eq_extract.2 rfl, hbar⟩) hn ha hsc, rfl⟩

/-! ### C and S words (R86, R136) -/

/-- The word with these fields. -/
def CW.word (op : Nat) (f : CW) : DWord := packC (.ofNat 8 op) f.h f.kx f.fl f.sa f.sb f.imm

theorem CW.word_eq {f : CW} {op : Nat} {kx : BitVec 5} {fl : BitVec 4} {sa sb : BitVec 9} {imm : BitVec 24} (hkx : kx = f.kx)
    (hfl : fl = f.fl) (hsa : sa = f.sa) (hsb : sb = f.sb) (himm : imm = f.imm) :
    packC (.ofNat 8 op) f.h kx fl sa sb imm = f.word op := by
  rw [hkx, hfl, hsa, hsb, himm, CW.word]

theorem parseC_word {op : Nat} {f : CW} {i : Instr} (h : parseC op f = .ok i) : i.HasWord (f.word op) := by
  unfold parseC at h
  split at h <;> simp only [Dec.bind_eq_ok, CW.zero_ok, CW.noOps_ok, enumField_ok, noneField_ok, opnd_ok, Except.ok.injEq,
    exists_const, reduceCtorEq] at h
  -- BRA, TRAP, BKPT
  case h_1 | h_19 | h_20 =>
    obtain ⟨⟨hkx, hfl, -⟩, ⟨hsa, hsb⟩, rfl⟩ := h
    exact ⟨CW.word_eq (hkx.all rfl) (hfl.all rfl) hsa.symm hsb.symm rfl, rfl⟩
  -- BRX, RET, SYNCM, REPLAY, PREEMPT
  case h_2 | h_4 | h_10 | h_27 | h_30 =>
    obtain ⟨⟨hkx, hfl, himm⟩, hsb, a, ha, rfl⟩ := h
    exact ⟨CW.word_eq (hkx.all rfl) (hfl.all rfl) ha hsb.symm (himm.all rfl), rfl⟩
  -- CALL
  case h_3 =>
    obtain ⟨⟨hkx, hfl, -⟩, hsa, b, hb, rfl⟩ := h
    exact ⟨CW.word_eq (hkx.all rfl) (hfl.all rfl) hsa.symm hb rfl, rfl⟩
  -- JOIN
  case h_5 =>
    obtain ⟨⟨-, hfl, -⟩, ⟨hsa, hsb⟩, rfl⟩ := h
    exact ⟨CW.word_eq (fld_toFin _) (hfl.all rfl) hsa.symm hsb.symm rfl, rfl⟩
  -- WAITJ
  case h_6 =>
    obtain ⟨⟨-, hfl, himm⟩, ⟨hsa, hsb⟩, rfl⟩ := h
    exact ⟨CW.word_eq (fld_toFin _) (hfl.all rfl) hsa.symm hsb.symm (himm.all rfl), rfl⟩
  -- EXIT, YIELD, NOP, CDSTOP
  case h_7 | h_8 | h_21 | h_26 =>
    obtain ⟨⟨hkx, hfl, himm⟩, ⟨hsa, hsb⟩, rfl⟩ := h
    exact ⟨CW.word_eq (hkx.all rfl) (hfl.all rfl) hsa.symm hsb.symm (himm.all rfl), rfl⟩
  -- ELECT
  case h_9 =>
    obtain ⟨⟨hkx, hfl, himm⟩, hsa, b, hb, rfl⟩ := h
    exact ⟨CW.word_eq (hkx.all rfl) (append_eq_iff.2 ⟨hfl.field rfl, fld_toFin _⟩) hsa.symm hb (himm.all rfl), rfl⟩
  -- BINIT, BARV, BEXP
  case h_11 | h_12 | h_14 =>
    obtain ⟨⟨-, hfl, himm⟩, hsb, k, hk, a, ha, rfl⟩ := h
    exact ⟨CW.word_eq (fld_of_finBelow hk) (hfl.all rfl) ha hsb.symm (himm.all rfl), rfl⟩
  -- BWAIT
  case h_13 =>
    obtain ⟨⟨-, hfl, himm⟩, hsb, k, hk, a, ha, rfl⟩ := h
    exact ⟨CW.word_eq (fld_of_finBelow hk) (append_eq_iff.2 ⟨hfl.field rfl, fld_toFin _⟩) ha hsb.symm (himm.all rfl), rfl⟩
  -- BINV
  case h_15 =>
    obtain ⟨⟨-, hfl, himm⟩, ⟨hsa, hsb⟩, k, hk, rfl⟩ := h
    exact ⟨CW.word_eq (fld_of_finBelow hk) (append_eq_iff.2 ⟨hfl.field rfl, bit1_eq_extract.2 rfl⟩) hsa.symm hsb.symm
      (himm.all rfl), rfl⟩
  -- GSIZE
  case h_16 =>
    obtain ⟨⟨hkx, hfl, himm⟩, ⟨hsa, hsb⟩, rfl⟩ := h
    exact ⟨CW.word_eq (hkx.all rfl) (append_eq_iff.2 ⟨hfl.field rfl, fld_toFin _⟩) hsa.symm hsb.symm (himm.all rfl), rfl⟩
  -- SPAWN
  case h_17 =>
    obtain ⟨⟨hkx, hfl, -⟩, a, ha, b, hb, rfl⟩ := h
    exact ⟨CW.word_eq (append_eq_iff.2 ⟨hkx.field rfl, fld_toFin _⟩) (hfl.all rfl) ha hb rfl, rfl⟩
  -- LAUNCH, CDSTART, TRACE
  case h_18 | h_25 | h_31 =>
    obtain ⟨⟨hkx, hfl, himm⟩, a, ha, b, hb, rfl⟩ := h
    exact ⟨CW.word_eq (hkx.all rfl) (hfl.all rfl) ha hb (himm.all rfl), rfl⟩
  -- TRET
  case h_22 =>
    obtain ⟨⟨hkx, hfl, himm⟩, ⟨hsa, hsb⟩, m, hm, rfl⟩ := h
    exact ⟨CW.word_eq (hkx.all rfl) (append_eq_iff.2 ⟨hfl.field rfl, TretMode.code_ofCode hm⟩) hsa.symm hsb.symm (himm.all rfl), rfl⟩
  -- CSRRD
  case h_23 =>
    obtain ⟨⟨hkx, hfl, himm⟩, hsa, b, hb, rfl⟩ := h
    exact ⟨CW.word_eq (hkx.all rfl) (hfl.all rfl) hsa.symm hb (append_eq_iff.2 ⟨himm.field rfl, rfl⟩), rfl⟩
  -- CSRWR
  case h_24 =>
    obtain ⟨⟨hkx, hfl, himm⟩, hsb, a, ha, rfl⟩ := h
    exact ⟨CW.word_eq (hkx.all rfl) (hfl.all rfl) ha hsb.symm (append_eq_iff.2 ⟨himm.field rfl, rfl⟩), rfl⟩
  -- CANCEL
  case h_28 =>
    obtain ⟨⟨hkx, hfl, himm⟩, hsb, a, ha, rfl⟩ := h
    exact ⟨CW.word_eq (hkx.all rfl) (append_eq_iff.2 ⟨hfl.field rfl, bit1_eq_extract.2 rfl⟩) ha hsb.symm (himm.all rfl), rfl⟩
  -- TLBINV
  case h_29 =>
    obtain ⟨⟨hkx, hfl, himm⟩, k, hk, a, ha, b, hb, rfl⟩ := h
    exact ⟨CW.word_eq (hkx.all rfl) (append_eq_iff.2 ⟨hfl.field rfl, TlbKind.code_ofCode hk⟩) ha hb (himm.all rfl), rfl⟩
  -- MCGSET
  case h_32 =>
    obtain ⟨⟨hkx, hfl, himm⟩, a, ha, b, hb, rfl⟩ := h
    exact ⟨CW.word_eq (hkx.all rfl) (append_eq_iff.2 ⟨hfl.field rfl, bit1_eq_extract.2 rfl⟩) ha hb (himm.all rfl), rfl⟩

end Sys2Proof
end

section
/-! The word of a well-formed instruction is read back: the vector class (R82, R83, R85). -/

namespace Sys2Proof

/-! ### The class of an instruction -/

/-- The class of an instruction's word (R91); an event has none. -/
def Instr.cls : Instr → Option OpClass
  | .ld .. | .st .. | .ldk .. | .stk .. | .atom .. | .red .. | .cas .. | .fence .. | .probe .. => some .mem
  | .cpy .. | .cpymc .. | .nmadd .. | .nmmax .. | .nmaxpy .. | .nmstep .. | .nmfence .. | .rstripe .. | .qpost .. | .qsync ..
  | .amsg .. => some .xfer
  | .tcfg .. | .trel .. | .tld .. | .tst .. | .tzero .. | .mma .. | .accld .. | .accst .. | .accz .. | .acccvt .. => some .tile
  | .bra .. | .brx .. | .call .. | .ret .. | .join .. | .waitj .. | .exit .. | .yield .. | .elect .. | .syncm .. | .binit .. | .barv ..
  | .bwait .. | .bexp .. | .binv .. | .gsize .. | .spawn .. | .launch .. | .trap .. | .bkpt .. | .nop .. | .tret .. => some .ctrl
  | .csrrd .. | .csrwr .. | .cdstart .. | .cdstop .. | .replay .. | .cancel .. | .tlbinv .. | .preempt .. | .trace .. | .mcgset .. => some .sys
  | i => if i.isEvent then none else some .vec

theorem Instr.cls_ne_none {i : Instr} (h : i.isEvent = false) : i.cls ≠ none := by
  unfold Instr.cls
  split <;> simp [h]

/-! ### The MOD of the integer, floating-point and compare instructions read back -/

section
variable {h : Head} {d a b c : BitVec 9}

theorem tyMod_ty (ty : Ty) : ty.code = (tyMod ty).extractLsb' 10 4 := (packMod_ty ..).symm

theorem tyMod_clear (ty : Ty) {mask : Nat} (hm : mask < 0x400) : Clear (tyMod ty) mask := by
  have hty : mask >>> 10 = 0 := by rw [Nat.shiftRight_eq_div_pow, Nat.div_eq_of_lt hm]
  exact packMod_clear.2 (by simp [hty, bit1_false])

namespace IntMods
variable (m : IntMods)

theorem ok_iff {ty sat signs : Bool} : m.ok ty sat signs = true ↔
    ty = true ∧ (m.sat = true → sat = true) ∧ ((m.na || m.nb || m.aa || m.ab) = true → signs = true) := by
  cases hsat : m.sat <;> cases hsigns : (m.na || m.nb || m.aa || m.ab) <;> simp [IntMods.ok, hsat, hsigns, and_assoc]

theorem bits_ty : m.ty.code = m.bits.extractLsb' 10 4 := (packMod_ty ..).symm

theorem bits_named : Clear m.bits 0x0307 :=
  packMod_clear.2 (by simp)

theorem bits_unsaturated (hs : m.sat = false) : Clear m.bits 0x0080 :=
  packMod_clear.2 (by simp [hs])

theorem intMods_bits : V3.intMods ⟨h, m.bits, d, a, b, c⟩ m.ty = m := by
  obtain ⟨hsat, hna, hnb, haa, hab⟩ := packMod_bits m.ty.code 0#2 m.sat m.na m.nb m.aa m.ab 0#3
  rw [V3.intMods]
  simp only [IntMods.bits, hsat, hna, hnb, haa, hab]

/-- Signs stand only with a signed type (R97, R101). -/
theorem bits_signsOk (hs : (m.na || m.nb || m.aa || m.ab) = true → m.ty.isSigned = true) : V3.signsOk ⟨h, m.bits, d, a, b, c⟩ = .ok () := by
  rw [V3.signsOk, opCheck_ok]
  dsimp only
  rw [← m.bits_ty, Ty.ofCode_code]
  cases hsigns : (m.na || m.nb || m.aa || m.ab) with
  | true =>
    have := hs hsigns
    cases hty : m.ty <;> simp_all [Ty.isSigned]
  | false =>
    simp only [Bool.or_eq_false_iff] at hsigns
    obtain ⟨⟨⟨hna, hnb⟩, haa⟩, hab⟩ := hsigns
    have hz : Clear m.bits 0x0078 := packMod_clear.2 (by simp [hna, hnb, haa, hab])
    rw [← hz.field (s := 3) (k := 4) rfl]
    rfl

end IntMods

namespace FltMods
variable (m : FltMods)

theorem bits_ty : m.ty.code = m.bits.extractLsb' 10 4 := (packMod_ty ..).symm
theorem bits_rm : m.rm.code = m.bits.extractLsb' 8 2 := (packMod_rm ..).symm

theorem bits_x : Clear m.bits 0x0006 :=
  packMod_clear.2 (by simp [-Nat.reduceAdd, clear_append])

theorem bits_noNc (hnc : m.nc = false) : Clear m.bits 0x0007 :=
  packMod_clear.2 (by simp [-Nat.reduceAdd, clear_append, hnc])

theorem bits_unsaturated (hs : m.sat = false) : Clear m.bits 0x0080 :=
  packMod_clear.2 (by simp [hs])

theorem bits_rn (hr : m.rm = .rn) : Clear m.bits 0x0300 :=
  packMod_clear.2 (by simp [hr, Rm.code])

theorem fltMods_bits : V3.fltMods ⟨h, m.bits, d, a, b, c⟩ m.ty m.rm = m := by
  obtain ⟨hsat, hna, hnb, haa, hab⟩ := packMod_bits m.ty.code m.rm.code m.sat m.na m.nb m.aa m.ab (0#2 ++ bit1 m.nc)
  have hnc : m.nc = m.bits.getLsbD 0 := (flag_eq_x.1 (packMod_x ..).symm).2
  rw [V3.fltMods]
  dsimp only
  rw [← hnc]
  simp only [FltMods.bits, hsat, hna, hnb, haa, hab]

end FltMods

namespace CmpMods
variable (m : CmpMods)

theorem bits_ty : m.ty.code = (packCmp m).extractLsb' 10 4 := (append5_eq_iff.1 rfl).1

theorem bits_x : Clear (packCmp m) 0x0007 := by
  simp only [packCmp]
  simp only [clear_append]
  simp

theorem cmpMods_bits : V3.cmpMods ⟨h, packCmp m, d, a, b, c⟩ m.ty = m := by
  obtain ⟨-, hcmp, hbor, hpd, -⟩ := append5_eq_iff.1 (rfl : packCmp m = packCmp m)
  rw [V3.cmpMods, toFin_eq_iff.2 hcmp, toFin_eq_iff.2 hpd, ← bit1_eq_extract.1 hbor]

/-- BOP stands only with a third source (R107). -/
theorem bor_getLsbD : (packCmp m).getLsbD 6 = m.bor := by
  obtain ⟨-, -, hbor, -, -⟩ := append5_eq_iff.1 (rfl : packCmp m = packCmp m)
  exact (bit1_eq_extract.1 hbor).symm

end CmpMods
end

/-! ### V3 words -/

theorem parse_vec {i : Instr} {op : Nat} (f : V3) (henc : encode i = f.word op) (hop : decide (op < 0x60) = true) (hp : parseV3 op f = .ok i) :
    parse (encode i) = .ok i := by
  have hlt : op < 0x60 := of_decide_eq_true hop
  have hop' : (BitVec.ofNat 8 op).toNat = op := Nat.mod_eq_of_lt (by omega)
  rw [henc, V3.word, parse_packV3 _ _ _ _ _ _ _ (by rw [hop', classOf, if_pos hlt]), hop', hp]

section
variable {h : Head} {mod : BitVec 14} {d a b c : Operand} {i : Instr}

theorem V3.one_codes {k : Operand → Operand → Instr} (hk : k d a = i) : V3.one ⟨h, mod, cd d, cd a, noneCode, noneCode⟩ k = .ok i :=
  V3.one_ok.2 ⟨d, a, rfl, rfl, rfl, rfl, hk⟩

theorem V3.two_codes {k : Operand → Operand → Operand → Instr} (hk : k d a b = i) :
    V3.two ⟨h, mod, cd d, cd a, cd b, noneCode⟩ k = .ok i := V3.two_ok.2 ⟨d, a, b, rfl, rfl, rfl, rfl, hk⟩

theorem V3.three_codes {k : Operand → Operand → Operand → Operand → Instr} (hk : k d a b c = i) :
    V3.three ⟨h, mod, cd d, cd a, cd b, cd c⟩ k = .ok i := V3.three_ok.2 ⟨d, a, b, c, rfl, rfl, rfl, rfl, hk⟩

end

/-- A literal word is read by its opcode alone (R85). -/
theorem parse_vl {i : Instr} {op : Nat} {h : Head} {d a : Operand} {lit : Word} {k : Head → Operand → Operand → Word → Instr}
    (henc : encode i = packVl (.ofNat 8 op) h (cd d) (cd a) lit)
    (hp : parseVl op h (cd d) (cd a) lit = (opnd (cd d) >>= fun x => opnd (cd a) >>= fun y => .ok (k h x y lit))) (hk : k h d a lit = i)
    (hop : decide (op < 0x60) = true) : parse (encode i) = .ok i := by
  have hlt : op < 0x60 := of_decide_eq_true hop
  have hop' : (BitVec.ofNat 8 op).toNat = op := Nat.mod_eq_of_lt (by omega)
  rw [henc, parse_packVl _ _ _ _ _ (by rw [hop', classOf, if_pos hlt]), hop', hp]
  exact Dec.step opnd_code (Dec.step opnd_code (congrArg _ hk))

theorem Operand.isSrc_code {x : Operand} (hx : x.isSrc = true) : (x.code == noneCode) = false := by
  rw [beq_eq_false_iff_ne]
  intro he
  have := (Operand.ofCode_code x).symm.trans ((congrArg Operand.ofCode he).trans (Operand.ofCode_code .none))
  rw [Option.some.inj this] at hx
  cases hx

theorem IntMods.ok_unsaturated {m : IntMods} {ty signs : Bool} (h : m.ok ty false signs = true) : m.sat = false :=
  Bool.eq_false_iff.2 fun e => Bool.false_ne_true ((m.ok_iff.1 h).2.1 e)

/-- The fields of a MOD with one sign, of FRCP and its like and of FSCALE (R116, R118). -/
theorem packMod_oneSign {ty : Ty} {rm : Rm} {sat na aa : Bool} {m : BitVec 14}
    (hm : packMod ty.code rm.code sat na false aa false 0#3 = m) :
    ty.code = m.extractLsb' 10 4 ∧ rm.code = m.extractLsb' 8 2 ∧ m.getLsbD 7 = sat ∧ m.getLsbD 6 = na ∧ m.getLsbD 4 = aa ∧ Clear m 0x002f := by
  obtain ⟨hty, hrm, hsat, hna, -, haa, -, -⟩ := packMod_eq_iff.1 hm
  exact ⟨hty, hrm, hsat.symm, hna.symm, haa.symm, hm ▸ packMod_clear.2 (by simp [bit1_false])⟩

/-! ### Conversions (R119 to R123) -/

theorem parse_encode_cvt (h : Head) (m : CvtMods) (d a sc mg : Operand) : parse (encode (.cvt h m d a sc mg)) = .ok (.cvt h m d a sc mg) := by
  obtain ⟨hty, hrm, hsat, htyd, hei⟩ := append5_eq_iff.1 (rfl : m.tys.code ++ (m.rm.code ++ (bit1 m.sat ++ (m.tyd.code ++ fld 3 m.ei))) = _)
  exact parse_vec ⟨h, _, cd d, cd a, cd sc, cd mg⟩ rfl rfl (Dec.step (V3.ty_ok.2 hty) (Dec.step (V3.rm_ok.2 hrm)
    (Dec.step (enumField_eq_of_code Ty.ofCode_code htyd) (V3.three_codes (by rw [← bit1_eq_extract.1 hsat, V3.x, toFin_eq_iff.2 hei])))))

/-- H stands only with a type of four elements (R121). -/
theorem parse_encode_cvtpk {h : Head} {tyd : Ty} {rm : Rm} {sat hi : Bool} {d a b mg : Operand} (hw : (Instr.cvtpk h tyd rm sat hi d a b mg).wf = true) :
    parse (encode (.cvtpk h tyd rm sat hi d a b mg)) = .ok (.cvtpk h tyd rm sat hi d a b mg) := by
  obtain ⟨hty, hrm, hsat, hz, hhi⟩ := append5_eq_iff.1 (rfl : tyd.code ++ (rm.code ++ (bit1 sat ++ (0#6 ++ bit1 hi))) = _)
  have hcount : (if tyd.count == 2 then !hi && mg.isNone else mg.isSrc) = true := (Bool.and_eq_true_iff.1 hw).2
  refine parse_vec ⟨h, _, cd d, cd a, cd b, cd mg⟩ rfl rfl (Dec.check (V3.zero_ok.2 (by simp only [clear_append]; simp)) (Dec.check (opCheck_ok.2 ?_)
    (Dec.step (V3.ty_ok.2 hty) (Dec.step (V3.rm_ok.2 hrm) (V3.three_codes (by rw [← bit1_eq_extract.1 hsat, ← bit1_eq_extract.1 hhi]))))))
  dsimp only
  rw [← hty, Ty.ofCode_code, ← bit1_eq_extract.1 hhi]
  cases hi with
  | false => rfl
  | true =>
    cases hn : tyd.count == 2 with
    | false => exact congrArg (!·) hn
    | true => rw [hn, if_pos rfl] at hcount; cases hcount

theorem parse_encode_cvtx (h : Head) (tys : Ty) (rm : Rm) (sat : Bool) (tyd : Ty) (hi : Bool) (d a : Operand) :
    parse (encode (.cvtx h tys rm sat tyd hi d a)) = .ok (.cvtx h tys rm sat tyd hi d a) := by
  obtain ⟨hty, hrm, hsat, htyd, -, hhi⟩ := append6_eq_iff.1 (rfl : tys.code ++ (rm.code ++ (bit1 sat ++ (tyd.code ++ (0#2 ++ bit1 hi)))) = _)
  exact parse_vec ⟨h, _, cd d, cd a, noneCode, noneCode⟩ rfl rfl (Dec.check (V3.zero_ok.2 (by simp only [clear_append]; simp))
    (Dec.step (V3.ty_ok.2 hty) (Dec.step (V3.rm_ok.2 hrm) (Dec.step (enumField_eq_of_code Ty.ofCode_code htyd)
      (V3.one_codes (by rw [← bit1_eq_extract.1 hsat, ← bit1_eq_extract.1 hhi]))))))

theorem parse_encode_qdec (h : Head) (tyd : Ty) (rm : Rm) (j : Fin 8) (d a sc : Operand) :
    parse (encode (.qdec h tyd rm j d a sc)) = .ok (.qdec h tyd rm j d a sc) := by
  obtain ⟨hty, hrm, -, hj⟩ := append4_eq_iff.1 (rfl : tyd.code ++ (rm.code ++ (0#5 ++ fld 3 j)) = _)
  exact parse_vec ⟨h, _, cd d, cd a, cd sc, noneCode⟩ rfl rfl (Dec.check (V3.zero_ok.2 (by simp only [clear_append]; simp))
    (Dec.step (V3.ty_ok.2 hty) (Dec.step (V3.rm_ok.2 hrm) (V3.two_codes (by rw [V3.x, toFin_eq_iff.2 hj])))))

theorem parse_encode_qenc (h : Head) (j : Fin 8) (d a sg mg : Operand) : parse (encode (.qenc h j d a sg mg)) = .ok (.qenc h j d a sg mg) := by
  obtain ⟨hty, -, hj⟩ := append3_eq_iff.1 (rfl : Ty.code .f32 ++ (0#7 ++ fld 3 j) = _)
  exact parse_vec ⟨h, _, cd d, cd a, cd sg, cd mg⟩ rfl rfl (Dec.check (V3.zero_ok.2 (by simp only [clear_append]; simp))
    (Dec.check (V3.named_ok.2 (by simp only [clear_append]; simp)) (Dec.step (V3.ty_ok.2 hty) (Dec.check rfl
      (V3.three_codes (by rw [V3.x, toFin_eq_iff.2 hj]))))))

/-! ### Predicates (R124, R125) -/

theorem parse_encode_plut (h : Head) (lut : Byte) (pd pa pb pc : Fin 8) : parse (encode (.plut h lut pd pa pb pc)) = .ok (.plut h lut pd pa pb pc) := by
  obtain ⟨hlut, hpd, -⟩ := append3_eq_iff.1 (rfl : lut ++ (fld 3 pd ++ 0#3) = _)
  exact parse_vec ⟨h, _, noneCode, predCode pa, predCode pb, predCode pc⟩ rfl rfl (Dec.check (V3.zero_ok.2 (by simp only [clear_append]; simp))
    (Dec.check noneField_noneCode (Dec.step (predField_ok.2 rfl) (Dec.step (predField_ok.2 rfl) (Dec.step (predField_ok.2 rfl)
      (by rw [← hlut, toFin_eq_iff.2 hpd]))))))

theorem parse_encode_pmov (h : Head) (d : Operand) : parse (encode (.pmov h d)) = .ok (.pmov h d) := by
  refine parse_vec ⟨h, 0#14, cd d, noneCode, noneCode, noneCode⟩ rfl rfl (Dec.check (V3.zero_ok.2 (zero_clear _)) (Dec.check noneField_noneCode
    (Dec.check noneField_noneCode ?_)))
  dsimp only
  rw [if_neg (by decide)]
  exact Dec.check rfl (Dec.check noneField_noneCode (Dec.step opnd_code rfl))

theorem parse_encode_pmovW (h : Head) (mask : BitVec 7) (a : Operand) : parse (encode (.pmovW h mask a)) = .ok (.pmovW h mask a) := by
  obtain ⟨-, hmask, hx⟩ := append3_eq_iff.1 (rfl : 0#4 ++ (mask ++ 1#3) = _)
  have hw : true = (0#4 ++ (mask ++ 1#3)).getLsbD 0 := ((flag_eq_x (b := true)).1 hx).2
  have hz : Clear (0#4 ++ (mask ++ 1#3)) 0x3c06 := by
    simp only [clear_append]
    simpa using (and_eq_zero_iff_clear 1#3 6#3).1 rfl
  refine parse_vec ⟨h, _, noneCode, cd a, noneCode, noneCode⟩ rfl rfl (Dec.check (V3.zero_ok.2 hz) (Dec.check noneField_noneCode
    (Dec.check noneField_noneCode ?_)))
  dsimp only
  rw [if_pos hw.symm]
  exact Dec.check noneField_noneCode (Dec.step opnd_code (by rw [← hmask]))

/-! ### Cross-lane reductions and the flags of X (R130 to R133) -/

/-- SAT stands only with an addition (R130). -/
theorem RedMods.ok_sat {m : RedMods} (h : m.ok = true) : (!(m.sat && fld 3 m.op != 0#3)) = true := by
  simp only [RedMods.ok, Bool.and_eq_true, Bool.or_eq_true, Bool.not_eq_true', beq_iff_eq] at h
  obtain ⟨-, hs | ho⟩ := h
  · rw [hs]; rfl
  · rw [ho]; cases m.sat <;> rfl

theorem parse_encode_xred {h : Head} {m : RedMods} {d a : Operand} (hw : (Instr.xred h m d a).wf = true) :
    parse (encode (.xred h m d a)) = .ok (.xred h m d a) := by
  simp only [Instr.wf, Bool.and_eq_true, Bool.not_eq_true'] at hw
  obtain ⟨⟨⟨⟨-, hm⟩, hexc⟩, -⟩, -⟩ := hw
  obtain ⟨hty, hrm, hsat, -, -, -, -, hop⟩ := packMod_eq_iff.1 (rfl : m.bits = _)
  refine parse_vec ⟨h, m.bits, cd d, cd a, noneCode, noneCode⟩ rfl rfl (Dec.check (V3.zero_ok.2 (packMod_clear.2 (by simp [hexc, bit1_false])))
    (Dec.check (opCheck_ok.2 ?_) (Dec.step (V3.ty_ok.2 hty) (Dec.step (V3.rm_ok.2 hrm) (Dec.step (finBelow_of_fld hop rfl)
      (V3.one_codes (by rw [← hsat, ← hexc])))))))
  rw [V3.x, ← hsat, ← hop]
  exact RedMods.ok_sat hm

theorem parse_encode_xscan {h : Head} {m : RedMods} {d a f : Operand} (hw : (Instr.xscan h m d a f).wf = true) :
    parse (encode (.xscan h m d a f)) = .ok (.xscan h m d a f) := by
  simp only [Instr.wf, Bool.and_eq_true] at hw
  obtain ⟨⟨⟨⟨-, hm⟩, -⟩, -⟩, -⟩ := hw
  obtain ⟨hty, hrm, hsat, hexc, -, -, -, hop⟩ := packMod_eq_iff.1 (rfl : m.bits = _)
  refine parse_vec ⟨h, m.bits, cd d, cd a, cd f, noneCode⟩ rfl rfl (Dec.check (V3.zero_ok.2 (packMod_clear.2 (by simp [bit1_false])))
    (Dec.check (opCheck_ok.2 ?_) (Dec.step (V3.ty_ok.2 hty) (Dec.step (V3.rm_ok.2 hrm) (Dec.step (finBelow_of_fld hop rfl)
      (V3.two_codes (by rw [← hsat, ← hexc])))))))
  rw [V3.x, ← hsat, ← hop]
  exact RedMods.ok_sat hm

theorem finBelow_flag {c : BitVec 3} {b : Bool} (h : 0#2 ++ bit1 b = c) : finBelow 2 c = .ok (if b then 1 else 0) := by
  rw [finBelow_two, ← h]
  cases b <;> rfl

theorem parse_encode_xballot (h : Head) (count : Bool) (d a : Operand) : parse (encode (.xballot h count d a)) = .ok (.xballot h count d a) := by
  obtain ⟨hty, -, -, -, -, -, -, hx⟩ :=
    packMod_eq_iff.1 (rfl : packMod (Ty.code .i32) 0#2 false false false false false (0#2 ++ bit1 count) = _)
  exact parse_vec ⟨h, _, cd d, cd a, noneCode, noneCode⟩ rfl rfl (Dec.check (V3.zero_ok.2 (packMod_clear.2 (by simp [bit1_false])))
    (Dec.step (V3.ty_ok.2 hty) (Dec.check rfl (Dec.step (finBelow_flag hx) (V3.one_codes (by cases count <;> rfl))))))

theorem parse_encode_xmatch (h : Head) (ty : Ty) (low : Bool) (d a : Operand) : parse (encode (.xmatch h ty low d a)) = .ok (.xmatch h ty low d a) := by
  obtain ⟨hty, -, -, -, -, -, -, hx⟩ := packMod_eq_iff.1 (rfl : packMod ty.code 0#2 false false false false false (0#2 ++ bit1 low) = _)
  exact parse_vec ⟨h, _, cd d, cd a, noneCode, noneCode⟩ rfl rfl (Dec.check (V3.zero_ok.2 (packMod_clear.2 (by simp [bit1_false])))
    (Dec.step (V3.ty_ok.2 hty) (Dec.step (finBelow_flag hx) (V3.one_codes (by cases low <;> rfl)))))

theorem parse_encode_xchg (h : Head) (ty : Ty) (mode : XchgMode) (d a m : Operand) :
    parse (encode (.xchg h ty mode d a m)) = .ok (.xchg h ty mode d a m) := by
  obtain ⟨hty, -, -, -, -, -, -, hx⟩ := packMod_eq_iff.1 (rfl : packMod ty.code 0#2 false false false false false mode.code = _)
  exact parse_vec ⟨h, _, cd d, cd a, cd m, noneCode⟩ rfl rfl (Dec.check (V3.zero_ok.2 (packMod_clear.2 (by simp [bit1_false])))
    (Dec.step (V3.ty_ok.2 hty) (Dec.step (enumField_eq_of_code XchgMode.ofCode_code hx) (V3.two_codes rfl))))

theorem parse_encode_vec {i : Instr} (hw : i.wf = true) (hc : i.cls = some .vec) : parse (encode i) = .ok i := by
  cases i with
  | iadd h m d a b | isub h m d a b | imul h m d a b =>
    obtain ⟨-, -, hs⟩ := m.ok_iff.1 (Bool.and_eq_true_iff.1 hw).2
    exact parse_vec ⟨h, m.bits, cd d, cd a, cd b, noneCode⟩ rfl rfl (Dec.check (m.bits_signsOk hs) (Dec.check (V3.named_ok.2 m.bits_named)
      (Dec.step (V3.ty_ok.2 m.bits_ty) (V3.two_codes (by rw [m.intMods_bits])))))
  | iadd64 h m d a b =>
    simp only [Instr.wf, Bool.and_eq_true] at hw
    obtain ⟨⟨⟨⟨-, hm⟩, -⟩, -⟩, -⟩ := hw
    obtain ⟨-, -, hs⟩ := m.ok_iff.1 hm
    exact parse_vec ⟨h, m.bits, cd d, cd a, cd b, noneCode⟩ rfl rfl (Dec.check (m.bits_signsOk hs) (Dec.check (V3.named_ok.2 m.bits_named)
      (Dec.step (V3.ty_ok.2 m.bits_ty) (V3.two_codes (by rw [m.intMods_bits])))))
  | imad h m d a b c =>
    obtain ⟨-, -, hs⟩ := m.ok_iff.1 (Bool.and_eq_true_iff.1 hw).2
    exact parse_vec ⟨h, m.bits, cd d, cd a, cd b, cd c⟩ rfl rfl (Dec.check (m.bits_signsOk hs) (Dec.check (V3.named_ok.2 m.bits_named)
      (Dec.step (V3.ty_ok.2 m.bits_ty) (V3.three_codes (by rw [m.intMods_bits])))))
  | imulhi h m d a b =>
    have hm := (Bool.and_eq_true_iff.1 hw).2
    have hs : (m.na || m.nb || m.aa || m.ab) = true → m.ty.isSigned = true := fun e => by rw [beq_iff_eq.1 ((m.ok_iff.1 hm).2.2 e)]; rfl
    exact parse_vec ⟨h, m.bits, cd d, cd a, cd b, noneCode⟩ rfl rfl (Dec.check (V3.zero_ok.2 (m.bits_unsaturated (IntMods.ok_unsaturated hm)))
      (Dec.check (m.bits_signsOk hs) (Dec.check (V3.named_ok.2 m.bits_named)
        (Dec.step (V3.ty_ok.2 m.bits_ty) (V3.two_codes (by rw [m.intMods_bits]))))))
  | imin h m d a b | imax h m d a b =>
    have hm := (Bool.and_eq_true_iff.1 hw).2
    exact parse_vec ⟨h, m.bits, cd d, cd a, cd b, noneCode⟩ rfl rfl (Dec.check (V3.zero_ok.2 (m.bits_unsaturated (IntMods.ok_unsaturated hm)))
      (Dec.check (m.bits_signsOk (m.ok_iff.1 hm).2.2) (Dec.check (V3.named_ok.2 m.bits_named)
        (Dec.step (V3.ty_ok.2 m.bits_ty) (V3.two_codes (by rw [m.intMods_bits]))))))
  | iabs h ty sat d a =>
    obtain ⟨hty, -, hsat, -⟩ := packMod_eq_iff.1 (rfl : packMod ty.code 0#2 sat false false false false 0#3 = _)
    exact parse_vec ⟨h, packMod ty.code 0#2 sat false false false false 0#3, cd d, cd a, noneCode, noneCode⟩ rfl rfl
      (Dec.check (V3.zero_ok.2 (packMod_clear.2 (by simp [bit1_false]))) (Dec.check (V3.named_ok.2 (packMod_clear.2 (by simp)))
        (Dec.step (V3.ty_ok.2 hty) (V3.one_codes (by rw [← hsat])))))
  | shl h ty d a n | shr h ty d a n | sar h ty d a n =>
    exact parse_vec ⟨h, tyMod ty, cd d, cd a, cd n, noneCode⟩ rfl rfl (Dec.check (V3.zero_ok.2 (tyMod_clear ty (by decide)))
      (Dec.check (V3.named_ok.2 (tyMod_clear ty (by decide))) (Dec.step (V3.ty_ok.2 (tyMod_ty ty)) (V3.two_codes rfl))))
  | and h ty na nb d a b | or h ty na nb d a b | xor h ty na nb d a b =>
    obtain ⟨hty, -, -, hna, hnb, -⟩ := packMod_eq_iff.1 (rfl : packMod ty.code 0#2 false na nb false false 0#3 = _)
    exact parse_vec ⟨h, packMod ty.code 0#2 false na nb false false 0#3, cd d, cd a, cd b, noneCode⟩ rfl rfl
      (Dec.check (V3.zero_ok.2 (packMod_clear.2 (by simp [bit1_false]))) (Dec.step (V3.ty_ok.2 hty) (V3.two_codes (by rw [← hna, ← hnb]))))
  | lut3 h lut d a b c =>
    obtain ⟨hlut, -⟩ := append_eq_iff.1 (rfl : lut ++ 0#6 = _)
    exact parse_vec ⟨h, lut ++ 0#6, cd d, cd a, cd b, cd c⟩ rfl rfl
      (Dec.check (V3.zero_ok.2 ((clear_append ..).2 (by simp))) (V3.three_codes (by rw [← hlut])))
  | popc h ty d a | clz h ty d a | brev h ty d a =>
    exact parse_vec ⟨h, tyMod ty, cd d, cd a, noneCode, noneCode⟩ rfl rfl (Dec.check (V3.zero_ok.2 (tyMod_clear ty (by decide)))
      (Dec.step (V3.ty_ok.2 (tyMod_ty ty)) (V3.one_codes rfl)))
  | bfe h ty d a n | xperm h ty d a n | xbcast h ty d a n =>
    exact parse_vec ⟨h, tyMod ty, cd d, cd a, cd n, noneCode⟩ rfl rfl (Dec.check (V3.zero_ok.2 (tyMod_clear ty (by decide)))
      (Dec.step (V3.ty_ok.2 (tyMod_ty ty)) (V3.two_codes rfl)))
  | bfi h d a b f =>
    exact parse_vec ⟨h, tyMod .i32, cd d, cd a, cd b, cd f⟩ rfl rfl (Dec.check (V3.zero_ok.2 (tyMod_clear _ (by decide)))
      (Dec.step (V3.ty_ok.2 (tyMod_ty .i32)) (Dec.check rfl (V3.three_codes rfl))))
  | iaddc h pd d a b c =>
    obtain ⟨hty, -, hpd, -⟩ := append4_eq_iff.1 (rfl : Ty.code .n32 ++ (0#4 ++ (fld 3 pd ++ 0#3)) = _)
    exact parse_vec ⟨h, Ty.code .n32 ++ (0#4 ++ (fld 3 pd ++ 0#3)), cd d, cd a, cd b, cd c⟩ rfl rfl
      (Dec.check (V3.zero_ok.2 (by simp only [clear_append]; simp)) (Dec.step (V3.ty_ok.2 hty) (Dec.check rfl
        (V3.three_codes (by rw [toFin_eq_iff.2 hpd])))))
  | icmp h m d a b c | icmp64 h m d a b c | fcmp h m d a b c =>
    simp only [Instr.wf, wfCmp, Bool.and_eq_true] at hw
    obtain ⟨⟨⟨⟨-, hbor⟩, -⟩, -⟩, -⟩ := hw
    have hbop : (!((packCmp m).getLsbD 6 && cd c == noneCode)) = true := by
      rw [m.bor_getLsbD]
      cases hb : m.bor with
      | false => rfl
      | true => rw [Operand.isSrc_code (by rwa [hb] at hbor)]; rfl
    exact parse_vec ⟨h, packCmp m, cd d, cd a, cd b, cd c⟩ rfl rfl (Dec.check (V3.zero_ok.2 m.bits_x) (Dec.check (opCheck_ok.2 hbop)
      (Dec.step (V3.ty_ok.2 m.bits_ty) (V3.three_codes (by rw [m.cmpMods_bits])))))
  | sel h ty d a b c =>
    exact parse_vec ⟨h, tyMod ty, cd d, cd a, cd b, cd c⟩ rfl rfl (Dec.check (V3.zero_ok.2 (tyMod_clear ty (by decide)))
      (Dec.step (V3.ty_ok.2 (tyMod_ty ty)) (V3.three_codes rfl)))
  | mov h d a =>
    exact parse_vec ⟨h, 0#14, cd d, cd a, noneCode, noneCode⟩ rfl rfl (Dec.check (V3.zero_ok.2 (zero_clear _)) (V3.one_codes rfl))
  | xread h d a q | xwrite h d a q =>
    exact parse_vec ⟨h, 0#14, cd d, cd a, cd q, noneCode⟩ rfl rfl (Dec.check (V3.zero_ok.2 (zero_clear _)) (V3.two_codes rfl))
  | lea h ty sh d a b =>
    obtain ⟨hty, -, -, -, -, -, -, hx⟩ := packMod_eq_iff.1 (rfl : packMod ty.code 0#2 false false false false false (fld 3 sh) = _)
    exact parse_vec ⟨h, packMod ty.code 0#2 false false false false false (fld 3 sh), cd d, cd a, cd b, noneCode⟩ rfl rfl
      (Dec.check (V3.zero_ok.2 (packMod_clear.2 (by simp [bit1_false]))) (Dec.check (V3.named_ok.2 (packMod_clear.2 (by simp)))
        (Dec.step (V3.ty_ok.2 hty) (V3.two_codes (by rw [V3.x, toFin_eq_iff.2 hx])))))
  | mov64 h d a | fclass h d a =>
    exact parse_vec ⟨h, tyMod _, cd d, cd a, noneCode, noneCode⟩ rfl rfl (Dec.check (V3.zero_ok.2 (tyMod_clear _ (by decide)))
      (Dec.step (V3.ty_ok.2 (tyMod_ty _)) (Dec.check rfl (V3.one_codes rfl))))
  | fadd h m d a b | fsub h m d a b | fmul h m d a b =>
    have hnc : m.nc = false := Bool.eq_false_of_not_eq_true' (Bool.and_eq_true_iff.1 hw).2
    exact parse_vec ⟨h, m.bits, cd d, cd a, cd b, noneCode⟩ rfl rfl (Dec.check (V3.named_ok.2 (m.bits_noNc hnc))
      (Dec.step (V3.ty_ok.2 m.bits_ty) (Dec.step (V3.rm_ok.2 m.bits_rm) (V3.two_codes (by rw [m.fltMods_bits])))))
  | fmac h m d a b c =>
    exact parse_vec ⟨h, m.bits, cd d, cd a, cd b, cd c⟩ rfl rfl (Dec.check (V3.named_ok.2 m.bits_x)
      (Dec.step (V3.ty_ok.2 m.bits_ty) (Dec.step (V3.rm_ok.2 m.bits_rm) (V3.three_codes (by rw [m.fltMods_bits])))))
  | fdot2 h m d a b c =>
    have hnc : m.nc = false := Bool.eq_false_of_not_eq_true' (Bool.and_eq_true_iff.1 hw).2
    exact parse_vec ⟨h, m.bits, cd d, cd a, cd b, cd c⟩ rfl rfl (Dec.check (V3.named_ok.2 (m.bits_noNc hnc))
      (Dec.step (V3.ty_ok.2 m.bits_ty) (Dec.step (V3.rm_ok.2 m.bits_rm) (V3.three_codes (by rw [m.fltMods_bits])))))
  | fmin h m d a b | fmax h m d a b =>
    simp only [Instr.wf, Bool.and_eq_true, Bool.not_eq_true', beq_iff_eq] at hw
    obtain ⟨⟨⟨-, hnc⟩, hrn⟩, hsat⟩ := hw
    exact parse_vec ⟨h, m.bits, cd d, cd a, cd b, noneCode⟩ rfl rfl (Dec.check (V3.zero_ok.2 ((m.bits_unsaturated hsat).or (m.bits_noNc hnc)))
      (Dec.check (V3.named_ok.2 (m.bits_rn hrn))
        (Dec.step (V3.ty_ok.2 m.bits_ty) (Dec.step (V3.rm_ok.2 m.bits_rm) (V3.two_codes (by rw [m.fltMods_bits]))))))
  | frcp h rm na aa d a | frsq h rm na aa d a | fsqrt h rm na aa d a | fexp2 h rm na aa d a | flog2 h rm na aa d a | ftanh h rm na aa d a =>
    obtain ⟨hty, hrm, -, hna, haa, hz⟩ := packMod_oneSign (rfl : packMod (Ty.code .f32) rm.code false na false aa false 0#3 = _)
    exact parse_vec ⟨h, packMod (Ty.code .f32) rm.code false na false aa false 0#3, cd d, cd a, noneCode, noneCode⟩ rfl rfl
      (Dec.check (V3.zero_ok.2 (packMod_clear.2 (by simp [bit1_false]))) (Dec.check (V3.named_ok.2 (hz.mono rfl))
        (Dec.step (V3.ty_ok.2 hty) (Dec.step (V3.rm_ok.2 hrm) (Dec.check rfl (V3.one_codes (by rw [hna, haa])))))))
  | fscale h rm sat na aa d a n =>
    obtain ⟨hty, hrm, hsat, hna, haa, hz⟩ := packMod_oneSign (rfl : packMod (Ty.code .f32) rm.code sat na false aa false 0#3 = _)
    exact parse_vec ⟨h, packMod (Ty.code .f32) rm.code sat na false aa false 0#3, cd d, cd a, cd n, noneCode⟩ rfl rfl
      (Dec.check (V3.zero_ok.2 hz) (Dec.step (V3.ty_ok.2 hty) (Dec.step (V3.rm_ok.2 hrm) (Dec.check rfl
        (V3.two_codes (by rw [hsat, hna, haa]))))))
  | cvt h m d a sc mg => exact parse_encode_cvt h m d a sc mg
  | cvtpk => exact parse_encode_cvtpk hw
  | cvtx => exact parse_encode_cvtx ..
  | qdec => exact parse_encode_qdec ..
  | qenc => exact parse_encode_qenc ..
  | plut => exact parse_encode_plut ..
  | pmov => exact parse_encode_pmov ..
  | pmovW => exact parse_encode_pmovW ..
  | xred => exact parse_encode_xred hw
  | xscan => exact parse_encode_xscan hw
  | xballot => exact parse_encode_xballot ..
  | xmatch => exact parse_encode_xmatch ..
  | xchg => exact parse_encode_xchg ..
  | iaddVl h d a lit | isubVl h d a lit | imulVl h d a lit | imulhiVl h d a lit | iminVl h d a lit | imaxVl h d a lit | shlVl h d a lit
  | shrVl h d a lit | sarVl h d a lit | andVl h d a lit | orVl h d a lit | xorVl h d a lit | bfeVl h d a lit | leaVl h d a lit
  | iadd64Vl h d a lit | faddVl h d a lit | fsubVl h d a lit | fmulVl h d a lit | fminVl h d a lit | fmaxVl h d a lit
  | fscaleVl h d a lit | qdecVl h d a lit | xchgVl h d a lit | xpermVl h d a lit | xbcastVl h d a lit | xscanVl h d a lit
  | xreadVl h d a lit | xwriteVl h d a lit => exact parse_vl rfl rfl rfl rfl
  | _ => cases hc

end Sys2Proof
end

section
/-! The word of a well-formed instruction is read back: the other classes (R86, R136, R171, R184, R207), and O21. -/

namespace Sys2Proof

/-! ### M words (R86, R171) -/

theorem parse_mem {i : Instr} {op : Nat} (f : MW) (henc : encode i = f.word op)
    (hop : (BitVec.ofNat 8 op).toNat = op) (hcls : classOf op = some .mem) (hp : parseM op f = .ok i) : parse (encode i) = .ok i := by
  rw [henc, MW.word, parse_packM _ _ _ _ _ _ _ _ _ _ _ (by rw [hop, hcls]), hop, hp]

theorem MW.mods_codes (h : Head) (m : MemMods) (spsz : BitVec 5) (d base data ofs : BitVec 9) :
    MW.mods ⟨h, fld 4 m.la, spsz, m.ord.code, m.sc.code, bit1 m.rmt, d, base, data, ofs⟩ = .ok m :=
  MW.mods_ok.2 ⟨rfl, rfl, rfl, rfl⟩

theorem parse_encode_mem {i : Instr} (hc : i.cls = some .mem) : parse (encode i) = .ok i := by
  cases i with
  | ld h m sz d base ofs =>
    obtain ⟨hsp, hsz⟩ := append_eq_iff.1 (rfl : 0#2 ++ sz.code = _)
    exact parse_mem ⟨h, fld 4 m.la, _, m.ord.code, m.sc.code, bit1 m.rmt, cd d, cd base, noneCode, ofs⟩ rfl rfl rfl
      (Dec.check (MW.sp_ok.2 hsp) (Dec.step (MW.sz_ok.2 hsz) (Dec.step (MW.mods_codes ..) (Dec.check noneField_noneCode
        (Dec.step opnd_code (Dec.step opnd_code rfl))))))
  | st h m sz base data ofs =>
    obtain ⟨hsp, hsz⟩ := append_eq_iff.1 (rfl : 0#2 ++ sz.code = _)
    exact parse_mem ⟨h, fld 4 m.la, _, m.ord.code, m.sc.code, bit1 m.rmt, noneCode, cd base, cd data, ofs⟩ rfl rfl rfl
      (Dec.check (MW.sp_ok.2 hsp) (Dec.step (MW.sz_ok.2 hsz) (Dec.step (MW.mods_codes ..) (Dec.check noneField_noneCode
        (Dec.step opnd_code (Dec.step opnd_code rfl))))))
  | ldk h la sz d base ofs =>
    obtain ⟨hsp, hsz⟩ := append_eq_iff.1 (rfl : 1#2 ++ sz.code = _)
    exact parse_mem ⟨h, fld 4 la, _, 0#2, 0#3, 0#1, cd d, cd base, noneCode, ofs⟩ rfl rfl rfl
      (Dec.check (MW.sp_ok.2 hsp) (Dec.step (MW.sz_ok.2 hsz) (Dec.check (MW.plain_ok.2 ⟨.inl rfl, rfl, rfl, rfl⟩) (Dec.check noneField_noneCode
        (Dec.step opnd_code (Dec.step opnd_code (by rw [toFin_eq_iff.2 rfl])))))))
  | stk h sz base data ofs =>
    obtain ⟨hsp, hsz⟩ := append_eq_iff.1 (rfl : 1#2 ++ sz.code = _)
    exact parse_mem ⟨h, 0#4, _, 0#2, 0#3, 0#1, noneCode, cd base, cd data, ofs⟩ rfl rfl rfl
      (Dec.check (MW.sp_ok.2 hsp) (Dec.step (MW.sz_ok.2 hsz) (Dec.check (MW.plain_ok.2 ⟨.inr rfl, rfl, rfl, rfl⟩) (Dec.check noneField_noneCode
        (Dec.step opnd_code (Dec.step opnd_code rfl))))))
  | atom h m op d base data ofs =>
    exact parse_mem ⟨h, fld 4 m.la, op.code, m.ord.code, m.sc.code, bit1 m.rmt, cd d, cd base, cd data, ofs⟩ rfl rfl rfl
      (Dec.step (enumField_eq_of_code Aop.ofCode_code rfl) (Dec.step (MW.mods_codes ..)
        (Dec.step opnd_code (Dec.step opnd_code (Dec.step opnd_code rfl)))))
  | red h m op base data ofs =>
    exact parse_mem ⟨h, fld 4 m.la, op.code, m.ord.code, m.sc.code, bit1 m.rmt, noneCode, cd base, cd data, ofs⟩ rfl rfl rfl
      (Dec.step (enumField_eq_of_code Aop.ofCode_code rfl) (Dec.step (MW.mods_codes ..) (Dec.check noneField_noneCode
        (Dec.step opnd_code (Dec.step opnd_code rfl)))))
  | cas h m sz d base data cmp =>
    obtain ⟨hsp, hsz⟩ := append_eq_iff.1 (rfl : 0#2 ++ sz.code = _)
    exact parse_mem ⟨h, fld 4 m.la, _, m.ord.code, m.sc.code, bit1 m.rmt, cd d, cd base, cd data, cd cmp⟩ rfl rfl rfl
      (Dec.check (MW.sp_ok.2 hsp) (Dec.step (MW.sz_ok.2 hsz) (Dec.step (MW.mods_codes ..)
        (Dec.step opnd_code (Dec.step opnd_code (Dec.step opnd_code (Dec.step opnd_code rfl)))))))
  | fence h kind ord sc =>
    obtain ⟨hsp, hkind⟩ := (append_eq_iff (x := 0#2) (y := kind.code)).1 rfl
    exact parse_mem ⟨h, 0#4, _, ord.code, sc.code, 0#1, noneCode, noneCode, noneCode, 0#9⟩ rfl rfl rfl
      (Dec.check rfl (Dec.check rfl (Dec.check (MW.sp_ok.2 hsp) (Dec.step (enumField_eq_of_code FenceKind.ofCode_code hkind)
        (Dec.step (MW.mods_codes h ⟨0, ord, sc, false⟩ ..) (Dec.check rfl (Dec.check noneField_noneCode (Dec.check noneField_noneCode
          (Dec.check noneField_noneCode rfl)))))))))
  | probe h m d base ofs =>
    exact parse_mem ⟨h, fld 4 m.la, 0#5, m.ord.code, m.sc.code, bit1 m.rmt, cd d, cd base, noneCode, ofs⟩ rfl rfl rfl
      (Dec.check (MW.sp_ok.2 (by simp)) (Dec.check rfl (Dec.step (MW.mods_codes ..) (Dec.check noneField_noneCode
        (Dec.step opnd_code (Dec.step opnd_code rfl))))))
  | _ => cases hc

/-! ### X words (R86, R184, R192, R201, R224, R229, R230) -/

theorem parse_xfer {i : Instr} {op : Nat} (f : XW) (henc : encode i = f.word op)
    (hop : (BitVec.ofNat 8 op).toNat = op) (hcls : classOf op = some .xfer) (hp : parseX op f = .ok i) : parse (encode i) = .ok i := by
  rw [henc, XW.word, parse_packX _ _ _ _ _ _ _ _ _ (by rw [hop, hcls]), hop, hp]

theorem parse_encode_xfer {i : Instr} (hc : i.cls = some .xfer) : parse (encode i) = .ok i := by
  cases i with
  | cpy h sz dir rel d sr bar =>
    obtain ⟨hsz, hdir, hrel⟩ := append3_eq_iff.1 (rfl : fld 2 sz ++ (dir.code ++ bit1 rel) = _)
    exact parse_xfer ⟨h, 0#4, barCode bar, _, cd d, cd sr, noneCode, noneCode⟩ rfl rfl rfl
      (Dec.check rfl (Dec.step (barField_ok.2 rfl) (Dec.step (finBelow_of_fld hsz rfl) (Dec.step (enumField_eq_of_code Dir.ofCode_code hdir)
        (Dec.check noneField_noneCode (Dec.check noneField_noneCode (Dec.step opnd_code (Dec.step opnd_code
          (by rw [← bit1_eq_extract.1 hrel])))))))))
  | cpymc h sz rel d sr g bar =>
    obtain ⟨hsz, -, hrel⟩ := append3_eq_iff.1 (rfl : fld 2 sz ++ (0#3 ++ bit1 rel) = _)
    exact parse_xfer ⟨h, 0#4, barCode bar, _, cd d, cd sr, cd g, noneCode⟩ rfl rfl rfl
      (Dec.check (XW.zero_ok.2 (by simp only [clear_append]; simp)) (Dec.check rfl (Dec.step (barField_ok.2 rfl)
        (Dec.step (finBelow_of_fld hsz rfl) (Dec.check noneField_noneCode (Dec.step opnd_code (Dec.step opnd_code
          (Dec.step opnd_code (by rw [← bit1_eq_extract.1 hrel])))))))))
  | nmadd h ty len rel y sr | nmmax h ty len rel y sr =>
    obtain ⟨hrel, hty, hlen⟩ := append3_eq_iff.1 (rfl : bit1 rel ++ (ty.code ++ fld 3 len) = _)
    exact parse_xfer ⟨h, 0#4, 31#5, _, cd y, cd sr, noneCode, noneCode⟩ rfl rfl rfl
      (Dec.check rfl (Dec.check rfl (Dec.step (enumField_eq_of_code NmTy.ofCode_code hty) (Dec.step (finBelow_of_fld hlen rfl)
        (Dec.check noneField_noneCode (Dec.check noneField_noneCode (Dec.step opnd_code (Dec.step opnd_code
          (by rw [← bit1_eq_extract.1 hrel])))))))))
  | nmaxpy h y x a n =>
    exact parse_xfer ⟨h, 0#4, 31#5, 0#6, cd y, cd x, cd a, cd n⟩ rfl rfl rfl
      (Dec.check (XW.zero_ok.2 (zero_clear _)) (Dec.check rfl (Dec.check rfl (Dec.step opnd_code (Dec.step opnd_code
        (Dec.step opnd_code (Dec.step opnd_code rfl)))))))
  | nmstep h zg rel w q =>
    obtain ⟨hzg, hrel, -⟩ := append3_eq_iff.1 (rfl : bit1 zg ++ (bit1 rel ++ 0#4) = _)
    exact parse_xfer ⟨h, 0#4, 31#5, _, cd w, cd q, noneCode, noneCode⟩ rfl rfl rfl
      (Dec.check (XW.zero_ok.2 (by simp only [clear_append]; simp)) (Dec.check rfl (Dec.check rfl (Dec.check noneField_noneCode
        (Dec.check noneField_noneCode (Dec.step opnd_code (Dec.step opnd_code
          (by rw [← bit1_eq_extract.1 hzg, ← bit1_eq_extract.1 hrel]))))))))
  | nmfence h bar =>
    exact parse_xfer ⟨h, 0#4, barCode bar, 0#6, noneCode, noneCode, noneCode, noneCode⟩ rfl rfl rfl
      (Dec.check (XW.zero_ok.2 (zero_clear _)) (Dec.check rfl (Dec.step (barField_ok.2 rfl) (Dec.check noneField_noneCode
        (Dec.check noneField_noneCode (Dec.check noneField_noneCode (Dec.check noneField_noneCode rfl)))))))
  | rstripe h gathered g base len nb bar =>
    obtain ⟨hgathered, hg, -⟩ := append3_eq_iff.1 (rfl : bit1 gathered ++ (fld 2 g ++ 0#3) = _)
    exact parse_xfer ⟨h, 0#4, fld 5 bar, _, noneCode, cd base, cd len, cd nb⟩ rfl rfl rfl
      (Dec.check (XW.zero_ok.2 (by simp only [clear_append]; simp)) (Dec.check rfl (Dec.step (finBelow_of_fld rfl rfl) (Dec.check noneField_noneCode
        (Dec.step opnd_code (Dec.step opnd_code (Dec.step opnd_code
          (by rw [← bit1_eq_extract.1 hgathered, toFin_eq_iff.2 hg]))))))))
  | qpost h rel r c w m bar =>
    obtain ⟨hrel, -⟩ := append_eq_iff.1 (rfl : bit1 rel ++ 0#5 = _)
    exact parse_xfer ⟨h, 0#4, barCode bar, _, cd r, cd c, cd w, cd m⟩ rfl rfl rfl
      (Dec.check (XW.zero_ok.2 (by simp only [clear_append]; simp)) (Dec.check rfl (Dec.step (barField_ok.2 rfl) (Dec.step opnd_code
        (Dec.step opnd_code (Dec.step opnd_code (Dec.step opnd_code (by rw [← bit1_eq_extract.1 hrel]))))))))
  | qsync h la d g m bar =>
    exact parse_xfer ⟨h, fld 4 la, barCode bar, 0#6, cd d, cd g, cd m, noneCode⟩ rfl rfl rfl
      (Dec.check (XW.zero_ok.2 (zero_clear _)) (Dec.step (barField_ok.2 rfl) (Dec.check noneField_noneCode (Dec.step opnd_code
        (Dec.step opnd_code (Dec.step opnd_code (by rw [toFin_eq_iff.2 rfl])))))))
  | amsg h rel n t sr hd bar =>
    obtain ⟨hrel, hn⟩ := append_eq_iff.1 (rfl : bit1 rel ++ fld 5 n = _)
    exact parse_xfer ⟨h, 0#4, barCode bar, _, cd t, cd sr, cd hd, noneCode⟩ rfl rfl rfl
      (Dec.check rfl (Dec.step (barField_ok.2 rfl) (Dec.step (finBelow_of_fld hn rfl) (Dec.check noneField_noneCode (Dec.step opnd_code
        (Dec.step opnd_code (Dec.step opnd_code (by rw [← bit1_eq_extract.1 hrel]))))))))
  | _ => cases hc

/-! ### T words (R86, R207) -/

theorem parse_tile {i : Instr} {op : Nat} (f : TW) (henc : encode i = f.word op)
    (hop : (BitVec.ofNat 8 op).toNat = op) (hcls : classOf op = some .tile) (hp : parseT op f = .ok i) : parse (encode i) = .ok i := by
  rw [henc, TW.word, parse_packT _ _ _ _ _ _ _ _ _ (by rw [hop, hcls]), hop, hp]

theorem parse_encode_tile {i : Instr} (hc : i.cls = some .tile) : parse (encode i) = .ok i := by
  cases i with
  | tcfg h t fmt sc r c =>
    obtain ⟨hfmt, -⟩ := append_eq_iff.1 (rfl : fmt.code ++ 0#8 = _)
    exact parse_tile ⟨h, 0#4, fld 4 t, 0#4, _, cd sc, cd r, cd c⟩ rfl rfl rfl
      (Dec.check (TW.zero_ok.2 ⟨.inl rfl, .inr rfl, by simp only [clear_append]; simp⟩) (Dec.check rfl
        (Dec.step (enumField_eq_of_code Fmt.ofCode_code hfmt) (Dec.step opnd_code (Dec.step opnd_code (Dec.step opnd_code
          (by rw [toFin_eq_iff.2 rfl])))))))
  | trel h t | tzero h t =>
    exact parse_tile ⟨h, 0#4, fld 4 t, 0#4, 0#12, noneCode, noneCode, noneCode⟩ rfl rfl rfl
      (Dec.check (TW.zero_ok.2 ⟨.inl rfl, .inr rfl, zero_clear _⟩) (Dec.check rfl (Dec.check noneField_noneCode
        (Dec.check noneField_noneCode (Dec.check noneField_noneCode (by rw [toFin_eq_iff.2 rfl]))))))
  | tld h t bar part ch a o =>
    obtain ⟨hbar, hpart, hch, -⟩ := append4_eq_iff.1 (rfl : barCode bar ++ (part.code ++ (fld 3 ch ++ 0#2)) = _)
    exact parse_tile ⟨h, 0#4, fld 4 t, 0#4, _, noneCode, cd a, cd o⟩ rfl rfl rfl
      (Dec.check (TW.zero_ok.2 ⟨.inl rfl, .inr rfl, by simp only [clear_append]; simp⟩) (Dec.check rfl (Dec.check noneField_noneCode
        (Dec.step (barField_ok.2 hbar) (Dec.step (enumField_eq_of_code TilePart.ofCode_code hpart) (Dec.step (finBelow_of_fld hch rfl)
          (Dec.step opnd_code (Dec.step opnd_code (by rw [toFin_eq_iff.2 rfl])))))))))
  | tst h t bar ch a o =>
    obtain ⟨hbar, -, hch, -⟩ := append4_eq_iff.1 (rfl : barCode bar ++ (0#2 ++ (fld 3 ch ++ 0#2)) = _)
    exact parse_tile ⟨h, 0#4, fld 4 t, 0#4, _, noneCode, cd a, cd o⟩ rfl rfl rfl
      (Dec.check (TW.zero_ok.2 ⟨.inl rfl, .inr rfl, by simp only [clear_append]; simp⟩) (Dec.check rfl (Dec.check noneField_noneCode
        (Dec.step (barField_ok.2 hbar) (Dec.step (finBelow_of_fld hch rfl)
          (Dec.step opnd_code (Dec.step opnd_code (by rw [toFin_eq_iff.2 rfl]))))))))
  | mma h ta tb tra trb n x y =>
    obtain ⟨htra, htrb, -⟩ := append3_eq_iff.1 (rfl : bit1 tra ++ (bit1 trb ++ 0#10) = _)
    exact parse_tile ⟨h, 0#4, fld 4 ta, fld 4 tb, _, cd n, cd x, cd y⟩ rfl rfl rfl
      (Dec.check (TW.zero_ok.2 ⟨.inl rfl, .inl rfl, by simp only [clear_append]; simp⟩) (Dec.check rfl (Dec.step opnd_code
        (Dec.step opnd_code (Dec.step opnd_code
          (by rw [← bit1_eq_extract.1 htra, ← bit1_eq_extract.1 htrb, toFin_eq_iff.2 (rfl : fld 4 ta = _), toFin_eq_iff.2 (rfl : fld 4 tb = _)]))))))
  | accld h la w d n r c =>
    obtain ⟨hd, hwid⟩ := append_eq_iff.1 (rfl : cd d ++ fld 3 w = _)
    exact parse_tile ⟨h, fld 4 la, 0#4, 0#4, _, cd n, cd r, cd c⟩ rfl rfl rfl
      (Dec.check (TW.zero_ok.2 ⟨.inr rfl, .inr rfl, clear_zero_mask _⟩) (Dec.step (opnd_ok.2 hd) (Dec.step (finBelow_of_fld hwid rfl)
        (Dec.step opnd_code (Dec.step opnd_code (Dec.step opnd_code (by rw [toFin_eq_iff.2 rfl])))))))
  | accst h w v n r c =>
    obtain ⟨hv, hwid⟩ := append_eq_iff.1 (rfl : cd v ++ fld 3 w = _)
    exact parse_tile ⟨h, 0#4, 0#4, 0#4, _, cd n, cd r, cd c⟩ rfl rfl rfl
      (Dec.check (TW.zero_ok.2 ⟨.inr rfl, .inr rfl, clear_zero_mask _⟩) (Dec.check rfl (Dec.step (opnd_ok.2 hv)
        (Dec.step (finBelow_of_fld hwid rfl) (Dec.step opnd_code (Dec.step opnd_code (Dec.step opnd_code rfl)))))))
  | accz h n cnt =>
    exact parse_tile ⟨h, 0#4, 0#4, 0#4, 0#12, cd n, cd cnt, noneCode⟩ rfl rfl rfl
      (Dec.check (TW.zero_ok.2 ⟨.inr rfl, .inr rfl, zero_clear _⟩) (Dec.check rfl (Dec.check noneField_noneCode (Dec.step opnd_code
        (Dec.step opnd_code rfl)))))
  | acccvt h fmt rm sat bar n a sc =>
    obtain ⟨hfmt, hrm, hsat, hbar⟩ := append4_eq_iff.1 (rfl : fmt.code ++ (rm.code ++ (bit1 sat ++ barCode bar)) = _)
    exact parse_tile ⟨h, 0#4, 0#4, 0#4, _, cd n, cd a, cd sc⟩ rfl rfl rfl
      (Dec.check (TW.zero_ok.2 ⟨.inr rfl, .inr rfl, clear_zero_mask _⟩) (Dec.check rfl (Dec.step (enumField_eq_of_code Fmt.ofCode_code hfmt)
        (Dec.step (enumField_eq_of_code Rm.ofCode_code hrm) (Dec.step (barField_ok.2 hbar) (Dec.step opnd_code (Dec.step opnd_code
          (Dec.step opnd_code (by rw [← bit1_eq_extract.1 hsat])))))))))
  | _ => cases hc

/-! ### C and S words (R86, R136) -/

theorem parse_control {i : Instr} {op : Nat} (f : CW) (henc : encode i = f.word op)
    (hop : (BitVec.ofNat 8 op).toNat = op) (hcls : (classOf op == some .ctrl || classOf op == some .sys) = true)
    (hp : parseC op f = .ok i) : parse (encode i) = .ok i := by
  rw [henc, CW.word, parse_packC _ _ _ _ _ _ _ (by rw [hop]; simpa using hcls), hop, hp]

/-- The fields that a control word leaves unused (R136). -/
theorem CW.zero_zeros {h : Head} {sa sb : BitVec 9} {kx : BitVec 5} {fl : BitVec 4} {imm : BitVec 24} :
    CW.zero ⟨h, 0#5, 0#4, sa, sb, 0#24⟩ kx fl imm = .ok () := CW.zero_ok.2 ⟨zero_clear _, zero_clear _, zero_clear _⟩

theorem parse_encode_control {i : Instr} (hc : i.cls = some .ctrl ∨ i.cls = some .sys) : parse (encode i) = .ok i := by
  cases i with
  | bra h off | trap h off | bkpt h off =>
    exact parse_control ⟨h, 0#5, 0#4, noneCode, noneCode, off⟩ rfl rfl rfl
      (Dec.check (CW.zero_ok.2 ⟨zero_clear _, zero_clear _, clear_zero_mask _⟩) (Dec.check (CW.noOps_ok.2 ⟨rfl, rfl⟩) rfl))
  | brx h a | ret h a | syncm h a | replay h a | preempt h a =>
    exact parse_control ⟨h, 0#5, 0#4, cd a, noneCode, 0#24⟩ rfl rfl rfl
      (Dec.check CW.zero_zeros (Dec.check noneField_noneCode (Dec.step opnd_code rfl)))
  | call h d off =>
    exact parse_control ⟨h, 0#5, 0#4, noneCode, cd d, off⟩ rfl rfl rfl
      (Dec.check (CW.zero_ok.2 ⟨zero_clear _, zero_clear _, clear_zero_mask _⟩) (Dec.check noneField_noneCode (Dec.step opnd_code rfl)))
  | join h k off =>
    exact parse_control ⟨h, fld 5 k, 0#4, noneCode, noneCode, off⟩ rfl rfl rfl
      (Dec.check (CW.zero_ok.2 ⟨clear_zero_mask _, zero_clear _, clear_zero_mask _⟩) (Dec.check (CW.noOps_ok.2 ⟨rfl, rfl⟩)
        (by rw [toFin_eq_iff.2 rfl])))
  | waitj h k =>
    exact parse_control ⟨h, fld 5 k, 0#4, noneCode, noneCode, 0#24⟩ rfl rfl rfl
      (Dec.check (CW.zero_ok.2 ⟨clear_zero_mask _, zero_clear _, zero_clear _⟩) (Dec.check (CW.noOps_ok.2 ⟨rfl, rfl⟩)
        (by rw [toFin_eq_iff.2 rfl])))
  | exit h | yield h | nop h | cdstop h =>
    exact parse_control ⟨h, 0#5, 0#4, noneCode, noneCode, 0#24⟩ rfl rfl rfl (Dec.check CW.zero_zeros (Dec.check (CW.noOps_ok.2 ⟨rfl, rfl⟩) rfl))
  | elect h pd d =>
    obtain ⟨-, hpd⟩ := append_eq_iff.1 (rfl : 0#1 ++ fld 3 pd = _)
    exact parse_control ⟨h, 0#5, _, noneCode, cd d, 0#24⟩ rfl rfl rfl
      (Dec.check (CW.zero_ok.2 ⟨zero_clear _, by simp only [clear_append]; simp, zero_clear _⟩) (Dec.check noneField_noneCode
        (Dec.step opnd_code (by rw [toFin_eq_iff.2 hpd]))))
  | binit h b e | barv h b e | bexp h b e =>
    exact parse_control ⟨h, fld 5 b, 0#4, cd e, noneCode, 0#24⟩ rfl rfl rfl
      (Dec.check (CW.zero_ok.2 ⟨clear_zero_mask _, zero_clear _, zero_clear _⟩) (Dec.check noneField_noneCode
        (Dec.step (finBelow_of_fld rfl rfl) (Dec.step opnd_code rfl))))
  | bwait h b pd q =>
    obtain ⟨-, hpd⟩ := append_eq_iff.1 (rfl : 0#1 ++ fld 3 pd = _)
    exact parse_control ⟨h, fld 5 b, _, cd q, noneCode, 0#24⟩ rfl rfl rfl
      (Dec.check (CW.zero_ok.2 ⟨clear_zero_mask _, by simp only [clear_append]; simp, zero_clear _⟩) (Dec.check noneField_noneCode
        (Dec.step (finBelow_of_fld rfl rfl) (Dec.step opnd_code (by rw [toFin_eq_iff.2 hpd])))))
  | binv h b force =>
    obtain ⟨-, hforce⟩ := append_eq_iff.1 (rfl : 0#3 ++ bit1 force = _)
    exact parse_control ⟨h, fld 5 b, _, noneCode, noneCode, 0#24⟩ rfl rfl rfl
      (Dec.check (CW.zero_ok.2 ⟨clear_zero_mask _, by simp only [clear_append]; simp, zero_clear _⟩) (Dec.check (CW.noOps_ok.2 ⟨rfl, rfl⟩)
        (Dec.step (finBelow_of_fld rfl rfl) (by rw [← bit1_eq_extract.1 hforce]))))
  | gsize h code =>
    obtain ⟨-, hcode⟩ := (append_eq_iff (x := 0#2) (y := fld 2 code)).1 rfl
    exact parse_control ⟨h, 0#5, _, noneCode, noneCode, 0#24⟩ rfl rfl rfl
      (Dec.check (CW.zero_ok.2 ⟨zero_clear _, by simp only [clear_append]; simp, zero_clear _⟩) (Dec.check (CW.noOps_ok.2 ⟨rfl, rfl⟩)
        (by rw [toFin_eq_iff.2 hcode])))
  | spawn h role a b off =>
    obtain ⟨-, hrole⟩ := append_eq_iff.1 (rfl : 0#3 ++ fld 2 role = _)
    exact parse_control ⟨h, _, 0#4, cd a, cd b, off⟩ rfl rfl rfl
      (Dec.check (CW.zero_ok.2 ⟨by simp only [clear_append]; simp, zero_clear _, clear_zero_mask _⟩)
        (Dec.step opnd_code (Dec.step opnd_code (by rw [toFin_eq_iff.2 hrole]))))
  | launch h a b | cdstart h a b | trace h a b =>
    exact parse_control ⟨h, 0#5, 0#4, cd a, cd b, 0#24⟩ rfl rfl rfl
      (Dec.check CW.zero_zeros (Dec.step opnd_code (Dec.step opnd_code rfl)))
  | tret h mode =>
    obtain ⟨-, hmode⟩ := (append_eq_iff (x := 0#2) (y := mode.code)).1 rfl
    exact parse_control ⟨h, 0#5, _, noneCode, noneCode, 0#24⟩ rfl rfl rfl
      (Dec.check (CW.zero_ok.2 ⟨zero_clear _, by simp only [clear_append]; simp, zero_clear _⟩) (Dec.check (CW.noOps_ok.2 ⟨rfl, rfl⟩)
        (Dec.step (enumField_eq_of_code TretMode.ofCode_code hmode) rfl)))
  | csrrd h d csr =>
    obtain ⟨-, hcsr⟩ := (append_eq_iff (x := 0#12) (y := csr)).1 rfl
    exact parse_control ⟨h, 0#5, 0#4, noneCode, cd d, _⟩ rfl rfl rfl
      (Dec.check (CW.zero_ok.2 ⟨zero_clear _, zero_clear _, by simp only [clear_append]; simp⟩) (Dec.check noneField_noneCode
        (Dec.step opnd_code (by rw [← hcsr]))))
  | csrwr h a csr =>
    obtain ⟨-, hcsr⟩ := (append_eq_iff (x := 0#12) (y := csr)).1 rfl
    exact parse_control ⟨h, 0#5, 0#4, cd a, noneCode, _⟩ rfl rfl rfl
      (Dec.check (CW.zero_ok.2 ⟨zero_clear _, zero_clear _, by simp only [clear_append]; simp⟩) (Dec.check noneField_noneCode
        (Dec.step opnd_code (by rw [← hcsr]))))
  | cancel h asid a =>
    obtain ⟨-, hasid⟩ := append_eq_iff.1 (rfl : 0#3 ++ bit1 asid = _)
    exact parse_control ⟨h, 0#5, _, cd a, noneCode, 0#24⟩ rfl rfl rfl
      (Dec.check (CW.zero_ok.2 ⟨zero_clear _, by simp only [clear_append]; simp, zero_clear _⟩) (Dec.check noneField_noneCode
        (Dec.step opnd_code (by rw [← bit1_eq_extract.1 hasid]))))
  | tlbinv h kind a v =>
    obtain ⟨-, hkind⟩ := (append_eq_iff (x := 0#2) (y := kind.code)).1 rfl
    exact parse_control ⟨h, 0#5, _, cd a, cd v, 0#24⟩ rfl rfl rfl
      (Dec.check (CW.zero_ok.2 ⟨zero_clear _, by simp only [clear_append]; simp, zero_clear _⟩)
        (Dec.step (enumField_eq_of_code TlbKind.ofCode_code hkind) (Dec.step opnd_code (Dec.step opnd_code rfl))))
  | mcgset h hi g m =>
    obtain ⟨-, hhi⟩ := append_eq_iff.1 (rfl : 0#3 ++ bit1 hi = _)
    exact parse_control ⟨h, 0#5, _, cd g, cd m, 0#24⟩ rfl rfl rfl
      (Dec.check (CW.zero_ok.2 ⟨zero_clear _, by simp only [clear_append]; simp, zero_clear _⟩)
        (Dec.step opnd_code (Dec.step opnd_code (by rw [← bit1_eq_extract.1 hhi]))))
  | _ => rcases hc with hc | hc <;> cases hc

/-! ### All classes -/

theorem parse_encode {i : Instr} (hw : i.wf = true) (hne : i.isEvent = false) : parse (encode i) = .ok i := by
  cases hc : i.cls with
  | none => exact absurd hc (Instr.cls_ne_none hne)
  | some c =>
    cases c with
    | vec => exact parse_encode_vec hw hc
    | mem => exact parse_encode_mem hc
    | xfer => exact parse_encode_xfer hc
    | tile => exact parse_encode_tile hc
    | ctrl => exact parse_encode_control (.inl hc)
    | sys => exact parse_encode_control (.inr hc)

/-- The fields of a word in each class, packed again (R75, R91). -/
theorem parse_hasWord {w : DWord} {i : Instr} (h : parse w = .ok i) : i.HasWord w := by
  have hop : BitVec.ofNat 8 (opOf w) = w.extractLsb' 56 8 := by rw [opOf, BitVec.ofNat_toNat, BitVec.setWidth_eq]
  unfold parse at h
  dsimp only at h
  split at h
  · split at h
    next hb =>
      have hword := parseVl_word h
      rwa [hop, packVl_fields w hb] at hword
    next hb =>
      have hword := parseV3_word h
      rwa [V3.word, hop, packV3_fields w (Bool.eq_false_iff.2 hb)] at hword
  · have hword := parseM_word h
    rwa [MW.word, hop, packM_fields] at hword
  · have hword := parseX_word h
    rwa [XW.word, hop, packX_fields] at hword
  · have hword := parseT_word h
    rwa [TW.word, hop, packT_fields] at hword
  · have hword := parseC_word h
    rwa [CW.word, hop, packC_fields] at hword
  · have hword := parseC_word h
    rwa [CW.word, hop, packC_fields] at hword
  · cases h

/-- What is decoded is what is read, where it is well formed (R95). -/
theorem decodeWord_ok {w : DWord} {i : Instr} : decodeWord w = .ok i ↔ parse w = .ok i ∧ i.wf = true := by
  unfold decodeWord
  cases parse w with
  | error e => exact ⟨fun h => (nomatch h), fun h => (nomatch h.1)⟩
  | ok j =>
    dsimp only
    split
    next hw => exact ⟨fun h => ⟨h, Except.ok.inj h ▸ hw⟩, fun h => h.1⟩
    next hw => exact ⟨fun h => (nomatch h), fun h => absurd h.2 (Except.ok.inj h.1 ▸ hw)⟩

/-- Settles O21: a well-formed instruction's word is read field by field (`parse_encode`), and the fields of a word that is read
are those of the instruction, packed again (`parse_hasWord`). -/
theorem encodeAndDecodeAgree : Obligations.EncodeAndDecodeAgree := by
  unfold Obligations.EncodeAndDecodeAgree
  refine ⟨fun i hw hne => decodeWord_ok.2 ⟨parse_encode hw hne, hw⟩, fun w i h => ?_⟩
  obtain ⟨hp, hw⟩ := decodeWord_ok.1 h
  obtain ⟨henc, hne⟩ := parse_hasWord hp
  exact ⟨henc, hw, hne⟩

/-- Settles O20: each word is decoded, and none of the last four is. -/
theorem wordsDecodeAsTheSpecWritesThem : Obligations.WordsDecodeAsTheSpecWritesThem := by
  unfold Obligations.WordsDecodeAsTheSpecWritesThem
  refine ⟨?_, ?_, ?_, ?_, ?_, ?_, ?_, ?_, ?_, ?_, ?_, ?_, ?_, ?_⟩ <;> decide +kernel

end Sys2Proof
end

section
/-! Privileged instructions in a launch without privilege (R76, R94, R332): the check stands before any effect, in
`runPriv` for the seven system instructions and in CSRWR for its privileged registers. -/

namespace Sys2Proof.Machine

/-- A privileged instruction that some participant executes traps its group where the launch has no privilege. -/
theorem runPriv_unprivileged {s : State} {c : Ctx} {h : Head} {ops : List (Operand × Nat)} (hs : Seated s c)
    (hp : c.launch.priv = false) (hg : (c.parts h).isEmpty = false) (hf : c.fits ops) (k : Ctx → State) :
    runPriv h s ops k = .next (s.trapGroup c .priv none) := by
  unfold runPriv
  rw [run_spec hs.ctx hf]
  simp [hp, hg]

/-- The words of a control and status register's value are those of its operand type. -/
theorem words_csrType (r : Csr) : Ty.words (if r.is64 then .i64 else .i32) = if r.is64 then 2 else 1 := by
  cases r.is64 <;> rfl

/-- CSRWR of a privileged register does the same. -/
theorem csrwr_unprivileged {s : State} {c : Ctx} {h : Head} {a : Operand} {n : BitVec 12} {r : Csr} (hs : Seated s c)
    (hp : c.launch.priv = false) (hg : (c.parts h).isEmpty = false) (hr : Csr.ofNum n.toNat = some r)
    (hacc : r.access = .pw) (hf : c.fits [(a, if r.is64 then 2 else 1)]) :
    execCsrwr h a n s = .next (s.trapGroup c .priv none) := by
  rw [← words_csrType] at hf
  simp only [execCsrwr, hr]
  rw [run_spec hs.ctx hf]
  simp [hp, hg, hacc]

/-- Settles O44: the check of privilege comes before anything that the instruction does. -/
theorem privilegeChecks : Obligations.PrivilegeChecks := by
  unfold Obligations.PrivilegeChecks
  intro s c h a b n k kind r hs hp hg
  have check : ∀ ops, c.fits ops → ∀ f, runPriv h s ops f = .next (s.trapGroup c .priv none) :=
    fun _ hf => runPriv_unprivileged hs hp hg hf
  refine ⟨fun hf => check _ hf _, check [] ?_ _, fun hf => check _ hf _, fun hf => check _ hf _, fun hf => check _ hf _,
    fun hf => check _ hf _, fun hf => check _ hf _, csrwr_unprivileged hs hp hg⟩
  simp [Ctx.fits]

end Sys2Proof.Machine
end

section
/-! YIELD, ELECT, GSIZE and NOP (R71, R74, R140, R144, R152): the clauses of `Obligations.ControlCompletes` other than EXIT's,
with what the last instruction of a clause does to its members (`tickLast`, `leaveRest`). -/

namespace Sys2Proof.Machine

/-! ### The last instruction of a clause -/

/-- A member once the last instruction of its clause has executed: its windows have come nearer, and with YH = 1 it yields at
its port's next choice. -/
def Thread.ticked (u : Thread) (c : Ctx) : Thread :=
  let t : Thread := { u with pend := u.pend.map (fun p => { p with left := p.left - 1 }), noWatch := false }
  if c.grp.hdr.getLsbD 52 then (if c.port = 0 then { t with yield0 := true } else { t with yield1 := true }) else t

theorem State.tickLast_eq (s : State) (c : Ctx) : s.tickLast c = s.modThreads c.grp.team c.grp.members (fun t => t.ticked c) := rfl

theorem Thread.ticked_only (u : Thread) (c : Ctx) : u.ticked c = { u with
    pend := (u.ticked c).pend, noWatch := (u.ticked c).noWatch, yield0 := (u.ticked c).yield0, yield1 := (u.ticked c).yield1 } := by
  unfold Thread.ticked
  dsimp only
  split
  · split <;> rfl
  · rfl

theorem Thread.ticked_yields (u : Thread) {c : Ctx} (h : c.grp.hdr.getLsbD 52 = false) :
    (u.ticked c).yield0 = u.yield0 ∧ (u.ticked c).yield1 = u.yield1 := by
  unfold Thread.ticked
  rw [h]
  exact ⟨rfl, rfl⟩

theorem keeps_ticked (c : Ctx) : KeepsThread (fun u => u.ticked c) := fun u => by
  dsimp only
  rw [u.ticked_only c]
  exact ⟨rfl, rfl⟩

theorem keeps_fallThrough (clk : Nat) : KeepsThread (fun u => u.fallThrough clk) := fun u => by
  dsimp only
  rw [u.fallThrough_only clk]
  exact ⟨rfl, rfl⟩

theorem thread?_tickLast (s : State) (c : Ctx) (team tid : Nat) : (s.tickLast c).thread? team tid =
    (s.thread? team tid).map (fun u => if team = c.grp.team ∧ tid ∈ c.grp.members then u.ticked c else u) :=
  thread?_modThreads s _ _ _ (keeps_ticked c) team tid

/-- Where the port still holds a group, its members fall through and the port is free. -/
theorem leaveRest_group {s : State} {c : Ctx} {g : Group} (hg : s.groupAt c.core c.port = some g) :
    s.leaveRest c = (s.modThreads g.team g.members (fun t => t.fallThrough s.clk)).modCore c.core (fun k => k.setPort c.port .free) := by
  unfold State.leaveRest
  rw [show ((s.core? c.core).bind fun k => (k.port c.port).group) = some g from hg]

theorem leaveRest_none {s : State} {c : Ctx} (hg : s.groupAt c.core c.port = none) : s.leaveRest c = s := by
  unfold State.leaveRest
  rw [show ((s.core? c.core).bind fun k => (k.port c.port).group) = none from hg]

theorem thread?_leaveRest {s : State} {c : Ctx} {g : Group} (hg : s.groupAt c.core c.port = some g) (team tid : Nat) :
    (s.leaveRest c).thread? team tid =
      (s.thread? team tid).map (fun u => if team = g.team ∧ tid ∈ g.members then u.fallThrough s.clk else u) := by
  rw [leaveRest_group hg]
  exact thread?_modThreads s _ _ _ (keeps_fallThrough s.clk) team tid

/-- The port of the context holds its group. -/
theorem Seated.groupAt {s : State} {c : Ctx} (hs : Seated s c) : s.groupAt c.core c.port = some c.grp := by
  obtain ⟨hg, hcore, hport, -⟩ := ctx?_group hs.ctx
  rw [hcore, hport]
  exact hg

/-- A member takes part where its number is among the participants'. -/
theorem takesPart_iff {s : State} {c : Ctx} (hs : Seated s c) {h : Head} {p : Thread} (hp : p ∈ c.ths) :
    c.takesPart h p.team p.tid ↔ p.tid ∈ (c.parts h).map (·.tid) := by
  constructor
  · rintro ⟨q, hq, -, he⟩
    exact List.mem_map.mpr ⟨q, hq, he⟩
  · intro hm
    obtain ⟨q, hq, he⟩ := List.mem_map.mp hm
    exact ⟨q, hq, (ths_key hs.ctx (parts_ths hq)).1.trans (ths_key hs.ctx hp).1.symm, he⟩

/-! ### NOP and GSIZE -/

theorem foldl_writeEff_none (ps : List Thread) (d : Operand) (s : State) :
    ps.foldl (fun s t => s.writeEff t d { words := [], preds := [] }) s = s := by
  induction ps with
  | nil => rfl
  | cons p r ih => rw [List.foldl_cons, writeEff_none, ih]

/-- The group moves on, and nothing else of the state changes. -/
theorem advance_stepsOnly {s : State} {c : Ctx} (hs : Seated s c) (h : Head) : StepsOnly s c h s.advance := by
  have hd := writeAll_done (h := h) (d := .none) (w := 0) (pds := []) (fun _ => { words := [], preds := [] }) hs
    (fun n e => nomatch e) (fun n e => nomatch e) (fun _ _ => Nat.le_refl 0) (fun _ _ q hq => nomatch hq) (fun _ _ => List.nodup_nil)
  rw [writeAll, foldl_writeEff_none] at hd
  exact hd

theorem nop_completes {s : State} {c : Ctx} {h : Head} (hs : Seated s c) :
    Completes (.nop h) s c h .none 0 [] (fun _ e => e = { words := [], preds := [] }) :=
  ⟨s.advance, fun _ => { words := [], preds := [] }, run_spec hs.ctx (ops := []) (fun _ ho => nomatch ho) _,
    fun _ _ => ⟨rfl, Nat.le_refl 0, fun _ hq => nomatch hq⟩, advance_stepsOnly hs h⟩

/-- Moving on does not look at the teams. -/
theorem advance_modTeam (s : State) (team : Nat) (f : Team → Team) :
    (s.modTeam team f).advance = { s.advance with teams := (s.modTeam team f).teams } := by
  unfold State.advance
  rw [State.core?, State.modTeam_cores, State.modTeam_cur, ← State.core?]
  cases (s.core? s.cur.core).bind (fun k => (k.port s.cur.port).group) <;> rfl

/-- The team with the limit of a role set (R152). -/
def Team.withLimit (x : Team) (role n : Nat) : Team := { x with limits := updAt role (fun _ => n) x.limits }

theorem Team.limit_withLimit (x : Team) {role : Nat} (n j : Nat) (h : role < x.limits.length) :
    (x.withLimit role n).limit j = if j = role then n else x.limit j := by
  unfold Team.limit Team.withLimit
  rw [List.getD_eq_getElem?_getD, getElem?_updAt, List.getD_eq_getElem?_getD]
  split
  next he => rw [he, List.getElem?_eq_getElem h]; rfl
  next => rfl

theorem ctx?_team {s : State} {c : Ctx} (h : s.ctx? = some c) : s.team? c.grp.team = some c.team := by
  unfold State.ctx? at h
  split at h
  · cases h
  · split at h
    · cases h
    next hx =>
      split at h
      · cases h
      · cases h; exact hx

theorem gsize_sets {s : State} {c : Ctx} {h : Head} {code : Fin 4} (hs : Seated s c) (hp : c.parts h ≠ [])
    (hr : c.grp.role < c.team.limits.length) :
    ∃ t x, exec (.gsize h code) s = .next t ∧ StepsOnly s c h { t with teams := s.teams } ∧
      t.team? c.grp.team = some x ∧ x = { c.team with limits := x.limits } ∧ x.limit c.grp.role = 8 * 2 ^ code.val ∧
      (∀ j, j ≠ c.grp.role → x.limit j = c.team.limit j) ∧ (∀ k, k ≠ c.grp.team → t.team? k = s.team? k) := by
  set f : Team → Team := fun x => x.withLimit c.grp.role (gsizeOf code.val)
  have hex : exec (.gsize h code) s = .next (s.modTeam c.grp.team f).advance := by
    refine (run_spec hs.ctx (ops := []) (fun _ ho => nomatch ho) _).trans ?_
    rw [if_neg (by simpa using hp)]
    rfl
  have hteam : ∀ k, (s.modTeam c.grp.team f).advance.team? k = (s.team? k).map (fun x => if k = c.grp.team then f x else x) := fun k => by
    rw [advance_modTeam]
    exact team?_modTeam s c.grp.team f (fun _ => rfl) k
  have hteams : s.advance.teams = s.teams := by rw [(advance_spec s c.grp (ctx?_group hs.ctx).1).2.1]
  refine ⟨_, f c.team, hex, ?_, ?_, rfl, ?_, fun j hj => ?_, fun k hk => ?_⟩
  · rw [advance_modTeam, ← hteams]
    exact advance_stepsOnly hs h
  · rw [hteam, ctx?_team hs.ctx, Option.map_some, if_pos rfl]
  · rw [Team.limit_withLimit _ _ _ hr, if_pos rfl]; rfl
  · rw [Team.limit_withLimit _ _ _ hr, if_neg hj]
  · rw [hteam]
    simp [hk]

/-! ### ELECT -/

/-- What ELECT gives to a participant: the position of the lowest one, and the predicate in that one alone (R144). -/
def electEff (c : Ctx) (h : Head) (pd : Fin 8) (p : Thread) : VecEff :=
  { words := [BitVec.ofNat 32 (c.pos ((c.parts h).headD p))], preds := [(pd.val, p.tid == ((c.parts h).headD p).tid)] }

theorem elect_completes {s : State} {c : Ctx} {h : Head} {pd : Fin 8} {d : Operand} (hs : Seated s c)
    (hwf : (Instr.elect h pd d).wf = true) (hf : c.fits [(d, 1)]) :
    Completes (.elect h pd d) s c h d 1 [pd.val] (fun p e => ∀ lead, (c.parts h).head? = some lead →
      e = { words := [BitVec.ofNat 32 (c.pos lead)], preds := [(pd.val, p.tid == lead.tid)] }) := by
  have hok : h.ok false = true ∧ (d.isNone || d.isDst h.u 1) = true := by
    simpa [Instr.wf] using hwf
  obtain ⟨hhead, hd⟩ := hok
  have hu : h.u = false := by
    simp only [Head.ok, Bool.and_eq_true, Bool.or_false, Bool.not_eq_true'] at hhead
    exact hhead.2
  have hS : ∀ n, d ≠ .s n := fun n e => by
    rw [e, hu] at hd
    cases hd
  have hsrc : ∀ p, c.source h p = p := fun p => by simp [Ctx.source, hu]
  have hex : exec (.elect h pd d) s = .next (writeAll s d (c.parts h) (fun p => electEff c h pd (c.source h p))).advance := by
    refine (run_spec hs.ctx hf _).trans ?_
    simp only [hsrc]
    unfold electEff
    cases c.parts h with
    | nil => rfl
    | cons x r => rfl
  refine ⟨_, electEff c h pd, hex, fun p _ => ⟨fun lead hl => ?_, Nat.le_refl 1, fun q hq => ?_⟩, ?_⟩
  · rw [electEff, List.headD_eq_head?_getD, hl]
    rfl
  · rw [List.mem_singleton.mp hq]
    exact List.mem_singleton_self _
  · refine writeAll_done (electEff c h pd) hs (fun n e => ?_) (fun n e => absurd e (hS n)) (fun _ _ => Nat.le_refl 1)
      (fun p _ q hq => ?_) (fun _ _ => List.nodup_singleton _)
    · have := hf _ List.mem_cons_self
      rw [e] at this
      exact of_decide_eq_true this
    · rw [List.mem_singleton.mp hq]
      exact List.mem_singleton_self _

/-! ### YIELD -/

/-- A participant of YIELD yields at both ports' next choices (R140). -/
def Thread.yieldsBoth (u : Thread) : Thread := { u with yield0 := true, yield1 := true }

/-- A member once YIELD has executed, which it takes part in or not. -/
def Thread.afterYield (u : Thread) (c : Ctx) (part : Bool) : Thread := if part then (u.ticked c).yieldsBoth else u.ticked c

theorem Thread.afterYield_only (u : Thread) (c : Ctx) (part : Bool) : u.afterYield c part = { u with
    pend := (u.afterYield c part).pend, noWatch := (u.afterYield c part).noWatch,
    yield0 := (u.afterYield c part).yield0, yield1 := (u.afterYield c part).yield1 } := by
  unfold Thread.afterYield Thread.yieldsBoth
  split
  · rw [u.ticked_only c]
  · exact u.ticked_only c

/-- The state in which YIELD's group leaves its port. -/
def State.yielded (s : State) (c : Ctx) (h : Head) : State :=
  (s.tickLast c).modThreads c.grp.team ((c.parts h).map (·.tid)) Thread.yieldsBoth

theorem yielded_groupAt {s : State} {c : Ctx} (hs : Seated s c) (h : Head) : (s.yielded c h).groupAt c.core c.port = some c.grp :=
  hs.groupAt

theorem exec_yield {s : State} {c : Ctx} (hs : Seated s c) (h : Head) : exec (.yield h) s = .next ((s.yielded c h).leaveRest c) :=
  run_spec hs.ctx (ops := []) (fun _ ho => nomatch ho) _

theorem thread?_yield {s : State} {c : Ctx} (hs : Seated s c) (h : Head) (team tid : Nat) :
    ((s.yielded c h).leaveRest c).thread? team tid =
      (s.thread? team tid).map (fun u => if team = c.grp.team ∧ tid ∈ c.grp.members then
        (u.afterYield c (decide (tid ∈ (c.parts h).map (·.tid)))).fallThrough s.clk else u) := by
  have hids : tid ∈ (c.parts h).map (·.tid) → tid ∈ c.grp.members := fun hm => by
    obtain ⟨p, hp, rfl⟩ := List.mem_map.mp hm
    exact (ths_key hs.ctx (parts_ths hp)).2
  rw [thread?_leaveRest (yielded_groupAt hs h), State.yielded, thread?_modThreads _ _ _ Thread.yieldsBoth (fun _ => ⟨rfl, rfl⟩), thread?_tickLast,
    Option.map_map, Option.map_map]
  congr 1
  funext u
  simp only [Function.comp, Thread.afterYield, decide_eq_true_eq]
  by_cases hm : team = c.grp.team ∧ tid ∈ c.grp.members
  · simp only [hm, true_and, if_true]
    rfl
  · rw [if_neg hm, if_neg hm, if_neg hm, if_neg (fun hh => hm ⟨hh.1, hids hh.2⟩)]

theorem yield_completes {s : State} {c : Ctx} {h : Head} (hs : Seated s c) :
    ∃ t, exec (.yield h) s = .next t ∧ t = { s with threads := t.threads, cores := t.cores } ∧
      (∀ team tid, ¬(team = c.grp.team ∧ tid ∈ c.grp.members) → t.thread? team tid = s.thread? team tid) ∧
      ∀ p ∈ c.ths, ∀ u, s.thread? p.team p.tid = some u → ∃ u', t.thread? p.team p.tid = some u' ∧ u.sameBut u' ∧ u'.v = u.v ∧ u'.p = u.p ∧
        u'.status = .ready ∧ (∀ k, u.clause = some k → u'.clause = none ∧ u'.pc = k.next) ∧
        (c.takesPart h p.team p.tid → u'.yield0 = true ∧ u'.yield1 = true) ∧
        (¬c.takesPart h p.team p.tid → c.grp.hdr.getLsbD 52 = false → u'.yield0 = u.yield0 ∧ u'.yield1 = u.yield1) := by
  refine ⟨_, exec_yield hs h, ?_, fun team tid hno => ?_, fun p hp u hu => ?_⟩
  · rw [leaveRest_group (yielded_groupAt hs h)]
    rfl
  · rw [thread?_yield hs h]
    simp [hno]
  · have ht := thread?_yield hs h p.team p.tid
    rw [hu, Option.map_some, if_pos (ths_key hs.ctx hp)] at ht
    set w := u.afterYield c (decide (p.tid ∈ (c.parts h).map (·.tid))) with hw
    have hwu := u.afterYield_only c (decide (p.tid ∈ (c.parts h).map (·.tid)))
    rw [← hw] at hwu
    have hfall := w.fallThrough_only s.clk
    obtain ⟨hready, hnext⟩ := w.fallThrough_leaves s.clk
    refine ⟨_, ht, ?_, ?_, ?_, hready, fun k hk => hnext k ?_, fun hpart => ?_, fun hpart hyh => ?_⟩
    · unfold Thread.sameBut
      rw [hfall, hwu]
    · rw [hfall, hwu]
    · rw [hfall, hwu]
    · rw [hwu]; exact hk
    · rw [hfall, hw, decide_eq_true ((takesPart_iff hs hp).mp hpart)]
      exact ⟨rfl, rfl⟩
    · rw [hfall, hw, decide_eq_false (fun hm => hpart ((takesPart_iff hs hp).mpr hm))]
      exact u.ticked_yields hyh

end Sys2Proof.Machine
end

section
/-! What an exiting thread sets free (R139, R142, R145, R189): its rejoin entries and SYNCM record release their threads, and a
lane that a watchpoint held for it is abandoned. `State.Releases` says what none of this changes. -/

namespace Sys2Proof.Machine

/-- The thread is not parked: nothing that is released moves it. -/
def Thread.Unparked (u : Thread) : Prop := ∀ k, u.status ≠ .parked k

/-- A thread after something of `team` has been released: it is the same thread, and moves only where it was parked. Where no
held lane is given up its registers stay, and threads of other teams do not change at all. -/
structure Thread.Released (held : Prop) (team : Nat) (u u' : Thread) : Prop where
  key : u'.team = u.team ∧ u'.tid = u.tid
  home : u'.role = u.role ∧ u'.hg = u.hg ∧ u'.hidx = u.hidx
  stays : u.Unparked → u'.status = u.status ∧ u'.clause = u.clause ∧ u'.pend = u.pend ∧ u'.watchOp = u.watchOp ∧ u'.v = u.v ∧ u'.p = u.p
  regs : ¬held → u'.v = u.v ∧ u'.p = u.p
  far : ¬held → u.team ≠ team → u' = u

/-- From `s` to `t` threads have been released, and main memory, DSM, the home groups and the groups in ports are as before. -/
structure State.Releases (held : Prop) (team : Nat) (s t : State) : Prop where
  main : t.main = s.main
  dsm : t.dsm = s.dsm
  hg? : ∀ a b d, t.hg? a b d = s.hg? a b d
  groupAt : ∀ k p, t.groupAt k p = s.groupAt k p
  threads : ∃ f : Thread → Thread, t.threads = s.threads.map f ∧ ∀ u : Thread, u.Released held team (f u)

namespace Thread.Released
variable {held : Prop} {team : Nat}

theorem refl (u : Thread) : u.Released held team u :=
  ⟨⟨rfl, rfl⟩, ⟨rfl, rfl, rfl⟩, fun _ => ⟨rfl, rfl, rfl, rfl, rfl, rfl⟩, fun _ => ⟨rfl, rfl⟩, fun _ _ => rfl⟩

theorem trans {u v w : Thread} (h : u.Released held team v) (k : v.Released held team w) : u.Released held team w := by
  refine ⟨⟨k.key.1.trans h.key.1, k.key.2.trans h.key.2⟩, ?_, fun hu => ?_, fun hh => ?_, fun hh hteam => ?_⟩
  · obtain ⟨a, b, c⟩ := h.home
    obtain ⟨a', b', c'⟩ := k.home
    exact ⟨a'.trans a, b'.trans b, c'.trans c⟩
  · obtain ⟨a, b, c, d, e, f⟩ := h.stays hu
    obtain ⟨a', b', c', d', e', f'⟩ := k.stays (fun q => a ▸ hu q)
    exact ⟨a'.trans a, b'.trans b, c'.trans c, d'.trans d, e'.trans e, f'.trans f⟩
  · exact ⟨(k.regs hh).1.trans (h.regs hh).1, (k.regs hh).2.trans (h.regs hh).2⟩
  · exact (k.far hh (h.key.1 ▸ hteam)).trans (h.far hh hteam)

/-- A thread's counters and what it has ordered do not say where it stands. -/
theorem noted {u : Thread} (n : Nat) (know : List Know) (after : List (Nat × Nat)) (view : View) (hteam : held ∨ u.team = team) :
    u.Released held team { u with xfcnt := n, know := know, after := after, xfView := view } :=
  ⟨⟨rfl, rfl⟩, ⟨rfl, rfl, rfl⟩, fun _ => ⟨rfl, rfl, rfl, rfl, rfl, rfl⟩, fun _ => ⟨rfl, rfl⟩,
    fun hh hne => absurd hteam (fun h => h.elim hh hne)⟩

theorem fallThrough {u : Thread} {k : Park} (clk : Nat) (hp : u.status = .parked k) (hteam : held ∨ u.team = team) :
    u.Released held team (u.fallThrough clk) := by
  rw [u.fallThrough_only clk]
  exact ⟨⟨rfl, rfl⟩, ⟨rfl, rfl, rfl⟩, fun hu => absurd hp (hu k), fun _ => ⟨rfl, rfl⟩, fun hh hne => absurd hteam (fun h => h.elim hh hne)⟩

/-- A parked thread that a given-up lane's barrier releases. -/
theorem result {u : Thread} {k : Park} (pd clk : Nat) (b : Bool) (hp : u.status = .parked k) (hh : held) :
    u.Released held team ((u.setPred pd b).fallThrough clk) := by
  rw [Thread.fallThrough_only, Thread.setPred_only u]
  exact ⟨⟨rfl, rfl⟩, ⟨rfl, rfl, rfl⟩, fun hu => absurd hp (hu k), fun hn => absurd hh hn, fun hn => absurd hh hn⟩

end Thread.Released

namespace State.Releases
variable {held : Prop} {team : Nat}

theorem refl (s : State) : s.Releases held team s :=
  ⟨rfl, rfl, fun _ _ _ => rfl, fun _ _ => rfl, id, by simp, fun u => .refl u⟩

theorem trans {s t u : State} (h : s.Releases held team t) (k : t.Releases held team u) : s.Releases held team u := by
  obtain ⟨f, ef, hf⟩ := h.threads
  obtain ⟨g, eg, hg⟩ := k.threads
  exact ⟨k.main.trans h.main, k.dsm.trans h.dsm, fun a b d => (k.hg? a b d).trans (h.hg? a b d),
    fun a b => (k.groupAt a b).trans (h.groupAt a b), g ∘ f, by rw [eg, ef, List.map_map], fun u => (hf u).trans (hg (f u))⟩

/-- A thread after something has been released. -/
theorem thread? {s t : State} (h : s.Releases held team t) {a b : Nat} {u : Thread} (hu : s.thread? a b = some u) :
    ∃ u', t.thread? a b = some u' ∧ u.Released held team u' := by
  obtain ⟨f, ef, hf⟩ := h.threads
  refine ⟨f u, ?_, hf u⟩
  unfold State.thread? at hu ⊢
  rw [ef, find?_map_key _ f _ (fun x => by rw [(hf x).key.1, (hf x).key.2]), hu, Option.map_some]

/-- Updates of parts of the state that it does not speak of. -/
theorem of_same {s t : State} (hm : t.main = s.main) (hd : t.dsm = s.dsm) (hg : t.groups = s.groups) (hth : t.threads = s.threads)
    (hp : ∀ k p, t.groupAt k p = s.groupAt k p) : s.Releases held team t :=
  ⟨hm, hd, fun _ _ _ => by unfold State.hg?; rw [hg], hp, id, by rw [hth]; simp, fun u => .refl u⟩

theorem modTeam (s : State) (t : Nat) (f : Team → Team) : s.Releases held team (s.modTeam t f) := of_same rfl rfl rfl rfl fun _ _ => rfl

theorem modXfer (s : State) (op : Nat) (f : XferOp → XferOp) : s.Releases held team (s.modXfer op f) :=
  of_same rfl rfl rfl rfl fun _ _ => rfl

theorem freeLines (s : State) (ls : List Loc) : s.Releases held team (s.freeLines ls) := of_same rfl rfl rfl rfl fun _ _ => rfl

theorem keepCmds (s : State) (l : List BankCmd) : s.Releases held team { s with waitingCmds := l } := of_same rfl rfl rfl rfl fun _ _ => rfl

/-- Updates of threads each of which is released by it. -/
theorem of_threads (s : State) (q : Thread → Bool) (f : Thread → Thread) (hf : ∀ u, q u = true → u.Released held team (f u)) :
    s.Releases held team { s with threads := updWhere q f s.threads } := by
  refine ⟨rfl, rfl, fun _ _ _ => rfl, fun _ _ => rfl, fun u => if q u then f u else u, rfl, fun u => ?_⟩
  dsimp only
  split
  next hq => exact hf u hq
  next => exact .refl u

/-- An update of lock tables leaves the ports. -/
theorem groupAt_locks (s : State) (q : Core → Bool) (g : Core → List Lock) (ts : List Team) (k p : Nat) :
    State.groupAt { s with cores := updWhere q (fun c => { c with locks := g c }) s.cores, teams := ts } k p = s.groupAt k p := by
  unfold State.groupAt State.core?
  rw [find?_updWhere _ q (fun c : Core => { c with locks := g c }) s.cores (fun c => rfl)]
  cases s.cores.find? (fun c => c.id == k) with
  | none => rfl
  | some c =>
    simp only [Option.map_some, Option.bind_some]
    split <;> rfl

/-- `trans` with the later step first: the state that it starts from is read off it. -/
theorem after {s t u : State} (k : t.Releases held team u) (h : s.Releases held team t) : s.Releases held team u := h.trans k

theorem modHg {s t : State} (h : s.Releases held team t) (a b d : Nat) {f : HomeGroup → HomeGroup} (hf : KeepsHg f) :
    (s.modHg a b d f).Releases held team (t.modHg a b d f) :=
  ⟨h.main, h.dsm, fun x y z => by rw [hg?_modHg _ _ _ _ _ hf, hg?_modHg _ _ _ _ _ hf, h.hg?], h.groupAt, h.threads⟩

/-! ### Completion of an operation whose last lane is given up -/

theorem freeLocks (s : State) (op : Nat) : s.Releases held team (s.freeLocks op) :=
  of_same rfl rfl rfl rfl (groupAt_locks s _ _ _)

theorem shrinkOp (s : State) (op t : Nat) (dest : Bool) (left read : List (Loc × Nat)) : s.Releases held team (s.shrinkOp op t dest left read) :=
  of_same rfl rfl rfl rfl (groupAt_locks s _ _ _)

theorem gridEnded (s : State) (t : Nat) (v : View) : s.Releases held team (s.gridEnded t v) := by
  unfold State.gridEnded
  split
  · exact .refl s
  · split
    · exact of_same rfl rfl rfl rfl fun _ _ => rfl
    · exact .refl s

theorem bankLocks (s : State) (op : Nat) (read : List (Loc × Nat)) : s.Releases held team (s.bankLocks op read) := by
  unfold State.bankLocks
  split
  · exact .refl s
  · split
    · exact shrinkOp s _ _ _ _ _
    · exact .refl s

theorem landLines (s : State) (op : Nat) : s.Releases held team (s.landLines op) := by
  unfold State.landLines
  split
  · exact .refl s
  · exact of_same rfl rfl rfl rfl fun _ _ => rfl

theorem landLocks (s : State) (op : Nat) : s.Releases held team (s.landLocks op) := by
  unfold State.landLocks
  split
  · exact .refl s
  · split
    · exact of_same rfl rfl rfl rfl (groupAt_locks s _ _ s.teams)
    · exact .refl s

section
variable (s : State) (hh : held)
include hh

theorem xfDown (t : Nat) (l : List Nat) : s.Releases held team (s.modThreads t l Thread.xfDown) :=
  of_threads s _ _ fun u _ => .noted (u.xfcnt - 1) u.know u.after u.xfView (.inl hh)

theorem xfEnded (t : Nat) (l : List Nat) (v : View) : s.Releases held team (s.modThreads t l (fun u => u.xfDown.ended v)) :=
  of_threads s _ _ fun u _ => .noted (u.xfcnt - 1) u.know u.after (joinViews u.xfView v) (.inl hh)

theorem releaseBar (t b : Nat) (r : Bool) : s.Releases held team (s.releaseBar t b r) := by
  unfold State.releaseBar
  refine (modTeam _ _ _).after (of_threads s _ _ fun u _ => ?_)
  split
  next hp => exact .result _ _ _ hp hh
  next => exact .refl u

theorem completePhase (t b : Nat) : s.Releases held team (s.completePhase t b) := by
  unfold State.completePhase
  split
  · exact .refl s
  · refine (releaseBar _ hh t b true).after ((of_threads _ _ _ fun u _ => ?_).after (modTeam s _ _))
    exact .noted u.xfcnt _ _ u.xfView (.inl hh)

theorem arriveBar (t b n : Nat) : s.Releases held team (s.arriveBar t b n) := by
  unfold State.arriveBar
  split
  · exact .refl s
  · split
    · exact .refl s
    · dsimp only
      split
      · exact (completePhase _ hh t b).after (modTeam s _ _)
      · exact modTeam s _ _

theorem arriveOp (t : Nat) (bar : Option Nat) (arrives : Bool) (v : View) : s.Releases held team (s.arriveOp t bar arrives v) := by
  unfold State.arriveOp
  split
  · split
    · exact (arriveBar _ hh t _ 1).after (modTeam s _ _)
    · exact .refl s
  · exact .refl s

theorem finishXfer (o : XferOp) : s.Releases held team (s.finishXfer o) := by
  have mcast : ∀ s : State, s.Releases held team (match o.kind with
      | .cpymc _ g _ => { s with mcast := updWhere (fun m => m.id == g) (fun m => { m with outst := m.outst - 1 }) s.mcast }
      | _ => s) := fun s => by split <;> exact of_same rfl rfl rfl rfl fun _ _ => rfl
  have counts : s.Releases held team (({ s with xfers := s.xfers.filter (fun x => x.id != o.id) } : State).modThreads o.team o.counted
      (fun t => t.xfDown.ended o.view)) := (xfEnded _ hh _ _ _).after (of_same rfl rfl rfl rfl fun _ _ => rfl)
  have h := (mcast _).after ((gridEnded _ o.team o.view).after ((freeLocks _ o.id).after ((freeLines _ o.cleared).after counts)))
  unfold State.finishXfer
  dsimp only
  split
  · exact h
  · exact h.trans (arriveOp _ hh _ _ _ _)

theorem checkXfer (op : Nat) : s.Releases held team (s.checkXfer op) := by
  unfold State.checkXfer
  split
  · exact .refl s
  · split
    · exact finishXfer s hh _
    · exact .refl s

theorem landCounts (op : Nat) : s.Releases held team (s.landCounts op) := by
  unfold State.landCounts
  split
  · exact .refl s
  · exact (modXfer _ _ _).after (xfEnded s hh _ _ _)

theorem afterLanding (op : Nat) : s.Releases held team (s.afterLanding op) :=
  (checkXfer _ hh op).after ((landLocks _ op).after ((landCounts _ hh op).after (landLines s op)))

theorem abandonHeld (op : Nat) (tids : List Nat) : s.Releases held team (s.abandonHeld op tids) := by
  unfold State.abandonHeld
  split
  · exact .refl s
  · exact (afterLanding _ hh op).after ((bankLocks _ _ _).after ((modXfer _ _ _).after ((keepCmds _ _).after (xfDown s hh _ _))))

end

/-! ### Rejoin entries and SYNCM records -/

theorem modHg_congr (s : State) {a b d : Nat} {f f' : HomeGroup → HomeGroup} (hf : KeepsHg f) (hf' : KeepsHg f')
    (h : ∀ g, s.hg? a b d = some g → f g = f' g) : (s.modHg a b d f).Releases held team (s.modHg a b d f') := by
  refine ⟨rfl, rfl, fun x y z => ?_, fun _ _ => rfl, id, by simp, fun u => .refl u⟩
  rw [hg?_modHg _ _ _ _ _ hf, hg?_modHg _ _ _ _ _ hf']
  cases hg : s.hg? x y z with
  | none => rfl
  | some g =>
    simp only [Option.map_some]
    split
    next hk =>
      obtain ⟨rfl, rfl, rfl⟩ := hk
      rw [h g hg]
    next => rfl

/-- An update of home groups that finds nothing to change. -/
theorem modHg_same (s : State) {a b d : Nat} {f : HomeGroup → HomeGroup} (hf : KeepsHg f)
    (h : ∀ g, s.hg? a b d = some g → f g = g) : (s.modHg a b d f).Releases held team s := by
  have hid : s.modHg a b d id = s := by
    unfold State.modHg
    rw [show updWhere (fun g : HomeGroup => g.team == a && g.role == b && g.idx == d) id s.groups = s.groups from updWhere_id _ _]
  have := modHg_congr (held := held) (team := team) s hf (f' := id) (fun _ => ⟨rfl, rfl, rfl⟩) h
  rwa [hid] at this

end State.Releases

/-- A thread of the home group arrives: at every rejoin entry that expects it, and at a SYNCM record that does (R139). -/
def HomeGroup.arrive (g : HomeGroup) (i : Nat) : HomeGroup := { g with
  rejoin := g.rejoin.map (fun r => if r.expected &&& bit64 i != 0#64 then { r with arrived := r.arrived ||| bit64 i } else r),
  syncA := if g.syncM &&& bit64 i != 0#64 then g.syncA ||| bit64 i else g.syncA }

/-- Complete rejoin entries are emptied (R142). -/
def HomeGroup.freeRejoin (g : HomeGroup) : HomeGroup := { g with
  rejoin := g.rejoin.map (fun r => if r.complete then { expected := 0#64, arrived := 0#64 } else r) }

/-- A complete SYNCM record is emptied (R145). -/
def HomeGroup.freeSync (g : HomeGroup) : HomeGroup :=
  if g.syncM != 0#64 && (g.syncM &&& ~~~g.syncA) == 0#64 then { g with syncM := 0#64, syncA := 0#64 } else g

theorem keeps_arrive (i : Nat) : KeepsHg (fun g => g.arrive i) := fun _ => ⟨rfl, rfl, rfl⟩
theorem keeps_freeRejoin : KeepsHg HomeGroup.freeRejoin := fun _ => ⟨rfl, rfl, rfl⟩
theorem keeps_freeSync : KeepsHg HomeGroup.freeSync := fun g => by
  unfold HomeGroup.freeSync
  split <;> exact ⟨rfl, rfl, rfl⟩

theorem HomeGroup.freeRejoin_incomplete {g : HomeGroup} (h : ∀ r ∈ g.rejoin, r.complete = false) : g.freeRejoin = g := by
  have : g.rejoin.map (fun r => if r.complete then { expected := 0#64, arrived := 0#64 } else r) = g.rejoin :=
    (List.map_congr_left fun r hr => by rw [h r hr]; rfl).trans (List.map_id _)
  unfold HomeGroup.freeRejoin
  rw [this]

theorem Thread.parked_of_waitsJ {u : Thread} {ks : List Nat} (h : u.waitsJ ks = true) : ∃ k, u.status = .parked k := by
  unfold Thread.waitsJ at h
  split at h
  next k hk => exact ⟨_, hk⟩
  next => cases h

theorem Thread.team_of_inHg {u : Thread} {team role idx : Nat} (h : u.inHg team role idx = true) : u.team = team := by
  simp only [Thread.inHg, Bool.and_eq_true, beq_iff_eq] at h
  exact h.1.1

namespace State.Releases
variable {held : Prop} {team : Nat}

/-- The rejoin entries of a home group that are complete are emptied, and release their threads. -/
theorem checkRejoin (s : State) (role idx : Nat) :
    (s.modHg team role idx HomeGroup.freeRejoin).Releases held team (s.checkRejoin team role idx) := by
  unfold State.checkRejoin
  split
  next hn => exact modHg_same s keeps_freeRejoin fun g hg => by rw [hn] at hg; cases hg
  next g hg =>
    dsimp only
    split
    next he =>
      refine modHg_same s keeps_freeRejoin fun g' hg' => HomeGroup.freeRejoin_incomplete fun r hr => ?_
      cases hg.symm.trans hg'
      obtain ⟨k, hk, rfl⟩ := List.mem_iff_getElem.mp hr
      have := List.filter_eq_nil_iff.mp (List.isEmpty_iff.mp he) k (List.mem_range.mpr hk)
      rwa [List.getD_eq_getElem _ _ hk, Bool.not_eq_true] at this
    next =>
      refine (modTeam _ _ _).after (of_threads _ _ _ fun u hu => ?_)
      obtain ⟨hin, hw⟩ := Bool.and_eq_true_iff.mp hu
      obtain ⟨k, hk⟩ := Thread.parked_of_waitsJ hw
      exact .fallThrough _ hk (.inr (Thread.team_of_inHg hin))

/-- A complete SYNCM record of a home group is emptied, and releases its threads. -/
theorem checkSyncm (s : State) (role idx : Nat) :
    (s.modHg team role idx HomeGroup.freeSync).Releases held team (s.checkSyncm team role idx) := by
  unfold State.checkSyncm
  split
  next hn => exact modHg_same s keeps_freeSync fun g hg => by rw [hn] at hg; cases hg
  next g hg =>
    split
    next hc =>
      have hclear := modHg_congr (held := held) (team := team) s keeps_freeSync (f' := fun g => { g with syncM := 0#64, syncA := 0#64 })
        (fun _ => ⟨rfl, rfl, rfl⟩) fun g' hg' => by cases hg.symm.trans hg'; exact if_pos hc
      have hwaits : ∀ u : Thread, (u.inHg team role idx && u.status == .parked .syncm) = true → u.team = team ∧ u.status = .parked .syncm :=
        fun u hu => by
          obtain ⟨hin, hs⟩ := Bool.and_eq_true_iff.mp hu
          exact ⟨Thread.team_of_inHg hin, beq_iff_eq.mp hs⟩
      exact (modTeam _ _ _).after ((of_threads _ _ _ fun u hu => .fallThrough _ (hwaits u hu).2 (.inr (hwaits u hu).1)).after
        (.after (of_threads (s.modHg team role idx _) _ _ fun u hu => .noted u.xfcnt _ _ u.xfView (.inr (hwaits u hu).1)) hclear))
    next hc =>
      exact modHg_same s keeps_freeSync fun g' hg' => by cases hg.symm.trans hg'; exact if_neg hc

theorem endWdog (s : State) (t : Nat) : s.Releases held team (s.endWdog t) := by
  unfold State.endWdog
  split
  · exact .refl s
  · split
    · exact modTeam s _ _
    · exact .refl s

end State.Releases

/-! ### EXIT of one thread (R139) -/

/-- A thread that has exited: its pending results are discarded, and it fetches no more. -/
def Thread.exit (t : Thread) : Thread := { t with
  status := .exited, pend := [], entering := none, fence := none, clause := none, trapClause := none,
  inHandler := false, wdogDue := false, convDue := none, watchOp := none }

/-- A thread has left its port, has exited and has arrived where its home group expects it. -/
def State.exited (s : State) (t : Thread) : State :=
  ((((s.unseat t.team [t.tid]).modThread t.team t.tid Thread.exit).modHg t.team t.role t.hg (fun g => g.arrive t.hidx)).modHg
    t.team t.role t.hg HomeGroup.freeRejoin).modHg t.team t.role t.hg HomeGroup.freeSync

/-- After that, EXIT only releases. -/
theorem exitThread_releases {s : State} {team tid : Nat} {t : Thread} (ht : s.thread? team tid = some t) (hx : t.hasExited = false) :
    (s.exited t).Releases (t.watchOp ≠ none) team (s.exitThread team tid) := by
  obtain ⟨hteam, htid⟩ := thread?_key ht
  subst hteam htid
  unfold State.exitThread
  rw [ht]
  dsimp only
  rw [hx, if_neg (by simp)]
  set y := ((s.unseat t.team [t.tid]).modThread t.team t.tid Thread.exit).modHg t.team t.role t.hg (fun g => g.arrive t.hidx) with hy
  have hab : y.Releases (t.watchOp ≠ none) t.team (match t.watchOp with
      | some o => y.abandonHeld o [t.tid]
      | none => y) := by
    cases hw : t.watchOp with
    | none => exact .refl y
    | some o => exact .abandonHeld y (by simp) o [t.tid]
  have h1 := (State.Releases.checkRejoin (held := t.watchOp ≠ none) (team := t.team) _ t.role t.hg).after (hab.modHg t.team t.role t.hg keeps_freeRejoin)
  have h2 := (State.Releases.checkSyncm (held := t.watchOp ≠ none) (team := t.team) _ t.role t.hg).after (h1.modHg t.team t.role t.hg keeps_freeSync)
  exact (State.Releases.endWdog _ t.team).after h2

end Sys2Proof.Machine
end

section
/-! Arrivals at a record of an expected and an arrived mask (R139, R142, R145), one at a time: what is left of a rejoin entry or
of a SYNCM record once some threads of a home group have arrived at it. -/

namespace Sys2Proof.Machine

theorem bit64_getLsbD {i j : Nat} (hj : j < 64) : (bit64 i).getLsbD j = decide (j = i) := by
  unfold bit64
  rw [BitVec.getLsbD_ofNat, Nat.testBit_two_pow]
  simp [hj, eq_comm]

/-- A mask meets the bit of a thread where it holds that bit. -/
theorem and_bit64_ne_zero {m : DWord} {i : Nat} (hi : i < 64) : (m &&& bit64 i != 0#64) = m.getLsbD i := by
  rw [Bool.eq_iff_iff, bne_iff_ne, ne_eq, ← not_iff_comm]
  constructor
  · intro h
    apply BitVec.eq_of_getLsbD_eq
    intro j hj
    rw [BitVec.getLsbD_and, bit64_getLsbD hj, BitVec.getLsbD_zero]
    by_cases hji : j = i
    · subst hji
      simp [h]
    · simp [hji]
  · intro h hm
    have := congrArg (·.getLsbD i) h
    simp [bit64_getLsbD hi, hm] at this

/-- A record is complete where every expected thread has arrived, and there is one. -/
theorem Rejoin.complete_iff {r : Rejoin} : r.complete = true ↔
    r.expected ≠ 0#64 ∧ ∀ j, j < 64 → r.expected.getLsbD j = true → r.arrived.getLsbD j = true := by
  have hz : r.expected &&& ~~~r.arrived = 0#64 ↔ ∀ j, j < 64 → r.expected.getLsbD j = true → r.arrived.getLsbD j = true := by
    rw [BitVec.eq_of_getLsbD_eq_iff]
    refine forall_congr' fun j => forall_congr' fun hj => ?_
    simp only [BitVec.getLsbD_and, BitVec.getLsbD_not, hj, decide_true, Bool.true_and, BitVec.getLsbD_zero]
    cases r.expected.getLsbD j <;> cases r.arrived.getLsbD j <;> simp
  unfold Rejoin.complete
  rw [Bool.and_eq_true, bne_iff_ne, beq_iff_eq, hz]

/-- A thread arrives at a record that expects it. -/
def Rejoin.mark (r : Rejoin) (i : Nat) : Rejoin :=
  if r.expected &&& bit64 i != 0#64 then { r with arrived := r.arrived ||| bit64 i } else r

/-- A record after one arrival, emptied where it was the last. -/
def Rejoin.step (r : Rejoin) (i : Nat) : Rejoin := if (r.mark i).complete then { expected := 0#64, arrived := 0#64 } else r.mark i

theorem Rejoin.mark_expected (r : Rejoin) (i : Nat) : (r.mark i).expected = r.expected := by
  unfold Rejoin.mark
  split <;> rfl

theorem Rejoin.mark_arrived (r : Rejoin) {i j : Nat} (hi : i < 64) (hj : j < 64) :
    (r.mark i).arrived.getLsbD j = true ↔ r.arrived.getLsbD j = true ∨ (r.expected.getLsbD j = true ∧ j = i) := by
  unfold Rejoin.mark
  rw [and_bit64_ne_zero hi]
  split
  next he =>
    rw [BitVec.getLsbD_or, bit64_getLsbD hj, Bool.or_eq_true, decide_eq_true_eq]
    exact or_congr_right ⟨fun e => ⟨e ▸ he, e⟩, fun h => h.2⟩
  next he =>
    refine ⟨Or.inl, fun h => h.elim id fun hh => absurd hh.1 ?_⟩
    rw [hh.2]
    exact he

/-- What is left of a record once the threads of some home indices have arrived at it. -/
def Rejoin.After (r r' : Rejoin) (new : Nat → Prop) : Prop := Arrives r.expected r.arrived r'.expected r'.arrived new

theorem Rejoin.After.none {r : Rejoin} (h : r.complete = false) : r.After r (fun _ => False) := by
  refine ⟨fun hall => ?_, fun _ => ⟨rfl, fun j _ => by simp⟩⟩
  rw [Bool.eq_false_iff, ne_eq, Rejoin.complete_iff] at h
  exact absurd ⟨hall.1, fun j hj he => (hall.2 j hj he).resolve_right id⟩ h

/-- One more thread arrives. -/
theorem Rejoin.After.step {r r' : Rejoin} {new : Nat → Prop} (h : r.After r' new) {i : Nat} (hi : i < 64) :
    r.After (r'.step i) (fun j => new j ∨ j = i) := by
  by_cases hall : r.expected ≠ 0#64 ∧ ∀ j, j < 64 → r.expected.getLsbD j = true → r.arrived.getLsbD j = true ∨ new j
  · obtain ⟨he, ha⟩ := h.1 hall
    have hs : r'.step i = { expected := 0#64, arrived := 0#64 } := by
      obtain ⟨e, a⟩ := r'
      simp only at he ha
      subst he ha
      simp [Rejoin.step, Rejoin.mark, Rejoin.complete]
    refine ⟨fun _ => by rw [hs]; exact ⟨rfl, rfl⟩, fun hn => absurd ⟨hall.1, fun j hj he => ?_⟩ hn⟩
    exact (hall.2 j hj he).imp_right Or.inl
  · obtain ⟨he, ha⟩ := h.2 hall
    have hmark : ∀ j, j < 64 → ((r'.mark i).arrived.getLsbD j = true ↔
        r.arrived.getLsbD j = true ∨ (r.expected.getLsbD j = true ∧ (new j ∨ j = i))) := fun j hj => by
      rw [Rejoin.mark_arrived r' hi hj, he, ha j hj, and_or_left, or_assoc]
    have hcomp : (r'.mark i).complete = true ↔ r.expected ≠ 0#64 ∧
        ∀ j, j < 64 → r.expected.getLsbD j = true → r.arrived.getLsbD j = true ∨ new j ∨ j = i := by
      rw [Rejoin.complete_iff, Rejoin.mark_expected, he]
      refine and_congr_right fun _ => forall_congr' fun j => forall_congr' fun hj => forall_congr' fun hej => ?_
      rw [hmark j hj]
      simp [hej]
    unfold Rejoin.step
    split
    next hc => exact ⟨fun _ => ⟨rfl, rfl⟩, fun hn => absurd (hcomp.mp hc) hn⟩
    next hc => exact ⟨fun hy => absurd (hcomp.mpr hy) hc, fun _ => ⟨(Rejoin.mark_expected r' i).trans he, hmark⟩⟩

/-! ### The records of a home group -/

/-- The SYNCM record of a home group. -/
def HomeGroup.sync (g : HomeGroup) : Rejoin := { expected := g.syncM, arrived := g.syncA }

/-- A home group whose thread has exited (R139). -/
def HomeGroup.reached (g : HomeGroup) (i : Nat) : HomeGroup := ((g.arrive i).freeRejoin).freeSync

theorem HomeGroup.freeSync_rejoin (g : HomeGroup) : g.freeSync.rejoin = g.rejoin := by
  unfold HomeGroup.freeSync
  split <;> rfl

theorem HomeGroup.freeSync_sync (g : HomeGroup) : g.freeSync.sync = if g.sync.complete then { expected := 0#64, arrived := 0#64 } else g.sync := by
  unfold HomeGroup.freeSync
  show HomeGroup.sync (if g.sync.complete then _ else _) = _
  split <;> rfl

theorem HomeGroup.reached_rejoin (g : HomeGroup) (i : Nat) : (g.reached i).rejoin = g.rejoin.map (fun r => r.step i) :=
  (HomeGroup.freeSync_rejoin _).trans (List.map_map ..)

theorem HomeGroup.reached_sync (g : HomeGroup) (i : Nat) : (g.reached i).sync = g.sync.step i := by
  have hs : (g.arrive i).freeRejoin.sync = g.sync.mark i := by
    show Rejoin.mk g.syncM (if g.syncM &&& bit64 i != 0#64 then g.syncA ||| bit64 i else g.syncA) = _
    unfold Rejoin.mark HomeGroup.sync
    split <;> rfl
  unfold HomeGroup.reached
  rw [HomeGroup.freeSync_sync, hs]
  rfl

/-- What is left of the records of a home group once its threads of some home indices have arrived. -/
structure HomeGroup.After (g g' : HomeGroup) (new : Nat → Prop) : Prop where
  rejoin : ∀ (k : Nat) (r : Rejoin), g.rejoin[k]? = some r → ∃ r', g'.rejoin[k]? = some r' ∧ r.After r' new
  sync : g.sync.After g'.sync new

theorem HomeGroup.After.none {g : HomeGroup} (hr : ∀ r ∈ g.rejoin, r.complete = false) (hs : g.sync.complete = false) :
    g.After g (fun _ => False) :=
  ⟨fun _ r h => ⟨r, h, .none (hr r (List.mem_of_getElem? h))⟩, .none hs⟩

theorem HomeGroup.After.reached {g g' : HomeGroup} {new : Nat → Prop} (h : g.After g' new) {i : Nat} (hi : i < 64) :
    g.After (g'.reached i) (fun j => new j ∨ j = i) := by
  refine ⟨fun k r hk => ?_, ?_⟩
  · obtain ⟨r', hr', ha⟩ := h.rejoin k r hk
    exact ⟨r'.step i, by rw [HomeGroup.reached_rejoin, List.getElem?_map, hr']; rfl, ha.step hi⟩
  · rw [HomeGroup.reached_sync]
    exact h.sync.step hi

end Sys2Proof.Machine
end

section
/-! Settling after an exit (R139): what retires leaves the tables as a whole, and nothing that is left changes but which home
groups have retired. -/

namespace Sys2Proof.Machine

/-- From `s` to `t` main memory, DSM, the threads and the home groups are as before. -/
structure State.Rests (s t : State) : Prop where
  main : t.main = s.main
  dsm : t.dsm = s.dsm
  threads : t.threads = s.threads
  groups : t.groups = s.groups

namespace State.Rests

theorem trans {s t u : State} (h : s.Rests t) (k : t.Rests u) : s.Rests u :=
  ⟨k.main.trans h.main, k.dsm.trans h.dsm, k.threads.trans h.threads, k.groups.trans h.groups⟩

theorem foldl {α : Type} {f : State → α → State} (hf : ∀ (s : State) a, s.Rests (f s a)) (l : List α) (s : State) : s.Rests (l.foldl f s) := by
  induction l generalizing s with
  | nil => exact ⟨rfl, rfl, rfl, rfl⟩
  | cons a r ih => exact (hf s a).trans (ih (f s a))

theorem queueDone (s : State) (l : Launch) (core : Nat) : s.Rests (s.queueDone l core) := by
  unfold State.queueDone
  split
  · exact ⟨rfl, rfl, rfl, rfl⟩
  · split
    · exact ⟨rfl, rfl, rfl, rfl⟩
    · exact ⟨State.postEvent_main .., State.postEvent_dsm .., State.postEvent_threads .., State.postEvent_groups ..⟩

theorem completeLaunch (s : State) (l : Launch) (core : Nat) : s.Rests (s.completeLaunch l core) := by
  unfold State.completeLaunch
  refine (queueDone s l core).trans ?_
  dsimp only
  split <;> exact ⟨rfl, rfl, rfl, rfl⟩

theorem completeLaunches (s : State) (ls : List Launch) (core : Launch → Nat) : s.Rests (ls.foldl (fun s l => s.completeLaunch l (core l)) s) :=
  foldl (fun s l => completeLaunch s l (core l)) ls s

end State.Rests

/-- A lookup in a table of which whole teams are gone finds what it found before. -/
theorem find?_of_filter {α : Type} {keep p : α → Bool} {l : List α} {x : α} (hk : ∀ a b, p a = true → p b = true → keep a = keep b)
    (h : (l.filter keep).find? p = some x) : l.find? p = some x := by
  have hpx : p x = true := List.find?_some h
  have hkx : keep x = true := (List.mem_filter.mp (List.mem_of_find?_eq_some h)).2
  rw [List.find?_filter] at h
  rw [← h]
  congr 1
  funext a
  cases hpa : p a with
  | false => simp
  | true => simp [hk a x hpa hpx, hkx]

/-- From `s` to `t` some teams have gone with their threads and home groups. -/
structure State.Prunes (s t : State) : Prop where
  main : t.main = s.main
  dsm : t.dsm = s.dsm
  kept : ∃ keep : Nat → Bool, t.threads = s.threads.filter (fun x => keep x.team) ∧ t.groups = s.groups.filter (fun g => keep g.team)

theorem retireTeams_prunes (s : State) : s.Prunes s.retireTeams := by
  unfold State.retireTeams
  dsimp only
  split
  · exact ⟨rfl, rfl, fun _ => true, by simp, by simp⟩
  · exact ⟨(State.Rests.completeLaunches _ _ _).main, (State.Rests.completeLaunches _ _ _).dsm,
      fun k => !(List.map Team.key _).contains k, (State.Rests.completeLaunches _ _ _).threads, (State.Rests.completeLaunches _ _ _).groups⟩

theorem State.Prunes.thread? {s t : State} (h : s.Prunes t) {a b : Nat} {u : Thread} (hu : t.thread? a b = some u) : s.thread? a b = some u := by
  obtain ⟨keep, hth, -⟩ := h.kept
  unfold State.thread? at hu ⊢
  rw [hth] at hu
  refine find?_of_filter (fun x y hx hy => ?_) hu
  simp only [Bool.and_eq_true, beq_iff_eq] at hx hy
  rw [hx.1, hy.1]

theorem State.Prunes.hg? {s t : State} (h : s.Prunes t) {a b d : Nat} {g : HomeGroup} (hg : t.hg? a b d = some g) : s.hg? a b d = some g := by
  obtain ⟨keep, -, hgr⟩ := h.kept
  unfold State.hg? at hg ⊢
  rw [hgr] at hg
  refine find?_of_filter (fun x y hx hy => ?_) hg
  simp only [Bool.and_eq_true, beq_iff_eq] at hx hy
  rw [hx.1.1, hy.1.1]

/-- A home group that is found after calm steps was there before. -/
theorem State.Calm.of_hg? {s t : State} (h : s.Calm t) {a b d : Nat} {g : HomeGroup} (hg : t.hg? a b d = some g) :
    ∃ g₀ r, s.hg? a b d = some g₀ ∧ g = { g₀ with retired := r } := by
  cases hs : s.hg? a b d with
  | some g₀ =>
    obtain ⟨r, hr⟩ := h.hg? hs
    exact ⟨g₀, r, rfl, Option.some.inj (hg.symm.trans hr)⟩
  | none =>
    obtain ⟨f, ef, hf⟩ := h.groups
    unfold State.hg? at hs hg
    rw [ef, find?_map_key _ f _ (fun y => by obtain ⟨r, e, -⟩ := hf y; rw [e]), hs] at hg
    cases hg

theorem calm_retireGroups (s : State) : s.Calm s.flushSamples.retireGroups :=
  (State.Calm.flushSamples s).trans (State.Calm.retireGroups _)

theorem settle_main (s : State) : s.settle.main = s.main :=
  (retireTeams_prunes _).main.trans (by rw [(calm_retireGroups s).state])

theorem settle_dsm (s : State) : s.settle.dsm = s.dsm :=
  (retireTeams_prunes _).dsm.trans (by rw [(calm_retireGroups s).state])

/-- A thread that is still there after settling is as it was. -/
theorem thread?_of_settle {s : State} {a b : Nat} {u : Thread} (h : s.settle.thread? a b = some u) : s.thread? a b = some u :=
  ((calm_retireGroups s).thread? a b).symm.trans ((retireTeams_prunes _).thread? h)

/-- A home group that is still there after settling is as it was, but that it may have retired. -/
theorem hg?_of_settle {s : State} {a b d : Nat} {g : HomeGroup} (h : s.settle.hg? a b d = some g) :
    ∃ g₀ r, s.hg? a b d = some g₀ ∧ g = { g₀ with retired := r } := (calm_retireGroups s).of_hg? ((retireTeams_prunes _).hg? h)

end Sys2Proof.Machine
end

section
/-! EXIT (R139): the participants exit one after another (`Exiting.step`), the other members fall through, and what has nothing
left retires. The last part of `Obligations.ControlCompletes`. -/

namespace Sys2Proof.Machine

/-! ### One thread that exits -/

theorem thread?_exited (s : State) (w : Thread) (a b : Nat) :
    (s.exited w).thread? a b = (s.thread? a b).map (fun u => if a = w.team ∧ b = w.tid then u.exit else u) :=
  thread?_modThread (s.unseat w.team [w.tid]) w.team w.tid Thread.exit (fun _ => ⟨rfl, rfl⟩) a b

theorem hg?_exited (s : State) (w : Thread) (a b d : Nat) : (s.exited w).hg? a b d =
    (s.hg? a b d).map (fun g => if a = w.team ∧ b = w.role ∧ d = w.hg then g.reached w.hidx else g) := by
  unfold State.exited
  rw [hg?_modHg _ _ _ _ _ keeps_freeSync, hg?_modHg _ _ _ _ _ keeps_freeRejoin, hg?_modHg _ _ _ _ _ (keeps_arrive w.hidx), Option.map_map, Option.map_map,
    show State.hg? _ a b d = s.hg? a b d from rfl]
  congr 1
  funext g
  simp only [Function.comp]
  by_cases hk : a = w.team ∧ b = w.role ∧ d = w.hg
  · simp only [if_pos hk]; rfl
  · simp only [if_neg hk]

/-- A core whose ports and waiting groups some threads have left. -/
def Core.unseat (c : Core) (team : Nat) (tids : List Nat) : Core := { c with
  port0 := c.port0.without team tids, port1 := c.port1.without team tids, waiting := c.waiting.filterMap (fun g => g.without team tids) }

theorem core?_unseat (s : State) (team : Nat) (tids : List Nat) (k : Nat) :
    (s.unseat team tids).core? k = (s.core? k).map (fun c => c.unseat team tids) :=
  find?_map_key (fun c : Core => c.id == k) (fun c => c.unseat team tids) s.cores (fun _ => rfl)

/-- A thread that leaves its port leaves its group (R27). -/
theorem groupAt_exited (s : State) (w : Thread) (k p : Nat) :
    (s.exited w).groupAt k p = (s.groupAt k p).bind (fun g => g.without w.team [w.tid]) := by
  have hport : ∀ q : Port, (q.without w.team [w.tid]).group = q.group.bind (fun g => g.without w.team [w.tid]) := fun q => by
    unfold Port.without
    cases hq : q.group with
    | none => exact hq
    | some g =>
      dsimp only [Option.bind_some]
      split
      next hn => exact hn.symm
      next g' hg' => exact hg'.symm
  show State.groupAt (s.unseat w.team [w.tid]) k p = _
  unfold State.groupAt
  rw [core?_unseat]
  cases s.core? k with
  | none => rfl
  | some c =>
    simp only [Option.map_some, Option.bind_some, Core.port]
    split <;> exact hport _

section
variable {s : State} {team tid : Nat} {w : Thread} (hw : s.thread? team tid = some w) (hx : w.hasExited = false)
include hw hx

theorem groupAt_exitThread (k p : Nat) : (s.exitThread team tid).groupAt k p = (s.groupAt k p).bind (fun g => g.without team [tid]) := by
  obtain ⟨rfl, rfl⟩ := thread?_key hw
  rw [(exitThread_releases hw hx).groupAt, groupAt_exited]

/-- The home group of the thread that exits has one arrival more at each of its records. -/
theorem hg?_exitThread (a b d : Nat) : (s.exitThread team tid).hg? a b d =
    (s.hg? a b d).map (fun g => if a = team ∧ b = w.role ∧ d = w.hg then g.reached w.hidx else g) := by
  obtain ⟨rfl, rfl⟩ := thread?_key hw
  rw [(exitThread_releases hw hx).hg?, hg?_exited]

theorem thread?_exitThread_same : ∃ u', (s.exitThread team tid).thread? team tid = some u' ∧ u'.status = .exited ∧ u'.pend = [] := by
  obtain ⟨rfl, rfl⟩ := thread?_key hw
  have hself : (s.exited w).thread? w.team w.tid = some w.exit := by
    rw [thread?_exited, hw, Option.map_some, if_pos ⟨rfl, rfl⟩]
  obtain ⟨u', hu', hrel⟩ := (exitThread_releases hw hx).thread? hself
  obtain ⟨hst, -, hpend, -⟩ := hrel.stays fun k hk => nomatch hk
  exact ⟨u', hu', hst, hpend⟩

theorem thread?_exitThread_other {a b : Nat} {u : Thread} (hne : ¬(a = team ∧ b = tid)) (hu : s.thread? a b = some u) :
    ∃ u', (s.exitThread team tid).thread? a b = some u' ∧ u.Released (w.watchOp ≠ none) team u' := by
  obtain ⟨rfl, rfl⟩ := thread?_key hw
  refine (exitThread_releases hw hx).thread? ?_
  rw [thread?_exited, hu, Option.map_some, if_neg hne]

end

/-- The members that are left of a group of the thread's team. -/
theorem Group.without_some {g g' : Group} {tid : Nat} (h : g.without g.team [tid] = some g') :
    g'.team = g.team ∧ ∀ i, i ∈ g'.members ↔ i ∈ g.members ∧ i ≠ tid := by
  unfold Group.without at h
  rw [if_pos (beq_self_eq_true _)] at h
  dsimp only at h
  split at h
  · cases h
  · cases h
    exact ⟨rfl, fun i => by simp⟩

theorem Group.without_stays {g : Group} {tid i : Nat} (hi : i ∈ g.members) (hne : i ≠ tid) :
    ∃ g', g.without g.team [tid] = some g' ∧ i ∈ g'.members := by
  have hm : i ∈ g.members.filter (fun t => !([tid].contains t)) := by simp [hi, hne]
  unfold Group.without
  rw [if_pos (beq_self_eq_true _)]
  dsimp only
  rw [if_neg (by rw [List.isEmpty_iff]; exact List.ne_nil_of_mem hm)]
  exact ⟨_, rfl, hm⟩

/-! ### The participants exit in turn -/

/-- No participant holds a lane in a watchpoint's handler. -/
def Ctx.unheld (c : Ctx) (h : Head) (s : State) : Prop := ∀ p ∈ c.parts h, ∀ u, s.thread? p.team p.tid = some u → u.watchOp = none

/-- A member that has not exited yet: it stands in its group, and its registers, its clause and its name are as before. -/
structure Thread.Waits (p u u' : Thread) : Prop where
  status : u'.status = .inGroup
  clause : u'.clause = u.clause
  regs : u'.v = u.v ∧ u'.p = u.p
  watch : u'.watchOp = u.watchOp
  home : u'.role = p.role ∧ u'.hg = p.hg ∧ u'.hidx = p.hidx

theorem Thread.Waits.released {p u u' v : Thread} {held : Prop} {team : Nat} (w : Thread.Waits p u u') (r : u'.Released held team v) :
    Thread.Waits p u v := by
  obtain ⟨hst, hcl, -, hwt, hv, hp⟩ := r.stays fun k hk => by rw [w.status] at hk; cases hk
  obtain ⟨h1, h2, h3⟩ := r.home
  obtain ⟨w1, w2, w3⟩ := w.home
  exact ⟨hst.trans w.status, hcl.trans w.clause, ⟨hv.trans w.regs.1, hp.trans w.regs.2⟩, hwt.trans w.watch, h1.trans w1, h2.trans w2, h3.trans w3⟩

/-- The state once the participants `done` have exited, of those that the group issued EXIT with in `s`. -/
structure Exiting (s : State) (c : Ctx) (h : Head) (done : List Thread) (x : State) : Prop where
  main : x.main = s.main
  dsm : x.dsm = s.dsm
  gone : ∀ g, x.groupAt c.core c.port = some g → g.team = c.grp.team ∧ ∀ q ∈ done, q.tid ∉ g.members
  stay : ∀ i ∈ c.grp.members, (∀ q ∈ done, i ≠ q.tid) → ∃ g, x.groupAt c.core c.port = some g ∧ i ∈ g.members
  exited : ∀ q ∈ done, ∃ u', x.thread? q.team q.tid = some u' ∧ u'.status = .exited ∧ u'.pend = []
  member : ∀ p ∈ c.ths, (∀ q ∈ done, p.tid ≠ q.tid) → ∀ u, s.thread? p.team p.tid = some u →
    ∃ u', x.thread? p.team p.tid = some u' ∧ Thread.Waits p u u'
  frame : c.unheld h s → ∀ a b u, (∀ q ∈ done, ¬(q.team = a ∧ q.tid = b)) → s.thread? a b = some u →
    ∃ u', x.thread? a b = some u' ∧ u'.v = u.v ∧ u'.p = u.p ∧ (a ≠ c.grp.team → u' = u)
  records : ∀ idx g, s.hg? c.grp.team c.grp.role idx = some g →
    ∃ g', x.hg? c.grp.team c.grp.role idx = some g' ∧ g.After g' (fun j => ∃ q ∈ done, q.hg = idx ∧ q.hidx = j)

namespace Exiting
variable {s x : State} {c : Ctx} {h : Head} {done : List Thread}

/-- The last instruction of a clause has executed, and nobody has exited yet. -/
theorem start (hs : Seated s c) (hn : c.named s) (hr : ∀ g ∈ s.groups, ∀ r ∈ g.rejoin, r.complete = false)
    (hm : ∀ g ∈ s.groups, g.syncM ≠ 0#64 → g.syncM &&& ~~~g.syncA ≠ 0#64) : Exiting s c h [] (s.tickLast c) := by
  refine ⟨rfl, rfl, fun g hg => ?_, fun i hi _ => ⟨c.grp, hs.groupAt, hi⟩, (fun _ hq => nomatch hq), fun p hp _ u hu => ?_, fun _ a b u _ hu => ?_,
    fun idx g hg => ⟨g, hg, ?_⟩⟩
  · rw [Option.some.inj (hg.symm.trans hs.groupAt)]
    exact ⟨rfl, fun _ hq => nomatch hq⟩
  · obtain ⟨u₀, hu₀, -, hst⟩ := hs.reg p hp
    obtain rfl := Option.some.inj (hu₀.symm.trans hu)
    refine ⟨u₀.ticked c, by rw [thread?_tickLast, hu, Option.map_some, if_pos (ths_key hs.ctx hp)], ?_⟩
    rw [u₀.ticked_only c]
    exact ⟨hst, rfl, ⟨rfl, rfl⟩, rfl, (hn p hp).2.2 u₀ hu⟩
  · refine ⟨_, by rw [thread?_tickLast, hu, Option.map_some], ?_⟩
    split
    next hk =>
      rw [u.ticked_only c]
      exact ⟨rfl, rfl, fun hne => absurd hk.1 hne⟩
    next => exact ⟨rfl, rfl, fun _ => rfl⟩
  · have hmem : g ∈ s.groups := List.mem_of_find?_eq_some hg
    have hnew : (fun j => ∃ q ∈ ([] : List Thread), q.hg = idx ∧ q.hidx = j) = fun _ => False := by simp
    rw [hnew]
    refine .none (hr g hmem) ?_
    have := hm g hmem
    simp only [Rejoin.complete, HomeGroup.sync, Bool.and_eq_false_iff, bne_eq_false_iff_eq, beq_eq_false_iff_ne]
    exact or_iff_not_imp_left.mpr this

/-- One more participant exits. -/
theorem step (hs : Seated s c) (hn : c.named s) (e : Exiting s c h done x) {q : Thread} (hq : q ∈ c.parts h)
    (hnew : ∀ q' ∈ done, q.tid ≠ q'.tid) : Exiting s c h (done ++ [q]) (x.exitThread q.team q.tid) := by
  obtain ⟨hrole, hidx, -⟩ := hn q (parts_ths hq)
  have hqteam := (ths_key hs.ctx (parts_ths hq)).1
  obtain ⟨u, hu, -, -⟩ := hs.reg q (parts_ths hq)
  obtain ⟨w, hw, hwait⟩ := e.member q (parts_ths hq) hnew u hu
  obtain ⟨hwrole, hwhg, hwhidx⟩ := hwait.home
  have hx : w.hasExited = false := by simp [Thread.hasExited, hwait.status]
  have rel := exitThread_releases hw hx
  have hlast : q ∈ done ++ [q] := List.mem_append_right _ List.mem_cons_self
  refine ⟨rel.main.trans e.main, rel.dsm.trans e.dsm, fun g hg => ?_, fun i hi hne => ?_, fun q' hq' => ?_, fun p hp hne u' hu' => ?_,
    fun hfree a b u' hne hu' => ?_, fun idx g hg => ?_⟩
  · rw [groupAt_exitThread hw hx] at hg
    obtain ⟨g₀, hg₀, hw₀⟩ := Option.bind_eq_some_iff.mp hg
    obtain ⟨hteam, hgone⟩ := e.gone g₀ hg₀
    rw [hqteam, ← hteam] at hw₀
    obtain ⟨ht, hmem⟩ := Group.without_some hw₀
    refine ⟨ht.trans hteam, fun q' hq' hm => ?_⟩
    rcases List.mem_append.mp hq' with hd | hd
    · exact hgone q' hd ((hmem _).mp hm).1
    · exact ((hmem _).mp hm).2 (by rw [List.mem_singleton.mp hd])
  · obtain ⟨g₀, hg₀, hi₀⟩ := e.stay i hi fun q' hq' => hne q' (List.mem_append_left _ hq')
    obtain ⟨g', hg', hi'⟩ := Group.without_stays hi₀ (hne q hlast)
    rw [(e.gone g₀ hg₀).1, ← hqteam] at hg'
    exact ⟨g', by rw [groupAt_exitThread hw hx, hg₀]; exact hg', hi'⟩
  · rcases List.mem_append.mp hq' with hd | hd
    · obtain ⟨v, hv, hst, hpend⟩ := e.exited q' hd
      obtain ⟨v', hv', hrel⟩ := thread?_exitThread_other hw hx (fun hk => hnew q' hd hk.2.symm) hv
      obtain ⟨hs', -, hp', -⟩ := hrel.stays fun k hk => by rw [hst] at hk; cases hk
      exact ⟨v', hv', hs'.trans hst, hp'.trans hpend⟩
    · rw [List.mem_singleton.mp hd]
      exact thread?_exitThread_same hw hx
  · obtain ⟨v, hv, hwv⟩ := e.member p hp (fun q' hq' => hne q' (List.mem_append_left _ hq')) u' hu'
    obtain ⟨v', hv', hrel⟩ := thread?_exitThread_other hw hx (fun hk => hne q hlast hk.2) hv
    exact ⟨v', hv', hwv.released hrel⟩
  · obtain ⟨v, hv, h1, h2, h3⟩ := e.frame hfree a b u' (fun q' hq' => hne q' (List.mem_append_left _ hq')) hu'
    obtain ⟨v', hv', hrel⟩ := thread?_exitThread_other hw hx (fun hk => hne q hlast ⟨hk.1.symm, hk.2.symm⟩) hv
    have hnh : ¬(w.watchOp ≠ none) := not_not.mpr (hwait.watch.trans (hfree q hq u hu))
    refine ⟨v', hv', (hrel.regs hnh).1.trans h1, (hrel.regs hnh).2.trans h2, fun hteam => (hrel.far hnh ?_).trans (h3 hteam)⟩
    rw [(thread?_key hv).1, hqteam]
    exact hteam
  · obtain ⟨g', hg', hafter⟩ := e.records idx g hg
    refine ⟨_, by rw [hg?_exitThread hw hx, hg', Option.map_some], ?_⟩
    rw [hqteam, hwrole, hrole, hwhg, hwhidx]
    by_cases hi : idx = q.hg
    · subst hi
      rw [if_pos ⟨rfl, rfl, rfl⟩]
      convert hafter.reached hidx using 2
      simp [or_and_right, exists_or, eq_comm]
    · rw [if_neg fun hk => hi hk.2.2]
      convert hafter using 2
      simp [or_and_right, exists_or, Ne.symm hi]

/-- All participants exit. -/
theorem all (hs : Seated s c) (hn : c.named s) (rest : List Thread) (hparts : c.parts h = done ++ rest) (e : Exiting s c h done x) :
    Exiting s c h (c.parts h) (rest.foldl (fun s t => s.exitThread t.team t.tid) x) := by
  induction rest generalizing done x with
  | nil => rw [hparts, List.append_nil]; exact e
  | cons q r ih =>
    have hq : q ∈ c.parts h := hparts ▸ List.mem_append_right _ List.mem_cons_self
    have hdone : ∀ q' ∈ done, q' ∈ c.parts h := fun q' hd => hparts ▸ List.mem_append_left _ hd
    refine ih (by rw [hparts, List.append_assoc]; rfl) (e.step hs hn hq fun q' hd he => ?_)
    have hnd := hs.parts_nodup h
    rw [hparts, List.map_append] at hnd
    refine List.disjoint_of_nodup_append hnd (List.mem_map.mpr ⟨q', hd, rfl⟩) (List.mem_map.mpr ⟨q, List.mem_cons_self, ?_⟩)
    rw [he, (ths_key hs.ctx (parts_ths hq)).1, (ths_key hs.ctx (parts_ths (hdone q' hd))).1]

end Exiting

/-! ### The others leave, and what has nothing left retires -/

/-- A thread after the members that are left have fallen through. -/
theorem thread?_leaveRest_cases {x : State} {c : Ctx} {a b : Nat} {u' : Thread} (h : (x.leaveRest c).thread? a b = some u') :
    ∃ u, x.thread? a b = some u ∧
      ((∃ g, x.groupAt c.core c.port = some g ∧ a = g.team ∧ b ∈ g.members) ∧ u' = u.fallThrough x.clk ∨
        (∀ g, x.groupAt c.core c.port = some g → ¬(a = g.team ∧ b ∈ g.members)) ∧ u' = u) := by
  cases hg : x.groupAt c.core c.port with
  | none =>
    rw [leaveRest_none hg] at h
    exact ⟨u', h, .inr ⟨(fun _ hn => nomatch hn), rfl⟩⟩
  | some g =>
    rw [thread?_leaveRest hg] at h
    obtain ⟨u, hu, hif⟩ := Option.map_eq_some_iff.mp h
    refine ⟨u, hu, ?_⟩
    split at hif
    next hk => exact .inl ⟨⟨g, rfl, hk⟩, hif.symm⟩
    next hk => exact .inr ⟨fun g' hg' => by cases hg'; exact hk, hif.symm⟩

theorem hg?_leaveRest (x : State) (c : Ctx) (a b d : Nat) : (x.leaveRest c).hg? a b d = x.hg? a b d := by
  cases hg : x.groupAt c.core c.port with
  | none => rw [leaveRest_none hg]
  | some g => rw [leaveRest_group hg]; rfl

theorem leaveRest_memory (x : State) (c : Ctx) : (x.leaveRest c).main = x.main ∧ (x.leaveRest c).dsm = x.dsm := by
  cases hg : x.groupAt c.core c.port with
  | none => rw [leaveRest_none hg]; exact ⟨rfl, rfl⟩
  | some g => rw [leaveRest_group hg]; exact ⟨rfl, rfl⟩

theorem exit_completes {s : State} {c : Ctx} {h : Head} (hs : Seated s c) (hn : c.named s)
    (hr : ∀ g ∈ s.groups, ∀ r ∈ g.rejoin, r.complete = false) (hm : ∀ g ∈ s.groups, g.syncM ≠ 0#64 → g.syncM &&& ~~~g.syncA ≠ 0#64) :
    ∃ t, exec (.exit h) s = .next t ∧ t.main = s.main ∧ t.dsm = s.dsm ∧
      (∀ p ∈ c.parts h, ∀ u', t.thread? p.team p.tid = some u' → u'.hasExited = true ∧ u'.pend = []) ∧
      (∀ p ∈ c.ths, ¬c.takesPart h p.team p.tid → ∀ u u', s.thread? p.team p.tid = some u → t.thread? p.team p.tid = some u' →
        u'.v = u.v ∧ u'.p = u.p ∧ u'.status = .ready ∧ ∀ k, u.clause = some k → u'.clause = none ∧ u'.pc = k.next) ∧
      (c.unheld h s → ∀ team tid u u', ¬c.takesPart h team tid → s.thread? team tid = some u → t.thread? team tid = some u' →
          u'.v = u.v ∧ u'.p = u.p ∧ (team ≠ c.grp.team → u' = u)) ∧
      (∀ idx g g', s.hg? c.grp.team c.grp.role idx = some g → t.hg? c.grp.team c.grp.role idx = some g' →
        g.After g' (fun j => ∃ q ∈ c.parts h, q.hg = idx ∧ q.hidx = j)) := by
  set x := (c.parts h).foldl (fun s t => s.exitThread t.team t.tid) (s.tickLast c)
  have e : Exiting s c h (c.parts h) x := Exiting.all hs hn (c.parts h) rfl (.start hs hn hr hm)
  obtain ⟨hmain, hdsm⟩ := leaveRest_memory x c
  refine ⟨(x.leaveRest c).settle, run_spec hs.ctx (ops := []) (fun _ ho => nomatch ho) _, (settle_main _).trans (hmain.trans e.main),
    (settle_dsm _).trans (hdsm.trans e.dsm), fun p hp u' hu' => ?_, fun p hp hno u u' hu hu' => ?_, fun hfree a b u u' hno hu hu' => ?_,
    fun idx g g' hg hg' => ?_⟩
  · obtain ⟨u, hu, hcase⟩ := thread?_leaveRest_cases (thread?_of_settle hu')
    obtain ⟨v, hv, hst, hpend⟩ := e.exited p hp
    obtain rfl := Option.some.inj (hv.symm.trans hu)
    rcases hcase with ⟨⟨g, hg, -, hmem⟩, -⟩ | ⟨-, rfl⟩
    · exact absurd hmem ((e.gone g hg).2 p hp)
    · exact ⟨by simp [Thread.hasExited, hst], hpend⟩
  · have hne : ∀ q ∈ c.parts h, p.tid ≠ q.tid := fun q hq he =>
      hno ((takesPart_iff hs hp).mpr (List.mem_map.mpr ⟨q, hq, he.symm⟩))
    obtain ⟨w, hw, hcase⟩ := thread?_leaveRest_cases (thread?_of_settle hu')
    obtain ⟨v, hv, hwait⟩ := e.member p hp hne u hu
    obtain rfl := Option.some.inj (hv.symm.trans hw)
    obtain ⟨hteam, hmem⟩ := ths_key hs.ctx hp
    obtain ⟨g, hg, hi⟩ := e.stay p.tid hmem hne
    rcases hcase with ⟨-, rfl⟩ | ⟨hout, -⟩
    · obtain ⟨hready, hnext⟩ := v.fallThrough_leaves x.clk
      refine ⟨?_, ?_, hready, fun k hk => hnext k (hwait.clause.trans hk)⟩
      · rw [v.fallThrough_only]; exact hwait.regs.1
      · rw [v.fallThrough_only]; exact hwait.regs.2
    · exact absurd ⟨hteam.trans (e.gone g hg).1.symm, hi⟩ (hout g hg)
  · obtain ⟨w, hw, hcase⟩ := thread?_leaveRest_cases (thread?_of_settle hu')
    obtain ⟨v, hv, h1, h2, h3⟩ := e.frame hfree a b u (fun q hq hk => hno ⟨q, hq, hk⟩) hu
    obtain rfl := Option.some.inj (hv.symm.trans hw)
    rcases hcase with ⟨⟨g, hg, ht, -⟩, rfl⟩ | ⟨-, rfl⟩
    · rw [v.fallThrough_only]
      exact ⟨h1, h2, fun hne => absurd (ht.trans (e.gone g hg).1) hne⟩
    · exact ⟨h1, h2, h3⟩
  · obtain ⟨g₀, r, hg₀, rfl⟩ := hg?_of_settle hg'
    rw [hg?_leaveRest] at hg₀
    obtain ⟨g₁, hg₁, hafter⟩ := e.records idx g hg
    obtain rfl := Option.some.inj (hg₀.symm.trans hg₁)
    exact ⟨hafter.rejoin, hafter.sync⟩

/-- Settles O36: EXIT by the participants' exits in turn, YIELD by where its group leaves the port, ELECT, GSIZE and NOP by the
rules for results written and for moving on. -/
theorem controlCompletes : Obligations.ControlCompletes := by
  unfold Obligations.ControlCompletes
  refine ⟨fun s c h hs _ hn hr hm => ?_, fun s c h hs _ => yield_completes hs, fun s c h pd d hs hw hf => elect_completes hs hw hf,
    fun s c h code hs _ hp hl => gsize_sets hs hp hl, fun s c h hs _ => nop_completes hs⟩
  obtain ⟨t, hex, hmain, hdsm, hout, hrest, hframe, hafter⟩ := exit_completes (h := h) hs hn hr hm
  exact ⟨t, hex, hmain, hdsm, hout, hrest, hframe, fun idx g g' hg hg' =>
    ⟨(hafter idx g g' hg hg').rejoin, fun _ => (hafter idx g g' hg hg').sync⟩⟩

end Sys2Proof.Machine
end

section
/-! What the statements about register-writing instructions share: destinations, the size of a source, and the results of one
word, of one value of a type and of its elements. -/

namespace Sys2Proof.Machine

/-! ### Destinations and sources -/

/-- An S destination of one or two words ends within the row and is uniform (R77, R81). -/
theorem Operand.isDst_s {d : Operand} {u : Bool} {w : Nat} (hd : d.isDst u w = true) (hw : w = 1 ∨ w = 2) (n : Fin 64)
    (e : d = .s n) : n.val + w ≤ 64 ∧ u = true := by
  subst e
  simp only [Operand.isDst, Bool.and_eq_true, beq_iff_eq] at hd
  obtain ⟨hu, hm⟩ := hd
  exact ⟨by rcases hw with rfl | rfl <;> omega, hu⟩

theorem Ty.words_cases (ty : Ty) : Ty.words ty = 1 ∨ Ty.words ty = 2 := by cases ty <;> decide

theorem Ty.words_of_not64 {ty : Ty} (h : ty.is64 = false) : Ty.words ty = 1 := by simp [Ty.words, h]

theorem Ty.words_of_64 {ty : Ty} (h : ty.is64 = true) : Ty.words ty = 2 := by simp [Ty.words, h]

theorem splat_lt (w n x : Nat) : splat w n x < 2 ^ (w * n) := by
  simpa [splat] using packElems_lt w (List.replicate n x)

theorem Ty.format_width {ty : Ty} {f : Format} (h : Ty.format? ty = some f) : f.width = ty.width := by
  cases ty <;> cases h <;> rfl

/-- A source of a type fits into the words of the type (R78 to R80). -/
theorem Ctx.src_lt (c : Ctx) (t : Thread) (ty : Ty) (o : Operand) : c.src t ty o < 2 ^ (32 * Ty.words ty) := by
  have hword : ∀ x : Word, x.toNat < 2 ^ (32 * Ty.words ty) := fun x =>
    lt_of_lt_of_le x.isLt (Nat.pow_le_pow_right (by decide) (by rcases Ty.words_cases ty with h | h <;> omega))
  have hpair : ∀ x y : Word, (if ty.is64 then x.toNat + 2 ^ 32 * y.toNat else x.toNat) < 2 ^ (32 * Ty.words ty) := fun x y => by
    split
    next h => rw [Ty.words_of_64 h]; omega
    next => exact hword x
  cases o with
  | v n => exact hpair _ _
  | s n => exact hpair _ _
  | special x => exact hword _
  | int k =>
    rw [← (Ty.width_count ty).1]
    simp only [Ctx.src, intConstBits]
    split
    next f hf => rw [Ty.format_width hf]; exact splat_lt _ _ _
    next => exact splat_lt _ _ _
  | flt k =>
    simp only [Ctx.src, fltConstBits]
    split
    next f hf => rw [Ty.format_width hf, ← (Ty.width_count ty).1]; exact splat_lt _ _ _
    next =>
      have hk : fltConst k.val < 2 ^ 32 := by unfold fltConst; split <;> decide
      exact lt_of_lt_of_le hk (Nat.pow_le_pow_right (by decide) (by rcases Ty.words_cases ty with h | h <;> omega))
  | none => positivity

theorem Ctx.src_lt32 (c : Ctx) (t : Thread) {ty : Ty} (o : Operand) (h : ty.is64 = false) : c.src t ty o < 2 ^ 32 := by
  simpa [Ty.words_of_not64 h] using c.src_lt t ty o

@[simp] theorem Ctx.val_toNat (c : Ctx) (t : Thread) (o : Operand) : (c.val t o).toNat = c.src t .i32 o := by
  rw [Ctx.val, BitVec.toNat_ofNat, Nat.mod_eq_of_lt (c.src_lt32 t o rfl)]

/-- The only element of an unpacked value is the value. -/
theorem elemOf_whole {ty : Ty} {x : Nat} (h : ty.count = 1) (hx : x < 2 ^ (32 * Ty.words ty)) : elemOf ty x 0 = x := by
  have hw := (Ty.width_count ty).1
  rw [h, Nat.mul_one] at hw
  rw [elemOf, Nat.mul_zero, pow_zero, Nat.div_one, hw, Nat.mod_eq_of_lt hx]

theorem elemOf_lt (ty : Ty) (x i : Nat) : elemOf ty x i < 2 ^ ty.width := Nat.mod_lt _ (by positivity)

/-! ### Results -/

theorem word_isWord (n : Nat) : (VecEff.word n).isWord (BitVec.ofNat 32 n) := ⟨rfl, rfl⟩

/-- A value made element by element has those elements (R47). -/
theorem elem_mapElems (ty : Ty) (f : Nat → Nat) {i : Nat} (hi : i < ty.count) :
    (VecEff.ofTy ty (mapElems ty f)).elem ty i = f i % 2 ^ ty.width := by
  rw [VecEff.elem, wordsNat_ofTy _ _ (mapElems_lt ty f), elemOf_mapElems ty f i hi]

theorem elemResult_mapElems (ty : Ty) {f g : Nat → Nat} (h : ∀ i, i < ty.count → f i = g i) (hg : ∀ i, i < ty.count → g i < 2 ^ ty.width) :
    ElemResult ty g (VecEff.ofTy ty (mapElems ty f)) :=
  ⟨ofTy_shape ty _, fun i hi => by rw [elem_mapElems ty f hi, h i hi, Nat.mod_eq_of_lt (hg i hi)]⟩

/-- What every instruction of the form `vec` does that writes a destination and no predicate (R97 to R99). -/
theorem vec_writes {s : State} {c : Ctx} {h : Head} {ops : List (Operand × Nat)} {d : Operand} {w : Nat} {f : Ctx → Thread → VecEff}
    {i : Instr} {P : Thread → VecEff → Prop} (hs : Seated s c) (hi : exec i s = vec s h ((d, w) :: ops) d f) (hf : c.fits ((d, w) :: ops))
    (hd : d.isDst h.u w = true) (hw : w = 1 ∨ w = 2)
    (hP : ∀ p ∈ c.parts h, P p (f c p) ∧ (f c p).words.length = w ∧ (f c p).preds = []) : Completes i s c h d w [] P := by
  refine vec_completes w [] hs hi hf (fun _ _ => List.mem_cons_self) (Operand.isDst_s hd hw) (fun p hp => ?_) (fun p hp => ?_)
  all_goals obtain ⟨hPp, hlen, hpreds⟩ := hP p hp
  · exact ⟨hPp, hlen.le, fun q hq => by rw [hpreds] at hq; cases hq⟩
  · rw [hpreds]; exact List.nodup_nil

/-- An instruction that writes one value of a type to each participant. -/
theorem vec_writes_ofTy {s : State} {c : Ctx} {h : Head} {ops : List (Operand × Nat)} {d : Operand} {ty : Ty} {f : Ctx → Thread → Nat}
    {i : Instr} {P : Thread → VecEff → Prop} (hs : Seated s c)
    (hi : exec i s = vec s h ((d, Ty.words ty) :: ops) d (fun c t => .ofTy ty (f c t))) (hf : c.fits ((d, Ty.words ty) :: ops))
    (hd : d.isDst h.u (Ty.words ty) = true) (hP : ∀ p ∈ c.parts h, P p (.ofTy ty (f c p))) : Completes i s c h d (Ty.words ty) [] P :=
  vec_writes hs hi hf hd (Ty.words_cases ty) fun p hp => ⟨hP p hp, ofTy_shape ty _⟩

/-- An instruction that writes one word to each participant. -/
theorem vec_writes_word {s : State} {c : Ctx} {h : Head} {ops : List (Operand × Nat)} {d : Operand} {f : Ctx → Thread → Nat}
    {i : Instr} {P : Thread → VecEff → Prop} (hs : Seated s c)
    (hi : exec i s = vec s h ((d, 1) :: ops) d (fun c t => .word (f c t))) (hf : c.fits ((d, 1) :: ops))
    (hd : d.isDst h.u 1 = true) (hP : ∀ p ∈ c.parts h, P p (.word (f c p))) : Completes i s c h d 1 [] P :=
  vec_writes hs hi hf hd (.inl rfl) fun p hp => ⟨hP p hp, rfl, rfl⟩

end Sys2Proof.Machine
end

section
/-! Proof of `Obligations.IntegerArithmeticResults`: the elements of `intElems` (`intElems_result`), the two-source instructions
and their VL forms by it, and IADDC as an addition of natural numbers. -/

namespace Sys2Proof.Machine

theorem signMods_signed (neg abs : Bool) (x : Int) : signMods neg abs x = signed neg abs x := by
  cases neg <;> cases abs <;> simp [signMods, signed]

/-- Integer instructions give the exact result, fitted to the type, in every element (R101). -/
theorem intElems_result (m : IntMods) (op : Int → Int → Int → Int) (a b c : Nat) :
    IntResult m.ty m.sat (fun i => op (signed m.na m.aa (Ty.toInt m.ty (elemOf m.ty a i)))
      (signed m.nb m.ab (Ty.toInt m.ty (elemOf m.ty b i))) (Ty.toInt m.ty (elemOf m.ty c i))) (.ofTy m.ty (intElems m op a b c)) := by
  refine ⟨ofTy_shape _ _, fun i hi => ?_⟩
  simp only [intElems, elem_mapElems m.ty _ hi, signMods_signed]
  obtain ⟨hlt, hfit⟩ := fitInt_spec m.ty m.sat (op (signed m.na m.aa (Ty.toInt m.ty (elemOf m.ty a i)))
    (signed m.nb m.ab (Ty.toInt m.ty (elemOf m.ty b i))) (Ty.toInt m.ty (elemOf m.ty c i)))
  rw [Nat.mod_eq_of_lt hlt]
  exact hfit

theorem intTwo_of (f : Head → IntMods → Operand → Operand → Operand → Instr) {op : Int → Int → Int}
    (hex : ∀ h m d a b s, exec (f h m d a b) s = int2 (fun x y _ => op x y) h m d a b s)
    (hwf : ∀ h m d a b, (f h m d a b).wf = true → d.isDst h.u (Ty.words m.ty) = true) : IntTwo f op := by
  intro s c h m d a b hs hw hf
  refine vec_writes_ofTy hs (hex h m d a b s) hf (hwf h m d a b hw) fun p _ =>
    intElems_result m (fun x y _ => op x y) (c.src p m.ty a) (c.src p m.ty b) 0

theorem Ty.toInt_signed {ty : Ty} (h : ty.isSigned = true) (x : Nat) :
    Ty.toInt ty x = if 2 ^ (ty.width - 1) ≤ x then (x : Int) - 2 ^ ty.width else x := by simp [Ty.toInt, h]

/-- A signed element of the width of a word or a pair is the integer of its bit vector (R46). -/
theorem toInt_i32 (x : Word) : Ty.toInt .i32 x.toNat = x.toInt := by
  rw [Ty.toInt_signed rfl, BitVec.toInt_eq_toNat_cond]
  simp only [Ty.width]
  omega
theorem toInt_i64 (x : DWord) : Ty.toInt .i64 x.toNat = x.toInt := by
  rw [Ty.toInt_signed rfl, BitVec.toInt_eq_toNat_cond]
  simp only [Ty.width]
  omega

/-- The literal of a VL form as an integer: sign-extended for a pair (R85). -/
theorem toInt_literal {ty : Ty} (hty : ty = .i32 ∨ ty = .i64) (lit : Word) :
    Ty.toInt ty (elemOf ty (if ty.is64 then (lit.signExtend 64).toNat else lit.toNat) 0) = lit.toInt := by
  rcases hty with rfl | rfl
  · simp only [Ty.is64, Bool.false_eq_true, if_false, elemOf_whole (ty := .i32) rfl lit.isLt, toInt_i32]
  · simp only [Ty.is64, if_true, elemOf_whole (ty := .i64) rfl (lit.signExtend 64).isLt, toInt_i64]
    exact BitVec.toInt_signExtend_of_le (by decide)

theorem intTwoVl_of (f : Head → Operand → Operand → Word → Instr) {ty : Ty} {op : Int → Int → Int} (hty : ty = .i32 ∨ ty = .i64)
    (hex : ∀ h d a lit s, exec (f h d a lit) s = int2Vl (fun x y _ => op x y) ty h d a lit s)
    (hwf : ∀ h d a lit, (f h d a lit).wf = true → d.isDst h.u (Ty.words ty) = true) : IntTwoVl f ty op := by
  intro s c h d a lit hs hw hf
  refine vec_writes_ofTy hs (hex h d a lit s) hf (hwf h d a lit hw) fun p _ => ?_
  have hone : ty.count = 1 := by rcases hty with rfl | rfl <;> rfl
  have hplain : ∀ x, signed false false x = x := fun x => by simp [signed]
  obtain ⟨hshape, hres⟩ := intElems_result (plainInt ty) (fun x y _ => op x y) (c.src p ty a) (if ty.is64 then (lit.signExtend 64).toNat else lit.toNat) 0
  refine ⟨hshape, fun i hi => ?_⟩
  obtain rfl : i = 0 := by omega
  simpa only [plainInt, hplain, toInt_literal hty, Ctx.elemInt, Ctx.elem] using hres 0 (by rw [plainInt, hone]; decide)

theorem Ty.isInt_words {ty : Ty} (h : ty.isInt = true) : Ty.words ty = 1 := by cases ty <;> first | rfl | cases h
theorem Ty.is32_words {ty : Ty} (h : ty.is32 = true) : Ty.words ty = 1 := by cases ty <;> first | rfl | cases h

/-- Destinations of the integer instructions on words. -/
theorem wf2_isDst {h : Head} {d a b : Operand} (hw : wf2 h d a b = true) : d.isDst h.u 1 = true := by
  simp only [wf2, Bool.and_eq_true] at hw; exact hw.1.1.2
theorem wfVl_isDst {h : Head} {d a : Operand} (hw : wfVl h d a = true) : d.isDst h.u 1 = true := by
  simp only [wfVl, Bool.and_eq_true] at hw; exact hw.1.2
theorem IntMods.ok_ty {m : IntMods} {t sat signs : Bool} (h : m.ok t sat signs = true) : t = true := by
  simp only [IntMods.ok, Bool.and_eq_true] at h; exact h.1.1

theorem wf2_isDst_int {h : Head} {m : IntMods} {d a b : Operand} {sat signs : Bool} (hw : (wf2 h d a b && m.ok m.ty.isInt sat signs) = true) :
    d.isDst h.u (Ty.words m.ty) = true := by
  obtain ⟨hw2, hm⟩ := Bool.and_eq_true_iff.mp hw
  rw [Ty.isInt_words (IntMods.ok_ty hm)]
  exact wf2_isDst hw2

theorem wf2_isDst_32 {h : Head} {m : IntMods} {d a b : Operand} {sat signs : Bool} (hw : (wf2 h d a b && m.ok m.ty.is32 sat signs) = true) :
    d.isDst h.u (Ty.words m.ty) = true := by
  obtain ⟨hw2, hm⟩ := Bool.and_eq_true_iff.mp hw
  rw [Ty.is32_words (IntMods.ok_ty hm)]
  exact wf2_isDst hw2

theorem wf_isDst_iadd64 {h : Head} {m : IntMods} {d a b : Operand} (hw : (Instr.iadd64 h m d a b).wf = true) :
    d.isDst h.u (Ty.words m.ty) = true := by
  simp only [Instr.wf, Bool.and_eq_true] at hw
  obtain ⟨⟨⟨⟨-, hm⟩, hd⟩, -⟩, -⟩ := hw
  rw [Ty.words_of_64 (IntMods.ok_ty hm)]
  exact hd

theorem wf_isDst_iadd64Vl {h : Head} {d a : Operand} {lit : Word} (hw : (Instr.iadd64Vl h d a lit).wf = true) : d.isDst h.u 2 = true := by
  simp only [Instr.wf, Bool.and_eq_true] at hw
  exact hw.1.2

theorem imad_completes {s : State} {c : Ctx} {h : Head} {m : IntMods} {d a b x : Operand} (hs : Seated s c)
    (hw : (Instr.imad h m d a b x).wf = true) (hf : c.fits [(d, 1), (a, 1), (b, 1), (x, 1)]) :
    Completes (.imad h m d a b x) s c h d 1 [] (fun p e => IntResult m.ty m.sat (fun i =>
      signed m.na m.aa (c.elemInt p m.ty a i) * signed m.nb m.ab (c.elemInt p m.ty b i) + c.elemInt p m.ty x i) e) := by
  simp only [Instr.wf, Bool.and_eq_true] at hw
  obtain ⟨⟨hw2, -⟩, hm⟩ := hw
  have hty : m.ty.isInt = true := (Bool.and_eq_true_iff.mp (IntMods.ok_ty hm)).1
  refine vec_writes hs rfl hf (wf2_isDst hw2) (.inl rfl) fun p _ => ⟨intElems_result m (fun x y z => x * y + z) _ _ _, ?_, rfl⟩
  exact (ofTy_shape _ _).1.trans (Ty.isInt_words hty)

theorem iabs_completes {s : State} {c : Ctx} {h : Head} {ty : Ty} {sat : Bool} {d a : Operand} (hs : Seated s c)
    (hw : (Instr.iabs h ty sat d a).wf = true) (hf : c.fits [(d, 1), (a, 1)]) :
    Completes (.iabs h ty sat d a) s c h d 1 [] (fun p e => IntResult ty sat (fun i => |c.elemInt p ty a i|) e) := by
  simp only [Instr.wf, Bool.and_eq_true] at hw
  obtain ⟨⟨hw1, hty⟩, -⟩ := hw
  refine vec_writes hs rfl hf (wfVl_isDst hw1) (.inl rfl) fun p _ => ⟨?_, (ofTy_shape _ _).1.trans (Ty.isInt_words hty), rfl⟩
  have hplain : ∀ x, signed false false x = x := fun x => by simp [signed]
  simpa only [plainInt, hplain, Ctx.elemInt, Ctx.elem] using intElems_result { plainInt ty with sat := sat } (fun x _ _ => |x|) (c.src p ty a) 0 0

/-- A 32-bit source reads the same in both signednesses. -/
theorem Ctx.src_n32 (c : Ctx) (t : Thread) (o : Operand) : c.src t .n32 o = c.src t .i32 o := by cases o <;> rfl

theorem iaddc_completes {s : State} {c : Ctx} {h : Head} {pd : Fin 8} {d a b x : Operand} (hs : Seated s c)
    (hw : (Instr.iaddc h pd d a b x).wf = true) (hf : c.fits [(d, 1), (a, 1), (b, 1), (x, 1)]) :
    Completes (.iaddc h pd d a b x) s c h d 1 [pd.val] (fun p e =>
      ∃ w, e = { words := [w], preds := [(pd.val, decide (2 ^ 32 ≤ (c.val p a).toNat + (c.val p b).toNat + (c.val p x).toNat % 2))] } ∧
        w.toNat = ((c.val p a).toNat + (c.val p b).toNat + (c.val p x).toNat % 2) % 2 ^ 32) := by
  simp only [Instr.wf, Bool.and_eq_true] at hw
  refine vec_completes 1 [pd.val] hs rfl hf (fun _ _ => List.mem_cons_self) (Operand.isDst_s (wf2_isDst hw.1) (.inl rfl))
    (fun p _ => ⟨?_, le_refl _, fun q hq => ?_⟩) (fun p _ => List.nodup_singleton _)
  · refine ⟨c.val p a + c.val p b + (c.val p x &&& 1#32), ?_, ?_⟩
    · simp only [carry, Ctx.val, Ctx.src_n32]; rfl
    · have hone : (c.val p x &&& 1#32).toNat = (c.val p x).toNat % 2 := by rw [BitVec.toNat_and]; exact Nat.and_one_is_mod _
      rw [BitVec.toNat_add, BitVec.toNat_add, hone]
      omega
  · rw [List.mem_singleton.mp hq]
    exact List.mem_singleton_self _

/-- Settles O1: the elements of `intElems` for the forms of R101, the sum of natural numbers for IADDC. -/
theorem integerArithmeticResults : Obligations.IntegerArithmeticResults := by
  unfold Obligations.IntegerArithmeticResults
  refine ⟨intTwo_of .iadd (fun _ _ _ _ _ _ => rfl) fun _ _ _ _ _ hw => wf2_isDst_int hw,
    intTwo_of .isub (fun _ _ _ _ _ _ => rfl) fun _ _ _ _ _ hw => wf2_isDst_int hw,
    intTwo_of .imul (fun _ _ _ _ _ _ => rfl) fun _ _ _ _ _ hw => wf2_isDst_int hw,
    intTwo_of .imulhi (fun _ _ _ _ _ _ => rfl) fun _ _ _ _ _ hw => wf2_isDst_32 hw,
    intTwo_of .imin (fun _ _ _ _ _ _ => rfl) fun _ _ _ _ _ hw => wf2_isDst_int hw,
    intTwo_of .imax (fun _ _ _ _ _ _ => rfl) fun _ _ _ _ _ hw => wf2_isDst_int hw,
    intTwo_of .iadd64 (fun _ _ _ _ _ _ => rfl) fun _ _ _ _ _ hw => wf_isDst_iadd64 hw,
    intTwoVl_of .iaddVl (.inl rfl) (fun _ _ _ _ _ => rfl) fun _ _ _ _ hw => wfVl_isDst hw,
    intTwoVl_of .isubVl (.inl rfl) (fun _ _ _ _ _ => rfl) fun _ _ _ _ hw => wfVl_isDst hw,
    intTwoVl_of .imulVl (.inl rfl) (fun _ _ _ _ _ => rfl) fun _ _ _ _ hw => wfVl_isDst hw,
    intTwoVl_of .imulhiVl (.inl rfl) (fun _ _ _ _ _ => rfl) fun _ _ _ _ hw => wfVl_isDst hw,
    intTwoVl_of .iminVl (.inl rfl) (fun _ _ _ _ _ => rfl) fun _ _ _ _ hw => wfVl_isDst hw,
    intTwoVl_of .imaxVl (.inl rfl) (fun _ _ _ _ _ => rfl) fun _ _ _ _ hw => wfVl_isDst hw,
    intTwoVl_of .iadd64Vl (.inr rfl) (fun _ _ _ _ _ => rfl) fun _ _ _ _ hw => wf_isDst_iadd64Vl hw,
    fun s c h m d a b x => imad_completes, fun s c h ty sat d a => iabs_completes, fun s c h pd d a b x => iaddc_completes⟩

end Sys2Proof.Machine
end

section
/-! Proof of `Obligations.ShiftResults`: the model's shifts of natural numbers are the shifts of bit vectors. -/

namespace Sys2Proof.Machine

theorem shlBits_toNat (w x k : Nat) : shlBits w x k = (BitVec.ofNat w x <<< k).toNat := by
  rw [BitVec.toNat_shiftLeft, BitVec.toNat_ofNat, Nat.shiftLeft_eq, Nat.mod_mul_mod, shlBits]
  split
  next hk => exact (Nat.mod_eq_zero_of_dvd ((pow_dvd_pow 2 hk).mul_left x)).symm
  next => rfl

theorem shrBits_toNat {w x : Nat} (hx : x < 2 ^ w) (k : Nat) : shrBits w x k = (BitVec.ofNat w x >>> k).toNat := by
  rw [BitVec.toNat_ushiftRight, BitVec.toNat_ofNat, Nat.mod_eq_of_lt hx, Nat.shiftRight_eq_div_pow, shrBits]
  split
  next hk => exact (Nat.div_eq_of_lt (lt_of_lt_of_le hx (Nat.pow_le_pow_right (by decide) hk))).symm
  next => rfl

/-- Shifting in ones: complementing, shifting in zeros and complementing again. -/
theorem complement_div {w x k : Nat} (hx : x < 2 ^ w) (hk : k ≤ w) :
    2 ^ w - 1 - (2 ^ w - 1 - x) / 2 ^ k = x / 2 ^ k + (2 ^ w - 2 ^ (w - k)) := by
  have hsplit : 2 ^ w = 2 ^ k * 2 ^ (w - k) := by rw [← pow_add]; congr 1; omega
  have hq : x / 2 ^ k < 2 ^ (w - k) := Nat.div_lt_of_lt_mul (by rwa [← hsplit])
  have hcompl : (2 ^ k * 2 ^ (w - k) - (x + 1)) / 2 ^ k = 2 ^ (w - k) - (x / 2 ^ k + 1) := Nat.mul_sub_div x (2 ^ k) _ (by rwa [← hsplit])
  have hle : 2 ^ (w - k) ≤ 2 ^ w := Nat.pow_le_pow_right (by decide) (Nat.sub_le w k)
  rw [show 2 ^ w - 1 - x = 2 ^ k * 2 ^ (w - k) - (x + 1) by omega, hcompl]
  generalize x / 2 ^ k = q at hq ⊢
  omega

theorem sarBits_toNat {w x : Nat} (hx : x < 2 ^ w) (k : Nat) : sarBits w x k = ((BitVec.ofNat w x).sshiftRight k).toNat := by
  have hmsb : (BitVec.ofNat w x).msb = decide (2 ^ (w - 1) ≤ x) := by
    rw [BitVec.msb_eq_decide, BitVec.toNat_ofNat, Nat.mod_eq_of_lt hx]
  rw [BitVec.toNat_sshiftRight, hmsb, BitVec.toNat_ofNat, Nat.mod_eq_of_lt hx, sarBits, Nat.shiftRight_eq_div_pow, Nat.shiftRight_eq_div_pow]
  by_cases hneg : 2 ^ (w - 1) ≤ x
  · rw [if_neg (by omega), if_pos (decide_eq_true hneg)]
    split
    next hk =>
      have hpow : 2 ^ w ≤ 2 ^ k := Nat.pow_le_pow_right (by decide) hk
      rw [Nat.div_eq_of_lt (by omega), Nat.sub_zero]
    next hk => exact (complement_div hx (by omega)).symm
  · rw [if_pos (by omega), decide_eq_false hneg, if_neg Bool.false_ne_true]
    refine (shrBits_toNat hx k).trans ?_
    rw [BitVec.toNat_ushiftRight, BitVec.toNat_ofNat, Nat.mod_eq_of_lt hx, Nat.shiftRight_eq_div_pow]

/-- The count of a shift is its own element, or for a pair one 32-bit count. -/
theorem shiftElems_count (c : Ctx) (p : Thread) (f : Nat → Nat → Nat → Nat) (ty : Ty) (a : Nat) (n : Operand) :
    shiftElems f ty a (c.src p (countTy ty) n) = mapElems ty (fun i => f ty.width (elemOf ty a i)
      (if ty.is64 then (c.val p n).toNat else c.elem p ty n i)) := by
  unfold shiftElems countTy Ctx.elem
  cases ty.is64
  · rfl
  · simp only [if_true, Ctx.src_n32, Ctx.val_toNat]

/-- A value of one element is made of that element. -/
theorem mapElems_one {ty : Ty} (h : ty.count = 1) (f : Nat → Nat) : mapElems ty f = f 0 % 2 ^ ty.width := by
  simp [mapElems, h, packElems]

theorem shiftBy_of (f : Head → Ty → Operand → Operand → Operand → Instr) (fv : Head → Operand → Operand → Word → Instr)
    {bits : Nat → Nat → Nat → Nat} {op : (w : Nat) → BitVec w → Nat → BitVec w}
    (hbits : ∀ w x k, 0 < w → x < 2 ^ w → bits w x k = (op w (BitVec.ofNat w x) k).toNat)
    (hex : ∀ h ty d a n s, exec (f h ty d a n) s = shift3 bits h ty d a n s)
    (hwf : ∀ h ty d a n, (f h ty d a n).wf = (h.ok true && (ty.isInt || ty.is64) && d.isDstP h.u ty.is64 && a.isSrcP ty.is64 && n.isSrc))
    (hexv : ∀ h d a lit s, exec (fv h d a lit) s = shiftVl bits h d a lit s)
    (hwfv : ∀ h d a lit, (fv h d a lit).wf = wfVl h d a) : ShiftBy f fv op := by
  refine ⟨fun s c h ty d a n hs hw hf => ?_, fun s c h d a lit hs hw hf => ?_⟩
  · simp only [hwf, Bool.and_eq_true] at hw
    refine vec_writes_ofTy hs (hex h ty d a n s) hf hw.1.1.2 fun p _ => ?_
    rw [shiftElems_count]
    exact elemResult_mapElems ty (fun i _ => hbits _ _ _ (Ty.width_count ty).2.1 (elemOf_lt ty _ i)) fun i _ => BitVec.isLt _
  · refine vec_writes_word hs (hexv h d a lit s) hf (wfVl_isDst (hwfv h d a lit ▸ hw)) fun p _ => ?_
    have hval : shiftElems bits .i32 (c.src p .i32 a) lit.toNat = (op 32 (c.val p a) lit.toNat).toNat := by
      rw [shiftElems, mapElems_one rfl, elemOf_whole (ty := .i32) rfl (c.src_lt p .i32 a), elemOf_whole (ty := .i32) rfl lit.isLt]
      exact (congrArg (· % 2 ^ 32) (hbits 32 _ _ (by decide) (c.src_lt32 p a rfl))).trans (Nat.mod_eq_of_lt (BitVec.isLt _))
    rw [hval]
    exact ⟨congrArg (fun x => [x]) (BitVec.ofNat_toNat ..), rfl⟩

/-- Settles O2: each shift of natural numbers is the shift of bit vectors. -/
theorem shiftResults : Obligations.ShiftResults := by
  unfold Obligations.ShiftResults
  exact ⟨shiftBy_of .shl .shlVl (fun w x k _ _ => shlBits_toNat w x k) (fun _ _ _ _ _ _ => rfl) (fun _ _ _ _ _ => rfl) (fun _ _ _ _ _ => rfl) fun _ _ _ _ => rfl,
    shiftBy_of .shr .shrVl (fun _ _ k _ hx => shrBits_toNat hx k) (fun _ _ _ _ _ _ => rfl) (fun _ _ _ _ _ => rfl) (fun _ _ _ _ _ => rfl) fun _ _ _ _ => rfl,
    shiftBy_of .sar .sarVl (fun _ _ k _ hx => sarBits_toNat hx k) (fun _ _ _ _ _ _ => rfl) (fun _ _ _ _ _ => rfl) (fun _ _ _ _ _ => rfl) fun _ _ _ _ => rfl⟩

end Sys2Proof.Machine
end

section
/-! Proofs of `Obligations.LogicResults` and `Obligations.BitCountResults`: the bits of a value (`testBit_ofTy`), of a value that is
given bit by bit (`testBit_wordOfBits`), and the fields of R106. -/

namespace Sys2Proof.Machine

/-! ### Bits of results -/

theorem wordsNat_ofTy_mod (ty : Ty) (n : Nat) : wordsNat (VecEff.ofTy ty n).words = n % 2 ^ (32 * Ty.words ty) := by
  have hmod : VecEff.ofTy ty n = VecEff.ofTy ty (n % 2 ^ (32 * Ty.words ty)) := by
    have hofNat : ∀ w, BitVec.ofNat w n = BitVec.ofNat w (n % 2 ^ w) := fun w => BitVec.eq_of_toNat_eq (by simp)
    unfold VecEff.ofTy Ty.words
    cases ty.is64
    · exact congrArg (fun x => VecEff.mk [x] []) (hofNat 32)
    · exact congrArg (fun x => VecEff.mk (unpair x) []) (hofNat 64)
  rw [hmod, wordsNat_ofTy _ _ (Nat.mod_lt _ (by positivity))]

theorem testBit_ofTy (ty : Ty) (n : Nat) {j : Nat} (hj : j < 32 * Ty.words ty) : (wordsNat (VecEff.ofTy ty n).words).testBit j = n.testBit j := by
  rw [wordsNat_ofTy_mod, Nat.testBit_mod_two_pow, decide_eq_true hj, Bool.true_and]

theorem Ty.isLogic_width {ty : Ty} (h : ty.isLogic = true) : ty.width = 32 * Ty.words ty := by cases ty <;> first | rfl | cases h

/-- A value whose bits are known (R104). -/
theorem bitResult_ofTy {ty : Ty} (h : ty.isLogic = true) {n : Nat} {g : Nat → Bool} (hg : ∀ j, j < ty.width → n.testBit j = g j) :
    BitResult ty g (.ofTy ty n) :=
  ⟨ofTy_shape ty n, fun j hj => by rw [testBit_ofTy ty n (Ty.isLogic_width h ▸ hj), hg j hj]⟩

theorem wordOfBits_succ (w : Nat) (f : Nat → Bool) : wordOfBits (w + 1) f = wordOfBits w f + if f w then 2 ^ w else 0 := by
  simp [wordOfBits, List.range_succ]

theorem wordOfBits_lt (w : Nat) (f : Nat → Bool) : wordOfBits w f < 2 ^ w := by
  induction w with
  | zero => simp [wordOfBits]
  | succ w ih => rw [wordOfBits_succ, pow_succ]; split <;> omega

theorem testBit_wordOfBits {w : Nat} (f : Nat → Bool) {j : Nat} (hj : j < w) : (wordOfBits w f).testBit j = f j := by
  induction w with
  | zero => omega
  | succ w ih =>
    rw [wordOfBits_succ, Nat.add_comm]
    rcases Nat.lt_succ_iff_lt_or_eq.mp hj with hlt | rfl
    · split
      · rw [Nat.testBit_two_pow_add_gt hlt, ih hlt]
      · rw [Nat.zero_add, ih hlt]
    · have htop : (wordOfBits j f).testBit j = false := Nat.testBit_lt_two_pow (wordOfBits_lt j f)
      split
      next hf => rw [Nat.testBit_two_pow_add_eq, htop, hf]; rfl
      next hf => rw [Nat.zero_add, htop, Bool.eq_false_iff.mpr hf]

/-! ### AND, OR, XOR and LUT3 (R104) -/

theorem logicSrc_getLsbD (inv : Bool) (x : Nat) {j : Nat} (hj : j < 64) : (logicSrc inv x).getLsbD j = (x.testBit j != inv) := by
  have hx : (BitVec.ofNat 64 x).getLsbD j = x.testBit j := by rw [BitVec.getLsbD_ofNat, decide_eq_true hj, Bool.true_and]
  cases inv
  · rw [logicSrc, if_neg Bool.false_ne_true, hx, Bool.bne_false]
  · rw [logicSrc, if_pos rfl, BitVec.getLsbD_not, decide_eq_true hj, hx, Bool.true_and, Bool.bne_true]

theorem logicOf_of (f : Head → Ty → Bool → Bool → Operand → Operand → Operand → Instr) (fv : Head → Operand → Operand → Word → Instr)
    {bits : DWord → DWord → DWord} {op : Bool → Bool → Bool} (hbits : ∀ x y j, (bits x y).getLsbD j = op (x.getLsbD j) (y.getLsbD j))
    (hex : ∀ h ty na nb d a b s, exec (f h ty na nb d a b) s = logic3 bits h ty na nb d a b s)
    (hwf : ∀ h ty na nb d a b, (f h ty na nb d a b).wf = (h.ok true && ty.isLogic && d.isDstP h.u ty.is64 && a.isSrcP ty.is64 && b.isSrcP ty.is64))
    (hexv : ∀ h d a lit s, exec (fv h d a lit) s = logicVl bits h d a lit s)
    (hwfv : ∀ h d a lit, (fv h d a lit).wf = wfVl h d a) : LogicOf f fv op := by
  refine ⟨fun s c h ty na nb d a b hs hw hf => ?_, fun s c h d a lit hs hw hf => ?_⟩
  · simp only [hwf, Bool.and_eq_true] at hw
    obtain ⟨⟨⟨⟨-, hty⟩, hd⟩, -⟩, -⟩ := hw
    refine vec_writes_ofTy hs (hex h ty na nb d a b s) hf hd fun p _ => bitResult_ofTy hty fun j hj => ?_
    have hj64 : j < 64 := by rw [Ty.isLogic_width hty] at hj; rcases Ty.words_cases ty with h | h <;> omega
    rw [BitVec.testBit_toNat, hbits, logicSrc_getLsbD _ _ hj64, logicSrc_getLsbD _ _ hj64]
  · refine vec_writes_word hs (hexv h d a lit s) hf (wfVl_isDst (hwfv h d a lit ▸ hw)) fun p _ => ?_
    rw [word_eq_ofTy .i32 _ rfl]
    refine bitResult_ofTy rfl fun j hj => ?_
    have hj64 : j < 64 := by change j < 32 at hj; omega
    rw [BitVec.testBit_toNat, hbits, BitVec.getLsbD_ofNat, BitVec.getLsbD_setWidth, Ctx.val, BitVec.getLsbD_ofNat, decide_eq_true hj64,
      decide_eq_true (show j < 32 from hj), Bool.true_and, Bool.true_and]

theorem lut3_completes {s : State} {c : Ctx} {h : Head} {lut : Byte} {d a b x : Operand} (hs : Seated s c)
    (hw : (Instr.lut3 h lut d a b x).wf = true) (hf : c.fits [(d, 1), (a, 1), (b, 1), (x, 1)]) :
    Completes (.lut3 h lut d a b x) s c h d 1 [] (fun p e => BitResult .i32 (fun j =>
      lut.getLsbD (((c.val p a).getLsbD j).toNat + 2 * ((c.val p b).getLsbD j).toNat + 4 * ((c.val p x).getLsbD j).toNat)) e) := by
  simp only [Instr.wf, Bool.and_eq_true] at hw
  refine vec_writes_word hs rfl hf (wf2_isDst hw.1) fun p _ => ?_
  rw [word_eq_ofTy .i32 _ rfl]
  exact bitResult_ofTy rfl fun j hj => testBit_wordOfBits _ hj

/-- Settles O3: each bit of a logic result by the bits of its sources. -/
theorem logicResults : Obligations.LogicResults := by
  unfold Obligations.LogicResults
  refine ⟨logicOf_of .and .andVl (fun x y j => BitVec.getLsbD_and) (fun _ _ _ _ _ _ _ _ => rfl) (fun _ _ _ _ _ _ _ => rfl) (fun _ _ _ _ _ => rfl) fun _ _ _ _ => rfl,
    logicOf_of .or .orVl (fun x y j => BitVec.getLsbD_or) (fun _ _ _ _ _ _ _ _ => rfl) (fun _ _ _ _ _ _ _ => rfl) (fun _ _ _ _ _ => rfl) fun _ _ _ _ => rfl,
    logicOf_of .xor .xorVl (fun x y j => ?_) (fun _ _ _ _ _ _ _ _ => rfl) (fun _ _ _ _ _ _ _ => rfl) (fun _ _ _ _ _ => rfl) fun _ _ _ _ => rfl,
    fun s c h lut d a b x => lut3_completes⟩
  exact BitVec.getLsbD_xor

/-! ### POPC, CLZ and BREV (R105) -/

theorem popcBits_card (w x : Nat) : popcBits w x = ((Finset.range w).filter (fun j => x.testBit j)).card := by
  rw [popcBits, ← List.toFinset_card_of_nodup (List.nodup_range.filter _)]
  congr 1
  ext j
  simp

theorem lt_two_pow_bitLen (x : Nat) : x < 2 ^ bitLen x := by
  unfold bitLen
  split
  next h => simp [h]
  next => exact Nat.lt_log2_self

theorem bitLen_le_of_lt {x w : Nat} (h : x < 2 ^ w) : bitLen x ≤ w := by
  unfold bitLen
  split
  next => exact Nat.zero_le w
  next h0 => exact (Nat.log2_lt h0).mpr h

theorem testBit_bitLen {x : Nat} (h : x ≠ 0) : x.testBit (bitLen x - 1) = true := by
  rw [bitLen, if_neg h]
  exact Nat.testBit_log2 h

theorem clzBits_leading {w x : Nat} (hx : x < 2 ^ w) :
    clzBits w x ≤ w ∧ (∀ j, w - clzBits w x ≤ j → j < w → x.testBit j = false) ∧
      (clzBits w x < w → x.testBit (w - 1 - clzBits w x) = true) := by
  have hlen := bitLen_le_of_lt hx
  rw [clzBits, Nat.mod_eq_of_lt hx]
  refine ⟨Nat.sub_le _ _, fun j hj _ => ?_, fun hlt => ?_⟩
  · exact Nat.testBit_lt_two_pow (lt_of_lt_of_le (lt_two_pow_bitLen x) (Nat.pow_le_pow_right (by decide) (by omega)))
  · have hne : x ≠ 0 := fun h => by simp [h, bitLen] at hlt
    rw [show w - 1 - (w - bitLen x) = bitLen x - 1 by omega]
    exact testBit_bitLen hne

/-! ### BFE and BFI (R106) -/

theorem fieldLen_min (f : Word) : fieldLen f = min (f.toNat / 256 % 256) 32 := by unfold fieldLen; split <;> omega

/-- Extending a word by enough copies of its sign bit makes its field the one of its integer. -/
theorem signExtended_field {a : Word} {pos len : Nat} (hneg : 2 ^ 31 ≤ a.toNat) (hpos : pos < 256) (hlen : len ≤ 32) :
    (((a.toNat + (2 ^ 320 - 2 ^ 32)) / 2 ^ pos % 2 ^ len : Nat) : Int) = a.toInt / 2 ^ pos % 2 ^ len := by
  have hint : ((a.toNat + (2 ^ 320 - 2 ^ 32) : Nat) : Int) = a.toInt + 2 ^ pos * (2 ^ len * 2 ^ (320 - pos - len)) := by
    rw [← pow_add, ← pow_add, show pos + (len + (320 - pos - len)) = 320 by omega, BitVec.toInt_eq_toNat_cond, if_neg (by omega)]
    omega
  rw [Int.natCast_emod, Int.natCast_ediv, hint, Nat.cast_pow, Nat.cast_pow, Nat.cast_ofNat, Int.add_mul_ediv_left _ _ (by positivity),
    Int.add_mul_emod_self_left]

/-- The field as a balanced remainder: the upper half of the remainders stands for negative numbers. -/
theorem balanced_word {v len : Nat} {x : Int} (hlen : 0 < len ∧ len ≤ 32) (hv : (v : Int) = x % 2 ^ len) :
    (BitVec.ofNat 32 (if v ≥ 2 ^ (len - 1) then v + (2 ^ 32 - 2 ^ len) else v)).toInt = x.bmod (2 ^ len) := by
  obtain ⟨k, rfl⟩ : ∃ k, len = k + 1 := ⟨len - 1, by omega⟩
  have hk : 2 ^ k ≤ 2 ^ 31 := Nat.pow_le_pow_right (by decide) (by omega)
  have hlt : v < 2 ^ k * 2 := by
    have := Int.emod_lt_of_pos x (b := 2 ^ (k + 1)) (by positivity)
    rw [← hv, pow_succ] at this
    exact_mod_cast this
  have hmod : x % ((2 ^ (k + 1) : Nat) : Int) = v := by rw [hv, Nat.cast_pow, Nat.cast_ofNat]
  have hdouble : 2 ^ (k + 1) = 2 ^ k * 2 := pow_succ 2 k
  rw [Int.bmod_def, hmod, BitVec.toInt_eq_toNat_cond, BitVec.toNat_ofNat, Nat.add_sub_cancel, hdouble]
  generalize 2 ^ k = b at *
  split <;> omega

theorem bfeBits_field (sgn : Bool) (a f : Word) : FieldOf sgn a f (BitVec.ofNat 32 (bfeBits sgn a f)) := by
  have hpos : fieldPos f < 256 := Nat.mod_lt _ (by decide)
  have hlen : fieldLen f ≤ 32 := by rw [fieldLen_min]; exact min_le_right _ _
  unfold FieldOf bfeBits
  dsimp only
  rw [← fieldLen_min f]
  change if sgn = true then _ = (if fieldLen f = 0 then 0 else (a.toInt / 2 ^ fieldPos f).bmod (2 ^ fieldLen f))
    else _ = a.toNat / 2 ^ fieldPos f % 2 ^ fieldLen f
  generalize fieldLen f = len at *
  generalize fieldPos f = pos at *
  by_cases h0 : len = 0
  · subst h0
    cases sgn
    · simp [Nat.mod_one]
    · simp
  cases sgn
  · have hlt : a.toNat / 2 ^ pos % 2 ^ len < 2 ^ 32 := lt_of_lt_of_le (Nat.mod_lt _ (by positivity)) (Nat.pow_le_pow_right (by decide) hlen)
    simp only [h0, if_false, Bool.false_and, Bool.false_eq_true, BitVec.toNat_ofNat]
    exact Nat.mod_eq_of_lt hlt
  · simp only [h0, if_false, if_true, Bool.true_and, decide_eq_true_eq]
    refine balanced_word ⟨by omega, hlen⟩ ?_
    split
    next hneg => exact signExtended_field (by simpa using hneg) hpos hlen
    next hneg =>
      have hint : a.toInt = a.toNat := by
        rw [BitVec.toInt_eq_toNat_cond, if_pos]
        omega
      rw [hint, Int.natCast_emod, Int.natCast_ediv, Nat.cast_pow, Nat.cast_pow, Nat.cast_ofNat]

theorem bfiBits_bits (a b f : Word) {j : Nat} (hj : j < 32) : (bfiBits a b f).testBit j =
    if f.toNat % 256 ≤ j ∧ j < f.toNat % 256 + min (f.toNat / 256 % 256) 32 then a.getLsbD (j - f.toNat % 256) else b.getLsbD j := by
  rw [bfiBits, testBit_wordOfBits _ hj, fieldLen_min, fieldPos]

/-- Settles O4: the counts of R105 as cardinalities and leading zeros, the fields of R106 by division. -/
theorem bitCountResults : Obligations.BitCountResults := by
  unfold Obligations.BitCountResults
  have hlogic {ty : Ty} (hty : ty.isLogic = true) (c : Ctx) (p : Thread) (a : Operand) : c.src p ty a < 2 ^ ty.width :=
    Ty.isLogic_width hty ▸ c.src_lt p ty a
  refine ⟨fun s c h ty d a hs hw hf => ?_, fun s c h ty d a hs hw hf => ?_, fun s c h ty d a hs hw hf => ?_, fun s c h ty d a f hs hw hf => ?_,
    fun s c h d a lit hs hw hf => ?_, fun s c h d a b f hs hw hf => ?_⟩ <;> simp only [Instr.wf, Bool.and_eq_true] at hw
  · exact vec_writes_word hs rfl hf hw.1.2 fun p _ => popcBits_card ty.width _ ▸ word_isWord _
  · obtain ⟨⟨⟨-, hty⟩, hd⟩, -⟩ := hw
    refine vec_writes_word hs rfl hf hd fun p _ => ?_
    obtain ⟨hle, hzero, hone⟩ := clzBits_leading (hlogic hty c p a)
    exact ⟨_, hle, word_isWord _, hzero, hone⟩
  · obtain ⟨⟨⟨-, hty⟩, hd⟩, -⟩ := hw
    exact vec_writes_ofTy hs rfl hf hd fun p _ => bitResult_ofTy hty fun j hj => testBit_wordOfBits _ hj
  · exact vec_writes_word hs rfl hf (wf2_isDst hw.1) fun p _ => ⟨_, word_isWord _, bfeBits_field _ _ _⟩
  · exact vec_writes_word hs rfl hf (wfVl_isDst hw) fun p _ => ⟨_, word_isWord _, bfeBits_field _ _ _⟩
  · refine vec_writes_word hs rfl hf (wf2_isDst hw.1) fun p _ => ?_
    rw [word_eq_ofTy .i32 _ rfl]
    exact bitResult_ofTy rfl fun j hj => bfiBits_bits _ _ _ hj

end Sys2Proof.Machine
end

section
/-! Proofs of `Obligations.CompareResults`, `Obligations.FloatCompareMeanings`, `Obligations.MoveResults` and
`Obligations.PredicateResults`: a compare sets its predicate and its mask (`cmp_completes`), moves write values of a type, and an
instruction that writes predicates alone. -/

namespace Sys2Proof.Machine

/-! ### Compares (R107, R114) -/

theorem cmpEff_result (c : Ctx) (p : Thread) (m : CmpMods) (x : Operand) {b : Bool} {r : Thread → Prop} (hb : b = true ↔ r p) :
    CmpResult c m x r p (cmpEff c p m b x) := by
  refine ⟨combine m.bor b (if x.isNone then none else some (c.val p x)), rfl, ?_⟩
  by_cases hx : x = .none
  · rw [if_pos hx, hx]
    exact hb
  · have hnone : x.isNone = false := by cases x <;> first | rfl | exact absurd rfl hx
    rw [if_neg hx, hnone, if_neg Bool.false_ne_true, combine]
    cases m.bor <;> simp [hb]

/-- What every compare does: its predicate and, where it has a destination, its mask. -/
theorem cmp_completes {s : State} {c : Ctx} {h : Head} {m : CmpMods} {ops : List (Operand × Nat)} {d x : Operand} {i : Instr}
    {b : Ctx → Thread → Bool} {r : Thread → Prop} (hs : Seated s c)
    (hi : exec i s = vec s h ((d, 1) :: ops) d (fun c p => cmpEff c p m (b c p) x)) (hf : c.fits ((d, 1) :: ops))
    (hd : (d.isNone || d.isDst h.u 1) = true) (hb : ∀ p, b c p = true ↔ r p) :
    Completes i s c h d 1 [m.pd.val] (CmpResult c m x r) := by
  refine vec_completes 1 [m.pd.val] hs hi hf (fun _ _ => List.mem_cons_self) (fun n e => ?_)
    (fun p _ => ⟨cmpEff_result c p m x (hb p), le_refl _, fun q hq => ?_⟩) fun p _ => List.nodup_singleton _
  · subst e
    exact Operand.isDst_s (d := .s n) hd (.inl rfl) n rfl
  · rw [List.mem_singleton.mp hq]
    exact List.mem_singleton_self _

theorem wfCmp_dst {h : Head} {m : CmpMods} {t pair : Bool} {k : Nat} {d a b x : Operand} (hw : wfCmp h m t k pair d a b x = true) :
    (d.isNone || d.isDst h.u 1) = true := by
  simp only [wfCmp, Bool.and_eq_true] at hw
  exact hw.1.1.2

theorem icmpHolds_iff (code : Nat) (a b : Int) : icmpHolds code a b = true ↔ intCompare code a b := by
  unfold icmpHolds intCompare
  split <;> simp only [decide_eq_true_eq]

/-- Only numbers are ordered. -/
theorem Val.lt_isNan {a b : Val} (h : a.lt b = true) : a.isNan = false ∧ b.isNan = false := by
  cases a <;> cases b <;> first | exact ⟨rfl, rfl⟩ | cases h

theorem fcmpHolds_iff (code : Nat) (a b : Val) : fcmpHolds code a b = true ↔ fltCompare code a b := by
  have hab := @Val.lt_isNan a b
  have hba := @Val.lt_isNan b a
  unfold fcmpHolds fltCompare Val.eq
  split <;> simp only [Bool.and_eq_true, Bool.not_eq_true', Bool.not_eq_false', Bool.and_eq_false_iff] <;> grind

/-- Settles O5: the six integer comparisons. -/
theorem compareResults : Obligations.CompareResults := by
  unfold Obligations.CompareResults
  exact ⟨fun s c h m d a b x hs hw hf => cmp_completes hs rfl hf (wfCmp_dst hw) fun p => icmpHolds_iff _ _ _,
    fun s c h m d a b x hs hw hf => cmp_completes hs rfl hf (wfCmp_dst hw) fun p => icmpHolds_iff _ _ _⟩

/-- Settles O6: the eight floating-point comparisons, of operands flushed as `fltSrc` flushes them. -/
theorem floatCompareMeanings : Obligations.FloatCompareMeanings := by
  unfold Obligations.FloatCompareMeanings
  intro s c h m d a b x hs hw hf
  have helem : ∀ p o, c.elemVal p .f32 false false o 0 = fltSrc fmtF32 c.ftz false false (c.src p .f32 o) := fun p o => by
    rw [Ctx.elemVal, Ctx.elem, elemOf_whole rfl (c.src_lt p .f32 o)]
    rfl
  simp only [helem]
  exact cmp_completes hs rfl hf (wfCmp_dst hw) fun p => fcmpHolds_iff _ _ _

/-! ### Moves and addresses (R108 to R110) -/

/-- A value of a type moved as it stands. -/
theorem wordsNat_ofTy_src (c : Ctx) (p : Thread) (ty : Ty) (a : Operand) : wordsNat (VecEff.ofTy ty (c.src p ty a)).words = c.src p ty a :=
  wordsNat_ofTy ty _ (c.src_lt p ty a)

/-- An address as an integer modulo 2^64 (R110). -/
theorem leaBits_toNat (unsigned : Bool) (sh : Nat) (a : DWord) (b : Word) : ((leaBits unsigned sh a b).toNat : Int) =
    ((a.toNat : Int) + (if unsigned then (b.toNat : Int) else b.toInt) * 2 ^ sh) % 2 ^ 64 := by
  have hsum : ∀ e : DWord, ∀ x : Int, (e.toNat : Int) % 2 ^ 64 = x % 2 ^ 64 → ((a + e <<< sh).toNat : Int) = (a.toNat + x * 2 ^ sh) % 2 ^ 64 := by
    intro e x hx
    rw [BitVec.toNat_add, BitVec.toNat_shiftLeft, Nat.shiftLeft_eq]
    push_cast
    rw [Int.add_emod, Int.emod_emod_of_dvd _ (dvd_refl _), ← Int.add_emod]
    exact Int.ModEq.add_left _ (Int.ModEq.mul_right _ hx)
  unfold leaBits
  cases unsigned
  · refine hsum _ _ ?_
    simp only [Bool.false_eq_true, if_false]
    rw [← BitVec.toInt_signExtend_of_le (show 32 ≤ 64 by decide), BitVec.toInt_eq_toNat_bmod]
    exact (Int.bmod_emod (m := 2 ^ 64)).symm
  · refine hsum _ _ ?_
    simp only [if_true]
    rw [BitVec.toNat_setWidth, Nat.mod_eq_of_lt (lt_trans b.isLt (by decide))]

/-- Settles O7: moves write their source, LEA its sum modulo 2^64. -/
theorem moveResults : Obligations.MoveResults := by
  unfold Obligations.MoveResults
  have haddr : ∀ x : DWord, wordsNat (VecEff.ofTy .i64 x.toNat).words = x.toNat := fun x => wordsNat_ofTy .i64 _ x.isLt
  have hval64 : ∀ (c : Ctx) p a, (c.val64 p a).toNat = c.src p .i64 a := fun c p a => by
    rw [Ctx.val64, BitVec.toNat_ofNat]
    exact Nat.mod_eq_of_lt (c.src_lt p .i64 a)
  refine ⟨fun s c h ty d a b x hs hw hf => ?_, fun s c h d a hs hw hf => ?_, fun s c h d a hs hw hf => ?_, fun s c h ty sh d a b hs hw hf => ?_,
    fun s c h d a lit hs hw hf => ?_⟩ <;> simp only [Instr.wf, Bool.and_eq_true] at hw
  · refine vec_writes_ofTy hs rfl hf hw.1.1.1.2 fun p _ => ⟨ofTy_shape _ _, ?_⟩
    by_cases hx : c.val p x = 0#32
    · simp only [hx, bne_self_eq_false, Bool.false_eq_true, if_false, ne_eq, not_true, wordsNat_ofTy_src]
    · simp only [bne_iff_ne.mpr hx, ne_eq, hx, not_false_eq_true, if_true, wordsNat_ofTy_src]
  · exact vec_writes_word hs rfl hf (wfVl_isDst hw) fun p _ => word_isWord _
  · exact vec_writes_ofTy (ty := .i64) hs rfl hf hw.1.2 fun p _ => ⟨ofTy_shape _ _, wordsNat_ofTy_src c p .i64 a⟩
  · refine vec_writes_ofTy (ty := .i64) hs rfl hf hw.1.1.2 fun p _ => ⟨ofTy_shape _ _, ?_⟩
    rw [haddr, leaBits_toNat, hval64]
    simp only [beq_iff_eq]
  · refine vec_writes_ofTy (ty := .i64) hs rfl hf hw.1.2 fun p _ => ⟨ofTy_shape _ _, ?_⟩
    rw [haddr, leaBits_toNat, hval64]
    simp

/-! ### Predicates (R124, R125) -/

theorem testBit_predWord (p : Thread) (j : Nat) : (predWord p).testBit j = (decide (j < 8) && p.pred j) := by
  have heq : predWord p = wordOfBits 8 p.pred := rfl
  by_cases hj : j < 8
  · rw [heq, testBit_wordOfBits _ hj, decide_eq_true hj, Bool.true_and]
  · rw [heq, decide_eq_false hj, Bool.false_and]
    exact Nat.testBit_lt_two_pow (lt_of_lt_of_le (wordOfBits_lt 8 _) (Nat.pow_le_pow_right (by decide) (by omega)))

/-- Settles O12: PLUT and PMOV.w write predicates alone, PMOV the word of the predicates. -/
theorem predicateResults : Obligations.PredicateResults := by
  unfold Obligations.PredicateResults
  refine ⟨fun s c h lut pd pa pb pc hs _ => ?_, fun s c h d hs hw hf => ?_, fun s c h mask a hs _ hf => ?_⟩
  · refine vec_completes 0 [pd.val] (ops := []) hs rfl (fun _ ho => nomatch ho) (fun _ e => nomatch e) (fun _ e => nomatch e)
      (fun p _ => ⟨rfl, le_refl _, fun q hq => ?_⟩) fun p _ => List.nodup_singleton _
    rw [List.mem_singleton.mp hq]
    exact List.mem_singleton_self _
  · simp only [Instr.wf, Bool.and_eq_true] at hw
    refine vec_writes_word hs rfl hf hw.2 fun p _ => ⟨?_, rfl⟩
    rw [word_eq_ofTy .i32 _ rfl]
    exact bitResult_ofTy rfl fun j _ => testBit_predWord p j
  · have hset : ∀ p, (((List.range 7).filter (fun i => mask.getLsbD i)).map (fun i => (i, (c.val p a).getLsbD i))).map (·.1) =
        (List.range 7).filter (fun i => mask.getLsbD i) := fun p => by rw [List.map_map]; exact List.map_id _
    refine vec_completes 0 _ hs rfl hf (fun _ e => nomatch e) (fun _ e => nomatch e)
      (fun p _ => ⟨⟨rfl, fun i hi hm => ?_⟩, le_refl _, fun q hq => ?_⟩) fun p _ => ?_
    · exact List.mem_map.mpr ⟨i, List.mem_filter.mpr ⟨List.mem_range.mpr hi, hm⟩, rfl⟩
    · exact hset p ▸ List.mem_map_of_mem hq
    · rw [hset p]
      exact List.nodup_range.filter _

end Sys2Proof.Machine
end

section
/-! Bounds of roundings: a magnitude rounded to a multiple of 2^q has at most the bits that the format keeps (`roundAt_le`), and
the pattern of a rounded value has the width of its format (`Format.ofVal_lt`). -/

namespace Sys2Proof.Machine

/-- A truncated magnitude stays truncated or goes one up. -/
theorem roundAt_shift {rm : Rm} {neg st : Bool} {m : Nat} {e q : Int} (h : e < q) :
    roundAt rm neg m e q st ≤ m / 2 ^ (q - e).toNat + 1 := by
  unfold roundAt
  rw [if_neg (by omega)]
  dsimp only
  generalize m / 2 ^ (q - e).toNat = n
  split
  · split <;> omega
  · split <;> omega

theorem bitLen_pos {m : Nat} (h : m ≠ 0) : 0 < bitLen m := by simp [bitLen, h]

/-- A magnitude of which the unit 2^q lies at most `k` below its top bit rounds to at most 2^(k + 1). -/
theorem roundAt_le {rm : Rm} {neg st : Bool} {m k : Nat} {e q : Int} (h : (bitLen m : Int) - 1 + e ≤ q + k) :
    roundAt rm neg m e q st ≤ 2 ^ (k + 1) := by
  have hm := lt_two_pow_bitLen m
  by_cases hq : q ≤ e
  · rw [roundAt, if_pos hq]
    calc m * 2 ^ (e - q).toNat ≤ 2 ^ bitLen m * 2 ^ (e - q).toNat := Nat.mul_le_mul_right _ hm.le
      _ = 2 ^ (bitLen m + (e - q).toNat) := (pow_add ..).symm
      _ ≤ 2 ^ (k + 1) := Nat.pow_le_pow_right (by decide) (by omega)
  · have hdiv : m / 2 ^ (q - e).toNat < 2 ^ (k + 1) := by
      refine Nat.div_lt_of_lt_mul (lt_of_lt_of_le hm ?_)
      rw [← pow_add]
      exact Nat.pow_le_pow_right (by decide) (by omega)
    exact (roundAt_shift (by omega)).trans hdiv

namespace Format

variable {f : Format}

theorem sign_le (f : Format) (neg : Bool) : f.sign neg ≤ 2 ^ (f.eb + f.fb) := by
  unfold Format.sign
  split
  · exact le_refl _
  · exact Nat.zero_le _

theorem two_pow_width (f : Format) : 2 ^ f.width = 2 ^ (f.eb + f.fb) + 2 ^ (f.eb + f.fb) := by
  rw [Format.width, Nat.add_assoc, Nat.add_comm, pow_succ]
  omega

/-- The patterns of the largest exponent follow those of the finite numbers. -/
theorem emax_mul (f : Format) : f.emax * 2 ^ f.fb + 2 ^ f.fb = 2 ^ (f.eb + f.fb) := by
  have : 1 ≤ 2 ^ f.eb := Nat.one_le_two_pow
  rw [Format.emax, ← Nat.succ_mul, pow_add]
  congr 1
  omega

theorem infBits_lt (f : Format) (neg : Bool) : f.infBits neg < 2 ^ f.width := by
  have h1 := f.sign_le neg
  have h2 := f.emax_mul
  have h3 : 0 < 2 ^ f.fb := by positivity
  rw [two_pow_width, Format.infBits]
  omega

theorem maxBits_lt (f : Format) (neg : Bool) : f.maxBits neg < 2 ^ f.width :=
  lt_of_le_of_lt (Nat.add_le_add_left (Nat.sub_le _ _) _) (f.infBits_lt neg)

theorem nanBits_lt (hfb : 1 ≤ f.fb) : f.nanBits < 2 ^ f.width := by
  have h1 := f.emax_mul
  have h2 : 2 ^ (f.fb - 1) < 2 ^ f.fb := Nat.pow_lt_pow_right (by decide) (by omega)
  have h3 : 0 < 2 ^ (f.eb + f.fb) := by positivity
  rw [two_pow_width, Format.nanBits]
  omega

theorem overflow_lt (f : Format) (neg : Bool) (rm : Rm) : f.overflow neg rm < 2 ^ f.width := by
  unfold Format.overflow
  cases rm <;> cases neg <;> first | exact f.infBits_lt _ | exact f.maxBits_lt _

/-- The unit in which `roundTo` rounds: the spacing at the value's top bit, or of the subnormals. -/
def unit (f : Format) (m : Nat) (e : Int) : Int :=
  if (bitLen m : Int) - 1 + e - f.fb < 1 - (f.bias : Int) - f.fb then 1 - (f.bias : Int) - f.fb else (bitLen m : Int) - 1 + e - f.fb

/-- The pattern of the magnitude n * 2^q, or what stands for it beyond the largest. -/
def pack (f : Format) (rm : Rm) (ftz neg : Bool) (n : Nat) (q : Int) : Nat :=
  if n < 2 ^ f.fb then f.sign neg + (if ftz then 0 else n)
  else if (q + f.fb + f.bias).toNat ≥ f.emax then f.overflow neg rm
  else f.sign neg + (q + f.fb + f.bias).toNat * 2 ^ f.fb + (n - 2 ^ f.fb)

/-- `roundTo` without saturation: the magnitude rounded in its unit, and a carry into the next binade taken back. -/
theorem roundTo_bits (f : Format) (rm : Rm) (sat ftz neg : Bool) (m : Nat) (e : Int) (st : Bool) :
    (f.roundTo rm sat ftz neg m e st).bits =
      if sat && f.beyond m e st then f.maxBits neg
      else if (bitLen m : Int) - 1 + e > f.bias + 1 then f.overflow neg rm
      else if roundAt rm neg m e (f.unit m e) st ≥ 2 ^ (f.fb + 1) then f.pack rm ftz neg (roundAt rm neg m e (f.unit m e) st / 2) (f.unit m e + 1)
      else f.pack rm ftz neg (roundAt rm neg m e (f.unit m e) st) (f.unit m e) := by
  unfold Format.roundTo
  change _ = if sat && f.beyond m e st then _ else if _ then _ else
    if roundAt rm neg m e (if _ then _ else _) st ≥ 2 ^ (f.fb + 1) then f.pack rm ftz neg _ _ else _
  rw [apply_ite Cv.bits, apply_ite Cv.bits]
  dsimp only [Cv.plain]
  unfold Format.unit Format.pack
  generalize (if (bitLen m : Int) - 1 + e - f.fb < 1 - (f.bias : Int) - f.fb then 1 - (f.bias : Int) - f.fb else (bitLen m : Int) - 1 + e - f.fb) = q
  generalize roundAt rm neg m e q st = n
  by_cases hn : n ≥ 2 ^ (f.fb + 1)
  · simp only [hn, if_true]
    split_ifs <;> rfl
  · simp only [hn, if_false]
    split_ifs <;> rfl

theorem pack_lt {rm : Rm} {ftz neg : Bool} {n : Nat} {q : Int} (hn : n < 2 ^ (f.fb + 1)) : f.pack rm ftz neg n q < 2 ^ f.width := by
  have h1 := f.sign_le neg
  have h2 := f.emax_mul
  rw [pow_succ] at hn
  unfold Format.pack
  split_ifs
  · rw [two_pow_width]; omega
  · rw [two_pow_width]; omega
  · exact f.overflow_lt neg rm
  next h3 =>
    have h4 : ((q + f.fb + f.bias).toNat + 1) * 2 ^ f.fb ≤ f.emax * 2 ^ f.fb := Nat.mul_le_mul_right _ (by omega)
    rw [Nat.succ_mul] at h4
    rw [two_pow_width]
    omega

theorem roundAt_unit_le (f : Format) (rm : Rm) (neg st : Bool) (m : Nat) (e : Int) : roundAt rm neg m e (f.unit m e) st ≤ 2 ^ (f.fb + 1) :=
  roundAt_le (by unfold Format.unit; split <;> omega)

theorem roundTo_lt (f : Format) (rm : Rm) (sat ftz neg : Bool) (m : Nat) (e : Int) (st : Bool) :
    (f.roundTo rm sat ftz neg m e st).bits < 2 ^ f.width := by
  have hle := f.roundAt_unit_le rm neg st m e
  rw [roundTo_bits]
  split_ifs
  · exact f.maxBits_lt neg
  · exact f.overflow_lt neg rm
  · refine pack_lt ?_
    have : 0 < 2 ^ f.fb := by positivity
    rw [pow_succ] at hle ⊢
    omega
  · exact pack_lt (by omega)

/-- A rounded value has the width of its format. -/
theorem ofVal_lt (hfb : 1 ≤ f.fb) (rm : Rm) (sat ftz : Bool) (x : Val) : (f.ofVal rm sat ftz x).bits < 2 ^ f.width := by
  cases x with
  | nan => exact nanBits_lt hfb
  | inf s =>
    unfold Format.ofVal
    dsimp only
    split
    · exact f.maxBits_lt s
    · exact f.infBits_lt s
  | fin s m e =>
    unfold Format.ofVal
    dsimp only
    split
    · refine lt_of_le_of_lt (f.sign_le s) ?_
      have : 0 < 2 ^ (f.eb + f.fb) := by positivity
      rw [two_pow_width]
      omega
    · exact f.roundTo_lt ..

/-- A source element keeps its width through flush and signs (R57, R112). -/
theorem fltBits_lt (ftz neg abs : Bool) {x : Nat} (hx : x < 2 ^ f.width) : fltBits f ftz neg abs x < 2 ^ f.width := by
  rw [two_pow_width] at *
  unfold fltBits Format.flush
  dsimp only
  have hpos : 0 < 2 ^ (f.eb + f.fb) := by positivity
  generalize 2 ^ (f.eb + f.fb) = b at *
  have hflush : (if (ftz && f.isSubnormal x) = true then x / b % 2 * b else x) < b + b := by
    split
    · rcases Nat.mod_two_eq_zero_or_one (x / b) with h | h <;> rw [h] <;> omega
    · exact hx
  generalize (if (ftz && f.isSubnormal x) = true then x / b % 2 * b else x) = y at *
  have habs : (if abs = true then y % b else y) < b + b := by
    split
    · exact lt_of_lt_of_le (Nat.mod_lt _ hpos) (Nat.le_add_left ..)
    · exact hflush
  generalize (if abs = true then y % b else y) = z at *
  split_ifs <;> omega

end Format

end Sys2Proof.Machine
end

section
/-! Proofs of `Obligations.FloatArithmeticResults`, `Obligations.FloatSelectResults` and `Obligations.QuantDecodeResults`: elements
rounded once (`elemResult_rounded`), the order of values behind FMIN and FMAX, and the classes of F32 patterns. -/

namespace Sys2Proof.Machine

/-! ### Rounded elements (R112, R117, R118) -/

theorem Ty.isFlt_format {ty : Ty} (h : ty.isFlt = true) : ty.is64 = false ∧ 1 ≤ (fltFmt ty).fb ∧ (fltFmt ty).width = ty.width := by
  cases ty <;> simp [Ty.isFlt] at h <;> decide

/-- Elements that are each rounded once into their format. -/
theorem elemResult_rounded {ty : Ty} (h : ty.isFlt = true) (rm : Rm) (sat ftz : Bool) (x : Nat → Val) :
    ElemResult ty (fun i => ((fltFmt ty).ofVal rm sat ftz (x i)).bits) (.word (mapElems ty (fun i => ((fltFmt ty).ofVal rm sat ftz (x i)).bits))) := by
  obtain ⟨h64, hfb, hwidth⟩ := Ty.isFlt_format h
  rw [word_eq_ofTy ty _ h64]
  exact elemResult_mapElems ty (fun _ _ => rfl) fun i _ => hwidth ▸ Format.ofVal_lt hfb rm sat ftz (x i)

/-- One F32 value, rounded once. -/
theorem elemResult_f32 (rm : Rm) (sat ftz : Bool) (x : Val) :
    ElemResult .f32 (fun _ => (fmtF32.ofVal rm sat ftz x).bits) (.word (fmtF32.ofVal rm sat ftz x).bits) := by
  have hlt : (fmtF32.ofVal rm sat ftz x).bits < 2 ^ 32 := Format.ofVal_lt (by decide) rm sat ftz x
  have hmap : mapElems .f32 (fun _ => (fmtF32.ofVal rm sat ftz x).bits) = (fmtF32.ofVal rm sat ftz x).bits :=
    (mapElems_one rfl _).trans (Nat.mod_eq_of_lt hlt)
  have hr := elemResult_rounded (ty := .f32) rfl rm sat ftz (fun _ => x)
  rw [show fltFmt .f32 = fmtF32 from rfl, hmap] at hr
  exact hr

theorem ElemResult.first {ty : Ty} {g : Nat → Nat} {e : VecEff} (h : ty.count = 1) (hr : ElemResult ty g e) : ElemResult ty (fun _ => g 0) e :=
  ⟨hr.1, fun i hi => by obtain rfl : i = 0 := by omega
                        exact hr.2 0 hi⟩

/-- The literal of a VL form as an F32 source. -/
theorem elemOf_literal (lit : Word) : elemOf .f32 lit.toNat 0 = lit.toNat := elemOf_whole rfl lit.isLt

theorem Ctx.elem_f32 (c : Ctx) (p : Thread) (a : Operand) : c.elem p .f32 a 0 = c.src p .f32 a := elemOf_whole rfl (c.src_lt p .f32 a)

theorem Ctx.elemVal_f32 (c : Ctx) (p : Thread) (na aa : Bool) (a : Operand) :
    c.elemVal p .f32 na aa a 0 = fltSrc fmtF32 c.ftz na aa (c.src p .f32 a) := by
  rw [Ctx.elemVal, c.elem_f32]
  rfl

theorem fltTwo_of (f : Head → FltMods → Operand → Operand → Operand → Instr) (fv : Head → Operand → Operand → Word → Instr)
    {op3 : Rm → Val → Val → Val → Val} {op : Rm → Val → Val → Val} (hop : ∀ rm x y z, op3 rm x y z = op rm x y)
    (hex : ∀ h m d a b s, exec (f h m d a b) s = flt2 op3 h m d a b s)
    (hwf : ∀ h m d a b, (f h m d a b).wf = (wf2 h d a b && m.ty.isFlt && !m.nc))
    (hexv : ∀ h d a lit s, exec (fv h d a lit) s = flt2Vl op3 h d a lit s)
    (hwfv : ∀ h d a lit, (fv h d a lit).wf = wfVl h d a) : FltTwo f fv op := by
  refine ⟨fun s c h m d a b hs hw hf => ?_, fun s c h d a lit hs hw hf => ?_⟩
  · simp only [hwf, Bool.and_eq_true] at hw
    obtain ⟨⟨hw2, hty⟩, -⟩ := hw
    refine vec_writes_word hs (hex h m d a b s) hf (wf2_isDst hw2) fun p _ => ?_
    simp only [fltElems, fltOut, hop]
    exact elemResult_rounded hty m.rm m.sat c.ftz _
  · refine vec_writes_word hs (hexv h d a lit s) hf (wfVl_isDst (hwfv h d a lit ▸ hw)) fun p _ => ?_
    simp only [fltElems, fltOut, hop, plainFlt]
    have hr := (elemResult_rounded (ty := .f32) rfl .rn false c.ftz (fun i => op .rn (fltSrc (fltFmt .f32) c.ftz false false (c.elem p .f32 a i))
      (fltSrc (fltFmt .f32) c.ftz false false (elemOf .f32 lit.toNat i)))).first rfl
    rw [elemOf_literal] at hr
    exact hr

/-- Settles O8: each element is rounded once by `Format.ofVal`, whose patterns have the width of the element. -/
theorem floatArithmeticResults : Obligations.FloatArithmeticResults := by
  unfold Obligations.FloatArithmeticResults
  refine ⟨fltTwo_of .fadd .faddVl (fun _ _ _ _ => rfl) (fun _ _ _ _ _ _ => rfl) (fun _ _ _ _ _ => rfl) (fun _ _ _ _ _ => rfl) fun _ _ _ _ => rfl,
    fltTwo_of .fsub .fsubVl (fun _ _ _ _ => rfl) (fun _ _ _ _ _ _ => rfl) (fun _ _ _ _ _ => rfl) (fun _ _ _ _ _ => rfl) fun _ _ _ _ => rfl,
    fltTwo_of .fmul .fmulVl (fun _ _ _ _ => rfl) (fun _ _ _ _ _ _ => rfl) (fun _ _ _ _ _ => rfl) (fun _ _ _ _ _ => rfl) fun _ _ _ _ => rfl,
    fun s c h m d a b x hs hw hf => ?_, fun s c h m d a b x hs hw hf => ?_, fun s c h rm sat na aa d a n hs hw hf => ?_,
    fun s c h d a lit hs hw hf => ?_⟩
  · simp only [Instr.wf, Bool.and_eq_true] at hw
    exact vec_writes_word hs rfl hf (wf2_isDst hw.1.1) fun p _ => elemResult_rounded hw.2 m.rm m.sat c.ftz _
  · simp only [Instr.wf, Bool.and_eq_true] at hw
    refine vec_writes_word hs rfl hf (wf2_isDst hw.1.1.1.1) fun p _ => ?_
    rw [Ctx.elemVal_f32]
    exact elemResult_f32 m.rm m.sat c.ftz _
  · refine vec_writes_word hs rfl hf (wf2_isDst hw) fun p _ => ?_
    rw [Ctx.elemVal_f32]
    exact elemResult_f32 rm sat c.ftz _
  · refine vec_writes_word hs rfl hf (wfVl_isDst hw) fun p _ => ?_
    rw [Ctx.elemVal_f32]
    exact elemResult_f32 .rn false c.ftz _

/-! ### FMIN and FMAX (R113) -/

theorem Val.lt_irrefl (a : Val) : a.lt a = false := by
  cases a with
  | nan => rfl
  | inf s => cases s <;> rfl
  | fin s m e => exact decide_eq_false (le_refl _).not_gt

theorem Val.lt_asymm {a b : Val} (h : a.lt b = true) : b.lt a = false := by
  cases a with
  | nan => cases h
  | inf s =>
    cases b with
    | nan => cases h
    | inf t => cases s <;> cases t <;> first | rfl | cases h
    | fin t n f => cases s <;> first | rfl | cases h
  | fin s m e =>
    cases b with
    | nan => cases h
    | inf t => cases t <;> first | rfl | cases h
    | fin t n f =>
      have hq : (if f ≤ e then f else e) = (if e ≤ f then e else f) := by split <;> split <;> omega
      simp only [Val.lt, decide_eq_true_eq, decide_eq_false_iff_not] at h ⊢
      rw [hq]
      exact h.le.not_gt

theorem minMax_selects (f : Format) (isMax : Bool) (x y : Nat) : SelectsOf f isMax x y (f.minMax isMax x y) := by
  have hirr := Val.lt_irrefl
  unfold SelectsOf Format.minMax
  dsimp only
  by_cases hx : (f.val x).isNan = true
  · by_cases hy : (f.val y).isNan = true <;> simp [hx, hy]
  by_cases hy : (f.val y).isNan = true
  · simp [hx, hy]
  by_cases hz : (f.val x).isZero = true ∧ (f.val y).isZero = true
  · simp only [hx, hy, hz, Bool.and_self, Bool.false_eq_true, if_false, if_true, and_self]
    cases isMax <;> cases hn : (f.val x).isNeg <;> simp [hn]
  · have hz' : ((f.val x).isZero && (f.val y).isZero) = false := by simpa using hz
    simp only [hx, hy, hz, hz', Bool.and_self, Bool.false_eq_true, false_and, if_false]
    by_cases hlt : (f.val x).lt (f.val y) = true
    · cases isMax <;> simp [hlt, hirr, Val.lt_asymm hlt]
    · cases isMax <;> simp [hlt, hirr]

theorem minMax_lt {f : Format} (hfb : 1 ≤ f.fb) (isMax : Bool) {x y : Nat} (hx : x < 2 ^ f.width) (hy : y < 2 ^ f.width) :
    f.minMax isMax x y < 2 ^ f.width := by
  unfold Format.minMax
  dsimp only
  split_ifs <;> first | exact hx | exact hy | exact Format.nanBits_lt hfb

theorem minMaxElems_selects {m : FltMods} (h : m.ty.isFlt = true) (isMax ftz : Bool) (a b : Nat) :
    (VecEff.word (minMaxElems isMax m ftz a b)).shape m.ty ∧ ∀ i, i < m.ty.count → SelectsOf (fltFmt m.ty) isMax
      (fltBits (fltFmt m.ty) ftz m.na m.aa (elemOf m.ty a i)) (fltBits (fltFmt m.ty) ftz m.nb m.ab (elemOf m.ty b i))
      ((VecEff.word (minMaxElems isMax m ftz a b)).elem m.ty i) := by
  obtain ⟨h64, hfb, hwidth⟩ := Ty.isFlt_format h
  have hbits : ∀ neg abs x i, fltBits (fltFmt m.ty) ftz neg abs (elemOf m.ty x i) < 2 ^ (fltFmt m.ty).width := fun neg abs x i =>
    Format.fltBits_lt ftz neg abs (hwidth ▸ elemOf_lt m.ty x i)
  rw [word_eq_ofTy m.ty _ h64]
  obtain ⟨hshape, helem⟩ := elemResult_mapElems m.ty (f := fun i => (fltFmt m.ty).minMax isMax
    (fltBits (fltFmt m.ty) ftz m.na m.aa (elemOf m.ty a i)) (fltBits (fltFmt m.ty) ftz m.nb m.ab (elemOf m.ty b i))) (fun _ _ => rfl)
    fun i _ => hwidth ▸ minMax_lt hfb isMax (hbits _ _ _ _) (hbits _ _ _ _)
  refine ⟨hshape, fun i hi => ?_⟩
  rw [minMaxElems, helem i hi]
  exact minMax_selects ..

theorem minMaxOf_of (f : Head → FltMods → Operand → Operand → Operand → Instr) (fv : Head → Operand → Operand → Word → Instr) {isMax : Bool}
    (hex : ∀ h m d a b s, exec (f h m d a b) s = fltMinMax isMax h m d a b s)
    (hwf : ∀ h m d a b, (f h m d a b).wf = (wf2 h d a b && m.ty.isFlt && !m.nc && m.rm == .rn && !m.sat))
    (hexv : ∀ h d a lit s, exec (fv h d a lit) s = fltMinMaxVl isMax h d a lit s)
    (hwfv : ∀ h d a lit, (fv h d a lit).wf = wfVl h d a) : MinMaxOf f fv isMax := by
  refine ⟨fun s c h m d a b hs hw hf => ?_, fun s c h d a lit hs hw hf => ?_⟩
  · simp only [hwf, Bool.and_eq_true] at hw
    obtain ⟨⟨⟨⟨hw2, hty⟩, -⟩, -⟩, -⟩ := hw
    exact vec_writes_word hs (hex h m d a b s) hf (wf2_isDst hw2) fun p _ => minMaxElems_selects hty isMax c.ftz _ _
  · refine vec_writes_word hs (hexv h d a lit s) hf (wfVl_isDst (hwfv h d a lit ▸ hw)) fun p _ => ?_
    obtain ⟨hshape, hsel⟩ := minMaxElems_selects (m := plainFlt) rfl isMax c.ftz (c.src p .f32 a) lit.toNat
    refine ⟨hshape, ?_⟩
    have h0 := hsel 0 (by decide)
    rw [show plainFlt.ty = .f32 from rfl, elemOf_literal] at h0
    exact h0

/-! ### FCLASS (R115) -/

theorem fclassBits_class {x : Nat} (hx : x < 2 ^ 32) : ∃ k, k ≤ 8 ∧ fclassBits x = 2 ^ k ∧ ClassBit (BitVec.ofNat 32 x) k := by
  have hneg : (BitVec.ofNat 32 x).getLsbD 31 = (x / 2 ^ 31 == 1) := by
    rw [BitVec.getLsbD_ofNat, Nat.testBit_eq_decide_div_mod_eq]
    rw [decide_eq_true (show 31 < 32 by decide), Bool.true_and, Nat.mod_eq_of_lt (by omega), Bool.beq_eq_decide_eq]
  unfold ClassBit fclassBits Format.val Format.isSubnormal
  simp only [BitVec.toNat_ofNat, Nat.mod_eq_of_lt hx, hneg, show fmtF32.emax = 255 from rfl, show fmtF32.fb = 23 from rfl, show fmtF32.eb = 8 from rfl]
  generalize x / 2 ^ 23 % 2 ^ 8 = e
  generalize x % 2 ^ 23 = fr
  have hsign : (x / 2 ^ (8 + 23) % 2 == 1) = (x / 2 ^ 31 == 1) := by rw [Nat.mod_eq_of_lt (by omega)]
  rw [hsign]
  generalize (x / 2 ^ 31 == 1) = neg
  by_cases he : e = 255
  · subst he
    by_cases hfr : fr = 0
    · cases neg
      · exact ⟨7, by simp [hfr]⟩
      · exact ⟨0, by simp [hfr]⟩
    · exact ⟨8, by simp [hfr]⟩
  by_cases h0 : e = 0
  · subst h0
    by_cases hfr : fr = 0
    · cases neg
      · exact ⟨4, by simp [hfr]⟩
      · exact ⟨3, by simp [hfr]⟩
    · cases neg
      · exact ⟨5, by simp [hfr]⟩
      · exact ⟨2, by simp [hfr]⟩
  · cases neg
    · exact ⟨6, by simp [he, h0]⟩
    · exact ⟨1, by simp [he, h0]⟩

/-- Settles O9: FMIN and FMAX by the order of the values, FCLASS by exponent, fraction and sign. -/
theorem floatSelectResults : Obligations.FloatSelectResults := by
  unfold Obligations.FloatSelectResults
  refine ⟨minMaxOf_of .fmin .fminVl (fun _ _ _ _ _ _ => rfl) (fun _ _ _ _ _ => rfl) (fun _ _ _ _ _ => rfl) fun _ _ _ _ => rfl,
    minMaxOf_of .fmax .fmaxVl (fun _ _ _ _ _ _ => rfl) (fun _ _ _ _ _ => rfl) (fun _ _ _ _ _ => rfl) fun _ _ _ _ => rfl,
    fun s c h d a hs hw hf => vec_writes_word hs rfl hf (wfVl_isDst hw) fun p _ => ?_⟩
  obtain ⟨k, hk, hbits, hclass⟩ := fclassBits_class (c.src_lt32 p (ty := .f32) a rfl)
  exact ⟨k, hk, hbits ▸ word_isWord _, hclass⟩

/-! ### QDEC (R122) -/

theorem qdecBits_result {tyd : Ty} {j : Fin 8} (hty : (tyd == .f32 || (tyd == .b16x2 && decide (j.val ≤ 3))) = true) (rm : Rm) (ftz : Bool) (a : Nat) (k : Val) :
    ElemResult tyd (fun i => ((fltFmt tyd).ofVal rm false ftz (Val.mul (q4Val (elemOf .q4x8 a (if tyd = .f32 then j.val else 2 * j.val + i))) k)).bits)
      (.word (qdecBits tyd rm ftz j.val a k)) := by
  have hcases : tyd = .f32 ∨ tyd = .b16x2 := by
    simp only [Bool.or_eq_true, Bool.and_eq_true, beq_iff_eq] at hty
    exact hty.imp_right And.left
  rcases hcases with rfl | rfl
  · exact elemResult_f32 rm false ftz _
  · exact elemResult_rounded (ty := .b16x2) rfl rm false ftz fun i => Val.mul (q4Val (elemOf .q4x8 a (2 * j.val + i))) k

/-- Settles O25: each code's level times the scale is rounded once. -/
theorem quantDecodeResults : Obligations.QuantDecodeResults := by
  unfold Obligations.QuantDecodeResults
  refine ⟨fun s c h tyd rm j d a sc hs hw hf => ?_, fun s c h d a lit hs hw hf => ?_, fun k _ => rfl⟩
  · simp only [Instr.wf, Bool.and_eq_true] at hw
    refine vec_writes_word hs rfl hf (wfVl_isDst hw.1.1) fun p _ => ?_
    have hk : (match c.srcOpt p .f32 sc with
        | none => Val.fin false 1 0
        | some x => (cvSrc .f32 c.ftz x).1) = if sc = .none then .fin false 1 0 else (cvSrc .f32 c.ftz (c.src p .f32 sc)).1 := by
      cases sc <;> rfl
    rw [← hk]
    exact qdecBits_result hw.1.2 rm c.ftz (c.src p .q4x8 a) _
  · exact vec_writes_word hs rfl hf (wfVl_isDst hw) fun p _ => elemResult_f32 .rn false c.ftz _

end Sys2Proof.Machine
end

section
/-! Proof of `Obligations.LaneExchangeResults`: what a cross-lane instruction leaves (`cross_next`), and values taken from a
position (`fromPos_taken`). -/

namespace Sys2Proof.Machine

/-! ### What a cross-lane instruction leaves (R126) -/

/-- Without a `.uni` form, U is 0 (R77). -/
theorem Head.ok_uni {h : Head} (hw : h.ok false = true) : h.u = false := by
  simp only [Head.ok, Bool.and_eq_true, Bool.or_false, Bool.not_eq_true'] at hw
  exact hw.2

theorem Ctx.source_own {h : Head} (hu : h.u = false) (c : Ctx) (p : Thread) : c.source h p = p := by simp [Ctx.source, hu]

theorem Operand.isDst_not_s {d : Operand} {u : Bool} {w : Nat} (hd : d.isDst u w = true) (hu : u = false) (n : Fin 64) : d ≠ .s n := by
  rintro rfl
  rw [hu] at hd
  cases hd

/-- The effect of one participant: a participant without a result is not written. -/
def effOf (f : Option VecEff) : VecEff := f.getD { words := [], preds := [] }

theorem cross_next {s : State} {c : Ctx} {h : Head} {ops : List (Operand × Nat)} {d : Operand} {f : Ctx → Thread → Option VecEff} {i : Instr}
    (hs : Seated s c) (hi : exec i s = cross s h ops d f) (hf : c.fits ops) :
    exec i s = .next (writeAll s d (c.parts h) (fun p => effOf (f c p))).advance := by
  rw [hi]
  refine (run_spec hs.ctx hf _).trans ?_
  unfold writeAll
  congr 2
  refine congrArg (fun g => List.foldl g s (c.parts h)) (funext fun s' => funext fun p => ?_)
  dsimp only
  cases f c p with
  | none => exact (writeEff_none _ _ _).symm
  | some e => rfl

/-- What every cross-lane instruction does that writes a destination of every participant. -/
theorem cross_writes {s : State} {c : Ctx} {h : Head} {ops : List (Operand × Nat)} {d : Operand} {w : Nat} {f : Ctx → Thread → VecEff}
    {i : Instr} {P : Thread → VecEff → Prop} (hs : Seated s c) (hi : exec i s = cross s h ((d, w) :: ops) d (fun c t => some (f c t)))
    (hu : h.u = false) (hf : c.fits ((d, w) :: ops)) (hd : d.isDst h.u w = true)
    (hP : ∀ p ∈ c.parts h, P p (f c p) ∧ (f c p).words.length = w ∧ (f c p).preds = []) : Completes i s c h d w [] P := by
  refine cross_completes w [] hs hi hu hf (fun _ _ => List.mem_cons_self) (Operand.isDst_not_s hd hu) (fun p hp => ?_) (fun p hp => ?_)
  all_goals obtain ⟨hPp, hlen, hpreds⟩ := hP p hp
  · exact ⟨hPp, hlen.le, fun q hq => by rw [Option.getD_some, hpreds] at hq; cases hq⟩
  · rw [Option.getD_some, hpreds]
    exact List.nodup_nil

theorem cross_writes_ofTy {s : State} {c : Ctx} {h : Head} {ops : List (Operand × Nat)} {d : Operand} {ty : Ty} {f : Ctx → Thread → Nat}
    {i : Instr} {P : Thread → VecEff → Prop} (hs : Seated s c)
    (hi : exec i s = cross s h ((d, Ty.words ty) :: ops) d (fun c t => some (.ofTy ty (f c t)))) (hu : h.u = false)
    (hf : c.fits ((d, Ty.words ty) :: ops)) (hd : d.isDst h.u (Ty.words ty) = true) (hP : ∀ p ∈ c.parts h, P p (.ofTy ty (f c p))) :
    Completes i s c h d (Ty.words ty) [] P :=
  cross_writes hs hi hu hf hd fun p hp => ⟨hP p hp, ofTy_shape ty _⟩

theorem cross_writes_word {s : State} {c : Ctx} {h : Head} {ops : List (Operand × Nat)} {d : Operand} {f : Ctx → Thread → Nat}
    {i : Instr} {P : Thread → VecEff → Prop} (hs : Seated s c)
    (hi : exec i s = cross s h ((d, 1) :: ops) d (fun c t => some (.word (f c t)))) (hu : h.u = false)
    (hf : c.fits ((d, 1) :: ops)) (hd : d.isDst h.u 1 = true) (hP : ∀ p ∈ c.parts h, P p (.word (f c p))) : Completes i s c h d 1 [] P :=
  cross_writes hs hi hu hf hd fun p hp => ⟨hP p hp, rfl, rfl⟩

/-! ### Values of positions (R126, R127) -/

theorem Ctx.at?_some {c : Ctx} {h : Head} {q : Nat} {x : Thread} (hx : c.at? h q = some x) : x ∈ c.parts h ∧ c.pos x = q :=
  ⟨List.mem_of_find?_eq_some hx, by simpa using List.find?_some hx⟩

theorem Ctx.at?_none {c : Ctx} {h : Head} {q : Nat} (hx : c.at? h q = none) : ∀ x ∈ c.parts h, c.pos x ≠ q := by
  simpa [Ctx.at?, List.find?_eq_none] using hx

theorem fromPos_taken (c : Ctx) (h : Head) (p : Thread) (q : Nat) (f : Thread → Nat) : TakenFrom c h p q f (c.fromPos h p q f) := by
  unfold Ctx.fromPos
  cases hx : c.at? h q with
  | none => exact .inr ⟨Ctx.at?_none hx, rfl⟩
  | some x =>
    obtain ⟨hmem, hpos⟩ := Ctx.at?_some hx
    exact .inl ⟨x, hmem, hpos, rfl⟩

theorem fromPos_lt {c : Ctx} {h : Head} {f : Thread → Nat} {b : Nat} (hf : ∀ x, f x < b) (p : Thread) (q : Nat) : c.fromPos h p q f < b := by
  unfold Ctx.fromPos
  split
  · exact hf _
  · exact hf p

/-- The position that XCHG names for the participant at `pos` (R127). -/
def xchgPos (mode : XchgMode) (pos m : Nat) : Nat :=
  match mode with
  | .up => if m ≤ pos then pos - m else pos
  | .down => pos + m
  | _ => pos ^^^ m

theorem exchangeValue_iff (c : Ctx) (h : Head) (mode : XchgMode) (p : Thread) (m : Nat) (f : Thread → Nat) (v : Nat) :
    ExchangeValue c h mode p m f v ↔
      if xchgPos mode (c.pos p) m < c.grp.limit ∧ xchgPos mode (c.pos p) m ≠ c.pos p then
        if mode = .tr then
          (∃ x ∈ c.parts h, c.pos x = xchgPos mode (c.pos p) m ∧ v = (if c.pos p &&& m = 0 then f p % 2 ^ 32 + 2 ^ 32 * (f x % 2 ^ 32)
            else f x / 2 ^ 32 + 2 ^ 32 * (f p / 2 ^ 32))) ∨ ((∀ x ∈ c.parts h, c.pos x ≠ xchgPos mode (c.pos p) m) ∧ v = f p)
        else TakenFrom c h p (xchgPos mode (c.pos p) m) f v
      else TakenFrom c h p (c.pos p) f v := by cases mode <;> exact Iff.rfl

/-- Outside the issue group there is no partner. -/
theorem xchgPartner_eq (mode : XchgMode) (limit pos m : Nat) :
    xchgPartner mode limit pos m = if xchgPos mode pos m < limit then xchgPos mode pos m else pos := by cases mode <;> rfl

theorem xchgBits_exchange {c : Ctx} {h : Head} {p : Thread} (hp : p ∈ c.parts h) (mode : XchgMode) (m : Nat) (f : Thread → Nat) :
    ExchangeValue c h mode p m f (xchgBits c h mode p m f) := by
  have hown : TakenFrom c h p (c.pos p) f (f p) := .inl ⟨p, hp, rfl, rfl⟩
  rw [exchangeValue_iff, xchgBits, xchgPartner_eq]
  generalize xchgPos mode (c.pos p) m = q
  by_cases hq : q < c.grp.limit ∧ q ≠ c.pos p
  · rw [if_pos hq, if_pos hq.1]
    by_cases htr : mode = .tr
    · rw [if_pos htr, if_pos (by simpa using htr)]
      cases hx : c.at? h q with
      | none => exact .inr ⟨Ctx.at?_none hx, rfl⟩
      | some x =>
        obtain ⟨hmem, hpos⟩ := Ctx.at?_some hx
        refine .inl ⟨x, hmem, hpos, ?_⟩
        simp only [hq.2, if_false, Nat.mul_comm (2 ^ 32)]
    · rw [if_neg htr, if_neg (by simpa using htr)]
      exact fromPos_taken c h p q f
  · have hpartner : (if q < c.grp.limit then q else c.pos p) = c.pos p := by
      split
      next hlim => exact not_not.mp fun hne => hq ⟨hlim, hne⟩
      next => rfl
    rw [if_neg hq, hpartner]
    split
    · split
      · rw [if_pos rfl]; exact hown
      · exact hown
    · exact fromPos_taken c h p _ f

theorem xchgBits_lt {c : Ctx} {h : Head} {f : Thread → Nat} {ty : Ty} (hf : ∀ x, f x < 2 ^ (32 * Ty.words ty)) {mode : XchgMode}
    (hty : mode = .tr → ty = .i64) (p : Thread) (m : Nat) : xchgBits c h mode p m f < 2 ^ (32 * Ty.words ty) := by
  unfold xchgBits
  dsimp only
  split
  next htr =>
    obtain rfl := hty (by simpa using htr)
    change ∀ x, f x < 2 ^ 64 at hf
    change _ < 2 ^ 64
    split
    next x _ =>
      have hfx := hf x
      have hfp := hf p
      split_ifs <;> omega
    next => exact hf p
  next => exact fromPos_lt hf p _

theorem xchg_completes {s : State} {c : Ctx} {h : Head} {ops : List (Operand × Nat)} {d a : Operand} {ty : Ty} {mode : XchgMode} {i : Instr}
    {m : Ctx → Thread → Nat} (hs : Seated s c)
    (hi : exec i s = cross s h ((d, Ty.words ty) :: ops) d (fun c t => some (.ofTy ty (xchgBits c h mode t (m c t) (fun x => c.src x ty a)))))
    (hu : h.ok false = true) (hf : c.fits ((d, Ty.words ty) :: ops)) (hd : d.isDst h.u (Ty.words ty) = true) (hty : mode = .tr → ty = .i64) :
    Completes i s c h d (Ty.words ty) [] (fun p e => e.shape ty ∧ ExchangeValue c h mode p (m c p) (fun x => c.src x ty a) (wordsNat e.words)) := by
  refine cross_writes_ofTy hs hi (Head.ok_uni hu) hf hd fun p hp => ⟨ofTy_shape ty _, ?_⟩
  rw [wordsNat_ofTy ty _ (xchgBits_lt (fun x => c.src_lt x ty a) hty p _)]
  exact xchgBits_exchange hp mode _ _

/-! ### XPERM (R128) -/

/-- Writes to V registers leave the S rows (R234). -/
theorem hg?_writeAll_v {d : Operand} (hd : ∀ n, d ≠ .s n) (ps : List Thread) (e : Thread → VecEff) (s : State) (team role idx : Nat) :
    (writeAll s d ps e).hg? team role idx = s.hg? team role idx := by
  unfold writeAll
  induction ps generalizing s with
  | nil => rfl
  | cons p r ih =>
    rw [List.foldl_cons, ih, hg?_writeEff]
    cases d with
    | s n => exact absurd rfl (hd n)
    | _ => cases s.hg? team role idx <;> rfl

theorem hg?_advance (s : State) (team role idx : Nat) : s.advance.hg? team role idx = s.hg? team role idx := by
  unfold State.advance
  split <;> rfl

theorem thread?_writeAll_advance {s : State} {c : Ctx} {h : Head} {d : Operand} {e : Thread → VecEff} (hs : Seated s c) {p : Thread}
    (hp : p ∈ c.parts h) {u : Thread} (hu : s.thread? p.team p.tid = some u) :
    (writeAll s d (c.parts h) e).advance.thread? p.team p.tid = some ((u.take d (e p)).movedOn c.grp s.cur.port s.clk) := by
  have only := writeAll_only s d (c.parts h) e
  have hgrp : ((writeAll s d (c.parts h) e).core? (writeAll s d (c.parts h) e).cur.core).bind
      (fun k => (k.port (writeAll s d (c.parts h) e).cur.port).group) = some c.grp := by
    rw [only]
    exact (ctx?_group hs.ctx).1
  rw [(advance_spec _ c.grp hgrp).1, thread?_writeAll s d _ e (hs.parts_nodup h) p hp, hu, Option.map_some, Option.map_some,
    if_pos (ths_key hs.ctx (parts_ths hp)), only]

/-- XPERM under the patterns `pat`: the result of `xpermBits`, and under KEEP nothing. -/
theorem permutes_of {s : State} {c : Ctx} {h : Head} {ops : List (Operand × Nat)} {d : Operand} {ty : Ty} {i : Instr} {f : Ctx → Thread → Nat}
    {pat : Ctx → Thread → BitVec 512} (hs : Seated s c)
    (hi : exec i s = cross s h ((d, Ty.words ty) :: ops) d (fun c t => (xpermBits c h (pat c t) t (f c)).map (VecEff.ofTy ty)))
    (hu : h.ok false = true) (hf : c.fits ((d, Ty.words ty) :: ops)) (hd : d.isDst h.u (Ty.words ty) = true)
    (hlt : ∀ x, f c x < 2 ^ (32 * Ty.words ty)) :
    Permutes i s c h d (Ty.words ty) (pat c) (fun p e => PermuteValue c h (pat c p) p (f c) ty e) := by
  have hown := Ctx.source_own (Head.ok_uni hu) c
  have hnots := Operand.isDst_not_s hd (Head.ok_uni hu)
  set e : Thread → VecEff := fun p => effOf ((xpermBits c h (pat c p) p (f c)).map (VecEff.ofTy ty)) with he
  have hkeep : ∀ p, (pat c p).getLsbD (384 + c.pos p) = true → e p = { words := [], preds := [] } := fun p hp => by
    simp only [he, xpermBits, hp, if_true]
    rfl
  have hval : ∀ p, (pat c p).getLsbD (384 + c.pos p) = false → ∃ v, e p = .ofTy ty v ∧ v < 2 ^ (32 * Ty.words ty) ∧
      (if (pat c p).toNat / 2 ^ (6 * c.pos p) % 64 < c.grp.limit then TakenFrom c h p ((pat c p).toNat / 2 ^ (6 * c.pos p) % 64) (f c) v else v = f c p) := by
    intro p hp
    simp only [he, xpermBits, hp, Bool.false_eq_true, if_false]
    split
    · exact ⟨_, rfl, fromPos_lt hlt p _, fromPos_taken c h p _ (f c)⟩
    · exact ⟨_, rfl, hlt p, rfl⟩
  have hlen : ∀ p, (e p).words.length ≤ Ty.words ty ∧ (e p).preds = [] := fun p => by
    cases hp : (pat c p).getLsbD (384 + c.pos p) with
    | true => rw [hkeep p hp]; exact ⟨Nat.zero_le _, rfl⟩
    | false =>
      obtain ⟨v, hv, -⟩ := hval p hp
      rw [hv]
      exact ⟨(ofTy_shape ty v).1.le, rfl⟩
  refine ⟨_, e, cross_next hs hi hf, fun p hp => ⟨?_, (hlen p).1, fun q hq => ?_⟩, ?_, fun _ team role idx g hg => ?_, fun p hp hk u hu' => ?_⟩
  · unfold PermuteValue
    cases hk : (pat c p).getLsbD (384 + c.pos p) with
    | true => rw [if_pos hk]; exact hkeep p hk
    | false =>
      obtain ⟨v, hv, hvlt, hres⟩ := hval p hk
      rw [if_neg (Bool.eq_false_iff.mp hk), hv, wordsNat_ofTy ty v hvlt]
      exact ⟨ofTy_shape ty v, hres⟩
  · rw [(hlen p).2] at hq
    cases hq
  · have hdone := writeAll_done (h := h) (d := d) (w := Ty.words ty) (pds := []) e hs (fun n hn => ?_) (fun n hn => absurd hn (hnots n))
      (fun p _ => (hlen p).1) (fun p _ q hq => by rw [(hlen p).2] at hq; cases hq) (fun p _ => by rw [(hlen p).2]; exact List.nodup_nil)
    · simp only [hown] at hdone
      exact hdone
    · have := hf _ List.mem_cons_self
      rw [hn] at this
      exact of_decide_eq_true this
  · exact ⟨g, by rw [hg?_advance, hg?_writeAll_v hnots, hg], rfl⟩
  · refine ⟨_, thread?_writeAll_advance hs hp hu', fun n => ?_⟩
    rw [Thread.movedOn_only]
    change (u.take d (e p)).reg n = u.reg n
    refine Thread.take_reg_other _ _ _ _ ?_
    simp only [hown] at hk
    rw [hkeep p hk]
    rintro ⟨k, -, h1, h2⟩
    exact absurd h2 (by simpa using h1)

/-- The position that the lowest participant names (R129). -/
theorem leadPos_eq {c : Ctx} {h : Head} {lead : Thread} (hl : (c.parts h).head? = some lead) (f : Thread → Nat) : c.leadPos h f = f lead % 64 := by
  unfold Ctx.leadPos
  cases hp : c.parts h with
  | nil => rw [hp] at hl; cases hl
  | cons x r => rw [hp] at hl; cases hl; rfl

/-- Settles O26: values taken from positions; XPERM leaves a participant under KEEP alone. -/
theorem laneExchangeResults : Obligations.LaneExchangeResults := by
  unfold Obligations.LaneExchangeResults
  refine ⟨fun s c h ty mode d a m hs hw hf => ?_, fun s c h d a lit hs hw hf => ?_, fun s c h ty d a x hs hw hf => ?_, fun s c h d a lit hs hw hf => ?_,
    fun s c h ty d a q hs hw hf => ?_, fun s c h d a lit hs hw hf => ?_⟩ <;> simp only [Instr.wf, Bool.and_eq_true] at hw
  · obtain ⟨⟨⟨⟨⟨hu, -⟩, htr⟩, hd⟩, -⟩, -⟩ := hw
    refine xchg_completes (m := fun c p => (c.val p m).toNat % 64) hs rfl hu hf hd fun hm => ?_
    simpa [hm] using htr
  · exact xchg_completes (ty := .i32) (m := fun _ _ => lit.toNat % 64) hs rfl hw.1.1 hf hw.1.2 fun hm => nomatch hm
  · obtain ⟨⟨⟨⟨hu, -⟩, hd⟩, -⟩, -⟩ := hw
    exact permutes_of (f := fun c y => c.src y ty a) (pat := fun c p => s.pattern c ((c.val p x).toNat % 64)) hs rfl hu hf hd fun y => c.src_lt y ty a
  · exact permutes_of (ty := .i32) (f := fun c y => c.src y .i32 a) (pat := fun c _ => s.pattern c (lit.toNat % 64)) hs rfl hw.1.1 hf hw.1.2 fun y => c.src_lt y .i32 a
  · obtain ⟨⟨⟨⟨hu, -⟩, hd⟩, -⟩, -⟩ := hw
    refine cross_writes_ofTy hs rfl (Head.ok_uni hu) hf hd fun p _ => ⟨ofTy_shape ty _, fun lead hl => ?_⟩
    rw [wordsNat_ofTy ty _ (fromPos_lt (fun x => c.src_lt x ty a) p _), leadPos_eq hl]
    exact fromPos_taken ..
  · refine cross_writes_ofTy (ty := .i32) hs rfl (Head.ok_uni hw.1.1) hf hw.1.2 fun p _ => ⟨ofTy_shape .i32 _, ?_⟩
    rw [wordsNat_ofTy .i32 _ (fromPos_lt (fun x => c.src_lt x .i32 a) p _)]
    exact fromPos_taken ..

end Sys2Proof.Machine
end

section
/-! Proof of `Obligations.LaneReductionResults`: the integer sum of XRED as a sum of words (`foldBits_sum`), the segment of XSCAN
(`segmentBefore_split`), and the masks and lowest positions of XBALLOT and XMATCH. -/

namespace Sys2Proof.Machine

/-! ### XRED (R130) -/

theorem ofNat_wrapBits {ty : Ty} (h : ty.is32 = true) (r : Int) : BitVec.ofNat 32 (Ty.wrapBits ty r) = BitVec.ofInt 32 r := by
  have hw : ty.width = 32 := by cases ty <;> first | rfl | cases h
  refine BitVec.eq_of_toNat_eq ?_
  rw [BitVec.toNat_ofNat, BitVec.toNat_ofInt, Ty.wrapBits, hw]
  exact Nat.mod_eq_of_lt (by omega)

theorem ofInt_toInt {ty : Ty} (h : ty.is32 = true) (x : Nat) : BitVec.ofInt 32 (Ty.toInt ty x) = BitVec.ofNat 32 x := by
  have hw : ty.width = 32 := by cases ty <;> first | rfl | cases h
  refine BitVec.eq_of_toNat_eq ?_
  rw [BitVec.toNat_ofNat, BitVec.toNat_ofInt, Ty.toInt, hw]
  split <;> omega

/-- An integer fold of additions, wrapped at its end, is the sum of the words. -/
theorem foldBits_sum {m : RedMods} (hty : m.ty.is32 = true) (hop : m.op = 0) (hsat : m.sat = false) (ftz : Bool) (xs : List Nat) (hne : xs ≠ []) :
    BitVec.ofNat 32 (foldBits m ftz false xs) = (xs.map (BitVec.ofNat 32)).sum := by
  obtain ⟨x, r, rfl⟩ := List.exists_cons_of_ne_nil hne
  have hf32 : (m.ty == .f32) = false := by cases hm : m.ty <;> first | rfl | (rw [hm] at hty; cases hty)
  have hfold : ∀ (r : List Nat) (a : Int), BitVec.ofInt 32 (r.foldl (fun acc y => acc + Ty.toInt m.ty y) a) = BitVec.ofInt 32 a + (r.map (BitVec.ofNat 32)).sum := by
    intro r
    induction r with
    | nil => intro a; simp
    | cons y r ih => intro a; rw [List.foldl_cons, ih, BitVec.ofInt_add, ofInt_toInt hty, List.map_cons, List.sum_cons, add_assoc]
  simp only [foldBits, hf32, hsat, hop, fitInt, foldInt, Bool.false_eq_true, if_false]
  rw [ofNat_wrapBits hty, List.map_cons, List.sum_cons, ← ofInt_toInt hty x]
  exact hfold r _

/-! ### XSCAN (R131) -/

/-- One participant taken into the segments: the segment with it, and what stood before it. -/
def segStep (flag : Thread → Bool) (val : Thread → Nat) (acc : List Nat × List Nat) (x : Thread) : List Nat × List Nat :=
  ((if flag x then [] else acc.1) ++ [val x], if flag x then [] else acc.1)

/-- The segment that participants leave open: those from the last that starts one. -/
theorem segment_open (flag : Thread → Bool) (val : Thread → Nat) (l : List Thread) : ∃ out seg, l = out ++ seg ∧
    (l.foldl (segStep flag val) ([], [])).1 = seg.map val ∧ (∀ x ∈ seg.tail, flag x = false) ∧ (seg = [] → out = []) ∧
    (∀ x, seg.head? = some x → flag x = true ∨ out = []) := by
  induction l using List.reverseRecOn with
  | nil => exact ⟨[], [], rfl, rfl, by simp, fun _ => rfl, by simp⟩
  | append_singleton l x ih =>
    obtain ⟨out, seg, rfl, hval, htail, hnil, hhead⟩ := ih
    rw [List.foldl_append, List.foldl_cons, List.foldl_nil]
    cases hx : flag x with
    | true =>
      exact ⟨out ++ seg, [x], rfl, by simp [segStep, hx], by simp, by simp, by simp [hx]⟩
    | false =>
      refine ⟨out, seg ++ [x], List.append_assoc .., by rw [segStep, hval, hx]; simp, fun y hy => ?_, fun h => by simp at h, fun y hy => ?_⟩
      · cases seg with
        | nil => cases hy
        | cons z r =>
          rcases List.mem_append.mp hy with hy | hy
          · exact htail y hy
          · rw [List.mem_singleton.mp hy, hx]
      · cases seg with
        | nil => exact .inr (hnil rfl)
        | cons z r => exact hhead y hy

theorem segmentBefore_split {c : Ctx} {h : Head} {flag : Thread → Bool} {val : Thread → Nat} {p : Thread} {pre post : List Thread}
    (hparts : c.parts h = pre ++ p :: post) (hpre : ∀ x ∈ pre, c.pos x < c.pos p) (hpost : ∀ x ∈ post, c.pos p < c.pos x) :
    ∃ out seg, pre = out ++ seg ∧ segmentBefore c h flag val p = seg.map val ∧ (∀ x ∈ seg.tail, flag x = false) ∧
      (seg = [] → flag p = true ∨ out = []) ∧ (seg ≠ [] → flag p = false) ∧ (∀ x, seg.head? = some x → flag x = true ∨ out = []) := by
  have hupto : (c.parts h).filter (fun x => decide (c.pos x ≤ c.pos p)) = pre ++ [p] := by
    rw [hparts, List.filter_append, List.filter_cons_of_pos (by simp), List.filter_eq_self.mpr fun x hx => decide_eq_true (hpre x hx).le,
      List.filter_eq_nil_iff.mpr fun x hx => by simpa using hpost x hx]
  have hseg : segmentBefore c h flag val p = if flag p then [] else (pre.foldl (segStep flag val) ([], [])).1 := by
    unfold segmentBefore
    rw [hupto]
    change ((pre ++ [p]).foldl (segStep flag val) ([], [])).2 = _
    rw [List.foldl_append]
    rfl
  rw [hseg]
  cases hp : flag p with
  | true => exact ⟨pre, [], (List.append_nil _).symm, rfl, by simp, fun _ => .inl rfl, fun h => absurd rfl h, by simp⟩
  | false =>
    obtain ⟨out, seg, hsplit, hval, htail, hnil, hhead⟩ := segment_open flag val pre
    exact ⟨out, seg, hsplit, hval, htail, fun h => .inr (hnil h), fun _ => rfl, hhead⟩

theorem xscanBits_scan (c : Ctx) (h : Head) (m : RedMods) {flagB : Thread → Bool} {flag : Thread → Prop} (hflag : ∀ x, flagB x = true ↔ flag x)
    (f : Thread → Nat) (p : Thread) : ScanValue c h m flag f p (.word (xscanBits c h m flagB f p)) := by
  intro pre post hparts hpre hpost
  have hnot : ∀ {x}, flagB x = false → ¬flag x := fun hx hf => by rw [(hflag _).mpr hf] at hx; cases hx
  obtain ⟨out, seg, hsplit, hval, htail, hnil, hcons, hhead⟩ := segmentBefore_split (flag := flagB) (val := f) hparts hpre hpost
  refine ⟨out, seg, hsplit, fun x hx => hnot (htail x hx), fun hs => (hnil hs).imp_left (hflag p).mp, fun hs => hnot (hcons hs),
    fun x hx => (hhead x hx).imp_left (hflag x).mp, ?_⟩
  rw [xscanBits, hval]
  simp only [List.isEmpty_iff, List.map_eq_nil_iff]
  exact word_isWord _

/-! ### XBALLOT and XMATCH (R132, R133) -/

theorem posMask_positions {c : Ctx} {h : Head} {b : Thread → Bool} {q : Thread → Prop} (hq : ∀ x, b x = true ↔ q x) :
    PosMask c h q (wordsNat (VecEff.ofTy .i64 (c.posMask h b).toNat).words) := by
  intro j hj
  rw [wordsNat_ofTy .i64 _ (c.posMask h b).isLt, BitVec.testBit_toNat, Ctx.posMask, maskOf_getLsbD _ _ hj, decide_eq_true_eq, List.mem_map]
  simp only [List.mem_filter, hq, and_assoc]

/-- The lowest of the positions whose participants satisfy a condition, where one does. -/
theorem lowest_position {c : Ctx} {h : Head} {b : Thread → Bool} {p : Thread} (hp : p ∈ c.parts h) (hb : b p = true) :
    ∃ x ∈ c.parts h, b x = true ∧ (((c.parts h).filter b).map c.pos).headD 0 = c.pos x ∧
      ((c.parts h).Pairwise (fun y z => c.pos y ≤ c.pos z) → ∀ y ∈ c.parts h, b y = true → c.pos x ≤ c.pos y) := by
  have hmem : p ∈ (c.parts h).filter b := List.mem_filter.mpr ⟨hp, hb⟩
  obtain ⟨x, r, hxr⟩ := List.exists_cons_of_ne_nil (List.ne_nil_of_mem hmem)
  have hx : x ∈ (c.parts h).filter b := hxr ▸ List.mem_cons_self
  obtain ⟨hxp, hxb⟩ := List.mem_filter.mp hx
  refine ⟨x, hxp, hxb, by rw [hxr]; rfl, fun hsorted y hy hyb => ?_⟩
  have hpw := hsorted.sublist (List.filter_sublist (p := b))
  have hyr : y ∈ x :: r := hxr ▸ List.mem_filter.mpr ⟨hy, hyb⟩
  rw [hxr, List.pairwise_cons] at hpw
  rcases List.mem_cons.mp hyr with rfl | hyr
  · exact le_refl _
  · exact hpw.1 y hyr

theorem RedMods.ok_ty {m : RedMods} (h : m.ok = true) : m.ty.is32 = true ∨ m.ty = .f32 := by
  simp only [RedMods.ok, Bool.and_eq_true, Bool.or_eq_true, beq_iff_eq] at h
  exact h.1.1.imp_right And.left

/-- Settles O27: XRED and XSCAN as folds, of the whole group and of the segment; XBALLOT and XMATCH by the participants filtered. -/
theorem laneReductionResults : Obligations.LaneReductionResults := by
  unfold Obligations.LaneReductionResults
  refine ⟨fun s c h m d a hs hw hf => ?_, fun s c h m d a f hs hw hf => ?_, fun s c h d a lit hs hw hf => ?_, fun s c h count d a hs hw hf => ?_,
    fun s c h ty low d a hs hw hf => ?_⟩ <;> simp only [Instr.wf, Bool.and_eq_true] at hw
  · obtain ⟨⟨⟨⟨hu, hm⟩, -⟩, hd⟩, -⟩ := hw
    refine cross_writes_word hs rfl (Head.ok_uni hu) hf hd fun p hp => ⟨word_isWord _, fun hop hflt hsat => ?_⟩
    have hne : (c.parts h).map (fun x => c.src x m.ty a) ≠ [] := List.ne_nil_of_mem (List.mem_map_of_mem hp)
    have hsum := foldBits_sum ((RedMods.ok_ty hm).resolve_right hflt) hop hsat c.ftz _ hne
    rw [List.map_map] at hsum
    exact hsum ▸ word_isWord _
  · obtain ⟨⟨⟨⟨hu, -⟩, hd⟩, -⟩, -⟩ := hw
    refine cross_writes_word hs rfl (Head.ok_uni hu) hf hd fun p _ => xscanBits_scan c h m (fun x => ?_) _ p
    cases f <;> simp [Operand.isNone]
  · exact cross_writes_word hs rfl (Head.ok_uni hw.1.1) hf hw.1.2 fun p _ => xscanBits_scan c h _ (fun x => bne_iff_ne) _ p
  · cases count
    · exact cross_writes_ofTy (ty := .i64) hs rfl (Head.ok_uni hw.1.1) hf hw.1.2 fun p _ => ⟨ofTy_shape .i64 _, posMask_positions fun x => bne_iff_ne⟩
    · exact cross_writes_word hs rfl (Head.ok_uni hw.1.1) hf hw.1.2 fun p _ => word_isWord _
  · obtain ⟨⟨⟨hu, -⟩, hd⟩, -⟩ := hw
    cases low
    · exact cross_writes_ofTy (ty := .i64) hs rfl (Head.ok_uni hu) hf hd fun p _ => ⟨ofTy_shape .i64 _, posMask_positions fun x => beq_iff_eq⟩
    · refine cross_writes_word hs rfl (Head.ok_uni hu) hf hd fun p hp => ?_
      obtain ⟨x, hx, hsame, hpos, hlow⟩ := lowest_position (b := fun x => c.src x ty a == c.src p ty a) hp (beq_self_eq_true _)
      refine ⟨x, hx, beq_iff_eq.mp hsame, hpos ▸ word_isWord _, fun hsorted y hy he => hlow hsorted y hy (beq_iff_eq.mpr he)⟩

end Sys2Proof.Machine
end

section
/-! Proof of `Obligations.HomeGroupAccessResults`: XREAD as a cross-lane instruction, and the writes of XWRITE as they come to one
thread (`thread?_xwrites`), of which the last that names it stays. -/

namespace Sys2Proof.Machine

/-! ### The writes of XWRITE (R135) -/

/-- The write of participant `p` reaches a thread. -/
def reachesThread (s : State) (c : Ctx) (f : Thread → Word × Nat) (team tid : Nat) (p : Thread) : Bool :=
  (s.sibling c p (f p).2).any (fun x => x.team == team && x.tid == tid)

theorem reachesThread_iff {s : State} {c : Ctx} {f : Thread → Word × Nat} {team tid : Nat} {p : Thread} :
    reachesThread s c f team tid p = true ↔ ∃ x, s.sibling c p (f p).2 = some x ∧ x.team = team ∧ x.tid = tid := by
  simp [reachesThread, Option.any_eq_true]

/-- A thread after the writes of those participants that reach it, in their order. -/
def Thread.receive (u : Thread) (d : Operand) (reaches : Thread → Bool) (f : Thread → Word × Nat) (ps : List Thread) : Thread :=
  ps.foldl (fun u p => if reaches p then u.take d { words := [(f p).1], preds := [] } else u) u

theorem Thread.receive_snoc (u : Thread) (d : Operand) (reaches : Thread → Bool) (f : Thread → Word × Nat) (ps : List Thread) (p : Thread) :
    u.receive d reaches f (ps ++ [p]) =
      if reaches p then (u.receive d reaches f ps).take d { words := [(f p).1], preds := [] } else u.receive d reaches f ps := by
  rw [Thread.receive, List.foldl_append]
  rfl

/-- The writes of XWRITE, made for some participants. -/
def xwrites (s : State) (c : Ctx) (d : Operand) (f : Thread → Word × Nat) (ps : List Thread) (s' : State) : State :=
  ps.foldl (fun s' t => match s.sibling c t (f t).2 with
    | some x => s'.writeEff x d { words := [(f t).1], preds := [] }
    | none => s') s'

theorem xwriteAll_eq (s : State) (c : Ctx) (h : Head) (d : Operand) (f : Thread → Word × Nat) :
    xwriteAll s c h d f = xwrites s c d f (c.parts h) s := rfl

theorem thread?_xwrites (s : State) (c : Ctx) (d : Operand) (f : Thread → Word × Nat) (ps : List Thread) (s' : State) (team tid : Nat) :
    (xwrites s c d f ps s').thread? team tid = (s'.thread? team tid).map (fun u => u.receive d (reachesThread s c f team tid) f ps) := by
  induction ps generalizing s' with
  | nil => cases h : s'.thread? team tid <;> exact h
  | cons p r ih =>
    refine (ih _).trans ?_
    dsimp only
    cases hx : s.sibling c p (f p).2 with
    | none =>
      have hno : reachesThread s c f team tid p = false := by rw [reachesThread, hx]; rfl
      simp only [Thread.receive, List.foldl_cons, hno, Bool.false_eq_true, if_false]
    | some x =>
      have hiff : (team = x.team ∧ tid = x.tid) ↔ reachesThread s c f team tid p = true := by
        simp only [reachesThread_iff, hx, Option.some.injEq, exists_eq_left', eq_comm (a := team), eq_comm (a := tid)]
      simp only [thread?_writeEff, Option.map_map, Function.comp_def, Thread.receive, List.foldl_cons, hiff]

section
variable {k : Fin 255} {reaches : Thread → Bool} {f : Thread → Word × Nat}

/-- Writes to V registers leave everything but the threads. -/
theorem xwrites_only (s : State) (c : Ctx) (f : Thread → Word × Nat) (ps : List Thread) (s' : State) :
    xwrites s c (.v k) f ps s' = { s' with threads := (xwrites s c (.v k) f ps s').threads } := by
  unfold xwrites
  induction ps generalizing s' with
  | nil => rfl
  | cons p r ih =>
    rw [List.foldl_cons, ih]
    split <;> rfl

theorem Thread.receive_only (u : Thread) (ps : List Thread) :
    u.receive (.v k) reaches f ps = { u with v := (u.receive (.v k) reaches f ps).v } ∧ (u.receive (.v k) reaches f ps).v.length = u.v.length := by
  unfold Thread.receive
  induction ps generalizing u with
  | nil => exact ⟨rfl, rfl⟩
  | cons p r ih =>
    rw [List.foldl_cons]
    split
    · obtain ⟨hrest, hlen⟩ := ih (u.take (.v k) { words := [(f p).1], preds := [] })
      exact ⟨hrest, hlen.trans (Thread.take_only ..).2⟩
    · exact ih u

/-- One word written: the register named takes it where the thread has that register, and no other changes. -/
theorem Thread.take_word_reg (u : Thread) (w : Word) (n : Nat) :
    (u.take (.v k) { words := [w], preds := [] }).reg n = if n = k.val ∧ k.val < u.v.length then w else u.reg n := by
  change (u.v.set k.val w).getD n 0#32 = if n = k.val ∧ k.val < u.v.length then w else u.v.getD n 0#32
  rw [List.getD_eq_getElem?_getD, List.getD_eq_getElem?_getD, List.getElem?_set]
  by_cases hn : n = k.val
  · subst hn
    by_cases hl : k.val < u.v.length <;> simp [hl]
  · simp [hn, Ne.symm hn]

/-- A register that differs holds the value of a write that reaches the thread. -/
theorem Thread.receive_reg (u : Thread) (ps : List Thread) (n : Nat) (hne : (u.receive (.v k) reaches f ps).reg n ≠ u.reg n) :
    k.val = n ∧ ∃ p ∈ ps, reaches p = true ∧ (u.receive (.v k) reaches f ps).reg n = (f p).1 := by
  induction ps using List.reverseRecOn with
  | nil => exact absurd rfl hne
  | append_singleton l p ih =>
    rw [Thread.receive_snoc] at hne ⊢
    by_cases hp : reaches p = true
    · rw [if_pos hp, Thread.take_word_reg] at hne ⊢
      by_cases hn : n = k.val ∧ k.val < (u.receive (.v k) reaches f l).v.length
      · rw [if_pos hn]
        exact ⟨hn.1.symm, p, List.mem_append_right _ List.mem_cons_self, hp, rfl⟩
      · rw [if_neg hn] at hne ⊢
        obtain ⟨hk, q, hq, hrest⟩ := ih hne
        exact ⟨hk, q, List.mem_append_left _ hq, hrest⟩
    · rw [if_neg hp] at hne ⊢
      obtain ⟨hk, q, hq, hrest⟩ := ih hne
      exact ⟨hk, q, List.mem_append_left _ hq, hrest⟩

theorem Thread.receive_none (u : Thread) (d : Operand) (ps : List Thread) (h : ∀ p ∈ ps, reaches p = false) : u.receive d reaches f ps = u := by
  unfold Thread.receive
  induction ps generalizing u with
  | nil => rfl
  | cons p r ih =>
    rw [List.foldl_cons, h p List.mem_cons_self]
    exact ih u fun q hq => h q (List.mem_cons_of_mem _ hq)

/-- The last write that reaches a thread stays. -/
theorem Thread.receive_last (u : Thread) (pre post : List Thread) {p : Thread} (hp : reaches p = true) (hpost : ∀ q ∈ post, reaches q = false)
    (hk : k.val < u.v.length) : (u.receive (.v k) reaches f (pre ++ p :: post)).reg k.val = (f p).1 := by
  have hsplit : u.receive (.v k) reaches f (pre ++ p :: post) = (u.receive (.v k) reaches f (pre ++ [p])).receive (.v k) reaches f post := by
    simp only [Thread.receive, List.foldl_append, List.foldl_cons, List.foldl_nil]
  have hlen : k.val < (u.receive (.v k) reaches f pre).v.length := by rwa [(Thread.receive_only u pre).2]
  rw [hsplit, Thread.receive_none _ _ _ hpost, Thread.receive_snoc, if_pos hp, Thread.take_word_reg, if_pos ⟨rfl, hlen⟩]

end

/-- A state of which only threads have changed moves on like the one before. -/
theorem thread?_advance_of {s s1 : State} {c : Ctx} (hs : Seated s c) (h1 : s1 = { s with threads := s1.threads }) (team tid : Nat) :
    s1.advance.thread? team tid = (s1.thread? team tid).map (fun u =>
      if team = c.grp.team ∧ tid ∈ c.grp.members then u.movedOn c.grp s.cur.port s.clk else u) := by
  have hgrp : (s1.core? s1.cur.core).bind (fun k => (k.port s1.cur.port).group) = some c.grp := by rw [h1]; exact (ctx?_group hs.ctx).1
  rw [(advance_spec s1 c.grp hgrp).1, h1]

theorem advance_only {s s1 : State} {c : Ctx} (hs : Seated s c) (h1 : s1 = { s with threads := s1.threads }) :
    s1.advance = { s with threads := s1.advance.threads, cores := s1.advance.cores } := by
  have hgrp : (s1.core? s1.cur.core).bind (fun k => (k.port s1.cur.port).group) = some c.grp := by rw [h1]; exact (ctx?_group hs.ctx).1
  rw [(advance_spec s1 c.grp hgrp).2.1, h1]

theorem crossWritten_of {s : State} {c : Ctx} {h : Head} {d : Operand} (hs : Seated s c) (hd : d.isV = true) (f : Thread → Word × Nat) :
    CrossWritten s c h d (fun p => (f p).2) (fun p => (f p).1) (xwriteAll s c h d f).advance := by
  obtain ⟨k, rfl⟩ : ∃ k, d = .v k := by cases d <;> first | exact ⟨_, rfl⟩ | cases hd
  rw [xwriteAll_eq]
  have honly := xwrites_only (k := k) s c f (c.parts h) s
  have hthread : ∀ team tid u, s.thread? team tid = some u → ∃ u', (xwrites s c (.v k) f (c.parts h) s).advance.thread? team tid = some u' ∧
      (u.receive (.v k) (reachesThread s c f team tid) f (c.parts h)).sameBut u' ∧
      u'.v = (u.receive (.v k) (reachesThread s c f team tid) f (c.parts h)).v ∧ u'.p = u.p := by
    intro team tid u hu
    refine ⟨_, by rw [thread?_advance_of hs honly, thread?_xwrites, hu, Option.map_some, Option.map_some], ?_⟩
    have hp : (u.receive (.v k) (reachesThread s c f team tid) f (c.parts h)).p = u.p := by rw [(Thread.receive_only u _).1]
    unfold Thread.sameBut
    split
    · rw [Thread.movedOn_only]
      exact ⟨rfl, rfl, hp⟩
    · exact ⟨rfl, rfl, hp⟩
  refine ⟨advance_only hs honly, fun team tid u hu => ?_, fun k' pre p post x u hk hparts hx hpost hu hlen => ?_⟩
  · obtain ⟨u', hu', hsame, hv, hp⟩ := hthread team tid u hu
    refine ⟨u', hu', ?_, hp, fun n hn => ?_⟩
    · unfold Thread.sameBut at *
      rw [hsame, (Thread.receive_only u _).1]
    · have hreg : u'.reg n = (u.receive (.v k) (reachesThread s c f team tid) f (c.parts h)).reg n := by unfold Thread.reg; rw [hv]
      rw [hreg] at hn ⊢
      obtain ⟨hkn, p, hp', hr, hval⟩ := Thread.receive_reg u _ n hn
      obtain ⟨x, hx, hteam, htid⟩ := reachesThread_iff.mp hr
      exact ⟨k, p, x, rfl, hkn, hp', hx, hteam, htid, hval⟩
  · cases hk
    obtain ⟨u', hu', -, hv, -⟩ := hthread x.team x.tid u hu
    refine ⟨u', hu', ?_⟩
    have hreg : u'.reg k.val = (u.receive (.v k) (reachesThread s c f x.team x.tid) f (c.parts h)).reg k.val := by unfold Thread.reg; rw [hv]
    rw [hreg, hparts]
    refine Thread.receive_last u pre post (reachesThread_iff.mpr ⟨x, hx, rfl, rfl⟩) (fun q hq => ?_) hlen
    refine Bool.eq_false_iff.mpr fun hr => ?_
    obtain ⟨z, hz, hkey⟩ := reachesThread_iff.mp hr
    exact hpost q hq z hz hkey

/-! ### XREAD (R134) -/

theorem xreadBits_word (s : State) (c : Ctx) (p : Thread) (a : Operand) (q : Nat) : (VecEff.word (xreadBits s c p a q)).isWord
    (match s.sibling c p q with
      | some x => c.val x a
      | none => c.val p a) := by
  unfold xreadBits
  cases s.sibling c p q <;> exact word_isWord _

/-- Settles O28: XREAD by the sibling that it names, XWRITE by the writes that reach each thread. -/
theorem homeGroupAccessResults : Obligations.HomeGroupAccessResults := by
  unfold Obligations.HomeGroupAccessResults
  refine ⟨fun s c h d a q hs hw hf => ?_, fun s c h d a lit hs hw hf => ?_, fun s c h d b q hs hw hf => ?_, fun s c h d b lit hs hw hf => ?_⟩ <;>
    simp only [Instr.wf, Bool.and_eq_true] at hw
  · exact cross_writes_word hs rfl (Head.ok_uni hw.1.1.1) hf hw.1.1.2 fun p _ => xreadBits_word ..
  · exact cross_writes_word hs rfl (Head.ok_uni hw.1.1) hf hw.1.2 fun p _ => xreadBits_word ..
  · exact ⟨_, run_spec hs.ctx hf _, crossWritten_of hs hw.1.1.2 fun p => (c.val p b, (c.val p q).toNat % 64)⟩
  · exact ⟨_, run_spec hs.ctx hf _, crossWritten_of hs hw.1.2 fun p => (c.val p b, lit.toNat % 64)⟩

end Sys2Proof.Machine
end

section
/-! Refutation of `Obligations.ConversionResults`: a conversion that crosses its threshold while a load of the same register has
arrived within its window. Entering the handler writes the loaded value after the conversion's result. -/

namespace Sys2Proof.Machine

/-- Where a waiting set enters its handler, a register holds what the pending results of the set leave in it (R334): the entry
itself writes none. -/
theorem tryEnter_reg {s : State} {team : Nat} {i : TrapInfo} {ts : List Thread}
    (hts : s.threads.filter (fun t => t.team == team && t.entering == some i) = ts) (hne : ts.isEmpty = false)
    (harr : ts.all Thread.allArrived = true) (htv : (s.tvecOf team == 0#64) = false) (tid n : Nat) :
    ((s.tryEnter team i).thread? team tid).map (fun u => u.reg n) = ((commitAll s team ts).thread? team tid).map (fun u => u.reg n) := by
  unfold State.tryEnter
  simp only [hts, hne, harr, htv, Bool.not_true, Bool.or_self, Bool.false_eq_true, if_false]
  rw [thread?_mapThreads]
  swap
  · exact fun x => ⟨rfl, rfl⟩
  rw [Option.map_map]
  refine congrArg (Option.map · ((commitAll s team ts).thread? team tid)) (funext fun u => ?_)
  dsimp only [Function.comp]
  split <;> rfl

/-- A set of one team none of which is in a handler or has a watchdog trap due waits to enter its handler (R332). -/
theorem takeTrap_tryEnter {s : State} {team : Nat} {tids l : List Nat} {ts : List Thread} {m : DWord}
    (hts : s.threads.filter (fun t => t.team == team && tids.contains t.tid && !t.hasExited) = ts) (hne : ts.isEmpty = false)
    (hdue : ts.any (·.wdogDue) = false) (hin : ts.any (fun t => t.inHandler || t.entering.isSome) = false) (hl : ts.map (·.tid) = l)
    (hm : maskOf (ts.map (·.lane)) = m) (cause : Cause) (kind : TpcKind) (tpc : BitVec 57) (taddr : DWord) :
    s.takeTrap team tids cause kind tpc taddr =
      (((s.cadenceTrap team cause.code).unseat team tids).modThreads team l (fun t => { t with
        trapClause := t.clause, status := .parked .entering, noWatch := false, wdogDue := t.wdogDue && cause == .watchpoint,
        entering := some { cause := cause, tpc := tpc, kind := kind, taddr := taddr, lanes := m } })).tryEnter team
          { cause := cause, tpc := tpc, kind := kind, taddr := taddr, lanes := m } := by
  subst hl hm
  unfold State.takeTrap
  simp only [hts, hne, hdue, hin, Bool.false_and, Bool.false_eq_true, if_false]

/-- Moving on changes no register. -/
theorem reg_advance (s : State) (team tid n : Nat) :
    (s.advance.thread? team tid).map (fun u => u.reg n) = (s.thread? team tid).map (fun u => u.reg n) := by
  cases hg : (s.core? s.cur.core).bind (fun k => (k.port s.cur.port).group) with
  | none =>
    have hstay : s.advance = s := by unfold State.advance; rw [hg]
    rw [hstay]
  | some g =>
    rw [(advance_spec s g hg).1, Option.map_map]
    refine congrArg (Option.map · (s.thread? team tid)) (funext fun u => ?_)
    dsimp only [Function.comp]
    split
    · rw [Thread.movedOn_only]
      rfl
    · rfl

/-- A counting conversion whose events cross a threshold writes its results, raises the counters and traps (R63). -/
theorem vecCount_crossing {s : State} {c : Ctx} {h : Head} {ops : List (Operand × Nat)} {d : Operand} {f : Ctx → Thread → VecEff × CvCount}
    (hs : s.ctx? = some c) (hf : c.fits ops)
    (hcross : ((c.vecWrites s h d (fun t => (f c t).1)).countConv c.launch.key ((c.actors h).foldl (fun n t => n.add (f c t).2) .zero)).2 = true) :
    vecCount s h ops d f =
      .next ((((c.vecWrites s h d (fun t => (f c t).1)).countConv c.launch.key ((c.actors h).foldl (fun n t => n.add (f c t).2) .zero)).1.trapNoAddr
        c.grp.team ((c.parts h).map (·.tid)) .convertLimit .instruction c.pc).advance) := by
  unfold vecCount
  rw [run_spec hs hf]
  simp only [hcross, if_true]

namespace Crossing

/-- A machine of one core whose thread 0 of team 1 issues next, with a handler, a threshold of one saturation, a value above every
finite half in V5, and a load of V4 that has arrived and stands in its window (R87). -/
def stArrived : State :=
  let s : State := { State.reset with cores := [Core.reset 0] }
  let s : State := { s.withFetchWord 64 0 with
    agenda := [], cur := { core := 0, port := 0 }, asids := [{ id := 0, valid := true, root := 0, tvec := 0x40000800#64, wdog := 26#32 }] }
  { s with
    launches := s.launches.map (fun l => { l with cvclim := 1#32 })
    threads := s.threads.map (fun u => { u with
      v := u.v.set 5 0x7F7FFFFF#32, pend := [{ id := 0, dest := .v 4, words := 1, left := 3, value := some [0x12345678#32] }] }) }

theorem stArrived_ctx : stArrived.ctx?.isSome = true := by decide +kernel

/-- The context of its group. -/
def arrivedCtx : Ctx := stArrived.ctx?.get stArrived_ctx

/-- Its launch. -/
def arrivedLaunch : Launch := stArrived.launches.headD default

/-- The unguarded head. -/
def plainHead : Head := ⟨false, false, 7⟩

/-- F32 into the low half, with saturation. -/
def toHalf : CvtMods := ⟨.f32, .rn, true, .h16x2, 0⟩

/-- A CVT of F32 into the low half of V4, which saturates. -/
def cvtV4 : Instr := .cvt plainHead toHalf (.v 4) (.v 5) .none (.v 7)

/-- What the conversion writes and counts. -/
def cvtEffect (c : Ctx) (t : Thread) : VecEff × CvCount :=
  let r := cvtBits toHalf c.ftz (c.src t toHalf.tys (.v 5)) (c.srcOpt t .f32 .none) (c.src t toHalf.tyd (.v 7))
  (.ofTy toHalf.tyd r.1, r.2)

/-- That machine with the conversion's result written and its events counted. -/
def stCounted : State :=
  ((arrivedCtx.vecWrites stArrived plainHead (.v 4) (fun t => (cvtEffect arrivedCtx t).1)).countConv arrivedCtx.launch.key
    ((arrivedCtx.actors plainHead).foldl (fun n t => n.add (cvtEffect arrivedCtx t).2) .zero)).1

/-- What the trap records, with a free value for TADDR (log entry 7). -/
def cvtTrap : TrapInfo :=
  { cause := .convertLimit, tpc := arrivedCtx.pc, kind := .instruction, taddr := Config.freeTaddr stCounted.freeCount, lanes := 1#64 }

/-- That machine with its thread waiting to enter the handler. -/
def stEntering : State :=
  ((({ stCounted with freeCount := stCounted.freeCount + 1 } : State).cadenceTrap 1 0x14).unseat 1 [0]).modThreads 1 [0] (fun t => { t with
    trapClause := t.clause, status := .parked .entering, noWatch := false, wdogDue := t.wdogDue && Cause.convertLimit == .watchpoint,
    entering := some cvtTrap })

theorem stArrived_seated : Seated stArrived arrivedCtx := by
  refine ⟨(Option.some_get _).symm, by decide +kernel, fun p hp => ?_, fun p hp => ?_⟩
  · have h : ∀ p ∈ arrivedCtx.ths, (stArrived.thread? p.team p.tid).any
        (fun u => decide (arrivedCtx.role.regs ≤ u.v.length) && u.status == .inGroup) = true := by decide +kernel
    obtain ⟨u, hu, hq⟩ := (Option.any_eq_true _ _).1 (h p hp)
    exact ⟨u, hu, by simpa using hq⟩
  · have h : ∀ p ∈ arrivedCtx.ths, (stArrived.hg? p.team p.role p.hg).any (fun g => decide (64 ≤ g.s.length)) = true := by decide +kernel
    obtain ⟨g, hg, hq⟩ := (Option.any_eq_true _ _).1 (h p hp)
    exact ⟨g, hg, by simpa using hq⟩

theorem arrivedCtx_fits : arrivedCtx.fits [(.v 4, 1), (.v 5, 1), (.none, 1), (.v 7, 1)] := by
  unfold Ctx.fits
  decide +kernel

theorem stArrived_canTrap : stArrived.canTrap arrivedCtx.grp.team ((arrivedCtx.parts plainHead).map (·.tid)) := by
  unfold State.canTrap
  decide +kernel

theorem stArrived_crosses : ¬arrivedLaunch.quiet (arrivedCtx.convCount plainHead (fun p =>
    (cvtBits toHalf arrivedCtx.ftz (arrivedCtx.src p .f32 (.v 5)) (arrivedCtx.srcOpt p .f32 .none) (arrivedCtx.src p .h16x2 (.v 7))).2)) := by
  unfold Launch.quiet
  decide +kernel

/-- The participant's result is the largest finite half. -/
theorem stArrived_result : ∃ p ∈ arrivedCtx.parts plainHead, p.team = 1 ∧ p.tid = 0 ∧
    (CvtElement arrivedCtx p toHalf (.v 5) .none).bits = 0x7BFF := by
  decide +kernel

theorem exec_cvtV4 : exec cvtV4 stArrived =
    .next ((stCounted.trapNoAddr arrivedCtx.grp.team ((arrivedCtx.parts plainHead).map (·.tid)) .convertLimit .instruction
      arrivedCtx.pc).advance) := by
  have hexec : exec cvtV4 stArrived = vecCount stArrived plainHead [(.v 4, 1), (.v 5, 1), (.none, 1), (.v 7, 1)] (.v 4) cvtEffect := rfl
  rw [hexec, vecCount_crossing stArrived_seated.ctx arrivedCtx_fits (by decide +kernel)]
  rfl

theorem takeTrap_stCounted : stCounted.trapNoAddr arrivedCtx.grp.team ((arrivedCtx.parts plainHead).map (·.tid)) .convertLimit .instruction
    arrivedCtx.pc = stEntering.tryEnter 1 cvtTrap := by
  have hset : ((arrivedCtx.parts plainHead).map (·.tid)) = [0] := by decide +kernel
  have hteam : arrivedCtx.grp.team = 1 := by decide +kernel
  have hfree : stCounted.trapNoAddr 1 [0] .convertLimit .instruction arrivedCtx.pc =
      ({ stCounted with freeCount := stCounted.freeCount + 1 } : State).takeTrap 1 [0] .convertLimit .instruction arrivedCtx.pc
        (Config.freeTaddr stCounted.freeCount) := rfl
  rw [hset, hteam, hfree, takeTrap_tryEnter (l := [0]) (m := 1#64) rfl (by decide +kernel) (by decide +kernel) (by decide +kernel)
    (by decide +kernel) (by decide +kernel)]
  unfold stEntering cvtTrap
  rfl

theorem entering_threads : stEntering.threads.filter (fun t => t.team == 1 && t.entering == some cvtTrap) = stEntering.threads := by
  have hone : ∀ t ∈ stEntering.threads, t.team = 1 ∧ t.entering = some cvtTrap := by
    intro t ht
    obtain ⟨u, hu, rfl⟩ := List.mem_map.1 ht
    have hall : ∀ u ∈ stCounted.threads, (u.team == 1 && [0].contains u.tid) = true := by decide +kernel
    rw [if_pos (hall u hu)]
    exact ⟨beq_iff_eq.1 (Bool.and_eq_true_iff.1 (hall u hu)).1, rfl⟩
  exact List.filter_eq_self.2 fun t ht => by simp [hone t ht]

/-- After the trap V4 holds the loaded value. -/
theorem cvtV4_reg {t : State} (ht : exec cvtV4 stArrived = .next t) : (t.thread? 1 0).map (fun u => u.reg 4) = some 0x12345678#32 := by
  have hafter : t = (stEntering.tryEnter 1 cvtTrap).advance := by
    rw [exec_cvtV4, takeTrap_stCounted, Host.Outcome.next.injEq] at ht
    exact ht.symm
  rw [hafter, reg_advance, tryEnter_reg entering_threads (by decide +kernel) (by decide +kernel) (by decide +kernel)]
  decide +kernel

/-- Refutes O24: where a load of the destination has arrived within its window (R87), the trap's entry writes the loaded value
(R334) after the result of the crossing CVT, so that the register does not hold the result. -/
theorem not_conversionResults : ¬Obligations.ConversionResults := by
  unfold Obligations.ConversionResults
  rintro ⟨hcvt, -⟩
  obtain ⟨t, e, a, hex, hres, -, hreg, -⟩ := (hcvt plainHead toHalf (.v 4) (.v 5) .none (.v 7) stArrived arrivedCtx arrivedLaunch stArrived_seated
    (by decide +kernel) arrivedCtx_fits (by decide +kernel)).2 stArrived_crosses stArrived_canTrap
  obtain ⟨p, hp, hteam, htid, hbits⟩ := stArrived_result
  obtain ⟨u, hu, hwords⟩ := hreg 4 rfl p hp
  obtain ⟨⟨hlen, -⟩, helem⟩ := hres p hp
  obtain ⟨w, hw⟩ := List.length_eq_one_iff.mp hlen
  have hlow : elemOf .h16x2 (wordsNat [w]) 0 = 0x7BFF := by
    have h0 := helem 0 (by decide)
    rwa [if_pos (.inr rfl), hbits, VecEff.elem, hw] at h0
  have hheld : u.reg 4 = w := by
    have h0 := hwords 0 (by rw [Ctx.source_own rfl, hw]; exact Nat.one_pos)
    rwa [Ctx.source_own rfl, hw] at h0
  have hload := cvtV4_reg hex
  rw [← hteam, ← htid, hu, Option.map_some, hheld, Option.some.injEq] at hload
  rw [hload] at hlow
  exact absurd hlow (by decide)

end Crossing
end Sys2Proof.Machine
end

section
/-! Rounding at a position, stated of real numbers (R55): a magnitude `m * 2^e` with a sticky bit stands for a number cut off at
2^e, and `roundAt` gives the multiple of 2^q that the rounding mode asks for. -/

namespace Sys2Proof.Machine

/-- The number `v` cut off at a multiple of 2^e: `m` multiples, and `st` says whether something was cut off. -/
structure CutAt (v : ℝ) (m : Nat) (e : Int) (st : Bool) : Prop where
  le : (m : ℝ) * 2 ^ e ≤ v
  lt : v < ((m : ℝ) + 1) * 2 ^ e
  sticky : st = true ↔ v ≠ (m : ℝ) * 2 ^ e

/-- `n` is `u` rounded toward zero. -/
def TruncatesTo (u : ℝ) (n : Nat) : Prop := (n : ℝ) ≤ u ∧ u < n + 1

/-- `n` is `u` rounded away from zero. -/
def CarriesTo (u : ℝ) (n : Nat) : Prop := u ≤ n ∧ (n : ℝ) < u + 1

/-- `n` is an integer nearest to `u`, the even one of two. -/
def NearestTo (u : ℝ) (n : Nat) : Prop := |u - n| ≤ 1 / 2 ∧ (|u - n| = 1 / 2 → n % 2 = 0)

/-- `n` is the magnitude `u` of a number of sign `neg` rounded in the mode `rm` (R55). -/
def RoundsTo (rm : Rm) (neg : Bool) (u : ℝ) (n : Nat) : Prop :=
  match rm, neg with
  | .rn, _ => NearestTo u n
  | .rz, _ | .ru, true | .rd, false => TruncatesTo u n
  | .ru, false | .rd, true => CarriesTo u n

theorem RoundsTo.of_eq (rm : Rm) (neg : Bool) (n : Nat) : RoundsTo rm neg n n := by
  have hn : NearestTo n n := ⟨by simp, fun h => absurd h (by norm_num)⟩
  have ht : TruncatesTo n n := ⟨le_refl _, lt_add_one _⟩
  have hc : CarriesTo n n := ⟨le_refl _, lt_add_one _⟩
  cases rm <;> cases neg <;> assumption

/-- A cut number cut again at a coarser position. -/
theorem CutAt.coarsen {v : ℝ} {m : Nat} {e : Int} {st : Bool} (h : CutAt v m e st) (k : Nat) :
    CutAt v (m / 2 ^ k) (e + k) (m % 2 ^ k != 0 || st) := by
  have hpow : (2 : ℝ) ^ (e + k) = 2 ^ e * 2 ^ k := by rw [zpow_add₀ two_ne_zero, zpow_natCast]
  have he : (0 : ℝ) < 2 ^ e := by positivity
  have hsplit : (m : ℝ) = (m / 2 ^ k : Nat) * 2 ^ k + (m % 2 ^ k : Nat) := by
    exact_mod_cast (Nat.div_add_mod' m (2 ^ k)).symm
  have hrest : ((m % 2 ^ k : Nat) : ℝ) + 1 ≤ 2 ^ k := by exact_mod_cast Nat.mod_lt m (Nat.two_pow_pos k)
  have hnn : (0 : ℝ) ≤ (m % 2 ^ k : Nat) := Nat.cast_nonneg _
  obtain ⟨hle, hlt, hst⟩ := h
  rw [hsplit] at hle hlt hst
  refine ⟨?_, ?_, ?_⟩
  · rw [hpow]
    nlinarith
  · rw [hpow]
    nlinarith
  · rw [hpow, Bool.or_eq_true, bne_iff_ne]
    constructor
    · rintro (hr | hr)
      · have : (1 : ℝ) ≤ (m % 2 ^ k : Nat) := by exact_mod_cast Nat.pos_of_ne_zero hr
        intro hv
        nlinarith
      · have hne := hst.1 hr
        intro hv
        nlinarith [lt_of_le_of_ne hle (Ne.symm hne)]
    · intro hv
      by_cases hr : m % 2 ^ k = 0
      · right
        rw [hr] at hst
        refine hst.2 fun hv' => hv (hv'.trans ?_)
        push_cast
        ring
      · exact .inl hr

theorem CutAt.of_floor {x : ℝ} {m : Nat} {st : Bool} (hle : (m : ℝ) ≤ x) (hlt : x < m + 1) (hst : st = true ↔ x ≠ m) (e : Int) :
    CutAt (x * 2 ^ e) m e st := by
  have he : (0 : ℝ) < 2 ^ e := by positivity
  exact ⟨mul_le_mul_of_nonneg_right hle he.le, mul_lt_mul_of_pos_right hlt he, hst.trans (mul_left_inj' he.ne').not.symm⟩

/-- The quotient of two natural numbers is cut off to its floor. -/
theorem CutAt.of_div (a : Nat) {n : Nat} (hn : n ≠ 0) (e : Int) : CutAt ((a : ℝ) / n * 2 ^ e) (a / n) e (a % n != 0) := by
  have hpos : (0 : ℝ) < n := by exact_mod_cast Nat.pos_of_ne_zero hn
  have hsplit : (a : ℝ) = n * (a / n : Nat) + (a % n : Nat) := by exact_mod_cast (Nat.div_add_mod a n).symm
  have hquot : (a : ℝ) / n = (a / n : Nat) + (a % n : Nat) / (n : ℝ) := by
    rw [div_eq_iff hpos.ne', add_mul, div_mul_cancel₀ _ hpos.ne', mul_comm _ (n : ℝ), ← hsplit]
  have hrest : ((a % n : Nat) : ℝ) < n := by exact_mod_cast Nat.mod_lt a (Nat.pos_of_ne_zero hn)
  refine .of_floor ?_ ?_ ?_ e
  · rw [hquot]
    exact le_add_of_nonneg_right (by positivity)
  · rw [hquot]
    exact add_lt_add_right ((div_lt_one hpos).2 hrest) _
  · rw [hquot, bne_iff_ne, ne_eq, ne_eq, add_eq_left, div_eq_zero_iff, Nat.cast_eq_zero, or_iff_left hpos.ne']

/-- `roundAt` in terms of the number cut one place below the unit. -/
theorem roundAt_eq {rm : Rm} {neg st : Bool} {m : Nat} {e q : Int} {k : Nat} (hq : q = e + k + 1) :
    roundAt rm neg m e q st =
      if roundInc rm neg (m / 2 ^ k / 2) (m / 2 ^ k % 2 == 1) (m % 2 ^ k != 0 || st) then m / 2 ^ k / 2 + 1 else m / 2 ^ k / 2 := by
  have hsh : (q - e).toNat = k + 1 := by omega
  unfold roundAt
  rw [if_neg (by omega), hsh]
  dsimp only
  split
  next hshort =>
    have hlt : m < 2 ^ k := lt_of_lt_of_le (lt_two_pow_bitLen m) (Nat.pow_le_pow_right (by decide) (by omega))
    rw [Nat.div_eq_of_lt hlt, Nat.mod_eq_of_lt hlt]
    rfl
  next => rw [Nat.add_sub_cancel, pow_succ, ← Nat.div_div_eq_div_mul]

section halves

/-! A magnitude `u` in units, cut to `M` halves of the unit, with something below them when `st`. -/

variable {st : Bool} {u : ℝ} {M : Nat}

theorem half_cases (hle : (M : ℝ) ≤ 2 * u) (hlt : 2 * u < M + 1) (hst : st = true ↔ 2 * u ≠ M) :
    (M % 2 = 0 ∧ ((M / 2 : Nat) : ℝ) ≤ u ∧ u < (M / 2 : Nat) + 1 / 2 ∧ (st = true ↔ u ≠ (M / 2 : Nat))) ∨
    (M % 2 = 1 ∧ ((M / 2 : Nat) : ℝ) + 1 / 2 ≤ u ∧ u < (M / 2 : Nat) + 1 ∧ (st = true ↔ u ≠ (M / 2 : Nat) + 1 / 2)) := by
  have hM : (M : ℝ) = 2 * (M / 2 : Nat) + (M % 2 : Nat) := by exact_mod_cast (Nat.div_add_mod M 2).symm
  rw [hM] at hle hlt hst
  rcases Nat.mod_two_eq_zero_or_one M with hpar | hpar
  · rw [hpar] at hle hlt hst
    push_cast at hle hlt hst
    refine .inl ⟨hpar, by linarith, by linarith, hst.trans (not_congr ⟨fun h => by linarith, fun h => by linarith⟩)⟩
  · rw [hpar] at hle hlt hst
    push_cast at hle hlt hst
    refine .inr ⟨hpar, by linarith, by linarith, hst.trans (not_congr ⟨fun h => by linarith, fun h => by linarith⟩)⟩

theorem truncatesTo_halves (hle : (M : ℝ) ≤ 2 * u) (hlt : 2 * u < M + 1) (hst : st = true ↔ 2 * u ≠ M) : TruncatesTo u (M / 2) := by
  rcases half_cases hle hlt hst with ⟨-, h1, h2, -⟩ | ⟨-, h1, h2, -⟩ <;> exact ⟨by linarith, by linarith⟩

theorem carriesTo_halves (hle : (M : ℝ) ≤ 2 * u) (hlt : 2 * u < M + 1) (hst : st = true ↔ 2 * u ≠ M) :
    CarriesTo u (if (M % 2 == 1 || st) = true then M / 2 + 1 else M / 2) := by
  rcases half_cases hle hlt hst with ⟨hpar, h1, h2, h3⟩ | ⟨hpar, h1, h2, -⟩
  · cases st with
    | false =>
      have hu : u = (M / 2 : Nat) := by simpa using h3
      rw [hpar, if_neg (by decide), hu]
      exact ⟨le_refl _, lt_add_one _⟩
    | true =>
      have hu : ((M / 2 : Nat) : ℝ) < u := lt_of_le_of_ne h1 (Ne.symm (h3.1 rfl))
      rw [Bool.or_true, if_pos rfl]
      constructor <;> push_cast <;> linarith
  · rw [hpar, if_pos (by simp)]
    constructor <;> push_cast <;> linarith

theorem nearestTo_halves (hle : (M : ℝ) ≤ 2 * u) (hlt : 2 * u < M + 1) (hst : st = true ↔ 2 * u ≠ M) :
    NearestTo u (if (M % 2 == 1 && (st || M / 2 % 2 == 1)) = true then M / 2 + 1 else M / 2) := by
  rcases half_cases hle hlt hst with ⟨hpar, h1, h2, -⟩ | ⟨hpar, h1, h2, h3⟩
  · have habs : |u - (M / 2 : Nat)| < 1 / 2 := abs_lt.2 ⟨by linarith, by linarith⟩
    rw [hpar, if_neg (by simp)]
    exact ⟨habs.le, fun h => absurd h habs.ne⟩
  · cases st with
    | false =>
      have hu : u = (M / 2 : Nat) + 1 / 2 := by simpa using h3
      rw [hpar, hu]
      rcases Nat.mod_two_eq_zero_or_one (M / 2) with hn | hn
      · rw [hn, if_neg (by decide)]
        exact ⟨by norm_num, fun _ => hn⟩
      · rw [hn, if_pos (by decide)]
        refine ⟨?_, fun _ => by omega⟩
        push_cast
        norm_num
    | true =>
      have hu : ((M / 2 : Nat) : ℝ) + 1 / 2 < u := lt_of_le_of_ne h1 (Ne.symm (h3.1 rfl))
      have habs : |u - (M / 2 + 1 : Nat)| < 1 / 2 := by
        push_cast
        exact abs_lt.2 ⟨by linarith, by linarith⟩
      rw [hpar, if_pos (by simp)]
      exact ⟨habs.le, fun h => absurd h habs.ne⟩

/-- The increment of the rounding modes (R55). -/
theorem roundInc_rounds (rm : Rm) (neg : Bool) (hle : (M : ℝ) ≤ 2 * u) (hlt : 2 * u < M + 1) (hst : st = true ↔ 2 * u ≠ M) :
    RoundsTo rm neg u (if roundInc rm neg (M / 2) (M % 2 == 1) st then M / 2 + 1 else M / 2) := by
  have ht := truncatesTo_halves hle hlt hst
  have hc := carriesTo_halves hle hlt hst
  have hn := nearestTo_halves hle hlt hst
  cases rm <;> cases neg <;> assumption

end halves

/-- `roundAt` rounds the cut number to a multiple of the unit. -/
theorem roundAt_rounds (rm : Rm) (neg : Bool) {st : Bool} {v : ℝ} {m : Nat} {e q : Int} (h : CutAt v m e st) (hq : e < q ∨ st = false) :
    RoundsTo rm neg (v / 2 ^ q) (roundAt rm neg m e q st) := by
  by_cases hqe : e < q
  · obtain ⟨k, hk⟩ : ∃ k : Nat, q = e + k + 1 := ⟨(q - e - 1).toNat, by omega⟩
    obtain ⟨hle, hlt, hst⟩ := h.coarsen k
    have hpos : (0 : ℝ) < 2 ^ (e + k : Int) := by positivity
    have hu : 2 * (v / 2 ^ q) = v / 2 ^ (e + k : Int) := by rw [hk, zpow_add_one₀ two_ne_zero]; field_simp
    rw [roundAt_eq hk]
    refine roundInc_rounds rm neg ?_ ?_ ?_
    · rwa [hu, le_div_iff₀ hpos]
    · rwa [hu, div_lt_iff₀ hpos]
    · rw [hst, hu, ne_eq, ne_eq, div_eq_iff hpos.ne']
  · obtain rfl : st = false := hq.resolve_left hqe
    have hv : v = (m : ℝ) * 2 ^ e := by simpa using h.sticky
    have hcast : v / 2 ^ q = ((m * 2 ^ (e - q).toNat : Nat) : ℝ) := by
      rw [hv, div_eq_iff (by positivity), Nat.cast_mul, Nat.cast_pow, Nat.cast_ofNat, mul_assoc, ← zpow_natCast, ← zpow_add₀ two_ne_zero]
      congr 2
      omega
    rw [roundAt, if_pos (by omega), hcast]
    exact .of_eq rm neg _

end Sys2Proof.Machine
end

section
/-! F32 results of `roundTo` (R55, R56): the finite patterns and the numbers they stand for, and the proof that a number cut off
below its unit is rounded once. -/

namespace Sys2Proof.Machine

/-! ### F32 patterns -/

/-- The value of a pattern by its fields (R42). -/
theorem val_f32 (b : Nat) : fmtF32.val b =
    if b / 2 ^ 23 % 2 ^ 8 = 255 then (if b % 2 ^ 23 = 0 then .inf (b / 2 ^ 31 % 2 == 1) else .nan)
    else if b / 2 ^ 23 % 2 ^ 8 = 0 then .fin (b / 2 ^ 31 % 2 == 1) (b % 2 ^ 23) (-149)
    else .fin (b / 2 ^ 31 % 2 == 1) (2 ^ 23 + b % 2 ^ 23) ((b / 2 ^ 23 % 2 ^ 8 : Nat) - 127 - 23) := rfl

/-- The value of a sign, an exponent field and a fraction put together. -/
theorem val_f32_fields (neg : Bool) {E F : Nat} (hE : E < 255) (hF : F < 2 ^ 23) :
    fmtF32.val (fmtF32.sign neg + E * 2 ^ 23 + F) = if E = 0 then .fin neg F (-149) else .fin neg (2 ^ 23 + F) ((E : Int) - 127 - 23) := by
  have hsgn : ((fmtF32.sign neg + E * 2 ^ 23 + F) / 2 ^ 31 % 2 == 1) = neg := by cases neg <;> simp [Format.sign, fmtF32] <;> omega
  have hexp : (fmtF32.sign neg + E * 2 ^ 23 + F) / 2 ^ 23 % 2 ^ 8 = E := by cases neg <;> simp [Format.sign, fmtF32] <;> omega
  have hfrac : (fmtF32.sign neg + E * 2 ^ 23 + F) % 2 ^ 23 = F := by cases neg <;> simp [Format.sign, fmtF32] <;> omega
  rw [val_f32, hsgn, hexp, hfrac, if_neg hE.ne]

/-- The parts of a finite pattern's value (R42). -/
theorem val_f32_fin {b m : Nat} {neg : Bool} {e : Int} (h : fmtF32.val b = .fin neg m e) : m < 2 ^ 24 ∧ -149 ≤ e ∧ e ≤ 104 := by
  have hE : b / 2 ^ 23 % 2 ^ 8 < 2 ^ 8 := Nat.mod_lt _ (by decide)
  have hF : b % 2 ^ 23 < 2 ^ 23 := Nat.mod_lt _ (by decide)
  rw [val_f32] at h
  split_ifs at h <;> (obtain ⟨-, rfl, rfl⟩ := Val.fin.inj h; omega)

/-- A finite F32 number is a multiple of 2^p by less than 2^24, for some p of the format's range. -/
theorem f32Num_eq {x : Nat} (hx : f32Finite x) : ∃ (k p : Int), f32Num x = k * 2 ^ p ∧ |k| < 2 ^ 24 ∧ -149 ≤ p ∧ p ≤ 104 := by
  obtain ⟨-, hfin⟩ := hx
  cases hv : fmtF32.val x with
  | nan => rw [hv] at hfin; cases hfin
  | inf s => rw [hv] at hfin; cases hfin
  | fin s m e =>
    obtain ⟨hm, hlo, hhi⟩ := val_f32_fin hv
    refine ⟨if s then -m else m, e, ?_, ?_, hlo, hhi⟩
    · rw [f32Num, hv]
      cases s <;> simp [Val.rat]
    · cases s <;> simp <;> omega

theorem abs_f32Num_le {x : Nat} (hx : f32Finite x) : |f32Num x| ≤ (2 ^ 24 - 1) * 2 ^ (104 : Int) := by
  obtain ⟨k, p, hval, hk, -, hp⟩ := f32Num_eq hx
  have hk' : |(k : ℝ)| ≤ 2 ^ 24 - 1 := by
    have : |k| ≤ 2 ^ 24 - 1 := by omega
    exact_mod_cast this
  rw [hval, abs_mul, abs_of_pos (by positivity : (0 : ℝ) < 2 ^ p)]
  exact mul_le_mul hk' (zpow_le_zpow_right₀ one_le_two hp) (by positivity) (by norm_num)

/-- Above the subnormals' unit a finite F32 number is a multiple of the unit 2^q or lies below 2^23 units. -/
theorem f32Num_grid {x : Nat} (hx : f32Finite x) (q : Int) :
    (∃ k : Int, f32Num x / 2 ^ q = k) ∨ (q ≠ -149 ∧ |f32Num x / 2 ^ q| < 2 ^ 23) := by
  obtain ⟨k, p, hval, hk, hlo, -⟩ := f32Num_eq hx
  rw [hval, mul_div_assoc, ← zpow_sub₀ two_ne_zero]
  by_cases hqp : q ≤ p
  · obtain ⟨n, hn⟩ := Int.eq_ofNat_of_zero_le (sub_nonneg.2 hqp)
    exact .inl ⟨k * 2 ^ n, by rw [hn]; push_cast; rfl⟩
  · refine .inr ⟨by omega, ?_⟩
    have hk' : |(k : ℝ)| < 2 ^ 24 := by exact_mod_cast hk
    have hpow : (2 : ℝ) ^ (p - q) ≤ 2 ^ (-1 : Int) := zpow_le_zpow_right₀ one_le_two (by omega)
    rw [abs_mul, abs_of_pos (by positivity : (0 : ℝ) < 2 ^ (p - q))]
    calc |(k : ℝ)| * 2 ^ (p - q) < 2 ^ 24 * 2 ^ (p - q) := mul_lt_mul_of_pos_right hk' (by positivity)
      _ ≤ 2 ^ 24 * 2 ^ (-1 : Int) := mul_le_mul_of_nonneg_left hpow (by positivity)
      _ = 2 ^ 23 := by norm_num

/-! ### The best of the candidates -/

/-- A number in units that a rounding of `u` may give: an integer, or one below an integer that is at most `u`. -/
def Candidate (u t : ℝ) : Prop := (∃ k : Int, t = k) ∨ ∃ k : Int, t < k ∧ (k : ℝ) ≤ u

theorem TruncatesTo.le_of_int {u : ℝ} {n : Nat} (h : TruncatesTo u n) {k : Int} (hk : (k : ℝ) ≤ u) : (k : ℝ) ≤ n := by
  have : (k : ℝ) < ((n + 1 : Int) : ℝ) := by push_cast; exact hk.trans_lt h.2
  exact_mod_cast Int.lt_add_one_iff.1 (Int.cast_lt.1 this)

theorem TruncatesTo.best {u t : ℝ} {n : Nat} (h : TruncatesTo u n) (hc : Candidate u t) (ht : t ≤ u) : t ≤ n := by
  obtain ⟨k, rfl⟩ | ⟨k, hlt, hk⟩ := hc
  · exact h.le_of_int ht
  · exact hlt.le.trans (h.le_of_int hk)

theorem CarriesTo.best {u t : ℝ} {n : Nat} (h : CarriesTo u n) (hc : Candidate u t) (ht : u ≤ t) : (n : ℝ) ≤ t := by
  obtain ⟨k, rfl⟩ | ⟨k, hlt, hk⟩ := hc
  · have : ((n : Int) : ℝ) < ((k + 1 : Int) : ℝ) := by push_cast; exact h.2.trans_le (by linarith)
    exact_mod_cast Int.lt_add_one_iff.1 (Int.cast_lt.1 this)
  · exact absurd (ht.trans hlt.le) (by linarith)

theorem NearestTo.best_int {u : ℝ} {n : Nat} (h : NearestTo u n) (k : Int) :
    (k : ℝ) = n ∨ |u - n| < |u - k| ∨ (|u - n| = |u - k| ∧ n % 2 = 0) := by
  by_cases hkn : k = n
  · exact .inl (by rw [hkn]; rfl)
  · right
    have hgap : (1 : ℝ) ≤ |(k : ℝ) - n| := by exact_mod_cast Int.one_le_abs (sub_ne_zero.2 hkn)
    have htri : |(k : ℝ) - n| ≤ |u - n| + |u - k| := by
      have := abs_sub_le (k : ℝ) u n
      rw [abs_sub_comm (k : ℝ) u] at this
      linarith
    rcases h.1.lt_or_eq with hlt | heq
    · exact .inl (by linarith)
    · rcases (show |u - n| ≤ |u - k| by linarith).lt_or_eq with hlt | hke
      · exact .inl hlt
      · exact .inr ⟨hke, h.2 heq⟩

theorem NearestTo.best {u t : ℝ} {n : Nat} (h : NearestTo u n) (hc : Candidate u t) :
    t = n ∨ |u - n| < |u - t| ∨ (|u - n| = |u - t| ∧ n % 2 = 0) := by
  obtain ⟨k, rfl⟩ | ⟨k, hlt, hk⟩ := hc
  · exact h.best_int k
  · have hle : |u - n| ≤ |u - k| := by
      rcases h.best_int k with heq | hlt | ⟨heq, -⟩
      · rw [heq]
      · exact hlt.le
      · exact heq.le
    rw [abs_of_nonneg (sub_nonneg.2 hk)] at hle
    refine .inr (.inl (hle.trans_lt ?_))
    rw [abs_of_nonneg (by linarith)]
    linarith

/-- An integer at most `u` is at most what `u` rounds to. -/
theorem RoundsTo.le_of_int {rm : Rm} {neg : Bool} {u : ℝ} {n : Nat} (h : RoundsTo rm neg u n) {k : Nat} (hk : (k : ℝ) ≤ u) : k ≤ n := by
  have htrunc : TruncatesTo u n → k ≤ n := fun h => by
    have := h.le_of_int (k := k) (by exact_mod_cast hk)
    exact_mod_cast this
  have hcarry : CarriesTo u n → k ≤ n := fun h => by exact_mod_cast hk.trans h.1
  have hnear : NearestTo u n → k ≤ n := fun h => by
    have := (abs_le.1 h.1).2
    have : (k : ℝ) < ((n + 1 : Nat) : ℝ) := by push_cast; linarith
    exact Nat.lt_succ_iff.1 (by exact_mod_cast this)
  cases rm <;> cases neg <;> simp only [RoundsTo] at h <;> first | exact htrunc h | exact hcarry h | exact hnear h

/-! ### A number rounded once -/

/-- The number of a sign and a magnitude. -/
def withSign (neg : Bool) (v : ℝ) : ℝ := if neg then -v else v

theorem abs_withSign (neg : Bool) (v : ℝ) : |withSign neg v| = |v| := by cases neg <;> simp [withSign]

theorem withSign_withSign (neg : Bool) (v : ℝ) : withSign neg (withSign neg v) = v := by cases neg <;> simp [withSign]

theorem abs_withSign_sub (neg : Bool) (v x : ℝ) : |withSign neg v - x| = |v - withSign neg x| := by
  cases neg
  · rfl
  · rw [withSign, withSign, if_pos rfl, if_pos rfl, ← abs_neg]
    congr 1
    ring

theorem withSign_neg_iff (neg : Bool) {v : ℝ} (hv : 0 < v) : withSign neg v < 0 ↔ neg = true := by
  cases neg <;> simp [withSign, hv, hv.le]

/-- A finite F32 number in units, with a sign applied, is a candidate for a magnitude that is normal in this unit. -/
theorem candidate_f32 (neg : Bool) {x : Nat} (hx : f32Finite x) {q : Int} {u : ℝ} (hu : q = -149 ∨ (2 : ℝ) ^ 23 ≤ u) :
    Candidate u (withSign neg (f32Num x) / 2 ^ q) := by
  rcases f32Num_grid hx q with ⟨k, hk⟩ | ⟨hq, hlt⟩
  · refine .inl ⟨if neg then -k else k, ?_⟩
    cases neg
    · simpa [withSign] using hk
    · simp [withSign, neg_div, hk]
  · refine .inr ⟨2 ^ 23, ?_, by exact_mod_cast hu.resolve_left hq⟩
    have hscale : |withSign neg (f32Num x) / 2 ^ q| = |f32Num x / 2 ^ q| := by rw [abs_div, abs_withSign, ← abs_div]
    exact_mod_cast lt_of_abs_lt (hscale.trans_lt hlt)

/-- A pattern that stands for the finite number `n * 2^q` with a sign. -/
structure Encodes (b : Nat) (neg : Bool) (n : Nat) (q : Int) : Prop where
  finite : f32Finite b
  num : f32Num b = withSign neg (n * 2 ^ q)
  sign : 2 ^ 31 ≤ b ↔ neg = true
  parity : b % 2 = n % 2

section rounded

variable {neg : Bool} {v : ℝ} {q : Int} {n : Nat} (hu : q = -149 ∨ (2 : ℝ) ^ 23 ≤ v / 2 ^ q)

include hu

/-- No finite F32 number lies between a magnitude and its truncation. -/
theorem truncatesTo_f32 (h : TruncatesTo (v / 2 ^ q) n) (neg : Bool) {x : Nat} (hx : f32Finite x) (hle : withSign neg (f32Num x) ≤ v) :
    withSign neg (f32Num x) ≤ n * 2 ^ q := by
  have hpos : (0 : ℝ) < 2 ^ q := by positivity
  exact (div_le_iff₀ hpos).1 (h.best (candidate_f32 neg hx hu) ((div_le_div_iff_of_pos_right hpos).2 hle))

theorem carriesTo_f32 (h : CarriesTo (v / 2 ^ q) n) (neg : Bool) {x : Nat} (hx : f32Finite x) (hle : v ≤ withSign neg (f32Num x)) :
    n * 2 ^ q ≤ withSign neg (f32Num x) := by
  have hpos : (0 : ℝ) < 2 ^ q := by positivity
  exact (le_div_iff₀ hpos).1 (h.best (candidate_f32 neg hx hu) ((div_le_div_iff_of_pos_right hpos).2 hle))

theorem nearestTo_f32 (h : NearestTo (v / 2 ^ q) n) (neg : Bool) {x : Nat} (hx : f32Finite x) :
    withSign neg (f32Num x) = n * 2 ^ q ∨ |v - n * 2 ^ q| < |v - withSign neg (f32Num x)| ∨
      (|v - n * 2 ^ q| = |v - withSign neg (f32Num x)| ∧ n % 2 = 0) := by
  have hpos : (0 : ℝ) < 2 ^ q := by positivity
  have hscale : ∀ t : ℝ, |v / 2 ^ q - t| = |v - t * 2 ^ q| / 2 ^ q := fun t => by
    rw [div_sub' hpos.ne', abs_div, abs_of_pos hpos, mul_comm (2 ^ q : ℝ)]
  have hbest := h.best (candidate_f32 neg hx hu)
  rw [hscale, hscale, div_mul_cancel₀ _ hpos.ne', div_eq_iff hpos.ne', div_lt_div_iff_of_pos_right hpos, div_left_inj' hpos.ne'] at hbest
  exact hbest

end rounded

theorem TruncatesTo.mul_le {v : ℝ} {q : Int} {n : Nat} (h : TruncatesTo (v / 2 ^ q) n) : n * 2 ^ q ≤ v :=
  (le_div_iff₀ (by positivity)).1 h.1

theorem CarriesTo.le_mul {v : ℝ} {q : Int} {n : Nat} (h : CarriesTo (v / 2 ^ q) n) : v ≤ n * 2 ^ q :=
  (div_le_iff₀ (by positivity)).1 h.1

/-- A magnitude of which the nearest integer is one that the format keeps lies below the first test of R56. -/
theorem NearestTo.lt_limit {v : ℝ} {q : Int} {n : Nat} (h : NearestTo (v / 2 ^ q) n) (hmax : q ≤ 103 ∧ n ≤ 2 ^ 24 ∨ q = 104 ∧ n < 2 ^ 24) :
    v < 2 ^ 128 - 2 ^ 103 := by
  have hpos : (0 : ℝ) < 2 ^ q := by positivity
  have hle : v / 2 ^ q ≤ n + 1 / 2 := by linarith [(abs_le.1 h.1).2]
  have hv : v = v / 2 ^ q * 2 ^ q := (div_mul_cancel₀ _ hpos.ne').symm
  rcases hmax with ⟨hq, hn⟩ | ⟨rfl, hn⟩
  · have hn' : (n : ℝ) ≤ 2 ^ 24 := by exact_mod_cast hn
    have hpow : (2 : ℝ) ^ q ≤ 2 ^ (103 : Int) := zpow_le_zpow_right₀ one_le_two hq
    calc v = v / 2 ^ q * 2 ^ q := hv
      _ ≤ (2 ^ 24 + 1 / 2) * 2 ^ q := mul_le_mul_of_nonneg_right (by linarith) hpos.le
      _ ≤ (2 ^ 24 + 1 / 2) * 2 ^ (103 : Int) := mul_le_mul_of_nonneg_left hpow (by norm_num)
      _ < 2 ^ 128 - 2 ^ 103 := by norm_num
  · have hlt : v / 2 ^ (104 : Int) < 2 ^ 24 - 1 / 2 := by
      rcases Nat.lt_or_ge n (2 ^ 24 - 1) with hn' | hn'
      · have : (n : ℝ) ≤ 2 ^ 24 - 2 := by
          have : n ≤ 2 ^ 24 - 2 := by omega
          have : ((n : Nat) : ℝ) ≤ ((2 ^ 24 - 2 : Nat) : ℝ) := by exact_mod_cast this
          norm_num at this ⊢
          linarith
        linarith
      · obtain rfl : n = 2 ^ 24 - 1 := by omega
        have hcast : ((2 ^ 24 - 1 : Nat) : ℝ) = 2 ^ 24 - 1 := by norm_num
        rw [hcast] at hle
        refine lt_of_le_of_ne (by linarith) fun heq => ?_
        have hodd := h.2 (by rw [heq, hcast]; norm_num)
        norm_num at hodd
    calc v = v / 2 ^ (104 : Int) * 2 ^ (104 : Int) := hv
      _ < (2 ^ 24 - 1 / 2) * 2 ^ (104 : Int) := mul_lt_mul_of_pos_right hlt hpos
      _ = 2 ^ 128 - 2 ^ 103 := by norm_num

/-- A magnitude rounded in its unit, encoded: the number is rounded once (R55). -/
theorem roundedF32_of_encodes {rm : Rm} {neg : Bool} {v : ℝ} {q : Int} {n b : Nat} (hv : 0 < v) (hu : q = -149 ∨ (2 : ℝ) ^ 23 ≤ v / 2 ^ q)
    (hr : RoundsTo rm neg (v / 2 ^ q) n) (hb : Encodes b neg n q) (hmax : q ≤ 103 ∧ n ≤ 2 ^ 24 ∨ q = 104 ∧ n < 2 ^ 24) :
    RoundedF32 rm (withSign neg v) b := by
  obtain ⟨hfin, hnum, hsign, hpar⟩ := hb
  have hmag : (0 : ℝ) ≤ n * 2 ^ q := by positivity
  refine ⟨hfin.1, hsign.trans (withSign_neg_iff neg hv).symm, ?_⟩
  cases rm with
  | rn =>
    have hn : NearestTo (v / 2 ^ q) n := hr
    dsimp only
    rw [abs_withSign, abs_of_pos hv, if_neg (not_le.2 (hn.lt_limit hmax))]
    refine ⟨hfin, fun x hx => ?_⟩
    have hbest := nearestTo_f32 hu hn neg hx
    rw [abs_withSign_sub, abs_withSign_sub, hnum, withSign_withSign, hpar]
    refine hbest.imp_left fun heq => ?_
    rw [← heq, withSign_withSign]
  | rz =>
    have ht : TruncatesTo (v / 2 ^ q) n := hr
    dsimp only
    rw [abs_withSign, abs_of_pos hv, hnum, abs_withSign, abs_of_nonneg hmag]
    refine ⟨hfin, ht.mul_le, fun x hx hle => abs_le'.2 ⟨?_, ?_⟩⟩
    · exact truncatesTo_f32 hu ht false hx (le_of_abs_le hle)
    · exact truncatesTo_f32 hu ht true hx (abs_le'.1 hle).2
  | ru =>
    refine .inr ⟨hfin, ?_⟩
    rw [hnum]
    cases neg with
    | false =>
      have hc : CarriesTo (v / 2 ^ q) n := hr
      exact ⟨hc.le_mul, fun x hx hle => carriesTo_f32 hu hc false hx hle⟩
    | true =>
      have ht : TruncatesTo (v / 2 ^ q) n := hr
      exact ⟨neg_le_neg ht.mul_le, fun x hx hle => neg_le.1 (truncatesTo_f32 hu ht true hx (neg_le.1 hle))⟩
  | rd =>
    refine .inr ⟨hfin, ?_⟩
    rw [hnum]
    cases neg with
    | false =>
      have ht : TruncatesTo (v / 2 ^ q) n := hr
      exact ⟨ht.mul_le, fun x hx hle => truncatesTo_f32 hu ht false hx hle⟩
    | true =>
      have hc : CarriesTo (v / 2 ^ q) n := hr
      exact ⟨neg_le_neg hc.le_mul, fun x hx hle => le_neg.1 (carriesTo_f32 hu hc true hx (le_neg.1 hle))⟩

/-- The pattern of a sign, an exponent field and a fraction stands for their number. -/
theorem encodes_fields (neg : Bool) {E F : Nat} (hE : E < 255) (hF : F < 2 ^ 23) :
    Encodes (fmtF32.sign neg + E * 2 ^ 23 + F) neg (if E = 0 then F else 2 ^ 23 + F) (if E = 0 then -149 else (E : Int) - 127 - 23) := by
  have hsgn : fmtF32.sign neg = if neg then 2 ^ 31 else 0 := rfl
  have hval := val_f32_fields neg hE hF
  refine ⟨⟨?_, ?_⟩, ?_, ?_, ?_⟩
  · rw [hsgn]
    split <;> omega
  · rw [hval]
    split <;> rfl
  · rw [f32Num, hval]
    split <;> cases neg <;> simp [Val.rat, withSign]
    ring
  · rw [hsgn]
    cases neg <;> simp only [Bool.false_eq_true, if_true, if_false, iff_true, iff_false] <;> omega
  · rw [hsgn]
    split <;> split <;> omega

theorem encodes_maxBits (neg : Bool) : Encodes (fmtF32.maxBits neg) neg (2 ^ 24 - 1) 104 := by
  have h := encodes_fields neg (E := 254) (F := 2 ^ 23 - 1) (by decide) (by decide)
  have hbits : fmtF32.sign neg + 254 * 2 ^ 23 + (2 ^ 23 - 1) = fmtF32.maxBits neg := by cases neg <;> rfl
  rwa [hbits] at h

/-- A magnitude that overflows: it reaches 2^128, or rounds to it. -/
def Overflows (rm : Rm) (neg : Bool) (v : ℝ) : Prop := (2 : ℝ) ^ 128 ≤ v ∨ RoundsTo rm neg (v / 2 ^ (104 : Int)) (2 ^ 24)

theorem Overflows.rn_le {neg : Bool} {v : ℝ} (h : Overflows .rn neg v) : (2 : ℝ) ^ 128 - 2 ^ 103 ≤ v := by
  rcases h with hv | hr
  · exact (by norm_num : (2 : ℝ) ^ 128 - 2 ^ 103 ≤ 2 ^ 128).trans hv
  · have hn : NearestTo (v / 2 ^ (104 : Int)) (2 ^ 24) := hr
    have hlow := (abs_le.1 hn.1).1
    push_cast at hlow
    have := (le_div_iff₀ (by positivity)).1 (show (2 : ℝ) ^ 24 - 1 / 2 ≤ v / 2 ^ (104 : Int) by linarith)
    exact (by norm_num : (2 : ℝ) ^ 128 - 2 ^ 103 = (2 ^ 24 - 1 / 2) * 2 ^ (104 : Int)).trans_le this

/-- A magnitude that overflows lies above the largest finite one. -/
theorem Overflows.max_lt {rm : Rm} {neg : Bool} {v : ℝ} (h : Overflows rm neg v) : (2 ^ 24 - 1) * 2 ^ (104 : Int) < v := by
  rcases h with hv | hr
  · exact (by norm_num : ((2 : ℝ) ^ 24 - 1) * 2 ^ (104 : Int) < 2 ^ 128).trans_le hv
  · refine (lt_div_iff₀ (by positivity)).1 ?_
    have hnear : NearestTo (v / 2 ^ (104 : Int)) (2 ^ 24) → (2 : ℝ) ^ 24 - 1 < v / 2 ^ (104 : Int) := fun h => by
      have := (abs_le.1 h.1).1
      push_cast at this
      linarith
    have htrunc : TruncatesTo (v / 2 ^ (104 : Int)) (2 ^ 24) → (2 : ℝ) ^ 24 - 1 < v / 2 ^ (104 : Int) := fun h => by
      have := h.1
      push_cast at this
      linarith
    have hcarry : CarriesTo (v / 2 ^ (104 : Int)) (2 ^ 24) → (2 : ℝ) ^ 24 - 1 < v / 2 ^ (104 : Int) := fun h => by
      have := h.2
      push_cast at this
      linarith
    cases rm <;> cases neg <;> first | exact hnear hr | exact htrunc hr | exact hcarry hr

/-- What an overflow gives (R56). -/
theorem roundedF32_overflow {rm : Rm} {neg : Bool} {v : ℝ} (h : Overflows rm neg v) :
    RoundedF32 rm (withSign neg v) (fmtF32.overflow neg rm) := by
  have hmax := h.max_lt
  have hv : 0 < v := lt_trans (by norm_num) hmax
  have hcast : ((2 ^ 24 - 1 : Nat) : ℝ) = 2 ^ 24 - 1 := by norm_num
  obtain ⟨hfin, hnum, -, -⟩ := encodes_maxBits neg
  rw [hcast] at hnum
  have hsign : 2 ^ 31 ≤ fmtF32.overflow neg rm ↔ withSign neg v < 0 := by
    rw [withSign_neg_iff neg hv]
    cases rm <;> cases neg <;> decide
  refine ⟨fmtF32.overflow_lt neg rm, hsign, ?_⟩
  cases rm with
  | rn =>
    dsimp only
    rw [abs_withSign, abs_of_pos hv, if_pos h.rn_le]
    cases neg <;> rfl
  | rz =>
    refine ⟨hfin, ?_, fun x hx _ => ?_⟩
    · change |f32Num (fmtF32.maxBits neg)| ≤ _
      rw [hnum, abs_withSign, abs_withSign, abs_of_pos hv, abs_of_nonneg (by norm_num)]
      exact hmax.le
    · change _ ≤ |f32Num (fmtF32.maxBits neg)|
      rw [hnum, abs_withSign, abs_of_nonneg (show (0 : ℝ) ≤ (2 ^ 24 - 1) * 2 ^ (104 : Int) by norm_num)]
      exact abs_f32Num_le hx
  | ru =>
    cases neg with
    | false => exact .inl ⟨rfl, fun x hx => ((le_abs_self _).trans (abs_f32Num_le hx)).trans_lt hmax⟩
    | true =>
      refine .inr ⟨hfin, ?_, fun x hx _ => ?_⟩
      · change _ ≤ f32Num (fmtF32.maxBits true)
        rw [hnum]
        exact neg_le_neg hmax.le
      · change f32Num (fmtF32.maxBits true) ≤ _
        rw [hnum]
        exact (abs_le.1 (abs_f32Num_le hx)).1
  | rd =>
    cases neg with
    | false =>
      refine .inr ⟨hfin, ?_, fun x hx _ => ?_⟩
      · change f32Num (fmtF32.maxBits false) ≤ _
        rw [hnum]
        exact hmax.le
      · change _ ≤ f32Num (fmtF32.maxBits false)
        rw [hnum]
        exact (abs_le.1 (abs_f32Num_le hx)).2
    | true => exact .inl ⟨rfl, fun x hx => (neg_lt_neg hmax).trans_le (abs_le.1 (abs_f32Num_le hx)).1⟩

/-! ### `roundTo` into F32 -/

/-- The top bit of a cut number. -/
theorem CutAt.top {v : ℝ} {m : Nat} {e : Int} {st : Bool} (h : CutAt v m e st) (hm : m ≠ 0) : (2 : ℝ) ^ ((bitLen m : Int) - 1 + e) ≤ v := by
  have hbit : 2 ^ (bitLen m - 1) ≤ m := by
    rw [bitLen, if_neg hm, Nat.add_sub_cancel]
    exact Nat.log2_self_le hm
  have hexp : (bitLen m : Int) - 1 = (bitLen m - 1 : Nat) := by have := bitLen_pos hm; omega
  rw [hexp, zpow_add₀ two_ne_zero, zpow_natCast]
  refine le_trans ?_ h.le
  exact mul_le_mul_of_nonneg_right (by exact_mod_cast hbit) (by positivity)

theorem unit_f32 (m : Nat) (e : Int) :
    fmtF32.unit m e = if (bitLen m : Int) - 1 + e - 23 < -149 then -149 else (bitLen m : Int) - 1 + e - 23 := rfl

theorem pack_f32 (rm : Rm) (ftz neg : Bool) (n : Nat) (q : Int) : fmtF32.pack rm ftz neg n q =
    if n < 2 ^ 23 then fmtF32.sign neg + (if ftz then 0 else n)
    else if (q + 23 + 127).toNat ≥ 255 then fmtF32.overflow neg rm
    else fmtF32.sign neg + (q + 23 + 127).toNat * 2 ^ 23 + (n - 2 ^ 23) := rfl

theorem roundTo_f32 (rm : Rm) (ftz neg : Bool) (m : Nat) (e : Int) (st : Bool) : (fmtF32.roundTo rm false ftz neg m e st).bits =
    if (bitLen m : Int) - 1 + e > 128 then fmtF32.overflow neg rm
    else if roundAt rm neg m e (fmtF32.unit m e) st ≥ 2 ^ 24 then
      fmtF32.pack rm ftz neg (roundAt rm neg m e (fmtF32.unit m e) st / 2) (fmtF32.unit m e + 1)
    else fmtF32.pack rm ftz neg (roundAt rm neg m e (fmtF32.unit m e) st) (fmtF32.unit m e) := by
  rw [fmtF32.roundTo_bits, Bool.false_and, if_neg Bool.false_ne_true]
  rfl

/-- Packing a magnitude that the format keeps. -/
theorem encodes_pack (rm : Rm) (neg : Bool) {n : Nat} {q : Int} (hn : n < 2 ^ 24) (hlo : -149 ≤ q) (hhi : q ≤ 104) (hsub : q = -149 ∨ 2 ^ 23 ≤ n) :
    Encodes (fmtF32.pack rm false neg n q) neg n q := by
  rw [pack_f32]
  by_cases hsmall : n < 2 ^ 23
  · obtain rfl : q = -149 := hsub.resolve_right (by omega)
    rw [if_pos hsmall, if_neg Bool.false_ne_true]
    have h := encodes_fields neg (E := 0) (by decide) hsmall
    rwa [Nat.zero_mul, Nat.add_zero, if_pos rfl, if_pos rfl] at h
  · rw [if_neg hsmall, if_neg (by omega)]
    have h := encodes_fields neg (E := (q + 23 + 127).toNat) (F := n - 2 ^ 23) (by omega) (by omega)
    rwa [if_neg (by omega), if_neg (by omega), show 2 ^ 23 + (n - 2 ^ 23) = n by omega,
      show ((q + 23 + 127).toNat : Int) - 127 - 23 = q by omega] at h

/-- A magnitude that rounds to 2^24 units is packed as 2^23 units of the next binade. -/
theorem Encodes.of_carry {b : Nat} {neg : Bool} {q : Int} (h : Encodes b neg (2 ^ 23) (q + 1)) : Encodes b neg (2 ^ 24) q := by
  obtain ⟨hfin, hnum, hsign, hpar⟩ := h
  refine ⟨hfin, ?_, hsign, hpar⟩
  rw [hnum, zpow_add_one₀ two_ne_zero]
  congr 1
  push_cast
  ring

/-- `roundTo` of a number cut off below its unit gives it rounded once. -/
theorem roundTo_rounded (rm : Rm) (neg : Bool) {v : ℝ} {m : Nat} {e : Int} {st : Bool} (h : CutAt v m e st) (hm : m ≠ 0)
    (hq : e < fmtF32.unit m e ∨ st = false) : RoundedF32 rm (withSign neg v) (fmtF32.roundTo rm false false neg m e st).bits := by
  have htop := h.top hm
  have hv : 0 < v := lt_of_lt_of_le (by positivity) htop
  have hround := roundAt_rounds rm neg h hq
  have hle : roundAt rm neg m e (fmtF32.unit m e) st ≤ 2 ^ 24 := fmtF32.roundAt_unit_le rm neg st m e
  have hlo : -149 ≤ fmtF32.unit m e := by rw [unit_f32]; split <;> omega
  have hu : fmtF32.unit m e = -149 ∨ (2 : ℝ) ^ 23 ≤ v / 2 ^ fmtF32.unit m e := by
    rw [unit_f32]
    split
    · exact .inl rfl
    · refine .inr ((le_div_iff₀ (by positivity)).2 (le_trans (le_of_eq ?_) htop))
      rw [← zpow_natCast, ← zpow_add₀ two_ne_zero]
      congr 1
      omega
  have hbig : 104 < fmtF32.unit m e → (2 : ℝ) ^ 128 ≤ v := fun hunit => by
    refine le_trans ?_ htop
    rw [← zpow_natCast]
    refine zpow_le_zpow_right₀ one_le_two ?_
    rw [unit_f32] at hunit
    split at hunit <;> push_cast <;> omega
  rw [roundTo_f32]
  generalize fmtF32.unit m e = q at *
  generalize roundAt rm neg m e q st = n at *
  split
  next hover =>
    refine roundedF32_overflow (.inl (le_trans ?_ htop))
    rw [← zpow_natCast]
    exact zpow_le_zpow_right₀ one_le_two (by push_cast; omega)
  next =>
    split
    next hcarry =>
      obtain rfl : n = 2 ^ 24 := le_antisymm hle hcarry
      by_cases hmax : q ≤ 103
      · exact roundedF32_of_encodes hv hu hround (.of_carry (encodes_pack rm neg (by decide) (by omega) (by omega) (.inr (by decide)))) (.inl ⟨hmax, le_rfl⟩)
      · rw [pack_f32, if_neg (by decide), if_pos (by omega)]
        rcases (show q = 104 ∨ 104 < q by omega) with rfl | hunit
        · exact roundedF32_overflow (.inr hround)
        · exact roundedF32_overflow (.inl (hbig hunit))
    next hsmall =>
      have hsub : q = -149 ∨ 2 ^ 23 ≤ n := hu.imp_right fun h23 => hround.le_of_int (by exact_mod_cast h23)
      by_cases hmax : q ≤ 104
      · exact roundedF32_of_encodes hv hu hround (encodes_pack rm neg (by omega) hlo hmax hsub) (by omega)
      · rw [pack_f32, if_neg (by omega), if_pos (by omega)]
        exact roundedF32_overflow (.inl (hbig (by omega)))

/-- A pattern as MODE.FTZ leaves it: the zero of its sign for a subnormal one (R57). -/
def flushed (b : Nat) : Nat := if b / 2 ^ 23 % 2 ^ 8 = 0 then b / 2 ^ 31 * 2 ^ 31 else b

theorem flushed_overflow (rm : Rm) (neg : Bool) : flushed (fmtF32.overflow neg rm) = fmtF32.overflow neg rm := by
  cases rm <;> cases neg <;> rfl

theorem pack_ftz (rm : Rm) (neg : Bool) {n : Nat} {q : Int} (hn : n < 2 ^ 24) (hlo : -149 ≤ q) :
    fmtF32.pack rm true neg n q = flushed (fmtF32.pack rm false neg n q) := by
  have hsgn : fmtF32.sign neg = 0 ∨ fmtF32.sign neg = 2 ^ 31 := by cases neg <;> decide
  rw [pack_f32, pack_f32]
  split
  next hsmall =>
    rw [if_pos rfl, if_neg Bool.false_ne_true, flushed, if_pos (by omega)]
    omega
  next =>
    split
    · exact (flushed_overflow rm neg).symm
    · rw [flushed, if_neg (by omega)]

theorem roundTo_ftz (rm : Rm) (neg : Bool) (m : Nat) (e : Int) (st : Bool) :
    (fmtF32.roundTo rm false true neg m e st).bits = flushed (fmtF32.roundTo rm false false neg m e st).bits := by
  have hle : roundAt rm neg m e (fmtF32.unit m e) st ≤ 2 ^ 24 := fmtF32.roundAt_unit_le rm neg st m e
  have hlo : -149 ≤ fmtF32.unit m e := by rw [unit_f32]; split <;> omega
  rw [roundTo_f32, roundTo_f32]
  split
  · exact (flushed_overflow rm neg).symm
  · split
    · exact pack_ftz rm neg (by omega) (by omega)
    · exact pack_ftz rm neg (by omega) hlo

/-- The same rounded once with MODE.FTZ. -/
theorem roundTo_roundsOnce (rm : Rm) (ftz neg : Bool) {v : ℝ} {m : Nat} {e : Int} {st : Bool} (h : CutAt v m e st) (hm : m ≠ 0)
    (hq : e < fmtF32.unit m e ∨ st = false) :
    RoundsOnce rm ftz (withSign neg v) (BitVec.ofNat 32 (fmtF32.roundTo rm false ftz neg m e st).bits) := by
  refine ⟨_, roundTo_rounded rm neg h hm hq, ?_⟩
  cases ftz with
  | false => rw [if_neg (by simp)]
  | true => simp only [true_and, roundTo_ftz, flushed]

end Sys2Proof.Machine
end

section
/-! Proof of `Obligations.OneSourceFunctions`: the special operands, the exact reciprocal and roots rounded once, and the exact
cases of FEXP2, FLOG2 and FTANH (R116). -/

namespace Sys2Proof.Machine

/-! ### The integer square root -/

theorem isqrtGo_spec (n : Nat) : ∀ k r, r * r ≤ n → n < (r + 2 ^ k) * (r + 2 ^ k) →
    isqrtGo n k r * isqrtGo n k r ≤ n ∧ n < (isqrtGo n k r + 1) * (isqrtGo n k r + 1)
  | 0, _, hle, hlt => ⟨hle, hlt⟩
  | k + 1, r, hle, hlt => by
    rw [isqrtGo]
    split
    next hc => exact isqrtGo_spec n k _ hc (by rwa [add_assoc, ← two_mul, ← pow_succ'])
    next hc => exact isqrtGo_spec n k _ hle (not_le.1 hc)

theorem isqrt_spec (n : Nat) : isqrt n * isqrt n ≤ n ∧ n < (isqrt n + 1) * (isqrt n + 1) := by
  refine isqrtGo_spec n _ 0 (Nat.zero_le _) (lt_of_lt_of_le (lt_two_pow_bitLen n) ?_)
  rw [Nat.zero_add, ← pow_add]
  exact Nat.pow_le_pow_right (by decide) (by omega)

theorem le_isqrt {n k : Nat} (h : k * k ≤ n) : k ≤ isqrt n :=
  Nat.lt_succ_iff.1 (Nat.mul_self_lt_mul_self_iff.1 (h.trans_lt (isqrt_spec n).2))

/-- A real number whose square is cut off to `n` by an integer part is itself cut off to the root of `n`. -/
theorem CutAt.of_isqrt {x : ℝ} {n : Nat} {st : Bool} (hx : 0 ≤ x) (hle : (n : ℝ) ≤ x * x) (hlt : x * x < n + 1)
    (hst : st = true ↔ x * x ≠ (isqrt n * isqrt n : Nat)) (e : Int) : CutAt (x * 2 ^ e) (isqrt n) e st := by
  obtain ⟨h1, h2⟩ := isqrt_spec n
  have h1' : (isqrt n : ℝ) * isqrt n ≤ n := by exact_mod_cast h1
  have h2' : (n : ℝ) + 1 ≤ (isqrt n + 1) * (isqrt n + 1) := by exact_mod_cast h2
  refine .of_floor ((mul_self_le_mul_self_iff (Nat.cast_nonneg _) hx).2 (h1'.trans hle)) (lt_of_mul_self_lt_mul_self₀ (by positivity) (hlt.trans_le h2')) ?_ e
  rw [hst, Nat.cast_mul, ne_eq, ne_eq, mul_self_inj hx (Nat.cast_nonneg _)]

/-! ### Cut numbers below their unit -/

theorem lt_unit_f32 {m : Nat} (hm : 2 ^ 24 ≤ m) (e : Int) : e < fmtF32.unit m e := by
  have hbits : 24 < bitLen m := (Nat.pow_lt_pow_iff_right (by decide : 1 < 2)).1 (hm.trans_lt (lt_two_pow_bitLen m))
  rw [unit_f32]
  split <;> omega

/-- A number cut off to at least 25 bits is rounded once. -/
theorem roundTo_roundsOnce_wide (rm : Rm) (ftz neg : Bool) {v : ℝ} {m : Nat} {e : Int} {st : Bool} (h : CutAt v m e st) (hm : 2 ^ 24 ≤ m) :
    RoundsOnce rm ftz (withSign neg v) (BitVec.ofNat 32 (fmtF32.roundTo rm false ftz neg m e st).bits) :=
  roundTo_roundsOnce rm ftz neg h (by omega) (.inl (lt_unit_f32 hm e))

theorem rat_fin (neg : Bool) (m : Nat) (e : Int) : (((Val.fin neg m e).rat : ℚ) : ℝ) = withSign neg (m * 2 ^ e) := by
  cases neg <;> simp [Val.rat, withSign]

/-! ### The reciprocal and the roots -/

theorem frcpVal_roundsOnce (rm : Rm) (ftz neg : Bool) {n : Nat} (e : Int) (hn : n ≠ 0) :
    RoundsOnce rm ftz (1 / withSign neg (n * 2 ^ e)) (BitVec.ofNat 32 (frcpVal rm ftz (.fin neg n e))) := by
  have hpos : (0 : ℝ) < n := by exact_mod_cast Nat.pos_of_ne_zero hn
  have hcut := CutAt.of_div (1 * 2 ^ (64 + bitLen n)) hn (0 - e - (64 + bitLen n : Nat))
  have hwide : 2 ^ 24 ≤ 1 * 2 ^ (64 + bitLen n) / n := by
    rw [Nat.le_div_iff_mul_le (Nat.pos_of_ne_zero hn), one_mul, pow_add]
    exact Nat.mul_le_mul (by decide) (lt_two_pow_bitLen n).le
  have hval : 1 / withSign neg (n * 2 ^ e) =
      withSign neg (((1 * 2 ^ (64 + bitLen n) : Nat) : ℝ) / n * 2 ^ (0 - e - (64 + bitLen n : Nat) : Int)) := by
    have hmag : ((1 * 2 ^ (64 + bitLen n) : Nat) : ℝ) / n * 2 ^ (0 - e - (64 + bitLen n : Nat) : Int) = 1 / (n * 2 ^ e) := by
      rw [zpow_sub₀ two_ne_zero, zpow_sub₀ two_ne_zero, zpow_natCast]
      push_cast
      field_simp
    rw [hmag]
    cases neg
    · rfl
    · exact div_neg _
  rw [hval]
  have hround := roundTo_roundsOnce_wide rm ftz neg hcut hwide
  have hdiv : frcpVal rm ftz (.fin neg n e) = (fmtF32.roundTo rm false ftz neg (1 * 2 ^ (64 + bitLen n) / n)
      (0 - e - (64 + bitLen n : Nat)) (1 * 2 ^ (64 + bitLen n) % n != 0)).bits := by
    unfold frcpVal Format.divTo
    dsimp only
    rw [if_neg hn, if_neg Nat.one_ne_zero, Bool.false_bne]
  rwa [hdiv]

/-- A magnitude with an even exponent. -/
theorem exists_even_exponent {m : Nat} (hm : m ≠ 0) (e : Int) : ∃ (M : Nat) (h : Int), M ≠ 0 ∧ ((M : ℝ) * 2 ^ (2 * h)) = m * 2 ^ e ∧
    (if e % 2 = 0 then (m, e) else (2 * m, e - 1)) = (M, 2 * h) := by
  by_cases he : e % 2 = 0
  · exact ⟨m, e / 2, hm, by rw [show 2 * (e / 2) = e by omega], by rw [if_pos he, show 2 * (e / 2) = e by omega]⟩
  · refine ⟨2 * m, (e - 1) / 2, by omega, ?_, by rw [if_neg he, show 2 * ((e - 1) / 2) = e - 1 by omega]⟩
    rw [show 2 * ((e - 1) / 2) = e - 1 by omega, zpow_sub_one₀ two_ne_zero]
    push_cast
    ring

theorem fsqrtVal_roundsOnce (rm : Rm) (ftz : Bool) {m : Nat} (e : Int) (hm : m ≠ 0) :
    RoundsOnce rm ftz (Real.sqrt (m * 2 ^ e)) (BitVec.ofNat 32 (fsqrtVal rm ftz (.fin false m e))) := by
  obtain ⟨M, h, hM, hval, heven⟩ := exists_even_exponent hm e
  have hsq : Real.sqrt ((M * 2 ^ 128 : Nat) : ℝ) * Real.sqrt ((M * 2 ^ 128 : Nat) : ℝ) = (M * 2 ^ 128 : Nat) := Real.mul_self_sqrt (Nat.cast_nonneg _)
  have hcut : CutAt (Real.sqrt ((M * 2 ^ 128 : Nat) : ℝ) * 2 ^ (h - 64)) (isqrt (M * 2 ^ 128)) (h - 64)
      (isqrt (M * 2 ^ 128) * isqrt (M * 2 ^ 128) != M * 2 ^ 128) := by
    refine .of_isqrt (Real.sqrt_nonneg _) hsq.ge (hsq.trans_lt (lt_add_one _)) ?_ _
    rw [hsq, bne_iff_ne, ne_comm, ne_eq, ne_eq, Nat.cast_inj]
  have hwide : 2 ^ 24 ≤ isqrt (M * 2 ^ 128) := le_isqrt (by have := Nat.pos_of_ne_zero hM; omega)
  have hroot : Real.sqrt (m * 2 ^ e) = Real.sqrt ((M * 2 ^ 128 : Nat) : ℝ) * 2 ^ (h - 64) := by
    have hpow : ((2 : ℝ) ^ (h - 64)) ^ 2 = 2 ^ (2 * h) / 2 ^ 128 := by
      rw [← zpow_natCast, ← zpow_mul, ← zpow_natCast, ← zpow_sub₀ two_ne_zero]
      congr 1
      push_cast
      ring
    rw [← hval, ← Real.sqrt_sq (by positivity : (0 : ℝ) ≤ 2 ^ (h - 64)), ← Real.sqrt_mul (Nat.cast_nonneg _), hpow]
    congr 1
    push_cast
    ring
  have hsqrt : fsqrtVal rm ftz (.fin false m e) = (fmtF32.roundTo rm false ftz false (isqrt (M * 2 ^ 128)) (h - 64)
      (isqrt (M * 2 ^ 128) * isqrt (M * 2 ^ 128) != M * 2 ^ 128)).bits := by
    unfold fsqrtVal Format.sqrtTo
    dsimp only
    rw [if_neg hm, if_neg Bool.false_ne_true, heven]
    dsimp only
    rw [Int.mul_ediv_cancel_left _ two_ne_zero]
  rw [hroot, hsqrt]
  exact roundTo_roundsOnce_wide rm ftz false hcut hwide

theorem frsqVal_roundsOnce (rm : Rm) (ftz : Bool) {m : Nat} (e : Int) (hm : m ≠ 0) :
    RoundsOnce rm ftz (1 / Real.sqrt (m * 2 ^ e)) (BitVec.ofNat 32 (frsqVal rm ftz (.fin false m e))) := by
  obtain ⟨M, h, hM, hval, heven⟩ := exists_even_exponent hm e
  have hpos : (0 : ℝ) < M := by exact_mod_cast Nat.pos_of_ne_zero hM
  obtain ⟨j, hj⟩ : ∃ j, 128 + bitLen M + bitLen M % 2 = 2 * j := ⟨(128 + bitLen M + bitLen M % 2) / 2, by omega⟩
  have hsq : Real.sqrt (((2 ^ (2 * j) : Nat) : ℝ) / M) * Real.sqrt (((2 ^ (2 * j) : Nat) : ℝ) / M) = ((2 ^ (2 * j) : Nat) : ℝ) / M :=
    Real.mul_self_sqrt (by positivity)
  have hdiv := CutAt.of_div (2 ^ (2 * j)) hM 0
  have hle := hdiv.le
  have hlt := hdiv.lt
  rw [zpow_zero, mul_one, mul_one, ← hsq] at hle hlt
  have hcut : CutAt (Real.sqrt (((2 ^ (2 * j) : Nat) : ℝ) / M) * 2 ^ (-h - j)) (isqrt (2 ^ (2 * j) / M)) (-h - j)
      (isqrt (2 ^ (2 * j) / M) * isqrt (2 ^ (2 * j) / M) * M != 2 ^ (2 * j)) := by
    refine .of_isqrt (Real.sqrt_nonneg _) hle hlt ?_ _
    rw [hsq, bne_iff_ne, ne_comm, ne_eq, ne_eq, div_eq_iff hpos.ne', ← Nat.cast_mul, Nat.cast_inj]
  have hwide : 2 ^ 24 ≤ isqrt (2 ^ (2 * j) / M) := by
    refine le_isqrt ((Nat.le_div_iff_mul_le (Nat.pos_of_ne_zero hM)).2 ?_)
    rw [← hj, add_right_comm, pow_add]
    exact Nat.mul_le_mul ((by decide : 2 ^ 24 * 2 ^ 24 ≤ 2 ^ 128).trans (Nat.pow_le_pow_right (by decide) (by omega))) (lt_two_pow_bitLen M).le
  have hroot : 1 / Real.sqrt (m * 2 ^ e) = Real.sqrt (((2 ^ (2 * j) : Nat) : ℝ) / M) * 2 ^ (-h - j) := by
    have hpow : ((2 : ℝ) ^ (-h - j)) ^ 2 = 1 / (2 ^ (2 * h) * 2 ^ (2 * j)) := by
      rw [← zpow_natCast, ← zpow_mul, ← zpow_natCast (2 : ℝ) (2 * j), ← zpow_add₀ two_ne_zero, one_div, ← zpow_neg]
      congr 1
      push_cast
      ring
    rw [← hval, one_div, ← Real.sqrt_inv, ← Real.sqrt_sq (by positivity : (0 : ℝ) ≤ 2 ^ (-h - j)), ← Real.sqrt_mul (by positivity), hpow]
    congr 1
    push_cast
    field_simp
  have hrsqrt : frsqVal rm ftz (.fin false m e) = (fmtF32.roundTo rm false ftz false (isqrt (2 ^ (2 * j) / M)) (-h - j)
      (isqrt (2 ^ (2 * j) / M) * isqrt (2 ^ (2 * j) / M) * M != 2 ^ (2 * j))).bits := by
    unfold frsqVal Format.rsqrtTo
    dsimp only
    rw [if_neg hm, if_neg Bool.false_ne_true, heven]
    dsimp only
    rw [hj, Int.mul_ediv_cancel_left _ two_ne_zero, Nat.mul_div_cancel_left _ two_pos]
  rw [hroot, hrsqrt]
  exact roundTo_roundsOnce_wide rm ftz false hcut hwide

/-! ### The exact cases of the elementary functions -/

theorem two_pow_top_le {m : Nat} (hm : m ≠ 0) (e : Int) : (2 : ℝ) ^ ((bitLen m : Int) - 1 + e) ≤ m * 2 ^ e :=
  CutAt.top (st := false) ⟨le_rfl, mul_lt_mul_of_pos_right (lt_add_one _) (by positivity), by simp⟩ hm

theorem lt_two_pow_top (m : Nat) (e : Int) : (m : ℝ) * 2 ^ e < 2 ^ ((bitLen m : Int) + e) := by
  rw [zpow_add₀ two_ne_zero, zpow_natCast]
  exact mul_lt_mul_of_pos_right (by exact_mod_cast lt_two_pow_bitLen m) (by positivity)

theorem pack_ftz_normal (rm : Rm) (ftz neg : Bool) {n : Nat} (hn : 2 ^ 23 ≤ n) (q : Int) :
    fmtF32.pack rm ftz neg n q = fmtF32.pack rm false neg n q := by
  rw [pack_f32, pack_f32, if_neg (not_lt.2 hn), if_neg (not_lt.2 hn)]

/-- A power of two of F32's range is packed exactly. -/
theorem roundTo_two_pow (rm : Rm) (ftz : Bool) {n : Int} (hlo : (if ftz then -126 else -149) ≤ n) (hhi : n ≤ 127) :
    (fmtF32.roundTo rm false ftz false 1 n false).bits < 2 ^ 32 ∧
      (fmtF32.val (fmtF32.roundTo rm false ftz false 1 n false).bits).rat = (2 : ℚ) ^ n := by
  have hbit : (bitLen 1 : Int) - 1 + n = n := by rw [show bitLen 1 = 1 by decide]; omega
  have hmin : -149 ≤ n := by split at hlo <;> omega
  obtain ⟨q, k, hq, hk, hq149, hk23, hunit⟩ : ∃ (q : Int) (k : Nat), fmtF32.unit 1 n = q ∧ n = q + k ∧ -149 ≤ q ∧ k ≤ 23 ∧ (q = -149 ∨ k = 23) := by
    rw [unit_f32, hbit]
    split
    · exact ⟨-149, (n + 149).toNat, rfl, by omega, by omega, by omega, .inl rfl⟩
    · exact ⟨n - 23, 23, rfl, by omega, by omega, le_rfl, .inr rfl⟩
  have hround : roundAt rm false 1 n q false = 2 ^ k := by
    rw [roundAt, if_pos (by omega), Nat.one_mul, show (n - q).toNat = k by omega]
  have hle : 2 ^ k ≤ 2 ^ 23 := Nat.pow_le_pow_right (by decide) hk23
  have hnormal : k = 23 → 2 ^ 23 ≤ 2 ^ k := fun h => by rw [h]
  have hbits : (fmtF32.roundTo rm false ftz false 1 n false).bits = fmtF32.pack rm false false (2 ^ k) q := by
    rw [roundTo_f32, hbit, if_neg (by omega), hq, hround, if_neg (by omega)]
    cases ftz with
    | false => rfl
    | true => exact pack_ftz_normal rm true false (hnormal (by simp only [if_true] at hlo; omega)) q
  obtain ⟨hfin, hnum, -, -⟩ := encodes_pack rm false (n := 2 ^ k) (q := q) (by omega) (by omega) (by omega) (hunit.imp_right hnormal)
  rw [hbits]
  refine ⟨hfin.1, ?_⟩
  have hpow : withSign false (((2 ^ k : Nat) : ℝ) * 2 ^ q) = ((2 ^ n : ℚ) : ℝ) := by
    rw [withSign, if_neg Bool.false_ne_true, hk, zpow_add₀ two_ne_zero, zpow_natCast]
    push_cast
    ring
  rw [hpow] at hnum
  exact_mod_cast hnum

theorem toFix_int {neg : Bool} {m : Nat} {e n : Int} (he : -149 ≤ e) (hn : withSign neg (m * 2 ^ e) = n) : toFix neg m e = n * 2 ^ fixBits := by
  obtain ⟨k, hk⟩ : ∃ k : Nat, e + (fixBits : Int) = k := ⟨(e + fixBits).toNat, by rw [fixBits]; omega⟩
  have hmag : withSign neg ((m * 2 ^ k : Nat) : ℝ) = n * 2 ^ fixBits := by
    rw [← hn, Nat.cast_mul, Nat.cast_pow, Nat.cast_ofNat, ← zpow_natCast, ← hk, zpow_add₀ two_ne_zero, zpow_natCast]
    cases neg <;> simp only [withSign, if_true, Bool.false_eq_true, if_false] <;> ring
  unfold toFix
  dsimp only
  rw [hk, if_pos (Int.natCast_nonneg k), Int.toNat_natCast]
  cases neg
  · have h : ((m * 2 ^ k : Nat) : ℝ) = n * 2 ^ fixBits := hmag
    rw [if_neg Bool.false_ne_true]
    exact_mod_cast h
  · have h : -((m * 2 ^ k : Nat) : ℝ) = n * 2 ^ fixBits := hmag
    rw [if_pos rfl]
    exact_mod_cast h

/-- FEXP2 of an integer rounds the exact power of two. -/
theorem fexp2Val_int (rm : Rm) (ftz : Bool) {neg : Bool} {m : Nat} {e n : Int} (hm : m ≠ 0) (he : -149 ≤ e) (hn : withSign neg (m * 2 ^ e) = n)
    (hlo : -149 ≤ n) (hhi : n ≤ 127) : fexp2Val rm ftz (.fin neg m e) = (fmtF32.roundTo rm false ftz false 1 n false).bits := by
  have htop : (bitLen m : Int) + e ≤ 12 := by
    have hmag : (m : ℝ) * 2 ^ e = |(n : ℝ)| := by rw [← hn, abs_withSign, abs_of_nonneg (by positivity)]
    have habs : |(n : ℝ)| < 2 ^ (8 : Int) := by
      have : |n| < 2 ^ 8 := abs_lt.2 ⟨by omega, by omega⟩
      exact_mod_cast this
    have := (two_pow_top_le hm e).trans_lt (hmag.trans_lt habs)
    have := (zpow_lt_zpow_iff_right₀ one_lt_two).1 this
    omega
  unfold fexp2Val
  dsimp only
  rw [if_neg hm, if_neg (by omega), toFix_int he hn, Int.mul_ediv_cancel _ (by positivity), Int.mul_emod_left, if_pos Int.toNat_zero]

theorem flog2Val_one (rm : Rm) (ftz : Bool) {m : Nat} {e : Int} (hm : m < 2 ^ 24) (h1 : (m : ℝ) * 2 ^ e = 1) :
    flog2Val rm ftz (.fin false m e) = 0 := by
  have hm0 : m ≠ 0 := by
    rintro rfl
    norm_num at h1
  have htop : (bitLen m : Int) - 1 + e = 0 := by
    have hle := two_pow_top_le hm0 e
    have hlt := lt_two_pow_top m e
    rw [h1, ← zpow_zero (2 : ℝ)] at hle hlt
    have := (zpow_le_zpow_iff_right₀ one_lt_two).1 hle
    have := (zpow_lt_zpow_iff_right₀ one_lt_two).1 hlt
    omega
  have hpos := bitLen_pos hm0
  have hbits : bitLen m ≤ 24 := bitLen_le_of_lt hm
  obtain ⟨k, hk⟩ : ∃ k : Nat, bitLen m = k + 1 := ⟨bitLen m - 1, by omega⟩
  have hpow : m = 2 ^ k := by
    rw [show e = -(k : Int) by omega, zpow_neg, zpow_natCast, mul_inv_eq_one₀ (by positivity)] at h1
    exact_mod_cast h1
  unfold flog2Val
  dsimp only
  rw [if_neg hm0, if_neg Bool.false_ne_true, hk, Nat.add_sub_cancel, hpow, ← pow_add, show k + (fixBits - k) = fixBits by rw [fixBits]; omega,
    if_pos rfl, show e + (k : Int) = 0 by omega]
  rfl

theorem ftanhVal_large (rm : Rm) (ftz : Bool) {m : Nat} {e : Int} (h32 : (32 : ℝ) ≤ m * 2 ^ e) :
    ftanhVal rm ftz (.fin false m e) = if rm = .rn ∨ rm = .ru then 0x3F800000 else 0x3F7FFFFF := by
  have hm : m ≠ 0 := by
    rintro rfl
    norm_num at h32
  have htop : 5 < (bitLen m : Int) + e := by
    have := h32.trans_lt (lt_two_pow_top m e)
    rw [show (32 : ℝ) = 2 ^ (5 : Int) by norm_num] at this
    exact (zpow_lt_zpow_iff_right₀ one_lt_two).1 this
  unfold ftanhVal
  dsimp only
  rw [if_neg hm, if_neg (by omega), if_pos htop]
  cases rm <;> cases ftz <;> decide +kernel

/-! ### The statement -/

/-- The special operands of a function by the kinds of value: a NaN, an infinity, a zero, and any other number (R116). -/
theorem special_of {special : Val → Option Word} {fv : Val → Nat} (hnan : special .nan = some (BitVec.ofNat 32 (fv .nan)))
    (hinf : ∀ s, special (.inf s) = some (BitVec.ofNat 32 (fv (.inf s)))) (hzero : ∀ s e, special (.fin s 0 e) = some (BitVec.ofNat 32 (fv (.fin s 0 e))))
    (hfin : ∀ s m e w, m ≠ 0 → special (.fin s m e) = some w → BitVec.ofNat 32 (fv (.fin s m e)) = w) (x : Val) (w : Word)
    (hx : special x = some w) : BitVec.ofNat 32 (fv x) = w := by
  cases x with
  | nan => exact Option.some.inj (hnan.symm.trans hx)
  | inf s => exact Option.some.inj ((hinf s).symm.trans hx)
  | fin s m e =>
    by_cases hm : m = 0
    · subst hm
      exact Option.some.inj ((hzero s e).symm.trans hx)
    · exact hfin s m e w hm hx

/-- An instruction that executes as `flt1` of `fv` completes with what `fv` gives. -/
theorem functionOf_of {f : Head → Rm → Bool → Bool → Operand → Operand → Instr} {fv : Rm → Bool → Val → Nat} {special : Val → Option Word}
    {g : Rm → Bool → ℝ → Word → Prop} {dom : ℝ → Prop} (hex : ∀ h rm na aa d a s, exec (f h rm na aa d a) s = flt1 fv h rm na aa d a s)
    (hwf : ∀ h rm na aa d a, (f h rm na aa d a).wf = wfVl h d a)
    (hspecial : ∀ rm ftz x w, special x = some w → BitVec.ofNat 32 (fv rm ftz x) = w)
    (hg : ∀ rm ftz neg (m : Nat) (e : Int), m ≠ 0 → m < 2 ^ 24 → -149 ≤ e → dom (withSign neg (m * 2 ^ e)) →
      g rm ftz (withSign neg (m * 2 ^ e)) (BitVec.ofNat 32 (fv rm ftz (.fin neg m e)))) : FunctionOf f special g dom := by
  intro s c h rm na aa d a hs hw hf
  rw [hwf] at hw
  refine vec_writes_word hs (hex h rm na aa d a s) hf (wfVl_isDst hw) fun p _ => ⟨_, word_isWord _, ?_⟩
  rw [Ctx.elemVal_f32]
  refine ⟨hspecial rm c.ftz _, fun hfin hzero hdom => ?_⟩
  generalize hx : fltSrc fmtF32 c.ftz na aa (c.src p .f32 a) = x at *
  cases x with
  | nan => cases hfin
  | inf s => cases hfin
  | fin neg m e =>
    have hm : m ≠ 0 := by rintro rfl; cases hzero
    obtain ⟨hlt, hlo, -⟩ := val_f32_fin hx
    rw [rat_fin] at hdom ⊢
    exact hg rm c.ftz neg m e hm hlt hlo hdom

theorem neg_false_of_pos {neg : Bool} {m : Nat} {e : Int} (h : 0 < withSign neg (m * 2 ^ e)) : neg = false := by
  cases neg
  · rfl
  · have : (0 : ℝ) ≤ m * 2 ^ e := by positivity
    rw [withSign, if_pos rfl] at h
    linarith

theorem frcpVal_special (rm : Rm) (ftz : Bool) : ∀ x w, reciprocalSpecial x = some w → BitVec.ofNat 32 (frcpVal rm ftz x) = w := by
  refine special_of rfl (fun s => by cases s <;> rfl) (fun s e => by cases s <;> rfl) fun s m e w hm hw => ?_
  rw [reciprocalSpecial, if_neg hm] at hw
  cases hw

theorem frsqVal_special (rm : Rm) (ftz : Bool) : ∀ x w, reciprocalRootSpecial x = some w → BitVec.ofNat 32 (frsqVal rm ftz x) = w := by
  refine special_of rfl (fun s => by cases s <;> rfl) (fun s e => by cases s <;> rfl) fun s m e w hm hw => ?_
  rw [reciprocalRootSpecial, if_neg hm] at hw
  cases s with
  | false => cases hw
  | true =>
    cases hw
    simp only [frsqVal, Format.rsqrtTo, if_neg hm, if_true]
    rfl

theorem fsqrtVal_special (rm : Rm) (ftz : Bool) : ∀ x w, rootSpecial x = some w → BitVec.ofNat 32 (fsqrtVal rm ftz x) = w := by
  refine special_of rfl (fun s => by cases s <;> rfl) (fun s e => by cases s <;> rfl) fun s m e w hm hw => ?_
  rw [rootSpecial, if_neg hm] at hw
  cases s with
  | false => cases hw
  | true =>
    cases hw
    simp only [fsqrtVal, Format.sqrtTo, if_neg hm, if_true]
    rfl

theorem fexp2Val_special (rm : Rm) (ftz : Bool) : ∀ x w, exponentialSpecial x = some w → BitVec.ofNat 32 (fexp2Val rm ftz x) = w := by
  refine special_of rfl (fun s => by cases s <;> rfl) (fun s e => ?_) fun s m e w hm hw => ?_
  · have hone : (fmtF32.ofVal rm false ftz (.fin false 1 0)).bits = 0x3F800000 := by cases rm <;> cases ftz <;> decide +kernel
    rw [fexp2Val, if_pos rfl, hone]
    rfl
  · rw [exponentialSpecial, if_neg hm] at hw
    cases hw

theorem flog2Val_special (rm : Rm) (ftz : Bool) : ∀ x w, logarithmSpecial x = some w → BitVec.ofNat 32 (flog2Val rm ftz x) = w := by
  refine special_of rfl (fun s => by cases s <;> rfl) (fun s e => by cases s <;> rfl) fun s m e w hm hw => ?_
  rw [logarithmSpecial, if_neg hm] at hw
  cases s with
  | false => cases hw
  | true =>
    cases hw
    rw [flog2Val, if_neg hm, if_pos rfl]
    rfl

theorem ftanhVal_special (rm : Rm) (ftz : Bool) : ∀ x w, tangentSpecial x = some w → BitVec.ofNat 32 (ftanhVal rm ftz x) = w := by
  refine special_of rfl (fun s => ?_) (fun s e => by cases s <;> rfl) fun s m e w hm hw => ?_
  · have hone : BitVec.ofNat 32 (fmtF32.ofVal rm false ftz (.fin s 1 0)).bits = if s then 0xBF800000#32 else 0x3F800000#32 := by
      cases rm <;> cases ftz <;> cases s <;> decide +kernel
    rw [ftanhVal, hone]
    rfl
  · rw [tangentSpecial, if_neg hm] at hw
    cases hw

/-- Settles O10: each function's word is its special result, or the exact value rounded once by `roundTo_roundsOnce`, or the exact
case of an elementary function. -/
theorem oneSourceFunctions : Obligations.OneSourceFunctions := by
  unfold Obligations.OneSourceFunctions
  refine ⟨?_, ?_, ?_, ?_, ?_, ?_⟩
  · exact functionOf_of (fv := frcpVal) (fun _ _ _ _ _ _ _ => rfl) (fun _ _ _ _ _ _ => rfl) frcpVal_special
      fun rm ftz neg m e hm _ _ _ => frcpVal_roundsOnce rm ftz neg e hm
  · refine functionOf_of (fv := frsqVal) (fun _ _ _ _ _ _ _ => rfl) (fun _ _ _ _ _ _ => rfl) frsqVal_special fun rm ftz neg m e hm _ _ hpos => ?_
    obtain rfl := neg_false_of_pos hpos
    exact frsqVal_roundsOnce rm ftz e hm
  · refine functionOf_of (fv := fsqrtVal) (fun _ _ _ _ _ _ _ => rfl) (fun _ _ _ _ _ _ => rfl) fsqrtVal_special fun rm ftz neg m e hm _ _ hpos => ?_
    obtain rfl := neg_false_of_pos hpos
    exact fsqrtVal_roundsOnce rm ftz e hm
  · refine functionOf_of (fv := fexp2Val) (fun _ _ _ _ _ _ _ => rfl) (fun _ _ _ _ _ _ => rfl) fexp2Val_special
      fun rm ftz neg m e hm _ he _ n hn hlo hhi => ?_
    obtain ⟨hlt, hrat⟩ := roundTo_two_pow rm ftz hlo hhi
    rw [fexp2Val_int rm ftz hm he hn (by split at hlo <;> omega) hhi, BitVec.toNat_ofNat, Nat.mod_eq_of_lt hlt]
    exact hrat
  · refine functionOf_of (fv := flog2Val) (fun _ _ _ _ _ _ _ => rfl) (fun _ _ _ _ _ _ => rfl) flog2Val_special
      fun rm ftz neg m e _ hlt _ hpos h1 => ?_
    obtain rfl := neg_false_of_pos hpos
    rw [flog2Val_one rm ftz hlt h1]
  · refine functionOf_of (fv := ftanhVal) (fun _ _ _ _ _ _ _ => rfl) (fun _ _ _ _ _ _ => rfl) ftanhVal_special
      fun rm ftz neg m e _ _ _ _ h32 => ?_
    obtain rfl := neg_false_of_pos (lt_of_lt_of_le (by norm_num) h32)
    rw [ftanhVal_large rm ftz h32]
    split <;> rfl

end Sys2Proof.Machine
end

section
/-! Control and status registers (R158, R241 to R244): O42, the value that each register reads as, and O43, what a write of one
changes. -/

namespace Sys2Proof.Machine

/-! ### CSRRD -/

theorem ctx?_launch {s : State} {c : Ctx} (h : s.ctx? = some c) : s.launch? c.launch.key = some c.launch := by
  unfold State.ctx? at h
  split at h
  · cases h
  · split at h
    · cases h
    next x hx =>
      split at h
      · cases h
      next l hl =>
        cases h
        have hk : l.key = x.launch := by simpa using List.find?_some hl
        rw [hk]
        exact hl

/-- The type in which a register is read and written. -/
def csrType (r : Csr) : Ty := if r.is64 then .i64 else .i32

theorem csrType_words (r : Csr) : Ty.words (csrType r) = if r.is64 then 2 else 1 := words_csrType r

/-- Where no shadow stands, a register reads as the state of its team and launch gives it. -/
theorem exec_csrrd {s : State} {h : Head} {d : Operand} {n : BitVec 12} {r : Csr} (hr : Csr.ofNum n.toNat = some r)
    (hsh : s.shadow = none) : exec (.csrrd h d n) s = vec s h [(d, Ty.words (csrType r))] d (fun c t =>
      .ofTy (csrType r) (s.csrValue ((s.team? c.grp.team).getD c.team) ((s.launch? c.launch.key).getD c.launch) t r)) := by
  show execCsrrd h d n s = _
  have hseen : s.seen = s := by unfold State.seen; rw [hsh]
  simp only [execCsrrd, hr, hseen, csrType_words]
  rfl

/-- Settles O42: a value read is the register's, modulo its width; each register is the field that its clause names. -/
theorem statusRegisterReads : Obligations.StatusRegisterReads := by
  unfold Obligations.StatusRegisterReads
  intro s c h d n r hs hw hr hf hsh
  have hd : d.isDst h.u (Ty.words (csrType r)) = true := by
    simp only [Instr.wf, hr, Bool.and_eq_true] at hw
    rw [csrType_words]
    exact hw.2
  rw [← csrType_words] at hf ⊢
  refine vec_writes_ofTy hs (exec_csrrd hr hsh) hf hd fun p _ => ?_
  rw [ctx?_team hs.ctx, ctx?_launch hs.ctx, Option.getD_some, Option.getD_some]
  obtain ⟨hlen, hpreds⟩ := ofTy_shape (csrType r) (s.csrValue c.team c.launch p r)
  refine ⟨hpreds, hlen, ?_⟩
  have hval := wordsNat_ofTy_mod (csrType r) (s.csrValue c.team c.launch p r)
  rw [csrType_words] at hval
  rw [hval]
  clear hval hlen hpreds hd hf hr hw
  have hword : ∀ x : Word, x.toNat % 4294967296 = x.toNat := fun x => Nat.mod_eq_of_lt x.isLt
  have hdword : ∀ x : DWord, x.toNat % 18446744073709551616 = x.toNat := fun x => Nat.mod_eq_of_lt x.isLt
  have haddr : ∀ x : BitVec 57, x.toNat % 18446744073709551616 = x.toNat := fun x => Nat.mod_eq_of_lt (x.isLt.trans (by decide))
  cases r
  case rgnwm =>
    simp only [State.csrValue, State.deviceCsr, Csr.is64, State.csrRgnwm]
    cases c.team.rgn with
    | entry i => cases h : s.regions.find? (fun x => x.id == i) <;> simp [h]
    | _ => simp
  case ready => simpa [State.csrValue, State.deviceCsr, Csr.is64] using s.power.ready.isLt.trans (by decide)
  case psig => simp +contextual [State.csrValue, State.deviceCsr, Csr.is64, hdword]
  all_goals simp [State.csrValue, State.deviceCsr, Csr.is64, Power.csrBootwhy, Power.csrPace, State.csrNmwin, Cadence.csrHead, Cadence.csrState,
    State.csrQgstate, hword, hdword, haddr]
/-! ### CSRWR of a register that is not of thread scope -/

/-- Of the state only the control and status registers that CSRWR writes differ. -/
def State.OnlyCsrs (s t : State) : Prop :=
  t = { s with resil := t.resil, trctl := t.trctl, faultRetryMax := t.faultRetryMax, nmwin := t.nmwin, power := t.power, teams := t.teams,
               asids := t.asids, launches := t.launches, cadence := t.cadence }

theorem csrSet_onlyCsrs (s : State) (team asid launch : Nat) (r : Csr) (x : Nat) : s.OnlyCsrs (s.csrSet team asid launch r x) := by
  unfold State.OnlyCsrs
  cases r
  case pace => simp only [State.csrSet]; split <;> rfl
  all_goals rfl

/-- Moving on does not look at those registers. -/
theorem advance_onlyCsrs {s t : State} (h : s.OnlyCsrs t) : t.advance = { t with threads := s.advance.threads, cores := s.advance.cores } := by
  unfold State.OnlyCsrs at h
  rw [h]
  unfold State.advance
  show (match (s.core? s.cur.core).bind (fun c => (c.port s.cur.port).group) with | none => _ | some g => _) = _
  cases (s.core? s.cur.core).bind (fun c => (c.port s.cur.port).group) <;> rfl

/-- The group moves on past registers that have been written. -/
theorem advance_onlyCsrs_stepsOnly {s t : State} {c : Ctx} (hs : Seated s c) (h : Head) (ht : s.OnlyCsrs t) :
    StepsOnly s c h { t.advance with
      resil := s.resil, trctl := s.trctl, faultRetryMax := s.faultRetryMax, nmwin := s.nmwin, power := s.power, teams := s.teams,
      asids := s.asids, launches := s.launches, cadence := s.cadence } := by
  have hstep := advance_stepsOnly hs h
  rw [(advance_spec s c.grp (ctx?_group hs.ctx).1).2.1] at hstep
  rw [advance_onlyCsrs ht]
  unfold State.OnlyCsrs at ht
  rw [ht]
  exact hstep

theorem asidOf_modAsid (s : State) (a : Nat) {f : AsidEntry → AsidEntry} (hf : ∀ e, (f e).id = e.id) (k : Nat) :
    (s.modAsid a f).asidOf k = if k = a then f (s.asidOf a) else s.asidOf k := by
  have hid : (f (s.asidOf a)).id = a := (hf _).trans (asidOf_id s a)
  unfold State.modAsid
  split
  next hk =>
    subst hk
    exact congrArg (Option.getD · _) (List.find?_cons_of_pos (p := fun e : AsidEntry => e.id == k) (beq_iff_eq.mpr hid))
  next hk =>
    refine congrArg (Option.getD · _) (find?_replaced s.asids ?_ fun e he => ?_)
    · exact beq_eq_false_iff_ne.mpr fun e => hk (e.symm.trans hid)
    · exact beq_eq_false_iff_ne.mpr fun e' => hk ((beq_iff_eq.mp he).symm.trans e')

/-- Bit `i` of an address rounded down to a multiple of 8 below 2^57. -/
theorem testBit_roundedAddr (n i : Nat) : (n % 2 ^ 57 / 8 * 8).testBit i = (decide (3 ≤ i ∧ i < 57) && n.testBit i) := by
  rw [show n % 2 ^ 57 / 8 * 8 = n % 2 ^ 57 / 2 ^ 3 * 2 ^ 3 from rfl, Nat.testBit_mul_two_pow, Nat.testBit_div_two_pow, Nat.testBit_mod_two_pow]
  by_cases h : 3 ≤ i
  · simp [h]
  · simp [h]

theorem roundedAddr_64 (x : DWord) : BitVec.ofNat 64 (x.toNat % 2 ^ 57 / 8 * 8) = x &&& 0x01FFFFFFFFFFFFF8#64 := by
  have hmask : ∀ i, i < 64 → (0x01FFFFFFFFFFFFF8#64).getLsbD i = decide (3 ≤ i ∧ i < 57) := by decide
  refine BitVec.eq_of_getLsbD_eq fun i hi => ?_
  rw [BitVec.getLsbD_ofNat, testBit_roundedAddr, BitVec.getLsbD_and, hmask i hi, decide_eq_true hi, Bool.true_and, Bool.and_comm]
  rfl

theorem roundedAddr_57 (x : DWord) : BitVec.ofNat 57 (x.toNat % 2 ^ 57 / 8 * 8) = x.setWidth 57 &&& 0x1FFFFFFFFFFFFF8#57 := by
  have hmask : ∀ i, i < 57 → (0x1FFFFFFFFFFFFF8#57).getLsbD i = decide (3 ≤ i ∧ i < 57) := by decide
  refine BitVec.eq_of_getLsbD_eq fun i hi => ?_
  rw [BitVec.getLsbD_ofNat, testBit_roundedAddr, BitVec.getLsbD_and, hmask i hi, BitVec.getLsbD_setWidth, decide_eq_true hi, Bool.true_and,
    Bool.true_and, Bool.and_comm]
  rfl

theorem clampNs_eq (n : Nat) : clampNs n = max 64 (min 1024 n) := by
  unfold clampNs
  split
  · omega
  · split <;> omega

section
variable (s : State) (team asid launch : Nat) (r : Csr) {x : Nat} {w : Word} {d : DWord}
  (h32 : r.is64 = false → BitVec.ofNat 32 x = w ∧ x = w.toNat) (h64 : r.is64 = true → x = d.toNat)

include h32 in
theorem csrSet_device :
    (s.csrSet team asid launch r x).resil = (if r = .resil then w &&& 0xFFFF0003#32 else s.resil) ∧
    (s.csrSet team asid launch r x).trctl = (if r = .trctl then w &&& 0x0000F00F#32 else s.trctl) ∧
    (s.csrSet team asid launch r x).faultRetryMax = (if r = .faultRetryMax then w &&& 0x000000FF#32 else s.faultRetryMax) ∧
    (s.csrSet team asid launch r x).nmwin = (if r = .nmwin then max 64 (min 1024 (w.toNat % 2 ^ 11)) else s.nmwin) := by
  cases r
  case resil | trctl | faultRetryMax => obtain ⟨hw, -⟩ := h32 rfl; rw [← hw]; exact ⟨rfl, rfl, rfl, rfl⟩
  case nmwin => obtain ⟨-, hx⟩ := h32 rfl; rw [← hx]; exact ⟨rfl, rfl, rfl, clampNs_eq _⟩
  case pace => simp only [State.csrSet]; split <;> exact ⟨rfl, rfl, rfl, rfl⟩
  all_goals exact ⟨rfl, rfl, rfl, rfl⟩

include h32 in
theorem csrSet_power : (s.csrSet team asid launch r x).power =
    if r = .pacedom then { s.power with pacedom := w &&& 0x8000FFFF#32 }
    else if r = .pace ∧ s.power.minimal = false then { s.power with req := w.toNat / 2 ^ 8 % 16 } else s.power := by
  cases r
  case pacedom => obtain ⟨hw, -⟩ := h32 rfl; rw [← hw]; rfl
  case pace =>
    obtain ⟨-, hx⟩ := h32 rfl
    rw [← hx]
    cases hm : s.power.minimal <;> simp [State.csrSet, hm]
  all_goals rfl

include h64 in
theorem csrSet_cadence : (s.csrSet team asid launch r x).cadence =
    if r = .cdbubu then { s.cadence with bubu := d.toNat } else if r = .cdbubd then { s.cadence with bubd := d.toNat }
    else if r = .cdbubs then { s.cadence with bubs := d.toNat } else if r = .cdbubx then { s.cadence with bubx := d.toNat } else s.cadence := by
  cases r
  case cdbubu | cdbubd | cdbubs | cdbubx => rw [← h64 rfl]; rfl
  case pace => simp only [State.csrSet]; split <;> rfl
  all_goals rfl

include h32 in
theorem csrSet_launch? (k : Nat) : (s.csrSet team asid launch r x).launch? k =
    (s.launch? k).map (fun y => if k ≠ launch then y else if r = .cvclim then { y with cvclim := w }
      else if r = .cvcsat then { y with cvcsat := w.toNat } else if r = .cvcftz then { y with cvcftz := w.toNat }
      else if r = .cvcnan then { y with cvcnan := w.toNat } else y) := by
  have hmod : ∀ f : Launch → Launch, (∀ l, (f l).key = l.key) →
      (s.modLaunch launch f).launch? k = (s.launch? k).map (fun y => if k ≠ launch then y else f y) := fun f hf => by
    rw [launch?_modLaunch s launch k hf]
    by_cases hk : k = launch <;> simp [hk]
  cases r
  case cvclim => obtain ⟨hw, -⟩ := h32 rfl; rw [← hw]; exact hmod _ fun _ => rfl
  case cvcsat | cvcftz | cvcnan => obtain ⟨-, hx⟩ := h32 rfl; rw [← hx]; exact hmod _ fun _ => rfl
  case pace => simp only [State.csrSet]; split <;> simp [State.launch?]
  all_goals simp [State.csrSet, State.launch?]

include h32 in
theorem csrSet_team? (k : Nat) : (s.csrSet team asid launch r x).team? k =
    (s.team? k).map (fun y => if k = team ∧ r = .mode then { y with mode := (y.mode &&& 0xFFFFFFFE#32) ||| (w &&& 1#32) }
      else if k = team ∧ r = .bktpri then { y with bktpri := w &&& 0x0000FFFF#32 } else y) := by
  have hmod : ∀ f : Team → Team, (∀ y, (f y).key = y.key) →
      (s.modTeam team f).team? k = (s.team? k).map (fun y => if k = team then f y else y) := fun f hf => team?_modTeam s team f hf k
  cases r
  case mode =>
    rw [← (h32 rfl).1]
    refine (hmod (fun y => { y with mode := (y.mode &&& ~~~1#32) ||| (BitVec.ofNat 32 x &&& 1#32) }) (fun _ => rfl)).trans ?_
    simp
  case bktpri =>
    rw [← (h32 rfl).1]
    refine (hmod (fun y => { y with bktpri := BitVec.ofNat 32 x &&& 0xFFFF#32 }) (fun _ => rfl)).trans ?_
    simp
  case pace => simp only [State.csrSet]; split <;> simp [State.team?]
  all_goals simp [State.csrSet, State.team?]

include h32 h64 in
theorem csrSet_asidOf (k : Nat) : (s.csrSet team asid launch r x).asidOf k =
    if k = asid ∧ r = .tvec then { s.asidOf k with tvec := d &&& 0x01FFFFFFFFFFFFF8#64 }
    else if k = asid ∧ r = .wdog then { s.asidOf k with wdog := w &&& 0x0000001F#32 } else s.asidOf k := by
  have hmod : ∀ f : AsidEntry → AsidEntry, (∀ e, (f e).id = e.id) →
      (s.modAsid asid f).asidOf k = if k = asid then f (s.asidOf asid) else s.asidOf k := fun f hf => asidOf_modAsid s asid hf k
  cases r
  case tvec =>
    rw [← roundedAddr_64, ← h64 rfl]
    refine (hmod (fun e => { e with tvec := BitVec.ofNat 64 (x % 2 ^ 57 / 8 * 8) }) (fun _ => rfl)).trans ?_
    by_cases hk : k = asid <;> simp [hk]
  case wdog =>
    rw [← (h32 rfl).1]
    refine (hmod (fun e => { e with wdog := BitVec.ofNat 32 x &&& 0x1F#32 }) (fun _ => rfl)).trans ?_
    by_cases hk : k = asid <;> simp [hk]
  case pace => simp only [State.csrSet]; split <;> simp [State.asidOf, State.asid?]
  all_goals simp [State.csrSet, State.asidOf, State.asid?]

end

theorem val64_toNat (c : Ctx) (p : Thread) (a : Operand) : (c.val64 p a).toNat = c.src p .i64 a := by
  rw [Ctx.val64, BitVec.toNat_ofNat]
  exact Nat.mod_eq_of_lt (c.src_lt p .i64 a)

/-- What CSRWR reads from its operand, in the type of the register. -/
theorem src_csrType (c : Ctx) (p : Thread) (a : Operand) (r : Csr) :
    (r.is64 = false → BitVec.ofNat 32 (c.src p (csrType r) a) = c.val p a ∧ c.src p (csrType r) a = (c.val p a).toNat) ∧
    (r.is64 = true → c.src p (csrType r) a = (c.val64 p a).toNat) := by
  unfold csrType
  refine ⟨fun h => ?_, fun h => ?_⟩
  · rw [h]
    exact ⟨rfl, (Ctx.val_toNat c p a).symm⟩
  · rw [h, if_pos rfl]
    exact (val64_toNat c p a).symm

/-- CSRWR of one executing participant that may write the register (R158, R243). -/
theorem exec_csrwr {s : State} {c : Ctx} {h : Head} {a : Operand} {n : BitVec 12} {r : Csr} {p : Thread} (hs : Seated s c)
    (hr : Csr.ofNum n.toNat = some r) (hf : c.fits [(a, Ty.words (csrType r))]) (hp : c.actors h = [p])
    (hpriv : r.access = .pw → c.launch.priv = true) (htpc : r ≠ .tpc) :
    exec (.csrwr h a n) s = .next (s.csrSet c.grp.team c.launch.asid c.launch.key r (c.src p (csrType r) a)).advance := by
  show execCsrwr h a n s = _
  simp only [execCsrwr, hr]
  refine (run_spec hs.ctx hf _).trans ?_
  have hmay : (r.access == .pw && !c.launch.priv && !(c.parts h).isEmpty) = false := by
    cases hacc : r.access == .pw
    · rfl
    · simp [hpriv (beq_iff_eq.mp hacc)]
  rw [hmay, if_neg (by simp), if_neg (by simpa using htpc), hp]
  rfl

/-! ### CSRWR of TPC -/

/-- An update of each of some threads, by what the thread says. -/
def State.modEach (s : State) (ps : List Thread) (f : Thread → Thread → Thread) : State :=
  ps.foldl (fun s t => s.modThread t.team t.tid (f t)) s

theorem modEach_only (s : State) (ps : List Thread) (f : Thread → Thread → Thread) :
    s.modEach ps f = { s with threads := (s.modEach ps f).threads } := by
  unfold State.modEach
  induction ps generalizing s with
  | nil => rfl
  | cons p r ih => rw [List.foldl_cons, ih]; rfl

/-! Steps of which each updates one thread, in any state. -/

section
variable {step : State → Thread → State} {f : Thread → Thread → Thread}
  (hstep : ∀ (s : State) t a b, (step s t).thread? a b = (s.thread? a b).map (fun u => if a = t.team ∧ b = t.tid then f t u else u))
include hstep

theorem thread?_foldl_other (s : State) (ps : List Thread) {team tid : Nat} (h : ∀ p ∈ ps, ¬(p.team = team ∧ p.tid = tid)) :
    (ps.foldl step s).thread? team tid = s.thread? team tid := by
  induction ps generalizing s with
  | nil => rfl
  | cons p r ih =>
    rw [List.foldl_cons, ih _ (fun q hq => h q (List.mem_cons_of_mem _ hq)), hstep]
    have hno := h p List.mem_cons_self
    cases s.thread? team tid with
    | none => rfl
    | some u => rw [Option.map_some, if_neg fun hh => hno ⟨hh.1.symm, hh.2.symm⟩]

theorem thread?_foldl_own (s : State) (ps : List Thread) (hn : (ps.map (fun p => (p.team, p.tid))).Nodup) {p : Thread} (hp : p ∈ ps) :
    (ps.foldl step s).thread? p.team p.tid = (s.thread? p.team p.tid).map (f p) := by
  induction ps generalizing s with
  | nil => cases hp
  | cons q r ih =>
    rw [List.map_cons, List.nodup_cons] at hn
    obtain ⟨hq, hr⟩ := hn
    rw [List.foldl_cons]
    rcases List.mem_cons.1 hp with rfl | hmem
    · rw [thread?_foldl_other hstep _ _ fun y hy hh => hq (List.mem_map.2 ⟨y, hy, by rw [hh.1, hh.2]⟩), hstep]
      simp
    · rw [ih _ hr hmem, hstep]
      have hne : ¬(p.team = q.team ∧ p.tid = q.tid) := fun hh => hq (List.mem_map.2 ⟨p, hmem, by rw [hh.1, hh.2]⟩)
      cases s.thread? p.team p.tid with
      | none => rfl
      | some u => rw [Option.map_some, if_neg hne]

end

theorem keeps_setTpc (x : Nat) : KeepsThread (fun u => u.setTpc x) := fun _ => ⟨rfl, rfl⟩

theorem exec_csrwr_tpc {s : State} {c : Ctx} {h : Head} {a : Operand} {n : BitVec 12} (hs : Seated s c)
    (hr : Csr.ofNum n.toNat = some .tpc) (hf : c.fits [(a, 2)]) :
    exec (.csrwr h a n) s = .next (s.modEach (c.parts h) (fun t u => u.setTpc (c.src (c.source h t) .i64 a))).advance := by
  show execCsrwr h a n s = _
  simp only [execCsrwr, hr]
  refine (run_spec hs.ctx hf _).trans ?_
  congr 2

theorem advance_none {s : State} (h : s.groupAt s.cur.core s.cur.port = none) : s.advance = s := by
  unfold State.advance
  rw [show (s.core? s.cur.core).bind (fun k => (k.port s.cur.port).group) = none from h]

theorem advance_group {s : State} {g : Group} (h : s.groupAt s.cur.core s.cur.port = some g) : s.advance =
    (s.modThreads g.team g.members (fun u => u.movedOn g s.cur.port s.clk)).modCore s.cur.core (fun x => x.setPort s.cur.port
      (if g.slot + 1 ≥ hdrWords g.hdr then .free else { group := some { g with slot := g.slot + 1 }, tile := none, stripe := [] })) := by
  unfold State.advance
  rw [show (s.core? s.cur.core).bind (fun k => (k.port s.cur.port).group) = some g from h]
  dsimp only
  congr 1
  funext x
  by_cases hl : g.slot + 1 ≥ hdrWords g.hdr
  · simp only [hl, decide_true, if_true]
  · simp only [hl, decide_false, Bool.false_eq_true, if_false]

/-- Moving on changes the ports in the same way whatever the threads are. -/
theorem advance_withThreads {s : State} {g : Group} (h : s.groupAt s.cur.core s.cur.port = some g) (ts : List Thread) :
    ({ s with threads := ts } : State).advance =
      { s with threads := ({ s with threads := ts } : State).advance.threads, cores := s.advance.cores } := by
  rw [advance_group (s := { s with threads := ts }) h, advance_group h]
  rfl

/-- Where the group only moves on, its ports do whatever becomes of the threads. -/
theorem stepsOnly_sameThreads {s t : State} {c : Ctx} {h : Head} (hs : Seated s c) (ht : StepsOnly s c h t) :
    StepsOnly s c h { t with threads := s.threads } := by
  refine ⟨(fun _ e => nomatch e), (fun _ e => nomatch e), fun p hp => ?_, ?_, fun _ _ _ => rfl,
    fun _ _ u hu => ⟨u, hu, rfl, fun _ _ => rfl, fun _ _ => rfl⟩, ht.rows, ht.cores⟩
  · obtain ⟨u, hu, -⟩ := hs.reg p (parts_ths hp)
    exact ⟨u, hu, fun _ hq => nomatch hq⟩
  · rw [ht.state]

theorem csrwr_tpc_writes {s : State} {c : Ctx} {h : Head} {a : Operand} (hs : Seated s c) :
    let t := (s.modEach (c.parts h) (fun t u => u.setTpc (c.src (c.source h t) .i64 a))).advance
    StepsOnly s c h { t with threads := s.threads } ∧
      (∀ team tid u, s.thread? team tid = some u → ∃ u', t.thread? team tid = some u' ∧ u.sameBut { u' with tpc := u.tpc, tpcKind := u.tpcKind } ∧
        u'.v = u.v ∧ u'.p = u.p ∧ (c.takesPart h team tid ∨ (u'.tpc = u.tpc ∧ u'.tpcKind = u.tpcKind))) ∧
      ∀ p ∈ c.parts h, ∀ u, s.thread? p.team p.tid = some u → ∃ u', t.thread? p.team p.tid = some u' ∧
        u'.tpc = ((c.val64 (c.source h p) a).setWidth 57 &&& 0x1FFFFFFFFFFFFF8#57) ∧
        u'.tpcKind = (if u.inHandler = true then .resumeHeader else u.tpcKind) := by
  intro t
  set f : Thread → Thread → Thread := fun t u => u.setTpc (c.src (c.source h t) .i64 a) with hf
  have hk : ∀ (s : State) t a b, (s.modThread t.team t.tid (f t)).thread? a b =
      (s.thread? a b).map (fun u => if a = t.team ∧ b = t.tid then f t u else u) := fun s t a b => thread?_modThread s _ _ _ (keeps_setTpc _) a b
  have honly := modEach_only s (c.parts h) f
  have hgrp : ((s.modEach (c.parts h) f).core? (s.modEach (c.parts h) f).cur.core).bind
      (fun k => (k.port (s.modEach (c.parts h) f).cur.port).group) = some c.grp := by
    rw [honly]
    exact (ctx?_group hs.ctx).1
  have hmoved := (advance_spec _ c.grp hgrp).1
  rw [show (s.modEach (c.parts h) f).cur = s.cur by rw [honly], show (s.modEach (c.parts h) f).clk = s.clk by rw [honly]] at hmoved
  have hpart : ∀ p ∈ c.parts h, ∀ u, s.thread? p.team p.tid = some u →
      t.thread? p.team p.tid = some ((f p u).movedOn c.grp s.cur.port s.clk) := fun p hp u hu => by
    rw [hmoved, State.modEach, thread?_foldl_own hk s (c.parts h) (hs.parts_nodup h) hp, hu, Option.map_some, Option.map_some,
      if_pos (ths_key hs.ctx (parts_ths hp))]
  refine ⟨?_, fun team tid u hu => ?_, fun p hp u hu => ⟨_, hpart p hp u hu, ?_⟩⟩
  · have hstep := advance_stepsOnly hs h
    have ht : { t with threads := s.threads } = { s.advance with threads := s.threads } := by
      rw [show t = (s.modEach (c.parts h) f).advance from rfl, honly, advance_withThreads (ctx?_group hs.ctx).1,
        (advance_spec s c.grp (ctx?_group hs.ctx).1).2.1]
    rw [ht]
    exact stepsOnly_sameThreads hs hstep
  · by_cases hin : c.takesPart h team tid
    · obtain ⟨p, hp, rfl, rfl⟩ := hin
      refine ⟨_, hpart p hp u hu, ?_⟩
      rw [Thread.movedOn_only]
      exact ⟨rfl, rfl, rfl, .inl ⟨p, hp, rfl, rfl⟩⟩
    · refine ⟨_, by rw [hmoved, State.modEach, thread?_foldl_other hk s (c.parts h) fun p hp hh => hin ⟨p, hp, hh⟩, hu, Option.map_some], ?_⟩
      split
      · rw [Thread.movedOn_only]
        exact ⟨rfl, rfl, rfl, .inr ⟨rfl, rfl⟩⟩
      · exact ⟨rfl, rfl, rfl, .inr ⟨rfl, rfl⟩⟩
  · rw [Thread.movedOn_only, ← roundedAddr_57, val64_toNat]
    exact ⟨rfl, rfl⟩

/-- Settles O43: what `State.csrSet` changes register by register, and TPC's write of each participant. -/
theorem statusRegisterWrites : Obligations.StatusRegisterWrites := by
  unfold Obligations.StatusRegisterWrites
  refine ⟨fun s c h a n r p hs _ hr hf hp hpriv _ htpc => ?_, fun s c h a n hs _ hr hf => ⟨_, exec_csrwr_tpc hs hr hf, csrwr_tpc_writes hs⟩⟩
  rw [← csrType_words] at hf
  have hone := csrSet_onlyCsrs s c.grp.team c.launch.asid c.launch.key r (c.src p (csrType r) a)
  obtain ⟨h32, h64⟩ := src_csrType c p a r
  refine ⟨_, exec_csrwr hs hr hf hp hpriv htpc, advance_onlyCsrs_stepsOnly hs h hone, ?_⟩
  rw [advance_onlyCsrs hone]
  obtain ⟨h1, h2, h3, h4⟩ := csrSet_device s c.grp.team c.launch.asid c.launch.key r h32
  exact ⟨h1, h2, h3, h4, csrSet_power s _ _ _ r h32, csrSet_cadence s _ _ _ r h64, csrSet_launch? s _ _ _ r h32,
    csrSet_team? s _ _ _ r h32, csrSet_asidOf s _ _ _ r h32 h64⟩

end Sys2Proof.Machine
end

section
/-! Members that leave their port one set after another (R27, R74, R334): what the port still holds (`State.PortHolds`), and who
falls through or moves on in the end. -/

namespace Sys2Proof.Machine

/-- The port of the context holds its group with the members `stay`, and is free where there are none. -/
structure State.PortHolds (s : State) (c : Ctx) (stay : Nat → Prop) : Prop where
  group : ∀ g, s.groupAt c.core c.port = some g → g = { c.grp with members := g.members } ∧ ∀ i ∈ g.members, stay i
  member : ∀ i, stay i → ∃ g, s.groupAt c.core c.port = some g ∧ i ∈ g.members

theorem Seated.portHolds {s : State} {c : Ctx} (hs : Seated s c) : s.PortHolds c (· ∈ c.grp.members) :=
  ⟨fun g hg => by obtain rfl := Option.some.inj (hg.symm.trans hs.groupAt); exact ⟨rfl, fun _ h => h⟩, fun _ h => ⟨c.grp, hs.groupAt, h⟩⟩

theorem groupAt_unseat (s : State) (team : Nat) (tids : List Nat) (k p : Nat) :
    (s.unseat team tids).groupAt k p = (s.groupAt k p).bind (fun g => g.without team tids) := by
  have hport : ∀ q : Port, (q.without team tids).group = q.group.bind (fun g => g.without team tids) := fun q => by
    unfold Port.without
    cases hq : q.group with
    | none => exact hq
    | some g =>
      dsimp only [Option.bind_some]
      split
      next hn => exact hn.symm
      next g' hg' => exact hg'.symm
  unfold State.groupAt
  rw [core?_unseat]
  cases s.core? k with
  | none => rfl
  | some c =>
    simp only [Option.map_some, Option.bind_some, Core.port]
    split <;> exact hport _

theorem Group.without_own {g : Group} {team : Nat} (ht : g.team = team) (tids : List Nat) {g' : Group} (h : g.without team tids = some g') :
    g' = { g with members := g'.members } ∧ ∀ i, i ∈ g'.members ↔ i ∈ g.members ∧ i ∉ tids := by
  subst ht
  unfold Group.without at h
  rw [if_pos (beq_self_eq_true _)] at h
  dsimp only at h
  split at h
  · cases h
  · cases h
    exact ⟨rfl, fun i => by simp⟩

theorem Group.without_keeps {g : Group} {team i : Nat} (ht : g.team = team) {tids : List Nat} (hi : i ∈ g.members) (hn : i ∉ tids) :
    ∃ g', g.without team tids = some g' ∧ i ∈ g'.members := by
  subst ht
  have hm : i ∈ g.members.filter (fun t => !(tids.contains t)) := by simp [hi, hn]
  unfold Group.without
  rw [if_pos (beq_self_eq_true _)]
  dsimp only
  rw [if_neg (by rw [List.isEmpty_iff]; exact List.ne_nil_of_mem hm)]
  exact ⟨_, rfl, hm⟩

namespace State.PortHolds
variable {s t : State} {c : Ctx} {stay stay' : Nat → Prop}

theorem congr (h : s.PortHolds c stay) (hp : t.groupAt c.core c.port = s.groupAt c.core c.port) : t.PortHolds c stay :=
  ⟨fun g hg => h.group g (hp ▸ hg), fun i hi => by rw [hp]; exact h.member i hi⟩

theorem imp (h : s.PortHolds c stay) (he : ∀ i, stay i ↔ stay' i) : s.PortHolds c stay' := by
  rwa [show stay' = stay from funext fun i => propext (he i).symm]

theorem unseat (h : s.PortHolds c stay) (tids : List Nat) : (s.unseat c.grp.team tids).PortHolds c (fun i => stay i ∧ i ∉ tids) := by
  refine ⟨fun g hg => ?_, fun i hi => ?_⟩
  · rw [groupAt_unseat] at hg
    obtain ⟨g₀, hg₀, hw⟩ := Option.bind_eq_some_iff.mp hg
    obtain ⟨heq, hstay⟩ := h.group g₀ hg₀
    obtain ⟨heq', hmem⟩ := Group.without_own (by rw [heq]) tids hw
    exact ⟨by rw [heq', heq], fun i hi => ⟨hstay i ((hmem i).mp hi).1, ((hmem i).mp hi).2⟩⟩
  · obtain ⟨g₀, hg₀, hi₀⟩ := h.member i hi.1
    obtain ⟨g', hg', hi'⟩ := Group.without_keeps (team := c.grp.team) (by rw [(h.group g₀ hg₀).1]) hi₀ hi.2
    exact ⟨g', by rw [groupAt_unseat, hg₀]; exact hg', hi'⟩

/-- The members that are left fall through (R74). -/
theorem thread?_leaveRest (h : s.PortHolds c stay) (team tid : Nat) [Decidable (stay tid)] : (s.leaveRest c).thread? team tid =
    (s.thread? team tid).map (fun u => if team = c.grp.team ∧ stay tid then u.fallThrough s.clk else u) := by
  cases hg : s.groupAt c.core c.port with
  | none =>
    have hno : ¬stay tid := fun hi => by
      obtain ⟨g, hg', -⟩ := h.member tid hi
      rw [hg] at hg'
      cases hg'
    rw [leaveRest_none hg]
    simp [hno]
  | some g =>
    obtain ⟨heq, hin⟩ := h.group g hg
    have hmem : tid ∈ g.members ↔ stay tid := ⟨hin tid, fun hi => by
      obtain ⟨g', hg', hm⟩ := h.member tid hi
      obtain rfl := Option.some.inj (hg.symm.trans hg')
      exact hm⟩
    have hteam : g.team = c.grp.team := by rw [heq]
    rw [Sys2Proof.Machine.thread?_leaveRest hg, hteam]
    simp only [hmem]

/-- The members that are left move on (R27, R74). -/
theorem thread?_advance (h : s.PortHolds c stay) (hcore : c.core = s.cur.core) (hport : c.port = s.cur.port) (team tid : Nat)
    [Decidable (stay tid)] : s.advance.thread? team tid =
      (s.thread? team tid).map (fun u => if team = c.grp.team ∧ stay tid then u.movedOn c.grp s.cur.port s.clk else u) := by
  obtain ⟨hgroup, hmember⟩ := h
  rw [hcore, hport] at hgroup hmember
  cases hg : s.groupAt s.cur.core s.cur.port with
  | none =>
    have hno : ¬stay tid := fun hi => by
      obtain ⟨g, hg', -⟩ := hmember tid hi
      rw [hg] at hg'
      cases hg'
    rw [advance_none hg]
    simp [hno]
  | some g =>
    obtain ⟨heq, hin⟩ := hgroup g hg
    have hmem : tid ∈ g.members ↔ stay tid := ⟨hin tid, fun hi => by
      obtain ⟨g', hg', hm⟩ := hmember tid hi
      obtain rfl := Option.some.inj (hg.symm.trans hg')
      exact hm⟩
    have hteam : g.team = c.grp.team := by rw [heq]
    have hmove : ∀ u : Thread, u.movedOn g s.cur.port s.clk = u.movedOn c.grp s.cur.port s.clk := fun u => by rw [heq]; rfl
    rw [(advance_spec s g hg).1, hteam]
    simp only [hmem, hmove]

end State.PortHolds

/-! ### What a trap leaves (R334) -/

theorem thread?_commit_other (s : State) {team tid a b : Nat} (p : Pending) (h : ¬(a = team ∧ b = tid)) :
    (s.commit team tid p).thread? a b = s.thread? a b := by
  have hmod : ∀ (x : State) {f : Thread → Thread}, KeepsThread f → (x.modThread team tid f).thread? a b = x.thread? a b := fun x f hf => by
    rw [thread?_modThread x _ _ _ hf]
    simp [h]
  unfold State.commit
  split
  · rfl
  next t ht =>
    obtain ⟨rfl, rfl⟩ := thread?_key ht
    dsimp only
    refine (hmod _ (f := fun t => { t with pend := t.pend.filter (fun q => q.id != p.id) }) fun _ => ⟨rfl, rfl⟩).trans ?_
    unfold State.writeDest
    split
    · exact hmod s fun x => by rw [(Thread.setRegs_only x _ _).1]; exact ⟨rfl, rfl⟩
    · rfl

/-- A pending result is written to one row at most. -/
theorem hg?_commit (s : State) (team tid : Nat) (p : Pending) {a b d : Nat} {g : HomeGroup} (hg : s.hg? a b d = some g) :
    ∃ g', (s.commit team tid p).hg? a b d = some g' ∧ g' = { g with s := g'.s } := by
  unfold State.commit
  split
  · exact ⟨g, hg, rfl⟩
  next t _ =>
    unfold State.writeDest
    split
    · exact ⟨g, hg, rfl⟩
    next n _ =>
      have hkeep : KeepsHg (fun g => g.setS n ((p.value.getD []).take p.words)) := fun x => by
        dsimp only
        rw [(HomeGroup.setS_only x _ _).1]
        exact ⟨rfl, rfl, rfl⟩
      refine ⟨_, (hg?_modHg s _ _ _ _ hkeep a b d).trans (by rw [hg]; rfl), ?_⟩
      dsimp only
      split
      · rw [(HomeGroup.setS_only g _ _).1]
      · rfl

theorem thread?_commitAll_other (s : State) {team a b : Nat} (ts : List Thread) (h : ∀ x ∈ ts, ¬(a = team ∧ b = x.tid)) :
    (commitAll s team ts).thread? a b = s.thread? a b := by
  have hone : ∀ (x : Thread) (ps : List Pending) (s : State), ¬(a = team ∧ b = x.tid) →
      (ps.foldl (fun s p => s.commit team x.tid p) s).thread? a b = s.thread? a b := fun x ps => by
    induction ps with
    | nil => exact fun _ _ => rfl
    | cons p r ih => exact fun s hn => (ih _ hn).trans (thread?_commit_other s p hn)
  unfold commitAll
  induction ts generalizing s with
  | nil => rfl
  | cons x r ih => exact (ih _ fun y hy => h y (List.mem_cons_of_mem _ hy)).trans (hone x x.pend s (h x List.mem_cons_self))

theorem hg?_commitAll (s : State) (team : Nat) (ts : List Thread) {a b d : Nat} {g : HomeGroup} (hg : s.hg? a b d = some g) :
    ∃ g', (commitAll s team ts).hg? a b d = some g' ∧ g' = { g with s := g'.s } := by
  have hone : ∀ (tid : Nat) (ps : List Pending) (s : State) (g : HomeGroup), s.hg? a b d = some g →
      ∃ g', (ps.foldl (fun s p => s.commit team tid p) s).hg? a b d = some g' ∧ g' = { g with s := g'.s } := fun tid ps => by
    induction ps with
    | nil => exact fun s g hg => ⟨g, hg, rfl⟩
    | cons p r ih =>
      intro s g hg
      obtain ⟨g₁, h₁, e₁⟩ := hg?_commit s team tid p hg
      obtain ⟨g₂, h₂, e₂⟩ := ih _ g₁ h₁
      exact ⟨g₂, h₂, by rw [e₂, e₁]⟩
  unfold commitAll
  induction ts generalizing s g with
  | nil => exact ⟨g, hg, rfl⟩
  | cons x r ih =>
    obtain ⟨g₁, h₁, e₁⟩ := hone x.tid x.pend s g hg
    obtain ⟨g₂, h₂, e₂⟩ := ih _ h₁
    exact ⟨g₂, h₂, by rw [e₂, e₁]⟩

/-- What entering a handler leaves: main memory, DSM and the ports, the threads outside the set, and of the home groups all but
their rows. -/
structure State.TrapKeeps (s t : State) (team : Nat) (tids : List Nat) : Prop where
  state : t = { s with threads := t.threads, groups := t.groups, cores := t.cores, cadence := t.cadence, sys := t.sys, mailbox := t.mailbox }
  cores : t.cores = s.cores ∨ t.cores = (s.unseat team tids).cores
  unseated : (∃ x ∈ s.threads, x.team = team ∧ x.tid ∈ tids) → t.cores = (s.unseat team tids).cores
  others : ∀ a b, ¬(a = team ∧ b ∈ tids) → t.thread? a b = s.thread? a b
  rows : ∀ a b d g, s.hg? a b d = some g → ∃ g', t.hg? a b d = some g' ∧ g' = { g with s := g'.s }

/-- Where a set waits to enter its handler and there is one, only its threads and rows change (R334). -/
theorem tryEnter_keeps {s : State} {team : Nat} {i : TrapInfo} (htv : s.tvecOf team ≠ 0#64) :
    s.tryEnter team i = { s with threads := (s.tryEnter team i).threads, groups := (s.tryEnter team i).groups } ∧
    (∀ a b, (∀ x ∈ s.threads, x.team = team → x.entering = some i → ¬(a = team ∧ b = x.tid)) →
      (s.tryEnter team i).thread? a b = s.thread? a b) ∧
    ∀ a b d g, s.hg? a b d = some g → ∃ g', (s.tryEnter team i).hg? a b d = some g' ∧ g' = { g with s := g'.s } := by
  unfold State.tryEnter
  dsimp only
  have hin : ∀ x ∈ s.threads.filter (fun t => t.team == team && t.entering == some i), x ∈ s.threads ∧ x.team = team ∧ x.entering = some i :=
    fun x hx => by simpa [List.mem_filter, and_assoc] using hx
  generalize s.threads.filter (fun t => t.team == team && t.entering == some i) = ts at hin
  split
  · exact ⟨rfl, fun _ _ _ => rfl, fun a b d g hg => ⟨g, hg, rfl⟩⟩
  · rw [if_neg (by simpa using htv)]
    refine ⟨?_, fun a b hno => ?_, fun a b d g hg => hg?_commitAll s team ts hg⟩
    · show State.mapThreads (commitAll s team ts) _ _ = _
      rw [State.mapThreads, commitAll_only s team ts]
      rfl
    · show State.thread? (State.mapThreads (commitAll s team ts) _ _) a b = _
      rw [thread?_mapThreads]
      swap
      · exact fun _ => ⟨rfl, rfl⟩
      rw [thread?_commitAll_other s ts fun x hx hab => hno x (hin x hx).1 (hin x hx).2.1 (hin x hx).2.2 hab]
      cases hu : s.thread? a b with
      | none => rfl
      | some u =>
        obtain ⟨hteam, htid⟩ := thread?_key hu
        rw [Option.map_some, if_neg fun hq => ?_]
        simp only [Bool.and_eq_true, beq_iff_eq] at hq
        exact hno u (List.mem_of_find?_eq_some hu) hq.1 hq.2 ⟨hteam.symm.trans hq.1, htid.symm⟩

/-- A set that can enter its handler leaves everything else as it is (R334 to R337). -/
theorem takeTrap_keeps {s : State} {team : Nat} {tids : List Nat} (h : s.canTrap team tids) (cause : Cause) (kind : TpcKind)
    (tpc : BitVec 57) (taddr : DWord) : s.TrapKeeps (s.takeTrap team tids cause kind tpc taddr) team tids := by
  obtain ⟨htv, hent, hset⟩ := h
  set ts := s.threads.filter (fun t => t.team == team && tids.contains t.tid && !t.hasExited) with hts
  have hout : ∀ x ∈ ts, x ∈ s.threads ∧ x.team = team ∧ x.tid ∈ tids := fun x hx => by
    simp only [hts, List.mem_filter, Bool.and_eq_true, beq_iff_eq, List.contains_iff_mem] at hx
    exact ⟨hx.1, hx.2.1.1, hx.2.1.2⟩
  cases hne : ts.isEmpty with
  | true =>
    have hstay : s.takeTrap team tids cause kind tpc taddr = s := by
      unfold State.takeTrap
      rw [← hts, if_pos hne]
    rw [hstay]
    refine ⟨rfl, .inl rfl, fun ⟨x, hx, hteam, htid⟩ => ?_, fun _ _ _ => rfl, fun a b d g hg => ⟨g, hg, rfl⟩⟩
    have hmem : x ∈ ts := by simp [hts, hx, hteam, htid, (hset x hx hteam htid).1]
    rw [List.isEmpty_iff.mp hne] at hmem
    cases hmem
  | false =>
    have hdue : ts.any (·.wdogDue) = false := List.any_eq_false.mpr fun x hx => by
      obtain ⟨hx, hteam, htid⟩ := hout x hx
      simp [(hset x hx hteam htid).2.2.1]
    have hin : ts.any (fun t => t.inHandler || t.entering.isSome) = false := List.any_eq_false.mpr fun x hx => by
      obtain ⟨hx, hteam, htid⟩ := hout x hx
      simp [(hset x hx hteam htid).2.1, hent x hx hteam]
    rw [takeTrap_tryEnter hts.symm hne hdue hin rfl rfl]
    set i : TrapInfo := { cause := cause, tpc := tpc, kind := kind, taddr := taddr, lanes := maskOf (ts.map (·.lane)) }
    set y := ((s.cadenceTrap team cause.code).unseat team tids).modThreads team (ts.map (·.tid)) (fun t => { t with
      trapClause := t.clause, status := .parked .entering, noWatch := false, wdogDue := t.wdogDue && cause == .watchpoint, entering := some i }) with hy
    have hyeq : y = { s with threads := y.threads, cores := (s.unseat team tids).cores, cadence := y.cadence, sys := y.sys, mailbox := y.mailbox } := by
      rw [hy, cadenceTrap_only s team cause.code]
      rfl
    have hyth : ∀ a b, y.thread? a b = (s.thread? a b).map (fun u => if a = team ∧ b ∈ ts.map (·.tid) then { u with
        trapClause := u.clause, status := .parked .entering, noWatch := false, wdogDue := u.wdogDue && cause == .watchpoint, entering := some i } else u) :=
      fun a b => by
        rw [hy, thread?_modThreads]
        · unfold State.unseat
          rw [cadenceTrap_only s team cause.code]
          rfl
        · exact fun _ => ⟨rfl, rfl⟩
    have hyhg : ∀ a b d, y.hg? a b d = s.hg? a b d := fun a b d => by rw [hyeq]; rfl
    have hytv : y.tvecOf team ≠ 0#64 := by rw [hyeq]; exact htv
    have hywho : ∀ x ∈ y.threads, x.team = team → x.entering = some i → x.tid ∈ tids := fun x hx hteam he => by
      have hyl : y.threads = updWhere (fun t => t.team == team && (ts.map (·.tid)).contains t.tid) (fun t => { t with
          trapClause := t.clause, status := .parked .entering, noWatch := false, wdogDue := t.wdogDue && cause == .watchpoint, entering := some i })
          s.threads := by
        rw [hy]
        unfold State.modThreads State.unseat
        rw [cadenceTrap_only s team cause.code]
      rw [hyl] at hx
      obtain ⟨u, hu, rfl⟩ := List.mem_map.mp hx
      split at he
      next hq =>
        rw [if_pos hq]
        simp only [Bool.and_eq_true, List.contains_iff_mem, List.mem_map] at hq
        obtain ⟨-, z, hz, hzt⟩ := hq
        exact hzt ▸ (hout z hz).2.2
      next hq =>
        rw [if_neg hq] at hteam
        rw [hent u hu hteam] at he
        cases he
    obtain ⟨hstate, hother, hrows⟩ := tryEnter_keeps (i := i) hytv
    refine ⟨?_, .inr ?_, fun _ => ?_, fun a b hno => ?_, fun a b d g hg => hrows a b d g ((hyhg a b d).trans hg)⟩
    · rw [hstate, hyeq]
    · rw [hstate, hyeq]
    · rw [hstate, hyeq]
    · rw [hother a b fun x hx hteam he hab => hno ⟨hab.1, hab.2 ▸ hywho x hx hteam he⟩, hyth]
      cases s.thread? a b with
      | none => rfl
      | some u =>
        rw [Option.map_some, if_neg fun hab => hno ⟨hab.1, ?_⟩]
        obtain ⟨z, hz, rfl⟩ := List.mem_map.mp hab.2
        exact (hout z hz).2.2

theorem State.TrapKeeps.portHolds {s t : State} {c : Ctx} {tids : List Nat} {stay : Nat → Prop} (k : s.TrapKeeps t c.grp.team tids)
    (h : s.PortHolds c stay) (hx : tids = [] ∨ ∃ x ∈ s.threads, x.team = c.grp.team ∧ x.tid ∈ tids) :
    t.PortHolds c (fun i => stay i ∧ i ∉ tids) := by
  have hport : ∀ u : State, t.cores = u.cores → t.groupAt c.core c.port = u.groupAt c.core c.port := fun u hu => by
    unfold State.groupAt State.core?
    rw [hu]
  rcases hx with rfl | hx
  · rcases k.cores with hc | hc
    · exact (h.congr (hport s hc)).imp (by simp)
    · exact (h.unseat []).congr (hport _ hc)
  · exact (h.unseat tids).congr (hport _ (k.unseated hx))

/-! ### Participants and the others -/

/-- A member is one thread of the group. -/
theorem ths_unique {s : State} {c : Ctx} (hs : Seated s c) {p q : Thread} (hp : p ∈ c.ths) (hq : q ∈ c.ths) (h : p.tid = q.tid) : p = q := by
  have hkey : (p.team, p.tid) = (q.team, q.tid) := by rw [(ths_key hs.ctx hp).1, (ths_key hs.ctx hq).1, h]
  exact List.inj_on_of_nodup_map (ths_nodup hs.ctx hs.nodup) hp hq hkey

/-- The participants are the members whose guard is true (R76). -/
theorem mem_partTids {s : State} {c : Ctx} (hs : Seated s c) {h : Head} {p : Thread} (hp : p ∈ c.ths) :
    p.tid ∈ (c.parts h).map (·.tid) ↔ p.guard h = true := by
  refine ⟨fun hm => ?_, fun hg => List.mem_map.mpr ⟨p, List.mem_filter.mpr ⟨hp, hg⟩, rfl⟩⟩
  obtain ⟨q, hq, he⟩ := List.mem_map.mp hm
  rw [← ths_unique hs (parts_ths hq) hp he]
  exact (List.mem_filter.mp hq).2

/-- A listed thread of the group stands in the table of threads. -/
theorem Seated.exists_thread {s : State} {c : Ctx} (hs : Seated s c) {ps : List Thread} (hps : ∀ p ∈ ps, p ∈ c.ths) :
    ps.map (·.tid) = [] ∨ ∃ x ∈ s.threads, x.team = c.grp.team ∧ x.tid ∈ ps.map (·.tid) := by
  cases ps with
  | nil => exact .inl rfl
  | cons p r =>
    obtain ⟨u, hu, -⟩ := hs.reg p (hps p List.mem_cons_self)
    obtain ⟨hteam, htid⟩ := thread?_key hu
    exact .inr ⟨u, List.mem_of_find?_eq_some hu, hteam.trans (ths_key hs.ctx (hps p List.mem_cons_self)).1, by simp [htid]⟩

/-! ### TRAP and BKPT (R156) -/

theorem exec_trapWith {s : State} {c : Ctx} {h : Head} (hs : Seated s c) (cause : Cause) (code : BitVec 24) : trapWith cause h code s =
    .next (s.takeTrap c.grp.team ((c.parts h).map (·.tid)) cause .instruction c.pc (code.setWidth 64)).advance :=
  run_spec hs.ctx (ops := []) (fun _ ho => nomatch ho) _

/-- The participants enter the handler and the other members move on. -/
theorem trapWith_enters {s : State} {c : Ctx} {h : Head} (hs : Seated s c) (cause : Cause) (code : BitVec 24)
    (hcan : s.canTrap c.grp.team ((c.parts h).map (·.tid))) :
    ∃ t, trapWith cause h code s = .next t ∧ t.main = s.main ∧ t.dsm = s.dsm ∧
      TrapTaken s t c.grp.team ((c.parts h).map (·.tid)) cause.code .instruction c.pc (code.setWidth 64) ∧
      ∀ p ∈ c.ths, p.guard h = false → ∃ u u', s.thread? p.team p.tid = some u ∧ t.thread? p.team p.tid = some u' ∧ u.sameBut u' ∧
        u'.v = u.v ∧ u'.p = u.p ∧ u.moved u' c.grp := by
  set tids := (c.parts h).map (·.tid)
  set x := s.takeTrap c.grp.team tids cause .instruction c.pc (code.setWidth 64)
  have htaken := takeTrap_taken hcan cause .instruction c.pc (code.setWidth 64)
  have hkeep : s.TrapKeeps x c.grp.team tids := takeTrap_keeps hcan cause .instruction c.pc (code.setWidth 64)
  have hholds := hkeep.portHolds hs.portHolds (hs.exists_thread fun _ => parts_ths)
  obtain ⟨-, hcore, hport, -⟩ := ctx?_group hs.ctx
  have hcur : x.cur = s.cur := by rw [hkeep.state]
  have hmoved := fun a b => hholds.thread?_advance (hcore.trans (by rw [hcur])) (hport.trans (by rw [hcur])) a b
  have hadv : x.advance.main = x.main ∧ x.advance.dsm = x.dsm := by
    cases hg : x.groupAt x.cur.core x.cur.port with
    | none => rw [advance_none hg]; exact ⟨rfl, rfl⟩
    | some g => rw [advance_group hg]; exact ⟨rfl, rfl⟩
  refine ⟨x.advance, exec_trapWith hs cause code, hadv.1.trans (by rw [hkeep.state]), hadv.2.trans (by rw [hkeep.state]),
    fun tid htid u hu => ?_, fun p hp hg => ?_⟩
  · obtain ⟨u', hu', hrest⟩ := htaken tid htid u hu
    refine ⟨u', ?_, hrest⟩
    rw [hmoved, hu', Option.map_some, if_neg fun hh => hh.2.2 htid]
  · obtain ⟨u, hu, -⟩ := hs.reg p hp
    have hno : p.tid ∉ tids := fun hm => by
      rw [(mem_partTids hs hp).mp hm] at hg
      cases hg
    obtain ⟨hteam, hmem⟩ := ths_key hs.ctx hp
    refine ⟨u, _, hu, by rw [hmoved, hkeep.others _ _ fun hh => hno hh.2, hu, Option.map_some, if_pos ⟨hteam, hmem, hno⟩], ?_, ?_, ?_,
      u.movedOn_moved c.grp _ _⟩
    · unfold Thread.sameBut
      rw [Thread.movedOn_only]
    · rw [Thread.movedOn_only]
    · rw [Thread.movedOn_only]

/-- Settles O39: TRAP and BKPT are one trap with two causes. -/
theorem softwareTrapsEnterHandler : Obligations.SoftwareTrapsEnterHandler := by
  unfold Obligations.SoftwareTrapsEnterHandler
  exact ⟨fun s c h code hs _ hcan => trapWith_enters hs .trap code hcan, fun s c h code hs _ hcan => trapWith_enters hs .breakpoint code hcan⟩

end Sys2Proof.Machine
end

section
/-! Traps of some participants while the others take their effect (R138, R145, R167): steps that leave a trapping set as it is
(`State.Spares`), after which it can trap as before. -/

namespace Sys2Proof.Machine

/-- A thread that a step leaves ready to trap as before, where it is one of the trapping set. -/
structure Thread.Spared (team : Nat) (tids : List Nat) (u u' : Thread) : Prop where
  key : u'.team = u.team ∧ u'.tid = u.tid
  lane : u'.lane = u.lane
  entering : u'.entering = u.entering
  same : u.team = team → u.tid ∈ tids → u'.status = u.status ∧ u'.inHandler = u.inHandler ∧ u'.wdogDue = u.wdogDue ∧ u'.clause = u.clause ∧
    u'.p = u.p ∧ (u.yield0 = true → u'.yield0 = true) ∧ (u.yield1 = true → u'.yield1 = true) ∧
    ((∀ q ∈ u.pend, q.value.isSome = true) → ∀ q ∈ u'.pend, q.value.isSome = true)

/-- From `s` to `t` every thread of a set is left as it was for a trap. -/
structure State.Spares (team : Nat) (tids : List Nat) (s t : State) : Prop where
  tvec : t.tvecOf team = s.tvecOf team
  threads : ∃ f : Thread → Thread, t.threads = s.threads.map f ∧ ∀ u, Thread.Spared team tids u (f u)

namespace Thread.Spared
variable {team : Nat} {tids : List Nat}

theorem refl (u : Thread) : Spared team tids u u :=
  ⟨⟨rfl, rfl⟩, rfl, rfl, fun _ _ => ⟨rfl, rfl, rfl, rfl, rfl, id, id, id⟩⟩

theorem trans {u v w : Thread} (h : Spared team tids u v) (k : Spared team tids v w) : Spared team tids u w := by
  refine ⟨⟨k.key.1.trans h.key.1, k.key.2.trans h.key.2⟩, k.lane.trans h.lane, k.entering.trans h.entering, fun ht hi => ?_⟩
  obtain ⟨a, b, c, d, e, y0, y1, p⟩ := h.same ht hi
  obtain ⟨a', b', c', d', e', y0', y1', p'⟩ := k.same (h.key.1.trans ht) (h.key.2 ▸ hi)
  exact ⟨a'.trans a, b'.trans b, c'.trans c, d'.trans d, e'.trans e, y0' ∘ y0, y1' ∘ y1, p' ∘ p⟩

theorem ticked (u : Thread) (c : Ctx) : Spared team tids u (u.ticked c) := by
  have hpend : (u.ticked c).pend = u.pend.map (fun p => { p with left := p.left - 1 }) := by
    unfold Thread.ticked
    dsimp only
    split
    · split <;> rfl
    · rfl
  have hyield : (u.yield0 = true → (u.ticked c).yield0 = true) ∧ (u.yield1 = true → (u.ticked c).yield1 = true) := by
    unfold Thread.ticked
    dsimp only
    split
    · split
      · exact ⟨fun _ => rfl, id⟩
      · exact ⟨id, fun _ => rfl⟩
    · exact ⟨id, id⟩
  have honly := u.ticked_only c
  refine ⟨?_, ?_, ?_, fun _ _ => ⟨?_, ?_, ?_, ?_, ?_, hyield.1, hyield.2, fun hq q hm => ?_⟩⟩
  case refine_9 =>
    rw [hpend] at hm
    obtain ⟨q', hq', rfl⟩ := List.mem_map.mp hm
    exact hq q' hq'
  case refine_1 => rw [honly]; exact ⟨rfl, rfl⟩
  all_goals rw [honly]

end Thread.Spared

namespace State.Spares
variable {team : Nat} {tids : List Nat} {s t : State}

theorem of_same (hv : t.tvecOf team = s.tvecOf team) (hth : t.threads = s.threads) : s.Spares team tids t :=
  ⟨hv, id, by simp [hth], fun u => .refl u⟩

theorem refl (s : State) : s.Spares team tids s := of_same rfl rfl

theorem trans {u : State} (h : s.Spares team tids t) (k : t.Spares team tids u) : s.Spares team tids u := by
  obtain ⟨f, ef, hf⟩ := h.threads
  obtain ⟨g, eg, hg⟩ := k.threads
  exact ⟨k.tvec.trans h.tvec, g ∘ f, by rw [eg, ef, List.map_map], fun u => (hf u).trans (hg (f u))⟩

theorem foldl {α : Type} {f : State → α → State} {l : List α} (hf : ∀ (s : State), ∀ a ∈ l, s.Spares team tids (f s a)) (s : State) :
    s.Spares team tids (l.foldl f s) := by
  induction l generalizing s with
  | nil => exact .refl s
  | cons a r ih => exact (hf s a List.mem_cons_self).trans (ih (fun s b hb => hf s b (List.mem_cons_of_mem _ hb)) _)

theorem of_threads (s : State) (q : Thread → Bool) {f : Thread → Thread} (hf : ∀ u, q u = true → Thread.Spared team tids u (f u)) :
    s.Spares team tids { s with threads := updWhere q f s.threads } := by
  refine ⟨rfl, fun u => if q u then f u else u, rfl, fun u => ?_⟩
  dsimp only
  split
  next hq => exact hf u hq
  next => exact .refl u

theorem tickLast (s : State) (c : Ctx) : s.Spares team tids (s.tickLast c) := of_threads s _ fun u _ => .ticked u c

/-- A thread outside the set may change as it likes, but for what its name, its lane and a trap decided on say. -/
theorem modThread (s : State) (p : Thread) {f : Thread → Thread} (hp : ¬(p.team = team ∧ p.tid ∈ tids))
    (hf : ∀ u, (f u).team = u.team ∧ (f u).tid = u.tid ∧ (f u).lane = u.lane ∧ (f u).entering = u.entering) :
    s.Spares team tids (s.modThread p.team p.tid f) := by
  refine of_threads s _ fun u hq => ?_
  simp only [Bool.and_eq_true, beq_iff_eq] at hq
  obtain ⟨h1, h2, h3, h4⟩ := hf u
  exact ⟨⟨h1, h2⟩, h3, h4, fun ht hi => absurd ⟨hq.1.symm.trans ht, hq.2 ▸ hi⟩ hp⟩

theorem canTrap (h : s.Spares team tids t) (hs : s.canTrap team tids) : t.canTrap team tids := by
  obtain ⟨htv, hent, hset⟩ := hs
  obtain ⟨f, ef, hf⟩ := h.threads
  refine ⟨by rw [h.tvec]; exact htv, fun x hx hteam => ?_, fun x hx hteam htid => ?_⟩
  all_goals
    rw [ef] at hx
    obtain ⟨u, hu, rfl⟩ := List.mem_map.mp hx
  · rw [(hf u).entering]
    exact hent u hu ((hf u).key.1 ▸ hteam)
  · obtain ⟨hst, hin, hdue, -, -, -, -, hpend⟩ := (hf u).same ((hf u).key.1 ▸ hteam) ((hf u).key.2 ▸ htid)
    obtain ⟨a, b, c, d, e⟩ := hset u hu ((hf u).key.1 ▸ hteam) ((hf u).key.2 ▸ htid)
    refine ⟨?_, hin.trans b, hdue.trans c, ?_, hpend e⟩
    · unfold Thread.hasExited at a ⊢
      rw [hst]
      exact a
    · rw [(hf u).lane]
      exact d

/-- What a set has taken from `t` on, it has taken from `s` on. -/
theorem trapTaken {u : State} (h : s.Spares team tids t) {code : Nat} {kind : TpcKind} {tpc : BitVec 57} {taddr : DWord}
    (ht : TrapTaken t u team tids code kind tpc taddr) : TrapTaken s u team tids code kind tpc taddr := by
  obtain ⟨f, ef, hf⟩ := h.threads
  intro tid htid x hx
  obtain ⟨hteam, hkey⟩ := thread?_key hx
  have hx' : t.thread? team tid = some (f x) := by
    unfold State.thread? at hx ⊢
    rw [ef, find?_map_key _ f _ (fun y => by rw [(hf y).key.1, (hf y).key.2]), hx, Option.map_some]
  obtain ⟨-, -, -, hclause, hp, hy0, hy1, -⟩ := (hf x).same hteam (hkey ▸ htid)
  obtain ⟨x', hx'', h1, h2, h3, h4, h5, h6, h7, h8, h9, h10, h11, h12, h13⟩ := ht tid htid (f x) hx'
  refine ⟨x', hx'', h1, h2, h3, h4, h5, h6.trans hclause, h7, h8, h9.trans (by rw [h.tvec]), h10 ∘ hy0, h11 ∘ hy1, h12.trans hp, fun j hj => ?_⟩
  rw [h13 j hj]
  constructor
  · rintro ⟨y, hy, h1, h2, h3⟩
    rw [ef] at hy
    obtain ⟨z, hz, rfl⟩ := List.mem_map.mp hy
    exact ⟨z, hz, (hf z).key.1 ▸ h1, (hf z).key.2 ▸ h2, (hf z).lane ▸ h3⟩
  · rintro ⟨z, hz, h1, h2, h3⟩
    exact ⟨f z, by rw [ef]; exact List.mem_map_of_mem hz, (hf z).key.1.trans h1, by rw [(hf z).key.2]; exact h2, (hf z).lane.trans h3⟩

end State.Spares

/-- Lanes that fault for one cause are one trapping set, with the address of the lowest (R167). -/
theorem laneFaults_one (s : State) (c : Ctx) (cause : Cause) (addr : Thread → DWord) (b : Thread) (bs : List Thread) :
    s.laneFaults c ((b :: bs).map (fun t => (t.tid, cause, addr t))) =
      s.takeTrap c.grp.team ((b :: bs).map (·.tid)) cause .instruction c.pc (addr b) := by
  have hcauses : ∀ l : List Thread, (((b :: l).map (fun t => (t.tid, cause, addr t))).map (fun f => f.2.1)).dedup = [cause] := fun l => by
    have hrep : ((b :: l).map (fun t => (t.tid, cause, addr t))).map (fun f => f.2.1) = List.replicate (l.length + 1) cause := by
      rw [List.map_map, show (fun f : Nat × Cause × DWord => f.2.1) ∘ (fun t : Thread => (t.tid, cause, addr t)) = fun _ => cause from rfl, List.map_const']
      rfl
    rw [hrep, List.replicate_dedup (Nat.succ_ne_zero _)]
  unfold State.laneFaults
  rw [hcauses bs]
  have hall : ((b :: bs).map (fun t => (t.tid, cause, addr t))).filter (fun f => f.2.1 == cause) = (b :: bs).map (fun t => (t.tid, cause, addr t)) :=
    List.filter_eq_self.mpr fun f hf => by
      obtain ⟨t, -, rfl⟩ := List.mem_map.mp hf
      exact beq_self_eq_true _
  simp only [List.foldl_cons, List.foldl_nil, hall]
  rw [List.map_cons]
  dsimp only
  rw [List.map_cons, List.map_map]
  rfl

end Sys2Proof.Machine
end

section
/-! BRA, BRX, CALL and RET (R138, R306): the state once the participants with aligned targets have branched (`State.branched`), and
O34. -/

namespace Sys2Proof.Machine

/-! ### Trace records of branches (R309, R313) -/

/-- Only what the cores hold outside their ports differs. -/
structure State.OnlyCores (s t : State) : Prop where
  state : t = { s with cores := t.cores }
  groupAt : ∀ k p, t.groupAt k p = s.groupAt k p

theorem State.OnlyCores.refl (s : State) : s.OnlyCores s := ⟨rfl, fun _ _ => rfl⟩

theorem State.OnlyCores.trans {s t u : State} (h : s.OnlyCores t) (k : t.OnlyCores u) : s.OnlyCores u :=
  ⟨by rw [k.state, h.state], fun a b => (k.groupAt a b).trans (h.groupAt a b)⟩

theorem State.OnlyCores.foldl {α : Type} {f : State → α → State} (hf : ∀ (s : State) a, s.OnlyCores (f s a)) (l : List α) (s : State) :
    s.OnlyCores (l.foldl f s) := by
  induction l generalizing s with
  | nil => exact .refl s
  | cons a r ih => exact (hf s a).trans (ih _)

theorem State.OnlyCores.modCore (s : State) (n : Nat) {f : Core → Core} (hid : ∀ c, (f c).id = c.id)
    (hport : ∀ c p, ((f c).port p).group = (c.port p).group) : s.OnlyCores (s.modCore n f) := by
  refine ⟨rfl, fun k p => ?_⟩
  unfold State.groupAt
  rw [core?_modCore _ _ _ hid]
  cases s.core? k with
  | none => rfl
  | some c =>
    simp only [Option.map_some, Option.bind_some]
    split
    · exact hport c p
    · rfl

theorem trace_onlyCores (s : State) (core ty : Nat) (body : List Byte) : s.OnlyCores (s.trace core ty body) := by
  have hmod : ∀ g : Core → TraceBuf, s.OnlyCores (s.modCore core (fun c => { c with trace := g c })) := fun g =>
    .modCore s core (fun _ => rfl) fun c p => by unfold Core.port; split <;> rfl
  unfold State.trace
  split
  · exact .refl s
  · split
    · exact hmod _
    · refine .modCore s core (fun c => ?_) fun c p => ?_
      · dsimp only
        split <;> rfl
      · dsimp only
        split <;> (unfold Core.port; split <;> rfl)

theorem traceBranch_onlyCores (s : State) (c : Ctx) (kind : Nat) (ts : List (Thread × BitVec 57)) : s.OnlyCores (s.traceBranch c kind ts) := by
  unfold State.traceBranch
  split
  · exact .refl s
  · exact .foldl (fun s k => trace_onlyCores s _ _ _) _ s

/-! ### Threads that leave one after another -/

/-- Only threads, home groups and cores differ. -/
def State.OnlyThreads (s t : State) : Prop := t = { s with threads := t.threads, groups := t.groups, cores := t.cores }

theorem State.OnlyThreads.refl (s : State) : s.OnlyThreads s := rfl

theorem State.OnlyThreads.trans {s t u : State} (h : s.OnlyThreads t) (k : t.OnlyThreads u) : s.OnlyThreads u := by
  unfold State.OnlyThreads at h k ⊢
  rw [k, h]

theorem State.OnlyThreads.foldl {α : Type} {f : State → α → State} (hf : ∀ (s : State) a, s.OnlyThreads (f s a)) (l : List α) (s : State) :
    s.OnlyThreads (l.foldl f s) := by
  induction l generalizing s with
  | nil => exact .refl s
  | cons a r ih => exact (hf s a).trans (ih _)

theorem State.OnlyCores.onlyThreads {s t : State} (h : s.OnlyCores t) : s.OnlyThreads t := by
  unfold State.OnlyThreads
  rw [h.state]

theorem leaveRest_onlyThreads (s : State) (c : Ctx) : s.OnlyThreads (s.leaveRest c) := by
  cases hg : s.groupAt c.core c.port with
  | none => rw [leaveRest_none hg]; exact .refl s
  | some g => rw [leaveRest_group hg]; rfl

theorem thread?_depart (s : State) {team tid : Nat} {f : Thread → Thread} (hf : KeepsThread f) (a b : Nat) :
    (s.depart team tid f).thread? a b = (s.thread? a b).map (fun u => if a = team ∧ b = tid then f u else u) :=
  thread?_modThread (s.unseat team [tid]) team tid f hf a b

theorem State.PortHolds.depart {s : State} {c : Ctx} {stay : Nat → Prop} (h : s.PortHolds c stay) (tid : Nat) (f : Thread → Thread) :
    (s.depart c.grp.team tid f).PortHolds c (fun i => stay i ∧ i ∉ [tid]) := (h.unseat [tid]).congr rfl

/-- Members that depart one after another leave the others in the port. -/
theorem State.PortHolds.departAll {c : Ctx} (f : State → Thread → Thread → Thread) {ps : List Thread} (hps : ∀ p ∈ ps, p.team = c.grp.team)
    {s : State} {stay : Nat → Prop} (h : s.PortHolds c stay) :
    (ps.foldl (fun s t => s.depart t.team t.tid (f s t)) s).PortHolds c (fun i => stay i ∧ i ∉ ps.map (·.tid)) := by
  induction ps generalizing s stay with
  | nil => exact h.imp (by simp)
  | cons p r ih =>
    have hp := h.depart p.tid (f s p)
    rw [← hps p List.mem_cons_self] at hp
    exact (ih (fun q hq => hps q (List.mem_cons_of_mem _ hq)) hp).imp fun i => by simp [and_assoc]

theorem keeps_readyAt (pc : BitVec 57) (clk : Nat) : KeepsThread (fun u => u.readyAt pc clk) := fun _ => ⟨rfl, rfl⟩

/-! ### The participants that branch -/

/-- The state once the participants `good` have branched to their targets, and the others still stand in their port. -/
def State.branched (s : State) (c : Ctx) (kind : Nat) (link : Operand) (target : Thread → BitVec 57) (good : List Thread) : State :=
  let ret : ClauseCtx := { hdrAddr := c.grp.hdrAddr, hdr := c.grp.hdr }
  let s := writeAll (s.tickLast c) link good (fun _ => { words := unpair (ret.next.setWidth 64), preds := [] })
  let s := good.foldl (fun s t => s.foldPath t (target t) kind) s
  let s := s.traceBranch c kind (good.map (fun t => (t, target t)))
  good.foldl (fun s t => s.depart t.team t.tid (fun x => x.readyAt (target t) s.clk)) s

theorem branch_eq {s : State} {c : Ctx} {h : Head} {ops : List (Operand × Nat)} (hs : Seated s c) (hf : c.fits ops) (kind : Nat) (link : Operand)
    (target : Ctx → Thread → BitVec 57) : branch s h ops kind link target =
      .next (((s.branched c kind link (fun p => target c (c.source h p)) ((c.parts h).filter (fun p => (target c (c.source h p)).toNat % 8 == 0))).laneFaults c
        (((c.parts h).filter (fun p => (target c (c.source h p)).toNat % 8 != 0)).map
          (fun p => (p.tid, .misalign, (target c (c.source h p)).setWidth 64)))).leaveRest c) := by
  unfold branch
  rw [run_spec hs.ctx hf]
  rfl

theorem foldPath_onlyThreads (s : State) (t : Thread) (target : BitVec 57) (kind : Nat) : s.OnlyThreads (s.foldPath t target kind) := rfl

/-- A thread that a branch takes to its target (R138, R306). -/
def Thread.branchTo (u : Thread) (c : Ctx) (kind : Nat) (link : Operand) (target : BitVec 57) (p : Thread) (clk : Nat) : Thread :=
  let ret : ClauseCtx := { hdrAddr := c.grp.hdrAddr, hdr := c.grp.hdr }
  let u := (u.ticked c).take link { words := unpair (ret.next.setWidth 64), preds := [] }
  { u with path := pathHash p.path target kind p.hidx, pc := target, clause := none, status := .ready, since := clk }

section
variable (s : State) (c : Ctx) (kind : Nat) (link : Operand) (target : Thread → BitVec 57) (good : List Thread)

theorem branched_onlyThreads : s.OnlyThreads (s.branched c kind link target good) := by
  unfold State.branched
  have hwrite : ∀ (s : State) e, s.OnlyThreads (writeAll s link good e) := fun s e => by
    unfold State.OnlyThreads
    rw [writeAll_only]
  exact (show s.OnlyThreads (s.tickLast c) from rfl).trans <| (hwrite _ _).trans <|
    (State.OnlyThreads.foldl (fun s t => foldPath_onlyThreads s t _ _) _ _).trans <|
    (traceBranch_onlyCores _ _ _ _).onlyThreads.trans (State.OnlyThreads.foldl (fun s t => show s.OnlyThreads (s.depart _ _ _) from rfl) _ _)

variable {s c good}

theorem branched_portHolds (hs : Seated s c) (hg : ∀ p ∈ good, p ∈ c.ths) :
    (s.branched c kind link target good).PortHolds c (fun i => i ∈ c.grp.members ∧ i ∉ good.map (·.tid)) := by
  unfold State.branched
  refine State.PortHolds.departAll (fun s t x => x.readyAt (target t) s.clk) (fun p hp => (ths_key hs.ctx (hg p hp)).1) ?_
  refine hs.portHolds.congr ((traceBranch_onlyCores _ _ _ _).groupAt _ _ |>.trans ?_)
  have hfold : ∀ (ps : List Thread) (x : State), (ps.foldl (fun s t => s.foldPath t (target t) kind) x).groupAt c.core c.port = x.groupAt c.core c.port :=
    fun ps => by
      induction ps with
      | nil => exact fun _ => rfl
      | cons p r ih => exact fun x => ih _
  rw [hfold]
  unfold State.groupAt State.core?
  rw [writeAll_only]
  rfl

/-- The clock stands while they depart. -/
theorem departAll_clk (target : Thread → BitVec 57) (ps : List Thread) (x : State) :
    ps.foldl (fun s t => s.depart t.team t.tid (fun u => u.readyAt (target t) s.clk)) x =
      ps.foldl (fun s t => s.depart t.team t.tid (fun u => u.readyAt (target t) x.clk)) x := by
  have hgen : ∀ (ps : List Thread) (y : State), y.clk = x.clk → ps.foldl (fun s t => s.depart t.team t.tid (fun u => u.readyAt (target t) s.clk)) y =
      ps.foldl (fun s t => s.depart t.team t.tid (fun u => u.readyAt (target t) x.clk)) y := fun ps => by
    induction ps with
    | nil => exact fun _ _ => rfl
    | cons p r ih =>
      intro y hy
      rw [List.foldl_cons, List.foldl_cons, hy]
      exact ih _ hy
  exact hgen ps x rfl

theorem thread?_foldPath (s : State) (t : Thread) (target : BitVec 57) (kind a b : Nat) : (s.foldPath t target kind).thread? a b =
    (s.thread? a b).map (fun u => if a = t.team ∧ b = t.tid then { u with path := pathHash t.path target kind t.hidx } else u) :=
  thread?_modThread (s.modHg t.team t.role t.hg _) t.team t.tid (fun u => { u with path := pathHash t.path target kind t.hidx })
    (fun _ => ⟨rfl, rfl⟩) a b

theorem thread?_of_onlyCores {s t : State} (h : s.OnlyCores t) (a b : Nat) : t.thread? a b = s.thread? a b := by
  rw [h.state]
  rfl

theorem hg?_of_onlyCores {s t : State} (h : s.OnlyCores t) (a b d : Nat) : t.hg? a b d = s.hg? a b d := by
  rw [h.state]
  rfl

theorem thread?_branched_other {a b : Nat} (h : ∀ p ∈ good, ¬(p.team = a ∧ p.tid = b)) :
    (s.branched c kind link target good).thread? a b =
      (s.thread? a b).map (fun u => if a = c.grp.team ∧ b ∈ c.grp.members then u.ticked c else u) := by
  unfold State.branched
  dsimp only
  rw [departAll_clk, thread?_foldl_other (fun s t a b => thread?_depart s (keeps_readyAt (target t) _) a b) _ _ h,
    thread?_of_onlyCores (traceBranch_onlyCores _ _ _ _), thread?_foldl_other (fun s t a b => thread?_foldPath s t (target t) kind a b) _ _ h,
    thread?_writeAll_none _ _ _ _ _ _ h, thread?_tickLast]

theorem thread?_branched_own (hs : Seated s c) (hn : (good.map (fun p => (p.team, p.tid))).Nodup) {p : Thread} (hp : p ∈ good) (hc : p ∈ c.ths) :
    (s.branched c kind link target good).thread? p.team p.tid =
      (s.thread? p.team p.tid).map (fun u => u.branchTo c kind link (target p) p s.clk) := by
  have hkey := ths_key hs.ctx hc
  unfold State.branched
  dsimp only
  rw [departAll_clk, thread?_foldl_own (fun s t a b => thread?_depart s (keeps_readyAt (target t) _) a b) _ _ hn hp,
    thread?_of_onlyCores (traceBranch_onlyCores _ _ _ _), thread?_foldl_own (fun s t a b => thread?_foldPath s t (target t) kind a b) _ _ hn hp,
    thread?_writeAll _ _ _ _ hn p hp, thread?_tickLast, Option.map_map, Option.map_map, Option.map_map]
  have hclk : (((good.foldl (fun s t => s.foldPath t (target t) kind) (writeAll (s.tickLast c) link good fun _ =>
      { words := unpair ((ClauseCtx.next { hdrAddr := c.grp.hdrAddr, hdr := c.grp.hdr }).setWidth 64), preds := [] })).traceBranch c kind
      (good.map (fun t => (t, target t)))).clk) = s.clk := by
    rw [(traceBranch_onlyCores _ _ _ _).state, show ∀ x : State, (good.foldl (fun s t => s.foldPath t (target t) kind) x).clk = x.clk from fun x => by
      rw [State.OnlyThreads.foldl (fun s t => foldPath_onlyThreads s t (target t) kind) good x], writeAll_only]
    rfl
  rw [hclk]
  refine congrArg (Option.map · _) (funext fun u => ?_)
  simp only [Function.comp, if_pos hkey]
  rfl

/-- The signatures of the participants' home groups alone change (R306). -/
theorem hg?_branched (hl : ∀ n, link ≠ .s n) {a b d : Nat} {g : HomeGroup} (hg : s.hg? a b d = some g) :
    ∃ g', (s.branched c kind link target good).hg? a b d = some g' ∧ g' = { g with psig := g'.psig } ∧
      (g'.psig ≠ g.psig → ∃ p ∈ good, p.team = a ∧ p.role = b ∧ p.hg = d) := by
  have hdepart : ∀ (ps : List Thread) (x : State), (ps.foldl (fun s t => s.depart t.team t.tid (fun u => u.readyAt (target t) s.clk)) x).hg? a b d = x.hg? a b d :=
    fun ps => by
      induction ps with
      | nil => exact fun _ => rfl
      | cons p r ih => exact fun x => ih _
  have hwrite : ∀ (x : State) e, (writeAll x link good e).hg? a b d = x.hg? a b d := fun x e => by
    unfold writeAll
    generalize good = ps
    induction ps generalizing x with
    | nil => rfl
    | cons p r ih =>
      rw [List.foldl_cons, ih, hg?_writeEff]
      cases hx : x.hg? a b d with
      | none => rfl
      | some g =>
        rw [Option.map_some]
        split
        next n => exact absurd rfl (hl n)
        next => rfl
  have hfold : ∀ (ps : List Thread) (x : State) (g : HomeGroup), x.hg? a b d = some g → ∃ g', (ps.foldl (fun s t => s.foldPath t (target t) kind) x).hg? a b d = some g' ∧
      g' = { g with psig := g'.psig } ∧ (g'.psig ≠ g.psig → ∃ p ∈ ps, p.team = a ∧ p.role = b ∧ p.hg = d) := fun ps => by
    induction ps with
    | nil => exact fun x g hg => ⟨g, hg, rfl, fun h => absurd rfl h⟩
    | cons p r ih =>
      intro x g hg
      have hone : (x.foldPath p (target p) kind).hg? a b d = some (if a = p.team ∧ b = p.role ∧ d = p.hg then
          { g with psig := g.psig ^^^ p.path ^^^ pathHash p.path (target p) kind p.hidx } else g) :=
        (hg?_modHg x p.team p.role p.hg (fun g => { g with psig := g.psig ^^^ p.path ^^^ pathHash p.path (target p) kind p.hidx })
          (fun _ => ⟨rfl, rfl, rfl⟩) a b d).trans (by rw [hg]; rfl)
      obtain ⟨g', hg', heq, hsig⟩ := ih _ _ hone
      refine ⟨g', hg', ?_, fun hne => ?_⟩
      · rw [heq]
        split <;> rfl
      · by_cases hk : a = p.team ∧ b = p.role ∧ d = p.hg
        · exact ⟨p, List.mem_cons_self, hk.1.symm, hk.2.1.symm, hk.2.2.symm⟩
        · rw [if_neg hk] at hsig
          obtain ⟨q, hq, hkey⟩ := hsig hne
          exact ⟨q, List.mem_cons_of_mem _ hq, hkey⟩
  unfold State.branched
  dsimp only
  rw [hdepart, hg?_of_onlyCores (traceBranch_onlyCores _ _ _ _)]
  exact hfold good _ g ((hwrite _ _).trans hg)

/-- Those that do not branch can trap as before. -/
theorem branched_spares {team : Nat} {tids : List Nat} (h : ∀ p ∈ good, ¬(p.team = team ∧ p.tid ∈ tids)) :
    s.Spares team tids (s.branched c kind link target good) := by
  have hwrite : ∀ (x : State) ws, x.Spares team tids (writeAll x link good (fun _ => { words := ws, preds := [] })) := fun x ws => by
    refine State.Spares.foldl (fun s p hp => ?_) x
    unfold State.writeEff
    cases link with
    | v n =>
      refine State.Spares.modThread s p (h p hp) fun u => ?_
      rw [(Thread.setRegs_only u _ _).1]
      exact ⟨rfl, rfl, rfl, rfl⟩
    | s n => exact .of_same rfl rfl
    | _ => exact .refl s
  have hfold : ∀ x : State, x.Spares team tids (good.foldl (fun s t => s.foldPath t (target t) kind) x) := fun x =>
    .foldl (fun s p hp => .trans (t := s.modHg p.team p.role p.hg fun g => { g with psig := g.psig ^^^ p.path ^^^ pathHash p.path (target p) kind p.hidx })
      (.of_same rfl rfl)
      (.modThread _ p (h p hp) (f := fun u => { u with path := pathHash p.path (target p) kind p.hidx }) fun _ => ⟨rfl, rfl, rfl, rfl⟩)) x
  have htrace : ∀ (x : State) ts, x.Spares team tids (x.traceBranch c kind ts) := fun x ts => by
    refine .of_same ?_ ?_ <;> rw [(traceBranch_onlyCores _ _ _ _).state]
    rfl
  have hdepart : ∀ x : State, x.Spares team tids (good.foldl (fun s t => s.depart t.team t.tid (fun u => u.readyAt (target t) s.clk)) x) := fun x =>
    .foldl (fun s p hp => .trans (t := s.unseat p.team [p.tid]) (.of_same rfl rfl)
      (.modThread _ p (h p hp) (f := fun u => u.readyAt (target p) s.clk) fun _ => ⟨rfl, rfl, rfl, rfl⟩)) x
  exact ((((State.Spares.tickLast s c).trans (hwrite _ _)).trans (hfold _)).trans (htrace _ _)).trans (hdepart _)

end

/-! ### Targets (R74, R138) -/

theorem wordOffset_aligned {hdr : BitVec 57} (off : BitVec 24) (h : hdr.toNat % 8 = 0) : (wordOffset hdr off).toNat % 8 = 0 := by
  unfold wordOffset
  rw [BitVec.toNat_add, BitVec.toNat_shiftLeft, Nat.shiftLeft_eq]
  omega

theorem setWidth57_aligned {x : DWord} (h : x.toNat % 8 = 0) : (x.setWidth 57).toNat % 8 = 0 := by
  rw [BitVec.toNat_setWidth]
  omega

/-! ### The statements -/

/-- A thread that branches: where it stands, its path hash and its registers. -/
theorem Thread.branchTo_spec (u : Thread) (c : Ctx) (kind : Nat) {link : Operand} (hl : ∀ n, link ≠ .s n) (target : BitVec 57) (p : Thread) (clk : Nat) :
    u.branchTo c kind link target p clk = { u with
      v := (u.branchTo c kind link target p clk).v, path := pathHash p.path target kind p.hidx, pc := target, clause := none, status := .ready, since := clk,
      pend := (u.ticked c).pend, noWatch := (u.ticked c).noWatch, yield0 := (u.ticked c).yield0, yield1 := (u.ticked c).yield1 } ∧
    (∀ n, ¬ Operand.coversV link 2 n → (u.branchTo c kind link target p clk).reg n = u.reg n) ∧
    (∀ n, link = .v n → n.val + 2 ≤ u.v.length → holdsWords (u.branchTo c kind link target p clk).reg n.val
      (unpair ((c.grp.hdrAddr + BitVec.ofNat 57 (8 * (hdrWords c.grp.hdr + 1))).setWidth 64))) := by
  set e : VecEff := { words := unpair ((ClauseCtx.next { hdrAddr := c.grp.hdrAddr, hdr := c.grp.hdr }).setWidth 64), preds := [] } with he
  have htake : (u.ticked c).take link e = { u.ticked c with v := ((u.ticked c).take link e).v } := by
    unfold Thread.take
    cases link with
    | v n => exact (Thread.setRegs_only _ _ _).1
    | _ => rfl
  have hreg : ∀ n, (u.ticked c).reg n = u.reg n := fun n => by rw [u.ticked_only c]; rfl
  have hto : ∀ n, (u.branchTo c kind link target p clk).reg n = ((u.ticked c).take link e).reg n := fun _ => rfl
  refine ⟨?_, fun n hn => ?_, fun n hln hlen i hi => ?_⟩
  · unfold Thread.branchTo
    dsimp only
    rw [← he, htake, u.ticked_only c]
  · rw [hto, Thread.take_reg_other _ _ _ _ hn, hreg]
  · subst hln
    have hlen' : n.val + e.words.length ≤ (u.ticked c).v.length := by
      rw [u.ticked_only c]
      exact hlen
    rw [hto, Thread.take_reg _ n e _ hlen' ⟨by omega, Nat.add_lt_add_left hi _⟩, Nat.add_sub_cancel_left]
    rfl

section
variable {s : State} {c : Ctx} {h : Head} {i : Instr} {ops : List (Operand × Nat)} {kind : Nat} {link : Operand} {target : Ctx → Thread → BitVec 57}
  (hs : Seated s c) (hi : exec i s = branch s h ops kind link target) (hf : c.fits ops)
include hs hi hf

/-- Where every target is aligned a branch completes. -/
theorem branch_taken (hl : ∀ n, link ≠ .s n) (hd : ∀ n, link = .v n → (link, 2) ∈ ops)
    (ht : ∀ p ∈ c.parts h, (target c (c.source h p)).toNat % 8 = 0) :
    BranchTaken i s c h link kind (fun p => target c (c.source h p)) := by
  set tg : Thread → BitVec 57 := fun p => target c (c.source h p) with htg
  have hgood : (c.parts h).filter (fun p => (target c (c.source h p)).toNat % 8 == 0) = c.parts h :=
    List.filter_eq_self.mpr fun p hp => by simp [ht p hp]
  have hbad : (c.parts h).filter (fun p => (target c (c.source h p)).toNat % 8 != 0) = [] :=
    List.filter_eq_nil_iff.mpr fun p hp => by simp [ht p hp]
  set x := s.branched c kind link tg (c.parts h) with hx
  have hex : exec i s = .next (x.leaveRest c) := by
    rw [hi, branch_eq hs hf, hgood, hbad]
    rfl
  have hholds := branched_portHolds kind link tg hs (good := c.parts h) fun p => parts_ths
  have hthread := fun a b => hholds.thread?_leaveRest a b
  have honly := (branched_onlyThreads s c kind link tg (c.parts h)).trans (leaveRest_onlyThreads x c)
  have hmem : ∀ p ∈ c.parts h, p.tid ∈ (c.parts h).map (·.tid) := fun p hp => List.mem_map_of_mem hp
  refine ⟨x.leaveRest c, hex, honly, fun a b d g hg => ?_, fun a b hno => ?_, fun p hp u hu => ?_⟩
  · rw [hg?_leaveRest]
    exact hg?_branched kind link tg hl hg
  · rw [hthread, thread?_branched_other kind link tg fun p hp hh => hno ?_]
    · cases s.thread? a b with
      | none => rfl
      | some u => rw [Option.map_some, Option.map_some, if_neg hno, if_neg fun hh => hno ⟨hh.1, hh.2.1⟩]
    · obtain ⟨rfl, rfl⟩ := hh
      exact ths_key hs.ctx (parts_ths hp)
  · by_cases hg : p.guard h = true
    · have hpart : p ∈ c.parts h := List.mem_filter.mpr ⟨hp, hg⟩
      obtain ⟨hspec, hregs, hlink⟩ := u.branchTo_spec c kind hl (tg p) p s.clk
      refine ⟨u.branchTo c kind link (tg p) p s.clk, ?_, ?_⟩
      · rw [hthread, thread?_branched_own kind link tg hs (hs.parts_nodup h) hpart hp, hu, Option.map_some, Option.map_some,
          if_neg fun hh => hh.2.2 (hmem p hpart)]
      · rw [if_pos hg, hspec]
        refine ⟨rfl, rfl, rfl, rfl, rfl, rfl, rfl, fun n hn => ?_, fun n hn => ?_⟩
        · exact hregs n hn
        · obtain ⟨u', hu', hlen, -⟩ := hs.reg p hp
          obtain rfl := Option.some.inj (hu'.symm.trans hu)
          have hfit := hf _ (hd n hn)
          rw [hn] at hfit
          exact hlink n hn ((of_decide_eq_true hfit).trans hlen)
    · have hno : p.tid ∉ (c.parts h).map (·.tid) := fun hm => hg ((mem_partTids hs hp).mp hm)
      obtain ⟨hteam, hmemb⟩ := ths_key hs.ctx hp
      obtain ⟨hready, hnext⟩ := (u.ticked c).fallThrough_leaves x.clk
      refine ⟨(u.ticked c).fallThrough x.clk, ?_, hready, ?_⟩
      · rw [hthread, thread?_branched_other kind link tg fun q hq hh => hno (by rw [← hh.2]; exact hmem q hq), hu, Option.map_some, Option.map_some,
          if_pos ⟨hteam, hmemb, hno⟩, if_pos ⟨hteam, hmemb⟩]
      · rw [if_neg hg]
        have hclause : (u.ticked c).clause = u.clause := by rw [u.ticked_only c]
        refine ⟨?_, ?_, ?_, ?_, ?_, fun k hk => (hnext k (hclause.trans hk)).symm⟩
        all_goals rw [Thread.fallThrough_only, u.ticked_only c]

/-- Those with misaligned targets alone trap, and the others branch. -/
theorem branch_traps (hl : link = .none) : BranchTraps i s c h kind (fun p => target c (c.source h p)) := by
  subst hl
  set tg : Thread → BitVec 57 := fun p => target c (c.source h p) with htg
  unfold BranchTraps
  intro bad lead hlead hcan
  set good := (c.parts h).filter (fun p => (tg p).toNat % 8 == 0) with hgood
  set x := s.branched c kind .none tg good with hx
  have hgths : ∀ p ∈ good, p ∈ c.ths := fun p hp => parts_ths (List.mem_filter.mp hp).1
  have hapart : ∀ p ∈ good, p.tid ∉ bad.map (·.tid) := fun p hp hm => by
    obtain ⟨q, hq, he⟩ := List.mem_map.mp hm
    obtain ⟨hq1, hq2⟩ := List.mem_filter.mp hq
    rw [ths_unique hs (parts_ths hq1) (hgths p hp) he] at hq2
    have := (List.mem_filter.mp hp).2
    rw [bne, this] at hq2
    cases hq2
  have hspares : s.Spares c.grp.team (bad.map (·.tid)) x := branched_spares kind .none tg fun p hp hh => hapart p hp hh.2
  have hcan' := hspares.canTrap hcan
  set y := x.takeTrap c.grp.team (bad.map (·.tid)) .misalign .instruction c.pc ((tg lead).setWidth 64) with hy
  have hex : exec i s = .next (y.leaveRest c) := by
    rw [hi, branch_eq hs hf, hy]
    obtain ⟨bs, hbs⟩ : ∃ bs, bad = lead :: bs := by
      cases hb : bad with
      | nil => rw [hb] at hlead; cases hlead
      | cons b bs => rw [hb] at hlead; cases hlead; exact ⟨bs, rfl⟩
    rw [show (c.parts h).filter (fun p => (target c (c.source h p)).toNat % 8 != 0) = bad from rfl, hbs,
      laneFaults_one _ c .misalign (fun p => (tg p).setWidth 64)]
  have hkeep : x.TrapKeeps y c.grp.team (bad.map (·.tid)) := takeTrap_keeps hcan' _ _ _ _
  have hone : bad.map (·.tid) = [] ∨ ∃ z ∈ x.threads, z.team = c.grp.team ∧ z.tid ∈ bad.map (·.tid) := by
    obtain hnil | ⟨z, hz, hteam, htid⟩ := hs.exists_thread (ps := bad) fun p hp => parts_ths (List.mem_filter.mp hp).1
    · exact .inl hnil
    · obtain ⟨f, ef, hfs⟩ := hspares.threads
      exact .inr ⟨f z, by rw [ef]; exact List.mem_map_of_mem hz, (hfs z).key.1.trans hteam, by rw [(hfs z).key.2]; exact htid⟩
  have hholds := hkeep.portHolds (branched_portHolds kind .none tg hs hgths) hone
  have hthread := fun a b => hholds.thread?_leaveRest a b
  have hmem : (y.leaveRest c).main = s.main ∧ (y.leaveRest c).dsm = s.dsm := by
    have hxs := branched_onlyThreads s c kind .none tg good
    rw [leaveRest_onlyThreads y c, hkeep.state]
    exact ⟨by rw [← hx] at hxs; rw [hxs], by rw [← hx] at hxs; rw [hxs]⟩
  refine ⟨y.leaveRest c, hex, ?_, hmem.1, hmem.2, fun p hp hpt u hu => ?_⟩
  · intro tid htid u hu
    obtain ⟨u', hu', hrest⟩ := hspares.trapTaken (takeTrap_taken hcan' .misalign .instruction c.pc ((tg lead).setWidth 64)) tid htid u hu
    exact ⟨u', by rw [hthread, hu', Option.map_some, if_neg fun hh => hh.2.2 htid], hrest⟩
  · have hpg : p ∈ good := List.mem_filter.mpr ⟨hp, by simpa using hpt⟩
    obtain ⟨hspec, hregs, -⟩ := u.branchTo_spec c kind (link := .none) (fun _ => nofun) (tg p) p s.clk
    have hv : (u.branchTo c kind .none (tg p) p s.clk).v = u.v := by
      show (u.ticked c).v = u.v
      rw [u.ticked_only c]
    refine ⟨u.branchTo c kind .none (tg p) p s.clk, ?_, ?_⟩
    · rw [hthread, hkeep.others _ _ fun hh => hapart p hpg hh.2,
        thread?_branched_own kind .none tg hs ((hs.parts_nodup h).sublist (List.filter_sublist.map _)) hpg (parts_ths hp), hu, Option.map_some,
        Option.map_some, if_neg fun hh => hh.2.1.2 (List.mem_map_of_mem hpg)]
    · rw [hspec]
      exact ⟨rfl, rfl, rfl, rfl, hv, rfl⟩

end

/-- Settles O34: the four branches are `branch` with their targets, of which those of BRA and CALL are aligned with the header. -/
theorem branchesTaken : Obligations.BranchesTaken := by
  unfold Obligations.BranchesTaken
  have hret : ∀ (c : Ctx) (h : Head) (a : Operand), (Instr.ret h a).wf = true → ∀ p, c.source h p = p := fun c h a hw p => by
    simp only [Instr.wf, Head.ok, Bool.and_eq_true, Bool.or_false, Bool.not_eq_true'] at hw
    simp [Ctx.source, hw.1.2]
  refine ⟨fun s c h off hs _ ha => ?_, fun s c h a hs _ hf ha => ?_, fun s c h d off hs hw hf ha => ?_, fun s c h a hs hw hf ha => ?_,
    fun s c h a hs _ hf => ?_, fun s c h a hs hw hf => ?_⟩
  · exact branch_taken hs (target := fun c _ => wordOffset c.grp.hdrAddr off) rfl (fun _ ho => nomatch ho) (fun _ => nofun) (fun _ e => nomatch e)
      fun _ _ => wordOffset_aligned off ha
  · exact branch_taken hs (target := fun c t => (c.val64 t a).setWidth 57) rfl hf (fun _ => nofun) (fun _ e => nomatch e)
      fun p hp => setWidth57_aligned (ha p hp)
  · refine branch_taken hs (target := fun c _ => wordOffset c.grp.hdrAddr off) rfl hf (fun n e => ?_) (fun _ _ => List.mem_cons_self)
      fun _ _ => wordOffset_aligned off ha
    simp only [Instr.wf, Head.ok, Bool.and_eq_true, Bool.or_false, Bool.not_eq_true'] at hw
    rw [e, hw.1.2] at hw
    simp [Operand.isDst] at hw
  · have h1 := branch_taken hs (i := .ret h a) (h := h) (kind := 3) (target := fun c t => (c.val64 t a).setWidth 57) rfl hf (fun _ => nofun)
      (fun _ e => nomatch e) fun p hp => setWidth57_aligned (by rw [hret c h a hw]; exact ha p hp)
    simpa only [hret c h a hw] using h1
  · exact branch_traps hs (target := fun c t => (c.val64 t a).setWidth 57) rfl hf rfl
  · have h1 := branch_traps hs (i := .ret h a) (h := h) (kind := 3) (target := fun c t => (c.val64 t a).setWidth 57) rfl hf rfl
    simpa only [hret c h a hw] using h1

end Sys2Proof.Machine
end

section
/-! JOIN and WAITJ (R141, R142): one home group's entry after the participants have joined it or arrived at it, who stays parked on it
and who is released, and O35. -/

namespace Sys2Proof.Machine

/-! ### Memory -/

theorem State.sameMemory.trans {s t u : State} (h : s.sameMemory t) (k : t.sameMemory u) : s.sameMemory u := fun l n => (k l n).trans (h l n)

theorem sameMemory_of_teams {s t : State} (hm : t.main = s.main) (hd : t.dsm = s.dsm) (hs : t.sys = s.sys) (ht : t.teams = s.teams) :
    s.sameMemory t := fun l n => by
  unfold State.memRead State.memOf State.team?
  rw [hm, hd, hs, ht]

theorem State.OnlyThreads.sameMemory {s t : State} (h : s.OnlyThreads t) : s.sameMemory t := by
  unfold State.OnlyThreads at h
  exact sameMemory_of_teams (by rw [h]) (by rw [h]) (by rw [h]) (by rw [h])

theorem sameMemory_modTeam (s : State) (team : Nat) {f : Team → Team} (hk : ∀ x, (f x).key = x.key) (hl : ∀ x, (f x).lsm = x.lsm) :
    s.sameMemory (s.modTeam team f) := fun l n => by
  unfold State.memRead
  refine congrArg (Memory.readBytes · _ _) ?_
  unfold State.memOf
  cases l.space with
  | lsm k =>
    dsimp only
    rw [team?_modTeam _ _ _ hk]
    cases s.team? k with
    | none => rfl
    | some x =>
      rw [Option.map_some]
      dsimp only
      split
      · exact hl x
      · rfl
  | _ => rfl

/-! ### Complete rejoin entries (R142) -/

/-- The home group `idx` has a complete entry that the thread is parked on. -/
def State.frees (s : State) (team role idx : Nat) (u : Thread) : Prop :=
  u.inHg team role idx = true ∧ ∃ g k r, s.hg? team role idx = some g ∧ u.status = .parked (.waitj k) ∧ g.rejoin[k]? = some r ∧ r.complete = true

theorem Thread.waitsJ_iff {u : Thread} {ks : List Nat} : u.waitsJ ks = true ↔ ∃ k ∈ ks, u.status = .parked (.waitj k) := by
  unfold Thread.waitsJ
  split
  next k hk =>
    rw [List.contains_iff_mem]
    exact ⟨fun h => ⟨k, h, hk⟩, fun ⟨k', h', e⟩ => by cases hk.symm.trans e; exact h'⟩
  next hno => exact ⟨fun h => (nomatch h), fun ⟨k, _, e⟩ => absurd e (hno k)⟩

theorem mem_completeEntries {g : HomeGroup} {k : Nat} :
    k ∈ (List.range g.rejoin.length).filter (fun k => (g.rejoin.getD k default).complete) ↔ ∃ r, g.rejoin[k]? = some r ∧ r.complete = true := by
  rw [List.mem_filter, List.mem_range]
  constructor
  · rintro ⟨hk, hc⟩
    rw [List.getD_eq_getElem _ _ hk] at hc
    exact ⟨_, List.getElem?_eq_getElem hk, hc⟩
  · rintro ⟨r, hr, hc⟩
    obtain ⟨hk, rfl⟩ := List.getElem?_eq_some_iff.mp hr
    exact ⟨hk, by rwa [List.getD_eq_getElem _ _ hk]⟩

section
variable (s : State) (team role idx : Nat)

theorem hg?_checkRejoin (a b d : Nat) : (s.checkRejoin team role idx).hg? a b d =
    (s.hg? a b d).map (fun g => if a = team ∧ b = role ∧ d = idx then g.freeRejoin else g) := by
  rw [(State.Releases.checkRejoin (held := False) s role idx).hg?, hg?_modHg _ _ _ _ _ keeps_freeRejoin]

theorem thread?_checkRejoin {a b : Nat} {u : Thread} (hu : s.thread? a b = some u) :
    ∃ u', (s.checkRejoin team role idx).thread? a b = some u' ∧
      (s.frees team role idx u → u' = u.fallThrough s.clk) ∧ (¬s.frees team role idx u → u' = u) := by
  unfold State.checkRejoin
  split
  next hn => exact ⟨u, hu, fun ⟨_, g, _, _, hg, _⟩ => (by rw [hn] at hg; cases hg), fun _ => rfl⟩
  next g hg =>
    have hdone : ∀ k, k ∈ (List.range g.rejoin.length).filter (fun k => (g.rejoin.getD k default).complete) ↔
        ∃ r, g.rejoin[k]? = some r ∧ r.complete = true := fun k => mem_completeEntries
    generalize (List.range g.rejoin.length).filter (fun k => (g.rejoin.getD k default).complete) = done at hdone
    have hiff : s.frees team role idx u ↔ u.inHg team role idx = true ∧ u.waitsJ done = true := by
      rw [Thread.waitsJ_iff]
      refine and_congr_right fun _ => ⟨fun ⟨g', k, r, hg', hk, hr, hc⟩ => ?_, fun ⟨k, hk, hst⟩ => ?_⟩
      · cases hg.symm.trans hg'
        exact ⟨k, (hdone k).mpr ⟨r, hr, hc⟩, hk⟩
      · obtain ⟨r, hr, hc⟩ := (hdone k).mp hk
        exact ⟨g, k, r, hg, hst, hr, hc⟩
    dsimp only
    split
    next he =>
      refine ⟨u, hu, fun hf => ?_, fun _ => rfl⟩
      obtain ⟨k, hk, -⟩ := Thread.waitsJ_iff.mp (hiff.mp hf).2
      rw [List.isEmpty_iff.mp he] at hk
      cases hk
    next =>
      refine ⟨_, (thread?_mapThreads (s.modHg team role idx _) (fun t => t.inHg team role idx && t.waitsJ done) _ (keeps_fallThrough _) a b).trans
        (congrArg _ hu), fun hf => if_pos (Bool.and_eq_true_iff.mpr (hiff.mp hf)), fun hf => if_neg fun h => hf (hiff.mpr (Bool.and_eq_true_iff.mp h))⟩

theorem checkRejoin_only : s.checkRejoin team role idx = { s with
    threads := (s.checkRejoin team role idx).threads, groups := (s.checkRejoin team role idx).groups, teams := (s.checkRejoin team role idx).teams } := by
  unfold State.checkRejoin
  split
  · rfl
  · dsimp only
    split <;> rfl

theorem checkRejoin_sameMemory : s.sameMemory (s.checkRejoin team role idx) := by
  unfold State.checkRejoin
  split
  · exact fun _ _ => rfl
  · dsimp only
    split
    · exact fun _ _ => rfl
    · refine State.sameMemory.trans (t := State.mapThreads (s.modHg team role idx _) _ _) (fun _ _ => rfl) (sameMemory_modTeam _ _ ?_ ?_) <;>
      · intro x
        unfold Team.progress
        split <;> rfl

end

/-- Several home groups of a role free their complete entries. -/
structure FreedIn (s t : State) (team role : Nat) (l : List Nat) : Prop where
  clk : t.clk = s.clk
  cores : t.cores = s.cores
  memory : s.sameMemory t
  groups : ∀ a b d, t.hg? a b d = (s.hg? a b d).map (fun g => if a = team ∧ b = role ∧ d ∈ l then g.freeRejoin else g)
  threads : ∀ a b u, s.thread? a b = some u → ∃ u', t.thread? a b = some u' ∧
    ((∃ i ∈ l, s.frees team role i u) → u' = u.fallThrough s.clk) ∧ (¬(∃ i ∈ l, s.frees team role i u) → u' = u)

theorem foldl_checkRejoin (team role : Nat) {l : List Nat} (hl : l.Nodup) (s : State) :
    FreedIn s (l.foldl (fun s i => s.checkRejoin team role i) s) team role l := by
  induction l generalizing s with
  | nil => exact ⟨rfl, rfl, fun _ _ => rfl, fun a b d => by simp, fun a b u hu => ⟨u, hu, by simp⟩⟩
  | cons i r ih =>
    obtain ⟨hi, hr⟩ := List.nodup_cons.mp hl
    obtain ⟨hclk, hcores, hmem, hgroups, hthreads⟩ := ih hr (s.checkRejoin team role i)
    have honly := checkRejoin_only s team role i
    have hc : (s.checkRejoin team role i).clk = s.clk := by rw [honly]
    have hlater : ∀ j ∈ r, ∀ u, (s.checkRejoin team role i).frees team role j u ↔ s.frees team role j u := fun j hj u => by
      have hne : j ≠ i := fun e => hi (e ▸ hj)
      unfold State.frees
      rw [hg?_checkRejoin]
      simp [hne]
    refine ⟨hclk.trans hc, hcores.trans (by rw [honly]), (checkRejoin_sameMemory s team role i).trans hmem, fun a b d => ?_, fun a b u hu => ?_⟩
    · rw [List.foldl_cons, hgroups, hg?_checkRejoin, Option.map_map]
      refine congrArg (Option.map · _) (funext fun g => ?_)
      by_cases hd : d = i
      · subst hd
        simp [hi]
      · simp [hd]
    · obtain ⟨u₁, hu₁, hfree, hkeep⟩ := thread?_checkRejoin s team role i hu
      obtain ⟨u', hu', hfree', hkeep'⟩ := hthreads a b u₁ hu₁
      refine ⟨u', hu', fun hex => ?_, fun hno => ?_⟩
      · by_cases hf : s.frees team role i u
        · rw [hkeep' fun ⟨j, _, _, _, k, _, _, hst, _⟩ => by
            rw [hfree hf, (u.fallThrough_leaves s.clk).1] at hst
            cases hst]
          exact hfree hf
        · obtain ⟨j, hj, hfj⟩ := hex
          rcases List.mem_cons.mp hj with rfl | hj
          · exact absurd hfj hf
          · rw [hkeep hf] at hfree'
            rw [hfree' ⟨j, hj, (hlater j hj u).mpr hfj⟩, hc]
      · have hf : ¬s.frees team role i u := fun hf => hno ⟨i, List.mem_cons_self, hf⟩
        rw [hkeep hf] at hkeep'
        exact hkeep' fun ⟨j, hj, hfj⟩ => hno ⟨j, List.mem_cons_of_mem _ hj, (hlater j hj u).mp hfj⟩

/-! ### JOIN (R141) -/

/-- Updates of distinct home groups of a role, one after another. -/
theorem hg?_foldl_modHg (team role : Nat) (f : Nat → HomeGroup → HomeGroup) (hf : ∀ i, KeepsHg (f i)) {l : List Nat} (hl : l.Nodup) (s : State)
    (a b d : Nat) : (l.foldl (fun s i => s.modHg team role i (f i)) s).hg? a b d =
      (s.hg? a b d).map (fun g => if a = team ∧ b = role ∧ d ∈ l then f d g else g) := by
  induction l generalizing s with
  | nil => simp
  | cons i r ih =>
    obtain ⟨hi, hr⟩ := List.nodup_cons.mp hl
    rw [List.foldl_cons, ih hr, hg?_modHg _ _ _ _ _ (hf i), Option.map_map]
    refine congrArg (Option.map · _) (funext fun g => ?_)
    by_cases hd : d = i
    · subst hd
      simp [hi]
    · simp [hd]

/-- The home indices that the participants of a home group have. -/
def joinMask (ps : List Thread) (idx : Nat) : DWord := maskOf ((ps.filter (fun t => t.hg == idx)).map (·.hidx))

theorem joinMask_getLsbD {ps : List Thread} {idx j : Nat} (hj : j < 64) : (joinMask ps idx).getLsbD j = true ↔ ∃ p ∈ ps, p.hg = idx ∧ p.hidx = j := by
  unfold joinMask
  rw [maskOf_getLsbD _ _ hj, decide_eq_true_eq, List.mem_map]
  simp only [List.mem_filter, beq_iff_eq, and_assoc]

/-- An entry that expects the threads of the mask besides, which have not arrived (R141). -/
def Rejoin.join (r : Rejoin) (m : DWord) : Rejoin := { expected := r.expected ||| m, arrived := r.arrived &&& ~~~m }

def HomeGroup.join (g : HomeGroup) (k : Nat) (m : DWord) : HomeGroup := { g with rejoin := updAt k (fun r => r.join m) g.rejoin }

/-- The state once the participants have joined entry `k`. -/
def State.joined (s : State) (c : Ctx) (ps : List Thread) (k : Nat) : State :=
  (hgsOf ps).foldl (fun s i => s.modHg c.grp.team c.grp.role i (fun g => g.join k (joinMask ps i))) s

theorem join_eq {s : State} {c : Ctx} {h : Head} {k : Fin 32} (off : BitVec 24) (hs : Seated s c) (hk : k.val < c.launch.kernel.join) :
    exec (.join h k off) s = .next ((s.joined c (c.parts h) k.val).traceBranch c 4
      ((c.parts h).map (fun t => (t, wordOffset c.grp.hdrAddr off)))).advance := by
  refine (run_spec hs.ctx (ops := []) (fun _ ho => nomatch ho) _).trans ?_
  rw [if_neg (by simp [hk])]
  rfl

theorem joined_onlyGroups (s : State) (c : Ctx) (ps : List Thread) (k : Nat) : s.joined c ps k = { s with groups := (s.joined c ps k).groups } := by
  unfold State.joined
  generalize hgsOf ps = l
  induction l generalizing s with
  | nil => rfl
  | cons i r ih => exact ih _

theorem hg?_joined (s : State) (c : Ctx) (ps : List Thread) (k a b d : Nat) : (s.joined c ps k).hg? a b d =
    (s.hg? a b d).map (fun g => if a = c.grp.team ∧ b = c.grp.role ∧ d ∈ hgsOf ps then g.join k (joinMask ps d) else g) :=
  hg?_foldl_modHg c.grp.team c.grp.role (fun i g => g.join k (joinMask ps i)) (fun _ _ => ⟨rfl, rfl, rfl⟩) (List.nodup_dedup _) s a b d

theorem mem_hgsOf {ps : List Thread} {i : Nat} : i ∈ hgsOf ps ↔ ∃ p ∈ ps, p.hg = i := by
  unfold hgsOf
  rw [List.mem_dedup, List.mem_map]

/-- What joining adds to the entry, whether or not a participant belongs to the home group. -/
theorem join_entry {g : HomeGroup} {k : Nat} (hk : k < g.rejoin.length) (ps : List Thread) (idx : Nat) :
    ∃ g', g' = (if idx ∈ hgsOf ps then g.join k (joinMask ps idx) else g) ∧ g' = { g with rejoin := g'.rejoin } ∧
      (∀ j, j ≠ k → g'.rejoin[j]? = g.rejoin[j]?) ∧ ∃ r r', g.rejoin[k]? = some r ∧ g'.rejoin[k]? = some r' ∧
        ∀ j, j < 64 → (r'.expected.getLsbD j = true ↔ r.expected.getLsbD j = true ∨ ∃ p ∈ ps, p.hg = idx ∧ p.hidx = j) ∧
          (r'.arrived.getLsbD j = true ↔ r.arrived.getLsbD j = true ∧ ¬∃ p ∈ ps, p.hg = idx ∧ p.hidx = j) := by
  have hr := List.getElem?_eq_getElem hk
  by_cases hi : idx ∈ hgsOf ps
  · refine ⟨_, rfl, ?_⟩
    rw [if_pos hi]
    refine ⟨rfl, fun j hj => ?_, g.rejoin[k], g.rejoin[k].join (joinMask ps idx), hr, ?_, fun j hj => ⟨?_, ?_⟩⟩
    · exact (getElem?_updAt k j _ _).trans (if_neg hj)
    · exact (getElem?_updAt k k _ _).trans ((if_pos rfl).trans (by rw [hr, Option.map_some]))
    · unfold Rejoin.join
      rw [BitVec.getLsbD_or, Bool.or_eq_true, joinMask_getLsbD hj]
    · unfold Rejoin.join
      rw [BitVec.getLsbD_and, BitVec.getLsbD_not, ← joinMask_getLsbD hj]
      simp [hj]
  · refine ⟨_, rfl, ?_⟩
    rw [if_neg hi]
    have hno : ∀ j, ¬∃ p ∈ ps, p.hg = idx ∧ p.hidx = j := fun j ⟨p, hp, hpi, _⟩ => hi (mem_hgsOf.mpr ⟨p, hp, hpi⟩)
    exact ⟨rfl, fun _ _ => rfl, _, _, hr, hr, fun j _ => ⟨by simp only [hno, or_false], by simp only [hno, not_false_eq_true, and_true]⟩⟩

/-- Moving on changes threads and cores. -/
theorem advance_frame (s : State) : s.advance = { s with threads := s.advance.threads, cores := s.advance.cores } := by
  cases hg : s.groupAt s.cur.core s.cur.port with
  | none => rw [advance_none hg]
  | some g => rw [advance_group hg]; rfl

/-- Where the port holds what it held, moving on keeps every thread's registers and predicates. -/
theorem State.PortHolds.advance_regs {s : State} {c : Ctx} {stay : Nat → Prop} (h : s.PortHolds c stay) (hcore : c.core = s.cur.core)
    (hport : c.port = s.cur.port) {team tid : Nat} {u : Thread} (hu : s.thread? team tid = some u) :
    ∃ u', s.advance.thread? team tid = some u' ∧ u'.v = u.v ∧ u'.p = u.p := by
  classical
  refine ⟨_, (h.thread?_advance hcore hport team tid).trans (congrArg _ hu), ?_⟩
  dsimp only
  split
  · rw [u.movedOn_only]
    exact ⟨rfl, rfl⟩
  · exact ⟨rfl, rfl⟩

theorem join_completes {s : State} {c : Ctx} {h : Head} {k : Fin 32} (off : BitVec 24) (hs : Seated s c) (hk : k.val < c.launch.kernel.join) :
    ∃ t, exec (.join h k off) s = .next t ∧ t = { s with threads := t.threads, groups := t.groups, cores := t.cores } ∧
      (∀ team tid u, s.thread? team tid = some u → ∃ u', t.thread? team tid = some u' ∧ u'.v = u.v ∧ u'.p = u.p) ∧
      (∀ team role idx, ¬(team = c.grp.team ∧ role = c.grp.role) → t.hg? team role idx = s.hg? team role idx) ∧
      ∀ idx g, s.hg? c.grp.team c.grp.role idx = some g → k.val < g.rejoin.length → ∃ g', t.hg? c.grp.team c.grp.role idx = some g' ∧
        g' = { g with rejoin := g'.rejoin } ∧ (∀ j, j ≠ k.val → g'.rejoin[j]? = g.rejoin[j]?) ∧ ∃ r r', g.rejoin[k.val]? = some r ∧ g'.rejoin[k.val]? = some r' ∧
        ∀ j, j < 64 → (r'.expected.getLsbD j = true ↔ r.expected.getLsbD j = true ∨ ∃ p ∈ c.parts h, p.hg = idx ∧ p.hidx = j) ∧
          (r'.arrived.getLsbD j = true ↔ r.arrived.getLsbD j = true ∧ ¬∃ p ∈ c.parts h, p.hg = idx ∧ p.hidx = j) := by
  set x := s.joined c (c.parts h) k.val with hx
  have hjoin : x = { s with groups := x.groups } := joined_onlyGroups _ _ _ _
  set y := x.traceBranch c 4 ((c.parts h).map (fun t => (t, wordOffset c.grp.hdrAddr off))) with hy
  have htrace : x.OnlyCores y := traceBranch_onlyCores _ _ _ _
  have hhg : ∀ a b d, y.advance.hg? a b d = x.hg? a b d := fun a b d => by
    rw [advance_frame]
    exact hg?_of_onlyCores htrace a b d
  have hcur : y.cur = s.cur := by rw [htrace.state, hjoin]
  have hport : y.PortHolds c (· ∈ c.grp.members) := hs.portHolds.congr ((htrace.groupAt _ _).trans (by rw [hjoin]; rfl))
  obtain ⟨-, hc, hp, -⟩ := ctx?_group hs.ctx
  refine ⟨y.advance, join_eq off hs hk, ?_, fun team tid u hu => ?_, fun team role idx hne => ?_, fun idx g hg hlen => ?_⟩
  · rw [advance_frame, htrace.state, hjoin]
  · refine hport.advance_regs (hc.trans (by rw [hcur])) (hp.trans (by rw [hcur])) ?_
    rw [thread?_of_onlyCores htrace, hjoin]
    exact hu
  · rw [hhg, hx, hg?_joined]
    cases s.hg? team role idx with
    | none => rfl
    | some g => rw [Option.map_some, if_neg fun hh => hne ⟨hh.1, hh.2.1⟩]
  · obtain ⟨g', hg', hrest⟩ := join_entry hlen (c.parts h) idx
    refine ⟨g', ?_, hrest⟩
    rw [hhg, hx, hg?_joined, hg, Option.map_some, hg']
    simp

/-! ### WAITJ (R142) -/

def Thread.parkedAt (u : Thread) (k : Nat) : Thread := { u with status := .parked (.waitj k) }

/-- The thread with home index `i` is marked as arrived at entry `k`. -/
def HomeGroup.markAt (g : HomeGroup) (k i : Nat) : HomeGroup := { g with
  rejoin := updAt k (fun r => { r with arrived := r.arrived ||| bit64 i }) g.rejoin }

/-- A participant parks on entry `k`, marked as arrived, whether or not it is the last (R142). -/
def State.arriveAt (s : State) (k : Nat) (t : Thread) : State :=
  (s.depart t.team t.tid (fun u => u.parkedAt k)).modHg t.team t.role t.hg (fun g => g.markAt k t.hidx)

def State.arrivedAll (s : State) (ps : List Thread) (k : Nat) : State := ps.foldl (fun s t => s.arriveAt k t) s

/-- The participants that their entry expects. -/
def Ctx.expected (c : Ctx) (h : Head) (s : State) (k : Nat) : List Thread := (c.parts h).filter (fun t => s.expects t k)

theorem waitj_eq {s : State} {c : Ctx} {h : Head} {k : Fin 32} (hs : Seated s c) (hk : k.val < c.launch.kernel.join) :
    exec (.waitj h k) s = .next (((hgsOf (c.expected h s k.val)).foldl (fun s i => s.checkRejoin c.grp.team c.grp.role i)
      ((s.tickLast c).arrivedAll (c.expected h s k.val) k.val)).leaveRest c) := by
  refine (run_spec hs.ctx (ops := []) (fun _ ho => nomatch ho) _).trans ?_
  rw [if_neg (by simp [hk])]
  rfl

section
variable (s : State) (k : Nat)

theorem arrivedAll_onlyThreads (ps : List Thread) : s.OnlyThreads (s.arrivedAll ps k) :=
  State.OnlyThreads.foldl (fun s t => show s.OnlyThreads (s.arriveAt k t) from rfl) ps s

theorem thread?_arriveAt (s : State) (t : Thread) (a b : Nat) : (s.arriveAt k t).thread? a b =
    (s.thread? a b).map (fun u => if a = t.team ∧ b = t.tid then u.parkedAt k else u) :=
  thread?_depart s (f := fun u => u.parkedAt k) (fun _ => ⟨rfl, rfl⟩) a b

theorem hg?_arriveAt (s : State) (t : Thread) (a b d : Nat) : (s.arriveAt k t).hg? a b d =
    (s.hg? a b d).map (fun g => if a = t.team ∧ b = t.role ∧ d = t.hg then g.markAt k t.hidx else g) :=
  hg?_modHg (s.depart t.team t.tid (fun u => u.parkedAt k)) _ _ _ (fun g => g.markAt k t.hidx) (fun _ => ⟨rfl, rfl, rfl⟩) a b d

theorem arrivedAll_portHolds {c : Ctx} {ps : List Thread} (hps : ∀ p ∈ ps, p.team = c.grp.team) {stay : Nat → Prop} (h : s.PortHolds c stay) :
    (s.arrivedAll ps k).PortHolds c (fun i => stay i ∧ i ∉ ps.map (·.tid)) := by
  unfold State.arrivedAll
  induction ps generalizing s stay with
  | nil => exact h.imp (by simp)
  | cons p r ih =>
    have hp := h.depart p.tid (fun u => u.parkedAt k)
    rw [← hps p List.mem_cons_self] at hp
    have hstep : (s.arriveAt k p).PortHolds c (fun i => stay i ∧ i ∉ [p.tid]) := hp.congr rfl
    exact (ih _ (fun q hq => hps q (List.mem_cons_of_mem _ hq)) hstep).imp fun i => by simp [and_assoc]

/-- What arriving leaves of a home group: the marks of those of `ps` that belong to it. -/
theorem hg?_arrivedAll {team role idx : Nat} {ps : List Thread} (hps : ∀ p ∈ ps, p.team = team ∧ p.role = role) {g : HomeGroup} {r : Rejoin}
    (hg : s.hg? team role idx = some g) (hr : g.rejoin[k]? = some r) :
    ∃ g' r', (s.arrivedAll ps k).hg? team role idx = some g' ∧ g' = { g with rejoin := g'.rejoin } ∧
      (∀ j, j ≠ k → g'.rejoin[j]? = g.rejoin[j]?) ∧ g'.rejoin[k]? = some r' ∧ r'.expected = r.expected ∧
      ∀ j, j < 64 → (r'.arrived.getLsbD j = true ↔ r.arrived.getLsbD j = true ∨ ∃ p ∈ ps, p.hg = idx ∧ p.hidx = j) := by
  unfold State.arrivedAll
  induction ps generalizing s g r with
  | nil => exact ⟨g, r, hg, rfl, fun _ _ => rfl, hr, rfl, by simp⟩
  | cons p q ih =>
    obtain ⟨hteam, hrole⟩ := hps p List.mem_cons_self
    have hone := hg?_arriveAt k s p team role idx
    rw [hg, Option.map_some] at hone
    simp only [hteam, hrole, true_and] at hone
    have hrest := fun q' hq' => hps q' (List.mem_cons_of_mem p hq')
    rw [List.foldl_cons]
    by_cases hi : idx = p.hg
    · rw [if_pos hi] at hone
      obtain ⟨g', r', hg', heq, hother, hr', hexp, harr⟩ := ih _ hrest (r := { r with arrived := r.arrived ||| bit64 p.hidx }) hone
        ((getElem?_updAt k k _ _).trans ((if_pos rfl).trans (by rw [hr, Option.map_some])))
      refine ⟨g', r', hg', heq, fun j hj => (hother j hj).trans ((getElem?_updAt k j _ _).trans (if_neg hj)), hr', hexp, fun j hj => ?_⟩
      rw [harr j hj, BitVec.getLsbD_or, bit64_getLsbD hj, Bool.or_eq_true, decide_eq_true_eq, or_assoc, eq_comm (a := j)]
      simp only [List.mem_cons, exists_eq_or_imp, hi, true_and]
    · rw [if_neg hi] at hone
      obtain ⟨g', r', hg', heq, hother, hr', hexp, harr⟩ := ih _ hrest hone hr
      refine ⟨g', r', hg', heq, hother, hr', hexp, fun j hj => ?_⟩
      rw [harr j hj]
      simp [Ne.symm hi]

theorem hg?_arrivedAll_other {team role idx : Nat} {ps : List Thread} (hps : ∀ p ∈ ps, ¬(p.team = team ∧ p.role = role ∧ p.hg = idx)) :
    (s.arrivedAll ps k).hg? team role idx = s.hg? team role idx := by
  unfold State.arrivedAll
  induction ps generalizing s with
  | nil => rfl
  | cons p q ih =>
    rw [List.foldl_cons, ih _ fun q' hq' => hps q' (List.mem_cons_of_mem p hq'), hg?_arriveAt]
    have hno := hps p List.mem_cons_self
    cases s.hg? team role idx with
    | none => rfl
    | some g => rw [Option.map_some, if_neg fun hh => hno ⟨hh.1.symm, hh.2.1.symm, hh.2.2.symm⟩]

end

theorem expects_iff {s : State} {t : Thread} {k : Nat} {g : HomeGroup} {r : Rejoin} (hg : s.hg? t.team t.role t.hg = some g) (hr : g.rejoin[k]? = some r)
    (hi : t.hidx < 64) : s.expects t k = r.expected.getLsbD t.hidx := by
  unfold State.expects
  rw [hg]
  dsimp only
  rw [List.getD_eq_getElem?_getD, hr, Option.getD_some, and_bit64_ne_zero hi]

/-- A record after arrivals of threads that it expects, emptied where they were the last. -/
theorem Arrives.of_marked {r r' : Rejoin} {old new : Nat → Prop} (he : r'.expected = r.expected)
    (ha : ∀ j, j < 64 → (r'.arrived.getLsbD j = true ↔ r.arrived.getLsbD j = true ∨ old j))
    (hn : ∀ j, j < 64 → (old j ↔ r.expected.getLsbD j = true ∧ new j)) :
    (r'.complete = true ↔ r.expected ≠ 0#64 ∧ ∀ j, j < 64 → r.expected.getLsbD j = true → r.arrived.getLsbD j = true ∨ new j) ∧
    ∀ r₂ : Rejoin, r₂ = (if r'.complete then { expected := 0#64, arrived := 0#64 } else r') →
      Arrives r.expected r.arrived r₂.expected r₂.arrived new := by
  have hc : r'.complete = true ↔ r.expected ≠ 0#64 ∧ ∀ j, j < 64 → r.expected.getLsbD j = true → r.arrived.getLsbD j = true ∨ new j := by
    rw [Rejoin.complete_iff, he]
    refine and_congr_right fun _ => forall_congr' fun j => forall_congr' fun hj => forall_congr' fun hx => ?_
    rw [ha j hj, hn j hj]
    simp only [hx, true_and]
  refine ⟨hc, fun r₂ h₂ => ⟨fun hall => ?_, fun hall => ?_⟩⟩
  · rw [h₂, if_pos (hc.mpr hall)]
    exact ⟨rfl, rfl⟩
  · rw [h₂, if_neg fun h => hall (hc.mp h)]
    exact ⟨he, fun j hj => (ha j hj).trans (or_congr_right (hn j hj))⟩

section
variable {s : State} {c : Ctx} {h : Head} {k : Nat} (hs : Seated s c) (hnamed : c.named s)
include hs hnamed

/-- The participants that an entry expects, by its mask. -/
theorem expected_iff {idx : Nat} {g : HomeGroup} {r : Rejoin} (hg : s.hg? c.grp.team c.grp.role idx = some g) (hr : g.rejoin[k]? = some r)
    {p : Thread} (hp : p ∈ c.ths) (hi : p.hg = idx) : p ∈ c.expected h s k ↔ p ∈ c.parts h ∧ r.expected.getLsbD p.hidx = true := by
  unfold Ctx.expected
  rw [List.mem_filter, expects_iff (by rw [(ths_key hs.ctx hp).1, (hnamed p hp).1, hi]; exact hg) hr (hnamed p hp).2.1]

theorem expected_home {p : Thread} (hp : p ∈ c.expected h s k) : p ∈ c.parts h ∧ p ∈ c.ths ∧ p.team = c.grp.team ∧ p.role = c.grp.role := by
  have hpart := (List.mem_filter.mp hp).1
  exact ⟨hpart, parts_ths hpart, (ths_key hs.ctx (parts_ths hpart)).1, (hnamed p (parts_ths hpart)).1⟩

/-- A thread once those that are expected have parked. -/
theorem thread?_arrived {a b : Nat} {u : Thread} (hu : s.thread? a b = some u) :
    ∃ u', ((s.tickLast c).arrivedAll (c.expected h s k) k).thread? a b = some u' ∧ u'.v = u.v ∧ u'.p = u.p ∧ u'.team = a ∧ u'.role = u.role ∧ u'.hg = u.hg ∧
      ((∃ p ∈ c.expected h s k, p.team = a ∧ p.tid = b) → u'.status = .parked (.waitj k)) ∧
      ((¬∃ p ∈ c.expected h s k, p.team = a ∧ p.tid = b) → u'.status = u.status) := by
  have hteam := (thread?_key hu).1
  have hone := hu
  unfold State.arrivedAll
  by_cases hex : ∃ p ∈ c.expected h s k, p.team = a ∧ p.tid = b
  · obtain ⟨p, hp, rfl, rfl⟩ := hex
    have hnd : ((c.expected h s k).map (fun p => (p.team, p.tid))).Nodup := (hs.parts_nodup h).sublist (List.filter_sublist.map _)
    refine ⟨(u.ticked c).parkedAt k, ?_, ?_⟩
    · rw [thread?_foldl_own (thread?_arriveAt k) _ _ hnd hp, thread?_tickLast, hu, Option.map_some, Option.map_some,
        if_pos (ths_key hs.ctx (expected_home hs hnamed hp).2.1)]
    · rw [u.ticked_only c]
      exact ⟨rfl, rfl, hteam, rfl, rfl, fun _ => rfl, fun hno => absurd ⟨p, hp, rfl, rfl⟩ hno⟩
  · refine ⟨_, (thread?_foldl_other (thread?_arriveAt k) _ _ fun p hp hk => hex ⟨p, hp, hk⟩).trans ((thread?_tickLast s c a b).trans (congrArg _ hu)), ?_⟩
    dsimp only
    split
    · rw [u.ticked_only c]
      exact ⟨rfl, rfl, hteam, rfl, rfl, fun hh => absurd hh hex, fun _ => rfl⟩
    · exact ⟨rfl, rfl, hteam, rfl, rfl, fun hh => absurd hh hex, fun _ => rfl⟩

end

/-- The state once the participants that entry `k` expects have parked on it. -/
def State.markedAt (s : State) (c : Ctx) (h : Head) (k : Nat) : State := (s.tickLast c).arrivedAll (c.expected h s k) k

/-- The state once the home groups of those have freed their complete entries. -/
def State.freedAt (s : State) (c : Ctx) (h : Head) (k : Nat) : State :=
  (hgsOf (c.expected h s k)).foldl (fun s i => s.checkRejoin c.grp.team c.grp.role i) (s.markedAt c h k)

theorem freedAt_freedIn (s : State) (c : Ctx) (h : Head) (k : Nat) :
    FreedIn (s.markedAt c h k) (s.freedAt c h k) c.grp.team c.grp.role (hgsOf (c.expected h s k)) :=
  foldl_checkRejoin c.grp.team c.grp.role (List.nodup_dedup _) _

section
variable {s : State} {c : Ctx} {h : Head} {k : Nat} (hs : Seated s c) (hnamed : c.named s)
include hs hnamed

theorem freedAt_portHolds : (s.freedAt c h k).PortHolds c (fun i => i ∈ c.grp.members ∧ i ∉ (c.expected h s k).map (·.tid)) :=
  (arrivedAll_portHolds (s.tickLast c) k (fun _ hp => (expected_home hs hnamed hp).2.2.1) (hs.portHolds.congr rfl)).congr (by
    unfold State.groupAt State.core?
    rw [(freedAt_freedIn s c h k).cores]
    rfl)

/-- One home group: its entry after the marks, and what is complete by them. -/
theorem freedAt_record (hinc : ∀ g ∈ s.groups, ∀ r ∈ g.rejoin, r.complete = false) {idx : Nat} {g : HomeGroup} {r : Rejoin}
    (hg : s.hg? c.grp.team c.grp.role idx = some g) (hr : g.rejoin[k]? = some r) :
    ∃ g₁ r₁, (s.markedAt c h k).hg? c.grp.team c.grp.role idx = some g₁ ∧ (s.freedAt c h k).hg? c.grp.team c.grp.role idx = some g₁.freeRejoin ∧
      g₁ = { g with rejoin := g₁.rejoin } ∧ (∀ j, j ≠ k → g₁.rejoin[j]? = g.rejoin[j]?) ∧ g₁.rejoin[k]? = some r₁ ∧
      (r₁.complete = true ↔ r.expected ≠ 0#64 ∧
        ∀ j, j < 64 → r.expected.getLsbD j = true → r.arrived.getLsbD j = true ∨ ∃ q ∈ c.parts h, q.hg = idx ∧ q.hidx = j) ∧
      ∀ r₂ : Rejoin, r₂ = (if r₁.complete then { expected := 0#64, arrived := 0#64 } else r₁) →
        Arrives r.expected r.arrived r₂.expected r₂.arrived (fun j => ∃ q ∈ c.parts h, q.hg = idx ∧ q.hidx = j) := by
  obtain ⟨g₁, r₁, hg₁, heq, hother, hr₁, hexp, harr⟩ := hg?_arrivedAll (s.tickLast c) k
    (fun p (hp : p ∈ c.expected h s k) => (expected_home hs hnamed hp).2.2) (show (s.tickLast c).hg? _ _ idx = some g from hg) hr
  refine ⟨g₁, r₁, hg₁, ?_, heq, hother, hr₁, Arrives.of_marked hexp harr fun j hj => ?_⟩
  · rw [(freedAt_freedIn s c h k).groups, show (s.markedAt c h k).hg? c.grp.team c.grp.role idx = some g₁ from hg₁, Option.map_some]
    by_cases hi : idx ∈ hgsOf (c.expected h s k)
    · rw [if_pos ⟨rfl, rfl, hi⟩]
    · have hsame := hg?_arrivedAll_other (s.tickLast c) k (team := c.grp.team) (role := c.grp.role) (idx := idx) (ps := c.expected h s k)
        fun p hp hk => hi (mem_hgsOf.mpr ⟨p, hp, hk.2.2⟩)
      obtain rfl := Option.some.inj (hg₁.symm.trans (hsame.trans hg))
      rw [if_neg fun hh => hi hh.2.2, HomeGroup.freeRejoin_incomplete (hinc g₁ (List.mem_of_find?_eq_some hg))]
  · constructor
    · rintro ⟨p, hp, hpi, rfl⟩
      have hmem := (expected_iff hs hnamed hg hr (expected_home hs hnamed hp).2.1 hpi).mp hp
      exact ⟨hmem.2, p, hmem.1, hpi, rfl⟩
    · rintro ⟨he, q, hq, hqi, rfl⟩
      exact ⟨q, (expected_iff hs hnamed hg hr (parts_ths hq) hqi).mpr ⟨hq, he⟩, hqi, rfl⟩

/-- A thread once complete entries were freed and the other members have left. -/
theorem thread?_waited {a b : Nat} {u₁ : Thread} (hu : (s.markedAt c h k).thread? a b = some u₁) :
    ∃ u', ((s.freedAt c h k).leaveRest c).thread? a b = some u' ∧ u'.v = u₁.v ∧ u'.p = u₁.p ∧
      ((∃ i ∈ hgsOf (c.expected h s k), (s.markedAt c h k).frees c.grp.team c.grp.role i u₁) → u'.status = .ready) ∧
      (a = c.grp.team ∧ b ∈ c.grp.members ∧ b ∉ (c.expected h s k).map (·.tid) → u'.status = .ready) ∧
      ((¬∃ i ∈ hgsOf (c.expected h s k), (s.markedAt c h k).frees c.grp.team c.grp.role i u₁) →
        ¬(a = c.grp.team ∧ b ∈ c.grp.members ∧ b ∉ (c.expected h s k).map (·.tid)) → u'.status = u₁.status) := by
  classical
  obtain ⟨u₂, hu₂, hfree, hkeep⟩ := (freedAt_freedIn s c h k).threads a b u₁ hu
  have hregs : u₂.v = u₁.v ∧ u₂.p = u₁.p := by
    by_cases hf : ∃ i ∈ hgsOf (c.expected h s k), (s.markedAt c h k).frees c.grp.team c.grp.role i u₁
    · rw [hfree hf, u₁.fallThrough_only]
      exact ⟨rfl, rfl⟩
    · rw [hkeep hf]
      exact ⟨rfl, rfl⟩
  refine ⟨_, ((freedAt_portHolds hs hnamed).thread?_leaveRest a b).trans (congrArg _ hu₂), ?_⟩
  dsimp only
  split
  next hstay =>
    refine ⟨?_, ?_, fun _ => (u₂.fallThrough_leaves _).1, fun _ => (u₂.fallThrough_leaves _).1, fun _ hno => absurd hstay hno⟩ <;> rw [u₂.fallThrough_only]
    · exact hregs.1
    · exact hregs.2
  next hgone =>
    exact ⟨hregs.1, hregs.2, fun hf => by rw [hfree hf]; exact (u₁.fallThrough_leaves _).1, fun hstay => absurd hstay hgone, fun hno _ => by rw [hkeep hno]⟩

end

/-- Of the threads parked on the entry, those are freed whose home group has it complete. -/
theorem markedAt_frees {s : State} {c : Ctx} {h : Head} {k idx : Nat} {g₁ : HomeGroup} {r₁ : Rejoin} (hg : (s.markedAt c h k).hg? c.grp.team c.grp.role idx = some g₁)
    (hr : g₁.rejoin[k]? = some r₁) (hi : idx ∈ hgsOf (c.expected h s k)) {u : Thread} (hst : u.status = .parked (.waitj k))
    (hteam : u.team = c.grp.team) (hrole : u.role = c.grp.role) (hhg : u.hg = idx) :
    (∃ i ∈ hgsOf (c.expected h s k), (s.markedAt c h k).frees c.grp.team c.grp.role i u) ↔ r₁.complete = true := by
  constructor
  · rintro ⟨i, -, hin, g, k', r, hg', hst', hr', hc⟩
    simp only [Thread.inHg, Bool.and_eq_true, beq_iff_eq] at hin
    obtain rfl := hin.2.symm.trans hhg
    cases hg.symm.trans hg'
    cases hst.symm.trans hst'
    cases hr.symm.trans hr'
    exact hc
  · intro hc
    exact ⟨idx, hi, by simp [Thread.inHg, hteam, hrole, hhg], g₁, k, r₁, hg, hst, hr, hc⟩

theorem HomeGroup.freeRejoin_entry {g : HomeGroup} {j : Nat} : g.freeRejoin.rejoin[j]? =
    g.rejoin[j]?.map (fun r => if r.complete then { expected := 0#64, arrived := 0#64 } else r) := List.getElem?_map

theorem waitj_completes {s : State} {c : Ctx} {h : Head} {k : Fin 32} (hs : Seated s c) (hk : k.val < c.launch.kernel.join) (hnamed : c.named s)
    (hinc : ∀ g ∈ s.groups, ∀ r ∈ g.rejoin, r.complete = false) :
    ∃ t, exec (.waitj h k) s = .next t ∧ s.sameMemory t ∧
      (∀ team role idx, ¬(team = c.grp.team ∧ role = c.grp.role) → t.hg? team role idx = s.hg? team role idx) ∧
      (∀ team tid u, s.thread? team tid = some u → ∃ u', t.thread? team tid = some u' ∧ u'.v = u.v ∧ u'.p = u.p) ∧
      (∀ p ∈ c.ths, ∀ g r, s.hg? p.team p.role p.hg = some g → g.rejoin[k.val]? = some r → ∃ u', t.thread? p.team p.tid = some u' ∧
        (if (∃ q ∈ c.parts h, q.team = p.team ∧ q.tid = p.tid) ∧ r.expected.getLsbD p.hidx = true ∧
            (∃ j ∈ List.range 64, r.expected.getLsbD j = true ∧ r.arrived.getLsbD j = false ∧ ¬∃ q ∈ c.parts h, q.hg = p.hg ∧ q.hidx = j)
         then u'.status = .parked (.waitj k.val) else u'.status = .ready)) ∧
      (∀ idx g r, s.hg? c.grp.team c.grp.role idx = some g → g.rejoin[k.val]? = some r → ∃ g' r', t.hg? c.grp.team c.grp.role idx = some g' ∧
        g' = { g with rejoin := g'.rejoin } ∧ (∀ j, j ≠ k.val → g'.rejoin[j]? = g.rejoin[j]?) ∧ g'.rejoin[k.val]? = some r' ∧
        Arrives r.expected r.arrived r'.expected r'.arrived (fun j => ∃ q ∈ c.parts h, q.hg = idx ∧ q.hidx = j)) ∧
      (∀ tid u g r, s.thread? c.grp.team tid = some u → u.role = c.grp.role → u.status = .parked (.waitj k.val) →
        s.hg? c.grp.team c.grp.role u.hg = some g → g.rejoin[k.val]? = some r → (∃ q ∈ c.parts h, q.hg = u.hg ∧ r.expected.getLsbD q.hidx = true) →
        (∀ j, j < 64 → r.expected.getLsbD j = true → r.arrived.getLsbD j = true ∨ ∃ q ∈ c.parts h, q.hg = u.hg ∧ q.hidx = j) →
        ∃ u', t.thread? c.grp.team tid = some u' ∧ u'.status = .ready) := by
  refine ⟨(s.freedAt c h k).leaveRest c, waitj_eq hs hk, ?_, fun team role idx hne => ?_, fun team tid u hu => ?_, fun p hp g r hg hr => ?_,
    fun idx g r hg hr => ?_, fun tid u g r hu hrole hst hg hr ⟨q, hq, hqi, hqe⟩ hall => ?_⟩
  · exact ((arrivedAll_onlyThreads (s.tickLast c) k (c.expected h s k)).sameMemory.trans (freedAt_freedIn s c h k).memory).trans
      (leaveRest_onlyThreads _ c).sameMemory
  · rw [hg?_leaveRest, (freedAt_freedIn s c h k).groups]
    have hsame : (s.markedAt c h k).hg? team role idx = s.hg? team role idx := hg?_arrivedAll_other (s.tickLast c) k
      fun p hp hh => by
        obtain ⟨-, -, hpteam, hprole⟩ := expected_home hs hnamed hp
        exact hne ⟨hh.1.symm.trans hpteam, hh.2.1.symm.trans hprole⟩
    rw [hsame]
    cases s.hg? team role idx with
    | none => rfl
    | some g => rw [Option.map_some, if_neg fun hh => hne ⟨hh.1, hh.2.1⟩]
  · obtain ⟨u₁, hu₁, hv₁, hp₁, -⟩ := thread?_arrived hs hnamed (h := h) (k := k.val) hu
    obtain ⟨u', hu', hv, hp, -⟩ := thread?_waited hs hnamed hu₁
    exact ⟨u', hu', hv.trans hv₁, hp.trans hp₁⟩
  · obtain ⟨hteam, hmem⟩ := ths_key hs.ctx hp
    obtain ⟨u, hu, -, hst⟩ := hs.reg p hp
    obtain ⟨hurole, huhg, -⟩ := (hnamed p hp).2.2 u hu
    have hrole := (hnamed p hp).1
    rw [hteam, hrole] at hg
    obtain ⟨u₁, hu₁, -, -, hteam₁, hrole₁, hhg₁, hpark, -⟩ := thread?_arrived hs hnamed (h := h) (k := k.val) hu
    obtain ⟨u', hu', -, -, hfree, hstay, hkeep⟩ := thread?_waited hs hnamed hu₁
    refine ⟨u', hu', ?_⟩
    by_cases hx : p ∈ c.expected h s k
    · obtain ⟨hpart, he⟩ := (expected_iff hs hnamed hg hr hp rfl).mp hx
      obtain ⟨g₁, r₁, hg₁, -, -, -, hr₁, hc, -⟩ := freedAt_record hs hnamed (h := h) hinc hg hr
      have hfrees := markedAt_frees hg₁ hr₁ (mem_hgsOf.mpr ⟨p, hx, rfl⟩) (hpark ⟨p, hx, rfl, rfl⟩) (hteam₁.trans hteam)
        (hrole₁.trans (hurole.trans hrole)) (hhg₁.trans huhg)
      split
      next hcond =>
        obtain ⟨-, -, j, hj, hje, hja, hjq⟩ := hcond
        have hno : ¬r₁.complete = true := fun h₁ => ((hc.mp h₁).2 j (List.mem_range.mp hj) hje).elim (fun ha => by rw [hja] at ha; cases ha) hjq
        exact (hkeep (fun hf => hno (hfrees.mp hf)) fun hh => hh.2.2 (List.mem_map_of_mem hx)).trans (hpark ⟨p, hx, rfl, rfl⟩)
      next hcond =>
        refine hfree (hfrees.mpr (hc.mpr ⟨fun hz => (by rw [hz, BitVec.getLsbD_zero] at he; cases he), fun j hj hje => ?_⟩))
        by_contra hno
        obtain ⟨hna, hnq⟩ := not_or.mp hno
        exact hcond ⟨⟨p, hpart, rfl, rfl⟩, he, j, List.mem_range.mpr hj, hje, Bool.eq_false_iff.mpr hna, hnq⟩
    · have hnot : p.tid ∉ (c.expected h s k).map (·.tid) := fun hm => by
        obtain ⟨q, hq, he⟩ := List.mem_map.mp hm
        exact hx (ths_unique hs (expected_home hs hnamed hq).2.1 hp he ▸ hq)
      rw [if_neg fun hcond => hx ((expected_iff hs hnamed hg hr hp rfl).mpr ⟨?_, hcond.2.1⟩)]
      · exact hstay ⟨hteam, hmem, hnot⟩
      · obtain ⟨q, hq, -, he⟩ := hcond.1
        exact ths_unique hs (parts_ths hq) hp he ▸ hq
  · obtain ⟨g₁, r₁, -, hg₂, heq, hother, hr₁, -, harr⟩ := freedAt_record hs hnamed (h := h) hinc hg hr
    refine ⟨g₁.freeRejoin, _, by rw [hg?_leaveRest]; exact hg₂, ?_, fun j hj => ?_, by rw [HomeGroup.freeRejoin_entry, hr₁, Option.map_some], harr _ rfl⟩
    · rw [heq]
      rfl
    · rw [HomeGroup.freeRejoin_entry, hother j hj]
      cases hgj : g.rejoin[j]? with
      | none => rfl
      | some r' => rw [Option.map_some, hinc g (List.mem_of_find?_eq_some hg) r' (List.mem_of_getElem? hgj)]; rfl
  · obtain ⟨u₁, hu₁, -, -, hteam₁, hrole₁, hhg₁, hpark, hkept⟩ := thread?_arrived hs hnamed (h := h) (k := k.val) hu
    obtain ⟨u', hu', -, -, hfree, -⟩ := thread?_waited hs hnamed hu₁
    obtain ⟨g₁, r₁, hg₁, -, -, -, hr₁, hc, -⟩ := freedAt_record hs hnamed (h := h) hinc hg hr
    have hx : q ∈ c.expected h s k := (expected_iff hs hnamed hg hr (parts_ths hq) hqi).mpr ⟨hq, hqe⟩
    have hst₁ : u₁.status = .parked (.waitj k.val) := by
      by_cases hex : ∃ p ∈ c.expected h s k, p.team = c.grp.team ∧ p.tid = tid
      · exact hpark hex
      · exact (hkept hex).trans hst
    refine ⟨u', hu', hfree ((markedAt_frees hg₁ hr₁ (mem_hgsOf.mpr ⟨q, hx, hqi⟩) hst₁ hteam₁ (hrole₁.trans hrole) hhg₁).mpr
      (hc.mpr ⟨fun hz => ?_, hall⟩))⟩
    rw [hz, BitVec.getLsbD_zero] at hqe
    cases hqe

/-- Settles O35: JOIN by the entry that `HomeGroup.join` makes, WAITJ by the marks of those that are expected and the entries
that they complete. -/
theorem rejoinEntries : Obligations.RejoinEntries := by
  unfold Obligations.RejoinEntries
  exact ⟨fun s c h k off hs _ hk => join_completes off hs hk, fun s c h k hs _ hk hnamed hinc => waitj_completes hs hk hnamed hinc⟩

end Sys2Proof.Machine
end

section
/-! BINIT, BEXP, BARV, BINV and BWAIT (R137, R146 to R149, R151): a barrier that only its team's record of it differs in (`BarStep`),
the waiters that it releases, and O41. -/

namespace Sys2Proof.Machine

/-! ### The barrier of the team -/

/-- Only the teams differ, and of the group's team only barrier `b`, which is `B`. -/
structure BarStep (s : State) (c : Ctx) (b : Nat) (B : Barrier) (x : State) : Prop where
  state : x = { s with teams := x.teams }
  others : ∀ k, k ≠ c.grp.team → x.team? k = s.team? k
  own : ∃ y, x.team? c.grp.team = some y ∧ y = { c.team with bars := y.bars } ∧ (∀ j, j ≠ b → y.bar j = c.team.bar j) ∧
    y.bars.length = c.team.bars.length ∧ y.bar b = B

theorem Team.bar_modBar (y : Team) (b : Nat) (f : Barrier → Barrier) (j : Nat) :
    (y.modBar b f).bar j = if j = b ∧ j < y.bars.length then f (y.bar j) else y.bar j := by
  unfold Team.bar Team.modBar
  rw [List.getD_eq_getElem?_getD, getElem?_updAt, List.getD_eq_getElem?_getD]
  by_cases hj : j = b
  · rw [if_pos hj]
    by_cases hl : j < y.bars.length
    · rw [if_pos ⟨hj, hl⟩, List.getElem?_eq_getElem hl]
      rfl
    · rw [if_neg fun h => hl h.2, List.getElem?_eq_none (Nat.not_lt.mp hl)]
      rfl
  · rw [if_neg hj, if_neg fun h => hj h.1]

theorem length_updAt {α : Type} (i : Nat) (f : α → α) (l : List α) : (updAt i f l).length = l.length := by
  induction l generalizing i with
  | nil => unfold updAt; rfl
  | cons a r ih => cases i with
    | zero => rfl
    | succ n => exact congrArg (· + 1) (ih n)

theorem Team.length_modBar (y : Team) (b : Nat) (f : Barrier → Barrier) : (y.modBar b f).bars.length = y.bars.length :=
  length_updAt b f y.bars

namespace BarStep
variable {s x : State} {c : Ctx} {b : Nat} {B : Barrier}

theorem start (hs : Seated s c) : BarStep s c b (c.team.bar b) s := ⟨rfl, fun _ _ => rfl, c.team, ctx?_team hs.ctx, rfl, fun _ _ => rfl, rfl, rfl⟩

theorem modBar (h : BarStep s c b B x) (hb : b < c.team.bars.length) (f : Barrier → Barrier) :
    BarStep s c b (f B) (x.modTeam c.grp.team (fun t => t.modBar b f)) := by
  obtain ⟨y, hy, heq, hother, hlen, hB⟩ := h.own
  refine ⟨by rw [h.state]; rfl, fun k hk => ?_, y.modBar b f, ?_, ?_, fun j hj => ?_, (y.length_modBar b f).trans hlen, ?_⟩
  · rw [team?_modTeam _ _ (fun t => t.modBar b f) fun _ => rfl, h.others k hk]
    cases s.team? k with
    | none => rfl
    | some z => rw [Option.map_some, if_neg hk]
  · rw [team?_modTeam _ _ (fun t => t.modBar b f) fun _ => rfl, hy, Option.map_some, if_pos rfl]
  · rw [heq]
    rfl
  · rw [y.bar_modBar, if_neg fun hh => hj hh.1, hother j hj]
  · rw [y.bar_modBar, if_pos ⟨rfl, hlen ▸ hb⟩, hB]

theorem bar (h : BarStep s c b B x) : x.bar c.grp.team b = B := by
  obtain ⟨y, hy, -, -, -, hB⟩ := h.own
  unfold State.bar
  rw [hy]
  exact hB

theorem team? (h : BarStep s c b B x) : ∃ y, x.team? c.grp.team = some y ∧ y.bar b = B := by
  obtain ⟨y, hy, -, -, -, hB⟩ := h.own
  exact ⟨y, hy, hB⟩

theorem congr {B' : Barrier} (h : BarStep s c b B x) (e : B = B') : BarStep s c b B' x := e ▸ h

end BarStep

/-! ### Moving on after it -/

/-- The threads have changed within the instruction's reach: registers are kept, and predicates but those of `who`. -/
def ThreadsKept (s : State) (c : Ctx) (who : Thread → Prop) (x : State) : Prop := ∀ team tid u, s.thread? team tid = some u →
  ∃ u', x.thread? team tid = some u' ∧ u'.v = u.v ∧ (¬who u → u'.p = u.p) ∧ (team ≠ c.grp.team → u' = u)

theorem ThreadsKept.refl (s : State) (c : Ctx) (who : Thread → Prop) : ThreadsKept s c who s := fun _ _ u hu => ⟨u, hu, rfl, fun _ => rfl, fun _ => rfl⟩

section
variable {s x : State} {c : Ctx} {b : Nat} {B : Barrier} {who : Thread → Prop}

/-- What the barrier's instruction has done, once the group has moved on. -/
theorem barrierOnly_advance (hs : Seated s c) (h : BarStep s c b B x) {ts : List Thread} (hk : ThreadsKept s c who { x with threads := ts }) :
    BarrierOnly s c b who ({ x with threads := ts } : State).advance ∧ ({ x with threads := ts } : State).advance.bar c.grp.team b = B := by
  classical
  have hframe := advance_frame { x with threads := ts }
  have hteam : ∀ k, ({ x with threads := ts } : State).advance.team? k = x.team? k := fun k => by rw [hframe]; rfl
  have hcores : x.cores = s.cores := by rw [h.state]
  have hport : ({ x with threads := ts } : State).PortHolds c (· ∈ c.grp.members) := hs.portHolds.congr (by
    unfold State.groupAt State.core?
    rw [hcores])
  obtain ⟨-, hcore, hp, -⟩ := ctx?_group hs.ctx
  obtain ⟨y, hy, heq, hother, -, hB⟩ := h.own
  refine ⟨⟨by rw [hframe, h.state], fun k hkk => (hteam k).trans (h.others k hkk), ⟨y, (hteam _).trans hy, heq, hother⟩, fun team tid u hu => ?_⟩, ?_⟩
  · obtain ⟨u', hu', hv, hpr, hfar⟩ := hk team tid u hu
    refine ⟨_, (hport.thread?_advance (hcore.trans (by rw [h.state])) (hp.trans (by rw [h.state])) team tid).trans (congrArg _ hu'), ?_⟩
    dsimp only
    split
    next hm =>
      rw [u'.movedOn_only]
      exact ⟨hv, hpr, fun hne => absurd hm.1 hne⟩
    next => exact ⟨hv, hpr, hfar⟩
  · unfold State.bar
    rw [hteam, hy]
    exact hB

theorem barrierOnly_of_step (hs : Seated s c) (h : BarStep s c b B x) :
    BarrierOnly s c b (fun _ => False) x.advance ∧ x.advance.bar c.grp.team b = B := by
  have hx : x = { x with threads := s.threads } := by rw [h.state]
  rw [hx]
  exact barrierOnly_advance hs h (.refl s c _)

/-- A thread that is ready and moves on is ready (R74). -/
theorem thread?_advance_ready (hs : Seated s c) (h : BarStep s c b B x) {ts : List Thread} {team tid : Nat} {u : Thread}
    (hu : ({ x with threads := ts } : State).thread? team tid = some u) (hr : u.status = .ready) :
    ∃ u', ({ x with threads := ts } : State).advance.thread? team tid = some u' ∧ u'.status = .ready ∧ u'.p = u.p := by
  classical
  have hcores : x.cores = s.cores := by rw [h.state]
  have hport : ({ x with threads := ts } : State).PortHolds c (· ∈ c.grp.members) := hs.portHolds.congr (by
    unfold State.groupAt State.core?
    rw [hcores])
  obtain ⟨-, hcore, hp, -⟩ := ctx?_group hs.ctx
  refine ⟨_, (hport.thread?_advance (hcore.trans (by rw [h.state])) (hp.trans (by rw [h.state])) team tid).trans (congrArg _ hu), ?_⟩
  dsimp only
  split
  · refine ⟨?_, by rw [u.movedOn_only]⟩
    have hm := (u.movedOn_moved c.grp ({ x with threads := ts } : State).cur.port ({ x with threads := ts } : State).clk).2
    split at hm
    · exact hm.2.2.trans hr
    · exact hm.1
  · exact ⟨hr, rfl⟩

end

theorem actAll_eq {s x : State} {c : Ctx} {h : Head} {ops : List (Operand × Nat)} {f : Ctx → Thread → State → Except Cause State} (hs : Seated s c)
    (hf : c.fits ops) (hacq : s.acquiring (c.parts h) = false) (hx : (c.actors h).foldlM (fun s t => f c t s) s = .ok x) :
    actAll s h ops f = .next x.advance := by
  refine (run_spec hs.ctx hf _).trans ?_
  rw [hacq, if_neg Bool.false_ne_true, hx]

/-! ### BINIT, BEXP and BINV without .force (R148) -/

section
variable {s : State} {c : Ctx} {b : Nat} (hb : b < c.team.bars.length)
include hb

/-- A barrier as BINIT leaves it. -/
def Barrier.opened (n : Nat) : Barrier :=
  { valid := true, ph := false, exp := n, pend := n, cpend := 0, wait := 0, arr := [], view := [], lastView := [], lastAfter := [] }

theorem binit_step {x : State} {B : Barrier} (h : BarStep s c b B x) (hw : B.wait = 0) (hc : B.cpend = 0) {e : Nat} (h1 : 1 ≤ e) (h2 : e ≤ 4095) :
    ∃ x', x.binit c.grp.team b e = .ok x' ∧ BarStep s c b (.opened e) x' := by
  refine ⟨_, ?_, h.modBar hb (fun _ => .opened e)⟩
  unfold State.binit
  dsimp only
  rw [h.bar, hw, hc, if_neg (by decide), if_neg (by simp; omega)]
  rfl

theorem foldlM_binit (val : Thread → Nat) (as : List Thread) {x : State} {B : Barrier} (h : BarStep s c b B x) (hw : B.wait = 0) (hc : B.cpend = 0)
    (hv : ∀ q ∈ as, 1 ≤ val q ∧ val q ≤ 4095) :
    ∃ x' B', as.foldlM (fun s t => s.binit c.grp.team b (val t)) x = .ok x' ∧ BarStep s c b B' x' ∧ B'.wait = 0 ∧ B'.cpend = 0 := by
  induction as generalizing x B with
  | nil => exact ⟨x, B, rfl, h, hw, hc⟩
  | cons p r ih =>
    obtain ⟨h1, h2⟩ := hv p List.mem_cons_self
    obtain ⟨x₁, e₁, hx₁⟩ := binit_step hb h hw hc h1 h2
    obtain ⟨x', B', e', hrest⟩ := ih hx₁ rfl rfl fun q hq => hv q (List.mem_cons_of_mem _ hq)
    refine ⟨x', B', ?_, hrest⟩
    rw [List.foldlM_cons, e₁]
    exact e'

theorem foldlM_bexp (val : Thread → Nat) (as : List Thread) {x : State} {B : Barrier} (h : BarStep s c b B x) (hv : B.valid = true)
    (hn : B.pend + (as.map val).sum ≤ 4095) :
    ∃ x', as.foldlM (fun s t => s.bexp c.grp.team b (val t)) x = .ok x' ∧ BarStep s c b { B with pend := B.pend + (as.map val).sum } x' := by
  induction as generalizing x B with
  | nil => exact ⟨x, rfl, h⟩
  | cons p r ih =>
    rw [List.map_cons, List.sum_cons] at hn ⊢
    have e₁ : x.bexp c.grp.team b (val p) = .ok (x.modTeam c.grp.team (fun t => t.modBar b (fun z => { z with pend := z.pend + val p }))) := by
      unfold State.bexp
      dsimp only
      rw [h.bar, hv, if_neg (by decide), if_neg (by omega)]
    obtain ⟨x', e', h'⟩ := ih (h.modBar hb (fun z => { z with pend := z.pend + val p })) hv (by dsimp only; omega)
    refine ⟨x', by rw [List.foldlM_cons, e₁]; exact e', h'.congr ?_⟩
    rw [Nat.add_assoc]

theorem foldlM_binv (as : List Thread) (hne : as ≠ []) {x : State} {B : Barrier} (h : BarStep s c b B x) (hw : B.wait = 0) (hc : B.cpend = 0) :
    ∃ x', as.foldlM (fun s _ => s.binv c.grp.team b false) x = .ok x' ∧ BarStep s c b { B with valid := false } x' := by
  induction as generalizing x B with
  | nil => exact absurd rfl hne
  | cons p r ih =>
    have e₁ : x.binv c.grp.team b false = .ok (x.modTeam c.grp.team (fun t => t.modBar b (fun z => { z with valid := false }))) := by
      unfold State.binv
      dsimp only
      rw [h.bar, hw, hc, if_neg (by decide), if_neg (by decide)]
    have h₁ := h.modBar hb (fun z => { z with valid := false })
    rw [List.foldlM_cons, e₁]
    by_cases hr : r = []
    · subst hr
      exact ⟨_, rfl, h₁⟩
    · obtain ⟨x', e', h'⟩ := ih hr h₁ hw hc
      exact ⟨x', e', h'⟩

end

/-! ### Threads that a barrier releases (R147, R148) -/

/-- A waiter of a barrier goes on with its result. -/
def Thread.wake (u : Thread) (clk : Nat) (result : Bool) : Thread :=
  match u.status with
  | .parked (.bwait _ pd) => (u.setPred pd result).fallThrough clk
  | _ => u

theorem Thread.waitsB_iff {u : Thread} {b : Nat} : u.waitsB b = true ↔ ∃ pd, u.status = .parked (.bwait b pd) := by
  unfold Thread.waitsB
  split
  next k pd hk =>
    rw [beq_iff_eq]
    exact ⟨fun e => ⟨pd, by rw [hk, e]⟩, fun ⟨pd', e⟩ => by cases hk.symm.trans e; rfl⟩
  next hno => exact ⟨fun h => (nomatch h), fun ⟨pd, e⟩ => absurd e (hno b pd)⟩

theorem Thread.wake_waiter {u : Thread} {b pd : Nat} (h : u.status = .parked (.bwait b pd)) (clk : Nat) (result : Bool) :
    u.wake clk result = (u.setPred pd result).fallThrough clk := by
  unfold Thread.wake
  rw [h]

theorem keeps_wake (clk : Nat) (result : Bool) : KeepsThread (fun u => u.wake clk result) := fun u => by
  unfold Thread.wake
  dsimp only
  split
  next k pd hk => rw [Thread.fallThrough_only, u.setPred_only]; exact ⟨rfl, rfl⟩
  next => exact ⟨rfl, rfl⟩

/-- A waiter once it has been released: ready, its own predicate the result, its registers as before. -/
theorem Thread.wake_spec {u : Thread} {b pd : Nat} (h : u.status = .parked (.bwait b pd)) (clk : Nat) (result : Bool) :
    (u.wake clk result).status = .ready ∧ (u.wake clk result).v = u.v ∧ (pd < 7 → (u.wake clk result).pred pd = result) ∧
      ∀ q, q ≠ pd → (u.wake clk result).pred q = u.pred q := by
  rw [Thread.wake_waiter h]
  have hp : ∀ q, ((u.setPred pd result).fallThrough clk).pred q = (u.setPred pd result).pred q := fun q => by
    rw [Thread.fallThrough_only]
    rfl
  refine ⟨((u.setPred pd result).fallThrough_leaves clk).1, ?_, fun hlt => ?_, fun q hq => ?_⟩
  · rw [Thread.fallThrough_only, u.setPred_only]
  · rw [hp, Thread.setPred_pred, if_pos ⟨rfl, hlt⟩]
  · rw [hp, Thread.setPred_pred, if_neg fun hh => hq hh.1]

theorem releaseBar_eq (s : State) (team b : Nat) (result : Bool) : s.releaseBar team b result =
    (s.mapThreads (fun t => t.team == team && t.waitsB b) (fun u => u.wake s.clk result)).modTeam team
      (fun t => t.modBar b (fun z => { z with wait := 0 })) := rfl

/-- The waiters of the team's barrier have been released with a result, and every other thread is as before. -/
def Woken (s : State) (c : Ctx) (b : Nat) (result : Bool) (x : State) : Prop := ∀ team tid u, s.thread? team tid = some u →
  ∃ u', x.thread? team tid = some u' ∧ (¬(team = c.grp.team ∧ u.waitsB b = true) → u' = u) ∧
    ∀ pd, team = c.grp.team → u.status = .parked (.bwait b pd) →
      u'.status = .ready ∧ u'.v = u.v ∧ (pd < 7 → u'.pred pd = result) ∧ ∀ q, q ≠ pd → u'.pred q = u.pred q

section
variable {s x : State} {c : Ctx} {b : Nat} {result : Bool}

theorem Woken.kept (h : Woken s c b result x) : ThreadsKept s c (fun u => u.team = c.grp.team ∧ u.waitsB b = true) x := fun team tid u hu => by
  obtain ⟨u', hu', hsame, hwake⟩ := h team tid u hu
  refine ⟨u', hu', ?_, fun hno => ?_, fun hne => hsame fun hh => hne hh.1⟩
  · by_cases hw : team = c.grp.team ∧ u.waitsB b = true
    · obtain ⟨pd, hpd⟩ := Thread.waitsB_iff.mp hw.2
      exact (hwake pd hw.1 hpd).2.1
    · rw [hsame hw]
  · rw [hsame fun hh => hno ⟨(thread?_key hu).1.trans hh.1, hh.2⟩]

/-- Waiters that first learn what their phase orders, and then go on. -/
theorem woken_mapThreads (f : Thread → Thread) (hf : ∀ u, f u = { u with know := (f u).know, after := (f u).after }) (clk : Nat) :
    Woken s c b result ((s.mapThreads (fun t => t.team == c.grp.team && t.waitsB b) f).mapThreads (fun t => t.team == c.grp.team && t.waitsB b)
      (fun u => u.wake clk result)) := fun team tid u hu => by
  have hteam := (thread?_key hu).1
  have hk : KeepsThread f := fun u => by rw [hf u]; exact ⟨rfl, rfl⟩
  refine ⟨_, (thread?_mapThreads (s.mapThreads _ f) _ _ (keeps_wake clk result) team tid).trans
    (congrArg _ ((thread?_mapThreads s _ f hk team tid).trans (congrArg _ hu))), fun hno => ?_, fun pd ht hpd => ?_⟩
  · have hq : ¬(u.team == c.grp.team && u.waitsB b) = true := fun hh => by
      simp only [Bool.and_eq_true, beq_iff_eq] at hh
      exact hno ⟨hteam.symm.trans hh.1, hh.2⟩
    dsimp only
    rw [if_neg hq, if_neg hq]
  · have hq : (u.team == c.grp.team && u.waitsB b) = true := by
      simp only [Bool.and_eq_true, beq_iff_eq]
      exact ⟨hteam.trans ht, Thread.waitsB_iff.mpr ⟨pd, hpd⟩⟩
    have hq' : ((f u).team == c.grp.team && (f u).waitsB b) = true := by rw [hf u]; exact hq
    have hst : (f u).status = .parked (.bwait b pd) := by rw [hf u]; exact hpd
    dsimp only
    rw [if_pos hq, if_pos hq']
    obtain ⟨h1, h2, h3, h4⟩ := Thread.wake_spec hst clk result
    refine ⟨h1, h2.trans (by rw [hf u]), h3, fun q hne => (h4 q hne).trans ?_⟩
    rw [hf u]
    rfl

/-- Once they have been released, there is nobody to release. -/
theorem Woken.again (h : Woken s c b result x) (clk : Nat) :
    Woken s c b result (x.mapThreads (fun t => t.team == c.grp.team && t.waitsB b) (fun u => u.wake clk result)) := fun team tid u hu => by
  obtain ⟨u', hu', hsame, hwake⟩ := h team tid u hu
  have hq : ¬(u'.team == c.grp.team && u'.waitsB b) = true := fun hh => by
    simp only [Bool.and_eq_true, beq_iff_eq] at hh
    have ht : team = c.grp.team := (thread?_key hu').1.symm.trans hh.1
    by_cases hw : u.waitsB b = true
    · obtain ⟨pd, hpd⟩ := Thread.waitsB_iff.mp hw
      obtain ⟨pd', hpd'⟩ := Thread.waitsB_iff.mp hh.2
      rw [(hwake pd ht hpd).1] at hpd'
      cases hpd'
    · rw [hsame fun hk => hw hk.2] at hh
      exact hw hh.2
  exact ⟨u', (thread?_mapThreads x _ _ (keeps_wake clk result) team tid).trans (by rw [hu', Option.map_some, if_neg hq]), hsame, hwake⟩

end

/-! ### BARV (R147, R148, R151) -/

/-- The barrier has been completed: only its team's record and the threads differ from `s`. -/
def Completed (s : State) (c : Ctx) (b : Nat) (B : Barrier) (y : State) : Prop :=
  ∃ x ts v ids, y = { x with threads := ts } ∧ Woken s c b true { x with threads := ts } ∧
    BarStep s c b { B with ph := !B.ph, pend := B.exp, wait := 0, arr := [], view := [], lastView := v, lastAfter := ids } x

theorem Completed.valid {s : State} {c : Ctx} {b : Nat} {B : Barrier} {y : State} (h : Completed s c b B y) (hv : B.valid = true) :
    (y.bar c.grp.team b).valid = true := by
  obtain ⟨x, ts, v, ids, rfl, -, hx⟩ := h
  show (x.bar c.grp.team b).valid = true
  rw [hx.bar]
  exact hv

section
variable {s : State} {c : Ctx} {b : Nat} (hb : b < c.team.bars.length)
include hb

theorem completePhase_completed {x : State} {B : Barrier} (h : BarStep s c b B x) : Completed s c b B (x.completePhase c.grp.team b) := by
  obtain ⟨y, hy, -⟩ := h.team?
  unfold State.completePhase
  rw [hy]
  dsimp only
  set ord := (y.bar b).arr.map (fun a => x.orderedBefore c.grp.team a.1 a.2)
  set v := ord.foldl (fun v o => joinViews v o.1) (y.bar b).view
  set ids := (ord.flatMap (·.2)).dedup
  have hthreads : x.threads = s.threads := by rw [h.state]
  refine ⟨(x.modTeam c.grp.team (fun t => t.modBar b (fun z =>
    { z with ph := !z.ph, pend := z.exp, arr := [], view := [], lastView := v, lastAfter := ids }))).modTeam c.grp.team
      (fun t => t.modBar b (fun z => { z with wait := 0 })), _, v, ids, rfl, ?_,
    (h.modBar hb (fun z => { z with ph := !z.ph, pend := z.exp, arr := [], view := [], lastView := v, lastAfter := ids })).modBar hb
      (fun z => { z with wait := 0 })⟩
  have hw := woken_mapThreads (s := s) (c := c) (b := b) (result := true) (fun t => t.follow v ids x.nextId) (fun _ => rfl) x.clk
  intro team tid u hu
  obtain ⟨u', hu', hrest⟩ := hw team tid u hu
  refine ⟨u', ?_, hrest⟩
  rw [← hu']
  show List.find? _ (updWhere _ _ (updWhere _ _ x.threads)) = List.find? _ (updWhere _ _ (updWhere _ _ s.threads))
  rw [hthreads]
  rfl

/-- One arrival that leaves the phase open. -/
theorem barv_open {x : State} {B : Barrier} (h : BarStep s c b B x) (hv : B.valid = true) {n : Nat} (hn : n < B.pend) (hp : B.pend ≤ 4095) (who : List Nat) :
    ∃ x' arr, x.barv c.grp.team b n who = .ok x' ∧ BarStep s c b { B with pend := B.pend - n, arr := arr } x' := by
  have hval : (!B.valid) = false := by rw [hv]; rfl
  unfold State.barv
  dsimp only
  rw [h.bar, hval, if_neg (by decide), if_neg (by simp; omega)]
  split
  next hz => exact ⟨x, B.arr, rfl, h.congr (by rw [hz]; rfl)⟩
  next hz =>
    have h₁ := h.modBar hb (fun z => { z with arr := z.arr ++ who.map (fun i => (i, x.nextId)) })
    obtain ⟨y, hy, hB⟩ := h₁.team?
    refine ⟨_, B.arr ++ who.map (fun i => (i, x.nextId)), rfl, ?_⟩
    unfold State.arriveBar
    rw [hy]
    dsimp only
    rw [hB, hval, if_neg (by decide), if_neg (by dsimp only; omega)]
    exact h₁.modBar hb (fun z => { z with pend := z.pend - n })

/-- An arrival of all that are pending completes the phase. -/
theorem barv_last {x : State} {B : Barrier} (h : BarStep s c b B x) (hv : B.valid = true) (h1 : 1 ≤ B.pend) (hp : B.pend ≤ 4095) (who : List Nat) :
    ∃ x', x.barv c.grp.team b B.pend who = .ok x' ∧ Completed s c b B x' := by
  unfold State.barv
  dsimp only
  rw [h.bar, hv, if_neg (by decide), if_neg (by simp; omega), if_neg (by omega)]
  have h₁ := h.modBar hb (fun z => { z with arr := z.arr ++ who.map (fun i => (i, x.nextId)) })
  obtain ⟨y, hy, hB⟩ := h₁.team?
  refine ⟨_, rfl, ?_⟩
  unfold State.arriveBar
  rw [hy]
  dsimp only
  rw [hB, hv, if_neg (by decide), if_pos (by dsimp only; omega)]
  obtain ⟨x', ts, v, ids, h'⟩ := completePhase_completed hb (h₁.modBar hb (fun z => { z with pend := z.pend - B.pend }))
  exact ⟨x', ts, v, ids, h'⟩

theorem foldlM_barv_open (val : Thread → Nat) (who : Thread → List Nat) (as : List Thread) {x : State} {B : Barrier} (h : BarStep s c b B x)
    (hv : B.valid = true) (hn : (as.map val).sum < B.pend) (hp : B.pend ≤ 4095) :
    ∃ x' arr, as.foldlM (fun s t => s.barv c.grp.team b (val t) (who t)) x = .ok x' ∧
      BarStep s c b { B with pend := B.pend - (as.map val).sum, arr := arr } x' := by
  induction as generalizing x B with
  | nil => exact ⟨x, B.arr, rfl, h⟩
  | cons p r ih =>
    rw [List.map_cons, List.sum_cons] at hn ⊢
    obtain ⟨x₁, arr₁, e₁, h₁⟩ := barv_open hb h hv (n := val p) (by omega) hp (who p)
    obtain ⟨x', arr, e', h'⟩ := ih h₁ hv (by dsimp only; omega) (by dsimp only; omega)
    refine ⟨x', arr, by rw [List.foldlM_cons, e₁]; exact e', h'.congr ?_⟩
    rw [Nat.sub_sub]

omit hb in
theorem foldlM_barv_none (val : Thread → Nat) (who : Thread → List Nat) (as : List Thread) {x : State} (hv : (x.bar c.grp.team b).valid = true)
    (hz : (as.map val).sum = 0) : as.foldlM (fun s t => s.barv c.grp.team b (val t) (who t)) x = .ok x := by
  induction as with
  | nil => rfl
  | cons p r ih =>
    rw [List.map_cons, List.sum_cons] at hz
    have e₁ : x.barv c.grp.team b (val p) (who p) = .ok x := by
      unfold State.barv
      dsimp only
      rw [hv, if_neg (by decide), if_neg (by simp; omega), if_pos (by omega)]
    rw [List.foldlM_cons, e₁]
    exact ih (by omega)

theorem foldlM_barv_last (val : Thread → Nat) (who : Thread → List Nat) (as : List Thread) {x : State} {B : Barrier} (h : BarStep s c b B x)
    (hv : B.valid = true) (hn : (as.map val).sum = B.pend) (h1 : 1 ≤ B.pend) (hp : B.pend ≤ 4095) :
    ∃ x', as.foldlM (fun s t => s.barv c.grp.team b (val t) (who t)) x = .ok x' ∧ Completed s c b B x' := by
  induction as generalizing x B with
  | nil => rw [List.map_nil, List.sum_nil] at hn; omega
  | cons p r ih =>
    rw [List.map_cons, List.sum_cons] at hn
    rw [List.foldlM_cons]
    by_cases hlast : val p = B.pend
    · obtain ⟨x₁, e₁, h₁⟩ := barv_last hb h hv h1 hp (who p)
      rw [hlast, e₁]
      exact ⟨x₁, foldlM_barv_none val who r (h₁.valid hv) (by omega), h₁⟩
    · obtain ⟨x₁, arr₁, e₁, h₁⟩ := barv_open hb h hv (n := val p) (by omega) hp (who p)
      obtain ⟨x', e', y, ts, v, ids, h'⟩ := ih h₁ hv (by dsimp only; omega) (by dsimp only; omega) (by dsimp only; omega)
      rw [e₁]
      exact ⟨x', e', y, ts, v, ids, h'⟩

end

/-! ### BINV with .force (R148) -/

def Ctx.detachX (c : Ctx) (b : Nat) (l : List XferOp) : List XferOp :=
  updWhere (fun o => o.team == c.grp.team && o.bar == some b) (fun o => { o with arrives := false }) l
def Ctx.detachT (c : Ctx) (b : Nat) (l : List TileOp) : List TileOp :=
  updWhere (fun o => o.team == c.grp.team && o.bar == some b) (fun o => { o with arrives := false }) l
def Ctx.detachC (c : Ctx) (b : Nat) (l : List Conversion) : List Conversion :=
  updWhere (fun o => o.team == c.grp.team && o.bar == b) (fun o => { o with arrives := false }) l

/-- The operations are these, and the threads those. -/
def State.withOps (x : State) (ts : List Thread) (xs : List XferOp) (os : List TileOp) (cs : List Conversion) : State :=
  { x with threads := ts, xfers := xs, tileOps := os, conversions := cs }

/-- The barrier has been forced to be invalid. -/
def Forced (s : State) (c : Ctx) (b : Nat) (B : Barrier) (y : State) : Prop :=
  ∃ x ts, y = x.withOps ts (c.detachX b s.xfers) (c.detachT b s.tileOps) (c.detachC b s.conversions) ∧ Woken s c b false { x with threads := ts } ∧
    BarStep s c b { B with valid := false, cpend := 0, wait := 0, arr := [], view := [] } x

theorem updWhere_again {α : Type} {q : α → Bool} {f : α → α} (hf : ∀ x, f (f x) = f x) (l : List α) : updWhere q f (updWhere q f l) = updWhere q f l := by
  unfold updWhere
  rw [List.map_map]
  refine List.map_congr_left fun x _ => ?_
  dsimp only [Function.comp]
  by_cases hq : q x = true
  · simp only [hq, if_true]
    split
    · exact hf x
    · rfl
  · simp [hq]

section
variable {s : State} {c : Ctx} {b : Nat} (hb : b < c.team.bars.length)
include hb

theorem binv_force {B : Barrier} (h : BarStep s c b B s) : ∃ y, s.binv c.grp.team b true = .ok y ∧ Forced s c b B y := by
  refine ⟨_, rfl, (s.modTeam c.grp.team (fun t => t.modBar b (fun z => { z with wait := 0 }))).modTeam c.grp.team
    (fun t => t.modBar b (fun z => { z with valid := false, cpend := 0, arr := [], view := [] })),
    updWhere (fun t => t.team == c.grp.team && t.waitsB b) (fun u => u.wake s.clk false) s.threads, rfl, ?_,
    (h.modBar hb (fun z => { z with wait := 0 })).modBar hb (fun z => { z with valid := false, cpend := 0, arr := [], view := [] })⟩
  have hw := woken_mapThreads (s := s) (c := c) (b := b) (result := false) (fun u => u) (fun _ => rfl) s.clk
  rw [show s.mapThreads (fun t => t.team == c.grp.team && t.waitsB b) (fun u => u) = s by unfold State.mapThreads; rw [updWhere_id]] at hw
  exact hw

/-- Forced again, it stays as it is. -/
theorem Forced.again {B : Barrier} {y : State} (h : Forced s c b B y) : ∃ y', y.binv c.grp.team b true = .ok y' ∧ Forced s c b B y' := by
  obtain ⟨x, ts, rfl, hw, hx⟩ := h
  refine ⟨_, rfl, (x.modTeam c.grp.team (fun t => t.modBar b (fun z => { z with wait := 0 }))).modTeam c.grp.team
    (fun t => t.modBar b (fun z => { z with valid := false, cpend := 0, arr := [], view := [] })),
    updWhere (fun t => t.team == c.grp.team && t.waitsB b) (fun u => u.wake x.clk false) ts, ?_, hw.again x.clk,
    (hx.modBar hb (fun z => { z with wait := 0 })).modBar hb (fun z => { z with valid := false, cpend := 0, arr := [], view := [] })⟩
  have h1 : c.detachX b (c.detachX b s.xfers) = c.detachX b s.xfers := by
    unfold Ctx.detachX
    refine updWhere_again (fun _ => ?_) _
    rfl
  have h2 : c.detachT b (c.detachT b s.tileOps) = c.detachT b s.tileOps := by
    unfold Ctx.detachT
    refine updWhere_again (fun _ => ?_) _
    rfl
  have h3 : c.detachC b (c.detachC b s.conversions) = c.detachC b s.conversions := by
    unfold Ctx.detachC
    refine updWhere_again (fun _ => ?_) _
    rfl
  exact Eq.trans (b := State.withOps _ _ (c.detachX b (c.detachX b s.xfers)) (c.detachT b (c.detachT b s.tileOps)) (c.detachC b (c.detachC b s.conversions)))
    rfl (congr (congr (congrArg (State.withOps _ _) h1) h2) h3)

theorem foldlM_binv_force (as : List Thread) (hne : as ≠ []) {B : Barrier} (h : BarStep s c b B s) :
    ∃ y, as.foldlM (fun s _ => s.binv c.grp.team b true) s = .ok y ∧ Forced s c b B y := by
  have hrest : ∀ (r : List Thread) y, Forced s c b B y → ∃ y', r.foldlM (fun s _ => s.binv c.grp.team b true) y = .ok y' ∧ Forced s c b B y' := fun r => by
    induction r with
    | nil => exact fun y hy => ⟨y, rfl, hy⟩
    | cons p r ih =>
      intro y hy
      obtain ⟨y₁, e₁, h₁⟩ := hy.again hb
      rw [List.foldlM_cons, e₁]
      exact ih y₁ h₁
  cases as with
  | nil => exact absurd rfl hne
  | cons p r =>
    obtain ⟨y₁, e₁, h₁⟩ := binv_force hb h
    rw [List.foldlM_cons, e₁]
    exact hrest r y₁ h₁

end

/-- Moving on does not look at the operations. -/
theorem advance_withOps (x : State) (ts : List Thread) (xs : List XferOp) (os : List TileOp) (cs : List Conversion) : (x.withOps ts xs os cs).advance =
    { ({ x with threads := ts } : State).advance with xfers := xs, tileOps := os, conversions := cs } := by
  cases hg : ({ x with threads := ts } : State).groupAt x.cur.core x.cur.port with
  | none =>
    rw [advance_none (s := { x with threads := ts }) hg, advance_none (s := x.withOps ts xs os cs) hg]
    rfl
  | some g =>
    rw [advance_group (s := { x with threads := ts }) hg, advance_group (s := x.withOps ts xs os cs) hg]
    rfl

/-! ### BWAIT (R149) -/

/-- The phase of the parity that the participant names has completed. -/
def Ctx.passes (c : Ctx) (x : Barrier) (a : Operand) (p : Thread) : Bool := x.ph != (c.val p a).getLsbD 0

def Thread.passed (u : Thread) (x : Barrier) (pd start : Nat) : Thread := (u.setPred pd true).follow x.lastView x.lastAfter start

def Thread.parkedBar (u : Thread) (b pd : Nat) : Thread := { u with status := .parked (.bwait b pd) }

/-- The threads once those that pass have their predicate, and the others have parked. -/
def State.bwaits (s : State) (c : Ctx) (x : Barrier) (b pd : Nat) (pass wait : List Thread) : State :=
  wait.foldl (fun s t => s.depart t.team t.tid (fun u => u.parkedBar b pd))
    ((s.tickLast c).modThreads c.grp.team (pass.map (·.tid)) (fun u => u.passed x pd s.nextId))

theorem bwait_eq {s : State} {c : Ctx} {h : Head} {b : Fin 16} {pd : Fin 8} {a : Operand} (hs : Seated s c) (hf : c.fits [(a, 1)]) (hne : c.parts h ≠ [])
    (hacq : s.acquiring (c.parts h) = false) (hv : (c.team.bar b.val).valid = true) :
    exec (.bwait h b pd a) s = .next (((s.bwaits c (c.team.bar b.val) b.val pd.val ((c.parts h).filter (fun p => c.passes (c.team.bar b.val) a p))
      ((c.parts h).filter (fun p => !c.passes (c.team.bar b.val) a p))).modTeam c.grp.team (fun t => t.modBar b.val (fun z =>
        { z with wait := z.wait + ((c.parts h).filter (fun p => !c.passes (c.team.bar b.val) a p)).length }))).leaveRest c) := by
  refine (run_spec hs.ctx hf _).trans ?_
  have hbar : s.bar c.grp.team b.val = c.team.bar b.val := by unfold State.bar; rw [ctx?_team hs.ctx]
  rw [hbar, if_neg (by rw [List.isEmpty_iff]; exact hne), hacq, if_neg Bool.false_ne_true, hv, if_neg (by decide)]
  rfl

section
variable {s : State} {c : Ctx} {h : Head} (x : Barrier) (b pd : Nat) {pass wait : List Thread}

theorem bwaits_onlyThreads : s.OnlyThreads (s.bwaits c x b pd pass wait) :=
  State.OnlyThreads.trans (t := (s.tickLast c).modThreads c.grp.team (pass.map (·.tid)) (fun u => u.passed x pd s.nextId)) rfl
    (State.OnlyThreads.foldl (fun s t => show s.OnlyThreads (s.depart t.team t.tid (fun u => u.parkedBar b pd)) from rfl) wait _)

theorem bwaits_groups : (s.bwaits c x b pd pass wait).groups = s.groups := by
  have hfold : ∀ (l : List Thread) (y : State), (l.foldl (fun s t => s.depart t.team t.tid (fun u => u.parkedBar b pd)) y).groups = y.groups := fun l => by
    induction l with
    | nil => exact fun _ => rfl
    | cons p r ih => exact fun y => ih _
  exact hfold wait _

theorem bwaits_portHolds (hs : Seated s c) (hw : ∀ p ∈ wait, p ∈ c.ths) :
    (s.bwaits c x b pd pass wait).PortHolds c (fun i => i ∈ c.grp.members ∧ i ∉ wait.map (·.tid)) :=
  State.PortHolds.departAll (fun _ _ u => u.parkedBar b pd) (fun p hp => (ths_key hs.ctx (hw p hp)).1) (hs.portHolds.congr rfl)

theorem Thread.passed_only (u : Thread) (x : Barrier) (pd start : Nat) : u.passed x pd start = { u with
    p := (u.setPred pd true).p, know := (u.passed x pd start).know, after := (u.passed x pd start).after } := by
  unfold Thread.passed
  rw [u.setPred_only]
  rfl

theorem keeps_passed (x : Barrier) (pd start : Nat) : KeepsThread (fun u => u.passed x pd start) := fun u => by
  dsimp only
  rw [u.passed_only]
  exact ⟨rfl, rfl⟩

/-- A thread that does not park: of those that pass, the named predicate is set. -/
theorem thread?_bwaits_other {team tid : Nat} (hw : ∀ p ∈ wait, ¬(p.team = team ∧ p.tid = tid)) {u : Thread} (hu : s.thread? team tid = some u) :
    ∃ u', (s.bwaits c x b pd pass wait).thread? team tid = some u' ∧ u'.v = u.v ∧
      (¬(team = c.grp.team ∧ tid ∈ pass.map (·.tid)) → u'.p = u.p) ∧ (team ≠ c.grp.team → u' = u) ∧
      (team = c.grp.team ∧ tid ∈ pass.map (·.tid) → u'.p = (u.setPred pd true).p) := by
  obtain ⟨u₁, hu₁, hp₁, hv₁, hfar⟩ : ∃ u₁, (s.tickLast c).thread? team tid = some u₁ ∧ u₁.p = u.p ∧ u₁.v = u.v ∧ (team ≠ c.grp.team → u₁ = u) := by
    refine ⟨_, (thread?_tickLast s c team tid).trans (congrArg _ hu), ?_⟩
    dsimp only
    split
    next hm =>
      rw [u.ticked_only c]
      exact ⟨rfl, rfl, fun hne => absurd hm.1 hne⟩
    next => exact ⟨rfl, rfl, fun _ => rfl⟩
  unfold State.bwaits
  refine ⟨_, (thread?_foldl_other (fun s t a k => thread?_depart s (f := fun u => u.parkedBar b pd) (fun _ => ⟨rfl, rfl⟩) a k) _ _ hw).trans
    ((thread?_modThreads _ _ _ _ (keeps_passed x pd s.nextId) team tid).trans (congrArg _ hu₁)), ?_⟩
  dsimp only
  split
  next hm =>
    rw [u₁.passed_only]
    refine ⟨hv₁, fun hno => absurd hm hno, fun hne => absurd hm.1 hne, fun _ => ?_⟩
    dsimp only
    unfold Thread.setPred
    split
    · rw [← hp₁]
    · exact hp₁
  next hm => exact ⟨hv₁, fun _ => hp₁, hfar, fun hh => absurd hh hm⟩

theorem thread?_bwaits_own (hs : Seated s c) (hn : (wait.map (fun p => (p.team, p.tid))).Nodup) {p : Thread} (hp : p ∈ wait) (hc : p ∈ c.ths)
    (hno : p.tid ∉ pass.map (·.tid)) : (s.bwaits c x b pd pass wait).thread? p.team p.tid =
      (s.thread? p.team p.tid).map (fun u => (u.ticked c).parkedBar b pd) := by
  unfold State.bwaits
  rw [thread?_foldl_own (fun s t a k => thread?_depart s (f := fun u => u.parkedBar b pd) (fun _ => ⟨rfl, rfl⟩) a k) _ _ hn hp,
    thread?_modThreads _ _ _ _ (keeps_passed x pd s.nextId), thread?_tickLast, Option.map_map, Option.map_map]
  refine congrArg (Option.map · _) (funext fun u => ?_)
  dsimp only [Function.comp]
  rw [if_neg fun hh => hno hh.2, if_pos (ths_key hs.ctx hc)]

end

theorem leaveRest_groups (s : State) (c : Ctx) : (s.leaveRest c).groups = s.groups := by
  cases hg : s.groupAt c.core c.port with
  | none => rw [leaveRest_none hg]
  | some g => rw [leaveRest_group hg]; rfl

theorem bwait_completes {s : State} {c : Ctx} {h : Head} {b : Fin 16} {pd : Fin 8} {a : Operand} (hs : Seated s c) (hf : c.fits [(a, 1)])
    (hne : c.parts h ≠ []) (hacq : s.acquiring (c.parts h) = false) (hv : (c.team.bar b.val).valid = true) (hb : b.val < c.team.bars.length) :
    ∃ t, exec (.bwait h b pd a) s = .next t ∧ BarrierOnly s c b.val (fun u => c.takesPart h u.team u.tid) t ∧
      t.bar c.grp.team b.val = { c.team.bar b.val with wait := (c.team.bar b.val).wait +
        ((c.parts h).filter (fun p => (c.team.bar b.val).ph == (c.val p a).getLsbD 0)).length } ∧
      ∀ p ∈ c.parts h, ∃ u u', s.thread? p.team p.tid = some u ∧ t.thread? p.team p.tid = some u' ∧ (∀ q, q ≠ pd.val → u'.pred q = u.pred q) ∧
        (if (c.team.bar b.val).ph = (c.val p a).getLsbD 0 then u'.status = .parked (.bwait b.val pd.val) ∧ u'.p = u.p
         else u'.status = .ready ∧ (pd.val < 7 → u'.pred pd.val = true)) := by
  classical
  set B := c.team.bar b.val with hB
  set pass := (c.parts h).filter (fun p => c.passes B a p) with hpass
  set wait := (c.parts h).filter (fun p => !c.passes B a p) with hwait
  have hwths : ∀ p ∈ wait, p ∈ c.ths := fun p hp => parts_ths (List.mem_filter.mp hp).1
  have hpths : ∀ p ∈ pass, p ∈ c.ths := fun p hp => parts_ths (List.mem_filter.mp hp).1
  have hlen : wait = (c.parts h).filter (fun p => B.ph == (c.val p a).getLsbD 0) := List.filter_congr fun p _ => by simp [Ctx.passes, bne]
  set x := s.bwaits c B b.val pd.val pass wait with hx
  set y := x.modTeam c.grp.team (fun t => t.modBar b.val (fun z => { z with wait := z.wait + wait.length })) with hy
  have honly : s.OnlyThreads x := bwaits_onlyThreads B b.val pd.val
  have hport : y.PortHolds c (fun i => i ∈ c.grp.members ∧ i ∉ wait.map (·.tid)) := (bwaits_portHolds B b.val pd.val hs hwths).congr rfl
  have hstep := (BarStep.start hs).modBar hb (fun z => { z with wait := z.wait + wait.length })
  have hleave : (y.leaveRest c).teams = y.teams := by
    have := leaveRest_onlyThreads y c
    unfold State.OnlyThreads at this
    rw [this]
  have hteams : (y.leaveRest c).teams = (s.modTeam c.grp.team (fun t => t.modBar b.val (fun z => { z with wait := z.wait + wait.length }))).teams := by
    unfold State.OnlyThreads at honly
    rw [hleave, hy, honly]
    rfl
  have hteam : ∀ k, (y.leaveRest c).team? k = (s.modTeam c.grp.team (fun t => t.modBar b.val (fun z => { z with wait := z.wait + wait.length }))).team? k :=
    fun k => by unfold State.team?; rw [hteams]
  have hthread : ∀ team tid, (y.leaveRest c).thread? team tid = (x.thread? team tid).map
      (fun u => if team = c.grp.team ∧ tid ∈ c.grp.members ∧ tid ∉ wait.map (·.tid) then u.fallThrough y.clk else u) := fun team tid => hport.thread?_leaveRest team tid
  have hparked : ∀ p ∈ wait, x.thread? p.team p.tid = (s.thread? p.team p.tid).map (fun u => (u.ticked c).parkedBar b.val pd.val) := fun p hp =>
    thread?_bwaits_own B b.val pd.val hs ((hs.parts_nodup h).sublist (List.filter_sublist.map _)) hp (hwths p hp) fun hm => by
      obtain ⟨q, hq, he⟩ := List.mem_map.mp hm
      rw [ths_unique hs (hpths q hq) (hwths p hp) he] at hq
      have h1 := (List.mem_filter.mp hq).2
      have h2 := (List.mem_filter.mp hp).2
      rw [h1] at h2
      cases h2
  obtain ⟨z, hz, heq, hother, -, hzB⟩ := hstep.own
  refine ⟨y.leaveRest c, bwait_eq hs hf hne hacq hv, ⟨?_, fun k hk => (hteam k).trans (hstep.others k hk), ⟨z, (hteam _).trans hz, heq, hother⟩,
    fun team tid u hu => ?_⟩, ?_, fun p hp => ?_⟩
  · have hrest := leaveRest_onlyThreads y c
    have hgroups : (y.leaveRest c).groups = s.groups := (leaveRest_groups y c).trans (bwaits_groups B b.val pd.val)
    unfold State.OnlyThreads at hrest honly
    rw [hrest, hgroups, hy, honly]
    rfl
  · by_cases hw : ∃ p ∈ wait, p.team = team ∧ p.tid = tid
    · obtain ⟨p, hp, rfl, rfl⟩ := hw
      refine ⟨_, (hthread _ _).trans (congrArg _ ((hparked p hp).trans (congrArg _ hu))), ?_⟩
      dsimp only
      rw [if_neg fun hh => hh.2.2 (List.mem_map_of_mem hp), u.ticked_only c]
      exact ⟨rfl, fun _ => rfl, fun hne => absurd (ths_key hs.ctx (hwths p hp)).1 hne⟩
    · obtain ⟨u₁, hu₁, hv₁, hp₁, hfar, -⟩ := thread?_bwaits_other B b.val pd.val (c := c) (pass := pass) (fun p hp hh => hw ⟨p, hp, hh⟩) hu
      refine ⟨_, (hthread team tid).trans (congrArg _ hu₁), ?_⟩
      have hno : ¬c.takesPart h u.team u.tid → u₁.p = u.p := fun hno => hp₁ fun ⟨ht, hm⟩ => hno (by
        obtain ⟨q, hq, he⟩ := List.mem_map.mp hm
        obtain ⟨hut, hui⟩ := thread?_key hu
        exact ⟨q, (List.mem_filter.mp hq).1, (ths_key hs.ctx (hpths q hq)).1.trans (ht.symm.trans hut.symm), he.trans hui.symm⟩)
      dsimp only
      split
      next hm =>
        rw [u₁.fallThrough_only]
        exact ⟨hv₁, hno, fun hne => absurd hm.1 hne⟩
      next => exact ⟨hv₁, hno, hfar⟩
  · unfold State.bar
    rw [hteam, hz]
    dsimp only
    rw [hzB, ← hlen]
  · obtain ⟨u, hu, -, -⟩ := hs.reg p (parts_ths hp)
    obtain ⟨hteamp, hmem⟩ := ths_key hs.ctx (parts_ths hp)
    by_cases hw : p ∈ wait
    · refine ⟨u, _, hu, (hthread _ _).trans (congrArg _ ((hparked p hw).trans (congrArg _ hu))), ?_⟩
      dsimp only
      rw [if_neg fun hh => hh.2.2 (List.mem_map_of_mem hw), if_pos (by simpa [hwait, hp, Ctx.passes] using hw), u.ticked_only c]
      exact ⟨fun _ _ => rfl, rfl, rfl⟩
    · have hpp : p ∈ pass := List.mem_filter.mpr ⟨hp, by simpa [hwait, hp] using hw⟩
      obtain ⟨u₁, hu₁, -, -, -, hset⟩ := thread?_bwaits_other B b.val pd.val (c := c) (pass := pass) (fun q hq hh => hw (by
        rw [← ths_unique hs (hwths q hq) (parts_ths hp) hh.2]; exact hq)) hu
      have hset := hset ⟨hteamp, List.mem_map_of_mem hpp⟩
      have hpred : ∀ q, (u₁.fallThrough y.clk).pred q = (u.setPred pd.val true).pred q := fun q => by
        rw [u₁.fallThrough_only]
        unfold Thread.pred
        rw [← hset]
      have hnw : p.tid ∉ wait.map (·.tid) := fun hm => by
        obtain ⟨q, hq, he⟩ := List.mem_map.mp hm
        exact hw (ths_unique hs (hwths q hq) (parts_ths hp) he ▸ hq)
      refine ⟨u, _, hu, (hthread _ _).trans (congrArg _ hu₁), ?_⟩
      dsimp only
      rw [if_pos ⟨hteamp, hmem, hnw⟩, if_neg (by simpa [hwait, hp, Ctx.passes] using hw)]
      refine ⟨fun q hq => ?_, (u₁.fallThrough_leaves _).1, fun hlt => ?_⟩
      · rw [hpred, Thread.setPred_pred, if_neg fun hh => hq hh.1]
      · rw [hpred, Thread.setPred_pred, if_pos ⟨rfl, hlt⟩]

/-- A phase that completes lets the group move on, and its waiters are ready with their predicate set. -/
theorem Completed.advance {s : State} {c : Ctx} {b : Nat} {y : State} (hs : Seated s c) (h : Completed s c b (c.team.bar b) y) :
    BarrierOnly s c b (fun u => u.team = c.grp.team ∧ u.waitsB b = true) y.advance ∧
      (∃ lv la, y.advance.bar c.grp.team b = { c.team.bar b with
        ph := !(c.team.bar b).ph, pend := (c.team.bar b).exp, wait := 0, arr := [], view := [], lastView := lv, lastAfter := la }) ∧
      ∀ tid u pd, s.thread? c.grp.team tid = some u → u.status = .parked (.bwait b pd) →
        ∃ u', y.advance.thread? c.grp.team tid = some u' ∧ u'.status = .ready ∧ (pd < 7 → u'.pred pd = true) ∧ ∀ q, q ≠ pd → u'.pred q = u.pred q := by
  obtain ⟨x, ts, v, ids, rfl, hw, hx⟩ := h
  obtain ⟨honly, hbar⟩ := barrierOnly_advance hs hx hw.kept
  refine ⟨honly, ⟨v, ids, hbar⟩, fun tid u pd hu hst => ?_⟩
  obtain ⟨u₁, hu₁, -, hwake⟩ := hw _ _ u hu
  obtain ⟨hr, -, hpd, hq⟩ := hwake pd rfl hst
  obtain ⟨u', hu', hr', hp'⟩ := thread?_advance_ready hs hx hu₁ hr
  have hpred : ∀ q, u'.pred q = u₁.pred q := fun q => by unfold Thread.pred; rw [hp']
  exact ⟨u', hu', hr', fun hlt => (hpred pd).trans (hpd hlt), fun q hne => (hpred q).trans (hq q hne)⟩

theorem Ctx.detachX_eq (c : Ctx) (b : Nat) (l : List XferOp) :
    c.detachX b l = l.map (fun o => if o.team = c.grp.team ∧ o.bar = some b then { o with arrives := false } else o) :=
  List.map_congr_left fun o _ => by simp only [Bool.and_eq_true, beq_iff_eq]

theorem Ctx.detachT_eq (c : Ctx) (b : Nat) (l : List TileOp) :
    c.detachT b l = l.map (fun o => if o.team = c.grp.team ∧ o.bar = some b then { o with arrives := false } else o) :=
  List.map_congr_left fun o _ => by simp only [Bool.and_eq_true, beq_iff_eq]

theorem Ctx.detachC_eq (c : Ctx) (b : Nat) (l : List Conversion) :
    c.detachC b l = l.map (fun o => if o.team = c.grp.team ∧ o.bar = b then { o with arrives := false } else o) :=
  List.map_congr_left fun o _ => by simp only [Bool.and_eq_true, beq_iff_eq]

theorem binv_force_completes {s : State} {c : Ctx} {h : Head} {b : Fin 16} (hs : Seated s c) (hne : c.actors h ≠ [])
    (hacq : s.acquiring (c.parts h) = false) (hb : b.val < c.team.bars.length) :
    ∃ t, exec (.binv h b true) s = .next t ∧
      BarrierOnly s c b.val (fun u => u.team = c.grp.team ∧ u.waitsB b.val = true)
        { t with xfers := s.xfers, tileOps := s.tileOps, conversions := s.conversions } ∧
      t.bar c.grp.team b.val = { c.team.bar b.val with valid := false, cpend := 0, wait := 0, arr := [], view := [] } ∧
      t.xfers = s.xfers.map (fun o => if o.team = c.grp.team ∧ o.bar = some b.val then { o with arrives := false } else o) ∧
      t.tileOps = s.tileOps.map (fun o => if o.team = c.grp.team ∧ o.bar = some b.val then { o with arrives := false } else o) ∧
      t.conversions = s.conversions.map (fun o => if o.team = c.grp.team ∧ o.bar = b.val then { o with arrives := false } else o) ∧
      ∀ tid u pd, s.thread? c.grp.team tid = some u → u.status = .parked (.bwait b.val pd) →
        ∃ u', t.thread? c.grp.team tid = some u' ∧ u'.status = .ready ∧ (pd < 7 → u'.pred pd = false) ∧ ∀ q, q ≠ pd → u'.pred q = u.pred q := by
  obtain ⟨y, ey, x, ts, hy, hw, hx⟩ := foldlM_binv_force hb (c.actors h) hne (.start hs)
  obtain ⟨honly, hbar⟩ := barrierOnly_advance hs hx hw.kept
  have hadv := advance_withOps x ts (c.detachX b.val s.xfers) (c.detachT b.val s.tileOps) (c.detachC b.val s.conversions)
  rw [← hy] at hadv
  have hframe := advance_frame { x with threads := ts }
  refine ⟨y.advance, actAll_eq hs (fun _ ho => nomatch ho) hacq ey, ?_⟩
  rw [hadv]
  refine ⟨?_, hbar, c.detachX_eq b.val _, c.detachT_eq b.val _, c.detachC_eq b.val _, fun tid u pd hu hst => ?_⟩
  · have hback : ∀ z : State, z.xfers = s.xfers → z.tileOps = s.tileOps → z.conversions = s.conversions →
        ({ z with xfers := s.xfers, tileOps := s.tileOps, conversions := s.conversions } : State) = z := fun z h1 h2 h3 => by rw [← h1, ← h2, ← h3]
    have hz := hback ({ x with threads := ts } : State).advance (by rw [hframe, hx.state]) (by rw [hframe, hx.state]) (by rw [hframe, hx.state])
    show BarrierOnly s c b.val _ { ({ x with threads := ts } : State).advance with xfers := s.xfers, tileOps := s.tileOps, conversions := s.conversions }
    rw [hz]
    exact honly
  · obtain ⟨u₁, hu₁, -, hwake⟩ := hw _ _ u hu
    obtain ⟨hr, -, hpd, hq⟩ := hwake pd rfl hst
    obtain ⟨u', hu', hr', hp'⟩ := thread?_advance_ready hs hx hu₁ hr
    have hpred : ∀ q, u'.pred q = u₁.pred q := fun q => by unfold Thread.pred; rw [hp']
    exact ⟨u', hu', hr', fun hlt => (hpred pd).trans (hpd hlt), fun q hne => (hpred q).trans (hq q hne)⟩

/-- Settles O41: the actions of each instruction one after another on the team's barrier, and the waiters that they release. -/
theorem barrierInstructions : Obligations.BarrierInstructions := by
  unfold Obligations.BarrierInstructions
  refine ⟨fun s c h b e as p hs _ hf hacq hact hw hc hv hb => ?_, fun s c h b n hs _ hf hacq hv hn hb => ?_, fun s c h b n hs _ hf hacq hv hn hp hb => ?_,
    fun s c h b n hs _ hf hacq hv hn h1 hp hb => ?_, fun s c h b hs _ hne hacq hw hc hb => ?_, fun s c h b hs _ hne hacq hb => ?_,
    fun s c h b pd a hs _ hf hne hacq hv hb => bwait_completes hs hf hne hacq hv hb⟩
  · obtain ⟨x, B, ex, hx, hw', hc'⟩ := foldlM_binit hb (fun q => (c.val q e).toNat) as (.start hs) hw hc fun q hq => hv q (by rw [hact]; simp [hq])
    obtain ⟨h1, h2⟩ := hv p (by rw [hact]; simp)
    obtain ⟨y, ey, hy⟩ := binit_step hb hx hw' hc' h1 h2
    refine ⟨y.advance, actAll_eq hs hf hacq ?_, barrierOnly_of_step hs hy⟩
    rw [hact, List.foldlM_append, ex]
    exact (bind_pure _).trans ey
  · obtain ⟨x, ex, hx⟩ := foldlM_bexp hb (fun p => (c.val p n).toNat) (c.actors h) (.start hs) hv hn
    exact ⟨x.advance, actAll_eq hs hf hacq ex, barrierOnly_of_step hs hx⟩
  · obtain ⟨x, arr, ex, hx⟩ := foldlM_barv_open hb (fun p => (c.valOr p n 1#32).toNat) (fun p => if h.u then (c.parts h).map (·.tid) else [p.tid])
      (c.actors h) (.start hs) hv hn hp
    obtain ⟨honly, hbar⟩ := barrierOnly_of_step hs hx
    exact ⟨x.advance, actAll_eq hs hf hacq ex, honly, arr, hbar⟩
  · obtain ⟨x, ex, hx⟩ := foldlM_barv_last hb (fun p => (c.valOr p n 1#32).toNat) (fun p => if h.u then (c.parts h).map (·.tid) else [p.tid])
      (c.actors h) (.start hs) hv hn h1 hp
    exact ⟨x.advance, actAll_eq hs hf hacq ex, hx.advance hs⟩
  · obtain ⟨x, ex, hx⟩ := foldlM_binv hb (c.actors h) hne (.start hs) hw hc
    exact ⟨x.advance, actAll_eq hs (fun _ ho => nomatch ho) hacq ex, barrierOnly_of_step hs hx⟩
  · exact binv_force_completes hs hne hacq hb

end Sys2Proof.Machine
end

section
/-! Refutations of `Obligations.TrapReturns`, `Obligations.SyncmParksOrReleases` and `Obligations.SystemInstructions`, each by a
machine of one core that the model evaluates. -/

namespace Sys2Proof.Machine
namespace Staged

/-- A machine of one core whose thread 0 of team 1 issues next, in a privileged launch with a handler. -/
def stage : State :=
  let s : State := { State.reset with cores := [Core.reset 0] }
  let s : State := { s.withFetchWord 64 0 with
    agenda := [], cur := { core := 0, port := 0 }, asids := [{ id := 0, valid := true, root := 0, tvec := 0x40000800#64, wdog := 26#32 }] }
  { s with launches := s.launches.map (fun l => { l with priv := true }) }

/-- The unguarded head. -/
def plainHead : Head := ⟨false, false, 7⟩

/-- What a decidable check of the state that an instruction leaves finds. -/
def leaves (i : Instr) (s : State) (p : State → Bool) : Bool :=
  match exec i s with
  | .next t => p t
  | _ => false

theorem of_leaves {i : Instr} {s t : State} {p : State → Bool} (h : leaves i s p = true) (ht : exec i s = .next t) : p t = true := by
  unfold leaves at h
  rw [ht] at h
  exact h

/-- A state is seated where every listed thread of its group stands in it. -/
theorem seated_of {s : State} {c : Ctx} (hc : s.ctx? = some c) (hn : c.grp.members.Nodup)
    (hreg : c.ths.all (fun p => (s.thread? p.team p.tid).any (fun u => decide (c.role.regs ≤ u.v.length) && u.status == .inGroup)) = true)
    (hrow : c.ths.all (fun p => (s.hg? p.team p.role p.hg).any (fun g => decide (64 ≤ g.s.length))) = true) : Seated s c := by
  refine ⟨hc, hn, fun p hp => ?_, fun p hp => ?_⟩
  · obtain ⟨u, hu, hq⟩ := (Option.any_eq_true _ _).1 (List.all_eq_true.mp hreg p hp)
    exact ⟨u, hu, by simpa using hq⟩
  · obtain ⟨g, hg, hq⟩ := (Option.any_eq_true _ _).1 (List.all_eq_true.mp hrow p hp)
    exact ⟨g, hg, by simpa using hq⟩

/-! ### TRET -/

/-- A thread in a handler that a resume header brought it to. -/
def handling (u : Thread) : Thread := { u with inHandler := true, tpcKind := .resumeHeader }

/-- One that waits to enter a handler, with a watchpoint's lane and a watchdog trap due. -/
def pressed (u : Thread) : Thread := { handling u with
  watchOp := some 0
  wdogDue := true
  entering := some { cause := .watchdog, tpc := 0#57, kind := .instruction, taddr := 0#64, lanes := 1#64 } }

/-- Thread 0 stands in a handler, and the list of threads holds its name a second time. -/
def stTwice : State := { stage with threads := stage.threads.flatMap (fun u => [handling u, pressed u]) }

theorem stTwice_ctx : stTwice.ctx?.isSome = true := by decide +kernel

def twiceCtx : Ctx := stTwice.ctx?.get stTwice_ctx

theorem stTwice_seated : Seated stTwice twiceCtx :=
  seated_of (Option.some_get _).symm (by decide +kernel) (by decide +kernel) (by decide +kernel)

theorem tret_twice : leaves (.tret plainHead .retry) stTwice (fun t => (t.thread? 1 0).all (·.hasExited)) = true := by decide +kernel

/-- Refutes O40: where the list of threads holds a participant's name twice, the second with a watchdog trap due while it waits to enter a
handler, TRET takes that trap at once, which kills the team. -/
theorem not_trapReturns : ¬Obligations.TrapReturns := by
  unfold Obligations.TrapReturns
  rintro ⟨htret, -⟩
  obtain ⟨t, ht, -, hback⟩ := htret stTwice twiceCtx plainHead .retry stTwice_seated (by decide +kernel) (by decide) (by decide +kernel) (by decide +kernel)
  have hmem : ∃ p ∈ twiceCtx.parts plainHead, p.team = 1 ∧ p.tid = 0 := by decide +kernel
  obtain ⟨p, hp, hteam, htid⟩ := hmem
  obtain ⟨u, hu, -, hready, -⟩ := hback p hp
  have hdead := of_leaves tret_twice ht
  rw [hteam, htid] at hu
  rw [hu, Option.all_some, Thread.hasExited, hready] at hdead
  exact absurd hdead (by decide)

/-! ### CANCEL -/

/-- A thread parked for an instruction word that waits to enter a handler. -/
def fetching (u : Thread) : Thread := { u with
  tid := 5
  status := .parked (.fetch 4096)
  entering := some { cause := .watchdog, tpc := 0#57, kind := .instruction, taddr := 0#64, lanes := 1#64 } }

/-- A record of thread 5's team for the page of that word. -/
def fetchRec (id : Nat) : FaultRec :=
  let ident := (stage.launches.headD default).ident.toNat
  let index := (stage.teams.headD default).index
  { id := id, refault := false, retry := 0, kind := 3, asid := 0, va := 4096, launch := ident, core := 0, team := index, lanes := 1#64, tids := [5],
    op := none, walks := [], range := none }

/-- A second thread is parked for a word, and the fault queue holds two records of its page. -/
def stFetch : State := { stage with threads := stage.threads.flatMap (fun u => [u, fetching u]), faults := [fetchRec 0, fetchRec 1] }

theorem stFetch_ctx : stFetch.ctx?.isSome = true := by decide +kernel

def fetchCtx : Ctx := stFetch.ctx?.get stFetch_ctx

theorem stFetch_seated : Seated stFetch fetchCtx :=
  seated_of (Option.some_get _).symm (by decide +kernel) (by decide +kernel) (by decide +kernel)

theorem cancel_fetch : leaves (.cancel plainHead false (.int 0)) stFetch (fun t => !t.faults.contains (fetchRec 1)) = true := by decide +kernel

/-- Refutes O48: a thread parked for an instruction word may wait to enter a handler. CANCEL of its FETCH record then kills the team, whose
other records leave the queue with it. -/
theorem not_systemInstructions : ¬Obligations.SystemInstructions := by
  unfold Obligations.SystemInstructions
  rintro ⟨-, -, -, hcancel, -⟩
  obtain ⟨p, hp⟩ := List.length_eq_one_iff.mp (by decide +kernel : (fetchCtx.actors plainHead).length = 1)
  have hzero : ∀ q ∈ fetchCtx.actors plainHead, (fetchCtx.val q (.int 0)).toNat = 0 := by decide +kernel
  have hval : (fetchCtx.val p (.int 0)).toNat = 0 := hzero p (by rw [hp]; exact List.mem_singleton_self p)
  obtain ⟨t, ht, -, -, hstay⟩ := hcancel stFetch fetchCtx plainHead (.int 0) p stFetch_seated (by decide +kernel) (by unfold Ctx.fits; decide +kernel)
    (by decide +kernel) hp
  have hin : fetchRec 1 ∈ t.faults := hstay (by decide +kernel) (by decide +kernel) (by decide +kernel) _ (by decide +kernel) (by rw [hval]; decide +kernel)
  have hgone := of_leaves cancel_fetch ht
  rw [List.contains_iff_mem.mpr hin] at hgone
  exact absurd hgone (by decide)

/-! ### SYNCM -/

/-- Thread 0 of home group 0, thread 1 of home group 1, and thread 0's name once more on an exited member 5 of home group 1; register pair 0 holds
the masks {0} and {0, 5}. -/
def inTwoGroups (u : Thread) : List Thread :=
  [{ u with v := [1#32, 0#32] ++ u.v.drop 2 },
    { u with tid := 1, hg := 1, v := [0x21#32, 0#32] ++ u.v.drop 2 },
    { u with hg := 1, hidx := 5, status := .exited }]

def bothMembers (g : Group) : Group := { g with members := [0, 1] }

def stSync : State := { stage with
  threads := stage.threads.flatMap inTwoGroups
  groups := stage.groups.flatMap (fun g => [g, { g with idx := 1, absent := 0#64 }])
  cores := stage.cores.map (fun k => { k with port0 := { k.port0 with group := k.port0.group.map bothMembers } }) }

theorem stSync_ctx : stSync.ctx?.isSome = true := by decide +kernel

def syncCtx : Ctx := stSync.ctx?.get stSync_ctx

theorem stSync_seated : Seated stSync syncCtx :=
  seated_of (Option.some_get _).symm (by decide +kernel) (by decide +kernel) (by decide +kernel)

/-- The masks and the members that have arrived, by home group. -/
def syncMask (i : Nat) : DWord := if i = 0 then 1#64 else 0x21#64
def syncMet (i : Nat) : DWord := if i = 0 then 0#64 else 0x20#64

theorem syncm_parks : leaves (.syncm plainHead (.v 0)) stSync (fun t => (t.thread? 1 1).all (·.status == .parked .syncm)) = true := by decide +kernel

/-- Refutes O38: where the list of threads holds a participant's name a second time, on an exited member of another home group, the participant's
parking takes that entry with it; it counts as arrived when the instruction starts, but no longer when the record of its home group opens. -/
theorem not_syncmParksOrReleases : ¬Obligations.SyncmParksOrReleases := by
  unfold Obligations.SyncmParksOrReleases
  rintro ⟨-, hall, -⟩
  have hnamed : syncCtx.named stSync := by
    intro p hp
    have hname : ∀ p ∈ syncCtx.ths, p.role = syncCtx.grp.role ∧ p.hidx < 64 ∧
        ((stSync.thread? p.team p.tid).all fun u => decide (u.role = p.role ∧ u.hg = p.hg ∧ u.hidx = p.hidx)) = true := by decide +kernel
    obtain ⟨hrole, hlt, hu⟩ := hname p hp
    exact ⟨hrole, hlt, fun u h => by simpa [h] using hu⟩
  have hopen : ∀ p ∈ syncCtx.parts plainHead, ∀ g, stSync.hg? syncCtx.grp.team syncCtx.grp.role p.hg = some g →
      (g.syncM = 0#64 ∨ g.syncM = syncMask p.hg) ∧ syncMet p.hg = (if g.syncM = 0#64 then syncMask p.hg &&& stSync.exitedMask g else g.syncA) := by
    intro p hp g hg
    have h := (by decide +kernel : ∀ p ∈ syncCtx.parts plainHead, ((stSync.hg? syncCtx.grp.team syncCtx.grp.role p.hg).all fun g =>
      decide (g.syncM = 0#64 ∧ syncMet p.hg = syncMask p.hg &&& stSync.exitedMask g)) = true) p hp
    rw [hg, Option.all_some, decide_eq_true_eq] at h
    exact ⟨.inl h.1, by rw [if_pos h.1]; exact h.2⟩
  obtain ⟨t, ht, -, -, -, hrec⟩ := hall stSync syncCtx plainHead (.v 0) syncMask syncMet stSync_seated (by decide +kernel)
    (by unfold Ctx.fits; decide +kernel) hnamed (by decide +kernel) (by decide +kernel) hopen
  obtain ⟨g, hg⟩ := Option.isSome_iff_exists.mp (by decide +kernel : (stSync.hg? syncCtx.grp.team syncCtx.grp.role 1).isSome = true)
  have hpart : ∃ p ∈ syncCtx.parts plainHead, p.hg = 1 ∧ p.team = 1 ∧ p.tid = 1 := by decide +kernel
  obtain ⟨p, hp, hhg, hteam, htid⟩ := hpart
  obtain ⟨-, hstands, -⟩ := hrec 1 g hg ⟨p, hp, hhg⟩
  obtain ⟨u, hu, hready, -⟩ := hstands p hp hhg
  have hmet : ∀ j, j < 64 → (syncMask 1).getLsbD j = true → (syncMet 1).getLsbD j = true ∨ ∃ p ∈ syncCtx.parts plainHead, p.hg = 1 ∧ p.hidx = j := by
    decide +kernel
  have hparked := of_leaves syncm_parks ht
  rw [hteam, htid] at hu
  rw [hu, Option.all_some, hready hmet] at hparked
  exact absurd hparked (by decide)

end Staged
end Sys2Proof.Machine
end

section
/-! SPAWN and LAUNCH (R153, R155, R268, R321): the bins and the queue after each, and O47. -/

namespace Sys2Proof.Machine

/-! ### Moving on from a changed core or queue -/

/-- That the group only moves on is seen in the threads and cores that the state's lookups find. -/
theorem stepsOnly_of_lookups {s t x : State} {c : Ctx} {h : Head} (ht : StepsOnly s c h t) (hst : x = { t with threads := x.threads, cores := x.cores })
    (hths : ∀ team tid, x.thread? team tid = t.thread? team tid) (hcores : ∀ k, x.core? k = t.core? k) : StepsOnly s c h x := by
  have hrows : ∀ team role idx, x.hg? team role idx = t.hg? team role idx := fun team role idx => by rw [hst]; rfl
  refine ⟨(fun _ e => nomatch e), (fun _ e => nomatch e), fun p hp => ?_, ?_, fun team tid hn => ?_, fun team tid u hu => ?_, fun team role idx g hg => ?_, fun k y hy => ?_⟩
  · rw [hths]
    exact ht.pres p hp
  · rw [hst, ht.state]
  · rw [hths]
    exact ht.others team tid hn
  · rw [hths]
    exact ht.threads team tid u hu
  · rw [hrows]
    exact ht.rows team role idx g hg
  · rw [hcores]
    exact ht.cores k y hy

theorem advance_modQueue {s : State} {g : Group} (h : s.groupAt s.cur.core s.cur.port = some g) (q : Nat) (f : Queue → Queue) :
    (s.modQueue q f).advance = { s.advance with queues := (s.modQueue q f).queues } := by
  rw [advance_group (s := s.modQueue q f) h, advance_group h]
  rfl

theorem queue_modQueue_other (s : State) {q j : Nat} (f : Queue → Queue) (hf : (f (s.queue q)).id = q) (hj : j ≠ q) :
    (s.modQueue q f).queue j = s.queue j := by
  unfold State.queue State.modQueue
  rw [List.find?_cons_of_neg (by simpa [hf] using Ne.symm hj), List.find?_filter]
  congr 1
  refine List.find?_congr fun x _ => ?_
  by_cases hx : x.id = j
  · simp [hx, hj]
  · simp [hx]

theorem Core.setPort_bins (x : Core) (n : Nat) (p : Port) : (x.setPort n p).bins = x.bins := by
  unfold Core.setPort
  split <;> rfl

theorem Core.setPort_withBins (x : Core) (n : Nat) (p : Port) (b : List Bin) :
    { ({ x with bins := b } : Core).setPort n p with bins := x.bins } = x.setPort n p := by
  unfold Core.setPort
  split <;> rfl

theorem groupAt_modCore (s : State) (a : Nat) (f : Core → Core) (hid : ∀ x, (f x).id = x.id) (hport : ∀ x n, (f x).port n = x.port n) (core port : Nat) :
    (s.modCore a f).groupAt core port = s.groupAt core port := by
  unfold State.groupAt
  rw [core?_modCore s a f hid]
  cases s.core? core with
  | none => rfl
  | some x =>
    show ((if core = a then f x else x).port port).group = (x.port port).group
    split
    · rw [hport]
    · rfl

/-- The group moves on beside a change of its core's bins. -/
theorem advance_bins {s : State} {c : Ctx} {k : Core} (hs : Seated s c) (hk : s.core? c.core = some k) (h : Head) {f : Core → Core}
    (hf : ∀ x : Core, f x = { x with bins := (f x).bins }) :
    let t := (s.modCore c.core f).advance
    StepsOnly s c h (t.modCore c.core (fun y => { y with bins := k.bins })) ∧ ∃ k', t.core? c.core = some k' ∧ k'.bins = (f k).bins := by
  intro t
  obtain ⟨hgrp, hcore, -, -⟩ := ctx?_group hs.ctx
  have hid : ∀ x, (f x).id = x.id := fun x => by rw [hf x]
  have hgrp' := (groupAt_modCore s c.core f hid (fun x n => by rw [hf x]; rfl) s.cur.core s.cur.port).trans hgrp
  have ht := advance_group (s := s.modCore c.core f) hgrp'
  have hown := advance_group hgrp
  set place : Core → Core := fun x => x.setPort s.cur.port
    (if c.grp.slot + 1 ≥ hdrWords c.grp.hdr then .free else { group := some { c.grp with slot := c.grp.slot + 1 }, tile := none, stripe := [] }) with hplace
  have hkeeps : ∀ x, (place x).id = x.id := fun x => by
    rw [hplace]
    unfold Core.setPort
    dsimp only
    split <;> rfl
  have hcores : ∀ j, t.core? j = (s.core? j).map fun x => if j = c.core then place (f x) else x := fun j => by
    rw [show t = _ from ht, show (s.modCore c.core f).cur.core = c.core from hcore.symm]
    refine (core?_modCore (s.modCore c.core f) c.core place hkeeps j).trans ?_
    rw [core?_modCore s c.core f hid]
    cases s.core? j with
    | none => rfl
    | some x => by_cases hj : j = c.core <;> simp [hj]
  refine ⟨stepsOnly_of_lookups (advance_stepsOnly hs h) ?_ (fun team tid => ?_) (fun j => ?_), place (f k), ?_, ?_⟩
  · rw [hown, show t = _ from ht]
    rfl
  · rw [hown, show t = _ from ht]
    rfl
  · refine (core?_modCore t c.core (fun y => { y with bins := k.bins }) (fun _ => rfl) j).trans ?_
    rw [hcores, hown, ← hcore]
    refine Eq.trans ?_ (core?_modCore (s.modThreads c.grp.team c.grp.members fun u => u.movedOn c.grp s.cur.port s.clk) c.core place hkeeps j).symm
    show _ = (s.core? j).map _
    by_cases hj : j = c.core
    · rw [hj, hk]
      simp only [Option.map_some, if_true]
      rw [hf k]
      exact congrArg some (k.setPort_withBins ..)
    · cases s.core? j <;> simp [hj]
  · rw [hcores, hk, Option.map_some, if_pos rfl]
  · exact Core.setPort_bins ..

/-! ### SPAWN -/

theorem Core.append_bins (k : Core) (team role : Nat) (entry : BitVec 57) (items : List (List Word)) (view : View) :
    k.append team role entry items view = { k with bins := (k.append team role entry items view).bins } := by
  unfold Core.append
  dsimp only
  split
  · rfl
  · split <;> rfl

/-- The bin has the key. -/
def Bin.keyed (x : Bin) (team role : Nat) (entry : BitVec 57) : Prop := x.team = team ∧ x.role = role ∧ x.entry = entry

/-- Of the bins only the one with the key differs, and it holds the new items behind those that it held. -/
theorem Core.append_spec (k : Core) {team role : Nat} {entry : BitVec 57} {items : List (List Word)} (hne : items ≠ [])
    (huniq : ∀ x ∈ k.bins, ∀ y ∈ k.bins, x.team = y.team → x.role = y.role → x.entry = y.entry → x = y) :
    ∃ x ∈ (k.append team role entry items).bins, x.keyed team role entry ∧
      (∀ y : Bin, ¬y.keyed team role entry → (y ∈ (k.append team role entry items).bins ↔ y ∈ k.bins)) ∧
      (∀ y ∈ (k.append team role entry items).bins, y.keyed team role entry → y = x) ∧
      ∃ old, x.items = old ++ items ∧ (old = [] → x.timer = 2048) ∧
        (old ≠ [] → ∃ y ∈ k.bins, y.keyed team role entry ∧ y.items = old ∧ y.timer = x.timer) := by
  have hkey : ∀ y : Bin, (y.team == team && y.role == role && y.entry == entry) = true ↔ y.keyed team role entry := fun y => by
    simp [Bin.keyed, and_assoc]
  unfold Core.append
  dsimp only
  rw [if_neg (by simpa using hne)]
  split
  next hany =>
    obtain ⟨y, hy, hyk⟩ := List.any_eq_true.mp hany
    have hyk := (hkey y).mp hyk
    have hout : ∀ z ∈ k.bins, z.keyed team role entry → z = y := fun z hz hzk =>
      huniq z hz y hy (hzk.1.trans hyk.1.symm) (hzk.2.1.trans hyk.2.1.symm) (hzk.2.2.trans hyk.2.2.symm)
    refine ⟨_, List.mem_map.mpr ⟨y, hy, if_pos ((hkey y).mpr hyk)⟩, hyk, fun z hz => ⟨fun h => ?_, fun h => ?_⟩, fun z hz hzk => ?_, y.items, rfl, fun hold => ?_, fun hold => ?_⟩
    · obtain ⟨w, hw, rfl⟩ := List.mem_map.mp h
      by_cases hwk : w.keyed team role entry
      · rw [if_pos ((hkey w).mpr hwk)] at hz
        exact absurd hwk hz
      · rwa [if_neg (hwk ∘ (hkey w).mp)]
    · exact List.mem_map.mpr ⟨z, h, if_neg (hz ∘ (hkey z).mp)⟩
    · obtain ⟨w, hw, rfl⟩ := List.mem_map.mp hz
      by_cases hwk : w.keyed team role entry
      · rw [if_pos ((hkey w).mpr hwk), hout w hw hwk]
      · rw [if_neg (hwk ∘ (hkey w).mp)] at hzk
        exact absurd hzk hwk
    · exact if_pos (by rw [hold]; rfl)
    · exact ⟨y, hy, hyk, rfl, (if_neg (by simpa using hold)).symm⟩
  next hnone =>
    have hout : ∀ y ∈ k.bins, ¬y.keyed team role entry := fun y hy hyk => hnone (List.any_eq_true.mpr ⟨y, hy, (hkey y).mpr hyk⟩)
    refine ⟨_, List.mem_append_right _ (List.mem_singleton_self _), ⟨rfl, rfl, rfl⟩, fun z hz => ?_, fun z hz hzk => ?_, [], rfl, fun _ => rfl, fun h => absurd rfl h⟩
    · rw [List.mem_append, List.mem_singleton]
      exact or_iff_left fun h => hz (h ▸ ⟨rfl, rfl, rfl⟩)
    · rw [List.mem_append, List.mem_singleton] at hz
      exact hz.resolve_left fun h => hout z h hzk

theorem Ctx.valOr_zero (c : Ctx) (p : Thread) (b : Operand) : c.valOr p b 0#32 = if b = .none then 0#32 else c.val p b := by
  cases b <;> rfl

/-! ### Views -/

theorem stampAt_cons (q : Loc × Nat) (v : View) (w : Loc) : stampAt (q :: v) w = if q.1 = w then q.2 else stampAt v w := by
  unfold stampAt
  by_cases h : q.1 = w <;> simp [h]

theorem stampAt_addView (v : View) (q : Loc × Nat) (w : Loc) :
    stampAt v w ≤ stampAt (addView v q) w ∧ (q.1 = w → q.2 ≤ stampAt (addView v q) w) := by
  induction v with
  | nil =>
    unfold addView
    rw [stampAt_cons]
    exact ⟨Nat.zero_le _, fun h => by rw [if_pos h]⟩
  | cons x r ih =>
    unfold addView
    by_cases hx : x.1 = q.1
    · rw [if_pos (beq_iff_eq.mpr hx), stampAt_cons, stampAt_cons]
      dsimp only
      by_cases hw : x.1 = w
      · rw [if_pos hw, if_pos hw]
        exact ⟨Nat.le_max_left .., fun _ => Nat.le_max_right ..⟩
      · rw [if_neg hw, if_neg hw]
        exact ⟨Nat.le_refl _, fun h => absurd (hx.trans h) hw⟩
    · rw [if_neg (by simpa using hx), stampAt_cons, stampAt_cons]
      by_cases hw : x.1 = w
      · rw [if_pos hw, if_pos hw]
        exact ⟨Nat.le_refl _, fun h => absurd (hw.trans h.symm) hx⟩
      · rw [if_neg hw, if_neg hw]
        exact ih

theorem stampAt_joinViews_left (a b : View) (w : Loc) : stampAt a w ≤ stampAt (joinViews a b) w := by
  induction b generalizing a with
  | nil => exact Nat.le_refl _
  | cons q r ih => exact Nat.le_trans (stampAt_addView a q w).1 (ih _)

theorem stampAt_joinViews_mem (a : View) {b : View} {q : Loc × Nat} (hq : q ∈ b) : q.2 ≤ stampAt (joinViews a b) q.1 := by
  induction b generalizing a with
  | nil => nomatch hq
  | cons x r ih =>
    obtain rfl | hr := List.mem_cons.mp hq
    · exact Nat.le_trans ((stampAt_addView a q q.1).2 rfl) (stampAt_joinViews_left _ r q.1)
    · exact ih _ hr

theorem stampAt_joinViews_right (a b : View) (w : Loc) : stampAt b w ≤ stampAt (joinViews a b) w := by
  cases h : b.find? (fun p => p.1 == w) with
  | none =>
    unfold stampAt
    rw [h]
    exact Nat.zero_le _
  | some q =>
    have hw : q.1 = w := by simpa using List.find?_some h
    have hle := stampAt_joinViews_mem a (List.mem_of_find?_eq_some h)
    rw [hw] at hle
    unfold stampAt at hle ⊢
    rw [h]
    exact hle

/-- What the threads have before access `id`. -/
def viewOf (id : Nat) (ts : List Thread) (v : View) : View := ts.foldl (fun v t => joinViews v (t.viewAt id)) v

theorem stampAt_viewOf_start (id : Nat) (ts : List Thread) (v : View) (w : Loc) : stampAt v w ≤ stampAt (viewOf id ts v) w := by
  induction ts generalizing v with
  | nil => exact Nat.le_refl _
  | cons t r ih => exact Nat.le_trans (stampAt_joinViews_left v _ w) (ih _)

theorem stampAt_viewOf {id : Nat} {ts : List Thread} {t : Thread} (ht : t ∈ ts) (v : View) {k : Know} (hk : k ∈ t.know) (hid : k.start ≤ id) :
    k.stamp ≤ stampAt (viewOf id ts v) k.loc := by
  induction ts generalizing v with
  | nil => nomatch ht
  | cons x r ih =>
    obtain rfl | hr := List.mem_cons.mp ht
    · have hview : k.stamp ≤ stampAt (t.viewAt id) k.loc :=
        stampAt_joinViews_mem [] (q := (k.loc, k.stamp)) (List.mem_map.mpr ⟨k, List.mem_filter.mpr ⟨hk, by simpa using hid⟩, rfl⟩)
      exact Nat.le_trans hview (Nat.le_trans (stampAt_joinViews_right v _ _) (stampAt_viewOf_start id r _ _))
    · exact ih hr _

/-! ### SPAWN and LAUNCH -/

theorem spawn_appends {s : State} {c : Ctx} {h : Head} {role : Fin 4} {a b : Operand} {off : BitVec 24} {k : Core} (hs : Seated s c)
    (hf : c.fits [(a, 1), (b, 1)]) (hrole : role.val < c.launch.kernel.roles.length) (hps : c.parts h ≠ []) (hk : s.core? c.core = some k)
    (hroom : k.binFor c.grp.team role.val (wordOffset c.grp.hdrAddr off) (c.parts h).length = true) :
    exec (.spawn h role a b off) s = .next (s.modCore c.core (fun k => k.append c.grp.team role.val (wordOffset c.grp.hdrAddr off)
      ((c.parts h).map (fun t => [c.val t a, c.valOr t b 0#32])))).advance := by
  show execSpawn h role a b off s = _
  unfold execSpawn
  rw [run_spec hs.ctx hf]
  dsimp only
  rw [hk]
  dsimp only
  rw [if_neg (Nat.not_le.mpr hrole), if_neg (by simpa using hps), hroom]
  rfl

theorem spawn_undeclared {s : State} {c : Ctx} {h : Head} {role : Fin 4} {a b : Operand} {off : BitVec 24} {k : Core} (hs : Seated s c)
    (hf : c.fits [(a, 1), (b, 1)]) (hk : s.core? c.core = some k) (hrole : c.launch.kernel.roles.length ≤ role.val) :
    exec (.spawn h role a b off) s = .next (s.trapGroup c .illegalOperand none) := by
  show execSpawn h role a b off s = _
  unfold execSpawn
  rw [run_spec hs.ctx hf]
  dsimp only
  rw [hk]
  dsimp only
  rw [if_pos hrole]

/-- The threads whose writes the one child of a LAUNCH comes after. -/
def Ctx.releasers (c : Ctx) (h : Head) (p : Thread) : List Thread := if h.u then c.parts h else [p]

theorem Ctx.mem_releasers {c : Ctx} {h : Head} {p : Thread} (hp : c.actors h = [p]) {x : Thread} (hx : x ∈ c.parts h) : x ∈ c.releasers h p := by
  unfold Ctx.releasers
  unfold Ctx.actors at hp
  split
  · exact hx
  next hu =>
    rw [if_neg hu] at hp
    rwa [hp] at hx

theorem launch_one {s : State} {c : Ctx} {h : Head} {a q : Operand} {p : Thread} (hs : Seated s c) (hf : c.fits [(a, 2), (q, 1)])
    (hp : c.actors h = [p]) (halign : (c.val64 p a).toNat % 64 = 0) (hq : (c.val p q).toNat ≤ 255) (hasid : (s.queue (c.val p q).toNat).asid = c.launch.asid)
    (hen : (s.queue (c.val p q).toNat).en = true) (hroom : (s.queue (c.val p q).toNat).entries.length < 64) :
    exec (.launch h a q) s = .next (if s.launchReady (c.parts h) = false then s else
      (s.append (c.val p q).toNat
        [{ record := c.val64 p a, priv := c.launch.priv, parent := c.launch.ident, view := viewOf s.nextId (c.releasers h p) [] }]).advance) := by
  have htakes : (s.queue (c.val p q).toNat).takes 1 = true := by
    unfold Queue.takes
    rw [hen]
    exact decide_eq_true hroom
  show execLaunch h a q s = _
  unfold execLaunch
  rw [run_spec hs.ctx hf]
  dsimp only
  rw [hp]
  congr 1
  simp only [List.map_cons, List.map_nil, List.find?_cons, List.find?_nil, halign, List.any_cons, List.any_nil, List.filter_cons, List.filter_nil,
    hasid, htakes, List.foldl_cons, List.foldl_nil, bne_self_eq_false, beq_self_eq_true, if_true, List.length_cons, List.length_nil, Nat.zero_add,
    Nat.not_lt.mpr hq, gt_iff_lt, decide_false, Bool.or_false, Bool.not_true, Bool.false_eq_true, if_false]
  cases s.launchReady (c.parts h) <;> rfl

/-- Settles O47: SPAWN changes its core's bins as `Core.append` does, LAUNCH the one queue, and beside that the group moves on. -/
theorem queueInstructions : Obligations.QueueInstructions := by
  unfold Obligations.QueueInstructions
  refine ⟨fun s c h role a b off k hs _ hf hrole hps hk hroom huniq => ?_, fun s c h role a b off k hs _ hf hk hrole => spawn_undeclared hs hf hk hrole,
    fun s c h a q p hs _ hf hp halign hq hasid hen hroom => ?_⟩
  · obtain ⟨hmoves, k', hk', hbins⟩ := advance_bins hs hk h (f := fun k => k.append c.grp.team role.val (wordOffset c.grp.hdrAddr off)
      ((c.parts h).map (fun t => [c.val t a, c.valOr t b 0#32]))) (fun x => x.append_bins ..)
    obtain ⟨x, hx, ⟨hteam, hxrole, hentry⟩, hothers, hone, old, hitems, hnew, hold⟩ := k.append_spec (team := c.grp.team) (role := role.val)
      (entry := wordOffset c.grp.hdrAddr off) (items := (c.parts h).map (fun t => [c.val t a, c.valOr t b 0#32])) (by simpa using hps) huniq
    rw [← hbins] at hx hothers hone
    refine ⟨_, k', x, spawn_appends hs hf hrole hps hk hroom, hmoves, hk', hx, ?_, ?_, hteam, hxrole, hentry, old, ?_, hnew, ?_⟩
    · rw [hteam, hxrole, hentry]
      exact hothers
    · rw [hteam, hxrole, hentry]
      exact fun y hy ht hr he => hone y hy ⟨ht, hr, he⟩
    · simpa only [Ctx.valOr_zero] using hitems
    · rw [hteam, hxrole, hentry]
      intro hne
      obtain ⟨y, hy, ⟨ht, hr, he⟩, hi, htm⟩ := hold hne
      exact ⟨y, hy, ht, hr, he, hi, htm⟩
  · have hexec := launch_one hs hf hp halign hq hasid hen hroom
    refine ⟨fun hwait => by rw [hexec, if_pos hwait], fun hready => ?_⟩
    rw [if_neg (by simp [hready])] at hexec
    have hmove := advance_modQueue (ctx?_group hs.ctx).1 (c.val p q).toNat (fun x : Queue => { x with entries := x.entries ++
      [{ record := c.val64 p a, priv := c.launch.priv, parent := c.launch.ident, view := viewOf s.nextId (c.releasers h p) [] }] })
    have hqueue : ∀ (t x : State), t = { s.advance with queues := x.queues } → ∀ j, t.queue j = x.queue j := fun t x ht j => by
      rw [ht]
      rfl
    refine ⟨_, _, hexec, ?_, ?_, fun x hx k hk hstart => stampAt_viewOf (Ctx.mem_releasers hp hx) [] hk hstart, fun j hj => ?_⟩
    · have hback : ∀ (B : State) z, B.queues = s.queues → ({ ({ B with queues := z } : State) with queues := s.queues } : State) = B := fun B z hB => by
        rw [← hB]
      have hkeep : s.advance.queues = s.queues := by rw [(advance_spec s c.grp (ctx?_group hs.ctx).1).2.1]
      exact Eq.mpr (congrArg (StepsOnly s c h) ((congrArg (fun t : State => ({ t with queues := s.queues } : State)) hmove).trans (hback _ _ hkeep)))
        (advance_stepsOnly hs h)
    · unfold State.append
      rw [hqueue _ _ hmove, queue_modQueue_same _ _ _ (queue_id s _)]
    · unfold State.append
      rw [hqueue _ _ hmove, queue_modQueue_other s _ (queue_id s _) hj]

end Sys2Proof.Machine
end

section
/-! The events of the Cadence engine (R159, R160, R293 to R297, R301, R358, R359): the image, the action of a cycle for each kind of head entry, the
end of a grid, and O15. -/

namespace Sys2Proof.Machine

/-! ### The image -/

theorem stopTable_cadence {s : State} (h : s.cadence.state ≠ 5) (entry cause refuse : Nat) : (s.stopTable entry cause refuse).cadence = { s.cadence with
    state := 5, cause := cause, errEntry := entry, refuse := refuse, wait := 0, running := s.cadence.running.map (fun r => { r with muted := true }) } := by
  unfold State.stopTable
  rw [if_neg (by simpa using h)]
  rfl

theorem imageLoaded_runs {s : State} {a : Nat} {bs : List Byte} (ha : s.cadence.loading = some a) (hst : s.cadence.state = 1) (hle : a + 8192 ≤ 2 ^ 57)
    (hbs : s.readVirt s.cadence.asid a 8192 = some bs) : exec .cadenceImageLoaded s = .next { s with cadence := { s.cadence with
      state := 2, wait := 0, entries := (List.range 256).map (fun i => BitVec.ofNat 256 (leNat ((bs.drop (32 * i)).take 32))), loading := none } } := by
  show execCadenceImageLoaded s = _
  unfold execCadenceImageLoaded
  rw [ha]
  dsimp only
  rw [if_neg (by simp [hst]), if_pos hle, hbs]

theorem imageLoaded_stops {s : State} {a : Nat} (ha : s.cadence.loading = some a) (hst : s.cadence.state = 1)
    (hbad : 2 ^ 57 < a + 8192 ∨ s.readVirt s.cadence.asid a 8192 = none) :
    exec .cadenceImageLoaded s = .next ({ s with cadence := { s.cadence with loading := none } }.stopTable 0 0x1A 0) := by
  have hnone : (if a + 8192 ≤ 2 ^ 57 then s.readVirt s.cadence.asid a 8192 else none) = none := by
    split
    next hle => exact hbad.resolve_left (Nat.not_lt.mpr hle)
    next => rfl
  show execCadenceImageLoaded s = _
  unfold execCadenceImageLoaded
  rw [ha]
  dsimp only
  rw [if_neg (by simp [hst]), hnone]

/-! ### The action of a cycle -/

/-- The engine's action of the cycle is taken. -/
def State.cdActed (s : State) : State := { s with cadence := { s.cadence with acted := true } }

theorem acting_of_start {k : Cadence} (hstart : k.start = 2) (hst : k.state = 2 ∨ k.state = 3) :
    (if k.start = 2 || k.start = 3 then k.acting else 0) = 2 := by
  unfold Cadence.acting
  obtain h | h := hst <;> simp [hstart, h]

theorem cycle_head {s : State} {ident : Word} (hacted : s.cadence.acted = false) (hstart : s.cadence.start = 2) (hst : s.cadence.state = 2 ∨ s.cadence.state = 3)
    (hgrid : s.cadence.grid = none) (hident : s.identFree ident = true) : exec (.cadenceCycle ident) s = .next (s.cdActed.cdHead ident) := by
  show execCadenceCycle ident s = _
  unfold execCadenceCycle State.cdActed
  dsimp only
  rw [if_neg (by simp [hacted]), acting_of_start hstart hst, hgrid]
  exact if_pos hident

theorem cycle_grid {s : State} (ident : Word) {b : Bool} (hacted : s.cadence.acted = false) (hstart : s.cadence.start = 2)
    (hst : s.cadence.state = 2 ∨ s.cadence.state = 3) (hgrid : s.cadence.grid = some b) :
    exec (.cadenceCycle ident) s = .next { s with cadence := s.cdActed.cadence.bubble (if b then 0 else 4) } := by
  show execCadenceCycle ident s = _
  unfold execCadenceCycle State.cdActed
  dsimp only
  rw [if_neg (by simp [hacted]), acting_of_start hstart hst, hgrid]
  rfl

theorem cycle_stopping {s : State} (ident : Word) (hacted : s.cadence.acted = false) (hstart : s.cadence.start = 3) (hst : s.cadence.state = 3)
    (hgrid : s.cadence.grid = none) : exec (.cadenceCycle ident) s = .next { s with cadence := { s.cadence with acted := true, state := 4, wait := 0 } } := by
  show execCadenceCycle ident s = _
  unfold execCadenceCycle Cadence.acting
  dsimp only
  rw [if_neg (by simp [hacted]), hgrid]
  simp [hstart, hst]

theorem cycle_idle {s : State} (ident : Word) (hacted : s.cadence.acted = false) (h2 : s.cadence.start ≠ 2) (h3 : s.cadence.start ≠ 3) :
    exec (.cadenceCycle ident) s = .next s.cdActed := by
  show execCadenceCycle ident s = _
  unfold execCadenceCycle
  dsimp only
  rw [if_neg (by simp [hacted]), if_neg (by simp [h2, h3])]
  rfl

theorem stop64_eq (n : Nat) : stop64 n = min n (2 ^ 64 - 1) := by
  unfold stop64
  split <;> omega

theorem cdGo_to (s : State) {head : Nat} (h : head ≤ 255) : s.cdGo head = { s with cadence := { s.cadence with head := head, wait := 0 } } := by
  unfold State.cdGo
  rw [if_neg (Nat.not_lt.mpr h)]

/-- The entry at the head. -/
def State.atHead (s : State) : CdEntry := cdEntry (s.cadence.entries.getD s.cadence.head 0#256)

section head
variable {s : State} {ident : Word} (hok : s.cadence.entryOk s.atHead = true)
include hok

theorem cdHead_end (hk : s.atHead.kind = 5) (hst : s.cadence.state ≠ 5) : s.cdHead ident = { s with cadence := { s.cadence with state := 4, wait := 0 } } := by
  unfold State.cdHead
  dsimp only
  rw [← State.atHead, if_neg (by simp [hok]), hk, if_neg hst]
  rfl

theorem cdHead_barrier (hk : s.atHead.kind = 3) : s.cdHead ident =
    if [1, 2].all (fun p => s.cadence.node p == 0xFFFF || s.cadence.free p == 8) then s.cdGo (s.cadence.head + 1) else { s with cadence := s.cadence.bubble 2 } := by
  unfold State.cdHead
  dsimp only
  rw [← State.atHead, if_neg (by simp [hok]), hk]
  rfl

theorem cdHead_loop (hk : s.atHead.kind = 4) (hown : s.cadence.loopLeft = 0 ∨ s.cadence.loopOwn = s.cadence.head) (left : Nat)
    (hleft : left = if s.cadence.loopLeft = 0 then max s.atHead.count 1 else s.cadence.loopLeft) : s.cdHead ident =
      { s with cadence := { s.cadence with loopLeft := left - 1, loopOwn := s.cadence.head } }.cdGo (if 1 < left then s.atHead.target else s.cadence.head + 1) := by
  unfold State.cdHead
  dsimp only
  rw [← State.atHead, if_neg (by simp [hok]), hk]
  show (if (s.cadence.loopLeft != 0 && s.cadence.loopOwn != s.cadence.head) = true then _ else _) = _
  rw [if_neg (by obtain h | h := hown <;> simp [h])]
  subst hleft
  exact congrArg _ (if_congr Nat.sub_pos_iff_lt rfl rfl)

theorem cdHead_compute (hk : s.atHead.kind ≤ 2) {buf : Option (Nat × CdBuf)}
    (hbuf : buf = if s.atHead.iport = 0 then none else s.cadence.arrival s.atHead.iport s.atHead.mb) : s.cdHead ident =
      if s.atHead.iport != 0 && buf.isNone then { s with cadence := s.cadence.bubble 1 }
      else if s.atHead.oport != 0 && s.cadence.free s.atHead.oport == 0 then { s with cadence := s.cadence.bubble 2 }
      else if s.atHead.stash = 1 && s.cadence.occ.getLsbD s.atHead.slot then { s with cadence := s.cadence.bubble 3 }
      else s.cdLaunch s.atHead buf ident := by
  subst hbuf
  unfold State.cdHead
  dsimp only
  rw [← State.atHead, if_neg (by simp [hok])]
  obtain h | h | h : s.atHead.kind = 0 ∨ s.atHead.kind = 1 ∨ s.atHead.kind = 2 := by omega
  all_goals
    rw [h]
    rfl

theorem cdHead_waits (hk : s.atHead.kind ≤ 2) (hport : s.atHead.iport ≠ 0) (hnone : s.cadence.arrival s.atHead.iport s.atHead.mb = none) :
    s.cdHead ident = { s with cadence := s.cadence.bubble 1 } := by
  rw [cdHead_compute hok hk (buf := none) (by rw [if_neg hport, hnone]), if_pos (by simp [hport])]

theorem cdHead_launch (hk : s.atHead.kind ≤ 2) {buf : Option (Nat × CdBuf)}
    (hbuf : buf = if s.atHead.iport = 0 then none else s.cadence.arrival s.atHead.iport s.atHead.mb) (hin : s.atHead.iport = 0 ∨ buf.isSome = true)
    (hout : s.atHead.oport = 0 ∨ s.cadence.free s.atHead.oport ≠ 0) (hstash : s.atHead.stash = 1 → s.cadence.occ.getLsbD s.atHead.slot = false) :
    s.cdHead ident = s.cdLaunch s.atHead buf ident := by
  have hin' : ¬(s.atHead.iport != 0 && buf.isNone) = true := by
    obtain h | h := hin
    · simp [h]
    · rw [Option.isNone_eq_false_iff.mpr h]
      simp
  have hout' : ¬(s.atHead.oport != 0 && s.cadence.free s.atHead.oport == 0) = true := by obtain h | h := hout <;> simp [h]
  rw [cdHead_compute hok hk hbuf, if_neg hin', if_neg hout', if_neg (by simpa using hstash)]

theorem entryOk_target (hk : s.atHead.kind = 4) : s.atHead.target ≤ s.cadence.head := by
  unfold Cadence.entryOk at hok
  rw [hk] at hok
  simp only [Bool.and_eq_true, decide_eq_true_eq] at hok
  exact hok.2.2

end head

theorem barrier_drained {k : Cadence} : [1, 2].all (fun p => k.node p == 0xFFFF || k.free p == 8) = true ↔ ∀ p ∈ [1, 2], k.node p = 0xFFFF ∨ k.free p = 8 := by
  simp only [List.all_eq_true, Bool.or_eq_true, beq_iff_eq]

/-! ### A compute entry -/

theorem memStore_dsm_only {s : State} {l : Loc} (hl : l.space = .dsm) (hbad : s.badWords = []) (bs : List Byte) :
    s.memStore l bs = { s with dsm := s.dsm.writeBytes l.addr bs } := by
  obtain ⟨sp, a⟩ := l
  subst hl
  exact if_pos (List.isEmpty_iff.mpr hbad)

/-- Data of a neighbour landed in DSM; where no word is bad, bytes there and superseded writes are all that changes. -/
theorem memWrite_dsm_only {s : State} {l : Loc} (hl : l.space = .dsm) (hbad : s.badWords = []) (bs : List Byte) :
    s.memWrite l bs = { s with dsm := s.dsm.writeBytes l.addr bs, hist := (s.memWrite l bs).hist } := by
  unfold State.memWrite
  rw [memStore_dsm_only hl hbad]
  dsimp only
  split <;> rfl

theorem memWrite_cdActed (s : State) (l : Loc) (bs : List Byte) : s.cdActed.memWrite l bs = (s.memWrite l bs).cdActed := by
  unfold State.memWrite State.memStore
  cases l.space <;> dsimp only [State.cdActed, State.modTeam] <;> split <;> split <;> rfl

theorem memRead_memWrite_dsm {s : State} (hok : s.memOk) {l : Loc} (hl : l.space = .dsm) (bs : List Byte) : (s.memWrite l bs).memRead l bs.length = bs := by
  unfold State.memRead
  rw [hl]
  show (s.memWrite l bs).dsm.readBytes l.addr bs.length = bs
  rw [memWrite_dsm s bs hl]
  exact Memory.readBytes_writeBytes _ _ _ hok.dsm

theorem memRead_memWrite_apart {s : State} (hok : s.memOk) {l l' : Loc} (hl : l.space = .dsm) (hl' : l'.space = .dsm) (bs : List Byte) {m : Nat}
    (h : overlaps l bs.length l' m = false) : (s.memWrite l bs).memRead l' m = s.memRead l' m := by
  unfold State.memRead
  rw [hl']
  show (s.memWrite l bs).dsm.readBytes l'.addr m = s.dsm.readBytes l'.addr m
  rw [memWrite_dsm s bs hl]
  unfold overlaps at h
  rw [hl, hl', beq_self_eq_true, Bool.true_and, decide_eq_false_iff_not] at h
  unfold Memory.readBytes
  refine List.map_congr_left fun i hi => Memory.read_writeBytes_other _ _ _ _ hok.dsm ?_
  have := List.mem_range.mp hi
  omega

/-- The engine's state as its grid starts (R296): the buffer held, the slot taken. -/
def Cadence.starting (k : Cadence) (e : CdEntry) (buf : Option Nat) (key : Nat) : Cadence := { k with
  bufs := match buf with
    | some i => updAt i (fun b => { b with held := true }) k.bufs
    | none => k.bufs
  occ := if e.stash = 1 then k.occ ||| bit64 e.slot else k.occ
  running := some { launch := key, entry := k.head, buf := buf, muted := false }
  head := k.head + 1
  wait := 0 }

theorem starting_occ (k : Cadence) (e : CdEntry) (buf : Option Nat) (key : Nat) {j : Nat} (hj : j < 64) :
    (k.starting e buf key).occ.getLsbD j = true ↔ k.occ.getLsbD j = true ∨ e.stash = 1 ∧ j = e.slot := by
  show (if e.stash = 1 then k.occ ||| bit64 e.slot else k.occ).getLsbD j = true ↔ _
  split
  next h => simp [bit64_getLsbD hj, h]
  next h => simp [h]

/-- A launch as its grid starts (R296). -/
def State.gridLaunch (s : State) (ident : Word) (e : CdEntry) (b : List Byte) (k : Kernel) : Launch :=
  s.madeLaunch ident 256 s.cadence.asid (BitVec.ofNat 64 (s.cadence.recBase + 256 * e.rec_)) false 0#32 (some (s.cadence.head, e.prio)) s.cadence.view b k

theorem distribute_grid {s : State} {e : CdEntry} {ident : Word} {b : List Byte} {k : Kernel} (hbad : s.badWords = [])
    (hr : s.readRecord s.cadence.asid (BitVec.ofNat 64 (s.cadence.recBase + 256 * e.rec_)).toNat = .ok (b, k))
    (hp : ∀ x ∈ s.rangePages s.cadence.asid (recordRanges b), x.2.2 = .good) (bufs : List CdBuf) (occ : DWord) :
    ({ s with cadence := { s.cadence with bufs := bufs, occ := occ } } : State).distribute ident 256 s.cadence.asid
      (BitVec.ofNat 64 (s.cadence.recBase + 256 * e.rec_)) false 0#32 (some (s.cadence.head, e.prio)) s.cadence.view =
      { s.bumpId with cadence := { s.cadence with bufs := bufs, occ := occ }, launches := s.launches ++ [s.gridLaunch ident e b k] } := by
  have htab : s.SameTables ({ s with cadence := { s.cadence with bufs := bufs, occ := occ } } : State) := ⟨rfl, rfl, rfl, rfl⟩
  refine (distribute_ok (s := { s with cadence := { s.cadence with bufs := bufs, occ := occ } }) hbad ((htab.readRecord _ _).trans hr) ?_).trans rfl
  rw [htab.rangePages]
  exact hp

theorem cdLaunch_go {s : State} {e : CdEntry} {ident : Word} {b : List Byte} {k : Kernel} (buf : Option (Nat × CdBuf)) (hbad : s.badWords = [])
    (hst : s.cadence.state ≠ 5) (hhead : s.cadence.head < 255)
    (hr : s.readRecord s.cadence.asid (BitVec.ofNat 64 (s.cadence.recBase + 256 * e.rec_)).toNat = .ok (b, k))
    (hp : ∀ x ∈ s.rangePages s.cadence.asid (recordRanges b), x.2.2 = .good) :
    State.cdLaunch.go e buf ident s s.cadence.head = { s.bumpId with
      cadence := s.cadence.starting e (buf.map (·.1)) s.nextId
      launches := s.launches ++ [s.gridLaunch ident e b k] } := by
  have hmuted : (s.cadence.state == 5) = false := by simpa using hst
  have hkey : (s.launches ++ [s.gridLaunch ident e b k]).any (fun l => l.key == s.nextId) = true := by simp [State.gridLaunch, State.madeLaunch]
  cases buf with
  | none =>
    unfold State.cdLaunch.go
    dsimp only
    rw [distribute_grid hbad hr hp, if_pos hkey, cdGo_to _ (Nat.succ_le_of_lt hhead)]
    dsimp only
    rw [hmuted]
    rfl
  | some x =>
    unfold State.cdLaunch.go
    dsimp only
    rw [distribute_grid hbad hr hp, if_pos hkey, cdGo_to _ (Nat.succ_le_of_lt hhead)]
    dsimp only
    rw [hmuted]
    rfl

/-! ### The end of a grid, an arrival and a grant -/

theorem dropDone_unbound {s : State} (h : s.cadence.running = none) : s.dropDone = { s with launches := s.launches.filter (fun l => l.phase != .done) } := by
  unfold State.dropDone State.isRunningGrid
  rw [h]
  simp

/-- What the grids of the table have ordered, with the one that ends. -/
def State.cdView (s : State) (r : CdRun) : View := joinViews s.cadence.view (match s.launch? r.launch with
  | some l => joinViews l.view l.ended
  | none => [])

theorem completion_muted {s : State} {r : CdRun} (hr : s.cadence.running = some r) (hdone : s.gridDone = true) (hdue : s.cadence.due = true)
    (hm : r.muted = true) : exec .cadenceGridCompletion s = .next { s with
      cadence := { s.cadence with running := none, view := s.cdView r }
      launches := s.launches.filter (fun l => l.phase != .done) } := by
  have hstep : s.gridStep = true := by
    unfold State.gridStep CdRun.sends
    rw [hr]
    simp [hdone, hm]
  show execCadenceGridCompletion s = _
  unfold execCadenceGridCompletion
  rw [hr]
  dsimp only
  rw [if_neg (by simp [hstep, hdue])]
  unfold State.cdComplete
  dsimp only
  rw [if_pos hm, dropDone_unbound rfl]
  rfl

/-- What the end of a grid sends (R297): the send of its entry and the grant for its buffer, as transfers with these fields. -/
def State.gridSends (s : State) (r : CdRun) (e : CdEntry) : List (Nat × Nat × Nat × Nat × XferWhat) :=
  (if e.oport = 0 then [] else [(s.cadence.node e.oport, 255, e.len, 0, .cadenceSend (e.oport == 2) e.mb (s.memRead ⟨.dsm, e.outSrc⟩ e.len))]) ++
    (if r.buf = none then [] else [(s.cadence.node e.iport, 255, 16, 0, .cadenceGrant (e.iport == 2))])

def Transfer.sent (x : Transfer) : Nat × Nat × Nat × Nat × XferWhat := (x.node, x.prio, x.len, x.sentBytes, x.what)

/-- The engine's state as a grid that the table has not left in ERROR ends (R297). -/
def Cadence.ended (k : Cadence) (r : CdRun) (e : CdEntry) (view : View) : Cadence :=
  { k with
    freeUp := if e.oport = 0 then k.freeUp else (k.setFree e.oport (k.free e.oport - 1)).freeUp
    freeDown := if e.oport = 0 then k.freeDown else (k.setFree e.oport (k.free e.oport - 1)).freeDown
    running := none
    view := view
    bufs := match r.buf with
      | none => k.bufs
      | some i => updAt i (fun _ => .empty) k.bufs
    occ := if e.stash = 3 then k.occ &&& ~~~(bit64 e.slot) else k.occ
    state := if k.state = 3 then 4 else k.state }

/-- One grant less for a port, beside the fields that the end of a grid sets. -/
theorem setFree_unbound (k : Cadence) (view : View) (port : Nat) :
    ({ k with running := none, view := view } : Cadence).setFree port (({ k with running := none, view := view } : Cadence).free port - 1) =
      { k with
        running := none
        view := view
        freeUp := (k.setFree port (k.free port - 1)).freeUp
        freeDown := (k.setFree port (k.free port - 1)).freeDown } := by
  unfold Cadence.setFree
  split <;> rfl

theorem free_setFree (k : Cadence) (port n : Nat) : (k.setFree port n).free port = n := by
  unfold Cadence.setFree Cadence.free
  split <;> rfl

/-- The transfers that the end of a grid enqueues, by their identifier. -/
def State.gridSend (s : State) (r : CdRun) (e : CdEntry) : Transfer :=
  { id := s.nextId, node := s.cadence.node e.oport, prio := 255, len := e.len, sentBytes := 0,
    what := .cadenceSend (e.oport == 2) e.mb (s.memRead ⟨.dsm, e.outSrc⟩ e.len), op := none, cmd := none, entry := r.entry }

def State.gridGrant (s : State) (r : CdRun) (e : CdEntry) (id : Nat) : Transfer :=
  { id := id, node := s.cadence.node e.iport, prio := 255, len := 16, sentBytes := 0,
    what := .cadenceGrant (e.iport == 2), op := none, cmd := none, entry := r.entry }

theorem completion_sends {s : State} {r : CdRun} {e : CdEntry} (hr : s.cadence.running = some r) (hdone : s.gridDone = true) (hdue : s.cadence.due = true)
    (hm : r.muted = false) (he : e = cdEntry (s.cadence.entries.getD r.entry 0#256)) (hroom : r.sends e = 0 ∨ s.fabricRoom (r.sends e) = true)
    (hdie : e.oport = 0 ∨ inOneDie e.outSrc e.len = true) : ∃ new next, exec .cadenceGridCompletion s = .next { s with
      cadence := s.cadence.ended r e (s.cdView r)
      fabric := s.fabric ++ new
      launches := s.launches.filter (fun l => l.phase != .done)
      nextId := next } ∧ new.map Transfer.sent = s.gridSends r e := by
  have hstep : s.gridStep = true := by
    unfold State.gridStep
    rw [hr]
    dsimp only
    rw [hdone, ← he]
    obtain h | h := hroom <;> simp [h]
  have hexec : exec .cadenceGridCompletion s = .next (s.cdComplete r e).dropDone := by
    show execCadenceGridCompletion s = _
    unfold execCadenceGridCompletion
    rw [hr]
    dsimp only
    rw [if_neg (by simp [hstep, hdue]), he]
  have hin : ¬(e.oport != 0 && !inOneDie e.outSrc e.len) = true := by obtain h | h := hdie <;> simp [h]
  rw [hexec]
  unfold State.cdComplete
  dsimp only
  rw [if_neg (by simp [hm]), if_neg hin]
  unfold Cadence.ended State.gridSends
  dsimp only [State.enqueue, State.bumpId]
  by_cases ho : e.oport = 0
  · simp only [ho, if_true]
    cases hb : r.buf with
    | none =>
      refine ⟨[], s.nextId, ?_, rfl⟩
      rw [dropDone_unbound rfl, List.append_nil]
      rfl
    | some i =>
      refine ⟨[s.gridGrant r e s.nextId], s.nextId + 1, ?_, rfl⟩
      rw [dropDone_unbound rfl]
      rfl
  · simp only [ho, if_false]
    rw [setFree_unbound]
    dsimp only
    cases hb : r.buf with
    | none =>
      refine ⟨[s.gridSend r e], s.nextId + 1, ?_, rfl⟩
      dsimp only
      rw [dropDone_unbound rfl]
      rfl
    | some i =>
      refine ⟨[s.gridSend r e, s.gridGrant r e (s.nextId + 1)], s.nextId + 2, ?_, rfl⟩
      dsimp only
      rw [dropDone_unbound rfl, ← List.append_cons]
      dsimp only
      rfl

theorem ended_bufs (k : Cadence) (r : CdRun) (e : CdEntry) (view : View) (j : Nat) :
    (k.ended r e view).bufs[j]? = if r.buf = some j then (k.bufs[j]?).map (fun _ => .empty) else k.bufs[j]? := by
  show (match r.buf with
    | none => k.bufs
    | some i => updAt i (fun _ => .empty) k.bufs)[j]? = _
  cases r.buf with
  | none => rfl
  | some i =>
    dsimp only
    rw [getElem?_updAt]
    exact if_congr ⟨fun h => by rw [h], fun h => (Option.some.inj h).symm⟩ rfl rfl

theorem ended_occ (k : Cadence) (r : CdRun) (e : CdEntry) (view : View) {j : Nat} (hj : j < 64) :
    (k.ended r e view).occ.getLsbD j = true ↔ k.occ.getLsbD j = true ∧ ¬(e.stash = 3 ∧ j = e.slot) := by
  show (if e.stash = 3 then k.occ &&& ~~~(bit64 e.slot) else k.occ).getLsbD j = true ↔ _
  split
  next h =>
    rw [BitVec.getLsbD_and, BitVec.getLsbD_not, bit64_getLsbD hj]
    simp [h, hj]
  next h => simp [h]

theorem ended_free (k : Cadence) (r : CdRun) (e : CdEntry) (view : View) (h : e.oport ≠ 0) :
    (k.ended r e view).free e.oport = k.free e.oport - 1 := by
  rw [← free_setFree k e.oport (k.free e.oport - 1)]
  unfold Cadence.ended Cadence.free
  rw [if_neg h, if_neg h]

theorem updAt_const {α : Type} (i : Nat) (x : α) (l : List α) : updAt i (fun _ => x) l = l.set i x := by
  refine List.ext_getElem? fun j => ?_
  rw [getElem?_updAt, List.getElem?_set]
  by_cases hj : j = i
  · subst hj
    by_cases hl : j < l.length <;> simp [hl]
  · rw [if_neg hj, if_neg (Ne.symm hj)]

theorem arrival_fills {s : State} {down : Bool} {mb : Nat} {data : List Byte} (hmin : s.power.minimal = false) (hdue : s.cadence.due = true)
    (hlen : data.length ≤ 65536)
    (hfree : ∃ i, i < 8 ∧ (s.cadence.bufs.getD ((if down then 8 else 0) + i) .empty).full = false) :
    ∃ i, i < 8 ∧ (s.cadence.bufs.getD ((if down then 8 else 0) + i) .empty).full = false ∧
      (∀ j, j < i → (s.cadence.bufs.getD ((if down then 8 else 0) + j) .empty).full = true) ∧
      exec (.cadenceArrival down mb data) s = .next { s.bumpId with cadence := { s.cadence with
        bufs := s.cadence.bufs.set ((if down then 8 else 0) + i) { full := true, held := false, mb := mb % 256, data := data, stamp := s.nextId } } } := by
  have hsome : ((List.range 8).find? fun i => !(s.cadence.bufs.getD ((if down then 8 else 0) + i) .empty).full).isSome = true := by
    rw [List.find?_isSome]
    obtain ⟨i, hi, hempty⟩ := hfree
    exact ⟨i, List.mem_range.mpr hi, by rw [hempty]; rfl⟩
  obtain ⟨i, hi⟩ := Option.isSome_iff_exists.mp hsome
  obtain ⟨hempty, hlt, hbelow⟩ := List.find?_range_eq_some.mp hi
  refine ⟨i, List.mem_range.mp hlt, by simpa using hempty, fun j hj => by simpa using hbelow j hj, ?_⟩
  show execCadenceArrival down mb data s = _
  unfold execCadenceArrival
  dsimp only
  rw [hi]
  dsimp only
  rw [if_neg (by simp [hdue, hmin, hlen]), updAt_const]

theorem grant_raises {s : State} (hmin : s.power.minimal = false) (hdue : s.cadence.due = true) (down : Bool) : exec (.cadenceGrant down) s =
    .next { s with cadence := s.cadence.setFree (if down then 2 else 1) (min 8 (s.cadence.free (if down then 2 else 1) + 1)) } := by
  show execCadenceGrant down s = _
  unfold execCadenceGrant
  dsimp only
  rw [if_pos (by simp [hdue, hmin])]

/-! ### The obligation -/

/-- The engine's action on a head entry that is in range, as O15 supposes it. -/
structure HeadActs (s : State) (ident : Word) (e : CdEntry) : Prop where
  acted : s.cadence.acted = false
  start : s.cadence.start = 2
  state : s.cadence.state = 2 ∨ s.cadence.state = 3
  grid : s.cadence.grid = none
  ident : s.identFree ident = true
  bad : s.badWords = []
  entry : e = s.cdActed.atHead
  ok : s.cdActed.cadence.entryOk s.cdActed.atHead = true
  head : s.cadence.head < 255

namespace HeadActs
variable {s : State} {ident : Word} {e : CdEntry} (h : HeadActs s ident e)
include h

theorem exec_eq : exec (.cadenceCycle ident) s = .next (s.cdActed.cdHead ident) := cycle_head h.acted h.start h.state h.grid h.ident

theorem state_ne : s.cdActed.cadence.state ≠ 5 := by
  show s.cadence.state ≠ 5
  obtain hs | hs := h.state <;> rw [hs] <;> decide

theorem ends (hk : e.kind = 5) : exec (.cadenceCycle ident) s = .next { s with cadence := { s.cadence with acted := true, state := 4, wait := 0 } } := by
  rw [h.exec_eq, cdHead_end h.ok (h.entry ▸ hk) h.state_ne]
  rfl

theorem passes (hk : e.kind = 3) (hd : ∀ p ∈ [1, 2], s.cadence.node p = 0xFFFF ∨ s.cadence.free p = 8) :
    exec (.cadenceCycle ident) s = .next { s with cadence := { s.cadence with acted := true, head := s.cadence.head + 1, wait := 0 } } := by
  rw [h.exec_eq, cdHead_barrier h.ok (h.entry ▸ hk), if_pos ((barrier_drained (k := s.cdActed.cadence)).mpr hd), cdGo_to (head := s.cdActed.cadence.head + 1) _ (Nat.le_of_lt_succ (Nat.succ_lt_succ h.head))]
  rfl

theorem drains (hk : e.kind = 3) (hd : ∃ p ∈ [1, 2], s.cadence.node p ≠ 0xFFFF ∧ s.cadence.free p ≠ 8) : exec (.cadenceCycle ident) s =
    .next { s with cadence := { s.cadence with acted := true, wait := if s.cadence.state = 2 then 2 else 0, bubd := min (s.cadence.bubd + 1) (2 ^ 64 - 1) } } := by
  obtain ⟨p, hp, hnode, hfree⟩ := hd
  rw [h.exec_eq, cdHead_barrier h.ok (h.entry ▸ hk), if_neg fun hall => ((barrier_drained (k := s.cdActed.cadence)).mp hall p hp).elim hnode hfree, ← stop64_eq]
  rfl

theorem loops (hk : e.kind = 4) (hown : s.cadence.loopLeft = 0 ∨ s.cadence.loopOwn = s.cadence.head) (left : Nat)
    (hleft : left = if s.cadence.loopLeft = 0 then max e.count 1 else s.cadence.loopLeft) : exec (.cadenceCycle ident) s =
      .next { s with cadence := { s.cadence with acted := true, loopLeft := left - 1, loopOwn := s.cadence.head, wait := 0, head := if 1 < left then e.target else s.cadence.head + 1 } } := by
  have htarget := entryOk_target h.ok (h.entry ▸ hk)
  rw [h.exec_eq, cdHead_loop h.ok (h.entry ▸ hk) hown left (h.entry ▸ hleft), cdGo_to, h.entry]
  · rfl
  · have := h.head
    have : s.cdActed.cadence.head = s.cadence.head := rfl
    split <;> omega

theorem waits (hk : e.kind ≤ 2) (hport : e.iport ≠ 0) (hnone : s.cadence.arrival e.iport e.mb = none) : exec (.cadenceCycle ident) s =
    .next { s with cadence := { s.cadence with acted := true, wait := if s.cadence.state = 2 then 1 else 0, bubu := min (s.cadence.bubu + 1) (2 ^ 64 - 1) } } := by
  obtain rfl := h.entry
  rw [h.exec_eq, cdHead_waits h.ok hk hport hnone, ← stop64_eq]
  rfl

/-- A compute entry that waits for nothing. -/
theorem launches (hk : e.kind ≤ 2) {buf : Option (Nat × CdBuf)} (hbuf : buf = if e.iport = 0 then none else s.cadence.arrival e.iport e.mb)
    (hin : e.iport = 0 ∨ buf.isSome = true) (hout : e.oport = 0 ∨ s.cadence.free e.oport ≠ 0)
    (hstash : e.stash = 1 → s.cadence.occ.getLsbD e.slot = false) : exec (.cadenceCycle ident) s = .next (s.cdActed.cdLaunch e buf ident) := by
  obtain rfl := h.entry
  rw [h.exec_eq, cdHead_launch h.ok hk hbuf hin hout hstash]

theorem launches_nothing (hk : e.kind ≤ 2) (hport : e.iport = 0) (hout : e.oport = 0 ∨ s.cadence.free e.oport ≠ 0)
    (hstash : e.stash = 1 → s.cadence.occ.getLsbD e.slot = false) {b : List Byte} {k : Kernel}
    (hr : s.readRecord s.cadence.asid (BitVec.ofNat 64 (s.cadence.recBase + 256 * e.rec_)).toNat = .ok (b, k))
    (hp : ∀ x ∈ s.rangePages s.cadence.asid (recordRanges b), x.2.2 = .good) : exec (.cadenceCycle ident) s = .next { s.cdActed.bumpId with
      cadence := s.cdActed.cadence.starting e none s.nextId
      launches := s.launches ++ [s.gridLaunch ident e b k] } := by
  have htab : s.SameTables s.cdActed := ⟨rfl, rfl, rfl, rfl⟩
  rw [h.launches hk (buf := none) (by rw [if_pos hport]) (.inl hport) hout hstash]
  exact congrArg Host.Outcome.next (cdLaunch_go (s := s.cdActed) none h.bad h.state_ne h.head ((htab.readRecord _ _).trans hr) (by rw [htab.rangePages]; exact hp))

theorem launches_arrival (hk : e.kind ≤ 2) (hport : e.iport ≠ 0) {i : Nat} {y : CdBuf} (harr : s.cadence.arrival e.iport e.mb = some (i, y))
    (hdie : inOneDie e.inDst y.data.length = true) (hout : e.oport = 0 ∨ s.cadence.free e.oport ≠ 0)
    (hstash : e.stash = 1 → s.cadence.occ.getLsbD e.slot = false) {b : List Byte} {k : Kernel}
    (hr : s.readRecord s.cadence.asid (BitVec.ofNat 64 (s.cadence.recBase + 256 * e.rec_)).toNat = .ok (b, k))
    (hp : ∀ x ∈ s.rangePages s.cadence.asid (recordRanges b), x.2.2 = .good) : exec (.cadenceCycle ident) s = .next { s.cdActed.bumpId with
      dsm := s.dsm.writeBytes e.inDst y.data
      hist := (s.memWrite ⟨.dsm, e.inDst⟩ y.data).hist
      cadence := s.cdActed.cadence.starting e (some i) s.nextId
      launches := s.launches ++ [s.gridLaunch ident e b k] } := by
  rw [h.launches hk (buf := some (i, y)) (by rw [if_neg hport, harr]) (.inr rfl) hout hstash]
  unfold State.cdLaunch
  dsimp only
  rw [if_neg (by simp [hdie]), memWrite_cdActed, memWrite_dsm_only (l := ⟨.dsm, e.inDst⟩) rfl h.bad]
  generalize (s.memWrite ⟨.dsm, e.inDst⟩ y.data).hist = hist
  have htab : s.SameTables ({ s with dsm := s.dsm.writeBytes e.inDst y.data, hist := hist } : State).cdActed := ⟨rfl, rfl, rfl, rfl⟩
  have hgo := cdLaunch_go (s := ({ s with dsm := s.dsm.writeBytes e.inDst y.data, hist := hist } : State).cdActed) (ident := ident) (some (i, y)) h.bad h.state_ne h.head
    ((htab.readRecord _ _).trans hr) (by rw [htab.rangePages]; exact hp)
  exact congrArg Host.Outcome.next hgo

end HeadActs

/-- Settles O15: each event of the engine by the equation of its case. -/
theorem cadenceEvents : Obligations.CadenceEvents := by
  unfold Obligations.CadenceEvents
  refine ⟨fun s a bs ha hst hle hbs => ?_, fun s a ha hst hbad => ?_, fun s ident e hacted hstart hst hgrid hident hbad he hok hhead => ?_,
    fun s ident b hacted hstart hst hgrid => ?_, fun s ident hacted hstart hst hgrid => ⟨_, cycle_stopping ident hacted hstart hst hgrid, rfl⟩,
    fun s ident hacted h2 h3 => ⟨_, cycle_idle ident hacted h2 h3, rfl⟩, fun s r e hr hdone hdue hm he hroom hdie => ?_, fun s r hr hdone hdue hm => ?_,
    fun s down mb data hmin hdue hlen _ hfree => ?_, fun s hmin hdue => ⟨⟨_, grant_raises hmin hdue true, rfl⟩, ⟨_, grant_raises hmin hdue false, rfl⟩⟩⟩
  · refine ⟨_, imageLoaded_runs ha hst hle hbs, rfl, by simp, fun i hi => ?_⟩
    simp [hi]
  · exact ⟨_, imageLoaded_stops ha hst hbad, stopTable_cadence (by simp [hst]) _ _ _⟩
  · have h : HeadActs s ident e := ⟨hacted, hstart, hst, hgrid, hident, hbad, he, (congrArg _ he.symm).trans hok, hhead⟩
    refine ⟨fun hk => ⟨_, h.ends hk, rfl⟩, fun hk hd => ⟨_, h.passes hk hd, rfl⟩, fun hk hd => ⟨_, h.drains hk hd, rfl⟩, fun hk hz => ⟨_, h.loops hk (.inl hz) _ rfl, ?_⟩,
      fun hk hz hown => ⟨_, h.loops hk (.inr hown) _ rfl, ?_⟩, fun hk hport hnone => ⟨_, h.waits hk hport hnone, rfl⟩,
      fun b k hk hport hout hstash hr hp => ?_, fun i y b k hmem hk hport harr hdie hout hstash hr hp => ?_⟩
    · have hmax : (1 < max e.count 1) = (1 < e.count) := propext (by omega)
      simp only [hz, if_true, hmax]
    · simp only [hz, if_false, hown]
    · refine ⟨_, _, h.launches_nothing hk hport hout hstash hr hp, rfl, rfl, rfl, rfl, rfl, Bool.and_false _, rfl, rfl, rfl, rfl, fun j hj => ?_⟩
      exact starting_occ s.cdActed.cadence e none s.nextId hj
    · have hdsm := memWrite_dsm s (l := ⟨.dsm, e.inDst⟩) y.data rfl
      have hread : ∀ (t : State), t.dsm = s.dsm.writeBytes e.inDst y.data → ∀ l m, l.space = .dsm →
          t.memRead l m = (s.memWrite ⟨.dsm, e.inDst⟩ y.data).memRead l m := fun t ht l m hl => by
        unfold State.memRead
        rw [hl]
        exact congrArg (Memory.readBytes · l.addr m) (ht.trans hdsm.symm)
      refine ⟨_, s.gridLaunch ident e b k, h.launches_arrival hk hport harr hdie hout hstash hr hp, rfl, ?_, fun l' m hl' hov => ?_, rfl, rfl, rfl, rfl, rfl, rfl, ?_, fun j hj => ?_⟩
      · rw [hread _ rfl _ _ rfl, memRead_memWrite_dsm hmem rfl]
      · rw [hread _ rfl _ _ hl', memRead_memWrite_apart hmem rfl hl' _ hov]
      · exact (getElem?_updAt i i _ s.cadence.bufs).trans (if_pos rfl)
      · exact (getElem?_updAt i j _ s.cadence.bufs).trans (if_neg hj)
  · refine ⟨_, cycle_grid ident hacted hstart hst hgrid, fun hb => ?_, fun hb => ?_⟩
    · rw [hb, ← stop64_eq]
      rfl
    · rw [hb]
      unfold Cadence.bubble
      simp only [if_true, ite_self]
      rfl
  · obtain ⟨new, next, hexec, hnew⟩ := completion_sends hr hdone hdue hm he hroom hdie
    refine ⟨_, new, hexec, rfl, rfl, rfl, rfl, hnew, fun ho => ?_, ended_free s.cadence r e (s.cdView r), ended_bufs s.cadence r e (s.cdView r),
      fun j hj => ended_occ s.cadence r e (s.cdView r) hj⟩
    exact ⟨if_pos ho, if_pos ho⟩
  · exact ⟨_, completion_muted hr hdone hdue hm, rfl, rfl⟩
  · obtain ⟨i, hi, hempty, hbelow, hexec⟩ := arrival_fills (mb := mb) hmin hdue hlen hfree
    exact ⟨_, i, hexec, rfl, hi, hempty, hbelow, rfl⟩

end Sys2Proof.Machine
end

section
/-! Refutation of `Obligations.FaultAndErrorEvents`: a save pool that begins within a word (R247, R347). -/

namespace Sys2Proof.Machine

/-! ### The bad words that a save leaves -/

/-- A bad word that begins below a write stays bad. -/
theorem memWrite_badBelow {s : State} {l w : Loc} (bs : List Byte) (hw : w ∈ s.badWords) (hlt : w.addr < l.addr) : w ∈ (s.memWrite l bs).badWords := by
  have hstore : w ∈ (s.memStore l bs).badWords := by
    have hsame : ∀ t : State, t.badWords = s.badWords → w ∈ (if t.badWords.isEmpty then t else { t with badWords := t.badWords.filter (fun w =>
        !(w.space == l.space && decide (l.addr ≤ w.addr ∧ w.addr + 4 ≤ l.addr + bs.length))) }).badWords := by
      intro t ht
      split
      · rwa [ht]
      · refine List.mem_filter.mpr ⟨ht ▸ hw, ?_⟩
        rw [decide_eq_false fun h => Nat.not_le.mpr hlt h.1, Bool.and_false]
        rfl
    unfold State.memStore
    exact hsame _ (by cases l.space <;> rfl)
  unfold State.memWrite
  dsimp only
  split
  · exact hstore
  · exact hstore

theorem performCore_noStores {s : State} (h : ∀ u ∈ s.threads, u.stores = []) (p : Thread → Bool) (before : Nat) : s.performCore p before = s := by
  have hids : (s.threads.filter p).flatMap (fun t => (t.stores.filter (fun e => decide (e.id < before))).map (fun e => (t.team, t.tid, e.id))) = [] := by
    rw [List.flatMap_eq_nil_iff]
    intro u hu
    rw [h u (List.mem_of_mem_filter hu)]
    rfl
  unfold State.performCore
  rw [hids]
  rfl

theorem saveTeam_badWords {s : State} (h : ∀ u ∈ s.threads, u.stores = []) (x : Team) (core slot : Nat) :
    (s.saveTeam x core slot).badWords = (s.writeSlot slot).badWords := by
  unfold State.saveTeam
  rw [performCore_noStores h]
  dsimp only
  split <;> rfl

theorem slotIntact_bad {t : State} {x : Team} {slot : Nat} {w : Loc} (hp : x.place = .saved slot) (hw : w ∈ t.badWords)
    (ho : overlaps w 4 ⟨.main, t.hostCtl.saveBase + slot * Config.saveSlot⟩ Config.saveSlot = true) : t.slotIntact x = false := by
  have hbad : t.badIn ⟨.main, t.hostCtl.saveBase + slot * Config.saveSlot⟩ Config.saveSlot = true := by
    unfold State.badIn State.badAt
    rw [List.find?_isSome]
    exact ⟨w, hw, ho⟩
  unfold State.slotIntact
  rw [hp]
  dsimp only
  rw [hbad, Bool.not_true, Bool.and_false]

namespace Staged

/-- The team of thread 0 is asked to be saved, with the thread at a clause boundary; the save pool begins within a bad word of main memory. -/
def stSave : State := { stage with
  hostCtl := { stage.hostCtl with saveBase := 2, saveLen := Config.saveSlot }
  badWords := [⟨.main, 0⟩]
  teams := stage.teams.map (fun x => { x with saveReq := true })
  threads := stage.threads.map (fun u => { u with status := .ready, clause := none }) }

theorem stSave_memOk : stSave.memOk := ⟨by decide +kernel, by decide +kernel, by decide +kernel, by decide +kernel, by decide +kernel⟩

theorem stSave_team : (stSave.team? 1).isSome = true := by decide +kernel
theorem stSave_core : (stSave.core? 0).isSome = true := by decide +kernel

def saveTeam1 : Team := (stSave.team? 1).get stSave_team
def saveCore0 : Core := (stSave.core? 0).get stSave_core

theorem teamSave_saves : exec (.teamSave 1) stSave = .next (stSave.saveTeam saveTeam1 0 0) := by
  show execTeamSave 1 stSave = _
  unfold execTeamSave
  rw [if_neg (by decide +kernel), show stSave.team? 1 = some saveTeam1 from (Option.some_get _).symm]
  dsimp only
  rw [show saveTeam1.core? = some 0 by decide +kernel, show lowestFree stSave.slotsHeld stSave.saveSlots = some 0 by decide +kernel]
  dsimp only
  rw [if_pos (by decide +kernel)]

/-- Refutes O13: where the save pool begins within a word of main memory that is bad, TEAM_SAVE rewrites a part of that word only. The word
stays bad, and the slot is not intact. -/
theorem not_faultAndErrorEvents : ¬Obligations.FaultAndErrorEvents := by
  unfold Obligations.FaultAndErrorEvents
  rintro ⟨-, -, -, -, -, -, -, -, -, -, -, -, hsave, -⟩
  have hstores : ∀ u ∈ stSave.threads, u.stores = [] := by decide +kernel
  obtain ⟨t, x, k, ht, hst, -, -, hintact, hx, -⟩ := hsave stSave 1 saveTeam1 0 0 saveCore0 stSave_memOk (by decide +kernel) (Option.some_get _).symm
    (by decide +kernel) (Option.some_get _).symm (by decide +kernel) (by decide +kernel) (fun u hu _ e he => by rw [hstores u hu] at he; nomatch he)
  have hbase : t.hostCtl.saveBase = 2 := by rw [hst]; rfl
  have hbad : (⟨.main, 0⟩ : Loc) ∈ t.badWords := by
    obtain rfl : stSave.saveTeam saveTeam1 0 0 = t := by
      rw [teamSave_saves] at ht
      injection ht
    rw [saveTeam_badWords hstores]
    exact memWrite_badBelow (l := ⟨.main, stSave.hostCtl.saveBase + 0 * Config.saveSlot⟩) _ (List.mem_singleton_self _) (by decide +kernel)
  have hbroken := slotIntact_bad (x := x) (slot := 0) (by rw [hx]) hbad (by rw [hbase]; decide +kernel)
  rw [hintact] at hbroken
  exact absurd hbroken (by decide)

end Staged
end Sys2Proof.Machine
end

section
/-! What the operations of the machine leave of the mailbox (R280, R376, R377): the slots, HEAD and RSPBASE stand as they did, and no record enters
the fault queue (`State.BoxKept`), through traps, kills, cancelled records, settling, the Huddle's rounds and every write of a table. -/

namespace Sys2Proof.Machine

/-- From `s` to `t` the mailbox's slots, HEAD and RSPBASE are as before, and the fault queue has gained no record. -/
structure State.BoxKept (s t : State) : Prop where
  head : t.mailbox.head = s.mailbox.head
  slots : t.mailbox.slots = s.mailbox.slots
  rspBase : t.mailbox.rspBase = s.mailbox.rspBase
  faults : ∀ f ∈ t.faults, f ∈ s.faults

namespace State.BoxKept

theorem refl (s : State) : s.BoxKept s := ⟨rfl, rfl, rfl, fun _ h => h⟩

theorem trans {s t u : State} (h : s.BoxKept t) (k : t.BoxKept u) : s.BoxKept u :=
  ⟨k.head.trans h.head, k.slots.trans h.slots, k.rspBase.trans h.rspBase, fun f hf => h.faults f (k.faults f hf)⟩

/-- An operation after an update that leaves the mailbox and the records as they are. -/
theorem after {s t u : State} (k : t.BoxKept u) (hm : t.mailbox = s.mailbox) (hf : t.faults = s.faults) : s.BoxKept u :=
  ⟨by rw [k.head, hm], by rw [k.slots, hm], by rw [k.rspBase, hm], fun f h => hf ▸ k.faults f h⟩

theorem same {s t : State} (hm : t.mailbox = s.mailbox) (hf : t.faults = s.faults) : s.BoxKept t := (refl t).after hm hf

theorem foldl {α : Type} {f : State → α → State} (hf : ∀ (s : State) a, s.BoxKept (f s a)) (l : List α) (s : State) : s.BoxKept (l.foldl f s) := by
  induction l generalizing s with
  | nil => exact refl s
  | cons a r ih => exact (hf s a).trans (ih (f s a))

theorem of_calm {s t : State} (h : s.Calm t) : s.BoxKept t := by
  rw [h.state]
  exact same rfl rfl

theorem postEvent (s : State) (ty : Nat) (d : List Byte) : s.BoxKept (s.postEvent ty d) := ⟨rfl, rfl, rfl, fun _ h => h⟩

theorem modThreads (s : State) (team : Nat) (l : List Nat) (f : Thread → Thread) : s.BoxKept (s.modThreads team l f) := same rfl rfl

theorem mapThreads (s : State) (p : Thread → Bool) (f : Thread → Thread) : s.BoxKept (s.mapThreads p f) := same rfl rfl

theorem unseat (s : State) (team : Nat) (tids : List Nat) : s.BoxKept (s.unseat team tids) := same rfl rfl

theorem modTeam (s : State) (team : Nat) (f : Team → Team) : s.BoxKept (s.modTeam team f) := same rfl rfl

/-! ### Operations that end -/

theorem completePhase (s : State) (team b : Nat) : s.BoxKept (s.completePhase team b) := by
  unfold State.completePhase
  split
  · exact refl s
  · exact same rfl rfl

theorem arriveBar (s : State) (team b n : Nat) : s.BoxKept (s.arriveBar team b n) := by
  unfold State.arriveBar
  split
  · exact refl s
  · split
    · exact refl s
    · dsimp only
      split
      · exact (completePhase _ team b).after rfl rfl
      · exact same rfl rfl

theorem arriveOp (s : State) (team : Nat) (bar : Option Nat) (arrives : Bool) (v : View) : s.BoxKept (s.arriveOp team bar arrives v) := by
  unfold State.arriveOp
  split
  · split
    · exact (arriveBar _ team _ 1).after rfl rfl
    · exact refl s
  · exact refl s

theorem gridEnded (s : State) (team : Nat) (v : View) : s.BoxKept (s.gridEnded team v) := by
  unfold State.gridEnded
  split
  · exact refl s
  · split
    · exact same rfl rfl
    · exact refl s

theorem finishXfer (s : State) (o : XferOp) : s.BoxKept (s.finishXfer o) := by
  have hmc : ∀ s : State, s.BoxKept (match o.kind with
      | .cpymc _ g _ => { s with mcast := updWhere (fun m => m.id == g) (fun m => { m with outst := m.outst - 1 }) s.mcast }
      | _ => s) := fun s => by split <;> exact same rfl rfl
  have h := ((gridEnded (((({ s with xfers := s.xfers.filter (fun x => x.id != o.id) } : State).modThreads o.team o.counted (fun t => t.xfDown.ended o.view)).freeLines
    o.cleared).freeLocks o.id) o.team o.view).after (s := s) rfl rfl).trans (hmc _)
  unfold State.finishXfer
  dsimp only
  split
  · exact h
  · exact h.trans (arriveOp _ _ _ _ _)

theorem checkXfer (s : State) (id : Nat) : s.BoxKept (s.checkXfer id) := by
  unfold State.checkXfer
  split
  · exact refl s
  · split
    · exact finishXfer s _
    · exact refl s

theorem relockParts (s : State) (op : Nat) : s.BoxKept (s.relockParts op) := by
  unfold State.relockParts
  split
  · exact refl s
  · dsimp only
    split <;> exact same rfl rfl

theorem finishPart (s : State) (op tid : Nat) : s.BoxKept (s.finishPart op tid) := by
  unfold State.finishPart
  split
  · exact refl s
  · split
    · exact refl s
    · split
      · exact refl s
      · refine BoxKept.trans ?_ ((arriveOp _ _ _ _ _).trans (checkXfer _ op))
        refine BoxKept.trans ?_ (modThreads _ _ _ _)
        exact (relockParts _ op).after rfl rfl

theorem bankLocks (s : State) (op : Nat) (read : List (Loc × Nat)) : s.BoxKept (s.bankLocks op read) := by
  unfold State.bankLocks
  split
  · exact refl s
  · split
    · exact same rfl rfl
    · exact refl s

theorem landLines (s : State) (op : Nat) : s.BoxKept (s.landLines op) := by
  unfold State.landLines
  split
  · exact refl s
  · exact same rfl rfl

theorem landCounts (s : State) (op : Nat) : s.BoxKept (s.landCounts op) := by
  unfold State.landCounts
  split
  · exact refl s
  · exact same rfl rfl

theorem landLocks (s : State) (op : Nat) : s.BoxKept (s.landLocks op) := by
  unfold State.landLocks
  split
  · exact refl s
  · split
    · exact same rfl rfl
    · exact refl s

theorem afterLanding (s : State) (op : Nat) : s.BoxKept (s.afterLanding op) :=
  (((landLines s op).trans (landCounts _ op)).trans (landLocks _ op)).trans (checkXfer _ op)

theorem abandonHeld (s : State) (op : Nat) (tids : List Nat) : s.BoxKept (s.abandonHeld op tids) := by
  unfold State.abandonHeld
  split
  · exact refl s
  · exact ((bankLocks _ op _).trans (afterLanding _ op)).after rfl rfl

/-! ### Retirement -/

theorem queueDone (s : State) (l : Launch) (core : Nat) : s.BoxKept (s.queueDone l core) := by
  unfold State.queueDone
  split
  · exact refl s
  · split
    · exact same rfl rfl
    · exact postEvent s _ _

theorem completeLaunch (s : State) (l : Launch) (core : Nat) : s.BoxKept (s.completeLaunch l core) := by
  unfold State.completeLaunch
  refine (queueDone s l core).trans ?_
  dsimp only
  split <;> exact same rfl rfl

theorem retireTeams (s : State) : s.BoxKept s.retireTeams := by
  unfold State.retireTeams
  dsimp only
  split
  · exact refl s
  · exact (foldl (fun s l => completeLaunch s l _) _ _).after rfl rfl

theorem settle (s : State) : s.BoxKept s.settle := (of_calm ((Calm.flushSamples s).trans (Calm.retireGroups _))).trans (retireTeams _)

/-! ### Threads that exit and teams that are killed -/

theorem checkRejoin (s : State) (team role idx : Nat) : s.BoxKept (s.checkRejoin team role idx) := by
  unfold State.checkRejoin
  split
  · exact refl s
  · dsimp only
    split
    · exact refl s
    · exact same rfl rfl

theorem checkSyncm (s : State) (team role idx : Nat) : s.BoxKept (s.checkSyncm team role idx) := by
  unfold State.checkSyncm
  split
  · exact refl s
  · split
    · exact same rfl rfl
    · exact refl s

theorem endWdog (s : State) (team : Nat) : s.BoxKept (s.endWdog team) := by
  unfold State.endWdog
  split
  · exact refl s
  · split
    · exact same rfl rfl
    · exact refl s

theorem exitThread (s : State) (team tid : Nat) : s.BoxKept (s.exitThread team tid) := by
  unfold State.exitThread
  split
  · exact refl s
  · split
    · exact refl s
    · have hheld : ∀ (s : State) (w : Option Nat), s.BoxKept (match w with
          | some o => s.abandonHeld o [tid]
          | none => s) := fun s w => by
        split
        · exact abandonHeld s _ _
        · exact refl s
      exact ((((hheld _ _).trans (checkRejoin _ _ _ _)).trans (checkSyncm _ _ _ _)).trans (endWdog _ _)).after rfl rfl

theorem cadenceTrap (s : State) (team code : Nat) : s.BoxKept (s.cadenceTrap team code) := by
  unfold State.cadenceTrap
  split
  · exact refl s
  · split
    · exact refl s
    · split
      · exact refl s
      · exact (postEvent _ _ _).after rfl rfl

theorem killTeam (s : State) (team code : Nat) : s.BoxKept (s.killTeam team code) := by
  unfold State.killTeam
  split
  · exact refl s
  · have hleave : ∀ (s : State) (p : FaultRec → Bool) w, s.BoxKept { s with faults := s.faults.filter p, faultsWaiting := w } :=
      fun s p w => ⟨rfl, rfl, rfl, fun _ h => List.mem_of_mem_filter h⟩
    have hops : ∀ (s : State) xs ts cs, s.BoxKept { s with xfers := xs, tileOps := ts, conversions := cs } := fun s xs ts cs => same rfl rfl
    have hcores : ∀ (s : State) cs, s.BoxKept { s with cores := cs } := fun s cs => same rfl rfl
    refine BoxKept.trans ?_ (settle _)
    refine BoxKept.trans ?_ (mapThreads _ _ _)
    refine BoxKept.trans ?_ (postEvent _ _ _)
    refine BoxKept.trans ?_ (modTeam _ _ _)
    refine BoxKept.trans ?_ (hcores _ _)
    refine BoxKept.trans ?_ (foldl (fun s (o : XferOp) => abandonHeld s o.id _) _ _)
    refine BoxKept.trans ?_ (foldl (fun s i => exitThread s team i) _ _)
    refine BoxKept.trans ?_ (hops _ _ _ _)
    exact (cadenceTrap s team code).trans (hleave _ _ _)

/-! ### Traps -/

theorem commit (s : State) (team tid : Nat) (p : Pending) : s.BoxKept (s.commit team tid p) := by
  rw [commit_only]
  exact same rfl rfl

theorem tryEnter (s : State) (team : Nat) (i : TrapInfo) : s.BoxKept (s.tryEnter team i) := by
  unfold State.tryEnter
  dsimp only
  split
  · exact refl s
  · split
    · exact killTeam s team _
    · exact (foldl (fun s (t : Thread) => foldl (fun s p => commit s team t.tid p) _ s) _ s).trans (mapThreads _ _ _)

theorem enterAll (s : State) (team : Nat) : s.BoxKept (s.enterAll team) := foldl (fun s i => tryEnter s team i) _ s

theorem takeTrap (s : State) (team : Nat) (tids : List Nat) (cause : Cause) (kind : TpcKind) (tpc : BitVec 57) (taddr : DWord) :
    s.BoxKept (s.takeTrap team tids cause kind tpc taddr) := by
  unfold State.takeTrap
  dsimp only
  split
  · exact refl s
  · split
    · exact (cadenceTrap s team _).trans (killTeam _ team _)
    · refine BoxKept.trans ?_ (tryEnter _ team _)
      refine BoxKept.trans ?_ (modThreads _ _ _ _)
      exact (cadenceTrap s team _).trans (unseat _ _ _)

theorem trapNoAddr (s : State) (team : Nat) (tids : List Nat) (cause : Cause) (kind : TpcKind) (tpc : BitVec 57) :
    s.BoxKept (s.trapNoAddr team tids cause kind tpc) := (takeTrap _ team tids cause kind tpc _).after rfl rfl

theorem wdogSets (s : State) (team : Nat) (ts : List Thread) : s.BoxKept (s.wdogSets team ts) := foldl (fun s (k : BitVec 57 × TpcKind) => trapNoAddr s team _ _ k.2 k.1) _ s

theorem lateWdog (s : State) (team : Nat) (tids : List Nat) : s.BoxKept (s.lateWdog team tids) := by
  unfold State.lateWdog
  split
  · exact refl s
  · exact (wdogSets _ team _).after rfl rfl

theorem trapHeld (s : State) (team : Nat) (tids : List Nat) (o : XferOp) (cause : Cause) (taddr : DWord) : s.BoxKept (s.trapHeld team tids o cause taddr) :=
  (takeTrap _ team tids cause _ _ taddr).after rfl rfl

/-! ### Fault records that become fatal -/

theorem stopTable (s : State) (entry cause refuse : Nat) : s.BoxKept (s.stopTable entry cause refuse) := by
  unfold State.stopTable
  split
  · exact refl s
  · exact (postEvent _ _ _).after rfl rfl

theorem refuse (s : State) (queue : Nat) (cadence : Option (Nat × Nat)) (record : DWord) (code : Nat) : s.BoxKept (s.refuse queue cadence record code) := by
  unfold State.refuse
  split
  · exact stopTable s _ _ _
  · exact (postEvent _ _ _).after rfl rfl

theorem dropFault (s : State) (id : Nat) : s.BoxKept (s.dropFault id) := ⟨rfl, rfl, rfl, fun _ h => List.mem_of_mem_filter h⟩

theorem failRange (s : State) (key : Nat) : s.BoxKept (s.failRange key) := by
  unfold State.failRange
  split
  · exact refl s
  · dsimp only
    split
    · refine BoxKept.trans ?_ (refuse _ _ _ _ _)
      exact ⟨rfl, rfl, rfl, fun _ h => List.mem_of_mem_filter h⟩
    · split
      · exact ⟨rfl, rfl, rfl, fun _ h => List.mem_of_mem_filter h⟩
      · refine BoxKept.trans ?_ (refuse _ _ _ _ _)
        exact ⟨rfl, rfl, rfl, fun _ h => List.mem_of_mem_filter h⟩

theorem fatalLanes (s : State) (op : Nat) (tids : List Nat) (va : Nat) : s.BoxKept (s.fatalLanes op tids va) := by
  unfold State.fatalLanes
  split
  · exact refl s
  · split
    · exact refl s
    · exact (abandonHeld s op tids).trans (trapHeld _ _ _ _ _ _)

theorem fatalFetch (s : State) (f : FaultRec) : s.BoxKept (s.fatalFetch f) := by
  unfold State.fatalFetch
  split
  · exact refl s
  · split
    · exact refl s
    · exact (lateWdog s _ _).trans (takeTrap _ _ _ _ _ _ _)

/-- After the record itself has left the queue. -/
theorem fatalRec_dropped (s : State) (f : FaultRec) : (s.dropFault f.id).BoxKept (s.fatalRec f) := by
  unfold State.fatalRec
  dsimp only
  refine BoxKept.trans ?_ (settle _)
  split
  · exact fatalFetch _ f
  · split
    · split
      · exact failRange _ _
      · exact refl _
    · split
      · exact fatalLanes _ _ _ _
      · exact refl _

theorem fatalRec (s : State) (f : FaultRec) : s.BoxKept (s.fatalRec f) := (dropFault s f.id).trans (fatalRec_dropped s f)

theorem cancelId (s : State) (id : Nat) : s.BoxKept (s.cancelId id) := by
  unfold State.cancelId
  split
  · exact fatalRec s _
  · exact refl s

theorem cancelAsid (s : State) (a : Nat) : s.BoxKept (s.cancelAsid a) := foldl cancelId _ s

theorem popFault (s : State) : s.BoxKept s.popFault := by
  unfold State.popFault
  split
  · exact refl s
  · exact fatalRec s _

/-! ### The Huddle -/

theorem stopHuddle (s : State) (g : Nat) : s.BoxKept (s.stopHuddle g) := by
  unfold State.stopHuddle
  split
  · exact refl s
  · exact (postEvent _ _ _).after rfl rfl

theorem checkReach (s : State) : s.BoxKept s.checkReach := by
  unfold State.checkReach
  split
  · exact stopHuddle s _
  · exact refl s

theorem enqueue (s : State) (node prio len : Nat) (what : XferWhat) (op : Option (Nat × Nat)) (cmd : Option Nat) (entry : Nat) :
    s.BoxKept (s.enqueue node prio len what op cmd entry) := same rfl rfl

theorem deliver (s : State) (q : QGroup) (data : List Byte) (e : Contrib) : s.BoxKept (s.deliver q data e) := by
  unfold State.deliver
  split
  · exact same rfl rfl
  · split
    · exact refl s
    · exact enqueue _ _ _ _ _ _ _ _

theorem foldedIf (s : State) (cmd : Nat) : s.BoxKept (s.foldedIf cmd) := by
  unfold State.foldedIf
  split
  · exact same rfl rfl
  · exact refl s

theorem foldRound (s : State) (g : Nat) (es : List Contrib) : s.BoxKept (s.foldRound g es) := (foldl foldedIf _ _).after rfl rfl

theorem closeRound (s : State) (g : Nat) : s.BoxKept (s.closeRound g) := by
  unfold State.closeRound
  split
  · exact refl s
  · dsimp only
    split
    · exact refl s
    · refine BoxKept.trans ?_ (foldl (fun s n => enqueue s n _ _ _ _ _ _) _ _)
      refine BoxKept.trans ?_ (foldl (fun s e => deliver s _ _ e) _ _)
      exact (foldRound _ g _).after rfl rfl

theorem closeAll (s : State) : s.BoxKept s.closeAll := by
  unfold State.closeAll
  refine foldl (fun s q => ?_) _ s
  split
  · exact ((closeRound s q.id).trans (closeRound _ q.id)).trans (closeRound _ q.id)
  · exact refl s

theorem restartHuddle (s : State) : s.BoxKept s.restartHuddle := (closeAll _).after rfl rfl

theorem writeSync (s : State) (op tid : Nat) (round : BitVec 16) (count : Nat) : s.BoxKept (s.writeSync op tid round count) := by
  unfold State.writeSync
  split
  · exact refl s
  · split
    · exact refl s
    · exact ((finishPart _ op tid).trans (enterAll _ _)).after rfl rfl

theorem removeGroup (s : State) (g : Nat) : s.BoxKept (s.removeGroup g) := by
  unfold State.removeGroup
  split
  · exact refl s
  · dsimp only
    refine BoxKept.trans ?_ (settle _)
    refine BoxKept.trans ?_ (closeAll _)
    refine BoxKept.trans ?_ (foldl (fun s (x : Nat × Nat × Bool) => ?_) _ _)
    · exact (foldl (fun s i => same (t := s.modCmd i _) rfl rfl) _ _).after rfl rfl
    · split
      · exact writeSync s _ _ _ _
      · exact finishPart s _ _

/-! ### The tables -/

theorem wakeTrace (s : State) (q : Nat) : s.BoxKept (s.wakeTrace q) := same rfl rfl

theorem preemptLaunch (s : State) (i : Nat) : s.BoxKept (s.preemptLaunch i) := by
  unfold State.preemptLaunch
  split
  · exact refl s
  · exact same rfl rfl

theorem writeGate (s : State) (x : Nat) : s.BoxKept (s.writeGate x) := (foldl wakeTrace _ _).after rfl rfl

theorem writeHostWord (s : State) (off x : Nat) : s.BoxKept (s.writeHostWord off x) := by
  unfold State.writeHostWord
  dsimp only
  split
  · exact same rfl rfl
  · exact same rfl rfl
  · exact same rfl rfl
  · exact same rfl rfl
  · exact same rfl rfl
  · split
    · exact same rfl rfl
    · exact refl s
  · exact preemptLaunch s x
  · exact writeGate s _
  · split
    · exact same rfl rfl
    · split
      · exact same rfl rfl
      · exact refl s

theorem attest (s : State) : s.BoxKept s.attest := same rfl rfl

theorem writeHost (s : State) (lo : Nat) (data : List Byte) : s.BoxKept (s.writeHost lo data) := by
  unfold State.writeHost
  dsimp only
  split
  · exact (foldl (fun s (p : Nat × Nat) => writeHostWord s p.1 p.2) _ s).trans (attest _)
  · exact foldl (fun s (p : Nat × Nat) => writeHostWord s p.1 p.2) _ s

theorem writeDecl (s : State) (g lo : Nat) (data : List Byte) : s.BoxKept (s.writeDecl g lo data).1 := by
  unfold State.writeDecl
  dsimp only
  split
  · split
    · exact refl s
    · exact (removeGroup s g).trans (same rfl rfl)
  · split
    · exact same rfl rfl
    · split
      · exact same rfl rfl
      · exact refl s

theorem cdstop (s : State) : s.BoxKept s.cdstop := by
  unfold State.cdstop
  split
  · exact same rfl rfl
  · exact refl s

theorem cdControl {s t : State} {x : Nat} (h : s.cdControl x = some t) : s.BoxKept t := by
  unfold State.cdControl at h
  split at h
  · cases h
  · split at h
    · cases h
      exact same rfl rfl
    · split at h
      · cases h
        exact cdstop s
      · cases h

theorem tableWrite (s : State) (k : TableKind) (i lo : Nat) (data : List Byte) : s.BoxKept (s.tableWrite k i lo data).1 := by
  unfold State.tableWrite
  cases k with
  | queue | asid | handler | watch => exact same rfl rfl
  | cdEngine | region | csr => exact refl s
  | xbar =>
    dsimp only
    split <;> exact same rfl rfl
  | quorum => exact writeDecl s i lo data
  | cdControl =>
    dsimp only
    split
    next h => exact cdControl h
    next => exact refl s
  | huddle =>
    dsimp only
    split
    · exact restartHuddle s
    · exact refl s
  | fault =>
    dsimp only
    split
    · exact popFault s
    · exact refl s
  | route => exact (checkReach _).after rfl rfl
  | host => exact writeHost s lo data
  | asidCsr =>
    dsimp only
    split <;> exact refl s

end State.BoxKept

end Sys2Proof.Machine
end

section
/-! The mailbox (R280, R376 to R379): one step of its engine, what its reads and writes of memory leave, BAR0, and O16. -/

namespace Sys2Proof.Machine

/-! ### A command applied and answered -/

theorem mbStep_illegal {s : State} (hdue : s.mbDue = true) (hill : cmdLegal s.mailbox.cmd = false) (fits : List Byte → Bool) (k : List Byte → State) :
    mbStep s fits k = .next (s.respond .illegal []) := by
  unfold mbStep
  dsimp only
  rw [if_neg (by simp [hdue]), if_pos (by simp [hill])]

theorem mbStep_applies {s : State} {op : Nat} (h : s.mbAt op) {fits : List Byte → Bool} (hf : fits s.mailbox.cmd = true) (k : List Byte → State) :
    mbStep s fits k = .next (k s.mailbox.cmd) := by
  obtain ⟨hdue, hlegal, -⟩ := h
  unfold mbStep
  dsimp only
  rw [if_neg (by simp [hdue]), if_neg (by simp [hlegal]), if_pos hf]

/-- A response is the answer to the command that stood at HEAD where the operation before it has left the mailbox so. -/
theorem answered_respond {s t : State} (h : s.BoxKept t) (hw : t.sys.wf = true) (st : MbStatus) (data : List Byte) : Answered s st data (t.respond st data) := by
  have hcmd : t.mailbox.cmd = s.mailbox.cmd := by
    unfold Mailbox.cmd
    rw [h.slots, h.head]
  refine ⟨?_, congrArg (· + 1#8) h.head⟩
  unfold State.respond
  dsimp only
  rw [hcmd, h.rspBase, h.head]
  set r := (leBytes 4 st.code ++ leBytes 4 (cf s.mailbox.cmd 4 4) ++ leBytes 8 0 ++ data ++ List.replicate 64 0#8).take 64 with hr
  have hlen : r.length = 64 := by
    rw [hr, List.length_take, List.length_append, List.length_replicate]
    omega
  have hread := Memory.readBytes_writeBytes t.sys (s.mailbox.rspBase + 64 * s.mailbox.head.toNat) r hw
  rwa [hlen] at hread

/-- The response writes system memory and the mailbox alone. -/
theorem respond_only (s : State) (st : MbStatus) (data : List Byte) :
    s.respond st data = { s with sys := (s.respond st data).sys, mailbox := (s.respond st data).mailbox } := by
  unfold State.respond
  dsimp only

/-! ### Memory written by the mailbox -/

/-- From `s` to `t` main memory and DSM have been written, with the record of their writes. -/
def State.DeviceWritten (s t : State) : Prop :=
  t = { s with main := t.main, dsm := t.dsm, badWords := t.badWords, hist := t.hist, nextId := t.nextId }

namespace State.DeviceWritten

theorem trans {s t u : State} (h : s.DeviceWritten t) (k : t.DeviceWritten u) : s.DeviceWritten u := by
  unfold State.DeviceWritten at *
  rw [k, h]

theorem memStore (s : State) {l : Loc} (hl : l.space = .main ∨ l.space = .dsm) (bs : List Byte) : s.DeviceWritten (s.memStore l bs) := by
  obtain ⟨sp, a⟩ := l
  unfold State.DeviceWritten State.memStore
  obtain h | h := hl
  all_goals
    dsimp only at h
    subst h
    dsimp only
    split <;> rfl

theorem memWrite (s : State) {l : Loc} (hl : l.space = .main ∨ l.space = .dsm) (bs : List Byte) : s.DeviceWritten (s.memWrite l bs) := by
  refine (memStore s hl bs).trans ?_
  unfold State.memWrite
  dsimp only
  split <;> rfl

theorem pushWord (s : State) {l : Loc} (hl : l.space = .main ∨ l.space = .dsm) (bs : List Byte) (who : Option Sync) (ys : List Sync) (chain : Bool) :
    s.DeviceWritten (s.pushWord l bs who ys chain) := (memStore s hl bs).trans rfl

theorem pushBytes (s : State) {l : Loc} (hl : l.space = .main ∨ l.space = .dsm) (bs : List Byte) (who : Option Sync) (ys : List Sync) (chain : Bool) :
    s.DeviceWritten (s.pushBytes l bs who ys chain) := by
  unfold State.pushBytes
  generalize List.range _ = is
  induction is generalizing s with
  | nil => rfl
  | cons i r ih => exact (pushWord s (l := { l with addr := l.addr + wordStart l i }) hl _ who ys chain).trans (ih _)

end State.DeviceWritten

theorem mbPlace_mem {s : State} {addr n : Nat} {l : Loc} (h : s.mbPlace addr n = .mem l) : l.space = .main ∨ l.space = .dsm := by
  unfold State.mbPlace at h
  dsimp only at h
  split at h
  · split at h
    · cases h
    · split at h
      · cases h
      · cases h
        exact .inl rfl
  · split at h
    · cases h
    · split at h
      · cases h
      · split at h <;> split at h <;> cases h
        all_goals exact .inr rfl
  · split at h
    · cases h
    · split at h <;> cases h
  · cases h

/-- What a write of the mailbox leaves: the bytes stand there, and no others have changed. -/
structure HostStored (s : State) (l : Loc) (bs : List Byte) (t : State) : Prop where
  state : t = { s with mailbox := t.mailbox, main := t.main, dsm := t.dsm, badWords := t.badWords, hist := t.hist, nextId := t.nextId }
  box : s.BoxKept t
  same : t.memRead l bs.length = bs
  apart : ∀ l' m, overlaps l bs.length l' m = false → t.memRead l' m = s.memRead l' m

theorem readBytes_congr {m m' : Memory} {a n : Nat} (h : ∀ i, i < n → m'.read (a + i) = m.read (a + i)) : m'.readBytes a n = m.readBytes a n :=
  List.map_congr_left fun i hi => h i (List.mem_range.mp hi)

/-- A range that does not overlap a write reads as before. -/
theorem memRead_apart {s t : State} (hok : s.memOk) {l l' : Loc} {n m : Nat} (h : s.WritesIn (l.covers n) t) (ho : overlaps l n l' m = false) :
    t.memRead l' m = s.memRead l' m := by
  unfold State.memRead
  refine readBytes_congr fun i hi => h.bytes hok _ _ fun ⟨hsp, hlo, hhi⟩ => ?_
  dsimp only at hsp hlo hhi
  unfold overlaps at ho
  rw [hsp, beq_self_eq_true, Bool.true_and, decide_eq_false_iff_not] at ho
  omega

theorem hostStore_stores {s : State} (hok : s.memOk) {l : Loc} (hl : l.space = .main ∨ l.space = .dsm) (bs : List Byte) (rel : Bool) :
    HostStored s l bs (s.hostStore l bs rel) := by
  obtain hmain | hdsm := hl
  · have ht : s.hostStore l bs rel = s.memWrite l bs := by
      unfold State.hostStore
      rw [hmain]
    have hw : s.DeviceWritten (s.memWrite l bs) := .memWrite s (.inl hmain) bs
    rw [ht]
    refine ⟨by rw [hw], by rw [hw]; exact .same rfl rfl, ?_, fun l' m ho => memRead_apart hok (memWrite_writesIn s l bs) ho⟩
    unfold State.memRead State.memOf
    rw [hmain]
    dsimp only
    have hbytes : (s.memWrite l bs).main = s.main.writeBytes l.addr bs := by
      obtain ⟨sp, a⟩ := l
      dsimp only at hmain
      subst hmain
      unfold State.memWrite State.memStore
      dsimp only
      split <;> split <;> rfl
    rw [hbytes]
    exact Memory.readBytes_writeBytes _ _ _ hok.main
  · set y : Sync :=
      { team := 0, core := none, scope := .system, access := true, host := true, isDone := false, view := joinViews s.mailbox.view (s.pushView l bs.length) } with hy
    have ht : s.hostStore l bs rel = { s.pushBytes l bs (if rel then some y else none) (if rel then [y] else []) false with
        mailbox := { (s.pushBytes l bs (if rel then some y else none) (if rel then [y] else []) false).mailbox with
          view := joinViews (s.pushBytes l bs (if rel then some y else none) (if rel then [y] else []) false).mailbox.view (s.pushView l bs.length) } } := by
      unfold State.hostStore
      rw [hdsm]
    have hw := State.DeviceWritten.pushBytes s (.inr hdsm) bs (if rel then some y else none) (if rel then [y] else []) false
    have hin := pushBytes_writesIn s l bs (if rel then some y else none) (if rel then [y] else []) false
    have hbytes := pushBytes_dsm s bs (if rel then some y else none) (if rel then [y] else []) false hdsm
    generalize s.pushBytes l bs (if rel then some y else none) (if rel then [y] else []) false = p at ht hw hin hbytes
    rw [ht]
    refine ⟨by rw [hw], ⟨by rw [hw], by rw [hw], by rw [hw], fun f hf => ?_⟩, ?_, fun l' m ho => memRead_apart (t := p) hok hin ho⟩
    · rwa [hw] at hf
    · unfold State.memRead State.memOf
      rw [hdsm]
      dsimp only
      rw [hbytes]
      exact Memory.readBytes_writeBytes _ _ _ hok.dsm

/-! ### Memory read by the mailbox -/

theorem leNat_lt (bs : List Byte) : leNat bs < 256 ^ bs.length := by
  induction bs with
  | nil => exact Nat.one_pos
  | cons b r ih =>
    have hb := b.isLt
    show b.toNat + 256 * leNat r < 256 ^ (r.length + 1)
    rw [Nat.pow_succ]
    omega

theorem leBytes_leNat (bs : List Byte) : leBytes bs.length (leNat bs) = bs := by
  induction bs with
  | nil => rfl
  | cons b r ih =>
    have hb := b.isLt
    have hlow : (b.toNat + 256 * leNat r) % 256 = b.toNat := by omega
    have hhigh : (b.toNat + 256 * leNat r) / 256 = leNat r := by omega
    show BitVec.ofNat 8 ((b.toNat + 256 * leNat r) % 256) :: leBytes r.length ((b.toNat + 256 * leNat r) / 256) = b :: r
    rw [hlow, hhigh, ih, BitVec.ofNat_toNat, BitVec.setWidth_eq]

theorem readBytes_add (m : Memory) (a j n : Nat) : m.readBytes a (j + n) = m.readBytes a j ++ m.readBytes (a + j) n := by
  unfold Memory.readBytes
  rw [List.range_add, List.map_append, List.map_map]
  congr 1
  exact List.map_congr_left fun i _ => congrArg m.read (Nat.add_assoc a j i).symm

/-- A range within another one. -/
theorem readBytes_within (m : Memory) {a j n k : Nat} (h : j + n ≤ k) : ((m.readBytes a k).drop j).take n = m.readBytes (a + j) n := by
  obtain ⟨r, rfl⟩ := Nat.exists_eq_add_of_le h
  rw [Nat.add_assoc, readBytes_add, List.drop_left' (Memory.length_readBytes m a j), readBytes_add, List.take_left' (Memory.length_readBytes m (a + j) n)]

/-- Words that stand one after another. -/
theorem flatMap_words (m : Memory) (a k : Nat) : (List.range k).flatMap (fun i => m.readBytes ((a + i) * 4) 4) = m.readBytes (a * 4) (4 * k) := by
  induction k with
  | zero => rfl
  | succ k ih =>
    have hstart : (a + k) * 4 = a * 4 + 4 * k := by omega
    rw [List.range_succ, List.flatMap_append, ih, List.flatMap_singleton, hstart, ← readBytes_add]
    rfl

/-- The bytes of a word that no recorded write has touched. -/
theorem readWr_settled {s : State} {w : Loc} (h : ∀ x ∈ s.hist, x.loc ≠ w) (bound : Nat) (tops : List Nat) (id tid : Nat) :
    leBytes 4 (s.readWr w bound tops id tid).val.toNat = s.memRead w 4 := by
  have hnone : s.hist.filter (fun x => x.loc == w && decide (bound ≤ x.stamp)) = [] := by
    rw [List.filter_eq_nil_iff]
    intro x hx
    simp [h x hx]
  have hlast : s.readWr w bound tops id tid = s.lastWr w := by
    unfold State.readWr State.choices
    dsimp only
    rw [hnone]
    rfl
  have hfind : s.hist.find? (fun x => x.loc == w) = none := by
    rw [List.find?_eq_none]
    intro x hx
    simpa using h x hx
  rw [hlast]
  unfold State.lastWr State.lastWord
  rw [hfind]
  have hlen : (s.memRead w 4).length = 4 := Memory.length_readBytes ..
  have hlt := leNat_lt (s.memRead w 4)
  rw [hlen] at hlt
  have hlt : leNat (s.memRead w 4) < 2 ^ 32 := hlt
  show leBytes 4 (BitVec.ofNat 32 (leNat (s.memRead w 4))).toNat = _
  rw [BitVec.toNat_ofNat, Nat.mod_eq_of_lt hlt]
  conv_rhs => rw [← leBytes_leNat (s.memRead w 4), hlen]

theorem hostLoad_state (s : State) (l : Loc) (n : Nat) (acq : Bool) :
    (s.hostLoad l n acq).2 = { s with mailbox := { s.mailbox with view := (s.hostLoad l n acq).2.mailbox.view }, nextId := (s.hostLoad l n acq).2.nextId } := by
  unfold State.hostLoad
  dsimp only
  split <;> rfl

theorem hostLoad_box (s : State) (l : Loc) (n : Nat) (acq : Bool) : s.BoxKept (s.hostLoad l n acq).2 := by
  rw [hostLoad_state]
  exact ⟨rfl, rfl, rfl, fun _ h => h⟩

/-- The words that a range touches hold it. -/
theorem wordsAt_span {a n : Nat} (hn : 0 < n) : a % 4 + n ≤ 4 * ((a + n - 1) / 4 + 1 - a / 4) := by omega

theorem hostLoad_bytes (s : State) (l : Loc) (n : Nat) (acq : Bool) : ∃ bound : Loc → Nat,
    (s.hostLoad l n acq).1 = (((wordsAt l n).flatMap (fun w => leBytes 4 (s.readWr w (bound w) [] s.nextId 0).val.toNat)).drop (l.addr % 4)).take n := by
  unfold State.hostLoad State.hostWrs
  dsimp only
  rw [List.flatMap_map]
  exact ⟨_, rfl⟩

theorem hostLoad_length (s : State) (l : Loc) {n : Nat} (acq : Bool) (hn : 0 < n) : (s.hostLoad l n acq).1.length = n := by
  obtain ⟨bound, h⟩ := hostLoad_bytes s l n acq
  have hspan := wordsAt_span (a := l.addr) hn
  have hlen : ((wordsAt l n).flatMap (fun w => leBytes 4 (s.readWr w (bound w) [] s.nextId 0).val.toNat)).length = 4 * ((l.addr + n - 1) / 4 + 1 - l.addr / 4) := by
    rw [List.length_flatMap]
    simp only [leBytes_length, List.map_const', List.sum_replicate, wordsAt, List.length_map, List.length_range, smul_eq_mul]
    exact Nat.mul_comm ..
  rw [h, List.length_take, List.length_drop, hlen]
  omega

/-- Where no recorded write touches it, the mailbox reads a range as memory holds it. -/
theorem hostLoad_settled {s : State} {l : Loc} {n : Nat} (acq : Bool) (hn : 0 < n) (h : ∀ x ∈ s.hist, overlaps x.loc 4 l n = false) :
    (s.hostLoad l n acq).1 = s.memRead l n := by
  obtain ⟨bound, hb⟩ := hostLoad_bytes s l n acq
  have hwords : (wordsAt l n).flatMap (fun w => leBytes 4 (s.readWr w (bound w) [] s.nextId 0).val.toNat) =
      (s.memOf l.space).readBytes (l.addr / 4 * 4) (4 * ((l.addr + n - 1) / 4 + 1 - l.addr / 4)) := by
    unfold wordsAt
    rw [List.flatMap_map, ← flatMap_words]
    refine List.flatMap_congr fun i hi => readWr_settled (fun x hx he => ?_) _ _ _ _
    have hx := h x hx
    have hi := List.mem_range.mp hi
    unfold overlaps at hx
    rw [he] at hx
    dsimp only at hx
    rw [beq_self_eq_true, Bool.true_and, decide_eq_false_iff_not] at hx
    omega
  rw [hb, hwords, readBytes_within _ (wordsAt_span hn), Nat.div_add_mod']
  rfl

end Sys2Proof.Machine
end

section
/-! The commands of the mailbox (R280, R376 to R379), each with its answer, BAR0, and O16. -/

namespace Sys2Proof.Machine

/-! ### Answers that change nothing else -/

theorem answered_only {s : State} (hok : s.memOk) (st : MbStatus) (data : List Byte) : Answered s st data (s.respond st data) := answered_respond (.refl s) hok.sys st data

theorem memRead_respond (s : State) (st : MbStatus) (data : List Byte) {l : Loc} (hl : l.space ≠ .sys) (n : Nat) : (s.respond st data).memRead l n = s.memRead l n := by
  obtain ⟨sp, a⟩ := l
  rw [respond_only]
  unfold State.memRead State.memOf State.team?
  cases sp with
  | sys => exact absurd rfl hl
  | main => rfl
  | dsm => rfl
  | lsm team => rfl

theorem mbPlace_space {s : State} {addr n : Nat} {l : Loc} (h : s.mbPlace addr n = .mem l) : l.space ≠ .sys := by
  obtain h | h := mbPlace_mem h <;> rw [h] <;> exact nofun

/-- A command's 64 bytes. -/
theorem Mailbox.length_cmd (m : Mailbox) : m.cmd.length = 64 := Memory.length_readBytes ..

theorem mbAt_write_size {s : State} (h : s.mbAt 1) : 1 ≤ cf s.mailbox.cmd 16 1 ∧ cf s.mailbox.cmd 16 1 ≤ 40 := by
  obtain ⟨-, hlegal, hop⟩ := h
  unfold cmdLegal at hlegal
  rw [hop] at hlegal
  simp only [Bool.and_eq_true, decide_eq_true_eq] at hlegal
  exact hlegal.2.1

theorem mbAt_read_size {s : State} (h : s.mbAt 7) : 1 ≤ cf s.mailbox.cmd 16 1 ∧ cf s.mailbox.cmd 16 1 ≤ 40 := by
  obtain ⟨-, hlegal, hop⟩ := h
  unfold cmdLegal at hlegal
  rw [hop] at hlegal
  simp only [Bool.and_eq_true, decide_eq_true_eq] at hlegal
  exact hlegal.2.1

theorem mbAt_copy_size {s : State} (h : s.mbAt 2) : 4 ≤ cf s.mailbox.cmd 24 4 := by
  obtain ⟨-, hlegal, hop⟩ := h
  unfold cmdLegal at hlegal
  rw [hop] at hlegal
  simp only [Bool.and_eq_true, decide_eq_true_eq] at hlegal
  exact hlegal.2.1.1.1.1

theorem mbAt_fits {s : State} {op : Nat} (h : s.mbAt op) : (cf s.mailbox.cmd 0 1 == op) = true := beq_iff_eq.mpr h.2.2

/-! ### The commands' events -/

theorem exec_mailboxWrite (s : State) : exec .mailboxWrite s = execMailboxWrite s := rfl

theorem exec_mailboxRead (s : State) : exec .mailboxRead s = execMailboxRead s := rfl

theorem exec_mailboxCopyToDevice (s : State) : exec .mailboxCopyToDevice s = execMailboxCopyToDevice s := rfl

theorem exec_mailboxLaunch (s : State) : exec .mailboxLaunch s = execMailboxLaunch s := rfl

theorem exec_mailboxReplay (s : State) : exec .mailboxReplay s = execMailboxReplay s := rfl

theorem exec_mailboxCancel (s : State) : exec .mailboxCancel s = execMailboxCancel s := rfl

theorem exec_mailboxCancelAsid (s : State) : exec .mailboxCancelAsid s = execMailboxCancelAsid s := rfl

theorem exec_mailboxTlbinvAll (s : State) : exec .mailboxTlbinvAll s = execMailboxTlbinvAll s := rfl

theorem exec_mailboxTlbinvAsid (s : State) : exec .mailboxTlbinvAsid s = execMailboxTlbinvAsid s := rfl

theorem exec_mailboxTlbinvPage (s : State) : exec .mailboxTlbinvPage s = execMailboxTlbinvPage s := rfl

theorem exec_mailboxCopyToHost (s : State) (responds : Bool) : exec (.mailboxCopyToHost responds) s = execMailboxCopyToHost responds s := rfl

/-- An illegal command is answered by whichever event finds it. -/
theorem mailbox_illegal {s : State} (hdue : s.mbDue = true) (hill : cmdLegal s.mailbox.cmd = false) {i : Instr}
    (hi : i ∈ [Instr.mailboxWrite, .mailboxRead, .mailboxCopyToDevice, .mailboxCopyToHost true, .mailboxLaunch, .mailboxReplay, .mailboxCancel,
      .mailboxCancelAsid, .mailboxTlbinvAll, .mailboxTlbinvAsid, .mailboxTlbinvPage]) : exec i s = .next (s.respond .illegal []) := by
  simp only [List.mem_cons, List.not_mem_nil, or_false] at hi
  obtain rfl | rfl | rfl | rfl | rfl | rfl | rfl | rfl | rfl | rfl | rfl := hi
  · rw [exec_mailboxWrite, execMailboxWrite, mbStep_illegal hdue hill]
  · rw [exec_mailboxRead, execMailboxRead, mbStep_illegal hdue hill]
  · rw [exec_mailboxCopyToDevice, execMailboxCopyToDevice, mbStep_illegal hdue hill]
  · rw [exec_mailboxCopyToHost, execMailboxCopyToHost, mbStep_illegal hdue hill]
  · rw [exec_mailboxLaunch, execMailboxLaunch, mbStep_illegal hdue hill]
  · rw [exec_mailboxReplay, execMailboxReplay, mbStep_illegal hdue hill]
  · rw [exec_mailboxCancel, execMailboxCancel, mbStep_illegal hdue hill]
  · rw [exec_mailboxCancelAsid, execMailboxCancelAsid, mbStep_illegal hdue hill]
  · rw [exec_mailboxTlbinvAll, execMailboxTlbinvAll, mbStep_illegal hdue hill]
  · rw [exec_mailboxTlbinvAsid, execMailboxTlbinvAsid, mbStep_illegal hdue hill]
  · rw [exec_mailboxTlbinvPage, execMailboxTlbinvPage, mbStep_illegal hdue hill]

/-! ### WRITE -/

/-- A write of the mailbox to memory, answered. -/
theorem hostStore_answered {s : State} (hok : s.memOk) {l : Loc} (hl : l.space = .main ∨ l.space = .dsm) (bs : List Byte) (rel : Bool) :
    ∃ t, (s.hostStore l bs rel).respond .ok [] = t ∧
      t = { s with sys := t.sys, mailbox := t.mailbox, main := t.main, dsm := t.dsm, badWords := t.badWords, hist := t.hist, nextId := t.nextId } ∧ Answered s .ok [] t ∧
      t.memRead l bs.length = bs ∧ ∀ l' m, l'.space ≠ .sys → overlaps l bs.length l' m = false → t.memRead l' m = s.memRead l' m := by
  obtain ⟨hstate, hbox, hsame, hapart⟩ := hostStore_stores hok hl bs rel
  have hsys : l.space ≠ .sys := by
    obtain h | h := hl <;> rw [h] <;> exact nofun
  refine ⟨_, rfl, ?_, answered_respond hbox (by rw [hstate]; exact hok.sys) _ _, (memRead_respond _ _ _ hsys _).trans hsame,
    fun l' m hl' ho => (memRead_respond _ _ _ hl' _).trans (hapart l' m ho)⟩
  generalize s.hostStore l bs rel = u at hstate
  rw [respond_only, hstate]

theorem mailboxWrite_mem {s : State} {n : Nat} {l : Loc} (hat : s.mbAt 1) (hn : n = cf s.mailbox.cmd 16 1) (hp : s.mbPlace (cf s.mailbox.cmd 8 8) n = .mem l)
    (hr : s.hostReady l n = true) : exec .mailboxWrite s = .next ((s.hostStore l ((s.mailbox.cmd.drop 24).take n) true).respond .ok []) := by
  subst hn
  rw [exec_mailboxWrite, execMailboxWrite]
  refine (mbStep_applies hat ?_ _).trans ?_
  · exact mbAt_fits hat
  dsimp only
  rw [hp]
  dsimp only
  rw [if_pos hr]

theorem mailboxWrite_item {s s' : State} {n k i lo st} (hat : s.mbAt 1) (hn : n = cf s.mailbox.cmd 16 1) (hp : s.mbPlace (cf s.mailbox.cmd 8 8) n = .item k i lo)
    (hk : ¬(k = .xbar ∧ i / 64 = 255)) (hw : s.tableWrite k i lo ((s.mailbox.cmd.drop 24).take n) = (s', st)) :
    exec .mailboxWrite s = .next (s'.respond st []) := by
  subst hn
  rw [exec_mailboxWrite, execMailboxWrite]
  refine (mbStep_applies hat ?_ _).trans ?_
  · exact mbAt_fits hat
  dsimp only
  rw [hp]
  dsimp only
  rw [if_neg (by simpa using hk), hw]

theorem mailboxWrite_spread {s : State} {n i lo} (hat : s.mbAt 1) (hn : n = cf s.mailbox.cmd 16 1) (hp : s.mbPlace (cf s.mailbox.cmd 8 8) n = .item .xbar i lo)
    (hi : i / 64 = 255) : exec .mailboxWrite s = .next (s.spreadStep i lo ((s.mailbox.cmd.drop 24).take n)) := by
  subst hn
  rw [exec_mailboxWrite, execMailboxWrite]
  refine (mbStep_applies hat ?_ _).trans ?_
  · exact mbAt_fits hat
  dsimp only
  rw [hp]
  dsimp only
  rw [if_pos (by simp [hi])]

theorem mailboxWrite_bad {s : State} {n st} (hat : s.mbAt 1) (hn : n = cf s.mailbox.cmd 16 1) (hp : s.mbPlace (cf s.mailbox.cmd 8 8) n = .bad st) :
    exec .mailboxWrite s = .next (s.respond st []) := by
  subst hn
  rw [exec_mailboxWrite, execMailboxWrite]
  refine (mbStep_applies hat ?_ _).trans ?_
  · exact mbAt_fits hat
  dsimp only
  rw [hp]

theorem length_writeData {s : State} (hat : s.mbAt 1) : ((s.mailbox.cmd.drop 24).take (cf s.mailbox.cmd 16 1)).length = cf s.mailbox.cmd 16 1 := by
  have hn := mbAt_write_size hat
  rw [List.length_take, List.length_drop, Mailbox.length_cmd]
  omega

/-- A pattern for all cores waits in each of them. -/
theorem tableWrite_pattern (s : State) {i : Nat} (hi : i / 64 = 255) (lo : Nat) (data : List Byte) :
    ∃ x : Core → BitVec 512, (s.tableWrite .xbar i lo data).1 = { s with cores := s.cores.map (fun c => { c with xbarNew := some (i % 64, x c) }) } := by
  unfold State.tableWrite
  dsimp only
  rw [if_pos hi]
  exact ⟨_, rfl⟩

/-- Every core takes the pattern at its own turn. -/
theorem spreadStep_starts (s : State) {i : Nat} (hi : i / 64 = 255) (lo : Nat) (data : List Byte) (hs : s.mailbox.spread = false) :
    s.spreadStep i lo data = { s with cores := (s.spreadStep i lo data).cores, mailbox := { s.mailbox with spread := true } } ∧
      ∀ k c, s.core? k = some c → ∃ x, (s.spreadStep i lo data).core? k = some { c with xbarNew := some (i % 64, x) } := by
  obtain ⟨x, hx⟩ := tableWrite_pattern s hi lo data
  have hstep : s.spreadStep i lo data = { s with
      cores := s.cores.map (fun c => { c with xbarNew := some (i % 64, x c) })
      mailbox := { s.mailbox with spread := true } } := by
    unfold State.spreadStep
    rw [hs, hx]
    rfl
  rw [hstep]
  refine ⟨rfl, fun k c hc => ⟨x c, ?_⟩⟩
  unfold State.core? at hc ⊢
  dsimp only
  rw [List.find?_map]
  exact congrArg (Option.map _) hc

theorem spreadStep_ends (s : State) (i lo : Nat) (data : List Byte) (hs : s.mailbox.spread = true) (hc : ∀ c ∈ s.cores, c.xbarNew = none) :
    s.spreadStep i lo data = ({ s with mailbox := { s.mailbox with spread := false } } : State).respond .ok [] := by
  have hnone : s.cores.any (fun c => c.xbarNew.isSome) = false := by
    rw [List.any_eq_false]
    intro c hm
    simp [hc c hm]
  unfold State.spreadStep
  rw [hs, hnone]
  rfl

theorem patternTurn_takes {s : State} {core : Nat} {c : Core} {e x} (hc : s.core? core = some c) (hx : c.xbarNew = some (e, x)) :
    (s.patternTurn core).core? core = some { c with xbar := assocSet c.xbar e x, xbarNew := none } := by
  unfold State.patternTurn
  rw [core?_modCore s core _ (fun u => by split <;> rfl), hc, Option.map_some, if_pos rfl, hx]

end Sys2Proof.Machine
end

section
/-! The other commands of the mailbox, BAR0, and O16 (R161, R162, R280, R376 to R379). -/

namespace Sys2Proof.Machine

/-! ### READ and COPY -/

theorem hostLoad_respond (s : State) (l : Loc) (n : Nat) (acq : Bool) (st : MbStatus) (data : List Byte) :
    (s.hostLoad l n acq).2.respond st data = { s with
      sys := ((s.hostLoad l n acq).2.respond st data).sys
      mailbox := ((s.hostLoad l n acq).2.respond st data).mailbox
      nextId := ((s.hostLoad l n acq).2.respond st data).nextId } := by
  rw [respond_only, hostLoad_state]

/-- What a READ answers, by the place that its address names. -/
theorem mailboxRead_answers {s : State} (hok : s.memOk) (hat : s.mbAt 7) {n : Nat} (hn : n = cf s.mailbox.cmd 16 1) :
    ∃ t st b, exec .mailboxRead s = .next t ∧ t = { s with sys := t.sys, mailbox := t.mailbox, nextId := t.nextId } ∧ Answered s st b t ∧
      (∀ l, s.mbPlace (cf s.mailbox.cmd 8 8) n = .mem l → st = .ok ∧ b.length = n ∧ ((∀ x ∈ s.hist, overlaps x.loc 4 l n = false) → b = s.memRead l n)) ∧
      (∀ k i lo, s.mbPlace (cf s.mailbox.cmd 8 8) n = .item k i lo → (∀ x, s.tableRead k i lo n = some x → st = .ok ∧ b = x) ∧ (s.tableRead k i lo n = none → st = .refused)) ∧
      (∀ x, s.mbPlace (cf s.mailbox.cmd 8 8) n = .bad x → st = x) := by
  have hpos : 0 < n := hn ▸ (mbAt_read_size hat).1
  have hexec : ∀ t, (match s.mbPlace (cf s.mailbox.cmd 8 8) n with
      | .bad st => s.respond st []
      | .mem l => (s.hostLoad l n true).2.respond .ok (s.hostLoad l n true).1
      | .item k i lo => match s.tableRead k i lo n with
        | some b => s.respond .ok b
        | none => s.respond .refused []) = t → exec .mailboxRead s = .next t := by
    rintro t rfl
    rw [exec_mailboxRead, execMailboxRead]
    refine (mbStep_applies hat ?_ _).trans ?_
    · exact mbAt_fits hat
    · subst hn
      rfl
  cases hp : s.mbPlace (cf s.mailbox.cmd 8 8) n with
  | bad st =>
    refine ⟨_, st, [], hexec (s.respond st []) (by rw [hp]), ?_, answered_only hok _ _, nofun, nofun, fun x hx => by cases hx; rfl⟩
    rw [respond_only]
  | mem l =>
    refine ⟨_, .ok, (s.hostLoad l n true).1, hexec ((s.hostLoad l n true).2.respond .ok (s.hostLoad l n true).1) (by rw [hp]), hostLoad_respond ..,
      answered_respond (hostLoad_box ..) ?_ _ _, fun l' hl' => ?_, nofun, nofun⟩
    · rw [hostLoad_state]
      exact hok.sys
    · cases hl'
      exact ⟨rfl, hostLoad_length s l true hpos, hostLoad_settled true hpos⟩
  | item k i lo =>
    cases hr : s.tableRead k i lo n with
    | some b =>
      refine ⟨_, .ok, b, hexec (s.respond .ok b) (by rw [hp]; dsimp only; rw [hr]), by rw [respond_only], answered_only hok _ _, nofun, fun k' i' lo' h' => ?_, nofun⟩
      cases h'
      rw [hr]
      exact ⟨fun x hx => ⟨rfl, Option.some.inj hx⟩, nofun⟩
    | none =>
      refine ⟨_, .refused, [], hexec (s.respond .refused []) (by rw [hp]; dsimp only; rw [hr]), by rw [respond_only], answered_only hok _ _, nofun, fun k' i' lo' h' => ?_, nofun⟩
      cases h'
      rw [hr]
      exact ⟨nofun, fun _ => rfl⟩

theorem mailboxCopyToDevice_mem {s : State} {n : Nat} {l : Loc} (hat : s.mbAt 2) (hdir : cf s.mailbox.cmd 28 1 = 0) (hn : n = cf s.mailbox.cmd 24 4)
    (hp : s.mbPlace (cf s.mailbox.cmd 8 8) n = .mem l) (hr : s.hostReady l n = true) :
    exec .mailboxCopyToDevice s = .next ((s.hostStore l (s.memRead ⟨.sys, cf s.mailbox.cmd 16 8⟩ n) false).respond .ok []) := by
  subst hn
  rw [exec_mailboxCopyToDevice, execMailboxCopyToDevice]
  refine (mbStep_applies hat ?_ _).trans ?_
  · exact Bool.and_eq_true_iff.mpr ⟨mbAt_fits hat, beq_iff_eq.mpr hdir⟩
  · dsimp only
    rw [hp]
    dsimp only
    rw [if_pos hr]

theorem mailboxCopyToHost_mem {s : State} {n : Nat} {l : Loc} (hat : s.mbAt 2) (hdir : cf s.mailbox.cmd 28 1 = 1) (hn : n = cf s.mailbox.cmd 24 4)
    (hp : s.mbPlace (cf s.mailbox.cmd 8 8) n = .mem l) :
    exec (.mailboxCopyToHost true) s = .next (((s.hostLoad l n false).2.memWrite ⟨.sys, cf s.mailbox.cmd 16 8⟩ (s.hostLoad l n false).1).respond .ok []) := by
  subst hn
  rw [exec_mailboxCopyToHost, execMailboxCopyToHost]
  refine (mbStep_applies hat ?_ _).trans ?_
  · exact Bool.and_eq_true_iff.mpr ⟨mbAt_fits hat, beq_iff_eq.mpr hdir⟩
  · dsimp only
    rw [hp]
    rfl

/-- Host memory written, with the record of the writes there. -/
theorem memWrite_host (s : State) (a : Nat) (bs : List Byte) :
    s.memWrite ⟨.sys, a⟩ bs = { s with sys := s.sys.writeBytes a bs, badWords := (s.memWrite ⟨.sys, a⟩ bs).badWords, hist := (s.memWrite ⟨.sys, a⟩ bs).hist } := by
  unfold State.memWrite State.memStore
  dsimp only
  split <;> split <;> rfl

/-- The response leaves the host's bytes outside it. -/
theorem memRead_respond_apart {s : State} (hw : s.sys.wf = true) (st : MbStatus) (data : List Byte) {a n : Nat}
    (ho : overlaps ⟨.sys, a⟩ n ⟨.sys, s.mailbox.rspBase + 64 * s.mailbox.head.toNat⟩ 64 = false) :
    (s.respond st data).memRead ⟨.sys, a⟩ n = s.memRead ⟨.sys, a⟩ n := by
  unfold overlaps at ho
  rw [beq_self_eq_true, Bool.true_and, decide_eq_false_iff_not] at ho
  dsimp only at ho
  unfold State.memRead State.memOf State.respond
  dsimp only
  refine Memory.readBytes_writeBytes_other _ _ _ _ _ hw ?_
  rw [List.length_take]
  omega

theorem mailboxCopyToHost_copies {s : State} (hok : s.memOk) (l : Loc) {n : Nat} (hn : 0 < n) (a : Nat) :
    ∃ t, ((s.hostLoad l n false).2.memWrite ⟨.sys, a⟩ (s.hostLoad l n false).1).respond .ok [] = t ∧
      t = { s with sys := t.sys, mailbox := t.mailbox, badWords := t.badWords, hist := t.hist, nextId := t.nextId } ∧ Answered s .ok [] t ∧
      ((∀ x ∈ s.hist, overlaps x.loc 4 l n = false) → overlaps ⟨.sys, a⟩ n ⟨.sys, s.mailbox.rspBase + 64 * s.mailbox.head.toNat⟩ 64 = false →
        t.memRead ⟨.sys, a⟩ n = s.memRead l n) := by
  have hstate := hostLoad_state s l n false
  have hbox := hostLoad_box s l n false
  have hlen := hostLoad_length s l false hn
  have hval := hostLoad_settled (s := s) (l := l) false hn
  generalize s.hostLoad l n false = r at hstate hbox hlen hval
  obtain ⟨bs, u⟩ := r
  dsimp only at hstate hbox hlen hval ⊢
  have hw : u.sys = s.sys := by rw [hstate]
  have hwrite := memWrite_host u a bs
  have hsys : (u.memWrite ⟨.sys, a⟩ bs).sys.wf = true := by
    rw [hwrite, hw]
    exact Memory.writeBytes_wf _ _ _ hok.sys
  have hbox' : s.BoxKept (u.memWrite ⟨.sys, a⟩ bs) := hbox.trans (by rw [hwrite]; exact .same rfl rfl)
  refine ⟨_, rfl, ?_, answered_respond hbox' hsys _ _, fun hset ho => ?_⟩
  · rw [respond_only, hwrite, hstate]
  · rw [← hbox'.rspBase, ← hbox'.head] at ho
    rw [memRead_respond_apart hsys _ _ ho, ← hval hset, ← hlen]
    unfold State.memRead State.memOf
    rw [hwrite]
    dsimp only
    exact Memory.readBytes_writeBytes _ _ _ (hw ▸ hok.sys)

end Sys2Proof.Machine
end

section
/-! LAUNCH, REPLAY, CANCEL and TLBINV of the mailbox, BAR0, and O16 (R161, R162, R268, R280, R376, R377). -/

namespace Sys2Proof.Machine

/-! ### LAUNCH -/

theorem mailboxLaunch_takes {s : State} (hat : s.mbAt 3) (ht : (s.queue (cf s.mailbox.cmd 16 1)).takes 1 = true) :
    exec .mailboxLaunch s = .next ((s.append (cf s.mailbox.cmd 16 1)
      [{ record := BitVec.ofNat 64 (cf s.mailbox.cmd 8 8), priv := true, parent := 0#32, view := s.mailbox.view }]).respond .ok []) := by
  rw [exec_mailboxLaunch, execMailboxLaunch]
  refine (mbStep_applies hat ?_ _).trans ?_
  · exact mbAt_fits hat
  · dsimp only
    rw [if_pos ht]

theorem mailboxLaunch_refused {s : State} (hat : s.mbAt 3) (ht : (s.queue (cf s.mailbox.cmd 16 1)).takes 1 = false) :
    exec .mailboxLaunch s = .next (s.respond .refused []) := by
  rw [exec_mailboxLaunch, execMailboxLaunch]
  refine (mbStep_applies hat ?_ _).trans ?_
  · exact mbAt_fits hat
  · dsimp only
    rw [if_neg (by simp [ht])]

theorem append_queue (s : State) (q : Nat) (es : List QEntry) : (s.append q es).queue q = { s.queue q with entries := (s.queue q).entries ++ es } :=
  queue_modQueue_same s q _ (queue_id s q)

/-! ### REPLAY -/

/-- Where no word is bad, every named record is given its walk, and no launch is stopped. -/
theorem replayAll_settled {s : State} (hbad : s.badWords = []) (a : Option Nat) :
    s.replayAll a = { s with faults := s.faults.map (fun f => if a.isNone || a == some f.asid then { f with walks := f.walks ++ [s.walkRec f] } else f) } := by
  unfold State.replayAll State.replayBad
  rw [hbad]
  rfl

theorem mailboxReplay_walks {s : State} (hat : s.mbAt 4) : exec .mailboxReplay s =
    .next ((s.replayAll (if cf s.mailbox.cmd 8 2 = 0xFFFF then none else some (cf s.mailbox.cmd 8 2))).respond .ok []) := by
  rw [exec_mailboxReplay, execMailboxReplay]
  refine (mbStep_applies hat ?_ _).trans rfl
  exact mbAt_fits hat

/-- The records that a REPLAY names: all, or those of one ASID. -/
theorem replayNamed_iff (all : Prop) [Decidable all] (c a : Nat) :
    ((if all then none else some c : Option Nat).isNone || (if all then none else some c) == some a) = true ↔ all ∨ a = c := by
  by_cases h : all
  · simp [h]
  · rw [if_neg h]
    simpa [h] using eq_comm

theorem replayAll_named {s : State} (hbad : s.badWords = []) (c : Nat) :
    s.replayAll (if c = 0xFFFF then none else some c) =
      { s with faults := s.faults.map (fun f => if c = 0xFFFF ∨ f.asid = c then { f with walks := f.walks ++ [s.walkRec f] } else f) } := by
  rw [replayAll_settled hbad]
  exact congrArg (fun l : List FaultRec => { s with faults := l }) (List.map_congr_left fun (f : FaultRec) _ => if_congr (replayNamed_iff (c = 0xFFFF) c f.asid) rfl rfl)

/-! ### CANCEL -/

theorem mailboxCancel_cancels {s : State} (hat : s.mbAt 5) (hk : cf s.mailbox.cmd 12 1 = 0) :
    exec .mailboxCancel s = .next ((s.cancelId (cf s.mailbox.cmd 8 4)).respond .ok []) := by
  rw [exec_mailboxCancel, execMailboxCancel]
  refine (mbStep_applies hat ?_ _).trans rfl
  exact Bool.and_eq_true_iff.mpr ⟨mbAt_fits hat, beq_iff_eq.mpr hk⟩

theorem mailboxCancelAsid_cancels {s : State} (hat : s.mbAt 5) (hk : cf s.mailbox.cmd 12 1 = 1) :
    exec .mailboxCancelAsid s = .next ((s.cancelAsid (cf s.mailbox.cmd 13 2)).respond .ok []) := by
  rw [exec_mailboxCancelAsid, execMailboxCancelAsid]
  refine (mbStep_applies hat ?_ _).trans rfl
  exact Bool.and_eq_true_iff.mpr ⟨mbAt_fits hat, beq_iff_eq.mpr hk⟩

theorem respond_faults (s : State) (st : MbStatus) (data : List Byte) : (s.respond st data).faults = s.faults := by rw [respond_only]

/-- The named record has left the queue. -/
theorem cancelId_leaves (s : State) (id : Nat) : ∀ f ∈ (s.cancelId id).faults, f ∈ s.faults ∧ f.id ≠ id := by
  intro f hf
  unfold State.cancelId at hf
  split at hf
  next r hr =>
    have hid : r.id = id := by simpa using List.find?_some hr
    have hm := (State.BoxKept.fatalRec_dropped s r).faults f hf
    rw [hid] at hm
    unfold State.dropFault at hm
    simpa using hm
  next hr =>
    rw [List.find?_eq_none] at hr
    exact ⟨hf, by simpa using hr f hf⟩

theorem cancelId_none {s : State} {id : Nat} (h : ∀ f ∈ s.faults, f.id ≠ id) : s.cancelId id = s := by
  have hnone : s.faults.find? (fun f => f.id == id) = none := List.find?_eq_none.mpr fun f hf => by simpa using h f hf
  unfold State.cancelId
  rw [hnone]

/-- Every named record has left the queue. -/
theorem cancelIds_leave (ids : List Nat) (s : State) : ∀ f ∈ (ids.foldl (fun (s : State) i => s.cancelId i) s).faults, f ∈ s.faults ∧ f.id ∉ ids := by
  induction ids generalizing s with
  | nil => exact fun f hf => ⟨hf, List.not_mem_nil⟩
  | cons i r ih =>
    intro f hf
    obtain ⟨hm, hr⟩ := ih (s.cancelId i) f hf
    obtain ⟨hm, hi⟩ := cancelId_leaves s i f hm
    exact ⟨hm, fun h => (List.mem_cons.mp h).elim hi hr⟩

theorem cancelAsid_leaves (s : State) (a : Nat) : ∀ f ∈ (s.cancelAsid a).faults, f ∈ s.faults ∧ f.asid ≠ a := by
  intro f hf
  obtain ⟨hm, hid⟩ := cancelIds_leave _ s f hf
  refine ⟨hm, fun ha => hid (List.mem_map_of_mem (f := FaultRec.id) (List.mem_filter.mpr ⟨hm, beq_iff_eq.mpr ha⟩))⟩

theorem cancelAsid_none {s : State} {a : Nat} (h : ∀ f ∈ s.faults, f.asid ≠ a) : s.cancelAsid a = s := by
  have hnone : s.faults.filter (fun f => f.asid == a) = [] := List.filter_eq_nil_iff.mpr fun f hf => by simpa using h f hf
  unfold State.cancelAsid
  rw [hnone]
  rfl

/-! ### TLBINV -/

/-- The word of a TLBINV command that names its kind (R377). -/
def tlbinvCode : TlbKind → Nat
  | .all => 0
  | .asid => 1
  | .page => 2

theorem mailboxTlbinv_drops {s : State} (hat : s.mbAt 6) {x : Instr × TlbKind}
    (hx : x ∈ [(Instr.mailboxTlbinvAll, TlbKind.all), (.mailboxTlbinvAsid, .asid), (.mailboxTlbinvPage, .page)]) (hk : cf s.mailbox.cmd 8 1 = tlbinvCode x.2) :
    exec x.1 s = .next (s.mbTlbinv x.2 s.mailbox.cmd) := by
  simp only [List.mem_cons, List.not_mem_nil, or_false] at hx
  obtain rfl | rfl | rfl := hx
  · rw [exec_mailboxTlbinvAll, execMailboxTlbinvAll]
    refine (mbStep_applies hat ?_ _).trans rfl
    exact Bool.and_eq_true_iff.mpr ⟨mbAt_fits hat, beq_iff_eq.mpr hk⟩
  · rw [exec_mailboxTlbinvAsid, execMailboxTlbinvAsid]
    refine (mbStep_applies hat ?_ _).trans rfl
    exact Bool.and_eq_true_iff.mpr ⟨mbAt_fits hat, beq_iff_eq.mpr hk⟩
  · rw [exec_mailboxTlbinvPage, execMailboxTlbinvPage]
    refine (mbStep_applies hat ?_ _).trans rfl
    exact Bool.and_eq_true_iff.mpr ⟨mbAt_fits hat, beq_iff_eq.mpr hk⟩

/-- A new TLBINV drops its translations, and is answered or waits. -/
theorem mbTlbinv_starts {s : State} (hinv : s.mailbox.inv = none) (kind : TlbKind) (c : List Byte) :
    ∃ m y, s.mbTlbinv kind c = { s.tlbDrop kind (cf c 10 2) (cf c 16 8 % 2 ^ 57) with mailbox := m, sys := y } := by
  unfold State.mbTlbinv
  rw [hinv]
  dsimp only
  split
  · exact ⟨_, _, respond_only _ _ _⟩
  · exact ⟨_, _, rfl⟩

/-- Where no copy, DONE write or command is outstanding, it is answered at once. -/
theorem mbTlbinv_idle {s : State} (hinv : s.mailbox.inv = none) (kind : TlbKind) (c : List Byte) (hx : s.xfers = []) (hd : s.dones = [])
    (hc : ∀ n, s.cmdLive n = false) : s.mbTlbinv kind c = (s.tlbDrop kind (cf c 10 2) (cf c 16 8 % 2 ^ 57)).respond .ok [] := by
  have hlanes : s.tlbLanes kind (cf c 10 2) (cf c 16 8 % 2 ^ 57) = [] := by
    unfold State.tlbLanes
    rw [hx]
    rfl
  have hlines : s.tlbLines kind (cf c 10 2) (cf c 16 8 % 2 ^ 57) = [] := by
    unfold State.tlbLines
    rw [hx, hd]
    rfl
  have hlive : ∀ n, (s.tlbDrop kind (cf c 10 2) (cf c 16 8 % 2 ^ 57)).cmdLive n = false := hc
  unfold State.mbTlbinv
  rw [hinv]
  dsimp only
  rw [if_pos]
  unfold State.tlbDone
  rw [hlanes, hlines, Bool.and_eq_true_iff, List.all_eq_true]
  exact ⟨rfl, fun i _ => by rw [hlive i]; rfl⟩

/-- The entries that a TLBINV leaves in a core. -/
theorem tlbDrop_core? (s : State) (kind : TlbKind) (a v k : Nat) : (s.tlbDrop kind a v).core? k = (s.core? k).map (fun c => { c with tlb := c.tlb.filter (fun e => !e.dropped kind a v) }) := by
  unfold State.tlbDrop State.core?
  dsimp only
  rw [List.find?_map]
  rfl

/-- What a TLBINV of a kind leaves: nothing, the entries of other ASIDs, or with those the leaves of other pages (R162). -/
def TlbStays (kind : TlbKind) (a v : Nat) (e : TlbEntry) : Prop :=
  match kind with
  | .all => False
  | .asid => e.asid ≠ a
  | .page => ¬(e.asid = a ∧ (e.pte.getLsbD 1 = false ∨ e.vpath = v / 2 ^ levelShift e.level))

theorem not_dropped_iff (e : TlbEntry) (kind : TlbKind) (a v : Nat) : (!e.dropped kind a v) = true ↔ TlbStays kind a v e := by
  unfold TlbStays
  cases kind
  · simp [TlbEntry.dropped]
  · simp [TlbEntry.dropped]
  · simp [TlbEntry.dropped, imp_iff_not_or]

/-! ### BAR0 -/

/-- The byte of a register at an offset within it. -/
theorem barRead_word {s : State} {off base j : Nat} (hbase : base % 8 = 0) (hlo : 0x4000 ≤ base) (hj : j < 8) (hoff : off = base + j)
    (hb : s.onlyBoot = false ∨ base = 0x4028) : s.barRead off = BitVec.ofNat 8 (s.barWord base / 2 ^ (8 * j)) := by
  have hword : off / 8 * 8 = base := by omega
  have hbyte : off % 8 = j := by omega
  unfold State.barRead
  rw [hword, hbyte, if_neg, if_neg (by omega)]
  · exact BitVec.eq_of_toNat_eq (by simp)
  · obtain h | h := hb <;> simp [h]

theorem barRead_zero {s : State} {off : Nat} (hb : s.onlyBoot = true) (hoff : ¬(0x4028 ≤ off ∧ off < 0x4030)) : s.barRead off = 0#8 := by
  have hword : off / 8 * 8 ≠ 0x4028 := by omega
  unfold State.barRead
  rw [if_pos (by simp [hb, hword])]

theorem barRead_slot {s : State} {off : Nat} (hb : s.onlyBoot = false) (hoff : off < 0x4000) : s.barRead off = s.mailbox.slots.read off := by
  unfold State.barRead
  rw [if_neg (by simp [hb]), if_pos hoff]

theorem barWord_above (s : State) {off : Nat} (h : 0x4030 ≤ off) : s.barWord off = 0 := by
  unfold State.barWord
  split <;> omega

theorem barRead_above {s : State} {off : Nat} (hb : s.onlyBoot = false) (hoff : 0x4030 ≤ off) : s.barRead off = 0#8 := by
  rw [barRead_word (base := off / 8 * 8) (j := off % 8) (by omega) (by omega) (by omega) (by omega) (.inl hb), barWord_above s (by omega), Nat.zero_div]

end Sys2Proof.Machine
end

section
/-! O16: the mailbox's events, from what each command does and what it leaves. -/

namespace Sys2Proof.Machine

theorem respond_answers {s : State} (hok : s.memOk) (st : MbStatus) : ∃ t, s.respond st [] = t ∧ t = { s with sys := t.sys, mailbox := t.mailbox } ∧ Answered s st [] t :=
  ⟨_, rfl, respond_only .., answered_only hok ..⟩

/-- The mailbox after an answer. -/
theorem respond_mailbox (s : State) (st : MbStatus) (data : List Byte) :
    s.respond st data = { s with
      sys := (s.respond st data).sys
      mailbox := { s.mailbox with head := (s.respond st data).mailbox.head, inv := none, spread := false } } := by
  unfold State.respond
  dsimp only

/-- An item of the tables written, and its answer. -/
theorem tableWrite_answers {s s' : State} {k : TableKind} {i lo : Nat} {data : List Byte} {st : MbStatus} (hw : s.tableWrite k i lo data = (s', st)) (hwf : s'.sys.wf = true) :
    Answered s st [] (s'.respond st []) :=
  answered_respond (by simpa [hw] using State.BoxKept.tableWrite s k i lo data) hwf ..

/-- Fields of the device are not written, and the engine's state refuses it. -/
theorem tableWrite_ignored {s s' : State} {k : TableKind} {i lo : Nat} {data : List Byte} {st : MbStatus} (hw : s.tableWrite k i lo data = (s', st)) :
    (k = .csr ∨ k = .region → s' = s ∧ st = .ok) ∧ (k = .cdEngine → s' = s ∧ st = .refused) := by
  refine ⟨?_, ?_⟩
  · rintro (rfl | rfl)
    · exact (Prod.mk.inj hw).imp Eq.symm Eq.symm
    · exact (Prod.mk.inj hw).imp Eq.symm Eq.symm
  · rintro rfl
    exact (Prod.mk.inj hw).imp Eq.symm Eq.symm

/-- A CANCEL's answer, after records that left the queue. -/
theorem cancel_answers {s u : State} (hbox : s.BoxKept u) (hok : u.memOk) : Answered s .ok [] (u.respond .ok []) := answered_respond hbox hok.sys ..

theorem mailboxLaunch_appends {s : State} (hok : s.memOk) (q : Nat) (es : List QEntry) :
    ∃ t, (s.append q es).respond .ok [] = t ∧ t = { s with sys := t.sys, mailbox := t.mailbox, queues := t.queues } ∧ Answered s .ok [] t ∧
      t.queue q = { s.queue q with entries := (s.queue q).entries ++ es } := by
  have hstate : s.append q es = { s with queues := (s.append q es).queues } := rfl
  have hqueue := append_queue s q es
  generalize s.append q es = u at hstate hqueue
  have hbox : s.BoxKept u := by
    rw [hstate]
    exact .same rfl rfl
  have hsys : u.sys.wf = true := by
    rw [hstate]
    exact hok.sys
  have hans := answered_respond hbox hsys .ok []
  have honly := respond_only u .ok []
  generalize u.respond .ok [] = t at hans honly
  refine ⟨t, rfl, by rw [honly, hstate], hans, ?_⟩
  rw [honly, ← hqueue]
  rfl

/-- Records that are given their walks leave the command at HEAD as it was. -/
theorem mailboxReplay_answers {s : State} (hok : s.memOk) (hbad : s.badWords = []) (c : Nat) :
    ∃ t, (s.replayAll (if c = 0xFFFF then none else some c)).respond .ok [] = t ∧ t = { s with sys := t.sys, mailbox := t.mailbox, faults := t.faults } ∧ Answered s .ok [] t ∧
      t.faults = s.faults.map (fun f => if c = 0xFFFF ∨ f.asid = c then { f with walks := f.walks ++ [s.walkRec f] } else f) := by
  rw [replayAll_named hbad]
  have h := answered_only hok .ok []
  exact ⟨_, rfl, respond_only .., ⟨h.response, h.head⟩, respond_faults ..⟩

theorem mailboxTlbinv_leaves {s : State} (hok : s.memOk) (hinv : s.mailbox.inv = none) (kind : TlbKind) :
    ∃ t, s.mbTlbinv kind s.mailbox.cmd = t ∧ t = { s with sys := t.sys, mailbox := t.mailbox, cores := t.cores } ∧
      (∀ k c, s.core? k = some c → ∃ c', t.core? k = some c' ∧ c' = { c with tlb := c'.tlb } ∧ ∀ e, e ∈ c'.tlb ↔ e ∈ c.tlb ∧
        TlbStays kind (cf s.mailbox.cmd 10 2) (cf s.mailbox.cmd 16 8 % 2 ^ 57) e) ∧
      (s.xfers = [] → s.dones = [] → (∀ n, s.cmdLive n = false) → Answered s .ok [] t) := by
  obtain ⟨m, y, hstart⟩ := mbTlbinv_starts hinv kind s.mailbox.cmd
  refine ⟨_, rfl, ?_, fun k c hc => ?_, fun hx hd hl => ?_⟩
  · rw [hstart]
    rfl
  · rw [hstart]
    refine ⟨_, (tlbDrop_core? s kind _ _ k).trans (congrArg (Option.map _) hc), rfl, fun e => ?_⟩
    rw [List.mem_filter, not_dropped_iff]
  · rw [mbTlbinv_idle hinv kind _ hx hd hl]
    have h := answered_only hok .ok []
    exact ⟨h.response, h.head⟩

theorem tlbinvCode_eq (kind : TlbKind) : (match kind with
    | .all => 0
    | .asid => 1
    | .page => 2 : Nat) = tlbinvCode kind := by cases kind <;> rfl

/-- Settles O16: every command is applied by the step lemma of its own event, and answered where what it does has kept the mailbox. -/
theorem mailboxEvents : Obligations.MailboxEvents := by
  unfold Obligations.MailboxEvents
  refine ⟨fun s tail => ⟨_, rfl, rfl⟩, ?illegal, ?write, ?item, ?spread, fun s core c e x hc hx => patternTurn_takes hc hx, ?writeBad, ?read, ?toDevice, ?toHost, ?launch,
    ?launchRefused, ?replay, ?cancel, ?cancelAsid, ?tlbinv, ?boot, fun s off hb hoff => barRead_zero hb hoff, ?bar⟩
  case illegal =>
    intro s hok hdue hill i hi
    obtain ⟨t, ht, h⟩ := respond_answers hok .illegal
    exact ⟨t, ht ▸ mailbox_illegal hdue hill hi, h⟩
  case write =>
    intro s n l hok hat hn hp hr
    obtain ⟨t, ht, h⟩ := hostStore_answered hok (mbPlace_mem hp) ((s.mailbox.cmd.drop 24).take n) true
    have hlen : ((s.mailbox.cmd.drop 24).take n).length = n := hn ▸ length_writeData hat
    rw [hlen] at h
    exact ⟨t, ht ▸ mailboxWrite_mem hat hn hp hr, h⟩
  case item =>
    intro s n k i lo s' st hat hn hp hk hw hwf
    exact ⟨_, mailboxWrite_item hat hn hp hk hw, tableWrite_answers hw hwf, respond_mailbox .., tableWrite_ignored hw⟩
  case spread =>
    intro s n i lo hok hat hn hp hi
    refine ⟨fun hs => ⟨_, mailboxWrite_spread hat hn hp hi, spreadStep_starts s hi lo _ hs⟩, fun hs hc => ⟨_, mailboxWrite_spread hat hn hp hi, ?_⟩⟩
    rw [spreadStep_ends s i lo _ hs hc]
    have hbox : s.BoxKept { s with mailbox := { s.mailbox with spread := false } } := ⟨rfl, rfl, rfl, fun _ h => h⟩
    exact ⟨answered_respond hbox hok.sys .., respond_mailbox ..⟩
  case writeBad =>
    intro s n st hok hat hn hp
    obtain ⟨t, ht, h⟩ := respond_answers hok st
    exact ⟨t, ht ▸ mailboxWrite_bad hat hn hp, h⟩
  case read =>
    exact fun s n hok hat hn => mailboxRead_answers hok hat hn
  case toDevice =>
    intro s n l hok hat hdir hn hp hr
    obtain ⟨t, ht, hstate, hans, hsame, -⟩ := hostStore_answered hok (mbPlace_mem hp) (s.memRead ⟨.sys, cf s.mailbox.cmd 16 8⟩ n) false
    have hlen : (s.memRead ⟨.sys, cf s.mailbox.cmd 16 8⟩ n).length = n := Memory.length_readBytes ..
    rw [hlen] at hsame
    exact ⟨t, ht ▸ mailboxCopyToDevice_mem hat hdir hn hp hr, hstate, hans, hsame⟩
  case toHost =>
    intro s n l hok hat hdir hn hp
    have hpos : 0 < n := Nat.lt_of_lt_of_le (by decide) (hn ▸ mbAt_copy_size hat)
    obtain ⟨t, ht, h⟩ := mailboxCopyToHost_copies hok l hpos (cf s.mailbox.cmd 16 8)
    exact ⟨t, ht ▸ mailboxCopyToHost_mem hat hdir hn hp, h⟩
  case launch =>
    rintro s q hok hat rfl hq
    obtain ⟨t, ht, h⟩ := mailboxLaunch_appends hok (cf s.mailbox.cmd 16 1) _
    exact ⟨t, ht ▸ mailboxLaunch_takes hat hq, h⟩
  case launchRefused =>
    rintro s q hok hat rfl hq
    obtain ⟨t, ht, h⟩ := respond_answers hok .refused
    exact ⟨t, ht ▸ mailboxLaunch_refused hat hq, h⟩
  case replay =>
    intro s hok hat hbad
    obtain ⟨t, ht, h⟩ := mailboxReplay_answers hok hbad (cf s.mailbox.cmd 8 2)
    exact ⟨t, ht ▸ mailboxReplay_walks hat, h⟩
  case cancel =>
    intro s hok hat hk
    refine ⟨_, mailboxCancel_cancels hat hk, cancel_answers (.cancelId s _) ((State.cancelId_kept s _ (.refl s)).mem hok), ?_, fun hnone => ?_⟩
    · rw [respond_faults]
      exact cancelId_leaves s _
    · rw [cancelId_none hnone]
      exact respond_only ..
  case cancelAsid =>
    intro s hok hat hk
    refine ⟨_, mailboxCancelAsid_cancels hat hk, cancel_answers (.cancelAsid s _) ((State.cancelAsid_kept s _ (.refl s)).mem hok), ?_, fun hnone => ?_⟩
    · rw [respond_faults]
      exact cancelAsid_leaves s _
    · rw [cancelAsid_none hnone]
      exact respond_only ..
  case tlbinv =>
    intro s x hok hat hx hk hinv
    obtain ⟨t, ht, h⟩ := mailboxTlbinv_leaves hok hinv x.2
    exact ⟨t, ht ▸ mailboxTlbinv_drops hat hx (hk.trans (tlbinvCode_eq x.2)), h⟩
  case boot =>
    intro s j hj
    rw [barRead_word (base := 0x4028) (by decide) (by decide) hj rfl (.inr rfl)]
    exact BitVec.eq_of_toNat_eq (by simp [State.barWord])
  case bar =>
    intro s off hb
    have hword : ∀ {base j : Nat}, base % 8 = 0 → 0x4000 ≤ base → j < 8 → off = base + j → s.barRead off = BitVec.ofNat 8 (s.barWord base / 2 ^ (8 * j)) :=
      fun hbase hlo hj hoff => barRead_word hbase hlo hj hoff (.inl hb)
    exact ⟨barRead_slot hb, barRead_above hb, fun j hj => ⟨hword (by decide) (by decide) hj, hword (by decide) (by decide) hj, hword (by decide) (by decide) hj,
      hword (by decide) (by decide) hj, hword (by decide) (by decide) hj⟩⟩

end Sys2Proof.Machine
end
